-- ==== Sys2Proof/Word.lean ====
section
/-!
DEFINITION. Sys2Proof/Word.lean: the word types of the CAE-S960 (R5, R20), and the records that its
steps name.
-/

namespace Sys2Proof

/-- A register of the sequencer, an address register, a doubleword of memory. -/
abbrev Word := BitVec 64

/-- A byte of memory (R5). -/
abbrev Byte := BitVec 8

/-- A vector register (Table 01.6). -/
abbrev VReg := BitVec 1024

/-- A mask register (Table 01.6). -/
abbrev MReg := BitVec 256

/-- A cluster of the device, by logical die and cluster number (R8, R12). -/
structure ClusterId where
  die : Fin 64
  cluster : Fin 8
deriving DecidableEq, Repr

/-- What carries a message to the device (R337): an Ethernet frame of some type, a UDP datagram to some port, or a frame that carries none. -/
inductive Framing where
  | ether (type : BitVec 16)
  | udp (port : BitVec 16)
  | other
deriving DecidableEq, Repr

/-- A host message (Table 19.1): the fields of its 32-byte header and its payload (R338). `short` says that the frame
is shorter than 32 bytes (R337). -/
structure HostMsg where
  version : BitVec 8
  type : BitVec 8
  flags : BitVec 8
  status : BitVec 8
  stream : BitVec 16
  len : BitVec 16
  seq : BitVec 32
  ack : BitVec 32
  addr : BitVec 64
  arg : BitVec 64
  payload : List (BitVec 8)
  short : Bool
  frame : Framing
deriving DecidableEq, Repr

/-- What another member device contributes to a reduction (R352, R353): its port rank, the STEP, TYPE and COUNT it posted and
its source elements as bit patterns of the element's width. -/
structure Contribution where
  rank : Nat
  step : BitVec 64
  type : BitVec 8
  count : BitVec 32
  elems : List Nat
deriving DecidableEq, Repr

/-- The special registers of Table 03.1 (R44). -/
inductive SpecialReg where
  | pc | tsw | wid | trec | frame | tidx | lrec | slen | coreEn | skew | vl | vtype | gpos | gseedA | gseedB
  | tvb | tpc | tcause | tval | blkdone | tstep | cycle | lc0 | lc1 | lc2 | lc3 | lc4 | lc5
deriving DecidableEq, Repr

/-- What a step outside a slot concerns: the cluster or die, two numbers whose meaning the step says (a command, a
launch, a handle, an agent of the cluster), an address or value, the host's message, the other devices' contributions. -/
structure Subject where
  c : ClusterId
  a : Nat
  b : Nat
  value : BitVec 64
  msg : HostMsg
  others : List Contribution
deriving DecidableEq, Repr

end Sys2Proof
end

