-- ==== Sys2Proof/Config.lean ====
section
/-!
DEFINITION. Sys2Proof/Config.lean: what is fixed for the device, and the values the spec leaves open. An opaque constant
has no body anyone can evaluate: a statement about it holds for every value.
-/

namespace Sys2Proof.Config

/-- Main memory lies at physical addresses 0x0 to 0x17F_FFFF_FFFF (R70). -/
def memTop : Nat := 0x18000000000

/-- The heap descriptor table base that the firmware sets up (R95). The spec gives no number. DESIGN CHOICE (log 3), unsafe. -/
def heapTable : Nat := 0x17F00000000

/-- The base of the default fault queue of a die (R322), in device-private memory. DESIGN CHOICE (log 3), unsafe. -/
def faultQueueBase (die : Nat) : Nat := 0x17F10000000 + die * 0x2000

/-- How many records a queue of a die holds (R261): storage that the firmware sets aside. The spec gives no number. DESIGN CHOICE (log 3), unsafe. -/
def queueRoom : Nat := 65536

/-- Whether the k-th read inside an exposed-latency window sees the newer value (R2, R17). Free (log 4), safe. -/
opaque windowPick : Nat → Bool

/-- Whether an access in a cycle by an agent acts on the value that software has written to a field that the hardware owns (R95). Free (log 35),
safe. -/
opaque heapPick : Nat → Nat → Bool

/-- The home slice of a physical line on a die, a fixed hash that is not architectural (R121). Free (log 16), safe. -/
opaque homeSlice : Nat → Fin 160

/-- Which line or block of a full slice the k-th replacement removes (R125). Free (log 16), safe. -/
opaque victim : Nat → Nat

/-- Whether PROD counts the k-th record whose place in the trace ring lies past main memory (R356). Free (log 33), safe. -/
opaque recordKept : Nat → Bool

/-- The signature of the device identity key over a byte string (R349). Free (log 12), safe. -/
opaque sign : List Byte → BitVec 19360

/-- Whether the ML-DSA-44 signature of a firmware image verifies with the public key of its signer (R347). Free (log 12), safe. -/
opaque imageValid : List Byte → Bool

/-- The device identity certificate (R349). Free (log 12), safe. -/
opaque certificate : List Byte

/-- The serial number that ATTEST reports (R349). Free (log 12), safe. -/
opaque serial : BitVec 128

/-- The firmware version that RESYNC reports (R344). Free (log 12), safe. -/
opaque firmwareVersion : BitVec 64

/-- The launches that the firmware starts at its k-th boot (R259): header addresses and address spaces. Free (log 3), safe. -/
opaque bootLaunches : Nat → List (Word × BitVec 16)

/-- SHA3-256 of the boot ROM, M0 after boot (R348). Free (log 12), safe. -/
opaque romHash : BitVec 256

/-- The hash of the firmware image with which the module comes, M1 where no other has been loaded (R348). Free (log 12), safe. -/
opaque factoryHash : BitVec 256

/-- SHA3-256 of the public key of a firmware image's signer (R347), M2 (R348). Free (log 12), safe. -/
opaque signerHash : List Byte → BitVec 256

/-- The key hash that is fused into the module (R347). Free (log 12), safe. -/
opaque fusedKeyHash : BitVec 256

/-- Spare rows or columns, ring lanes and ECC spares: how many there are of unit kind 4, 5 and 6 (R350). Free (log 24), safe. -/
opaque otherSpares : Nat → Nat

/-- Whether a residual that no bank runs stays in the specialisation cache as another enters (R277). Free (log 15), safe. -/
opaque residualKept : Nat → Bool

/-- What a field of Table 15.3 holds for a count that is too great for it (R293). Free (log 15), safe. -/
opaque countOver : Nat → BitVec 16

/-- The units that the firmware replaces at its k-th boot (R350): kind and logical unit. Free (log 24), safe. -/
opaque bootSpares : Nat → List (Nat × Nat)

/-- Link retries and wear alerts since module reset, as the k-th RESYNC counts them (R344). Free (log 11), safe. -/
opaque linkRetries : Nat → Word
@[inherit_doc linkRetries] opaque wearAlerts : Nat → Word

end Sys2Proof.Config
end

