-- ==== Sys2Proof/Syntax.lean ====
section
/-!
DEFINITION. Sys2Proof/Syntax.lean: the steps of the CAE-S960, one constructor per row of spec/opcode_table.json.
The slot rows carry the operand fields of their encoding (R25 and the entry of each instruction); stop bit, binding
mark and guard stand in `Slot` (R22). A slot whose only operand is one sequencer register or predicate has it in
`Slot.sole` (Lean's runtime holds at most 245 constructors with arguments; log 18). The other rows are the steps the
machine takes outside a slot (events): what one concerns stands in a `Subject`. Constructors with arguments come first.
-/

namespace Sys2Proof

inductive Instr where
  /-- EXT (R31). EXT widens the immediate or displacement of the following slot by 16 bits. -/
  | ext (value : BitVec 16)
  /-- ORD (R32). ORD gives the following memory slot an ordering and a scope. -/
  | ord (scope : Fin 8) (order : Fin 4)
  /-- BR (R60). BR branches to a displacement at the end of the bundle. -/
  | br (disp : BitVec 18)
  /-- CALL (R60). CALL branches to a displacement and writes the return address to s31. -/
  | call (disp : BitVec 18)
  /-- JALR (R61). JALR branches to s_a and writes the address after the bundle to s_d. -/
  | jalr (d : Fin 32) (a : Fin 32)
  /-- LOOP (R63). LOOP activates a loop level with a count from s_a and a body end address. -/
  | loop (level : Fin 8) (a : Fin 32) (fin : BitVec 10)
  /-- LOOPX (R66). LOOPX exits loop levels level to 5 at the end of its bundle. -/
  | loopx (level : Fin 8)
  /-- LOOPC (R66). LOOPC ends the current iteration of a level, making inner levels inactive. -/
  | loopc (level : Fin 8)
  /-- WAIT (R67). WAIT holds issue until outstanding counts of each class are at most the operands. -/
  | wait (ld : Fin 16) (st : Fin 16) (cp : Fin 16) (tl : Fin 16)
  /-- FENCE (R306). FENCE orders accesses as acquire, release or both at a scope in the sequencer and each enabled core. -/
  | fence (order : Fin 4) (scope : Fin 8)
  /-- TRAP (R331). TRAP raises trap 0x15 after its slot with TVAL = imm. -/
  | trap (imm : BitVec 15)
  /-- BKPT (R331). BKPT raises the breakpoint trap 0x13 after its slot. -/
  | bkpt (imm : BitVec 15)
  /-- TLBINV_PAGE (R89). TLBINV.PAGE invalidates entries of the page containing s_a for ASN s_b or global. -/
  | tlbinvPage (a : Fin 32) (b : Fin 32)
  /-- TLBLK (R92). TLBLK walks a base address and locks a window into lockable entry idx in all eight cores. -/
  | tlblk (a : Fin 32) (idx : Fin 8) (size : Fin 4)
  /-- TLBUNL (R92). TLBUNL frees lockable entry idx. -/
  | tlbunl (idx : Fin 8)
  /-- LDBLK (R129). LDBLK declares a load-block of n lines, allocates a handle and starts the fill. -/
  | ldblk (d : Fin 32) (a : Fin 32) (n : Fin 64)
  /-- CFLUSH (R131). CFLUSH writes back and removes every cached copy of n lines. -/
  | cflush (a : Fin 32) (n : Fin 64)
  /-- CCLEAN (R131). CCLEAN writes back dirty copies of n lines, keeping them clean. -/
  | cclean (a : Fin 32) (n : Fin 64)
  /-- MFS (R45). MFS reads a special register into s_d. -/
  | mfs (d : Fin 32) (sr : BitVec 8)
  /-- MTS (R45). MTS writes s_a to a special register with its own write rule. -/
  | mts (a : Fin 32) (sr : BitVec 8)
  /-- ADD (R49). s_d := s_a + s_b. -/
  | add (d : Fin 32) (a : Fin 32) (b : Fin 32)
  /-- SUB (R49). s_d := s_a − s_b. -/
  | sub (d : Fin 32) (a : Fin 32) (b : Fin 32)
  /-- AND (R49). s_d := s_a and s_b. -/
  | and (d : Fin 32) (a : Fin 32) (b : Fin 32)
  /-- OR (R49). s_d := s_a or s_b. -/
  | or (d : Fin 32) (a : Fin 32) (b : Fin 32)
  /-- XOR (R49). s_d := s_a xor s_b. -/
  | xor (d : Fin 32) (a : Fin 32) (b : Fin 32)
  /-- SLL (R49). Shift left by s_b[5:0]. -/
  | sll (d : Fin 32) (a : Fin 32) (b : Fin 32)
  /-- SRL (R49). Logical shift right by s_b[5:0]. -/
  | srl (d : Fin 32) (a : Fin 32) (b : Fin 32)
  /-- SRA (R49). Arithmetic shift right by s_b[5:0]. -/
  | sra (d : Fin 32) (a : Fin 32) (b : Fin 32)
  /-- MUL (R49). Low 64 bits of the product. -/
  | mul (d : Fin 32) (a : Fin 32) (b : Fin 32)
  /-- MULHS (R49). High 64 bits of the signed product. -/
  | mulhs (d : Fin 32) (a : Fin 32) (b : Fin 32)
  /-- MULHU (R49). High 64 bits of the unsigned product. -/
  | mulhu (d : Fin 32) (a : Fin 32) (b : Fin 32)
  /-- MIN (R49). Signed minimum. -/
  | min (d : Fin 32) (a : Fin 32) (b : Fin 32)
  /-- MAX (R49). Signed maximum. -/
  | max (d : Fin 32) (a : Fin 32) (b : Fin 32)
  /-- MINU (R49). Unsigned minimum. -/
  | minu (d : Fin 32) (a : Fin 32) (b : Fin 32)
  /-- MAXU (R49). Unsigned maximum. -/
  | maxu (d : Fin 32) (a : Fin 32) (b : Fin 32)
  /-- ANDN (R49). s_d := s_a and not s_b. -/
  | andn (d : Fin 32) (a : Fin 32) (b : Fin 32)
  /-- ADDW (R49). 32-bit add, sign-extended. -/
  | addw (d : Fin 32) (a : Fin 32) (b : Fin 32)
  /-- SUBW (R49). 32-bit subtract, sign-extended. -/
  | subw (d : Fin 32) (a : Fin 32) (b : Fin 32)
  /-- SLLW (R49). 32-bit shift left, sign-extended. -/
  | sllw (d : Fin 32) (a : Fin 32) (b : Fin 32)
  /-- SRLW (R49). 32-bit logical shift right, sign-extended. -/
  | srlw (d : Fin 32) (a : Fin 32) (b : Fin 32)
  /-- SRAW (R49). 32-bit arithmetic shift right, sign-extended. -/
  | sraw (d : Fin 32) (a : Fin 32) (b : Fin 32)
  /-- MULW (R49). 32-bit multiply, sign-extended. -/
  | mulw (d : Fin 32) (a : Fin 32) (b : Fin 32)
  /-- ROTL (R49). Rotate left within 64 bits. -/
  | rotl (d : Fin 32) (a : Fin 32) (b : Fin 32)
  /-- ROTR (R49). Rotate right within 64 bits. -/
  | rotr (d : Fin 32) (a : Fin 32) (b : Fin 32)
  /-- DIV (R50). Signed division truncating toward zero. -/
  | div (d : Fin 32) (a : Fin 32) (b : Fin 32)
  /-- DIVU (R50). Unsigned division. -/
  | divu (d : Fin 32) (a : Fin 32) (b : Fin 32)
  /-- REM (R50). Signed remainder. -/
  | rem (d : Fin 32) (a : Fin 32) (b : Fin 32)
  /-- REMU (R50). Unsigned remainder. -/
  | remu (d : Fin 32) (a : Fin 32) (b : Fin 32)
  /-- CLZ (R49). Count leading zeros. -/
  | clz (d : Fin 32) (a : Fin 32)
  /-- CTZ (R49). Count trailing zeros. -/
  | ctz (d : Fin 32) (a : Fin 32)
  /-- POPC (R49). Count set bits. -/
  | popc (d : Fin 32) (a : Fin 32)
  /-- BREV (R49). Reverse the 64 bits. -/
  | brev (d : Fin 32) (a : Fin 32)
  /-- ADDI (R51). s_d := s_a + sext(imm). -/
  | addi (d : Fin 32) (a : Fin 32) (imm : BitVec 8)
  /-- ANDI (R51). s_d := s_a and sext(imm). -/
  | andi (d : Fin 32) (a : Fin 32) (imm : BitVec 8)
  /-- ORI (R51). s_d := s_a or sext(imm). -/
  | ori (d : Fin 32) (a : Fin 32) (imm : BitVec 8)
  /-- XORI (R51). s_d := s_a xor sext(imm). -/
  | xori (d : Fin 32) (a : Fin 32) (imm : BitVec 8)
  /-- SLLI (R52). Shift left by an immediate. -/
  | slli (d : Fin 32) (a : Fin 32) (sh : Fin 64)
  /-- SRLI (R52). Logical shift right by an immediate. -/
  | srli (d : Fin 32) (a : Fin 32) (sh : Fin 64)
  /-- SRAI (R52). Arithmetic shift right by an immediate. -/
  | srai (d : Fin 32) (a : Fin 32) (sh : Fin 64)
  /-- MOVI (R53). s_d := sext(imm13). -/
  | movi (d : Fin 32) (imm : BitVec 13)
  /-- SHORI (R53). s_d := (s_d << 13) or imm13. -/
  | shori (d : Fin 32) (imm : BitVec 13)
  /-- CMP (R54). Writes to q_d whether s_a and s_b satisfy condition cc. -/
  | cmp (d : Fin 32) (a : Fin 32) (b : Fin 32) (cc : Fin 8)
  /-- CMPI (R54). Writes to q_d whether s_a and sext(imm5) satisfy condition cc. -/
  | cmpi (d : Fin 32) (a : Fin 32) (imm : BitVec 5) (cc : Fin 8)
  /-- PAND (R55). q_d := q_a and q_b. -/
  | pand (d : Fin 32) (a : Fin 32) (b : Fin 32)
  /-- POR (R55). q_d := q_a or q_b. -/
  | por (d : Fin 32) (a : Fin 32) (b : Fin 32)
  /-- PXOR (R55). q_d := q_a xor q_b. -/
  | pxor (d : Fin 32) (a : Fin 32) (b : Fin 32)
  /-- PANDN (R55). q_d := q_a and not q_b. -/
  | pandn (d : Fin 32) (a : Fin 32) (b : Fin 32)
  /-- PNOT (R55). q_d := not q_a. -/
  | pnot (d : Fin 32) (a : Fin 32)
  /-- PMOV (R55). q_d := q_a. -/
  | pmov (d : Fin 32) (a : Fin 32)
  /-- XPUT (R57). Broadcasts s_a into a_d of each enabled core. -/
  | xput (ad : Fin 16) (sa : Fin 32)
  /-- XGET (R57). Reads a_b of core rank into s_d. -/
  | xget (sd : Fin 32) (ab : Fin 16) (rank : Fin 8)
  /-- LD (R58). Sequencer load, sign-extended. -/
  | ld (reg : Fin 32) (a : Fin 32) (size : Fin 4) (disp : BitVec 6)
  /-- LDU (R58). Sequencer load, zero-extended. -/
  | ldu (reg : Fin 32) (a : Fin 32) (size : Fin 4) (disp : BitVec 6)
  /-- ST (R58). Sequencer store. -/
  | st (reg : Fin 32) (a : Fin 32) (size : Fin 4) (disp : BitVec 6)
  /-- AMO (R308). 8-byte atomic read-modify-write at the home of the address. -/
  | amo (d : Fin 32) (a : Fin 32) (b : Fin 32) (op : Fin 8)
  /-- AMOW (R308). 4-byte atomic read-modify-write at the home of the address. -/
  | amow (d : Fin 32) (a : Fin 32) (b : Fin 32) (op : Fin 8)
  /-- HLD (R106). Sequencer load from a heap object through an h register after the barrier. -/
  | hld (reg : Fin 32) (h : Fin 16) (size : Fin 4) (u : Bool) (disp : BitVec 6)
  /-- HST (R106). Sequencer store to a heap object through an h register after the barrier. -/
  | hst (reg : Fin 32) (h : Fin 16) (size : Fin 4) (disp : BitVec 6)
  /-- LDREF (R108). Loads a reference, heals it through the barrier and writes the healed value back by compare-and-swap. -/
  | ldref (hd : Fin 16) (m : Bool) (base : Fin 32) (disp : BitVec 5)
  /-- STREF (R109). Stores a healed reference from h_s. -/
  | stref (hd : Fin 16) (m : Bool) (base : Fin 32) (disp : BitVec 5)
  /-- PIN (R112). Pins an object, incrementing its pin and page counts, and returns its raw address. -/
  | pin (sd : Fin 32) (hb : Fin 16)
  /-- UNPIN (R112). Decrements an object's pin and page counts. -/
  | unpin (hb : Fin 16)
  /-- HMOV (R110). Copies a reference between h and s registers without a barrier. -/
  | hmov (x : Fin 32) (y : Fin 32) (dir : Fin 4)
  /-- HNULL (R110). Writes a null reference to h_d. -/
  | hnull (hd : Fin 16)
  /-- HEQ (R111). Compares two references for identity into q_d. -/
  | heq (qd : Fin 32) (ha : Fin 16) (hb : Fin 16)
  /-- GLD (R161). Core global load into a_d. -/
  | gld (reg : Fin 16) (ab : Fin 16) (size : Fin 4) (u : Bool) (disp : BitVec 7)
  /-- GST (R161). Core global store from a register. -/
  | gst (reg : Fin 16) (ab : Fin 16) (size : Fin 4) (disp : BitVec 7)
  /-- GAMO (R163). Core atomic read-modify-write at the home of the address. -/
  | gamo (ad : Fin 16) (ab : Fin 16) (ac : Fin 16) (w : Bool) (op : Fin 8)
  /-- CHLD (R106). Core load from a heap object through an h register. -/
  | chld (reg : Fin 16) (h : Fin 16) (size : Fin 4) (u : Bool) (disp : BitVec 7)
  /-- CHST (R106). Core store to a heap object through an h register. -/
  | chst (reg : Fin 16) (h : Fin 16) (size : Fin 4) (disp : BitVec 7)
  /-- CLDREF (R108). Core form of LDREF. -/
  | cldref (hd : Fin 16) (m : Bool) (base : Fin 16) (disp : BitVec 6)
  /-- CSTREF (R109). Core form of STREF. -/
  | cstref (hd : Fin 16) (m : Bool) (base : Fin 16) (disp : BitVec 6)
  /-- CPIN (R112). Core form of PIN. -/
  | cpin (ad : Fin 16) (hb : Fin 16)
  /-- CUNPIN (R112). Core form of UNPIN. -/
  | cunpin (hb : Fin 16)
  /-- CHMOV (R110). Core form of HMOV. -/
  | chmov (x : Fin 16) (y : Fin 16) (dir : Fin 4)
  /-- CHNULL (R110). Core form of HNULL. -/
  | chnull (hd : Fin 16)
  /-- CHEQ (R111). Core form of HEQ, writing a_d. -/
  | cheq (ad : Fin 16) (ha : Fin 16) (hb : Fin 16)
  /-- AADDI (R160). a_d := a_a + sext(imm7). -/
  | aaddi (ad : Fin 16) (aa : Fin 16) (imm : BitVec 7)
  /-- AADD (R160). a_d := a_a + a_b. -/
  | aadd (ad : Fin 16) (aa : Fin 16) (ab : Fin 16)
  /-- ASHL (R160). a_d := a_a << sh6. -/
  | ashl (ad : Fin 16) (aa : Fin 16) (sh : Fin 64)
  /-- AMOV_STRIDE (R160). Sets the per-level loop stride of a_d from a_a. -/
  | amovStride (ad : Fin 16) (aa : Fin 16) (lvl : Fin 8)
  /-- AMOV (R160). a_d := a_a, strides unchanged. -/
  | amov (ad : Fin 16) (aa : Fin 16)
  /-- ARANK (R160). a_d := the core's RANK. -/
  | arank (ad : Fin 16)
  /-- VLD (R166). Contiguous vector load from the scratchpad or accumulator store. -/
  | vld (v : Fin 16) (a : Fin 16) (width : Fin 4) (msel : Fin 4) (disp : BitVec 6)
  /-- VST (R166). Contiguous vector store to the scratchpad or accumulator store. -/
  | vst (v : Fin 16) (a : Fin 16) (width : Fin 4) (msel : Fin 4) (disp : BitVec 6)
  /-- VLDS (R166). Strided vector load from the pool. -/
  | vlds (v : Fin 16) (a : Fin 16) (width : Fin 4) (msel : Fin 4) (stride : BitVec 6)
  /-- VLDX (R166). Indexed vector load from the pool. -/
  | vldx (v : Fin 16) (a : Fin 16) (vi : Fin 16) (width : Fin 4) (msel : Fin 4) (scale : Fin 4)
  /-- VSTX (R166). Indexed vector store to the pool. -/
  | vstx (v : Fin 16) (a : Fin 16) (vi : Fin 16) (width : Fin 4) (msel : Fin 4) (scale : Fin 4)
  /-- VLDFF (R168). Fault-first contiguous global load that lowers VL at the first failing element. -/
  | vldff (v : Fin 16) (a : Fin 16) (width : Fin 4) (msel : Fin 4) (disp : BitVec 6)
  /-- VLDG (R167). Gather from global memory through an index vector. -/
  | vldg (v : Fin 16) (a : Fin 16) (vi : Fin 16) (width : Fin 4) (msel : Fin 4) (scale : Bool)
  /-- VSTG (R167). Scatter to global memory through an index vector. -/
  | vstg (v : Fin 16) (a : Fin 16) (vi : Fin 16) (width : Fin 4) (msel : Fin 4) (scale : Bool)
  /-- AGTH (R170). Starts a gather of scratchpad rows into an operand buffer. -/
  | agth (aa : Fin 16) (ad : Fin 16) (vi : Fin 16) (cnt : Fin 64)
  /-- VSETL (R181). Sets VTYPE and VL = min(s_a, VLMAX) and returns VL. -/
  | vsetl (d : Fin 32) (a : Fin 32) (vt : BitVec 5)
  /-- VADD (R185). Element add. -/
  | vadd (vd : Fin 16) (va : Fin 16) (vb : Fin 16) (width : Fin 4) (msel : Fin 4)
  /-- VSUB (R185). Element subtract. -/
  | vsub (vd : Fin 16) (va : Fin 16) (vb : Fin 16) (width : Fin 4) (msel : Fin 4)
  /-- VADDS (R185). Signed saturating add. -/
  | vadds (vd : Fin 16) (va : Fin 16) (vb : Fin 16) (width : Fin 4) (msel : Fin 4)
  /-- VSUBS (R185). Signed saturating subtract. -/
  | vsubs (vd : Fin 16) (va : Fin 16) (vb : Fin 16) (width : Fin 4) (msel : Fin 4)
  /-- VADDUS (R185). Unsigned saturating add. -/
  | vaddus (vd : Fin 16) (va : Fin 16) (vb : Fin 16) (width : Fin 4) (msel : Fin 4)
  /-- VSUBUS (R185). Unsigned saturating subtract. -/
  | vsubus (vd : Fin 16) (va : Fin 16) (vb : Fin 16) (width : Fin 4) (msel : Fin 4)
  /-- VAVG (R185). Signed rounded average. -/
  | vavg (vd : Fin 16) (va : Fin 16) (vb : Fin 16) (width : Fin 4) (msel : Fin 4)
  /-- VABD (R185). Absolute difference. -/
  | vabd (vd : Fin 16) (va : Fin 16) (vb : Fin 16) (width : Fin 4) (msel : Fin 4)
  /-- VMUL (R185). Low product. -/
  | vmul (vd : Fin 16) (va : Fin 16) (vb : Fin 16) (width : Fin 4) (msel : Fin 4)
  /-- VMULHS (R185). Signed high product. -/
  | vmulhs (vd : Fin 16) (va : Fin 16) (vb : Fin 16) (width : Fin 4) (msel : Fin 4)
  /-- VMULHU (R185). Unsigned high product. -/
  | vmulhu (vd : Fin 16) (va : Fin 16) (vb : Fin 16) (width : Fin 4) (msel : Fin 4)
  /-- VMULQ (R185). Rounded saturating Q-format product. -/
  | vmulq (vd : Fin 16) (va : Fin 16) (vb : Fin 16) (width : Fin 4) (msel : Fin 4)
  /-- VMAC (R185). Multiply-accumulate into vd. -/
  | vmac (vd : Fin 16) (va : Fin 16) (vb : Fin 16) (width : Fin 4) (msel : Fin 4)
  /-- VMSUB (R185). Multiply-subtract from vd. -/
  | vmsub (vd : Fin 16) (va : Fin 16) (vb : Fin 16) (width : Fin 4) (msel : Fin 4)
  /-- VMACS (R185). Saturating multiply-accumulate. -/
  | vmacs (vd : Fin 16) (va : Fin 16) (vb : Fin 16) (width : Fin 4) (msel : Fin 4)
  /-- VDOT2 (R185). Two-way 16-bit dot product accumulate, ew 32. -/
  | vdot2 (vd : Fin 16) (va : Fin 16) (vb : Fin 16) (width : Fin 4) (msel : Fin 4)
  /-- VAND (R185). Element and. -/
  | vand (vd : Fin 16) (va : Fin 16) (vb : Fin 16) (width : Fin 4) (msel : Fin 4)
  /-- VOR (R185). Element or. -/
  | vor (vd : Fin 16) (va : Fin 16) (vb : Fin 16) (width : Fin 4) (msel : Fin 4)
  /-- VXOR (R185). Element xor. -/
  | vxor (vd : Fin 16) (va : Fin 16) (vb : Fin 16) (width : Fin 4) (msel : Fin 4)
  /-- VANDN (R185). Element and-not. -/
  | vandn (vd : Fin 16) (va : Fin 16) (vb : Fin 16) (width : Fin 4) (msel : Fin 4)
  /-- VSLL (R185). Element shift left. -/
  | vsll (vd : Fin 16) (va : Fin 16) (vb : Fin 16) (width : Fin 4) (msel : Fin 4)
  /-- VSRL (R185). Element logical shift right. -/
  | vsrl (vd : Fin 16) (va : Fin 16) (vb : Fin 16) (width : Fin 4) (msel : Fin 4)
  /-- VSRA (R185). Element arithmetic shift right. -/
  | vsra (vd : Fin 16) (va : Fin 16) (vb : Fin 16) (width : Fin 4) (msel : Fin 4)
  /-- VROT (R185). Element rotate left. -/
  | vrot (vd : Fin 16) (va : Fin 16) (vb : Fin 16) (width : Fin 4) (msel : Fin 4)
  /-- VSLLI (R185). Element shift left by imm4. -/
  | vslli (vd : Fin 16) (va : Fin 16) (imm : Fin 16) (width : Fin 4) (msel : Fin 4)
  /-- VSRLI (R185). Element logical shift right by imm4. -/
  | vsrli (vd : Fin 16) (va : Fin 16) (imm : Fin 16) (width : Fin 4) (msel : Fin 4)
  /-- VSRAI (R185). Element arithmetic shift right by imm4. -/
  | vsrai (vd : Fin 16) (va : Fin 16) (imm : Fin 16) (width : Fin 4) (msel : Fin 4)
  /-- VSRAR (R185). Element rounding arithmetic shift right by imm4. -/
  | vsrar (vd : Fin 16) (va : Fin 16) (imm : Fin 16) (width : Fin 4) (msel : Fin 4)
  /-- VMIN (R185). Signed element minimum. -/
  | vmin (vd : Fin 16) (va : Fin 16) (vb : Fin 16) (width : Fin 4) (msel : Fin 4)
  /-- VMAX (R185). Signed element maximum. -/
  | vmax (vd : Fin 16) (va : Fin 16) (vb : Fin 16) (width : Fin 4) (msel : Fin 4)
  /-- VMINU (R185). Unsigned element minimum. -/
  | vminu (vd : Fin 16) (va : Fin 16) (vb : Fin 16) (width : Fin 4) (msel : Fin 4)
  /-- VMAXU (R185). Unsigned element maximum. -/
  | vmaxu (vd : Fin 16) (va : Fin 16) (vb : Fin 16) (width : Fin 4) (msel : Fin 4)
  /-- VCEQ (R186). Integer equal compare into a mask. -/
  | vceq (vd : Fin 16) (va : Fin 16) (vb : Fin 16) (width : Fin 4) (msel : Fin 4)
  /-- VCLT (R186). Signed less-than compare into a mask. -/
  | vclt (vd : Fin 16) (va : Fin 16) (vb : Fin 16) (width : Fin 4) (msel : Fin 4)
  /-- VCLTU (R186). Unsigned less-than compare into a mask. -/
  | vcltu (vd : Fin 16) (va : Fin 16) (vb : Fin 16) (width : Fin 4) (msel : Fin 4)
  /-- VCLE (R186). Signed less-or-equal compare into a mask. -/
  | vcle (vd : Fin 16) (va : Fin 16) (vb : Fin 16) (width : Fin 4) (msel : Fin 4)
  /-- VFADD (R189). Float add. -/
  | vfadd (vd : Fin 16) (va : Fin 16) (vb : Fin 16) (width : Fin 4) (msel : Fin 4)
  /-- VFSUB (R189). Float subtract. -/
  | vfsub (vd : Fin 16) (va : Fin 16) (vb : Fin 16) (width : Fin 4) (msel : Fin 4)
  /-- VFMIN (R178). Float minimum by totalOrder. -/
  | vfmin (vd : Fin 16) (va : Fin 16) (vb : Fin 16) (width : Fin 4) (msel : Fin 4)
  /-- VFMAX (R178). Float maximum by totalOrder. -/
  | vfmax (vd : Fin 16) (va : Fin 16) (vb : Fin 16) (width : Fin 4) (msel : Fin 4)
  /-- VFMUL (R189). Float multiply. -/
  | vfmul (vd : Fin 16) (va : Fin 16) (vb : Fin 16) (width : Fin 4) (msel : Fin 4)
  /-- VFMA (R189). Fused multiply-add. -/
  | vfma (vd : Fin 16) (va : Fin 16) (vb : Fin 16) (width : Fin 4) (msel : Fin 4)
  /-- VFMS (R189). Fused multiply-subtract. -/
  | vfms (vd : Fin 16) (va : Fin 16) (vb : Fin 16) (width : Fin 4) (msel : Fin 4)
  /-- VFNMA (R189). Fused negated multiply-add. -/
  | vfnma (vd : Fin 16) (va : Fin 16) (vb : Fin 16) (width : Fin 4) (msel : Fin 4)
  /-- VFEQ (R186). Float equal compare into a mask. -/
  | vfeq (vd : Fin 16) (va : Fin 16) (vb : Fin 16) (width : Fin 4) (msel : Fin 4)
  /-- VFLT (R186). Float less-than compare into a mask. -/
  | vflt (vd : Fin 16) (va : Fin 16) (vb : Fin 16) (width : Fin 4) (msel : Fin 4)
  /-- VFLE (R186). Float less-or-equal compare into a mask. -/
  | vfle (vd : Fin 16) (va : Fin 16) (vb : Fin 16) (width : Fin 4) (msel : Fin 4)
  /-- VFTOT (R177). totalOrder less-than compare into a mask. -/
  | vftot (vd : Fin 16) (va : Fin 16) (vb : Fin 16) (width : Fin 4) (msel : Fin 4)
  /-- VFABS (R189). Clears the sign bit. -/
  | vfabs (vd : Fin 16) (va : Fin 16) (width : Fin 4) (msel : Fin 4)
  /-- VFNEG (R189). Inverts the sign bit. -/
  | vfneg (vd : Fin 16) (va : Fin 16) (width : Fin 4) (msel : Fin 4)
  /-- VFSQRT (R189). Float square root. -/
  | vfsqrt (vd : Fin 16) (va : Fin 16) (width : Fin 4) (msel : Fin 4)
  /-- VFRCP (R189). Float reciprocal. -/
  | vfrcp (vd : Fin 16) (va : Fin 16) (width : Fin 4) (msel : Fin 4)
  /-- VI2F (R190). Integer to float conversion. -/
  | vi2f (vd : Fin 16) (va : Fin 16) (u : Bool) (width : Fin 4) (msel : Fin 4)
  /-- VF2I (R190). Float to integer conversion with clamp. -/
  | vf2i (vd : Fin 16) (va : Fin 16) (u : Bool) (rtz : Bool) (width : Fin 4) (msel : Fin 4)
  /-- VFWID (R190). bf16 to fp32 widening. -/
  | vfwid (vd : Fin 16) (va : Fin 16) (width : Fin 4) (msel : Fin 4)
  /-- VFNAR (R190). fp32 to bf16 narrowing. -/
  | vfnar (vd : Fin 16) (va : Fin 16) (width : Fin 4) (msel : Fin 4)
  /-- VREDSUM (R191). Integer sum reduction into element 0. -/
  | vredsum (vd : Fin 16) (va : Fin 16) (vb : Fin 16) (width : Fin 4) (msel : Fin 4)
  /-- VREDMAX (R191). Signed maximum reduction. -/
  | vredmax (vd : Fin 16) (va : Fin 16) (vb : Fin 16) (width : Fin 4) (msel : Fin 4)
  /-- VREDMIN (R191). Signed minimum reduction. -/
  | vredmin (vd : Fin 16) (va : Fin 16) (vb : Fin 16) (width : Fin 4) (msel : Fin 4)
  /-- VREDARG (R191). Index of the largest or smallest active element. -/
  | vredarg (vd : Fin 16) (va : Fin 16) (vb : Fin 16) (width : Fin 4) (msel : Fin 4)
  /-- VFREDSUM (R179). Float sum reduction in the fixed summation order. -/
  | vfredsum (vd : Fin 16) (va : Fin 16) (vb : Fin 16) (width : Fin 4) (msel : Fin 4)
  /-- VFREDMAX (R191). Float maximum reduction. -/
  | vfredmax (vd : Fin 16) (va : Fin 16) (vb : Fin 16) (width : Fin 4) (msel : Fin 4)
  /-- VFREDMIN (R191). Float minimum reduction. -/
  | vfredmin (vd : Fin 16) (va : Fin 16) (vb : Fin 16) (width : Fin 4) (msel : Fin 4)
  /-- VFREDARG (R191). Index of the float element of highest or lowest rank. -/
  | vfredarg (vd : Fin 16) (va : Fin 16) (vb : Fin 16) (width : Fin 4) (msel : Fin 4)
  /-- VIDOT (R192). Four-way INT8 dot product accumulate with clamp. -/
  | vidot (vd : Fin 16) (va : Fin 16) (vb : Fin 16) (width : Fin 4) (msel : Fin 4)
  /-- VIDOTU (R192). Four-way UINT8 dot product accumulate with clamp. -/
  | vidotu (vd : Fin 16) (va : Fin 16) (vb : Fin 16) (width : Fin 4) (msel : Fin 4)
  /-- VFDOT (R192). Two-way bf16 dot product accumulate into fp32. -/
  | vfdot (vd : Fin 16) (va : Fin 16) (vb : Fin 16) (width : Fin 4) (msel : Fin 4)
  /-- VFDOTA (R192). Float dot product across elements into element 0. -/
  | vfdota (vd : Fin 16) (va : Fin 16) (vb : Fin 16) (width : Fin 4) (msel : Fin 4)
  /-- VGATH (R193). Register gather by index vector. -/
  | vgath (vd : Fin 16) (va : Fin 16) (vb : Fin 16) (width : Fin 4) (msel : Fin 4)
  /-- VSLUP (R193). Slide elements up by a_b. -/
  | vslup (vd : Fin 16) (va : Fin 16) (vb : Fin 16) (width : Fin 4) (msel : Fin 4)
  /-- VSLDN (R193). Slide elements down by a_b. -/
  | vsldn (vd : Fin 16) (va : Fin 16) (vb : Fin 16) (width : Fin 4) (msel : Fin 4)
  /-- VCOMP (R193). Compress active elements to the front. -/
  | vcomp (vd : Fin 16) (va : Fin 16) (width : Fin 4) (msel : Fin 4)
  /-- VMV (R194). Vector move. -/
  | vmv (vd : Fin 16) (va : Fin 16) (width : Fin 4) (msel : Fin 4)
  /-- VMV_RF (R194). Reads VFLAGS into a_d. -/
  | vmvRf (vd : Fin 16) (width : Fin 4)
  /-- VMV_CF (R194). Clears the VFLAGS bits set in a_b. -/
  | vmvCf (va : Fin 16) (width : Fin 4)
  /-- VSPLAT (R193). Broadcasts a_b into every active element. -/
  | vsplat (vd : Fin 16) (vb : Fin 16) (width : Fin 4) (msel : Fin 4)
  /-- VBCS (R193). Broadcasts element a_b of va. -/
  | vbcs (vd : Fin 16) (va : Fin 16) (vb : Fin 16) (width : Fin 4) (msel : Fin 4)
  /-- VID (R193). Writes each element's index. -/
  | vid (vd : Fin 16) (width : Fin 4) (msel : Fin 4)
  /-- MAND (R187). Mask and. -/
  | mand (vd : Fin 16) (va : Fin 16) (vb : Fin 16) (width : Fin 4)
  /-- MOR (R187). Mask or. -/
  | mor (vd : Fin 16) (va : Fin 16) (vb : Fin 16) (width : Fin 4)
  /-- MXOR (R187). Mask xor. -/
  | mxor (vd : Fin 16) (va : Fin 16) (vb : Fin 16) (width : Fin 4)
  /-- MNOT (R187). Mask not. -/
  | mnot (vd : Fin 16) (va : Fin 16) (width : Fin 4)
  /-- MPOPC (R187). Counts active set mask bits into a_d. -/
  | mpopc (vd : Fin 16) (va : Fin 16) (width : Fin 4) (msel : Fin 4)
  /-- MFIRST (R187). Index of the lowest active set mask bit into a_d. -/
  | mfirst (vd : Fin 16) (va : Fin 16) (width : Fin 4) (msel : Fin 4)
  /-- MSET (R187). Sets mask bits below n. -/
  | mset (vd : Fin 16) (width : Fin 4)
  /-- MCLR (R187). Clears mask bits below n. -/
  | mclr (vd : Fin 16) (width : Fin 4)
  /-- VMERGE (R188). Selects elements of va or vb by mask. -/
  | vmerge (vd : Fin 16) (va : Fin 16) (vb : Fin 16) (width : Fin 4) (msel : Fin 4)
  /-- VSELM (R188). Expands a mask into all-ones or zero elements. -/
  | vselm (vd : Fin 16) (va : Fin 16) (width : Fin 4) (msel : Fin 4)
  /-- VBSCL (R196). Multiplies elements by their E8M0 block scales. -/
  | vbscl (vd : Fin 16) (va : Fin 16) (vs : Fin 16) (width : Fin 4) (msel : Fin 4)
  /-- UPKI (R198). Unpacks packed integers to lanes. -/
  | upki (vd : Fin 16) (va : Fin 16) (fmt : Fin 8) (part : Fin 8)
  /-- UPKF (R198). Unpacks packed narrow floats with block scales. -/
  | upkf (vd : Fin 16) (va : Fin 16) (vs : Fin 16) (fmt : Fin 8) (part : Fin 8)
  /-- UPKB (R198). Unpacks binary bits to ±1. -/
  | upkb (vd : Fin 16) (va : Fin 16) (part : Fin 16) (fl : Bool)
  /-- PCKI (R199). Packs lanes to narrow integers with clamp. -/
  | pcki (vd : Fin 16) (va : Fin 16) (fmt : Fin 8) (part : Fin 8)
  /-- PCKF (R199). Packs lanes to narrow floats with block scales. -/
  | pckf (vd : Fin 16) (va : Fin 16) (vs : Fin 16) (fmt : Fin 8) (part : Fin 8)
  /-- PCKB (R199). Packs signs to binary bits. -/
  | pckb (vd : Fin 16) (va : Fin 16) (part : Fin 16) (fl : Bool)
  /-- PSCL (R200). Computes block scales for a later PCKF. -/
  | pscl (vd : Fin 16) (va : Fin 16) (fmt : Fin 8)
  /-- AFMT (R219). Sets the array format, taking effect at the fourth issued bundle. -/
  | afmt (pol : Fin 4) (route : Fin 4) (nb : Fin 4) (na : Fin 4) (mode : Fin 4)
  /-- ALATCH_LA (R222). Loads the left latch from a column of the A operand buffer. -/
  | alatchLa (ak : Fin 16)
  /-- ALATCH_LB (R222). Loads the top latch from a row of the B operand buffer. -/
  | alatchLb (ak : Fin 16)
  /-- ALATCH_LBS (R222). Loads the top latch from a basis row of the selected seeded term. -/
  | alatchLbs (ak : Fin 16)
  /-- ALATCH_LZ (R222). Loads zeros into the named latch or latches. -/
  | alatchLz (edge : Fin 4)
  /-- ABEAT (R224). Presents eight stream positions, counts them into the cells, advances GPOS and shifts the top latch as its flags select. -/
  | abeat (s : Bool) (a : Bool) (c : Bool) (p : Bool)
  /-- ADRAIN (R230). Moves a counter group into eight accumulator rows, raw or bipolar, optionally adding and clearing. -/
  | adrain (ad : Fin 16) (ak : Fin 16) (grp : Fin 16) (bip : Bool) (add : Bool) (clr : Bool)
  /-- ACONF (R232). Compares two cell counts against a bound in every enabled core and writes a predicate. -/
  | aconf (qd : Fin 32) (sa : Fin 16) (sb : Fin 16) (sk : Fin 16) (any : Bool)
  /-- ARD (R236). Reads a quarter accumulator row into a v register. -/
  | ard (vd : Fin 16) (ar : Fin 16) (q : Fin 4)
  /-- AWR (R236). Writes a quarter accumulator row from a v register. -/
  | awr (vs : Fin 16) (ar : Fin 16) (q : Fin 4)
  /-- ASCL (R237). Adds a bf16 coefficient times one accumulator row into another in fp32. -/
  | ascl (ad : Fin 16) (rs : Fin 16) (ac : Fin 16) (int : Bool)
  /-- ACLR (R238). Clears one counter group. -/
  | aclr (grp : Fin 16)
  /-- GREAD (R216). Reads a generator output or GPOS into a_d. -/
  | gread (ad : Fin 16) (sel : Fin 4) (j : Fin 8)
  /-- BTERM (R243). Reads a seeded tile record, checks it and selects a term, starting its basis expansion and returning its coefficient. -/
  | bterm (ad : Fin 16) (aa : Fin 16) (ak : Fin 16)
  /-- BNEXT (R243). Selects the next term of the selected record. -/
  | bnext (ad : Fin 16)
  /-- CPY (R135). Reads and validates a command block and queues a copy command on the courier, returning its id. -/
  | cpy (d : Fin 32) (a : Fin 32) (tgt : Fin 16)
  /-- BARINIT (R145). Arms a barrier, sets its scope, adds to CNT and starts a new round when complete or with .z. -/
  | barinit (a : Fin 32) (b : Fin 32) (scope : Fin 8) (z : Bool)
  /-- BARADD (R145). Adds a signed value to a barrier's CNT. -/
  | baradd (a : Fin 32) (b : Fin 32)
  /-- BARTEST (R145). Reads whether a barrier is complete into q_d. -/
  | bartest (a : Fin 32) (qd : Fin 32)
  /-- SENDH (R147). Queues an active message that carries a payload to another core and wakes a handler there. -/
  | sendh (d : Fin 32) (a : Fin 32)
  /-- HFLIP (R115). Validates a relocation set, builds the new forwarding table, advances the epoch and drains previous-epoch accesses. -/
  | hflip (a : Fin 32) (b : Fin 32)
  /-- HSTAT (R117). Reads a heap's relocation status and epoch. -/
  | hstat (d : Fin 32) (b : Fin 32)
  /-- ESTAT (R153). Returns the bank summary, a command word or a faulting address. -/
  | estat (d : Fin 32) (a : Fin 32)
  /-- ECAN (R152). Cancels one queued or parked command of the bank. -/
  | ecan (d : Fin 32) (a : Fin 32)
  /-- MODULE_RESET (R20). Module reset zeroes every register bank (q0 reads 1, RANK its core number) and restarts the device. -/
  | moduleReset
  /-- BUNDLE_ISSUE (R27). The sequencer fetches a whole bundle of 1 to 8 slots, checks class limits and the stop bit, and issues it and broadcasts it
  to the cores. -/
  | bundleIssue
  /-- TLB_MISS_WALK (R82). A first-level TLB miss queries the second-level TLB and, on a miss there, walks the page tables, holding issue until the
  translation resolves or faults. -/
  | tlbMissWalk
  /-- ASYNC_ACCESS_COMPLETE (R59). An asynchronous load, store or atomic completes, writing its destination register in issue order and leaving its
  WAIT class. -/
  | asyncAccessComplete
  /-- TRAP_ENTRY (R315). Once rank 7 has reached the faulting bundle, the skew window is discarded, the trap frame and snapshot are written and the
  handler at TVB + 0x40 × cause starts. -/
  | trapEntry
  /-- BANK_FAULT_WAIT (R320). A page-not-present fault with INH = 0 keeps the snapshot with the bank, puts it in the waiting state, posts a type 1
  fault record and switches banks. -/
  | bankFaultWait
  /-- FAULT_RECORD_POST (R322). The die writes a fault record to its fault queue and advances the producer index, holding the record while the ring is
  full. -/
  | faultRecordPost
  /-- ACTION_RETRY (R324). A fault record resolved with ACTION 1 makes the bank ready, or restarts the command, engine or launch enumeration from the
  faulting point. -/
  | actionRetry
  /-- ACTION_EVICT (R324). A fault record resolved with ACTION 2 saves the task to its lodging and enqueues its record with KIND 1 on die RDIE. -/
  | actionEvict
  /-- ACTION_DELIVER (R325). A fault record resolved with ACTION 3 turns the kept snapshot into the frame and takes trap RCAUSE in the bank's handler.
  -/
  | actionDeliver
  /-- ACTION_FAIL (R324). A fault record resolved with ACTION 4 puts the command into error, stops the engine, or abandons the launch share. -/
  | actionFail
  /-- ACTION_KILL (R324). A fault record resolved with ACTION 5, or with a value not allowed for its type, kills the bank, cancels the command or
  stops the engine. -/
  | actionKill
  /-- PREEMPTION (R326). A pre-emption request takes effect at the running bank's next pre-emption point, and the cluster quiesces and moves its whole
  context into a shadow slot. -/
  | preemption
  /-- SWAP_IN (R327). A shadowed context returns to its idle cluster, every bank resuming at its split point and detached commands being accepted
  again. -/
  | swapIn
  /-- RECORD_TAKE (R263). A cluster with a free bank takes the oldest record it may hold at the highest level of its private and shared queues and
  loads the bank by KIND. -/
  | recordTake
  /-- TASK_RESTORE (R330). A KIND 1 record is restored from its lodging: VALID is acquired, the pool cleared on a tenant change, the state written,
  windows relocked, commands re-accepted and the bank made ready. -/
  | taskRestore
  /-- QUEUE_AGEING (R261). A record that has waited 2^20 cycles at a level moves to the tail of the next higher level. -/
  | queueAgeing
  /-- DIE_LAUNCH_TAKE (R258). Each die reads and validates the launch header with a device-scope acquire, refusing only its own share on failure. -/
  | dieLaunchTake
  /-- SPECIALISE (R279). On a residual-cache miss the die evaluates the kernel against the static arguments, folding, nullifying and unrolling into
  residual code. -/
  | specialise
  /-- SPECIALISE_TIMEOUT (R284). An evaluation running longer than 200 µs is abandoned, the die runs the original code and keeps a declined entry. -/
  | specialiseTimeout
  /-- LAUNCH_ENUMERATE (R260). A die writes and enqueues the record of the next index of its share when its queue holds fewer than 64 records of the
  launch, stopping on a record-write fault. -/
  | launchEnumerate
  /-- DIE_COMPLETION_REPORT (R267). A die that has enumerated its share and counted every exit reports to the launch's collecting die. -/
  | dieCompletionReport
  /-- LAUNCH_COMPLETION (R268). When the collecting die holds all 64 reports, it posts the completion message or decrements the CTARGET COUNT, waking
  a waiting record. -/
  | launchCompletion
  /-- COMMAND_START (R136). The courier starts an accepted command, in acceptance order. -/
  | commandStart
  /-- COURIER_ELEMENT (R133). The courier reads one source element, converts it, writes the destination element and decrements the barrier. -/
  | courierElement
  /-- COMMAND_COMPLETE (R140). A command completes once every element has landed, the CRC is written, the release is visible and the last decrement or
  SENDH arrival is applied. -/
  | commandComplete
  /-- ARRIVAL_RESERVE (R148). A SENDH reserves one of the target sequencer's 16 arrival slots before landing any byte, waiting while none is free. -/
  | arrivalReserve
  /-- HANDLER_START (R150). A dormant bank is started at the handler with PC, s1, s2 and s3 set from the posted arrival. -/
  | handlerStart
  /-- RELOC_ENTRY (R116). The relocation engine moves one PENDING entry through COPYING to FORWARDED, copying the object and publishing NEW with a
  release. -/
  | relocEntry
  /-- SEARCH_RUN (R248). The cluster's search engine scores the candidate seeds of an accepted search against the target and stores the best seed and
  score. -/
  | searchRun
  /-- AGTH_ROW_COPY (R170). The porter copies a gathered scratchpad row into its operand-buffer row, and the AGTH completes with its last row. -/
  | agthRowCopy
  /-- BLOCK_FILL_COMPLETE (R124). When the last line of a load-block fill is present, BLKDONE[h] becomes 1. -/
  | blockFillComplete
  /-- TLBINV_COMPLETE (R90). A TLB invalidation completes once every TLB has dropped its entries and every access translated through them is
  performed. -/
  | tlbinvComplete
  /-- TSTEP_INCREMENT (R351). TSTEP increments once every 4096 main-clock cycles, aligned across the time domain. -/
  | tstepIncrement
  /-- TIME_ALIGNMENT_LOSS (R351). A device that loses time-domain alignment holds TSTEP until it is aligned again and counts the loss. -/
  | timeAlignmentLoss
  /-- FRAME_DROP (R337). A frame of another type, or a message that cannot be answered, is counted in the error counts and dropped without reply. -/
  | frameDrop
  /-- MALFORMED_MESSAGE (R337). An expected message that is not a request the device can perform is answered with STATUS 0x01, consuming its SEQ. -/
  | malformedMessage
  /-- STREAM_RESEND (R339). 100 µs after the first unacknowledged message was sent, the device resends every unacknowledged message of the stream in
  SEQ order. -/
  | streamResend
  /-- WRITE (R340). A host WRITE stores its payload, physical or translated, in single-copy atomic words, stopping at the first faulting word. -/
  | write
  /-- READ (R340). A host READ returns the requested words, stopping at the first faulting word. -/
  | read
  /-- ARM (R341). ARM validates a launch header and stores it and its argument block under a tag with a slot ring. -/
  | arm
  /-- DISARM (R341). ARM with LEN = 0 and NLOG = ZLOG = 0 disarms its tag, or answers 0x05 if the tag is not armed. -/
  | disarm
  /-- FIRE (R342). FIRE copies the armed header, arguments and payload into the next slot of the tag and starts a launch from it, replying with the
  launch number. -/
  | fire
  /-- RESYNC (R344). RESYNC replies with the device summary sections and, with the reset flag, resets the stream's sequence spaces. -/
  | resync
  /-- ATTEST (R349). ATTEST replies with the nonce, the measurement registers, reset count and serial, signed with the device identity key. -/
  | attest
  /-- MGMT_ROOT_BASE (R79). MGMT 0x01 sets or reads the page-table root base. -/
  | mgmtRootBase
  /-- MGMT_HEAP_TABLE (R95). MGMT 0x02 returns the heap descriptor table base. -/
  | mgmtHeapTable
  /-- MGMT_SERVICE_CLUSTERS (R263). MGMT 0x03 reserves the named clusters of a die as service clusters. -/
  | mgmtServiceClusters
  /-- MGMT_CODE_GENERATION (R278). MGMT 0x04 advances an ASN's code generation counter and returns the new value. -/
  | mgmtCodeGeneration
  /-- MGMT_BACKMAP_READ (R292). MGMT 0x05 returns the statistics and back-map of a residual named by die and key. -/
  | mgmtBackmapRead
  /-- MGMT_FAULT_QUEUE (R322). MGMT 0x06 replaces a die's fault queue, or restores the default one with ADDR = 0. -/
  | mgmtFaultQueue
  /-- MGMT_PREEMPT (R326). MGMT 0x07 requests pre-emption of a cluster, optionally with eviction to a target die. -/
  | mgmtPreempt
  /-- MGMT_DEFAULT_TVB (R315). MGMT 0x08 sets the default trap vector base. -/
  | mgmtDefaultTvb
  /-- MGMT_CERTIFICATE (R349). MGMT 0x09 returns the device identity certificate in parts. -/
  | mgmtCertificate
  /-- MGMT_REDUCTION_RING (R352). MGMT 0x0A sets the reduction ring, group and port rank. -/
  | mgmtReductionRing
  /-- MGMT_MAINTENANCE (R350). MGMT 0x0B is a maintenance point that maps a spare in for a named unit. -/
  | mgmtMaintenance
  /-- MGMT_LOAD_FIRMWARE (R347). MGMT 0x0C stores a firmware image to be checked at the next reset. -/
  | mgmtLoadFirmware
  /-- MGMT_EXTEND_M3 (R348). MGMT 0x0D sets M3 := SHA3-256(M3 ‖ value). -/
  | mgmtExtendM3
  /-- MGMT_ENCAPSULATION (R337). MGMT 0x0E changes the EtherType and UDP port of the message protocol. -/
  | mgmtEncapsulation
  /-- FIRMWARE_POLL_SLOT (R346). The innkeeper's cyclic executive runs its next polling slot over messages, fault queues, reduction rings and arm
  entries. -/
  | firmwarePollSlot
  /-- REDUCTION_DESCRIPTOR (R352). The innkeeper reads a posted reduction descriptor and its source with a system-scope acquire. -/
  | reductionDescriptor
  /-- REDUCTION_RESULT (R353). Once every member's contribution is present, the sum is formed in port-rank order, DST and RESULT are written and
  CTARGET is decremented. -/
  | reductionResult
  /-- DEBUG_BLOCK_WRITE (R355). A die observes a write to its debug block and applies the new trace settings from the next cycle. -/
  | debugBlockWrite
  /-- TRACE_SAMPLE (R355). Every 2^SLOG issued bundles of a cluster a type 1 sample record is made. -/
  | traceSample
  /-- TRIGGER_EVALUATE (R359). Each sequencer cycle every enabled trigger is evaluated, opening or closing trace windows with type 3 records. -/
  | triggerEvaluate
  /-- SLEN_WRITE (R48). MTS to SLEN checks the whole value is 2^m for m 3 to 16, else raises the format trap and leaves SLEN unchanged. -/
  | slenWrite
  /-- VL_WRITE (R45). MTS to VL writes min(value, VLMAX). -/
  | vlWrite
  /-- VTYPE_WRITE (R180). MTS to VTYPE with GRP = 3 or nonzero bits 15:5 raises the format trap; otherwise VTYPE is written and VL kept. -/
  | vtypeWrite
  /-- CORE_EN_WRITE (R46). MTS to CORE_EN governs core enables for bundles issued three cycles later. -/
  | coreEnWrite
  /-- SKEW_WRITE (R47). MTS to SKEW holds issue until every core has executed earlier bundles, then resumes under the new skew. -/
  | skewWrite
  /-- TSW_WRITE (R312). MTS to TSW in supervisor state writes its fields, ignoring MCP and CHK. -/
  | tswWrite
  /-- NOP (R38). NOP does nothing beyond taking its place in a bundle. -/
  | nop
  /-- JR (R61). JR branches to s_a. -/
  | jr
  /-- RET (R61). RET branches to s31. -/
  | ret
  /-- SPAWN (R270). SPAWN releases earlier stores, fills a child record, counts it in the parent and enqueues it. -/
  | spawn
  /-- SUSPEND (R271). SUSPEND waits out the bank's operations, saves it to the lodging, re-enqueues its record and frees the bank. -/
  | suspend
  /-- SUSPEND_DORM (R271). SUSPEND.DORM puts the bank in the dormant state with all registers kept, to be restarted by an arrival. -/
  | suspendDorm
  /-- JOIN (R272). JOIN continues if the child count is 0, else sets WAIT, saves the bank and frees it. -/
  | join
  /-- EXIT (R273). EXIT joins first, waits out outstanding work, releases stores, decrements the parent or counts completion, and frees the bank. -/
  | exit
  /-- YIELD (R274). YIELD makes the bank ready and takes a switch point if another bank is ready. -/
  | yield
  /-- LAUNCH (R275). LAUNCH reads and validates a header, releases stores, counts CTARGET and hands the launch to all 64 dies. -/
  | launch
  /-- RETT (R331). RETT restores loop state and TSW from the frame and re-enters the bundle at TPC from TSW.SLOT in checked mode. -/
  | rett
  /-- HALT (R331). HALT puts the bank in the waiting state and posts a TYPE 8 fault record. -/
  | halt
  /-- TWAIT (R331). TWAIT holds issue until TSTEP ≥ s_a. -/
  | twait
  /-- TLBINV_ASN (R89). TLBINV.ASN invalidates every non-global entry of an ASN. -/
  | tlbinvAsn
  /-- TLBINV_ALL (R89). TLBINV.ALL invalidates every TLB entry on the device. -/
  | tlbinvAll
  /-- TLBSYNC (R90). TLBSYNC holds issue until the bank's earlier TLBINVs are complete. -/
  | tlbsync
  /-- TLBUNL_ALL (R92). TLBUNL.ALL frees all eight lockable entries. -/
  | tlbunlAll
  /-- BLKDROP (R130). BLKDROP frees a load-block handle. -/
  | blkdrop
  /-- PSET (R55). q_d := 1. -/
  | pset
  /-- PCLR (R55). q_d := 0. -/
  | pclr
  /-- PTOS (R56). Moves the predicate file into s_d. -/
  | ptos
  /-- STOP (R56). Moves s_a bits 31:1 into q1 to q31. -/
  | stop
  /-- ACLR_ALL (R238). Clears every counter. -/
  | aclrAll
  /-- GSEED (R214). Loads both generator seeds from s_a. -/
  | gseed
  /-- GSEED_A (R214). Loads GSEED_A from s_a[31:0]. -/
  | gseedA
  /-- GSEED_B (R214). Loads GSEED_B from s_a[63:32]. -/
  | gseedB
  /-- GRESTART (R215). Sets the stream position GPOS. -/
  | grestart
  /-- BARWAIT (R145). Holds issue until a barrier is complete. -/
  | barwait
  /-- RELOC (R116). Starts the heap's relocation engine over the current table. -/
  | reloc
  /-- SSRCH (R248). Reads and checks a search parameter block and queues a seed search. -/
  | ssrch
  /-- EQUI (R151). Waits until no command of the bank is queued or running and returns the number parked. -/
  | equi
  /-- ECAN_ALL (R152). Cancels every queued or parked command of the bank. -/
  | ecanAll
  /-- ALIGNED_AGAIN (R351). A device that lost time-domain alignment regains it over its scale links and resumes incrementing TSTEP. -/
  | alignedAgain
  /-- DISCARDED_MESSAGE (R339). A message whose SEQ is not the expected one, or that lies beyond the 64-request window, is discarded, and a resent
  request that was already performed is answered with its original reply. -/
  | discardedMessage
  /-- TLB_ENTRY_DROPPED (R87). An entry of a first- or second-level TLB is dropped at any time without notice. -/
  | tlbEntryDropped
deriving DecidableEq, Repr

end Sys2Proof
end

