-- ==== Sys2Proof/WellFormed.lean ====
section
/-!
DEFINITION. Sys2Proof/WellFormed.lean: the operand values that an entry reserves (R33, and the entry of each
instruction). A slot whose operand fails its check is the illegal-instruction case of Table 02.4.
-/

namespace Sys2Proof

/-- The number of a special register (Table 03.1), and back; every other number is unassigned (R44). -/
def SpecialReg.ofNum (n : BitVec 8) : Option SpecialReg :=
  match n.toNat with
  | 0x00 => some .pc | 0x01 => some .tsw | 0x02 => some .wid | 0x03 => some .trec | 0x04 => some .frame
  | 0x05 => some .tidx | 0x06 => some .lrec | 0x08 => some .slen | 0x09 => some .coreEn | 0x0A => some .skew
  | 0x0B => some .vl | 0x0C => some .vtype | 0x10 => some .gpos | 0x11 => some .gseedA | 0x12 => some .gseedB
  | 0x18 => some .tvb | 0x19 => some .tpc | 0x1A => some .tcause | 0x1B => some .tval | 0x20 => some .blkdone
  | 0x21 => some .tstep | 0x22 => some .cycle | 0x28 => some .lc0 | 0x29 => some .lc1 | 0x2A => some .lc2
  | 0x2B => some .lc3 | 0x2C => some .lc4 | 0x2D => some .lc5
  | _ => none

/-- RO in Table 03.1: an MTS to one of these raises the illegal-instruction trap (R45). -/
def SpecialReg.readOnly : SpecialReg → Bool
  | .pc | .wid | .trec | .frame | .tidx | .lrec | .gpos | .gseedA | .gseedB | .blkdone | .tstep | .cycle => true
  | .tsw | .slen | .coreEn | .skew | .vl | .vtype | .tvb | .tpc | .tcause | .tval => false
  | .lc0 | .lc1 | .lc2 | .lc3 | .lc4 | .lc5 => false

/-- RW-S in Table 03.1: written in supervisor state only (R44, R45). -/
def SpecialReg.supervisorWrite : SpecialReg → Bool
  | .tsw | .tvb | .tpc | .tcause | .tval => true
  | .pc | .wid | .trec | .frame | .tidx | .lrec | .gpos | .gseedA | .gseedB | .blkdone | .tstep | .cycle => false
  | .slen | .coreEn | .skew | .vl | .vtype | .lc0 | .lc1 | .lc2 | .lc3 | .lc4 | .lc5 => false

/-- A number that MTS may name (R45). -/
def SpecialReg.writable (n : BitVec 8) : Bool :=
  match SpecialReg.ofNum n with
  | some r => !r.readOnly
  | none => false

/-- R107: dir 3 is reserved, and a field that names an h register has its high bit zero. -/
def hmovFieldsOk (x y : Fin 32) (dir : Fin 4) : Bool :=
  match dir.val with
  | 0 => x.val < 16 && y.val < 16
  | 1 => x.val < 16
  | 2 => y.val < 16
  | _ => false

/-- R219: no reserved field value, and MODE 2 only with every other field zero. -/
def afmtOk (pol route nb na mode : Fin 4) : Bool :=
  pol.val != 3 && route.val != 3 && nb.val != 3 && na.val != 3 && mode.val != 3 &&
  (mode.val != 2 || (pol.val == 0 && route.val == 0 && nb.val == 0 && na.val == 0))

/-- The checks on operand values that the encoding alone decides (R25, R33 and the entry of each instruction). Table 02.4 does not say which reserved
operand values are conditions of the encoding, which trap whatever the guard reads: here those of TLBINV, TLBLK, AMOV, CMP and the others below are, and
levels 6 and 7 of LOOP, LOOPX and LOOPC are not (DESIGN CHOICE, log 41). -/
def Instr.wellFormed : Instr → Bool
  | .ext _ => true
  | .ord scope _ => scope.val < 5
  | .br _ => true
  | .call _ => true
  | .jalr _ _ => true
  | .loop _ _ _ => true
  | .loopx _ => true
  | .loopc _ => true
  | .wait _ _ _ _ => true
  | .fence order scope => order.val != 0 && scope.val < 5
  | .trap _ => true
  | .bkpt _ => true
  | .tlbinvPage _ _ => true
  | .tlblk _ _ size => size.val != 3
  | .tlbunl _ => true
  | .ldblk _ _ _ => true
  | .cflush _ _ => true
  | .cclean _ _ => true
  | .mfs _ sr => (SpecialReg.ofNum sr).isSome
  | .mts _ sr => SpecialReg.writable sr
  | .add _ _ _ => true
  | .sub _ _ _ => true
  | .and _ _ _ => true
  | .or _ _ _ => true
  | .xor _ _ _ => true
  | .sll _ _ _ => true
  | .srl _ _ _ => true
  | .sra _ _ _ => true
  | .mul _ _ _ => true
  | .mulhs _ _ _ => true
  | .mulhu _ _ _ => true
  | .min _ _ _ => true
  | .max _ _ _ => true
  | .minu _ _ _ => true
  | .maxu _ _ _ => true
  | .andn _ _ _ => true
  | .addw _ _ _ => true
  | .subw _ _ _ => true
  | .sllw _ _ _ => true
  | .srlw _ _ _ => true
  | .sraw _ _ _ => true
  | .mulw _ _ _ => true
  | .rotl _ _ _ => true
  | .rotr _ _ _ => true
  | .div _ _ _ => true
  | .divu _ _ _ => true
  | .rem _ _ _ => true
  | .remu _ _ _ => true
  | .clz _ _ => true
  | .ctz _ _ => true
  | .popc _ _ => true
  | .brev _ _ => true
  | .addi _ _ _ => true
  | .andi _ _ _ => true
  | .ori _ _ _ => true
  | .xori _ _ _ => true
  | .slli _ _ _ => true
  | .srli _ _ _ => true
  | .srai _ _ _ => true
  | .movi _ _ => true
  | .shori _ _ => true
  | .cmp _ _ _ cc => cc.val < 6
  | .cmpi _ _ _ cc => cc.val < 6
  | .pand _ _ _ => true
  | .por _ _ _ => true
  | .pxor _ _ _ => true
  | .pandn _ _ _ => true
  | .pnot _ _ => true
  | .pmov _ _ => true
  | .xput _ _ => true
  | .xget _ _ _ => true
  | .ld _ _ _ _ => true
  | .ldu _ _ _ _ => true
  | .st _ _ _ _ => true
  | .amo _ _ _ _ => true
  | .amow _ _ _ _ => true
  | .hld _ _ _ _ _ => true
  | .hst _ _ _ _ => true
  | .ldref _ m base _ => !m || base.val < 16
  | .stref _ m base _ => !m || base.val < 16
  | .pin _ _ => true
  | .unpin _ => true
  | .hmov x y dir => hmovFieldsOk x y dir
  | .hnull _ => true
  | .heq _ _ _ => true
  | .gld _ _ _ _ _ => true
  | .gst _ _ _ _ => true
  | .gamo _ _ _ _ _ => true
  | .chld _ _ _ _ _ => true
  | .chst _ _ _ _ => true
  | .cldref _ _ _ _ => true
  | .cstref _ _ _ _ => true
  | .cpin _ _ => true
  | .cunpin _ => true
  | .chmov _ _ dir => dir.val != 3
  | .chnull _ => true
  | .cheq _ _ _ => true
  | .aaddi _ _ _ => true
  | .aadd _ _ _ => true
  | .ashl _ _ _ => true
  | .amovStride _ _ lvl => lvl.val < 6
  | .amov _ _ => true
  | .arank _ => true
  | .vld _ _ width _ _ => width.val != 3
  | .vst _ _ width _ _ => width.val != 3
  | .vlds _ _ width _ _ => width.val != 3
  | .vldx _ _ _ width _ _ => width.val != 3
  | .vstx _ _ _ width _ _ => width.val != 3
  | .vldff _ _ width _ _ => width.val != 3
  | .vldg _ _ _ width _ _ => width.val != 3
  | .vstg _ _ _ width _ _ => width.val != 3
  | .agth _ _ _ _ => true
  | .vsetl _ _ vt => (vt.toNat / 2 % 4 != 3)
  | .vadd _ _ _ width _ => width.val != 3
  | .vsub _ _ _ width _ => width.val != 3
  | .vadds _ _ _ width _ => width.val != 3
  | .vsubs _ _ _ width _ => width.val != 3
  | .vaddus _ _ _ width _ => width.val != 3
  | .vsubus _ _ _ width _ => width.val != 3
  | .vavg _ _ _ width _ => width.val != 3
  | .vabd _ _ _ width _ => width.val != 3
  | .vmul _ _ _ width _ => width.val != 3
  | .vmulhs _ _ _ width _ => width.val != 3
  | .vmulhu _ _ _ width _ => width.val != 3
  | .vmulq _ _ _ width _ => width.val != 3
  | .vmac _ _ _ width _ => width.val != 3
  | .vmsub _ _ _ width _ => width.val != 3
  | .vmacs _ _ _ width _ => width.val != 3
  | .vdot2 _ _ _ width _ => width.val != 3
  | .vand _ _ _ width _ => width.val != 3
  | .vor _ _ _ width _ => width.val != 3
  | .vxor _ _ _ width _ => width.val != 3
  | .vandn _ _ _ width _ => width.val != 3
  | .vsll _ _ _ width _ => width.val != 3
  | .vsrl _ _ _ width _ => width.val != 3
  | .vsra _ _ _ width _ => width.val != 3
  | .vrot _ _ _ width _ => width.val != 3
  | .vslli _ _ _ width _ => width.val != 3
  | .vsrli _ _ _ width _ => width.val != 3
  | .vsrai _ _ _ width _ => width.val != 3
  | .vsrar _ _ _ width _ => width.val != 3
  | .vmin _ _ _ width _ => width.val != 3
  | .vmax _ _ _ width _ => width.val != 3
  | .vminu _ _ _ width _ => width.val != 3
  | .vmaxu _ _ _ width _ => width.val != 3
  | .vceq vd _ _ width _ => width.val != 3 && vd.val < 4
  | .vclt vd _ _ width _ => width.val != 3 && vd.val < 4
  | .vcltu vd _ _ width _ => width.val != 3 && vd.val < 4
  | .vcle vd _ _ width _ => width.val != 3 && vd.val < 4
  | .vfadd _ _ _ width _ => width.val != 3
  | .vfsub _ _ _ width _ => width.val != 3
  | .vfmin _ _ _ width _ => width.val != 3
  | .vfmax _ _ _ width _ => width.val != 3
  | .vfmul _ _ _ width _ => width.val != 3
  | .vfma _ _ _ width _ => width.val != 3
  | .vfms _ _ _ width _ => width.val != 3
  | .vfnma _ _ _ width _ => width.val != 3
  | .vfeq vd _ _ width _ => width.val != 3 && vd.val < 4
  | .vflt vd _ _ width _ => width.val != 3 && vd.val < 4
  | .vfle vd _ _ width _ => width.val != 3 && vd.val < 4
  | .vftot vd _ _ width _ => width.val != 3 && vd.val < 4
  | .vfabs _ _ width _ => width.val != 3
  | .vfneg _ _ width _ => width.val != 3
  | .vfsqrt _ _ width _ => width.val != 3
  | .vfrcp _ _ width _ => width.val != 3
  | .vi2f _ _ _ width _ => width.val != 3
  | .vf2i _ _ _ _ width _ => width.val != 3
  | .vfwid _ _ width _ => width.val != 3
  | .vfnar _ _ width _ => width.val != 3
  | .vredsum _ _ _ width _ => width.val != 3
  | .vredmax _ _ _ width _ => width.val != 3
  | .vredmin _ _ _ width _ => width.val != 3
  | .vredarg _ _ vb width _ => width.val != 3 && vb.val < 2
  | .vfredsum _ _ _ width _ => width.val != 3
  | .vfredmax _ _ _ width _ => width.val != 3
  | .vfredmin _ _ _ width _ => width.val != 3
  | .vfredarg _ _ vb width _ => width.val != 3 && vb.val < 2
  | .vidot _ _ _ width _ => width.val != 3
  | .vidotu _ _ _ width _ => width.val != 3
  | .vfdot _ _ _ width _ => width.val != 3
  | .vfdota _ _ _ width _ => width.val != 3
  | .vgath _ _ _ width _ => width.val != 3
  | .vslup _ _ _ width _ => width.val != 3
  | .vsldn _ _ _ width _ => width.val != 3
  | .vcomp _ _ width _ => width.val != 3
  | .vmv _ _ width _ => width.val != 3
  | .vmvRf _ width => width.val != 3
  | .vmvCf _ width => width.val != 3
  | .vsplat _ _ width _ => width.val != 3
  | .vbcs _ _ _ width _ => width.val != 3
  | .vid _ width _ => width.val != 3
  | .mand vd va vb width => width.val != 3 && vd.val < 4 && va.val < 4 && vb.val < 4
  | .mor vd va vb width => width.val != 3 && vd.val < 4 && va.val < 4 && vb.val < 4
  | .mxor vd va vb width => width.val != 3 && vd.val < 4 && va.val < 4 && vb.val < 4
  | .mnot vd va width => width.val != 3 && vd.val < 4 && va.val < 4
  | .mpopc _ va width _ => width.val != 3 && va.val < 4
  | .mfirst _ va width _ => width.val != 3 && va.val < 4
  | .mset vd width => width.val != 3 && vd.val < 4
  | .mclr vd width => width.val != 3 && vd.val < 4
  | .vmerge _ _ _ width msel => width.val != 3 && msel.val != 0
  | .vselm _ va width _ => width.val != 3 && va.val < 4
  | .vbscl _ _ _ width _ => width.val != 3
  | .upki _ _ _ _ => true
  | .upkf _ _ _ fmt _ => fmt.val < 5
  | .upkb _ _ _ _ => true
  | .pcki _ _ _ _ => true
  | .pckf _ _ _ fmt _ => fmt.val < 5
  | .pckb _ _ _ _ => true
  | .pscl _ _ fmt => fmt.val < 4
  | .afmt pol route nb na mode => afmtOk pol route nb na mode
  | .alatchLa _ => true
  | .alatchLb _ => true
  | .alatchLbs _ => true
  | .alatchLz edge => edge.val != 0
  | .abeat _ _ c p => p || !c
  | .adrain _ ak _ bip _ _ => bip || ak.val == 0
  | .aconf _ _ _ _ _ => true
  | .ard _ _ _ => true
  | .awr _ _ _ => true
  | .ascl _ _ _ _ => true
  | .aclr _ => true
  | .gread _ sel j => sel.val != 3 && (sel.val != 2 || j.val == 0)
  | .bterm _ _ _ => true
  | .bnext _ => true
  | .cpy _ _ tgt => tgt.val < 9
  | .barinit _ _ scope _ => scope.val < 5
  | .baradd _ _ => true
  | .bartest _ _ => true
  | .sendh _ _ => true
  | .hflip _ _ => true
  | .hstat _ _ => true
  | .estat _ _ => true
  | .ecan _ _ => true
  | .moduleReset => true
  | .bundleIssue => true
  | .tlbMissWalk => true
  | .asyncAccessComplete => true
  | .trapEntry => true
  | .bankFaultWait => true
  | .faultRecordPost => true
  | .actionRetry => true
  | .actionEvict => true
  | .actionDeliver => true
  | .actionFail => true
  | .actionKill => true
  | .preemption => true
  | .swapIn => true
  | .recordTake => true
  | .taskRestore => true
  | .queueAgeing => true
  | .dieLaunchTake => true
  | .specialise => true
  | .specialiseTimeout => true
  | .launchEnumerate => true
  | .dieCompletionReport => true
  | .launchCompletion => true
  | .commandStart => true
  | .courierElement => true
  | .commandComplete => true
  | .arrivalReserve => true
  | .handlerStart => true
  | .relocEntry => true
  | .searchRun => true
  | .agthRowCopy => true
  | .blockFillComplete => true
  | .tlbinvComplete => true
  | .tstepIncrement => true
  | .timeAlignmentLoss => true
  | .frameDrop => true
  | .malformedMessage => true
  | .streamResend => true
  | .write => true
  | .read => true
  | .arm => true
  | .disarm => true
  | .fire => true
  | .resync => true
  | .attest => true
  | .mgmtRootBase => true
  | .mgmtHeapTable => true
  | .mgmtServiceClusters => true
  | .mgmtCodeGeneration => true
  | .mgmtBackmapRead => true
  | .mgmtFaultQueue => true
  | .mgmtPreempt => true
  | .mgmtDefaultTvb => true
  | .mgmtCertificate => true
  | .mgmtReductionRing => true
  | .mgmtMaintenance => true
  | .mgmtLoadFirmware => true
  | .mgmtExtendM3 => true
  | .mgmtEncapsulation => true
  | .firmwarePollSlot => true
  | .reductionDescriptor => true
  | .reductionResult => true
  | .debugBlockWrite => true
  | .traceSample => true
  | .triggerEvaluate => true
  | .slenWrite => true
  | .vlWrite => true
  | .vtypeWrite => true
  | .coreEnWrite => true
  | .skewWrite => true
  | .tswWrite => true
  | .nop => true
  | .jr => true
  | .ret => true
  | .spawn => true
  | .suspend => true
  | .suspendDorm => true
  | .join => true
  | .exit => true
  | .yield => true
  | .launch => true
  | .rett => true
  | .halt => true
  | .twait => true
  | .tlbinvAsn => true
  | .tlbinvAll => true
  | .tlbsync => true
  | .tlbunlAll => true
  | .blkdrop => true
  | .pset => true
  | .pclr => true
  | .ptos => true
  | .stop => true
  | .aclrAll => true
  | .gseed => true
  | .gseedA => true
  | .gseedB => true
  | .grestart => true
  | .barwait => true
  | .reloc => true
  | .ssrch => true
  | .equi => true
  | .ecanAll => true
  | .alignedAgain => true
  | .discardedMessage => true
  | .tlbEntryDropped => true

end Sys2Proof
end

