-- ==== Sys2Proof/Decode.lean ====
section
/-!
DEFINITION. Sys2Proof/Decode.lean: the decoder of slot words (R22, R25, R33, R37) and, after it, the encoder, both from
the layouts of the entries. A word that is no instruction is refused by name.
-/

namespace Sys2Proof

/-- Why a word is no instruction (Table 02.4). -/
inductive Reject where
  /-- A major opcode that Table 02.5 does not assign. -/
  | reservedMajor (major : Nat)
  /-- A reserved minor, or a must-be-zero bit set, under an assigned major. -/
  | reservedEncoding (major : Nat)
  /-- An operand value that the entry reserves (`Instr.wellFormed`). -/
  | reservedValue
  /-- A prefix whose bits 30:25 are not zero (R30). -/
  | prefixBits
deriving DecidableEq, Repr

/-- Bits lo + n - 1 down to lo of an operand field. -/
def fld (x lo n : Nat) : Nat := x / 2 ^ lo % 2 ^ n

/-- One bit of an operand field. -/
def bitAt (x lo : Nat) : Bool := fld x lo 1 == 1

/-- A field of n bits as a bit vector. -/
def bv (n x lo : Nat) : BitVec n := BitVec.ofNat n (fld x lo n)

/-- Fields that name a register or a small code. -/
def fin2 (x lo : Nat) : Fin 4 := Fin.ofNat 4 (fld x lo 2)
@[inherit_doc fin2] def fin3 (x lo : Nat) : Fin 8 := Fin.ofNat 8 (fld x lo 3)
@[inherit_doc fin2] def fin4 (x lo : Nat) : Fin 16 := Fin.ofNat 16 (fld x lo 4)
@[inherit_doc fin2] def fin5 (x lo : Nat) : Fin 32 := Fin.ofNat 32 (fld x lo 5)
@[inherit_doc fin2] def fin6 (x lo : Nat) : Fin 64 := Fin.ofNat 64 (fld x lo 6)

/-- An instruction whose operand values pass the checks of its entry. -/
def checked (i : Instr) : Except Reject Instr :=
  if i.wellFormed then .ok i else .error .reservedValue

/-- Major 0x00: NOP. -/
def decodeMajor00 (x : Nat) : Except Reject Instr :=
  if fld x 0 18 == 0 then checked (.nop) else
  .error (.reservedEncoding 0x00)

/-- Major 0x01: EXT. -/
def decodeMajor01 (x : Nat) : Except Reject Instr :=
  if fld x 16 2 == 0 then checked (.ext (bv 16 x 0)) else
  .error (.reservedEncoding 0x01)

/-- Major 0x02: ORD. -/
def decodeMajor02 (x : Nat) : Except Reject Instr :=
  if fld x 2 1 == 0 && fld x 6 12 == 0 then checked (.ord (fin3 x 3) (fin2 x 0)) else
  .error (.reservedEncoding 0x02)

/-- Major 0x03: BR. -/
def decodeMajor03 (x : Nat) : Except Reject Instr :=
  checked (.br (bv 18 x 0))

/-- Major 0x04: CALL. -/
def decodeMajor04 (x : Nat) : Except Reject Instr :=
  checked (.call (bv 18 x 0))

/-- Major 0x05: RET, JR, JALR. -/
def decodeMajor05 (x : Nat) : Except Reject Instr :=
  if fld x 0 18 == 2 then checked (.ret) else
  if fld x 0 8 == 0 && fld x 13 5 == 0 then checked (.jr) else
  if fld x 0 8 == 1 then checked (.jalr (fin5 x 13) (fin5 x 8)) else
  .error (.reservedEncoding 0x05)

/-- Major 0x06: LOOP. -/
def decodeMajor06 (x : Nat) : Except Reject Instr :=
  checked (.loop (fin3 x 15) (fin5 x 10) (bv 10 x 0))

/-- Major 0x07: LOOPX, LOOPC. -/
def decodeMajor07 (x : Nat) : Except Reject Instr :=
  if fld x 0 15 == 0 then checked (.loopx (fin3 x 15)) else
  if fld x 0 15 == 1 then checked (.loopc (fin3 x 15)) else
  .error (.reservedEncoding 0x07)

/-- Major 0x08: WAIT. -/
def decodeMajor08 (x : Nat) : Except Reject Instr :=
  if fld x 16 2 == 0 then checked (.wait (fin4 x 12) (fin4 x 8) (fin4 x 4) (fin4 x 0)) else
  .error (.reservedEncoding 0x08)

/-- Major 0x09: FENCE. -/
def decodeMajor09 (x : Nat) : Except Reject Instr :=
  if fld x 0 3 == 0 && fld x 8 10 == 0 then checked (.fence (fin2 x 6) (fin3 x 3)) else
  .error (.reservedEncoding 0x09)

/-- Major 0x0A: SUSPEND, SUSPEND_DORM, JOIN, EXIT, YIELD, SPAWN, LAUNCH. -/
def decodeMajor0A (x : Nat) : Except Reject Instr :=
  if fld x 0 18 == 1 then checked (.suspend) else
  if fld x 0 18 == 9 then checked (.suspendDorm) else
  if fld x 0 18 == 2 then checked (.join) else
  if fld x 0 18 == 3 then checked (.exit) else
  if fld x 0 18 == 4 then checked (.yield) else
  if fld x 0 8 == 0 && fld x 13 5 == 0 then checked (.spawn) else
  if fld x 0 8 == 5 && fld x 13 5 == 0 then checked (.launch) else
  .error (.reservedEncoding 0x0A)

/-- Major 0x0B: RETT, HALT, TWAIT, TRAP, BKPT. -/
def decodeMajor0B (x : Nat) : Except Reject Instr :=
  if fld x 0 18 == 1 then checked (.rett) else
  if fld x 0 18 == 3 then checked (.halt) else
  if fld x 0 8 == 4 && fld x 13 5 == 0 then checked (.twait) else
  if fld x 0 3 == 0 then checked (.trap (bv 15 x 3)) else
  if fld x 0 3 == 2 then checked (.bkpt (bv 15 x 3)) else
  .error (.reservedEncoding 0x0B)

/-- Major 0x0C: TLBINV_ALL, TLBSYNC, TLBUNL_ALL, TLBUNL, TLBINV_ASN, TLBINV_PAGE, TLBLK. -/
def decodeMajor0C (x : Nat) : Except Reject Instr :=
  if fld x 0 18 == 16 then checked (.tlbinvAll) else
  if fld x 0 18 == 1 then checked (.tlbsync) else
  if fld x 0 18 == 19 then checked (.tlbunlAll) else
  if fld x 0 5 == 3 && fld x 8 10 == 0 then checked (.tlbunl (fin3 x 5)) else
  if fld x 0 8 == 8 && fld x 13 5 == 0 then checked (.tlbinvAsn) else
  if fld x 0 8 == 0 then checked (.tlbinvPage (fin5 x 13) (fin5 x 8)) else
  if fld x 0 3 == 2 && fld x 8 5 == 0 then checked (.tlblk (fin5 x 13) (fin3 x 5) (fin2 x 3)) else
  .error (.reservedEncoding 0x0C)

/-- Major 0x0D: BLKDROP, CFLUSH, CCLEAN, LDBLK. -/
def decodeMajor0D (x : Nat) : Except Reject Instr :=
  if fld x 0 8 == 1 && fld x 13 5 == 0 then checked (.blkdrop) else
  if fld x 0 2 == 2 && fld x 13 5 == 0 then checked (.cflush (fin5 x 8) (fin6 x 2)) else
  if fld x 0 2 == 3 && fld x 13 5 == 0 then checked (.cclean (fin5 x 8) (fin6 x 2)) else
  if fld x 0 2 == 0 then checked (.ldblk (fin5 x 13) (fin5 x 8) (fin6 x 2)) else
  .error (.reservedEncoding 0x0D)

/-- Major 0x0E: MFS. -/
def decodeMajor0E (x : Nat) : Except Reject Instr :=
  if fld x 8 5 == 0 then checked (.mfs (fin5 x 13) (bv 8 x 0)) else
  .error (.reservedEncoding 0x0E)

/-- Major 0x0F: MTS. -/
def decodeMajor0F (x : Nat) : Except Reject Instr :=
  if fld x 13 5 == 0 then checked (.mts (fin5 x 8) (bv 8 x 0)) else
  .error (.reservedEncoding 0x0F)

/-- Major 0x10: ADD, SUB, AND, OR, XOR, SLL, SRL, SRA. -/
def decodeMajor10 (x : Nat) : Except Reject Instr :=
  if fld x 0 3 == 0 then checked (.add (fin5 x 13) (fin5 x 8) (fin5 x 3)) else
  if fld x 0 3 == 1 then checked (.sub (fin5 x 13) (fin5 x 8) (fin5 x 3)) else
  if fld x 0 3 == 2 then checked (.and (fin5 x 13) (fin5 x 8) (fin5 x 3)) else
  if fld x 0 3 == 3 then checked (.or (fin5 x 13) (fin5 x 8) (fin5 x 3)) else
  if fld x 0 3 == 4 then checked (.xor (fin5 x 13) (fin5 x 8) (fin5 x 3)) else
  if fld x 0 3 == 5 then checked (.sll (fin5 x 13) (fin5 x 8) (fin5 x 3)) else
  if fld x 0 3 == 6 then checked (.srl (fin5 x 13) (fin5 x 8) (fin5 x 3)) else
  if fld x 0 3 == 7 then checked (.sra (fin5 x 13) (fin5 x 8) (fin5 x 3)) else
  .error (.reservedEncoding 0x10)

/-- Major 0x11: MUL, MULHS, MULHU, MIN, MAX, MINU, MAXU, ANDN. -/
def decodeMajor11 (x : Nat) : Except Reject Instr :=
  if fld x 0 3 == 0 then checked (.mul (fin5 x 13) (fin5 x 8) (fin5 x 3)) else
  if fld x 0 3 == 1 then checked (.mulhs (fin5 x 13) (fin5 x 8) (fin5 x 3)) else
  if fld x 0 3 == 2 then checked (.mulhu (fin5 x 13) (fin5 x 8) (fin5 x 3)) else
  if fld x 0 3 == 3 then checked (.min (fin5 x 13) (fin5 x 8) (fin5 x 3)) else
  if fld x 0 3 == 4 then checked (.max (fin5 x 13) (fin5 x 8) (fin5 x 3)) else
  if fld x 0 3 == 5 then checked (.minu (fin5 x 13) (fin5 x 8) (fin5 x 3)) else
  if fld x 0 3 == 6 then checked (.maxu (fin5 x 13) (fin5 x 8) (fin5 x 3)) else
  if fld x 0 3 == 7 then checked (.andn (fin5 x 13) (fin5 x 8) (fin5 x 3)) else
  .error (.reservedEncoding 0x11)

/-- Major 0x12: ADDW, SUBW, SLLW, SRLW, SRAW, MULW, ROTL, ROTR. -/
def decodeMajor12 (x : Nat) : Except Reject Instr :=
  if fld x 0 3 == 0 then checked (.addw (fin5 x 13) (fin5 x 8) (fin5 x 3)) else
  if fld x 0 3 == 1 then checked (.subw (fin5 x 13) (fin5 x 8) (fin5 x 3)) else
  if fld x 0 3 == 2 then checked (.sllw (fin5 x 13) (fin5 x 8) (fin5 x 3)) else
  if fld x 0 3 == 3 then checked (.srlw (fin5 x 13) (fin5 x 8) (fin5 x 3)) else
  if fld x 0 3 == 4 then checked (.sraw (fin5 x 13) (fin5 x 8) (fin5 x 3)) else
  if fld x 0 3 == 5 then checked (.mulw (fin5 x 13) (fin5 x 8) (fin5 x 3)) else
  if fld x 0 3 == 6 then checked (.rotl (fin5 x 13) (fin5 x 8) (fin5 x 3)) else
  if fld x 0 3 == 7 then checked (.rotr (fin5 x 13) (fin5 x 8) (fin5 x 3)) else
  .error (.reservedEncoding 0x12)

/-- Major 0x13: CLZ, CTZ, POPC, BREV, DIV, DIVU, REM, REMU. -/
def decodeMajor13 (x : Nat) : Except Reject Instr :=
  if fld x 0 8 == 4 then checked (.clz (fin5 x 13) (fin5 x 8)) else
  if fld x 0 8 == 5 then checked (.ctz (fin5 x 13) (fin5 x 8)) else
  if fld x 0 8 == 6 then checked (.popc (fin5 x 13) (fin5 x 8)) else
  if fld x 0 8 == 7 then checked (.brev (fin5 x 13) (fin5 x 8)) else
  if fld x 0 3 == 0 then checked (.div (fin5 x 13) (fin5 x 8) (fin5 x 3)) else
  if fld x 0 3 == 1 then checked (.divu (fin5 x 13) (fin5 x 8) (fin5 x 3)) else
  if fld x 0 3 == 2 then checked (.rem (fin5 x 13) (fin5 x 8) (fin5 x 3)) else
  if fld x 0 3 == 3 then checked (.remu (fin5 x 13) (fin5 x 8) (fin5 x 3)) else
  .error (.reservedEncoding 0x13)

/-- Major 0x14: ADDI. -/
def decodeMajor14 (x : Nat) : Except Reject Instr :=
  checked (.addi (fin5 x 13) (fin5 x 8) (bv 8 x 0))

/-- Major 0x15: ANDI. -/
def decodeMajor15 (x : Nat) : Except Reject Instr :=
  checked (.andi (fin5 x 13) (fin5 x 8) (bv 8 x 0))

/-- Major 0x16: ORI. -/
def decodeMajor16 (x : Nat) : Except Reject Instr :=
  checked (.ori (fin5 x 13) (fin5 x 8) (bv 8 x 0))

/-- Major 0x17: XORI. -/
def decodeMajor17 (x : Nat) : Except Reject Instr :=
  checked (.xori (fin5 x 13) (fin5 x 8) (bv 8 x 0))

/-- Major 0x18: SLLI, SRLI, SRAI. -/
def decodeMajor18 (x : Nat) : Except Reject Instr :=
  if fld x 0 2 == 0 then checked (.slli (fin5 x 13) (fin5 x 8) (fin6 x 2)) else
  if fld x 0 2 == 1 then checked (.srli (fin5 x 13) (fin5 x 8) (fin6 x 2)) else
  if fld x 0 2 == 2 then checked (.srai (fin5 x 13) (fin5 x 8) (fin6 x 2)) else
  .error (.reservedEncoding 0x18)

/-- Major 0x19: MOVI. -/
def decodeMajor19 (x : Nat) : Except Reject Instr :=
  checked (.movi (fin5 x 13) (bv 13 x 0))

/-- Major 0x1A: SHORI. -/
def decodeMajor1A (x : Nat) : Except Reject Instr :=
  checked (.shori (fin5 x 13) (bv 13 x 0))

/-- Major 0x1B: CMP. -/
def decodeMajor1B (x : Nat) : Except Reject Instr :=
  checked (.cmp (fin5 x 13) (fin5 x 8) (fin5 x 3) (fin3 x 0))

/-- Major 0x1C: CMPI. -/
def decodeMajor1C (x : Nat) : Except Reject Instr :=
  checked (.cmpi (fin5 x 13) (fin5 x 8) (bv 5 x 3) (fin3 x 0))

/-- Major 0x1D: PSET, PCLR, PNOT, PMOV, PAND, POR, PXOR, PANDN. -/
def decodeMajor1D (x : Nat) : Except Reject Instr :=
  if fld x 0 13 == 6 then checked (.pset) else
  if fld x 0 13 == 7 then checked (.pclr) else
  if fld x 0 8 == 4 then checked (.pnot (fin5 x 13) (fin5 x 8)) else
  if fld x 0 8 == 5 then checked (.pmov (fin5 x 13) (fin5 x 8)) else
  if fld x 0 3 == 0 then checked (.pand (fin5 x 13) (fin5 x 8) (fin5 x 3)) else
  if fld x 0 3 == 1 then checked (.por (fin5 x 13) (fin5 x 8) (fin5 x 3)) else
  if fld x 0 3 == 2 then checked (.pxor (fin5 x 13) (fin5 x 8) (fin5 x 3)) else
  if fld x 0 3 == 3 then checked (.pandn (fin5 x 13) (fin5 x 8) (fin5 x 3)) else
  .error (.reservedEncoding 0x1D)

/-- Major 0x1E: PTOS, STOP. -/
def decodeMajor1E (x : Nat) : Except Reject Instr :=
  if fld x 0 13 == 0 then checked (.ptos) else
  if fld x 0 8 == 1 && fld x 13 5 == 0 then checked (.stop) else
  .error (.reservedEncoding 0x1E)

/-- Major 0x1F: XPUT, XGET. -/
def decodeMajor1F (x : Nat) : Except Reject Instr :=
  if fld x 0 9 == 0 then checked (.xput (fin4 x 14) (fin5 x 9)) else
  if fld x 0 6 == 1 then checked (.xget (fin5 x 13) (fin4 x 9) (fin3 x 6)) else
  .error (.reservedEncoding 0x1F)

/-- Major 0x28: LD. -/
def decodeMajor28 (x : Nat) : Except Reject Instr :=
  checked (.ld (fin5 x 13) (fin5 x 8) (fin2 x 6) (bv 6 x 0))

/-- Major 0x29: LDU. -/
def decodeMajor29 (x : Nat) : Except Reject Instr :=
  checked (.ldu (fin5 x 13) (fin5 x 8) (fin2 x 6) (bv 6 x 0))

/-- Major 0x2A: ST. -/
def decodeMajor2A (x : Nat) : Except Reject Instr :=
  checked (.st (fin5 x 13) (fin5 x 8) (fin2 x 6) (bv 6 x 0))

/-- Major 0x2B: AMO. -/
def decodeMajor2B (x : Nat) : Except Reject Instr :=
  checked (.amo (fin5 x 13) (fin5 x 8) (fin5 x 3) (fin3 x 0))

/-- Major 0x2C: AMOW. -/
def decodeMajor2C (x : Nat) : Except Reject Instr :=
  checked (.amow (fin5 x 13) (fin5 x 8) (fin5 x 3) (fin3 x 0))

/-- Major 0x2D: HLD. -/
def decodeMajor2D (x : Nat) : Except Reject Instr :=
  checked (.hld (fin5 x 13) (fin4 x 9) (fin2 x 7) (bitAt x 6) (bv 6 x 0))

/-- Major 0x2E: HST. -/
def decodeMajor2E (x : Nat) : Except Reject Instr :=
  if fld x 6 1 == 0 then checked (.hst (fin5 x 13) (fin4 x 9) (fin2 x 7) (bv 6 x 0)) else
  .error (.reservedEncoding 0x2E)

/-- Major 0x2F: UNPIN, HNULL, PIN, HMOV, HEQ, LDREF, STREF. -/
def decodeMajor2F (x : Nat) : Except Reject Instr :=
  if fld x 0 9 == 3 && fld x 13 5 == 0 then checked (.unpin (fin4 x 9)) else
  if fld x 0 14 == 5 then checked (.hnull (fin4 x 14)) else
  if fld x 0 9 == 2 then checked (.pin (fin5 x 13) (fin4 x 9)) else
  if fld x 0 6 == 4 then checked (.hmov (fin5 x 13) (fin5 x 8) (fin2 x 6)) else
  if fld x 0 5 == 6 then checked (.heq (fin5 x 13) (fin4 x 9) (fin4 x 5)) else
  if fld x 0 3 == 0 then checked (.ldref (fin4 x 14) (bitAt x 13) (fin5 x 8) (bv 5 x 3)) else
  if fld x 0 3 == 1 then checked (.stref (fin4 x 14) (bitAt x 13) (fin5 x 8) (bv 5 x 3)) else
  .error (.reservedEncoding 0x2F)

/-- Major 0x30: GLD. -/
def decodeMajor30 (x : Nat) : Except Reject Instr :=
  checked (.gld (fin4 x 14) (fin4 x 10) (fin2 x 8) (bitAt x 7) (bv 7 x 0))

/-- Major 0x31: GST. -/
def decodeMajor31 (x : Nat) : Except Reject Instr :=
  if fld x 7 1 == 0 then checked (.gst (fin4 x 14) (fin4 x 10) (fin2 x 8) (bv 7 x 0)) else
  .error (.reservedEncoding 0x31)

/-- Major 0x32: GAMO. -/
def decodeMajor32 (x : Nat) : Except Reject Instr :=
  if fld x 0 2 == 0 then checked (.gamo (fin4 x 14) (fin4 x 10) (fin4 x 6) (bitAt x 5) (fin3 x 2)) else
  .error (.reservedEncoding 0x32)

/-- Major 0x33: CHLD. -/
def decodeMajor33 (x : Nat) : Except Reject Instr :=
  checked (.chld (fin4 x 14) (fin4 x 10) (fin2 x 8) (bitAt x 7) (bv 7 x 0))

/-- Major 0x34: CHST. -/
def decodeMajor34 (x : Nat) : Except Reject Instr :=
  if fld x 7 1 == 0 then checked (.chst (fin4 x 14) (fin4 x 10) (fin2 x 8) (bv 7 x 0)) else
  .error (.reservedEncoding 0x34)

/-- Major 0x35: CUNPIN, CHNULL, CPIN, CHMOV, CHEQ, CLDREF, CSTREF. -/
def decodeMajor35 (x : Nat) : Except Reject Instr :=
  if fld x 0 10 == 3 && fld x 14 4 == 0 then checked (.cunpin (fin4 x 10)) else
  if fld x 0 14 == 5 then checked (.chnull (fin4 x 14)) else
  if fld x 0 10 == 2 then checked (.cpin (fin4 x 14) (fin4 x 10)) else
  if fld x 0 8 == 4 then checked (.chmov (fin4 x 14) (fin4 x 10) (fin2 x 8)) else
  if fld x 0 6 == 6 then checked (.cheq (fin4 x 14) (fin4 x 10) (fin4 x 6)) else
  if fld x 0 3 == 0 then checked (.cldref (fin4 x 14) (bitAt x 13) (fin4 x 9) (bv 6 x 3)) else
  if fld x 0 3 == 1 then checked (.cstref (fin4 x 14) (bitAt x 13) (fin4 x 9) (bv 6 x 3)) else
  .error (.reservedEncoding 0x35)

/-- Major 0x36: ARANK, AMOV, AMOV_STRIDE, AADD, ASHL, AADDI. -/
def decodeMajor36 (x : Nat) : Except Reject Instr :=
  if fld x 0 14 == 4 then checked (.arank (fin4 x 14)) else
  if fld x 0 10 == 899 then checked (.amov (fin4 x 14) (fin4 x 10)) else
  if fld x 0 7 == 3 then checked (.amovStride (fin4 x 14) (fin4 x 10) (fin3 x 7)) else
  if fld x 0 6 == 1 then checked (.aadd (fin4 x 14) (fin4 x 10) (fin4 x 6)) else
  if fld x 0 4 == 2 then checked (.ashl (fin4 x 14) (fin4 x 10) (fin6 x 4)) else
  if fld x 0 3 == 0 then checked (.aaddi (fin4 x 14) (fin4 x 10) (bv 7 x 3)) else
  .error (.reservedEncoding 0x36)

/-- Major 0x38: VLD. -/
def decodeMajor38 (x : Nat) : Except Reject Instr :=
  checked (.vld (fin4 x 14) (fin4 x 10) (fin2 x 8) (fin2 x 6) (bv 6 x 0))

/-- Major 0x39: VST. -/
def decodeMajor39 (x : Nat) : Except Reject Instr :=
  checked (.vst (fin4 x 14) (fin4 x 10) (fin2 x 8) (fin2 x 6) (bv 6 x 0))

/-- Major 0x3A: VLDS. -/
def decodeMajor3A (x : Nat) : Except Reject Instr :=
  checked (.vlds (fin4 x 14) (fin4 x 10) (fin2 x 8) (fin2 x 6) (bv 6 x 0))

/-- Major 0x3B: VLDX. -/
def decodeMajor3B (x : Nat) : Except Reject Instr :=
  checked (.vldx (fin4 x 14) (fin4 x 10) (fin4 x 6) (fin2 x 4) (fin2 x 2) (fin2 x 0))

/-- Major 0x3C: VSTX. -/
def decodeMajor3C (x : Nat) : Except Reject Instr :=
  checked (.vstx (fin4 x 14) (fin4 x 10) (fin4 x 6) (fin2 x 4) (fin2 x 2) (fin2 x 0))

/-- Major 0x3D: VLDFF. -/
def decodeMajor3D (x : Nat) : Except Reject Instr :=
  checked (.vldff (fin4 x 14) (fin4 x 10) (fin2 x 8) (fin2 x 6) (bv 6 x 0))

/-- Major 0x3E: VLDG, VSTG. -/
def decodeMajor3E (x : Nat) : Except Reject Instr :=
  if fld x 0 1 == 0 then checked (.vldg (fin4 x 14) (fin4 x 10) (fin4 x 6) (fin2 x 4) (fin2 x 2) (bitAt x 1)) else
  if fld x 0 1 == 1 then checked (.vstg (fin4 x 14) (fin4 x 10) (fin4 x 6) (fin2 x 4) (fin2 x 2) (bitAt x 1)) else
  .error (.reservedEncoding 0x3E)

/-- Major 0x3F: AGTH. -/
def decodeMajor3F (x : Nat) : Except Reject Instr :=
  checked (.agth (fin4 x 14) (fin4 x 10) (fin4 x 6) (fin6 x 0))

/-- Major 0x40: VSETL. -/
def decodeMajor40 (x : Nat) : Except Reject Instr :=
  if fld x 5 3 == 0 then checked (.vsetl (fin5 x 13) (fin5 x 8) (bv 5 x 0)) else
  .error (.reservedEncoding 0x40)

/-- Major 0x41: VADD, VSUB, VADDS, VSUBS. -/
def decodeMajor41 (x : Nat) : Except Reject Instr :=
  if fld x 0 2 == 0 then checked (.vadd (fin4 x 14) (fin4 x 10) (fin4 x 6) (fin2 x 4) (fin2 x 2)) else
  if fld x 0 2 == 1 then checked (.vsub (fin4 x 14) (fin4 x 10) (fin4 x 6) (fin2 x 4) (fin2 x 2)) else
  if fld x 0 2 == 2 then checked (.vadds (fin4 x 14) (fin4 x 10) (fin4 x 6) (fin2 x 4) (fin2 x 2)) else
  if fld x 0 2 == 3 then checked (.vsubs (fin4 x 14) (fin4 x 10) (fin4 x 6) (fin2 x 4) (fin2 x 2)) else
  .error (.reservedEncoding 0x41)

/-- Major 0x42: VADDUS, VSUBUS, VAVG, VABD. -/
def decodeMajor42 (x : Nat) : Except Reject Instr :=
  if fld x 0 2 == 0 then checked (.vaddus (fin4 x 14) (fin4 x 10) (fin4 x 6) (fin2 x 4) (fin2 x 2)) else
  if fld x 0 2 == 1 then checked (.vsubus (fin4 x 14) (fin4 x 10) (fin4 x 6) (fin2 x 4) (fin2 x 2)) else
  if fld x 0 2 == 2 then checked (.vavg (fin4 x 14) (fin4 x 10) (fin4 x 6) (fin2 x 4) (fin2 x 2)) else
  if fld x 0 2 == 3 then checked (.vabd (fin4 x 14) (fin4 x 10) (fin4 x 6) (fin2 x 4) (fin2 x 2)) else
  .error (.reservedEncoding 0x42)

/-- Major 0x43: VMUL, VMULHS, VMULHU, VMULQ. -/
def decodeMajor43 (x : Nat) : Except Reject Instr :=
  if fld x 0 2 == 0 then checked (.vmul (fin4 x 14) (fin4 x 10) (fin4 x 6) (fin2 x 4) (fin2 x 2)) else
  if fld x 0 2 == 1 then checked (.vmulhs (fin4 x 14) (fin4 x 10) (fin4 x 6) (fin2 x 4) (fin2 x 2)) else
  if fld x 0 2 == 2 then checked (.vmulhu (fin4 x 14) (fin4 x 10) (fin4 x 6) (fin2 x 4) (fin2 x 2)) else
  if fld x 0 2 == 3 then checked (.vmulq (fin4 x 14) (fin4 x 10) (fin4 x 6) (fin2 x 4) (fin2 x 2)) else
  .error (.reservedEncoding 0x43)

/-- Major 0x44: VMAC, VMSUB, VMACS, VDOT2. -/
def decodeMajor44 (x : Nat) : Except Reject Instr :=
  if fld x 0 2 == 0 then checked (.vmac (fin4 x 14) (fin4 x 10) (fin4 x 6) (fin2 x 4) (fin2 x 2)) else
  if fld x 0 2 == 1 then checked (.vmsub (fin4 x 14) (fin4 x 10) (fin4 x 6) (fin2 x 4) (fin2 x 2)) else
  if fld x 0 2 == 2 then checked (.vmacs (fin4 x 14) (fin4 x 10) (fin4 x 6) (fin2 x 4) (fin2 x 2)) else
  if fld x 0 2 == 3 then checked (.vdot2 (fin4 x 14) (fin4 x 10) (fin4 x 6) (fin2 x 4) (fin2 x 2)) else
  .error (.reservedEncoding 0x44)

/-- Major 0x45: VAND, VOR, VXOR, VANDN. -/
def decodeMajor45 (x : Nat) : Except Reject Instr :=
  if fld x 0 2 == 0 then checked (.vand (fin4 x 14) (fin4 x 10) (fin4 x 6) (fin2 x 4) (fin2 x 2)) else
  if fld x 0 2 == 1 then checked (.vor (fin4 x 14) (fin4 x 10) (fin4 x 6) (fin2 x 4) (fin2 x 2)) else
  if fld x 0 2 == 2 then checked (.vxor (fin4 x 14) (fin4 x 10) (fin4 x 6) (fin2 x 4) (fin2 x 2)) else
  if fld x 0 2 == 3 then checked (.vandn (fin4 x 14) (fin4 x 10) (fin4 x 6) (fin2 x 4) (fin2 x 2)) else
  .error (.reservedEncoding 0x45)

/-- Major 0x46: VSLL, VSRL, VSRA, VROT. -/
def decodeMajor46 (x : Nat) : Except Reject Instr :=
  if fld x 0 2 == 0 then checked (.vsll (fin4 x 14) (fin4 x 10) (fin4 x 6) (fin2 x 4) (fin2 x 2)) else
  if fld x 0 2 == 1 then checked (.vsrl (fin4 x 14) (fin4 x 10) (fin4 x 6) (fin2 x 4) (fin2 x 2)) else
  if fld x 0 2 == 2 then checked (.vsra (fin4 x 14) (fin4 x 10) (fin4 x 6) (fin2 x 4) (fin2 x 2)) else
  if fld x 0 2 == 3 then checked (.vrot (fin4 x 14) (fin4 x 10) (fin4 x 6) (fin2 x 4) (fin2 x 2)) else
  .error (.reservedEncoding 0x46)

/-- Major 0x47: VSLLI, VSRLI, VSRAI, VSRAR. -/
def decodeMajor47 (x : Nat) : Except Reject Instr :=
  if fld x 0 2 == 0 then checked (.vslli (fin4 x 14) (fin4 x 10) (fin4 x 6) (fin2 x 4) (fin2 x 2)) else
  if fld x 0 2 == 1 then checked (.vsrli (fin4 x 14) (fin4 x 10) (fin4 x 6) (fin2 x 4) (fin2 x 2)) else
  if fld x 0 2 == 2 then checked (.vsrai (fin4 x 14) (fin4 x 10) (fin4 x 6) (fin2 x 4) (fin2 x 2)) else
  if fld x 0 2 == 3 then checked (.vsrar (fin4 x 14) (fin4 x 10) (fin4 x 6) (fin2 x 4) (fin2 x 2)) else
  .error (.reservedEncoding 0x47)

/-- Major 0x48: VMIN, VMAX, VMINU, VMAXU. -/
def decodeMajor48 (x : Nat) : Except Reject Instr :=
  if fld x 0 2 == 0 then checked (.vmin (fin4 x 14) (fin4 x 10) (fin4 x 6) (fin2 x 4) (fin2 x 2)) else
  if fld x 0 2 == 1 then checked (.vmax (fin4 x 14) (fin4 x 10) (fin4 x 6) (fin2 x 4) (fin2 x 2)) else
  if fld x 0 2 == 2 then checked (.vminu (fin4 x 14) (fin4 x 10) (fin4 x 6) (fin2 x 4) (fin2 x 2)) else
  if fld x 0 2 == 3 then checked (.vmaxu (fin4 x 14) (fin4 x 10) (fin4 x 6) (fin2 x 4) (fin2 x 2)) else
  .error (.reservedEncoding 0x48)

/-- Major 0x49: VCEQ, VCLT, VCLTU, VCLE. -/
def decodeMajor49 (x : Nat) : Except Reject Instr :=
  if fld x 0 2 == 0 then checked (.vceq (fin4 x 14) (fin4 x 10) (fin4 x 6) (fin2 x 4) (fin2 x 2)) else
  if fld x 0 2 == 1 then checked (.vclt (fin4 x 14) (fin4 x 10) (fin4 x 6) (fin2 x 4) (fin2 x 2)) else
  if fld x 0 2 == 2 then checked (.vcltu (fin4 x 14) (fin4 x 10) (fin4 x 6) (fin2 x 4) (fin2 x 2)) else
  if fld x 0 2 == 3 then checked (.vcle (fin4 x 14) (fin4 x 10) (fin4 x 6) (fin2 x 4) (fin2 x 2)) else
  .error (.reservedEncoding 0x49)

/-- Major 0x4A: VFADD, VFSUB, VFMIN, VFMAX. -/
def decodeMajor4A (x : Nat) : Except Reject Instr :=
  if fld x 0 2 == 0 then checked (.vfadd (fin4 x 14) (fin4 x 10) (fin4 x 6) (fin2 x 4) (fin2 x 2)) else
  if fld x 0 2 == 1 then checked (.vfsub (fin4 x 14) (fin4 x 10) (fin4 x 6) (fin2 x 4) (fin2 x 2)) else
  if fld x 0 2 == 2 then checked (.vfmin (fin4 x 14) (fin4 x 10) (fin4 x 6) (fin2 x 4) (fin2 x 2)) else
  if fld x 0 2 == 3 then checked (.vfmax (fin4 x 14) (fin4 x 10) (fin4 x 6) (fin2 x 4) (fin2 x 2)) else
  .error (.reservedEncoding 0x4A)

/-- Major 0x4B: VFMUL, VFMA, VFMS, VFNMA. -/
def decodeMajor4B (x : Nat) : Except Reject Instr :=
  if fld x 0 2 == 0 then checked (.vfmul (fin4 x 14) (fin4 x 10) (fin4 x 6) (fin2 x 4) (fin2 x 2)) else
  if fld x 0 2 == 1 then checked (.vfma (fin4 x 14) (fin4 x 10) (fin4 x 6) (fin2 x 4) (fin2 x 2)) else
  if fld x 0 2 == 2 then checked (.vfms (fin4 x 14) (fin4 x 10) (fin4 x 6) (fin2 x 4) (fin2 x 2)) else
  if fld x 0 2 == 3 then checked (.vfnma (fin4 x 14) (fin4 x 10) (fin4 x 6) (fin2 x 4) (fin2 x 2)) else
  .error (.reservedEncoding 0x4B)

/-- Major 0x4C: VFEQ, VFLT, VFLE, VFTOT. -/
def decodeMajor4C (x : Nat) : Except Reject Instr :=
  if fld x 0 2 == 0 then checked (.vfeq (fin4 x 14) (fin4 x 10) (fin4 x 6) (fin2 x 4) (fin2 x 2)) else
  if fld x 0 2 == 1 then checked (.vflt (fin4 x 14) (fin4 x 10) (fin4 x 6) (fin2 x 4) (fin2 x 2)) else
  if fld x 0 2 == 2 then checked (.vfle (fin4 x 14) (fin4 x 10) (fin4 x 6) (fin2 x 4) (fin2 x 2)) else
  if fld x 0 2 == 3 then checked (.vftot (fin4 x 14) (fin4 x 10) (fin4 x 6) (fin2 x 4) (fin2 x 2)) else
  .error (.reservedEncoding 0x4C)

/-- Major 0x4D: VFABS, VFNEG, VFSQRT, VFRCP. -/
def decodeMajor4D (x : Nat) : Except Reject Instr :=
  if fld x 0 2 == 0 && fld x 6 4 == 0 then checked (.vfabs (fin4 x 14) (fin4 x 10) (fin2 x 4) (fin2 x 2)) else
  if fld x 0 2 == 1 && fld x 6 4 == 0 then checked (.vfneg (fin4 x 14) (fin4 x 10) (fin2 x 4) (fin2 x 2)) else
  if fld x 0 2 == 2 && fld x 6 4 == 0 then checked (.vfsqrt (fin4 x 14) (fin4 x 10) (fin2 x 4) (fin2 x 2)) else
  if fld x 0 2 == 3 && fld x 6 4 == 0 then checked (.vfrcp (fin4 x 14) (fin4 x 10) (fin2 x 4) (fin2 x 2)) else
  .error (.reservedEncoding 0x4D)

/-- Major 0x4E: VFWID, VFNAR, VI2F, VF2I. -/
def decodeMajor4E (x : Nat) : Except Reject Instr :=
  if fld x 0 2 == 2 && fld x 6 4 == 0 then checked (.vfwid (fin4 x 14) (fin4 x 10) (fin2 x 4) (fin2 x 2)) else
  if fld x 0 2 == 3 && fld x 6 4 == 0 then checked (.vfnar (fin4 x 14) (fin4 x 10) (fin2 x 4) (fin2 x 2)) else
  if fld x 0 2 == 0 && fld x 6 1 == 0 && fld x 8 2 == 0 then checked (.vi2f (fin4 x 14) (fin4 x 10) (bitAt x 7) (fin2 x 4) (fin2 x 2)) else
  if fld x 0 2 == 1 && fld x 8 2 == 0 then checked (.vf2i (fin4 x 14) (fin4 x 10) (bitAt x 7) (bitAt x 6) (fin2 x 4) (fin2 x 2)) else
  .error (.reservedEncoding 0x4E)

/-- Major 0x4F: VREDSUM, VREDMAX, VREDMIN, VREDARG. -/
def decodeMajor4F (x : Nat) : Except Reject Instr :=
  if fld x 0 2 == 0 then checked (.vredsum (fin4 x 14) (fin4 x 10) (fin4 x 6) (fin2 x 4) (fin2 x 2)) else
  if fld x 0 2 == 1 then checked (.vredmax (fin4 x 14) (fin4 x 10) (fin4 x 6) (fin2 x 4) (fin2 x 2)) else
  if fld x 0 2 == 2 then checked (.vredmin (fin4 x 14) (fin4 x 10) (fin4 x 6) (fin2 x 4) (fin2 x 2)) else
  if fld x 0 2 == 3 then checked (.vredarg (fin4 x 14) (fin4 x 10) (fin4 x 6) (fin2 x 4) (fin2 x 2)) else
  .error (.reservedEncoding 0x4F)

/-- Major 0x50: VFREDSUM, VFREDMAX, VFREDMIN, VFREDARG. -/
def decodeMajor50 (x : Nat) : Except Reject Instr :=
  if fld x 0 2 == 0 then checked (.vfredsum (fin4 x 14) (fin4 x 10) (fin4 x 6) (fin2 x 4) (fin2 x 2)) else
  if fld x 0 2 == 1 then checked (.vfredmax (fin4 x 14) (fin4 x 10) (fin4 x 6) (fin2 x 4) (fin2 x 2)) else
  if fld x 0 2 == 2 then checked (.vfredmin (fin4 x 14) (fin4 x 10) (fin4 x 6) (fin2 x 4) (fin2 x 2)) else
  if fld x 0 2 == 3 then checked (.vfredarg (fin4 x 14) (fin4 x 10) (fin4 x 6) (fin2 x 4) (fin2 x 2)) else
  .error (.reservedEncoding 0x50)

/-- Major 0x51: VIDOT, VIDOTU, VFDOT, VFDOTA. -/
def decodeMajor51 (x : Nat) : Except Reject Instr :=
  if fld x 0 2 == 0 then checked (.vidot (fin4 x 14) (fin4 x 10) (fin4 x 6) (fin2 x 4) (fin2 x 2)) else
  if fld x 0 2 == 1 then checked (.vidotu (fin4 x 14) (fin4 x 10) (fin4 x 6) (fin2 x 4) (fin2 x 2)) else
  if fld x 0 2 == 2 then checked (.vfdot (fin4 x 14) (fin4 x 10) (fin4 x 6) (fin2 x 4) (fin2 x 2)) else
  if fld x 0 2 == 3 then checked (.vfdota (fin4 x 14) (fin4 x 10) (fin4 x 6) (fin2 x 4) (fin2 x 2)) else
  .error (.reservedEncoding 0x51)

/-- Major 0x52: VCOMP, VGATH, VSLUP, VSLDN. -/
def decodeMajor52 (x : Nat) : Except Reject Instr :=
  if fld x 0 2 == 3 && fld x 6 4 == 0 then checked (.vcomp (fin4 x 14) (fin4 x 10) (fin2 x 4) (fin2 x 2)) else
  if fld x 0 2 == 0 then checked (.vgath (fin4 x 14) (fin4 x 10) (fin4 x 6) (fin2 x 4) (fin2 x 2)) else
  if fld x 0 2 == 1 then checked (.vslup (fin4 x 14) (fin4 x 10) (fin4 x 6) (fin2 x 4) (fin2 x 2)) else
  if fld x 0 2 == 2 then checked (.vsldn (fin4 x 14) (fin4 x 10) (fin4 x 6) (fin2 x 4) (fin2 x 2)) else
  .error (.reservedEncoding 0x52)

/-- Major 0x53: VMV_RF, VMV_CF, VID, VMV, VSPLAT, VBCS. -/
def decodeMajor53 (x : Nat) : Except Reject Instr :=
  if fld x 0 4 == 0 && fld x 6 8 == 1 then checked (.vmvRf (fin4 x 14) (fin2 x 4)) else
  if fld x 0 4 == 0 && fld x 6 4 == 2 && fld x 14 4 == 0 then checked (.vmvCf (fin4 x 10) (fin2 x 4)) else
  if fld x 0 2 == 3 && fld x 6 8 == 0 then checked (.vid (fin4 x 14) (fin2 x 4) (fin2 x 2)) else
  if fld x 0 2 == 0 && fld x 6 4 == 0 then checked (.vmv (fin4 x 14) (fin4 x 10) (fin2 x 4) (fin2 x 2)) else
  if fld x 0 2 == 1 && fld x 10 4 == 0 then checked (.vsplat (fin4 x 14) (fin4 x 6) (fin2 x 4) (fin2 x 2)) else
  if fld x 0 2 == 2 then checked (.vbcs (fin4 x 14) (fin4 x 10) (fin4 x 6) (fin2 x 4) (fin2 x 2)) else
  .error (.reservedEncoding 0x53)

/-- Major 0x54: MNOT, MAND, MOR, MXOR. -/
def decodeMajor54 (x : Nat) : Except Reject Instr :=
  if fld x 0 4 == 3 && fld x 6 4 == 0 then checked (.mnot (fin4 x 14) (fin4 x 10) (fin2 x 4)) else
  if fld x 0 4 == 0 then checked (.mand (fin4 x 14) (fin4 x 10) (fin4 x 6) (fin2 x 4)) else
  if fld x 0 4 == 1 then checked (.mor (fin4 x 14) (fin4 x 10) (fin4 x 6) (fin2 x 4)) else
  if fld x 0 4 == 2 then checked (.mxor (fin4 x 14) (fin4 x 10) (fin4 x 6) (fin2 x 4)) else
  .error (.reservedEncoding 0x54)

/-- Major 0x55: MSET, MCLR, MPOPC, MFIRST. -/
def decodeMajor55 (x : Nat) : Except Reject Instr :=
  if fld x 0 4 == 2 && fld x 6 8 == 0 then checked (.mset (fin4 x 14) (fin2 x 4)) else
  if fld x 0 4 == 3 && fld x 6 8 == 0 then checked (.mclr (fin4 x 14) (fin2 x 4)) else
  if fld x 0 2 == 0 && fld x 6 4 == 0 then checked (.mpopc (fin4 x 14) (fin4 x 10) (fin2 x 4) (fin2 x 2)) else
  if fld x 0 2 == 1 && fld x 6 4 == 0 then checked (.mfirst (fin4 x 14) (fin4 x 10) (fin2 x 4) (fin2 x 2)) else
  .error (.reservedEncoding 0x55)

/-- Major 0x56: VSELM, VMERGE. -/
def decodeMajor56 (x : Nat) : Except Reject Instr :=
  if fld x 0 2 == 1 && fld x 6 4 == 0 then checked (.vselm (fin4 x 14) (fin4 x 10) (fin2 x 4) (fin2 x 2)) else
  if fld x 0 2 == 0 then checked (.vmerge (fin4 x 14) (fin4 x 10) (fin4 x 6) (fin2 x 4) (fin2 x 2)) else
  .error (.reservedEncoding 0x56)

/-- Major 0x57: VBSCL. -/
def decodeMajor57 (x : Nat) : Except Reject Instr :=
  if fld x 0 2 == 0 then checked (.vbscl (fin4 x 14) (fin4 x 10) (fin4 x 6) (fin2 x 4) (fin2 x 2)) else
  .error (.reservedEncoding 0x57)

/-- Major 0x60: UPKI. -/
def decodeMajor60 (x : Nat) : Except Reject Instr :=
  if fld x 6 4 == 0 then checked (.upki (fin4 x 14) (fin4 x 10) (fin3 x 3) (fin3 x 0)) else
  .error (.reservedEncoding 0x60)

/-- Major 0x61: UPKF. -/
def decodeMajor61 (x : Nat) : Except Reject Instr :=
  checked (.upkf (fin4 x 14) (fin4 x 10) (fin4 x 6) (fin3 x 3) (fin3 x 0))

/-- Major 0x62: UPKB. -/
def decodeMajor62 (x : Nat) : Except Reject Instr :=
  if fld x 0 5 == 0 then checked (.upkb (fin4 x 14) (fin4 x 10) (fin4 x 6) (bitAt x 5)) else
  .error (.reservedEncoding 0x62)

/-- Major 0x64: PCKI. -/
def decodeMajor64 (x : Nat) : Except Reject Instr :=
  if fld x 6 4 == 0 then checked (.pcki (fin4 x 14) (fin4 x 10) (fin3 x 3) (fin3 x 0)) else
  .error (.reservedEncoding 0x64)

/-- Major 0x65: PCKF. -/
def decodeMajor65 (x : Nat) : Except Reject Instr :=
  checked (.pckf (fin4 x 14) (fin4 x 10) (fin4 x 6) (fin3 x 3) (fin3 x 0))

/-- Major 0x66: PCKB. -/
def decodeMajor66 (x : Nat) : Except Reject Instr :=
  if fld x 0 5 == 0 then checked (.pckb (fin4 x 14) (fin4 x 10) (fin4 x 6) (bitAt x 5)) else
  .error (.reservedEncoding 0x66)

/-- Major 0x67: PSCL. -/
def decodeMajor67 (x : Nat) : Except Reject Instr :=
  if fld x 0 3 == 0 && fld x 6 4 == 0 then checked (.pscl (fin4 x 14) (fin4 x 10) (fin3 x 3)) else
  .error (.reservedEncoding 0x67)

/-- Major 0x68: AFMT. -/
def decodeMajor68 (x : Nat) : Except Reject Instr :=
  if fld x 10 8 == 0 then checked (.afmt (fin2 x 8) (fin2 x 6) (fin2 x 4) (fin2 x 2) (fin2 x 0)) else
  .error (.reservedEncoding 0x68)

/-- Major 0x69: ALATCH_LZ, ALATCH_LA, ALATCH_LB, ALATCH_LBS. -/
def decodeMajor69 (x : Nat) : Except Reject Instr :=
  if fld x 0 2 == 3 && fld x 4 14 == 0 then checked (.alatchLz (fin2 x 2)) else
  if fld x 0 14 == 0 then checked (.alatchLa (fin4 x 14)) else
  if fld x 0 14 == 1 then checked (.alatchLb (fin4 x 14)) else
  if fld x 0 14 == 2 then checked (.alatchLbs (fin4 x 14)) else
  .error (.reservedEncoding 0x69)

/-- Major 0x6A: ABEAT. -/
def decodeMajor6A (x : Nat) : Except Reject Instr :=
  if fld x 4 14 == 0 then checked (.abeat (bitAt x 3) (bitAt x 2) (bitAt x 1) (bitAt x 0)) else
  .error (.reservedEncoding 0x6A)

/-- Major 0x6B: ADRAIN. -/
def decodeMajor6B (x : Nat) : Except Reject Instr :=
  if fld x 0 3 == 0 then checked (.adrain (fin4 x 14) (fin4 x 10) (fin4 x 6) (bitAt x 5) (bitAt x 4) (bitAt x 3)) else
  .error (.reservedEncoding 0x6B)

/-- Major 0x6C: ACONF. -/
def decodeMajor6C (x : Nat) : Except Reject Instr :=
  checked (.aconf (fin5 x 13) (fin4 x 9) (fin4 x 5) (fin4 x 1) (bitAt x 0))

/-- Major 0x6D: ACLR_ALL, ACLR, ARD, AWR, ASCL. -/
def decodeMajor6D (x : Nat) : Except Reject Instr :=
  if fld x 0 18 == 35 then checked (.aclrAll) else
  if fld x 0 6 == 3 && fld x 10 8 == 0 then checked (.aclr (fin4 x 6)) else
  if fld x 0 8 == 0 then checked (.ard (fin4 x 14) (fin4 x 10) (fin2 x 8)) else
  if fld x 0 8 == 1 then checked (.awr (fin4 x 14) (fin4 x 10) (fin2 x 8)) else
  if fld x 0 5 == 2 then checked (.ascl (fin4 x 14) (fin4 x 10) (fin4 x 6) (bitAt x 5)) else
  .error (.reservedEncoding 0x6D)

/-- Major 0x6E: GSEED, GSEED_A, GSEED_B, GRESTART, GREAD. -/
def decodeMajor6E (x : Nat) : Except Reject Instr :=
  if fld x 0 8 == 12 && fld x 13 5 == 0 then checked (.gseed) else
  if fld x 0 8 == 4 && fld x 13 5 == 0 then checked (.gseedA) else
  if fld x 0 8 == 8 && fld x 13 5 == 0 then checked (.gseedB) else
  if fld x 0 8 == 1 && fld x 13 5 == 0 then checked (.grestart) else
  if fld x 0 9 == 2 then checked (.gread (fin4 x 14) (fin2 x 12) (fin3 x 9)) else
  .error (.reservedEncoding 0x6E)

/-- Major 0x6F: BNEXT, BTERM. -/
def decodeMajor6F (x : Nat) : Except Reject Instr :=
  if fld x 0 14 == 1 then checked (.bnext (fin4 x 14)) else
  if fld x 0 6 == 0 then checked (.bterm (fin4 x 14) (fin4 x 10) (fin4 x 6)) else
  .error (.reservedEncoding 0x6F)

/-- Major 0x70: CPY. -/
def decodeMajor70 (x : Nat) : Except Reject Instr :=
  if fld x 0 4 == 0 then checked (.cpy (fin5 x 13) (fin5 x 8) (fin4 x 4)) else
  .error (.reservedEncoding 0x70)

/-- Major 0x71: BARWAIT, BARADD, BARTEST, BARINIT. -/
def decodeMajor71 (x : Nat) : Except Reject Instr :=
  if fld x 0 13 == 3 then checked (.barwait) else
  if fld x 0 8 == 1 then checked (.baradd (fin5 x 13) (fin5 x 8)) else
  if fld x 0 8 == 2 then checked (.bartest (fin5 x 13) (fin5 x 8)) else
  if fld x 0 4 == 0 then checked (.barinit (fin5 x 13) (fin5 x 8) (fin3 x 5) (bitAt x 4)) else
  .error (.reservedEncoding 0x71)

/-- Major 0x72: SENDH. -/
def decodeMajor72 (x : Nat) : Except Reject Instr :=
  if fld x 0 8 == 0 then checked (.sendh (fin5 x 13) (fin5 x 8)) else
  .error (.reservedEncoding 0x72)

/-- Major 0x73: RELOC, HFLIP, HSTAT. -/
def decodeMajor73 (x : Nat) : Except Reject Instr :=
  if fld x 0 8 == 1 && fld x 13 5 == 0 then checked (.reloc) else
  if fld x 0 8 == 0 then checked (.hflip (fin5 x 13) (fin5 x 8)) else
  if fld x 0 8 == 2 then checked (.hstat (fin5 x 13) (fin5 x 8)) else
  .error (.reservedEncoding 0x73)

/-- Major 0x74: SSRCH. -/
def decodeMajor74 (x : Nat) : Except Reject Instr :=
  if fld x 0 8 == 0 && fld x 13 5 == 0 then checked (.ssrch) else
  .error (.reservedEncoding 0x74)

/-- Major 0x75: EQUI, ECAN_ALL, ESTAT, ECAN. -/
def decodeMajor75 (x : Nat) : Except Reject Instr :=
  if fld x 0 13 == 0 then checked (.equi) else
  if fld x 0 13 == 130 then checked (.ecanAll) else
  if fld x 0 8 == 1 then checked (.estat (fin5 x 13) (fin5 x 8)) else
  if fld x 0 8 == 2 then checked (.ecan (fin5 x 13) (fin5 x 8)) else
  .error (.reservedEncoding 0x75)

/-- The operand field `x` (bits 17:0) of a slot of major opcode `major` (R37): the instruction, or the reason it is none. -/
def decodeOp (major x : Nat) : Except Reject Instr :=
  match major with
  | 0x00 => decodeMajor00 x
  | 0x01 => decodeMajor01 x
  | 0x02 => decodeMajor02 x
  | 0x03 => decodeMajor03 x
  | 0x04 => decodeMajor04 x
  | 0x05 => decodeMajor05 x
  | 0x06 => decodeMajor06 x
  | 0x07 => decodeMajor07 x
  | 0x08 => decodeMajor08 x
  | 0x09 => decodeMajor09 x
  | 0x0A => decodeMajor0A x
  | 0x0B => decodeMajor0B x
  | 0x0C => decodeMajor0C x
  | 0x0D => decodeMajor0D x
  | 0x0E => decodeMajor0E x
  | 0x0F => decodeMajor0F x
  | 0x10 => decodeMajor10 x
  | 0x11 => decodeMajor11 x
  | 0x12 => decodeMajor12 x
  | 0x13 => decodeMajor13 x
  | 0x14 => decodeMajor14 x
  | 0x15 => decodeMajor15 x
  | 0x16 => decodeMajor16 x
  | 0x17 => decodeMajor17 x
  | 0x18 => decodeMajor18 x
  | 0x19 => decodeMajor19 x
  | 0x1A => decodeMajor1A x
  | 0x1B => decodeMajor1B x
  | 0x1C => decodeMajor1C x
  | 0x1D => decodeMajor1D x
  | 0x1E => decodeMajor1E x
  | 0x1F => decodeMajor1F x
  | 0x28 => decodeMajor28 x
  | 0x29 => decodeMajor29 x
  | 0x2A => decodeMajor2A x
  | 0x2B => decodeMajor2B x
  | 0x2C => decodeMajor2C x
  | 0x2D => decodeMajor2D x
  | 0x2E => decodeMajor2E x
  | 0x2F => decodeMajor2F x
  | 0x30 => decodeMajor30 x
  | 0x31 => decodeMajor31 x
  | 0x32 => decodeMajor32 x
  | 0x33 => decodeMajor33 x
  | 0x34 => decodeMajor34 x
  | 0x35 => decodeMajor35 x
  | 0x36 => decodeMajor36 x
  | 0x38 => decodeMajor38 x
  | 0x39 => decodeMajor39 x
  | 0x3A => decodeMajor3A x
  | 0x3B => decodeMajor3B x
  | 0x3C => decodeMajor3C x
  | 0x3D => decodeMajor3D x
  | 0x3E => decodeMajor3E x
  | 0x3F => decodeMajor3F x
  | 0x40 => decodeMajor40 x
  | 0x41 => decodeMajor41 x
  | 0x42 => decodeMajor42 x
  | 0x43 => decodeMajor43 x
  | 0x44 => decodeMajor44 x
  | 0x45 => decodeMajor45 x
  | 0x46 => decodeMajor46 x
  | 0x47 => decodeMajor47 x
  | 0x48 => decodeMajor48 x
  | 0x49 => decodeMajor49 x
  | 0x4A => decodeMajor4A x
  | 0x4B => decodeMajor4B x
  | 0x4C => decodeMajor4C x
  | 0x4D => decodeMajor4D x
  | 0x4E => decodeMajor4E x
  | 0x4F => decodeMajor4F x
  | 0x50 => decodeMajor50 x
  | 0x51 => decodeMajor51 x
  | 0x52 => decodeMajor52 x
  | 0x53 => decodeMajor53 x
  | 0x54 => decodeMajor54 x
  | 0x55 => decodeMajor55 x
  | 0x56 => decodeMajor56 x
  | 0x57 => decodeMajor57 x
  | 0x60 => decodeMajor60 x
  | 0x61 => decodeMajor61 x
  | 0x62 => decodeMajor62 x
  | 0x64 => decodeMajor64 x
  | 0x65 => decodeMajor65 x
  | 0x66 => decodeMajor66 x
  | 0x67 => decodeMajor67 x
  | 0x68 => decodeMajor68 x
  | 0x69 => decodeMajor69 x
  | 0x6A => decodeMajor6A x
  | 0x6B => decodeMajor6B x
  | 0x6C => decodeMajor6C x
  | 0x6D => decodeMajor6D x
  | 0x6E => decodeMajor6E x
  | 0x6F => decodeMajor6F x
  | 0x70 => decodeMajor70 x
  | 0x71 => decodeMajor71 x
  | 0x72 => decodeMajor72 x
  | 0x73 => decodeMajor73 x
  | 0x74 => decodeMajor74 x
  | 0x75 => decodeMajor75 x
  | m => .error (.reservedMajor m)

/-- A slot (R22): stop bit, binding mark, guard, the instruction, and the register of an instruction whose only operand
is one sequencer register or predicate (0 for the others). -/
structure Slot where
  stop : Bool
  bind : Bool
  guard : Fin 32
  op : Instr
  sole : Fin 32
deriving DecidableEq, Repr

/-- EXT and ORD are the prefixes (R30). -/
def isPrefixMajor (major : Nat) : Bool := major == 1 || major == 2

/-- Where an instruction whose only operand is a sequencer register or predicate has it in the operand field. -/
def soleAt : Instr → Option Nat
  | .jr => some 8
  | .spawn => some 8
  | .launch => some 8
  | .twait => some 8
  | .tlbinvAsn => some 8
  | .blkdrop => some 8
  | .pset => some 13
  | .pclr => some 13
  | .ptos => some 13
  | .stop => some 8
  | .gseed => some 8
  | .gseedA => some 8
  | .gseedB => some 8
  | .grestart => some 8
  | .barwait => some 13
  | .reloc => some 8
  | .ssrch => some 8
  | .equi => some 13
  | .ecanAll => some 13
  | _ => none

/-- A slot word (R22). A prefix with bits 30:25 not zero is refused (R30, R33). -/
def decodeSlot (w : Nat) : Except Reject Slot :=
  let major := fld w 18 7
  if isPrefixMajor major && fld w 25 6 != 0 then .error .prefixBits else
  match decodeOp major (fld w 0 18) with
  | .ok i => .ok ⟨bitAt w 31, bitAt w 30, fin5 w 25, i, match soleAt i with | some lo => fin5 w lo | none => 0⟩
  | .error e => .error e

/-- The slot word stored in little-endian byte order (R5, R22), read back as a number. -/
def wordOfBytes : List (BitVec 8) → Nat
  | [] => 0
  | b :: bs => b.toNat + 256 * wordOfBytes bs

/-- The four bytes of a slot word, lowest address first (R5). -/
def bytesOfWord (w : Nat) : List (BitVec 8) :=
  [BitVec.ofNat 8 w, BitVec.ofNat 8 (w / 256), BitVec.ofNat 8 (w / 65536), BitVec.ofNat 8 (w / 16777216)]

/-- The decoder on bytes: the slot at the head of a list of bytes, and the bytes after it. -/
def decodeBytes : List (BitVec 8) → Option (Slot × List (BitVec 8))
  | b0 :: b1 :: b2 :: b3 :: rest =>
    match decodeSlot (wordOfBytes [b0, b1, b2, b3]) with
    | .ok s => some (s, rest)
    | .error _ => none
  | _ => none

/-- The instruction that the decoder reads from an instruction whose bits are `w`. Every slot is one word of 32 bits
(R22), so nothing stands above `nbits`. -/
def decodeTableWord (nbits w : Nat) : Option Instr :=
  (decodeBytes (bytesOfWord (w % 2 ^ nbits))).map fun p => p.1.op

/-- The major opcode and the operand field of an instruction, from the layouts of R25 and the entries; an event has no word. -/
def encodeOp : Instr → Option (Nat × Nat)
  | .ext value => some (0x01, value.toNat)
  | .ord scope order => some (0x02, scope.val * 8 + order.val)
  | .br disp => some (0x03, disp.toNat)
  | .call disp => some (0x04, disp.toNat)
  | .jalr d a => some (0x05, d.val * 8192 + a.val * 256 + 1)
  | .loop level a fin => some (0x06, level.val * 32768 + a.val * 1024 + fin.toNat)
  | .loopx level => some (0x07, level.val * 32768)
  | .loopc level => some (0x07, level.val * 32768 + 1)
  | .wait ld st cp tl => some (0x08, ld.val * 4096 + st.val * 256 + cp.val * 16 + tl.val)
  | .fence order scope => some (0x09, order.val * 64 + scope.val * 8)
  | .trap imm => some (0x0B, imm.toNat * 8)
  | .bkpt imm => some (0x0B, imm.toNat * 8 + 2)
  | .tlbinvPage a b => some (0x0C, a.val * 8192 + b.val * 256)
  | .tlblk a idx size => some (0x0C, a.val * 8192 + idx.val * 32 + size.val * 8 + 2)
  | .tlbunl idx => some (0x0C, idx.val * 32 + 3)
  | .ldblk d a n => some (0x0D, d.val * 8192 + a.val * 256 + n.val * 4)
  | .cflush a n => some (0x0D, a.val * 256 + n.val * 4 + 2)
  | .cclean a n => some (0x0D, a.val * 256 + n.val * 4 + 3)
  | .mfs d sr => some (0x0E, d.val * 8192 + sr.toNat)
  | .mts a sr => some (0x0F, a.val * 256 + sr.toNat)
  | .add d a b => some (0x10, d.val * 8192 + a.val * 256 + b.val * 8)
  | .sub d a b => some (0x10, d.val * 8192 + a.val * 256 + b.val * 8 + 1)
  | .and d a b => some (0x10, d.val * 8192 + a.val * 256 + b.val * 8 + 2)
  | .or d a b => some (0x10, d.val * 8192 + a.val * 256 + b.val * 8 + 3)
  | .xor d a b => some (0x10, d.val * 8192 + a.val * 256 + b.val * 8 + 4)
  | .sll d a b => some (0x10, d.val * 8192 + a.val * 256 + b.val * 8 + 5)
  | .srl d a b => some (0x10, d.val * 8192 + a.val * 256 + b.val * 8 + 6)
  | .sra d a b => some (0x10, d.val * 8192 + a.val * 256 + b.val * 8 + 7)
  | .mul d a b => some (0x11, d.val * 8192 + a.val * 256 + b.val * 8)
  | .mulhs d a b => some (0x11, d.val * 8192 + a.val * 256 + b.val * 8 + 1)
  | .mulhu d a b => some (0x11, d.val * 8192 + a.val * 256 + b.val * 8 + 2)
  | .min d a b => some (0x11, d.val * 8192 + a.val * 256 + b.val * 8 + 3)
  | .max d a b => some (0x11, d.val * 8192 + a.val * 256 + b.val * 8 + 4)
  | .minu d a b => some (0x11, d.val * 8192 + a.val * 256 + b.val * 8 + 5)
  | .maxu d a b => some (0x11, d.val * 8192 + a.val * 256 + b.val * 8 + 6)
  | .andn d a b => some (0x11, d.val * 8192 + a.val * 256 + b.val * 8 + 7)
  | .addw d a b => some (0x12, d.val * 8192 + a.val * 256 + b.val * 8)
  | .subw d a b => some (0x12, d.val * 8192 + a.val * 256 + b.val * 8 + 1)
  | .sllw d a b => some (0x12, d.val * 8192 + a.val * 256 + b.val * 8 + 2)
  | .srlw d a b => some (0x12, d.val * 8192 + a.val * 256 + b.val * 8 + 3)
  | .sraw d a b => some (0x12, d.val * 8192 + a.val * 256 + b.val * 8 + 4)
  | .mulw d a b => some (0x12, d.val * 8192 + a.val * 256 + b.val * 8 + 5)
  | .rotl d a b => some (0x12, d.val * 8192 + a.val * 256 + b.val * 8 + 6)
  | .rotr d a b => some (0x12, d.val * 8192 + a.val * 256 + b.val * 8 + 7)
  | .div d a b => some (0x13, d.val * 8192 + a.val * 256 + b.val * 8)
  | .divu d a b => some (0x13, d.val * 8192 + a.val * 256 + b.val * 8 + 1)
  | .rem d a b => some (0x13, d.val * 8192 + a.val * 256 + b.val * 8 + 2)
  | .remu d a b => some (0x13, d.val * 8192 + a.val * 256 + b.val * 8 + 3)
  | .clz d a => some (0x13, d.val * 8192 + a.val * 256 + 4)
  | .ctz d a => some (0x13, d.val * 8192 + a.val * 256 + 5)
  | .popc d a => some (0x13, d.val * 8192 + a.val * 256 + 6)
  | .brev d a => some (0x13, d.val * 8192 + a.val * 256 + 7)
  | .addi d a imm => some (0x14, d.val * 8192 + a.val * 256 + imm.toNat)
  | .andi d a imm => some (0x15, d.val * 8192 + a.val * 256 + imm.toNat)
  | .ori d a imm => some (0x16, d.val * 8192 + a.val * 256 + imm.toNat)
  | .xori d a imm => some (0x17, d.val * 8192 + a.val * 256 + imm.toNat)
  | .slli d a sh => some (0x18, d.val * 8192 + a.val * 256 + sh.val * 4)
  | .srli d a sh => some (0x18, d.val * 8192 + a.val * 256 + sh.val * 4 + 1)
  | .srai d a sh => some (0x18, d.val * 8192 + a.val * 256 + sh.val * 4 + 2)
  | .movi d imm => some (0x19, d.val * 8192 + imm.toNat)
  | .shori d imm => some (0x1A, d.val * 8192 + imm.toNat)
  | .cmp d a b cc => some (0x1B, d.val * 8192 + a.val * 256 + b.val * 8 + cc.val)
  | .cmpi d a imm cc => some (0x1C, d.val * 8192 + a.val * 256 + imm.toNat * 8 + cc.val)
  | .pand d a b => some (0x1D, d.val * 8192 + a.val * 256 + b.val * 8)
  | .por d a b => some (0x1D, d.val * 8192 + a.val * 256 + b.val * 8 + 1)
  | .pxor d a b => some (0x1D, d.val * 8192 + a.val * 256 + b.val * 8 + 2)
  | .pandn d a b => some (0x1D, d.val * 8192 + a.val * 256 + b.val * 8 + 3)
  | .pnot d a => some (0x1D, d.val * 8192 + a.val * 256 + 4)
  | .pmov d a => some (0x1D, d.val * 8192 + a.val * 256 + 5)
  | .xput ad sa => some (0x1F, ad.val * 16384 + sa.val * 512)
  | .xget sd ab rank => some (0x1F, sd.val * 8192 + ab.val * 512 + rank.val * 64 + 1)
  | .ld reg a size disp => some (0x28, reg.val * 8192 + a.val * 256 + size.val * 64 + disp.toNat)
  | .ldu reg a size disp => some (0x29, reg.val * 8192 + a.val * 256 + size.val * 64 + disp.toNat)
  | .st reg a size disp => some (0x2A, reg.val * 8192 + a.val * 256 + size.val * 64 + disp.toNat)
  | .amo d a b op => some (0x2B, d.val * 8192 + a.val * 256 + b.val * 8 + op.val)
  | .amow d a b op => some (0x2C, d.val * 8192 + a.val * 256 + b.val * 8 + op.val)
  | .hld reg h size u disp => some (0x2D, reg.val * 8192 + h.val * 512 + size.val * 128 + u.toNat * 64 + disp.toNat)
  | .hst reg h size disp => some (0x2E, reg.val * 8192 + h.val * 512 + size.val * 128 + disp.toNat)
  | .ldref hd m base disp => some (0x2F, hd.val * 16384 + m.toNat * 8192 + base.val * 256 + disp.toNat * 8)
  | .stref hd m base disp => some (0x2F, hd.val * 16384 + m.toNat * 8192 + base.val * 256 + disp.toNat * 8 + 1)
  | .pin sd hb => some (0x2F, sd.val * 8192 + hb.val * 512 + 2)
  | .unpin hb => some (0x2F, hb.val * 512 + 3)
  | .hmov x y dir => some (0x2F, x.val * 8192 + y.val * 256 + dir.val * 64 + 4)
  | .hnull hd => some (0x2F, hd.val * 16384 + 5)
  | .heq qd ha hb => some (0x2F, qd.val * 8192 + ha.val * 512 + hb.val * 32 + 6)
  | .gld reg ab size u disp => some (0x30, reg.val * 16384 + ab.val * 1024 + size.val * 256 + u.toNat * 128 + disp.toNat)
  | .gst reg ab size disp => some (0x31, reg.val * 16384 + ab.val * 1024 + size.val * 256 + disp.toNat)
  | .gamo ad ab ac w op => some (0x32, ad.val * 16384 + ab.val * 1024 + ac.val * 64 + w.toNat * 32 + op.val * 4)
  | .chld reg h size u disp => some (0x33, reg.val * 16384 + h.val * 1024 + size.val * 256 + u.toNat * 128 + disp.toNat)
  | .chst reg h size disp => some (0x34, reg.val * 16384 + h.val * 1024 + size.val * 256 + disp.toNat)
  | .cldref hd m base disp => some (0x35, hd.val * 16384 + m.toNat * 8192 + base.val * 512 + disp.toNat * 8)
  | .cstref hd m base disp => some (0x35, hd.val * 16384 + m.toNat * 8192 + base.val * 512 + disp.toNat * 8 + 1)
  | .cpin ad hb => some (0x35, ad.val * 16384 + hb.val * 1024 + 2)
  | .cunpin hb => some (0x35, hb.val * 1024 + 3)
  | .chmov x y dir => some (0x35, x.val * 16384 + y.val * 1024 + dir.val * 256 + 4)
  | .chnull hd => some (0x35, hd.val * 16384 + 5)
  | .cheq ad ha hb => some (0x35, ad.val * 16384 + ha.val * 1024 + hb.val * 64 + 6)
  | .aaddi ad aa imm => some (0x36, ad.val * 16384 + aa.val * 1024 + imm.toNat * 8)
  | .aadd ad aa ab => some (0x36, ad.val * 16384 + aa.val * 1024 + ab.val * 64 + 1)
  | .ashl ad aa sh => some (0x36, ad.val * 16384 + aa.val * 1024 + sh.val * 16 + 2)
  | .amovStride ad aa lvl => some (0x36, ad.val * 16384 + aa.val * 1024 + lvl.val * 128 + 3)
  | .amov ad aa => some (0x36, ad.val * 16384 + aa.val * 1024 + 899)
  | .arank ad => some (0x36, ad.val * 16384 + 4)
  | .vld v a width msel disp => some (0x38, v.val * 16384 + a.val * 1024 + width.val * 256 + msel.val * 64 + disp.toNat)
  | .vst v a width msel disp => some (0x39, v.val * 16384 + a.val * 1024 + width.val * 256 + msel.val * 64 + disp.toNat)
  | .vlds v a width msel stride => some (0x3A, v.val * 16384 + a.val * 1024 + width.val * 256 + msel.val * 64 + stride.toNat)
  | .vldx v a vi width msel scale => some (0x3B, v.val * 16384 + a.val * 1024 + vi.val * 64 + width.val * 16 + msel.val * 4 + scale.val)
  | .vstx v a vi width msel scale => some (0x3C, v.val * 16384 + a.val * 1024 + vi.val * 64 + width.val * 16 + msel.val * 4 + scale.val)
  | .vldff v a width msel disp => some (0x3D, v.val * 16384 + a.val * 1024 + width.val * 256 + msel.val * 64 + disp.toNat)
  | .vldg v a vi width msel scale => some (0x3E, v.val * 16384 + a.val * 1024 + vi.val * 64 + width.val * 16 + msel.val * 4 + scale.toNat * 2)
  | .vstg v a vi width msel scale => some (0x3E, v.val * 16384 + a.val * 1024 + vi.val * 64 + width.val * 16 + msel.val * 4 + scale.toNat * 2 + 1)
  | .agth aa ad vi cnt => some (0x3F, aa.val * 16384 + ad.val * 1024 + vi.val * 64 + cnt.val)
  | .vsetl d a vt => some (0x40, d.val * 8192 + a.val * 256 + vt.toNat)
  | .vadd vd va vb width msel => some (0x41, vd.val * 16384 + va.val * 1024 + vb.val * 64 + width.val * 16 + msel.val * 4)
  | .vsub vd va vb width msel => some (0x41, vd.val * 16384 + va.val * 1024 + vb.val * 64 + width.val * 16 + msel.val * 4 + 1)
  | .vadds vd va vb width msel => some (0x41, vd.val * 16384 + va.val * 1024 + vb.val * 64 + width.val * 16 + msel.val * 4 + 2)
  | .vsubs vd va vb width msel => some (0x41, vd.val * 16384 + va.val * 1024 + vb.val * 64 + width.val * 16 + msel.val * 4 + 3)
  | .vaddus vd va vb width msel => some (0x42, vd.val * 16384 + va.val * 1024 + vb.val * 64 + width.val * 16 + msel.val * 4)
  | .vsubus vd va vb width msel => some (0x42, vd.val * 16384 + va.val * 1024 + vb.val * 64 + width.val * 16 + msel.val * 4 + 1)
  | .vavg vd va vb width msel => some (0x42, vd.val * 16384 + va.val * 1024 + vb.val * 64 + width.val * 16 + msel.val * 4 + 2)
  | .vabd vd va vb width msel => some (0x42, vd.val * 16384 + va.val * 1024 + vb.val * 64 + width.val * 16 + msel.val * 4 + 3)
  | .vmul vd va vb width msel => some (0x43, vd.val * 16384 + va.val * 1024 + vb.val * 64 + width.val * 16 + msel.val * 4)
  | .vmulhs vd va vb width msel => some (0x43, vd.val * 16384 + va.val * 1024 + vb.val * 64 + width.val * 16 + msel.val * 4 + 1)
  | .vmulhu vd va vb width msel => some (0x43, vd.val * 16384 + va.val * 1024 + vb.val * 64 + width.val * 16 + msel.val * 4 + 2)
  | .vmulq vd va vb width msel => some (0x43, vd.val * 16384 + va.val * 1024 + vb.val * 64 + width.val * 16 + msel.val * 4 + 3)
  | .vmac vd va vb width msel => some (0x44, vd.val * 16384 + va.val * 1024 + vb.val * 64 + width.val * 16 + msel.val * 4)
  | .vmsub vd va vb width msel => some (0x44, vd.val * 16384 + va.val * 1024 + vb.val * 64 + width.val * 16 + msel.val * 4 + 1)
  | .vmacs vd va vb width msel => some (0x44, vd.val * 16384 + va.val * 1024 + vb.val * 64 + width.val * 16 + msel.val * 4 + 2)
  | .vdot2 vd va vb width msel => some (0x44, vd.val * 16384 + va.val * 1024 + vb.val * 64 + width.val * 16 + msel.val * 4 + 3)
  | .vand vd va vb width msel => some (0x45, vd.val * 16384 + va.val * 1024 + vb.val * 64 + width.val * 16 + msel.val * 4)
  | .vor vd va vb width msel => some (0x45, vd.val * 16384 + va.val * 1024 + vb.val * 64 + width.val * 16 + msel.val * 4 + 1)
  | .vxor vd va vb width msel => some (0x45, vd.val * 16384 + va.val * 1024 + vb.val * 64 + width.val * 16 + msel.val * 4 + 2)
  | .vandn vd va vb width msel => some (0x45, vd.val * 16384 + va.val * 1024 + vb.val * 64 + width.val * 16 + msel.val * 4 + 3)
  | .vsll vd va vb width msel => some (0x46, vd.val * 16384 + va.val * 1024 + vb.val * 64 + width.val * 16 + msel.val * 4)
  | .vsrl vd va vb width msel => some (0x46, vd.val * 16384 + va.val * 1024 + vb.val * 64 + width.val * 16 + msel.val * 4 + 1)
  | .vsra vd va vb width msel => some (0x46, vd.val * 16384 + va.val * 1024 + vb.val * 64 + width.val * 16 + msel.val * 4 + 2)
  | .vrot vd va vb width msel => some (0x46, vd.val * 16384 + va.val * 1024 + vb.val * 64 + width.val * 16 + msel.val * 4 + 3)
  | .vslli vd va imm width msel => some (0x47, vd.val * 16384 + va.val * 1024 + imm.val * 64 + width.val * 16 + msel.val * 4)
  | .vsrli vd va imm width msel => some (0x47, vd.val * 16384 + va.val * 1024 + imm.val * 64 + width.val * 16 + msel.val * 4 + 1)
  | .vsrai vd va imm width msel => some (0x47, vd.val * 16384 + va.val * 1024 + imm.val * 64 + width.val * 16 + msel.val * 4 + 2)
  | .vsrar vd va imm width msel => some (0x47, vd.val * 16384 + va.val * 1024 + imm.val * 64 + width.val * 16 + msel.val * 4 + 3)
  | .vmin vd va vb width msel => some (0x48, vd.val * 16384 + va.val * 1024 + vb.val * 64 + width.val * 16 + msel.val * 4)
  | .vmax vd va vb width msel => some (0x48, vd.val * 16384 + va.val * 1024 + vb.val * 64 + width.val * 16 + msel.val * 4 + 1)
  | .vminu vd va vb width msel => some (0x48, vd.val * 16384 + va.val * 1024 + vb.val * 64 + width.val * 16 + msel.val * 4 + 2)
  | .vmaxu vd va vb width msel => some (0x48, vd.val * 16384 + va.val * 1024 + vb.val * 64 + width.val * 16 + msel.val * 4 + 3)
  | .vceq vd va vb width msel => some (0x49, vd.val * 16384 + va.val * 1024 + vb.val * 64 + width.val * 16 + msel.val * 4)
  | .vclt vd va vb width msel => some (0x49, vd.val * 16384 + va.val * 1024 + vb.val * 64 + width.val * 16 + msel.val * 4 + 1)
  | .vcltu vd va vb width msel => some (0x49, vd.val * 16384 + va.val * 1024 + vb.val * 64 + width.val * 16 + msel.val * 4 + 2)
  | .vcle vd va vb width msel => some (0x49, vd.val * 16384 + va.val * 1024 + vb.val * 64 + width.val * 16 + msel.val * 4 + 3)
  | .vfadd vd va vb width msel => some (0x4A, vd.val * 16384 + va.val * 1024 + vb.val * 64 + width.val * 16 + msel.val * 4)
  | .vfsub vd va vb width msel => some (0x4A, vd.val * 16384 + va.val * 1024 + vb.val * 64 + width.val * 16 + msel.val * 4 + 1)
  | .vfmin vd va vb width msel => some (0x4A, vd.val * 16384 + va.val * 1024 + vb.val * 64 + width.val * 16 + msel.val * 4 + 2)
  | .vfmax vd va vb width msel => some (0x4A, vd.val * 16384 + va.val * 1024 + vb.val * 64 + width.val * 16 + msel.val * 4 + 3)
  | .vfmul vd va vb width msel => some (0x4B, vd.val * 16384 + va.val * 1024 + vb.val * 64 + width.val * 16 + msel.val * 4)
  | .vfma vd va vb width msel => some (0x4B, vd.val * 16384 + va.val * 1024 + vb.val * 64 + width.val * 16 + msel.val * 4 + 1)
  | .vfms vd va vb width msel => some (0x4B, vd.val * 16384 + va.val * 1024 + vb.val * 64 + width.val * 16 + msel.val * 4 + 2)
  | .vfnma vd va vb width msel => some (0x4B, vd.val * 16384 + va.val * 1024 + vb.val * 64 + width.val * 16 + msel.val * 4 + 3)
  | .vfeq vd va vb width msel => some (0x4C, vd.val * 16384 + va.val * 1024 + vb.val * 64 + width.val * 16 + msel.val * 4)
  | .vflt vd va vb width msel => some (0x4C, vd.val * 16384 + va.val * 1024 + vb.val * 64 + width.val * 16 + msel.val * 4 + 1)
  | .vfle vd va vb width msel => some (0x4C, vd.val * 16384 + va.val * 1024 + vb.val * 64 + width.val * 16 + msel.val * 4 + 2)
  | .vftot vd va vb width msel => some (0x4C, vd.val * 16384 + va.val * 1024 + vb.val * 64 + width.val * 16 + msel.val * 4 + 3)
  | .vfabs vd va width msel => some (0x4D, vd.val * 16384 + va.val * 1024 + width.val * 16 + msel.val * 4)
  | .vfneg vd va width msel => some (0x4D, vd.val * 16384 + va.val * 1024 + width.val * 16 + msel.val * 4 + 1)
  | .vfsqrt vd va width msel => some (0x4D, vd.val * 16384 + va.val * 1024 + width.val * 16 + msel.val * 4 + 2)
  | .vfrcp vd va width msel => some (0x4D, vd.val * 16384 + va.val * 1024 + width.val * 16 + msel.val * 4 + 3)
  | .vi2f vd va u width msel => some (0x4E, vd.val * 16384 + va.val * 1024 + u.toNat * 128 + width.val * 16 + msel.val * 4)
  | .vf2i vd va u rtz width msel => some (0x4E, vd.val * 16384 + va.val * 1024 + u.toNat * 128 + rtz.toNat * 64 + width.val * 16 + msel.val * 4 + 1)
  | .vfwid vd va width msel => some (0x4E, vd.val * 16384 + va.val * 1024 + width.val * 16 + msel.val * 4 + 2)
  | .vfnar vd va width msel => some (0x4E, vd.val * 16384 + va.val * 1024 + width.val * 16 + msel.val * 4 + 3)
  | .vredsum vd va vb width msel => some (0x4F, vd.val * 16384 + va.val * 1024 + vb.val * 64 + width.val * 16 + msel.val * 4)
  | .vredmax vd va vb width msel => some (0x4F, vd.val * 16384 + va.val * 1024 + vb.val * 64 + width.val * 16 + msel.val * 4 + 1)
  | .vredmin vd va vb width msel => some (0x4F, vd.val * 16384 + va.val * 1024 + vb.val * 64 + width.val * 16 + msel.val * 4 + 2)
  | .vredarg vd va vb width msel => some (0x4F, vd.val * 16384 + va.val * 1024 + vb.val * 64 + width.val * 16 + msel.val * 4 + 3)
  | .vfredsum vd va vb width msel => some (0x50, vd.val * 16384 + va.val * 1024 + vb.val * 64 + width.val * 16 + msel.val * 4)
  | .vfredmax vd va vb width msel => some (0x50, vd.val * 16384 + va.val * 1024 + vb.val * 64 + width.val * 16 + msel.val * 4 + 1)
  | .vfredmin vd va vb width msel => some (0x50, vd.val * 16384 + va.val * 1024 + vb.val * 64 + width.val * 16 + msel.val * 4 + 2)
  | .vfredarg vd va vb width msel => some (0x50, vd.val * 16384 + va.val * 1024 + vb.val * 64 + width.val * 16 + msel.val * 4 + 3)
  | .vidot vd va vb width msel => some (0x51, vd.val * 16384 + va.val * 1024 + vb.val * 64 + width.val * 16 + msel.val * 4)
  | .vidotu vd va vb width msel => some (0x51, vd.val * 16384 + va.val * 1024 + vb.val * 64 + width.val * 16 + msel.val * 4 + 1)
  | .vfdot vd va vb width msel => some (0x51, vd.val * 16384 + va.val * 1024 + vb.val * 64 + width.val * 16 + msel.val * 4 + 2)
  | .vfdota vd va vb width msel => some (0x51, vd.val * 16384 + va.val * 1024 + vb.val * 64 + width.val * 16 + msel.val * 4 + 3)
  | .vgath vd va vb width msel => some (0x52, vd.val * 16384 + va.val * 1024 + vb.val * 64 + width.val * 16 + msel.val * 4)
  | .vslup vd va vb width msel => some (0x52, vd.val * 16384 + va.val * 1024 + vb.val * 64 + width.val * 16 + msel.val * 4 + 1)
  | .vsldn vd va vb width msel => some (0x52, vd.val * 16384 + va.val * 1024 + vb.val * 64 + width.val * 16 + msel.val * 4 + 2)
  | .vcomp vd va width msel => some (0x52, vd.val * 16384 + va.val * 1024 + width.val * 16 + msel.val * 4 + 3)
  | .vmv vd va width msel => some (0x53, vd.val * 16384 + va.val * 1024 + width.val * 16 + msel.val * 4)
  | .vmvRf vd width => some (0x53, vd.val * 16384 + width.val * 16 + 64)
  | .vmvCf va width => some (0x53, va.val * 1024 + width.val * 16 + 128)
  | .vsplat vd vb width msel => some (0x53, vd.val * 16384 + vb.val * 64 + width.val * 16 + msel.val * 4 + 1)
  | .vbcs vd va vb width msel => some (0x53, vd.val * 16384 + va.val * 1024 + vb.val * 64 + width.val * 16 + msel.val * 4 + 2)
  | .vid vd width msel => some (0x53, vd.val * 16384 + width.val * 16 + msel.val * 4 + 3)
  | .mand vd va vb width => some (0x54, vd.val * 16384 + va.val * 1024 + vb.val * 64 + width.val * 16)
  | .mor vd va vb width => some (0x54, vd.val * 16384 + va.val * 1024 + vb.val * 64 + width.val * 16 + 1)
  | .mxor vd va vb width => some (0x54, vd.val * 16384 + va.val * 1024 + vb.val * 64 + width.val * 16 + 2)
  | .mnot vd va width => some (0x54, vd.val * 16384 + va.val * 1024 + width.val * 16 + 3)
  | .mpopc vd va width msel => some (0x55, vd.val * 16384 + va.val * 1024 + width.val * 16 + msel.val * 4)
  | .mfirst vd va width msel => some (0x55, vd.val * 16384 + va.val * 1024 + width.val * 16 + msel.val * 4 + 1)
  | .mset vd width => some (0x55, vd.val * 16384 + width.val * 16 + 2)
  | .mclr vd width => some (0x55, vd.val * 16384 + width.val * 16 + 3)
  | .vmerge vd va vb width msel => some (0x56, vd.val * 16384 + va.val * 1024 + vb.val * 64 + width.val * 16 + msel.val * 4)
  | .vselm vd va width msel => some (0x56, vd.val * 16384 + va.val * 1024 + width.val * 16 + msel.val * 4 + 1)
  | .vbscl vd va vs width msel => some (0x57, vd.val * 16384 + va.val * 1024 + vs.val * 64 + width.val * 16 + msel.val * 4)
  | .upki vd va fmt part => some (0x60, vd.val * 16384 + va.val * 1024 + fmt.val * 8 + part.val)
  | .upkf vd va vs fmt part => some (0x61, vd.val * 16384 + va.val * 1024 + vs.val * 64 + fmt.val * 8 + part.val)
  | .upkb vd va part fl => some (0x62, vd.val * 16384 + va.val * 1024 + part.val * 64 + fl.toNat * 32)
  | .pcki vd va fmt part => some (0x64, vd.val * 16384 + va.val * 1024 + fmt.val * 8 + part.val)
  | .pckf vd va vs fmt part => some (0x65, vd.val * 16384 + va.val * 1024 + vs.val * 64 + fmt.val * 8 + part.val)
  | .pckb vd va part fl => some (0x66, vd.val * 16384 + va.val * 1024 + part.val * 64 + fl.toNat * 32)
  | .pscl vd va fmt => some (0x67, vd.val * 16384 + va.val * 1024 + fmt.val * 8)
  | .afmt pol route nb na mode => some (0x68, pol.val * 256 + route.val * 64 + nb.val * 16 + na.val * 4 + mode.val)
  | .alatchLa ak => some (0x69, ak.val * 16384)
  | .alatchLb ak => some (0x69, ak.val * 16384 + 1)
  | .alatchLbs ak => some (0x69, ak.val * 16384 + 2)
  | .alatchLz edge => some (0x69, edge.val * 4 + 3)
  | .abeat s a c p => some (0x6A, s.toNat * 8 + a.toNat * 4 + c.toNat * 2 + p.toNat)
  | .adrain ad ak grp bip add clr => some (0x6B, ad.val * 16384 + ak.val * 1024 + grp.val * 64 + bip.toNat * 32 + add.toNat * 16 + clr.toNat * 8)
  | .aconf qd sa sb sk any => some (0x6C, qd.val * 8192 + sa.val * 512 + sb.val * 32 + sk.val * 2 + any.toNat)
  | .ard vd ar q => some (0x6D, vd.val * 16384 + ar.val * 1024 + q.val * 256)
  | .awr vs ar q => some (0x6D, vs.val * 16384 + ar.val * 1024 + q.val * 256 + 1)
  | .ascl ad rs ac int => some (0x6D, ad.val * 16384 + rs.val * 1024 + ac.val * 64 + int.toNat * 32 + 2)
  | .aclr grp => some (0x6D, grp.val * 64 + 3)
  | .gread ad sel j => some (0x6E, ad.val * 16384 + sel.val * 4096 + j.val * 512 + 2)
  | .bterm ad aa ak => some (0x6F, ad.val * 16384 + aa.val * 1024 + ak.val * 64)
  | .bnext ad => some (0x6F, ad.val * 16384 + 1)
  | .cpy d a tgt => some (0x70, d.val * 8192 + a.val * 256 + tgt.val * 16)
  | .barinit a b scope z => some (0x71, a.val * 8192 + b.val * 256 + scope.val * 32 + z.toNat * 16)
  | .baradd a b => some (0x71, a.val * 8192 + b.val * 256 + 1)
  | .bartest a qd => some (0x71, a.val * 8192 + qd.val * 256 + 2)
  | .sendh d a => some (0x72, d.val * 8192 + a.val * 256)
  | .hflip a b => some (0x73, a.val * 8192 + b.val * 256)
  | .hstat d b => some (0x73, d.val * 8192 + b.val * 256 + 2)
  | .estat d a => some (0x75, d.val * 8192 + a.val * 256 + 1)
  | .ecan d a => some (0x75, d.val * 8192 + a.val * 256 + 2)
  | .nop => some (0x00, 0)
  | .jr => some (0x05, 0)
  | .ret => some (0x05, 2)
  | .spawn => some (0x0A, 0)
  | .suspend => some (0x0A, 1)
  | .suspendDorm => some (0x0A, 9)
  | .join => some (0x0A, 2)
  | .exit => some (0x0A, 3)
  | .yield => some (0x0A, 4)
  | .launch => some (0x0A, 5)
  | .rett => some (0x0B, 1)
  | .halt => some (0x0B, 3)
  | .twait => some (0x0B, 4)
  | .tlbinvAsn => some (0x0C, 8)
  | .tlbinvAll => some (0x0C, 16)
  | .tlbsync => some (0x0C, 1)
  | .tlbunlAll => some (0x0C, 19)
  | .blkdrop => some (0x0D, 1)
  | .pset => some (0x1D, 6)
  | .pclr => some (0x1D, 7)
  | .ptos => some (0x1E, 0)
  | .stop => some (0x1E, 1)
  | .aclrAll => some (0x6D, 35)
  | .gseed => some (0x6E, 12)
  | .gseedA => some (0x6E, 4)
  | .gseedB => some (0x6E, 8)
  | .grestart => some (0x6E, 1)
  | .barwait => some (0x71, 3)
  | .reloc => some (0x73, 1)
  | .ssrch => some (0x74, 0)
  | .equi => some (0x75, 0)
  | .ecanAll => some (0x75, 130)
  | .moduleReset => none
  | .bundleIssue => none
  | .tlbMissWalk => none
  | .asyncAccessComplete => none
  | .trapEntry => none
  | .bankFaultWait => none
  | .faultRecordPost => none
  | .actionRetry => none
  | .actionEvict => none
  | .actionDeliver => none
  | .actionFail => none
  | .actionKill => none
  | .preemption => none
  | .swapIn => none
  | .recordTake => none
  | .taskRestore => none
  | .queueAgeing => none
  | .dieLaunchTake => none
  | .specialise => none
  | .specialiseTimeout => none
  | .launchEnumerate => none
  | .dieCompletionReport => none
  | .launchCompletion => none
  | .commandStart => none
  | .courierElement => none
  | .commandComplete => none
  | .arrivalReserve => none
  | .handlerStart => none
  | .relocEntry => none
  | .searchRun => none
  | .agthRowCopy => none
  | .blockFillComplete => none
  | .tlbinvComplete => none
  | .tstepIncrement => none
  | .timeAlignmentLoss => none
  | .frameDrop => none
  | .malformedMessage => none
  | .streamResend => none
  | .write => none
  | .read => none
  | .arm => none
  | .disarm => none
  | .fire => none
  | .resync => none
  | .attest => none
  | .mgmtRootBase => none
  | .mgmtHeapTable => none
  | .mgmtServiceClusters => none
  | .mgmtCodeGeneration => none
  | .mgmtBackmapRead => none
  | .mgmtFaultQueue => none
  | .mgmtPreempt => none
  | .mgmtDefaultTvb => none
  | .mgmtCertificate => none
  | .mgmtReductionRing => none
  | .mgmtMaintenance => none
  | .mgmtLoadFirmware => none
  | .mgmtExtendM3 => none
  | .mgmtEncapsulation => none
  | .firmwarePollSlot => none
  | .reductionDescriptor => none
  | .reductionResult => none
  | .debugBlockWrite => none
  | .traceSample => none
  | .triggerEvaluate => none
  | .slenWrite => none
  | .vlWrite => none
  | .vtypeWrite => none
  | .coreEnWrite => none
  | .skewWrite => none
  | .tswWrite => none
  | .alignedAgain => none
  | .discardedMessage => none
  | .tlbEntryDropped => none

/-- The slot word of a slot (R22); none for an event. -/
def encodeSlot (s : Slot) : Option Nat :=
  match encodeOp s.op with
  | some (major, x0) =>
    let x := x0 + match soleAt s.op with | some lo => s.sole.val * 2 ^ lo | none => 0
    some (s.stop.toNat * 2147483648 + s.bind.toNat * 1073741824 + s.guard.val * 33554432 + major * 262144 + x)
  | none => none

/-- A slot that has a word: its instruction is well formed, its register is 0 where the instruction has none, and a prefix carries no guard and no
binding mark (R30). -/
def Slot.wellFormed (s : Slot) : Bool :=
  s.op.wellFormed && (s.sole.val == 0 || (soleAt s.op).isSome) &&
  match encodeOp s.op with
  | some (major, _) => !isPrefixMajor major || (!s.bind && s.guard.val == 0)
  | none => false

end Sys2Proof
end

