-- ==== Sys2Proof/Machine/State.lean ====
section
/-!
DEFINITION. Sys2Proof/Machine/State.lean: everything the spec gives the device as state, as plain data, and the state
after module reset (R20). A field's default is its reset value; where the spec gives none the docstring names the log.
-/

namespace Sys2Proof.Machine

/-- Why the machine stops: the spec gives every instruction and every step an effect, so nothing raises a fault. -/
inductive Fault where
deriving DecidableEq, Repr

/-- Why a step has no meaning. -/
inductive Refusal where
  /-- No meaning written: raised by an arm of `exec` alone. Safe. -/
  | notModelled (mnemonic : String)
deriving DecidableEq, Repr

/-! ### Sparse storage -/

/-- Bytes by address, addresses strictly rising, no byte 0 (what an unlisted address reads as; log 2). -/
abbrev Mem := List Host.Cell

/-- Cells of a core by number, in the same canonical form: unlisted cells hold 0. -/
abbrev Cells (w : Nat) := List (Nat × BitVec w)

/-! ### Translations (R81, R85, R92) -/

/-- A leaf translation as a TLB holds it (R85). -/
structure Leaf where
  base : Nat
  size : Nat
  pa : Nat
  asn : BitVec 16
  global : Bool
  sup : Bool
  exec : Bool
  write : Bool
  cls : BitVec 2
deriving DecidableEq, Repr

/-- A locked window: base, size, and the leaf, none once a TLBINV emptied it (R92 to R94). -/
structure LockWin where
  base : Nat
  size : Nat
  leaf : Option Leaf
deriving DecidableEq, Repr

/-! ### Register files (Table 01.5, Table 01.6) -/

/-- The general registers of a sequencer bank. -/
structure SeqFile where
  s : Vector Word 32 := Vector.replicate 32 0
  q : BitVec 32 := 1
  h : Vector Word 16 := Vector.replicate 16 0
deriving DecidableEq, Repr

/-- The general registers of a core bank. -/
structure CoreFile where
  a : Vector Word 16 := Vector.replicate 16 0
  v : Vector VReg 16 := Vector.replicate 16 0
  m : Vector MReg 4 := Vector.replicate 4 0
  h : Vector Word 16 := Vector.replicate 16 0
  vflags : BitVec 32 := 0
deriving DecidableEq, Repr

/-- A write to the sequencer bank: the masked registers carry the bits they write. -/
inductive SeqWrite where
  | s (r : Fin 32) (v : Word)
  | q (r : Fin 32) (v : Bool)
  | h (r : Fin 16) (v : Word)
  | tsw (v : Word)
  | slen (v : BitVec 17)
  | coreEn (v : BitVec 8)
  | skew (v : BitVec 2)
  | vl (v : BitVec 16)
  | vtype (v : BitVec 16)
  | vset (vl vtype : BitVec 16)
  | tvb (v : Word)
  | tpc (v : Word)
  | tcause (v : BitVec 8)
  | tval (v : Word)
deriving DecidableEq, Repr

/-- A write to a core bank: `mask` says which bits are written. -/
inductive CoreWrite where
  | a (r : Fin 16) (v : Word)
  | v (r : Fin 16) (val mask : VReg)
  | m (r : Fin 4) (val mask : MReg)
  | h (r : Fin 16) (v : Word)
  | flags (bits : BitVec 32)
  /-- vmv.cf (R194). -/
  | clear (bits : BitVec 32)
  | stride (r : Fin 16) (l : Fin 6) (v : Word)
deriving DecidableEq, Repr

/-- A write that is delivered at cycle `due` of its unit's timeline, issued at cycle `born` of it by slot `slot` (R17). Lists of them are in
order of delivery, and in issue order among equals (R34). -/
structure Pending (α : Type) where
  due : Nat
  eff : α
  born : Nat
  slot : Nat
deriving DecidableEq, Repr

/-- A loop level (R63 to R66), the address of its LOOP bundle, and its counters (R358). -/
structure LoopLevel where
  active : Bool := false
  start : Word := 0
  last : Word := 0
  at_ : Word := 0
  issued : Nat := 0
  iter : Nat := 0
  filled : Vector Nat 10 := Vector.replicate 10 0
  stall : Nat := 0
deriving DecidableEq, Repr

/-- The values sampled when a bundle issues (R46, R181, R182). -/
structure Sampled where
  slen : BitVec 17 := 0
  skew : BitVec 2 := 0
  coreEn : BitVec 8 := 0
  vl : BitVec 16 := 0
  vtype : BitVec 16 := 0
deriving DecidableEq, Repr

/-- The operand snapshot of a bundle (R36, R318). -/
structure Snapshot where
  seq : SeqFile := {}
  cores : Vector CoreFile 8 := Vector.replicate 8 {}
deriving DecidableEq, Repr

/-- The special registers that the slots of a bundle read as they stood at its issue, beside the sampled values (R34, R45, R124, R207): TSW,
VL and VTYPE per core (R181), lc0 to lc5, BLKDONE, GPOS with the seeds, TVB, TPC, TCAUSE and TVAL. -/
structure SpecialRegs where
  tsw : Word := 0
  coreVl : Vector (BitVec 16 × BitVec 16) 8 := Vector.replicate 8 (0, 0)
  lc : Vector (BitVec 32) 6 := Vector.replicate 6 0
  blk : Word := 0
  gen : BitVec 32 × BitVec 32 × BitVec 32 := (0, 0, 0)
  tvb : Word := 0
  tpc : Word := 0
  tcause : BitVec 8 := 0
  tval : Word := 0
deriving DecidableEq, Repr

/-- How a bank goes on inside a bundle: the split slot, the snapshot if the slots read one (SNAP), the guards, the
sampled values, and the next address that a committed branch chose (BR, NEXT; Table 17.3). -/
structure Reentry where
  slot : Nat
  snap : Option Snapshot := none
  guards : BitVec 8 := 0
  sampled : Sampled := {}
  next : Option Word := none
  /-- The return from a trap re-enters here: TSW.SLOT becomes 0 as the bundle commits (R331). -/
  byRett : Bool := false
  /-- The fetch of the bundle had faulted before a save: its guards are read from the snapshot as it issues (R329). -/
  fresh : Bool := false
  /-- The special registers at issue, where the cluster keeps them with the bank (R320); a trap frame has no place for them. -/
  regs : Option SpecialRegs := none
deriving DecidableEq, Repr

/-- Where an end of bundle goes: set by the one branch-class slot (R29). -/
inductive BranchAct where
  | taken (target : Word)
  | loop (level : Fin 6) (count : BitVec 32) (start last after : Word)
  | loopx (level : Fin 6) (after : Word)
  | loopc (level : Fin 6) (after : Word)
deriving DecidableEq, Repr

/-- What the slots of major 0x0A and 0x0B leave to the end of their bundle (R269, R331). -/
inductive EndAct where
  | suspend (slot : Nat) | suspendDorm | join (slot : Nat) | exit (slot : Nat) | yield | rett (slot : Nat) | halt
deriving DecidableEq, Repr

/-- A change of the lockable entries (R92). -/
inductive LockAct where
  | lock (idx : Fin 8) (win : LockWin)
  | unlock (idx : Fin 8)
  | unlockAll
deriving DecidableEq, Repr

/-- One slot word of a fetched bundle: the word, and the slot it decodes to. -/
structure Fetched where
  word : BitVec 32
  slot : Option Slot
deriving DecidableEq, Repr

/-! ### Memory operations (R59, R67, R161) -/

/-- A byte location: main memory by physical address, or a byte of a core's pool (R294). -/
inductive Loc where
  | mem (pa : Nat)
  | pool (c : ClusterId) (core : Fin 8) (acc : Bool) (off : Nat)
deriving DecidableEq, Repr

/-- Atomic operations of AMO, AMOW and GAMO (R308), and the compare value. -/
structure Rmw where
  op : Fin 8
  x : Word
  cmp : Word
deriving DecidableEq, Repr

/-- What one single-copy atomic access does. -/
inductive AccKind where
  | load
  | store (data : Word)
  | rmw (r : Rmw)
deriving DecidableEq, Repr

/-- One access of an operation: the element, the virtual address, the location, the size in bytes. `val` holds what a
performed load or atomic read. -/
structure Access where
  elem : Nat := 0
  va : Word
  loc : Loc
  size : Nat
  kind : AccKind
  done : Bool := false
  /-- It met a machine check and had no effect (R317). -/
  bad : Bool := false
  val : Word := 0
deriving DecidableEq, Repr

/-- Where an operation's value goes when it retires. -/
inductive Dest where
  | none
  | seqS (r : Fin 32) (size : Nat) (signed : Bool)
  | coreA (r : Fin 16) (size : Nat) (signed : Bool)
  | seqH (r : Fin 16)
  | coreH (r : Fin 16)
  /-- A vector group: element width, and the bits that inactive and tail elements write. -/
  | coreV (r : Fin 16) (ew : Nat) (fill : List (Fin 16 × VReg))
deriving DecidableEq, Repr

/-- The WAIT classes that memory operations count in (R67). -/
inductive WaitClass where
  | load | store | copy | tile
deriving DecidableEq, Repr

/-- The slot that issued an operation, as a coherence record names it (Table 20.3, Table 20.4): `scope` 7 is relaxed. -/
structure Source where
  pc : Word := 0
  slot : Nat := 0
  bank : Nat := 0
  asn : BitVec 16 := 0
  cycle : Nat := 0
  scope : Nat := 7
deriving DecidableEq, Repr

/-- What a slot does at once: it stores `n` bytes, it is BARINIT or BARADD on a barrier word (R144, R145), or it compares and swaps a reference
(R108). -/
inductive LateAct where
  | put (x n : Nat)
  | swap (old new : Word)
  | barinit (y : Nat) (scope : Fin 8) (z : Bool)
  | baradd (n : Int)
deriving DecidableEq, Repr

/-- Such a write: other agents see it once its bundle commits (R299), after the agent's operations numbered below `id` (R298). -/
structure LateWrite where
  id : Nat
  agent : Fin 9
  loc : Loc
  act : LateAct
  /-- A FENCE of its bundle stands before it: it comes after the agent's operations below this number (R306). -/
  fence : Nat := 0
  src : Source := {}
deriving DecidableEq, Repr

/-- The bundle that has issued and whose slots are being performed. -/
structure OpenBundle where
  pc : Word
  slots : List Fetched
  idx : Nat
  snap : Snapshot
  guards : BitVec 8
  sampled : Sampled
  /-- The special registers at issue (R34, R312). -/
  regs : SpecialRegs := {}
  /-- The next bundle issues no earlier (R168). -/
  minTime : Nat := 0
  /-- Cycles between the one after the bundle's last and the issue of the next (R47, R67). -/
  drain : Nat := 0
  /-- The lowest slot that meets a condition of Table 02.4, and TVAL. -/
  bad : Option (Nat × Word) := none
  next : Option Word := none
  branch : Option BranchAct := none
  endAct : Option EndAct := none
  ext : Option (BitVec 16) := none
  ord : Option (Fin 8 × Fin 4) := none
  stalled : Bool := false
  /-- The bundle was re-entered by RETT (R331). -/
  byRett : Bool := false
  /-- A change of a locked window, for the slots of later bundles (R92). -/
  lockAct : Option LockAct := none
  /-- Cycles that the slots of the bundle freeze the cluster (R157). -/
  freeze : Nat := 0
  /-- The slot freezes the cluster until a record has arrived (R243). -/
  arriving : Bool := false
  /-- A pre-emption abandons the hold of the slot: it counts as complete (R326). -/
  abandon : Bool := false
  /-- Progress of a slot that holds issue over several steps. -/
  phase : Nat := 0
  /-- Operations from this number on are of the bundle itself (R299). -/
  first : Nat := 0
  /-- The cycle at which it issued, or was entered again, and the slot at which it was entered. -/
  issued : Nat := 0
  entered : Nat := 0
  /-- The slots right of a FENCE of the bundle come after the operations below this number (R306). -/
  fence : Nat := 0
  /-- Writes to pool bytes that its slots have made (R299). -/
  late : List LateWrite := []
  /-- The slots that are there: those kept, in a bundle of a residual (R285). -/
  kept : BitVec 8 := 0xFF
  /-- A branch-class slot that the specialiser has resolved, and its effect (R281, R282). -/
  resolved : Option (Nat × BranchAct) := none
deriving DecidableEq, Repr

/-- An asynchronous operation of an agent of the cluster (0 to 7 a core, 8 the sequencer). -/
structure MemOp where
  id : Nat
  agent : Fin 9
  cls : WaitClass
  acquire : Bool := false
  release : Bool := false
  dest : Dest := .none
  accs : List Access
  /-- Issued since a return, in checked mode (R319). -/
  checked : Bool := false
  src : Source := {}
  /-- Its accesses come after those of its agent's operations below this number: a FENCE stands between them in one bundle (R306). -/
  fence : Nat := 0
  /-- The leaves through which its accesses were translated (R90). -/
  via : List Leaf := []
deriving DecidableEq, Repr

/-- The destination of a completed load whose window is open until WAIT shows it complete (R59): the old value. -/
structure LoadWindow where
  id : Nat
  agent : Fin 9
  seqOld : Option SeqWrite
  coreOld : List CoreWrite
  /-- The load was issued since the return, in checked mode (R319). -/
  checked : Bool := false
deriving DecidableEq, Repr

/-- What holds the issue of the next bundle. -/
inductive Hold where
  /-- A WAIT of the bundle at `pc`, and how the bundle is entered again at its slot should an error be met (R136, R138). -/
  | wait (ld st cp tl : Nat) (en : BitVec 8) (pc : Word) (re : Reentry)
  /-- A FENCE is complete once the operations below a number, of the sequencer and these cores, are performed (R306). -/
  | fence (upto : Nat) (en : BitVec 8)
deriving DecidableEq, Repr

/-! ### Array state of a bank in a core (R218, R220, R243) -/

/-- An AFMT that is not in force yet: the format and the bundles it still waits (R220). -/
structure PendingFmt where
  fmt : BitVec 10
  wait : Nat
deriving DecidableEq, Repr

/-- A term selection (R243 to R245): the record image, the term, and the cycle in which the first row group of its basis is expanded, freezes
counted. -/
structure TermSel where
  record : List Byte
  term : Nat
  ready : Nat
deriving DecidableEq, Repr

/-- A bank of a core (Table 01.6). -/
structure CoreBank where
  file : CoreFile := {}
  stride : Vector (Vector Word 6) 16 := Vector.replicate 16 (Vector.replicate 6 0)
  pend : List (Pending CoreWrite) := []
  lock : Vector (Option LockWin) 8 := Vector.replicate 8 none
  fmt : BitVec 10 := 0
  pendFmt : List PendingFmt := []
  term : Option TermSel := none
  checked : Bool := false
deriving DecidableEq, Repr

/-- A held load-block handle: the block it names, by its die and its number there, and its bit of BLKDONE (R124). -/
structure BlockHandle where
  block : Option (Fin 64 × Nat)
  done : Bool
deriving DecidableEq, Repr

/-- States of a bank (Table 14.5); `halted` is the waiting state of HALT, a stop trigger and a double trap. -/
inductive BankState where
  | free | ready | running | waitFault | halted | dormant | restoring
deriving DecidableEq, Repr

/-- A trap that the bank takes before its next bundle: cause and TVAL. `toHandler`: a fault service delivers it, and even 0x04 goes to the
handler (R325). -/
structure TrapInfo where
  cause : BitVec 8
  tval : Word
  toHandler : Bool := false
deriving DecidableEq, Repr

/-- What the cluster keeps beside the frame of a trap: the levels with their counters (R358), the loop buffer (R64), and the special registers
that the slots of the split bundle read at issue (R207). -/
structure Aside where
  loops : Vector LoopLevel 6
  buf : List (Word × List (BitVec 32))
  regs : Option SpecialRegs
deriving DecidableEq, Repr

/-- A context bank of a sequencer with the matching banks of the cores (R20, R44). -/
structure Bank where
  state : BankState := .free
  file : SeqFile := {}
  lc : Vector (BitVec 32) 6 := Vector.replicate 6 0
  loops : Vector LoopLevel 6 := Vector.replicate 6 {}
  /-- What the traps that no RETT has answered yet set aside, the latest first (R315, R316). -/
  aside : List Aside := []
  /-- The loop buffer of level 0: addresses and words of the bundles that have entered it; no words where they are to be fetched again
  (R64, R91). -/
  loopBuf : List (Word × List (BitVec 32)) := []
  pc : Word := 0
  tsw : Word := 0
  wid : Word := 0
  trec : Word := 0
  frame : Word := 0
  tidx : Word := 0
  lrec : Word := 0
  slen : BitVec 17 := 0
  coreEn : BitVec 8 := 0
  skew : BitVec 2 := 0
  vl : BitVec 16 := 0
  vtype : BitVec 16 := 0
  gpos : BitVec 32 := 0
  gseedA : BitVec 32 := 0
  gseedB : BitVec 32 := 0
  /-- Loaded by the firmware; DESIGN CHOICE 0 (log 3). -/
  tvb : Word := 0
  tpc : Word := 0
  tcause : BitVec 8 := 0
  tval : Word := 0
  handles : Vector (Option BlockHandle) 64 := Vector.replicate 64 none
  pend : List (Pending SeqWrite) := []
  /-- The cycle after the latest delivery of a write to each predicate since the task started; 0 where there was none (R69). -/
  qLast : Vector Nat 32 := Vector.replicate 32 0
  ops : List MemOp := []
  windows : List LoadWindow := []
  holds : List Hold := []
  tlbinvs : List Nat := []
  reenter : Option Reentry := none
  pendTrap : Option TrapInfo := none
  checked : Bool := false
  /-- No bundle has issued yet since checked mode began (R319). -/
  checkedNew : Bool := false
  /-- The cycle at which it began: what issued before it does not count (R319). -/
  checkedAt : Nat := 0
  /-- The virtual address of the first asynchronous machine check (R317). -/
  mcAddr : Word := 0
  /-- Pending courier errors of the bank: command ids (R138). -/
  courierErrs : List (Nat × BitVec 8) := []
  /-- Position in the order of R265: made ready by an arrival, and its number among the banks made ready. -/
  byArrival : Bool := false
  readySince : Nat := 0
  prio : Fin 4 := 0
  /-- It was dormant when a trigger stopped it (R360). -/
  slept : Bool := false
  /-- The residual of the die's cache that the bank runs (R276), by number, and the point of it at which the bank stands. -/
  residual : Option (Nat × Nat) := none
  cores : Vector CoreBank 8 := Vector.replicate 8 {}
deriving DecidableEq, Repr

/-- Latches, counters and accumulator rows of a core are written with a latency too (R228). -/
inductive ArrayWrite where
  /-- ALATCH: a latch's tag and its 128 entries. -/
  | latch (top : Bool) (tag : BitVec 8) (vals : List (BitVec 16))
  /-- The counters after a beat, an ACLR or a clear-after. -/
  | count (vals : Cells 24)
  /-- AWR, and a store of kind 1: bytes of the accumulator store. -/
  | rows (off : Nat) (bytes : List Byte)
  /-- ADRAIN: 1024 lanes from a row on, added to what stands there or put in its place. -/
  | drain (row : Nat) (vals : List Int) (add : Bool)
  /-- ASCL: destination row, source row, coefficient, integer form. -/
  | scale (dst src : Nat) (cf : BitVec 16) (int : Bool)
deriving DecidableEq, Repr

/-- A gather of the porter (R170). -/
structure Gather where
  id : Nat
  bank : Fin 8
  toB : Bool
  row0 : Nat
  width : Nat
  srcs : List Nat
  next : Nat := 0
  /-- The source rows, each counted from 0: as read, of the first `next`; of the others what stood there at the AGTH (R171). -/
  olds : List Mem := []
deriving DecidableEq, Repr

/-- What exists once in a core (R14, R20, R321). -/
structure PhysCore where
  spad : Mem := []
  acc : Mem := []
  bufA : Mem := []
  bufB : Mem := []
  left : Cells 16 := []
  top : Cells 16 := []
  leftTag : BitVec 8 := 0
  topTag : BitVec 8 := 0
  counters : Cells 24 := []
  pend : List (Pending ArrayWrite) := []
  /-- Flags that delivered rows set, on their way to VFLAGS of the running bank (R230, R237). -/
  flags : BitVec 32 := 0
  gathers : List Gather := []
  tlb : List Leaf := []
deriving DecidableEq, Repr

/-! ### Courier (R135 to R153) -/

/-- States of a command (Table 07.5). -/
inductive CmdState where
  | queued | running | parked | done | error | cancelled
deriving DecidableEq, Repr

/-- A command of a courier: its image (16 doublewords), owner, progress, and what ESTAT reports. `landed` holds the
destination bytes it has written, for the checksum (R141). -/
structure Command where
  id : Nat
  bank : Fin 8
  send : Bool
  tgt : Fin 9
  block : List Word
  asn : BitVec 16
  sup : Bool
  state : CmdState := .queued
  /-- Its number in the order of acceptance of commands and searches (R329). -/
  order : Nat := 0
  next : Nat := 0
  slot : Nat := 0
  cause : BitVec 8 := 0
  va : Word := 0
  reserved : Bool := false
  /-- The barrier whose ERR it set in error or cancelled, not cleared since (R138). -/
  onBar : Option Loc := none
  /-- Elements below it landed before a save (R141, R146). -/
  resumed : Nat := 0
  landed : List (Nat × Byte) := []
  /-- It parked, entered error or was cancelled since the bank's last stop (R361). -/
  news : Bool := false
  /-- Memory operations of the issuing agent that an acquire waits for (R139). -/
  after : List Nat := []
  /-- Its number in the order of acceptance of its courier (R153), which no other command of the courier has, and the issuing core's cycle of its
  bundle (R136). -/
  seq : Nat := 0
  born : Nat := 0
  /-- It has faulted while every context slot was occupied, and stalls the courier (R137). -/
  stalled : Bool := false
deriving DecidableEq, Repr

/-- A posted arrival (R150): what the handler's PC, s1, s2 and s3 become. -/
structure Arrival where
  pc : Word
  s1 : Word
  s2 : Word
  s3 : Word
  /-- The ASN of the context that it is for (R326). -/
  ctx : BitVec 16
deriving DecidableEq, Repr

/-- An accepted search (R248, R249). -/
structure Search where
  id : Nat
  bank : Fin 8
  params : List Word
  asn : BitVec 16
  sup : Bool
  next : Nat := 0
  best : Option (BitVec 32 × Int) := none
  /-- The target bytes as they stood when the search was accepted (R248). -/
  olds : List Byte := []
  /-- The target bytes once the engine has read them. -/
  tile : Option (List Byte) := none
deriving DecidableEq, Repr

/-! ### Clusters -/

/-- A TLB invalidation in progress (R89, R90): its mode, operands, and the bank that issued it. -/
structure TlbInv where
  id : Nat
  bank : Fin 8
  mode : Fin 3
  va : Word
  asn : BitVec 16
  /-- The bank's operations that its release still waits for (R89). -/
  after : List Nat := []
  /-- Once every TLB has dropped its entries: the operations still to be performed that were translated before. -/
  waits : Option (List (ClusterId × Nat)) := none
deriving DecidableEq, Repr

/-- What a sequencer cycle of a cluster did, for samples and triggers (R355, R359): the bundle, its bank, and the cause of a trap
taken in it. -/
structure CycleInfo where
  pc : Word := 0
  bank : Fin 8 := 0
  asn : BitVec 16 := 0
  cycle : Nat := 0
  cause : Option (BitVec 8) := none
  /-- A bundle is issued or open in the cycle, at `pc`. -/
  bundle : Bool := true
  /-- The unrolled iteration indices of the residual bundle, words 2 and 3 of its back-map entry (R291). -/
  iters : Word × Word := (0, 0)
  /-- The record of the trap that is taken in the cycle, which is written when the triggers have judged it. -/
  note : List Word := []
deriving DecidableEq, Repr

/-- A context moved out by a pre-emption (R326 to R328). -/
structure Shadow where
  part : BitVec 32
  asn : BitVec 16
  banks : Vector Bank 8
  cores : Vector PhysCore 8
  cmds : List Command
  searches : List Search
deriving DecidableEq, Repr

/-- A cluster: sequencer, eight cores, courier, search engine (R13). `bank` is the running bank's content when `run`
names one (its place in `banks` is then blank). -/
structure Cluster where
  id : ClusterId
  part : BitVec 32 := 0
  asn : BitVec 16 := 0
  run : Option (Fin 8) := none
  bank : Bank := {}
  banks : Vector Bank 8 := Vector.replicate 8 {}
  cores : Vector PhysCore 8 := Vector.replicate 8 {}
  tlb : List Leaf := []
  /-- Cycle of the cluster's timeline at which the next bundle issues; freezes are counted apart (R157). -/
  time : Nat := 0
  frozen : Nat := 0
  /-- When the latest bundle issued, and its SKEW (R16). -/
  lastAt : Nat := 0
  lastSkew : BitVec 2 := 0
  opn : Option OpenBundle := none
  nextOp : Nat := 1
  cmds : List Command := []
  nextCmd : Nat := 1
  /-- Commands that the courier has accepted (R153). -/
  accepted : Nat := 0
  lastCmd : List (Fin 8 × Nat) := []
  /-- Per bank, the command id that a trap on a barrier has reported since the barrier's ERR was last cleared (R138). -/
  barTold : List (Fin 8 × Loc × Nat) := []
  arrSlots : Nat := 0
  arrivals : List Arrival := []
  searches : List Search := []
  invs : List TlbInv := []
  /-- A pre-emption request: the die that takes the records where it evicts (R326). -/
  preempt : Option (Option (Fin 64)) := none
  shadows : List Shadow := []
  /-- Vector lanes, unpack and pack units kept busy by later passes: at which cycle, freezes counted, how much; from which cycle the units are
  free (R183). -/
  busyVec : List (Nat × Nat) := []
  busyUnpack : Nat := 0
  busyPack : Nat := 0
  /-- Bundles issued since the last trace sample (R355). -/
  sinceSample : Nat := 0
  last : CycleInfo := {}
  /-- The bundle that is to be sampled, with the cycle of its issue (R355). -/
  sample : Option (Nat × CycleInfo) := none
  /-- The cycles for which the triggers have still to be evaluated: runs of cycles, by their first and their number (R359). -/
  evals : List (CycleInfo × Nat) := []
  /-- The bank that a trigger stops when its bundle has ended (R360). -/
  stop : Option (Fin 8) := none
deriving DecidableEq, Repr

/-! ### Dies (R12, R261, R322) -/

/-- A record in a queue (R261), with what its launch says of the clusters that may hold it (R263). -/
structure QEntry where
  addr : Word
  asn : BitVec 16
  part : BitVec 32
  service : Bool
  launch : Word
  since : Nat
deriving DecidableEq, Repr

/-- A queue: four levels, oldest first (R261). -/
structure Queue where
  levels : Vector (List QEntry) 4 := Vector.replicate 4 []
deriving DecidableEq, Repr

/-- What a fault record concerns (Table 17.5). -/
inductive FaultOf where
  | bank (c : ClusterId) (trec : Word)
  /-- By its courier and its number in the order of acceptance there. -/
  | command (c : ClusterId) (seq : Nat)
  | heap (n : Fin 16)
  | launch (num : Nat)
  | nothing
deriving DecidableEq, Repr

/-- A fault record: words 0 to 3 and what it concerns. -/
structure FaultRec where
  w0 : Word
  va : Word
  pc : Word
  trec : Word
  subject : FaultOf
deriving DecidableEq, Repr

/-- The fault queue of a die (R322): records posted and not DONE, by number, and records held while the ring is full.
`base = none` is the firmware's default queue. -/
structure FaultQueue where
  base : Option Nat := none
  log2 : Nat := 6
  host : Bool := true
  prod : Nat := 0
  cons : Nat := 0
  posted : List (Nat × FaultRec) := []
  done : List Nat := []
  held : List FaultRec := []
deriving DecidableEq, Repr

/-- The debug settings in force, the 32 words of the die's debug block (R355), and the trace windows that are open: cluster and
trigger (R359). -/
structure Debug where
  words : List Word := []
  windows : List (Fin 8 × Nat) := []
deriving DecidableEq, Repr

/-- A loop level on a path of an evaluation: unrolled, with its iteration, or kept (R282). -/
structure PathLevel where
  start : Word
  last : Word
  unrolled : Bool
  iter : Nat
deriving DecidableEq, Repr

/-- Where an evaluation stands: an original bundle, with the active levels (R281, R282). -/
structure Point where
  pc : Word
  loops : Vector (Option PathLevel) 6
deriving DecidableEq, Repr

/-- A point of a residual: a residual bundle, or an original bundle of its paths of which every slot is removed (R285). -/
structure ResPoint where
  at_ : Point
  /-- The words of the original bundle as they were evaluated (R278), and which of its slots are kept, and folded or resolved. -/
  words : List (BitVec 32)
  kept : BitVec 8
  folded : BitVec 8
  /-- The constant records of Table 15.4: register and value before the bundle, and slot, register and value of a result. -/
  regs : List (Nat × Word)
  results : List (Nat × Nat × Word)
  /-- Words 2 and 3 of its back-map entry (Table 15.2). -/
  iters : Word × Word
  /-- A branch-class slot that is resolved, and its effect. -/
  act : Option (Nat × BranchAct)
  /-- A kept branch has an unknown target, at which the residual ends when it is taken (R283). -/
  ends : Bool
  /-- The points that may follow, by their places in the residual. -/
  next : List Nat
deriving DecidableEq, Repr

/-- A residual of the specialisation cache: its number, its key (R277), its points, the entry first, its back-map, an entry with its constant
records per residual bundle (R292), and its statistics (R293). A declined one has no bundle (R284). -/
structure Residual where
  num : Nat
  key : List Word
  declined : Bool := false
  points : List ResPoint := []
  entries : List (List Word) := []
  stats : List Word := []
deriving DecidableEq, Repr

/-- A load-block of a die, or what is left of one (R124, R125): its number in the order of declaration, its physical lines, whether its fill has
ended, and whether it has no tag of its own, so that its lines are ordinary ones. -/
structure Block where
  num : Nat
  first : Nat
  lines : Nat
  done : Bool := false
  ordinary : Bool := false
  /-- The slot that declared it. -/
  src : Source := {}
  /-- Its lines whose copies a store has removed from it (R126). -/
  gone : List Nat := []
deriving DecidableEq, Repr

/-- What belongs to a logical die: queues, second-level TLB, fault queue, debug block, specialisation cache. -/
structure Die where
  shared : Queue := {}
  priv : Vector Queue 8 := Vector.replicate 8 {}
  /-- Service clusters (R263); DESIGN CHOICE none (log 3). -/
  svcMask : BitVec 8 := 0
  l2 : List Leaf := []
  fq : FaultQueue := {}
  tracing : Debug := {}
  residuals : List Residual := []
  /-- Load-blocks and fills under way, the oldest first (R125). -/
  blocks : List Block := []
  nextBlock : Nat := 1
  nextKey : Nat := 1
deriving DecidableEq, Repr

/-! ### The device -/

/-- What the hardware holds of a heap: EPOCH and STAT, of which the descriptor shows a copy (R95), and the relocation engine (R116): the new
addresses of the entries by slot, the slots that barriers have raised, the next one first, and the entry that is COPYING. -/
structure Reloc where
  epoch : BitVec 2 := 0
  stat : Word := 0
  news : List (Nat × Nat) := []
  running : Bool := false
  parked : Bool := false
  die : Fin 64 := 0
  asn : BitVec 16 := 0
  sup : Bool := false
  raised : List Nat := []
  cur : Option Nat := none
deriving DecidableEq, Repr

/-- A die's share of a launch (R258, R260, R267). -/
structure Share where
  taken : Bool := false
  image : List Word := []
  next : Nat := 0
  exits : Nat := 0
  reported : Bool := false
  code : BitVec 8 := 0
  stopped : Bool := false
  /-- The key of the launch as the die read it, when it is specialised (R277), and whether its lookup or evaluation has ended. -/
  key : List Word := []
  specDone : Bool := false
deriving DecidableEq, Repr

/-- A launch in flight (R259): the model's number, header address, collecting die, ASN and supervisor state of the source's read, and
the host's launch number when FIRE started it (R342), else 0. -/
structure Launch where
  num : Nat
  hdr : Word
  asn : BitVec 16
  collect : Fin 64
  sup : Bool
  image : List Word
  fire : Nat := 0
  shares : Vector Share 64 := Vector.replicate 64 {}
deriving DecidableEq, Repr

/-- An armed tag (R341). -/
structure Armed where
  tag : Nat
  image : List Word
  args : List Word
  ring : Word
  nlog : Nat
  zlog : Nat
  next : Nat := 0
  /-- Slots and the numbers of the launches they were last used for. -/
  fly : List (Nat × Nat) := []
deriving DecidableEq, Repr

/-- A stream of the host link (R339): the next sequence number each way, the one that the last ACK sent named, original replies by number, and
messages not acknowledged. -/
structure Stream where
  id : Nat
  rxNext : Nat := 0
  ackSent : Nat := 0
  txNext : Nat := 0
  replies : List (Nat × HostMsg) := []
  unacked : List HostMsg := []
deriving DecidableEq, Repr

/-- A reduction whose descriptor the innkeeper has read (R352): the descriptor and the source elements, none where they could not be read. -/
structure Reduction where
  at_ : Nat
  desc : List Word
  elems : Option (List Nat)
deriving DecidableEq, Repr

/-- A step outside a slot, with what it concerns. -/
structure Event where
  step : Instr
  arg : Subject
deriving DecidableEq, Repr

/-- A subject that names nothing. -/
def Subject.none : Subject :=
  ⟨⟨0, 0⟩, 0, 0, 0, ⟨0, 0, 0, 0, 0, 0, 0, 0, 0, 0, [], false, .other⟩, []⟩

structure State where
  cl : Cluster := { id := ⟨0, 0⟩ }
  others : List Cluster := []
  mem : Mem := []
  /-- Uncorrectable 64-bit words, and words with a single-bit error, by physical word number (R71, R72). -/
  badWords : List Nat := []
  softWords : List Nat := []
  /-- The directory (R122): cell 64·l + d holds the state of physical line l in the cache of die d, 0 I, 1 S, 2 E, 3 O, 4 M (Table 20.4). -/
  lines : Cells 3 := []
  cycle : Nat := 0
  tstep : Nat := 0
  tstepAt : Nat := 0
  aligned : Bool := true
  /-- Firmware values of log 3. -/
  rootBase : Nat := 0
  defaultTvb : Word := 0
  dies : Vector Die 64 := Vector.replicate 64 {}
  relocs : Vector Reloc 16 := Vector.replicate 16 {}
  launches : List Launch := []
  nextLaunch : Nat := 1
  nextFire : Nat := 1
  /-- Requests that wait: FIRE messages (R342), and MGMT 0x07 (R345). -/
  fires : List HostMsg := []
  preempts : List (ClusterId × HostMsg) := []
  armed : List Armed := []
  streams : List Stream := []
  outbox : List HostMsg := []
  etherType : BitVec 16 := 0x88B5
  udpPort : BitVec 16 := 23070
  codeGen : Cells 32 := []
  /-- Error counts of RESYNC section 9 by number (R344), and the firmware's lists. -/
  counts : Cells 64 := []
  /-- M0 to M3 (R348). -/
  m0 : List Byte := List.replicate 32 0
  m1 : List Byte := List.replicate 32 0
  m2 : List Byte := List.replicate 32 0
  m3 : List Byte := List.replicate 32 0
  resets : BitVec 64 := 0
  /-- The stored firmware image that MGMT 0x0C loaded, and the one that was checked at boot (R347); none: the image with which the module comes. -/
  image : Option (List Byte) := none
  booted : Option (List Byte) := none
  recovery : Bool := false
  /-- The physical spares that serve a logical unit (R350): unit kind, number of the spare, unit. Every other spare is unused. -/
  spares : List (Nat × Nat × Nat) := []
  redBase : Nat := 0
  redLog : Nat := 0
  redGroup : Nat := 0
  redRank : Nat := 0
  redCons : Nat := 0
  red : Option Reduction := none
  pollSlot : Nat := 0
  /-- The model's own: the steps that the environment and the free orders of the spec choose next (log 1), the step in
  progress, whose turn it is (log 1), and the number of free values drawn (log 4). -/
  agenda : List Event := []
  ev : Subject := Subject.none
  turn : Nat := 0
  freeCtr : Nat := 0
  /-- How many times a bank has been made ready: the order of R265. -/
  readied : Nat := 0
deriving DecidableEq, Repr

/-- The device right after module reset (R20 and the defaults above). -/
def State.reset : State := {}

end Sys2Proof.Machine
end

