-- ==== Sys2Proof/Machine/Store.lean ====
section
/-!
DEFINITION. Sys2Proof/Machine/Store.lean: sparse storage in canonical form (addresses strictly rising, no listed 0), and
little-endian byte order (R5). Everything that is kept by address goes through these functions.
-/

namespace Sys2Proof.Machine

/-! ### Cells in canonical form -/

/-- The canonical form: no listed value is 0 and numbers rise strictly. -/
def Cells.wf {w : Nat} : Cells w → Bool
  | [] => true
  | [(_, v)] => v != 0
  | (a, v) :: (b, u) :: t => v != 0 && decide (a < b) && Cells.wf ((b, u) :: t)

/-- What a cell holds; 0 where nothing is listed. -/
def Cells.get {w : Nat} : Cells w → Nat → BitVec w
  | [], _ => 0
  | (a, v) :: t, k => if a = k then v else Cells.get t k

/-- Put a value before a list whose numbers are all above `k`. -/
def Cells.put {w : Nat} (k : Nat) (v : BitVec w) (t : Cells w) : Cells w := if v = 0 then t else (k, v) :: t

/-- Write one cell, keeping the canonical form. -/
def Cells.set {w : Nat} : Cells w → Nat → BitVec w → Cells w
  | [], k, v => Cells.put k v []
  | (a, u) :: t, k, v =>
    if k < a then Cells.put k v ((a, u) :: t)
    else if k = a then Cells.put k v t
    else (a, u) :: Cells.set t k v

/-- Remove every cell from `lo` to `hi - 1`. -/
def Cells.clear {w : Nat} (m : Cells w) (lo hi : Nat) : Cells w := m.filter fun p => !(lo ≤ p.1 && p.1 < hi)

/-- The cells from `lo` to `hi - 1`. -/
def Cells.slice {w : Nat} (m : Cells w) (lo hi : Nat) : Cells w := m.filter fun p => lo ≤ p.1 && p.1 < hi

/-- Write a run of values from cell `k` on, one cell each. -/
def Cells.setRun {w : Nat} (m : Cells w) (k : Nat) : List (BitVec w) → Cells w
  | [] => m
  | v :: vs => Cells.setRun (Cells.set m k v) (k + 1) vs

/-- The cells whose values are the `n` values of `f` from number `k` on. -/
def Cells.tab {w : Nat} (f : Nat → BitVec w) (k : Nat) : Nat → Cells w
  | 0 => []
  | n + 1 => Cells.put k (f k) (Cells.tab f (k + 1) n)

/-- Put a run of cells, numbered in rising order from `lo` to `hi - 1`, in place of what stands there: one pass. -/
def Cells.replace {w : Nat} (m : Cells w) (lo hi : Nat) (new : Cells w) : Cells w :=
  m.filter (fun p => p.1 < lo) ++ new ++ m.filter (fun p => hi ≤ p.1)

/-! ### Memory -/

/-- The canonical form of a memory. -/
def Mem.wf (m : Mem) : Bool := Cells.wf m

/-- One byte. -/
def Mem.get (m : Mem) (a : Nat) : Byte := Cells.get m a

/-- Write one byte. -/
def Mem.set (m : Mem) (a : Nat) (b : Byte) : Mem := Cells.set m a b

/-- The number whose little-endian bytes stand at `a` (R5). -/
def Mem.read (m : Mem) (a : Nat) : Nat → Nat
  | 0 => 0
  | n + 1 => (Mem.get m a).toNat + 256 * Mem.read m (a + 1) n

/-- Write the `n` low bytes of `x`, least significant first (R5). -/
def Mem.write (m : Mem) (a x : Nat) : Nat → Mem
  | 0 => m
  | n + 1 => Mem.write (Mem.set m a (BitVec.ofNat 8 x)) (a + 1) (x / 256) n

/-- A doubleword. -/
def Mem.word (m : Mem) (a : Nat) : Word := BitVec.ofNat 64 (Mem.read m a 8)

/-- Write a doubleword. -/
def Mem.setWord (m : Mem) (a : Nat) (v : Word) : Mem := Mem.write m a v.toNat 8

/-- `n` bytes from `a` on. -/
def Mem.bytes (m : Mem) (a : Nat) : Nat → List Byte
  | 0 => []
  | n + 1 => Mem.get m a :: Mem.bytes m (a + 1) n

/-- `n` doublewords from `a` on. -/
def Mem.words (m : Mem) (a : Nat) : Nat → List Word
  | 0 => []
  | n + 1 => Mem.word m a :: Mem.words m (a + 8) n

/-- Write a run of bytes. -/
def Mem.setBytes (m : Mem) (a : Nat) (bs : List Byte) : Mem := Cells.setRun m a bs

/-- Write a run of doublewords. -/
def Mem.setWords (m : Mem) (a : Nat) : List Word → Mem
  | [] => m
  | v :: vs => Mem.setWords (Mem.setWord m a v) (a + 8) vs

/-! ### Bytes and numbers -/

/-- A little-endian number (R5). -/
def leNat : List Byte → Nat
  | [] => 0
  | b :: bs => b.toNat + 256 * leNat bs

/-- The `n` low bytes of a number, least significant first. -/
def leBytes (x : Nat) : Nat → List Byte
  | 0 => []
  | n + 1 => BitVec.ofNat 8 x :: leBytes (x / 256) n

/-- The doublewords of a run of bytes. -/
def leWords (bs : List Byte) : Nat → List Word
  | 0 => []
  | n + 1 => BitVec.ofNat 64 (leNat (bs.take 8)) :: leWords (bs.drop 8) n

/-- The bytes of a run of doublewords. -/
def bytesOfWords (ws : List Word) : List Byte := ws.flatMap fun w => leBytes w.toNat 8

/-- Word `i` of an image in memory. -/
def wordAt (ws : List Word) (i : Nat) : Word := ws.getD i 0

/-! ### Fields -/

/-- Bits hi down to lo of a word, as a number. -/
def bits {w : Nat} (x : BitVec w) (hi lo : Nat) : Nat := x.toNat / 2 ^ lo % 2 ^ (hi + 1 - lo)

/-- Sign-extend the low `n` bits of a number. -/
def sextNat (n : Nat) (x : Nat) : Int :=
  let y := x % 2 ^ n
  if y < 2 ^ (n - 1) then (y : Int) else (y : Int) - (2 ^ n : Nat)

/-- Bits 63:0 of an integer (R6). -/
def toWord (x : Int) : Word := BitVec.ofInt 64 x

/-- The address after adding an exact displacement, bits 63:0. -/
def addDisp (a : Word) (d : Int) : Word := toWord (a.toNat + d)

/-- Clamp an integer into a range. -/
def clampInt (x lo hi : Int) : Int := if x < lo then lo else if hi < x then hi else x

end Sys2Proof.Machine
end

