-- ==== Sys2Proof/Machine/Flags.lean ====
section
/-!
DEFINITION. Sys2Proof/Machine/Flags.lean: binary float formats, rounding and the sticky bits of VFLAGS (R173 to R178), and the
summation order (R179). Values are exact integers times powers of two.
-/

namespace Sys2Proof.Machine

/-! ### VFLAGS (Table 09.3) -/

def flNX : BitVec 32 := 1
def flUF : BitVec 32 := 2
def flOF : BitVec 32 := 4
def flDZ : BitVec 32 := 8
def flNV : BitVec 32 := 16
def flSAT : BitVec 32 := 32
def flCORR : BitVec 32 := 256
def flOVF : BitVec 32 := 512
def flEND : BitVec 32 := 1024
def flUNALIGNED : BitVec 32 := 2048

/-- A flag under a condition. -/
def flagIf (p : Bool) (f : BitVec 32) : BitVec 32 := if p then f else 0

/-- A result and the flags it sets. -/
abbrev Flagged := Nat × BitVec 32

/-! ### Formats (Table 09.2) -/

/-- A float format: exponent bits, mantissa bits, bias, the encoding of the largest finite magnitude, and that of infinity
where there is one. Magnitudes above these are NaNs. -/
structure FloatFmt where
  eb : Nat
  mb : Nat
  bias : Nat
  maxFin : Nat
  inf : Option Nat
deriving DecidableEq, Repr

def fp32 : FloatFmt := ⟨8, 23, 127, 0x7F7FFFFF, some 0x7F800000⟩
def bf16 : FloatFmt := ⟨8, 7, 127, 0x7F7F, some 0x7F80⟩
def e4m3 : FloatFmt := ⟨4, 3, 7, 0x7E, none⟩
def e5m2 : FloatFmt := ⟨5, 2, 15, 0x7B, some 0x7C⟩
def e3m2 : FloatFmt := ⟨3, 2, 3, 0x1F, none⟩
def e2m1 : FloatFmt := ⟨2, 1, 1, 0x7, none⟩

/-- The float format of a lane of `ew` bits. -/
def fmtOf (ew : Nat) : FloatFmt := if ew = 32 then fp32 else bf16

/-- Bits of an encoding without its sign. -/
def FloatFmt.width (f : FloatFmt) : Nat := f.eb + f.mb

/-- A float value: a NaN (signalling or not; `made` out of operands that are no NaN), an infinity, or
(-1)^neg × m × 2^e. -/
inductive FVal where
  | nan (signalling made : Bool)
  | inf (neg : Bool)
  | fin (neg : Bool) (m : Nat) (e : Int)
deriving DecidableEq, Repr

/-- The value of an encoding (R173). A NaN is signalling when mantissa bit M - 1 is clear (R186); those of the narrow formats
are quiet (R198). -/
def FloatFmt.value (f : FloatFmt) (x : Nat) : FVal :=
  let mag := x % 2 ^ f.width
  let neg := x / 2 ^ f.width % 2 = 1
  let ex := mag / 2 ^ f.mb
  let m := mag % 2 ^ f.mb
  if f.inf = some mag then .inf neg
  else if mag > f.maxFin then .nan (f.eb = 8 && m / 2 ^ (f.mb - 1) = 0) false
  else if ex = 0 then .fin neg m (1 - (f.bias : Int) - f.mb)
  else .fin neg (m + 2 ^ f.mb) ((ex : Int) - f.bias - f.mb)

/-- The canonical NaN of fp32 and bf16 (R175). -/
def canonNaN (ew : Nat) : Nat := if ew = 32 then 0x7FC00000 else 0x7FC0

/-- An encoding with a sign. -/
def FloatFmt.signed (f : FloatFmt) (neg : Bool) (mag : Nat) : Nat := mag + (if neg then 2 ^ f.width else 0)

/-- floor(log2 (m × 2^e)) for m > 0. -/
def floorLog (m : Nat) (e : Int) : Int := (Nat.log2 m : Int) + e

/-- The magnitude m × 2^e rounded once, nearest-even, over an unbounded exponent range above: the encoding as a number, and
whether it is inexact (R175). -/
def FloatFmt.roundMag (f : FloatFmt) (m : Nat) (e : Int) : Nat × Bool :=
  if m = 0 then (0, false)
  else
    let emin : Int := 1 - f.bias
    let top := max (floorLog m e) emin
    let lsb := top - f.mb
    let up := ((top - emin).toNat) * 2 ^ f.mb
    if lsb ≤ e then (up + m * 2 ^ (e - lsb).toNat, false)
    else
      let d := (lsb - e).toNat
      let q := m / 2 ^ d
      let r := m % 2 ^ d
      let half := 2 ^ (d - 1)
      (up + (if half < r || (r = half && q % 2 = 1) then q + 1 else q), r ≠ 0)

/-- The magnitude m × 2^e exceeds that of an encoding. -/
def FloatFmt.beyond (f : FloatFmt) (m : Nat) (e : Int) : Bool :=
  match f.value f.maxFin with
  | .fin _ m2 e2 =>
    let lo := min e e2
    decide (m2 * 2 ^ (e2 - lo).toNat < m * 2 ^ (e - lo).toNat)
  | _ => false

/-- The exact result is tiny: nonzero and below the minimum normal (R176). -/
def FloatFmt.tiny (f : FloatFmt) (m : Nat) (e : Int) : Bool := m ≠ 0 && decide (floorLog m e < 1 - (f.bias : Int))

/-- rnd of fp32 and bf16 (R175): a finite result too large becomes an infinity. -/
def rnd (ew : Nat) (neg : Bool) (m : Nat) (e : Int) : Flagged :=
  let f := fmtOf ew
  let r := f.roundMag m e
  if f.maxFin < r.1 then (f.signed neg (f.inf.getD 0), flOF ||| flNX)
  else (f.signed neg r.1, flagIf r.2 flNX ||| flagIf (r.2 && f.tiny m e) flUF)

/-! ### Arithmetic -/

/-- Flip the sign of a value. -/
def FVal.negate : FVal → FVal
  | .nan s m => .nan s m
  | .inf n => .inf !n
  | .fin n m e => .fin (!n) m e

def FVal.isNaN : FVal → Bool
  | .nan _ _ => true
  | .inf _ | .fin _ _ _ => false

def FVal.isSNaN : FVal → Bool
  | .nan s _ => s
  | .inf _ | .fin _ _ _ => false

/-- A NaN that was an operand, not made out of numbers. -/
def FVal.isGivenNaN : FVal → Bool
  | .nan _ made => !made
  | .inf _ | .fin _ _ _ => false

/-- The exact product (R179, R189): 0 × inf makes a NaN. -/
def FVal.mul (x y : FVal) : FVal :=
  match x, y with
  | .nan _ a, .nan _ b => .nan false (a && b)
  | .nan _ a, _ => .nan false a
  | _, .nan _ a => .nan false a
  | .inf a, .inf b => .inf (a != b)
  | .inf a, .fin b m _ => if m = 0 then .nan false true else .inf (a != b)
  | .fin a m _, .inf b => if m = 0 then .nan false true else .inf (a != b)
  | .fin a m e, .fin b n k => .fin (a != b) (m * n) (e + k)

/-- The signed multiple of 2^lo that a finite value is. -/
def scaled (neg : Bool) (m : Nat) (e lo : Int) : Int :=
  let x : Int := (m * 2 ^ (e - lo).toNat : Nat)
  if neg then -x else x

/-- The exact sum of two values (R175): infinities of opposite sign make a NaN, an exact zero is +0 unless both are -0. -/
def FVal.add (x y : FVal) : FVal :=
  match x, y with
  | .nan _ a, .nan _ b => .nan false (a && b)
  | .nan _ a, _ => .nan false a
  | _, .nan _ a => .nan false a
  | .inf a, .inf b => if a = b then .inf a else .nan false true
  | .inf a, .fin _ _ _ => .inf a
  | .fin _ _ _, .inf a => .inf a
  | .fin a m e, .fin b n k =>
    if m = 0 && n = 0 then .fin (a && b) 0 0
    else
      let lo := min e k
      let z := scaled a m e lo + scaled b n k lo
      .fin (decide (z < 0)) z.natAbs lo

/-- A value rounded to fp32 or bf16; a NaN made here sets NV (R175, R176). -/
def FVal.round (ew : Nat) : FVal → Flagged
  | .nan _ made => (canonNaN ew, flagIf made flNV)
  | .inf n => ((fmtOf ew).signed n ((fmtOf ew).inf.getD 0), 0)
  | .fin n m e => rnd ew n m e

/-- A result of operands of which a signalling NaN sets NV (R189). -/
def withNaNs (ew : Nat) (ops : List FVal) (r : Flagged) : Flagged :=
  if ops.any FVal.isNaN then (canonNaN ew, flagIf (ops.any FVal.isSNaN) flNV) else r

/-- The fused form rnd(x × y + d) (R189): a product 0 × inf sets NV whatever the addend holds. -/
def fusedMA (ew : Nat) (x y d : FVal) : Flagged :=
  match x.mul y with
  | .nan _ true => (canonNaN ew, flNV)
  | p => withNaNs ew [x, y, d] ((p.add d).round ew)

/-- The integer square root by digits: `n` steps of two bits. -/
def sqrtFrom (x : Nat) : Nat → Nat
  | 0 => 0
  | n + 1 =>
    let r := 2 * sqrtFrom x n
    if (r + 1) * (r + 1) ≤ x / 4 ^ (63 - n) then r + 1 else r

/-- floor(√x) for x < 2^128. -/
def natSqrt (x : Nat) : Nat := sqrtFrom x 64

/-- rnd(√x) (R189). The root is taken to at least 27 bits; a bit below them says whether it is exact. -/
def fSqrt (ew : Nat) (x : Nat) : Flagged :=
  match (fmtOf ew).value x with
  | .nan s _ => (canonNaN ew, flagIf s flNV)
  | .inf false => (x, 0)
  | .inf true => (canonNaN ew, flNV)
  | .fin neg m e =>
    if m = 0 then (x, 0)
    else if neg then (canonNaN ew, flNV)
    else
      let k : Nat := if (e - 60) % 2 = 0 then 60 else 61
      let y := m * 2 ^ k
      let r := natSqrt y
      rnd ew false (2 * r + (if r * r = y then 0 else 1)) ((e - k) / 2 - 1)

/-- rnd(1/x) (R189). -/
def fRcp (ew : Nat) (x : Nat) : Flagged :=
  let f := fmtOf ew
  match f.value x with
  | .nan s _ => (canonNaN ew, flagIf s flNV)
  | .inf n => (f.signed n 0, 0)
  | .fin neg m e =>
    if m = 0 then (f.signed neg (f.inf.getD 0), flDZ)
    else
      let k : Nat := 64
      let q := 2 ^ k / m
      rnd ew neg (2 * q + (if 2 ^ k % m = 0 then 0 else 1)) (-(k : Int) - e - 1)

/-! ### Comparison (R177, R178) -/

/-- key(x) of R177. -/
def orderKey (ew x : Nat) : Nat := if x / 2 ^ (ew - 1) % 2 = 1 then 2 ^ ew - 1 - x else x + 2 ^ (ew - 1)

/-- rank(x) of R178. -/
def orderRank (ew x : Nat) : Nat := if ((fmtOf ew).value x).isNaN then 2 ^ ew else orderKey ew x

/-- Both encodings are zeros. -/
def bothZero (ew x y : Nat) : Bool := x % 2 ^ (ew - 1) = 0 && y % 2 ^ (ew - 1) = 0

/-- IEEE equality. -/
def fEq (ew x y : Nat) : Bool :=
  !((fmtOf ew).value x).isNaN && !((fmtOf ew).value y).isNaN && (x = y || bothZero ew x y)

/-- IEEE less-than. -/
def fLt (ew x y : Nat) : Bool :=
  !((fmtOf ew).value x).isNaN && !((fmtOf ew).value y).isNaN && !bothZero ew x y && orderKey ew x < orderKey ew y

/-- A signalling NaN among two operands. -/
def anySNaN (ew x y : Nat) : Bool := ((fmtOf ew).value x).isSNaN || ((fmtOf ew).value y).isSNaN

/-- VFMIN and VFMAX (R178); a signalling NaN sets NV (R189). -/
def fMinMax (ew : Nat) (maxi : Bool) (x y : Nat) : Flagged :=
  withNaNs ew [(fmtOf ew).value x, (fmtOf ew).value y]
    (if (orderKey ew x ≤ orderKey ew y) = !maxi then (x, 0) else (y, 0))

/-! ### The summation order (R179) -/

/-- The terms of a group that are finite and not zero, as sign, significand and exponent. -/
def finiteTerms (ts : List FVal) : List (Bool × Nat × Int) :=
  ts.filterMap fun t => match t with | .fin n m e => if m = 0 then none else some (n, m, e) | _ => none

/-- trunc(t / q), and whether a nonzero bit is dropped. -/
def truncTo (q : Int) (t : Bool × Nat × Int) : Int × Bool :=
  let sh := t.2.2 - q
  if 0 ≤ sh then (scaled t.1 t.2.1 t.2.2 q, false)
  else
    let d := 2 ^ (-sh).toNat
    let x : Int := (t.2.1 / d : Nat)
    (if t.1 then -x else x, t.2.1 % d ≠ 0)

/-- Whether a value is -0. -/
def FVal.isNegZero : FVal → Bool
  | .fin n m _ => n && m = 0
  | .inf _ | .nan _ _ => false

/-- gsum (R179). NV unless an input was a NaN. -/
def gsum (ts : List FVal) : Flagged :=
  let hasInf (n : Bool) : Bool := ts.contains (.inf n)
  if ts.any FVal.isNaN || (hasInf true && hasInf false) then (canonNaN 32, flagIf (!ts.any FVal.isGivenNaN) flNV)
  else if hasInf true then (0xFF800000, 0)
  else if hasInf false then (0x7F800000, 0)
  else
    match finiteTerms ts with
    | [] => (if ts.all FVal.isNegZero then 0x80000000 else 0, 0)
    | t :: rest =>
      let top := rest.foldl (fun m x => max m (floorLog x.2.1 x.2.2)) (floorLog t.2.1 t.2.2)
      let q := top - 46
      let parts := (t :: rest).map (truncTo q)
      let sum := (parts.map Prod.fst).foldl (· + ·) 0
      let lost := flagIf (parts.any Prod.snd) flNX
      if sum = 0 then (0, lost)
      else
        let r := rnd 32 (decide (sum < 0)) sum.natAbs q
        (r.1, r.2 ||| lost)

/-- The terms of group `g` of terms by element index. -/
def groupTerms (ts : List (Nat × FVal)) (g : Nat) : List FVal := (ts.filter fun t => t.1 / 32 = g).map Prod.snd

/-- Sum the groups in ascending order, each sum rounded to fp32; groups without terms are skipped (R179). -/
def sumGroups (ts : List (Nat × FVal)) : List Nat → Option Flagged → Option Flagged
  | [], r => r
  | g :: gs, r =>
    match groupTerms ts g with
    | [] => sumGroups ts gs r
    | xs =>
      let y := gsum xs
      match r with
      | none => sumGroups ts gs (some y)
      | some (x, f) =>
        let z := ((fp32.value x).add (fp32.value y.1)).round 32
        sumGroups ts gs (some (z.1, f ||| y.2 ||| z.2))

/-- A result that is an operand as it stands: of a NaN the canonical one, and no flag (R175). -/
def passed (ew x : Nat) : Nat := if ((fmtOf ew).value x).isNaN then canonNaN ew else x

/-- fsum (R179): `init` is in the format of the element width; at width 16 the fp32 result is rounded once more. -/
def fsum (ew : Nat) (init : Nat) (ts : List (Nat × FVal)) : Flagged :=
  match sumGroups ts (List.range 8) none with
  | none => (passed ew init, 0)
  | some (r, f) =>
    let z := (((fmtOf ew).value init).add (fp32.value r)).round 32
    let f1 := f ||| z.2
    if ew = 32 then (z.1, f1)
    else
      let n := (fp32.value z.1).round 16
      (n.1, f1 ||| n.2)

/-! ### Conversions (R190) -/

/-- VI2F. -/
def intToFloat (ew : Nat) (unsigned : Bool) (x : Nat) : Flagged :=
  let v : Int := if unsigned then (x : Int) else sextNat ew x
  rnd ew (decide (v < 0)) v.natAbs 0

/-- VF2I: a value outside the range, and a NaN, set NV and SAT and nothing else. -/
def floatToInt (ew : Nat) (unsigned rtz : Bool) (x : Nat) : Flagged :=
  let lo : Int := if unsigned then 0 else -(2 ^ (ew - 1) : Nat)
  let hi : Int := if unsigned then (2 ^ ew : Nat) - 1 else (2 ^ (ew - 1) : Nat) - 1
  let pat (v : Int) : Nat := (v % (2 ^ ew : Nat)).toNat
  match (fmtOf ew).value x with
  | .nan _ _ => (0, flNV ||| flSAT)
  | .inf n => (pat (if n then lo else hi), flNV ||| flSAT)
  | .fin neg m e =>
    let r : Nat × Bool :=
      if 0 ≤ e then (m * 2 ^ e.toNat, false)
      else
        let d := 2 ^ (-e).toNat
        let q := m / d
        let t := m % d
        (if !rtz && (d < 2 * t || (2 * t = d && q % 2 = 1)) then q + 1 else q, t ≠ 0)
    let v : Int := if neg then -(r.1 : Int) else r.1
    if v < lo then (pat lo, flNV ||| flSAT)
    else if hi < v then (pat hi, flNV ||| flSAT)
    else (pat v, flagIf r.2 flNX)

/-- An encoding of one lane format in the other, a signalling NaN setting NV (R190). -/
def convertFloat (src dst : Nat) (x : Nat) : Flagged :=
  let v := (fmtOf src).value x
  withNaNs dst [v] (v.round dst)

/-! ### Narrow formats and block scales (R174, R195 to R200) -/

/-- The value times 2^k. -/
def FVal.scale (k : Int) : FVal → FVal
  | .fin n m e => .fin n m (e + k)
  | v => v

/-- The exponent that an E8M0 scale stands for; none for 0xFF (R174). -/
def scaleExp (x : Nat) : Option Int := if x = 0xFF then none else some ((x : Int) - 127)

/-- The formats of UPKF and PCKF by number (Table 09.8). -/
def narrowFmt (n : Nat) : FloatFmt :=
  match n with | 0 => e4m3 | 1 => e5m2 | 2 => e3m2 | 3 => e2m1 | _ => bf16

/-- The NaN that PCKF packs (R199). -/
def packNaN (n : Nat) : Nat := match n with | 0 => 0x7F | 1 => 0x7E | 4 => 0x7FC0 | _ => 0

/-- UPKF of one element (R198). -/
def unpackFloat (n ew : Nat) (x s : Nat) : Flagged :=
  let v := (narrowFmt n).value x
  if v.isNaN then (canonNaN ew, flagIf v.isSNaN flNV)
  else
    match scaleExp s with
    | none => (canonNaN ew, flNV)
    | some k => (v.scale k).round ew

/-- PCKF of one element (R199). Format 4 rounds as bf16 results do; the narrow formats saturate, and a value outside their range sets NV (R176). -/
def packFloat (n ew : Nat) (x s : Nat) : Flagged :=
  let f := narrowFmt n
  let v := (fmtOf ew).value x
  if n = 4 then
    match scaleExp s with
    | none => (canonNaN 16, flNV)
    | some k => if v.isNaN then (canonNaN 16, flagIf v.isSNaN flNV) else (v.scale (-k)).round 16
  else
    match v, scaleExp s with
    | .nan _ _, _ | _, none => (packNaN n, flNV)
    | .inf neg, some _ =>
      match f.inf with
      | some i => (f.signed neg i, 0)
      | none => (f.signed neg f.maxFin, flSAT ||| flNV)
    | .fin neg m e, some k =>
      if f.beyond m (e - k) then (f.signed neg f.maxFin, flOF ||| flSAT ||| flNV ||| flNX)
      else
        let r := f.roundMag m (e - k)
        (f.signed neg r.1, flagIf r.2 flNX ||| flagIf (r.2 && f.tiny m (e - k)) flUF)

/-- VBSCL of one element (R196). -/
def scaleFloat (x s : Nat) : Flagged :=
  match scaleExp s with
  | none => (canonNaN 32, flNV)
  | some k => ((fp32.value x).scale k).round 32

/-- emax of R200. -/
def fmtEmax (n : Nat) : Int := match n with | 0 => 8 | 1 => 15 | 2 => 4 | _ => 2

/-- The scale that PSCL gives a block (R200). -/
def blockScale (n : Nat) (vs : List FVal) : Nat :=
  if vs.any FVal.isNaN then 0xFF
  else if vs.any (fun v => match v with | .inf _ => true | _ => false) then 254
  else
    match finiteTerms vs with
    | [] => 127
    | t :: rest =>
      let top := rest.foldl (fun m x => max m (floorLog x.2.1 x.2.2)) (floorLog t.2.1 t.2.2)
      (clampInt (top - fmtEmax n + 127) 0 254).toNat

end Sys2Proof.Machine
end

