-- ==== Sys2Proof/Machine/Rows.lean ====
section
/-!
DEFINITION. Sys2Proof/Machine/Rows.lean: writes under way (R17, R228), and what a delivered write does to the latches, the counters
and the accumulator rows of a core (R229, R230, R237).
-/

namespace Sys2Proof.Machine

/-! ### Writes under way (R17, R34) -/

/-- Enter a write in order of delivery, after those of the same cycle. -/
def Pending.insert {α : Type} (p : Pending α) : List (Pending α) → List (Pending α)
  | [] => [p]
  | x :: t => if p.due < x.due then p :: x :: t else x :: Pending.insert p t

/-- Enter a write after those of the same or an earlier slot (R313). -/
def Pending.enter {α : Type} (p : Pending α) : List (Pending α) → List (Pending α)
  | [] => [p]
  | x :: t => if p.born < x.born || (p.born = x.born && p.slot < x.slot) then p :: x :: t else x :: Pending.enter p t

/-- Writes in the order in which their slots issued. -/
def issueOrder {α : Type} (l : List (Pending α)) : List (Pending α) := l.foldl (fun ps p => Pending.enter p ps) []

/-- Apply every write due by cycle `t`; the others stay under way. -/
def settle {α β : Type} (f : β → α → β) (t : Nat) : List (Pending α) → β → β × List (Pending α)
  | [], x => (x, [])
  | p :: ps, x => if p.due ≤ t then settle f t ps (f x p.eff) else (x, p :: ps)

/-! ### Accumulator rows: lanes of 32 bits, 512 bytes a row (R165) -/

/-- `n` lanes from byte `off` on. -/
def Mem.lanes (m : Mem) (off : Nat) : Nat → List Nat
  | 0 => []
  | n + 1 => Mem.read m off 4 :: Mem.lanes m (off + 4) n

/-- The listed bytes of lanes from byte `off` on. -/
def laneCells (off : Nat) : List Nat → Mem
  | [] => []
  | x :: xs =>
    Cells.put off (BitVec.ofNat 8 x) (Cells.put (off + 1) (BitVec.ofNat 8 (x / 2 ^ 8)) (Cells.put (off + 2) (BitVec.ofNat 8 (x / 2 ^ 16))
      (Cells.put (off + 3) (BitVec.ofNat 8 (x / 2 ^ 24)) (laneCells (off + 4) xs))))

/-- Write lanes from byte `off` on. -/
def Mem.setLanes (m : Mem) (off : Nat) (xs : List Nat) : Mem := Cells.replace m off (off + 4 * xs.length) (laneCells off xs)

/-- A drained lane: the value clamped to 32 bits, SAT when it clamps (R230). -/
def drainLane (add : Bool) (old : Nat) (v : Int) : Nat × BitVec 32 :=
  let x := if add then sextNat 32 old + v else v
  let y := clampInt x (-(2 ^ 31)) (2 ^ 31 - 1)
  ((y % 2 ^ 32).toNat, flagIf (y ≠ x) flSAT)

/-- A scaled lane (R237): rnd(d + cf × x). -/
def scaleLane (cf : BitVec 16) (int : Bool) (d x : Nat) : Flagged :=
  let v : FVal := if int then .fin (decide (sextNat 32 x < 0)) (sextNat 32 x).natAbs 0 else fp32.value x
  fusedMA 32 (bf16.value cf.toNat) v (fp32.value d)

/-- What a delivered write does; its flags wait for the bank. -/
def PhysCore.write (c : PhysCore) : ArrayWrite → PhysCore
  | .latch true t vs => { c with top := Cells.setRun [] 0 vs, topTag := t }
  | .latch false t vs => { c with left := Cells.setRun [] 0 vs, leftTag := t }
  | .count vs => { c with counters := vs }
  | .rows off bs => { c with acc := c.acc.setBytes off bs }
  | .drain row vs add =>
    let off := 512 * row
    let rs := ((if add then c.acc.lanes off vs.length else vs.map fun _ => 0).zip vs).map fun p => drainLane add p.1 p.2
    { c with acc := c.acc.setLanes off (rs.map Prod.fst), flags := (rs.map Prod.snd).foldl (· ||| ·) c.flags }
  | .scale dst src cf int =>
    let rs := ((c.acc.lanes (512 * dst) 128).zip (c.acc.lanes (512 * src) 128)).map fun p => scaleLane cf int p.1 p.2
    { c with acc := c.acc.setLanes (512 * dst) (rs.map Prod.fst), flags := (rs.map Prod.snd).foldl (· ||| ·) c.flags }

/-- Deliver what is due by cycle `t` in the array state of a core. -/
def PhysCore.settle (t : Nat) (c : PhysCore) : PhysCore :=
  let r := Machine.settle PhysCore.write t c.pend c
  { r.1 with pend := r.2 }

end Sys2Proof.Machine
end

