-- ==== Sys2Proof/Machine/Trace.lean ====
section
/-!
DEFINITION. Sys2Proof/Machine/Trace.lean: debug blocks (R355), the trace ring (R356), trace records (R357), loop counters and their
records (R358), and the streams of the host link on which the device sends (R339, R343).
-/

namespace Sys2Proof.Machine

/-! ### Dies and TSW -/

/-- Replace a die. -/
def State.setDie (s : State) (d : Fin 64) (x : Die) : State := { s with dies := s.dies.set d.val x d.isLt }

/-- A die. -/
def State.die (s : State) (d : Fin 64) : Die := s.dies[d.val]

/-! ### TSW (Table 17.2) -/

def tswSup (t : Word) : Bool := t.getLsbD 0
def tswInh (t : Word) : Bool := t.getLsbD 8
def tswSs (t : Word) : Bool := t.getLsbD 10
def tswMcp (t : Word) : Bool := t.getLsbD 11
def tswSlot (t : Word) : Nat := bits t 15 13
def tswAsn (t : Word) : BitVec 16 := t.extractLsb' 48 16

/-! ### The debug block of a die (Table 20.1) -/

/-- Its physical address: 0x400 + 256·d from the heap descriptor table's base (R355). -/
def debugBase (d : Fin 64) : Nat := Config.heapTable + 0x400 + 256 * d.val

/-- A word of the settings in force. -/
def State.dbg (s : State) (d : Fin 64) (i : Nat) : Word := wordAt (s.die d).tracing.words i

/-- Tracing is enabled, and the ASN filter passes. -/
def State.traced (s : State) (d : Fin 64) (asn : BitVec 16) : Bool :=
  (s.dbg d 0).getLsbD 0 && (bits (s.dbg d 0) 63 48 = 0xFFFF || bits (s.dbg d 0) 63 48 = asn.toNat)

/-- Sampling interval: none, or 2^SLOG bundles. -/
def State.sampleLog (s : State) (d : Fin 64) : Nat := bits (s.dbg d 0) 12 8

/-- A word of trigger `i` (Table 20.2). -/
def State.trig (s : State) (d : Fin 64) (i k : Nat) : Word := s.dbg d (8 + 4 * i + k)

/-- TEN = 1 and ACT not reserved. -/
def State.trigOn (s : State) (d : Fin 64) (i : Nat) : Bool := (s.trig d i 0).getLsbD 0 && bits (s.trig d i 0) 2 1 < 2

/-- Some trigger of the die is enabled. -/
def State.anyTrig (s : State) (d : Fin 64) : Bool := (List.range 4).any (s.trigOn d)

/-- R359: sample and trap records are made while a window of the cluster is open, or no trigger is enabled. -/
def State.windowOpen (s : State) (c : ClusterId) : Bool :=
  !s.anyTrig c.die || (s.die c.die).tracing.windows.any fun p => p.1 = c.cluster

/-! ### Writing main memory -/

/-- A write of `n` bytes at `pa` clears the uncorrectable words that it covers whole (R72). -/
def coverWords (bad : List Nat) (pa n : Nat) : List Nat := bad.filter fun k => !(pa ≤ 8 * k && 8 * k + 8 ≤ pa + n)

/-- Write the `n` low bytes of a number in main memory. -/
def State.putBytes (s : State) (pa x n : Nat) : State :=
  { s with mem := s.mem.write pa x n, badWords := coverWords s.badWords pa n }

/-- Write a doubleword in main memory. -/
def State.putWord (s : State) (pa : Nat) (v : Word) : State := s.putBytes pa v.toNat 8

/-- A write that is performed at the home agents, of a host WRITE (R123) or of the trace: no copy is left. -/
def State.homeRun (s : State) (pa n : Nat) : State :=
  { s with lines := Cells.clear s.lines (64 * (pa / 128)) (64 * ((pa + n + 127) / 128)) }

/-! ### The ring (R356) -/

/-- PROD or LOST counts a record. The trace writes at the home agents (DESIGN CHOICE, log 16). -/
def State.countRecord (s : State) (d : Fin 64) (kept : Bool) : State :=
  let blk := debugBase d
  if kept then (s.putBytes (blk + 16) ((Mem.read s.mem (blk + 16) 4 + 1) % 2 ^ 32) 4).homeRun (blk + 16) 4
  else (s.putWord (blk + 24) (s.mem.word (blk + 24) + 1)).homeRun (blk + 24) 8

/-- Write a record: it goes into the ring and PROD advances, or the ring is full and LOST counts it. Of a ring that reaches past main memory
no rule says what becomes of a record there: it is not kept, and whether PROD or LOST counts it is a free value (DESIGN CHOICE, log 33). -/
def State.traceWrite (s : State) (d : Fin 64) (ws : List Word) : State :=
  let blk := debugBase d
  let rlog := bits (s.dbg d 2) 39 32
  let prod := Mem.read s.mem (blk + 16) 4
  let cons := Mem.read s.mem (blk + 32) 4
  let pa := (s.dbg d 1).toNat + 64 * (prod % 2 ^ rlog)
  if 2 ^ rlog ≤ (prod + 2 ^ 32 - cons) % 2 ^ 32 then s.countRecord d false
  else if Config.memTop < pa + 64 then { s with freeCtr := s.freeCtr + 1 }.countRecord d (Config.recordKept s.freeCtr)
  else ({ s with mem := s.mem.setWords pa ws, badWords := coverWords s.badWords pa (8 * ws.length) }.homeRun pa 64).countRecord d true

/-! ### Records (Table 20.3, Table 20.4) -/

/-- Words 0 to 2. -/
def traceHead (type : Nat) (c : ClusterId) (bank agent slot : Nat) (asn : BitVec 16) (pc : Word) (cycle : Nat) : List Word :=
  [BitVec.ofNat 64 (type * 2 ^ 56 + c.die.val * 2 ^ 50 + c.cluster.val * 2 ^ 47 + bank * 2 ^ 44 + agent * 2 ^ 40 + slot * 2 ^ 37 + asn.toNat),
   pc, BitVec.ofNat 64 cycle]

/-- Fill a record up to eight words. -/
def traceFill (ws : List Word) : List Word := ws ++ List.replicate (8 - ws.length) 0

/-- The counters of a loop level as words 3 to 7 of a type 5 record. -/
def loopRecord (level : Nat) (l : LoopLevel) : List Word :=
  let f (i : Nat) : Nat := (l.filled[i]?).getD 0
  let four (i : Nat) : Word := BitVec.ofNat 64 (f i + f (i + 1) * 2 ^ 16 + f (i + 2) * 2 ^ 32 + f (i + 3) * 2 ^ 48)
  [BitVec.ofNat 64 (l.issued * 2 ^ 32 + l.iter), four 0, four 4,
   BitVec.ofNat 64 (f 8 + f 9 * 2 ^ 16 + l.stall * 2 ^ 32), BitVec.ofNat 64 level]

/-- Type 5 records for the levels that were active before and are no longer (R358). -/
def loopExits (s : State) (old new : Vector LoopLevel 6) (bank : Fin 8) (asn : BitVec 16) (cycle : Nat) : State :=
  let c := s.cl.id
  if s.traced c.die asn && (s.dbg c.die 0).getLsbD 3 then
    (List.finRange 6).foldl (fun s l =>
      if (old[l.val]).active && !(new[l.val]).active then
        s.traceWrite c.die (traceHead 5 c bank.val 8 0 asn (new[l.val]).at_ cycle ++ loopRecord l.val new[l.val])
      else s) s
  else s

/-- A counter with `w` bits that saturates (R358). -/
def satCount (w n : Nat) : Nat := min n (2 ^ w - 1)

/-- An active level's body holds the bundle at `pc`. -/
def LoopLevel.holds (l : LoopLevel) (pc : Word) : Bool := l.active && l.start.toNat ≤ pc.toNat && pc.toNat ≤ l.last.toNat

/-- A bundle issues in a level: ISSUED counts it, FILLED the slots of each unit whose guard read 1 (R358). -/
def LoopLevel.issue (l : LoopLevel) (pc : Word) (units : List Nat) : LoopLevel :=
  if l.holds pc then
    { l with issued := satCount 32 (l.issued + 1),
             filled := Vector.ofFn fun i : Fin 10 => satCount 16 (l.filled[i.val] + (units.filter fun u => u = i.val).length) }
  else l

/-- Cycles in which an active level's bank issues nothing (R358). -/
def LoopLevel.stalls (l : LoopLevel) (n : Nat) : LoopLevel := if l.active then { l with stall := satCount 32 (l.stall + n) } else l

/-! ### Sending to the host (R338, R339, R343) -/

/-- A stream that has carried nothing. -/
def Stream.blank (id : Nat) : Stream := { id := id }

/-- A stream by number. -/
def State.stream (s : State) (id : Nat) : Stream := (s.streams.find? fun x => x.id = id).getD (Stream.blank id)

/-- Put a stream among the others, in rising order. -/
def putStream (x : Stream) : List Stream → List Stream
  | [] => [x]
  | y :: t => if y.id = x.id then x :: t else if x.id < y.id then x :: y :: t else y :: putStream x t

/-- Replace a stream. -/
def State.setStream (s : State) (x : Stream) : State := { s with streams := putStream x s.streams }

/-- Send a message on a stream: it takes the next sequence number and stays unacknowledged; the host receives it. -/
def State.send (s : State) (id : Nat) (m : HostMsg) : State :=
  let x := s.stream id
  let m1 := { m with version := 1, stream := BitVec.ofNat 16 id, len := BitVec.ofNat 16 m.payload.length,
                     seq := BitVec.ofNat 32 x.txNext, ack := BitVec.ofNat 32 x.rxNext,
                     frame := .ether s.etherType }
  { s.setStream { x with txNext := (x.txNext + 1) % 2 ^ 32, ackSent := x.rxNext, unacked := x.unacked ++ [m1] } with outbox := s.outbox ++ [m1] }

/-- A message with nothing in it. -/
def HostMsg.blank : HostMsg := ⟨1, 0, 0, 0, 0, 0, 0, 0, 0, 0, [], false, .other⟩

/-- NOTIFY (R343), on stream 0. -/
def State.notify (s : State) (addr arg : Word) (payload : List Byte) : State :=
  s.send 0 { HostMsg.blank with type := 8, addr := addr, arg := arg, payload := payload }

/-- The last part of the reply to a request (R338, R339): the stream keeps it, to answer a resent request with. -/
def State.reply (s : State) (m : HostMsg) (status : BitVec 8) (arg : Word) (payload : List Byte) (last : Bool := true) : State :=
  let id := m.stream.toNat
  let s1 := s.send id { HostMsg.blank with type := m.type, flags := if last then 3 else 1, status := status, addr := m.addr, arg := arg, payload := payload }
  let x := s1.stream id
  s1.setStream { x with replies := x.replies ++ (x.unacked.getLast?.toList.map fun r => (m.seq.toNat, r)) }

end Sys2Proof.Machine
end

