-- ==== Sys2Proof/Machine/Directory.lean ====
section
/-!
DEFINITION. Sys2Proof/Machine/Directory.lean: the second-level caches, their directory and load-blocks (R121 to R127), and
the coherence records of the trace (Table 20.4).
-/

namespace Sys2Proof.Machine

/-! ### The directory (R122, R123) -/

/-- Who asks a home agent: the cluster, the agent, and the slot (R357). -/
structure Requester where
  c : ClusterId
  agent : Fin 9
  src : Source
deriving DecidableEq, Repr

/-- An engine, or hardware that acts for no slot, in an address space. -/
def Requester.engine (c : ClusterId) (asn : BitVec 16) : Requester := ⟨c, 8, { asn := asn }⟩

/-- The state of a line in a die's cache (Table 20.4). -/
def State.lineAt (s : State) (d : Fin 64) (line : Nat) : Nat := (Cells.get s.lines (64 * line + d.val)).toNat

/-- Set it. -/
def State.setLine (s : State) (d : Fin 64) (line st : Nat) : State :=
  { s with lines := Cells.set s.lines (64 * line + d.val) (BitVec.ofNat 3 st) }

/-- The copies of a line in dies other than `d` become what `f` says. -/
def State.otherLines (s : State) (d : Fin 64) (line : Nat) (f : Nat → Nat) : State :=
  { s with lines := s.lines.filterMap fun p =>
      if p.1 / 64 = line && p.1 % 64 ≠ d.val then
        (let v : BitVec 3 := BitVec.ofNat 3 (f p.2.toNat)
         if v = 0 then none else some (p.1, v))
      else some p }

/-- The dies that hold a copy of a line, with its state. -/
def State.copies (s : State) (line : Nat) : List (Fin 64 × Nat) :=
  (Cells.slice s.lines (64 * line) (64 * line + 64)).map fun p => (Fin.ofNat 64 p.1, p.2.toNat)

/-- A type 4 record of a request (R355, R357): the slot, the line, the event, the states before and after. -/
def State.cohRecord (s : State) (q : Requester) (line event before after : Nat) : State :=
  let d := q.c.die
  if s.traced d q.src.asn && (s.dbg d 0).getLsbD 2 then
    s.traceWrite d (traceFill (traceHead 4 q.c q.src.bank q.agent.val q.src.slot q.src.asn q.src.pc q.src.cycle ++
      [BitVec.ofNat 64 (128 * line),
       BitVec.ofNat 64 (event + before * 2 ^ 8 + after * 2 ^ 11 + q.src.scope * 2 ^ 16 + d.val * 2 ^ 24)]))
  else s

/-- A dirty state, M or O, and the clean state that the written-back copy takes: M becomes E, O becomes S (DESIGN CHOICE, log 16). -/
def cleanState (st : Nat) : Nat := if st = 4 then 2 else if st = 3 then 1 else st

/-- A copy is written back where it is dirty, and removed where `drop` says so. -/
def State.dropCopy (s : State) (q : Requester) (line : Nat) (drop : Bool) (p : Fin 64 × Nat) : State :=
  let clean := cleanState p.2
  let s1 := if p.2 = clean then s else (s.setLine p.1 line clean).cohRecord q line 3 p.2 clean
  if drop then (s1.setLine p.1 line 0).cohRecord q line 5 clean 0 else s1

/-- A line of CFLUSH or CCLEAN (R131), for a requester: a dirty copy is written back and clean; CFLUSH (`flush`) then removes every copy. -/
def State.maintainCopies (q : Requester) (flush : Bool) (s : State) (line : Nat) : State :=
  (s.copies line).foldl (fun t p => t.dropCopy q line flush p) s

/-! ### Capacity and load-blocks (R121, R125) -/

/-- Lines of a slice: 256 KiB of 128 bytes (R121); blocks may have half of them (R125). -/
def sliceLines : Nat := 2048

/-- A block has its place under one tag in the slice. -/
def Block.tagged (b : Block) : Bool := !b.ordinary

/-- Its home slice, that of its first line. -/
def Block.slice (b : Block) : Fin 160 := Config.homeSlice b.first

/-- The line is one of the block's. -/
def Block.covers (b : Block) (line : Nat) : Bool :=
  b.tagged && b.first ≤ line && line < b.first + b.lines && !b.gone.contains line

/-- The lines of a die that lie in no block. -/
def State.ordinaryLines (s : State) (d : Fin 64) : List Nat :=
  (s.lines.filter fun p => p.1 % 64 = d.val && !((s.die d).blocks.any fun b => b.covers (p.1 / 64))).map fun p => p.1 / 64

/-- Lines that a list of blocks keeps. -/
def blockLines (bs : List Block) : Nat := (bs.map Block.lines).foldl (· + ·) 0

/-- The blocks of a die that stand under a tag. -/
def Die.tags (x : Die) : List Block := x.blocks.filter Block.tagged

/-- A line of a die leaves its cache; a dirty copy is written back. -/
def State.evictLine (s : State) (d : Fin 64) (line : Nat) : State :=
  let st := s.lineAt d line
  if st = 0 then s
  else
    let q := Requester.engine ⟨d, 0⟩ 0
    let s1 := if st = cleanState st then s else s.cohRecord q line 3 st (cleanState st)
    s1.setLine d line 0

/-- A complete block is evicted: its lines are gone, and its handle names none (Table 06.2). -/
def State.evictBlock (s : State) (d : Fin 64) (b : Block) : State :=
  let s1 := ((List.range b.lines).filter fun i => b.covers (b.first + i)).foldl (fun t i => t.evictLine d (b.first + i)) s
  let x := s1.die d
  s1.setDie d { x with blocks := x.blocks.filter fun y => !(y.num = b.num && y.done) }

/-- Room for `n` more lines in a slice: where it is full, one of its ordinary lines or complete blocks goes, whichever the replacement order names,
which is not architectural (R125; free, log 16). -/
def State.trimSlice (s : State) (d : Fin 64) (line n : Nat) : State :=
  let x := s.die d
  let all := s.ordinaryLines d
  if all.length + blockLines x.tags + n ≤ sliceLines then s
  else
    let sl := Config.homeSlice line
    let own := all.filter fun l => Config.homeSlice l = sl
    let tags := x.tags.filter fun b => b.slice = sl
    if own.length + blockLines tags + n ≤ sliceLines then s
    else
      let full := tags.filter Block.done
      let i := Config.victim s.freeCtr % (own.length + full.length)
      let s1 := { s with freeCtr := s.freeCtr + 1 }
      match own[i]? with
      | some l => s1.evictLine d l
      | none => match full[i - own.length]? with | some b => s1.evictBlock d b | none => s1

/-- A line enters the cache of a die. -/
def State.enterLine (s : State) (d : Fin 64) (line st : Nat) : State :=
  let s1 := if (s.die d).blocks.any fun b => b.covers line then s else s.trimSlice d line 1
  s1.setLine d line st

/-- The blocks of a slice make room for `n` lines of a new one: complete ones go, the oldest first, until there is room or none of them is left
(R125). Answers whether there is. -/
def State.makeBlock (s : State) (d : Fin 64) (line n : Nat) : Nat → State × Bool
  | 0 => (s, false)
  | fuel + 1 =>
    let tags := (s.die d).tags
    if blockLines tags + n ≤ sliceLines / 2 then (s, true)
    else
      let here := tags.filter fun b => b.slice = Config.homeSlice line
      if blockLines here + n ≤ sliceLines / 2 then (s, true)
      else
        match here.find? Block.done with
        | some b => State.makeBlock (s.evictBlock d b) d line n fuel
        | none => (s, false)

/-- Declare a block (R125): under a tag, with its place in the slice, or without one where the blocks of the slice leave no room. -/
def State.declare (s : State) (d : Fin 64) (first n : Nat) (src : Source) : State :=
  let r := s.makeBlock d first n ((s.die d).blocks.length + 1)
  let x := r.1.die d
  let s2 := r.1.setDie d { x with blocks := x.blocks ++ [{ num := x.nextBlock, first := first, lines := n, ordinary := !r.2, src := src }],
                                  nextBlock := x.nextBlock + 1 }
  if r.2 then (List.range n).foldl (fun t _ => t.trimSlice d first 0) s2 else s2

/-- A block loses its tag: its lines are ordinary lines of their own slices, which make room for them, and a fill under way goes on with
ordinary ones (R130). -/
def State.untag (s : State) (d : Fin 64) (num : Nat) : State :=
  let x := s.die d
  let s1 := s.setDie d
    { x with blocks := (x.blocks.filter fun b => !(b.num = num && b.done)).map fun b => if b.num = num then { b with ordinary := true } else b }
  (x.blocks.filter fun b => b.num = num && b.tagged).foldl
    (fun t b => (List.range b.lines).foldl (fun t i => t.trimSlice d (b.first + i) 0) t) s1

/-- A store of the die removes the line's copy from its block (R126): from then on it is an ordinary line. -/
def State.leaveBlock (s : State) (d : Fin 64) (line : Nat) : State :=
  let x := s.die d
  if x.blocks.any fun b => b.covers line then
    (s.setDie d { x with blocks := x.blocks.map fun b => if b.covers line then { b with gone := line :: b.gone } else b }).trimSlice d line 0
  else s

/-! ### Requests (R122, R123) -/

/-- A read brings a copy: exclusive where it is the only one, else shared (DESIGN CHOICE, log 16). A copy that is there asks nothing of the home
agent. -/
def State.readLine (s : State) (q : Requester) (line : Nat) : State :=
  let d := q.c.die
  if s.lineAt d line ≠ 0 then s
  else
    let after := if (s.copies line).isEmpty then 2 else 1
    ((s.otherLines d line fun x => if x = 4 then 3 else if x = 2 then 1 else x).enterLine d line after).cohRecord q line 1 0 after

/-- A store is performed with the line writable in the die: every other copy goes, one in a block too. -/
def State.ownLine (s0 : State) (q : Requester) (line : Nat) : State :=
  let d := q.c.die
  let s := s0.leaveBlock d line
  let st := s.lineAt d line
  if st = 4 then s
  else if st = 2 then s.setLine d line 4
  else ((s.otherLines d line fun _ => 0).enterLine d line 4).cohRecord q line 2 st 4

/-- Every cached copy on the device is removed, a dirty one written back. -/
def State.removeCopies (s : State) (q : Requester) (line : Nat) : State := (s.copies line).foldl (fun t p => t.dropCopy q line true p) s

/-- An atomic at the home agent (R123): every copy is removed, and none is left in the requesting die. -/
def State.homeLine (s : State) (q : Requester) (line : Nat) : State :=
  (s.removeCopies q line).cohRecord q line 4 (s.lineAt q.c.die line) 0

/-- A walk's read at the home agent changes no copy (R83, R123). The walker is an agent of its own, so the record names no slot (DEDUCED, log 16). -/
def State.walkLine (s : State) (q : Requester) (line : Nat) : State :=
  s.cohRecord q line 6 (s.lineAt q.c.die line) (s.lineAt q.c.die line)

/-- The physical lines of `n` bytes at `pa`. -/
def linesOf (pa n : Nat) : List Nat := if n = 0 then [] else (List.range ((pa + n - 1) / 128 + 1 - pa / 128)).map fun i => pa / 128 + i

/-- The lines of a run are read. -/
def State.readRun (s : State) (q : Requester) (pa n : Nat) : State := (linesOf pa n).foldl (fun t l => t.readLine q l) s

/-- The lines of a run are owned, to be stored to. -/
def State.ownRun (s : State) (q : Requester) (pa n : Nat) : State := (linesOf pa n).foldl (fun t l => t.ownLine q l) s

end Sys2Proof.Machine
end

