-- ==== Sys2Proof/Machine/Translate.lean ====
section
/-!
DEFINITION. Sys2Proof/Machine/Translate.lean: clusters of the device, address forms (R73 to R78), page tables (R79 to R83),
region classes (R84), pins (R113), TLBs and locked windows (R85 to R93).
-/

namespace Sys2Proof.Machine

/-- How a piece of work ends without its effect: a trap (cause, TVAL, the core or 8 for the sequencer), or a wait. -/
inductive Stop where
  | trap (cause : BitVec 8) (tval : Word) (agent : Fin 9)
  | hold
  /-- Waits in the heap barrier, which raise entries of the heaps' tables (R102). -/
  | holdRaise (entries : List (Fin 16 × Nat))
deriving DecidableEq, Repr

/-- An effect on the state, or why there is none. -/
abbrev Eff (α : Type) := Except Stop α

/-- Who accesses: the agent of the cluster (8 the sequencer and its engines), its ASN and supervisor state (R77, R84). -/
structure Who where
  agent : Fin 9
  asn : BitVec 16
  sup : Bool
deriving DecidableEq, Repr

/-- A trap of an agent. -/
def Who.trap {α : Type} (w : Who) (cause : BitVec 8) (tval : Word) : Eff α := .error (.trap cause tval w.agent)

/-- What an access does with its page (Table 04.4): `href` through an h register, `device` by a device engine, `nopin` without the
pin check of R113 (R129, R131). -/
structure Use where
  fetch : Bool := false
  write : Bool := false
  href : Bool := false
  device : Bool := false
  nopin : Bool := false
deriving DecidableEq, Repr

/-! ### Clusters by name -/

/-- The position of a cluster in the order of dies and clusters. -/
def clusterNum (c : ClusterId) : Nat := c.die.val * 8 + c.cluster.val

/-- The blank cluster of a name: what a cluster is right after reset. -/
def Cluster.blank (c : ClusterId) : Cluster := { id := c }

/-- A cluster of the device. Clusters not listed are as after reset. -/
def State.clusterAt (s : State) (c : ClusterId) : Cluster :=
  if s.cl.id = c then s.cl else (s.others.find? fun x => x.id = c).getD (Cluster.blank c)

/-- Put a cluster in its place among the others, in rising order. -/
def putCluster (x : Cluster) : List Cluster → List Cluster
  | [] => if x = Cluster.blank x.id then [] else [x]
  | y :: t =>
    if y.id = x.id then (if x = Cluster.blank x.id then t else x :: t)
    else if clusterNum x.id < clusterNum y.id then (if x = Cluster.blank x.id then y :: t else x :: y :: t)
    else y :: putCluster x t

/-- Replace a cluster. -/
def State.setCluster (s : State) (x : Cluster) : State :=
  if s.cl.id = x.id then { s with cl := x } else { s with others := putCluster x s.others }

/-- Work on another cluster from now on. -/
def State.focus (s : State) (c : ClusterId) : State :=
  if s.cl.id = c then s
  else
    let x := s.clusterAt c
    { s with cl := x, others := putCluster s.cl (s.others.filter fun y => y.id ≠ c) }

/-! ### The pool (R75 to R78, R154) -/

/-- Granules of a share (Table 08.1). -/
def partRf (p : BitVec 32) : Nat := bits p 1 0
@[inherit_doc partRf] def partSpad (p : BitVec 32) : Nat := bits p 13 8
@[inherit_doc partRf] def partAcc (p : BitVec 32) : Nat := bits p 21 16

/-- Size in bytes of the scratchpad or the accumulator share. -/
def shareSize (p : BitVec 32) (acc : Bool) : Nat := (if acc then partAcc p else partSpad p) * 65536

/-- The bytes of a share of a core's pool. -/
def PhysCore.share (k : PhysCore) (acc : Bool) : Mem := if acc then k.acc else k.spad

/-- Replace them. -/
def PhysCore.setShare (k : PhysCore) (acc : Bool) (m : Mem) : PhysCore :=
  if acc then { k with acc := m } else { k with spad := m }

/-- Replace a core of a cluster. -/
def Cluster.setCore (x : Cluster) (k : Fin 8) (c : PhysCore) : Cluster := { x with cores := x.cores.set k.val c k.isLt }

/-- Bit 56: a window address (R73). -/
def isWindow (va : Word) : Bool := va.getLsbD 56

/-- The KIND of a window address (Table 04.1). -/
def winKind (va : Word) : Nat := bits va 55 52

/-- A window address of kind 0 or 1. -/
def ownWindow (va : Word) : Bool := isWindow va && winKind va < 2

/-- R73: bits 63:57 are zero. -/
def chkForm (w : Who) (va : Word) : Eff Unit := if bits va 63 57 = 0 then .ok () else w.trap 0x05 va

/-- R74: natural alignment. -/
def chkAlign (w : Who) (va : Word) (size : Nat) : Eff Unit := if va.toNat % size = 0 then .ok () else w.trap 0x08 va

/-- The byte a window address names, or the window fault (R75 to R77). `own` is the cluster and core whose pool kinds 0
and 1 name; none for the sequencer. -/
def windowLoc (s : State) (w : Who) (here : ClusterId) (own : Option (Fin 8)) (va : Word) : Eff Loc :=
  let off := bits va 21 0
  let zeros := bits va 39 22 = 0
  let acc := winKind va % 2 = 1
  if winKind va < 2 then
    match own with
    | none => w.trap 0x07 va
    | some k =>
      if zeros && bits va 51 40 = 0 && off < shareSize (s.clusterAt here).part acc then .ok (.pool here k acc off)
      else w.trap 0x07 va
  else if winKind va < 4 then
    let c : ClusterId := ⟨Fin.ofNat 64 (bits va 51 46), Fin.ofNat 8 (bits va 45 43)⟩
    let x := s.clusterAt c
    if zeros && off < shareSize x.part acc && (w.sup || x.asn = w.asn) then
      .ok (.pool c (Fin.ofNat 8 (bits va 42 40)) acc off)
    else w.trap 0x07 va
  else w.trap 0x07 va

/-! ### Main memory (R70 to R72) -/

/-- An uncorrectable word under the `n` bytes at `pa` (R72). -/
def State.badAt (s : State) (pa n : Nat) : Bool := s.badWords.any fun k => pa / 8 ≤ k && k ≤ (pa + n - 1) / 8

/-- R71: a read of `n` bytes at `pa` that meets words with a single-bit error corrects them and counts them (count 1 of section 9). -/
def State.correct (s : State) (pa n : Nat) : State :=
  let hit := s.softWords.filter fun k => pa / 8 ≤ k && k ≤ (pa + n - 1) / 8
  if hit.isEmpty then s
  else { s with softWords := s.softWords.filter fun k => !hit.contains k,
                counts := Cells.set s.counts 0 (Cells.get s.counts 0 + BitVec.ofNat 64 hit.length) }

/-! ### Page tables (R79 to R83) -/

/-- The fields of an entry (Table 04.3). -/
def pteAddr (e : Word) : Nat := bits e 51 12 * 4096
def pteV (e : Word) : Bool := e.getLsbD 0
def pteLeaf (e : Word) : Bool := e.getLsbD 1

/-- malformed(e) of R82 for an entry at level `lv` (the root is not below any level: `root`). -/
def malformed (e : Word) (root : Bool) (lv : Nat) : Bool :=
  bits e 63 52 ≠ 0 || bits e 11 8 ≠ 0 ||
  (!pteLeaf e && bits e 7 2 ≠ 0) ||
  (pteLeaf e && !root && lv > 0 && pteAddr e % 2 ^ (if lv = 1 then 31 else if lv = 2 then 21 else 16) ≠ 0) ||
  (root && pteLeaf e) || (!root && lv = 3 && !pteLeaf e)

/-- Index bits of a level (Table 04.2). -/
def levelIndex (va : Word) (lv : Nat) : Nat :=
  match lv with
  | 0 => bits va 55 44
  | 1 => bits va 43 31
  | 2 => bits va 30 21
  | _ => bits va 20 16

/-- Offset bits of a leaf (R82). -/
def offBits (lv : Nat) : Nat := if lv = 1 then 31 else if lv = 2 then 21 else 16

/-- The doubleword of a page-table entry: an entry beyond main memory raises the protection trap, as an access through
such a leaf does (R82; DEDUCED, log 19), an uncorrectable one the machine check (R72), a single-bit error is corrected (R71). -/
def readPte (s : State) (w : Who) (va : Word) (pa : Nat) : Eff (State × Word) :=
  if pa + 8 > Config.memTop then w.trap 0x05 va
  else if s.badAt pa 8 then w.trap 0x16 va
  else .ok ((s.correct pa 8).walkLine (.engine s.cl.id w.asn) (pa / 128), s.mem.word pa)

/-- The levels of a walk from table `table` down (R82). -/
def walkFrom (w : Who) (va : Word) : List Nat → Nat → State → Eff (State × Leaf)
  | [], _, _ => w.trap 0x05 va
  | lv :: rest, table, s => do
    let (s1, e) ← readPte s w va (table + 8 * levelIndex va lv)
    if !pteV e then w.trap 0x04 va
    else if malformed e false lv then w.trap 0x05 va
    else if pteLeaf e then
      if lv = 0 then w.trap 0x05 va
      else
        let size := 2 ^ offBits lv
        .ok (s1, { base := bits va 55 0 / size * size, size := size, pa := pteAddr e, asn := w.asn, global := e.getLsbD 5,
                   sup := e.getLsbD 4, exec := e.getLsbD 3, write := e.getLsbD 2, cls := e.extractLsb' 6 2 })
    else walkFrom w va rest (pteAddr e) s1

/-- A walk (R82). -/
def walk (s : State) (w : Who) (va : Word) : Eff (State × Leaf) := do
  let (s1, e) ← readPte s w va (s.rootBase + 8 * w.asn.toNat)
  if !pteV e then w.trap 0x04 va
  else if malformed e true 0 then w.trap 0x05 va
  else walkFrom w va [0, 1, 2, 3] (pteAddr e) s1

/-! ### TLBs (R85 to R87) -/

/-- Whether an entry serves an access (R85). -/
def Leaf.matches (l : Leaf) (asn : BitVec 16) (va : Word) : Bool :=
  l.base ≤ bits va 55 0 && bits va 55 0 < l.base + l.size && (l.global || l.asn = asn)

/-- The first-level TLB of an agent of the cluster. -/
def Cluster.tlbOf (x : Cluster) (a : Fin 9) : List Leaf :=
  if h : a.val < 8 then (x.cores[a.val]).tlb else x.tlb

/-- Replace it. -/
def Cluster.setTlb (x : Cluster) (a : Fin 9) (l : List Leaf) : Cluster :=
  if h : a.val < 8 then x.setCore ⟨a.val, h⟩ { x.cores[a.val] with tlb := l } else { x with tlb := l }

/-- The translation of an address by an agent of the current cluster: first-level TLB, second-level TLB, walk. A leaf
that is found is entered in both; a first-level TLB keeps its newest 64 entries (R85 to R87). -/
def translate (s : State) (w : Who) (va : Word) : Eff (State × Leaf) :=
  let l1 := s.cl.tlbOf w.agent
  match l1.find? fun l => l.matches w.asn va with
  | some l => .ok (s, l)
  | none =>
    let d := s.die s.cl.id.die
    match d.l2.find? fun l => l.matches w.asn va with
    | some l => .ok ({ s with cl := s.cl.setTlb w.agent ((l :: l1).take 64) }, l)
    | none =>
      match walk s w va with
      | .error e => .error e
      | .ok (s1, l) =>
        .ok (({ s1 with cl := s1.cl.setTlb w.agent ((l :: l1).take 64) }).setDie s1.cl.id.die { d with l2 := l :: d.l2 }, l)

/-! ### Region classes and pins -/

/-- A heap descriptor word (Table 05.1). Every access reads the descriptor as it stands: of a field that is changed while EN = 1 it acts on the
new value (R96 leaves old or new open; DESIGN CHOICE, log 35). -/
def heapWord (s : State) (n : Fin 16) (k : Nat) : Word := s.mem.word (Config.heapTable + 64 * n.val + 8 * k)

/-- The enabled heap whose range holds an address (R113). -/
def heapOf (s : State) (va : Word) : Option (Fin 16) :=
  (List.finRange 16).find? fun n =>
    (heapWord s n 0).getLsbD 0 && (heapWord s n 4).toNat ≤ va.toNat && va.toNat < (heapWord s n 4).toNat + (heapWord s n 5).toNat

/-- The physical place of a descriptor word. -/
def heapPlaceOf (n : Fin 16) (k : Nat) : Nat := Config.heapTable + 64 * n.val + 8 * k

/-- The pin counter of the page of an address of a heap lies here (R96). -/
def pinCounter (s : State) (n : Fin 16) (va : Word) : Nat :=
  (heapWord s n 6).toNat + 4 * ((va.toNat - (heapWord s n 4).toNat) / 65536)

/-- R113: a raw access to a managed-heap page needs a pin. -/
def pinned (s : State) (va : Word) : Bool :=
  match heapOf s va with
  | some n => s.mem.read (pinCounter s n va) 4 ≠ 0
  | none => false

/-- The words that the pin check of an address reads (R71, R72). -/
def pinReads (s : State) (va : Word) : List Nat :=
  match heapOf s va with
  | some n => [heapPlaceOf n 0, heapPlaceOf n 4, heapPlaceOf n 5, heapPlaceOf n 6, pinCounter s n va / 8 * 8]
  | none => []

/-- The hardware's own reads of words in main memory correct single-bit errors (R71). -/
def State.correctAll (s : State) (ws : List Nat) : State := ws.foldl (fun t pa => t.correct pa 8) s

/-- An uncorrectable word among them is a machine check of the access for which they are read (R72). -/
def State.badAmong (s : State) (ws : List Nat) : Bool := ws.any fun pa => s.badAt pa 8

/-- The access is one whose pin is checked (R113). -/
def pinChecked (u : Use) (l : Leaf) : Bool := l.cls = 1 && !u.href && !u.nopin

/-- The checks of Table 04.4 after translation, then the pin (R84, R113). -/
def chkLeaf (s : State) (w : Who) (u : Use) (l : Leaf) (va : Word) : Eff Unit :=
  let sup := w.sup || u.device
  let bad :=
    (l.sup && !sup) || (u.write && !l.write) || (u.href && l.cls ≠ 1) ||
    (if u.fetch then l.cls ≠ 0 || !l.exec
     else if l.cls = 2 then u.write
     else l.cls = 3 && !sup)
  if bad then w.trap 0x05 va
  else if pinChecked u l then
    (if s.badAmong (pinReads s va) then w.trap 0x16 va else if !pinned s va then w.trap 0x0B va else .ok ())
  else .ok ()

/-- The words that the checks have read are correct again. -/
def pinCorrect (s : State) (u : Use) (l : Leaf) (va : Word) : State := if pinChecked u l then s.correctAll (pinReads s va) else s

/-- The physical byte of an address in a leaf; beyond main memory the protection trap (R82). -/
def leafLoc (w : Who) (l : Leaf) (va : Word) (size : Nat) : Eff Nat :=
  let pa := l.pa + (bits va 55 0 - l.base)
  if pa + size > Config.memTop then w.trap 0x05 va else .ok pa

/-- The locked window of a core that an address lies in (R92, R93). -/
def lockOf (s : State) (a : Fin 9) (va : Word) : Option LockWin :=
  if h : a.val < 8 then
    ((s.cl.bank.cores[a.val]).lock.toList.filterMap id).find? fun x => x.base ≤ va.toNat && va.toNat < x.base + x.size
  else none

/-- The leaf that an access uses: the locked window's entry where there is one (R93), else the TLBs. -/
def findLeaf (s : State) (w : Who) (va : Word) : Eff (State × Leaf) :=
  match lockOf s w.agent va with
  | some x =>
    match x.leaf with
    | some l => if l.base ≤ va.toNat && va.toNat < l.base + l.size then .ok (s, l) else w.trap 0x06 va
    | none => w.trap 0x06 va
  | none => translate s w va

/-- The core of an agent. -/
def coreOf (a : Fin 9) : Option (Fin 8) := if h : a.val < 8 then some ⟨a.val, h⟩ else none

/-- Translate and check an access of `size` bytes whose form and alignment have been checked: its location. -/
def locate (s : State) (w : Who) (u : Use) (va : Word) (size : Nat) : Eff (State × Loc) :=
  if isWindow va then
    match windowLoc s w s.cl.id (coreOf w.agent) va with
    | .ok l => .ok (s, l)
    | .error e => .error e
  else
    match findLeaf s w va with
    | .error e => .error e
    | .ok (s1, l) =>
      match chkLeaf s1 w u l va with
      | .error e => .error e
      | .ok _ =>
        match leafLoc w l va size with
        | .ok pa => .ok (pinCorrect s1 u l va, .mem pa)
        | .error e => .error e

/-! ### Bytes at a location -/

/-- Core k's cycle when the sequencer is at cycle `t` (R16, R34). -/
def coreCycle (t : Nat) (skew : BitVec 2) (k : Nat) : Nat := t + k * skew.toNat

/-- A core of a cluster with the array writes delivered that are due by now. -/
def Cluster.coreNow (y : Cluster) (k : Fin 8) : PhysCore := (y.cores[k.val]).settle (coreCycle y.time y.bank.skew k.val)

/-- Read `n` bytes at a location as a number (R5). -/
def State.readLoc (s : State) (l : Loc) (n : Nat) : Nat :=
  match l with
  | .mem pa => s.mem.read pa n
  | .pool c k acc off => (((s.clusterAt c).coreNow k).share acc).read off n

/-- The commands that have set the ERR of a barrier. -/
def forgetCmds (gone : Loc → Bool) (l : List Command) : List Command :=
  l.map fun x => if x.onBar.any gone then { x with onBar := none } else x

/-- The ERR of the barriers that `gone` names has been cleared: their errors are no longer reported (R138). -/
def Cluster.forgetErrs (gone : Loc → Bool) (c : Cluster) : Cluster :=
  { c with cmds := forgetCmds gone c.cmds, barTold := c.barTold.filter fun p => !gone p.2.1,
           shadows := c.shadows.map fun (x : Shadow) => { x with cmds := forgetCmds gone x.cmds } }

/-- The barrier words under `n` bytes of a scratchpad in which ERR is 0 (Table 07.6). -/
def errClear (m : Mem) (c : ClusterId) (k : Fin 8) (off n : Nat) (l : Loc) : Bool :=
  match l with
  | .pool d j false o => d = c && j = k && o < off + n && off < o + 8 && !(m.word o).getLsbD 62
  | .pool _ _ true _ | .mem _ => false

/-- Some barrier's error is held. -/
def State.anyErrs (s : State) : Bool :=
  (s.cl :: s.others).any fun c =>
    !c.barTold.isEmpty || c.cmds.any (fun x => x.onBar.isSome) || c.shadows.any fun x => x.cmds.any fun y => y.onBar.isSome

/-- Write the `n` low bytes of a number at a location. A barrier word that is left with ERR = 0 has its errors forgotten (R138). -/
def State.writeLoc (s : State) (l : Loc) (x n : Nat) : State :=
  match l with
  | .mem pa => s.putBytes pa x n
  | .pool c k acc off =>
    let y := s.clusterAt c
    let core := y.coreNow k
    let m := (core.share acc).write off x n
    let s1 := s.setCluster (y.setCore k (core.setShare acc m))
    if acc || !s1.anyErrs then s1
    else { s1 with cl := s1.cl.forgetErrs (errClear m c k off n), others := s1.others.map (Cluster.forgetErrs (errClear m c k off n)) }

/-- R72: a read of `n` bytes meets an uncorrectable word. -/
def State.badRead (s : State) (l : Loc) (n : Nat) : Bool :=
  match l with
  | .mem pa => s.badAt pa n
  | .pool _ _ _ _ => false

/-- R72: a write that covers only part of an uncorrectable word. -/
def State.badWrite (s : State) (l : Loc) (n : Nat) : Bool :=
  match l with
  | .mem pa => (coverWords s.badWords pa n).any fun k => pa / 8 ≤ k && k ≤ (pa + n - 1) / 8
  | .pool _ _ _ _ => false

/-- R71 at a location. -/
def State.correctLoc (s : State) (l : Loc) (n : Nat) : State :=
  match l with
  | .mem pa => s.correct pa n
  | .pool _ _ _ _ => s

end Sys2Proof.Machine
end

