-- ==== Sys2Proof/Machine/Parts.lean ====
section
/-!
DEFINITION. Sys2Proof/Machine/Parts.lean: the parts of the state by name, operands as the slots of the open bundle read them (R34), and what a
register write does.
-/

namespace Sys2Proof.Machine

/-! ### Parts of the state -/

/-- The running bank of the current cluster. -/
def State.bank (s : State) : Bank := s.cl.bank

/-- Change the current cluster. -/
def State.modCl (s : State) (f : Cluster → Cluster) : State := { s with cl := f s.cl }

/-- Change the running bank. -/
def State.modBank (s : State) (f : Bank → Bank) : State := { s with cl := { s.cl with bank := f s.cl.bank } }

/-- The bundle of a cluster in which none is open. -/
def OpenBundle.blank : OpenBundle :=
  { pc := 0, slots := [], idx := 0, snap := {}, guards := 0, sampled := {} }

/-- The open bundle. -/
def State.opn (s : State) : OpenBundle := s.cl.opn.getD OpenBundle.blank

/-- Change the open bundle. -/
def State.modOpn (s : State) (f : OpenBundle → OpenBundle) : State := { s with cl := { s.cl with opn := s.cl.opn.map f } }

/-- The slot that is being performed. -/
def State.slot (s : State) : Option Slot := (s.opn.slots[s.opn.idx]?).bind fun f => f.slot

/-- Its word. -/
def State.slotWord (s : State) : Word := ((s.opn.slots[s.opn.idx]?).map fun f => f.word.setWidth 64).getD 0

/-- The register of a slot whose only operand is a sequencer register or predicate. -/
def State.sole (s : State) : Fin 32 := (s.slot.map Slot.sole).getD 0

/-- Change a core of the running bank. -/
def State.modCoreBank (s : State) (k : Fin 8) (f : CoreBank → CoreBank) : State :=
  s.modBank fun b => { b with cores := b.cores.set k.val (f b.cores[k.val]) k.isLt }

/-- Change a core of the current cluster. -/
def State.modCore (s : State) (k : Fin 8) (f : PhysCore → PhysCore) : State :=
  s.modCl fun c => { c with cores := c.cores.set k.val (f c.cores[k.val]) k.isLt }

/-- Change every bank of a cluster, those in shadow slots too. -/
def Cluster.mapBanks (f : Bank → Bank) (c : Cluster) : Cluster :=
  { c with bank := f c.bank, banks := c.banks.map f, shadows := c.shadows.map fun (x : Shadow) => { x with banks := x.banks.map f } }

/-- A bank of the current cluster, wherever its content stands. -/
def State.bankAt (s : State) (i : Fin 8) : Bank := if s.cl.run = some i then s.cl.bank else s.cl.banks[i.val]

/-- Change it. -/
def State.setBankAt (s : State) (i : Fin 8) (b : Bank) : State :=
  if s.cl.run = some i then s.modBank fun _ => b
  else s.modCl fun c => { c with banks := c.banks.set i.val b i.isLt }

/-- The running bank's number. -/
def State.bankNo (s : State) : Fin 8 := s.cl.run.getD 0

/-- The cluster's cycles, those in which it is frozen among them. -/
def Cluster.clock (c : Cluster) : Nat := c.time + c.frozen

/-- The schedule cycle of the current cluster (R357). -/
def State.now (s : State) : Nat := max s.cycle s.cl.clock

/-- TSTEP in this cycle (R351): it goes on by 1 for every 4096 cycles since `tstepAt` while the device is aligned. -/
def State.tstepNow (s : State) : Nat := if s.aligned then (s.tstep + (s.now - s.tstepAt) / 4096) % 2 ^ 64 else s.tstep

/-! ### Reading operands (R34) -/

/-- s_r as the slot reads it; s0 reads zero (Table 01.5). -/
def State.rs (s : State) (r : Fin 32) : Word := if r.val = 0 then 0 else s.opn.snap.seq.s[r.val]

/-- q_r as the slot reads it; q0 reads 1 (Table 01.5). -/
def State.rq (s : State) (r : Fin 32) : Bool := r.val == 0 || s.opn.snap.seq.q.getLsbD r.val

/-- The reference register h_r of the sequencer. -/
def State.rh (s : State) (r : Fin 16) : Word := s.opn.snap.seq.h[r.val]

/-- a_r of core k. -/
def State.ra (s : State) (k : Fin 8) (r : Fin 16) : Word := (s.opn.snap.cores[k.val]).a[r.val]

/-- v_r of core k. -/
def State.rv (s : State) (k : Fin 8) (r : Fin 16) : VReg := (s.opn.snap.cores[k.val]).v[r.val]

/-- m_r of core k. -/
def State.rm (s : State) (k : Fin 8) (r : Fin 4) : MReg := (s.opn.snap.cores[k.val]).m[r.val]

/-- h_r of core k. -/
def State.rch (s : State) (k : Fin 8) (r : Fin 16) : Word := (s.opn.snap.cores[k.val]).h[r.val]

/-- Core k executes the core-side slots of the open bundle (R46). -/
def State.enabled (s : State) (k : Fin 8) : Bool := s.opn.sampled.coreEn.getLsbD k.val

/-- Supervisor state of the open bundle's task (R312). -/
def State.sup (s : State) : Bool := tswSup s.opn.regs.tsw

/-- The ASN of the open bundle's task (R79). -/
def State.asn (s : State) : BitVec 16 := tswAsn s.opn.regs.tsw

/-- An agent of the open bundle. -/
def State.who (s : State) (a : Fin 9) : Who := ⟨a, s.asn, s.sup⟩

/-- The sequencer. -/
def State.seqWho (s : State) : Who := s.who 8

/-- An immediate of `w` bits, with the value of an EXT before the slot (R31). -/
def State.extImm (s : State) (w : Nat) (imm : Nat) : Int :=
  match s.opn.ext with
  | some x => sextNat (w + 16) (x.toNat * 2 ^ w + imm)
  | none => sextNat w imm

/-- The ordering and scope of the slot (R32). -/
def State.ordAcq (s : State) : Bool := match s.opn.ord with | some (_, o) => o.val % 2 = 1 | none => false
@[inherit_doc State.ordAcq] def State.ordRel (s : State) : Bool := match s.opn.ord with | some (_, o) => o.val ≥ 2 | none => false

/-! ### Applying writes -/

/-- A bit of a predicate file. -/
def setQ (q : BitVec 32) (r : Fin 32) (v : Bool) : BitVec 32 :=
  if r.val = 0 then q else if v then q ||| BitVec.twoPow 32 r.val else q &&& ~~~(BitVec.twoPow 32 r.val)

/-- Apply a register write to the general registers. -/
def SeqFile.write (f : SeqFile) : SeqWrite → SeqFile
  | .s r v => if r.val = 0 then f else { f with s := f.s.set r.val v r.isLt }
  | .q r v => { f with q := setQ f.q r v }
  | .h r v => { f with h := f.h.set r.val v r.isLt }
  | .tsw _ | .slen _ | .coreEn _ | .skew _ | .vl _ | .vtype _ | .vset _ _ | .tvb _ | .tpc _ | .tcause _ | .tval _ => f

/-- The bits of TSW that MTS writes (R312): ASN, SLOT, SS, INH, SUP. -/
def tswWritable : Word := 0xFFFF00000000E501

/-- The value of TSW after an MTS of `v`: MCP is kept and the zero fields stay zero (R312). -/
def tswWrite (old v : Word) : Word := (v &&& tswWritable) ||| (old &&& 0x800)

/-- Apply a write to the sequencer bank. -/
def Bank.write (b : Bank) (w : SeqWrite) : Bank :=
  match w with
  | .s _ _ | .q _ _ | .h _ _ => { b with file := b.file.write w }
  | .tsw v => { b with tsw := tswWrite b.tsw v }
  | .slen v => { b with slen := v }
  | .coreEn v => { b with coreEn := v }
  | .skew v => { b with skew := v }
  | .vl v => { b with vl := v }
  | .vtype v => { b with vtype := v }
  | .vset l t => { b with vl := l, vtype := t }
  | .tvb v => { b with tvb := v }
  | .tpc v => { b with tpc := v }
  | .tcause v => { b with tcause := v }
  | .tval v => { b with tval := v }

/-- The bits of `new` under a mask, the others of `old`. -/
def blend {w : Nat} (old new mask : BitVec w) : BitVec w := (new &&& mask) ||| (old &&& ~~~mask)

/-- Apply a write to the registers of a core bank. -/
def CoreFile.write (f : CoreFile) : CoreWrite → CoreFile
  | .a r v => { f with a := f.a.set r.val v r.isLt }
  | .v r x m => { f with v := f.v.set r.val (blend f.v[r.val] x m) r.isLt }
  | .m r x m => { f with m := f.m.set r.val (blend f.m[r.val] x m) r.isLt }
  | .h r v => { f with h := f.h.set r.val v r.isLt }
  | .flags x => { f with vflags := f.vflags ||| x }
  | .clear x => { f with vflags := f.vflags &&& ~~~x }
  | .stride _ _ _ => f

/-- Apply a write to a core bank. -/
def CoreBank.write (c : CoreBank) (w : CoreWrite) : CoreBank :=
  match w with
  | .stride r l v => { c with stride := c.stride.set r.val ((c.stride[r.val]).set l.val v l.isLt) r.isLt }
  | .a _ _ | .v _ _ _ | .m _ _ _ | .h _ _ | .flags _ | .clear _ => { c with file := c.file.write w }

end Sys2Proof.Machine
end

