-- ==== Sys2Proof/Machine/Perform.lean ====
section
/-!
DEFINITION. Sys2Proof/Machine/Perform.lean: performing memory accesses: the order in which they may be performed (R298, R301), what they do
(R72, R308, R317), the directory (R122, R123), and retirement in issue order (R59, R162).
-/

namespace Sys2Proof.Machine

/-! ### Values -/

/-- The value of `n` bytes read, extended to 64 bits (R58). -/
def extend (signed : Bool) (n : Nat) (x : Word) : Word :=
  if signed then toWord (sextNat (8 * n) x.toNat) else BitVec.ofNat 64 (x.toNat % 2 ^ (8 * n))

/-- The new value of an atomic of `n` bytes (R308); none when a cas fails. -/
def rmwValue (r : Rmw) (n : Nat) (old : Nat) : Option Nat :=
  let m := 2 ^ (8 * n)
  let x := r.x.toNat % m
  match r.op.val with
  | 0 => some x
  | 1 => some ((old + x) % m)
  | 2 => some (old &&& x)
  | 3 => some (old ||| x)
  | 4 => some (old ^^^ x)
  | 5 => some (if sextNat (8 * n) old ≤ sextNat (8 * n) x then old else x)
  | 6 => some (if sextNat (8 * n) old ≥ sextNat (8 * n) x then old else x)
  | _ => if old = r.cmp.toNat % m then some x else none

/-! ### Order (R298, R301) -/

/-- Two locations share a byte. -/
def Loc.overlap (a : Loc) (n : Nat) (b : Loc) (m : Nat) : Bool :=
  match a, b with
  | .mem p, .mem q => p < q + m && q < p + n
  | .pool c k x p, .pool d l y q => c = d && k = l && x == y && p < q + m && q < p + n
  | _, _ => false

/-- An operation has accesses that are not performed. -/
def MemOp.live (o : MemOp) : Bool := o.accs.any fun a => !a.done

/-- Whether access `a` of operation `o` may be performed, given the operations before it (R298, R301). -/
def mayPerform (earlier : List MemOp) (o : MemOp) (j : Nat) (a : Access) : Bool :=
  !a.done &&
  (earlier.all fun e => e.agent ≠ o.agent ||
    (!(e.live && (e.acquire || o.release || decide (e.id < o.fence))) &&
     e.accs.all fun x => x.done || !x.loc.overlap x.size a.loc a.size)) &&
  ((o.accs.take j).all fun x => x.done || !x.loc.overlap x.size a.loc a.size)

/-! ### Performance -/

/-- Perform one access at its location (R72, R308). -/
def performAcc (s : State) (a : Access) : State × Access :=
  match a.kind with
  | .load =>
    if s.badRead a.loc a.size then (s, { a with done := true, bad := true })
    else (s.correctLoc a.loc a.size, { a with done := true, val := BitVec.ofNat 64 (s.readLoc a.loc a.size) })
  | .store d =>
    if s.badWrite a.loc a.size then (s, { a with done := true, bad := true })
    else (s.writeLoc a.loc d.toNat a.size, { a with done := true })
  | .rmw r =>
    if s.badRead a.loc a.size then (s, { a with done := true, bad := true })
    else
      let s1 := s.correctLoc a.loc a.size
      let old := s1.readLoc a.loc a.size
      let a1 := { a with done := true, val := BitVec.ofNat 64 old }
      match rmwValue r a.size old with
      | some new => (s1.writeLoc a.loc new a.size, a1)
      | none => (s1, a1)

/-- The directory's part in an access of the current cluster (R122, R123): a read brings a copy, a store owns the line, an atomic leaves no
copy. -/
def cohAccess (s : State) (o : MemOp) (a : Access) : State :=
  match a.loc with
  | .pool _ _ _ _ => s
  | .mem pa =>
    let q : Requester := ⟨s.cl.id, o.agent, o.src⟩
    match a.kind with
    | .load => s.readLine q (pa / 128)
    | .store _ => s.ownLine q (pa / 128)
    | .rmw _ => s.homeLine q (pa / 128)

/-- R317: the bank records the first machine check of an asynchronous access. -/
def Bank.noteCheck (b : Bank) (a : Access) : Bank :=
  if a.bad then
    if tswMcp b.tsw then b else { b with tsw := b.tsw ||| 0x800, mcAddr := a.va }
  else b

/-- Perform access `j` of operation `id` in a list of operations, if the order allows it. -/
def performIn (s : State) (id j : Nat) (force : Bool) : List MemOp → List MemOp → Option (State × List MemOp × Access)
  | _, [] => none
  | earlier, o :: rest =>
    if o.id = id then
      match o.accs[j]? with
      | none => none
      | some a =>
        if (if force then !a.done else mayPerform earlier o j a) then
          let r := performAcc s a
          some (cohAccess r.1 o a, earlier ++ { o with accs := o.accs.set j r.2 } :: rest, r.2)
        else none
    else performIn s id j force (earlier ++ [o]) rest

/-! ### Retirement (R59, R162, R167) -/

/-- The bits of element `i` of a vector group in its register, and the register's offset in the group. -/
def elemMask (ew i : Nat) : Nat × VReg :=
  (i * ew / 1024, BitVec.ofNat 1024 ((2 ^ ew - 1) * 2 ^ (i * ew % 1024)))

/-- Register `r + i` of a group. -/
def regPlus (r : Fin 16) (i : Nat) : Fin 16 := Fin.ofNat 16 (r.val + i)

/-- The register writes of a completed operation: what the destination becomes. -/
def MemOp.writes (o : MemOp) : List (SeqWrite ⊕ CoreWrite) :=
  match o.dest, o.accs.head? with
  | .none, _ => []
  | .seqS r n sg, some a => if a.bad || r.val = 0 then [] else [.inl (.s r (extend sg n a.val))]
  | .coreA r n sg, some a => if a.bad then [] else [.inr (.a r (extend sg n a.val))]
  | .seqH r, some a => if a.bad then [] else [.inl (.h r a.val)]
  | .coreH r, some a => if a.bad then [] else [.inr (.h r a.val)]
  | .coreV r ew fill, _ =>
    (o.accs.filter fun a => !a.bad).map (fun a =>
      let m := elemMask ew a.elem
      .inr (.v (regPlus r m.1) (BitVec.ofNat 1024 (a.val.toNat % 2 ^ ew * 2 ^ (a.elem * ew % 1024))) m.2)) ++
    fill.map fun p => .inr (.v p.1 (BitVec.allOnes 1024) p.2)
  | _, none => []

/-- The write that restores what a write replaces. -/
def SeqFile.undo (f : SeqFile) : SeqWrite → Option SeqWrite
  | .s r _ => some (.s r f.s[r.val])
  | .h r _ => some (.h r f.h[r.val])
  | _ => none

@[inherit_doc SeqFile.undo] def CoreFile.undo (f : CoreFile) : CoreWrite → CoreWrite
  | .a r _ => .a r f.a[r.val]
  | .v r _ m => .v r f.v[r.val] m
  | .m r _ m => .m r f.m[r.val] m
  | .h r _ => .h r f.h[r.val]
  | .flags _ | .clear _ | .stride _ _ _ => .flags 0

/-- Apply the register writes of an operation, each with the window that it leaves open until WAIT (R59). -/
def Bank.retireWrites (b : Bank) (o : MemOp) : List (SeqWrite ⊕ CoreWrite) → Bank
  | [] => b
  | .inl w :: ws =>
    let win : LoadWindow := ⟨o.id, o.agent, b.file.undo w, [], o.checked⟩
    Bank.retireWrites { b.write w with windows := b.windows ++ [win] } o ws
  | .inr w :: ws =>
    match coreOf o.agent with
    | none => Bank.retireWrites b o ws
    | some k =>
      let c := b.cores[k.val]
      let win : LoadWindow := ⟨o.id, o.agent, none, [c.file.undo w], o.checked⟩
      Bank.retireWrites { b with cores := b.cores.set k.val { c with file := c.file.write w } k.isLt,
                                 windows := b.windows ++ [win] } o ws

/-- An operation with a destination register. -/
def MemOp.hasDest (o : MemOp) : Bool := match o.dest with | .none => false | _ => true

/-- Retire every completed operation whose turn it is: those with a destination in issue order of their agent. -/
def retireFrom : List MemOp → List (Fin 9) → List MemOp → Bank → Bank
  | [], _, kept, b => { b with ops := kept }
  | o :: os, blocked, kept, b =>
    if o.live then retireFrom os (if o.hasDest then o.agent :: blocked else blocked) (kept ++ [o]) b
    else if o.hasDest && blocked.contains o.agent then retireFrom os blocked (kept ++ [o]) b
    else retireFrom os blocked kept (b.retireWrites o o.writes)

/-- Retire what can retire. -/
def Bank.retire (b : Bank) : Bank := retireFrom b.ops [] [] b

/-- Perform access `j` of operation `id` of bank `i` of the current cluster, if the order allows it or it is forced. -/
def performOp (s : State) (i : Fin 8) (id j : Nat) (force : Bool) : Option State :=
  match performIn s id j force [] (s.bankAt i).ops with
  | none => none
  | some (s1, ops, a) => some (s1.setBankAt i (({ s1.bankAt i with ops := ops }).noteCheck a).retire)

/-- Perform every access of an operation of bank `i`, in element order. -/
def performAll (i : Fin 8) (o : MemOp) (s : State) : State :=
  (List.range o.accs.length).foldl (fun s j => (performOp s i o.id j true).getD s) s

/-- The operation only reads. -/
def MemOp.reads (o : MemOp) : Bool := o.accs.all fun a => match a.kind with | .load => true | .store _ | .rmw _ => false

/-- Perform, in issue order, every outstanding operation of an agent of bank `i` that others may see, and those that they cannot: of the open
bundle only the loads are performed (R299). -/
def drainAgent (s : State) (i : Fin 8) (agent : Fin 9) : State :=
  ((s.bankAt i).ops.filter fun o => o.agent = agent && (s.cl.opn.isNone || decide (o.id < s.opn.first) || o.reads)).foldl
    (fun s o => performAll i o s) s

/-- Perform every outstanding operation of bank `i`, in issue order (R326 step 3). -/
def drainBank (s : State) (i : Fin 8) : State := (s.bankAt i).ops.foldl (fun s o => performAll i o s) s

/-- The agent has an acquire that has not read its value, or operations before a FENCE of the open bundle (R301, R306). -/
def awaiting (s : State) (agent : Fin 9) : Bool :=
  s.bank.ops.any fun o => o.agent = agent && o.live && (o.acquire || decide (o.id < s.opn.fence))

/-- Before an access of an agent to its own pool: those come first. -/
def afterAcquire (s : State) (agent : Fin 9) : State := if awaiting s agent then drainAgent s s.bankNo agent else s

/-- Before an access that a slot makes at once: so do the agent's earlier operations on the same bytes (R298). -/
def beforeSync (s : State) (agent : Fin 9) (l : Loc) (n : Nat) : State :=
  if awaiting s agent || s.bank.ops.any fun o => o.agent = agent && o.accs.any fun a => !a.done && a.loc.overlap a.size l n
  then drainAgent s s.bankNo agent else s

/-! ### Writes of the open bundle to pool bytes (R299) -/

/-- The bytes that a late write touches. -/
def LateAct.size : LateAct → Nat
  | .put _ n => n
  | .barinit _ _ _ | .baradd _ | .swap _ _ => 8

/-- A barrier word after BARINIT (R145). -/
def barinitWord (w y : Nat) (scope : Fin 8) (z : Bool) : Nat :=
  let cnt := w % 2 ^ 56
  let fresh := z || (w / 2 ^ 63 % 2 = 1 && cnt = 0)
  let err := if fresh then 0 else w / 2 ^ 62 % 2
  let phase := if fresh then 1 - w / 2 ^ 61 % 2 else w / 2 ^ 61 % 2
  2 ^ 63 + err * 2 ^ 62 + phase * 2 ^ 61 + scope.val * 2 ^ 58 + w / 2 ^ 56 % 4 * 2 ^ 56 + ((if z then 0 else cnt) + y) % 2 ^ 56

/-- A barrier word whose CNT is changed by `n`, modulo 2^56 (R144, R145). -/
def countWord (w : Nat) (n : Int) : Nat := w / 2 ^ 56 * 2 ^ 56 + (((w % 2 ^ 56 : Nat) + n) % (2 ^ 56 : Nat)).toNat

/-- What a late write leaves where `w` stood. -/
def LateAct.value (w : Nat) : LateAct → Nat
  | .put x _ => x
  | .swap old new => if w = old.toNat then new.toNat else w
  | .barinit y scope z => barinitWord w y scope z
  | .baradd n => countWord w n

/-- Perform a late write: the agent's operations on its bytes that were issued before it come first (R298), and every one where an acquire or a
FENCE stands between (R301, R306). A swap that writes is an atomic at the home agent (R123). -/
def performLate (s : State) (x : LateWrite) : State :=
  let n := x.act.size
  let before := s.bank.ops.filter fun o => o.agent = x.agent && decide (o.id < x.id)
  let s1 := if before.any fun o => (o.live && (o.acquire || decide (o.id < x.fence))) ||
      o.accs.any fun a => !a.done && a.loc.overlap a.size x.loc n
    then before.foldl (fun t o => performAll t.bankNo o t) s else s
  let w := s1.readLoc x.loc n
  match x.act, x.loc with
  | .swap old _, .mem pa =>
    let s2 := s1.homeLine ⟨s1.cl.id, x.agent, x.src⟩ (pa / 128)
    if w = old.toNat then s2.writeLoc x.loc (x.act.value w) n else s2
  | _, _ => s1.writeLoc x.loc (x.act.value w) n

/-- The bundle commits, whole or up to a split: its writes to pool bytes are performed, in the order of its slots (R299). -/
def commitLate (s : State) : State := (s.opn.late.foldl performLate s).modOpn fun o => { o with late := [] }

/-- What an agent sees while its bundle is open: the writes of its own slots to the left are there (R35, R299). -/
def ownView (s : State) (agent : Fin 9) : State :=
  let s1 := (s.opn.late.filter fun x => x.agent = agent).foldl performLate s
  (s1.bank.ops.filter fun o => o.agent = agent && o.live && s.cl.opn.isSome && decide (s.opn.first ≤ o.id)).foldl
    (fun t o => performAll t.bankNo o t) s1

/-- `n` bytes as a slot of an agent reads them at once. -/
def ownRead (s : State) (agent : Fin 9) (l : Loc) (n : Nat) : Nat := (ownView s agent).readLoc l n

/-- The slot that is being performed, as a source: the cycle is that of the agent's own timeline (R357), and an order of 0 gives the scope of no
prefix (R32). -/
def State.sourceOf (s : State) (agent : Fin 9) : Source :=
  { pc := s.opn.pc, slot := s.opn.idx, bank := s.bankNo.val, asn := s.asn,
    cycle := s.now + (if agent.val < 8 then agent.val * s.opn.sampled.skew.toNat else 0),
    scope := match s.opn.ord with | some (scope, order) => if order.val = 0 then 7 else scope.val | none => 7 }

/-- A slot of the sequencer. -/
def State.slotSource (s : State) : Source := s.sourceOf 8

/-- A slot of an agent writes at once: other agents see it once the bundle commits. -/
def State.putLate (s : State) (agent : Fin 9) (l : Loc) (act : LateAct) : State :=
  s.modOpn fun o => { o with late := o.late ++ [⟨s.cl.nextOp, agent, l, act, s.opn.fence, s.sourceOf agent⟩] }

/-- The slot is a release, or TLBSYNC: the earlier accesses are performed before it goes on, those of its own bundle too (DEDUCED from R301 and
R90, log 5). -/
def releasing (s : State) : Bool :=
  match s.slot.map Slot.op with
  | some .tlbsync | some .spawn | some .launch | some (.hflip _ _) => true
  | some (.pin _ _) | some (.unpin _) | some (.cpin _ _) | some (.cunpin _) => s.ordRel
  | _ => false

/-- An operation may be performed: it is not of the bundle that is open (R299). -/
def committed (s : State) (id : Nat) : Bool := s.cl.opn.isNone || decide (id < s.opn.first) || releasing s

/-- The directory's part in an access that a slot makes at once. -/
def cohNow (s : State) (agent : Fin 9) (l : Loc) (n : Nat) (kind : AccKind) : State :=
  cohAccess s { id := 0, agent := agent, cls := .load, accs := [], src := s.sourceOf agent } { va := 0, loc := l, size := n, kind := kind }

end Sys2Proof.Machine
end

