-- ==== Sys2Proof/Machine/Ops.lean ====
section
/-!
DEFINITION. Sys2Proof/Machine/Ops.lean: the named operations over registers and bundles: posting register writes (R17), loop nests (R63 to R66), the end of a bundle (R29), taking a trap
(R311 to R318, R320) and returning from one (R331).
-/

namespace Sys2Proof.Machine

/-! ### Writes under way (R17, R34) -/

/-- A cycle after every delivery. -/
def never : Nat := 2 ^ 80

/-- Deliver what is due by cycle `t` in a core's bank. -/
def CoreBank.settle (t : Nat) (c : CoreBank) : CoreBank :=
  let r := Machine.settle CoreBank.write t c.pend c
  { r.1 with pend := r.2 }

/-- Deliver what is due by cycle `t` in a bank, sequencer and cores, each core on its own timeline. -/
def Bank.settle (t : Nat) (b : Bank) : Bank :=
  let r := Machine.settle Bank.write t b.pend b
  { r.1 with pend := r.2, cores := Vector.ofFn fun k : Fin 8 => (b.cores[k.val]).settle (coreCycle t r.1.skew k.val) }

/-- Deliver every write under way of a bank in issue order (R313). -/
def Bank.deliver (b : Bank) : Bank :=
  let r := (issueOrder b.pend).foldl (fun b p => b.write p.eff) b
  { r with pend := [], cores := b.cores.map fun (c : CoreBank) => { (issueOrder c.pend).foldl (fun c p => c.write p.eff) c with pend := [] } }

/-- Enter flags in VFLAGS of each core. -/
def Bank.addFlags (b : Bank) (f : Vector (BitVec 32) 8) : Bank :=
  { b with cores := Vector.ofFn fun k : Fin 8 =>
      let c := b.cores[k.val]
      if f[k.val] = 0 then c else { c with file := { c.file with vflags := c.file.vflags ||| f[k.val] } } }

/-- Array state whose writes have been delivered, and the bank that takes the flags that they set. -/
def Cluster.delivered (c : Cluster) (b : Bank) (cores : Vector PhysCore 8) : Cluster :=
  { c with bank := b.addFlags (cores.map PhysCore.flags), cores := cores.map fun (k : PhysCore) => { k with flags := 0 } }

/-- Deliver what is due by cycle `t` in the current cluster, in each core on its own timeline (R228). -/
def State.settle (s : State) (t : Nat) : State :=
  s.modCl fun c =>
    let b := c.bank.settle t
    c.delivered b (Vector.ofFn fun k : Fin 8 => (c.cores[k.val]).settle (coreCycle t b.skew k.val))

/-- Deliver every write under way in the current cluster: registers in issue order (R313), array state in the order of its cycles. -/
def State.deliver (s : State) : State := s.modCl fun c => c.delivered c.bank.deliver (c.cores.map (PhysCore.settle never))

/-- Post a write of the sequencer bank with latency `lat`. -/
def State.post (s : State) (lat : Nat) (w : SeqWrite) : State :=
  s.modBank fun b => { b with pend := Pending.insert ⟨s.cl.time + lat, w, s.cl.time, s.opn.idx⟩ b.pend }

/-- Write s_d with latency `lat`; s0 ignores writes. -/
def State.postS (s : State) (lat : Nat) (d : Fin 32) (v : Word) : State := if d.val = 0 then s else s.post lat (.s d v)

/-- Write q_d with latency `lat`; q0 ignores writes. The latest delivery cycle counts for the nullifier (R69). -/
def State.postQ (s : State) (lat : Nat) (d : Fin 32) (v : Bool) : State :=
  if d.val = 0 then s
  else (s.post lat (.q d v)).modBank fun b => { b with qLast := b.qLast.set d.val (max b.qLast[d.val] (s.cl.time + lat + 1)) d.isLt }

/-- Write h_d of the sequencer with latency `lat`. -/
def State.postH (s : State) (lat : Nat) (d : Fin 16) (v : Word) : State := s.post lat (.h d v)

/-- The cycle in which core k executes the open bundle (R16). -/
def State.coreTime (s : State) (k : Fin 8) : Nat := coreCycle s.cl.time s.opn.sampled.skew k.val

/-- Post a write of core k's bank with latency `lat` on the core's timeline. -/
def State.postCore (s : State) (k : Fin 8) (lat : Nat) (w : CoreWrite) : State :=
  s.modCoreBank k fun c => { c with pend := Pending.insert ⟨s.coreTime k + lat, w, s.coreTime k, s.opn.idx⟩ c.pend }

/-- Post a write of core k's array state with latency `lat` on the core's timeline. -/
def State.postArray (s : State) (k : Fin 8) (lat : Nat) (w : ArrayWrite) : State :=
  s.modCore k fun c => { c with pend := Pending.insert ⟨s.coreTime k + lat, w, s.coreTime k, s.opn.idx⟩ c.pend }

/-! ### What each enabled core does -/

/-- A core waits, and the cores after it come to `r`: they wait beside it and raise their entries too (R102), or a trap of one of them comes during
the wait, once the entries of this one have been raised (R103). -/
def waitBeside (s : State) (es : List (Fin 16 × Nat)) (r : Eff State) : Eff State :=
  let raised := es.all fun p => (s.relocs[p.1.val]).raised.contains p.2
  match r with
  | .error (.trap c v a) => if raised then .error (.trap c v a) else .error (.holdRaise es)
  | .error (.holdRaise ds) => .error (.holdRaise (es ++ ds))
  | .error .hold | .ok _ => if es.isEmpty then .error .hold else .error (.holdRaise es)

/-- Perform a slot in each core of a list that is enabled, in rank order. The first trap stops the slot; so does a core that waits. -/
def coresFrom (f : Fin 8 → State → Eff State) : List (Fin 8) → State → Eff State
  | [], s => .ok s
  | k :: ks, s =>
    if s.enabled k then
      match f k s with
      | .ok s' => coresFrom f ks s'
      | .error (.trap c v a) => .error (.trap c v a)
      | .error .hold => waitBeside s [] (coresFrom f ks s)
      | .error (.holdRaise es) => waitBeside s es (coresFrom f ks s)
    else coresFrom f ks s

/-- Perform a core-side slot in every enabled core (R13, R46). Nothing of it stays if a core traps (R36). -/
def eachCore (f : Fin 8 → State → Eff State) (s : State) : Eff State := coresFrom f (List.finRange 8) s

/-- The same for work that cannot trap. -/
def eachCore' (f : Fin 8 → State → State) (s : State) : State :=
  (List.finRange 8).foldl (fun s k => if s.enabled k then f k s else s) s

/-- Perform in all eight cores. -/
def allCores (f : Fin 8 → State → State) (s : State) : State := (List.finRange 8).foldl (fun s k => f k s) s

/-! ### Loop nests (R62 to R66) -/

/-- The active levels, as a number per level. -/
def Bank.activeLevels (b : Bank) : List Nat := (List.range 6).filter fun l => (b.loops[l]?.map LoopLevel.active).getD false

/-- Make levels inactive. -/
def Bank.deactivate (b : Bank) (p : Nat → Bool) : Bank :=
  { b with loops := Vector.ofFn fun i : Fin 6 => if p i.val then { b.loops[i.val] with active := false } else b.loops[i.val] }

/-- Add the strides of a level to every address register of a core; writes due by the core's cycle `t` come first (R65). A write of the end
bundle itself that is due in the cycle after it comes before the sum as well, and so does an XPUT's whose window is open at the end bundle
(DESIGN CHOICE, log 31). -/
def CoreBank.stride1 (t : Nat) (strides : Vector (Vector Word 6) 16) (l : Fin 6) (c : CoreBank) : CoreBank :=
  let c1 := c.settle t
  { c1 with file := { c1.file with a := Vector.ofFn fun i : Fin 16 => c1.file.a[i.val] + (strides[i.val])[l.val] } }

/-- The strides of a level, as `old` holds them, in all eight cores, enabled or not (R46, R65), at cycle `t` of the sequencer: the cycle
after the end bundle's, or the very cycle of a bundle that is skipped. An AMOV of the ending bundle does not count yet (R160). -/
def Bank.addStrides (b : Bank) (t : Nat) (old : Bank) (l : Fin 6) : Bank :=
  { b with cores := Vector.ofFn fun k : Fin 8 => (b.cores[k.val]).stride1 (coreCycle t b.skew k.val) (old.cores[k.val]).stride l }

/-- The ends of iterations at the bundle at `at_`, from the innermost level of the list outward, and the next address
that they choose (R65). -/
def Bank.iterEnds (t : Nat) (old : Bank) (at_ : Word) : List (Fin 6) → Bank → Bank × Option Word
  | [], b => (b, none)
  | l :: ls, b =>
    let lv := b.loops[l.val]
    if lv.active && lv.last = at_ then
      let b1 := b.addStrides t old l
      let n := b1.lc[l.val] - 1
      let b2 := { b1 with lc := b1.lc.set l.val n l.isLt }
      if n ≠ 0 then
        ({ b2 with loops := b2.loops.set l.val { lv with iter := satCount 32 (lv.iter + 1) } l.isLt }, some lv.start)
      else
        Bank.iterEnds t old at_ ls { b2 with loops := b2.loops.set l.val { lv with active := false, iter := satCount 32 (lv.iter + 1) } l.isLt }
    else if lv.active then (b, none)
    else Bank.iterEnds t old at_ ls b

/-- Levels from `l` down to 0. -/
def levelsDown (l : Nat) : List (Fin 6) := ((List.finRange 6).filter fun i => i.val ≤ l).reverse

/-- What a committed branch-class slot does to the loop state, and the next address it chooses (R60 to R66). `after` is
the address after a bundle that ends a level. -/
def Bank.branch (t : Nat) (b : Bank) : BranchAct → Bank × Option Word
  | .taken target => (b.deactivate fun _ => true, some target)
  | .loop l count start last after =>
    if count = 0 then (b, some after)
    else
      ({ b with lc := b.lc.set l.val count l.isLt,
                loops := b.loops.set l.val { active := true, start := start, last := last, at_ := b.pc } l.isLt }, some start)
  | .loopx l after =>
    let end_ := (b.loops[l.val]).last
    let b1 := b.deactivate fun i => l.val ≤ i
    let r := if l.val = 0 then (b1, none) else Bank.iterEnds t b end_ (levelsDown (l.val - 1)) b1
    (r.1, some (r.2.getD after))
  | .loopc l after =>
    let end_ := (b.loops[l.val]).last
    let b1 := b.deactivate fun i => l.val < i
    let r := Bank.iterEnds t b end_ (levelsDown l.val) b1
    (r.1, some (r.2.getD after))

/-- BLKDONE: a bit per handle (R124). -/
def Bank.blkdone (b : Bank) : Word :=
  BitVec.ofNat 64 ((List.range 64).foldl (fun n i => if ((b.handles[i]?).getD none).elim false BlockHandle.done then n + 2 ^ i else n) 0)

/-! ### Residuals (R285 to R291) -/

/-- A register by its number of Table 15.4 receives a value; lc0 to lc5 always hold theirs (log 15). -/
def SeqFile.fold (f : SeqFile) (x : Nat × Word) : SeqFile :=
  if h : x.1 < 32 then f.write (.s ⟨x.1, h⟩ x.2)
  else if h : x.1 - 32 < 32 then f.write (.q ⟨x.1 - 32, h⟩ (x.2.getLsbD 0))
  else f

/-- The registers as the kept slots of a residual bundle read them (R286). -/
def ResPoint.before (p : ResPoint) (f : SeqFile) : SeqFile := p.regs.foldl SeqFile.fold f

/-- A write of the sequencer bank reaches the register of a number of Table 15.4. -/
def SeqWrite.names (n : Nat) : SeqWrite → Bool
  | .s r _ => r.val = n
  | .q r _ => 32 + r.val = n
  | _ => false

/-- The result of a removed slot is in its register: no write of an earlier bundle, nor of a slot to its left, comes after it. `t` is the cycle in
which its bundle issued. -/
def Bank.foldIn (t : Nat) (b : Bank) (r : Nat × Nat × Word) : Bank :=
  { b with file := b.file.fold r.2, pend := b.pend.filter fun p => !(p.eff.names r.2.1 && (decide (p.born < t) || decide (p.slot < r.1))) }

/-- The point of a residual at which a bank of die `x` stands. -/
def Die.point (x : Die) (b : Bank) : Option ResPoint :=
  b.residual.bind fun r => (x.residuals.find? fun y => y.num = r.1).bind fun y => y.points[r.2]?

/-- The point at which the running bank stands. -/
def State.point (s : State) : Option ResPoint := (s.die s.cl.id.die).point s.bank

/-- The results of the removed slots from slot `i` to before slot `j` of the bundle at which the bank stands (R288). -/
def Bank.takeResults (x : Die) (t i j : Nat) (b : Bank) : Bank :=
  match x.point b with
  | some p => (p.results.filter fun r => i ≤ r.1 && r.1 < j).foldl (Bank.foldIn t) b
  | none => b

/-- R288: the bank leaves its residual. Its loop buffer holds the residual's words no longer (R278). -/
def Bank.leaveResidual (b : Bank) : Bank :=
  if b.residual.isNone then b else { b with residual := none, loopBuf := b.loopBuf.map fun p => (p.1, []) }

/-- The bank stands at a point: its bundle, and its loop levels, the unrolled ones in their iteration. -/
def Point.fits (b : Bank) (p : Point) : Bool :=
  decide (p.pc = b.pc) && (List.finRange 6).all fun l =>
    let lv := b.loops[l.val]
    match p.loops[l.val] with
    | none => !lv.active
    | some x => lv.active && decide (x.start = lv.start) && decide (x.last = lv.last) && (!x.unrolled || decide (x.iter = lv.iter))

/-- The bank goes on after a bundle of its residual, which issued at `t` and was entered at slot `i`: the results of removed slots are in its
registers, and it stands at the point that follows on its path; where there is none, or where it has taken a branch to a target that the
evaluation did not know, it has left the residual (R283, R288). -/
def Bank.goOn (x : Die) (t i : Nat) (taken : Bool) (b : Bank) : Bank :=
  match b.residual, x.point b with
  | some r, some p =>
    let ps := ((x.residuals.find? fun y => y.num = r.1).map Residual.points).getD []
    let follow := if p.ends && taken then none else p.next.find? fun i => (ps[i]?).any fun q => q.at_.fits b
    let b1 := (p.results.filter fun y => i ≤ y.1).foldl (Bank.foldIn t) b
    match follow with
    | some k => { b1 with residual := some (r.1, k) }
    | none => b1.leaveResidual
  | _, _ => b.leaveResidual

/-! ### The end of a bundle (R29) -/

/-- The address of the word after a bundle. -/
def OpenBundle.after (o : OpenBundle) : Word := o.pc + BitVec.ofNat 64 (4 * o.slots.length)

/-- A branch of the bundle is taken, or one was before a split. -/
def OpenBundle.takes (o : OpenBundle) : Bool :=
  o.next.isSome || match o.branch with | some (.taken _) => true | _ => false

/-- The address that the end of the open bundle chooses, and the loop state it leaves (R29, R36, R65), with `t` the next cycle. A next
address that a committed branch chose before a split stands (BR, NEXT). -/
def endNext (t : Nat) (o : OpenBundle) (b : Bank) : Bank × Word :=
  match o.next with
  | some n => (b, n)
  | none =>
    match o.branch with
    | some a =>
      let r := b.branch t a
      (r.1, r.2.getD o.after)
    | none =>
      let r := Bank.iterEnds t b o.pc (levelsDown 5) b
      (r.1, r.2.getD o.after)

/-- R92: a window that is locked unlocks every other window that it overlaps, in all eight cores. -/
def CoreBank.lockStep (c : CoreBank) (a : LockAct) : CoreBank :=
  match a with
  | .lock idx w =>
    { c with lock := Vector.ofFn fun i : Fin 8 =>
        if i = idx then some w
        else match c.lock[i.val] with
          | some x => if x.base < w.base + w.size && w.base < x.base + x.size then none else some x
          | none => none }
  | .unlock idx => { c with lock := c.lock.set idx.val none idx.isLt }
  | .unlockAll => { c with lock := Vector.replicate 8 none }

/-- The change of locked windows that the open bundle leaves to its end. -/
def Bank.lockStep (b : Bank) (a : Option LockAct) : Bank :=
  match a with
  | some x => { b with cores := b.cores.map fun c => c.lockStep x }
  | none => b

/-- The pending AFMTs that have waited for their three bundles take effect (R220). -/
def CoreBank.landFmt (c : CoreBank) : CoreBank :=
  { c with fmt := ((c.pendFmt.filter fun p => p.wait = 0).map PendingFmt.fmt).getLastD c.fmt, pendFmt := c.pendFmt.filter fun p => p.wait ≠ 0 }

/-- The same in every core. -/
def Bank.landFmt (b : Bank) : Bank := { b with cores := b.cores.map CoreBank.landFmt }

/-- `n` cycles from that of `x` on are to be judged by the die's triggers (R359). -/
def State.noteCycles (s : State) (x : CycleInfo) (n : Nat) : State :=
  if n = 0 || !s.anyTrig s.cl.id.die then s else s.modCl fun c => { c with evals := c.evals ++ [(x, n)] }

/-- A cycle of the cluster, for records and triggers (R355, R359): the bundle at `pc`, which has issued or not, and the cause of a trap. -/
def State.noteCycle (s : State) (pc : Word) (asn : BitVec 16) (cause : Option (BitVec 8)) (bundle : Bool) : State :=
  let x : CycleInfo := ⟨pc, s.bankNo, asn, s.now, cause, bundle, ((s.point).map ResPoint.iters).getD (0, 0), []⟩
  (s.modCl fun c => { c with last := x }).noteCycles x 1

/-- `n` cycles from cycle `t` on in which nothing issues. -/
def State.noteIdle (s : State) (asn : BitVec 16) (t n : Nat) : State :=
  s.noteCycles { bank := s.bankNo, asn := asn, cycle := t, bundle := false } n

/-- Levels that the bank's new loop state leaves inactive are recorded (R358). -/
def State.noteExits (s : State) (new : Bank) : State := loopExits s s.bank.loops new.loops s.bankNo (tswAsn s.bank.tsw) s.now

/-- The cycles from a bundle's last one to the issue of the next, freezes apart (R16, R47, R168). -/
def OpenBundle.cycles (o : OpenBundle) (t : Nat) : Nat := max (t + 1 + o.drain) o.minTime - t

/-- Step 1 of the end of a bundle: every slot has committed; the next bundle is selected, iterations end, and the cycle passes (R16, R29). A LOOP's
count stands over an MTS to the same counter in its bundle, because the LOOP acts here (DEDUCED from R29 and R63, log 31). `cause`: of the trap that
is taken after it. -/
def closeWith (cause : Option (BitVec 8)) (s0 : State) : State :=
  let s := commitLate s0
  let o := s.opn
  let asn := tswAsn o.regs.tsw
  let n := o.cycles s.cl.time
  let r := endNext (s.cl.time + 1) o s.bank
  let b := { r.1 with loops := r.1.loops.map fun (l : LoopLevel) => l.stalls (o.freeze + (n - 1)) }
  let s1 := ((s.noteCycle o.pc asn cause true).noteIdle asn (s.now + 1) (o.freeze + (n - 1))).noteExits b
  let s2 := s1.modBank fun _ =>
    ({ (b.lockStep o.lockAct).landFmt with pc := r.2, tsw := if o.byRett then b.tsw &&& ~~~(0xE000 : Word) else b.tsw } : Bank).goOn
      (s.die s.cl.id.die) o.issued o.entered o.takes
  let s3 := s2.modCl fun c => { c with opn := none, time := c.time + n, frozen := c.frozen + o.freeze, lastAt := c.time, lastSkew := o.sampled.skew }
  { s3 with cycle := s3.now }

/-- The same where no trap follows. -/
def closeBundle (s : State) : State := closeWith none s

/-! ### Fault records (R322, R323) -/

/-- Word 0 of a fault record (Table 17.5). -/
def recWord0 (type : Nat) (cause : BitVec 8) (c : ClusterId) (bank : Nat) (agent : Fin 9) (slot : Nat) (asn : BitVec 16) : Word :=
  BitVec.ofNat 64 (type * 2 ^ 56 + cause.toNat * 2 ^ 48 + c.die.val * 2 ^ 42 + c.cluster.val * 2 ^ 39 + bank * 2 ^ 36 +
    agent.val * 2 ^ 32 + slot * 2 ^ 29 + asn.toNat)

/-- Hand a record to a die's writer: it posts it when its ring has room (R322, FAULT_RECORD_POST). -/
def State.raise (s : State) (d : Fin 64) (r : FaultRec) : State :=
  let x := s.die d
  s.setDie d { x with fq := { x.fq with held := x.fq.held ++ [r] } }

/-! ### Banks (R264, R265) -/

/-- The running bank leaves the running state. -/
def State.leave (s : State) (st : BankState) : State :=
  match s.cl.run with
  | none => s
  | some i =>
    s.modCl fun c =>
      { c with run := none, opn := none, banks := c.banks.set i.val { c.bank with state := st } i.isLt, bank := {} }

/-- Which of two ready banks goes first (R265). -/
def before (a b : Bank) : Bool :=
  if a.byArrival ≠ b.byArrival then a.byArrival
  else if !a.byArrival && a.prio ≠ b.prio then decide (b.prio < a.prio)
  else decide (a.readySince ≤ b.readySince)

/-- The bank a switch point selects (R265). -/
def Cluster.select (c : Cluster) : Option (Fin 8) :=
  (List.finRange 8).foldl (fun best i =>
    if (c.banks[i.val]).state = .ready then
      match best with
      | none => some i
      | some j => if before c.banks[j.val] c.banks[i.val] then best else some i
    else best) none

/-- A switch point (R265): with no running bank, a ready one runs. A bank with a term selection has its basis expanded
again from now (R321). -/
def State.switchPoint (s : State) : State :=
  if s.cl.run.isSome then s
  else
    match s.cl.select with
    | none => s
    | some i =>
      s.modCl fun c =>
        let b := c.banks[i.val]
        let cores := b.cores.map fun (k : CoreBank) => { k with term := k.term.map fun x => { x with ready := c.clock } }
        { c with run := some i, bank := { b with state := .running, byArrival := false, cores := cores },
                 banks := c.banks.set i.val {} i.isLt }

/-! ### Blocks of memory: frames, records, lodgings -/

/-- Parts of a block of `len` bytes at `va`, none crossing a 64 KiB boundary: offset and length. -/
def chunks (va : Nat) (off len : Nat) : Nat → List (Nat × Nat)
  | 0 => []
  | fuel + 1 =>
    if len = 0 then []
    else
      let room := 65536 - (va + off) % 65536
      let n := min room len
      (off, n) :: chunks va (off + n) (len - n) fuel

/-- The address form and alignment that a block of doublewords needs. -/
def chkBlock (w : Who) (va : Word) : Eff Unit :=
  if bits va 63 57 ≠ 0 then w.trap 0x05 va
  else if va.toNat % 8 ≠ 0 then w.trap 0x08 va
  else if isWindow va then w.trap 0x07 va
  else .ok ()

/-- The physical places of the parts of a block. -/
def placeChunks (w : Who) (u : Use) (va : Word) : List (Nat × Nat) → State → Eff (State × List (Nat × Nat × Nat))
  | [], s => .ok (s, [])
  | (off, n) :: rest, s =>
    let a := va + BitVec.ofNat 64 off
    match locate s w u a 8 with
    | .error e => .error e
    | .ok (s1, .pool _ _ _ _) => .ok (s1, [])
    | .ok (s1, .mem pa) =>
      if pa + n > Config.memTop then w.trap 0x05 a
      else if !u.write && s.badAt pa n then w.trap 0x16 a
      else
        match placeChunks w u va rest (if u.write then s1 else (s1.correct pa n).readRun (.engine s1.cl.id w.asn) pa n) with
        | .error e => .error e
        | .ok (s2, ps) => .ok (s2, (off, n, pa) :: ps)

/-- Write a block: its doublewords that are not zero, at rising offsets; the others become zero. Nothing is written if a
part faults. -/
def blockWrite (s : State) (w : Who) (va : Word) (len : Nat) (ws : List (Nat × Word)) : Eff State := do
  let _ ← chkBlock w va
  let (s1, ps) ← placeChunks w { write := true } va (chunks va.toNat 0 len (len / 65536 + 2)) s
  let m := ps.foldl (fun (m : Mem) p =>
      (ws.filter fun x => p.1 ≤ x.1 && x.1 < p.1 + p.2.1).foldl
        (fun m x => m.setWord (p.2.2 + (x.1 - p.1)) x.2) (Cells.clear m p.2.2 (p.2.2 + p.2.1))) s1.mem
  let s2 := { s1 with mem := m, badWords := ps.foldl (fun b p => coverWords b p.2.2 p.2.1) s1.badWords }
  .ok (ps.foldl (fun t p => t.ownRun (.engine t.cl.id w.asn) p.2.2 p.2.1) s2)

/-- Read a block: its bytes by offset. -/
def blockRead (s : State) (w : Who) (va : Word) (len : Nat) : Eff (State × Mem) := do
  let _ ← chkBlock w va
  let (s1, ps) ← placeChunks w {} va (chunks va.toNat 0 len (len / 65536 + 2)) s
  .ok (s1, ps.flatMap fun p => (Cells.slice s1.mem p.2.2 (p.2.2 + p.2.1)).map fun c => (c.1 - p.2.2 + p.1, c.2))

/-! ### The trap frame (Table 17.3, Table 17.4) -/

/-- The doublewords of a long register from offset `off` on; zero words are left out. -/
def wideWords {w : Nat} (off : Nat) (x : BitVec w) (n : Nat) : List (Nat × Word) :=
  if x = 0 then [] else (List.range n).map fun i => (off + 8 * i, x.extractLsb' (64 * i) 64)

/-- The doublewords of a register file of 64-bit registers. -/
def fileWords (off : Nat) (xs : List Word) : List (Nat × Word) := ((List.range xs.length).zip xs).map fun p => (off + 8 * p.1, p.2)

/-- A core's part of a snapshot, at 0xC00 + 0xA00·k of the frame (Table 17.4); offsets from FRAME + 0x800. -/
def coreWords (off : Nat) (f : CoreFile) : List (Nat × Word) :=
  fileWords off f.a.toList ++
  ((List.range 16).zip f.v.toList).flatMap (fun p => wideWords (off + 0x80 + 128 * p.1) p.2 16) ++
  ((List.range 4).zip f.m.toList).flatMap (fun p => wideWords (off + 0x880 + 32 * p.1) p.2 4) ++
  fileWords (off + 0x900) f.h.toList ++ [(off + 0x980, f.vflags.setWidth 64)]

/-- A pending AFMT as trap frame word 6 lays it out in bits 12:0. -/
def fmtBits (p : PendingFmt) : Nat := 4096 + p.wait * 1024 + p.fmt.toNat

/-- The pending AFMTs of a bank as the frame keeps them: those of the lowest-ranked core that has any (log 20). -/
def Bank.pendFmts (b : Bank) : List PendingFmt := ((b.cores.toList.map CoreBank.pendFmt).find? fun l => !l.isEmpty).getD []

/-- Word 3 of the header: the sampled values. -/
def sampledWord (x : Sampled) : Word :=
  BitVec.ofNat 64 (x.vtype.toNat * 2 ^ 48 + x.vl.toNat * 2 ^ 32 + x.slen.toNat * 2 ^ 10 + x.skew.toNat * 2 ^ 8 + x.coreEn.toNat)

/-- The words of a frame, offsets from FRAME + 0x800: `snap` says whether the slots re-entered read the snapshot. -/
def frameWords (b : Bank) (otsw : Word) (snap : Bool) (sn : Snapshot) (guards : BitVec 8) (smp : Sampled) (next : Option Word) :
    List (Nat × Word) :=
  let act := b.activeLevels
  let fs := b.pendFmts
  let fmtAt (i : Nat) : Nat := ((fs[i]?).map fmtBits).getD 0
  let lvl (i : Nat) : LoopLevel := (b.loops[i]?).getD {}
  let lcAt (i : Nat) : Nat := ((b.lc[i]?).map BitVec.toNat).getD 0
  ([(0, otsw), (8, next.getD 0),
    (16, BitVec.ofNat 64 (guards.toNat * 256 + (if next.isSome then 2 else 0) + (if snap then 1 else 0))),
    (24, sampledWord smp), (40, BitVec.ofNat 64 (act.foldl (fun n l => n + 2 ^ l) 0)),
    (48, BitVec.ofNat 64 (fmtAt 0 + fmtAt 1 * 2 ^ 16 + fmtAt 2 * 2 ^ 32))] ++
   act.map (fun l => (64 + 8 * l, (lvl l).last)) ++
   fileWords 0x80 (0 :: (sn.seq.s.toList.drop 1)) ++ fileWords 0x180 sn.seq.h.toList ++ [(0x200, (sn.seq.q ||| 1).setWidth 64)] ++
   act.map (fun l => (0x240 + 8 * l, (lvl l).start)) ++
   (List.range 3).map (fun i => (0x270 + 8 * i, BitVec.ofNat 64 (lcAt (2 * i) + lcAt (2 * i + 1) * 2 ^ 32))) ++
   ((List.range 8).zip sn.cores.toList).flatMap (fun (p : Nat × CoreFile) => coreWords (0x400 + 0xA00 * p.1) p.2)).filter fun p => p.2 ≠ 0

/-- The frame occupies bytes 0x800 to 0x5BFF of the lodging (R318). -/
def frameLen : Nat := 0x5400

/-- A register of `n` doublewords from a block. -/
def wideRead (w : Nat) (m : Mem) (off n : Nat) : BitVec w := BitVec.ofNat w (Mem.read m off (8 * n))

/-- The bits of VFLAGS, of VTYPE and of TSW that are not zero fields (R3, Table 09.3, Table 09.4, Table 17.2). -/
def vflagBits : BitVec 32 := 0xF3F
@[inherit_doc vflagBits] def vtypeBits : BitVec 16 := 0x1F
@[inherit_doc vflagBits] def tswBits : Word := tswWritable ||| 0x800

/-- The snapshot of a frame, offsets from FRAME + 0x800 (Table 17.4). -/
def readSnapshot (m : Mem) : Snapshot :=
  { seq := { s := Vector.ofFn fun i : Fin 32 => if i.val = 0 then 0 else m.word (0x80 + 8 * i.val),
             h := Vector.ofFn fun i : Fin 16 => m.word (0x180 + 8 * i.val),
             q := BitVec.ofNat 32 (Mem.read m 0x200 4) ||| 1 },
    cores := Vector.ofFn fun k : Fin 8 =>
      let o := 0x400 + 0xA00 * k.val
      { a := Vector.ofFn fun i : Fin 16 => m.word (o + 8 * i.val),
        v := Vector.ofFn fun i : Fin 16 => wideRead 1024 m (o + 0x80 + 128 * i.val) 16,
        m := Vector.ofFn fun i : Fin 4 => wideRead 256 m (o + 0x880 + 32 * i.val) 4,
        h := Vector.ofFn fun i : Fin 16 => m.word (o + 0x900 + 8 * i.val),
        vflags := BitVec.ofNat 32 (Mem.read m (o + 0x980) 4) &&& vflagBits } }

/-! ### Taking a trap (R313 to R316, R320) -/

/-- The index of the first prefix of the chain of slot `j` (R36, R30). -/
def chainStart (slots : List Fetched) : Nat → Nat
  | 0 => 0
  | j + 1 =>
    match ((slots[j]?).bind fun f => f.slot).map Slot.op with
    | some (.ext _) => chainStart slots j
    | some (.ord _ _) => chainStart slots j
    | _ => j + 1

/-- What the split leaves of the branch of a committed slot: the loop state, and NEXT (R36). -/
def splitNext (t : Nat) (o : OpenBundle) (b : Bank) : Bank × Option Word :=
  match o.next with
  | some n => (b, some n)
  | none =>
    match o.branch with
    | some a => b.branch t a
    | none => (b, none)

/-- The trap's record goes with the last cycle in which a trap was met. -/
def attachNote (ws : List Word) : List (CycleInfo × Nat) → List (CycleInfo × Nat)
  | [] => []
  | e :: t => if e.1.cause.isSome && !(t.any fun y => y.1.cause.isSome) then ({ e.1 with note := ws }, e.2) :: t else e :: attachNote ws t

/-- A type 2 record (R355, R357), while a window is open (R359): where a trigger is enabled, once it has judged the trap's cycle. -/
def trapRecord (s : State) (asn : BitVec 16) (ws : List Word) : State :=
  let d := s.cl.id.die
  if !(s.traced d asn && (s.dbg d 0).getLsbD 1) then s
  else if s.cl.evals.isEmpty then (if s.windowOpen s.cl.id then s.traceWrite d ws else s)
  else s.modCl fun c => { c with evals := attachNote ws c.evals }

/-- Entry into the handler (R315), from the bundle at `pc` split at slot `j`. The frame is written with the task's own supervisor state (log 9).
A trap that meets the entry of a bundle from a frame with SNAP = 0 leaves the snapshot of that frame (R331). A fault in the writing is a double
trap. -/
def enterHandler (s : State) (w : Who) (cause : BitVec 8) (tval pc : Word) (re : Reentry) (live : Bool) : Eff State := do
  let s := s.modBank Bank.leaveResidual
  let b := s.bank
  let now : Snapshot := { seq := b.file, cores := b.cores.map CoreBank.file }
  let (s0, old) ← (if re.byRett && re.snap.isNone then do
      let (t, m) ← blockRead s { w with agent := 8 } (b.frame + 0x800) frameLen
      .ok (t, some (readSnapshot m))
    else .ok (s, none))
  let sn := re.snap.getD (old.getD now)
  let s1 ← blockWrite s0 { w with agent := 8 } (b.frame + 0x800) frameLen
    (frameWords b (b.tsw ||| (if b.checked then 0x200 else 0)) (!live) sn re.guards re.sampled re.next)
  let asn := tswAsn b.tsw
  let head := traceHead 2 s1.cl.id s1.bankNo.val w.agent.val re.slot asn pc
    (s1.cl.last.cycle + (if w.agent.val < 8 then w.agent.val * re.sampled.skew.toNat else 0))
  .ok ((trapRecord s1 asn (traceFill (head ++ [cause.setWidth 64, tval]))).modBank fun b =>
    { b.deactivate (fun _ => true) with
      aside := ⟨b.loops, b.loopBuf, re.regs⟩ :: b.aside,
      tpc := pc, tcause := cause, tval := tval,
      tsw := (b.tsw &&& ~~~(0xE400 : Word)) ||| 0x101 ||| BitVec.ofNat 64 (re.slot % 8 * 8192),
      cores := b.cores.map fun (c : CoreBank) => { c with pendFmt := [] },
      loopBuf := [], reenter := none, pendTrap := none,
      pc := (b.tvb &&& ~~~(0xFFF : Word)) + BitVec.ofNat 64 (0x40 * cause.toNat) })

/-- The faulting virtual address of a cause as VA of a record has it; 0 for a cause whose TVAL is no address (Table 17.1, Table 05.9, R323): a window
fault may name the locator of a barrier, which has bit 56 clear. -/
def faultVa (cause : BitVec 8) (tval : Word) : Word :=
  if cause = 0x07 then (if isWindow tval then tval else 0)
  else if [0x04, 0x05, 0x06, 0x08, 0x0B, 0x16].contains cause.toNat then tval else 0

/-- The bank waits, and a record is posted (R316, R320): `type` 1 a page fault, 7 a double trap, at which it leaves its residual (R288). `va` is the
faulting address, or 0. -/
def parkBank (s : State) (st : BankState) (type : Nat) (cause : BitVec 8) (va pc : Word) (agent : Fin 9) (re : Reentry) : State :=
  let b := s.bank
  let c := s.cl.id
  let s1 := s.modBank fun b =>
    { (if st = .waitFault then b else b.leaveResidual) with reenter := some re, pc := pc, pendTrap := none }
  let r : FaultRec := ⟨recWord0 type cause c s.bankNo.val agent re.slot (tswAsn b.tsw), va, pc, b.trec,
    .bank c b.trec⟩
  ((s1.leave st).raise c.die r).switchPoint

/-- Deliver a cause to the bank that stands at bundle `pc`, split as `re` says: the fault queue for page not present, a
double trap in a handler, else the handler (R311, R315, R316, R320). The cycle in which the trap is met has been noted. `va`: the address that a
record would name. -/
def deliverTrap (s : State) (w : Who) (tsw : Word) (cause : BitVec 8) (tval pc : Word) (re : Reentry) (live : Bool)
    (va : Word := faultVa cause tval) : State :=
  let s1 := { s with cl := { s.deliver.cl with opn := none } }
  if tswInh tsw then parkBank s1 .halted 7 cause va pc w.agent re
  else if cause = 0x04 then parkBank s1 .waitFault 1 cause va pc w.agent re
  else
    match enterHandler s1 w cause tval pc re live with
    | .ok s2 => s2
    | .error (.trap c2 v2 a2) => parkBank s1 .halted 7 c2 (faultVa c2 v2) pc a2 re
    | .error _ => s1

/-- How the open bundle is entered again at slot `j`; the cluster keeps what its slots read at issue (R36, R320). -/
def OpenBundle.reentry (o : OpenBundle) (j : Nat) (next : Option Word) : Reentry :=
  { slot := j, snap := some o.snap, guards := o.guards, sampled := o.sampled, next := next, byRett := o.byRett, regs := some o.regs }

/-- The open bundle is left at a split at slot `j`, `n` cycles after its last one: committed branches and lock changes have their effect, and so
have the removed slots of a residual (R36, R288). A change of a locked window by a committed TLBLK or TLBUNL is in force for the slots that are
entered again (DESIGN CHOICE, log 31). Answers NEXT too. -/
def leaveSplit (s0 : State) (j n : Nat) (cause : Option (BitVec 8)) : State × Option Word :=
  let s := commitLate s0
  let o := s.opn
  let asn := tswAsn o.regs.tsw
  let r := splitNext (s.cl.time + 1) o s.bank
  let b := { r.1 with loops := r.1.loops.map fun (l : LoopLevel) => l.stalls (o.freeze + n) }
  let s1 := (((s.noteCycle o.pc asn cause true).noteIdle asn (s.now + 1) (o.freeze + (n - 1))).noteExits b).modBank fun _ =>
    (b.lockStep o.lockAct).takeResults (s.die s.cl.id.die) o.issued o.entered j
  (s1.modCl fun c => { c with time := c.time + n, frozen := c.frozen + o.freeze, lastAt := c.time, lastSkew := o.sampled.skew }, r.2)

/-- Split the open bundle at slot `j` and deliver a cause: slots below `j` have committed (R36, R313). The trap is taken in the cycle after the
rank-7 core has reached the bundle. -/
def takeTrapAt (s : State) (j : Nat) (cause : BitVec 8) (tval : Word) (agent : Fin 9) (va : Word := faultVa cause tval) : State :=
  let o := s.opn
  let r := leaveSplit s j (coreCycle 1 o.sampled.skew 7) (some cause)
  deliverTrap r.1 (s.who agent) o.regs.tsw cause tval o.pc (o.reentry j r.2) false va

/-- The trap of the slot being performed: the split is at it, or at the first prefix of its chain (R36). -/
def takeTrap (s : State) (cause : BitVec 8) (tval : Word) (agent : Fin 9) (va : Word := faultVa cause tval) : State :=
  takeTrapAt s (chainStart s.opn.slots s.opn.idx) cause tval agent va

/-- A trap that is taken after a whole bundle: the bundle ends first, TPC is the next bundle and SLOT 0 (R314). The
handler's return runs the next bundle with live registers (DEDUCED, log 10). -/
def trapAfterBundle (s : State) (cause : BitVec 8) (tval : Word) : State :=
  let o := s.opn
  let s1 := closeWith (some cause) s
  deliverTrap s1 (s.who 8) o.regs.tsw cause tval s1.bank.pc
    { slot := 0, snap := none, guards := o.guards, sampled := o.sampled, next := none } true

/-- A trap that is taken after the slot being performed: the split is at the next slot (R314). -/
def trapAfterSlot (s : State) (cause : BitVec 8) (tval : Word) : State :=
  if s.opn.idx + 1 < s.opn.slots.length then takeTrapAt s (s.opn.idx + 1) cause tval 8
  else trapAfterBundle s cause tval

/-! ### Returning from a trap (R331) -/

/-- The sampled values of word 3 (Table 17.3). -/
def readSampled (w : Word) : Sampled :=
  ⟨BitVec.ofNat 17 (bits w 26 10), BitVec.ofNat 2 (bits w 9 8), BitVec.ofNat 8 (bits w 7 0), BitVec.ofNat 16 (bits w 47 32),
   BitVec.ofNat 16 (bits w 63 48) &&& vtypeBits⟩

/-- The pending AFMTs of header word 6. -/
def readFmts (w : Word) : List PendingFmt :=
  ([(0 : Nat), 16, 32].map fun o => bits w (o + 12) o).filterMap fun n =>
    if n / 4096 = 1 then some ⟨BitVec.ofNat 10 (n % 1024), n / 1024 % 4⟩ else none

/-- How the bank goes on from a frame at slot `j`: from the snapshot when SNAP = 1, else from live registers. -/
def frameReentry (m : Mem) (j : Nat) : Reentry :=
  let w2 := m.word 16
  { slot := j, snap := if w2.getLsbD 0 then some (readSnapshot m) else none, guards := BitVec.ofNat 8 (bits w2 15 8),
    sampled := readSampled (m.word 24), next := if w2.getLsbD 1 then some (m.word 8) else none, byRett := true }

/-- The loop state of a frame, and its pending AFMTs in every core. -/
def Bank.restoreFrame (b : Bank) (m : Mem) : Bank :=
  let act := m.word 40
  { b with
    loops := Vector.ofFn fun l : Fin 6 =>
      { (b.aside.head?.map fun x => x.loops[l.val]).getD {} with active := act.getLsbD l.val, start := m.word (0x240 + 8 * l.val), last := m.word (64 + 8 * l.val) },
    lc := Vector.ofFn fun l : Fin 6 => BitVec.ofNat 32 (Mem.read m (0x270 + 4 * l.val) 4),
    cores := b.cores.map fun (c : CoreBank) => { c with pendFmt := readFmts (m.word 48) } }

/-- Checked mode begins at cycle `t`, in the sequencer and in every core; what is in flight was not issued since (R319). -/
def Bank.enterChecked (t : Nat) (b : Bank) : Bank :=
  { b with checked := true, checkedNew := true, checkedAt := t, cores := b.cores.map fun (c : CoreBank) => { c with checked := true },
           ops := b.ops.map fun (o : MemOp) => { o with checked := false } }

/-- RETT (R331), at the end of its bundle: the frame's loop state and AFMTs come back, TSW becomes OTSW with SLOT = j, checked
mode begins, and the bundle at TPC is entered at slot j. The loop levels of the handler end (R358), and the residual with them. A pending machine
check stays pending (DEDUCED, log 10). -/
def returnFromTrap (s : State) (m : Mem) : State :=
  let s1 := closeBundle s
  let s2 := s1.settle s1.cl.time
  let s3 := s2.noteExits (s2.bank.deactivate fun _ => true)
  let j := tswSlot s3.bank.tsw
  let kept := s3.bank.aside.head?
  let re := { frameReentry m j with regs := kept.bind Aside.regs }
  let otsw := m.word 0
  s3.modBank fun b =>
    { ((b.restoreFrame m).enterChecked s3.cl.time).leaveResidual with
      tsw := (otsw &&& tswWritable &&& ~~~(0xE000 : Word)) ||| BitVec.ofNat 64 (j * 8192) ||| (b.tsw &&& 0x800),
      pc := b.tpc, loopBuf := (kept.map Aside.buf).getD [], aside := b.aside.drop 1, reenter := some re }

/-! ### The reads of a walk that has led to a trap -/

/-- Single-bit errors that a walk from table `table` meets are corrected (R71), and its reads are recorded (R357). -/
def walkNotes (w : Who) (va : Word) : List Nat → Nat → State → State
  | [], _, s => s
  | lv :: rest, table, s =>
    match readPte s w va (table + 8 * levelIndex va lv) with
    | .error _ => s
    | .ok (s1, e) => if pteV e && !malformed e false lv && !pteLeaf e then walkNotes w va rest (pteAddr e) s1 else s1

/-- A trap whose TVAL is an address that was to be translated: what its walk has read stays read, though nothing is entered (R87). -/
def State.noteWalk (s : State) (w : Who) (cause : BitVec 8) (va : Word) : State :=
  if isWindow va || !([0x04, 0x05, 0x0B, 0x16].contains cause.toNat) || bits va 63 57 ≠ 0 || (lockOf s w.agent va).isSome ||
     ((s.cl.tlbOf w.agent ++ (s.die s.cl.id.die).l2).any fun l => l.matches w.asn va) then s
  else
    match readPte s w va (s.rootBase + 8 * w.asn.toNat) with
    | .error _ => s
    | .ok (s1, e) => if pteV e && !malformed e true 0 then walkNotes w va [0, 1, 2, 3] (pteAddr e) s1 else s1

/-- The TVAL of a trap of the open slot is no address that it translates: a reference, or the number of a heap that is not enabled or cannot be
read (R102, R114, R117). -/
def State.untranslated (s : State) (v : Word) : Bool :=
  match s.slot.map Slot.op with
  | some .reloc | some (.hstat _ _) | some (.heq _ _ _) | some (.cheq _ _ _) => true
  | some (.hflip _ _) =>
    let n : Fin 16 := Fin.ofNat 16 v.toNat
    decide (v.toNat < 16) && (!(heapWord s n 0).getLsbD 0 || s.badAmong ((List.range 8).map (heapPlaceOf n)))
  | _ => false

/-! ### The outcome of a slot -/

/-- The slot waits: the bundle stays open before it, and the step changes nothing else. -/
def State.stall (s : State) : State := s.modOpn fun o => { o with stalled := true }

/-- An entry goes to the head of the relocation order of its heap, unless it has been raised (R102). -/
def State.raiseEntry (s : State) (p : Fin 16 × Nat) : State :=
  let x := s.relocs[p.1.val]
  { s with relocs := s.relocs.set p.1.val { x with raised := if x.raised.contains p.2 then x.raised else p.2 :: x.raised } p.1.isLt }

/-- The outcome of a slot's work: its next state, the state in which its trap has been taken, or the wait. -/
def outcome (s : State) (r : Eff State) : Host.Outcome State Fault Refusal :=
  match r with
  | .ok t => .next t
  | .error (.trap c v a) => .next (takeTrap (if s.untranslated v then s else s.noteWalk (s.who a) c v) c v a)
  | .error .hold => .next s.stall
  | .error (.holdRaise es) => .next (es.foldl State.raiseEntry s).stall

/-- The cluster freezes before the slot: no unit's timeline goes on (R157). -/
def State.freeze (s : State) : State := s.modOpn fun o => { o with stalled := true, arriving := true, phase := 1 }

/-- A cycle in which nothing issues: the open bundle goes on. -/
def State.idle (s : State) : State :=
  let o := s.opn
  let s0 := if s.cl.opn.isSome then s.noteCycles ⟨o.pc, s.bankNo, tswAsn o.regs.tsw, s.now, none, true, (0, 0), []⟩ 1
    else if s.cl.run.isSome then s.noteIdle (tswAsn s.bank.tsw) s.now 1 else s
  let s1 := s0.modCl fun c =>
    { c with time := if o.arriving then c.time else c.time + 1, frozen := if o.arriving then c.frozen + 1 else c.frozen,
             opn := c.opn.map fun o => { o with stalled := false, arriving := false },
             bank := { c.bank with loops := c.bank.loops.map fun (l : LoopLevel) => l.stalls 1 } }
  { s1 with cycle := max (s.cycle + 1) s1.now }

end Sys2Proof.Machine
end

