-- ==== Sys2Proof/Machine/Access.lean ====
section
/-!
DEFINITION. Sys2Proof/Machine/Access.lean: issuing asynchronous memory operations, the counts of WAIT (R67, R68), accesses that a slot makes at
once, and the errors that a slot meets (R138, R317).
-/

namespace Sys2Proof.Machine

/-! ### Outstanding counts (R67, R68) -/

/-- A command that counts in the copies class (R136). -/
def Command.counts (c : Command) : Bool := c.state = .queued || c.state = .running || c.state = .parked

/-- Outstanding operations of an agent of bank `i`, by class (R67); a copy is of the agent that its target names (R135). -/
def outstanding (c : Cluster) (i : Fin 8) (b : Bank) (agent : Fin 9) (cls : WaitClass) : Nat :=
  match cls with
  | .load | .store => (b.ops.filter fun o => o.agent = agent && o.cls = cls).length
  | .copy => (c.cmds.filter fun x => x.bank = i && x.tgt = agent && x.counts).length
  | .tile =>
    match coreOf agent with
    | some k => ((c.cores[k.val]).gathers.filter fun g => g.bank = i).length
    | none => (c.searches.filter fun x => x.bank = i).length

/-- The sequencer and the enabled cores of a mask. -/
def agentsOf (en : BitVec 8) : List (Fin 9) := (List.finRange 9).filter fun a => a.val = 8 || en.getLsbD a.val

/-- The test of WAIT (R67). -/
def waitMet (s : State) (en : BitVec 8) (ld st cp tl : Nat) : Bool :=
  (agentsOf en).all fun a =>
    outstanding s.cl s.bankNo s.bank a .load ≤ ld && outstanding s.cl s.bankNo s.bank a .store ≤ st &&
    outstanding s.cl s.bankNo s.bank a .copy ≤ cp && outstanding s.cl s.bankNo s.bank a .tile ≤ tl

/-- A FENCE is complete (R306): the operations below a number of the sequencer and the enabled cores are performed. -/
def fenceMet (s : State) (upto : Nat) (en : BitVec 8) : Bool :=
  s.bank.ops.all fun o => !((agentsOf en).contains o.agent && decide (o.id < upto))

/-- WAIT shows every load but the newest `ld` of an agent complete: their windows close (R59, R67). -/
def closeWindows (b : Bank) (en : BitVec 8) (ld : Nat) : Bank :=
  let keep (w : LoadWindow) : Bool :=
    !(agentsOf en).contains w.agent ||
    decide ((((b.windows.filter fun x => x.agent = w.agent && w.id < x.id).map LoadWindow.id).eraseDups.length +
      (b.ops.filter fun o => o.agent = w.agent && o.cls = .load).length) < ld)
  { b with windows := b.windows.filter keep }

/-- R68: at most 32 outstanding operations of a class in an agent; a 33rd holds the slot. -/
def roomFor (s : State) (agent : Fin 9) (cls : WaitClass) : Eff Unit :=
  if outstanding s.cl s.bankNo s.bank agent cls < 32 then .ok () else .error .hold

/-- The leaf through which an agent has just translated an address (R90): of its locked windows or of its TLBs. -/
def leafOf (s : State) (agent : Fin 9) (va : Word) : Option Leaf :=
  if isWindow va then none
  else
    match lockOf s agent va with
    | some x => x.leaf
    | none => (s.cl.tlbOf agent ++ (s.die s.cl.id.die).l2).find? fun l => l.matches s.asn va

/-- Issue an operation of the running bank. -/
def issueOp (s : State) (agent : Fin 9) (cls : WaitClass) (acq rel : Bool) (dest : Dest) (accs : List Access) : State :=
  let checked := match coreOf agent with | some k => (s.bank.cores[k.val]).checked | none => s.bank.checked
  let o : MemOp := { id := s.cl.nextOp, agent := agent, cls := cls, acquire := acq, release := rel, dest := dest, accs := accs,
                     checked := checked, src := s.sourceOf agent, fence := s.opn.fence,
                     via := (accs.filterMap fun a => leafOf s agent a.va).eraseDups }
  (s.modCl fun c => { c with nextOp := c.nextOp + 1 }).modBank fun b => { b with ops := b.ops ++ [o] }

/-- Operations with a store or an atomic that is not performed. -/
def MemOp.storing (o : MemOp) : Bool := o.accs.any fun a => !a.done && match a.kind with | .load => false | .store _ | .rmw _ => true

/-- The bank's earlier stores, atomics included, are performed (the device-scope release of R115, R270, R275). -/
def storesDone (s : State) : Bool :=
  s.bank.ops.all fun o => !o.storing

/-! ### Errors that a slot meets (R138, R317) -/

/-- R317: a pending machine check traps at the slot, and MCP is cleared. -/
def takeMachineCheck (s : State) : Option (State × Word) :=
  if tswMcp s.bank.tsw then some (s.modBank fun b => { b with tsw := b.tsw &&& ~~~(0x800 : Word) }, s.bank.mcAddr) else none

/-- R138: the oldest pending courier error traps at the slot and is reported. -/
def takeCourierError (s : State) : Option (State × BitVec 8 × Word) :=
  match s.bank.courierErrs with
  | [] => none
  | (id, cause) :: rest =>
    some (s.modBank fun b => { b with courierErrs := rest }, if cause = 0x16 then 0x16 else 0x12, BitVec.ofNat 64 id)

/-- The slot's outcome when a machine check or, where `courier`, a courier error is pending; none when neither is. Of both the machine check comes
first (DESIGN CHOICE, log 34). The TVAL of a courier error is no address (R323). -/
def pendingError (s : State) (courier : Bool) : Option State :=
  match takeMachineCheck s with
  | some (s1, va) => some (takeTrap s1 0x16 va 8)
  | none =>
    if courier then
      match takeCourierError s with
      | some (s1, cause, id) => some (takeTrap s1 cause id 8 0)
      | none => none
    else none

/-! ### Immediate accesses of a slot -/

/-- A load that a slot makes at once (DEDUCED, log 28): R72 is met at the slot. -/
def loadNow (s : State) (w : Who) (va : Word) (l : Loc) (n : Nat) : Eff (State × Nat) :=
  let s1 := beforeSync s w.agent l n
  if s1.badRead l n then w.trap 0x16 va else .ok (cohNow (s1.correctLoc l n) w.agent l n .load, ownRead s1 w.agent l n)

end Sys2Proof.Machine
end

