-- ==== Sys2Proof/Machine/Operands.lean ====
section
/-!
DEFINITION. Sys2Proof/Machine/Operands.lean: the operand forms of the slots: immediates and displacements (R26, R31),
effective addresses (R58, R106, R161), and special registers as MFS reads and MTS writes them (R44 to R48, R180, R312).
-/

namespace Sys2Proof.Machine

/-- The illegal-instruction trap of the slot (R33). -/
def illegal {α : Type} (s : State) (agent : Fin 9 := 8) : Eff α := .error (.trap 0x01 s.slotWord agent)

/-- The privilege trap of the slot (0x03). -/
def privilege {α : Type} (s : State) : Eff α := .error (.trap 0x03 s.slotWord 8)

/-- A sequencer trap. -/
def seqTrap {α : Type} (cause : BitVec 8) (tval : Word) : Eff α := .error (.trap cause tval 8)

/-- A branch target: the bundle's address and a displacement in words (R26). -/
def branchTarget (s : State) (disp : BitVec 18) : Word := addDisp s.opn.pc (4 * s.extImm 18 disp.toNat)

/-- Base and displacement in units of 2^size bytes (R58, R161). -/
def effAddr (s : State) (base : Word) (w : Nat) (disp : Nat) (size : Nat) : Word :=
  addDisp base (s.extImm w disp * (2 ^ size : Nat))

/-! ### VTYPE (Table 09.4) -/

/-- Element width in bits. -/
def vtEw (t : BitVec 16) : Nat := if t.getLsbD 0 then 32 else 16

/-- Register group. -/
def vtGroup (t : BitVec 16) : Nat := match bits t 2 1 with | 0 => 1 | 1 => 2 | _ => 4

/-- VLMAX (R180). -/
def vlMax (t : BitVec 16) : Nat := 1024 * vtGroup t / vtEw t

/-- The value VTYPE takes, or the format trap (R180). -/
def vtypeOk (v : Word) : Bool := bits v 15 5 = 0 && bits v 2 1 ≠ 3

/-- R48: a power of two from 2^3 to 2^16. -/
def slenOk (v : Word) : Bool := (List.range 14).any fun i => v.toNat = 2 ^ (i + 3)

/-! ### Special registers -/

/-- What MFS reads (Table 03.1). -/
def readSpecial (s : State) (r : SpecialReg) : Word :=
  let b := s.bank
  let o := s.opn
  match r with
  | .pc => o.pc
  | .tsw => o.regs.tsw ||| (if b.checked then 0x200 else 0)
  | .wid => b.wid
  | .trec => b.trec
  | .frame => b.frame
  | .tidx => b.tidx
  | .lrec => b.lrec
  | .slen => o.sampled.slen.setWidth 64
  | .coreEn => o.sampled.coreEn.setWidth 64
  | .skew => o.sampled.skew.setWidth 64
  | .vl => o.sampled.vl.setWidth 64
  | .vtype => o.sampled.vtype.setWidth 64
  | .gpos => o.regs.gen.1.setWidth 64
  | .gseedA => o.regs.gen.2.1.setWidth 64
  | .gseedB => o.regs.gen.2.2.setWidth 64
  | .tvb => o.regs.tvb
  | .tpc => o.regs.tpc
  | .tcause => o.regs.tcause.setWidth 64
  | .tval => o.regs.tval
  | .blkdone => o.regs.blk
  | .tstep => BitVec.ofNat 64 s.tstepNow
  | .cycle => BitVec.ofNat 64 s.now
  | .lc0 => o.regs.lc[0].setWidth 64
  | .lc1 => o.regs.lc[1].setWidth 64
  | .lc2 => o.regs.lc[2].setWidth 64
  | .lc3 => o.regs.lc[3].setWidth 64
  | .lc4 => o.regs.lc[4].setWidth 64
  | .lc5 => o.regs.lc[5].setWidth 64

/-- Write a loop counter: the next end of an iteration of its level decrements the value (R45). -/
def writeLc (s : State) (l : Fin 6) (v : Word) : State := s.modBank fun b => { b with lc := b.lc.set l.val (v.setWidth 32) l.isLt }

/-- R48: the whole value is checked before it is written. -/
def writeSlen (s : State) (v : Word) : Eff State :=
  if slenOk v then .ok (s.post 3 (.slen (v.setWidth 17))) else seqTrap 0x0D v

/-- R45: VL takes min(s_a, VLMAX) under the current VTYPE. -/
def writeVl (s : State) (v : Word) : State := s.post 3 (.vl (BitVec.ofNat 16 (min v.toNat (vlMax s.opn.sampled.vtype))))

/-- R180: VTYPE. -/
def writeVtype (s : State) (v : Word) : Eff State :=
  if vtypeOk v then .ok (s.post 1 (.vtype (v.setWidth 16))) else seqTrap 0x0D v

/-- R46: CORE_EN. -/
def writeCoreEn (s : State) (v : Word) : State := s.post 3 (.coreEn (v.setWidth 8))

/-- R47: SKEW; the bundles after this one wait until every core has executed it under the old skew, so no core runs two bundles in one cycle
(DEDUCED, log 6). -/
def writeSkew (s : State) (v : Word) : State :=
  (s.post 3 (.skew (v.setWidth 2))).modOpn fun o =>
    { o with drain := max o.drain (max 2 (coreCycle 0 o.sampled.skew 7)) }

/-- R312: TSW. -/
def writeTsw (s : State) (v : Word) : State := s.post 3 (.tsw v)

/-- What MTS does (R45 to R48, R180, R312). -/
def writeSpecial (s : State) (r : SpecialReg) (v : Word) : Eff State :=
  if r.supervisorWrite && !s.sup then privilege s
  else
    match r with
    | .tsw => .ok (writeTsw s v)
    | .slen => writeSlen s v
    | .coreEn => .ok (writeCoreEn s v)
    | .skew => .ok (writeSkew s v)
    | .vl => .ok (writeVl s v)
    | .vtype => writeVtype s v
    | .tvb => .ok (s.post 1 (.tvb v))
    | .tpc => .ok (s.post 1 (.tpc v))
    | .tcause => .ok (s.post 1 (.tcause (v.setWidth 8)))
    | .tval => .ok (s.post 1 (.tval v))
    | .lc0 => .ok (writeLc s 0 v)
    | .lc1 => .ok (writeLc s 1 v)
    | .lc2 => .ok (writeLc s 2 v)
    | .lc3 => .ok (writeLc s 3 v)
    | .lc4 => .ok (writeLc s 4 v)
    | .lc5 => .ok (writeLc s 5 v)
    | .pc | .wid | .trec | .frame | .tidx | .lrec | .gpos | .gseedA | .gseedB | .blkdone | .tstep | .cycle => illegal s

end Sys2Proof.Machine
end

