-- ==== Sys2Proof/Machine/Fetch.lean ====
section
/-!
DEFINITION. Sys2Proof/Machine/Fetch.lean: fetching a bundle's words (R27, R73, R84), and the checks of Table 02.3 and
Table 02.4 on them.
-/

namespace Sys2Proof.Machine

/-- One slot word, fetched by the sequencer. A misaligned address raises the alignment trap (DEDUCED from R74, log 19). -/
def fetchWord (s : State) (w : Who) (va : Word) : Eff (State × BitVec 32) := do
  chkForm w va
  if isWindow va then w.trap 0x05 va
  else
    chkAlign w va 4
    let (s1, l) ← locate s w { fetch := true } va 4
    if s1.badRead l 4 then w.trap 0x16 va
    else .ok (s1.correctLoc l 4, BitVec.ofNat 32 (s1.readLoc l 4))

/-- The words of the bundle at `pc`, up to the stop bit; none within 8 is the illegal bundle (R27, R33). -/
def fetchFrom (w : Who) (pc : Word) (i : Nat) (acc : List (BitVec 32)) : Nat → State → Eff (State × List (BitVec 32))
  | 0, _ => w.trap 0x02 pc
  | n + 1, s =>
    match fetchWord s w (pc + BitVec.ofNat 64 (4 * i)) with
    | .error e => .error e
    | .ok (s1, x) => if x.getLsbD 31 then .ok (s1, acc ++ [x]) else fetchFrom w pc (i + 1) (acc ++ [x]) n s1

/-- The whole bundle at `pc`. -/
def fetchBundle (s : State) (w : Who) (pc : Word) : Eff (State × List (BitVec 32)) := fetchFrom w pc 0 [] 8 s

/-- The words that the loop buffer holds of a bundle: they execute even after their page is invalidated (R91). -/
def buffered (b : Bank) (pc : Word) : Option (List (BitVec 32)) :=
  if (b.loops[0]).holds pc then (b.loopBuf.find? fun p => p.1 = pc && !p.2.isEmpty).map Prod.snd else none

/-- The words of a bundle that the running bank has without a fetch: those of its residual (R278), or of its loop buffer. -/
def knownWords (s : State) (pc : Word) : Option (List (BitVec 32)) :=
  match (s.bank.residual.bind fun r => ((s.die s.cl.id.die).residuals.find? fun y => y.num = r.1)).bind fun y => y.points.find? fun p => p.at_.pc = pc with
  | some p => some p.words
  | none => buffered s.bank pc

/-- The address of the word after the bundle at `pc` (R63, R66). -/
def afterBundle (s : State) (pc : Word) : Eff (State × Word) :=
  match knownWords s pc with
  | some ws => .ok (s, pc + BitVec.ofNat 64 (4 * ws.length))
  | none =>
    match fetchBundle s s.seqWho pc with
    | .ok (s1, ws) => .ok (s1, pc + BitVec.ofNat 64 (4 * ws.length))
    | .error e => .error e

/-- A fetched word with its slot. -/
def fetched (x : BitVec 32) : Fetched := ⟨x, (decodeSlot x.toNat).toOption⟩

/-! ### Classes (Table 02.3) -/

/-- The classes of Table 02.3. -/
inductive SlotClass where
  | scalar | branch | system | seqMem | coreMem | vector | unpack | pack | array | engine
deriving DecidableEq, Repr

/-- The place of a class in Table 02.3. -/
def SlotClass.unit : SlotClass → Nat
  | .scalar => 0 | .branch => 1 | .system => 2 | .seqMem => 3 | .coreMem => 4 | .vector => 5 | .unpack => 6 | .pack => 7 | .array => 8
  | .engine => 9

/-- The class of a major opcode (R27, R37). -/
def classOf (m : Nat) : Option SlotClass :=
  if 0x0E ≤ m && m ≤ 0x1F then some .scalar
  else if 0x03 ≤ m && m ≤ 0x07 then some .branch
  else if 0x08 ≤ m && m ≤ 0x0D then some .system
  else if 0x28 ≤ m && m ≤ 0x2F then some .seqMem
  else if 0x30 ≤ m && m ≤ 0x3F && m ≠ 0x37 then some .coreMem
  else if 0x40 ≤ m && m ≤ 0x57 then some .vector
  else if 0x60 ≤ m && m ≤ 0x62 then some .unpack
  else if 0x64 ≤ m && m ≤ 0x67 then some .pack
  else if 0x68 ≤ m && m ≤ 0x6F then some .array
  else if 0x70 ≤ m && m ≤ 0x75 then some .engine
  else none

/-- The major opcode of a slot word. -/
def majorOf (x : BitVec 32) : Nat := bits x 24 18

/-- How many slots of a class a bundle may hold (Table 02.3). -/
def classLimit : SlotClass → Nat
  | .scalar => 2
  | .vector => 3
  | .branch | .system | .seqMem | .coreMem | .unpack | .pack | .array | .engine => 1

/-- The width that a vector slot adds (R28): VSETL counts 0, a reserved field 0. -/
def slotWidth (x : BitVec 32) : Nat :=
  if classOf (majorOf x) = some .vector && majorOf x ≠ 0x40 then (match bits x 5 4 with | 0 => 256 | 1 => 512 | 2 => 1024 | _ => 0) else 0

/-- R27, R28: the limits hold, whatever the guards read. -/
def limitsOk (ws : List (BitVec 32)) : Bool :=
  ([.scalar, .branch, .system, .seqMem, .coreMem, .vector, .unpack, .pack, .array, .engine].all fun c =>
    (ws.filter fun x => classOf (majorOf x) = some c).length ≤ classLimit c) &&
  (ws.map slotWidth).foldl (· + ·) 0 ≤ 2048

/-! ### Prefix chains (R30 to R33) -/

/-- EXT may widen the slot: it has an immediate or displacement, and its major takes EXT (R31, Table 02.5). -/
def takesExt (i : Instr) : Bool :=
  match i with
  | .br _ | .call _ | .addi _ _ _ | .andi _ _ _ | .ori _ _ _ | .xori _ _ _ | .movi _ _ | .cmpi _ _ _ _ => true
  | .ld _ _ _ _ | .ldu _ _ _ _ | .st _ _ _ _ | .hld _ _ _ _ _ | .hst _ _ _ _ => true
  | .gld _ _ _ _ _ | .gst _ _ _ _ | .chld _ _ _ _ _ | .chst _ _ _ _ | .aaddi _ _ _ => true
  | .vld _ _ _ _ _ | .vst _ _ _ _ _ | .vlds _ _ _ _ _ | .vldff _ _ _ _ _ => true
  | _ => false

/-- What a slot that takes ORD does with memory (R32): reads, writes. -/
def ordUse (i : Instr) : Option (Bool × Bool) :=
  match i with
  | .ld _ _ _ _ | .ldu _ _ _ _ | .hld _ _ _ _ _ | .ldref _ _ _ _ | .gld _ _ _ _ _ | .chld _ _ _ _ _ | .cldref _ _ _ _ => some (true, false)
  | .vldff _ _ _ _ _ | .vldg _ _ _ _ _ _ => some (true, false)
  | .st _ _ _ _ | .hst _ _ _ _ | .stref _ _ _ _ | .gst _ _ _ _ | .chst _ _ _ _ | .cstref _ _ _ _ | .vstg _ _ _ _ _ _ => some (false, true)
  | .amo _ _ _ _ | .amow _ _ _ _ | .gamo _ _ _ _ _ | .pin _ _ | .unpin _ | .cpin _ _ | .cunpin _ => some (true, true)
  | _ => none

/-- The order field is allowed on the slot (R32). -/
def orderOk (order : Fin 4) (u : Bool × Bool) : Bool :=
  match order.val with
  | 0 => true
  | 1 => u.1
  | 2 => u.2
  | _ => u.1 && u.2

/-- A prefix word. -/
def isPrefix (x : BitVec 32) : Bool := isPrefixMajor (majorOf x)

/-- The first fault of the chain whose prefixes before slot `j` are `seen` (kinds, the newest first): TVAL (Table 02.4).
`rest` are the words from slot `j` on; a chain ends at the first word that is no prefix. -/
def chainFault (exts ords : Nat) (order : Option (Fin 8 × Fin 4)) (last : BitVec 32) : List (BitVec 32) → Option (BitVec 32)
  | [] => if exts + ords = 0 then none else some last
  | x :: rest =>
    if isPrefix x then
      if bits x 30 25 ≠ 0 then some x
      else if majorOf x = 1 then
        if bits x 17 16 ≠ 0 || exts > 0 then some x else chainFault (exts + 1) ords order x rest
      else
        if bits x 17 6 ≠ 0 || x.getLsbD 2 || ords > 0 then some x
        else chainFault exts (ords + 1) (some (Fin.ofNat 8 (bits x 5 3), Fin.ofNat 4 (bits x 1 0))) x rest
    else
      match (fetched x).slot with
      | none => some x
      | some sl =>
        if exts > 0 && !takesExt sl.op then some x
        else
          match order with
          | none => none
          | some (scope, o) =>
            match ordUse sl.op with
            | none => some x
            | some u => if scope.val < 5 && orderOk o u then none else some x

/-- The length of the prefix chain at the head of a list. -/
def prefixes : List (BitVec 32) → Nat
  | [] => 0
  | x :: t => if isPrefix x then 1 + prefixes t else 0

/-- The lowest slot that meets a condition of Table 02.4, and TVAL; a fault of a chain is at its first prefix. A reserved operand value that
`Instr.wellFormed` refuses is one, also in a slot whose guard reads 0 (DESIGN CHOICE, log 41). -/
def findBad (i : Nat) : Nat → List (BitVec 32) → Option (Nat × Word)
  | _, [] => none
  | 0, x :: rest =>
    match chainFault 0 0 none x (x :: rest) with
    | some t => some (i, t.setWidth 64)
    | none => findBad (i + 1) (prefixes (x :: rest)) rest
  | n + 1, _ :: rest => findBad (i + 1) n rest

end Sys2Proof.Machine
end

