-- ==== Sys2Proof/Machine/Reads.lean ====
section
/-!
DEFINITION. Sys2Proof/Machine/Reads.lean: which registers a slot reads as sources, for checked mode (R319) and for the back-maps of
residuals (R292).
-/

namespace Sys2Proof.Machine

/-- A register of the sequencer that a slot reads: s, q, h, or the target of a write to a special register. -/
inductive SeqReg where
  | s (r : Nat) | q (r : Nat) | h (r : Nat)
  | slen | coreEn | skew | vl | vtype | tsw | tvb | tpc | tcause | tval
deriving DecidableEq, Repr

/-- A register of a core that a slot reads; `v` names the first register of a group. -/
inductive CoreReg where
  | a (r : Nat) | v (r : Nat) | m (r : Nat) | h (r : Nat) | flags
deriving DecidableEq, Repr

/-- The scalar register s_r. -/
def sr (r : Fin 32) : SeqReg := .s r.val
/-- The predicate q_r. -/
def qr (r : Fin 32) : SeqReg := .q r.val
/-- The reference register h_r. -/
def hr (r : Fin 16) : SeqReg := .h r.val

/-- The register that MFS reads. -/
def specialReg (n : BitVec 8) : List SeqReg :=
  match SpecialReg.ofNum n with
  | some .slen => [.slen] | some .coreEn => [.coreEn] | some .skew => [.skew] | some .vl => [.vl] | some .vtype => [.vtype]
  | some .tsw => [.tsw] | some .tvb => [.tvb] | some .tpc => [.tpc] | some .tcause => [.tcause] | some .tval => [.tval]
  | _ => []

/-- The registers of the sequencer that a slot reads; `sole` is the register of a slot that names one only. -/
def slotReads (i : Instr) (sole : Fin 32) : List SeqReg :=
  match i with
  | .mfs _ n => specialReg n
  | .jr | .spawn | .launch | .twait | .tlbinvAsn | .blkdrop | .gseed | .gseedA | .gseedB | .grestart | .barwait | .reloc | .ssrch | .stop =>
    [sr sole]
  | .ret => [.s 31]
  | .ptos => (List.range 31).map fun r => .q (r + 1)
  | .shori d _ => [sr d]
  | .jalr _ a | .loop _ a _ | .tlblk a _ _ | .ldblk _ a _ | .cflush a _ | .cclean a _ | .mts a _ | .xput _ a | .ld _ a _ _ | .ldu _ a _ _
  | .sendh _ a | .estat _ a | .ecan _ a | .bartest a _ | .vsetl _ a _ | .hstat _ a | .cpy _ a _
  | .clz _ a | .ctz _ a | .popc _ a | .brev _ a | .addi _ a _ | .andi _ a _ | .ori _ a _ | .xori _ a _ | .slli _ a _ | .srli _ a _
  | .srai _ a _ | .cmpi _ a _ _ => [sr a]
  | .add _ a b | .sub _ a b | .and _ a b | .or _ a b | .xor _ a b | .sll _ a b | .srl _ a b | .sra _ a b | .mul _ a b | .mulhs _ a b
  | .mulhu _ a b | .min _ a b | .max _ a b | .minu _ a b | .maxu _ a b | .andn _ a b | .addw _ a b | .subw _ a b | .sllw _ a b
  | .srlw _ a b | .sraw _ a b | .mulw _ a b | .rotl _ a b | .rotr _ a b | .div _ a b | .divu _ a b | .rem _ a b | .remu _ a b
  | .cmp _ a b _ | .tlbinvPage a b | .barinit a b _ _ | .baradd a b | .hflip a b => [sr a, sr b]
  | .pand _ a b | .por _ a b | .pxor _ a b | .pandn _ a b => [qr a, qr b]
  | .pnot _ a | .pmov _ a => [qr a]
  | .st r a _ _ => [sr r, sr a]
  | .amo d a b op | .amow d a b op => if op.val = 7 then [sr d, sr a, sr b] else [sr a, sr b]
  | .hld _ h _ _ _ => [hr h]
  | .hst r h _ _ => [sr r, hr h]
  | .ldref _ m b _ => if m then [.h (b.val % 16)] else [sr b]
  | .stref h m b _ => if m then [hr h, .h (b.val % 16)] else [hr h, sr b]
  | .pin _ h | .unpin h => [hr h]
  | .hmov _ y dir => if dir.val = 1 then [sr y] else [.h (y.val % 16)]
  | .heq _ a b => [hr a, hr b]
  | .aconf _ a b k _ => [.s a.val, .s b.val, .s k.val]
  | _ => []

/-- The mask that a slot's msel field selects. -/
def maskReads (msel : Fin 4) : List CoreReg := if msel.val = 0 then [] else [.m msel.val]

/-- The registers of an enabled core that a slot reads. -/
def slotCoreReads (i : Instr) : List CoreReg :=
  match i with
  | .xget _ a _ => [.a a.val]
  | .gld _ a _ _ _ => [.a a.val]
  | .gst r a _ _ => [.a r.val, .a a.val]
  | .gamo d a c _ op => if op.val = 7 then [.a d.val, .a a.val, .a c.val] else [.a a.val, .a c.val]
  | .chld _ h _ _ _ => [.h h.val]
  | .chst r h _ _ => [.a r.val, .h h.val]
  | .cldref _ m b _ => if m then [.h b.val] else [.a b.val]
  | .cstref h m b _ => [.h h.val, if m then .h b.val else .a b.val]
  | .cpin _ h | .cunpin h => [.h h.val]
  | .chmov _ y dir => if dir.val = 1 then [.a y.val] else [.h y.val]
  | .cheq _ a b => [.h a.val, .h b.val]
  | .aaddi _ a _ | .ashl _ a _ | .amov _ a | .amovStride _ a _ => [.a a.val]
  | .aadd _ a b => [.a a.val, .a b.val]
  | .vld _ a _ m _ | .vldff _ a _ m _ | .vlds _ a _ m _ => .a a.val :: maskReads m
  | .vst v a _ m _ => .v v.val :: .a a.val :: maskReads m
  | .vldx _ a x _ m _ | .vldg _ a x _ m _ => .a a.val :: .v x.val :: maskReads m
  | .vstx v a x _ m _ | .vstg v a x _ m _ => .v v.val :: .a a.val :: .v x.val :: maskReads m
  | .agth a d x _ => [.a a.val, .a d.val, .v x.val]
  | .vmac d a b _ m | .vmsub d a b _ m | .vmacs d a b _ m | .vdot2 d a b _ m | .vfma d a b _ m | .vfms d a b _ m | .vfnma d a b _ m
  | .vidot d a b _ m | .vidotu d a b _ m | .vfdot d a b _ m | .vfdota d a b _ m => .v d.val :: .v a.val :: .v b.val :: maskReads m
  | .vadd _ a b _ m | .vsub _ a b _ m | .vadds _ a b _ m | .vsubs _ a b _ m | .vaddus _ a b _ m | .vsubus _ a b _ m | .vavg _ a b _ m
  | .vabd _ a b _ m | .vmul _ a b _ m | .vmulhs _ a b _ m | .vmulhu _ a b _ m | .vmulq _ a b _ m | .vand _ a b _ m | .vor _ a b _ m
  | .vxor _ a b _ m | .vandn _ a b _ m | .vsll _ a b _ m | .vsrl _ a b _ m | .vsra _ a b _ m | .vrot _ a b _ m | .vmin _ a b _ m
  | .vmax _ a b _ m | .vminu _ a b _ m | .vmaxu _ a b _ m | .vceq _ a b _ m | .vclt _ a b _ m | .vcltu _ a b _ m | .vcle _ a b _ m
  | .vfadd _ a b _ m | .vfsub _ a b _ m | .vfmin _ a b _ m | .vfmax _ a b _ m | .vfmul _ a b _ m | .vfeq _ a b _ m | .vflt _ a b _ m
  | .vfle _ a b _ m | .vftot _ a b _ m | .vredsum _ a b _ m | .vredmax _ a b _ m | .vredmin _ a b _ m | .vredarg _ a b _ m
  | .vfredsum _ a b _ m | .vfredmax _ a b _ m | .vfredmin _ a b _ m | .vfredarg _ a b _ m | .vgath _ a b _ m | .vmerge _ a b _ m =>
    .v a.val :: .v b.val :: maskReads m
  | .vslup _ a b _ m | .vsldn _ a b _ m => .v a.val :: .a b.val :: maskReads m
  | .vsplat _ b _ m => .a b.val :: maskReads m
  | .vbcs _ a b _ m => .v a.val :: .a b.val :: maskReads m
  | .vslli _ a _ _ m | .vsrli _ a _ _ m | .vsrai _ a _ _ m | .vsrar _ a _ _ m | .vfabs _ a _ m | .vfneg _ a _ m | .vfsqrt _ a _ m
  | .vfrcp _ a _ m | .vi2f _ a _ _ m | .vf2i _ a _ _ _ m | .vfwid _ a _ m | .vfnar _ a _ m | .vcomp _ a _ m | .vmv _ a _ m =>
    .v a.val :: maskReads m
  | .vid _ _ m => maskReads m
  | .vmvRf _ _ => [.flags]
  | .vmvCf a _ => [.a a.val]
  | .mand _ a b _ | .mor _ a b _ | .mxor _ a b _ => [.m (a.val % 4), .m (b.val % 4)]
  | .mnot _ a _ => [.m (a.val % 4)]
  | .mpopc _ a _ m | .mfirst _ a _ m => .m (a.val % 4) :: maskReads m
  | .vselm _ a _ m => .m (a.val % 4) :: maskReads m
  | .vbscl _ a x _ m => .v a.val :: .v x.val :: maskReads m
  | .upki _ a _ _ | .upkb _ a _ _ | .pcki _ a _ _ | .pckb _ a _ _ | .pscl _ a _ => [.v a.val]
  | .upkf _ a x _ _ | .pckf _ a x _ _ => [.v a.val, .v x.val]
  | .alatchLa k | .alatchLb k | .alatchLbs k => [.a k.val]
  | .adrain d k _ _ _ _ => [.a d.val, .a k.val]
  | .ard _ r _ => [.a r.val]
  | .awr v r _ => [.v v.val, .a r.val]
  | .ascl d x c _ => [.a d.val, .a x.val, .a c.val]
  | .bterm _ a k => [.a a.val, .a k.val]
  | _ => []

end Sys2Proof.Machine
end

