-- ==== Sys2Proof/Machine/Bundle.lean ====
section
/-!
DEFINITION. Sys2Proof/Machine/Bundle.lean: issuing a bundle (R27, R34): delivery of writes, the operand snapshot and the
sampled values, the look-ahead nullifier (R69), checked mode (R319), and the checks before the first slot acts (R33, R64).
-/

namespace Sys2Proof.Machine

/-! ### Reads inside a latency window (R2, R17): each write under way is seen or not, as the free values say -/

/-- The fields of TSW and of CORE_EN are seen separately (R46, R312). -/
def Bank.pickWrite (n : Nat) (b : Bank) (w : SeqWrite) : Bank :=
  match w with
  | .tsw v =>
    let m (i : Nat) (x : Word) : Word := if Config.windowPick (n + i) then x else 0
    let mask := m 0 0xFFFF000000000000 ||| m 1 0xE000 ||| m 2 0x400 ||| m 3 0x100 ||| m 4 1
    { b with tsw := blend b.tsw (tswWrite b.tsw v) mask }
  | .coreEn v =>
    let mask := BitVec.ofNat 8 ((List.range 8).foldl (fun x i => if Config.windowPick (n + i) then x + 2 ^ i else x) 0)
    { b with coreEn := blend b.coreEn v mask }
  | w => if Config.windowPick n then b.write w else b

/-- Fold the writes under way: those that are `sure` are seen, each other one is seen or not; a write draws 16 free values from `n` on. -/
def pickFold {α β : Type} (sure : Pending α → Bool) (see : β → α → β) (pick : Nat → β → α → β) : Nat → List (Pending α) → β → β
  | _, [], x => x
  | n, p :: ps, x => pickFold sure see pick (n + 16) ps (if sure p then see x p.eff else pick n x p.eff)

/-- A core write seen or not; a flag that is not delivered is not seen (R194). -/
def CoreFile.pickWrite (n : Nat) (f : CoreFile) (w : CoreWrite) : CoreFile :=
  match w with
  | .flags _ => f
  | .a _ _ | .v _ _ _ | .m _ _ _ | .h _ _ | .stride _ _ _ | .clear _ => if Config.windowPick n then f.write w else f

/-- VL and VTYPE after a write. -/
def seeVl (x : BitVec 16 × BitVec 16) (w : SeqWrite) : BitVec 16 × BitVec 16 :=
  match w with
  | .vset l t => (l, t)
  | .vl l => (l, x.2)
  | .vtype t => (x.1, t)
  | _ => x

/-- VL and VTYPE as core `k` samples them (R181). -/
def pickVl (k : Fin 8) (n : Nat) (x : BitVec 16 × BitVec 16) (w : SeqWrite) : BitVec 16 × BitVec 16 :=
  if Config.windowPick (n + 1 + k.val) then seeVl x w else x

/-- The write was issued since the return, in checked mode (R319), `t` the cycle of the return on the unit's timeline. -/
def Pending.since {α : Type} (checked : Bool) (t : Nat) (p : Pending α) : Bool := checked && decide (t ≤ p.born)

/-- Put back the old value of a completed load whose window is open, or not (R59). Where a younger write has reached the register inside the
window, the value before the load may be read over it (DESIGN CHOICE, log 4). -/
def pickWindow (n : Nat) (sn : Snapshot) (w : LoadWindow) : Snapshot :=
  if Config.windowPick n then
    let sn1 := match w.seqOld with | some x => { sn with seq := sn.seq.write x } | none => sn
    match coreOf w.agent with
    | some k => { sn1 with cores := sn1.cores.set k.val (w.coreOld.foldl CoreFile.write sn1.cores[k.val]) k.isLt }
    | none => sn1
  else sn

/-- Fold the open load windows. -/
def pickWindows : Nat → List LoadWindow → Snapshot → Snapshot
  | _, [], sn => sn
  | n, w :: ws, sn => pickWindows (n + 1) ws (pickWindow n sn w)

/-- What a bundle that issues now samples: snapshot, sampled values, TSW, VL and VTYPE per core, and the number of free
values drawn. In checked mode every write under way since the return, and in a residual every write, to what it reads has been waited for (R287,
R319), and a residual's folded registers have their values (R286). -/
def sample (s : State) : Snapshot × Sampled × Word × Vector (BitVec 16 × BitVec 16) 8 × Nat :=
  let b := s.bank
  let n := s.freeCtr
  let res := s.point.isSome
  let sure (p : Pending SeqWrite) : Bool := res || p.since b.checked b.checkedAt
  let sb := pickFold sure Bank.write Bank.pickWrite n b.pend b
  let n1 := n + 16 * b.pend.length
  let most := (b.cores.toList.map fun c => c.pend.length).foldl max 0
  let cores := Vector.ofFn fun k : Fin 8 =>
    let c := b.cores[k.val]
    pickFold (fun p => res || p.since c.checked (coreCycle b.checkedAt b.skew k.val)) CoreFile.write CoreFile.pickWrite (n1 + 16 * most * k.val)
      c.pend c.file
  let n2 := n1 + 128 * most
  let open_ := b.windows.filter fun w =>
    !(res || (w.checked && (match coreOf w.agent with | some k => (b.cores[k.val]).checked | none => b.checked)))
  let file := match s.point with | some p => p.before sb.file | none => sb.file
  let sn := pickWindows n2 open_ { seq := file, cores := cores }
  let vl := Vector.ofFn fun k : Fin 8 => pickFold sure seeVl (pickVl k) n b.pend (b.vl, b.vtype)
  (sn, ⟨sb.slen, sb.skew, sb.coreEn, sb.vl, sb.vtype⟩, sb.tsw, vl, n2 + b.windows.length)

/-! ### Guards and the nullifier (R23, R69) -/

/-- The guard field of a slot word. -/
def guardOf (x : BitVec 32) : Nat := bits x 29 25

/-- The guard that judges each word: a prefix has that of the slot it applies to (R30, R69). -/
def guardNumbers : List (BitVec 32) → List Nat
  | [] => []
  | x :: t =>
    let r := guardNumbers t
    (if isPrefix x then r.head?.getD 0 else guardOf x) :: r

/-- The guard values of a bundle, bit i for slot i (R23). -/
def guardValues (q : BitVec 32) (ws : List (BitVec 32)) : BitVec 8 :=
  BitVec.ofNat 8 (((List.range ws.length).zip (guardNumbers ws)).foldl
    (fun n p => if p.2 = 0 || q.getLsbD p.2 then n + 2 ^ p.1 else n) 0)

/-- A guard known at fetch to read 0: every write to it was delivered at or before c - 2, or none issued (R69). -/
def knownZero (b : Bank) (t : Nat) (g : Nat) : Bool :=
  match b.qLast[g]? with
  | some l => g ≠ 0 && !b.file.q.getLsbD g && (l = 0 || decide (l + 1 ≤ t))
  | none => false

/-- The nullifier skips the bundle (R69). -/
def nullified (b : Bank) (t : Nat) (ws : List (BitVec 32)) : Bool := (guardNumbers ws).all (knownZero b t)

/-- The bundle of a residual has no slot that could act: none is kept, or the nullifier skips those that are (R69, R285). -/
def ResPoint.idle (p : ResPoint) (b : Bank) (t : Nat) : Bool :=
  ((List.range p.words.length).zip (guardNumbers p.words)).all fun x => !p.kept.getLsbD x.1 || knownZero b t x.2

/-- The pending AFMTs of a core as a new bundle issues: each has one bundle less to wait for (R220). -/
def CoreBank.tickFmt (c : CoreBank) : CoreBank := { c with pendFmt := c.pendFmt.map fun p => { p with wait := p.wait - 1 } }

/-- A skipped bundle, or one that is removed from a residual: no cycle, no slot acts, its iteration ends happen, and the sums are there in the
cycle it does not take (R65, R69). In a residual, a branch of it that has been resolved has its effect (R281, R282), and it counts for the
pending AFMTs where the original bundle issues: a slot of it is folded, or the nullifier does not know its guards (R287). -/
def skipBundle (s : State) (pc : Word) (len : Nat) : State :=
  let b := s.bank
  let r := match s.point.bind ResPoint.act with
    | some a => b.branch s.cl.time a.2
    | none => Bank.iterEnds s.cl.time b pc (levelsDown 5) b
  let issued := s.point.any fun p => p.folded ≠ 0 || !nullified b s.cl.time p.words
  let b1 : Bank := if issued then { r.1 with cores := r.1.cores.map fun c => c.tickFmt.landFmt } else r.1
  (s.noteExits r.1).modBank fun _ =>
    ({ b1 with pc := r.2.getD (pc + BitVec.ofNat 64 (4 * len)) } : Bank).goOn (s.die s.cl.id.die) s.cl.time 0 false

/-! ### Loop buffer (R64) -/

/-- R64: the 65th bundle of a level-0 body, or a body bundle that spans an end address without beginning at it. -/
def loopBufferFault (b : Bank) (pc : Word) (len : Nat) : Bool :=
  ((b.loops[0]).holds pc && !(b.loopBuf.any fun p => p.1 = pc) && decide (64 ≤ b.loopBuf.length)) ||
  b.loops.toList.any fun l => l.active && decide (pc.toNat < l.last.toNat && l.last.toNat < pc.toNat + 4 * len)

/-- A bundle of the level-0 body enters the loop buffer; with the level inactive the buffer is empty (R64). -/
def enterBuffer (b : Bank) (pc : Word) (ws : List (BitVec 32)) : Bank :=
  if (b.loops[0]).holds pc then { b with loopBuf := (pc, ws) :: b.loopBuf.filter fun p => p.1 ≠ pc }
  else if (b.loops[0]).active then b
  else { b with loopBuf := [] }

/-- The words of the running bank's next bundle: those of its residual (R278), of its loop buffer (R91), or of memory. -/
def nextWords (s : State) : Eff (State × List (BitVec 32)) :=
  match s.point, buffered s.bank s.bank.pc with
  | some p, _ => .ok (s, p.words)
  | none, some ws => .ok (s, ws)
  | none, none => fetchBundle s ⟨8, tswAsn s.bank.tsw, tswSup s.bank.tsw⟩ s.bank.pc

/-- The slots that are there of the running bank's next bundle. -/
def nextKept (s : State) : BitVec 8 := (s.point.map ResPoint.kept).getD 0xFF

/-- The words of the slots that are there, from slot `j` on. -/
def keptWords (kept : BitVec 8) (j : Nat) (ws : List (BitVec 32)) : List (BitVec 32) :=
  (((List.range ws.length).zip ws).filter fun p => j ≤ p.1 && kept.getLsbD p.1).map Prod.snd

/-! ### Checked mode (R319) -/

/-- Checked mode ends in an agent once nothing that it issued since the return is in flight; the first bundle issues in it. -/
def endChecked (b : Bank) : Bank :=
  let busy (a : Fin 9) : Bool := b.ops.any fun o => o.agent = a && o.checked
  { b with
    checked := b.checked && (b.checkedNew || b.pend.any (Pending.since true b.checkedAt) || busy 8),
    cores := Vector.ofFn fun k : Fin 8 =>
      let c := b.cores[k.val]
      { c with checked := c.checked && (b.checkedNew || c.pend.any (Pending.since true (coreCycle b.checkedAt b.skew k.val)) || busy ⟨k.val, by omega⟩) } }

/-- The register that a write of the sequencer bank reaches is read. -/
def SeqWrite.hits (rs : List SeqReg) : SeqWrite → Bool
  | .s r _ => rs.contains (.s r.val)
  | .q r _ => rs.contains (.q r.val)
  | .h r _ => rs.contains (.h r.val)
  | .tsw _ => rs.contains .tsw
  | .slen _ => rs.contains .slen
  | .coreEn _ => rs.contains .coreEn
  | .skew _ => rs.contains .skew
  | .vl _ => rs.contains .vl
  | .vtype _ => rs.contains .vtype
  | .vset _ _ => rs.contains .vl || rs.contains .vtype
  | .tvb _ => rs.contains .tvb
  | .tpc _ => rs.contains .tpc
  | .tcause _ => rs.contains .tcause
  | .tval _ => rs.contains .tval

/-- Register `r` lies in a group of `g` registers that is read. -/
def readsV (g r : Nat) (rs : List CoreReg) : Bool := rs.any fun x => match x with | .v b => b ≤ r && r < b + g | .a _ | .m _ | .h _ | .flags => false

/-- The register that a write of a core bank reaches is read, with groups of `g` registers. -/
def CoreWrite.hits (g : Nat) (rs : List CoreReg) : CoreWrite → Bool
  | .a r _ => rs.contains (.a r.val)
  | .v r _ _ => readsV g r.val rs
  | .m r _ _ => rs.contains (.m r.val)
  | .h r _ => rs.contains (.h r.val)
  | .flags _ | .clear _ => rs.contains .flags
  | .stride _ _ _ => false

/-- The destination of a load is read. -/
def MemOp.hits (g : Nat) (o : MemOp) (ss : List SeqReg) (cs : List CoreReg) : Bool :=
  match o.dest with
  | .none => false
  | .seqS r _ _ => ss.contains (.s r.val)
  | .seqH r => ss.contains (.h r.val)
  | .coreA r _ _ => cs.contains (.a r.val)
  | .coreH r => cs.contains (.h r.val)
  | .coreV r _ _ => (List.range g).any fun i => readsV g (r.val + i) cs

/-- The class is executed by the cores. -/
def SlotClass.coreSide (c : SlotClass) : Bool :=
  match c with
  | .coreMem | .vector | .unpack | .pack | .array => true
  | .scalar | .branch | .system | .seqMem | .engine => false

/-- The registers that a bundle reads: its guards, and the sources of the slots that are there and whose guard reads 1. Vector slots read VL and
VTYPE. -/
def bundleReads (q : BitVec 32) (kept : BitVec 8) (ws : List (BitVec 32)) : List SeqReg × List CoreReg :=
  let on := keptWords (kept &&& guardValues q ws) 0 ws
  let slots := on.filterMap fun x => (fetched x).slot
  ((((List.range ws.length).zip (guardNumbers ws)).filter fun p => kept.getLsbD p.1).map (fun p => SeqReg.q p.2) ++
     slots.flatMap (fun x => slotReads x.op x.sole) ++
     (if on.any fun x => classOf (majorOf x) = some .vector then [.vl, .vtype] else []),
   slots.flatMap fun x => slotCoreReads x.op)

/-- A slot of the sequencer that acts for the enabled cores (R46). -/
def usesCores (i : Instr) : Bool :=
  match i with
  | .xput _ _ | .xget _ _ _ | .wait _ _ _ _ | .fence _ _ | .aconf _ _ _ _ _ | .barwait | .bartest _ _ => true
  | _ => false

/-- In a residual the values that are sampled at issue count as read where a slot uses them (R46, R181, R287). -/
def sampledReads (on : List (BitVec 32)) : List SeqReg :=
  if on.any fun x => (classOf (majorOf x)).any SlotClass.coreSide then [.coreEn, .slen, .vl, .vtype]
  else if on.any fun x => ((fetched x).slot.map Slot.op).any usesCores then [.coreEn, .slen] else [.slen]

/-- What the running bank's next bundle reads, where checked mode or a residual has to know it; nothing outside them, and nothing of a bundle
that cannot be fetched. -/
def checkedReads (s : State) : List SeqReg × List CoreReg :=
  let b := s.bank
  if b.checked || b.cores.toList.any CoreBank.checked || s.point.isSome then
    match nextWords s with
    | .ok (_, ws) =>
      let f := (settle Bank.write never b.pend b).1.file
      let r := bundleReads ((s.point.map fun p => (p.before f).q).getD f.q) (nextKept s) ws
      if s.point.isSome then (r.1 ++ sampledReads (keptWords (nextKept s) 0 ws), r.2) else r
    | .error _ => ([], [])
  else ([], [])

/-- A bundle that reads the destination of a load waits for it: in checked mode of a load issued since the return (R319), in a residual of any
(R287). -/
def checkedHold (s : State) : Bool :=
  let b := s.bank
  let rs := checkedReads s
  b.ops.any fun o => (o.checked || s.point.isSome) && o.hits (vtGroup b.vtype) rs.1 rs.2

/-- A bundle of a residual waits for the array state that its slots may read (R222, R228, R287). -/
def arrayReads (s : State) : Bool :=
  match s.point with
  | some p =>
    (keptWords p.kept 0 p.words).any fun x =>
      classOf (majorOf x) = some .array || (((fetched x).slot.map Slot.op).any fun i => match i with
          | .vld .. | .vst .. | .vlds .. | .vldx .. | .vstx .. => true
          | _ => false)
  | none => false

/-- The cycles until every core is done with the bundles of the bank that ran before, so that none runs two bundles in one cycle (R16). -/
def skewWait (s : State) : Nat := coreCycle (s.cl.lastAt + 1) s.cl.lastSkew 7 - coreCycle s.cl.time s.bank.skew 7

/-- The cycles for which the next bundle waits: until what it reads in checked mode, or in a residual, has been written, and until the cores are
free. -/
def issueWait (s : State) : Nat :=
  let b := s.bank
  let rs := checkedReads s
  let res := s.point.isSome
  let seq := (b.pend.filter fun p => (res || p.since b.checked b.checkedAt) && p.eff.hits rs.1).map fun p => p.due - s.cl.time
  let cores := (List.finRange 8).flatMap fun k =>
    let c := b.cores[k.val]
    let t := coreCycle s.cl.time b.skew k.val
    ((c.pend.filter fun p => (res || p.since c.checked (coreCycle b.checkedAt b.skew k.val)) && p.eff.hits (vtGroup b.vtype) rs.2).map
      fun p => p.due - t) ++
    (if arrayReads s then (s.cl.cores[k.val]).pend.map fun p => p.due - t else [])
  (seq ++ cores).foldl max (skewWait s)

/-- The cycles of that wait pass (DEDUCED, log 10). -/
def awaitWrites (s : State) : State :=
  let n := issueWait s
  if n = 0 then s
  else (s.noteIdle (tswAsn s.bank.tsw) s.now n).modCl fun c =>
    { c with time := c.time + n, bank := { c.bank with loops := c.bank.loops.map fun (l : LoopLevel) => l.stalls n } }

/-! ### Passes of vector, unpack and pack slots (R183) -/

/-- Lane-bits that passes of earlier slots keep busy at cycle `t`. -/
def busyAt (l : List (Nat × Nat)) (t : Nat) : Nat := ((l.filter fun p => p.1 = t).map Prod.snd).foldl (· + ·) 0

/-- The cycles that a bundle's vector slots wait for lanes: passes are consecutive, and there are at most four. -/
def laneWait (l : List (Nat × Nat)) (t width : Nat) : Nat :=
  if width = 0 then 0
  else ((List.range 4).find? fun f => busyAt l (t + f) + width ≤ 2048).getD 4

/-- A slot of the unpack or of the pack unit is among the words. -/
def usesUnit (c : SlotClass) (ws : List (BitVec 32)) : Bool := ws.any fun x => classOf (majorOf x) = some c

/-- The cycles for which a bundle's slots freeze the cluster until lanes and units are free; a slot that is guarded off takes the same time
(R23). -/
def passFreeze (c : Cluster) (ws : List (BitVec 32)) : Nat :=
  let unit (k : SlotClass) (free : Nat) : Nat := if usesUnit k ws then free - c.clock else 0
  max (laneWait c.busyVec c.clock ((ws.map slotWidth).foldl (· + ·) 0)) (max (unit .unpack c.busyUnpack) (unit .pack c.busyPack))

/-- The slots of a bundle of group `g` take lanes and units for their passes, from cycle `t` on. -/
def Cluster.takePasses (t g : Nat) (ws : List (BitVec 32)) (c : Cluster) : Cluster :=
  { c with
    busyVec := (c.busyVec.filter fun p => t < p.1) ++
      ((ws.map slotWidth).filter (· ≠ 0)).flatMap fun w => (List.range (g - 1)).map fun i => (t + 1 + i, w),
    busyUnpack := if usesUnit .unpack ws then t + g else c.busyUnpack,
    busyPack := if usesUnit .pack ws then t + g else c.busyPack }

/-! ### Issue -/

/-- A bundle is to be sampled: the cycle of its issue has passed, and the triggers have judged the cycles up to it and none after it (R355, R359). -/
def sampleDue (c : Cluster) : Bool :=
  c.sample.any fun p =>
    match c.evals with
    | [] => c.opn.isNone || decide (p.1 < c.clock)
    | e :: _ => decide (p.2.cycle < e.1.cycle)

/-- A cycle is to be judged by the triggers, or a bank that they stop has ended its bundle (R359, R360). -/
def triggerDue (c : Cluster) : Bool := (!c.evals.isEmpty && !sampleDue c) || (c.stop.isSome && c.opn.isNone)

/-- Whether the running bank's next bundle may issue. -/
def canIssue (s : State) : Bool :=
  s.cl.run.isSome && s.cl.opn.isNone && s.bank.holds.isEmpty && s.bank.pendTrap.isNone && s.cl.preempt.isNone && !checkedHold s &&
  s.cl.evals.isEmpty && s.cl.sample.isNone && s.cl.stop.isNone

/-- The trap of a WAIT whose hold has ended: the split is at its slot, and NEXT is the address that its bundle has chosen (R136, R138). -/
def holdTrap (s : State) (cause : BitVec 8) (tval pc : Word) (re : Reentry) (va : Word := faultVa cause tval) : State :=
  let tsw := s.bank.tsw
  deliverTrap (s.noteCycle pc (tswAsn tsw) (some cause) false) ⟨8, tswAsn tsw, tswSup tsw⟩ tsw cause tval pc { re with next := some s.bank.pc } false va

/-- Holds whose test is met go away (R67, R306). A WAIT that has passed its test raises the error that is pending by then: a machine check before a
courier error (DESIGN CHOICE, log 34). -/
def releaseHolds (s : State) : State :=
  match s.bank.holds with
  | .wait ld st cp tl en pc re :: rest =>
    if waitMet s en ld st cp tl then
      let s1 := s.modBank fun b => { closeWindows b en ld with holds := rest }
      match takeMachineCheck s1 with
      | some (t, va) => holdTrap t 0x16 va pc re
      | none =>
        match takeCourierError s1 with
        | some (t, cause, id) => holdTrap t cause id pc re 0
        | none => s1
    else s
  | .fence upto en :: rest => if fenceMet s upto en then s.modBank fun b => { b with holds := rest } else s
  | [] => s

/-- The bank enters a bundle of which some slot has committed, or whose registers have been read (R320, R331). -/
def Reentry.inside (r : Reentry) : Bool := r.slot ≠ 0 || r.snap.isSome || r.next.isSome

/-- The next bundle is entered again (R36). -/
def Bank.reentered (b : Bank) : Bool := b.reenter.any Reentry.inside

/-- A bundle that is not entered again counts for the pending AFMTs of every core (R220). -/
def Bank.tickFmt (b : Bank) : Bank := if b.reentered then b else { b with cores := b.cores.map CoreBank.tickFmt }

/-- The units, in the order of Table 02.3, of the slots whose guard reads 1 (R358). -/
def filledUnits (guards : BitVec 8) (ws : List (BitVec 32)) : List Nat :=
  ((List.range ws.length).zip ws).filterMap fun p => if guards.getLsbD p.1 then (classOf (majorOf p.2)).map SlotClass.unit else none

/-- What a committed slot to the left of the entry left to the end of the bundle (R29, R36): the slots' words and guards say it. -/
def committedEnd (slots : List Fetched) (guards : BitVec 8) (j : Nat) : Option EndAct :=
  (List.range j).findSome? fun i =>
    if guards.getLsbD i then
      match ((slots[i]?).bind fun f => f.slot).map Slot.op with
      | some .suspend => some (.suspend i)
      | some .suspendDorm => some .suspendDorm
      | some .join => some (.join i)
      | some .exit => some (.exit i)
      | some .yield => some .yield
      | some .rett => some (.rett i)
      | some .halt => some .halt
      | _ => none
    else none

/-- A bundle of words at `pc` as it issues with what is sampled now. -/
def liveBundle (s : State) (pc : Word) (ws : List (BitVec 32)) : OpenBundle :=
  let b := s.bank
  let live := sample s
  { pc := pc, slots := ws.map fetched, idx := 0, kept := nextKept s, resolved := s.point.bind ResPoint.act, snap := live.1,
    guards := guardValues live.1.seq.q ws, sampled := live.2.1,
    regs := { tsw := live.2.2.1, coreVl := live.2.2.2.1, lc := b.lc, blk := b.blkdone, gen := (b.gpos, b.gseedA, b.gseedB),
              tvb := b.tvb, tpc := b.tpc, tcause := b.tcause, tval := b.tval },
    first := s.cl.nextOp, issued := s.cl.time, bad := findBad 0 0 ws }

/-- The special registers where the bank enters the bundle again. After RETT the loop counters, BLKDONE, GPOS and the seeds are those that the
cluster has kept beside the frame (R207), and VL and VTYPE those of the frame; the others are read as they are (DEDUCED, log 32). -/
def OpenBundle.reRegs (o : OpenBundle) (r : Reentry) : SpecialRegs :=
  let live := { o.regs with coreVl := Vector.replicate 8 (r.sampled.vl, r.sampled.vtype) }
  match r.regs with
  | some x => if r.byRett then { live with lc := x.lc, blk := x.blk, gen := x.gen } else x
  | none => live

/-- The same where the bank enters the bundle again: at the kept slot, with what its slots read at issue (R36, R320, R331). -/
def OpenBundle.resume (o : OpenBundle) (r : Reentry) : OpenBundle :=
  let words := o.slots.map Fetched.word
  let o1 := match r.snap with
    | some sn => { o with snap := sn, guards := if r.fresh then guardValues sn.seq.q words else r.guards, sampled := r.sampled, regs := o.reRegs r }
    | none => o
  { o1 with idx := r.slot, entered := r.slot, next := r.next, byRett := r.byRett, bad := findBad r.slot 0 (words.drop r.slot),
            endAct := committedEnd o1.slots r.guards r.slot }

/-- A bundle has issued: the loop counters count it (R358), and one in 2^SLOG is to be sampled (R355). -/
def State.countIssue (s : State) (o : OpenBundle) : State :=
  let d := s.cl.id.die
  let asn := tswAsn o.regs.tsw
  let units := filledUnits (o.guards &&& o.kept) (o.slots.map Fetched.word)
  let n := s.cl.sinceSample + 1
  let due := s.traced d asn && s.sampleLog d ≠ 0 && decide (2 ^ s.sampleLog d ≤ n)
  let info : CycleInfo := ⟨o.pc, s.bankNo, asn, s.now, none, true, ((s.point).map ResPoint.iters).getD (0, 0), []⟩
  (s.modBank fun b => { b with loops := b.loops.map fun (l : LoopLevel) => l.issue o.pc units }).modCl fun c =>
    { c with sinceSample := if due then 0 else n, sample := if due then some (c.clock, info) else c.sample }

/-- Open a bundle that has been fetched. -/
def openBundle (s : State) (pc : Word) (ws : List (BitVec 32)) : State :=
  let live := liveBundle s pc ws
  let o := match s.bank.reenter with | some r => live.resume r | none => live
  let left := keptWords o.kept o.idx ws
  let o := { o with freeze := passFreeze s.cl left }
  let busy (c : Cluster) : Cluster := c.takePasses (c.clock + o.freeze) (vtGroup o.sampled.vtype) left
  let s1 := if s.bank.reentered then s else s.countIssue o
  { (s1.modBank fun b => { b.tickFmt with reenter := none, checkedNew := false }).modCl (fun c => { busy c with opn := some o }) with
    freeCtr := (sample s).2.2.2.2 }

/-- The slot at which the next bundle of the bank is entered. -/
def entrySlot (b : Bank) : Nat := (b.reenter.map Reentry.slot).getD 0

/-- A trap that the issue of the bundle raises before any of its slots acts: the bank takes it in its next step (TRAP_ENTRY,
BANK_FAULT_WAIT). A bundle that is entered again keeps what it is entered with (R33, R331). `words` are the bundle's words where they are
known, and it has issued; one whose fetch faults has read no guard, and its slots read live registers (log 10). -/
def issueTrap (s : State) (cause : BitVec 8) (tval : Word) (words : Option (List (BitVec 32))) : State :=
  let trap : Option TrapInfo := some ⟨cause, tval, false⟩
  match words with
  | none =>
    (s.noteWalk ⟨8, tswAsn s.bank.tsw, tswSup s.bank.tsw⟩ cause tval).modBank fun b =>
      { b with pendTrap := trap, reenter := some (b.reenter.getD { slot := 0, sampled := (sample s).2.1 }) }
  | some ws =>
    let o := liveBundle s s.bank.pc ws
    (if s.bank.reentered then s else s.countIssue o).modBank fun b =>
      { b.tickFmt with pendTrap := trap, reenter := some (b.reenter.getD (o.reentry 0 none)) }

/-- No slot of the running bank's next bundle acts: the nullifier skips it, or nothing of it is kept. -/
def passesOver (s : State) (ws : List (BitVec 32)) : Bool :=
  match s.point with
  | some p => p.idle s.bank s.cl.time
  | none => (findBad 0 0 ws).isNone && nullified s.bank s.cl.time ws

/-- Issue the running bank's next bundle: it is open, or skipped, or its trap is to be taken (R27, R33, R64, R69, R331). -/
def issueBundle (s0 : State) : State :=
  let s1 := awaitWrites s0
  let s := (s1.settle s1.cl.time).modBank endChecked
  let b := s.bank
  let pc := b.pc
  match nextWords s with
  | .error (.trap c v _) => issueTrap s c v none
  | .error _ => s
  | .ok (s1, ws) =>
    if !limitsOk ws || ws.length ≤ entrySlot b then issueTrap s1 0x02 pc (some ws)
    else if loopBufferFault b pc ws.length then issueTrap s1 0x11 pc (some ws)
    else
      let s2 := s1.modBank fun b => enterBuffer b pc ws
      if !b.reentered && passesOver s ws then skipBundle s2 pc ws.length else openBundle s2 pc ws

end Sys2Proof.Machine
end

