-- ==== Sys2Proof/Machine/System.lean ====
section
/-!
DEFINITION. Sys2Proof/Machine/System.lean: WAIT (R67), FENCE (R306), the traps and the return of major 0x0B (R331), and
the TLB instructions (R88 to R92).
-/

namespace Sys2Proof.Machine

/-! ### WAIT and FENCE -/

/-- The rank of the last enabled core, 0 where none is. -/
def lastCore (en : BitVec 8) : Nat := ((List.range 8).filter en.getLsbD).getLastD 0

/-- The bundles after the open one wait until the last enabled core has reached it. -/
def drainCores (s : State) : State :=
  s.modOpn fun o => { o with drain := max o.drain (coreCycle 0 o.sampled.skew (lastCore o.sampled.coreEn)) }

/-- How the open bundle is entered again at the WAIT that is being performed: its slots to the right have been performed by then, and are not
performed again (DEDUCED, log 34). -/
def waitReentry (o : OpenBundle) : Reentry :=
  { o.reentry o.idx none with guards := o.guards &&& BitVec.ofNat 8 (2 ^ (o.idx + 1) - 1) }

/-- WAIT (R67): the test holds the bundles after the WAIT's. Once it passes, a pending machine check or courier error traps at the slot (R136,
R138, R317). -/
def execWait (ld st cp tl : Fin 16) (s : State) : Host.Outcome State Fault Refusal :=
  let en := s.opn.sampled.coreEn
  match (if waitMet s en ld.val st.val cp.val tl.val then pendingError s true else none) with
  | some t => .next t
  | none => .next ((drainCores s).modBank fun b =>
      { b with holds := b.holds ++ [.wait ld.val st.val cp.val tl.val en s.opn.pc (waitReentry s.opn)] })

/-- FENCE (R306): the bundles after its own wait until every access of the sequencer and the enabled cores before it is performed, and its own
bundle's slots right of it come after those; memory is one for all agents, so they are then performed at every scope (log 5). Order 0 and
scopes 5 to 7 are illegal. -/
def execFence (order : Fin 4) (scope : Fin 8) (s : State) : Host.Outcome State Fault Refusal :=
  if order.val = 0 || 5 ≤ scope.val then outcome s (illegal s)
  else
    match pendingError s false with
    | some t => .next t
    | none =>
      .next (((drainCores s).modBank fun b => { b with holds := b.holds ++ [.fence s.cl.nextOp s.opn.sampled.coreEn] }).modOpn fun o =>
        { o with fence := s.cl.nextOp })

/-! ### Major 0x0B (R331) -/

/-- TRAP: trap 0x15 after the slot, TVAL the immediate (R314, R331). -/
def execTrap (imm : BitVec 15) (s : State) : Host.Outcome State Fault Refusal := .next (trapAfterSlot s 0x15 (imm.setWidth 64))

/-- BKPT: trap 0x13 after the slot, TVAL the immediate (R314, R331). -/
def execBkpt (imm : BitVec 15) (s : State) : Host.Outcome State Fault Refusal := .next (trapAfterSlot s 0x13 (imm.setWidth 64))

/-- What a slot leaves to the end of its bundle (R269, R331). -/
def setEnd (s : State) (a : EndAct) : State := s.modOpn fun o => { o with endAct := some a }

/-- HALT acts at the end of its bundle (R331). -/
def execHalt (s : State) : Host.Outcome State Fault Refusal := .next (setEnd s .halt)

/-- TWAIT holds issue until TSTEP ≥ s_a, unsigned (R331). -/
def execTwait (s : State) : Host.Outcome State Fault Refusal :=
  if (s.rs s.sole).toNat ≤ s.tstepNow then .next s else .next s.stall

/-- The frame as a RETT reads it, as loads that see the sequencer's own earlier stores (R298, R331): its header with the loop state, and the whole
of it where SNAP = 1. -/
def readFrame (s : State) : Eff (State × Mem) := do
  let v := ownView (drainAgent s s.bankNo 8) 8
  let at_ := s.bank.frame + 0x800
  let (_, m) ← blockRead v s.seqWho at_ 0x288
  let n := if (m.word 16).getLsbD 0 then frameLen else 0x288
  let (_, m) ← blockRead v s.seqWho at_ n
  let (s1, _) ← blockRead s s.seqWho at_ n
  .ok (s1, m)

/-- RETT: a privilege trap outside supervisor state; a fault of the frame's read traps here; the return is at the end of the
bundle (R331). -/
def execRett (s : State) : Host.Outcome State Fault Refusal :=
  outcome s
    (if !s.sup then privilege s
     else
      match readFrame s with
      | .error e => .error e
      | .ok (s1, _) => .ok (setEnd s1 (.rett s.opn.idx)))

/-- The end of RETT's bundle. -/
def endRett (s : State) (slot : Nat) : State :=
  match readFrame s with
  | .ok (s1, m) => returnFromTrap s1 m
  | .error (.trap c v a) => takeTrapAt s slot c v a
  | .error _ => s

/-! ### TLB instructions (R88 to R92) -/

/-- Start an invalidation (R89): it goes on by itself, and a ninth waits. -/
def startInv (s : State) (mode : Fin 3) (va : Word) (asn : BitVec 16) : Eff State :=
  if !s.sup then privilege s
  else if 8 ≤ s.bank.tlbinvs.length then .error .hold
  else
    let id := s.cl.nextOp
    .ok ((s.modCl fun c => { c with nextOp := id + 1, invs := c.invs ++ [
        { id := id, bank := s.bankNo, mode := mode, va := va, asn := asn, after := (s.bank.ops.filter MemOp.storing).map MemOp.id }] }).modBank
      fun b => { b with tlbinvs := b.tlbinvs ++ [id] })

/-- TLBINV.page: s_a is checked as R73 states, and a window address is a protection fault (R89). -/
def execTlbinvPage (a b : Fin 32) (s : State) : Host.Outcome State Fault Refusal :=
  outcome s (do
    let va := s.rs a
    if !s.sup then privilege s
    else
      chkForm s.seqWho va
      if isWindow va then seqTrap 0x05 va else startInv s 0 va ((s.rs b).setWidth 16))

/-- TLBINV.asn (R89). -/
def execTlbinvAsn (s : State) : Host.Outcome State Fault Refusal := outcome s (startInv s 1 0 ((s.rs s.sole).setWidth 16))

/-- TLBINV.all (R89). -/
def execTlbinvAll (s : State) : Host.Outcome State Fault Refusal := outcome s (startInv s 2 0 0)

/-- TLBSYNC holds until every earlier TLBINV of the bank is complete (R90): accesses of slots to its left are among those that are to be performed
first. -/
def execTlbsync (s : State) : Host.Outcome State Fault Refusal :=
  if s.bank.tlbinvs.isEmpty || s.opn.abandon then .next (commitLate s) else .next (commitLate s).stall

/-- The size of a locked window (R88). -/
def lockSize (size : Fin 4) : Nat := match size.val with | 0 => 2 ^ 16 | 1 => 2 ^ 21 | _ => 2 ^ 31

/-- TLBLK (R92): the walk's traps are precise at the slot; the slots of later bundles use the entry. -/
def execTlblk (a : Fin 32) (idx : Fin 8) (size : Fin 4) (s : State) : Host.Outcome State Fault Refusal :=
  outcome s (do
    let base := s.rs a
    let w := s.seqWho
    if size.val = 3 then illegal s
    else
      chkForm w base
      if isWindow base then w.trap 0x07 base
      else if base.toNat % lockSize size ≠ 0 then w.trap 0x08 base
      else
        let (s1, l) ← walk s w base
        .ok (s1.modOpn fun o => { o with lockAct := some (.lock idx ⟨base.toNat, lockSize size, some l⟩) }))

/-- TLBUNL (R92). -/
def execTlbunl (idx : Fin 8) (s : State) : Host.Outcome State Fault Refusal :=
  .next (s.modOpn fun o => { o with lockAct := some (.unlock idx) })

/-- TLBUNL.all (R92). -/
def execTlbunlAll (s : State) : Host.Outcome State Fault Refusal :=
  .next (s.modOpn fun o => { o with lockAct := some .unlockAll })

/-- The entries that an invalidation drops (R89). -/
def TlbInv.drops (i : TlbInv) (l : Leaf) : Bool :=
  match i.mode.val with
  | 0 => l.base ≤ bits i.va 55 0 && bits i.va 55 0 < l.base + l.size && (l.asn = i.asn || l.global)
  | 1 => l.asn = i.asn && !l.global
  | _ => true

/-- A locked window whose entry is dropped stays locked (R93, R94). -/
def LockWin.dropLeaf (p : Leaf → Bool) (w : LockWin) : LockWin := if (w.leaf.map p).getD false then { w with leaf := none } else w

/-- Drop entries in a bank's lockable entries; the windows stay locked (R89, R93, R94). -/
def Bank.dropLeaves (p : Leaf → Bool) (b : Bank) : Bank :=
  { b with cores := b.cores.map fun (c : CoreBank) => { c with lock := c.lock.map fun (x : Option LockWin) => x.map (LockWin.dropLeaf p) } }

/-- The entry that a TLBLK of the open bundle is to lock is one too. -/
def OpenBundle.dropLeaves (p : Leaf → Bool) (o : OpenBundle) : OpenBundle :=
  match o.lockAct with
  | some (.lock i w) => { o with lockAct := some (.lock i (w.dropLeaf p)) }
  | _ => o

/-- Drop entries in every TLB of a cluster. -/
def Cluster.dropLeaves (p : Leaf → Bool) (c : Cluster) : Cluster :=
  { c with tlb := c.tlb.filter fun l => !p l,
           cores := c.cores.map fun (k : PhysCore) => { k with tlb := k.tlb.filter fun l => !p l },
           opn := c.opn.map (OpenBundle.dropLeaves p) }.mapBanks (Bank.dropLeaves p)

/-- The operations of a cluster that are not performed, and that were translated through an entry that `p` names. -/
def Cluster.liveOps (p : Leaf → Bool) (c : Cluster) : List (ClusterId × Nat) :=
  ((c.bank :: c.banks.toList).flatMap fun b => (b.ops.filter fun o => o.live && o.via.any p).map fun o => (c.id, o.id))

/-- Every cluster that has left its reset state. -/
def State.clusters (s : State) : List Cluster := s.cl :: s.others

/-- Every TLB of the device drops the entries of an invalidation. -/
def dropEverywhere (s : State) (p : Leaf → Bool) : State :=
  { s with cl := s.cl.dropLeaves p, others := s.others.map (Cluster.dropLeaves p),
           dies := s.dies.map fun (d : Die) => { d with l2 := d.l2.filter fun l => !p l } }

/-- Do some work on a cluster and come back. -/
def onCluster (c : ClusterId) (f : State → State) (s : State) : State := (f (s.focus c)).focus s.cl.id

/-- An invalidation of a bank is complete. -/
def Bank.endInv (k : Nat) (b : Bank) : Bank := { b with tlbinvs := b.tlbinvs.filter fun x => x ≠ k }

/-- The same wherever the bank stands, a shadow slot included (R326). -/
def Cluster.endInv (k : Nat) (c : Cluster) : Cluster := { c with invs := c.invs.filter fun x => x.id ≠ k }.mapBanks (Bank.endInv k)

/-- The release of an invalidation: the issuing bank's earlier stores are performed (R89). -/
def TlbInv.released (i : TlbInv) (c : Cluster) : Bool :=
  (c.bank :: c.banks.toList).all fun b => b.ops.all fun o => !(i.after.contains o.id && o.storing)

/-- TLBINV_COMPLETE (R89, R90): after its release the TLBs drop the entries; it completes once the accesses translated through them are performed. -/
def tlbinvComplete (k : Nat) (s : State) : State :=
  match s.cl.invs.find? fun i => i.id = k with
  | none => s
  | some i =>
    if !i.released s.cl then s
    else
      let s1 := if i.waits.isNone then dropEverywhere s i.drops else s
      let now := s.clusters.flatMap (Cluster.liveOps i.drops)
      let ws := (i.waits.getD now).filter now.contains
      if ws.isEmpty then s1.modCl (Cluster.endInv k)
      else s1.modCl fun c => { c with invs := c.invs.map fun x => if x.id = k then { x with waits := some ws } else x }

/-- TLBINV_COMPLETE: invalidation `a` of cluster `c`. -/
def execTlbinvComplete (s : State) : Host.Outcome State Fault Refusal := .next (onCluster s.ev.c (tlbinvComplete s.ev.a) s)

/-- TLB_MISS_WALK (R82, R85, R86): agent `a` of cluster `c` translates the address `value` for its running task; a walk that
faults enters nothing (R87). -/
def execTlbMissWalk (s : State) : Host.Outcome State Fault Refusal :=
  let f (t : State) : State :=
    match translate t ⟨Fin.ofNat 9 s.ev.a, tswAsn t.bank.tsw, tswSup t.bank.tsw⟩ s.ev.value with
    | .ok (t1, _) => t1
    | .error _ => t
  .next (onCluster s.ev.c f s)

/-- TLB_ENTRY_DROPPED (R87): entry `b` of agent `a` of cluster `c` goes; agent 9 is the second level of the die. -/
def execTlbEntryDropped (s : State) : Host.Outcome State Fault Refusal :=
  let f (t : State) : State :=
    if s.ev.a = 9 then
      let d := t.die t.cl.id.die
      t.setDie t.cl.id.die { d with l2 := d.l2.eraseIdx s.ev.b }
    else t.modCl fun c => c.setTlb (Fin.ofNat 9 s.ev.a) ((c.tlbOf (Fin.ofNat 9 s.ev.a)).eraseIdx s.ev.b)
  .next (onCluster s.ev.c f s)

/-- ASYNC_ACCESS_COMPLETE (R59, R298, R317): access `b` of operation `a` of cluster `c` is performed, if the order allows it and its
bundle has committed (R299). -/
def execAsyncAccessComplete (s : State) : Host.Outcome State Fault Refusal :=
  let f (t : State) : State :=
    match (List.finRange 8).find? fun i => (t.bankAt i).ops.any fun o => o.id = s.ev.a with
    | some i => if committed t s.ev.a then (performOp t i s.ev.a s.ev.b false).getD t else t
    | none => t
  .next (onCluster s.ev.c f s)

end Sys2Proof.Machine
end

