-- ==== Sys2Proof/Machine/LoadStore.lean ====
section
/-!
DEFINITION. Sys2Proof/Machine/LoadStore.lean: sequencer loads, stores and atomics (R58, R59, R308), core scalar accesses
(R161 to R163), and the address-register group (R160).
-/

namespace Sys2Proof.Machine

/-- The checks of a raw scalar access of `n` bytes, in the order of R58: alignment, form, window or translation. -/
def seqPlace (s : State) (u : Use) (ea : Word) (n : Nat) : Eff (State × Loc) := do
  let w := s.seqWho
  chkAlign w ea n
  chkForm w ea
  locate s w u ea n

/-- Issue a load of the sequencer into s_reg (R58, R59). -/
def seqLoad (s : State) (reg : Fin 32) (ea : Word) (n : Nat) (signed : Bool) : Eff State := do
  roomFor s 8 .load
  let (s1, l) ← seqPlace s {} ea n
  .ok (issueOp s1 8 .load s.ordAcq s.ordRel (.seqS reg n signed) [{ va := ea, loc := l, size := n, kind := .load }])

/-- Issue a store of the sequencer (R58, R59). -/
def seqStore (s : State) (x ea : Word) (n : Nat) : Eff State := do
  roomFor s 8 .store
  let (s1, l) ← seqPlace s { write := true } ea n
  .ok (issueOp s1 8 .store s.ordAcq s.ordRel .none [{ va := ea, loc := l, size := n, kind := .store x }])

/-- The effective address of LD, LDU and ST (R58). -/
def seqAddr (s : State) (a : Fin 32) (size : Fin 4) (disp : BitVec 6) : Word := effAddr s (s.rs a) 6 disp.toNat size.val

/-- LD (R58). -/
def execLd (reg a : Fin 32) (size : Fin 4) (disp : BitVec 6) (s : State) : Host.Outcome State Fault Refusal :=
  outcome s (seqLoad s reg (seqAddr s a size disp) (2 ^ size.val) true)

/-- LDU (R58). -/
def execLdu (reg a : Fin 32) (size : Fin 4) (disp : BitVec 6) (s : State) : Host.Outcome State Fault Refusal :=
  outcome s (seqLoad s reg (seqAddr s a size disp) (2 ^ size.val) false)

/-- ST (R58). -/
def execSt (reg a : Fin 32) (size : Fin 4) (disp : BitVec 6) (s : State) : Host.Outcome State Fault Refusal :=
  outcome s (seqStore s (s.rs reg) (seqAddr s a size disp) (2 ^ size.val))

/-- The sequencer's atomics (R308): the form, the windows, the alignment, then the store checks. -/
def seqAtomic (s : State) (d a b : Fin 32) (op : Fin 8) (n : Nat) : Eff State := do
  let ea := s.rs a
  let w := s.seqWho
  roomFor s 8 .load
  chkForm w ea
  if isWindow ea then let _ ← windowLoc s w s.cl.id none ea
  chkAlign w ea n
  let (s1, l) ← locate s w { write := true } ea n
  .ok (issueOp s1 8 .load s.ordAcq s.ordRel (.seqS d n true)
    [{ va := ea, loc := l, size := n, kind := .rmw ⟨op, s.rs b, s.rs d⟩ }])

/-- AMO (R308). -/
def execAmo (d a b : Fin 32) (op : Fin 8) (s : State) : Host.Outcome State Fault Refusal := outcome s (seqAtomic s d a b op 8)

/-- AMOW (R308). -/
def execAmow (d a b : Fin 32) (op : Fin 8) (s : State) : Host.Outcome State Fault Refusal := outcome s (seqAtomic s d a b op 4)

/-! ### Core scalar accesses -/

/-- A core as an agent. -/
def coreWho (s : State) (k : Fin 8) : Who := s.who ⟨k.val, Nat.lt_of_lt_of_le k.isLt (by decide)⟩

/-- The checks of a core access of `n` bytes, in the order of R161. -/
def corePlace (s : State) (k : Fin 8) (u : Use) (ea : Word) (n : Nat) : Eff (State × Loc) := do
  let w := coreWho s k
  chkForm w ea
  chkAlign w ea n
  locate s w u ea n

/-- GLD in core k (R161). -/
def coreLoad (s : State) (k : Fin 8) (reg : Fin 16) (ea : Word) (n : Nat) (signed : Bool) : Eff State := do
  roomFor s (coreWho s k).agent .load
  let (s1, l) ← corePlace s k {} ea n
  .ok (issueOp s1 (coreWho s k).agent .load s.ordAcq s.ordRel (.coreA reg n signed) [{ va := ea, loc := l, size := n, kind := .load }])

/-- GST in core k (R161). -/
def coreStore (s : State) (k : Fin 8) (x ea : Word) (n : Nat) : Eff State := do
  roomFor s (coreWho s k).agent .store
  let (s1, l) ← corePlace s k { write := true } ea n
  .ok (issueOp s1 (coreWho s k).agent .store s.ordAcq s.ordRel .none [{ va := ea, loc := l, size := n, kind := .store x }])

/-- The effective address of GLD and GST (R161). -/
def coreAddr (s : State) (k : Fin 8) (ab : Fin 16) (size : Fin 4) (disp : BitVec 7) : Word :=
  effAddr s (s.ra k ab) 7 disp.toNat size.val

/-- GLD (R161). -/
def execGld (reg ab : Fin 16) (size : Fin 4) (u : Bool) (disp : BitVec 7) (s : State) : Host.Outcome State Fault Refusal :=
  outcome s (eachCore (fun k t => coreLoad t k reg (coreAddr s k ab size disp) (2 ^ size.val) (!u)) s)

/-- GST (R161). -/
def execGst (reg ab : Fin 16) (size : Fin 4) (disp : BitVec 7) (s : State) : Host.Outcome State Fault Refusal :=
  outcome s (eachCore (fun k t => coreStore t k (s.ra k reg) (coreAddr s k ab size disp) (2 ^ size.val)) s)

/-- GAMO in core k (R163). -/
def coreAtomic (s : State) (k : Fin 8) (ad ab ac : Fin 16) (op : Fin 8) (n : Nat) : Eff State := do
  let ea := s.ra k ab
  roomFor s (coreWho s k).agent .load
  let (s1, l) ← corePlace s k { write := true } ea n
  .ok (issueOp s1 (coreWho s k).agent .load s.ordAcq s.ordRel (.coreA ad n true)
    [{ va := ea, loc := l, size := n, kind := .rmw ⟨op, s.ra k ac, s.ra k ad⟩ }])

/-- GAMO (R163). -/
def execGamo (ad ab ac : Fin 16) (w : Bool) (op : Fin 8) (s : State) : Host.Outcome State Fault Refusal :=
  outcome s (eachCore (fun k t => coreAtomic t k ad ab ac op (if w then 4 else 8)) s)

/-! ### Address registers (Table 08.3) -/

/-- AADDI (R160). -/
def execAaddi (ad aa : Fin 16) (imm : BitVec 7) (s : State) : Host.Outcome State Fault Refusal :=
  .next (eachCore' (fun k t => t.postCore k 1 (.a ad (s.ra k aa + toWord (s.extImm 7 imm.toNat)))) s)

/-- AADD (R160). -/
def execAadd (ad aa ab : Fin 16) (s : State) : Host.Outcome State Fault Refusal :=
  .next (eachCore' (fun k t => t.postCore k 1 (.a ad (s.ra k aa + s.ra k ab))) s)

/-- ASHL (R160). -/
def execAshl (ad aa : Fin 16) (sh : Fin 64) (s : State) : Host.Outcome State Fault Refusal :=
  .next (eachCore' (fun k t => t.postCore k 1 (.a ad (s.ra k aa <<< sh.val))) s)

/-- AMOV to a stride: it affects the iteration ends after this bundle (R160). Level 6 and 7 are no levels. -/
def execAmovStride (ad aa : Fin 16) (lvl : Fin 8) (s : State) : Host.Outcome State Fault Refusal :=
  if h : lvl.val < 6 then
    .next (eachCore' (fun k t => t.postCore k 1 (.stride ad ⟨lvl.val, h⟩ (toWord (sextNat 32 (s.ra k aa).toNat)))) s)
  else outcome s (illegal s)

/-- AMOV between address registers (R160). -/
def execAmov (ad aa : Fin 16) (s : State) : Host.Outcome State Fault Refusal :=
  .next (eachCore' (fun k t => t.postCore k 1 (.a ad (s.ra k aa))) s)

/-- ARANK (R160). -/
def execArank (ad : Fin 16) (s : State) : Host.Outcome State Fault Refusal :=
  .next (eachCore' (fun k t => t.postCore k 1 (.a ad (BitVec.ofNat 64 k.val))) s)

end Sys2Proof.Machine
end

