-- ==== Sys2Proof/Machine/Lanes.lean ====
section
/-!
DEFINITION. Sys2Proof/Machine/Lanes.lean: elements of vector register groups and bits of masks: the element count, active
elements, mask and tail policy (R164, R182), and the register writes that a list of elements makes.
-/

namespace Sys2Proof.Machine

/-! ### The configuration of a vector slot (R164, R182) -/

/-- What a core's slot samples of VL and VTYPE: the vector length, the element width in bits, the group, and whether
inactive and tail elements are written (MPOL, TPOL; Table 09.4). -/
structure VecCfg where
  vl : Nat
  ew : Nat
  group : Nat
  mpol : Bool
  tpol : Bool
deriving DecidableEq, Repr

/-- The configuration that core `k` samples (R181). -/
def State.vcfg (s : State) (k : Fin 8) : VecCfg :=
  let x := s.opn.regs.coreVl[k.val]
  ⟨x.1.toNat, vtEw x.2, vtGroup x.2, x.2.getLsbD 4, x.2.getLsbD 3⟩

/-- VLMAX (R180). -/
def VecCfg.max (c : VecCfg) : Nat := 1024 * c.group / c.ew

/-- Lane-bits of a width field (R26). -/
def laneBits (width : Fin 4) : Nat := 256 * 2 ^ width.val

/-- n of R164 and R182. -/
def VecCfg.count (c : VecCfg) (width : Fin 4) : Nat := min c.vl (laneBits width * c.group / c.ew)

/-- A field that names a group is a multiple of it (R164, R182). -/
def VecCfg.aligned (c : VecCfg) (r : Fin 16) : Bool := r.val % c.group = 0

/-- Element `i` is active, of `n`, under the mask that msel selects in core `k`. -/
def State.active (s : State) (k : Fin 8) (msel : Fin 4) (n i : Nat) : Bool :=
  i < n && (msel.val = 0 || (s.rm k msel).getLsbD i)

/-! ### Elements -/

/-- Element `i`, of `ew` bits, of the group that starts at register `r` (R182). -/
def elemOf (v : Fin 16 → VReg) (r : Fin 16) (ew i : Nat) : Nat :=
  (v (regPlus r (i * ew / 1024))).toNat / 2 ^ (i * ew % 1024) % 2 ^ ew

/-- Element `i` of a group as core `k`'s slot reads it. -/
def State.elem (s : State) (k : Fin 8) (r : Fin 16) (ew i : Nat) : Nat := elemOf (s.rv k) r ew i

/-- What an element's bits become: a value, or nothing when they are kept. -/
abbrev ElemWrite := Option Nat

/-- All ones in an element. -/
def ones (ew : Nat) : Nat := 2 ^ ew - 1

/-- The value and the mask that a run of elements of `ew` bits writes, the first at bit `pos`. -/
def packElems (ew : Nat) : Nat → List ElemWrite → Nat × Nat
  | _, [] => (0, 0)
  | pos, e :: es =>
    let r := packElems ew (pos + ew) es
    match e with
    | some x => (r.1 + x % 2 ^ ew * 2 ^ pos, r.2 + ones ew * 2 ^ pos)
    | none => r

/-- The register writes of the elements of a group, register by register. -/
def groupWrites (r : Fin 16) (ew : Nat) (es : List ElemWrite) : Nat → List CoreWrite
  | 0 => []
  | n + 1 =>
    let p := packElems ew 0 (es.take (1024 / ew))
    let rest := groupWrites (regPlus r 1) ew (es.drop (1024 / ew)) n
    if p.2 = 0 then rest else .v r (BitVec.ofNat 1024 p.1) (BitVec.ofNat 1024 p.2) :: rest

/-- Post the writes of a vector group in core `k`. -/
def State.postElems (s : State) (k : Fin 8) (lat : Nat) (r : Fin 16) (ew : Nat) (es : List ElemWrite) : State :=
  (groupWrites r ew es ((es.length * ew + 1023) / 1024)).foldl (fun t w => t.postCore k lat w) s

/-- What an element that is not written by the slot's own result becomes: below `n` the mask policy, from `n` on the tail
policy (R182). -/
def VecCfg.policy (c : VecCfg) (ew n i : Nat) : ElemWrite :=
  if i < n then (if c.mpol then some (ones ew) else none) else if c.tpol then some (ones ew) else none

/-- The elements of a destination group: the active ones take `f i`, the others follow the policies (R182). An empty
slot writes nothing. -/
def VecCfg.elems (c : VecCfg) (n : Nat) (active : Nat → Bool) (f : Nat → Nat) : List ElemWrite :=
  if n = 0 then []
  else (List.range c.max).map fun i => if active i then some (f i) else c.policy c.ew n i

/-- The value and mask of a mask register's bits. -/
def maskBits (es : List ElemWrite) : Nat × Nat := packElems 1 0 es

/-- Post a write of mask register m_d. -/
def State.postMask (s : State) (k : Fin 8) (lat : Nat) (d : Fin 4) (es : List ElemWrite) : State :=
  let p := maskBits es
  if p.2 = 0 then s else s.postCore k lat (.m d (BitVec.ofNat 256 p.1) (BitVec.ofNat 256 p.2))

/-- Post the bits that a slot sets in VFLAGS (R175). -/
def State.postFlags (s : State) (k : Fin 8) (lat : Nat) (f : BitVec 32) : State :=
  if f = 0 then s else s.postCore k lat (.flags f)

/-! ### The accumulator store between a write's issue and its delivery (R228) -/

/-- The accumulator store as it stands, and after each write under way, for a bundle that the core executes from its cycle `t` on. The writes of
slots to the left in that bundle are seen in every view, as R35 has it and R228 allows (DEDUCED, log 37). -/
def PhysCore.accViews (t : Nat) (c : PhysCore) : List Mem :=
  let late := c.pend.filter fun p => match p.eff with | .rows _ _ | .drain _ _ _ | .scale _ _ _ _ => true | .latch _ _ _ | .count _ => false
  let left := late.filter fun p => t ≤ p.born
  let see (d : PhysCore) : Mem := (left.foldl (fun d p => d.write p.eff) d).acc
  see c :: ((late.filter fun p => p.born < t).foldl (fun (r : PhysCore × List Mem) p => let d := r.1.write p.eff; (d, r.2 ++ [see d])) (c, [])).2

/-- One element read from the views: each later one is seen or not (R2). -/
def pickView (off n : Nat) : Nat → List Mem → Nat → Nat
  | _, [], x => x
  | ctr, m :: ms, x => pickView off n (ctr + 1) ms (if Config.windowPick ctr then m.read off n else x)

/-- Elements of `n` bytes at offsets of the accumulator store of core `k`, as a slot reads them, and the free values drawn. -/
def readAcc (s : State) (k : Fin 8) (n : Nat) (offs : List Nat) : List Nat × Nat :=
  let views := (s.cl.cores[k.val]).accViews (coreCycle s.opn.issued s.opn.sampled.skew k.val)
  (((List.range offs.length).zip offs).map fun p =>
      pickView p.2 n (s.freeCtr + p.1 * views.length) views.tail ((views.headD []).read p.2 n),
   s.freeCtr + offs.length * views.length)

end Sys2Proof.Machine
end

