-- ==== Sys2Proof/Machine/VecMem.lean ====
section
/-!
DEFINITION. Sys2Proof/Machine/VecMem.lean: vector access to the scratchpad, the accumulator store and global memory (R157 to
R168), and the porter (R169 to R171).
-/

namespace Sys2Proof.Machine

/-! ### Slots on the core's own pool (R164 to R166) -/

/-- The elements that a vector memory slot makes active, with their addresses, in index order. -/
def activeAddrs (s : State) (k : Fin 8) (msel : Fin 4) (n : Nat) (addr : Nat → Word) : List (Nat × Word) :=
  ((List.range n).filter (s.active k msel n)).map fun i => (i, addr i)

/-- The byte of the core's own pool that an element names, or its trap (R165). -/
def ownPlace (s : State) (k : Fin 8) (ew : Nat) (va : Word) : Eff Loc :=
  let w := coreWho s k
  if bits va 63 57 ≠ 0 || !ownWindow va then w.trap 0x07 va
  else
    match windowLoc s w s.cl.id (some k) va with
    | .error e => .error e
    | .ok l => if va.toNat % (ew / 8) ≠ 0 then w.trap 0x08 va else .ok l

/-- The places of the elements: the lowest element that fails decides the trap. -/
def ownPlaces (s : State) (k : Fin 8) (ew : Nat) : List (Nat × Word) → Eff (List (Nat × Loc))
  | [] => .ok []
  | p :: ps =>
    match ownPlace s k ew p.2 with
    | .error e => .error e
    | .ok l =>
      match ownPlaces s k ew ps with
      | .error e => .error e
      | .ok ls => .ok ((p.1, l) :: ls)

/-- The illegal-instruction checks of a vector memory slot: the width, and the groups (R164). -/
def vecFields (s : State) (k : Fin 8) (width : Fin 4) (rs : List (Fin 16)) : Eff Unit :=
  if width.val = 3 || !rs.all (s.vcfg k).aligned then illegal s (coreWho s k).agent else .ok ()

/-- The value that an element of a load list holds. -/
def lookupElem (xs : List (Nat × Nat)) (i : Nat) : Option Nat := (xs.find? fun p => p.1 = i).map Prod.snd

/-- The elements of a load's destination: those it read, and the policies for the others (R164). -/
def loadElems (c : VecCfg) (n : Nat) (xs : List (Nat × Nat)) : List ElemWrite :=
  if n = 0 then []
  else (List.range c.max).map fun i =>
    match lookupElem xs i with
    | some x => some x
    | none => c.policy c.ew n i

/-- Distinct scratchpad words that the elements touch in a bank, the most of any bank (R157). -/
def bankLoad (ls : List (Nat × Loc)) : Nat :=
  let words := ((ls.filterMap fun p => match p.2 with | .pool _ _ false o => some (o / 4) | _ => none).eraseDups)
  ((List.range 64).map fun b => (words.filter fun w => w % 64 = b).length).foldl max 0

/-- The freeze of VLDS, VLDX and VSTX (R157; DEDUCED, log 26). -/
def freezeFor (s : State) (m : Nat) : State := s.modOpn fun o => { o with freeze := max o.freeze ((m + 1) / 2 - 2) }

/-- The values of a load's elements, and the free values drawn: the scratchpad as it stands, the accumulator store as R228
says. -/
def ownValues (s : State) (k : Fin 8) (n : Nat) : List (Nat × Loc) → Nat → List (Nat × Nat) × Nat
  | [], ctr => ([], ctr)
  | p :: ps, ctr =>
    match p.2 with
    | .pool _ _ true off =>
      let r := readAcc { s with freeCtr := ctr } k n [off]
      let rest := ownValues s k n ps r.2
      ((p.1, r.1.headD 0) :: rest.1, rest.2)
    | l =>
      let rest := ownValues s k n ps ctr
      ((p.1, s.readLoc l n) :: rest.1, rest.2)

/-- A value of `n` bytes of which each is the old or the new one, and the free values drawn. -/
def pickNum (old new : Nat) (ctr n : Nat) : Nat × Nat :=
  if old = new then (old, 0)
  else (leNat ((List.range n).map fun i => BitVec.ofNat 8 ((if Config.windowPick (ctr + i) then new else old) / 2 ^ (8 * i))), n)

/-- Every value old or new, byte by byte. -/
def pickNums (n : Nat) : List (Nat × Nat) → List (Nat × Nat) → Nat → List (Nat × Nat) × Nat
  | x :: xs, y :: ys, ctr =>
    let p := pickNum x.2 y.2 ctr n
    let r := pickNums n xs ys (ctr + p.2)
    ((x.1, p.1) :: r.1, r.2)
  | _, _, ctr => ([], ctr)

/-- A load from the own pool in core `k` (R158, R164, R166); it comes after every acquire of the core (R167, R301), and sees the stores of slots
to its left (R35). A byte that an outstanding operation of the core writes is the old or the new one (R159; DEDUCED, log 39). -/
def ownLoad (s : State) (k : Fin 8) (vd : Fin 16) (width msel : Fin 4) (lat : Nat) (conflicts : Bool) (extra : List (Fin 16))
    (addr : Nat → Word) : Eff State := do
  let c := s.vcfg k
  vecFields s k width (vd :: extra)
  let n := c.count width
  let ls ← ownPlaces s k c.ew (activeAddrs s k msel n addr)
  let a := (coreWho s k).agent
  let s0 := afterAcquire s a
  let old := ownValues (ownView s0 a) k (c.ew / 8) ls s0.freeCtr
  let r := if s0.bank.ops.any fun o => o.agent = a && o.live && o.storing then
      pickNums (c.ew / 8) old.1 (ownValues (ownView (drainAgent s0 s0.bankNo a) a) k (c.ew / 8) ls s0.freeCtr).1 old.2
    else old
  let s1 := { s0.postElems k lat vd c.ew (loadElems c n r.1) with freeCtr := r.2 }
  .ok (if conflicts then freezeFor s1 (bankLoad ls) else s1)

/-- A write of rows of the accumulator store covers the byte at `off`. -/
def ArrayWrite.covers (off : Nat) : ArrayWrite → Bool
  | .drain row vs _ => 512 * row ≤ off && off < 512 * row + 4 * vs.length
  | .scale dst _ _ _ => 512 * dst ≤ off && off < 512 * dst + 512
  | .latch _ _ _ | .count _ | .rows _ _ => false

/-- Store one element: at the end of the cycle, to the scratchpad as the bundle commits (R158, R229, R299). Rows that a slot to the left in the
bundle writes later leave it as it is (R35). -/
def ownPut (k : Fin 8) (n : Nat) (s : State) (l : Loc) (x : Nat) : State :=
  match l with
  | .pool _ _ true off =>
    let t := coreCycle s.opn.issued s.opn.sampled.skew k.val
    let dues := ((s.cl.cores[k.val]).pend.filter fun p => t ≤ p.born && p.eff.covers off).map Pending.due
    dues.foldl (fun u d => u.postArray k (d - u.coreTime k) (.rows off (leBytes x n))) (s.postArray k 1 (.rows off (leBytes x n)))
  | l => s.putLate (coreWho s k).agent l (.put x n)

/-- A store to the own pool in core `k`: the element of higher index stays (R166). -/
def ownStore (s : State) (k : Fin 8) (vs : Fin 16) (width msel : Fin 4) (conflicts : Bool) (extra : List (Fin 16))
    (addr : Nat → Word) : Eff State := do
  let c := s.vcfg k
  vecFields s k width (vs :: extra)
  let n := c.count width
  let ls ← ownPlaces s k c.ew (activeAddrs s k msel n addr)
  let s1 := ls.foldl (fun t p => ownPut k (c.ew / 8) t p.2 (s.elem k vs c.ew p.1)) (afterAcquire s (coreWho s k).agent)
  .ok (if conflicts then freezeFor s1 (bankLoad ls) else s1)

/-- The addresses of VLD, VST and VLDFF (R166, R168). -/
def unitAddr (s : State) (k : Fin 8) (a : Fin 16) (disp : BitVec 6) (i : Nat) : Word :=
  addDisp (s.ra k a) (64 * s.extImm 6 disp.toNat + (i * ((s.vcfg k).ew / 8) : Nat))

/-- The addresses of VLDS (R166). -/
def strideAddr (s : State) (k : Fin 8) (a : Fin 16) (stride : BitVec 6) (i : Nat) : Word :=
  addDisp (s.ra k a) (i * s.extImm 6 stride.toNat * ((s.vcfg k).ew / 8 : Nat))

/-- The addresses of VLDX and VSTX, VLDG and VSTG: the index is an element of v_i (R166, R167). -/
def indexAddr (s : State) (k : Fin 8) (a vi : Fin 16) (unit : Nat) (i : Nat) : Word :=
  addDisp (s.ra k a) (s.elem k vi (s.vcfg k).ew i * unit : Nat)

/-- VLD (R166), latency 4. -/
def execVld (v a : Fin 16) (width msel : Fin 4) (disp : BitVec 6) (s : State) : Host.Outcome State Fault Refusal :=
  outcome s (eachCore (fun k t => ownLoad t k v width msel 4 false [] (unitAddr s k a disp)) s)

/-- VST (R166). -/
def execVst (v a : Fin 16) (width msel : Fin 4) (disp : BitVec 6) (s : State) : Host.Outcome State Fault Refusal :=
  outcome s (eachCore (fun k t => ownStore t k v width msel false [] (unitAddr s k a disp)) s)

/-- VLDS (R166), latency 6. -/
def execVlds (v a : Fin 16) (width msel : Fin 4) (stride : BitVec 6) (s : State) : Host.Outcome State Fault Refusal :=
  outcome s (eachCore (fun k t => ownLoad t k v width msel 6 true [] (strideAddr s k a stride)) s)

/-- VLDX (R166), latency 6. -/
def execVldx (v a vi : Fin 16) (width msel scale : Fin 4) (s : State) : Host.Outcome State Fault Refusal :=
  outcome s (eachCore (fun k t => ownLoad t k v width msel 6 true [vi] (indexAddr s k a vi (2 ^ scale.val))) s)

/-- VSTX (R166). -/
def execVstx (v a vi : Fin 16) (width msel scale : Fin 4) (s : State) : Host.Outcome State Fault Refusal :=
  outcome s (eachCore (fun k t => ownStore t k v width msel true [vi] (indexAddr s k a vi (2 ^ scale.val))) s)

/-! ### Global vector access (R167, R168) -/

/-- Translate and check elements in index order; the lowest that faults decides (R167). -/
def globalPlaces (k : Fin 8) (u : Use) (n : Nat) : List (Nat × Word) → State → Eff (State × List (Nat × Word × Loc))
  | [], s => .ok (s, [])
  | p :: ps, s =>
    match corePlace s k u p.2 n with
    | .error e => .error e
    | .ok (s1, l) =>
      match globalPlaces k u n ps s1 with
      | .error e => .error e
      | .ok (s2, ls) => .ok (s2, (p.1, p.2, l) :: ls)

/-- Issue a vector load of core `k` (R167): its elements, and what the policies write when it retires. A load of no element
is complete at once. -/
def issueVecLoad (s : State) (k : Fin 8) (vd : Fin 16) (n : Nat) (ls : List (Nat × Word × Loc)) : State :=
  let c := s.vcfg k
  if n = 0 then s
  else
    let own (i : Nat) : Bool := ls.any fun p => p.1 = i
    let fillElems := (List.range c.max).map fun i => if own i then none else c.policy c.ew n i
    let fill := (groupWrites vd c.ew fillElems c.group).filterMap fun w => match w with | .v r _ m => some (r, m) | _ => none
    let accs := ls.map fun p => ({ elem := p.1, va := p.2.1, loc := p.2.2, size := c.ew / 8, kind := .load } : Access)
    let s1 := issueOp s (coreWho s k).agent .load s.ordAcq s.ordRel (.coreV vd c.ew fill) accs
    if accs.isEmpty then s1.modBank Bank.retire else s1

/-- VLDG in core `k` (R167). -/
def gatherLoad (s : State) (k : Fin 8) (vd vi : Fin 16) (width msel : Fin 4) (addr : Nat → Word) : Eff State := do
  let c := s.vcfg k
  vecFields s k width [vd, vi]
  roomFor s (coreWho s k).agent .load
  let n := c.count width
  let (s1, ls) ← globalPlaces k {} (c.ew / 8) (activeAddrs s k msel n addr) s
  .ok (issueVecLoad s1 k vd n ls)

/-- VSTG in core `k` (R167). -/
def scatterStore (s : State) (k : Fin 8) (vs vi : Fin 16) (width msel : Fin 4) (addr : Nat → Word) : Eff State := do
  let c := s.vcfg k
  vecFields s k width [vs, vi]
  roomFor s (coreWho s k).agent .store
  let n := c.count width
  let (s1, ls) ← globalPlaces k { write := true } (c.ew / 8) (activeAddrs s k msel n addr) s
  let accs := ls.map fun p =>
    ({ elem := p.1, va := p.2.1, loc := p.2.2, size := c.ew / 8, kind := .store (BitVec.ofNat 64 (s.elem k vs c.ew p.1)) } : Access)
  .ok (if accs.isEmpty then s1 else issueOp s1 (coreWho s k).agent .store s.ordAcq s.ordRel .none accs)

/-- The multiplier of an index: 1, or the element size (R167). -/
def gatherUnit (s : State) (k : Fin 8) (scale : Bool) : Nat := if scale then (s.vcfg k).ew / 8 else 1

/-- VLDG (R167). -/
def execVldg (v a vi : Fin 16) (width msel : Fin 4) (scale : Bool) (s : State) : Host.Outcome State Fault Refusal :=
  outcome s (eachCore (fun k t => gatherLoad t k v vi width msel (indexAddr s k a vi (gatherUnit s k scale))) s)

/-- VSTG (R167). -/
def execVstg (v a vi : Fin 16) (width msel : Fin 4) (scale : Bool) (s : State) : Host.Outcome State Fault Refusal :=
  outcome s (eachCore (fun k t => scatterStore t k v vi width msel (indexAddr s k a vi (gatherUnit s k scale))) s)

/-- The elements of VLDFF up to the first that fails, and that one's index; the first active element may not fail (R168). -/
def faultFirst (k : Fin 8) (size : Nat) (first : Bool) : List (Nat × Word) → State →
    Eff (State × List (Nat × Word × Loc) × Option Nat)
  | [], s => .ok (s, [], none)
  | p :: ps, s =>
    match corePlace s k {} p.2 size with
    | .error e => if first then .error e else .ok (s, [], some p.1)
    | .ok (s1, l) =>
      match faultFirst k size false ps s1 with
      | .error e => .error e
      | .ok (s2, ls, f) => .ok (s2, (p.1, p.2, l) :: ls, f)

/-- The translations of VLDFF in the enabled cores of a list: the places, and the lowest failing index (R168). -/
def faultFirstAll (s : State) (a : Fin 16) (width msel : Fin 4) (disp : BitVec 6) (v : Fin 16) : List (Fin 8) → State → Nat →
    Eff (State × List (Fin 8 × List (Nat × Word × Loc)) × Nat)
  | [], t, m => .ok (t, [], m)
  | k :: ks, t, m =>
    if !s.enabled k then faultFirstAll s a width msel disp v ks t m
    else do
      let c := s.vcfg k
      vecFields s k width [v]
      roomFor s (coreWho s k).agent .load
      let (t1, ls, f) ← faultFirst k (c.ew / 8) true (activeAddrs s k msel (c.count width) (unitAddr s k a disp)) t
      let (t2, rest, m2) ← faultFirstAll s a width msel disp v ks t1 (min m (f.getD m))
      .ok (t2, (k, ls) :: rest, m2)

/-- VL is set at once, over any write of it still under way (R168; DEDUCED, log 28). -/
def setVlNow (s : State) (n : Nat) : State :=
  (s.modBank fun b => { b with pend := b.pend.filterMap fun p =>
      match p.eff with
      | .vl _ => none
      | .vset _ t => some { p with eff := .vtype t }
      | _ => some p }).post 1 (.vl (BitVec.ofNat 16 n))

/-- VLDFF (R168). -/
def execVldff (v a : Fin 16) (width msel : Fin 4) (disp : BitVec 6) (s : State) : Host.Outcome State Fault Refusal :=
  outcome s (do
    let n := min s.opn.sampled.vl.toNat (laneBits width * vtGroup s.opn.sampled.vtype / vtEw s.opn.sampled.vtype)
    let (s1, cores, newvl) ← faultFirstAll s a width msel disp v (List.finRange 8) s n
    let s2 := cores.foldl (fun t p =>
      if n = 0 then t else issueVecLoad t p.1 v newvl (p.2.filter fun x => x.1 < newvl)) s1
    let s3 := if newvl < n then setVlNow s2 newvl else s2
    .ok (s3.modOpn fun o => { o with minTime := max o.minTime (s.cl.time + 7 * o.sampled.skew.toNat + 1) }))

/-! ### The porter (R169 to R171) -/

/-- The width of a row of the A buffer (R155). -/
def rowWidth (part : BitVec 32) (toB : Bool) : Nat := if toB then 256 else if partRf part = 1 then 128 else 256

/-- The source rows of an AGTH, each checked against the share (R170). -/
def gatherRows (s : State) (k : Fin 8) (src : Word) (vi : Fin 16) (w : Nat) : List Nat → Eff (List Nat)
  | [] => .ok []
  | i :: is =>
    let idx := s.elem k vi 16 i
    let o := bits src 21 0 + 64 * idx
    if o + w > shareSize s.cl.part false then (coreWho s k).trap 0x07 (src + BitVec.ofNat 64 (64 * idx))
    else
      match gatherRows s k src vi w is with
      | .error e => .error e
      | .ok os => .ok (o :: os)

/-- A row of the scratchpad from offset `o` on, counted from 0. -/
def PhysCore.row (c : PhysCore) (o w : Nat) : Mem := (Cells.slice c.spad o (o + w)).map fun p => (p.1 - o, p.2)

/-- AGTH in core `k` (R170): the gather is entered. The porter reads for the core (R294), after every acquire of it; a later release does not wait
for its reads (DESIGN CHOICE, log 39). -/
def startGather (s0 : State) (k : Fin 8) (aa ad vi : Fin 16) (n : Nat) : Eff State := do
  let w := coreWho s0 k
  let s := afterAcquire s0 w.agent
  let src := s.ra k aa
  let dst := s.ra k ad
  let width := rowWidth s.cl.part (dst.getLsbD 7)
  if bits src 63 57 ≠ 0 || !(isWindow src && winKind src = 0) then w.trap 0x07 src
  else
    let _ ← windowLoc s w s.cl.id (some k) src
    if src.toNat % 64 ≠ 0 then w.trap 0x08 src
    else
      let rows ← gatherRows s k src vi width (List.range n)
      roomFor s w.agent .tile
      let g : Gather := { id := s.cl.nextOp, bank := s.bankNo, toB := dst.getLsbD 7, row0 := bits dst 6 0, width := width, srcs := rows,
                          olds := rows.map fun o => ((ownView s w.agent).cl.cores[k.val]).row o width }
      .ok ((s.modCl fun c => { c with nextOp := c.nextOp + 1 }).modCore k fun c => { c with gathers := c.gathers ++ [g] })

/-- AGTH (R170). -/
def execAgth (aa ad vi : Fin 16) (cnt : Fin 64) (s : State) : Host.Outcome State Fault Refusal :=
  outcome s (eachCore (fun k t => startGather t k aa ad vi (cnt.val + 1)) s)

/-- `w` bytes at `lo` of which each is the old or the new one, as the free values say (R171), and how many were drawn. -/
def pickBytes (old new : Mem) (w lo ctr : Nat) : Mem × Nat :=
  if old = new then (new.map fun p => (p.1 + lo, p.2), 0)
  else (Cells.tab (fun i => if Config.windowPick (ctr + (i - lo)) then Mem.get new (i - lo) else Mem.get old (i - lo)) lo w, w)

/-- Row `i` of a gather: the bytes taken from the source when the porter read it, or, of a row it has still to read, each that which stood there
at the AGTH or the one that stands there now (R171). -/
def gatherRow (c : PhysCore) (g : Gather) (i ctr : Nat) : Mem × Nat :=
  let old := g.olds.getD i []
  if i < g.next then (old, 0) else pickBytes old (c.row (g.srcs.getD i 0) g.width) g.width 0 ctr

/-- Lay row `i` of a gather, counted from 0, into a buffer. -/
def Gather.lay (g : Gather) (i : Nat) (row buf : Mem) : Mem :=
  let lo := (g.row0 + i) % 128 * g.width
  Cells.replace buf lo (lo + g.width) (row.map fun p => (p.1 + lo, p.2))

/-- Read the next row of a core's oldest gather. With its last row the gather is complete and its rows are written: until then an ALATCH sees
each byte old or new (R170, R171). -/
def copyRow (ctr : Nat) (c : PhysCore) : PhysCore × Nat :=
  match c.gathers with
  | [] => (c, ctr)
  | g :: rest =>
    let r := gatherRow c g g.next ctr
    let g1 := { g with next := g.next + 1, olds := g.olds.set g.next r.1 }
    if g1.next < g.srcs.length then ({ c with gathers := g1 :: rest }, ctr + r.2)
    else
      let lay (buf : Mem) : Mem := (List.range g.srcs.length).foldl (fun m i => g.lay i (g1.olds.getD i []) m) buf
      (if g.toB then { c with bufB := lay c.bufB, gathers := rest } else { c with bufA := lay c.bufA, gathers := rest }, ctr + r.2)

/-- Copy a row in core `k`. -/
def copyRowOf (k : Fin 8) (s : State) : State :=
  let r := copyRow s.freeCtr s.cl.cores[k.val]
  { s.modCore k fun _ => r.1 with freeCtr := r.2 }

/-- Complete every gather of a core (R171, R326). -/
def finishGathers (k : Fin 8) (s : State) : State :=
  (List.range (((s.cl.cores[k.val]).gathers.map fun g => g.srcs.length - g.next).foldl (· + ·) 0)).foldl (fun t _ => copyRowOf k t) s

/-- An operand buffer as ALATCH reads it: each byte of a row that an outstanding gather writes is the old one or the gathered one (R171). With
it, how many values were drawn from `ctr` on. -/
def bufferView (c : PhysCore) (b : Bool) (ctr : Nat) : Mem × Nat :=
  (c.gathers.filter fun g => g.toB = b).foldl (fun r g =>
    (List.range g.srcs.length).foldl (fun r i =>
      let new := gatherRow c g i (ctr + r.2)
      let lo := (g.row0 + i) % 128 * g.width
      let old : Mem := (Cells.slice r.1 lo (lo + g.width)).map fun p => (p.1 - lo, p.2)
      let p := pickBytes old new.1 g.width 0 (ctr + r.2 + new.2)
      (g.lay i p.1 r.1, r.2 + new.2 + p.2)) r) (if b then c.bufB else c.bufA, 0)

/-- AGTH_ROW_COPY (R170): core `a` of cluster `c`. -/
def execAgthRowCopy (s : State) : Host.Outcome State Fault Refusal :=
  .next (onCluster s.ev.c (copyRowOf (Fin.ofNat 8 s.ev.a)) s)

end Sys2Proof.Machine
end

