-- ==== Sys2Proof/Machine/Stream.lean ====
section
/-!
DEFINITION. Sys2Proof/Machine/Stream.lean: the two generators (R204, R205), the bound BND (R208), alignment (R210), GSEED, GRESTART and
GREAD (R213 to R216). The copies of the seeds and of GPOS are equal (R207), and the model holds one (log 7).
-/

namespace Sys2Proof.Machine

/-! ### Generators (R204) -/

/-- brev16. -/
def brev16 (i : BitVec 16) : BitVec 16 :=
  BitVec.ofNat 16 ((List.range 16).foldl (fun n b => if i.getLsbD b then n + 2 ^ (15 - b) else n) 0)

/-- The direction numbers of GB (Table 10.3). -/
def direction : List (BitVec 16) :=
  [0x8000, 0xC000, 0xA000, 0xF000, 0x8800, 0xCC00, 0xAA00, 0xFF00, 0x8080, 0xC0C0, 0xA0A0, 0xF0F0, 0x8888, 0xCCCC, 0xAAAA, 0xFFFF]

/-- START of a seed (Table 10.2). -/
def seedStart (g : BitVec 32) : Nat := bits g 31 16

/-- GA(i) under a seed. -/
def genA (seed : BitVec 32) (i : Nat) : Nat := (brev16 (BitVec.ofNat 16 i) ^^^ seed.setWidth 16).toNat

/-- GB(i) under a seed. -/
def genB (seed : BitVec 32) (i : Nat) : Nat :=
  (((List.range 16).zip direction).foldl (fun (x : BitVec 16) p => if (BitVec.ofNat 16 i).getLsbD p.1 then x ^^^ p.2 else x) 0 ^^^
    seed.setWidth 16).toNat

/-- The index of position `j` of a beat (R205). -/
def genIndex (seed gpos : BitVec 32) (j : Nat) : Nat := (seedStart seed + gpos.toNat + j) % 65536

/-! ### The bound (R208) -/

/-- Bu(k). -/
def bu (k : Nat) : Nat := min (2 ^ k) ((3 * k + 19 + 8) / 9)

/-- BND(t), and 0 for t = 0 (R208, R232). -/
def bnd (t : Nat) : Nat := (List.range 17).foldl (fun n k => if t / 2 ^ k % 2 = 1 then n + bu k else n) 0

/-- GPOS after an advance (R206). -/
def gposNext (g : BitVec 32) : BitVec 32 := BitVec.ofNat 32 (min (g.toNat + 8) 0x10000)

/-! ### Instructions (R213 to R216) -/

/-- GSEED: both seeds (R214). -/
def execGseed (s : State) : Host.Outcome State Fault Refusal :=
  let x := s.rs s.sole
  .next (s.modBank fun b => { b with gseedA := x.setWidth 32, gseedB := x.extractLsb' 32 32 })

/-- gseed.a (R214). -/
def execGseedA (s : State) : Host.Outcome State Fault Refusal :=
  .next (s.modBank fun b => { b with gseedA := (s.rs s.sole).setWidth 32 })

/-- gseed.b (R214). -/
def execGseedB (s : State) : Host.Outcome State Fault Refusal :=
  .next (s.modBank fun b => { b with gseedB := (s.rs s.sole).extractLsb' 32 32 })

/-- GRESTART (R215). -/
def execGrestart (s : State) : Host.Outcome State Fault Refusal :=
  let p : BitVec 32 := (s.rs s.sole).setWidth 32
  outcome s
    (if p.toNat % 8 ≠ 0 || 0x10000 < p.toNat then seqTrap 0x0D (p.setWidth 64)
     else .ok (s.modBank fun b => { b with gpos := p }))

/-- What GREAD reads (R216). -/
def readGen (b : Bank) (sel : Fin 4) (j : Nat) : Word :=
  match sel.val with
  | 0 => BitVec.ofNat 64 (genA b.gseedA (genIndex b.gseedA b.gpos j))
  | 1 => BitVec.ofNat 64 (genB b.gseedB (genIndex b.gseedB b.gpos j))
  | _ => b.gpos.setWidth 64

/-- GREAD (R216). -/
def execGread (ad : Fin 16) (sel : Fin 4) (j : Fin 8) (s : State) : Host.Outcome State Fault Refusal :=
  if sel.val = 3 || (sel.val = 2 && j.val ≠ 0) then outcome s (illegal s)
  else .next (eachCore' (fun k t => t.postCore k 1 (.a ad (readGen s.bank sel j.val))) s)

end Sys2Proof.Machine
end

