-- ==== Sys2Proof/Machine/Array.lean ====
section
/-!
DEFINITION. Sys2Proof/Machine/Array.lean: the stream array (R217 to R238): the format, the latches, the beat, the drain, the confidence
test, and the row instructions.
-/

namespace Sys2Proof.Machine

/-! ### The array format (R219, R220) -/

def fmtMode (f : BitVec 10) : Nat := bits f 1 0
def fmtRoute (f : BitVec 10) : Nat := bits f 7 6
def fmtPol (f : BitVec 10) : Nat := bits f 9 8

/-- A width code of Table 11.1. -/
def fmtWidth (code : Nat) : Nat := match code with | 0 => 4 | 1 => 8 | _ => 16

/-- n of the left edge, of the top edge. -/
def fmtNA (f : BitVec 10) : Nat := fmtWidth (bits f 3 2)
@[inherit_doc fmtNA] def fmtNB (f : BitVec 10) : Nat := fmtWidth (bits f 5 4)

/-- The format in force in core `k` (R220). -/
def State.afmt (s : State) (k : Fin 8) : BitVec 10 := (s.bank.cores[k.val]).fmt

/-- AFMT (R219, R220): pending in every core, for the three bundles after this one. One that takes effect with the next bundle is in force at
once, because AFMT is the only array slot of its bundle; so no more than three are pending. -/
def execAfmt (pol route nb na mode : Fin 4) (s : State) : Host.Outcome State Fault Refusal :=
  if !afmtOk pol route nb na mode then outcome s (illegal s)
  else
    let f : BitVec 10 := BitVec.ofNat 10 (pol.val * 256 + route.val * 64 + nb.val * 16 + na.val * 4 + mode.val)
    .next (allCores (fun k t => t.modCoreBank k fun c => { c.landFmt with pendFmt := c.landFmt.pendFmt ++ [⟨f, 3⟩] }) s)

/-! ### Latches (R221, R222) -/

def tagG : BitVec 8 := 0
def tagBin : BitVec 8 := 1
def tagBasis : BitVec 8 := 2

/-- image(x, n) of R222 for a pattern of n bits. -/
def imageOf (f : BitVec 10) (n x : Nat) : BitVec 16 :=
  if fmtMode f = 0 then BitVec.ofNat 16 (x * 2 ^ (16 - n))
  else BitVec.ofNat 16 (((sextNat n x + (2 ^ (n - 1) : Nat)) * (2 ^ (16 - n) : Nat)).toNat)

/-- elem(row, n, e) of a row that begins at byte `base` of a buffer. -/
def rowElem (m : Mem) (base n e : Nat) : Nat := Mem.read m (base + e * n / 8) 2 / 2 ^ (e * n % 8) % 2 ^ n

/-- The write of a latch, at the end of the next cycle (R228). -/
def setLatch (k : Fin 8) (top : Bool) (tag : BitVec 8) (vs : List (BitVec 16)) (s : State) : State := s.postArray k 2 (.latch top tag vs)

/-- An operand buffer of core `k` as a latch reads it, and the state with what it drew (R171). -/
def latchBuffer (s : State) (k : Fin 8) (toB : Bool) : Mem × State :=
  let r := bufferView (s.cl.cores[k.val]) toB s.freeCtr
  (r.1, { s with freeCtr := s.freeCtr + r.2 })

/-- ALATCH LA in core `k` (R222). -/
def latchA (s : State) (k : Fin 8) (ak : Fin 16) : Eff State :=
  let x := s.ra k ak
  let f := s.afmt k
  let w := rowWidth s.cl.part false
  let (buf, s1) := latchBuffer s k false
  if fmtMode f = 2 then
    if w ≤ x.toNat then (coreWho s k).trap 0x0D x
    else .ok (setLatch k false tagBin ((List.range 128).map fun i => (Mem.get buf (i * w + x.toNat)).setWidth 16) s1)
  else
    let n := fmtNA f
    if 8 * w / n ≤ x.toNat then (coreWho s k).trap 0x0D x
    else .ok (setLatch k false tagG ((List.range 128).map fun i => imageOf f n (rowElem buf (i * w) n x.toNat)) s1)

/-- ALATCH LB in core `k` (R222). -/
def latchB (s : State) (k : Fin 8) (ak : Fin 16) : Eff State :=
  let x := s.ra k ak
  let f := s.afmt k
  let (buf, s1) := latchBuffer s k true
  if 128 ≤ x.toNat then (coreWho s k).trap 0x0D x
  else if fmtMode f = 2 then
    .ok (setLatch k true tagBin ((List.range 128).map fun j => (Mem.get buf (x.toNat * 256 + j)).setWidth 16) s1)
  else
    let n := fmtNB f
    .ok (setLatch k true tagG ((List.range 128).map fun j => imageOf f n (rowElem buf (x.toNat * 256) n j)) s1)

/-- ALATCH LA (R222). -/
def execAlatchLa (ak : Fin 16) (s : State) : Host.Outcome State Fault Refusal := outcome s (eachCore (fun k t => latchA t k ak) s)

/-- ALATCH LB (R222). -/
def execAlatchLb (ak : Fin 16) (s : State) : Host.Outcome State Fault Refusal := outcome s (eachCore (fun k t => latchB t k ak) s)

/-- ALATCH LZ (R222): edge 1 left, 2 top, 3 both. -/
def execAlatchLz (edge : Fin 4) (s : State) : Host.Outcome State Fault Refusal :=
  if edge.val = 0 then outcome s (illegal s)
  else
    let zeros := List.replicate 128 (0 : BitVec 16)
    .next (eachCore' (fun k t =>
      let t1 := if edge.val % 2 = 1 then setLatch k false tagG zeros t else t
      if 2 ≤ edge.val then setLatch k true tagG zeros t1 else t1) s)

/-- A latch as a beat reads it: its tag and its entries. Between an ALATCH and its delivery the tag and each entry are seen
old or new (R222, R228). -/
structure LatchView where
  tag : BitVec 8
  entry : List Nat
deriving DecidableEq, Repr

/-- The latch write under way that an earlier bundle issued. -/
def lateLatch (c : PhysCore) (t : Nat) (top : Bool) : Option (BitVec 8 × List (BitVec 16)) :=
  (c.pend.filterMap fun p =>
    match p.eff with
    | .latch x tag vs => if x = top && p.born < t then some (tag, vs) else none
    | .count _ | .rows _ _ | .drain _ _ _ | .scale _ _ _ _ => none).getLast?

/-- A latch read at cycle `t`, drawing the 129 free values from `ctr` on. -/
def viewLatch (c : PhysCore) (t ctr : Nat) (top : Bool) : LatchView :=
  let cells := if top then c.top else c.left
  let old := (List.range 128).map fun i => (Cells.get cells i).toNat
  let oldTag := if top then c.topTag else c.leftTag
  match lateLatch c t top with
  | none => ⟨oldTag, old⟩
  | some (tag, vs) =>
    ⟨if Config.windowPick ctr then tag else oldTag,
     ((List.range 128).zip old).map fun p => if Config.windowPick (ctr + 1 + p.1) then (vs.getD p.1 0).toNat else p.2⟩

/-! ### Counters (R217, R229) -/

/-- The counters once every write under way is delivered: they land in bundle order. -/
def PhysCore.latest (c : PhysCore) : Cells 24 :=
  ((c.pend.filterMap fun p => match p.eff with | .count v => some v | .latch _ _ _ | .rows _ _ | .drain _ _ _ | .scale _ _ _ _ => none).getLast?).getD c.counters

/-- The counters that a write of an earlier bundle will leave, if one is under way. -/
def lateCount (c : PhysCore) (t : Nat) : Option (Cells 24) :=
  (c.pend.filterMap fun p =>
    match p.eff with
    | .count v => if p.born < t then some v else none
    | .latch _ _ _ | .rows _ _ | .drain _ _ _ | .scale _ _ _ _ => none).getLast?

/-- Counter `i` as a slot of cycle `t` reads it; between a write and its delivery it is old or new (R228). -/
def readCount (c : PhysCore) (t ctr i : Nat) : BitVec 24 :=
  match lateCount c t with
  | none => Cells.get c.counters i
  | some v => if Config.windowPick ctr then Cells.get v i else Cells.get c.counters i

/-- Post the counters that core `k` will hold (R228). -/
def setCounters (k : Fin 8) (v : Cells 24) (s : State) : State := s.postArray k 2 (.count v)

/-- Add `f i` to the counters from `i` on, `n` of them: the sums, saturated, and whether one saturates (R217). -/
def addCounts (f : Nat → Nat) : Nat → Nat → Cells 24 → Cells 24 × Bool
  | 0, _, _ => ([], false)
  | n + 1, i, cells =>
    let here : Nat × Cells 24 := match cells with
      | (a, v) :: t => if a = i then (v.toNat, t) else (0, cells)
      | [] => (0, [])
    let x := here.1 + f i
    let r := addCounts f n (i + 1) here.2
    (Cells.put i (BitVec.ofNat 24 (min x 0xFFFFFF)) r.1, r.2 || decide (0xFFFFFF < x))

/-! ### The beat (R223 to R227) -/

/-- The ones among eight bits. -/
def ones8 (x : Nat) : Nat := (List.range 8).foldl (fun n j => n + x / 2 ^ j % 2) 0

/-- Eight bits as a number. -/
def byteBits (f : Nat → Bool) : Nat := (List.range 8).foldl (fun n j => if f j then n + 2 ^ j else n) 0

/-- What a beat works on in one core. -/
structure BeatView where
  fmt : BitVec 10
  l : LatchView
  t : LatchView
deriving DecidableEq, Repr

/-- bad of R224. -/
def beatBad (v : BeatView) : Nat :=
  if fmtMode v.fmt = 2 then (if v.l.tag = tagBin then 0 else 1) + (if v.t.tag = tagBin then 0 else 2)
  else (if v.l.tag = tagG then 0 else 1) + (if v.t.tag = tagBin then 2 else 0)

/-- gen of R224. -/
def beatGen (v : BeatView) : Bool := fmtMode v.fmt ≠ 2 && v.t.tag = tagG

/-- corr of R224. -/
def beatCorr (v : BeatView) : Bool := beatGen v && fmtRoute v.fmt ≠ 0

/-- live[j] of R224, as a byte. -/
def beatLive (v : BeatView) (b : Bank) (slen : Nat) : Nat :=
  byteBits fun j => fmtMode v.fmt = 2 || decide (b.gpos.toNat + j < slen)

/-- The outputs that the edges compare with at position `j` (R224). -/
def beatOutputs (v : BeatView) (b : Bank) (j : Nat) : Nat × Nat :=
  let a := genA b.gseedA (genIndex b.gseedA b.gpos j)
  let c := genB b.gseedB (genIndex b.gseedB b.gpos j)
  (if fmtRoute v.fmt = 2 then c else a, if fmtRoute v.fmt = 1 then a else c)

/-- The bits that a latch presents, a byte per entry, given the outputs its edge compares with (R202, R224). -/
def edgeBits (l : LatchView) (outs : List Nat) : List Nat :=
  l.entry.map fun x =>
    if l.tag = tagBin then x % 256
    else if l.tag = tagBasis then (if x = 0 then 0 else 255)
    else byteBits fun j => decide (outs.getD j 0 < x)

/-- What cell (i, j2) counts (R224). -/
def cellCount (v : BeatView) (live l t : Nat) : Nat :=
  if fmtMode v.fmt = 0 then ones8 (l &&& t &&& live) else ones8 ((255 ^^^ (l ^^^ t)) &&& live)

/-- aligned(f) of R224. -/
def beatAligned (v : BeatView) (b : Bank) (slen : Nat) : Bool :=
  let a := seedStart b.gseedA
  let c := seedStart b.gseedB
  match fmtRoute v.fmt with
  | 0 => a = c && a % slen = 0
  | 1 => a % slen = 0
  | _ => c % slen = 0

/-- The counters after a counting beat, and whether one saturates. -/
def beatCounts (v : BeatView) (b : Bank) (slen : Nat) (cells : Cells 24) : Cells 24 × Bool :=
  let outs := (List.range 8).map (beatOutputs v b)
  let ls := (edgeBits v.l (outs.map Prod.fst)).toArray
  let ts := (edgeBits v.t (outs.map Prod.snd)).toArray
  let live := beatLive v b slen
  addCounts (fun i => cellCount v live (ls.getD (i / 128) 0) (ts.getD (i % 128) 0)) 16384 0 cells

/-- The latches and the format of core `k`'s beat. -/
def beatView (s : State) (k : Fin 8) : BeatView :=
  let c := s.cl.cores[k.val]
  let n := s.freeCtr + 512 * k.val
  ⟨s.afmt k, viewLatch c (s.coreTime k) n false, viewLatch c (s.coreTime k) (n + 256) true⟩

/-- The checks of a presenting beat in core `k` (R224, R225). -/
def beatCheck (s : State) (k : Fin 8) (counting : Bool) : Eff Unit :=
  let v := beatView s k
  let w := coreWho s k
  if beatBad v ≠ 0 then w.trap 0x0D (BitVec.ofNat 64 (beatBad v))
  else if beatCorr v && counting && fmtPol v.fmt = 0 then w.trap 0x0F (s.bank.gpos.setWidth 64)
  else .ok ()

/-- A presenting beat in core `k`: the counts, and the flags (R224; their latency is DEDUCED, log 26). `s` is the state at the slot. -/
def beatCore (s : State) (counting : Bool) (k : Fin 8) (t : State) : State :=
  let v := beatView s k
  let b := s.bank
  let slen := s.opn.sampled.slen.toNat
  let r := beatCounts v b slen (s.cl.cores[k.val]).latest
  let fl := flagIf (counting && beatCorr v && fmtPol v.fmt = 1) flCORR ||| flagIf (counting && r.2) flOVF |||
    flagIf (beatGen v && beatLive v b slen ≠ 255) flEND ||| flagIf (beatGen v && !beatAligned v b slen) flUNALIGNED
  (if counting then setCounters k r.1 t else t).postFlags k 2 fl

/-- The shift of the top latch (R227). -/
def shiftTop (c : PhysCore) : PhysCore := { c with top := (c.top.filter fun p => p.1 ≠ 0).map fun p => (p.1 - 1, p.2) }

/-- ABEAT (R223 to R227): every check comes before any effect. -/
def execAbeat (sh adv cnt pre : Bool) (s : State) : Host.Outcome State Fault Refusal :=
  outcome s (do
    if cnt && !pre then illegal s
    else
      let s1 ← if pre then eachCore (fun k t => do beatCheck s k cnt; .ok t) s else .ok s
      let s2 := if pre then { eachCore' (beatCore s cnt) s1 with freeCtr := s1.freeCtr + 4096 } else s1
      let s3 := if adv then s2.modBank fun b => { b with gpos := gposNext b.gpos } else s2
      .ok (if sh then eachCore' (fun k t => t.modCore k shiftTop) s3 else s3))

/-! ### Rows (R230 to R238) -/

/-- Rows of the accumulator share (R154). -/
def accRows (part : BitVec 32) : Nat := partAcc part * 128

/-- A row register that names `n` rows from it on, or the window fault. -/
def chkRow (s : State) (k : Fin 8) (row : Word) (n : Nat) : Eff Unit :=
  if accRows s.cl.part < row.toNat + n then (coreWho s k).trap 0x07 row else .ok ()

/-- t of R230. -/
def drainT (s : State) (k : Fin 8) : Nat :=
  if fmtMode (s.afmt k) = 2 then s.bank.gpos.toNat else min s.bank.gpos.toNat s.opn.sampled.slen.toNat

/-- ADRAIN in core `k` (R230, R231). -/
def drainCore (s : State) (k : Fin 8) (ad ak grp : Fin 16) (bip add clr : Bool) (t : State) : Eff State := do
  let row := s.ra k ad
  chkRow s k row 8
  let c := s.cl.cores[k.val]
  let kk : Int := (bits (s.ra k ak) 31 0 : Nat)
  let cs := (List.range 1024).map fun i => readCount c (s.coreTime k) (t.freeCtr + i) (1024 * grp.val + i)
  let vs := cs.map fun x => if bip then 2 * (x.toNat : Int) - kk * drainT s k else (x.toNat : Int)
  let t1 := { t.postArray k 4 (.drain row.toNat vs add) with freeCtr := t.freeCtr + 1024 }
  let left := (List.range 1024).zip cs |>.map fun p => Cells.get c.latest (1024 * grp.val + p.1) - p.2
  .ok (if clr then
      setCounters k (Cells.replace c.latest (1024 * grp.val) (1024 * grp.val + 1024)
        (Cells.tab (fun i => left.getD (i - 1024 * grp.val) 0) (1024 * grp.val) 1024)) t1
    else t1)

/-- ADRAIN (R230). -/
def execAdrain (ad ak grp : Fin 16) (bip add clr : Bool) (s : State) : Host.Outcome State Fault Refusal :=
  outcome s
    (if !bip && ak.val ≠ 0 then illegal s else eachCore (fun k t => drainCore s k ad ak grp bip add clr t) s)

/-- The counter that a register names (R232). -/
def cellOf (x : Word) : Nat := bits x 13 7 * 128 + bits x 6 0

/-- res[core] of R232. -/
def confRes (s : State) (k : Fin 8) (xa xb xk : Word) : Bool :=
  let c := s.cl.cores[k.val]
  let n := s.freeCtr + 2 * k.val
  let a := (readCount c (s.coreTime k) n (cellOf xa)).toNat
  let b := (readCount c (s.coreTime k) (n + 1) (cellOf xb)).toNat
  decide (bits xk 15 0 * bnd (drainT s k) / 256 < (if a ≤ b then b - a else a - b))

/-- ACONF (R232, R233). -/
def execAconf (qd : Fin 32) (sa sb sk : Fin 16) (any : Bool) (s : State) : Host.Outcome State Fault Refusal :=
  let x (r : Fin 16) : Word := s.rs ⟨r.val, Nat.lt_trans r.isLt (by decide)⟩
  let rs := ((List.finRange 8).filter s.enabled).map fun k => confRes s k (x sa) (x sb) (x sk)
  let r := if any then rs.any id else !rs.isEmpty && rs.all id
  .next { s.postQ (2 + 7 * s.opn.sampled.skew.toNat) qd r with freeCtr := s.freeCtr + 16 }

/-- ARD in core `k` (R236). -/
def rowRead (s : State) (k : Fin 8) (vd ar : Fin 16) (q : Fin 4) (t : State) : Eff State := do
  let row := s.ra k ar
  chkRow s k row 1
  let r := readAcc { s with freeCtr := t.freeCtr } k 4 ((List.range 32).map fun l => 512 * row.toNat + 128 * q.val + 4 * l)
  .ok { t.postElems k 3 vd 32 (r.1.map some) with freeCtr := r.2 }

/-- ARD (R236). -/
def execArd (vd ar : Fin 16) (q : Fin 4) (s : State) : Host.Outcome State Fault Refusal :=
  outcome s (eachCore (fun k t => rowRead s k vd ar q t) s)

/-- AWR (R236). -/
def execAwr (vs ar : Fin 16) (q : Fin 4) (s : State) : Host.Outcome State Fault Refusal :=
  outcome s (eachCore (fun k t => do
    let row := s.ra k ar
    chkRow s k row 1
    .ok (t.postArray k 1 (.rows (512 * row.toNat + 128 * q.val) (leBytes (s.rv k vs).toNat 128)))) s)

/-- ASCL (R235, R237): the destination is checked first. -/
def execAscl (ad rs ac : Fin 16) (int : Bool) (s : State) : Host.Outcome State Fault Refusal :=
  outcome s (eachCore (fun k t => do
    chkRow s k (s.ra k ad) 1
    chkRow s k (s.ra k rs) 1
    .ok (t.postArray k 4 (.scale (s.ra k ad).toNat (s.ra k rs).toNat ((s.ra k ac).setWidth 16) int))) s)

/-- ACLR (R238). -/
def execAclr (grp : Fin 16) (s : State) : Host.Outcome State Fault Refusal :=
  .next (eachCore' (fun k t =>
    setCounters k (Cells.clear (s.cl.cores[k.val]).latest (1024 * grp.val) (1024 * grp.val + 1024)) t) s)

/-- aclr.all (R238). -/
def execAclrAll (s : State) : Host.Outcome State Fault Refusal := .next (eachCore' (fun k t => setCounters k [] t) s)

end Sys2Proof.Machine
end

