-- ==== Sys2Proof/Machine/Branch.lean ====
section
/-!
DEFINITION. Sys2Proof/Machine/Branch.lean: branches and loop nests (R60 to R66).
-/

namespace Sys2Proof.Machine

/-- The slot is the bundle's branch; it takes effect at the end of the bundle (R29). -/
def setBranch (s : State) (a : BranchAct) : State := s.modOpn fun o => { o with branch := some a }

/-- A branch to a target, which must be 4-byte aligned (R61). -/
def branchTo (s : State) (target : Word) : Eff State :=
  if target.toNat % 4 ≠ 0 then seqTrap 0x08 target else .ok (setBranch s (.taken target))

/-- BR (R60). -/
def execBr (disp : BitVec 18) (s : State) : Host.Outcome State Fault Refusal :=
  outcome s (branchTo s (branchTarget s disp))

/-- CALL: s31 receives the address after the bundle, latency 1 (R60). -/
def execCall (disp : BitVec 18) (s : State) : Host.Outcome State Fault Refusal :=
  outcome s (branchTo (s.postS 1 31 s.opn.after) (branchTarget s disp))

/-- JR (R61). -/
def execJr (s : State) : Host.Outcome State Fault Refusal := outcome s (branchTo s (s.rs s.sole))

/-- JALR (R61). -/
def execJalr (d a : Fin 32) (s : State) : Host.Outcome State Fault Refusal :=
  outcome s (branchTo (s.postS 1 d s.opn.after) (s.rs a))

/-- RET: the target is s31 (R61). -/
def execRet (s : State) : Host.Outcome State Fault Refusal := outcome s (branchTo s (s.rs 31))

/-- The loop-buffer trap of a slot (R64, R66). -/
def loopTrap {α : Type} (s : State) : Eff α := seqTrap 0x11 s.slotWord

/-- R64: every level below is active, none at or above, and the body ends within the body of the level below. -/
def loopNests (b : Bank) (l : Fin 6) (last : Word) : Bool :=
  ((List.finRange 6).all fun i => (b.loops[i.val]).active == decide (i.val < l.val)) &&
  (if l.val = 0 then true else decide (last.toNat ≤ ((b.loops[l.val - 1]?).getD {}).last.toNat))

/-- LOOP (R63, R64). -/
def execLoop (level : Fin 8) (a : Fin 32) (fin : BitVec 10) (s : State) : Host.Outcome State Fault Refusal :=
  outcome s
    (if h : level.val < 6 then
      let l : Fin 6 := ⟨level.val, h⟩
      let n := s.opn.after
      let last := n + BitVec.ofNat 64 (4 * fin.toNat)
      let count := (s.rs a).setWidth 32
      if !loopNests s.bank l last then loopTrap s
      else if count = 0 then
        match afterBundle s last with
        | .ok (s1, after) => .ok (setBranch s1 (.loop l count n last after))
        | .error e => .error e
      else .ok (setBranch s (.loop l count n last last))
    else illegal s)

/-- The loop level whose counter a special register is. -/
def SpecialReg.level : SpecialReg → Option Nat
  | .lc0 => some 0 | .lc1 => some 1 | .lc2 => some 2 | .lc3 => some 3 | .lc4 => some 4 | .lc5 => some 5
  | _ => none

/-- lc of a level at the end of the open bundle: an MTS to it right of the slot being performed counts (R45, R66). -/
def lcAtEnd (s : State) (l : Fin 6) : BitVec 32 :=
  ((List.range s.opn.slots.length).filter fun i => s.opn.idx < i && s.opn.guards.getLsbD i && s.opn.kept.getLsbD i).foldl
    (fun v i => match ((s.opn.slots[i]?).bind Fetched.slot).map Slot.op with
      | some (.mts a n) => if (SpecialReg.ofNum n).bind SpecialReg.level = some l.val then (s.rs a).setWidth 32 else v
      | _ => v) s.bank.lc[l.val]

/-- No level of a list, taken from the innermost outward, loops back at the end bundle `at_` (R65). -/
def leavesLoops (b : Bank) (lc : Fin 6 → BitVec 32) (at_ : Word) : List (Fin 6) → Bool
  | [] => true
  | l :: ls =>
    let lv := b.loops[l.val]
    if lv.active && lv.last = at_ then lc l = 1 && leavesLoops b lc at_ ls
    else lv.active || leavesLoops b lc at_ ls

/-- The slot ends iterations of levels at the end bundle `at_`. Only where none of them loops back does the bundle's length matter: it is fetched
then, and a fetch fault or a missing stop bit is reported here (DESIGN CHOICE, log 31). -/
def leaveLoops (s : State) (ls : List (Fin 6)) (at_ : Word) (act : Word → BranchAct) : Eff State :=
  if leavesLoops s.bank (fun l => s.bank.lc[l.val]) at_ ls || leavesLoops s.bank (lcAtEnd s) at_ ls then
    match afterBundle s at_ with
    | .ok (s1, after) => .ok (setBranch s1 (act after))
    | .error e => .error e
  else .ok (setBranch s (act at_))

/-- LOOPX (R66): the levels below that share the end bundle end their iterations. -/
def execLoopx (level : Fin 8) (s : State) : Host.Outcome State Fault Refusal :=
  outcome s
    (if h : level.val < 6 then
      let l : Fin 6 := ⟨level.val, h⟩
      if !(s.bank.loops[l.val]).active then loopTrap s
      else leaveLoops s (if l.val = 0 then [] else levelsDown (l.val - 1)) (s.bank.loops[l.val]).last (BranchAct.loopx l)
    else illegal s)

/-- LOOPC (R66): its own level ends its iteration too. -/
def execLoopc (level : Fin 8) (s : State) : Host.Outcome State Fault Refusal :=
  outcome s
    (if h : level.val < 6 then
      let l : Fin 6 := ⟨level.val, h⟩
      if !(s.bank.loops[l.val]).active then loopTrap s
      else leaveLoops s (levelsDown l.val) (s.bank.loops[l.val]).last (BranchAct.loopc l)
    else illegal s)

end Sys2Proof.Machine
end

