-- ==== Sys2Proof/Machine/Cache.lean ====
section
/-!
DEFINITION. Sys2Proof/Machine/Cache.lean: load-blocks and cache maintenance (R124 to R131). A handle and its BLKDONE bit are what a program
sees of a block (R124); the block itself stands with its die (Machine/Directory.lean).
-/

namespace Sys2Proof.Machine

/-- LDBLK's checks (R129): the leaf of the base, and the physical place of the first line. -/
def blockPlace (s : State) (base : Word) (n : Nat) : Eff (State × Nat) := do
  let w := s.seqWho
  chkForm w base
  if isWindow base then w.trap 0x07 base
  else
    chkAlign w base 128
    let (s1, l) ← findLeaf s w base
    chkLeaf s1 w { nopin := true } l base
    let pa ← leafLoc w l base 128
    if l.base + l.size < base.toNat + 128 * n then w.trap 0x08 base else .ok (s1, pa)

/-- The lowest free handle of the bank (R129). -/
def freeHandle (b : Bank) : Option (Fin 64) := (List.finRange 64).find? fun h => (b.handles[h.val]).isNone

/-- Change a handle. -/
def Bank.setHandle (b : Bank) (h : Fin 64) (x : Option BlockHandle) : Bank := { b with handles := b.handles.set h.val x h.isLt }

/-- LDBLK (R129): the block is declared, and its lines come with BLOCK_FILL_COMPLETE. -/
def execLdblk (d a : Fin 32) (n : Fin 64) (s : State) : Host.Outcome State Fault Refusal :=
  outcome s (do
    let (s1, pa) ← blockPlace s (s.rs a) (n.val + 1)
    match freeHandle s1.bank with
    | none => .ok (s1.postS 1 d 0xFFFFFFFFFFFFFFFF)
    | some h =>
      let num := (s1.die s1.cl.id.die).nextBlock
      let s2 := s1.declare s1.cl.id.die (pa / 128) (n.val + 1) s.slotSource
      .ok ((s2.modBank fun b => b.setHandle h (some ⟨some (s1.cl.id.die, num), false⟩)).postS 1 d (BitVec.ofNat 64 h.val)))

/-- BLKDROP (R130): the handle is free and its bit 0, and its block is one no more; a value that names no held handle does nothing. -/
def execBlkdrop (s : State) : Host.Outcome State Fault Refusal :=
  let x := s.rs s.sole
  if h : x.toNat < 64 then
    let s1 := match (s.bank.handles[x.toNat]).bind BlockHandle.block with
      | some p => s.untag p.1 p.2
      | none => s
    .next (s1.modBank fun b => b.setHandle ⟨x.toNat, h⟩ none)
  else .next s

/-- The addresses to translate of a run of lines: its first line, and the page it goes on in (R131). -/
def runPages (first : Nat) (n : Nat) : List Nat :=
  let next := (first / 65536 + 1) * 65536
  if next < first + 128 * n then [first, next] else [first]

/-- Translate and check the pages of a run (R131). -/
def checkRun (w : Who) : List Nat → State → Eff State
  | [], s => .ok s
  | a :: rest, s => do
    let va := BitVec.ofNat 64 a
    chkForm w va
    if isWindow va then w.trap 0x07 va
    else
      let (s1, _) ← locate s w { nopin := true } va 128
      checkRun w rest s1

/-- One line of CFLUSH or CCLEAN (R131). The records are of the requests of the issuing slot (Table 20.4). -/
def maintainLine (flush : Bool) (s : State) (line : Nat) : State := s.maintainCopies ⟨s.cl.id, 8, s.slotSource⟩ flush line

/-- The physical lines of a run whose pages have been checked. -/
def runLines (w : Who) (s : State) (first : Nat) : Nat → List Nat
  | 0 => []
  | n + 1 =>
    match locate s w { nopin := true } (BitVec.ofNat 64 first) 128 with
    | .ok (_, .mem pa) => pa / 128 :: runLines w s (first + 128) n
    | _ => runLines w s (first + 128) n

/-- CFLUSH and CCLEAN (R131): the checks, then every line; no value of main memory changes. -/
def maintain (s : State) (a : Fin 32) (n : Fin 64) (flush : Bool) : Eff State :=
  let first := (s.rs a).toNat / 128 * 128
  match checkRun s.seqWho (runPages first (n.val + 1)) s with
  | .ok s1 =>
    .ok ((runLines s.seqWho s1 first (n.val + 1)).foldl (maintainLine flush) s1)
  | .error e => .error e

/-- CFLUSH (R131). -/
def execCflush (a : Fin 32) (n : Fin 64) (s : State) : Host.Outcome State Fault Refusal := outcome s (maintain s a n true)

/-- CCLEAN (R131). -/
def execCclean (a : Fin 32) (n : Fin 64) (s : State) : Host.Outcome State Fault Refusal := outcome s (maintain s a n false)

/-- The handles that name block `num` of die `d`: their bit is 1. One whose block has no tag names none any more (R124, R125). -/
def Bank.fillEnds (d : Fin 64) (num : Nat) (ordinary : Bool) (b : Bank) : Bank :=
  { b with handles := b.handles.map fun (x : Option BlockHandle) =>
      x.map fun h => if h.block = some (d, num) then { block := if ordinary then none else h.block, done := true } else h }

/-- BLOCK_FILL_COMPLETE (R124 to R127): the lines of block `num` of die `d` are fetched, one relaxed read each, and the fill ends. The model
fetches them in this one step; the spec fixes no moments for them (DESIGN CHOICE, log 16). -/
def fillComplete (d : Fin 64) (num : Nat) (s : State) : State :=
  match (s.die d).blocks.find? fun b => b.num = num && !b.done with
  | none => s
  | some b =>
    let s1 := (List.range b.lines).foldl (fun t i => t.readLine ⟨⟨d, s.cl.id.cluster⟩, 8, b.src⟩ (b.first + i)) s
    let x := s1.die d
    let s2 := s1.setDie d { x with blocks := if b.ordinary then x.blocks.filter fun y => y.num ≠ num
                                             else x.blocks.map fun y => if y.num = num then { y with done := true } else y }
    let f (c : Cluster) : Cluster := c.mapBanks (Bank.fillEnds d num b.ordinary)
    { s2 with cl := f s2.cl, others := s2.others.map f }

/-- BLOCK_FILL_COMPLETE: block `a` of the die of cluster `c`. -/
def execBlockFillComplete (s : State) : Host.Outcome State Fault Refusal := .next (fillComplete s.ev.c.die s.ev.a s)

end Sys2Proof.Machine
end

