-- ==== Sys2Proof/Machine/Heap.lean ====
section
/-!
DEFINITION. Sys2Proof/Machine/Heap.lean: managed heaps: references, the forwarding table and the barrier (R95 to R105), heap
loads and stores (R106), reference instructions (R107 to R112), flips and the relocation engine (R114 to R118).
-/

namespace Sys2Proof.Machine

/-! ### References (Table 05.2) -/

def refKind (r : Word) : Nat := bits r 63 62
def refEpoch (r : Word) : Nat := bits r 61 60
def refHeap (r : Word) : Fin 16 := Fin.ofNat 16 (bits r 59 56)

/-- LINE << 6: the address of the object. -/
def refAddr (r : Word) : Nat := bits r 55 6 * 64

/-- A reference with another epoch and object. -/
def refWith (r : Word) (epoch addr : Nat) : Word :=
  (r &&& 0xCF0000000000003F) ||| BitVec.ofNat 64 (epoch * 2 ^ 60 + addr % 2 ^ 56)

/-! ### Descriptor and forwarding table -/

def heapEn (s : State) (n : Fin 16) : Bool := (heapWord s n 0).getLsbD 0
def heapOwner (s : State) (n : Fin 16) : BitVec 16 := (heapWord s n 0).extractLsb' 16 16
def heapTlog (s : State) (n : Fin 16) : Nat := bits (heapWord s n 0) 36 32

/-- EPOCH as the hardware holds it. -/
def heapEpoch (s : State) (n : Fin 16) : Nat := (s.relocs[n.val]).epoch.toNat

/-- EPOCH as a barrier of an agent acts on it: where software has written another value to the descriptor, either of the two (R95; free, log 35). -/
def epochSeen (s : State) (n : Fin 16) (a : Fin 9) : Nat :=
  let m := bits (heapWord s n 1) 1 0
  if m ≠ heapEpoch s n && Config.heapPick s.now a.val then m else heapEpoch s n

/-- The address lies in the heap's range. -/
def inRange (s : State) (n : Fin 16) (a : Nat) : Bool :=
  (heapWord s n 4).toNat ≤ a && a < (heapWord s n 4).toNat + (heapWord s n 5).toNat

/-- Store a doubleword: its line is writable in the requester's die (R122). -/
def State.storeWord (s : State) (q : Requester) (pa : Nat) (v : Word) : State := (s.ownLine q (pa / 128)).putWord pa v

/-- STAT becomes `v`, in the hardware and in the descriptor. -/
def setStat (s : State) (q : Requester) (n : Fin 16) (v : Word) : State :=
  let t := s.storeWord q (heapPlaceOf n 7) v
  { t with relocs := t.relocs.set n.val { t.relocs[n.val] with stat := v } n.isLt }

/-- EPOCH becomes `e`, in the hardware and in the descriptor. -/
def setEpoch (s : State) (q : Requester) (n : Fin 16) (e : Nat) : State :=
  let t := s.storeWord q (heapPlaceOf n 1) (BitVec.ofNat 64 e)
  { t with relocs := t.relocs.set n.val { t.relocs[n.val] with epoch := BitVec.ofNat 2 e } n.isLt }

/-- The slot as a requester of the sequencer. -/
def State.seqRequester (s : State) : Requester := ⟨s.cl.id, 8, s.slotSource⟩

/-- The forwarding buffer of the cycle that began at the flip to epoch `e` (R99). -/
def forwardBase (s : State) (n : Fin 16) (e : Nat) : Nat := (heapWord s n (2 + e % 2)).toNat

/-- home(x) of R100. -/
def homeSlot (tlog x : Nat) : Nat := x * 0x9E3779B97F4A7C15 % 2 ^ 64 / 2 ^ (64 - tlog)

/-- The probe slots of an old line address (R100). -/
def probes (tlog x : Nat) : List Nat := (List.range 8).map fun i => (homeSlot tlog x + i) % 2 ^ tlog

/-- An entry's words (Table 05.4). -/
def entryWord (s : State) (base slot k : Nat) : Word := s.mem.word (base + 16 * slot + 8 * k)

/-- The STATE of an entry. -/
def entryState (w : Word) : Nat := bits w 1 0

/-- A lookup (R100): the slot that matches, none when absent. -/
def lookupIn (s : State) (base x : Nat) : List Nat → Option Nat
  | [] => none
  | p :: ps =>
    let w := entryWord s base p 0
    if w = 0 then none else if bits w 55 6 * 64 = x then some p else lookupIn s base x ps

/-- The lookup of an object in the table of epoch `e`. -/
def lookup (s : State) (n : Fin 16) (e x : Nat) : Option Nat := lookupIn s (forwardBase s n e) x (probes (heapTlog s n) x)

/-! ### The barrier (R102, R103) -/

/-- The range check on what the barrier returns. -/
def barrierRange (s : State) (w : Who) (r : Word) : Eff Word := if inRange s (refHeap r) (refAddr r) then .ok r else w.trap 0x05 r

/-- What the barrier answers (R102). A wait holds the slot and raises the entry. -/
def barrierRef (s : State) (w : Who) (r : Word) : Eff Word :=
  if refKind r ≠ 1 then w.trap 0x09 r
  else if r.getLsbD 6 then w.trap 0x05 r
  else
    let n := refHeap r
    if !heapEn s n || !(heapOwner s n = w.asn || w.sup) then w.trap 0x05 r
    else
      let cur := epochSeen s n w.agent
      if refEpoch r = cur then barrierRange s w r
      else if refEpoch r ≠ (cur + 3) % 4 then w.trap 0x0A r
      else
        match lookup s n cur (refAddr r) with
        | none => barrierRange s w (refWith r cur (refAddr r))
        | some p =>
          let base := forwardBase s n cur
          if entryState (entryWord s base p 0) = 3 then
            barrierRange s w (refWith r cur (bits (entryWord s base p 1) 55 6 * 64))
          else .error (.holdRaise [(n, p)])

/-- The words of entries that a lookup reads. -/
def probeReads (s : State) (base x : Nat) : List Nat → List Nat
  | [] => []
  | p :: ps =>
    let w := entryWord s base p 0
    (base + 16 * p) :: if w = 0 || bits w 55 6 * 64 = x then [] else probeReads s base x ps

/-- The words of the descriptor and of the table that the barrier reads for a reference, up to its trap, its wait or its answer. -/
def barrierReads (s : State) (w : Who) (r : Word) : List Nat :=
  let n := refHeap r
  let at_ (k : Nat) : Nat := heapPlaceOf n k
  if refKind r ≠ 1 || r.getLsbD 6 then []
  else if !heapEn s n || !(heapOwner s n = w.asn || w.sup) then [at_ 0]
  else
    let cur := epochSeen s n w.agent
    if refEpoch r = cur then [at_ 0, at_ 1, at_ 4, at_ 5]
    else if refEpoch r ≠ (cur + 3) % 4 then [at_ 0, at_ 1]
    else
      let base := forwardBase s n cur
      let ps := [at_ 0, at_ 1, at_ (2 + cur % 2)] ++ probeReads s base (refAddr r) (probes (heapTlog s n) (refAddr r))
      match lookup s n cur (refAddr r) with
      | none => ps ++ [at_ 4, at_ 5]
      | some p => if entryState (entryWord s base p 0) = 3 then ps ++ [base + 16 * p + 8, at_ 4, at_ 5] else ps

/-- The barrier of an agent: its probes come after an acquire of the agent (R301). An uncorrectable word that it reads is a machine check of the slot,
with TVAL the address of the object (R72; DESIGN CHOICE, log 35), and a single-bit error is corrected (R71). -/
def barrier (s : State) (w : Who) (r : Word) : Eff (State × Word) :=
  let t := afterAcquire s w.agent
  let ws := barrierReads t w r
  if t.badAmong ws then w.trap 0x16 (BitVec.ofNat 64 (refAddr r))
  else
    match barrierRef t w r with
    | .ok y => .ok (t.correctAll ws, y)
    | .error e => .error e

/-! ### Heap loads and stores (R106) -/

/-- Write h_r of an agent with latency 1, unless it holds the value already. -/
def healH (s : State) (a : Fin 9) (r : Fin 16) (old new : Word) : State :=
  if old = new then s
  else match coreOf a with
    | some k => s.postCore k 1 (.h r new)
    | none => s.postH 1 r new

/-- The address of an access through a reference, checked and located (R105, R106). -/
def heapPlace (s : State) (w : Who) (u : Use) (ref : Word) (off : Int) (n : Nat) : Eff (State × Word × Loc) := do
  if off < 0 then w.trap 0x05 (toWord off)
  else
    let ea := addDisp (BitVec.ofNat 64 (refAddr ref)) off
    chkAlign w ea n
    chkForm w ea
    if isWindow ea then w.trap 0x05 ea
    else
      let (s1, l) ← locate s w { u with href := true } ea n
      .ok (s1, ea, l)

/-- A heap load by an agent through h_b, whose value is `h` (R106). -/
def heapLoad (s : State) (w : Who) (b : Fin 16) (h : Word) (off : Int) (n : Nat) (dest : Dest) : Eff State := do
  roomFor s w.agent .load
  let (s0, ref) ← barrier s w h
  let (s1, ea, l) ← heapPlace s0 w {} ref off n
  .ok (issueOp (healH s1 w.agent b h ref) w.agent .load s.ordAcq s.ordRel dest [{ va := ea, loc := l, size := n, kind := .load }])

/-- A heap store by an agent. -/
def heapStore (s : State) (w : Who) (b : Fin 16) (h : Word) (off : Int) (n : Nat) (x : Word) : Eff State := do
  roomFor s w.agent .store
  let (s0, ref) ← barrier s w h
  let (s1, ea, l) ← heapPlace s0 w { write := true } ref off n
  .ok (issueOp (healH s1 w.agent b h ref) w.agent .store s.ordAcq s.ordRel .none [{ va := ea, loc := l, size := n, kind := .store x }])

/-- HLD (R106). -/
def execHld (reg : Fin 32) (h : Fin 16) (size : Fin 4) (u : Bool) (disp : BitVec 6) (s : State) : Host.Outcome State Fault Refusal :=
  let n := 2 ^ size.val
  outcome s (heapLoad s s.seqWho h (s.rh h) (s.extImm 6 disp.toNat * (n : Nat)) n (.seqS reg n (!u)))

/-- HST (R106). -/
def execHst (reg : Fin 32) (h : Fin 16) (size : Fin 4) (disp : BitVec 6) (s : State) : Host.Outcome State Fault Refusal :=
  let n := 2 ^ size.val
  outcome s (heapStore s s.seqWho h (s.rh h) (s.extImm 6 disp.toNat * (n : Nat)) n (s.rs reg))

/-- CHLD (R106). -/
def execChld (reg h : Fin 16) (size : Fin 4) (u : Bool) (disp : BitVec 7) (s : State) : Host.Outcome State Fault Refusal :=
  let n := 2 ^ size.val
  outcome s (eachCore (fun k t =>
    heapLoad t (coreWho s k) h (s.rch k h) (s.extImm 7 disp.toNat * (n : Nat)) n (.coreA reg n (!u))) s)

/-- CHST (R106). -/
def execChst (reg h : Fin 16) (size : Fin 4) (disp : BitVec 7) (s : State) : Host.Outcome State Fault Refusal :=
  let n := 2 ^ size.val
  outcome s (eachCore (fun k t =>
    heapStore t (coreWho s k) h (s.rch k h) (s.extImm 7 disp.toNat * (n : Nat)) n (s.ra k reg)) s)

/-! ### Reference loads and stores (R108, R109) -/

/-- h_r of an agent as the slot reads it. -/
def readH (s : State) (a : Fin 9) (r : Fin 16) : Word := match coreOf a with | some k => s.rch k r | none => s.rh r

/-- Where a reference load or store goes: through an h register (`hbase`) or a raw base; the state after healing (R108). -/
def refPlace (s : State) (w : Who) (u : Use) (hbase : Option (Fin 16)) (raw : Word) (off : Int) : Eff (State × Word × Loc) := do
  match hbase with
  | some b =>
    let h := readH s w.agent b
    let (s0, ref) ← barrier s w h
    let (s1, ea, l) ← heapPlace s0 w u ref off 8
    .ok (healH s1 w.agent b h ref, ea, l)
  | none =>
    let ea := addDisp raw off
    chkAlign w ea 8
    chkForm w ea
    let (s1, l) ← locate s w u ea 8
    .ok (s1, ea, l)

/-- LDREF and CLDREF (R108): the load and the barrier are done before the bundle commits, and the write-back is performed as it commits, so that no
other agent sees it before (R299). Where the field lies in an on-chip window, which has no page and no W, it is written back; in a seeded page it is
not, whatever W holds, because R84 forbids the store (DESIGN CHOICE, log 35). -/
def loadRef (s : State) (w : Who) (d : Fin 16) (hbase : Option (Fin 16)) (raw : Word) (off : Int) : Eff State := do
  roomFor s w.agent .load
  let (s1, ea, l) ← refPlace s w {} hbase raw off
  let (s2, x) ← loadNow s1 w ea l 8
  let v := BitVec.ofNat 64 x
  let put (t : State) (y : Word) : State := match coreOf w.agent with | some k => t.postCore k 1 (.h d y) | none => t.postH 1 d y
  if refKind v = 0 then .ok (put s2 v)
  else
    let (s3, y) ← barrier s2 w v
    let s4 :=
      if y ≠ v then
        match locate s3 w { write := true, href := hbase.isSome } ea 8 with
        | .ok (t, l2) => t.putLate w.agent l2 (.swap v y)
        | .error _ => s3
      else s3
    .ok (put s4 y)

/-- STREF and CSTREF (R109). -/
def storeRef (s : State) (w : Who) (r : Fin 16) (hbase : Option (Fin 16)) (raw : Word) (off : Int) : Eff State := do
  roomFor s w.agent .store
  let h := readH s w.agent r
  let (s0, y) ← if refKind h = 0 then .ok (s, h) else barrier s w h
  let (s1, ea, l) ← refPlace s0 w { write := true } hbase raw off
  .ok (issueOp (healH s1 w.agent r h y) w.agent .store s.ordAcq s.ordRel .none [{ va := ea, loc := l, size := 8, kind := .store y }])

/-- The base of LDREF and STREF (R107). -/
def seqRefBase (m : Bool) (base : Fin 32) : Option (Fin 16) := if m then some (Fin.ofNat 16 base.val) else none

/-- LDREF (R108). -/
def execLdref (hd : Fin 16) (m : Bool) (base : Fin 32) (disp : BitVec 5) (s : State) : Host.Outcome State Fault Refusal :=
  outcome s (loadRef s s.seqWho hd (seqRefBase m base) (s.rs base) (8 * sextNat 5 disp.toNat))

/-- STREF (R109). -/
def execStref (hd : Fin 16) (m : Bool) (base : Fin 32) (disp : BitVec 5) (s : State) : Host.Outcome State Fault Refusal :=
  outcome s (storeRef s s.seqWho hd (seqRefBase m base) (s.rs base) (8 * sextNat 5 disp.toNat))

/-- CLDREF (R108). -/
def execCldref (hd : Fin 16) (m : Bool) (base : Fin 16) (disp : BitVec 6) (s : State) : Host.Outcome State Fault Refusal :=
  outcome s (eachCore (fun k t =>
    loadRef t (coreWho s k) hd (if m then some base else none) (s.ra k base) (8 * sextNat 6 disp.toNat)) s)

/-- CSTREF (R109). -/
def execCstref (hd : Fin 16) (m : Bool) (base : Fin 16) (disp : BitVec 6) (s : State) : Host.Outcome State Fault Refusal :=
  outcome s (eachCore (fun k t =>
    storeRef t (coreWho s k) hd (if m then some base else none) (s.ra k base) (8 * sextNat 6 disp.toNat)) s)

/-! ### Moves and compares (R110, R111) -/

/-- HMOV (R110). -/
def execHmov (x y : Fin 32) (dir : Fin 4) (s : State) : Host.Outcome State Fault Refusal :=
  match dir.val with
  | 0 => .next (s.postH 1 (Fin.ofNat 16 x.val) (s.rh (Fin.ofNat 16 y.val)))
  | 1 => .next (s.postH 1 (Fin.ofNat 16 x.val) (s.rs y))
  | 2 => .next (s.postS 1 x (s.rh (Fin.ofNat 16 y.val)))
  | _ => outcome s (illegal s)

/-- CHMOV (R110). -/
def execChmov (x y : Fin 16) (dir : Fin 4) (s : State) : Host.Outcome State Fault Refusal :=
  match dir.val with
  | 0 => .next (eachCore' (fun k t => t.postCore k 1 (.h x (s.rch k y))) s)
  | 1 => .next (eachCore' (fun k t => t.postCore k 1 (.h x (s.ra k y))) s)
  | 2 => .next (eachCore' (fun k t => t.postCore k 1 (.a x (s.rch k y))) s)
  | _ => outcome s (illegal s)

/-- HNULL (R110). -/
def execHnull (hd : Fin 16) (s : State) : Host.Outcome State Fault Refusal := .next (s.postH 1 hd 0)

/-- CHNULL (R110). -/
def execChnull (hd : Fin 16) (s : State) : Host.Outcome State Fault Refusal :=
  .next (eachCore' (fun k t => t.postCore k 1 (.h hd 0)) s)

/-- The comparison of R111, with the two registers healed. A reserved KIND traps even in the null case; where neither is null, the barrier of h_a
comes before that of h_b. -/
def sameObject (s : State) (w : Who) (ha hb : Fin 16) : Eff (State × Bool) := do
  let x := readH s w.agent ha
  let y := readH s w.agent hb
  if refKind x ≥ 2 then w.trap 0x09 x
  else if refKind x = 0 && refKind y ≥ 2 then w.trap 0x09 y
  else if refKind x = 0 && refKind y = 0 then .ok (s, true)
  else if refKind x = 0 || refKind y = 0 then .ok (s, false)
  else
    let (s1, x1) ← barrier s w x
    let (s2, y1) ← barrier s1 w y
    .ok (healH (healH s2 w.agent ha x x1) w.agent hb y y1, refHeap x1 = refHeap y1 && refAddr x1 = refAddr y1)

/-- HEQ (R111). -/
def execHeq (qd : Fin 32) (ha hb : Fin 16) (s : State) : Host.Outcome State Fault Refusal :=
  outcome s (do
    let (t, r) ← sameObject s s.seqWho ha hb
    .ok (t.postQ 1 qd r))

/-- CHEQ (R111). -/
def execCheq (ad ha hb : Fin 16) (s : State) : Host.Outcome State Fault Refusal :=
  outcome s (eachCore (fun k t =>
    match sameObject t (coreWho s k) ha hb with
    | .ok (t1, r) => .ok (t1.postCore k 1 (.a ad (if r then 1 else 0)))
    | .error e => .error e) s)

/-! ### Pins (R112) -/

/-- The physical places of the page counters of an object; pages beyond the heap's range have none (R112). -/
def pageCounters (s : State) (n : Fin 16) (addr lines : Nat) : List Nat :=
  let rb := (heapWord s n 4).toNat
  let end_ := min (addr + 128 * lines) (rb + (heapWord s n 5).toNat)
  let first := (addr - rb) / 65536
  (List.range ((end_ - rb + 65535) / 65536 - first)).map fun i => (heapWord s n 6).toNat + 4 * (first + i)

/-- A page counter changed by a pin or an unpin: a saturated one stays, and one at 0 that is to go down stays 0, of which no rule states the
result (DESIGN CHOICE, log 35). -/
def bumpCounter (up : Bool) (c : Nat) : Nat := if c = 0xFFFFFFFF then c else if up then c + 1 else c - 1

/-- One counter, an atomic at its home agent (R112, R123). -/
def bumpAt (agent : Fin 9) (up : Bool) (s : State) (a : Nat) : State :=
  let s1 := cohNow ((beforeSync s agent (.mem a) 4).correct a 4) agent (.mem a) 4 (.rmw ⟨1, 0, 0⟩)
  s1.putBytes a (bumpCounter up (s1.mem.read a 4)) 4

/-- The words of a heap's descriptor that give the counters of its pages. -/
def pageReads (n : Fin 16) : List Nat := [heapPlaceOf n 4, heapPlaceOf n 5, heapPlaceOf n 6]

/-- PIN and UNPIN (R112): the object's address, and the state with its counts changed. The count updates are made at once, as atomics; under
release the agent's earlier accesses come first. A counter in an uncorrectable word is a machine check of the slot (R72). -/
def pinObject (s : State) (w : Who) (b : Fin 16) (up : Bool) : Eff (State × Word) := do
  let h := readH s w.agent b
  if s.ordRel && s.bank.ops.any (fun o => o.agent = w.agent && o.live) then .error .hold
  else
    let (s0, ref) ← barrier s w h
    let obj := BitVec.ofNat 64 (refAddr ref)
    let (s1, l) ← locate s0 w { write := true, href := true } obj 16
    let (s2, w0) ← loadNow s1 w obj l 16
    let len := w0 % 2 ^ 32
    let pins := w0 / 2 ^ 64 % 2 ^ 32
    let cs := pageCounters s2 (refHeap ref) (refAddr ref) len
    if len = 0 then w.trap 0x05 ref
    else if up && pins = 0xFFFFFFFF then w.trap 0x05 ref
    else if !up && pins = 0 then w.trap 0x05 ref
    else if s2.badAmong (pageReads (refHeap ref)) || cs.any fun a => s2.badAt a 4 then w.trap 0x16 obj
    else
      let new := w0 - pins * 2 ^ 64 + (if up then pins + 1 else pins - 1) * 2 ^ 64
      let s3 := (cohNow (s2.correctAll (pageReads (refHeap ref))) w.agent l 16 (.rmw ⟨1, 0, 0⟩)).writeLoc l new 16
      .ok (healH (cs.foldl (bumpAt w.agent up) s3) w.agent b h ref, obj)

/-- Under release the earlier writes of the bundle itself are performed before a pin (R112, log 5). -/
def State.released (s : State) : State := if s.ordRel then commitLate s else s

/-- PIN (R112). -/
def execPin (sd : Fin 32) (hb : Fin 16) (s0 : State) : Host.Outcome State Fault Refusal :=
  let s := s0.released
  outcome s (do
    let (t, obj) ← pinObject s s.seqWho hb true
    .ok (t.postS 1 sd obj))

/-- UNPIN (R112). -/
def execUnpin (hb : Fin 16) (s0 : State) : Host.Outcome State Fault Refusal :=
  let s := s0.released
  outcome s (do
    let (t, _) ← pinObject s s.seqWho hb false
    .ok t)

/-- CPIN (R112). -/
def execCpin (ad hb : Fin 16) (s0 : State) : Host.Outcome State Fault Refusal :=
  let s := s0.released
  outcome s (eachCore (fun k t =>
    match pinObject t (coreWho s k) hb true with
    | .ok (t1, obj) => .ok (t1.postCore k 1 (.a ad obj))
    | .error e => .error e) s)

/-- CUNPIN (R112). -/
def execCunpin (hb : Fin 16) (s0 : State) : Host.Outcome State Fault Refusal :=
  let s := s0.released
  outcome s (eachCore (fun k t =>
    match pinObject t (coreWho s k) hb false with
    | .ok (t1, _) => .ok t1
    | .error e => .error e) s)

/-! ### Flip and relocation (R114 to R117) -/

/-- The fields of STAT (Table 05.8). -/
def statWord (err skip left state : Nat) : Word := BitVec.ofNat 64 (err * 2 ^ 56 + skip * 2 ^ 36 + left * 2 ^ 16 + state * 4)

/-- STAT of a heap, as the hardware holds it. -/
def heapStat (s : State) (n : Fin 16) : Word := (s.relocs[n.val]).stat

/-- ERR of STAT. -/
def statErr (w : Word) : Nat := bits w 63 56

/-- R114: the EN check, then the owner. -/
def heapOwnerCheck (s : State) (n : Fin 16) : Eff Unit :=
  if !heapEn s n then seqTrap 0x05 (BitVec.ofNat 64 n.val)
  else if heapOwner s n = s.asn || s.sup then .ok ()
  else privilege s

/-- A doubleword that the sequencer loads at once from `va`. -/
def seqLoadNow (s : State) (u : Use) (va : Word) : Eff (State × Word) := do
  let w := s.seqWho
  chkAlign w va 8
  chkForm w va
  let (s1, l) ← locate s w u va 8
  let (s2, x) ← loadNow s1 w va l 8
  .ok (s2, BitVec.ofNat 64 x)

/-- A set member is refused with its index, but a page that is not present and an uncorrectable word are reported as such (R72, R115). -/
def asMember {α : Type} (i : Nat) (e : Eff α) : Eff α :=
  match e with
  | .error (.trap c v a) => if c = 0x04 || c = 0x16 then .error (.trap c v a) else seqTrap 0x12 (BitVec.ofNat 64 i)
  | x => x

/-- Every 64 KiB page of an extent is a class-1 page with W = 1 (R115). -/
def extentOk (w : Who) (i : Nat) (a : Nat) : Nat → State → Eff State
  | 0, s => .ok s
  | n + 1, s =>
    match asMember i (locate s w { write := true, href := true } (BitVec.ofNat 64 a) 8) with
    | .ok (s1, _) => extentOk w i ((a / 65536 + 1) * 65536) n s1
    | .error e => .error e

/-- A validated member: old address, new address, length in lines, pin count. -/
structure Member where
  old : Nat
  new : Nat
  lines : Nat
  pins : Nat
deriving DecidableEq, Repr

/-- Member `i` as its words and the old object's header show it; its reference is checked, and LEN (R115). -/
def readMember (n : Fin 16) (set : Word) (i : Nat) (s : State) : Eff (State × Member) := do
  let (s1, ref) ← seqLoadNow s {} (set + BitVec.ofNat 64 (8 + 16 * i))
  let (s2, new) ← seqLoadNow s1 {} (set + BitVec.ofNat 64 (16 + 16 * i))
  if refKind ref ≠ 1 || refHeap ref ≠ n || refEpoch ref ≠ heapEpoch s n || ref.getLsbD 6 then seqTrap 0x12 (BitVec.ofNat 64 i)
  else
    let (s3, w0) ← asMember i (seqLoadNow s2 { href := true } (BitVec.ofNat 64 (refAddr ref)))
    let (s4, w1) ← asMember i (seqLoadNow s3 { href := true } (BitVec.ofNat 64 (refAddr ref + 8)))
    let len := bits w0 31 0
    if len = 0 then seqTrap 0x12 (BitVec.ofNat 64 i)
    else .ok (s4, ⟨refAddr ref, new.toNat, len, bits w1 31 0⟩)

/-- The new extent of member `i`: its alignment, the range and its pages. -/
def chkExtent (n : Fin 16) (i : Nat) (m : Member) (s : State) : Eff State :=
  if m.new % 128 ≠ 0 || !inRange s n m.new || !inRange s n (m.new + 128 * m.lines - 1) then seqTrap 0x12 (BitVec.ofNat 64 i)
  else extentOk s.seqWho i m.new ((m.new % 65536 + 128 * m.lines + 65535) / 65536) s

/-- What a member shows: itself where it can be read, and why it is refused by itself. -/
abbrev Shown := Option Member × Option Stop

/-- Read the members from number `i` on. -/
def readMembers (n : Fin 16) (set : Word) (i : Nat) : Nat → State → State × List Shown
  | 0, s => (s, [])
  | k + 1, s =>
    match readMember n set i s with
    | .error e => let r := readMembers n set (i + 1) k s; (r.1, (none, some e) :: r.2)
    | .ok (s1, m) =>
      match chkExtent n i m s1 with
      | .error e => let r := readMembers n set (i + 1) k s1; (r.1, (some m, some e) :: r.2)
      | .ok s2 => let r := readMembers n set (i + 1) k s2; (r.1, (some m, none) :: r.2)

/-- Two new extents share a byte. -/
def Member.overlaps (m x : Member) : Bool := m.new < x.new + 128 * x.lines && x.new < m.new + 128 * m.lines

/-- The new extent of member `i` overlaps that of another one, whether or not that one is refused too. -/
def overlapsOther (ms : List Shown) (i : Nat) (m : Member) : Bool :=
  ((List.range ms.length).zip ms).any fun p => p.1 ≠ i && p.2.1.any m.overlaps

/-- The trap of the lowest member that is refused (R115). A member that cannot be read has no extent for the others to overlap (DEDUCED, log 35). -/
def refusedMember (ms : List Shown) : Option Stop :=
  ((List.range ms.length).zip ms).findSome? fun p =>
    p.2.2 <|> (if p.2.1.any (overlapsOther ms p.1) then some (.trap 0x12 (BitVec.ofNat 64 p.1) 8) else none)

/-- The engine keeps the new address of an entry: word 1 holds it once the entry is FORWARDED (R101, R116, Table 18.12). -/
def setNew (s : State) (h : Fin 16) (p new : Nat) : State :=
  let x := s.relocs[h.val]
  { s with relocs := s.relocs.set h.val { x with news := (p, new % 2 ^ 56) :: x.news.filter fun y => y.1 ≠ p } h.isLt }

/-- Enter the members in the new table (R115): the state, the entries made, and those skipped; the index of a member with
no free probe slot. -/
def enterMembers (h : Fin 16) (base tlog : Nat) : Nat → List Member → State → Nat → Nat → Except Nat (State × Nat × Nat)
  | _, [], s, n, k => .ok (s, n, k)
  | i, m :: ms, s, n, k =>
    let q := s.seqRequester
    if m.pins ≠ 0 || (lookupIn s base m.old (probes tlog m.old)).isSome then enterMembers h base tlog (i + 1) ms s n (k + 1)
    else
      match (probes tlog m.old).find? fun p => entryWord s base p 0 = 0 with
      | none => .error i
      | some p =>
        let s1 := s.storeWord q (base + 16 * p) (BitVec.ofNat 64 (m.old % 2 ^ 56 + 1))
        enterMembers h base tlog (i + 1) ms (setNew s1 h p m.new) (n + 1) k

/-- The hardware reads a heap's descriptor for a slot of the sequencer: single-bit errors are corrected (R71), and an uncorrectable word is a machine
check with TVAL the heap number (R72; DESIGN CHOICE, log 35). -/
def readHeap (s : State) (n : Fin 16) : Eff State :=
  let ws := (List.range 8).map (heapPlaceOf n)
  if s.badAmong ws then seqTrap 0x16 (BitVec.ofNat 64 n.val) else .ok (s.correctAll ws)

/-- The checks of a flip: the state and the validated members; no change is made (R115). -/
def flipCheck (s0 : State) (set : Word) (n : Fin 16) : Eff (State × List Member) := do
  let s ← readHeap s0 n
  heapOwnerCheck s n
  if !storesDone s then .error .hold
  else if bits (heapStat s n) 3 2 = 1 || bits (heapStat s n) 3 2 = 2 then seqTrap 0x12 (BitVec.ofNat 64 n.val)
  else
    let (s1, cnt) ← seqLoadNow s {} set
    if cnt = 0 || 2 ^ (heapTlog s n - 1) < cnt.toNat then seqTrap 0x0C cnt
    else
      let r := readMembers n set 0 cnt.toNat s1
      match refusedMember r.2 with
      | some e => .error e
      | none => .ok (r.1, r.2.filterMap Prod.fst)

/-- Zero the buffer of the next epoch. -/
def zeroBuffer (s : State) (n : Fin 16) : State :=
  let base := forwardBase s n ((heapEpoch s n + 1) % 4)
  let len := 16 * 2 ^ heapTlog s n
  let t := s.ownRun s.seqRequester base len
  { t with mem := Cells.clear t.mem base (base + len), badWords := coverWords t.badWords base len }

/-- The table of the last flip is abandoned (R101). -/
def forgetTable (s : State) (n : Fin 16) : State :=
  { s with relocs := s.relocs.set n.val { s.relocs[n.val] with news := [], raised := [], cur := none } n.isLt }

/-- The flip itself (R115): the members are entered, then EPOCH and STAT; or the index of one that finds no place. -/
def flipEnter (s : State) (n : Fin 16) (ms : List Member) : Except Nat State :=
  let next := (heapEpoch s n + 1) % 4
  match enterMembers n (forwardBase s n next) (heapTlog s n) 0 ms (forgetTable (zeroBuffer s n) n) 0 0 with
  | .error i => .error i
  | .ok (s1, made, skipped) => .ok (setStat (setEpoch s1 s.seqRequester n next) s.seqRequester n (statWord 0 skipped made 0))

/-- An access to the heap's range is not performed (the final wait of R115). -/
def rangeBusy (s : State) (n : Fin 16) : Bool :=
  s.clusters.any fun c => (c.bank :: c.banks.toList).any fun b =>
    b.ops.any fun o => o.accs.any fun a => !a.done && !isWindow a.va && inRange s n a.va.toNat

/-- HFLIP (R115): after the release of the bank's stores, those of its own bundle too (log 5), the flip, then the wait for every access of the old
epoch. A member that finds no free probe slot leaves the next buffer zero, and traps. -/
def execHflip (a b : Fin 32) (s0 : State) : Host.Outcome State Fault Refusal :=
  let s := commitLate s0
  let n : Fin 16 := Fin.ofNat 16 (s.rs b).toNat
  if s.opn.phase = 1 then (if rangeBusy s n then .next s.stall else .next s)
  else
    match flipCheck s (s.rs a) n with
    | .error e => outcome s (.error e)
    | .ok (s1, ms) =>
      match flipEnter s1 n ms with
      | .error i => .next (takeTrap (zeroBuffer s1 n) 0x0C (BitVec.ofNat 64 i) 8)
      | .ok t => if rangeBusy t n then .next (t.modOpn fun o => { o with phase := 1 }).stall else .next t

/-- RELOC (R116): start the engine on this die. ERR stays that of the last error, and raised entries keep their place. EPOCH and STAT are written to
the descriptor, where a value of software is lost (R95). -/
def execReloc (s : State) : Host.Outcome State Fault Refusal :=
  let n : Fin 16 := Fin.ofNat 16 (s.rs s.sole).toNat
  outcome s (do
    let s0 ← readHeap s n
    heapOwnerCheck s0 n
    let q := s.seqRequester
    let st := heapStat s0 n
    let s1 := setEpoch s0 q n (heapEpoch s0 n)
    if bits st 3 2 = 1 || bits st 3 2 = 2 then seqTrap 0x12 (BitVec.ofNat 64 n.val)
    else if bits st 35 16 = 0 then .ok (setStat s1 q n (statWord (statErr st) (bits st 55 36) 0 0))
    else
      let t := setStat s1 q n (statWord (statErr st) (bits st 55 36) (bits st 35 16) 1)
      let r := { t.relocs[n.val] with running := true, parked := false, die := s.cl.id.die, asn := s.asn, sup := s.sup, cur := none }
      .ok { t with relocs := t.relocs.set n.val r n.isLt })

/-- HSTAT: the descriptor's STAT and EPOCH as they stand, without the zero field, latency 3 (R114, R117). -/
def execHstat (d b : Fin 32) (s : State) : Host.Outcome State Fault Refusal :=
  let n : Fin 16 := Fin.ofNat 16 (s.rs b).toNat
  outcome s (do
    let t ← readHeap s n
    .ok (t.postS 3 d ((heapWord s n 7 &&& ~~~(0xFFF3 : Word)) ||| BitVec.ofNat 64 (bits (heapWord s n 1) 1 0))))

/-- The entry that the engine takes next: a raised one, else the first in slot order (R116). An entry that cannot be read ends the search. -/
def nextEntry (s : State) (n : Fin 16) (base : Nat) : Option Nat :=
  let pend (p : Nat) : Bool := s.badAt (base + 16 * p) 8 || entryState (entryWord s base p 0) = 1
  match (s.relocs[n.val]).raised.find? pend with
  | some p => some p
  | none => (List.range (2 ^ heapTlog s n)).find? pend

/-- Set the STATE of an entry. -/
def setEntry (s : State) (q : Requester) (base p st : Nat) : State :=
  s.storeWord q (base + 16 * p) ((entryWord s base p 0 &&& ~~~(3 : Word)) ||| BitVec.ofNat 64 st)

/-- The compare-and-swap that takes a PENDING entry, at its home agent (R116, R123). -/
def takeEntry (s : State) (q : Requester) (base p : Nat) : State :=
  let t := s.homeLine q ((base + 16 * p) / 128)
  t.putWord (base + 16 * p) ((entryWord t base p 0 &&& ~~~(3 : Word)) ||| 2)

/-- Copy an object (R116): old to new, the new header's PINS zero. -/
def copyObject (s : State) (w : Who) (old new : Nat) : Eff State := do
  let o := BitVec.ofNat 64 old
  let nw := BitVec.ofNat 64 new
  let (s1, ps0) ← placeChunks w { href := true } o (chunks old 0 8 1) s
  let len := 128 * (ps0.foldl (fun _ p => Mem.read s1.mem p.2.2 4) 0)
  let (s2, ps) ← placeChunks w { href := true } o (chunks old 0 len (len / 65536 + 2)) s1
  let (s3, qs) ← placeChunks w { href := true, write := true } nw (chunks new 0 len (len / 65536 + 2)) s2
  let bytes := ps.flatMap fun p => (Cells.slice s3.mem p.2.2 (p.2.2 + p.2.1)).map fun c => (c.1 - p.2.2 + p.1, c.2)
  let bytes := bytes.filter fun c => !(8 ≤ c.1 && c.1 < 12)
  let m := qs.foldl (fun (m : Mem) q =>
    Cells.replace m q.2.2 (q.2.2 + q.2.1) ((Cells.slice bytes q.1 (q.1 + q.2.1)).map fun c => (c.1 - q.1 + q.2.2, c.2))) s3.mem
  let s4 := { s3 with mem := m, badWords := qs.foldl (fun b q => coverWords b q.2.2 q.2.1) s3.badWords }
  .ok (qs.foldl (fun t q => t.ownRun (.engine t.cl.id w.asn) q.2.2 q.2.1) s4)

/-- The engine of heap `n` becomes `x`. -/
def setReloc (s : State) (n : Fin 16) (x : Reloc) : State := { s with relocs := s.relocs.set n.val x n.isLt }

/-- The engine of heap `n` as a requester. -/
def relocRequester (s : State) (n : Fin 16) : Requester := .engine s.cl.id (s.relocs[n.val]).asn

/-- The engine stops at an entry that it cannot read (R72, R116). -/
def relocStop (s : State) (n : Fin 16) : State :=
  let st := heapStat s n
  let s1 := setStat s (relocRequester s n) n (statWord 0x16 (bits st 55 36) (bits st 35 16) 3)
  setReloc s1 n { s1.relocs[n.val] with cur := none, running := false }

/-- The entry at slot `p`, which is COPYING, is copied and becomes FORWARDED; or the copy faults (R116). -/
def relocCopy (n : Fin 16) (base p : Nat) (s : State) : State :=
  let r := s.relocs[n.val]
  let q := relocRequester s n
  let st := heapStat s n
  let skip := bits st 55 36
  let left := bits st 35 16
  let old := bits (entryWord s base p 0) 55 6 * 64
  let new := ((r.news.find? fun y => y.1 = p).map Prod.snd).getD 0
  match copyObject s ⟨8, r.asn, r.sup⟩ old new with
  | .ok s1 =>
    let s2 := setEntry (s1.storeWord q (base + 16 * p + 8) (BitVec.ofNat 64 (new / 64 * 64))) q base p 3
    let s3 := setStat s2 q n (statWord (statErr st) skip (left - 1) (if left ≤ 1 then 0 else 1))
    setReloc s3 n { s3.relocs[n.val] with cur := none, running := decide (1 < left) }
  | .error (.trap c v _) =>
    if c = 0x04 then
      let fr : FaultRec := ⟨recWord0 3 c ⟨r.die, 0⟩ 0 8 0 r.asn, v, BitVec.ofNat 64 n.val, 0, .heap n⟩
      let s1 := (setStat s q n (statWord (statErr st) skip left 2)).raise r.die fr
      setReloc s1 n { s1.relocs[n.val] with parked := true }
    else
      let s1 := setStat (setEntry s q base p 1) q n (statWord c.toNat skip left 3)
      setReloc s1 n { s1.relocs[n.val] with cur := none, running := false }
  | .error _ => s

/-- The engine of heap `n`, at its die, takes the next entry, which becomes COPYING; its next step copies it (R116). -/
def relocHere (n : Fin 16) (s0 : State) : State :=
  let r := s0.relocs[n.val]
  if !r.running || r.parked then s0
  else
    let base := forwardBase s0 n (heapEpoch s0 n)
    let next := r.cur <|> nextEntry s0 n base
    let word := (next.map fun p => base + 16 * p).toList
    let s := s0.correctAll word
    if s.badAmong word then relocStop s n
    else
      match r.cur, next with
      | some p, _ => relocCopy n base p s
      | none, some p => setReloc (takeEntry s (relocRequester s n) base p) n { r with cur := some p, raised := r.raised.filter fun x => x ≠ p }
      | none, none =>
        let st := heapStat s n
        let s1 := setStat s (relocRequester s n) n (statWord (statErr st) (bits st 55 36) (bits st 35 16) 0)
        setReloc s1 n { s1.relocs[n.val] with running := false, raised := [] }

/-- The engine of heap `n` acts on the die that issued RELOC (R116). -/
def relocEntry (n : Fin 16) (s : State) : State := (relocHere n (s.focus ⟨(s.relocs[n.val]).die, 0⟩)).focus s.cl.id

/-- RELOC_ENTRY: heap `a`. -/
def execRelocEntry (s : State) : Host.Outcome State Fault Refusal := .next (relocEntry (Fin.ofNat 16 s.ev.a) s)

end Sys2Proof.Machine
end

