-- ==== Sys2Proof/Machine/Courier.lean ====
section
/-!
DEFINITION. Sys2Proof/Machine/Courier.lean: command blocks and their checks (R132 to R135), the courier's steps (R133, R136 to
R141), byte-counting barriers (R142 to R145), active messages (R147 to R150) and engine control (R151 to R153).
-/

namespace Sys2Proof.Machine

/-! ### The command block (Table 07.1, Table 07.2) -/

def cmdSrc (b : List Word) : Word := wordAt b 0
def cmdDst (b : List Word) : Word := wordAt b 1
def cmdAux (b : List Word) : Word := wordAt b 3
def cmdBar (b : List Word) : Nat := bits (wordAt b 2) 63 32
def cmdBaren (b : List Word) : Bool := (wordAt b 2).getLsbD 19
def cmdCrcen (b : List Word) : Bool := (wordAt b 2).getLsbD 18
def cmdRel (b : List Word) : Bool := (wordAt b 2).getLsbD 14
def cmdAcq (b : List Word) : Bool := (wordAt b 2).getLsbD 10
def cmdConv (b : List Word) : Nat := bits (wordAt b 2) 9 8
def cmdDsz (b : List Word) : Nat := 2 ^ bits (wordAt b 2) 7 6
def cmdSsz (b : List Word) : Nat := 2 ^ bits (wordAt b 2) 5 4
def cmdNdim (b : List Word) : Nat := bits (wordAt b 2) 2 0

/-- COUNT of a dimension. -/
def cmdCount (b : List Word) (d : Nat) : Nat := bits (wordAt b (4 + 2 * d)) 31 0

/-- SSTRIDE of a dimension, signed. -/
def cmdSstride (b : List Word) (d : Nat) : Int :=
  sextNat 40 (bits (wordAt b (4 + 2 * d)) 63 32 + bits (wordAt b (5 + 2 * d)) 7 0 * 2 ^ 32)

/-- DSTRIDE of a dimension, signed. -/
def cmdDstride (b : List Word) (d : Nat) : Int := sextNat 40 (bits (wordAt b (5 + 2 * d)) 47 8)

/-- The used dimensions. -/
def cmdDims (b : List Word) : List Nat := List.range (cmdNdim b)

/-- The number of elements. -/
def cmdTotal (b : List Word) : Nat := ((cmdDims b).map (cmdCount b)).foldl (· * ·) 1

/-- The displacements of element `i` from SRC and DST (R133): dimension 0 varies fastest. -/
def cmdDisp (b : List Word) : List Nat → Nat → Int × Int
  | [], _ => (0, 0)
  | d :: ds, i =>
    let c := cmdCount b d
    let r := cmdDisp b ds (i / c)
    ((i % c : Nat) * cmdSstride b d + r.1, (i % c : Nat) * cmdDstride b d + r.2)

/-- Source and destination address of element `i`. -/
def cmdAddrs (b : List Word) (i : Nat) : Word × Word :=
  let d := cmdDisp b (cmdDims b) i
  (addDisp (cmdSrc b) d.1, addDisp (cmdDst b) d.2)

/-- conv(x) of R133. -/
def cmdConvert (b : List Word) (x : Nat) : Nat :=
  let n := 8 * cmdSsz b
  let m := 8 * cmdDsz b
  if m = n then x
  else if n < m then (if cmdConv b = 1 then (sextNat n x % (2 ^ m : Nat)).toNat else x)
  else if cmdConv b = 1 then (clampInt (sextNat n x) (-(2 ^ (m - 1) : Nat)) ((2 ^ (m - 1) : Nat) - 1) % (2 ^ m : Nat)).toNat
  else min x (2 ^ m - 1)

/-- The destination of a SENDH is dense (R149). -/
def cmdDense (b : List Word) : Bool :=
  (cmdDims b).all fun d =>
    if d = 0 then cmdDstride b 0 = cmdDsz b else cmdDstride b d = cmdCount b (d - 1) * cmdDstride b (d - 1)

/-- The lowest failing code of Table 07.4: the spec gives no order among conditions that fail together (DESIGN CHOICE, log 36). -/
def cmdInvalid (b : List Word) (send : Bool) (tgt : Fin 9) : Option Nat :=
  let w2 := wordAt b 2
  let conv := cmdConv b
  let ssz := cmdSsz b
  let dsz := cmdDsz b
  let off (x : Word) (n : Nat) : Bool := x.toNat % n ≠ 0
  if cmdNdim b = 0 || cmdNdim b = 7 then some 1
  else if conv = 3 || (conv ≠ 0 && ssz = dsz) || (conv = 0 && ssz ≠ dsz) then some 2
  else if off (cmdSrc b) ssz || off (cmdDst b) dsz ||
      (cmdDims b).any (fun d => cmdSstride b d % ssz ≠ 0 || cmdDstride b d % dsz ≠ 0) ||
      ((cmdCrcen b || send) && off (cmdAux b) 4) then some 3
  else if bits w2 17 15 > 4 || bits w2 13 11 > 4 || (!cmdRel b && bits w2 17 15 ≠ 0) || (!cmdAcq b && bits w2 13 11 ≠ 0) then some 4
  else if bits w2 31 20 ≠ 0 || w2.getLsbD 3 || (!cmdBaren b && cmdBar b ≠ 0) || (!send && !cmdCrcen b && cmdAux b ≠ 0) ||
      (cmdDims b).any (fun d => bits (wordAt b (5 + 2 * d)) 63 48 ≠ 0) then some 5
  else if 2 ^ 56 ≤ cmdTotal b * dsz then some 6
  else if tgt.val = 8 && (ownWindow (cmdSrc b) || ownWindow (cmdDst b) || ownWindow (cmdAux b)) then some 7
  else if send && (cmdCrcen b || !(isWindow (cmdDst b) && winKind (cmdDst b) = 2) || !cmdDense b || 4096 < cmdTotal b * dsz) then some 8
  else none

/-! ### Barriers (R142 to R144) -/

/-- The barrier word that a locator names, or none (R143): the cluster is the current one for the local form. -/
def barrierLoc (s : State) (asn : BitVec 16) (sup : Bool) (loc : Nat) : Option Loc :=
  let off := loc % 2 ^ 19 * 8
  let k : Fin 8 := Fin.ofNat 8 (loc / 2 ^ 19)
  if loc / 2 ^ 31 % 2 = 0 then
    if loc / 2 ^ 22 % 2 ^ 9 = 0 && off < shareSize s.cl.part false then some (.pool s.cl.id k false off) else none
  else
    let c : ClusterId := ⟨Fin.ofNat 64 (loc / 2 ^ 25), Fin.ofNat 8 (loc / 2 ^ 22)⟩
    let x := s.clusterAt c
    if off < shareSize x.part false && (sup || x.asn = asn) then some (.pool c k false off) else none

/-- Set ERR in a barrier word. -/
def barrierErr (s : State) (l : Loc) : State := s.writeLoc l ((BitVec.ofNat 64 (s.readLoc l 8)) ||| 0x4000000000000000).toNat 8

/-- Take `n` bytes off CNT, modulo 2^56 (R144). -/
def barrierCount (s : State) (l : Loc) (n : Int) : State :=
  let w := s.readLoc l 8
  s.writeLoc l (countWord w n) 8

/-- The barrier is complete (R142). -/
def barrierDone (w : Nat) : Bool := w / 2 ^ 63 % 2 = 1 && w / 2 ^ 62 % 2 = 0 && w % 2 ^ 56 = 0

/-! ### The commands of a cluster -/

/-- A command by its number in the order of acceptance: an id comes again once 65535 have been given, a number does not. -/
def findCmd (c : Cluster) (seq : Nat) : Option Command := c.cmds.find? fun x => x.seq = seq

/-- Replace it. -/
def setCmd (s : State) (x : Command) : State :=
  s.modCl fun c => { c with cmds := c.cmds.map fun y => if y.seq = x.seq then x else y }

/-- The barrier of a command. -/
def Command.barrier (s : State) (x : Command) : Option Loc :=
  if cmdBaren x.block then barrierLoc s x.asn x.sup (cmdBar x.block) else none

/-- Who a command acts as: it ignores locked windows (R93); kinds 0 and 1 name its core's pool (R135). -/
def Command.who (x : Command) : Who := ⟨8, x.asn, x.sup⟩

/-- The location of an element (R134, R135). -/
def cmdLocate (s : State) (x : Command) (u : Use) (va : Word) (n : Nat) : Eff (State × Loc) := do
  let w := x.who
  chkForm w va
  if isWindow va then
    let l ← windowLoc s w s.cl.id (coreOf x.tgt) va
    .ok (s, l)
  else locate s w u va n

/-- The target cluster of a SENDH (R148). -/
def sendTarget (b : List Word) : ClusterId := ⟨Fin.ofNat 64 (bits (cmdDst b) 51 46), Fin.ofNat 8 (bits (cmdDst b) 45 43)⟩

/-- The arrival slot that a SENDH holds is free again: no handler will start for it (DESIGN CHOICE, log 36). -/
def releaseArr (s : State) (x : Command) : State :=
  if x.send && x.reserved then
    let t := s.clusterAt (sendTarget x.block)
    s.setCluster { t with arrSlots := t.arrSlots - 1 }
  else s

/-- The command ends without completing: the ERR of its barrier is set; none where it has no barrier (R138, R152). -/
def endCmd (s : State) (x : Command) : Option State :=
  let s1 := releaseArr s x
  let y := { x with slot := 0, reserved := false, news := true, stalled := false }
  match x.barrier s with
  | some l => some (barrierErr (setCmd s1 { y with onBar := some l }) l)
  | none => none

/-- The command is in error: the barrier's ERR, or a pending error of the bank (R138). -/
def cmdError (s : State) (x : Command) (cause : BitVec 8) (va : Word) : State :=
  let y := { x with state := .error, cause := cause, va := va }
  match endCmd s y with
  | some t => t
  | none =>
    let s1 := setCmd (releaseArr s x) { y with slot := 0, reserved := false, news := true, stalled := false }
    let b := s1.bankAt x.bank
    s1.setBankAt x.bank { b with courierErrs := b.courierErrs ++ [(x.id, cause)] }

/-- The context slots in use (R137). -/
def parkedSlots (c : Cluster) : List Nat := (c.cmds.filter fun x => x.state = .parked).map Command.slot

/-- A page-not-present fault parks the command and posts a record; with all 16 slots in use it stays running and stalls the courier (R137). -/
def cmdPark (s : State) (x : Command) (va : Word) : State :=
  match (List.range 16).find? fun i => !(parkedSlots s.cl).contains i with
  | none => setCmd s { x with stalled := true }
  | some i =>
    let s1 := setCmd s { x with state := .parked, slot := i, va := va, news := true, stalled := false }
    let r : FaultRec := ⟨recWord0 2 0x04 s.cl.id x.bank.val 8 0 x.asn, va, BitVec.ofNat 64 x.id, (s.bankAt x.bank).trec,
      .command s.cl.id x.seq⟩
    s1.raise s.cl.id.die r

/-- A command may go on: no other command stalls the courier (R137). -/
def Cluster.mayRun (c : Cluster) (seq : Nat) : Bool := !(c.cmds.any fun y => y.stalled && y.state = .running && y.seq ≠ seq)

/-- A fault of a command (R137). -/
def cmdFault (s : State) (x : Command) (e : Stop) : State :=
  match e with
  | .trap c va _ => if c = 0x04 then cmdPark s x va else cmdError s x c va
  | _ => s

/-! ### Steps of the courier -/

/-- The issuing core's writes to its own pool that a command's reads see are not all there (R136, R139): stores that are outstanding, and array
writes of bundles up to the command's that are under way. -/
def ownWrites (s : State) (x : Command) : Bool :=
  match coreOf x.tgt with
  | none => false
  | some k =>
    let c := s.cl.id
    let mine (l : Loc) : Bool := match l with | .pool d j _ _ => d = c && j = k | .mem _ => false
    ((s.bankAt x.bank).ops.any fun o => x.after.contains o.id && o.accs.any fun a => !a.done && mine a.loc) ||
    ((s.cl.coreNow k).pend.any fun p => p.born ≤ x.born)

/-- COMMAND_START (R136, R139): in acceptance order, once its bundle has committed and the issuing core's own pool holds what it wrote there;
with ACQ the issuing agent's earlier accesses come first. -/
def commandStart (seq : Nat) (s : State) : State :=
  match findCmd s.cl seq with
  | none => s
  | some x =>
    let earlier := s.cl.cmds.takeWhile fun y => y.seq ≠ seq
    let busy := (s.bankAt x.bank).ops.any fun o => x.after.contains o.id && o.live
    if x.state = .queued && (s.cl.opn.isNone || decide (x.order < s.opn.first)) && !(earlier.any fun y => y.state = .queued) &&
        !(cmdAcq x.block && busy) && !ownWrites s x &&
        s.cl.mayRun seq then
      setCmd s { x with state := .running }
    else s

/-- Enter landed bytes, each address once, in rising order (R141). -/
def landByte (a : Nat) (v : Byte) : List (Nat × Byte) → List (Nat × Byte)
  | [] => [(a, v)]
  | (b, u) :: t => if a < b then (a, v) :: (b, u) :: t else if a = b then (a, v) :: t else (b, u) :: landByte a v t

/-- The bytes of an element, entered. -/
def landBytes (a x : Nat) (n : Nat) (l : List (Nat × Byte)) : List (Nat × Byte) :=
  (List.range n).foldl (fun l i => landByte (a + i) (BitVec.ofNat 8 (x / 2 ^ (8 * i))) l) l

/-- The directory's part in an access of an engine of the cluster. -/
def cohEngine (s : State) (asn : BitVec 16) (l : Loc) (kind : AccKind) : State :=
  cohAccess s { id := 0, agent := 8, cls := .load, accs := [], src := { asn := asn } } { va := 0, loc := l, size := 8, kind := kind }

/-- COURIER_ELEMENT (R133, R144): the next element in iteration order. The decrement of the last one waits for the completion (R140). R134 lets
elements land in any order, and a read of a byte that the command also writes return an older value: the model lands them in iteration order, and
reads what stands there (DESIGN CHOICE, log 21). -/
def courierElement (seq : Nat) (s : State) : State :=
  match findCmd s.cl seq with
  | none => s
  | some x =>
    if x.state ≠ .running || cmdTotal x.block ≤ x.next || (x.send && !x.reserved) || !s.cl.mayRun seq then s
    else
      let as := cmdAddrs x.block x.next
      match cmdLocate s x {} as.1 (cmdSsz x.block) with
      | .error e => cmdFault s x e
      | .ok (s1, src) =>
        match cmdLocate s1 x { write := true } as.2 (cmdDsz x.block) with
        | .error e => cmdFault s1 x e
        | .ok (s2, dst) =>
          if s2.badRead src (cmdSsz x.block) then cmdError s2 x 0x16 as.1
          else if s2.badWrite dst (cmdDsz x.block) then cmdError s2 x 0x16 as.2
          else
            let v := cmdConvert x.block (s2.readLoc src (cmdSsz x.block))
            let s3 := (cohEngine (cohEngine (s2.correctLoc src (cmdSsz x.block)) x.asn src .load) x.asn dst (.store 0)).writeLoc dst v (cmdDsz x.block)
            let y := { x with next := x.next + 1, stalled := false,
                              landed := if cmdCrcen x.block then landBytes as.2.toNat v (cmdDsz x.block) x.landed else x.landed }
            let s4 := setCmd s3 y
            match x.barrier s4 with
            | some l => if y.next < cmdTotal x.block then barrierCount s4 l (-(cmdDsz x.block : Nat)) else s4
            | none => s4

/-- One bit of CRC-32C, reflected (R141). -/
def crcBit (c : BitVec 32) : BitVec 32 := if c.getLsbD 0 then (c >>> 1) ^^^ 0x82F63B78 else c >>> 1

/-- One byte of CRC-32C. -/
def crcByte (c : BitVec 32) (b : Byte) : BitVec 32 := (List.range 8).foldl (fun c _ => crcBit c) (c ^^^ b.setWidth 32)

/-- CRC-32C (R141). -/
def crc32c (bs : List Byte) : BitVec 32 := ~~~(bs.foldl crcByte 0xFFFFFFFF)

/-- The converted values of the elements that landed before a save, read again (R141). -/
def rereadFrom (x : Command) : Nat → List (Nat × Byte) → State → Eff (State × List (Nat × Byte))
  | 0, l, s => .ok (s, l)
  | n + 1, l, s => do
    let i := x.resumed - (n + 1)
    let as := cmdAddrs x.block i
    let (s1, src) ← cmdLocate s x {} as.1 (cmdSsz x.block)
    if s1.badRead src (cmdSsz x.block) then x.who.trap 0x16 as.1
    else
      let s2 := cohEngine (s1.correctLoc src (cmdSsz x.block)) x.asn src .load
      rereadFrom x n (landBytes as.2.toNat (cmdConvert x.block (s2.readLoc src (cmdSsz x.block))) (cmdDsz x.block) l) s2

/-- The checksum word of a finished command is stored (R141). -/
def cmdCrcStore (s : State) (x : Command) : Eff State := do
  if !cmdCrcen x.block then .ok s
  else
    let (s1, l0) ← rereadFrom x x.resumed [] s
    let l := x.landed.foldl (fun l p => landByte p.1 p.2 l) l0
    let (s2, loc) ← cmdLocate s1 x { write := true } (cmdAux x.block) 4
    if s2.badWrite loc 4 then x.who.trap 0x16 (cmdAux x.block)
    else .ok ((cohEngine s2 x.asn loc (.store 0)).writeLoc loc (crc32c (l.map Prod.snd)).toNat 4)

/-- The arrival that a SENDH posts (R150, Table 07.9). -/
def arrivalOf (s : State) (x : Command) : Arrival :=
  { pc := cmdAux x.block, s1 := cmdDst x.block, s2 := BitVec.ofNat 64 (cmdTotal x.block * cmdDsz x.block),
    s3 := BitVec.ofNat 64 (x.asn.toNat * 2 ^ 16 + s.cl.id.die.val * 2 ^ 10 + s.cl.id.cluster.val * 2 ^ 7 + x.bank.val * 2 ^ 4),
    ctx := (s.clusterAt (sendTarget x.block)).asn }

/-- COMMAND_COMPLETE (R140): the checksum, then the last decrement or the arrival. -/
def commandComplete (seq : Nat) (s : State) : State :=
  match findCmd s.cl seq with
  | none => s
  | some x =>
    if x.state ≠ .running || x.next < cmdTotal x.block || (x.send && !x.reserved) || !s.cl.mayRun seq then s
    else
      match cmdCrcStore s x with
      | .error e => cmdFault s x e
      | .ok s1 =>
        let s2 := setCmd s1 { x with state := .done, stalled := false }
        let s3 := match x.barrier s2 with
          | some l => if 0 < cmdTotal x.block then barrierCount s2 l (-(cmdDsz x.block : Nat)) else s2
          | none => s2
        if x.send then
          let t := s3.clusterAt (sendTarget x.block)
          s3.setCluster { t with arrivals := t.arrivals ++ [arrivalOf s x] }
        else s3

/-- A cluster's resident banks. -/
def Cluster.residents (c : Cluster) : List (Fin 8) :=
  (List.finRange 8).filter fun i => c.run = some i || (c.banks[i.val]).state ≠ .free

/-- The context that the sender's address space names stands in a shadow slot, and none of that address space is resident: its arrivals wait at the
sender (R326). -/
def Cluster.away (t : Cluster) (asn : BitVec 16) : Bool := (t.asn ≠ asn || t.residents.isEmpty) && t.shadows.any fun x => x.asn = asn

/-- ARRIVAL_RESERVE (R148): one of the 16 arrival slots of the target sequencer. -/
def arrivalReserve (seq : Nat) (s : State) : State :=
  match findCmd s.cl seq with
  | none => s
  | some x =>
    let t := s.clusterAt (sendTarget x.block)
    if x.state = .running && x.send && !x.reserved && t.arrSlots < 16 && !t.away x.asn && s.cl.mayRun seq then
      (setCmd s { x with reserved := true }).setCluster { (setCmd s { x with reserved := true }).clusterAt t.id with arrSlots := t.arrSlots + 1 }
    else s

/-- One more bank has been made ready (R265). -/
def State.made (s : State) : State := { s with readied := s.readied + 1 }

/-- HANDLER_START (R150): the oldest arrival posted for the context of the cluster starts a dormant bank, in original code (R276): of several, the
lowest-numbered one (DESIGN CHOICE, log 36). -/
def handlerStart (s : State) : State :=
  match s.cl.arrivals.find? fun a => a.ctx = s.cl.asn, (List.finRange 8).find? fun i => (s.bankAt i).state = .dormant with
  | some a, some i =>
    let b := s.bankAt i
    let f := ((b.file.write (.s 1 a.s1)).write (.s 2 a.s2)).write (.s 3 a.s3)
    ((s.setBankAt i { b with state := .ready, byArrival := true, readySince := s.readied, pc := a.pc, file := f, reenter := none, residual := none }).made.modCl
      fun c => { c with arrivals := c.arrivals.erase a, arrSlots := c.arrSlots - 1 }).switchPoint
  | _, _ => s

/-- COMMAND_START: command number `a` of cluster `c`. -/
def execCommandStart (s : State) : Host.Outcome State Fault Refusal := .next (onCluster s.ev.c (commandStart s.ev.a) s)

/-- COURIER_ELEMENT: command number `a` of cluster `c`. -/
def execCourierElement (s : State) : Host.Outcome State Fault Refusal := .next (onCluster s.ev.c (courierElement s.ev.a) s)

/-- COMMAND_COMPLETE: command number `a` of cluster `c`. -/
def execCommandComplete (s : State) : Host.Outcome State Fault Refusal := .next (onCluster s.ev.c (commandComplete s.ev.a) s)

/-- ARRIVAL_RESERVE: command number `a` of cluster `c`. -/
def execArrivalReserve (s : State) : Host.Outcome State Fault Refusal := .next (onCluster s.ev.c (arrivalReserve s.ev.a) s)

/-- HANDLER_START: cluster `c`. -/
def execHandlerStart (s : State) : Host.Outcome State Fault Refusal := .next (onCluster s.ev.c handlerStart s)

/-! ### CPY and SENDH (R135, R147) -/

/-- Read `n` doublewords at once. -/
def seqLoadWords (u : Use) (va : Word) : Nat → State → Eff (State × List Word)
  | 0, s => .ok (s, [])
  | n + 1, s => do
    let (s1, x) ← seqLoadNow s u va
    let (s2, xs) ← seqLoadWords u (va + 8) n s1
    .ok (s2, x :: xs)

/-- The id after an id (R135). -/
def nextId (n : Nat) : Nat := if n = 0xFFFF then 1 else n + 1

/-- The command is among the last 256 that the courier accepted (R153). -/
def Cluster.knows (c : Cluster) (x : Command) : Bool := decide (c.accepted ≤ x.seq + 256)

/-- The commands that are kept: those that the courier knows, those that it has still to end, and those that no stop has reported (R361). -/
def Cluster.trimCmds (c : Cluster) : Cluster := { c with cmds := c.cmds.filter fun x => x.counts || c.knows x || x.news }

/-- Accept a command (R135). -/
def acceptCmd (s : State) (x : Command) : State :=
  s.modCl fun c =>
    { c with cmds := c.cmds ++ [{ x with order := c.nextOp, seq := c.accepted }], nextOp := c.nextOp + 1, nextCmd := nextId c.nextCmd,
             accepted := c.accepted + 1, lastCmd := (x.bank, x.id) :: c.lastCmd.filter fun p => p.1 ≠ x.bank }.trimCmds

/-- CPY and SENDH (R135); a 33rd outstanding copy of the issuing agent is held (R68). -/
def issueCmd (s : State) (d : Fin 32) (blk : Word) (tgt : Fin 9) (send : Bool) : Eff State := do
  let w := s.seqWho
  chkForm w blk
  if blk.toNat % 128 ≠ 0 then w.trap 0x08 blk
  else if isWindow blk && winKind blk ≠ 2 then w.trap 0x07 blk
  else
    let (s1, ws) ← seqLoadWords {} blk 16 s
    match cmdInvalid ws send tgt with
    | some code => w.trap 0x12 (BitVec.ofNat 64 code)
    | none =>
      if cmdBaren ws && (barrierLoc s s.asn s.sup (cmdBar ws)).isNone then w.trap 0x07 (BitVec.ofNat 64 (cmdBar ws))
      else if 64 ≤ (s.cl.cmds.filter Command.counts).length then .error .hold
      else do
        roomFor s tgt .copy
        let id := s.cl.nextCmd
        let x : Command := { id := id, bank := s.bankNo, send := send, tgt := tgt, block := ws, asn := s.asn, sup := s.sup,
                             after := (s.bank.ops.filter fun o => o.agent = tgt).map MemOp.id,
                             born := match coreOf tgt with | some k => s.coreTime k | none => s.cl.time }
        .ok ((acceptCmd s1 x).postS 1 d (BitVec.ofNat 64 id))

/-- CPY (R135); targets 9 to 15 are reserved. -/
def execCpy (d a : Fin 32) (tgt : Fin 16) (s : State) : Host.Outcome State Fault Refusal :=
  outcome s (if h : tgt.val < 9 then issueCmd s d (s.rs a) ⟨tgt.val, h⟩ false else illegal s)

/-- SENDH (R147). -/
def execSendh (d a : Fin 32) (s : State) : Host.Outcome State Fault Refusal := outcome s (issueCmd s d (s.rs a) 8 true)

/-! ### Barrier instructions (R145) -/

/-- The barrier that a register names, or the window fault (R143). -/
def barOperand (s : State) (x : Word) : Eff Loc :=
  match barrierLoc s s.asn s.sup (bits x 31 0) with
  | some l => .ok l
  | none => seqTrap 0x07 (BitVec.ofNat 64 (bits x 31 0))

/-- The barrier word as the sequencer's slot reads it at once, after its own earlier accesses to it (R298). -/
def barRead (s : State) (x : Word) : Eff (State × Loc × Nat) := do
  let l ← barOperand s x
  let (s1, w) ← loadNow s s.seqWho x l 8
  .ok (s1, l, w)

/-- BARINIT (R145): one atomic at the barrier's core, as its bundle commits. -/
def execBarinit (a b : Fin 32) (scope : Fin 8) (z : Bool) (s : State) : Host.Outcome State Fault Refusal :=
  outcome s (do
    if 5 ≤ scope.val then illegal s
    else
      let l ← barOperand s (s.rs a)
      let y := s.rs b
      if 2 ^ 56 ≤ y.toNat then seqTrap 0x12 y
      else .ok (s.putLate 8 l (.barinit y.toNat scope z)))

/-- BARADD (R145). -/
def execBaradd (a b : Fin 32) (s : State) : Host.Outcome State Fault Refusal :=
  outcome s (do
    let l ← barOperand s (s.rs a)
    .ok (s.putLate 8 l (.baradd (s.rs b).toInt)))

/-- The trap of R138 for a barrier whose ERR is set: the id of the oldest command that the courier knows of and that set it, repeated until ERR
is cleared, or 0. -/
def barErrTrap (s : State) (l : Loc) : State :=
  let known := s.cl.cmds.filter fun x => x.bank = s.bankNo && s.cl.knows x
  let go (t : State) (x : Option Command) : State :=
    takeTrap t (if (x.map Command.cause) = some 0x16 then 0x16 else 0x12) (BitVec.ofNat 64 ((x.map Command.id).getD 0)) 8 0
  match s.cl.barTold.find? fun p => p.1 = s.bankNo && p.2.1 = l with
  | some p => go s (known.find? fun x => x.id = p.2.2 && x.onBar = some l)
  | none =>
    let x := known.find? fun x => x.onBar = some l
    go (s.modCl fun c => { c with barTold := c.barTold ++ [(s.bankNo, l, (x.map Command.id).getD 0)] }) x

/-- ERR of a barrier word. -/
def barErrSet (w : Nat) : Bool := w / 2 ^ 62 % 2 = 1

/-- BARTEST (R145): q_d is delivered in the last cycle of its hold. -/
def execBartest (a qd : Fin 32) (s : State) : Host.Outcome State Fault Refusal :=
  match barRead s (s.rs a) with
  | .error e => outcome s (.error e)
  | .ok (s1, l, w) => if barErrSet w then .next (barErrTrap s1 l) else .next (s1.postQ 0 qd (barrierDone w))

/-- BARWAIT (R145). -/
def execBarwait (s : State) : Host.Outcome State Fault Refusal :=
  match barRead s (s.rs s.sole) with
  | .error e => outcome s (.error e)
  | .ok (s1, l, w) => if barErrSet w then .next (barErrTrap s1 l) else if barrierDone w then .next s1 else .next s1.stall

/-! ### Engine control (R151 to R153) -/

/-- The commands of the issuing bank. -/
def ownCmds (s : State) : List Command := s.cl.cmds.filter fun x => x.bank = s.bankNo

/-- Those that the courier knows by their ids (R153). -/
def knownCmds (s : State) : List Command := (ownCmds s).filter s.cl.knows

/-- EQUI (R151, R138). -/
def execEqui (s : State) : Host.Outcome State Fault Refusal :=
  if !s.opn.abandon && (ownCmds s).any (fun x => x.state = .queued || x.state = .running) then .next s.stall
  else
    match pendingError s true with
    | some t => .next t
    | none => .next (s.postS 1 s.sole (BitVec.ofNat 64 ((ownCmds s).filter fun x => x.state = .parked).length))

/-- STATE of Table 07.10. -/
def CmdState.code : CmdState → Nat
  | .queued => 1 | .running => 2 | .parked => 3 | .done => 4 | .error => 5 | .cancelled => 6

/-- The command word (Table 07.10). -/
def cmdWord (x : Command) : Word :=
  BitVec.ofNat 64 ((if x.state = .error then x.cause.toNat else 0) * 2 ^ 56 + x.state.code * 2 ^ 52 +
    (if x.state = .parked then x.slot else 0) * 2 ^ 48 +
    min ((cmdTotal x.block - x.next) * cmdDsz x.block) (2 ^ 40 - 1))

/-- The bank summary (Table 07.10). ERRID is the oldest command in error that the courier knows, that no trap has reported and no barrier reset
has cleared (DEDUCED, log 21). -/
def cmdSummary (s : State) : Word :=
  let n (st : CmdState) : Nat := ((ownCmds s).filter fun x => x.state = st).length
  let told (x : Command) : Bool := s.cl.barTold.any fun p => p.1 = s.bankNo && x.onBar = some p.2.1 && p.2.2 = x.id
  let open_ (x : Command) : Bool := (x.onBar.isSome && !told x) || s.bank.courierErrs.any fun p => p.1 = x.id
  let err := (((knownCmds s).find? open_).map Command.id).getD 0
  let last := ((s.cl.lastCmd.find? fun p => p.1 = s.bankNo).map Prod.snd).getD 0
  BitVec.ofNat 64 (n .queued * 2 ^ 48 + n .running * 2 ^ 40 + n .parked * 2 ^ 32 + err * 2 ^ 16 + last)

/-- ESTAT (R153), latency 3. -/
def execEstat (d a : Fin 32) (s : State) : Host.Outcome State Fault Refusal :=
  let x := s.rs a
  let id := bits x 15 0
  let cmd := (knownCmds s).reverse.find? fun c => c.id = id
  .next (s.postS 3 d
    (if x.getLsbD 63 then (cmd.map Command.va).getD 0
     else if id = 0 then cmdSummary s
     else (cmd.map cmdWord).getD 0))

/-- Cancel a command (R152). -/
def cancelCmd (s : State) (x : Command) : State :=
  let y := { x with state := .cancelled }
  (endCmd s y).getD (setCmd (releaseArr s x) { y with slot := 0, reserved := false, news := true, stalled := false })

/-- A command that ECAN cancels: queued or parked (R151). -/
def cancellable (x : Command) : Bool := x.state = .queued || x.state = .parked

/-- ECAN (R151, R152), latency 3. -/
def execEcan (d a : Fin 32) (s : State) : Host.Outcome State Fault Refusal :=
  match (knownCmds s).find? fun x => x.id = bits (s.rs a) 15 0 && cancellable x with
  | some x => .next ((cancelCmd s x).postS 3 d 1)
  | none => .next (s.postS 3 d 0)

/-- ECAN.all (R151, R152), latency 3. -/
def execEcanAll (s : State) : Host.Outcome State Fault Refusal :=
  let xs := (ownCmds s).filter cancellable
  .next ((xs.foldl cancelCmd s).postS 3 s.sole (BitVec.ofNat 64 xs.length))

end Sys2Proof.Machine
end

