-- ==== Sys2Proof/Machine/Scalar.lean ====
section
/-!
DEFINITION. Sys2Proof/Machine/Scalar.lean: NOP and the prefixes (R30 to R32, R38), special-register moves (R45), scalar
arithmetic (R49 to R53), predicates (R54 to R56), XPUT and XGET (R57), and the register-write steps.
-/

namespace Sys2Proof.Machine

/-! ### NOP and prefixes -/

/-- NOP (R38). -/
def execNop (s : State) : Host.Outcome State Fault Refusal := .next s

/-- EXT (R31): widens the immediate of the slot it applies to. -/
def execExt (value : BitVec 16) (s : State) : Host.Outcome State Fault Refusal :=
  .next (s.modOpn fun o => { o with ext := some value })

/-- ORD (R32): gives the slot it applies to an ordering and a scope. -/
def execOrd (scope : Fin 8) (order : Fin 4) (s : State) : Host.Outcome State Fault Refusal :=
  .next (s.modOpn fun o => { o with ord := some (scope, order) })

/-! ### Special registers -/

/-- MFS (R45). An unassigned number is the illegal instruction. -/
def execMfs (d : Fin 32) (sr : BitVec 8) (s : State) : Host.Outcome State Fault Refusal :=
  match SpecialReg.ofNum sr with
  | some r => .next (s.postS 1 d (readSpecial s r))
  | none => outcome s (illegal s)

/-- MTS (R45). -/
def execMts (a : Fin 32) (sr : BitVec 8) (s : State) : Host.Outcome State Fault Refusal :=
  match SpecialReg.ofNum sr with
  | some r => outcome s (writeSpecial s r (s.rs a))
  | none => outcome s (illegal s)

/-! ### Three-register arithmetic (Table 03.5) -/

/-- A shift amount of six bits. -/
def sh6 (y : Word) : Nat := y.toNat % 64

/-- A shift amount of five bits. -/
def sh5 (y : Word) : Nat := y.toNat % 32

/-- A result of 32 bits, sign-extended. -/
def sextW (x : BitVec 32) : Word := x.signExtend 64

/-- DIV (R50). -/
def divS (x y : Word) : Word :=
  if y = 0 then 0xFFFFFFFFFFFFFFFF
  else if x.toInt = -(2 ^ 63) ∧ y.toInt = -1 then x
  else toWord (x.toInt.tdiv y.toInt)

/-- DIVU (R50). -/
def divU (x y : Word) : Word := if y = 0 then 0xFFFFFFFFFFFFFFFF else BitVec.ofNat 64 (x.toNat / y.toNat)

/-- REM (R50). -/
def remS (x y : Word) : Word :=
  if y = 0 then x
  else if x.toInt = -(2 ^ 63) ∧ y.toInt = -1 then 0
  else toWord (x.toInt - y.toInt * x.toInt.tdiv y.toInt)

/-- REMU (R50). -/
def remU (x y : Word) : Word := if y = 0 then x else BitVec.ofNat 64 (x.toNat - y.toNat * (x.toNat / y.toNat))

/-- The number of leading zero bits among the low `n` bits (R49). -/
def leadingZeros (x : Word) : Nat → Nat
  | 0 => 0
  | n + 1 => if x.getLsbD n then 0 else 1 + leadingZeros x n

/-- The number of trailing zero bits, from bit 64 - n up (R49). -/
def trailingZeros (x : Word) : Nat → Nat
  | 0 => 0
  | n + 1 => if x.getLsbD (63 - n) then 0 else 1 + trailingZeros x n

/-- The number of set bits below `n` (R49). -/
def popCount {w : Nat} (x : BitVec w) : Nat → Nat
  | 0 => 0
  | n + 1 => (if x.getLsbD n then 1 else 0) + popCount x n

/-- Bit i of the result is bit 63 - i (R49). -/
def bitReverse (x : Word) : Word := BitVec.ofNat 64 ((List.range 64).foldl (fun n i => if x.getLsbD (63 - i) then n + 2 ^ i else n) 0)

/-- ADD: s_d := x + y, latency 1 (R49). -/
def execAdd (d a b : Fin 32) (s : State) : Host.Outcome State Fault Refusal :=
  let x := s.rs a
  let y := s.rs b
  .next (s.postS 1 d (x + y))

/-- SUB: s_d := x − y, latency 1 (R49). -/
def execSub (d a b : Fin 32) (s : State) : Host.Outcome State Fault Refusal :=
  let x := s.rs a
  let y := s.rs b
  .next (s.postS 1 d (x - y))

/-- AND: s_d := x and y, latency 1 (R49). -/
def execAnd (d a b : Fin 32) (s : State) : Host.Outcome State Fault Refusal :=
  let x := s.rs a
  let y := s.rs b
  .next (s.postS 1 d (x &&& y))

/-- OR: s_d := x or y, latency 1 (R49). -/
def execOr (d a b : Fin 32) (s : State) : Host.Outcome State Fault Refusal :=
  let x := s.rs a
  let y := s.rs b
  .next (s.postS 1 d (x ||| y))

/-- XOR: s_d := x xor y, latency 1 (R49). -/
def execXor (d a b : Fin 32) (s : State) : Host.Outcome State Fault Refusal :=
  let x := s.rs a
  let y := s.rs b
  .next (s.postS 1 d (x ^^^ y))

/-- SLL: s_d := x << y[5:0], latency 1 (R49). -/
def execSll (d a b : Fin 32) (s : State) : Host.Outcome State Fault Refusal :=
  let x := s.rs a
  let y := s.rs b
  .next (s.postS 1 d (x <<< sh6 y))

/-- SRL: s_d := x >> y[5:0], latency 1 (R49). -/
def execSrl (d a b : Fin 32) (s : State) : Host.Outcome State Fault Refusal :=
  let x := s.rs a
  let y := s.rs b
  .next (s.postS 1 d (x >>> sh6 y))

/-- SRA: s_d := arithmetic shift right, latency 1 (R49). -/
def execSra (d a b : Fin 32) (s : State) : Host.Outcome State Fault Refusal :=
  let x := s.rs a
  let y := s.rs b
  .next (s.postS 1 d (x.sshiftRight (sh6 y)))

/-- MUL: s_d := (x × y)[63:0], latency 3 (R49). -/
def execMul (d a b : Fin 32) (s : State) : Host.Outcome State Fault Refusal :=
  let x := s.rs a
  let y := s.rs b
  .next (s.postS 3 d (x * y))

/-- MULHS: s_d := (xs × ys)[127:64], latency 3 (R49). -/
def execMulhs (d a b : Fin 32) (s : State) : Host.Outcome State Fault Refusal :=
  let x := s.rs a
  let y := s.rs b
  .next (s.postS 3 d (toWord (x.toInt * y.toInt / 2 ^ 64)))

/-- MULHU: s_d := (x × y)[127:64], latency 3 (R49). -/
def execMulhu (d a b : Fin 32) (s : State) : Host.Outcome State Fault Refusal :=
  let x := s.rs a
  let y := s.rs b
  .next (s.postS 3 d (BitVec.ofNat 64 (x.toNat * y.toNat / 2 ^ 64)))

/-- MIN: s_d := signed minimum, latency 1 (R49). -/
def execMin (d a b : Fin 32) (s : State) : Host.Outcome State Fault Refusal :=
  let x := s.rs a
  let y := s.rs b
  .next (s.postS 1 d (if x.toInt ≤ y.toInt then x else y))

/-- MAX: s_d := signed maximum, latency 1 (R49). -/
def execMax (d a b : Fin 32) (s : State) : Host.Outcome State Fault Refusal :=
  let x := s.rs a
  let y := s.rs b
  .next (s.postS 1 d (if x.toInt ≤ y.toInt then y else x))

/-- MINU: s_d := unsigned minimum, latency 1 (R49). -/
def execMinu (d a b : Fin 32) (s : State) : Host.Outcome State Fault Refusal :=
  let x := s.rs a
  let y := s.rs b
  .next (s.postS 1 d (if x.toNat ≤ y.toNat then x else y))

/-- MAXU: s_d := unsigned maximum, latency 1 (R49). -/
def execMaxu (d a b : Fin 32) (s : State) : Host.Outcome State Fault Refusal :=
  let x := s.rs a
  let y := s.rs b
  .next (s.postS 1 d (if x.toNat ≤ y.toNat then y else x))

/-- ANDN: s_d := x and not y, latency 1 (R49). -/
def execAndn (d a b : Fin 32) (s : State) : Host.Outcome State Fault Refusal :=
  let x := s.rs a
  let y := s.rs b
  .next (s.postS 1 d (x &&& ~~~y))

/-- ADDW: s_d := sext((x + y)[31:0]), latency 1 (R49). -/
def execAddw (d a b : Fin 32) (s : State) : Host.Outcome State Fault Refusal :=
  let x := s.rs a
  let y := s.rs b
  .next (s.postS 1 d (sextW ((x + y).setWidth 32)))

/-- SUBW: s_d := sext((x − y)[31:0]), latency 1 (R49). -/
def execSubw (d a b : Fin 32) (s : State) : Host.Outcome State Fault Refusal :=
  let x := s.rs a
  let y := s.rs b
  .next (s.postS 1 d (sextW ((x - y).setWidth 32)))

/-- SLLW: s_d := x[31:0] shifted left by y[4:0], latency 1 (R49). -/
def execSllw (d a b : Fin 32) (s : State) : Host.Outcome State Fault Refusal :=
  let x := s.rs a
  let y := s.rs b
  .next (s.postS 1 d (sextW (x.setWidth 32 <<< sh5 y)))

/-- SRLW: s_d := x[31:0] shifted right by y[4:0], latency 1 (R49). -/
def execSrlw (d a b : Fin 32) (s : State) : Host.Outcome State Fault Refusal :=
  let x := s.rs a
  let y := s.rs b
  .next (s.postS 1 d (sextW (x.setWidth 32 >>> sh5 y)))

/-- SRAW: s_d := x[31:0] shifted right arithmetically by y[4:0], latency 1 (R49). -/
def execSraw (d a b : Fin 32) (s : State) : Host.Outcome State Fault Refusal :=
  let x := s.rs a
  let y := s.rs b
  .next (s.postS 1 d (sextW ((x.setWidth 32).sshiftRight (sh5 y))))

/-- MULW: s_d := sext((x × y)[31:0]), latency 3 (R49). -/
def execMulw (d a b : Fin 32) (s : State) : Host.Outcome State Fault Refusal :=
  let x := s.rs a
  let y := s.rs b
  .next (s.postS 3 d (sextW ((x * y).setWidth 32)))

/-- ROTL: s_d := x rotated left by y[5:0], latency 1 (R49). -/
def execRotl (d a b : Fin 32) (s : State) : Host.Outcome State Fault Refusal :=
  let x := s.rs a
  let y := s.rs b
  .next (s.postS 1 d (x.rotateLeft (sh6 y)))

/-- ROTR: s_d := x rotated right by y[5:0], latency 1 (R49). -/
def execRotr (d a b : Fin 32) (s : State) : Host.Outcome State Fault Refusal :=
  let x := s.rs a
  let y := s.rs b
  .next (s.postS 1 d (x.rotateRight (sh6 y)))

/-- DIV: s_d := R50, latency 18 (R49). -/
def execDiv (d a b : Fin 32) (s : State) : Host.Outcome State Fault Refusal :=
  let x := s.rs a
  let y := s.rs b
  .next (s.postS 18 d (divS x y))

/-- DIVU: s_d := R50, latency 18 (R49). -/
def execDivu (d a b : Fin 32) (s : State) : Host.Outcome State Fault Refusal :=
  let x := s.rs a
  let y := s.rs b
  .next (s.postS 18 d (divU x y))

/-- REM: s_d := R50, latency 18 (R49). -/
def execRem (d a b : Fin 32) (s : State) : Host.Outcome State Fault Refusal :=
  let x := s.rs a
  let y := s.rs b
  .next (s.postS 18 d (remS x y))

/-- REMU: s_d := R50, latency 18 (R49). -/
def execRemu (d a b : Fin 32) (s : State) : Host.Outcome State Fault Refusal :=
  let x := s.rs a
  let y := s.rs b
  .next (s.postS 18 d (remU x y))

/-- CLZ: leading zero bits of x, latency 1 (R49). -/
def execClz (d a : Fin 32) (s : State) : Host.Outcome State Fault Refusal :=
  let x := s.rs a
  .next (s.postS 1 d (BitVec.ofNat 64 (leadingZeros x 64)))

/-- CTZ: trailing zero bits of x, latency 1 (R49). -/
def execCtz (d a : Fin 32) (s : State) : Host.Outcome State Fault Refusal :=
  let x := s.rs a
  .next (s.postS 1 d (BitVec.ofNat 64 (trailingZeros x 64)))

/-- POPC: set bits of x, latency 1 (R49). -/
def execPopc (d a : Fin 32) (s : State) : Host.Outcome State Fault Refusal :=
  let x := s.rs a
  .next (s.postS 1 d (BitVec.ofNat 64 (popCount x 64)))

/-- BREV: bit reversal of x, latency 1 (R49). -/
def execBrev (d a : Fin 32) (s : State) : Host.Outcome State Fault Refusal :=
  let x := s.rs a
  .next (s.postS 1 d (bitReverse x))

/-! ### Immediate forms (R51 to R53) -/

/-- ADDI: s_d := s_a op sext(imm), latency 1 (R51). -/
def execAddi (d a : Fin 32) (imm : BitVec 8) (s : State) : Host.Outcome State Fault Refusal :=
  .next (s.postS 1 d (s.rs a + toWord (s.extImm 8 imm.toNat)))

/-- ANDI: s_d := s_a op sext(imm), latency 1 (R51). -/
def execAndi (d a : Fin 32) (imm : BitVec 8) (s : State) : Host.Outcome State Fault Refusal :=
  .next (s.postS 1 d (s.rs a &&& toWord (s.extImm 8 imm.toNat)))

/-- ORI: s_d := s_a op sext(imm), latency 1 (R51). -/
def execOri (d a : Fin 32) (imm : BitVec 8) (s : State) : Host.Outcome State Fault Refusal :=
  .next (s.postS 1 d (s.rs a ||| toWord (s.extImm 8 imm.toNat)))

/-- XORI: s_d := s_a op sext(imm), latency 1 (R51). -/
def execXori (d a : Fin 32) (imm : BitVec 8) (s : State) : Host.Outcome State Fault Refusal :=
  .next (s.postS 1 d (s.rs a ^^^ toWord (s.extImm 8 imm.toNat)))

/-- SLLI: a shift by sh6, latency 1 (R52). -/
def execSlli (d a : Fin 32) (sh : Fin 64) (s : State) : Host.Outcome State Fault Refusal :=
  .next (s.postS 1 d (s.rs a <<< sh.val))

/-- SRLI: a shift by sh6, latency 1 (R52). -/
def execSrli (d a : Fin 32) (sh : Fin 64) (s : State) : Host.Outcome State Fault Refusal :=
  .next (s.postS 1 d (s.rs a >>> sh.val))

/-- SRAI: a shift by sh6, latency 1 (R52). -/
def execSrai (d a : Fin 32) (sh : Fin 64) (s : State) : Host.Outcome State Fault Refusal :=
  .next (s.postS 1 d ((s.rs a).sshiftRight sh.val))

/-- MOVI: s_d := sext(imm), latency 1 (R53). -/
def execMovi (d : Fin 32) (imm : BitVec 13) (s : State) : Host.Outcome State Fault Refusal :=
  .next (s.postS 1 d (toWord (s.extImm 13 imm.toNat)))

/-- SHORI: s_d := (s_d << 13) or zext(imm13), latency 1 (R53). -/
def execShori (d : Fin 32) (imm : BitVec 13) (s : State) : Host.Outcome State Fault Refusal :=
  .next (s.postS 1 d ((s.rs d <<< 13) ||| imm.setWidth 64))

/-! ### Predicates (R54 to R56) -/

/-- The relation of a cc code; codes 6 and 7 are reserved (R54). -/
def relation (cc : Fin 8) (x y : Word) : Option Bool :=
  match cc.val with
  | 0 => some (x == y)
  | 1 => some (x != y)
  | 2 => some (decide (x.toInt < y.toInt))
  | 3 => some (decide (y.toInt ≤ x.toInt))
  | 4 => some (decide (x.toNat < y.toNat))
  | 5 => some (decide (y.toNat ≤ x.toNat))
  | _ => none

/-- The effect of a compare (R54). -/
def compare (s : State) (d : Fin 32) (cc : Fin 8) (x y : Word) : Eff State :=
  match relation cc x y with
  | some r => .ok (s.postQ 1 d r)
  | none => illegal s

/-- CMP (R54). -/
def execCmp (d a b : Fin 32) (cc : Fin 8) (s : State) : Host.Outcome State Fault Refusal :=
  outcome s (compare s d cc (s.rs a) (s.rs b))

/-- CMPI (R54). -/
def execCmpi (d a : Fin 32) (imm : BitVec 5) (cc : Fin 8) (s : State) : Host.Outcome State Fault Refusal :=
  outcome s (compare s d cc (s.rs a) (toWord (s.extImm 5 imm.toNat)))

/-- PAND (R55). -/
def execPand (d a b : Fin 32) (s : State) : Host.Outcome State Fault Refusal := .next (s.postQ 1 d (s.rq a && s.rq b))

/-- POR (R55). -/
def execPor (d a b : Fin 32) (s : State) : Host.Outcome State Fault Refusal := .next (s.postQ 1 d (s.rq a || s.rq b))

/-- PXOR (R55). -/
def execPxor (d a b : Fin 32) (s : State) : Host.Outcome State Fault Refusal := .next (s.postQ 1 d (xor (s.rq a) (s.rq b)))

/-- PANDN (R55). -/
def execPandn (d a b : Fin 32) (s : State) : Host.Outcome State Fault Refusal := .next (s.postQ 1 d (s.rq a && !s.rq b))

/-- PNOT (R55). -/
def execPnot (d a : Fin 32) (s : State) : Host.Outcome State Fault Refusal := .next (s.postQ 1 d (!s.rq a))

/-- PMOV (R55). -/
def execPmov (d a : Fin 32) (s : State) : Host.Outcome State Fault Refusal := .next (s.postQ 1 d (s.rq a))

/-- PSET (R55). -/
def execPset (s : State) : Host.Outcome State Fault Refusal := .next (s.postQ 1 s.sole true)

/-- PCLR (R55). -/
def execPclr (s : State) : Host.Outcome State Fault Refusal := .next (s.postQ 1 s.sole false)

/-- PTOS: bit i of s_d is q_i; bit 0 is 1 (R56). -/
def execPtos (s : State) : Host.Outcome State Fault Refusal :=
  .next (s.postS 1 s.sole ((s.opn.snap.seq.q ||| 1).setWidth 64))

/-- STOP: q_i := s_a[i] for i from 1 to 31 (R56). -/
def execStop (s : State) : Host.Outcome State Fault Refusal :=
  let x := s.rs s.sole
  .next ((List.finRange 32).foldl (fun t i => t.postQ 1 i (x.getLsbD i.val)) s)

/-! ### XPUT and XGET (R57) -/

/-- XPUT: every enabled core's a_d := s_a, latency 2 on the core's timeline (R57). -/
def execXput (ad : Fin 16) (sa : Fin 32) (s : State) : Host.Outcome State Fault Refusal :=
  .next (eachCore' (fun k t => t.postCore k 2 (.a ad (s.rs sa))) s)

/-- XGET: s_d := a_b of core `rank`, enabled or not, latency 3 on that core's timeline (R57). -/
def execXget (sd : Fin 32) (ab : Fin 16) (rank : Fin 8) (s : State) : Host.Outcome State Fault Refusal :=
  .next (s.postS (rank.val * s.opn.sampled.skew.toNat + 3) sd (s.ra rank ab))

/-! ### Register-write steps: the write rule of a special register on the value of the step -/

/-- SLEN_WRITE (R48). -/
def execSlenWrite (s : State) : Host.Outcome State Fault Refusal := outcome s (writeSlen s s.ev.value)

/-- VL_WRITE (R45). -/
def execVlWrite (s : State) : Host.Outcome State Fault Refusal := .next (writeVl s s.ev.value)

/-- VTYPE_WRITE (R180). -/
def execVtypeWrite (s : State) : Host.Outcome State Fault Refusal := outcome s (writeVtype s s.ev.value)

/-- CORE_EN_WRITE (R46). -/
def execCoreEnWrite (s : State) : Host.Outcome State Fault Refusal := .next (writeCoreEn s s.ev.value)

/-- SKEW_WRITE (R47). -/
def execSkewWrite (s : State) : Host.Outcome State Fault Refusal := .next (writeSkew s s.ev.value)

/-- TSW_WRITE (R312). -/
def execTswWrite (s : State) : Host.Outcome State Fault Refusal := .next (writeTsw s s.ev.value)

end Sys2Proof.Machine
end

