-- ==== Sys2Proof/Machine/Sha3.lean ====
section
/-!
DEFINITION. Sys2Proof/Machine/Sha3.lean: the SHA3-256 of R347 and R348. The spec names the function and does not define it: it is that of
FIPS 202 (PRESUMED, log 13). Lane (x, y) of the state is element x + 5·y of a list; rotation amounts, the order of lanes and the round constants
come from their generating rules.
-/

namespace Sys2Proof.Machine

/-- A 64-bit lane turned towards its high end. -/
def turnLane (n : Nat) (w : Word) : Word := BitVec.ofNat 64 (w.toNat * 2 ^ (n % 64) + w.toNat * 2 ^ (n % 64) / 2 ^ 64)

/-- The place that follows (x, y) on the walk of rho and pi. -/
def nextPlace (p : Nat × Nat) : Nat × Nat := (p.2, (2 * p.1 + 3 * p.2) % 5)

/-- The element of a place. -/
def placeIndex (p : Nat × Nat) : Nat := p.1 + 5 * p.2

/-- Rho and pi together, for the `n` places from `p` on: the lane of a place goes to the next place, turned by one triangular number after the
other, the t-th of them first. -/
def walkLanes (old : List Word) : Nat → Nat → Nat × Nat → List Word → List Word
  | 0, _, _, new => new
  | n + 1, t, p, new =>
    walkLanes old n (t + 1) (nextPlace p) (new.set (placeIndex (nextPlace p)) (turnLane (t * (t + 1) / 2) (old.getD (placeIndex p) 0)))

/-- The sum of a column of the state. -/
def columnSum (a : List Word) (x : Nat) : Word := (List.range 5).foldl (fun w y => w ^^^ a.getD (placeIndex (x % 5, y)) 0) 0

/-- Theta. -/
def mixColumns (a : List Word) : List Word :=
  let add := (List.range 5).map fun x => columnSum a (x + 4) ^^^ turnLane 1 (columnSum a (x + 1))
  a.zipWith (· ^^^ ·) (add ++ add ++ add ++ add ++ add)

/-- Chi on one row. -/
def mixRow (r : List Word) : List Word :=
  r.zipWith (· ^^^ ·) (((r.rotateLeft 1).map fun w => ~~~w).zipWith (· &&& ·) (r.rotateLeft 2))

/-- Chi on the rows of a state. -/
def mixRows : Nat → List Word → List Word
  | 0, _ => []
  | n + 1, a => mixRow (a.take 5) ++ mixRows n (a.drop 5)

/-- A step of the shift register that gives the round constants. -/
def constStep (r : Nat) : Nat := if 256 ≤ 2 * r then 2 * r ^^^ 0x171 else 2 * r

/-- The constant that a register state gives, from bit `j` on for `n` bits, and the register after it. -/
def roundConst : Nat → Nat → Nat → Nat × Nat
  | 0, _, r => (0, r)
  | n + 1, j, r =>
    let t := roundConst n (j + 1) (constStep r)
    (r % 2 * 2 ^ (2 ^ j - 1) + t.1, t.2)

/-- Rounds of the permutation. -/
def permute : Nat → Nat → List Word → List Word
  | 0, _, a => a
  | n + 1, r, a =>
    let k := roundConst 7 0 r
    let b := mixColumns a
    permute n k.2 ((mixRows 5 (walkLanes b 24 1 (1, 0) b)).modify 0 fun w => w ^^^ BitVec.ofNat 64 k.1)

/-- The bytes of a rate block. -/
def rateBytes : Nat := 136

/-- A message filled up to whole blocks: the suffix 01 and the padding 10…01, least significant bit first. -/
def fillBlocks (m : List Byte) : List Byte :=
  let n := m.length / rateBytes * rateBytes + rateBytes
  (m ++ 0x06 :: List.replicate (n - 1 - m.length) 0).modify (n - 1) fun b => b ||| 0x80

/-- The sponge takes up `n` blocks. -/
def soak : Nat → List Byte → List Word → List Word
  | 0, _, a => a
  | n + 1, m, a =>
    soak n (m.drop rateBytes) (permute 24 1 (a.zipWith (· ^^^ ·) (leWords (m.take rateBytes) 17 ++ List.replicate 8 0)))

/-- The hash of 32 bytes. -/
def sha3 (m : List Byte) : List Byte :=
  bytesOfWords ((soak (m.length / rateBytes + 1) (fillBlocks m) (List.replicate 25 0)).take 4)

end Sys2Proof.Machine
end

