-- ==== Sys2Proof/Machine/Seeded.lean ====
section
/-!
DEFINITION. Sys2Proof/Machine/Seeded.lean: tile records and basis generation (R239 to R241), BTERM, BNEXT and ALATCH LBS (R222, R243 to
R245), and seed searches (R247 to R249).
-/

namespace Sys2Proof.Machine

/-! ### Records and bases (R239, R241) -/

/-- A doubleword of a record image. -/
def recWord (r : List Byte) (i : Nat) : Word := BitVec.ofNat 64 (leNat ((r.drop (8 * i)).take 8))

def recRows (r : List Byte) : Nat := bits (recWord r 0) 15 8
def recCols (r : List Byte) : Nat := bits (recWord r 0) 23 16
def recTerms (r : List Byte) : Nat := bits (recWord r 0) 27 24
def recScale (r : List Byte) : Nat := bits (recWord r 0) 39 32
def recSeed (r : List Byte) (e : Nat) : Nat := bits (recWord r (2 + e)) 31 0
def recCoeff (r : List Byte) (e : Nat) : Nat := bits (recWord r (2 + e)) 47 32

/-- A step of the shift register (R241). -/
def basisStep (st : BitVec 32) : BitVec 32 := if st.getLsbD 0 then (st >>> 1) ^^^ 0x80200003 else st >>> 1

/-- `n` steps. -/
def basisSteps (st : BitVec 32) : Nat → BitVec 32
  | 0 => st
  | n + 1 => basisSteps (basisStep st) n

/-- The next `n` output bits. -/
def basisBits (st : BitVec 32) : Nat → List Bool
  | 0 => []
  | n + 1 => st.getLsbD 0 :: basisBits (basisStep st) n

/-- Row `k` of a basis, `cols` bits (R241). -/
def basisRow (seed cols k : Nat) : List Bool := basisBits (basisSteps (BitVec.ofNat 32 seed) (k * cols)) cols

/-- The first failing code of Table 12.4. -/
def recInvalid (r : List Byte) (e : Nat) : Option Nat :=
  let w := recWord r 0
  if bits w 7 0 ≠ 1 then some 1
  else if recRows r = 0 || 128 < recRows r then some 2
  else if recCols r = 0 || 128 < recCols r then some 3
  else if recTerms r = 0 || 14 < recTerms r then some 4
  else if bits w 31 28 ≠ 0 then some 5
  else if bits w 63 40 ≠ 0 || recWord r 1 ≠ 0 || (List.range (recTerms r)).any (fun i => bits (recWord r (2 + i)) 63 48 ≠ 0) then some 6
  else if recTerms r ≤ e then some 7
  else none

/-! ### Selecting a term (R243) -/

/-- The coefficient as bf16, with its flags: a scale of 0xFF and a signalling NaN set NV. -/
def termCoeff (r : List Byte) (e : Nat) : Flagged :=
  let v := bf16.value (recCoeff r e)
  match scaleExp (recScale r) with
  | none => (canonNaN 16, flNV)
  | some k => withNaNs 16 [v] ((v.scale k).round 16)

/-- Core `k`'s cycle, freezes counted. -/
def State.coreClock (s : State) (k : Fin 8) : Nat := coreCycle s.cl.clock s.opn.sampled.skew k.val

/-- select(rec, e) in core `k`. -/
def selectTerm (k : Fin 8) (ad : Fin 16) (r : List Byte) (e : Nat) (t : State) : State :=
  let cf := termCoeff r e
  ((t.modCoreBank k fun c => { c with term := some ⟨r, e, t.coreClock k + t.opn.freeze + 1⟩ }).postCore k 1 (.a ad (BitVec.ofNat 64 cf.1))).postFlags k 1 cf.2

/-- The record that a core reads (R240, R243): a leaf of class 2; the core's earlier acquires, and its earlier stores to the record, come first
(R298, R301). -/
def readRecord (s : State) (k : Fin 8) (r : Word) : Eff (State × List Byte) := do
  let w := coreWho s k
  chkForm w r
  if isWindow r then w.trap 0x07 r
  else
    chkAlign w r 128
    let (s1, l) ← findLeaf s w r
    chkLeaf s1 w {} l r
    if l.cls ≠ 2 then w.trap 0x05 r
    else
      let pa ← leafLoc w l r 128
      let s2 := beforeSync s1 w.agent (.mem pa) 128
      if s2.badRead (.mem pa) 128 then w.trap 0x16 r
      else .ok (cohNow (s2.correct pa 128) w.agent (.mem pa) 128 .load, s2.mem.bytes pa 128)

/-- BTERM in core `k` (R243). -/
def bterm (s : State) (k : Fin 8) (ad aa ak : Fin 16) (t : State) : Eff State := do
  let w := coreWho s k
  let (t1, r) ← readRecord t k (s.ra k aa)
  let e := (s.ra k ak).toNat
  match recInvalid r e with
  | some code => w.trap 0x0D (BitVec.ofNat 64 code)
  | none => if recSeed r e = 0 then w.trap 0x10 (s.ra k ak) else .ok (selectTerm k ad r e t1)

/-- BTERM (R243). The cluster freezes for a cycle, in which the records of all the cores arrive (DESIGN CHOICE, log 6); a pre-emption may split the
bundle before the slot then (R326). -/
def execBterm (ad aa ak : Fin 16) (s : State) : Host.Outcome State Fault Refusal :=
  if s.opn.phase = 0 && (List.finRange 8).any s.enabled then
    match eachCore (fun k t => (readRecord t k (s.ra k aa)).map Prod.fst) s with
    | .ok _ => .next s.freeze
    | .error e => outcome s (.error e)
  else outcome s (eachCore (fun k t => bterm s k ad aa ak t) s)

/-- BNEXT in core `k` (R243). -/
def bnext (s : State) (k : Fin 8) (ad : Fin 16) (t : State) : Eff State :=
  let w := coreWho s k
  match (s.bank.cores[k.val]).term with
  | none => w.trap 0x0D 8
  | some x =>
    let e := x.term + 1
    if recTerms x.record ≤ e then w.trap 0x0D 7
    else if recSeed x.record e = 0 then w.trap 0x10 (BitVec.ofNat 64 e)
    else .ok (selectTerm k ad x.record e t)

/-- BNEXT (R243). -/
def execBnext (ad : Fin 16) (s : State) : Host.Outcome State Fault Refusal :=
  outcome s (eachCore (fun k t => bnext s k ad t) s)

/-- The cycles that an ALATCH LBS of row `row` waits for its basis (R244). -/
def basisWait (x : TermSel) (row now : Nat) : Nat := x.ready + (((row + 1) * recCols x.record + 1023) / 1024) - now

/-- ALATCH LBS in core `k` (R222, R244). -/
def latchBasis (s : State) (k : Fin 8) (ak : Fin 16) (t : State) : Eff State :=
  let w := coreWho s k
  let row := s.ra k ak
  match (s.bank.cores[k.val]).term with
  | none => w.trap 0x0D 8
  | some x =>
    if recRows x.record ≤ row.toNat then w.trap 0x0D row
    else
      let bs := basisRow (recSeed x.record x.term) (recCols x.record) row.toNat
      let vs := (List.range 128).map fun j => if bs.getD j false then (1 : BitVec 16) else 0
      let f := basisWait x row.toNat (s.coreClock k)
      .ok ((setLatch k true tagBasis vs t).modOpn fun o => { o with freeze := max o.freeze f })

/-- ALATCH LBS (R222, R244). -/
def execAlatchLbs (ak : Fin 16) (s : State) : Host.Outcome State Fault Refusal :=
  outcome s (eachCore (fun k t => latchBasis s k ak t) s)

/-! ### Seed searches (R247 to R249) -/

/-- A parameter block (Table 12.5), its four words. -/
def srchRows (p : List Word) : Nat := bits (wordAt p 1) 7 0
def srchCols (p : List Word) : Nat := bits (wordAt p 1) 15 8
def srchFirst (p : List Word) : Nat := bits (wordAt p 2) 31 0
def srchCount (p : List Word) : Nat := bits (wordAt p 2) 63 32
def srchTgt (p : List Word) : Word := wordAt p 0
def srchRes (p : List Word) : Word := wordAt p 3

/-- The words of the block, each a load (R73, R74, R84, R77). -/
def srchLoad (s : State) (va : Word) (i : Nat) : Eff (State × Word) := do
  let w := s.seqWho
  let a := va + BitVec.ofNat 64 (8 * i)
  chkForm w a
  chkAlign w a 8
  let (s1, l) ← locate s w {} a 8
  let (s2, x) ← loadNow s1 w a l 8
  .ok (s2, BitVec.ofNat 64 x)

/-- A window address of kind 2 over `n` bytes (R76, R77). -/
def kind2Run (s : State) (w : Who) (va : Word) (n : Nat) : Eff Unit :=
  if bits va 63 57 ≠ 0 || !(isWindow va && winKind va = 2) then w.trap 0x07 va
  else
    match windowLoc s w s.cl.id none va, windowLoc s w s.cl.id none (va + BitVec.ofNat 64 (n - 1)) with
    | .ok _, .ok _ => .ok ()
    | _, _ => w.trap 0x07 va

/-- The bytes of a search's target. -/
def srchTile (s : State) (x : Search) : List Byte :=
  let w : Who := ⟨8, x.asn, x.sup⟩
  match windowLoc s w s.cl.id none (srchTgt x.params) with
  | .ok (.pool c k acc off) =>
    (((s.clusterAt c).coreNow k).share acc).bytes off (srchRows x.params * srchCols x.params)
  | _ => []

/-- SSRCH (R248). -/
def startSearch (s : State) : Eff State := do
  let w := s.seqWho
  let va := s.rs s.sole
  let (s1, w0) ← srchLoad s va 0
  let (s2, w1) ← srchLoad s1 va 1
  let (s3, w2) ← srchLoad s2 va 2
  let (s4, w3) ← srchLoad s3 va 3
  let p := [w0, w1, w2, w3]
  if srchRows p = 0 || 128 < srchRows p || srchCols p = 0 || 128 < srchCols p || bits w1 63 16 ≠ 0 then w.trap 0x12 1
  else if srchCount p = 0 || 0xFFFFFFFF < srchFirst p + srchCount p - 1 then w.trap 0x12 2
  else if srchFirst p = 0 then w.trap 0x10 0
  else
    kind2Run s w w0 (srchRows p * srchCols p)
    kind2Run s w w3 8
    if w3.toNat % 8 ≠ 0 then w.trap 0x08 w3
    else if 8 ≤ s.cl.searches.length then .error .hold
    else
      let x : Search := { id := s.cl.nextOp, bank := s.bankNo, params := p, asn := s.asn, sup := s.sup }
      .ok (s4.modCl fun c => { c with nextOp := c.nextOp + 1, searches := c.searches ++ [{ x with olds := srchTile s4 x }] })

/-- SSRCH (R247, R248). -/
def execSsrch (s : State) : Host.Outcome State Fault Refusal := outcome s (startSearch s)

/-- score(s) of R248. -/
def srchScore (seed : Nat) (tile : List Byte) : Int :=
  ((basisBits (BitVec.ofNat 32 seed) tile.length).zip tile).foldl
    (fun n p => if p.1 then n + sextNat 8 p.2.toNat else n - sextNat 8 p.2.toNat) 0

/-- The better of the best so far and a new candidate: the larger magnitude, the lower seed on ties. -/
def srchBest (best : Option (BitVec 32 × Int)) (seed : Nat) (score : Int) : Option (BitVec 32 × Int) :=
  match best with
  | some (b, x) => if x.natAbs < score.natAbs then some (BitVec.ofNat 32 seed, score) else some (b, x)
  | none => some (BitVec.ofNat 32 seed, score)

/-- The result doubleword of R248. -/
def srchResult (x : Search) : Nat :=
  match x.best with
  | some (b, y) => b.toNat + 2 ^ 32 * (y % (2 ^ 32 : Nat)).toNat
  | none => 0

/-- The target of a search as the engine reads it: a byte that was written since the search was accepted is seen old or new, each for itself
(R248). -/
def readTile (s : State) (x : Search) : List Byte :=
  let new := srchTile s x
  if x.olds = new then new
  else (List.range new.length).map fun i => if Config.windowPick (s.freeCtr + i) then new.getD i 0 else x.olds.getD i 0

/-- SEARCH_RUN (R248): the engine reads the target of its oldest search, or scores the next candidate, or stores the result. -/
def searchRun (s : State) : State :=
  match s.cl.searches with
  | [] => s
  | x :: rest =>
    match x.tile with
    | none =>
      let tile := readTile s x
      { s.modCl fun c => { c with searches := { x with tile := some tile } :: rest } with freeCtr := s.freeCtr + tile.length }
    | some tile =>
      if x.next < srchCount x.params then
        let seed := srchFirst x.params + x.next
        s.modCl fun c => { c with searches := { x with next := x.next + 1, best := srchBest x.best seed (srchScore seed tile) } :: rest }
      else
        let w : Who := ⟨8, x.asn, x.sup⟩
        let s1 := s.modCl fun c => { c with searches := rest }
        match windowLoc s w s.cl.id none (srchRes x.params) with
        | .ok l => s1.writeLoc l (srchResult x) 8
        | .error _ => s1

/-- SEARCH_RUN: cluster `c`. -/
def execSearchRun (s : State) : Host.Outcome State Fault Refusal := .next (onCluster s.ev.c searchRun s)

end Sys2Proof.Machine
end

