-- ==== Sys2Proof/Machine/Records.lean ====
section
/-!
DEFINITION. Sys2Proof/Machine/Records.lean: launch headers and their validation (R255 to R257), the launches in flight (R259), continuation
records (R253), the queues of the dies (R261, R262), and COUNT (R268, R270, R272).
-/

namespace Sys2Proof.Machine

/-! ### Launch headers (Table 14.2): an image of 16 doublewords -/

def hdrCode (h : List Word) : Word := wordAt h 0
def hdrArgs (h : List Word) : Word := wordAt h 1
def hdrSmask (h : List Word) : Word := wordAt h 2
def hdrNf (h : List Word) : Nat := bits (wordAt h 3) 44 42
def hdrWidth (h : List Word) (f : Nat) : Nat := bits (wordAt h 3) (7 * f + 6) (7 * f)
def hdrExtent (h : List Word) (f : Nat) : Nat := bits (wordAt h (4 + f / 2)) (32 * (f % 2) + 31) (32 * (f % 2))
def hdrAsn (h : List Word) : BitVec 16 := BitVec.ofNat 16 (bits (wordAt h 7) 47 32)
def hdrFmt (h : List Word) : BitVec 10 := BitVec.ofNat 10 (bits (wordAt h 7) 29 20)
def hdrSlog (h : List Word) : Nat := bits (wordAt h 7) 16 12
def hdrGrow (h : List Word) : Nat := bits (wordAt h 7) 11 8
def hdrSup (h : List Word) : Bool := (wordAt h 7).getLsbD 5
def hdrSpec (h : List Word) : Bool := (wordAt h 7).getLsbD 4
def hdrDet (h : List Word) : Bool := (wordAt h 7).getLsbD 3
def hdrQclass (h : List Word) : Bool := (wordAt h 7).getLsbD 2
def hdrPrio (h : List Word) : Nat := bits (wordAt h 7) 1 0
def hdrSeed (h : List Word) : Word := wordAt h 8
def hdrPart (h : List Word) : BitVec 32 := BitVec.ofNat 32 (bits (wordAt h 9) 31 0)
def hdrRecbase (h : List Word) : Word := wordAt h 10
def hdrFrbase (h : List Word) : Word := wordAt h 11
def hdrFrsz (h : List Word) : Nat := bits (wordAt h 12) 4 0
def hdrTag (h : List Word) : Nat := bits (wordAt h 13) 31 16
def hdrCkind (h : List Word) : Nat := bits (wordAt h 13) 1 0
def hdrCtarget (h : List Word) : Word := wordAt h 14

/-- The number of tasks N (R255). -/
def hdrTasks (h : List Word) : Nat := ((List.range (hdrNf h)).map (hdrExtent h)).foldl (· * ·) 1

/-- WID of task index `i`, from field `f` on, whose place is `pos` (R255). -/
def widFrom (h : List Word) : List Nat → Nat → Nat → Nat
  | [], _, _ => 0
  | f :: fs, pos, r => r % hdrExtent h f * 2 ^ pos + widFrom h fs (pos + hdrWidth h f) (r / hdrExtent h f)

/-- The work identifier of task index `i` (R255). -/
def hdrWid (h : List Word) (i : Nat) : Word := BitVec.ofNat 64 (widFrom h (List.range (hdrNf h)) 0 i)

/-- R154: the rules of a partition word. -/
def partOk (p : BitVec 32) : Bool :=
  (partRf p = 1 || partRf p = 2) && 1 ≤ partSpad p && partSpad p ≤ 39 && 24 ≤ partAcc p && partAcc p ≤ 62 &&
  partRf p + partSpad p + partAcc p = 64 && bits p 31 22 = 0 && bits p 15 14 = 0 && bits p 7 2 = 0

/-- An address that is not aligned to `n`, or has one of bits 63:56 set. -/
def badPlace (x : Word) (n : Nat) : Bool := x.toNat % n ≠ 0 || bits x 63 56 ≠ 0

/-- A zero field of Table 14.2 that is not zero. -/
def hdrZeros (h : List Word) : Bool :=
  bits (wordAt h 3) 63 45 ≠ 0 || bits (wordAt h 7) 63 48 ≠ 0 || bits (wordAt h 7) 31 30 ≠ 0 || bits (wordAt h 7) 19 17 ≠ 0 ||
  bits (wordAt h 7) 7 6 ≠ 0 || bits (wordAt h 9) 63 32 ≠ 0 || bits (wordAt h 12) 63 5 ≠ 0 || bits (wordAt h 13) 63 32 ≠ 0 ||
  bits (wordAt h 13) 15 2 ≠ 0 || wordAt h 15 ≠ 0

/-- The first failing code of Table 14.3. `sup`: the source is in supervisor state; `args`: ARGS is checked (R341). -/
def hdrInvalid (h : List Word) (sup args : Bool) : Option (BitVec 8) :=
  let nf := hdrNf h
  let used := List.range nf
  let unused := (List.range 6).filter fun f => nf ≤ f
  if nf = 0 || nf = 7 || used.any (fun f => hdrWidth h f = 0) || 64 < (used.map (hdrWidth h)).foldl (· + ·) 0 ||
      unused.any (fun f => hdrWidth h f ≠ 0 || hdrExtent h f ≠ 0) then some 0x21
  else if used.any (fun f => hdrExtent h f = 0 || 2 ^ hdrWidth h f < hdrExtent h f) || 2 ^ 48 < hdrTasks h then some 0x22
  else if !partOk (hdrPart h) then some 0x23
  else if hdrSlog h < 3 || 16 < hdrSlog h then some 0x24
  else if !(let f := hdrFmt h
      afmtOk (Fin.ofNat 4 (bits f 9 8)) (Fin.ofNat 4 (bits f 7 6)) (Fin.ofNat 4 (bits f 5 4)) (Fin.ofNat 4 (bits f 3 2)) (Fin.ofNat 4 (bits f 1 0))) then some 0x25
  else if badPlace (hdrCode h) 4 || (args && badPlace (hdrArgs h) 8) || badPlace (hdrRecbase h) 64 || badPlace (hdrFrbase h) 128 ||
      (hdrCkind h = 2 && badPlace (hdrCtarget h) 64) || hdrFrsz h < 15 || 30 < hdrFrsz h then some 0x26
  else if hdrCkind h = 3 || (hdrSpec h && (hdrGrow h = 0 || 8 < hdrGrow h)) || (!hdrSpec h && hdrGrow h ≠ 0) ||
      (hdrCkind h ≠ 2 && hdrCtarget h ≠ 0) || hdrZeros h then some 0x27
  else if (hdrSup h || hdrQclass h) && !sup then some 0x28
  else none

/-! ### Launches in flight (R258 to R260) -/

/-- Replace a launch. -/
def State.setLaunch (s : State) (l : Launch) : State := { s with launches := s.launches.map fun x => if x.num = l.num then l else x }

/-- A launch by the model's number. -/
def State.launch (s : State) (n : Nat) : Option Launch := s.launches.find? fun x => x.num = n

/-- The launch of a task: the oldest in flight from the header that LREC names under the task's ASN (log 23). -/
def State.launchOf (s : State) (lrec : Word) (asn : BitVec 16) : Option Launch :=
  s.launches.find? fun x => x.hdr = lrec && hdrAsn x.image = asn

/-- A die's share. -/
def Launch.share (l : Launch) (d : Fin 64) : Share := l.shares[d.val]

/-- Replace it. -/
def Launch.setShare (l : Launch) (d : Fin 64) (x : Share) : Launch := { l with shares := l.shares.set d.val x d.isLt }

/-- The header that die `d` goes by: its own read (R258), before that the source's. -/
def Launch.headerAt (l : Launch) (d : Fin 64) : List Word := if (l.share d).image.isEmpty then l.image else (l.share d).image

/-- The header of a task's launch on a die; nothing but zeros when no launch is in flight. -/
def State.header (s : State) (d : Fin 64) (lrec : Word) (asn : BitVec 16) : List Word :=
  match s.launchOf lrec asn with
  | some l => l.headerAt d
  | none => []

/-- Bounds of a die's share of N tasks (R260). -/
def shareLo (d : Nat) (n : Nat) : Nat := d * n / 64

/-- The home die of an index (R260). -/
def homeDie (n i : Nat) : Fin 64 := ((List.finRange 64).find? fun d => shareLo d.val n ≤ i && i < shareLo (d.val + 1) n).getD 0

/-- Hand a launch to all 64 dies (R259). `host`: a FIRE, whose launch number the reply carries; else the number is 0 to the host. -/
def State.startLaunch (s : State) (hdr : Word) (asn : BitVec 16) (image : List Word) (collect : Fin 64) (sup : Bool) (fire : Nat) : State :=
  { s with launches := s.launches ++ [{ num := s.nextLaunch, hdr := hdr, asn := asn, collect := collect, sup := sup, image := image, fire := fire }],
           nextLaunch := s.nextLaunch + 1 }

/-! ### Continuation records (Table 14.1) -/

/-- Who the hardware is when it reads and writes records, headers and slots for itself: a device engine in an address space (log 23). -/
def engineWho (asn : BitVec 16) : Who := ⟨8, asn, true⟩

/-- The place of `n` bytes, aligned to `n`, that the hardware reads or writes for itself, and the state once it has walked the tables and corrected
what it reads (R71). -/
def enginePlace (s : State) (asn : BitVec 16) (va : Word) (n : Nat) (read write : Bool) : Eff (State × Nat) := do
  let w := engineWho asn
  chkForm w va
  if isWindow va then w.trap 0x07 va
  else
    chkAlign w va n
    let (s1, l) ← walk s w va
    chkLeaf s1 w { write := write, device := true } l va
    let pa ← leafLoc w l va n
    if read && s1.badAt pa n then w.trap 0x16 va
    else if write && s1.badWrite (.mem pa) n then w.trap 0x16 va
    else .ok (if read then s1.correct pa n else s1, pa)

/-- The same with the lines in the die's cache as a read or a store needs them (R122). -/
def engineLoc (s : State) (asn : BitVec 16) (va : Word) (n : Nat) (read write : Bool) : Eff (State × Nat) := do
  let (s1, pa) ← enginePlace s asn va n read write
  let q := Requester.engine s1.cl.id asn
  let s2 := if read then s1.readRun q pa n else s1
  .ok (if write then s2.ownRun q pa n else s2, pa)

/-- The place of a record whose COUNT is read and changed by an atomic at its home agent (R123, R268, R270, R272). -/
def engineCount (s : State) (asn : BitVec 16) (va : Word) : Eff (State × Nat) := do
  let (s1, pa) ← enginePlace s asn va 64 true true
  .ok (s1.homeLine (.engine s1.cl.id asn) (pa / 128), pa)

/-- Write doublewords at a physical place. -/
def State.putWords (s : State) (pa : Nat) (ws : List Word) : State :=
  { s with mem := s.mem.setWords pa ws, badWords := coverWords s.badWords pa (8 * ws.length) }

def recCode (r : List Word) : Word := BitVec.ofNat 64 (bits (wordAt r 0) 55 2 * 4)
def recSlot (r : List Word) : Nat := bits (wordAt r 0) 60 58
def recKind (r : List Word) : Nat := bits (wordAt r 2) 39 36
def recPrio (r : List Word) : Fin 4 := Fin.ofNat 4 (bits (wordAt r 2) 34 33)
def recWait (r : List Word) : Bool := (wordAt r 2).getLsbD 32
def recCount (r : List Word) : Nat := bits (wordAt r 2) 31 0

/-- Word 2 of a record. -/
def recWord2 (kind prio wait count : Nat) : Word := BitVec.ofNat 64 (kind * 2 ^ 36 + prio * 2 ^ 33 + wait * 2 ^ 32 + count)

/-- Word 0 of a record. -/
def recWord0' (slot : Nat) (code : Word) : Word := BitVec.ofNat 64 (slot * 2 ^ 58 + bits code 55 2 * 4)

/-- A zero field of a record that is not zero, or an address with bits 63:56 or 1:0 set (R270). -/
def recZeros (r : List Word) : Bool :=
  bits (wordAt r 0) 63 61 ≠ 0 || bits (wordAt r 0) 57 56 ≠ 0 || bits (wordAt r 0) 1 0 ≠ 0 || bits (wordAt r 2) 63 40 ≠ 0 ||
  (wordAt r 2).getLsbD 35 || wordAt r 7 ≠ 0

/-! ### Queues (R261, R262) -/

/-- mix(seed, index) of R262. -/
def mixSeed (seed index : Word) : Word :=
  let z0 := seed + (index + 1) * 0x9E3779B97F4A7C15
  let z1 := (z0 ^^^ (z0 >>> 30)) * 0xBF58476D1CE4E5B9
  let z2 := (z1 ^^^ (z1 >>> 27)) * 0x94D049BB133111EB
  z2 ^^^ (z2 >>> 31)

/-- The queue of a die that takes a record: none the shared one, else a cluster's own (R262). -/
def queueOf (h : List Word) (tidx : Word) : Option (Fin 8) :=
  if hdrDet h then some (Fin.ofNat 8 ((mixSeed (hdrSeed h) tidx).toNat % 8)) else none

/-- A queue of a die. -/
def Die.queue (d : Die) (q : Option (Fin 8)) : Queue := match q with | none => d.shared | some k => d.priv[k.val]

/-- Replace it. -/
def Die.setQueue (d : Die) (q : Option (Fin 8)) (x : Queue) : Die :=
  match q with
  | none => { d with shared := x }
  | some k => { d with priv := d.priv.set k.val x k.isLt }

/-- The number of records in a queue. -/
def Queue.size (q : Queue) : Nat := (q.levels.toList.map List.length).foldl (· + ·) 0

/-- Put a record at the tail of a level. -/
def Queue.push (q : Queue) (lv : Fin 4) (e : QEntry) : Queue := { q with levels := q.levels.set lv.val ((q.levels[lv.val]) ++ [e]) lv.isLt }

/-- Enqueue a record of a launch with header `h` on a die, at its level (R262). -/
def State.enqueue (s : State) (d : Fin 64) (rec : Word) (ws h : List Word) : State :=
  let x := s.die d
  let q := queueOf h (wordAt ws 6)
  let e : QEntry := { addr := rec, asn := hdrAsn h, part := hdrPart h, service := hdrQclass h, launch := wordAt ws 4, since := s.now }
  s.setDie d (x.setQueue q ((x.queue q).push (recPrio ws) e))

/-! ### COUNT -/

/-- Add 1 to COUNT at a record; none where it is 0xFFFF_FFFF (R270, R275). -/
def State.countUp (s : State) (pa : Nat) : Option State :=
  let c := Mem.read s.mem (pa + 16) 4
  if c = 0xFFFFFFFF then none else some (s.putBytes (pa + 16) (c + 1) 4)

/-- Take 1 off COUNT at the record `rec`; a record that waits and whose COUNT reaches 0 is woken on die `d` (R268, R272). -/
def State.countDown (s : State) (d : Fin 64) (pa : Nat) (rec : Word) (asn : BitVec 16) : State :=
  let c := (Mem.read s.mem (pa + 16) 4 + 0xFFFFFFFF) % 2 ^ 32
  let s1 := s.putBytes (pa + 16) c 4
  let ws := s1.mem.words pa 8
  if c = 0 && recWait ws then
    let s2 := s1.putWord (pa + 16) (wordAt ws 2 &&& ~~~(0x100000000 : Word))
    s2.enqueue d rec (s2.mem.words pa 8) (s2.header d (wordAt ws 4) asn)
  else s1

end Sys2Proof.Machine
end

