-- ==== Sys2Proof/Machine/Lodging.lean ====
section
/-!
DEFINITION. Sys2Proof/Machine/Lodging.lean: saving a bank's task to its lodging (R329, Table 17.7, R146, R249) and restoring it (R330, R156,
R94). Where Table 17.7 gives an area but not the places inside it, the places are the model's (log 22).
-/

namespace Sys2Proof.Machine

/-! ### Images -/

/-- The `n`-byte units of a run of bytes that are not zero: number and value. -/
def groupBytes (n : Nat) : Mem → List (Nat × Nat)
  | [] => []
  | (a, b) :: t =>
    let x := b.toNat * 256 ^ (a % n)
    match groupBytes n t with
    | (q, y) :: r => if q = a / n then (q, x + y) :: r else (a / n, x) :: (q, y) :: r
    | [] => [(a / n, x)]

/-- Bytes as doublewords with their offsets, from offset `off` on. -/
def memWords (off : Nat) (m : Mem) : List (Nat × Word) := (groupBytes 8 m).map fun p => (off + 8 * p.1, BitVec.ofNat 64 p.2)

/-- Cells as bytes, `n` bytes a cell. -/
def cellBytes {w : Nat} (n : Nat) (c : Cells w) : Mem :=
  c.flatMap fun p => ((List.range n).map fun i => (n * p.1 + i, BitVec.ofNat 8 (p.2.toNat / 256 ^ i))).filter fun x => x.2 ≠ 0

/-- Cells as doublewords. -/
def cellWords {w : Nat} (off n : Nat) (c : Cells w) : List (Nat × Word) := memWords off (cellBytes n c)

/-- Bytes moved to another place. -/
def Mem.shift (m : Mem) (lo hi : Nat) : Mem := (Cells.slice m lo hi).map fun p => (p.1 - lo, p.2)

/-- The cells of an image, `n` bytes a cell. -/
def readCells (w n : Nat) (m : Mem) (lo hi : Nat) : Cells w := ((groupBytes n (m.shift lo hi)).map fun p => (p.1, BitVec.ofNat w p.2)).filter fun p => p.2 ≠ 0

/-! ### What is saved -/

/-- A bank with what goes with it, wherever its context lives. -/
structure Resident where
  bank : Bank
  cores : Vector PhysCore 8
  part : BitVec 32
  cmds : List Command
  searches : List Search
deriving DecidableEq, Repr

/-- Errors as the image keeps them, two in a doubleword: each an id and a cause in 32 bits (log 22). -/
def errWords : List (Nat × BitVec 8) → List Word
  | [] => []
  | p :: ps =>
    match ps with
    | [] => [BitVec.ofNat 64 (p.1 * 256 + p.2.toNat)]
    | r :: rs => BitVec.ofNat 64 (p.1 * 256 + p.2.toNat + (r.1 * 256 + r.2.toNat) * 2 ^ 32) :: errWords rs

/-- The errors that an image has room for. -/
def errRoom : Nat := 252

/-- A loop buffer as the image keeps it: how many bundles, then the distance of each from the first bundle of the body, in words (log 22). -/
def bufferWords (off : Nat) (start : Word) (l : List (Word × List (BitVec 32))) : List (Nat × Word) :=
  (off, BitVec.ofNat 64 l.length) ::
    ((List.range 16).map fun i =>
      (off + 8 + 8 * i, BitVec.ofNat 64 ((List.range 4).foldl (fun n j =>
        n + ((l[4 * i + j]?).map fun p => (p.1 - start).toNat / 4 % 65536).getD 0 * 2 ^ (16 * j)) 0)))

/-- A handle in an image: the block's number, and in the second word held, BLKDONE, a block that it names, and its die (log 22). -/
def handleWords (h : Option BlockHandle) : List Word :=
  match h with
  | some x =>
    let done := if x.done then 2 ^ 62 else 0
    match x.block with
    | some p => [BitVec.ofNat 64 p.2, BitVec.ofNat 64 (2 ^ 63 + done + 2 ^ 61 + p.1.val)]
    | none => [0, BitVec.ofNat 64 (2 ^ 63 + done)]
  | none => [0, 0]

/-- The handles as a save writes them: a fill that is not complete is abandoned (R124). -/
def Bank.endFills (b : Bank) : Bank :=
  { b with handles := b.handles.map fun (h : Option BlockHandle) => h.map fun x => if x.done then x else ⟨none, true⟩ }

/-- The blocks that a bank's handles name, those whose fill is under way or all of them, are blocks no more (R124, R130). -/
def State.dropBlocks (s : State) (b : Bank) (all : Bool) : State :=
  b.handles.toList.foldl (fun t (h : Option BlockHandle) =>
    match h with
    | some ⟨some p, done⟩ => if all || !done then t.untag p.1 p.2 else t
    | _ => t) s

/-- The special registers that a split bundle's slots read at issue, as sixteen doublewords (log 22). -/
def regWords (x : Option SpecialRegs) : List Word :=
  match x with
  | none => List.replicate 16 0
  | some r =>
    let vl (k : Nat) : Nat := (((r.coreVl[k]?).getD (0, 0)).1.toNat) + (((r.coreVl[k]?).getD (0, 0)).2.toNat) * 2 ^ 16
    let lc (i : Nat) : Nat := ((r.lc[i]?).map BitVec.toNat).getD 0
    [1, r.tsw, r.tvb, r.tpc, r.tcause.setWidth 64, r.tval, r.blk] ++
    (List.range 4).map (fun i => BitVec.ofNat 64 (vl (2 * i) + vl (2 * i + 1) * 2 ^ 32)) ++
    (List.range 3).map (fun i => BitVec.ofNat 64 (lc (2 * i) + lc (2 * i + 1) * 2 ^ 32)) ++
    [BitVec.ofNat 64 (r.gen.1.toNat + r.gen.2.1.toNat * 2 ^ 32), r.gen.2.2.setWidth 64]

/-- A loop level as eight doublewords. -/
def levelWords (l : LoopLevel) : List Word :=
  [if l.active then 1 else 0, l.start, l.last, l.at_] ++ (loopRecord 0 l).take 4

/-- The sequencer bank, from offset 0x6000. Of what the cluster keeps beside trap frames it has a place for the latest trap's (log 22). -/
def bankWords (b : Bank) : List (Nat × Word) :=
  let f (off : Nat) (xs : List Word) := fileWords off xs
  let n (x : Nat) : Word := BitVec.ofNat 64 x
  f 0 b.file.s.toList ++ [(0x100, b.file.q.setWidth 64)] ++ f 0x108 b.file.h.toList ++
  f 0x188 (b.lc.toList.map fun x => x.setWidth 64) ++
  f 0x1C0 (b.loops.toList.flatMap levelWords) ++
  f 0x340 [b.tsw, n b.slen.toNat, n b.coreEn.toNat, n b.skew.toNat, n b.vl.toNat, n b.vtype.toNat, n b.gpos.toNat, n b.gseedA.toNat,
    n b.gseedB.toNat, b.tvb, b.tpc, n b.tcause.toNat, b.tval, if (b.reenter.map Reentry.byRett).getD false then 1 else 0] ++
  (match b.pendTrap with
   | some p => f 0x3B0 [n (2 ^ 63 + (if p.toHandler then 2 ^ 62 else 0) + p.cause.toNat), p.tval]
   | none => []) ++
  bufferWords 0x540 (b.loops[0]).start b.loopBuf ++
  (match b.aside with
   | x :: _ => f 0x3C0 (x.loops.toList.flatMap levelWords) ++ bufferWords 0x5D0 (x.loops[0]).start x.buf ++ f 0x660 (regWords x.regs) ++ [(0x760, 1)]
   | [] => []) ++
  f 0x6E0 (regWords (b.reenter.bind Reentry.regs)) ++
  f 0x800 (b.handles.toList.flatMap handleWords) ++
  f 0xC00 (n (min b.courierErrs.length errRoom) :: errWords (b.courierErrs.take errRoom))

/-- The per-core block, from offset 0x1_0000 + 0x1000·k (Table 17.7). -/
def coreBlock (c : CoreBank) (p : PhysCore) : List (Nat × Word) :=
  fileWords 0 c.file.a.toList ++
  fileWords 0x80 (c.stride.toList.flatMap fun (x : Vector Word 6) => x.toList) ++
  ((List.range 16).zip c.file.v.toList).flatMap (fun x => wideWords (0x380 + 128 * x.1) x.2 16) ++
  ((List.range 4).zip c.file.m.toList).flatMap (fun x => wideWords (0xB80 + 32 * x.1) x.2 4) ++
  fileWords 0xC00 c.file.h.toList ++ [(0xC80, c.file.vflags.setWidth 64)] ++
  fileWords 0xC88 (c.lock.toList.flatMap fun (x : Option LockWin) =>
    match x with
    | some y => [BitVec.ofNat 64 y.base, BitVec.ofNat 64 y.size]
    | none => [0, 0]) ++
  cellWords 0xD10 2 p.left ++ cellWords 0xE10 2 p.top ++
  [(0xF10, BitVec.ofNat 64 (p.leftTag.toNat + p.topTag.toNat * 256)),
   (0xF18, BitVec.ofNat 64 (c.fmt.toNat + ((List.range 3).zip c.pendFmt).foldl (fun n x => n + fmtBits x.2 * 2 ^ (16 * (x.1 + 1))) 0)),
   (0xF20, BitVec.ofNat 64 ((c.term.map TermSel.term).getD 0))] ++
  fileWords 0xF80 (leWords ((c.term.map TermSel.record).getD []) 16)

/-- The array block, from offset 0x2_0000 + 0x2_0000·k (Table 17.7). -/
def arrayBlock (p : PhysCore) : List (Nat × Word) :=
  cellWords 0 4 p.counters ++ memWords 0x10000 (p.bufA.shift 0 0x8000) ++ memWords 0x18000 (p.bufB.shift 0 0x8000)

/-- A saved command, 160 bytes (R146). -/
def cmdSave (order : Nat) (x : Command) : List Word :=
  (List.range 16).map (wordAt x.block) ++
  [BitVec.ofNat 64 (x.tgt.val + (if x.send then 256 else 0)), BitVec.ofNat 64 order, BitVec.ofNat 64 x.next, 0]

/-- A saved search, 64 bytes (R249). The next candidate is a seed (DEDUCED, log 22). -/
def searchSave (order : Nat) (x : Search) : List Word :=
  let next := BitVec.ofNat 64 (srchFirst x.params + x.next)
  (List.range 4).map (wordAt x.params) ++
  (match x.best with
   | some (b, y) => [next, b.setWidth 64, toWord y, BitVec.ofNat 64 (2 ^ 63 + order)]
   | none => [next, 0, 0, BitVec.ofNat 64 order])

/-- The place of a command or search in the joint order of acceptance. -/
def Resident.order (r : Resident) (n : Nat) : Nat :=
  (r.cmds.filter fun x => x.order < n).length + (r.searches.filter fun x => x.id < n).length

/-! ### The extent table (Table 17.7) -/

/-- A used entry: cores, accumulator store, offset, length. -/
structure Extent where
  mask : BitVec 8
  acc : Bool
  off : Nat
  len : Nat
deriving DecidableEq, Repr

/-- The used entries of the extent table, whose 128 bytes are `m`. -/
def readExtents (m : Mem) : List Extent :=
  ((List.range 8).map fun i =>
    let w := m.word (16 * i)
    { mask := BitVec.ofNat 8 (bits w 63 56), acc := w.getLsbD 48, off := bits w 21 0, len := bits (m.word (16 * i + 8)) 22 0 }).filter
    fun (e : Extent) => e.mask ≠ 0

/-- An entry that fails (0x34). -/
def Extent.bad (part : BitVec 32) (e : Extent) : Bool := e.off % 64 ≠ 0 || e.len % 64 ≠ 0 || shareSize part e.acc < e.off + e.len

/-- The extents with the core that each names, and their place in the lodging. -/
def extentRuns (part : BitVec 32) (es : List Extent) : List (Fin 8 × Bool × Nat × Nat × Nat) :=
  let p := (partSpad part + partAcc part) * 0x10000
  es.flatMap fun e => ((List.finRange 8).filter fun k => e.mask.getLsbD k.val).map fun k =>
    (k, e.acc, e.off, e.len, 0x120000 + p * k.val + (if e.acc then partSpad part * 0x10000 else 0) + e.off)

/-! ### Save (R329) -/

/-- Why a save or a restore is abandoned: the code of Table 17.8, and the faulting address, or 0 (R323). -/
structure SaveFail where
  code : BitVec 8
  va : Word := 0
deriving DecidableEq, Repr

/-- A failed access to a lodging (Table 17.8). -/
def saveFail (e : Stop) : SaveFail :=
  match e with
  | .trap c v _ => ⟨if c = 0x04 then 0x32 else if c = 0x16 then 0x35 else 0x33, faultVa c v⟩
  | .hold | .holdRaise _ => ⟨0x33, 0⟩

/-- Write blocks at offsets of a lodging one after the other; what went before a fault stays written. -/
def writeBlocks (w : Who) (base : Word) : List (Nat × Nat × List (Nat × Word)) → State → State × Option SaveFail
  | [], s => (s, none)
  | (off, len, ws) :: rest, s =>
    match blockWrite s w (base + BitVec.ofNat 64 off) len ws with
    | .ok s1 => writeBlocks w base rest s1
    | .error e => (s, some (saveFail e))

/-- The bank waits (Table 17.7). -/
def Bank.waits (b : Bank) : Bool := b.state = .waitFault || b.state = .halted

/-- A bank is saved with a frame (R329): it waits, before a bundle or inside one. A ready bank is saved without one, and the slots that it has still
to run read live registers. -/
def Bank.hasFrame (b : Bank) : Bool := b.waits && b.pendTrap.isNone && b.reenter.isSome

/-- What a save writes of a ready bank that stands before the first slot of an open bundle: the bundle issues anew after the restore, and counts
for the pending AFMTs then (R220). -/
def Bank.unissued (b : Bank) : Bank :=
  if !b.waits && b.reenter.any fun r => r.slot = 0 && r.snap.isSome then
    { b with cores := b.cores.map fun (c : CoreBank) => { c with pendFmt := c.pendFmt.map fun p => { p with wait := p.wait + 1 } } }
  else b

/-- Word 1 of a lodging's header. -/
def lodgingWord (r : Resident) (reason : Nat) : Word :=
  BitVec.ofNat 64 (1 + reason * 2 ^ 8 + (if r.bank.waits then 2 ^ 16 else 0) + r.cmds.length * 2 ^ 24 + r.searches.length * 2 ^ 32 +
    (if tswMcp r.bank.tsw then 2 ^ 40 else 0) + (if r.bank.hasFrame then 2 ^ 41 else 0))

/-- The blocks of a lodging between the two writes of VALID. -/
def lodgingBlocks (r : Resident) (es : List Extent) (reason : Nat) : List (Nat × Nat × List (Nat × Word)) :=
  let b := r.bank.unissued
  let cores := (List.finRange 8)
  [(0x6000, 0x1000, bankWords b),
   (0x7000, 160 * r.cmds.length, fileWords 0 (r.cmds.flatMap fun x => cmdSave (r.order x.order) x)),
   (0x9800, 64 * r.searches.length, fileWords 0 (r.searches.flatMap fun x => searchSave (r.order x.id) x))] ++
  cores.map (fun k => (0x10000 + 0x1000 * k.val, 0x1000, coreBlock b.cores[k.val] r.cores[k.val])) ++
  cores.map (fun k => (0x20000 + 0x20000 * k.val, 0x20000, arrayBlock r.cores[k.val])) ++
  (extentRuns r.part es).map (fun x => (x.2.2.2.2, x.2.2.2.1, memWords 0 (((r.cores[x.1.val]).share x.2.1).shift x.2.2.1 (x.2.2.1 + x.2.2.2.1)))) ++
  (match b.reenter with
   | some re =>
     if b.hasFrame then
       let sn := re.snap.getD { seq := b.file, cores := b.cores.map CoreBank.file }
       [(0x800, frameLen, frameWords b b.tsw true sn re.guards re.sampled re.next)]
     else []
   | none => []) ++
  [(8, 56, [(0, lodgingWord r reason), (8, r.part.setWidth 64), (24, if tswMcp b.tsw then b.mcAddr else 0)])]

/-- Save a task to its lodging: none, or why the save is abandoned. Accesses are the task's own (log 9). -/
def saveTask (s : State) (r : Resident) (reason : Nat) : State × Option SaveFail :=
  let b := r.bank
  let w : Who := ⟨8, tswAsn b.tsw, tswSup b.tsw⟩
  let req := 0x120000 + 8 * (partSpad r.part + partAcc r.part) * 0x10000
  match blockRead s w (b.frame + 0x40) 128 with
  | .error e => (s, some (saveFail e))
  | .ok (s1, m) =>
    let es := readExtents m
    if 2 ^ hdrFrsz (s.header s.cl.id.die b.lrec w.asn) < req then (s1, some ⟨0x31, 0⟩)
    else if es.any (Extent.bad r.part) then (s1, some ⟨0x34, 0⟩)
    else writeBlocks w b.frame ([(0, 8, [])] ++ lodgingBlocks r es reason ++ [(0, 8, [(0, 1)])]) s1

/-! ### Restore (R330) -/

/-- Read parts of a lodging into one image, by offset. -/
def readBlocks (w : Who) (base : Word) : List (Nat × Nat) → Mem → State → Except SaveFail (State × Mem)
  | [], m, s => .ok (s, m)
  | (off, len) :: rest, m, s =>
    match blockRead s w (base + BitVec.ofNat 64 off) len with
    | .ok (s1, x) => readBlocks w base rest (Cells.replace m off (off + len) (x.map fun p => (off + p.1, p.2))) s1
    | .error e => .error (saveFail e)

/-- A level from its eight doublewords. -/
def readLevel (m : Mem) (o : Nat) : LoopLevel :=
  { active := m.get o ≠ 0, start := m.word (o + 8), last := m.word (o + 16), at_ := m.word (o + 24),
    issued := Mem.read m (o + 36) 4, iter := Mem.read m (o + 32) 4,
    filled := Vector.ofFn fun i : Fin 10 => Mem.read m (o + 40 + 2 * i.val) 2, stall := Mem.read m (o + 60) 4 }

/-- A loop buffer of an image: its bundles are to be fetched again (R64). -/
def readBuffer (m : Mem) (o : Nat) (start : Word) : List (Word × List (BitVec 32)) :=
  (List.range (min (m.word o).toNat 64)).map fun i => (start + BitVec.ofNat 64 (4 * Mem.read m (o + 8 + 2 * i) 2), [])

/-- The special registers of an image, none where it holds none. -/
def readRegs (m : Mem) (o : Nat) : Option SpecialRegs :=
  let w (i : Nat) : Word := m.word (o + 8 * i)
  if w 0 = 0 then none
  else some
    { tsw := w 1, tvb := w 2, tpc := w 3, tcause := (w 4).setWidth 8, tval := w 5, blk := w 6,
      coreVl := Vector.ofFn fun k : Fin 8 =>
        (BitVec.ofNat 16 (Mem.read m (o + 56 + 4 * k.val) 2), BitVec.ofNat 16 (Mem.read m (o + 58 + 4 * k.val) 2)),
      lc := Vector.ofFn fun i : Fin 6 => BitVec.ofNat 32 (Mem.read m (o + 88 + 4 * i.val) 4),
      gen := (BitVec.ofNat 32 (Mem.read m (o + 112) 4), BitVec.ofNat 32 (Mem.read m (o + 116) 4), BitVec.ofNat 32 (Mem.read m (o + 120) 4)) }

/-- A handle of an image. -/
def readHandle (num w : Word) : Option BlockHandle :=
  if w.getLsbD 63 then some ⟨if w.getLsbD 61 then some (Fin.ofNat 64 (bits w 5 0), num.toNat) else none, w.getLsbD 62⟩ else none

/-- The sequencer bank of an image whose bank block begins at `o`. -/
def readBank (b : Bank) (m : Mem) (o : Nat) : Bank :=
  let w (x : Nat) : Word := m.word (o + x)
  let loops : Vector LoopLevel 6 := Vector.ofFn fun i : Fin 6 => readLevel m (o + 0x1C0 + 64 * i.val)
  let aside : Vector LoopLevel 6 := Vector.ofFn fun i : Fin 6 => readLevel m (o + 0x3C0 + 64 * i.val)
  { b with
    file := { s := Vector.ofFn fun i : Fin 32 => if i.val = 0 then 0 else w (8 * i.val), q := BitVec.ofNat 32 (w 0x100).toNat ||| 1,
              h := Vector.ofFn fun i : Fin 16 => w (0x108 + 8 * i.val) },
    lc := Vector.ofFn fun i : Fin 6 => (w (0x188 + 8 * i.val)).setWidth 32,
    loops := loops, loopBuf := readBuffer m (o + 0x540) (loops[0]).start,
    aside := if w 0x760 = 0 then [] else [⟨aside, readBuffer m (o + 0x5D0) (aside[0]).start, readRegs m (o + 0x660)⟩],
    pendTrap := if (w 0x3B0).getLsbD 63 then some ⟨BitVec.ofNat 8 (bits (w 0x3B0) 7 0), w 0x3B8, (w 0x3B0).getLsbD 62⟩ else none,
    tsw := w 0x340 &&& tswBits, slen := (w 0x348).setWidth 17, coreEn := (w 0x350).setWidth 8, skew := (w 0x358).setWidth 2,
    vl := (w 0x360).setWidth 16, vtype := (w 0x368).setWidth 16 &&& vtypeBits, gpos := (w 0x370).setWidth 32, gseedA := (w 0x378).setWidth 32,
    gseedB := (w 0x380).setWidth 32, tvb := w 0x388, tpc := w 0x390, tcause := (w 0x398).setWidth 8, tval := w 0x3A0,
    handles := Vector.ofFn fun i : Fin 64 => readHandle (w (0x800 + 16 * i.val)) (w (0x808 + 16 * i.val)),
    courierErrs := (List.range (min (w 0xC00).toNat errRoom)).map fun i =>
      let x := Mem.read m (o + 0xC08 + 4 * i) 4
      (x / 256, BitVec.ofNat 8 x) }

/-- The locked windows of a core block: each is walked again (R94). -/
def readLocks (s : State) (w : Who) (m : Mem) (o : Nat) : Vector (Option LockWin) 8 :=
  Vector.ofFn fun i : Fin 8 =>
    let base := m.word (o + 16 * i.val)
    let size := (m.word (o + 16 * i.val + 8)).toNat
    if size = 0 then none else some ⟨base.toNat, size, (walk s w base).toOption.map Prod.snd⟩

/-- What those walks leave behind: corrected words, and their records (R71, R83). -/
def lockWalks (w : Who) (m : Mem) (s : State) : State :=
  ((List.range 64).map fun i => 0x10C88 + 0x1000 * (i / 8) + 16 * (i % 8)).foldl (fun t o =>
    if m.word (o + 8) = 0 then t else match walk t w (m.word o) with | .ok (t1, _) => t1 | .error _ => t) s

/-- The core bank of an image whose core block begins at `o`. -/
def readCore (s : State) (w : Who) (m : Mem) (o : Nat) : CoreBank :=
  let f := m.word (o + 0xF18)
  let rec_ := m.bytes (o + 0xF80) 128
  { file := { a := Vector.ofFn fun i : Fin 16 => m.word (o + 8 * i.val),
              v := Vector.ofFn fun i : Fin 16 => wideRead 1024 m (o + 0x380 + 128 * i.val) 16,
              m := Vector.ofFn fun i : Fin 4 => wideRead 256 m (o + 0xB80 + 32 * i.val) 4,
              h := Vector.ofFn fun i : Fin 16 => m.word (o + 0xC00 + 8 * i.val),
              vflags := BitVec.ofNat 32 (Mem.read m (o + 0xC80) 4) &&& vflagBits },
    stride := Vector.ofFn fun i : Fin 16 => Vector.ofFn fun l : Fin 6 => m.word (o + 0x80 + 48 * i.val + 8 * l.val),
    lock := readLocks s w m (o + 0xC88),
    fmt := BitVec.ofNat 10 (bits f 9 0),
    pendFmt := readFmts (f >>> 16),
    term := if rec_.getD 0 0 = 0 then none else some ⟨rec_, (m.word (o + 0xF20)).toNat, s.cl.clock⟩,
    checked := true }

/-- A write under way of a row of the accumulator store. -/
def ArrayWrite.ofRows : ArrayWrite → Bool
  | .rows _ _ | .drain _ _ _ | .scale _ _ _ _ => true
  | .latch _ _ _ | .count _ => false

/-- The array state of an image, into a core whose pool stays, the rows that other banks have under way included (R330). -/
def readArray (p : PhysCore) (m : Mem) (blk arr : Nat) : PhysCore :=
  { p with
    left := readCells 16 2 m (blk + 0xD10) (blk + 0xE10), top := readCells 16 2 m (blk + 0xE10) (blk + 0xF10),
    leftTag := m.get (blk + 0xF10), topTag := m.get (blk + 0xF11),
    counters := readCells 24 4 m arr (arr + 0x10000), bufA := m.shift (arr + 0x10000) (arr + 0x18000),
    bufB := m.shift (arr + 0x18000) (arr + 0x20000), pend := p.pend.filter fun x => x.eff.ofRows }

/-- R156: the pool takes a partition word and an ASN; at a change of tenant every byte of it and of the operand buffers
becomes zero. -/
def Cluster.tenant (c : Cluster) (part : BitVec 32) (asn : BitVec 16) : Cluster :=
  if c.part = part && c.asn = asn then c
  else { c with part := part, asn := asn, cores := c.cores.map fun (k : PhysCore) => { k with spad := [], acc := [], bufA := [], bufB := [] } }

/-- The errors of the barriers in the current cluster's scratchpads whose ERR reads 0 are forgotten (R138). -/
def State.forgetClear (s : State) : State :=
  if !s.anyErrs then s
  else
    let gone (l : Loc) : Bool := match l with
      | .pool d k false o => d = s.cl.id && !((s.cl.cores[k.val]).spad.word o).getLsbD 62
      | .pool _ _ true _ | .mem _ => false
    { s with cl := s.cl.forgetErrs gone, others := s.others.map (Cluster.forgetErrs gone) }

/-- The current cluster takes a tenant. -/
def State.tenant (s : State) (part : BitVec 32) (asn : BitVec 16) : State := (s.modCl fun c => c.tenant part asn).forgetClear

/-- A detached command is accepted again, in a courier that gives it a new id; a barrier that no longer resolves puts it into error (R146). One
that has landed bytes of a message still holds its arrival slot (R148). -/
def acceptAgain (s : State) (x : Command) : State :=
  let y : Command := { x with
    id := s.cl.nextCmd, state := .queued, slot := 0, resumed := x.next, landed := [], after := [], born := 0, stalled := false, onBar := none,
    reserved := x.reserved || (x.send && decide (0 < x.next)) }
  let s1 := acceptCmd s y
  if cmdBaren x.block && (barrierLoc s x.asn x.sup (cmdBar x.block)).isNone then
    let b := s1.bankAt x.bank
    (s1.modCl fun c => { c with cmds := c.cmds.map fun z =>
        if z.seq = s.cl.accepted then { z with state := .error, cause := 0x07, news := true } else z }).setBankAt x.bank
      { b with courierErrs := b.courierErrs ++ [(y.id, 0x07)] }
  else s1

/-- A search is accepted again (R249). -/
def searchAgain (s : State) (x : Search) : State :=
  s.modCl fun c => { c with nextOp := c.nextOp + 1, searches := c.searches ++ [{ x with id := c.nextOp, tile := none, olds := srchTile s x }] }

/-- Detached commands and searches in their joint order of acceptance. -/
def mergeAccepted : List Command → List Search → List (Command ⊕ Search)
  | [], ys => ys.map .inr
  | x :: xs, ys => (ys.filter fun y => y.id < x.order).map .inr ++ .inl x :: mergeAccepted xs (ys.filter fun y => x.order ≤ y.id)

/-- They are accepted again, in that order. -/
def acceptItems (xs : List (Command ⊕ Search)) (s : State) : State :=
  xs.foldl (fun s x => match x with | .inl c => acceptAgain s c | .inr y => searchAgain s y) s

/-- A saved command. The lodging has no place for the supervisor state under which it was accepted: that of the saved bank is taken (DESIGN CHOICE,
log 22). -/
def readCommand (i : Fin 8) (w : Who) (m : Mem) (o : Nat) : Command :=
  { id := 0, bank := i, send := (m.word (o + 128)).getLsbD 8, tgt := Fin.ofNat 9 (bits (m.word (o + 128)) 3 0), block := m.words o 16, asn := w.asn,
    sup := w.sup, next := (m.word (o + 144)).toNat }

/-- A saved search (R249). -/
def readSearch (i : Fin 8) (w : Who) (m : Mem) (o : Nat) : Search :=
  let ps := m.words o 4
  { id := 0, bank := i, params := ps, asn := w.asn, sup := w.sup, next := (m.word (o + 32)).toNat - srchFirst ps,
    best := if (m.word (o + 56)).getLsbD 63 then some (BitVec.ofNat 32 (m.word (o + 40)).toNat, (m.word (o + 48)).toInt) else none }

/-- The commands and searches of an image in the order of their ORDER fields. -/
def readItems (i : Fin 8) (w : Who) (m : Mem) : List (Command ⊕ Search) :=
  let ncmd := bits (m.word 8) 30 24
  let nsrch := bits (m.word 8) 35 32
  (List.range (ncmd + nsrch)).flatMap fun n =>
    ((List.range ncmd).filter fun j => bits (m.word (0x7000 + 160 * j + 136)) 15 0 = n).map (fun j => .inl (readCommand i w m (0x7000 + 160 * j))) ++
    ((List.range nsrch).filter fun j => bits (m.word (0x9800 + 64 * j + 56)) 15 0 = n).map (fun j => .inr (readSearch i w m (0x9800 + 64 * j)))

/-- The bank from an image, ready to run (R330 steps 3 to 5). No TLBINV is outstanding in it: the spec does not say whether one that was waits on
(DESIGN CHOICE, log 22). -/
def loadBank (s : State) (i : Fin 8) (e : QEntry) (ws h : List Word) (m : Mem) : State :=
  let w1 := m.word 8
  let tsw := m.word (0x6000 + 0x340)
  let w : Who := ⟨8, tswAsn tsw, tswSup tsw⟩
  let slot := recSlot ws
  let re : Option Reentry :=
    if w1.getLsbD 41 then
      let x := frameReentry (m.shift 0x800 0x5C00) slot
      some { x with byRett := m.get (0x6000 + 0x3A8) ≠ 0, fresh := !x.guards.getLsbD slot, regs := readRegs m (0x6000 + 0x6E0) }
    else none
  let base : Bank := { state := .ready, wid := wordAt ws 3, trec := e.addr, frame := wordAt ws 1, tidx := wordAt ws 6, lrec := wordAt ws 4,
                       prio := recPrio ws, readySince := s.readied, pc := recCode ws, checked := true, checkedNew := true, checkedAt := s.cl.time,
                       reenter := re, mcAddr := m.word 32 }
  let b0 := readBank base m 0x6000
  let b := if re.isNone && slot ≠ 0 then { b0 with reenter := some { slot := slot, sampled := ⟨b0.slen, b0.skew, b0.coreEn, b0.vl, b0.vtype⟩ } } else b0
  let b1 := { b with tsw := if w1.getLsbD 40 then b.tsw ||| 0x800 else b.tsw &&& ~~~(0x800 : Word),
                     cores := Vector.ofFn fun k : Fin 8 => readCore s w m (0x10000 + 0x1000 * k.val) }
  let es := readExtents (m.shift 0x40 0xC0)
  let s1 := s.modCl fun c =>
    { c with cores := Vector.ofFn fun k : Fin 8 =>
        (extentRuns (hdrPart h) es).foldl (fun (p : PhysCore) x =>
          if x.1 = k then
            p.setShare x.2.1 (Cells.replace (p.share x.2.1) x.2.2.1 (x.2.2.1 + x.2.2.2.1)
              ((m.shift x.2.2.2.2 (x.2.2.2.2 + x.2.2.2.1)).map fun q => (q.1 + x.2.2.1, q.2)))
          else p) (readArray c.cores[k.val] m (0x10000 + 0x1000 * k.val) (0x20000 + 0x20000 * k.val)) }
  (acceptItems (readItems i w m) (lockWalks w m (s1.setBankAt i b1)).forgetClear).made

/-- Restore a KIND 1 record into free bank `i` of the current cluster: none, or why it fails. -/
def restoreTask (s : State) (i : Fin 8) (e : QEntry) (ws h : List Word) : State × Option SaveFail :=
  let w := engineWho e.asn
  let frame := wordAt ws 1
  match readBlocks w frame [(0, 0xC0)] [] s with
  | .error c => (s, some c)
  | .ok (s1, m0) =>
    let w1 := m0.word 8
    if !(m0.word 0).getLsbD 0 || bits w1 7 0 ≠ 1 || BitVec.ofNat 32 (m0.word 16).toNat ≠ hdrPart h then (s1, some ⟨0x36, 0⟩)
    else
      let s2 := s1.tenant (hdrPart h) e.asn
      let es := readExtents (m0.shift 0x40 0xC0)
      let parts := (if w1.getLsbD 41 then [(0x800, frameLen)] else []) ++
        [(0x6000, 0x1000), (0x7000, 160 * bits w1 30 24), (0x9800, 64 * bits w1 35 32), (0x10000, 0x8000), (0x20000, 0x100000)] ++
        (extentRuns (hdrPart h) es).map fun x => (x.2.2.2.2, x.2.2.2.1)
      if es.any (Extent.bad (hdrPart h)) then (s2, some ⟨0x34, 0⟩)
      else
        match readBlocks w frame parts m0 s2 with
        | .error c => (s2, some c)
        | .ok (s3, m) =>
          match blockWrite s3 w frame 8 [] with
          | .error x => (s3, some (saveFail x))
          | .ok s4 => (loadBank s4 i e ws h m, none)

end Sys2Proof.Machine
end

