-- ==== Sys2Proof/Machine/Tasks.lean ====
section
/-!
DEFINITION. Sys2Proof/Machine/Tasks.lean: SPAWN, SUSPEND, JOIN, EXIT, YIELD and LAUNCH (R269 to R275), the ends of their bundles, taking and
restoring records (R263 to R266, R330), queue ageing (R261), and the steps of a launch (R258 to R260, R267, R268).
-/

namespace Sys2Proof.Machine

/-! ### SPAWN and LAUNCH -/

/-- The slot holds until there is room for what it starts, and until the bank's earlier stores are performed unless a pre-emption, which performs
them, abandons that wait (R326). A pre-emption waits for the room (DEDUCED from R259, log 29). -/
def holdUnless (s : State) (room : Bool) : Eff Unit :=
  if room && (s.opn.abandon || storesDone s) then .ok () else .error .hold

/-- SPAWN (R270): the record is read and written, and COUNT is raised, after the sequencer's acquires and its accesses to the same bytes (R298,
R301). -/
def spawn (s : State) : Eff State := do
  let w := s.seqWho
  let r := s.rs s.sole
  chkForm w r
  if isWindow r then w.trap 0x07 r
  else
    chkAlign w r 64
    let (s1, l) ← locate s w { write := true } r 64
    match l with
    | .pool _ _ _ _ => w.trap 0x07 r
    | .mem pa =>
      holdUnless s1 true
      let s1 := beforeSync s1 8 (.mem pa) 64
      if s1.badAt pa 64 then w.trap 0x16 r
      else
        let s2 := s1.correct pa 64
        let ws := s2.mem.words pa 8
        if recKind ws ≠ 0 || recZeros ws then w.trap 0x12 0x26
        else
          let b := s2.bank
          let d := s2.cl.id.die
          let h := s2.header d b.lrec s2.asn
          let (s3, own) ← engineCount s2 s2.asn b.trec
          let s3 := beforeSync s3 8 (.mem own) 64
          let child := (ws.set 2 (recWord2 0 (recPrio ws).val 0 0)).set 5 b.trec |>.set 4 b.lrec
          holdUnless s3 (decide ((((s3.die d).queue (queueOf h (wordAt ws 6))).size) < Config.queueRoom))
          match ((cohNow s3 8 (.mem pa) 64 (.store 0)).putWords pa child).countUp own with
          | none => w.trap 0x12 0x29
          | some s4 => .ok (s4.enqueue d r child h)

/-- SPAWN (R270): the record is read once the bank's earlier stores are performed, those of its own bundle too (log 5). -/
def execSpawn (s : State) : Host.Outcome State Fault Refusal :=
  let t := commitLate s
  outcome t (spawn t)

/-- LAUNCH (R275): the release of the earlier stores comes before COUNT. -/
def launch (s : State) : Eff State := do
  let w := s.seqWho
  let hdr := s.rs s.sole
  chkForm w hdr
  if isWindow hdr then w.trap 0x07 hdr
  else
    chkAlign w hdr 128
    let (s1, h) ← seqLoadWords {} hdr 16 s
    match hdrInvalid h s.sup true with
    | some code => w.trap 0x12 (code.setWidth 64)
    | none =>
      if hdrAsn h ≠ s.asn && !s.sup then privilege s
      else
        holdUnless s (decide (s.launches.length < 64))
        let s2 ← (if hdrCkind h = 2 then do
            let (t, l) ← locate s1 w { write := true } (hdrCtarget h) 64
            match l with
            | .pool _ _ _ _ => w.trap 0x07 (hdrCtarget h)
            | .mem pa =>
              let t := beforeSync t 8 (.mem pa) 64
              if t.badAt (pa + 16) 8 then w.trap 0x16 (hdrCtarget h)
              else
                match (cohNow (t.correct (pa + 16) 8) 8 (.mem (pa + 16)) 8 (.rmw ⟨1, 0, 0⟩)).countUp pa with
                | some t1 => .ok t1
                | none => w.trap 0x12 0x29
          else .ok s1)
        .ok (s2.startLaunch hdr s.asn h s.cl.id.die s.sup 0)

/-- LAUNCH (R275): it holds while 64 launches are in flight (R259). The writes of its own bundle are released too (log 5). -/
def execLaunch (s : State) : Host.Outcome State Fault Refusal :=
  let t := commitLate s
  outcome t (launch t)

/-! ### The slots that act at the end of their bundle (R269): a pending error traps at the slot (R138, R317) -/

/-- A pending machine check, and where `courier` a courier error, traps at the slot; else the end of the bundle acts. -/
def armEnd (s : State) (courier : Bool) (a : EndAct) : Host.Outcome State Fault Refusal :=
  match pendingError s courier with
  | some t => .next t
  | none => .next (setEnd s a)

/-- SUSPEND (R271). -/
def execSuspend (s : State) : Host.Outcome State Fault Refusal := armEnd s true (.suspend s.opn.idx)

/-- SUSPEND.dorm (R271). -/
def execSuspendDorm (s : State) : Host.Outcome State Fault Refusal := armEnd s true .suspendDorm

/-- JOIN (R272). -/
def execJoin (s : State) : Host.Outcome State Fault Refusal := armEnd s false (.join s.opn.idx)

/-- EXIT (R273). -/
def execExit (s : State) : Host.Outcome State Fault Refusal := armEnd s false (.exit s.opn.idx)

/-- YIELD (R274). -/
def execYield (s : State) : Host.Outcome State Fault Refusal := .next (setEnd s .yield)

/-! ### The end of a bundle -/

/-- Type 6 records for the commands of bank `i` that parked, entered error or were cancelled since its last stop (R361). -/
def engineRecords (i : Fin 8) (asn : BitVec 16) (pc : Word) (s : State) : State :=
  let d := s.cl.id.die
  let xs := s.cl.cmds.filter fun x => x.bank = i && x.news
  let s1 := s.modCl fun c => { c with cmds := c.cmds.map fun x => if x.bank = i then { x with news := false } else x }
  if s.traced d asn then
    xs.foldl (fun s x => s.traceWrite d (traceFill (traceHead 6 s.cl.id i.val 8 0 asn pc s.cl.last.cycle ++
      [BitVec.ofNat 64 x.id, cmdWord x, x.va]))) s1
  else s1

/-- The end of a bundle that the task goes on from; a single step traps after it (R314). -/
def endBundle (s : State) : State :=
  let o := s.opn
  if tswSs o.regs.tsw && !tswInh o.regs.tsw then engineRecords s.bankNo (tswAsn o.regs.tsw) o.pc (trapAfterBundle s 0x14 0) else closeBundle s

/-- A bundle of the running task that ends in another way than by going on has committed: its single step is taken before the bank's next bundle
(R314). -/
def stepLater (o : OpenBundle) (s : State) : State :=
  if tswSs o.regs.tsw && !tswInh o.regs.tsw then
    s.modBank fun b =>
      { b with pendTrap := some ⟨0x14, 0, false⟩, reenter := some (b.reenter.getD { slot := 0, snap := none, guards := o.guards, sampled := o.sampled }) }
  else s

/-- What a bank issued is detached from the courier and the search engine; the courier still knows the commands that have ended (R153). -/
def State.detach (s : State) (i : Fin 8) : State :=
  s.modCl fun c => { c with cmds := c.cmds.filter fun x => x.bank ≠ i || !x.counts, searches := c.searches.filter fun x => x.bank ≠ i }

/-- Bank `i` of the current cluster is free. -/
def State.freeBank (s : State) (i : Fin 8) : State :=
  if s.cl.run = some i then (s.modCl fun c => { c with run := none, opn := none, bank := {}, banks := c.banks.set i.val {} i.isLt }).switchPoint
  else s.setBankAt i {}

/-- Run a command on until it completes, parks or fails (R146). -/
def finishCmd (s : State) (seq : Nat) : State :=
  match findCmd s.cl seq with
  | none => s
  | some x =>
    commandComplete seq ((List.range (cmdTotal x.block - x.next)).foldl (fun s _ => courierElement seq s) (arrivalReserve seq s))

/-- What a save or a pre-emption completes first: the bank's running commands, its loads, stores and atomics, and every gather
(R146, R171, R326). -/
def quiesceBank (s : State) (i : Fin 8) : State :=
  let s1 := (s.cl.cmds.filter fun x => x.bank = i && x.state = .running).foldl (fun s x => finishCmd s x.seq) s
  (List.finRange 8).foldl (fun t k => finishGathers k t) (drainBank s1 i)

/-- A command of bank `i` is running. -/
def running (s : State) (i : Fin 8) : Bool := s.cl.cmds.any fun x => x.bank = i && x.state = .running

/-- A running command of bank `i` cannot be finished yet: a message waits for an arrival slot, or the courier is stalled; the save or pre-emption waits
for it (R137, R146, R148). -/
def unfinished (s : State) (i : Fin 8) : Bool := running (quiesceBank s i) i

/-- The commands of a bank that a save writes: a message that has landed nothing gives its arrival slot up (DESIGN CHOICE, log 36). -/
def giveSlots (s : State) (i : Fin 8) : State :=
  (s.cl.cmds.filter fun x => x.bank = i && x.counts && x.next = 0 && x.reserved).foldl (fun t x => releaseArr (setCmd t { x with reserved := false }) x) s

/-- A bank of the current cluster with what is saved of it. -/
def State.resident (s : State) (i : Fin 8) : Resident :=
  { bank := (s.bankAt i).endFills, cores := s.cl.cores, part := s.cl.part,
    cmds := s.cl.cmds.filter fun x => x.bank = i && x.counts, searches := s.cl.searches.filter fun x => x.bank = i }

/-- Write a record back as KIND 1 (R253, R254): COUNT, WAIT and PRIO stay. -/
def writeBack (s : State) (pa : Nat) (b : Bank) (code : Word) (slot : Nat) : State :=
  let w2 := (s.mem.word (pa + 16) &&& ~~~(0xF000000000 : Word)) ||| 0x1000000000
  ((s.ownRun (.engine s.cl.id (tswAsn b.tsw)) pa 64).putWords pa [recWord0' slot code, b.frame, w2, b.wid, b.lrec]).putWord (pa + 48) b.tidx

/-- The running task gives up its turn after its bundle has closed: it is saved, to resume at `code` and `slot`. `wake`: its record is
enqueued again. A save that fails leaves the task where it is, with TCAUSE and TVAL set and WAIT clear (R271 to R273); a single step of the
bundle `o` is taken when the task goes on, there or where its lodging is restored (R314). -/
def giveUp (s : State) (o : OpenBundle) (pa : Nat) (reason : Nat) (code : Word) (slot : Nat) (wake : Bool) : State :=
  let i := s.bankNo
  let s1 := quiesceBank s.deliver i
  let s2 := (if reason = 4 then s1 else stepLater o s1).modBank fun b => { b.leaveResidual with pc := code }
  match saveTask s2 (s2.resident i) reason with
  | (s3, none) =>
    let b := s3.bank
    let s4 := (writeBack s3 pa b code slot).dropBlocks b false
    let ws := s4.mem.words pa 8
    let d := s4.cl.id.die
    let s5 := if wake then s4.enqueue d b.trec ws (s4.header d b.lrec (tswAsn b.tsw)) else s4.putWord (pa + 16) (wordAt ws 2 ||| 0x100000000)
    ((giveSlots s5 i).detach i).freeBank i
  | (s3, some c) =>
    s3.modBank fun b => { b with tcause := 0x12, tval := c.code.setWidth 64, reenter := if slot = 0 then b.reenter else some { slot := slot, snap := none } }

/-- Trap at slot `j` from the end of its bundle. -/
def trapAtEnd (s : State) (j : Nat) (e : Stop) : State :=
  match e with
  | .trap c v a => takeTrapAt s j c v a
  | _ => s

/-- The effect of `wait 15, 15, 15, 15` at the end of a bundle, then a pending error at slot `j` (R271, R273): none when neither
holds the bundle. -/
def endWait (s : State) (j : Nat) : Option State :=
  if !waitMet s s.opn.sampled.coreEn 15 15 15 15 then some s.stall else pendingError (s.modOpn fun o => { o with idx := j }) true

/-- The end of SUSPEND (R271). -/
def endSuspend (s : State) (j : Nat) : State :=
  match endWait s j with
  | some t => t
  | none =>
    if unfinished s s.bankNo then s.stall
    else
      match engineLoc s (tswAsn s.bank.tsw) s.bank.trec 64 true true with
      | .error e => trapAtEnd s j e
      | .ok (s1, pa) =>
        let s2 := closeBundle s1
        giveUp s2 s.opn pa 2 s2.bank.pc 0 true

/-- The end of SUSPEND.dorm (R271): an arrival that waits starts the bank at once. The dormant task is in original code (R276). -/
def endDorm (s : State) : State :=
  let s1 := stepLater s.opn (closeBundle s).deliver
  (handlerStart ((s1.modBank Bank.leaveResidual).leave .dormant)).switchPoint

/-- The end of JOIN (R272): COUNT is read after the sequencer's acquires and its accesses to the record (R298, R301). -/
def endJoin (s : State) (j : Nat) : State :=
  if unfinished s s.bankNo then s.stall
  else
    match engineCount (afterAcquire s 8) (tswAsn s.bank.tsw) s.bank.trec with
    | .error e => trapAtEnd s j e
    | .ok (s0, pa) =>
      let s1 := beforeSync s0 8 (.mem pa) 64
      if recCount (s1.mem.words pa 8) = 0 then endBundle s1
      else
        let s2 := closeBundle s1
        giveUp s2 s.opn pa 3 s2.bank.pc 0 false

/-- Count an exited root task at the home die of its index (R267). -/
def countExit (s : State) (lrec tidx : Word) (asn : BitVec 16) : State :=
  match s.launchOf lrec asn with
  | none => s
  | some l =>
    let d := homeDie (hdrTasks (l.headerAt s.cl.id.die)) tidx.toNat
    s.setLaunch (l.setShare d { l.share d with exits := (l.share d).exits + 1 })

/-- The open bundle is left before its end, to be entered again at slot `j`. -/
def leaveBundle (s : State) (j : Nat) : State := (leaveSplit s j (coreCycle 1 s.opn.sampled.skew 7) none).1.modCl fun c => { c with opn := none }

/-- A task exits (R273): its parent's COUNT, or the launch's count. -/
def retireTask (s : State) (parent lrec tidx : Word) (asn : BitVec 16) : Eff State :=
  if parent = 0 then .ok (countExit s lrec tidx asn)
  else do
    let (s1, pa) ← engineCount s asn parent
    .ok (s1.countDown s1.cl.id.die pa parent asn)

/-- The end of EXIT (R273). -/
def endExit (s : State) (j : Nat) : State :=
  let b := s.bank
  let asn := tswAsn b.tsw
  if unfinished s s.bankNo then s.stall
  else
    match engineLoc s asn b.trec 64 true true with
    | .error e => trapAtEnd s j e
    | .ok (s1, pa) =>
      let ws := s1.mem.words pa 8
      if recCount ws ≠ 0 then giveUp (leaveBundle s1 j) s.opn pa 4 s.opn.pc j false
      else
        match endWait s j with
        | some t => t
        | none =>
          if !waitMet s 0xFF 0 0 0 0 then s.stall
          else
            match retireTask s1 (wordAt ws 5) b.lrec b.tidx asn with
            | .error e => trapAtEnd s j e
            | .ok s2 =>
              let s3 := (closeBundle s2).deliver
              (s3.dropBlocks s3.bank true).freeBank s.bankNo

/-- The end of YIELD (R274). -/
def endYield (s : State) : State :=
  if s.cl.select.isNone then endBundle s
  else
    let s1 := stepLater s.opn (closeBundle s).deliver
    ((s1.modBank fun b => { b with readySince := s1.readied }).made.leave .ready).switchPoint

/-- The bank waits at the next bundle and a record of TYPE 8 is posted: HALT and a stop trigger (R331, R360). -/
def haltBank (s : State) : State :=
  let s1 := engineRecords s.bankNo (tswAsn s.bank.tsw) s.bank.pc s.deliver
  let b := s1.bank
  let r : FaultRec := ⟨recWord0 8 0 s1.cl.id s1.bankNo.val 8 0 (tswAsn b.tsw), 0, b.pc, b.trec, .bank s1.cl.id b.trec⟩
  ((s1.leave .halted).raise s1.cl.id.die r).switchPoint

/-- Every slot of the open bundle has been performed: its end (R29, R269, R331). -/
def finishBundle (s : State) : State :=
  match s.opn.endAct with
  | none => endBundle s
  | some (.suspend j) => endSuspend s j
  | some .suspendDorm => endDorm s
  | some (.join j) => endJoin s j
  | some (.exit j) => endExit s j
  | some .yield => endYield s
  | some (.rett j) => endRett s j
  | some .halt => haltBank (stepLater s.opn (closeBundle s))

/-! ### Taking records (R263 to R266) -/

/-- The banks that a partition word gives a sequencer (R20, R155). -/
def bankCount (part : BitVec 32) : Nat := if partRf part = 2 then 8 else 4

/-- A free bank for a launch's partition word, when the triggers have judged the cycles of the bank's last task. -/
def freeBankFor (c : Cluster) (part : BitVec 32) : Option (Fin 8) :=
  if !c.evals.isEmpty || c.stop.isSome then none else (List.finRange 8).find? fun i => i.val < bankCount part && !c.residents.contains i

/-- A cluster may hold a record (R263). -/
def mayHold (s : State) (c : Cluster) (e : QEntry) : Bool :=
  (s.die c.id.die).svcMask.getLsbD c.id.cluster.val == e.service &&
  (c.residents.isEmpty || (c.part = e.part && c.asn = e.asn)) && (freeBankFor c e.part).isSome

/-- The record that a cluster takes next, its queue and its level (R263). -/
def nextRecord (s : State) (c : Cluster) : Option (QEntry × Option (Fin 8) × Fin 4) :=
  let d := s.die c.id.die
  [3, 2, 1, 0].findSome? fun (lv : Fin 4) =>
    [some c.id.cluster, none].findSome? fun q =>
      (((d.queue q).levels[lv.val]).find? (mayHold s c)).map fun e => (e, q, lv)

/-- Take an entry out of its queue. -/
def State.dequeue (s : State) (d : Fin 64) (q : Option (Fin 8)) (lv : Fin 4) (e : QEntry) : State :=
  let x := s.die d
  let y := x.queue q
  s.setDie d (x.setQueue q { y with levels := y.levels.set lv.val ((y.levels[lv.val]).erase e) lv.isLt })

/-- A record of TYPE 6 for a task that cannot be loaded (R323, R330); a record that cannot be read shows no PC and no SLOT. -/
def restoreFailed (s : State) (i : Fin 8) (e : QEntry) (x : SaveFail) (pc : Word) (slot : Nat) : State :=
  let c := s.cl.id
  s.raise c.die ⟨recWord0 6 x.code c i.val 8 slot e.asn, x.va, pc, e.addr, .bank c e.addr⟩

/-- The residual of a die under a key (R276). -/
def Die.findResidual (d : Die) (key : List Word) : Option Residual := if key.isEmpty then none else d.residuals.find? fun r => r.key = key

/-- The key of a launch for a task of index `tidx` on die `d`: that of the index's home die, or, where that die has none because the program has chosen
an index of no share, that of the die itself or of the first that has one. -/
def Launch.keyFor (l : Launch) (d : Fin 64) (tidx : Nat) : List Word :=
  let n := hdrTasks (l.headerAt d)
  ((((if tidx < n then [homeDie n tidx] else []) ++ d :: List.finRange 64).map fun k => (l.share k).key).find? fun k => !k.isEmpty).getD []

/-- The residual that a fresh task uses, at its entry (R276). -/
def freshResidual (s : State) (e : QEntry) (ws h : List Word) : Option (Nat × Nat) :=
  match s.launchOf (wordAt ws 4) e.asn with
  | none => none
  | some l =>
    if hdrSpec h && recCode ws = hdrCode h then
      ((s.die s.cl.id.die).findResidual (l.keyFor s.cl.id.die (wordAt ws 6).toNat)).bind fun r => if r.points.isEmpty then none else some (r.num, 0)
    else none

/-- A fresh start (Table 14.4). -/
def freshBank (s : State) (e : QEntry) (ws h : List Word) : Bank :=
  { state := .ready, pc := recCode ws,
    file := { ({} : SeqFile) with s := (Vector.replicate 32 (0 : Word)).set 1 (hdrArgs h) },
    wid := wordAt ws 3, trec := e.addr, frame := wordAt ws 1, tidx := wordAt ws 6, lrec := wordAt ws 4,
    tsw := BitVec.ofNat 64 (e.asn.toNat * 2 ^ 48 + (if hdrSup h then 1 else 0)),
    slen := BitVec.ofNat 17 (2 ^ hdrSlog h), coreEn := 0xFF, tvb := s.defaultTvb,
    prio := recPrio ws, readySince := s.readied, residual := freshResidual s e ws h,
    cores := Vector.replicate 8 { ({} : CoreBank) with fmt := hdrFmt h } }

/-- Load a taken record into free bank `i` (R264, R266, R330): the pool takes its tenant with the bank (R156, R263). -/
def loadRecord (s : State) (i : Fin 8) (e : QEntry) : State :=
  match engineLoc s e.asn e.addr 64 true false with
  | .error x => restoreFailed s i e (saveFail x) 0 0
  | .ok (s1, pa) =>
    let ws := s1.mem.words pa 8
    let h := s1.header s1.cl.id.die (wordAt ws 4) e.asn
    let s2 := s1.tenant e.part e.asn
    if recKind ws = 0 then (s2.setBankAt i (freshBank s2 e ws h)).made.switchPoint
    else if recKind ws = 1 then
      s2.setBankAt i { state := .restoring, trec := e.addr, lrec := wordAt ws 4, tsw := BitVec.ofNat 64 (e.asn.toNat * 2 ^ 48) }
    else restoreFailed s1 i e ⟨0x36, 0⟩ (recCode ws) (recSlot ws)

/-- RECORD_TAKE (R263): the cluster takes a record. A cluster that is to be pre-empted takes none. -/
def recordTake (s : State) : State :=
  if s.cl.preempt.isSome then s
  else
    match nextRecord s s.cl with
    | none => s
    | some (e, q, lv) =>
      match freeBankFor s.cl e.part with
      | none => s
      | some i => loadRecord (s.dequeue s.cl.id.die q lv e) i e

/-- RECORD_TAKE: cluster `c`. -/
def execRecordTake (s : State) : Host.Outcome State Fault Refusal := .next (onCluster s.ev.c recordTake s)

/-- TASK_RESTORE (R330): bank `i` of the current cluster. -/
def taskRestore (i : Fin 8) (s : State) : State :=
  let b := s.bankAt i
  if b.state ≠ .restoring then s
  else
    let asn := tswAsn b.tsw
    match engineLoc s asn b.trec 64 true false with
    | .error x => restoreFailed (s.setBankAt i {}) i ⟨b.trec, asn, 0, false, b.lrec, 0⟩ (saveFail x) 0 0
    | .ok (s0, pa) =>
      let ws := s0.mem.words pa 8
      let h := s0.header s0.cl.id.die (wordAt ws 4) asn
      let e : QEntry := ⟨b.trec, asn, hdrPart h, hdrQclass h, wordAt ws 4, 0⟩
      match restoreTask s0 i e ws h with
      | (s1, none) => s1.switchPoint
      | (s1, some c) => restoreFailed (s1.setBankAt i {}) i e c (recCode ws) (recSlot ws)

/-- TASK_RESTORE: bank `a` of cluster `c`. -/
def execTaskRestore (s : State) : Host.Outcome State Fault Refusal := .next (onCluster s.ev.c (taskRestore (Fin.ofNat 8 s.ev.a)) s)

/-! ### Ageing (R261) -/

/-- An entry has waited 2^20 cycles. -/
def QEntry.aged (now : Nat) (e : QEntry) : Bool := decide (e.since + 2 ^ 20 ≤ now)

/-- The aged records of a level move to the tail of the next. -/
def Queue.ageLevel (now : Nat) (q : Queue) (lv : Fin 3) : Queue :=
  let l := q.levels[lv.val]
  let up := (l.filter (QEntry.aged now)).map fun e => { e with since := now }
  { q with levels := (q.levels.set lv.val (l.filter fun e => !e.aged now)).set (lv.val + 1) (q.levels[lv.val + 1] ++ up) }

/-- Ageing of a queue, from the highest level that ages down. -/
def Queue.age (now : Nat) (q : Queue) : Queue := ([2, 1, 0] : List (Fin 3)).foldl (Queue.ageLevel now) q

/-- QUEUE_AGEING (R261): the queues of die `c.die`. -/
def execQueueAgeing (s : State) : Host.Outcome State Fault Refusal :=
  let x := s.die s.ev.c.die
  .next (s.setDie s.ev.c.die { x with shared := x.shared.age s.now, priv := x.priv.map (Queue.age s.now) })

/-! ### A launch (R258 to R260, R267, R268) -/

/-- The number of tasks of a die's share. -/
def shareSizeOf (h : List Word) (d : Fin 64) : Nat := shareLo (d.val + 1) (hdrTasks h) - shareLo d.val (hdrTasks h)

/-- The static words that a die reads from ARGS (R277): numbers and values. -/
def readStatics (h : List Word) : List Nat → State → Eff (State × List Word)
  | [], s => .ok (s, [])
  | j :: js, s => do
    let (s1, pa) ← engineLoc s (hdrAsn h) (hdrArgs h + BitVec.ofNat 64 (8 * j)) 8 true false
    let (s2, r) ← readStatics h js s1
    .ok (s2, BitVec.ofNat 64 j :: s1.mem.word pa :: r)

/-- The argument words that SMASK marks. -/
def staticArgs (h : List Word) : List Nat := (List.range 64).filter fun j => (hdrSmask h).getLsbD j

/-- The key of a residual (R277): code address and ASN, code generation, SMASK, SLEN, PART, INITFMT, then the static words. -/
def launchKey (s : State) (h : List Word) (statics : List Word) : List Word :=
  [hdrCode h, (hdrAsn h).setWidth 64, (Cells.get s.codeGen (hdrAsn h).toNat).setWidth 64, hdrSmask h, BitVec.ofNat 64 (2 ^ hdrSlog h),
   (hdrPart h).setWidth 64, (hdrFmt h).setWidth 64] ++ statics

/-- A die refuses its share: the code stays with the launch and counts among the errors (R258, R344). -/
def refuseShare (s : State) (l : Launch) (d : Fin 64) (code : BitVec 8) (image : List Word) : State :=
  { s.setLaunch (l.setShare d { l.share d with taken := true, image := image, code := code, stopped := true }) with
    counts := Cells.set s.counts 5 (Cells.get s.counts 5 + 1) }

/-- DIE_LAUNCH_TAKE (R258): the die reads and validates the header, and with SPEC its key; a die that holds a residual or a declined entry
under the key has its lookup done (R277). -/
def dieLaunchTake (d : Fin 64) (n : Nat) (s : State) : State :=
  match s.launch n with
  | none => s
  | some l =>
    if (l.share d).taken then s
    else
      match engineLoc s l.asn l.hdr 128 true false with
      | .error _ => refuseShare s l d 0x26 []
      | .ok (s1, pa) =>
        let h := s1.mem.words pa 16
        match hdrInvalid h l.sup true with
        | some code => refuseShare s1 l d code h
        | none =>
          let x : Share := { l.share d with taken := true, image := h }
          if hdrSpec h && shareSizeOf h d ≠ 0 then
            match readStatics h (staticArgs h) s1 with
            | .ok (s2, st) =>
              let key := launchKey s2 h st
              s2.setLaunch (l.setShare d { x with key := key, specDone := ((s2.die d).findResidual key).isSome })
            | .error _ => s1.setLaunch (l.setShare d { x with specDone := true })
          else s1.setLaunch (l.setShare d { x with specDone := true })

/-- DIE_LAUNCH_TAKE: launch `a` on die `c.die`. -/
def execDieLaunchTake (s : State) : Host.Outcome State Fault Refusal := .next (onCluster s.ev.c (dieLaunchTake s.ev.c.die s.ev.a) s)

/-- The record of task index `i` of a launch (R260). -/
def taskRecord (hdr : Word) (h : List Word) (i : Nat) : List Word :=
  [recWord0' 0 (hdrCode h), hdrFrbase h + BitVec.ofNat 64 (i * 2 ^ hdrFrsz h), recWord2 0 (hdrPrio h) 0 0, hdrWid h i, hdr, 0, BitVec.ofNat 64 i, 0]

/-- The address of the record of task index `i`. -/
def taskRecordAt (h : List Word) (i : Nat) : Word := hdrRecbase h + BitVec.ofNat 64 (64 * i)

/-- Records of a launch at the level of the queue that takes task index `i` (R260). -/
def launchQueued (s : State) (d : Fin 64) (l : Launch) (h : List Word) (i : Nat) : Nat :=
  ((((s.die d).queue (queueOf h (BitVec.ofNat 64 i))).levels[(Fin.ofNat 4 (hdrPrio h)).val]).filter fun e => e.launch = l.hdr && e.asn = hdrAsn h).length

/-- LAUNCH_ENUMERATE (R260): the die writes the next record of its share and enqueues it, or its launch unit stops on a fault. -/
def launchEnumerate (d : Fin 64) (n : Nat) (s : State) : State :=
  match s.launch n with
  | none => s
  | some l =>
    let x := l.share d
    let h := x.image
    let i := shareLo d.val (hdrTasks h) + x.next
    if !x.taken || x.stopped || !x.specDone || shareSizeOf h d ≤ x.next || 64 ≤ launchQueued s d l h i then s
    else
      let rec_ := taskRecordAt h i
      match engineLoc s (hdrAsn h) rec_ 64 false true with
      | .error (.trap c v _) =>
        (s.setLaunch (l.setShare d { x with stopped := true })).raise d
          ⟨recWord0 4 c ⟨d, 0⟩ 0 8 0 (hdrAsn h), v, l.hdr, rec_, .launch n⟩
      | .error _ => s
      | .ok (s1, pa) =>
        let ws := taskRecord l.hdr h i
        ((s1.putWords pa ws).enqueue d rec_ ws h).setLaunch (l.setShare d { x with next := x.next + 1 })

/-- LAUNCH_ENUMERATE: launch `a` on die `c.die`. -/
def execLaunchEnumerate (s : State) : Host.Outcome State Fault Refusal := .next (onCluster s.ev.c (launchEnumerate s.ev.c.die s.ev.a) s)

/-- A die has enumerated its share and counted an exit for every index of it (R267). -/
def shareDone (l : Launch) (d : Fin 64) : Bool :=
  let x := l.share d
  x.taken && x.code = 0 && shareSizeOf x.image d ≤ x.next && shareSizeOf x.image d ≤ x.exits

/-- DIE_COMPLETION_REPORT (R267). -/
def dieReport (d : Fin 64) (n : Nat) (s : State) : State :=
  match s.launch n with
  | none => s
  | some l => if shareDone l d then s.setLaunch (l.setShare d { l.share d with reported := true }) else s

/-- DIE_COMPLETION_REPORT: launch `a` on die `c.die`. -/
def execDieCompletionReport (s : State) : Host.Outcome State Fault Refusal := .next (dieReport s.ev.c.die s.ev.a s)

/-- LAUNCH_COMPLETION (R268): with all 64 reports the launch is complete. CTARGET is in the address space of the source, as at LAUNCH (R275). -/
def launchCompletion (n : Nat) (s : State) : State :=
  match s.launch n with
  | none => s
  | some l =>
    if l.shares.toList.any fun x => !x.reported then s
    else
      let h := l.headerAt l.collect
      let s1 := { s with launches := s.launches.filter fun x => x.num ≠ n }
      if hdrCkind h = 1 then s1.notify 0 (BitVec.ofNat 64 (hdrTag h + l.fire * 2 ^ 16)) []
      else if hdrCkind h = 2 then
        match engineCount s1 l.asn (hdrCtarget h) with
        | .ok (s2, pa) => s2.countDown l.collect pa (hdrCtarget h) l.asn
        | .error _ => s1
      else s1

/-- LAUNCH_COMPLETION: launch `a`, on its collecting die. -/
def execLaunchCompletion (s : State) : Host.Outcome State Fault Refusal :=
  .next (onCluster ⟨((s.launch s.ev.a).map Launch.collect).getD 0, 0⟩ (launchCompletion s.ev.a) s)

end Sys2Proof.Machine
end

