-- ==== Sys2Proof/Machine/Service.lean ====
section
/-!
DEFINITION. Sys2Proof/Machine/Service.lean: the steps of issue and trap entry (R27, R315, R320), fault queues and the actions of their
service (R322 to R325), pre-emption, swap-in and eviction (R326 to R328), and module reset (R20, R347).
-/

namespace Sys2Proof.Machine

/-! ### Issue and trap entry -/

/-- BUNDLE_ISSUE (R27): the running bank of cluster `c` issues its next bundle. -/
def execBundleIssue (s : State) : Host.Outcome State Fault Refusal :=
  .next (onCluster s.ev.c (fun t => if canIssue t then issueBundle t else t) s)

/-- A pending trap is a page fault that goes to the fault queue (R316, R320). -/
def toQueue (s : State) (p : TrapInfo) : Bool := p.cause = 0x04 && !p.toHandler && !tswInh s.bank.tsw

/-- How the bank stands at the bundle of its pending trap. -/
def pendingReentry (s : State) : Reentry := s.bank.reenter.getD { slot := 0, snap := none }

/-- TRAP_ENTRY (R315, R316): the running bank takes its pending trap; a single step reports the bank's commands (R361). -/
def trapEntry (s : State) : State :=
  match s.cl.run, s.bank.pendTrap with
  | some _, some p =>
    if toQueue s p then s
    else
      let b := s.bank
      let re := pendingReentry s
      let w : Who := ⟨8, tswAsn b.tsw, tswSup b.tsw⟩
      let s1 := s.modBank fun b => { b with pendTrap := none }
      if p.toHandler then
        match enterHandler (s1.deliver.noteCycle b.pc w.asn (some p.cause) re.snap.isSome) w p.cause p.tval b.pc re re.snap.isNone with
        | .ok t => t
        | .error (.trap c v a) => parkBank s1 .halted 7 c (faultVa c v) b.pc a re
        | .error _ => s1
      else
        let t := deliverTrap (s1.noteCycle b.pc w.asn (some p.cause) re.snap.isSome) w b.tsw p.cause p.tval b.pc re re.snap.isNone
        if p.cause = 0x14 then engineRecords s.bankNo w.asn b.pc t else t
  | _, _ => s

/-- TRAP_ENTRY: cluster `c`. -/
def execTrapEntry (s : State) : Host.Outcome State Fault Refusal := .next (onCluster s.ev.c trapEntry s)

/-- BANK_FAULT_WAIT (R320): the running bank waits on its page fault, a record of TYPE 1 is posted, and another bank runs. -/
def bankFaultWait (s : State) : State :=
  match s.cl.run, s.bank.pendTrap with
  | some _, some p =>
    if toQueue s p then
      let s1 := s.deliver.noteCycle s.bank.pc (tswAsn s.bank.tsw) (some p.cause) false
      parkBank s1 .waitFault 1 p.cause (faultVa p.cause p.tval) s.bank.pc 8 (pendingReentry s)
    else s
  | _, _ => s

/-- BANK_FAULT_WAIT: cluster `c`. -/
def execBankFaultWait (s : State) : Host.Outcome State Fault Refusal := .next (onCluster s.ev.c bankFaultWait s)

/-! ### The fault queue (R322, R323) -/

/-- The base of a die's queue. -/
def fqBase (s : State) (d : Fin 64) : Nat := (s.die d).fq.base.getD (Config.faultQueueBase d.val)

/-- The place of record number `n`. -/
def fqSlot (s : State) (d : Fin 64) (n : Nat) : Nat := fqBase s d + 64 + 64 * (n % 2 ^ (s.die d).fq.log2)

/-- The ring is full: the slot at the producer index is not acted on (R322). -/
def fqFull (q : FaultQueue) : Bool := (q.prod + 2 ^ 32 - q.cons) % 2 ^ 32 = 2 ^ q.log2

/-- FAULT_RECORD_POST (R322): the die writes the oldest held record and advances the producer index; in host mode the record goes to the host
(R343). -/
def faultPost (d : Fin 64) (s : State) : State :=
  let x := s.die d
  match x.fq.held with
  | [] => s
  | r :: rest =>
    if fqFull x.fq then s
    else
      let n := x.fq.prod
      let at_ := fqSlot s d n
      let q := Requester.engine ⟨d, 0⟩ 0
      let s1 := (s.ownRun q at_ 64).putWords at_ [r.w0, r.va, r.pc, r.trec, 0, 0, 0, 0]
      let s2 := (s1.ownRun q (fqBase s d) 8).putWord (fqBase s d) (BitVec.ofNat 64 ((n + 1) % 2 ^ 32))
      let s3 := s2.setDie d { s2.die d with fq := { x.fq with held := rest, prod := (n + 1) % 2 ^ 32, posted := x.fq.posted ++ [(n, r)] } }
      if x.fq.host then s3.notify (BitVec.ofNat 64 at_) 0 (s3.mem.bytes at_ 64) else s3

/-- FAULT_RECORD_POST: die `c.die`. -/
def execFaultRecordPost (s : State) : Host.Outcome State Fault Refusal := .next (faultPost s.ev.c.die s)

/-! ### Actions (R324, Table 17.6) -/

/-- Word 4 of record `n` as the service wrote it; one that cannot be read is not acted on (R72; DESIGN CHOICE, log 22). -/
def actionWord (s : State) (d : Fin 64) (n : Nat) : Word := if s.badAt (fqSlot s d n + 32) 8 then 0 else s.mem.word (fqSlot s d n + 32)

/-- TYPE of a record. -/
def FaultRec.type (r : FaultRec) : Nat := bits r.w0 63 56

/-- The types that an action may resolve (Table 17.6). -/
def actionTypes (a : Nat) : List Nat :=
  match a with
  | 1 => [1, 2, 3, 4, 5, 8]
  | 2 => [1, 5, 7, 8]
  | 3 => [1]
  | 4 => [2, 3, 4]
  | _ => []

/-- The action that the die takes: 0 while none is written; one that the TYPE does not allow acts as 5 (R324). -/
def actionOf (s : State) (d : Fin 64) (n : Nat) (r : FaultRec) : Nat :=
  let a := bits (actionWord s d n) 2 0
  if a = 0 then 0 else if (actionTypes a).contains r.type then a else 5

/-- The consumer index passes every record that is DONE, in ring order. -/
def advanceCons (q : FaultQueue) : Nat → FaultQueue
  | 0 => q
  | k + 1 => if q.done.contains q.cons then advanceCons { q with done := q.done.filter fun i => i ≠ q.cons, cons := (q.cons + 1) % 2 ^ 32 } k else q

/-- The die sets DONE and advances the consumer index (R322, R324). -/
def markDone (s : State) (d : Fin 64) (n : Nat) : State :=
  let x := s.die d
  let q := advanceCons { x.fq with posted := x.fq.posted.filter fun p => p.1 ≠ n, done := n :: x.fq.done } (x.fq.done.length + 1)
  let w := Requester.engine ⟨d, 0⟩ 0
  let s1 := ((s.ownRun w (fqSlot s d n + 32) 8).putWord (fqSlot s d n + 32) (actionWord s d n ||| 0x8000000000000000)).ownRun w (fqBase s d + 8) 8
  (s1.putWord (fqBase s d + 8) (BitVec.ofNat 64 q.cons)).setDie d { s1.die d with fq := q }

/-- A bank that a record names, with its ASN, resident and not running, in the current cluster. -/
def findWaiting (c : Cluster) (trec : Word) (asn : BitVec 16) : Option (Fin 8) :=
  (List.finRange 8).find? fun i =>
    let b := c.banks[i.val]
    b.trec = trec && tswAsn b.tsw = asn && (b.state = .waitFault || b.state = .halted || b.state = .ready) && c.run ≠ some i

/-- A resident bank that a record names, running or not. -/
def findNamed (c : Cluster) (trec : Word) (asn : BitVec 16) : Option (Fin 8) :=
  (List.finRange 8).find? fun i =>
    let b := if c.run = some i then c.bank else c.banks[i.val]
    b.trec = trec && tswAsn b.tsw = asn && b.state ≠ .free && b.state ≠ .restoring

/-- The shadow slot in which such a bank stands. -/
def findShadowed (c : Cluster) (trec : Word) (asn : BitVec 16) : Option Nat :=
  (List.range c.shadows.length).find? fun k =>
    (c.shadows[k]?).any fun x => x.banks.toList.any fun b => b.trec = trec && tswAsn b.tsw = asn && b.state ≠ .free

/-- Put a command in its place in the order of acceptance. -/
def insertCmd (x : Command) : List Command → List Command
  | [] => [x]
  | y :: t => if x.seq < y.seq then x :: y :: t else y :: insertCmd x t

/-- What happens to the context in shadow slot `k` (R326): its banks, commands and searches stand in the cluster meanwhile. Where the pool has
another tenant, no barrier in it is one of theirs. -/
def onShadow (k : Nat) (f : State → State) (s : State) : State :=
  match s.cl.shadows[k]? with
  | none => s
  | some x =>
    let c := s.cl
    let own := c.part = x.part && c.asn = x.asn
    let t := f (s.modCl fun _ =>
      { c with part := if own then c.part else 0, asn := x.asn, run := none, bank := {}, banks := x.banks, opn := none, cmds := x.cmds,
               searches := x.searches })
    t.modCl fun d =>
      { d with part := c.part, asn := c.asn, run := c.run, bank := c.bank, banks := c.banks, opn := c.opn,
               cmds := (d.cmds.filter fun y => !y.counts).foldl (fun l y => insertCmd y l) c.cmds, searches := c.searches,
               shadows := d.shadows.modify k fun z => { z with banks := d.banks, cmds := d.cmds.filter Command.counts, searches := d.searches } }

/-- Act on the bank that a record names, where it is: `f` has the context's cluster and the bank; nothing where no bank has the name. -/
def onNamed (c : ClusterId) (trec : Word) (asn : BitVec 16) (f : Fin 8 → State → State) (s : State) : State :=
  onCluster c (fun t =>
    match findWaiting t.cl trec asn with
    | some i => (f i t).switchPoint
    | none =>
      match findShadowed t.cl trec asn with
      | some k => onShadow k (fun u => match findWaiting u.cl trec asn with | some i => f i u | none => u) t
      | none => t) s

/-- The bank that a record names is ready, and a switch point is taken. -/
def readyNamed (c : ClusterId) (trec : Word) (asn : BitVec 16) (f : Nat → Bank → Bank) (s : State) : State :=
  onNamed c trec asn (fun i t => (t.setBankAt i { f t.cl.time (t.bankAt i) with readySince := t.readied }).made) s

/-- The bank goes on in checked mode (R319, R320): it is ready, or dormant where it was that as a trigger stopped it (R360). -/
def Bank.retry (t : Nat) (b : Bank) : Bank :=
  { b.enterChecked t with state := if b.slept then .dormant else .ready, slept := false }

/-- A parked command by its number. -/
def parkedCmd (xs : List Command) (seq : Nat) : Option Command := xs.find? fun x => x.seq = seq && x.state = .parked

/-- A change of a parked command, in the courier or in a shadow slot. -/
def modParked (c : ClusterId) (seq : Nat) (f : State → Command → State) (s : State) : State :=
  onCluster c (fun t =>
    match parkedCmd t.cl.cmds seq with
    | some x => f t x
    | none =>
      match (List.range t.cl.shadows.length).find? fun k => (t.cl.shadows[k]?).any fun x => (parkedCmd x.cmds seq).isSome with
      | some k => onShadow k (fun u => match parkedCmd u.cl.cmds seq with | some x => f u x | none => u) t
      | none => t) s

/-- Change a launch's share on die `d`. -/
def modShare (d : Fin 64) (n : Nat) (f : Share → Share) (s : State) : State :=
  match s.launch n with
  | some l => s.setLaunch (l.setShare d (f (l.share d)))
  | none => s

/-- The launch unit abandons the rest of its share (R260). -/
def abandonShare (d : Fin 64) (n : Nat) (s : State) : State := modShare d n (fun x => { x with stopped := true, code := 0x26 }) s

/-- A relocation engine goes on, or stops with ERR (R324); the entry whose copy it abandons is PENDING again, as after an error of R116
(DEDUCED, log 22). -/
def relocResolve (n : Fin 16) (err : Option (BitVec 8)) (s : State) : State :=
  if !(s.relocs[n.val]).parked then s
  else
    let st := heapStat s n
    let q := Requester.engine ⟨(s.relocs[n.val]).die, 0⟩ (s.relocs[n.val]).asn
    match err with
    | none =>
      let t := setStat s q n (statWord (statErr st) (bits st 55 36) (bits st 35 16) 1)
      setReloc t n { t.relocs[n.val] with parked := false }
    | some e =>
      let s1 := match (s.relocs[n.val]).cur with
        | some p => setEntry s q (forwardBase s n (heapEpoch s n)) p 1
        | none => s
      let t := setStat s1 q n (statWord e.toNat (bits st 55 36) (bits st 35 16) 3)
      setReloc t n { t.relocs[n.val] with parked := false, running := false, cur := none }

/-- The ASN of a record. -/
def FaultRec.asn (r : FaultRec) : BitVec 16 := BitVec.ofNat 16 (bits r.w0 15 0)

/-- ACTION 1: retry. A command keeps the faulting address that ESTAT reads (DESIGN CHOICE, log 21). -/
def actRetry (d : Fin 64) (r : FaultRec) (s : State) : State :=
  match r.subject with
  | .bank c trec => readyNamed c trec r.asn Bank.retry s
  | .command c seq => modParked c seq (fun t x => setCmd t { x with state := .running, slot := 0 }) s
  | .heap n => relocResolve n none s
  | .launch n => modShare d n (fun x => { x with stopped := false }) s
  | .nothing => s

/-- ACTION 3: deliver RCAUSE with TVAL := VA to the bank's handler (R325). -/
def actDeliver (r : FaultRec) (rcause : BitVec 8) (s : State) : State :=
  match r.subject with
  | .bank c trec => readyNamed c trec r.asn (fun _ b => { b with state := .ready, pendTrap := some ⟨rcause, r.va, true⟩ }) s
  | .command _ _ | .heap _ | .launch _ | .nothing => s

/-- ACTION 4: fail. -/
def actFail (d : Fin 64) (r : FaultRec) (rcause : BitVec 8) (s : State) : State :=
  match r.subject with
  | .command c seq => modParked c seq (fun t x => cmdError t x rcause x.va) s
  | .heap n => relocResolve n (some rcause) s
  | .launch n => abandonShare d n s
  | .bank _ _ | .nothing => s

/-- The task whose record is `trec` counts as exited (R273, R324); its record names its parent, launch and index. -/
def countKilled (trec : Word) (asn : BitVec 16) (s : State) : State :=
  match engineLoc s asn trec 64 true false with
  | .error _ => s
  | .ok (s1, pa) =>
    let ws := s1.mem.words pa 8
    match retireTask s1 (wordAt ws 5) (wordAt ws 4) (wordAt ws 6) asn with
    | .ok t => t
    | .error _ => s1

/-- Bank `i` is killed: its queued and parked commands are cancelled, its handles dropped, and it is free. What the slots of an open bundle have done
stays. -/
def killBank (i : Fin 8) (t : State) : State :=
  let t0 := drainBank (if t.cl.run = some i then commitLate t else t) i
  let t1 := (t0.cl.cmds.filter fun x => x.bank = i && cancellable x).foldl cancelCmd t0
  ((t1.dropBlocks (t1.bankAt i) true).modCl fun c => { c with searches := c.searches.filter fun y => y.bank ≠ i }).freeBank i

/-- Shadow slots that hold no bank are free. -/
def dropEmpty (s : State) : State :=
  s.modCl fun c => { c with shadows := c.shadows.filter fun x => x.banks.toList.any fun b => b.state ≠ .free }

/-- The bank that a record names is killed, where it is, and its task counts as exited. Where the record is that of a restore that failed no bank has
the name; where it is another, the task has exited already (R324). -/
def killNamed (c : ClusterId) (trec : Word) (r : FaultRec) (s : State) : State :=
  onCluster c (fun t =>
    match findNamed t.cl trec r.asn with
    | some i => countKilled trec r.asn (killBank i t)
    | none =>
      match findShadowed t.cl trec r.asn with
      | some k => countKilled trec r.asn (dropEmpty (onShadow k (fun u => match findNamed u.cl trec r.asn with | some i => killBank i u | none => u) t))
      | none => if r.type = 6 then countKilled trec r.asn t else t) s

/-- ACTION 5: kill. -/
def actKill (d : Fin 64) (r : FaultRec) (s : State) : State :=
  match r.subject with
  | .bank c trec => killNamed c trec r s
  | .command c seq => modParked c seq cancelCmd s
  | .heap n => relocResolve n (some 0x12) s
  | .launch n => abandonShare d n s
  | .nothing => s

/-! ### Pre-emption and eviction (R326 to R328) -/

/-- The whole context fits in the shadow storage beside those that are held (R328). -/
def shadowFits (c : Cluster) : Bool :=
  if c.shadows.isEmpty then true else c.shadows.length < 2 && partRf c.part ≠ 2 && c.shadows.all fun x => partRf x.part ≠ 2

/-- A context that can be evicted: no bank is dormant (R327). -/
def Shadow.evictable (x : Shadow) : Bool := x.banks.toList.all fun b => b.state ≠ .dormant

/-- Save one bank of a shadowed context and enqueue its record on die `goal`, or post a record of TYPE 5; its task then goes on in original code
(R327, R329, R290). -/
def evictBank (k : Nat) (goal : Fin 64) (s : State) (i : Fin 8) : State :=
  match s.cl.shadows[k]? with
  | none => s
  | some x =>
    let c := s.cl.id
    let slot := ((x.banks[i.val]).reenter.map Reentry.slot).getD 0
    let b := (x.banks[i.val]).leaveResidual
    if b.state = .free then s
    else
      let asn := tswAsn b.tsw
      let put (t : State) (f : Shadow → Shadow) : State := t.modCl fun y => { y with shadows := y.shadows.modify k f }
      let fail (t : State) (e : SaveFail) : State :=
        (put t fun z => { z with banks := z.banks.set i.val b i.isLt }).raise c.die
          ⟨recWord0 5 e.code c i.val 8 slot asn, e.va, b.pc, b.trec, .bank c b.trec⟩
      let r : Resident :=
        { bank := b.endFills,
          cores := Vector.ofFn fun j : Fin 8 => { x.cores[j.val] with spad := (s.cl.cores[j.val]).spad, acc := (s.cl.cores[j.val]).acc },
          part := x.part, cmds := x.cmds.filter fun y => y.bank = i, searches := x.searches.filter fun y => y.bank = i }
      match engineLoc s asn b.trec 64 true true with
      | .error e => fail s (saveFail e)
      | .ok (s1, pa) =>
        match saveTask s1 r 1 with
        | (t, some e) => fail t e
        | (t, none) =>
          let t1 := (writeBack t pa b b.pc slot).dropBlocks b false
          let t2 := t1.enqueue goal b.trec (t1.mem.words pa 8) (t1.header c.die b.lrec asn)
          let t3 := (r.cmds.filter fun y => y.next = 0).foldl releaseArr t2
          put t3 fun z =>
            { z with banks := z.banks.set i.val {} i.isLt, cmds := z.cmds.filter (fun q => q.bank ≠ i), searches := z.searches.filter fun q => q.bank ≠ i }

/-- Evict the context of shadow slot `k` (R327). -/
def evictContext (k : Nat) (goal : Fin 64) (s : State) : State :=
  match s.cl.shadows[k]? with
  | none => s
  | some x => if x.evictable then dropEmpty ((List.finRange 8).foldl (evictBank k goal) s) else s

/-- Room for one more context: where there is none, the contexts that are held are evicted, from shadow slot `k` on, until there is (R328). -/
def makeRoom : Nat → Nat → State → State
  | 0, _, s => s
  | n + 1, k, s =>
    if shadowFits s.cl then s
    else
      let t := evictContext k s.cl.id.die s
      makeRoom n (if t.cl.shadows.length < s.cl.shadows.length then k else k + 1) t

/-- The reply to the MGMT requests that wait for this cluster (R345). -/
def answerPreempt (status : BitVec 8) (s : State) : State :=
  let xs := s.preempts.filter fun p => p.1 = s.cl.id
  xs.foldl (fun t p => t.reply p.2 status 0 []) { s with preempts := s.preempts.filter fun p => p.1 ≠ s.cl.id }

/-- What a bank is in a shadow slot: the running one was settled and is ready. -/
def shadowBank (b : Bank) : Bank := if b.state = .running then { b with state := .ready } else b

/-- What a pre-emption completes: the bundles that have issued, every outstanding operation, and the running commands (R326). -/
def settleCluster (s0 : State) : State :=
  let s1 := (List.finRange 8).foldl (fun s i => if (s.bankAt i).state = .restoring then taskRestore i s else s) s0
  (List.finRange 8).foldl quiesceBank (s1.deliver.modBank fun b => { b with holds := [] })

/-- The context of the current cluster moves into a shadow slot; the courier still knows the commands that have ended (R153). -/
def moveContext (s : State) : State :=
  let banks := Vector.ofFn fun i : Fin 8 => shadowBank { s.bankAt i with readySince := if s.cl.run = some i then s.readied else (s.bankAt i).readySince }
  let x : Shadow := { part := s.cl.part, asn := s.cl.asn, banks := banks, cores := s.cl.cores.map fun (k : PhysCore) => { k with spad := [], acc := [], tlb := [] },
                      cmds := s.cl.cmds.filter Command.counts, searches := s.cl.searches }
  dropEmpty (s.made.modCl fun c =>
    { c with run := none, bank := {}, banks := Vector.replicate 8 {}, opn := none, cmds := c.cmds.filter fun y => !y.counts, searches := [], preempt := none,
             shadows := c.shadows ++ [x] })

/-- The cluster quiesces between bundles and its context moves into a shadow slot; with a target die it is evicted (R326, R327). A running command that
cannot be finished keeps the cluster until it can (R137, R146, R148). -/
def quiesce (target : Option (Fin 64)) (s0 : State) : State :=
  let s := settleCluster s0
  if (List.finRange 8).any (running s) then s
  else
    let s1 := makeRoom (2 * s.cl.shadows.length) 0 s
    if !shadowFits s1.cl then answerPreempt 0x04 (s1.modCl fun c => { c with preempt := none })
    else
      let s2 := moveContext s1
      answerPreempt 0 (match target with
        | some d => if s1.cl.shadows.length < s2.cl.shadows.length then evictContext s1.cl.shadows.length d s2 else s2
        | none => s2)

/-- The slot at which a bundle holds issue is one whose hold a pre-emption abandons (R326; DEDUCED, log 29). A WAIT and a FENCE hold the bundles after
theirs. -/
def abandonable (i : Instr) : Bool :=
  match i with
  | .equi | .tlbsync | .spawn | .launch => true
  | _ => false

/-- Split the open bundle before the slot that holds (R36, R326). -/
def splitAtHold (s : State) : State :=
  let o := s.opn
  let r := leaveSplit s (chainStart o.slots o.idx) (coreCycle 1 o.sampled.skew 7) none
  (r.1.modBank fun b => { b with reenter := some (o.reentry (chainStart o.slots o.idx) r.2), pc := o.pc }).modCl fun c => { c with opn := none, stop := none }

/-- PREEMPTION (R326): the request takes effect at the first pre-emption point, when the triggers have judged the cycles before it. -/
def preemption (s : State) : State :=
  match s.cl.preempt with
  | none => s
  | some target =>
    if !s.cl.evals.isEmpty then s
    else match s.cl.opn with
    | none => if s.cl.run.isSome && s.bank.pendTrap.isSome then s else quiesce target s
    | some o =>
      match (o.slots[o.idx]?).bind fun f => f.slot with
      | none => s
      | some x =>
        if !o.stalled || (o.phase ≠ 0 && !o.arriving) then s
        else if abandonable x.op then (drainBank s s.bankNo).modOpn fun o => { o with abandon := true, stalled := false }
        else quiesce target (splitAtHold s)

/-- PREEMPTION: cluster `c`. -/
def execPreemption (s : State) : Host.Outcome State Fault Refusal := .next (onCluster s.ev.c preemption s)

/-- SWAP_IN (R327): shadow slot `k` returns to the idle cluster. -/
def swapIn (k : Nat) (s : State) : State :=
  match s.cl.shadows[k]? with
  | none => s
  | some x =>
    if !s.cl.residents.isEmpty || s.cl.preempt.isSome || (s.cl.part ≠ x.part || s.cl.asn ≠ x.asn) then s
    else
      let s1 := s.modCl fun c =>
        { c with shadows := c.shadows.eraseIdx k, banks := x.banks.map fun (b : Bank) => if b.state = .free then b else b.enterChecked c.time,
                 cores := Vector.ofFn fun i : Fin 8 => { x.cores[i.val] with spad := (c.cores[i.val]).spad, acc := (c.cores[i.val]).acc, tlb := (c.cores[i.val]).tlb } }
      (acceptItems (mergeAccepted x.cmds x.searches) s1).switchPoint

/-- SWAP_IN: shadow slot `a` of cluster `c`. -/
def execSwapIn (s : State) : Host.Outcome State Fault Refusal := .next (onCluster s.ev.c (swapIn s.ev.a) s)

/-- ACTION 2: evict (R324, R326, R327): a resident bank's cluster is pre-empted, a shadowed context is evicted. -/
def actEvict (r : FaultRec) (rdie : Fin 64) (s : State) : State :=
  match r.subject with
  | .bank c trec =>
    onCluster c (fun t =>
      match findNamed t.cl trec r.asn with
      | some _ => t.modCl fun y => { y with preempt := some (some rdie) }
      | none =>
        match findShadowed t.cl trec r.asn with
        | some k => evictContext k rdie t
        | none => t) s
  | .command _ _ | .heap _ | .launch _ | .nothing => s

/-- The step of an action on record `b` of die `c.die`: it acts when the service has written that action (R324), and DONE is set. -/
def onAction (s : State) (act : Nat) (f : FaultRec → Word → State → State) : Host.Outcome State Fault Refusal :=
  let d := s.ev.c.die
  let n := s.ev.b
  match (s.die d).fq.posted.find? fun p => p.1 = n with
  | some (_, r) => if actionOf s d n r = act then .next (markDone (f r (actionWord s d n) (s.correct (fqSlot s d n + 32) 8)) d n) else .next s
  | none => .next s

/-- RCAUSE of an action word. -/
def rcause (w : Word) : BitVec 8 := BitVec.ofNat 8 (bits w 23 16)

/-- ACTION_RETRY (R324). -/
def execActionRetry (s : State) : Host.Outcome State Fault Refusal := onAction s 1 fun r _ t => actRetry s.ev.c.die r t

/-- ACTION_EVICT (R324). -/
def execActionEvict (s : State) : Host.Outcome State Fault Refusal := onAction s 2 fun r w t => actEvict r (Fin.ofNat 64 (bits w 13 8)) t

/-- ACTION_DELIVER (R324, R325). -/
def execActionDeliver (s : State) : Host.Outcome State Fault Refusal := onAction s 3 fun r w t => actDeliver r (rcause w) t

/-- ACTION_FAIL (R324). -/
def execActionFail (s : State) : Host.Outcome State Fault Refusal := onAction s 4 fun r w t => actFail s.ev.c.die r (rcause w) t

/-- ACTION_KILL (R324). -/
def execActionKill (s : State) : Host.Outcome State Fault Refusal := onAction s 5 fun r _ t => actKill s.ev.c.die r t

/-! ### Module reset (R20, R347) -/

/-- How many physical spares there are of a unit kind (R8, R12, R350). -/
def spareCount (k : Nat) : Nat := if k = 1 then 2 else if k = 2 then 64 else if k = 3 then 512 else Config.otherSpares k

/-- The spares that can serve a unit: a cluster or a cache slice has those of its own die. -/
def sparesFor (k u : Nat) : List Nat :=
  if k = 2 then [u / 8] else if k = 3 then (List.range 8).map fun i => 8 * (u / 160) + i else List.range (spareCount k)

/-- The unit that a spare serves. -/
def State.spareUnit (s : State) (k i : Nat) : Option Nat := (s.spares.find? fun p => p.1 = k && p.2.1 = i).map fun p => p.2.2

/-- The first unused spare is mapped in behind a unit's number; one that served the unit is unused again (R350, log 24). -/
def State.takeSpare (s : State) (k u : Nat) : Option State :=
  ((sparesFor k u).find? fun i => (s.spareUnit k i).isNone).map fun i =>
    { s with spares := (s.spares.filter fun p => !(p.1 = k && p.2.2 = u)) ++ [(k, i, u)] }

/-- What the boot ROM measures (R348): itself, the firmware image and the key of its signer. The image with which the module comes is signed with the
fused key (log 12). -/
def State.measured (s : State) (image : Option (List Byte)) : State :=
  { s with m0 := leBytes Config.romHash.toNat 32, m1 := image.elim (leBytes Config.factoryHash.toNat 32) sha3,
           m2 := leBytes (image.elim Config.fusedKeyHash Config.signerHash).toNat 32 }

/-- The two checks of R347: the signer's key is the fused one, and the signature verifies with it. -/
def imageBoots (image : List Byte) : Bool := Config.signerHash image = Config.fusedKeyHash && Config.imageValid image

/-- A launch of the firmware's own at boot (R259): header address and address space. It adds 1 to the COUNT at CTARGET as every source does (R268);
where it cannot it does not start, nor where 64 are in flight (DESIGN CHOICE, log 24). -/
def bootLaunch (s : State) (p : Word × BitVec 16) : State :=
  match engineLoc s p.2 p.1 128 true false with
  | .error _ => s
  | .ok (s1, pa) =>
    let h := s1.mem.words pa 16
    if (hdrInvalid h true true).isSome || 64 ≤ s.launches.length then s1
    else if hdrCkind h ≠ 2 then s1.startLaunch p.1 p.2 h 0 true 0
    else
      match engineCount s1 p.2 (hdrCtarget h) with
      | .error _ => s1
      | .ok (s2, own) => match s2.countUp own with | some s3 => s3.startLaunch p.1 p.2 h 0 true 0 | none => s2

/-- Main memory at module reset: the descriptors and the debug blocks, which are registers of the device, are 0 (Table 05.1, Table 20.1). -/
def resetMem (m : Mem) : Mem :=
  (List.finRange 64).foldl (fun m d => Cells.clear m (debugBase d) (debugBase d + 256)) (Cells.clear m Config.heapTable (Config.heapTable + 1024))

/-- What the firmware does at its boot: it maps spares in (R350), and starts its own launches (R259); which, is open (log 3, log 24). -/
def State.boot (s : State) : State :=
  let n := s.resets.toNat
  let s1 := (Config.bootSpares n).foldl (fun t p => (t.takeSpare p.1 p.2).getD t) s
  (Config.bootLaunches n).foldl bootLaunch s1

/-- MODULE_RESET: every register is as after reset; main memory, the stored firmware image, the spare map and the count of resets stay
(log 24). The boot ROM measures and checks a stored image (R347, R348), and the firmware starts, unless the device is in recovery. -/
def execModuleReset (s : State) : Host.Outcome State Fault Refusal :=
  let t : State := { State.reset with
    mem := resetMem s.mem, badWords := s.badWords, softWords := s.softWords, image := s.image, booted := s.image, spares := s.spares,
    resets := s.resets + 1, recovery := s.image.any fun x => !imageBoots x,
    agenda := s.agenda, ev := s.ev, turn := s.turn, freeCtr := s.freeCtr }
  let t1 := t.measured s.image
  .next (if t1.recovery then t1 else t1.boot)

end Sys2Proof.Machine
end

