-- ==== Sys2Proof/Machine/Specialise.lean ====
section
/-!
DEFINITION. Sys2Proof/Machine/Specialise.lean: the specialiser (R276 to R284), residuals as a task runs them (R285 to R291, Bundle.lean),
with their back-maps (R292) and statistics (R293). What ch. 15 leaves open of the evaluation is the model's (log 15).
-/

namespace Sys2Proof.Machine

/-! ### What is known (R279): registers by the numbers of Table 15.4 -/

/-- A known value, and whether a folded slot gave it. -/
structure KnownVal where
  val : Word
  folded : Bool
deriving DecidableEq, Repr

/-- What the specialiser knows: s1 to s31 at 1 to 31, q1 to q31 at 33 to 63, lc0 to lc5 at 64 to 69; whether s1 still is the argument base; SLEN,
CORE_EN, SKEW, VL and VTYPE at 70 to 74. -/
structure Known where
  regs : Vector (Option KnownVal) 75
  base : Bool
deriving DecidableEq, Repr

/-- The value of a register; s0 and q0 are always known. -/
def Known.get (k : Known) (r : Nat) : Option Word := if r = 32 then some 1 else ((k.regs[r]?).getD none).map KnownVal.val

/-- Change a register. -/
def Known.put (k : Known) (r : Nat) (v : Option KnownVal) : Known :=
  if r = 0 || r = 32 then k
  else { regs := k.regs.setIfInBounds r v, base := k.base && r ≠ 1 }

/-- At entry (R279). -/
def Known.entry (h : List Word) : Known :=
  { regs := Vector.ofFn fun r : Fin 75 =>
      let v (x : Word) : Option KnownVal := some ⟨x, false⟩
      if r.val = 1 then none else if r.val = 32 then v 1 else if r.val = 70 then v (BitVec.ofNat 64 (2 ^ hdrSlog h))
      else if r.val = 71 then v 0xFF else v 0,
    base := true }

/-- What two paths that meet both know (R281). -/
def Known.meet (a b : Known) : Known :=
  { regs := Vector.ofFn fun r : Fin 75 =>
      match a.regs[r.val], b.regs[r.val] with
      | some x, some y => if x.val = y.val then some ⟨x.val, x.folded || y.folded⟩ else none
      | _, _ => none,
    base := a.base && b.base }

/-! ### Slots that fold (Table 15.1) -/

/-- A state in which a slot reads what is known. -/
def Known.state (k : Known) (pc : Word) (x : Fetched) (ext : Option (BitVec 16)) : State :=
  let g (r : Nat) : Word := (k.get r).getD 0
  let file : SeqFile :=
    { s := Vector.ofFn fun i : Fin 32 => if i.val = 0 then 0 else g i.val,
      q := BitVec.ofNat 32 ((List.range 32).foldl (fun n i => if (g (32 + i)).getLsbD 0 then n + 2 ^ i else n) 0) }
  let smp : Sampled := ⟨(g 70).setWidth 17, (g 72).setWidth 2, (g 71).setWidth 8, (g 73).setWidth 16, (g 74).setWidth 16⟩
  { cl := { id := ⟨0, 0⟩, opn := some { OpenBundle.blank with pc := pc, slots := [x], snap := { seq := file }, sampled := smp, ext := ext } } }

/-- The register writes that a meaning leaves, by number; none when it does not go on. -/
def writesOf (o : Host.Outcome State Fault Refusal) : Option (List (Nat × Word)) :=
  match o with
  | .next t =>
    if t.cl.opn.isNone then none
    else some (t.bank.pend.filterMap fun p =>
      match p.eff with
      | .s r v => some (r.val, v)
      | .q r v => some (32 + r.val, if v then 1 else 0)
      | _ => none)
  | .refused _ => none

/-- A special register that MFS may fold (Table 15.1): what it needs to be known; PC always is. -/
def mfsReads (sr : BitVec 8) : List Nat :=
  match SpecialReg.ofNum sr with
  | some .pc => []
  | some .slen => [70]
  | some .coreEn => [71]
  | some .skew => [72]
  | some .vl => [73]
  | some .vtype => [74]
  | _ => [1000]

/-- A slot of Table 15.1 but the loads: the registers it reads, and its result by the rules of its own entry (R280). -/
def foldForm (i : Instr) (sole : Fin 32) (st : State) : Option (List Nat × Option (List (Nat × Word))) :=
  let execute (f : State → Host.Outcome State Fault Refusal) := writesOf (f st)
  match i with
  | .add d a b => some ([a.val, b.val], execute (execAdd d a b))
  | .sub d a b => some ([a.val, b.val], execute (execSub d a b))
  | .and d a b => some ([a.val, b.val], execute (execAnd d a b))
  | .or d a b => some ([a.val, b.val], execute (execOr d a b))
  | .xor d a b => some ([a.val, b.val], execute (execXor d a b))
  | .sll d a b => some ([a.val, b.val], execute (execSll d a b))
  | .srl d a b => some ([a.val, b.val], execute (execSrl d a b))
  | .sra d a b => some ([a.val, b.val], execute (execSra d a b))
  | .mul d a b => some ([a.val, b.val], execute (execMul d a b))
  | .mulhs d a b => some ([a.val, b.val], execute (execMulhs d a b))
  | .mulhu d a b => some ([a.val, b.val], execute (execMulhu d a b))
  | .min d a b => some ([a.val, b.val], execute (execMin d a b))
  | .max d a b => some ([a.val, b.val], execute (execMax d a b))
  | .minu d a b => some ([a.val, b.val], execute (execMinu d a b))
  | .maxu d a b => some ([a.val, b.val], execute (execMaxu d a b))
  | .andn d a b => some ([a.val, b.val], execute (execAndn d a b))
  | .addw d a b => some ([a.val, b.val], execute (execAddw d a b))
  | .subw d a b => some ([a.val, b.val], execute (execSubw d a b))
  | .sllw d a b => some ([a.val, b.val], execute (execSllw d a b))
  | .srlw d a b => some ([a.val, b.val], execute (execSrlw d a b))
  | .sraw d a b => some ([a.val, b.val], execute (execSraw d a b))
  | .mulw d a b => some ([a.val, b.val], execute (execMulw d a b))
  | .rotl d a b => some ([a.val, b.val], execute (execRotl d a b))
  | .rotr d a b => some ([a.val, b.val], execute (execRotr d a b))
  | .div d a b => some ([a.val, b.val], execute (execDiv d a b))
  | .divu d a b => some ([a.val, b.val], execute (execDivu d a b))
  | .rem d a b => some ([a.val, b.val], execute (execRem d a b))
  | .remu d a b => some ([a.val, b.val], execute (execRemu d a b))
  | .clz d a => some ([a.val], execute (execClz d a))
  | .ctz d a => some ([a.val], execute (execCtz d a))
  | .popc d a => some ([a.val], execute (execPopc d a))
  | .brev d a => some ([a.val], execute (execBrev d a))
  | .addi d a x => some ([a.val], execute (execAddi d a x))
  | .andi d a x => some ([a.val], execute (execAndi d a x))
  | .ori d a x => some ([a.val], execute (execOri d a x))
  | .xori d a x => some ([a.val], execute (execXori d a x))
  | .slli d a x => some ([a.val], execute (execSlli d a x))
  | .srli d a x => some ([a.val], execute (execSrli d a x))
  | .srai d a x => some ([a.val], execute (execSrai d a x))
  | .movi d x => some ([], execute (execMovi d x))
  | .shori d x => some ([d.val], execute (execShori d x))
  | .cmp d a b cc => some ([a.val, b.val], execute (execCmp d a b cc))
  | .cmpi d a x cc => some ([a.val], execute (execCmpi d a x cc))
  | .pand d a b => some ([32 + a.val, 32 + b.val], execute (execPand d a b))
  | .por d a b => some ([32 + a.val, 32 + b.val], execute (execPor d a b))
  | .pxor d a b => some ([32 + a.val, 32 + b.val], execute (execPxor d a b))
  | .pandn d a b => some ([32 + a.val, 32 + b.val], execute (execPandn d a b))
  | .pnot d a => some ([32 + a.val], execute (execPnot d a))
  | .pmov d a => some ([32 + a.val], execute (execPmov d a))
  | .pset => some ([], execute execPset)
  | .pclr => some ([], execute execPclr)
  | .ptos => some ((List.range 31).map (· + 33), execute execPtos)
  | .stop => some ([sole.val], execute execStop)
  | .mfs d sr => some (mfsReads sr, execute (execMfs d sr))
  | _ => none

/-- A load of Table 15.1: destination, base, size, displacement and signedness. -/
def foldLoad (i : Instr) : Option (Fin 32 × Fin 32 × Nat × BitVec 6 × Bool) :=
  match i with
  | .ld d a size disp => some (d, a, 2 ^ size.val, disp, true)
  | .ldu d a size disp => some (d, a, 2 ^ size.val, disp, false)
  | _ => none

/-- A slot of Table 15.1. -/
def inFoldTable (i : Instr) (sole : Fin 32) : Bool := (foldForm i sole {}).isSome || (foldLoad i).isSome

/-- A load from the argument block (R280): the value, when every byte lies in a static word. -/
def staticLoad (statics : List (Nat × Word)) (off : Int) (size : Nat) (signed : Bool) : Option Word :=
  if off < 0 || off.toNat % size ≠ 0 then none
  else
    (statics.find? fun p => p.1 = off.toNat / 8).map fun p =>
      extend signed size (BitVec.ofNat 64 (p.2.toNat / 256 ^ (off.toNat % 8)))

/-! ### What a slot that is kept reads and writes of the sequencer -/

/-- The number of a register of the sequencer; h registers and the trap registers are never known. -/
def SeqReg.num : SeqReg → Option Nat
  | .s r => some r
  | .q r => some (32 + r)
  | .slen => some 70
  | .coreEn => some 71
  | .skew => some 72
  | .vl => some 73
  | .vtype => some 74
  | .h _ | .tsw | .tvb | .tpc | .tcause | .tval => none

/-- The loop counter that MFS reads. -/
def lcRead (i : Instr) : List Nat :=
  match i with
  | .mfs _ n =>
    match SpecialReg.ofNum n with
    | some .lc0 => [64] | some .lc1 => [65] | some .lc2 => [66] | some .lc3 => [67] | some .lc4 => [68] | some .lc5 => [69]
    | _ => []
  | _ => []

/-- Registers that a slot reads, by number. -/
def seqReads (i : Instr) (sole : Fin 32) : List Nat := (slotReads i sole).filterMap SeqReg.num ++ lcRead i

/-- Registers that a slot writes, by number; VL and VTYPE count as written by VSETL, VL by VLDFF (R168), the others by MTS. -/
def seqWrites (i : Instr) (sole : Fin 32) : List Nat :=
  match i with
  | .call _ => [31]
  | .jalr d _ | .ldblk d _ _ | .mfs d _ | .xget d _ _ | .ld d _ _ _ | .ldu d _ _ _ | .hld d _ _ _ _ | .pin d _ | .cpy d _ _ | .sendh d _
  | .hstat d _ | .estat d _ | .ecan d _ | .amo d _ _ _ | .amow d _ _ _ => [d.val]
  | .equi | .ecanAll | .ptos => [sole.val]
  | .pset | .pclr => [32 + sole.val]
  | .stop => (List.range 31).map (· + 33)
  | .hmov x _ dir => if dir.val = 2 then [x.val] else []
  | .heq q _ _ | .aconf q _ _ _ _ | .bartest _ q | .cmp q _ _ _ | .cmpi q _ _ _ | .pand q _ _ | .por q _ _ | .pxor q _ _ | .pandn q _ _
  | .pnot q _ | .pmov q _ => [32 + q.val]
  | .vsetl d _ _ => [d.val, 73, 74]
  | .vldff _ _ _ _ _ => [73]
  | .mts _ sr =>
    match SpecialReg.ofNum sr with
    | some .slen => [70] | some .coreEn => [71] | some .skew => [72] | some .vl => [73] | some .vtype => [74]
    | some .lc0 => [64] | some .lc1 => [65] | some .lc2 => [66] | some .lc3 => [67] | some .lc4 => [68] | some .lc5 => [69]
    | _ => []
  | .shori d _ | .movi d _ => [d.val]
  | .addi d _ _ | .andi d _ _ | .ori d _ _ | .xori d _ _ | .slli d _ _ | .srli d _ _ | .srai d _ _ => [d.val]
  | .clz d _ | .ctz d _ | .popc d _ | .brev d _ => [d.val]
  | .add d _ _ | .sub d _ _ | .and d _ _ | .or d _ _ | .xor d _ _ | .sll d _ _ | .srl d _ _ | .sra d _ _ | .mul d _ _ | .mulhs d _ _
  | .mulhu d _ _ | .min d _ _ | .max d _ _ | .minu d _ _ | .maxu d _ _ | .andn d _ _ | .addw d _ _ | .subw d _ _ | .sllw d _ _
  | .srlw d _ _ | .sraw d _ _ | .mulw d _ _ | .rotl d _ _ | .rotr d _ _ | .div d _ _ | .divu d _ _ | .rem d _ _ | .remu d _ _ => [d.val]
  | _ => []

/-! ### Points of an evaluation -/

/-- What the specialiser evaluates under: the state, the launch's address space, the static words, and the LOOP bundles whose unrolling would pass
the limit (R284). -/
structure SpecEnv where
  st : State
  who : Who
  statics : List (Nat × Word)
  forbid : List Word

/-- What becomes of a slot: kept, folded, nullified, or resolved (a branch or LOOP that the residual follows). -/
inductive Fate where
  | kept | folded | nullified | resolved
deriving DecidableEq, Repr

/-- An evaluated bundle. -/
structure Evaluated where
  fates : List Fate
  /-- Results of folded slots: slot, register, value; s0 and q0 have none (Table 15.4). -/
  results : List (Nat × Nat × Word)
  /-- Registers that kept slots read. -/
  reads : List Nat
  marked : Nat
  unrolled : Bool
  keptLoop : Bool
  next : List (Point × Known)
  /-- The branch-class slot that is resolved, and its effect. -/
  act : Option (Nat × BranchAct)
  /-- A branch that is kept has an unknown target. -/
  ends : Bool
deriving DecidableEq, Repr

/-- The bundle at an address, or none where its fetch faults or it meets a condition of Table 02.4 (R283). -/
def SpecEnv.fetch (e : SpecEnv) (pc : Word) : Option (List Fetched) :=
  match fetchBundle e.st e.who pc with
  | .ok (_, ws) => if limitsOk ws && (findBad 0 0 ws).isNone then some (ws.map fetched) else none
  | .error _ => none

/-- The address after the bundle at an address. -/
def SpecEnv.after (e : SpecEnv) (pc : Word) : Option Word := (e.fetch pc).map fun ws => pc + BitVec.ofNat 64 (4 * ws.length)

/-- The bundles from one address to another, in order. -/
def SpecEnv.body (e : SpecEnv) (pc last : Word) : Nat → List (List Fetched)
  | 0 => []
  | n + 1 =>
    match e.fetch pc with
    | none => []
    | some ws => ws :: (if pc = last then [] else e.body (pc + BitVec.ofNat 64 (4 * ws.length)) last n)

/-- The guard of slot `i`: that of the slot it applies to for a prefix. -/
def guardAt (ws : List Fetched) (i : Nat) : Nat := ((guardNumbers (ws.map Fetched.word))[i]?).getD 0

/-- A guard's known value. -/
def Known.guard (k : Known) (g : Nat) : Option Bool := if g = 0 then some true else (k.get (32 + g)).map fun v => v.getLsbD 0

/-- The EXT value of the chain before slot `i`, and whether it holds an ORD. -/
def chainOf (ws : List Fetched) (i : Nat) : Option (BitVec 16) × Bool :=
  ((List.range i).filter fun j => chainStart ws i ≤ j).foldl (fun r j =>
    match ((ws[j]?).bind fun f => f.slot).map Slot.op with
    | some (.ext v) => (some v, r.2)
    | some (.ord _ _) => (r.1, true)
    | _ => r) (none, false)

/-- The result of a slot that folds (R280). -/
def foldSlot (e : SpecEnv) (k : Known) (pc : Word) (ws : List Fetched) (i : Nat) (f : Fetched) (x : Slot) : Option (List (Nat × Word)) :=
  let ch := chainOf ws i
  if !x.bind || k.guard (guardAt ws i) ≠ some true || ch.2 then none
  else
    let st := k.state pc f ch.1
    match foldLoad x.op with
    | some (d, a, size, disp, sg) =>
      if a.val = 1 && k.base then (staticLoad e.statics (st.extImm 6 disp.toNat * (size : Int)) size sg).map fun v => [(d.val, v)] else none
    | none =>
      match foldForm x.op x.sole st with
      | some (rs, w) => if rs.all fun r => r = 0 || (k.get r).isSome then w else none
      | none => none

/-- The ends of iterations on a path after the bundle at `pc`, from level `l` down (R65, R282); `after` is the address after that bundle, where it
can be fetched. -/
def pathEnds (pc : Word) (after : Option Word) : List (Fin 6) → Vector (Option PathLevel) 6 → Known → List (Point × Known)
  | [], ls, k => after.toList.map fun t => (⟨t, ls⟩, k)
  | l :: rest, ls, k =>
    match ls[l.val] with
    | none => pathEnds pc after rest ls k
    | some v =>
      if v.last ≠ pc then after.toList.map fun t => (⟨t, ls⟩, k)
      else if v.unrolled then
        match k.get (64 + l.val) with
        | none => []
        | some n =>
          let k1 := k.put (64 + l.val) (some ⟨n - 1, true⟩)
          if n - 1 ≠ 0 then [(⟨v.start, ls.set l.val (some { v with iter := v.iter + 1 }) l.isLt⟩, k1)]
          else pathEnds pc after rest (ls.set l.val none l.isLt) k1
      else
        let k1 := k.put (64 + l.val) none
        (⟨v.start, ls⟩, k1) :: pathEnds pc after rest (ls.set l.val none l.isLt) k1

/-- Known state at the head of a kept loop: what its body writes is not known (R282). -/
def havoc (k : Known) (body : List (List Fetched)) : Known :=
  (body.flatMap fun ws => ws.flatMap fun f => match f.slot with | some x => seqWrites x.op x.sole | none => []).foldl (fun k r => k.put r none) k

/-- Levels of a list made inactive. -/
def dropLevels (ls : Vector (Option PathLevel) 6) (p : Nat → Bool) : Vector (Option PathLevel) 6 :=
  Vector.ofFn fun l : Fin 6 => if p l.val then none else ls[l.val]

/-- Where the branch-class slot of a bundle leads on a path. -/
inductive PathBranch where
  | none
  /-- Guard known 1: the paths that follow, and the slot's effect when it is resolved. -/
  | always (paths : List (Point × Known)) (act : Option BranchAct)
  /-- Guard not known: the paths when it reads 1, and whether they end the residual. -/
  | maybe (paths : List (Point × Known)) (ends : Bool)
deriving DecidableEq, Repr

/-- A branch-class slot on a path: where it leads, whether a loop is unrolled, and whether one is kept. -/
structure PathStep where
  dest : PathBranch
  unrolled : Bool := false
  keptLoop : Bool := false
deriving DecidableEq, Repr

/-- A slot that traps, or leads nowhere that is known, when its guard reads 1. -/
def PathStep.stop (g : Option Bool) : PathStep := ⟨if g = some true then .always [] .none else .maybe [] true, false, false⟩

/-- A branch to `t` (R281). Every loop level ends (R62). -/
def PathStep.branch (g : Option Bool) (t : Option Word) (k : Known) : PathStep :=
  match t with
  | some t =>
    if t.toNat % 4 ≠ 0 then .stop g
    else
      let p : List (Point × Known) := [(⟨t, Vector.replicate 6 none⟩, k)]
      ⟨if g = some true then .always p (some (.taken t)) else .maybe p false, false, false⟩
  | none => .stop g

/-- LOOP at level `l` on a path: `k` is what is known at its bundle, `k1` after it (R64, R282). With a known count of 0 the path goes on after
the body, with no copy of it where the loop may be unrolled, and with its slot kept where it may not. -/
def PathStep.loop (e : SpecEnv) (unroll : Point → Known → Fin 6 → PathLevel → Bool) (p : Point) (k k1 : Known) (g : Option Bool) (l : Fin 6)
    (a : Fin 32) (after last : Word) : PathStep :=
  let below (j : Nat) (f : PathLevel → Bool) : Bool := ((p.loops[j]?).getD none).any f
  let unrolledBelow := (List.range l.val).all fun j => below j PathLevel.unrolled
  let nests := ((List.finRange 6).all fun j => (p.loops[j.val]).isSome == decide (j.val < l.val)) &&
    (decide (l.val = 0) || below (l.val - 1) fun v => decide (last.toNat ≤ v.last.toNat))
  let body := e.body after last 16384
  let enter (u : Bool) (k : Known) : Point × Known := (⟨after, p.loops.set l.val (some ⟨after, last, u, 0⟩) l.isLt⟩, k)
  let skip := (e.after last).map fun t => ((⟨t, p.loops⟩ : Point), k1)
  let kept := enter false ((havoc k1 body).put (64 + l.val) none)
  if !nests then .stop g
  else if g ≠ some true then ⟨.maybe (kept :: skip.toList) false, false, true⟩
  else
    match (k.get a.val).map fun v => v.setWidth 32 with
    | none => ⟨.always (kept :: skip.toList) .none, false, true⟩
    | some c =>
      if c = 0 then
        let u := unrolledBelow && !e.forbid.contains p.pc && skip.isSome
        ⟨.always skip.toList (if u then skip.map fun x => .loop l 0 after last x.1.pc else .none), u, !u⟩
      else
        let once := enter true (k1.put (64 + l.val) (some ⟨c.setWidth 64, true⟩))
        if unrolledBelow && (decide (l.val ≠ 0) || decide (body.length ≤ 64)) &&
            !e.forbid.contains p.pc && unroll once.1 once.2 l ⟨after, last, true, 0⟩ then
          ⟨.always [once] (some (.loop l c after last last)), true, false⟩
        else ⟨.always [kept] .none, false, true⟩

/-- LOOPX, or where `stay` LOOPC, at level `l` on a path (R66). -/
def PathStep.leave (e : SpecEnv) (p : Point) (k1 : Known) (g : Option Bool) (l : Fin 6) (stay : Bool) : PathStep :=
  match p.loops[l.val] with
  | none => .stop g
  | some v =>
    let t := e.after v.last
    let paths :=
      if stay then pathEnds v.last t (levelsDown l.val) (dropLevels p.loops fun j => l.val < j) k1
      else pathEnds v.last t (if l.val = 0 then [] else levelsDown (l.val - 1)) (dropLevels p.loops fun j => l.val ≤ j) k1
    let act : BranchAct := if stay then .loopc l (t.getD v.last) else .loopx l (t.getD v.last)
    ⟨if g = some true then .always paths (if v.unrolled && !paths.isEmpty then some act else .none) else .maybe paths false, false, false⟩

/-- Evaluate one bundle of a path. `unroll` says whether a LOOP with a known count is unrolled here. -/
def evalBundle (e : SpecEnv) (unroll : Point → Known → Fin 6 → PathLevel → Bool) (p : Point) (k : Known) : Option Evaluated :=
  match e.fetch p.pc with
  | none => none
  | some ws =>
    let n := ws.length
    let after := p.pc + BitVec.ofNat 64 (4 * n)
    let idx := List.range n
    let slotAt (i : Nat) : Option Slot := (ws[i]?).bind fun f => f.slot
    let folds := idx.map fun i =>
      match ws[i]?, slotAt i with
      | some f, some x => if isPrefix f.word then none else foldSlot e k p.pc ws i f x
      | _, _ => none
    let g (i : Nat) : Option Bool := k.guard (guardAt ws i)
    -- what follows each slot's writes
    let live := idx.filter fun i => g i ≠ some false && !(((ws[i]?).map fun f => isPrefix f.word).getD false)
    let k1 := live.foldl (fun k i =>
      match (folds[i]?).getD none, slotAt i with
      | some rs, _ => rs.foldl (fun k r => k.put r.1 (some ⟨r.2, true⟩)) k
      | none, some x => (seqWrites x.op x.sole).foldl (fun k r => k.put r none) k
      | none, none => k) k
    let branchAt := live.find? fun i => ((ws[i]?).bind fun f => classOf (majorOf f.word)) = some .branch
    let link (i : Nat) (k : Known) : Known :=
      match slotAt i, g i with
      | some x, some true =>
        (match x.op with
         | .call _ => k.put 31 (some ⟨after, true⟩)
         | .jalr d _ => k.put d.val (some ⟨after, true⟩)
         | _ => k)
      | _, _ => k
    let level (i : Nat) (lv : Fin 8) (f : Fin 6 → PathStep) : PathStep := if h : lv.val < 6 then f ⟨lv.val, h⟩ else .stop (g i)
    let branch : PathStep :=
      match branchAt with
      | none => ⟨.none, false, false⟩
      | some i =>
        match slotAt i with
        | none => ⟨.none, false, false⟩
        | some x =>
          let st := k.state p.pc ((ws[i]?).getD ⟨0, none⟩) (chainOf ws i).1
          let goTo (t : Option Word) : PathStep := .branch (g i) t (link i k1)
          match x.op with
          | .br disp | .call disp => goTo (some (branchTarget st disp))
          | .jr => goTo (k.get x.sole.val)
          | .jalr _ a => goTo (k.get a.val)
          | .ret => goTo (k.get 31)
          | .loop lv a fin => level i lv fun l => .loop e unroll p k k1 (g i) l a after (after + BitVec.ofNat 64 (4 * fin.toNat))
          | .loopx lv => level i lv fun l => .leave e p k1 (g i) l false
          | .loopc lv => level i lv fun l => .leave e p k1 (g i) l true
          | _ => ⟨.none, false, false⟩
    let fall := pathEnds p.pc (some after) (levelsDown 5) p.loops k1
    let stops := live.any fun i =>
      match (slotAt i).map Slot.op with
      | some .exit | some .suspend | some .suspendDorm => g i = some true
      | _ => false
    let next :=
      if stops then []
      else match branch.dest with
        | .none => fall
        | .always paths _ => paths
        | .maybe paths _ => fall ++ paths
    let act : Option (Nat × BranchAct) := branchAt.bind fun i => match branch.dest with | .always _ a => a.map fun a => (i, a) | _ => none
    let resolved (i : Nat) : Bool := act.any fun a => a.1 = i
    let fate (i : Nat) : Fate :=
      if g i = some false then .nullified
      else if ((folds[i]?).getD none).isSome then .folded
      else if resolved i then .resolved
      else .kept
    let fates := idx.map fun i =>
      match ws[i]? with
      | some f =>
        if isPrefix f.word then
          let j := ((List.range n).find? fun j => i < j && !(((ws[j]?).map fun y => isPrefix y.word).getD false)).getD i
          if j = i then .kept else fate j
        else fate i
      | none => .kept
    let links := match branchAt with
      | some i => if resolved i then (match (slotAt i).map Slot.op with | some (.call _) => [(i, 31, after)] | some (.jalr d _) => [(i, d.val, after)] | _ => []) else []
      | none => []
    some
      { fates := fates,
        results := ((idx.flatMap fun i => ((folds[i]?).getD none).getD [] |>.map fun r => (i, r.1, r.2)) ++ links).filter fun r =>
          r.2.1 ≠ 0 && r.2.1 ≠ 32,
        reads := (live.filter fun i => fate i = .kept).flatMap fun i => match slotAt i with | some x => seqReads x.op x.sole | none => [],
        marked := (live.filter fun i => fate i = .kept && match slotAt i with | some x => x.bind && inFoldTable x.op x.sole | none => false).length,
        unrolled := branch.unrolled, keptLoop := branch.keptLoop, next := next, act := act,
        ends := match branch.dest with | .maybe _ b => b | _ => false }

/-- A bundle that stays in the residual (R285). -/
def Evaluated.stays (r : Evaluated) : Bool := r.fates.any fun f => f = .kept

/-! ### Unrolling (R282) -/

/-- A branch, LOOPX or LOOPC of the bundle has a guard that is not known. -/
def unknownBranch (e : SpecEnv) (k : Known) (pc : Word) : Bool :=
  match e.fetch pc with
  | none => true
  | some ws => (List.range ws.length).any fun i =>
      let f := (ws[i]?).getD ⟨0, none⟩
      classOf (majorOf f.word) = some .branch && (k.guard (guardAt ws i)).isNone &&
        (match f.slot.map Slot.op with | some (.loop _ _ _) => false | _ => true)

/-- Enter what is known at a point; whether it changed. -/
def joinAt (p : Point) (k : Known) : List (Point × Known) → List (Point × Known) × Bool
  | [] => ([(p, k)], true)
  | (q, m) :: t =>
    if q = p then
      let j := m.meet k
      ((q, j) :: t, decide (j ≠ m))
    else
      let r := joinAt p k t
      ((q, m) :: r.1, r.2)

/-- Enter every point that may follow a bundle: the points known, and those still to be followed. -/
def joinAll (next : List (Point × Known)) (m : List (Point × Known)) (todo : List Point) : List (Point × Known) × List Point :=
  next.foldl (fun a q =>
    let j := joinAt q.1 q.2 a.1
    (j.1, if j.2 then a.2 ++ [q.1] else a.2)) (m, todo)

/-- Follow every path of an unrolled body, copy by copy, until it leaves its level: no guard on a branch, LOOPX or LOOPC is unknown, and no more
than 16384 bundles stay. -/
def unrollsFrom (e : SpecEnv) (l : Fin 6) : Nat → List Point → List (Point × Known) → Bool
  | 0, _, _ => false
  | _, [], m =>
    decide ((m.filter fun x => (x.1.loops[l.val]).isSome && (evalBundle e (fun _ _ _ _ => true) x.1 x.2).any Evaluated.stays).length ≤ 16384)
  | n + 1, p :: todo, m =>
    match m.find? fun x => x.1 = p with
    | none => unrollsFrom e l n todo m
    | some (_, k) =>
      if (p.loops[l.val]).isNone then unrollsFrom e l n todo m
      else if unknownBranch e k p.pc then false
      else
        match evalBundle e (fun _ _ _ _ => true) p k with
        | none => unrollsFrom e l n todo m
        | some r =>
          let x := joinAll r.next m todo
          unrollsFrom e l n x.2 x.1

/-- How many bundles the model follows; an evaluation that is longer takes more than 200 µs (R284). -/
def evalFuel : Nat := 2 ^ 22

/-- The decision of R282 for a LOOP; copies beyond 16384 bundles never fit (R284). -/
def unrollOk (e : SpecEnv) (p : Point) (k : Known) (l : Fin 6) (_ : PathLevel) : Bool :=
  unrollsFrom { e with forbid := [] } l evalFuel [p] [(p, k)]

/-! ### The whole evaluation -/

/-- Follow every path until nothing more changes. -/
def followAll (e : SpecEnv) : Nat → List Point → List (Point × Known) → List (Point × Known)
  | 0, _, m => m
  | _, [], m => m
  | n + 1, p :: todo, m =>
    match m.find? fun x => x.1 = p with
    | none => followAll e n todo m
    | some (_, k) =>
      match evalBundle e (unrollOk e) p k with
      | none => followAll e n todo m
      | some r =>
        let x := joinAll r.next m todo
        followAll e n x.2 x.1

/-- The points in the order in which the residual holds them: each path is followed to its end before the next (log 15). -/
def pointOrder (e : SpecEnv) (m : List (Point × Known)) : Nat → List Point → List Point → List Point
  | 0, _, seen => seen
  | _, [], seen => seen
  | n + 1, p :: todo, seen =>
    if seen.contains p then pointOrder e m n todo seen
    else
      match m.find? fun x => x.1 = p with
      | none => pointOrder e m n todo seen
      | some (_, k) =>
        match evalBundle e (unrollOk e) p k with
        | none => pointOrder e m n todo seen
        | some r => pointOrder e m n (r.next.map Prod.fst ++ todo) (seen ++ [p])

/-- The iteration of an unrolled level. -/
def Point.iterOf (p : Point) (l : Nat) : Option Nat := ((p.loops[l]?).getD none).bind fun v => if v.unrolled then some v.iter else none

/-- Words 2 and 3 of a back-map entry (Table 15.2). -/
def Point.iters (p : Point) : Word × Word :=
  let it (l : Nat) : Nat := (p.iterOf l).getD 0 % 2 ^ 16
  (BitVec.ofNat 64 (it 0 + it 1 * 2 ^ 16 + it 2 * 2 ^ 32 + it 3 * 2 ^ 48), BitVec.ofNat 64 (it 4 + it 5 * 2 ^ 16))

/-- The constant records of a bundle with WHEN = 0xFF: the registers that are folded there, and those known at entry that a kept slot reads. -/
def constsBefore (k : Known) (r : Evaluated) : List (Nat × Word) :=
  (List.range 70).filterMap fun i =>
    ((k.regs[i]?).getD none).bind fun v => if i ≠ 0 && i ≠ 32 && (v.folded || r.reads.contains i) then some (i, v.val) else none

/-- A back-map entry with its constant records (Table 15.2, Table 15.4). -/
def backEntry (p : Point) (k : Known) (r : Evaluated) : List Word :=
  let smap := ((List.range 8).foldl (fun (a : Nat × Nat) i =>
    match r.fates[i]? with
    | some Fate.kept => (a.1 + a.2 * 2 ^ (4 * i), a.2 + 1)
    | some Fate.folded | some Fate.resolved => (a.1 + 8 * 2 ^ (4 * i), a.2)
    | some Fate.nullified => (a.1 + 9 * 2 ^ (4 * i), a.2)
    | none => (a.1 + 15 * 2 ^ (4 * i), a.2)) (0, 0)).1
  let unr := (List.range 6).foldl (fun n l => if (p.iterOf l).isSome then n + 2 ^ l else n) 0
  let consts := (constsBefore k r).map (fun x => (x.1, 0xFF, x.2)) ++ r.results.map fun x => (x.2.1, x.1, x.2.2)
  [BitVec.ofNat 64 (consts.length % 256 * 2 ^ 56 + bits p.pc 55 2 * 4), BitVec.ofNat 64 (unr * 2 ^ 32 + smap),
   p.iters.1, p.iters.2] ++
  consts.flatMap fun x => [x.2.2, BitVec.ofNat 64 (x.2.1 * 256 + x.1)]

/-- One evaluation: its points in order, with what is known there and what their bundles become. -/
def evaluate (e : SpecEnv) (entry : Word) (h : List Word) : List (Point × Known × Evaluated) :=
  let p0 : Point := ⟨entry, Vector.replicate 6 none⟩
  let m := followAll e evalFuel [p0] [(p0, Known.entry h)]
  (pointOrder e m evalFuel [p0] []).filterMap fun p =>
    (m.find? fun x => x.1 = p).bind fun x => (evalBundle e (unrollOk e) p x.2).map fun r => (p, x.2, r)

/-- The bundle of a point stays in the residual. -/
def stays (x : Point × Known × Evaluated) : Bool := x.2.2.stays

/-- The distinct original bundles of an evaluation. -/
def reachedBy (xs : List (Point × Known × Evaluated)) : List Word := (xs.map fun x => x.1.pc).eraseDups

/-- An unrolling that adds copies of a body. -/
def Evaluated.grows (r : Evaluated) : Bool := r.unrolled && !(match r.act with | some (_, .loop _ c _ _ _) => decide (c = 0) | _ => false)

/-- The LOOP whose unrolling passes the limit: the last one entered before the residual holds `limit` bundles (log 15). -/
def overLimit (xs : List (Point × Known × Evaluated)) (limit : Nat) : Option Word :=
  (xs.foldl (fun (a : Nat × Option Word) x =>
    if limit < a.1 then a else (a.1 + (if stays x then 1 else 0), if x.2.2.grows then some x.1.pc else a.2)) (0, none)).2

/-- How many bundles the residual of an evaluation may hold (R284). -/
def growLimit (h : List Word) (xs : List (Point × Known × Evaluated)) : Nat := min (hdrGrow h * (reachedBy xs).length) 16384

/-- Evaluate, giving up one unrolling after another until the residual fits, or none is left (R284). -/
def fitting (e : SpecEnv) (entry : Word) (h : List Word) : Nat → List (Point × Known × Evaluated)
  | 0 => evaluate e entry h
  | n + 1 =>
    let xs := evaluate e entry h
    if (xs.filter stays).length ≤ growLimit h xs then xs
    else
      match overLimit xs (growLimit h xs) with
      | some pc => fitting { e with forbid := pc :: e.forbid } entry h n
      | none => xs

/-- The points of a residual that ends at the first bundle left out: those before it in their order, with `room` bundles that stay (R284). -/
def cutOff : Nat → List (Point × Known × Evaluated) → List (Point × Known × Evaluated)
  | _, [] => []
  | room, x :: xs =>
    if !stays x then x :: cutOff room xs
    else if room = 0 then []
    else x :: cutOff (room - 1) xs

/-- The static words of a key: numbers and values. -/
def staticPairs : List Word → List (Nat × Word)
  | j :: v :: t => (j.toNat, v) :: staticPairs t
  | _ => []

/-- A bit per slot of a bundle. -/
def fateBits (r : Evaluated) (p : Fate → Bool) : BitVec 8 :=
  BitVec.ofNat 8 (((List.range r.fates.length).zip r.fates).foldl (fun n x => if p x.2 then n + 2 ^ x.1 else n) 0)

/-- A point of a residual among the points `used`. -/
def makePoint (e : SpecEnv) (used : List Point) (x : Point × Known × Evaluated) : ResPoint :=
  { at_ := x.1, words := ((e.fetch x.1.pc).getD []).map Fetched.word, kept := fateBits x.2.2 fun f => f = .kept,
    folded := fateBits x.2.2 fun f => f = .folded || f = .resolved, regs := constsBefore x.2.1 x.2.2, results := x.2.2.results, iters := x.1.iters,
    act := x.2.2.act, ends := x.2.2.ends, next := x.2.2.next.filterMap fun q => used.findIdx? fun p => p = q.1 }

/-- The residual of a launch on a die (R279 to R284, R292, R293). -/
def makeResidual (s : State) (num : Nat) (h key : List Word) : Residual :=
  let e : SpecEnv := ⟨s, ⟨8, hdrAsn h, hdrSup h⟩, staticPairs (key.drop 7), []⟩
  let xs := fitting e (hdrCode h) h 1024
  let full := (xs.filter stays).length ≤ growLimit h xs
  let used := if full then xs else cutOff (growLimit h xs) xs
  let kept := used.filter stays
  let count (f : Point × Known × Evaluated → Nat) : Nat := (used.map f).foldl (· + ·) 0
  let field (i n : Nat) : Nat := if n < 2 ^ 16 then n else (Config.countOver (s.freeCtr + i)).toNat
  let folded := count fun x => (x.2.2.fates.filter fun f => f = .folded).length
  { num := num, key := key, points := used.map (makePoint e (used.map Prod.fst)), entries := kept.map fun x => backEntry x.1 x.2.1 x.2.2,
    stats := [BitVec.ofNat 64 (field 0 (reachedBy xs).length * 2 ^ 48 + kept.length * 2 ^ 32 + folded),
              BitVec.ofNat 64 (count (fun x => x.2.2.marked) * 2 ^ 32 + field 1 (count fun x => if x.2.2.unrolled then 1 else 0) * 2 ^ 16 +
                count (fun x => if x.2.2.keptLoop then 1 else 0)),
              if full then 0 else 1] }

/-- A bank of a cluster, running, waiting or shadowed, runs the residual (R277). -/
def Cluster.runs (c : Cluster) (num : Nat) : Bool :=
  (c.bank :: c.banks.toList ++ c.shadows.flatMap fun x => x.banks.toList).any fun b => b.residual.any fun r => r.1 = num

/-- The bytes that an entry takes in the specialisation cache: the slots kept, the key and the statistics (log 15). -/
def Residual.size (r : Residual) : Nat :=
  4 * ((r.points.map fun p => ((List.range 8).filter fun i => p.kept.getLsbD i).length).foldl (· + ·) 0) + 8 * r.key.length + 24

/-- Take residuals out that no bank runs, the oldest first, until `need` bytes are free. -/
def residualRoom (used : Residual → Bool) : Nat → List Residual → List Residual
  | _, [] => []
  | need, r :: t => if need ≠ 0 && !used r then residualRoom used (need - r.size) t else r :: residualRoom used need t

/-- The bytes of a list of residuals. -/
def cacheSize (xs : List Residual) : Nat := (xs.map Residual.size).foldl (· + ·) 0

/-- A die's residuals once another has entered. Those that a bank runs stay; which of the others are replaced is not architectural (R277), but all
together fit in 4 MiB (R12, R15). One for which there is no room beside those that run does not enter (log 15). -/
def residualsWith (s : State) (d : Fin 64) (r : Residual) : List Residual :=
  let xs := (s.die d).residuals
  let used (x : Residual) : Bool := s.clusters.any fun c => c.id.die = d && c.runs x.num
  let stay := (((List.range xs.length).zip xs).filter fun p => used p.2 || Config.residualKept (s.freeCtr + p.1)).map Prod.snd
  let ys := residualRoom used (cacheSize stay + r.size - 2 ^ 22) stay
  if cacheSize ys + r.size ≤ 2 ^ 22 then ys ++ [r] else ys

/-- The lookups of every launch that waits for a key on a die end (R277). -/
def endLookups (d : Fin 64) (key : List Word) (s : State) : State :=
  { s with launches := s.launches.map fun (l : Launch) =>
      if (l.share d).key = key then l.setShare d { l.share d with specDone := true } else l }

/-- A die evaluates, or declines, the kernel of a launch whose lookup has missed (R277, R284). -/
def specialise (declined : Bool) (d : Fin 64) (n : Nat) (s : State) : State :=
  match s.launch n with
  | none => s
  | some l =>
    let x := l.share d
    if !x.taken || x.specDone || x.key.isEmpty then s
    else
      let y := s.die d
      let r : Residual := if declined then { num := y.nextKey, key := x.key, declined := true, stats := [0, 0, 2] } else makeResidual s y.nextKey x.image x.key
      endLookups d x.key ({ s with freeCtr := s.freeCtr + y.residuals.length + 2 }.setDie d
        { y with residuals := residualsWith s d r, nextKey := y.nextKey + 1 })

/-- SPECIALISE (R279): launch `a` on die `c.die`. -/
def execSpecialise (s : State) : Host.Outcome State Fault Refusal := .next (specialise false s.ev.c.die s.ev.a s)

/-- SPECIALISE_TIMEOUT (R284): the evaluation takes too long and is abandoned. -/
def execSpecialiseTimeout (s : State) : Host.Outcome State Fault Refusal := .next (specialise true s.ev.c.die s.ev.a s)

end Sys2Proof.Machine
end

