-- ==== Sys2Proof/Machine/Debug.lean ====
section
/-!
DEFINITION. Sys2Proof/Machine/Debug.lean: the steps of the debug facilities: a die takes up its debug block (R355), samples (R355), triggers and
stops (R359, R360).
-/

namespace Sys2Proof.Machine

/-! ### Settings (R355) -/

/-- A debug block without what the hardware and the consumer write in it: PROD, LOST and CONS. -/
def settingsOf (ws : List Word) : List Word :=
  ((ws.set 2 (wordAt ws 2 &&& 0xFFFFFFFF00000000)).set 3 0).set 4 0

/-- The block of a die as memory holds it. -/
def blockSettings (s : State) (d : Fin 64) : List Word := settingsOf (s.mem.words (debugBase d) 32)

/-- The settings in force; nothing but zeros before the first write. -/
def inForce (s : State) (d : Fin 64) : List Word := if (s.die d).tracing.words.isEmpty then List.replicate 32 0 else (s.die d).tracing.words

/-- A write to the block that the die has not taken up. -/
def debugPending (s : State) (d : Fin 64) : Bool := blockSettings s d ≠ inForce s d

/-- The settings take effect; a window whose trigger no longer opens windows is forgotten. -/
def takeSettings (s : State) (d : Fin 64) (ws : List Word) : State :=
  let x := s.die d
  let s1 := s.setDie d { x with tracing := { x.tracing with words := ws } }
  let keep (p : Fin 8 × Nat) : Bool := s1.trigOn d p.2 && bits (s1.trig d p.2 0) 2 1 = 0
  s1.setDie d { x with tracing := { words := ws, windows := x.tracing.windows.filter keep } }

/-- Cycles of a die's clusters have still to be judged by the settings in force. -/
def judging (s : State) (d : Fin 64) : Bool := s.clusters.any fun c => c.id.die = d && (!c.evals.isEmpty || c.sample.isSome)

/-- DEBUG_BLOCK_WRITE (R355): die `c.die` observes its block, whose settings take effect from the next cycle. A ring that reaches past main memory
is taken up as it is (log 33). -/
def execDebugBlockWrite (s : State) : Host.Outcome State Fault Refusal :=
  let d := s.ev.c.die
  let ws := blockSettings s d
  .next (if debugPending s d && !judging s d then takeSettings s d ws else s)

/-! ### Samples -/

/-- A type 1 record of the bundle that is to be sampled, while a window is open (R355, R357, R359). -/
def traceSample (s : State) : State :=
  match s.cl.sample with
  | none => s
  | some (_, x) =>
    if !sampleDue s.cl then s
    else
      let s1 := s.modCl fun c => { c with sample := none }
      if s.windowOpen s.cl.id && s.traced s.cl.id.die x.asn then
        s1.traceWrite s.cl.id.die (traceFill (traceHead 1 s.cl.id x.bank.val 8 0 x.asn x.pc x.cycle ++ [x.iters.1, x.iters.2]))
      else s1

/-- TRACE_SAMPLE: cluster `c`. -/
def execTraceSample (s : State) : Host.Outcome State Fault Refusal := .next (onCluster s.ev.c traceSample s)

/-! ### Triggers -/

/-- The start condition of trigger `i` in a cycle (Table 20.2); one in which no bundle stands at the sequencer has no PC (log 33). -/
def startMet (s : State) (d : Fin 64) (i : Nat) (x : CycleInfo) : Bool :=
  let w := s.trig d i 0
  let lo := s.trig d i 1
  match bits w 5 4 with
  | 0 => x.bundle && lo.toNat ≤ x.pc.toNat && x.pc.toNat ≤ (s.trig d i 2).toNat
  | 1 => x.cause = some (BitVec.ofNat 8 (bits w 15 8))
  | 2 => lo.toNat ≤ x.cycle
  | _ => true

/-- The stop condition. -/
def stopMet (s : State) (d : Fin 64) (i : Nat) (x : CycleInfo) : Bool :=
  let w := s.trig d i 0
  let v := s.trig d i 3
  match bits w 7 6 with
  | 0 => x.bundle && x.pc = v
  | 1 => x.cause = some (BitVec.ofNat 8 (bits w 23 16))
  | 2 => v.toNat ≤ x.cycle
  | _ => false

/-- Open or close the window of trigger `i` in the current cluster. -/
def State.setWindow (s : State) (i : Nat) (on : Bool) : State :=
  let d := s.cl.id.die
  let x := s.die d
  let p := (s.cl.id.cluster, i)
  let ws := x.tracing.windows.filter fun q => q ≠ p
  s.setDie d { x with tracing := { x.tracing with windows := if on then ws ++ [p] else ws } }

/-- A type 3 record, while tracing is enabled: 1 start, 2 stop, 3 both. -/
def triggerRecord (s : State) (x : CycleInfo) (i v : Nat) : State :=
  let d := s.cl.id.die
  if s.traced d x.asn then
    s.traceWrite d (traceFill (traceHead 3 s.cl.id x.bank.val 8 0 x.asn x.pc x.cycle ++ [BitVec.ofNat 64 (i * 256 + v)]))
  else s

/-- A trace window's trigger in a cycle (R359). -/
def windowTrigger (s : State) (x : CycleInfo) (i : Nat) : State :=
  let d := s.cl.id.die
  let opened := (s.die d).tracing.windows.contains (s.cl.id.cluster, i)
  if startMet s d i x && stopMet s d i x then (triggerRecord s x i 3).setWindow i false
  else if startMet s d i x && !opened then (triggerRecord s x i 1).setWindow i true
  else if stopMet s d i x && opened then (triggerRecord s x i 2).setWindow i false
  else s

/-- A stop trigger in a cycle: the cycle's bank is stopped at the end of its bundle (R360). -/
def stopTrigger (s : State) (x : CycleInfo) (i : Nat) : State :=
  if startMet s s.cl.id.die i x then s.modCl fun c => { c with stop := some x.bank } else s

/-- Trigger `i` judges a cycle (R359). -/
def evalTrigger (x : CycleInfo) (s : State) (i : Nat) : State :=
  let d := s.cl.id.die
  let f := bits (s.dbg d 0) 63 48
  if s.trigOn d i && (f = 0xFFFF || f = x.asn.toNat) then
    if bits (s.trig d i 0) 2 1 = 0 then windowTrigger s x i else stopTrigger s x i
  else s

/-- The record of a trap whose cycle has been judged, while a window is open (R357, R359). -/
def writeNote (s : State) (x : CycleInfo) : State :=
  if !x.note.isEmpty && s.windowOpen s.cl.id then s.traceWrite s.cl.id.die x.note else s

/-- A stopped bank waits at its next bundle, with a record of TYPE 8, if it is running, ready or dormant (R360). -/
def stopBank (s : State) (i : Fin 8) : State :=
  if s.cl.run = some i then haltBank s
  else
    let b := s.bankAt i
    if b.state = .ready || b.state = .dormant then
      let s1 := engineRecords i (tswAsn b.tsw) b.pc s
      let r : FaultRec := ⟨recWord0 8 0 s1.cl.id i.val 8 0 (tswAsn b.tsw), 0, b.pc, b.trec, .bank s1.cl.id b.trec⟩
      (s1.setBankAt i { s1.bankAt i with state := .halted, slept := b.state = .dormant }).raise s1.cl.id.die r
    else s

/-- The stop takes place when the bundle has ended. -/
def stopNow (s : State) : State :=
  match s.cl.stop with
  | some i => if s.cl.opn.isNone then stopBank (s.modCl fun c => { c with stop := none }) i else s
  | none => s

/-- The first cycle that has not been judged is judged by all four triggers. -/
def evalTriggers (s : State) : State :=
  if sampleDue s.cl then s
  else
    match s.cl.evals with
    | [] => stopNow s
    | (x, n) :: rest =>
      let more := if n ≤ 1 then [] else [({ x with cycle := x.cycle + 1, cause := none, note := [] }, n - 1)]
      let s1 := s.modCl fun c => { c with evals := more ++ rest }
      stopNow (writeNote ((List.range 4).foldl (evalTrigger x) s1) x)

/-- TRIGGER_EVALUATE (R359): cluster `c`. -/
def execTriggerEvaluate (s : State) : Host.Outcome State Fault Refusal := .next (onCluster s.ev.c evalTriggers s)

end Sys2Proof.Machine
end

