-- ==== Sys2Proof/Machine/Host.lean ====
section
/-!
DEFINITION. Sys2Proof/Machine/Host.lean: the host link (R337 to R343), the requests WRITE, READ, ARM, FIRE, RESYNC and ATTEST (R340 to R344,
R349), the MGMT requests (R345), and the innkeeper's polling (R346). What the link leaves open is in log 11.
-/

namespace Sys2Proof

/-- The payload: LEN bytes. -/
def HostMsg.body (m : HostMsg) : List Byte := m.payload.take m.len.toNat

/-- The stream. -/
def HostMsg.sid (m : HostMsg) : Nat := m.stream.toNat

/-- The 32-byte header of a message (Table 19.1). -/
def HostMsg.header (m : HostMsg) : List Word :=
  [BitVec.ofNat 64 (m.len.toNat * 2 ^ 48 + m.stream.toNat * 2 ^ 32 + m.status.toNat * 2 ^ 24 + m.flags.toNat * 2 ^ 16 + m.type.toNat * 2 ^ 8 + m.version.toNat),
   BitVec.ofNat 64 (m.ack.toNat * 2 ^ 32 + m.seq.toNat), m.addr, m.arg]

/-- The bytes of a message in its frame: header, then payload. -/
def HostMsg.wire (m : HostMsg) : List Byte := Machine.bytesOfWords m.header ++ m.payload

/-- The message that a frame of these bytes carries; the payload is what the frame holds after the header. -/
def HostMsg.ofWire (f : Framing) (bs : List Byte) : HostMsg :=
  let h := Machine.leWords (bs.take 32) 4
  let w := Machine.wordAt h 0
  { len := w.extractLsb' 48 16, stream := w.extractLsb' 32 16, status := w.extractLsb' 24 8, flags := w.extractLsb' 16 8, type := w.extractLsb' 8 8,
    version := w.extractLsb' 0 8, ack := (Machine.wordAt h 1).extractLsb' 32 32, seq := (Machine.wordAt h 1).extractLsb' 0 32, addr := Machine.wordAt h 2, arg := Machine.wordAt h 3,
    payload := bs.drop 32, short := decide (bs.length < 32), frame := f }

end Sys2Proof

namespace Sys2Proof.Machine

/-! ### Messages (R337, R338) -/

/-- The frame carries a message of the protocol (R337). -/
def framed (s : State) (m : HostMsg) : Bool :=
  match m.frame with
  | .ether t => t = s.etherType
  | .udp p => p = s.udpPort
  | .other => false

/-- A frame that is counted and dropped without reply (R337). -/
def unanswerable (s : State) (m : HostMsg) : Bool :=
  !framed s m || m.short || m.version ≠ 1 || 63 < m.sid || 8192 < m.len.toNat || m.payload.length < m.len.toNat

/-- Bits of a message that its type leaves unused are zero: ADDR and ARG under masks, and the payload unless it is used (R337). -/
def unusedZero (m : HostMsg) (addr arg : Word) (payload : Bool) : Bool :=
  m.addr &&& ~~~addr = 0 && m.arg &&& ~~~arg = 0 && (payload || m.body.all fun b => b = 0)

/-- All allOnes. -/
def allOnes : Word := 0xFFFFFFFFFFFFFFFF

/-- Fields of ARG. -/
def argBits (m : HostMsg) (hi lo : Nat) : Nat := bits m.arg hi lo

/-- ARG of an ARM: NLOG and ZLOG. -/
def armNlog (m : HostMsg) : Nat := argBits m 23 16
@[inherit_doc armNlog] def armZlog (m : HostMsg) : Nat := argBits m 31 24

/-- The first byte past 2^L + 1 lines of 64 bytes from a base (R322, R352). -/
def ringEnd (base log2 : Nat) : Nat := base + 64 * (2 ^ log2 + 1)

/-- Which MGMT request a message is, with every field as Table 19.4 has it; none for an unlisted code or a malformed field. -/
def mgmtStep (m : HostMsg) : Option Instr :=
  let dieOk := argBits m 15 8 < 64
  let when (p : Bool) (i : Instr) : Option Instr := if p then some i else none
  match argBits m 7 0 with
  | 0x01 => when (unusedZero m allOnes 0xFF false) .mgmtRootBase
  | 0x02 => when (unusedZero m 0 0xFF false) .mgmtHeapTable
  | 0x03 => when (unusedZero m 0 0xFFFFFF false && dieOk) .mgmtServiceClusters
  | 0x04 => when (unusedZero m 0 0xFFFFFF false) .mgmtCodeGeneration
  | 0x05 => when (unusedZero m 0 0xFFFF true && dieOk && m.len.toNat % 8 = 0) .mgmtBackmapRead
  | 0x06 =>
    let l := argBits m 23 16
    when (unusedZero m allOnes 0x1FFFFFF false && dieOk &&
      (m.addr = 0 || (m.addr.toNat % 4096 = 0 && 4 ≤ l && l ≤ 16 && ringEnd m.addr.toNat l ≤ Config.memTop))) .mgmtFaultQueue
  | 0x07 => when (unusedZero m 0 0x3F0107FFFF false && dieOk) .mgmtPreempt
  | 0x08 => when (unusedZero m allOnes 0xFF false) .mgmtDefaultTvb
  | 0x09 => when (unusedZero m 0 0xFFFF false) .mgmtCertificate
  | 0x0A =>
    when (unusedZero m allOnes 0xFFFFFF00FF false && m.addr.toNat % 64 = 0 && ringEnd m.addr.toNat (argBits m 23 16) ≤ Config.memTop) .mgmtReductionRing
  | 0x0B =>
    let k := argBits m 15 8
    let u := argBits m 47 16
    when (unusedZero m 0 0xFFFFFFFFFFFF false && 1 ≤ k && k ≤ 6 && (k ≠ 1 || u < 64) && (k ≠ 2 || u < 512) && (k ≠ 3 || u < 10240)) .mgmtMaintenance
  | 0x0C => when (unusedZero m 0 0xFF true) .mgmtLoadFirmware
  | 0x0D => when (unusedZero m 0 0xFF true && m.len.toNat = 32) .mgmtExtendM3
  | 0x0E => when (unusedZero m 0 0xFFFFFFFFFF false) .mgmtEncapsulation
  | _ => none

/-- The step that a message is, when its stream expects it (R337): MALFORMED_MESSAGE for what is no request that the device can perform. -/
def msgStep (m : HostMsg) : Instr :=
  let when (p : Bool) (i : Instr) : Instr := if p then i else .malformedMessage
  let fl := m.flags.toNat
  if m.status ≠ 0 || 8 ≤ fl || fl % 2 = 1 || (4 ≤ fl && m.type ≠ 5) then .malformedMessage
  else
    match m.type.toNat with
    | 1 => when (unusedZero m allOnes 0x1FFFF true && m.addr.toNat % 8 = 0 && m.len.toNat % 8 = 0) .write
    | 2 => when (unusedZero m allOnes 0xFFFFFFFF0001FFFF false && m.addr.toNat % 8 = 0 && argBits m 63 32 % 8 = 0 && argBits m 63 32 ≤ 8192) .read
    | 3 =>
      if m.len = 0 && armNlog m = 0 && armZlog m = 0 then when (unusedZero m 0 0xFFFF false) .disarm
      else
        when (unusedZero m allOnes 0xFFFFFFFF true && m.len.toNat = 640 && armNlog m ≤ 8 && 10 ≤ armZlog m && armZlog m ≤ 14 &&
          m.addr.toNat % 2 ^ armZlog m = 0) .arm
    | 4 => when (unusedZero m 0 0xFFFF true) .fire
    | 5 => when (unusedZero m 0 0 false) .resync
    | 6 => when (unusedZero m 0 0 true && m.len.toNat = 32) .attest
    | 7 => (mgmtStep m).getD .malformedMessage
    | _ => .malformedMessage

/-! ### Replies -/

/-- Cut into parts of at most 8192 bytes, at least one (R338). -/
def cutParts (bs : List Byte) : Nat → List (List Byte)
  | 0 => [bs]
  | n + 1 => if bs.length ≤ 8192 then [bs] else bs.take 8192 :: cutParts (bs.drop 8192) n

/-- A reply in as many parts as it needs; the last is marked (R339). -/
def replyParts (m : HostMsg) (arg : Word) : List (List Byte) → State → State
  | [], s => s
  | [p], s => s.reply m 0 arg p
  | p :: q :: r, s => replyParts m arg (q :: r) (s.reply m 0 arg p false)

/-- A reply of any length with STATUS 0. -/
def replyLong (m : HostMsg) (arg : Word) (bs : List Byte) (s : State) : State := replyParts m arg (cutParts bs (bs.length / 8192 + 1)) s

/-- A reply that carries nothing but its STATUS. -/
def replyStatus (m : HostMsg) (status : BitVec 8) (s : State) : State := s.reply m status 0 []

/-! ### WRITE and READ (R340) -/

/-- The place of an 8-byte word of a WRITE or READ: physical, or translated as a supervisor access of the firmware complex. -/
def hostLoc (s : State) (phys : Bool) (asn : BitVec 16) (write : Bool) (va : Word) : Eff (State × Loc) := do
  let w := engineWho asn
  if phys then
    if va.toNat + 8 ≤ Config.memTop then .ok (s, .mem va.toNat) else w.trap 0x05 va
  else
    chkForm w va
    if isWindow va then
      let l ← windowLoc s w s.cl.id none va
      .ok (s, l)
    else
      let (s1, l) ← walk s w va
      chkLeaf s1 w { write := write, device := true } l va
      let pa ← leafLoc w l va 8
      .ok (s1, .mem pa)

/-- The STATUS of a word that stops a WRITE, READ or slot write. -/
def faultStatus (e : Stop) : BitVec 8 := match e with | .trap 0x16 _ _ => 0x03 | _ => 0x02

/-- A store of the firmware complex is performed at the home agent: no copy is left (R123). -/
def State.homeStore (s : State) (l : Loc) (x n : Nat) : State :=
  match l with
  | .mem pa => (s.homeRun pa n).putBytes pa x n
  | .pool _ _ _ _ => s.writeLoc l x n

/-- Store doublewords from `va` on; none when all are stored, else the words stored before the first that faults, and its STATUS. -/
def hostStore (phys : Bool) (asn : BitVec 16) (va : Word) (done : Nat) : List Word → State → State × Option (Nat × BitVec 8)
  | [], s => (s, none)
  | x :: xs, s =>
    match hostLoc s phys asn true va with
    | .error e => (s, some (done, faultStatus e))
    | .ok (s1, l) => hostStore phys asn (va + 8) (done + 1) xs (s1.homeStore l x.toNat 8)

/-- Load doublewords: those before the first that faults, and its STATUS. -/
def hostLoad (phys : Bool) (asn : BitVec 16) (va : Word) : Nat → State → State × List Word × BitVec 8
  | 0, s => (s, [], 0)
  | n + 1, s =>
    match hostLoc s phys asn false va with
    | .error e => (s, [], faultStatus e)
    | .ok (s1, l) =>
      if s1.badRead l 8 then (s1, [], 0x03)
      else
        let r := hostLoad phys asn (va + 8) n (s1.correctLoc l 8)
        (r.1, BitVec.ofNat 64 (s1.readLoc l 8) :: r.2.1, r.2.2)

/-- Doublewords of a payload, the last filled up with zeros. -/
def payloadWords (bs : List Byte) : List Word := leWords bs ((bs.length + 7) / 8)

/-- WRITE. -/
def doWrite (m : HostMsg) (s : State) : State :=
  let r := hostStore (m.arg.getLsbD 16) (m.arg.extractLsb' 0 16) m.addr 0 (payloadWords m.body) s
  match r.2 with
  | none => r.1.reply m 0 (BitVec.ofNat 64 m.len.toNat) []
  | some (n, st) => r.1.reply m st (BitVec.ofNat 64 (8 * n)) []

/-- READ. -/
def doRead (m : HostMsg) (s : State) : State :=
  let r := hostLoad (m.arg.getLsbD 16) (m.arg.extractLsb' 0 16) m.addr (argBits m 63 32 / 8) s
  r.1.reply m r.2.2 (BitVec.ofNat 64 (8 * r.2.1.length)) (bytesOfWords r.2.1)

/-! ### ARM and FIRE (R341, R342) -/

/-- An armed tag. -/
def State.armedTag (s : State) (tag : Nat) : Option Armed := s.armed.find? fun a => a.tag = tag

/-- Put an entry in its place, in rising order of tags. -/
def putArmed (x : Armed) : List Armed → List Armed
  | [] => [x]
  | y :: t => if y.tag = x.tag then x :: t else if x.tag < y.tag then x :: y :: t else y :: putArmed x t

/-- A FIRE of this number is in flight. -/
def fireInFlight (s : State) (fire : Nat) : Bool := s.launches.any fun l => l.fire = fire

/-- A launch of an entry is in flight. -/
def Armed.busy (a : Armed) (s : State) : Bool := a.fly.any fun p => fireInFlight s p.2

/-- ARM. -/
def doArm (m : HostMsg) (s : State) : State :=
  let image := leWords (m.body.take 128) 16
  let args := leWords (m.body.drop 128) 64
  let tag := argBits m 15 0
  match hdrInvalid image true false with
  | some code => replyStatus m code s
  | none =>
    let old := s.armedTag tag
    if (old.elim false fun a => a.busy s) || (old.isNone && 256 ≤ s.armed.length) then replyStatus m 0x04 s
    else
      replyStatus m 0 { s with armed := putArmed { tag := tag, image := image, args := args, ring := m.addr, nlog := armNlog m, zlog := armZlog m } s.armed }

/-- ARM with nothing to arm disarms its tag. -/
def doDisarm (m : HostMsg) (s : State) : State :=
  match s.armedTag (argBits m 15 0) with
  | none => replyStatus m 0x05 s
  | some a => if a.busy s then replyStatus m 0x04 s else replyStatus m 0 { s with armed := s.armed.filter fun x => x.tag ≠ a.tag }

/-- The doublewords of a slot at `r`: the header with its ARGS, the argument block with its doubleword 0, the payload. -/
def slotWords (a : Armed) (r : Word) (payload : List Byte) : List Word :=
  a.image.set 1 (r + 128) ++ a.args.set 0 (r + 640) ++ payloadWords payload

/-- COUNT of the record that a FIRE's launch decrements gets 1 more (R268). -/
def fireCount (s : State) (h : List Word) : Except (BitVec 8) State :=
  if hdrCkind h = 2 then
    match enginePlace s (hdrAsn h) (hdrCtarget h) 64 true true with
    | .error e => .error (faultStatus e)
    | .ok (s1, pa) => match (s1.homeRun pa 64).countUp pa with | some t => .ok t | none => .error 0x29
  else .ok s

/-- FIRE; none while it is held (R342). -/
def doFire (m : HostMsg) (s : State) : Option State :=
  match s.armedTag (argBits m 15 0) with
  | none => some (replyStatus m 0x05 s)
  | some a =>
    if 2 ^ a.zlog < m.len.toNat + 640 then some (replyStatus m 0x01 s)
    else if (a.fly.any fun p => p.1 = a.next && fireInFlight s p.2) || 64 ≤ s.launches.length then none
    else
      let r := a.ring + BitVec.ofNat 64 (a.next * 2 ^ a.zlog)
      let asn := hdrAsn a.image
      let ws := slotWords a r m.body
      let x := hostStore false asn r 0 ws s
      match x.2 with
      | some (n, st) => some (x.1.reply m st (BitVec.ofNat 64 (8 * n)) [])
      | none =>
        let image := ws.take 16
        match hdrInvalid image true true with
        | some code => some (replyStatus m code x.1)
        | none =>
          match fireCount x.1 image with
          | .error st => some (replyStatus m st x.1)
          | .ok s1 =>
            let f := s.nextFire
            let a1 := { a with next := (a.next + 1) % 2 ^ a.nlog, fly := (a.next, f) :: a.fly.filter fun p => p.1 ≠ a.next }
            let s2 := s1.startLaunch r asn image 0 true f
            some ({ s2 with armed := putArmed a1 s2.armed, nextFire := f + 1 }.reply m 0 (BitVec.ofNat 64 f) [])

/-! ### RESYNC (R344) -/

/-- A section: its heading and its doublewords. -/
def section_ (id : Nat) (ws : List Word) : List Word := BitVec.ofNat 64 (ws.length * 8 * 256 + id) :: ws

/-- A number as a doubleword. -/
def nw (n : Nat) : Word := BitVec.ofNat 64 n

/-- A cluster as one number. -/
def clusterWord (c : ClusterId) : Word := nw (clusterNum c)

/-- States of a bank as numbers. -/
def BankState.code : BankState → Nat
  | .free => 0 | .ready => 1 | .running => 2 | .waitFault => 3 | .halted => 4 | .dormant => 5 | .restoring => 6

/-- A bank of section 5. -/
def bankLine (c : ClusterId) (i : Nat) (b : Bank) (shadowed : Bool) : List Word :=
  [clusterWord c, nw i, b.trec, nw (b.state.code + if shadowed then 8 else 0)]

/-- The banks of a cluster that section 5 lists. -/
def clusterLines (c : Cluster) : List Word :=
  ((List.range 8).zip c.banks.toList).flatMap (fun p =>
    if p.2.state = .waitFault || p.2.state = .halted || p.2.state = .dormant then bankLine c.id p.1 p.2 false else []) ++
  c.shadows.flatMap fun x => ((List.range 8).zip x.banks.toList).flatMap fun p => if p.2.state = .free then [] else bankLine c.id p.1 p.2 true

/-- The dies that refused their share or abandoned its enumeration, with their codes. -/
def refusals (l : Launch) : List Word :=
  ((List.range 64).zip l.shares.toList).flatMap fun p => if p.2.code = 0 then [] else [nw p.1, p.2.code.setWidth 64]

/-- Doublewords of a string of bytes. -/
def asWords (bs : List Byte) : List Word := leWords bs (bs.length / 8)

/-- The measurement registers (R348). -/
def measures (s : State) : List Byte := s.m0 ++ s.m1 ++ s.m2 ++ s.m3

/-- The spare map (R350): each physical spare of each kind, with the unit that it serves, or all ones where it is unused. -/
def spareMap (s : State) : List Word :=
  [1, 2, 3, 4, 5, 6].flatMap fun k => (List.range (spareCount k)).flatMap fun i => [nw k, nw i, ((s.spareUnit k i).map nw).getD allOnes]

/-- The error counts: what the k-th RESYNC finds of link retries and wear alerts is open (log 11). -/
def errorCounts (s : State) : List Word :=
  [Cells.get s.counts 0, Config.linkRetries s.freeCtr, Cells.get s.counts 2, Config.wearAlerts s.freeCtr, Cells.get s.counts 4]

/-- The ten sections of Table 19.3. -/
def summary (s : State) : List Word :=
  section_ 1 [nw (if s.recovery then 1 else 0), Config.firmwareVersion] ++
  section_ 2 (s.armed.flatMap fun a => [nw a.tag, a.ring, nw a.nlog, nw a.zlog, nw a.next, nw (a.fly.filter fun p => fireInFlight s p.2).length]) ++
  section_ 3 (s.launches.flatMap fun l =>
    [nw l.fire, l.hdr, nw l.collect.val, nw (l.shares.toList.filter Share.reported).length, nw ((refusals l).length / 2)] ++ refusals l) ++
  section_ 4 (s.dies.toList.flatMap fun d => (d.shared :: d.priv.toList).flatMap fun q => q.levels.toList.map fun l => nw l.length) ++
  section_ 5 (s.clusters.flatMap clusterLines) ++
  section_ 6 (s.dies.toList.map fun d => nw (d.fq.cons * 2 ^ 32 + d.fq.prod)) ++
  section_ 7 (s.streams.flatMap fun x =>
    [nw x.id, nw x.txNext, ((x.unacked.head?).map fun m => m.seq.setWidth 64).getD (nw x.txNext), nw x.rxNext, nw x.rxNext]) ++
  section_ 8 (spareMap s) ++
  section_ 9 (errorCounts s) ++
  section_ 10 (asWords (measures s))

/-- RESYNC; with the reset flag the stream starts anew at 0 before the reply (R339). -/
def doResync (m : HostMsg) (s : State) : State :=
  let s1 := if m.flags.getLsbD 2 then s.setStream { id := m.sid } else s
  replyLong m 0 (bytesOfWords (summary s)) { s1 with freeCtr := s1.freeCtr + 1 }

/-! ### ATTEST (R349) -/

/-- ATTEST. -/
def doAttest (m : HostMsg) (s : State) : State :=
  let bs := m.body ++ measures s ++ leBytes s.resets.toNat 8 ++ leBytes Config.serial.toNat 16
  replyLong m 0 (bs ++ leBytes (Config.sign bs).toNat 2420) s

/-! ### MGMT (Table 19.4) -/

/-- The die that ARG[15:8] names. -/
def argDie (m : HostMsg) : Fin 64 := Fin.ofNat 64 (argBits m 15 8)

/-- 0x01: ADDR all allOnes reads. -/
def doRootBase (m : HostMsg) (s : State) : State :=
  let b := if m.addr = allOnes then s.rootBase else m.addr.toNat
  { s with rootBase := b }.reply m 0 (nw b) []

/-- 0x02. -/
def doHeapTable (m : HostMsg) (s : State) : State := s.reply m 0 (nw Config.heapTable) []

/-- A general bank is resident in a cluster of a die that a mask names (R263). -/
def generalResident (s : State) (d : Fin 64) (mask : BitVec 8) : Bool :=
  (List.finRange 8).any fun k =>
    mask.getLsbD k.val && !(s.die d).svcMask.getLsbD k.val && !(s.clusterAt ⟨d, k⟩).residents.isEmpty

/-- 0x03. -/
def doServiceClusters (m : HostMsg) (s : State) : State :=
  let d := argDie m
  let mask := m.arg.extractLsb' 16 8
  if generalResident s d mask then replyStatus m 0x04 s
  else replyStatus m 0 (s.setDie d { s.die d with svcMask := mask })

/-- 0x04 (R278). -/
def doCodeGeneration (m : HostMsg) (s : State) : State :=
  let asn := argBits m 23 8
  let v : BitVec 32 := Cells.get s.codeGen asn + 1
  { s with codeGen := Cells.set s.codeGen asn v }.reply m 0 (v.setWidth 64) []

/-- 0x05 (R292, R293). -/
def doBackmapRead (m : HostMsg) (s : State) : State :=
  match (s.die (argDie m)).residuals.find? fun r => r.key = asWords m.body with
  | none => replyStatus m 0x05 s
  | some r => replyLong m 0 (bytesOfWords (r.stats ++ r.entries.flatten)) s

/-- 0x06 (R322): refused while the queue holds a record that is not DONE. -/
def doFaultQueue (m : HostMsg) (s : State) : State :=
  let d := argDie m
  let x := s.die d
  if !x.fq.posted.isEmpty then replyStatus m 0x04 s
  else
    let q : FaultQueue :=
      if m.addr = 0 then { held := x.fq.held }
      else { base := some m.addr.toNat, log2 := argBits m 23 16, host := m.arg.getLsbD 24, held := x.fq.held }
    let s1 := s.setDie d { x with fq := q }
    replyStatus m 0 ((s1.homeRun (fqBase s1 d) 64).putWords (fqBase s1 d) (List.replicate 8 0))

/-- 0x07 (R326 to R328): the reply waits for the pre-emption, unless it is refused. -/
def doPreempt (m : HostMsg) (s : State) : State :=
  let c : ClusterId := ⟨argDie m, Fin.ofNat 8 (argBits m 18 16)⟩
  let x := s.clusterAt c
  if x.preempt.isSome || (!shadowFits x && !x.shadows.any Shadow.evictable) then replyStatus m 0x04 s
  else
    { s.setCluster { x with preempt := some (if m.arg.getLsbD 24 then some (Fin.ofNat 64 (argBits m 37 32)) else none) } with
      preempts := s.preempts ++ [(c, m)] }

/-- 0x08 (R315). -/
def doDefaultTvb (m : HostMsg) (s : State) : State := replyStatus m 0 { s with defaultTvb := m.addr }

/-- 0x09: a part of the certificate; a part past its end is empty. -/
def doCertificate (m : HostMsg) (s : State) : State :=
  let cs := cutParts Config.certificate (Config.certificate.length / 8192 + 1)
  s.reply m 0 0 (cs.getD (argBits m 15 8) [])

/-- 0x0A (R352). -/
def doReductionRing (m : HostMsg) (s : State) : State :=
  replyStatus m 0 { s with redBase := m.addr.toNat, redLog := argBits m 23 16, redGroup := argBits m 31 24, redRank := argBits m 39 32,
                           redCons := 0, red := none }

/-- A cluster holds a bank or a shadow context. -/
def clusterHolds (s : State) (c : ClusterId) : Bool := !(s.clusterAt c).residents.isEmpty || !(s.clusterAt c).shadows.isEmpty

/-- The lines that a cache slice holds: ordinary ones, and those of the blocks whose tag it has. -/
def sliceContent (s : State) (d : Fin 64) (sl : Fin 160) : List Nat :=
  ((s.ordinaryLines d).filter fun l => Config.homeSlice l = sl) ++
  ((s.die d).tags.filter fun b => b.slice = sl).flatMap fun b => ((List.range b.lines).map fun i => b.first + i).filter b.covers

/-- A cache slice is flushed as CFLUSH does (R131, R350): a dirty copy of each of its lines is written back, and every copy on the device removed. -/
def flushSlice (s : State) (d : Fin 64) (sl : Fin 160) : State :=
  (sliceContent s d sl).foldl (State.maintainCopies (Requester.engine ⟨d, 0⟩ 0) true) s

/-- 0x0B (R350): a die or cluster that holds a bank or shadow context is refused, and so is a unit for which no spare is left (log 24). -/
def doMaintenance (m : HostMsg) (s : State) : State :=
  let k := argBits m 15 8
  let u := argBits m 47 16
  let held :=
    if k = 1 then (List.finRange 8).any fun i => clusterHolds s ⟨Fin.ofNat 64 u, i⟩
    else if k = 2 then clusterHolds s ⟨Fin.ofNat 64 (u / 8), Fin.ofNat 8 u⟩
    else false
  match if held then none else s.takeSpare k u with
  | none => replyStatus m 0x04 s
  | some t => replyStatus m 0 (if k = 3 then flushSlice t (Fin.ofNat 64 (u / 160)) (Fin.ofNat 160 u) else t)

/-- 0x0C (R347). -/
def doLoadFirmware (m : HostMsg) (s : State) : State := replyStatus m 0 { s with image := some m.body }

/-- 0x0D (R348). -/
def doExtendM3 (m : HostMsg) (s : State) : State := replyStatus m 0 { s with m3 := sha3 (s.m3 ++ m.body) }

/-- 0x0E (R337). -/
def doEncapsulation (m : HostMsg) (s : State) : State :=
  replyStatus m 0 { s with etherType := m.arg.extractLsb' 8 16, udpPort := m.arg.extractLsb' 24 16 }

/-! ### Receiving (R337, R339, R347) -/

/-- Perform the request that a message is; none while it is held. In recovery only RESYNC, ATTEST and MGMT 0x0C are answered. -/
def performMsg (m : HostMsg) (s : State) : Option State :=
  match msgStep m with
  | .resync => some (doResync m s)
  | .attest => some (doAttest m s)
  | .mgmtLoadFirmware => some (doLoadFirmware m s)
  | i =>
    if s.recovery then some s
    else
      match i with
      | .write => some (doWrite m s)
      | .read => some (doRead m s)
      | .arm => some (doArm m s)
      | .disarm => some (doDisarm m s)
      | .fire => doFire m s
      | .mgmtRootBase => some (doRootBase m s)
      | .mgmtHeapTable => some (doHeapTable m s)
      | .mgmtServiceClusters => some (doServiceClusters m s)
      | .mgmtCodeGeneration => some (doCodeGeneration m s)
      | .mgmtBackmapRead => some (doBackmapRead m s)
      | .mgmtFaultQueue => some (doFaultQueue m s)
      | .mgmtPreempt => some (doPreempt m s)
      | .mgmtDefaultTvb => some (doDefaultTvb m s)
      | .mgmtCertificate => some (doCertificate m s)
      | .mgmtReductionRing => some (doReductionRing m s)
      | .mgmtMaintenance => some (doMaintenance m s)
      | .mgmtExtendM3 => some (doExtendM3 m s)
      | .mgmtEncapsulation => some (doEncapsulation m s)
      | _ => some (replyStatus m 0x01 s)

/-- A stream with a request that waits: its later messages wait too (R310, R342). -/
def streamWaits (s : State) (id : Nat) : Bool := s.fires.any (fun m => m.sid = id) || s.preempts.any fun p => p.2.sid = id

/-- Perform a message, or hold it behind the request that its stream waits on. -/
def performOrHold (m : HostMsg) (s : State) : State :=
  if streamWaits s m.sid then { s with fires := s.fires ++ [m] }
  else (performMsg m s).getD { s with fires := s.fires ++ [m] }

/-- The host acknowledges what it has received before ACK (R339). -/
def Stream.acked (x : Stream) (ack : BitVec 32) : Stream :=
  { x with unacked := x.unacked.filter fun m => 2 ^ 31 ≤ (ack - m.seq - 1).toNat }

/-- 64 requests of a stream have been taken that no message to the host has acknowledged yet: the window is full (R339). -/
def windowFull (s : State) (id : Nat) : Bool := 64 ≤ ((s.stream id).rxNext + 2 ^ 32 - (s.stream id).ackSent) % 2 ^ 32

/-- The message is the one that its stream expects. -/
def expected (s : State) (m : HostMsg) : Bool := m.seq.toNat = (s.stream m.sid).rxNext && !windowFull s m.sid

/-- A message as its stream takes it: its ACK counts in any case. -/
def noteAck (s : State) (m : HostMsg) : State := s.setStream ((s.stream m.sid).acked m.ack)

/-- Take the expected message: it consumes its SEQ, and is performed or held. -/
def takeMsg (m : HostMsg) (s : State) : State :=
  let s1 := noteAck s m
  let x := s1.stream m.sid
  performOrHold m (s1.setStream { x with rxNext := (x.rxNext + 1) % 2 ^ 32 })

/-- The step `i` receives the message it concerns when that message is an `i` that its stream expects. -/
def receive (i : Instr) (s : State) : Host.Outcome State Fault Refusal :=
  let m := s.ev.msg
  .next (if !unanswerable s m && expected s m && msgStep m = i then takeMsg m s else s)

/-- Send messages again as they were, with the present ACK. -/
def resend (s : State) (id : Nat) (ms : List HostMsg) : State :=
  let x := s.stream id
  if ms.isEmpty then s
  else { s.setStream { x with ackSent := x.rxNext } with outbox := s.outbox ++ ms.map fun m => { m with ack := BitVec.ofNat 32 x.rxNext } }

/-- FRAME_DROP (R337): counted (count 2 of section 9) and dropped. -/
def execFrameDrop (s : State) : Host.Outcome State Fault Refusal :=
  .next (if unanswerable s s.ev.msg then { s with counts := Cells.set s.counts 2 (Cells.get s.counts 2 + 1) } else s)

/-- DISCARDED_MESSAGE (R339): a request that was performed before is answered with its original reply. -/
def execDiscardedMessage (s : State) : Host.Outcome State Fault Refusal :=
  let m := s.ev.msg
  if unanswerable s m || expected s m then .next s
  else
    let s1 := noteAck s m
    .next (resend s1 m.sid (((s1.stream m.sid).replies.filter fun p => p.1 = m.seq.toNat).map Prod.snd))

/-- STREAM_RESEND (R339): every unacknowledged message of stream `a`, in SEQ order. -/
def execStreamResend (s : State) : Host.Outcome State Fault Refusal := .next (resend s s.ev.a (s.stream s.ev.a).unacked)

/-- MALFORMED_MESSAGE (R337). -/
def execMalformedMessage (s : State) : Host.Outcome State Fault Refusal := receive .malformedMessage s

/-- WRITE (R340). -/
def execWrite (s : State) : Host.Outcome State Fault Refusal := receive .write s

/-- READ (R340). -/
def execRead (s : State) : Host.Outcome State Fault Refusal := receive .read s

/-- ARM (R341). -/
def execArm (s : State) : Host.Outcome State Fault Refusal := receive .arm s

/-- DISARM (R341). -/
def execDisarm (s : State) : Host.Outcome State Fault Refusal := receive .disarm s

/-- FIRE (R342). -/
def execFire (s : State) : Host.Outcome State Fault Refusal := receive .fire s

/-- RESYNC (R344). -/
def execResync (s : State) : Host.Outcome State Fault Refusal := receive .resync s

/-- ATTEST (R349). -/
def execAttest (s : State) : Host.Outcome State Fault Refusal := receive .attest s

/-- MGMT 0x01 (R79). -/
def execMgmtRootBase (s : State) : Host.Outcome State Fault Refusal := receive .mgmtRootBase s

/-- MGMT 0x02 (R95). -/
def execMgmtHeapTable (s : State) : Host.Outcome State Fault Refusal := receive .mgmtHeapTable s

/-- MGMT 0x03 (R263). -/
def execMgmtServiceClusters (s : State) : Host.Outcome State Fault Refusal := receive .mgmtServiceClusters s

/-- MGMT 0x04 (R278). -/
def execMgmtCodeGeneration (s : State) : Host.Outcome State Fault Refusal := receive .mgmtCodeGeneration s

/-- MGMT 0x05 (R292). -/
def execMgmtBackmapRead (s : State) : Host.Outcome State Fault Refusal := receive .mgmtBackmapRead s

/-- MGMT 0x06 (R322). -/
def execMgmtFaultQueue (s : State) : Host.Outcome State Fault Refusal := receive .mgmtFaultQueue s

/-- MGMT 0x07 (R326). -/
def execMgmtPreempt (s : State) : Host.Outcome State Fault Refusal := receive .mgmtPreempt s

/-- MGMT 0x08 (R315). -/
def execMgmtDefaultTvb (s : State) : Host.Outcome State Fault Refusal := receive .mgmtDefaultTvb s

/-- MGMT 0x09 (R349). -/
def execMgmtCertificate (s : State) : Host.Outcome State Fault Refusal := receive .mgmtCertificate s

/-- MGMT 0x0A (R352). -/
def execMgmtReductionRing (s : State) : Host.Outcome State Fault Refusal := receive .mgmtReductionRing s

/-- MGMT 0x0B (R350). -/
def execMgmtMaintenance (s : State) : Host.Outcome State Fault Refusal := receive .mgmtMaintenance s

/-- MGMT 0x0C (R347). -/
def execMgmtLoadFirmware (s : State) : Host.Outcome State Fault Refusal := receive .mgmtLoadFirmware s

/-- MGMT 0x0D (R348). -/
def execMgmtExtendM3 (s : State) : Host.Outcome State Fault Refusal := receive .mgmtExtendM3 s

/-- MGMT 0x0E (R337). -/
def execMgmtEncapsulation (s : State) : Host.Outcome State Fault Refusal := receive .mgmtEncapsulation s

/-! ### The innkeeper (R346, log 14) -/

/-- Take up the requests that wait, in order, each unless its stream still waits on an earlier one. -/
def retryHeld : List HostMsg → List Nat → State → State
  | [], _, s => s
  | m :: ms, blocked, s =>
    let hold (t : State) : State := { t with fires := t.fires ++ [m] }
    if blocked.contains m.sid || s.preempts.any (fun p => p.2.sid = m.sid) then retryHeld ms (m.sid :: blocked) (hold s)
    else
      match performMsg m s with
      | some t => retryHeld ms blocked t
      | none => retryHeld ms (m.sid :: blocked) (hold s)

/-- FIRMWARE_POLL_SLOT (R346): the next of 64 polling slots; requests that wait are looked at again. -/
def execFirmwarePollSlot (s : State) : Host.Outcome State Fault Refusal :=
  .next (retryHeld s.fires [] { s with pollSlot := (s.pollSlot + 1) % 64, fires := [] })

/-! ### Time (R351) -/

/-- TSTEP_INCREMENT: 4096 cycles have passed, and the device is aligned. What a read gives in this cycle (`tstepNow`) is the same before and
after. -/
def execTstepIncrement (s : State) : Host.Outcome State Fault Refusal :=
  .next (if s.aligned && decide (s.tstepAt + 4096 ≤ s.now) then { s with tstep := (s.tstep + 1) % 2 ^ 64, tstepAt := s.tstepAt + 4096 } else s)

/-- TIME_ALIGNMENT_LOSS: TSTEP is held, and the loss counted (count 4 of section 9). -/
def execTimeAlignmentLoss (s : State) : Host.Outcome State Fault Refusal :=
  .next (if s.aligned then { s with aligned := false, tstep := s.tstepNow, counts := Cells.set s.counts 4 (Cells.get s.counts 4 + 1) } else s)

/-- ALIGNED_AGAIN: TSTEP goes on; it increments no earlier than 4096 cycles from here. -/
def execAlignedAgain (s : State) : Host.Outcome State Fault Refusal :=
  .next (if s.aligned then s else { s with aligned := true, tstepAt := s.now })

/-! ### Reductions (R352, R353; log 25) -/

/-- The width of an element in bytes: INT32, INT64, fp32. -/
def redBytes (type : Nat) : Nat := if type = 1 then 8 else 4

def redSrc (d : List Word) : Word := wordAt d 0
def redDst (d : List Word) : Word := wordAt d 1
def redCount (d : List Word) : Nat := bits (wordAt d 2) 63 32
def redAsn (d : List Word) : BitVec 16 := (wordAt d 2).extractLsb' 16 16
def redType (d : List Word) : Nat := bits (wordAt d 2) 7 0

/-- A descriptor that names a reduction of this device's group (Table 19.5). -/
def redOk (s : State) (d : List Word) : Bool :=
  redType d ≤ 2 && 1 ≤ redCount d && redCount d ≤ 2 ^ 24 && bits (wordAt d 2) 15 8 = s.redGroup

/-- The place of an element of `k` bytes: main memory, or a scratchpad or accumulator of the device (R73, R77). -/
def redPlace (s : State) (asn : BitVec 16) (va : Word) (k : Nat) (write : Bool) : Eff (State × Loc) := do
  let w := engineWho asn
  chkForm w va
  if isWindow va then
    chkAlign w va k
    let l ← windowLoc s w s.cl.id none va
    .ok (s, l)
  else
    let (s1, pa) ← enginePlace s asn va k (!write) write
    .ok (s1, .mem pa)

/-- `n` elements of `k` bytes from `va` on. -/
def redLoad (asn : BitVec 16) (k : Nat) (va : Word) : Nat → State → Eff (State × List Nat)
  | 0, s => .ok (s, [])
  | n + 1, s => do
    let (s1, l) ← redPlace s asn va k false
    let (s2, xs) ← redLoad asn k (va + BitVec.ofNat 64 k) n s1
    .ok (s2, s1.readLoc l k :: xs)

/-- Store elements. -/
def redStore (asn : BitVec 16) (k : Nat) (va : Word) : List Nat → State → Eff State
  | [], s => .ok s
  | x :: xs, s => do
    let (s1, l) ← redPlace s asn va k true
    redStore asn k (va + BitVec.ofNat 64 k) xs (s1.homeStore l x k)

/-- The descriptor at `pa`, with 0 for a word that cannot be read, and whether there is one (R72; DESIGN CHOICE, log 25). Single-bit errors are
corrected (R71). -/
def redFetch (s : State) (pa : Nat) : State × List Word × Bool :=
  let d := (List.range 8).map fun i => if s.badAt (pa + 8 * i) 8 then 0 else s.mem.word (pa + 8 * i)
  (s.correct pa 64, d, s.badAt pa 56)

/-- REDUCTION_DESCRIPTOR (R352): the innkeeper reads the next descriptor that is posted, and its source. A producer index that cannot be read is
read again later, and a descriptor or a source that cannot be read ends the reduction in error (R72; DESIGN CHOICE, log 25). -/
def execReductionDescriptor (s : State) : Host.Outcome State Fault Refusal :=
  if s.redBase = 0 || s.red.isSome || s.badAt s.redBase 8 || (s.mem.word s.redBase).toNat = s.redCons then .next s
  else
    let at_ := s.redBase + 64 + 64 * (s.redCons % 2 ^ s.redLog)
    let (s1, d, bad) := redFetch (s.correct s.redBase 8) at_
    let r := if !bad && redOk s d then (redLoad (redAsn d) (redBytes (redType d)) (redSrc d) (redCount d) s1).toOption else none
    .next { (r.map Prod.fst).getD s1 with redCons := (s.redCons + 1) % 2 ^ 64, red := some ⟨at_, d, r.map Prod.snd⟩ }

/-- One addition of the loop of R353: wrapping, or rounded to fp32. -/
def redAdd (type : Nat) (x y : Nat) : Nat :=
  if type = 2 then
    let a := fp32.value x
    let b := fp32.value y
    (withNaNs 32 [a, b] ((a.add b).round 32)).1
  else (x + y) % 2 ^ (8 * redBytes type)

/-- The sum in rank order, element by element. -/
def redSum (type : Nat) : List (List Nat) → List Nat
  | [] => []
  | r :: rs => rs.foldl (fun acc x => acc.zipWith (redAdd type) x) r

/-- The contributions of ranks `r`, `r + 1`, … among the members. -/
def byRank (cs : List Contribution) (r : Nat) : Nat → Option (List Contribution)
  | 0 => some []
  | n + 1 => match cs.find? fun c => c.rank = r with | none => none | some c => (byRank cs (r + 1) n).map fun t => c :: t

/-- The end of a reduction: RESULT, then CTARGET (R268, R352, R353). -/
def redEnd (s : State) (x : Reduction) (result : Word) : State :=
  let s1 := { s.homeStore (.mem (x.at_ + 56)) result.toNat 8 with red := none }
  let t := wordAt x.desc 4
  if t = 0 then s1
  else
    match enginePlace s1 (redAsn x.desc) t 64 true true with
    | .error _ => s1
    | .ok (s2, pa) => (s2.homeRun pa 64).countDown 0 pa t (redAsn x.desc)

/-- REDUCTION_RESULT (R353): with the contributions of all other members the sum is formed in rank order and stored; members that differ in
STEP, TYPE or COUNT end in error. -/
def execReductionResult (s : State) : Host.Outcome State Fault Refusal :=
  match s.red with
  | none => .next s
  | some x =>
    match x.elems with
    | none => .next (redEnd s x 1)
    | some es =>
      let d := x.desc
      let own : Contribution := ⟨s.redRank, wordAt d 3, BitVec.ofNat 8 (redType d), BitVec.ofNat 32 (redCount d), es⟩
      match byRank (own :: s.ev.others) 0 (s.ev.others.length + 1) with
      | none => .next s
      | some cs =>
        if cs.any fun c => c.step ≠ own.step || c.type ≠ own.type || c.count ≠ own.count || c.elems.length ≠ es.length then .next (redEnd s x 1)
        else
          match redStore (redAsn d) (redBytes (redType d)) (redDst d) (redSum (redType d) (cs.map Contribution.elems)) s with
          | .error _ => .next (redEnd s x 1)
          | .ok s1 => .next (redEnd s1 x 0)

end Sys2Proof.Machine
end

