-- ==== Sys2Proof/Machine/Vector.lean ====
section
/-!
DEFINITION. Sys2Proof/Machine/Vector.lean: vector length and type (R180, R181), passes (R183), and the vector instructions of
majors 0x41 to 0x57 (R185 to R196).
-/

namespace Sys2Proof.Machine

/-! ### VSETL (R181) -/

/-- VSETL (R181): VL and VTYPE with latency 3, s_d with latency 1. -/
def execVsetl (d a : Fin 32) (vt : BitVec 5) (s : State) : Host.Outcome State Fault Refusal :=
  let t : BitVec 16 := vt.setWidth 16
  let vl := min (s.rs a).toNat (vlMax t)
  .next ((s.post 3 (.vset (BitVec.ofNat 16 vl) t)).postS 1 d (BitVec.ofNat 64 vl))

/-! ### Passes (R183) -/

/-- Delivery counts from the last pass (R183). -/
def passLat (c : VecCfg) (l : Nat) : Nat := l + (c.group - 1)

/-- The format trap of a slot that needs 32-bit elements (R184). -/
def need32 (s : State) (k : Fin 8) (c : VecCfg) : Eff Unit :=
  if c.ew = 32 then .ok () else (coreWho s k).trap 0x0D ((s.opn.regs.coreVl[k.val]).2.setWidth 64)

/-! ### The shape of a vector slot (R182) -/

/-- What a slot does in each enabled core, once its fields are checked and unless it is empty. -/
def vecSlot (s : State) (width : Fin 4) (groups : List (Fin 16)) (wide : Bool)
    (f : Fin 8 → VecCfg → Nat → State → State) : Host.Outcome State Fault Refusal :=
  outcome s (eachCore (fun k t => do
    let c := s.vcfg k
    vecFields s k width groups
    if wide then need32 s k c
    let n := c.count width
    .ok (if n = 0 then t else f k c n t)) s)

/-- Post a group's elements and the flags they set. -/
def putElems (k : Fin 8) (c : VecCfg) (lat : Nat) (vd : Fin 16) (ew : Nat) (es : List (ElemWrite × BitVec 32)) (t : State) : State :=
  (t.postElems k (passLat c lat) vd ew (es.map Prod.fst)).postFlags k (passLat c lat) ((es.map Prod.snd).foldl (· ||| ·) 0)

/-- An elementwise slot: each active element takes its result and sets its flags, the others follow the policies. -/
def vecMap (s : State) (width msel : Fin 4) (lat : Nat) (vd : Fin 16) (groups : List (Fin 16)) (wide : Bool)
    (f : Fin 8 → VecCfg → Nat → Flagged) : Host.Outcome State Fault Refusal :=
  vecSlot s width (vd :: groups) wide fun k c n t =>
    putElems k c lat vd c.ew ((List.range c.max).map fun i =>
      if s.active k msel n i then let r := f k c i; (some r.1, r.2) else (c.policy c.ew n i, 0)) t

/-- An elementwise slot of two groups: `op ew x y`. -/
def vecBin (s : State) (vd va vb : Fin 16) (width msel : Fin 4) (lat : Nat) (op : Nat → Nat → Nat → Flagged) :
    Host.Outcome State Fault Refusal :=
  vecMap s width msel lat vd [va, vb] false fun k c i => op c.ew (s.elem k va c.ew i) (s.elem k vb c.ew i)

/-- An elementwise slot of two groups and the old destination: `op ew x y d`. -/
def vecTer (s : State) (vd va vb : Fin 16) (width msel : Fin 4) (lat : Nat) (wide : Bool) (op : Nat → Nat → Nat → Nat → Flagged) :
    Host.Outcome State Fault Refusal :=
  vecMap s width msel lat vd [va, vb] wide fun k c i =>
    op c.ew (s.elem k va c.ew i) (s.elem k vb c.ew i) (s.elem k vd c.ew i)

/-- An elementwise slot of one group: `op ew x`. -/
def vecUn (s : State) (vd va : Fin 16) (width msel : Fin 4) (lat : Nat) (op : Nat → Nat → Flagged) : Host.Outcome State Fault Refusal :=
  vecMap s width msel lat vd [va] false fun k c i => op c.ew (s.elem k va c.ew i)

/-! ### Integer instructions (Table 09.6) -/

/-- An integer as a pattern of `ew` bits. -/
def pat (ew : Nat) (x : Int) : Nat := (x % (2 ^ ew : Nat)).toNat

/-- A result without flags. -/
def plain (f : Nat → Nat → Nat → Int) (ew x y : Nat) : Flagged := (pat ew (f ew x y), 0)

/-- Clamp to the signed range of `ew` bits, setting SAT. -/
def satS (ew : Nat) (x : Int) : Flagged :=
  let r := clampInt x (-(2 ^ (ew - 1) : Nat)) ((2 ^ (ew - 1) : Nat) - 1)
  (pat ew r, flagIf (r ≠ x) flSAT)

/-- Clamp to the unsigned range of `ew` bits, setting SAT. -/
def satU (ew : Nat) (x : Int) : Flagged :=
  let r := clampInt x 0 ((2 ^ ew : Nat) - 1)
  (pat ew r, flagIf (r ≠ x) flSAT)

/-- xs of R185. -/
def sg (ew x : Nat) : Int := sextNat ew x

/-- sh of R185. -/
def shOf (ew y : Nat) : Nat := y % ew

/-- Arithmetic shift right of an integer. -/
def sarInt (x : Int) (n : Nat) : Int := x / (2 ^ n : Nat)

/-- VADD (R185). -/
def execVadd (vd va vb : Fin 16) (width msel : Fin 4) (s : State) : Host.Outcome State Fault Refusal :=
  vecBin s vd va vb width msel 2 (plain fun _ x y => (x : Int) + y)

/-- VSUB (R185). -/
def execVsub (vd va vb : Fin 16) (width msel : Fin 4) (s : State) : Host.Outcome State Fault Refusal :=
  vecBin s vd va vb width msel 2 (plain fun _ x y => (x : Int) - y)

/-- VADDS (R185). -/
def execVadds (vd va vb : Fin 16) (width msel : Fin 4) (s : State) : Host.Outcome State Fault Refusal :=
  vecBin s vd va vb width msel 2 fun ew x y => satS ew (sg ew x + sg ew y)

/-- VSUBS (R185). -/
def execVsubs (vd va vb : Fin 16) (width msel : Fin 4) (s : State) : Host.Outcome State Fault Refusal :=
  vecBin s vd va vb width msel 2 fun ew x y => satS ew (sg ew x - sg ew y)

/-- VADDUS (R185). -/
def execVaddus (vd va vb : Fin 16) (width msel : Fin 4) (s : State) : Host.Outcome State Fault Refusal :=
  vecBin s vd va vb width msel 2 fun ew x y => satU ew ((x : Int) + y)

/-- VSUBUS (R185). -/
def execVsubus (vd va vb : Fin 16) (width msel : Fin 4) (s : State) : Host.Outcome State Fault Refusal :=
  vecBin s vd va vb width msel 2 fun ew x y => satU ew ((x : Int) - y)

/-- VAVG (R185). -/
def execVavg (vd va vb : Fin 16) (width msel : Fin 4) (s : State) : Host.Outcome State Fault Refusal :=
  vecBin s vd va vb width msel 2 (plain fun ew x y => (sg ew x + sg ew y + 1) / 2)

/-- VABD (R185). -/
def execVabd (vd va vb : Fin 16) (width msel : Fin 4) (s : State) : Host.Outcome State Fault Refusal :=
  vecBin s vd va vb width msel 2 (plain fun ew x y => ((sg ew x - sg ew y).natAbs : Int))

/-- VMUL (R185). -/
def execVmul (vd va vb : Fin 16) (width msel : Fin 4) (s : State) : Host.Outcome State Fault Refusal :=
  vecBin s vd va vb width msel 3 (plain fun _ x y => (x : Int) * y)

/-- VMULHS (R185). -/
def execVmulhs (vd va vb : Fin 16) (width msel : Fin 4) (s : State) : Host.Outcome State Fault Refusal :=
  vecBin s vd va vb width msel 3 (plain fun ew x y => sarInt (sg ew x * sg ew y) ew)

/-- VMULHU (R185). -/
def execVmulhu (vd va vb : Fin 16) (width msel : Fin 4) (s : State) : Host.Outcome State Fault Refusal :=
  vecBin s vd va vb width msel 3 (plain fun ew x y => sarInt ((x : Int) * y) ew)

/-- VMULQ (R185). -/
def execVmulq (vd va vb : Fin 16) (width msel : Fin 4) (s : State) : Host.Outcome State Fault Refusal :=
  vecBin s vd va vb width msel 3 fun ew x y => satS ew (sarInt (sg ew x * sg ew y + (2 ^ (ew - 2) : Nat)) (ew - 1))

/-- VMAC (R185). -/
def execVmac (vd va vb : Fin 16) (width msel : Fin 4) (s : State) : Host.Outcome State Fault Refusal :=
  vecTer s vd va vb width msel 3 false fun ew x y d => (pat ew ((d : Int) + x * y), 0)

/-- VMSUB (R185). -/
def execVmsub (vd va vb : Fin 16) (width msel : Fin 4) (s : State) : Host.Outcome State Fault Refusal :=
  vecTer s vd va vb width msel 3 false fun ew x y d => (pat ew ((d : Int) - x * y), 0)

/-- VMACS (R185): the exact value is clamped once. -/
def execVmacs (vd va vb : Fin 16) (width msel : Fin 4) (s : State) : Host.Outcome State Fault Refusal :=
  vecTer s vd va vb width msel 3 false fun ew x y d => satS ew (sg ew d + sg ew x * sg ew y)

/-- VDOT2 (R184, R185). -/
def execVdot2 (vd va vb : Fin 16) (width msel : Fin 4) (s : State) : Host.Outcome State Fault Refusal :=
  vecTer s vd va vb width msel 3 true fun ew x y d =>
    (pat ew ((d : Int) + sg 16 x * sg 16 y + sg 16 (x / 65536) * sg 16 (y / 65536)), 0)

/-- VAND (R185). -/
def execVand (vd va vb : Fin 16) (width msel : Fin 4) (s : State) : Host.Outcome State Fault Refusal :=
  vecBin s vd va vb width msel 2 fun _ x y => (x &&& y, 0)

/-- VOR (R185). -/
def execVor (vd va vb : Fin 16) (width msel : Fin 4) (s : State) : Host.Outcome State Fault Refusal :=
  vecBin s vd va vb width msel 2 fun _ x y => (x ||| y, 0)

/-- VXOR (R185). -/
def execVxor (vd va vb : Fin 16) (width msel : Fin 4) (s : State) : Host.Outcome State Fault Refusal :=
  vecBin s vd va vb width msel 2 fun _ x y => (x ^^^ y, 0)

/-- VANDN (R185). -/
def execVandn (vd va vb : Fin 16) (width msel : Fin 4) (s : State) : Host.Outcome State Fault Refusal :=
  vecBin s vd va vb width msel 2 fun ew x y => (x &&& (ones ew ^^^ y), 0)

/-- VSLL (R185). -/
def execVsll (vd va vb : Fin 16) (width msel : Fin 4) (s : State) : Host.Outcome State Fault Refusal :=
  vecBin s vd va vb width msel 2 (plain fun ew x y => (x * 2 ^ shOf ew y : Nat))

/-- VSRL (R185). -/
def execVsrl (vd va vb : Fin 16) (width msel : Fin 4) (s : State) : Host.Outcome State Fault Refusal :=
  vecBin s vd va vb width msel 2 (plain fun ew x y => (x / 2 ^ shOf ew y : Nat))

/-- VSRA (R185). -/
def execVsra (vd va vb : Fin 16) (width msel : Fin 4) (s : State) : Host.Outcome State Fault Refusal :=
  vecBin s vd va vb width msel 2 (plain fun ew x y => sarInt (sg ew x) (shOf ew y))

/-- VROT (R185). -/
def execVrot (vd va vb : Fin 16) (width msel : Fin 4) (s : State) : Host.Outcome State Fault Refusal :=
  vecBin s vd va vb width msel 2 (plain fun ew x y => (x * 2 ^ shOf ew y % 2 ^ ew + x / 2 ^ (ew - shOf ew y) : Nat))

/-- VSLLI (R185). -/
def execVslli (vd va imm : Fin 16) (width msel : Fin 4) (s : State) : Host.Outcome State Fault Refusal :=
  vecUn s vd va width msel 2 fun ew x => (pat ew (x * 2 ^ imm.val : Nat), 0)

/-- VSRLI (R185). -/
def execVsrli (vd va imm : Fin 16) (width msel : Fin 4) (s : State) : Host.Outcome State Fault Refusal :=
  vecUn s vd va width msel 2 fun _ x => (x / 2 ^ imm.val, 0)

/-- VSRAI (R185). -/
def execVsrai (vd va imm : Fin 16) (width msel : Fin 4) (s : State) : Host.Outcome State Fault Refusal :=
  vecUn s vd va width msel 2 fun ew x => (pat ew (sarInt (sg ew x) imm.val), 0)

/-- VSRAR (R185). -/
def execVsrar (vd va imm : Fin 16) (width msel : Fin 4) (s : State) : Host.Outcome State Fault Refusal :=
  vecUn s vd va width msel 2 fun ew x =>
    (if imm.val = 0 then x else pat ew (sarInt (sg ew x + (2 ^ (imm.val - 1) : Nat)) imm.val), 0)

/-- VMIN (R185). -/
def execVmin (vd va vb : Fin 16) (width msel : Fin 4) (s : State) : Host.Outcome State Fault Refusal :=
  vecBin s vd va vb width msel 2 (plain fun ew x y => if sg ew x ≤ sg ew y then sg ew x else sg ew y)

/-- VMAX (R185). -/
def execVmax (vd va vb : Fin 16) (width msel : Fin 4) (s : State) : Host.Outcome State Fault Refusal :=
  vecBin s vd va vb width msel 2 (plain fun ew x y => if sg ew x ≤ sg ew y then sg ew y else sg ew x)

/-- VMINU (R185). -/
def execVminu (vd va vb : Fin 16) (width msel : Fin 4) (s : State) : Host.Outcome State Fault Refusal :=
  vecBin s vd va vb width msel 2 fun _ x y => (min x y, 0)

/-- VMAXU (R185). -/
def execVmaxu (vd va vb : Fin 16) (width msel : Fin 4) (s : State) : Host.Outcome State Fault Refusal :=
  vecBin s vd va vb width msel 2 fun _ x y => (max x y, 0)

/-! ### Compares and masks (R186 to R188) -/

/-- The 256 bits of a mask destination: active bits take the relation, bits below n the mask policy, the others the tail
policy (R186). -/
def maskElems (s : State) (k : Fin 8) (msel : Fin 4) (c : VecCfg) (n : Nat) (f : Nat → Bool) : List ElemWrite :=
  (List.range 256).map fun i => if s.active k msel n i then some (f i).toNat else c.policy 1 n i

/-- A compare into mask m_d: `rel ew x y` with the flags it sets (R186). -/
def vecCmp (s : State) (vd va vb : Fin 16) (width msel : Fin 4) (lat : Nat) (rel : Nat → Nat → Nat → Bool × BitVec 32) :
    Host.Outcome State Fault Refusal :=
  vecSlot s width [va, vb] false fun k c n t =>
    let r (i : Nat) := rel c.ew (s.elem k va c.ew i) (s.elem k vb c.ew i)
    let fl := ((List.range n).filter (s.active k msel n)).foldl (fun f i => f ||| (r i).2) (0 : BitVec 32)
    (t.postMask k (passLat c lat) (Fin.ofNat 4 vd.val) (maskElems s k msel c n fun i => (r i).1)).postFlags k (passLat c lat) fl

/-- VCEQ (R186). -/
def execVceq (vd va vb : Fin 16) (width msel : Fin 4) (s : State) : Host.Outcome State Fault Refusal :=
  vecCmp s vd va vb width msel 2 fun _ x y => (decide (x = y), 0)

/-- VCLT (R186). -/
def execVclt (vd va vb : Fin 16) (width msel : Fin 4) (s : State) : Host.Outcome State Fault Refusal :=
  vecCmp s vd va vb width msel 2 fun ew x y => (decide (sg ew x < sg ew y), 0)

/-- VCLTU (R186). -/
def execVcltu (vd va vb : Fin 16) (width msel : Fin 4) (s : State) : Host.Outcome State Fault Refusal :=
  vecCmp s vd va vb width msel 2 fun _ x y => (decide (x < y), 0)

/-- VCLE (R186). -/
def execVcle (vd va vb : Fin 16) (width msel : Fin 4) (s : State) : Host.Outcome State Fault Refusal :=
  vecCmp s vd va vb width msel 2 fun ew x y => (decide (sg ew x ≤ sg ew y), 0)

/-- VFEQ (R177, R186). -/
def execVfeq (vd va vb : Fin 16) (width msel : Fin 4) (s : State) : Host.Outcome State Fault Refusal :=
  vecCmp s vd va vb width msel 4 fun ew x y => (fEq ew x y, 0)

/-- VFLT (R177, R186). -/
def execVflt (vd va vb : Fin 16) (width msel : Fin 4) (s : State) : Host.Outcome State Fault Refusal :=
  vecCmp s vd va vb width msel 4 fun ew x y => (fLt ew x y, flagIf (anySNaN ew x y) flNV)

/-- VFLE (R177, R186). -/
def execVfle (vd va vb : Fin 16) (width msel : Fin 4) (s : State) : Host.Outcome State Fault Refusal :=
  vecCmp s vd va vb width msel 4 fun ew x y => (fLt ew x y || fEq ew x y, flagIf (anySNaN ew x y) flNV)

/-- VFTOT (R177, R186). -/
def execVftot (vd va vb : Fin 16) (width msel : Fin 4) (s : State) : Host.Outcome State Fault Refusal :=
  vecCmp s vd va vb width msel 4 fun ew x y => (decide (orderKey ew x < orderKey ew y), 0)

/-- A mask result: bits below n from `f`, the others by the tail policy (R187). -/
def maskOp (s : State) (vd : Fin 16) (width : Fin 4) (f : Fin 8 → Nat → Bool) : Host.Outcome State Fault Refusal :=
  vecSlot s width [] false fun k c n t =>
    t.postMask k (passLat c 1) (Fin.ofNat 4 vd.val)
      ((List.range 256).map fun i => if i < n then some (f k i).toNat else c.policy 1 n i)

/-- Bit `i` of the mask that a field names. -/
def State.maskBit (s : State) (k : Fin 8) (m : Fin 16) (i : Nat) : Bool := (s.rm k (Fin.ofNat 4 m.val)).getLsbD i

/-- MAND (R187). -/
def execMand (vd va vb : Fin 16) (width : Fin 4) (s : State) : Host.Outcome State Fault Refusal :=
  maskOp s vd width fun k i => s.maskBit k va i && s.maskBit k vb i

/-- MOR (R187). -/
def execMor (vd va vb : Fin 16) (width : Fin 4) (s : State) : Host.Outcome State Fault Refusal :=
  maskOp s vd width fun k i => s.maskBit k va i || s.maskBit k vb i

/-- MXOR (R187). -/
def execMxor (vd va vb : Fin 16) (width : Fin 4) (s : State) : Host.Outcome State Fault Refusal :=
  maskOp s vd width fun k i => s.maskBit k va i != s.maskBit k vb i

/-- MNOT (R187). -/
def execMnot (vd va : Fin 16) (width : Fin 4) (s : State) : Host.Outcome State Fault Refusal :=
  maskOp s vd width fun k i => !s.maskBit k va i

/-- MSET (R187). -/
def execMset (vd : Fin 16) (width : Fin 4) (s : State) : Host.Outcome State Fault Refusal := maskOp s vd width fun _ _ => true

/-- MCLR (R187). -/
def execMclr (vd : Fin 16) (width : Fin 4) (s : State) : Host.Outcome State Fault Refusal := maskOp s vd width fun _ _ => false

/-- The active elements whose bit in mask m_a is 1. -/
def maskHits (s : State) (k : Fin 8) (msel : Fin 4) (n : Nat) (va : Fin 16) : List Nat :=
  (List.range n).filter fun i => s.active k msel n i && s.maskBit k va i

/-- MPOPC (R187). -/
def execMpopc (vd va : Fin 16) (width msel : Fin 4) (s : State) : Host.Outcome State Fault Refusal :=
  vecSlot s width [] false fun k c n t =>
    t.postCore k (passLat c 1) (.a vd (BitVec.ofNat 64 (maskHits s k msel n va).length))

/-- MFIRST (R187). -/
def execMfirst (vd va : Fin 16) (width msel : Fin 4) (s : State) : Host.Outcome State Fault Refusal :=
  vecSlot s width [] false fun k c n t =>
    t.postCore k (passLat c 1) (.a vd (match (maskHits s k msel n va).head? with | some i => BitVec.ofNat 64 i | none => BitVec.allOnes 64))

/-- VMERGE (R188): every element below n is written. -/
def execVmerge (vd va vb : Fin 16) (width msel : Fin 4) (s : State) : Host.Outcome State Fault Refusal :=
  vecMap s width 0 2 vd [va, vb] false fun k c i =>
    (if (s.rm k msel).getLsbD i then s.elem k va c.ew i else s.elem k vb c.ew i, 0)

/-- VSELM (R188). -/
def execVselm (vd va : Fin 16) (width msel : Fin 4) (s : State) : Host.Outcome State Fault Refusal :=
  vecMap s width msel 2 vd [] false fun k c i => (if s.maskBit k va i then ones c.ew else 0, 0)

/-! ### Float arithmetic (R189, R190) -/

/-- The value of an element. -/
def fv (ew x : Nat) : FVal := (fmtOf ew).value x

/-- VFADD (R189). -/
def execVfadd (vd va vb : Fin 16) (width msel : Fin 4) (s : State) : Host.Outcome State Fault Refusal :=
  vecBin s vd va vb width msel 4 fun ew x y => withNaNs ew [fv ew x, fv ew y] (((fv ew x).add (fv ew y)).round ew)

/-- VFSUB (R189). -/
def execVfsub (vd va vb : Fin 16) (width msel : Fin 4) (s : State) : Host.Outcome State Fault Refusal :=
  vecBin s vd va vb width msel 4 fun ew x y => withNaNs ew [fv ew x, fv ew y] (((fv ew x).add (fv ew y).negate).round ew)

/-- VFMIN (R178, R189). -/
def execVfmin (vd va vb : Fin 16) (width msel : Fin 4) (s : State) : Host.Outcome State Fault Refusal :=
  vecBin s vd va vb width msel 4 fun ew x y => fMinMax ew false x y

/-- VFMAX (R178, R189). -/
def execVfmax (vd va vb : Fin 16) (width msel : Fin 4) (s : State) : Host.Outcome State Fault Refusal :=
  vecBin s vd va vb width msel 4 fun ew x y => fMinMax ew true x y

/-- VFMUL (R189). -/
def execVfmul (vd va vb : Fin 16) (width msel : Fin 4) (s : State) : Host.Outcome State Fault Refusal :=
  vecBin s vd va vb width msel 4 fun ew x y => withNaNs ew [fv ew x, fv ew y] (((fv ew x).mul (fv ew y)).round ew)

/-- VFMA (R189). -/
def execVfma (vd va vb : Fin 16) (width msel : Fin 4) (s : State) : Host.Outcome State Fault Refusal :=
  vecTer s vd va vb width msel 4 false fun ew x y d => fusedMA ew (fv ew x) (fv ew y) (fv ew d)

/-- VFMS (R189). -/
def execVfms (vd va vb : Fin 16) (width msel : Fin 4) (s : State) : Host.Outcome State Fault Refusal :=
  vecTer s vd va vb width msel 4 false fun ew x y d => fusedMA ew (fv ew x) (fv ew y) (fv ew d).negate

/-- VFNMA (R189). -/
def execVfnma (vd va vb : Fin 16) (width msel : Fin 4) (s : State) : Host.Outcome State Fault Refusal :=
  vecTer s vd va vb width msel 4 false fun ew x y d => fusedMA ew (fv ew x).negate (fv ew y) (fv ew d)

/-- VFABS (R189): acts on bits. -/
def execVfabs (vd va : Fin 16) (width msel : Fin 4) (s : State) : Host.Outcome State Fault Refusal :=
  vecUn s vd va width msel 2 fun ew x => (x % 2 ^ (ew - 1), 0)

/-- VFNEG (R189): acts on bits. -/
def execVfneg (vd va : Fin 16) (width msel : Fin 4) (s : State) : Host.Outcome State Fault Refusal :=
  vecUn s vd va width msel 2 fun ew x => (x ^^^ 2 ^ (ew - 1), 0)

/-- VFSQRT (R189). -/
def execVfsqrt (vd va : Fin 16) (width msel : Fin 4) (s : State) : Host.Outcome State Fault Refusal :=
  vecUn s vd va width msel 12 fSqrt

/-- VFRCP (R189). -/
def execVfrcp (vd va : Fin 16) (width msel : Fin 4) (s : State) : Host.Outcome State Fault Refusal :=
  vecUn s vd va width msel 12 fRcp

/-- VI2F (R190). -/
def execVi2f (vd va : Fin 16) (u : Bool) (width msel : Fin 4) (s : State) : Host.Outcome State Fault Refusal :=
  vecUn s vd va width msel 4 fun ew x => intToFloat ew u x

/-- VF2I (R190). -/
def execVf2i (vd va : Fin 16) (u rtz : Bool) (width msel : Fin 4) (s : State) : Host.Outcome State Fault Refusal :=
  vecUn s vd va width msel 4 fun ew x => floatToInt ew u rtz x

/-- VFWID (R184, R190; flags: DEDUCED, log 27). -/
def execVfwid (vd va : Fin 16) (width msel : Fin 4) (s : State) : Host.Outcome State Fault Refusal :=
  vecMap s width msel 4 vd [va] true fun k _ i => convertFloat 16 32 (s.elem k va 16 i)

/-- VFNAR (R184, R190): the results are 16 bits wide, and so are the elements that the policies write. -/
def execVfnar (vd va : Fin 16) (width msel : Fin 4) (s : State) : Host.Outcome State Fault Refusal :=
  vecSlot s width [vd, va] true fun k c n t =>
    putElems k c 4 vd 16 ((List.range c.max).map fun i =>
      if s.active k msel n i then let r := convertFloat 32 16 (s.elem k va 32 i); (some r.1, r.2) else (c.policy 16 n i, 0)) t

/-! ### Reductions and dot products (R191, R192) -/

/-- A slot that writes element 0; the elements above it follow the tail policy. `f` sees the active element numbers. -/
def vecRed (s : State) (vd : Fin 16) (groups : List (Fin 16)) (width msel : Fin 4) (lat : Nat)
    (f : Fin 8 → VecCfg → List Nat → Flagged) : Host.Outcome State Fault Refusal :=
  vecSlot s width (vd :: groups) false fun k c n t =>
    let r := f k c ((List.range n).filter (s.active k msel n))
    putElems k c lat vd c.ew ((some (r.1 % 2 ^ c.ew), r.2) :: (List.range (c.max - 1)).map fun _ => (c.policy c.ew 0 0, 0)) t

/-- VREDSUM (R191). -/
def execVredsum (vd va vb : Fin 16) (width msel : Fin 4) (s : State) : Host.Outcome State Fault Refusal :=
  vecRed s vd [va, vb] width msel 6 fun k c is => (is.foldl (fun n i => n + s.elem k va c.ew i) (s.elem k vb c.ew 0), 0)

/-- A signed fold (R191). -/
def redFold (s : State) (k : Fin 8) (c : VecCfg) (va vb : Fin 16) (pick : Int → Int → Int) (is : List Nat) : Flagged :=
  (pat c.ew (is.foldl (fun n i => pick n (sg c.ew (s.elem k va c.ew i))) (sg c.ew (s.elem k vb c.ew 0))), 0)

/-- VREDMAX (R191). -/
def execVredmax (vd va vb : Fin 16) (width msel : Fin 4) (s : State) : Host.Outcome State Fault Refusal :=
  vecRed s vd [va, vb] width msel 6 fun k c is => redFold s k c va vb (fun a b => if a ≤ b then b else a) is

/-- VREDMIN (R191). -/
def execVredmin (vd va vb : Fin 16) (width msel : Fin 4) (s : State) : Host.Outcome State Fault Refusal :=
  vecRed s vd [va, vb] width msel 6 fun k c is => redFold s k c va vb (fun a b => if a ≤ b then a else b) is

/-- The element of the best rank, the lowest index among equals (R178, R191). -/
def bestOf (better : Int → Int → Bool) (rank : Nat → Int) : List Nat → Option Nat → Option Nat
  | [], b => b
  | i :: is, none => bestOf better rank is (some i)
  | i :: is, some j => bestOf better rank is (some (if better (rank i) (rank j) then i else j))

/-- The arg forms (R191): vb 0 is max, 1 min. -/
def redArg (c : VecCfg) (vb : Fin 16) (rank : Nat → Int) (is : List Nat) : Flagged :=
  ((bestOf (fun a b => if vb.val = 0 then decide (b < a) else decide (a < b)) rank is none).getD (ones c.ew), 0)

/-- VREDARG (R191). -/
def execVredarg (vd va vb : Fin 16) (width msel : Fin 4) (s : State) : Host.Outcome State Fault Refusal :=
  vecRed s vd [va] width msel 6 fun k c is => redArg c vb (fun i => sg c.ew (s.elem k va c.ew i)) is

/-- VFREDSUM (R179, R191). -/
def execVfredsum (vd va vb : Fin 16) (width msel : Fin 4) (s : State) : Host.Outcome State Fault Refusal :=
  vecRed s vd [va, vb] width msel 6 fun k c is =>
    fsum c.ew (s.elem k vb c.ew 0) (is.map fun i => (i, fv c.ew (s.elem k va c.ew i)))

/-- VFMAX or VFMIN folded (R191). -/
def fredFold (s : State) (k : Fin 8) (c : VecCfg) (va vb : Fin 16) (maxi : Bool) (is : List Nat) : Flagged :=
  let r := is.foldl (fun (r : Flagged) i =>
    let z := fMinMax c.ew maxi r.1 (s.elem k va c.ew i)
    (z.1, r.2 ||| z.2)) (s.elem k vb c.ew 0, 0)
  (passed c.ew r.1, r.2)

/-- VFREDMAX (R191). -/
def execVfredmax (vd va vb : Fin 16) (width msel : Fin 4) (s : State) : Host.Outcome State Fault Refusal :=
  vecRed s vd [va, vb] width msel 6 fun k c is => fredFold s k c va vb true is

/-- VFREDMIN (R191). -/
def execVfredmin (vd va vb : Fin 16) (width msel : Fin 4) (s : State) : Host.Outcome State Fault Refusal :=
  vecRed s vd [va, vb] width msel 6 fun k c is => fredFold s k c va vb false is

/-- VFREDARG (R178, R191). -/
def execVfredarg (vd va vb : Fin 16) (width msel : Fin 4) (s : State) : Host.Outcome State Fault Refusal :=
  vecRed s vd [va] width msel 6 fun k c is => redArg c vb (fun i => (orderRank c.ew (s.elem k va c.ew i) : Int)) is

/-- Byte `j` of a lane. -/
def byteOf (x j : Nat) : Nat := x / 2 ^ (8 * j) % 256

/-- The products of the bytes of two lanes. -/
def byteDot (f : Nat → Int) (x y : Nat) : Int := ((List.range 4).map fun j => f (byteOf x j) * f (byteOf y j)).foldl (· + ·) 0

/-- VIDOT (R192). -/
def execVidot (vd va vb : Fin 16) (width msel : Fin 4) (s : State) : Host.Outcome State Fault Refusal :=
  vecTer s vd va vb width msel 5 true fun _ x y d => satS 32 (sg 32 d + byteDot (sg 8) x y)

/-- VIDOTU (R192). -/
def execVidotu (vd va vb : Fin 16) (width msel : Fin 4) (s : State) : Host.Outcome State Fault Refusal :=
  vecTer s vd va vb width msel 5 true fun _ x y d => satU 32 ((d : Int) + byteDot (fun b => (b : Int)) x y)

/-- VFDOT (R192). -/
def execVfdot (vd va vb : Fin 16) (width msel : Fin 4) (s : State) : Host.Outcome State Fault Refusal :=
  vecTer s vd va vb width msel 5 true fun _ x y d =>
    gsum [fv 32 d, (fv 16 (x % 65536)).mul (fv 16 (y % 65536)), (fv 16 (x / 65536)).mul (fv 16 (y / 65536))]

/-- VFDOTA (R192). -/
def execVfdota (vd va vb : Fin 16) (width msel : Fin 4) (s : State) : Host.Outcome State Fault Refusal :=
  vecRed s vd [va, vb] width msel 5 fun k c is =>
    fsum c.ew (s.elem k vd c.ew 0) (is.map fun i => (i, (fv c.ew (s.elem k va c.ew i)).mul (fv c.ew (s.elem k vb c.ew i))))

/-! ### Permutes and moves (R193, R194) -/

/-- VGATH (R193). -/
def execVgath (vd va vb : Fin 16) (width msel : Fin 4) (s : State) : Host.Outcome State Fault Refusal :=
  vecMap s width msel 3 vd [va, vb] false fun k c i =>
    let j := s.elem k vb c.ew i
    (if j < c.max then s.elem k va c.ew j else 0, 0)

/-- VSLUP (R193): the elements below x are unchanged. -/
def execVslup (vd va vb : Fin 16) (width msel : Fin 4) (s : State) : Host.Outcome State Fault Refusal :=
  vecSlot s width [vd, va] false fun k c n t =>
    let x := (s.ra k vb).toNat
    putElems k c 3 vd c.ew ((List.range c.max).map fun i =>
      (if s.active k msel n i then (if i < x then none else some (s.elem k va c.ew (i - x))) else c.policy c.ew n i, 0)) t

/-- VSLDN (R193). -/
def execVsldn (vd va vb : Fin 16) (width msel : Fin 4) (s : State) : Host.Outcome State Fault Refusal :=
  vecMap s width msel 3 vd [va] false fun k c i =>
    let j := i + (s.ra k vb).toNat
    (if j < c.max then s.elem k va c.ew j else 0, 0)

/-- VCOMP (R193). -/
def execVcomp (vd va : Fin 16) (width msel : Fin 4) (s : State) : Host.Outcome State Fault Refusal :=
  vecSlot s width [vd, va] false fun k c n t =>
    let xs := ((List.range n).filter (s.active k msel n)).map fun i => s.elem k va c.ew i
    putElems k c 3 vd c.ew (xs.map (fun x => (some x, 0)) ++ (List.range (c.max - xs.length)).map fun _ => (c.policy c.ew 0 0, 0)) t

/-- VMV (R194). -/
def execVmv (vd va : Fin 16) (width msel : Fin 4) (s : State) : Host.Outcome State Fault Refusal :=
  vecUn s vd va width msel 3 fun _ x => (x, 0)

/-- vmv.rf (R182, R194): the flags delivered so far. -/
def execVmvRf (vd : Fin 16) (width : Fin 4) (s : State) : Host.Outcome State Fault Refusal :=
  vecSlot s width [] false fun k c _ t => t.postCore k (passLat c 3) (.a vd ((s.opn.snap.cores[k.val]).vflags.setWidth 64))

/-- vmv.cf (R182, R194). -/
def execVmvCf (va : Fin 16) (width : Fin 4) (s : State) : Host.Outcome State Fault Refusal :=
  vecSlot s width [] false fun k c _ t => t.postCore k (passLat c 3) (.clear ((s.ra k va).setWidth 32))

/-- VSPLAT (R193). -/
def execVsplat (vd vb : Fin 16) (width msel : Fin 4) (s : State) : Host.Outcome State Fault Refusal :=
  vecMap s width msel 3 vd [] false fun k c _ => ((s.ra k vb).toNat % 2 ^ c.ew, 0)

/-- VBCS (R193). -/
def execVbcs (vd va vb : Fin 16) (width msel : Fin 4) (s : State) : Host.Outcome State Fault Refusal :=
  vecMap s width msel 3 vd [va] false fun k c _ =>
    let x := (s.ra k vb).toNat
    (if x < c.max then s.elem k va c.ew x else 0, 0)

/-- VID (R193). -/
def execVid (vd : Fin 16) (width msel : Fin 4) (s : State) : Host.Outcome State Fault Refusal :=
  vecMap s width msel 3 vd [] false fun _ _ i => (i, 0)

/-! ### Block scales (R195, R196) -/

/-- Byte `b` of v_s as core `k` reads it. -/
def State.scaleByte (s : State) (k : Fin 8) (vs : Fin 16) (b : Nat) : Nat := (s.rv k vs).toNat / 2 ^ (8 * b) % 256

/-- The scale-count trap (R195): `n` elements need ⌈n/32⌉ scales. -/
def scalesOk (s : State) (k : Fin 8) (vs : Fin 16) (n : Nat) : Eff Unit :=
  let need := (n + 31) / 32
  if s.scaleByte k vs 127 < need then (coreWho s k).trap 0x0E (BitVec.ofNat 64 need) else .ok ()

/-- VBSCL (R184, R195, R196). -/
def execVbscl (vd va vs : Fin 16) (width msel : Fin 4) (s : State) : Host.Outcome State Fault Refusal :=
  outcome s (eachCore (fun k t => do
    let c := s.vcfg k
    vecFields s k width [vd, va]
    need32 s k c
    let n := c.count width
    if n = 0 then .ok t
    else
      scalesOk s k vs n
      .ok (putElems k c 4 vd c.ew ((List.range c.max).map fun i =>
        if s.active k msel n i then
          let r := scaleFloat (s.elem k va 32 i) (s.scaleByte k vs (i / 32))
          (some r.1, r.2)
        else (c.policy c.ew n i, 0)) t)) s)

end Sys2Proof.Machine
end

