-- ==== Sys2Proof/Machine/Pack.lean ====
section
/-!
DEFINITION. Sys2Proof/Machine/Pack.lean: the unpack and pack units: packed elements (R172, R197), UPKI, UPKF, UPKB (R198), PCKI,
PCKF, PCKB (R199), PSCL (R200).
-/

namespace Sys2Proof.Machine

/-! ### Packed elements (R172, R197) -/

/-- A packed format: bits of an element, elements in a lane, signed. -/
structure PackFmt where
  b : Nat
  k : Nat
  signed : Bool
deriving DecidableEq, Repr

/-- The integer formats of Table 09.8. -/
def packInt (fmt : Fin 8) : PackFmt :=
  let sgn := fmt.val % 2 = 0
  match fmt.val / 2 with | 0 => ⟨4, 8, sgn⟩ | 1 => ⟨6, 5, sgn⟩ | 2 => ⟨8, 4, sgn⟩ | _ => ⟨16, 2, sgn⟩

/-- The float formats of Table 09.8. -/
def packFlt (fmt : Nat) : PackFmt :=
  match fmt with | 0 => ⟨8, 4, true⟩ | 1 => ⟨8, 4, true⟩ | 2 => ⟨6, 5, true⟩ | 3 => ⟨4, 8, true⟩ | _ => ⟨16, 2, true⟩

/-- The binary format. -/
def packBin : PackFmt := ⟨1, 32, false⟩

/-- The lowest bit of packed element `j` in its group. -/
def PackFmt.pos (p : PackFmt) (j : Nat) : Nat := 32 * (j / p.k) + p.b * (j % p.k)

/-- A group of registers as one number. -/
def State.groupNat (s : State) (k : Fin 8) (r : Fin 16) : Nat → Nat
  | 0 => 0
  | n + 1 => (s.rv k r).toNat + 2 ^ 1024 * s.groupNat k (regPlus r 1) n

/-- Post a write of a group of registers, given as one number and its mask. -/
def postGroup (k : Fin 8) (lat : Nat) (r : Fin 16) (x m : Nat) : Nat → State → State
  | 0, s => s
  | n + 1, s =>
    let s1 := if m % 2 ^ 1024 = 0 then s else s.postCore k lat (.v r (BitVec.ofNat 1024 x) (BitVec.ofNat 1024 m))
    postGroup k lat (regPlus r 1) (x / 2 ^ 1024) (m / 2 ^ 1024) n s1

/-- n of the unpack and pack slots (R197). -/
def VecCfg.full (c : VecCfg) : Nat := min c.vl c.max

/-- The format trap of a slot whose packed elements pass the end of the group (R197). -/
def packRoom (s : State) (k : Fin 8) (c : VecCfg) (p : PackFmt) (p0 : Nat) : Eff Unit :=
  if 32 * c.group * p.k < p0 + c.full then (coreWho s k).trap 0x0D (BitVec.ofNat 64 (p0 + c.full)) else .ok ()

/-- The checks of an unpack or pack slot, in order: groups, element width, packed range, scales (R182, R184, R195, R197). -/
def packChecks (s : State) (k : Fin 8) (groups : List (Fin 16)) (p : PackFmt) (p0 : Nat) (wide : Bool) (vs : Option (Fin 16)) :
    Eff Unit := do
  let c := s.vcfg k
  vecFields s k 0 groups
  if wide then need32 s k c
  packRoom s k c p p0
  match vs with
  | some r => if c.full = 0 then .ok () else scalesOk s k r c.full
  | none => .ok ()

/-! ### Unpack (R198) -/

/-- An unpack slot: element `i` from the pattern of packed element p0 + i. -/
def unpackSlot (s : State) (vd va : Fin 16) (p : PackFmt) (part : Nat) (wide : Bool) (vs : Option (Fin 16))
    (f : Fin 8 → Nat → Nat → Nat → Flagged) : Host.Outcome State Fault Refusal :=
  outcome s (eachCore (fun k t => do
    let c := s.vcfg k
    packChecks s k [vd, va] p (part * c.max) wide vs
    let n := c.full
    let src := s.groupNat k va c.group
    .ok (if n = 0 then t
      else putElems k c 2 vd c.ew ((List.range c.max).map fun i =>
        if i < n then let r := f k c.ew i (src / 2 ^ p.pos (part * c.max + i) % 2 ^ p.b); (some r.1, r.2)
        else (c.policy c.ew n i, 0)) t)) s)

/-- UPKI (R198). -/
def execUpki (vd va : Fin 16) (fmt part : Fin 8) (s : State) : Host.Outcome State Fault Refusal :=
  let p := packInt fmt
  unpackSlot s vd va p part.val false none fun _ ew _ x => (if p.signed then pat ew (sextNat p.b x) else x, 0)

/-- UPKF (R195, R198; flags: DEDUCED, log 27). -/
def execUpkf (vd va vs : Fin 16) (fmt part : Fin 8) (s : State) : Host.Outcome State Fault Refusal :=
  unpackSlot s vd va (packFlt fmt.val) part.val (fmt.val = 4) (some vs) fun k ew i x =>
    unpackFloat fmt.val ew x (s.scaleByte k vs (i / 32))

/-- UPKB (R198). -/
def execUpkb (vd va part : Fin 16) (fl : Bool) (s : State) : Host.Outcome State Fault Refusal :=
  unpackSlot s vd va packBin part.val false none fun _ ew _ x =>
    (if fl then (fmtOf ew).signed (x = 0) (if ew = 32 then 0x3F800000 else 0x3F80) else pat ew (if x = 1 then 1 else -1), 0)

/-! ### Pack (R199) -/

/-- The value and mask of packed elements from number `j` on. -/
def packRun (p : PackFmt) (j : Nat) : List Nat → Nat × Nat
  | [] => (0, 0)
  | x :: xs =>
    let r := packRun p (j + 1) xs
    (r.1 + x % 2 ^ p.b * 2 ^ p.pos j, r.2 + ones p.b * 2 ^ p.pos j)

/-- Bits 31:30 of the lanes that elements `j` to `j + n - 1` lie in, for the 6-bit formats. -/
def padMask (p : PackFmt) (j n : Nat) : Nat :=
  if p.b ≠ 6 || n = 0 then 0
  else ((List.range ((j + n - 1) / p.k + 1 - j / p.k)).map fun i => 3 * 2 ^ (32 * (j / p.k + i) + 30)).foldl (· + ·) 0

/-- A pack slot: the pattern of packed element p0 + i from element `i`. -/
def packSlot (s : State) (vd va : Fin 16) (p : PackFmt) (part : Nat) (wide : Bool) (vs : Option (Fin 16))
    (f : Fin 8 → Nat → Nat → Nat → Flagged) : Host.Outcome State Fault Refusal :=
  outcome s (eachCore (fun k t => do
    let c := s.vcfg k
    packChecks s k [vd, va] p (part * c.max) wide vs
    let n := c.full
    let rs := (List.range n).map fun i => f k c.ew i (s.elem k va c.ew i)
    let r := packRun p (part * c.max) (rs.map Prod.fst)
    .ok ((postGroup k (passLat c 2) vd r.1 (r.2 + padMask p (part * c.max) n) c.group t).postFlags k (passLat c 2)
      ((rs.map Prod.snd).foldl (· ||| ·) 0))) s)

/-- PCKI (R199). -/
def execPcki (vd va : Fin 16) (fmt part : Fin 8) (s : State) : Host.Outcome State Fault Refusal :=
  let p := packInt fmt
  packSlot s vd va p part.val false none fun _ ew _ x => if p.signed then satS p.b (sg ew x) else satU p.b (sg ew x)

/-- PCKF (R195, R199; flags: DEDUCED, log 27). -/
def execPckf (vd va vs : Fin 16) (fmt part : Fin 8) (s : State) : Host.Outcome State Fault Refusal :=
  packSlot s vd va (packFlt fmt.val) part.val (fmt.val = 4) (some vs) fun k ew i x =>
    packFloat fmt.val ew x (s.scaleByte k vs (i / 32))

/-- PCKB (R199): 1 when the sign bit is 0. -/
def execPckb (vd va part : Fin 16) (_fl : Bool) (s : State) : Host.Outcome State Fault Refusal :=
  packSlot s vd va packBin part.val false none fun _ ew _ x => (1 - x / 2 ^ (ew - 1) % 2, 0)

/-- The bytes that PSCL writes: a scale for each block of 32 elements below n, zeros under tail agnostic, the count (R200). -/
def psclBytes (s : State) (k : Fin 8) (va : Fin 16) (fmt : Nat) (c : VecCfg) : List ElemWrite :=
  let n := c.full
  let blocks := (n + 31) / 32
  (List.range 128).map fun b =>
    if b = 127 then some blocks
    else if b < blocks then
      some (blockScale fmt (((List.range 32).filter fun i => 32 * b + i < n).map fun i => fv c.ew (s.elem k va c.ew (32 * b + i))))
    else if c.tpol then some 0 else none

/-- PSCL (R200): vd is one register. -/
def execPscl (vd va : Fin 16) (fmt : Fin 8) (s : State) : Host.Outcome State Fault Refusal :=
  outcome s (eachCore (fun k t => do
    let c := s.vcfg k
    vecFields s k 0 [va]
    .ok (if c.full = 0 then t else t.postElems k (passLat c 2) vd 8 (psclBytes s k va fmt.val c))) s)

end Sys2Proof.Machine
end

