-- ==== Sys2Proof/Machine/Dispatch.lean ====
section
/-!
DEFINITION. Sys2Proof/Machine/Dispatch.lean: the meaning of every constructor of `Instr`: one arm, one direct call.
-/

namespace Sys2Proof.Machine

def exec (i : Instr) (s : State) : Host.Outcome State Fault Refusal :=
  match i with
  | .ext value => Sys2Proof.Machine.execExt value s
  | .ord scope order => Sys2Proof.Machine.execOrd scope order s
  | .br disp => Sys2Proof.Machine.execBr disp s
  | .call disp => Sys2Proof.Machine.execCall disp s
  | .jalr d a => Sys2Proof.Machine.execJalr d a s
  | .loop level a fin => Sys2Proof.Machine.execLoop level a fin s
  | .loopx level => Sys2Proof.Machine.execLoopx level s
  | .loopc level => Sys2Proof.Machine.execLoopc level s
  | .wait ld st cp tl => Sys2Proof.Machine.execWait ld st cp tl s
  | .fence order scope => Sys2Proof.Machine.execFence order scope s
  | .trap imm => Sys2Proof.Machine.execTrap imm s
  | .bkpt imm => Sys2Proof.Machine.execBkpt imm s
  | .tlbinvPage a b => Sys2Proof.Machine.execTlbinvPage a b s
  | .tlblk a idx size => Sys2Proof.Machine.execTlblk a idx size s
  | .tlbunl idx => Sys2Proof.Machine.execTlbunl idx s
  | .ldblk d a n => Sys2Proof.Machine.execLdblk d a n s
  | .cflush a n => Sys2Proof.Machine.execCflush a n s
  | .cclean a n => Sys2Proof.Machine.execCclean a n s
  | .mfs d sr => Sys2Proof.Machine.execMfs d sr s
  | .mts a sr => Sys2Proof.Machine.execMts a sr s
  | .add d a b => Sys2Proof.Machine.execAdd d a b s
  | .sub d a b => Sys2Proof.Machine.execSub d a b s
  | .and d a b => Sys2Proof.Machine.execAnd d a b s
  | .or d a b => Sys2Proof.Machine.execOr d a b s
  | .xor d a b => Sys2Proof.Machine.execXor d a b s
  | .sll d a b => Sys2Proof.Machine.execSll d a b s
  | .srl d a b => Sys2Proof.Machine.execSrl d a b s
  | .sra d a b => Sys2Proof.Machine.execSra d a b s
  | .mul d a b => Sys2Proof.Machine.execMul d a b s
  | .mulhs d a b => Sys2Proof.Machine.execMulhs d a b s
  | .mulhu d a b => Sys2Proof.Machine.execMulhu d a b s
  | .min d a b => Sys2Proof.Machine.execMin d a b s
  | .max d a b => Sys2Proof.Machine.execMax d a b s
  | .minu d a b => Sys2Proof.Machine.execMinu d a b s
  | .maxu d a b => Sys2Proof.Machine.execMaxu d a b s
  | .andn d a b => Sys2Proof.Machine.execAndn d a b s
  | .addw d a b => Sys2Proof.Machine.execAddw d a b s
  | .subw d a b => Sys2Proof.Machine.execSubw d a b s
  | .sllw d a b => Sys2Proof.Machine.execSllw d a b s
  | .srlw d a b => Sys2Proof.Machine.execSrlw d a b s
  | .sraw d a b => Sys2Proof.Machine.execSraw d a b s
  | .mulw d a b => Sys2Proof.Machine.execMulw d a b s
  | .rotl d a b => Sys2Proof.Machine.execRotl d a b s
  | .rotr d a b => Sys2Proof.Machine.execRotr d a b s
  | .div d a b => Sys2Proof.Machine.execDiv d a b s
  | .divu d a b => Sys2Proof.Machine.execDivu d a b s
  | .rem d a b => Sys2Proof.Machine.execRem d a b s
  | .remu d a b => Sys2Proof.Machine.execRemu d a b s
  | .clz d a => Sys2Proof.Machine.execClz d a s
  | .ctz d a => Sys2Proof.Machine.execCtz d a s
  | .popc d a => Sys2Proof.Machine.execPopc d a s
  | .brev d a => Sys2Proof.Machine.execBrev d a s
  | .addi d a imm => Sys2Proof.Machine.execAddi d a imm s
  | .andi d a imm => Sys2Proof.Machine.execAndi d a imm s
  | .ori d a imm => Sys2Proof.Machine.execOri d a imm s
  | .xori d a imm => Sys2Proof.Machine.execXori d a imm s
  | .slli d a sh => Sys2Proof.Machine.execSlli d a sh s
  | .srli d a sh => Sys2Proof.Machine.execSrli d a sh s
  | .srai d a sh => Sys2Proof.Machine.execSrai d a sh s
  | .movi d imm => Sys2Proof.Machine.execMovi d imm s
  | .shori d imm => Sys2Proof.Machine.execShori d imm s
  | .cmp d a b cc => Sys2Proof.Machine.execCmp d a b cc s
  | .cmpi d a imm cc => Sys2Proof.Machine.execCmpi d a imm cc s
  | .pand d a b => Sys2Proof.Machine.execPand d a b s
  | .por d a b => Sys2Proof.Machine.execPor d a b s
  | .pxor d a b => Sys2Proof.Machine.execPxor d a b s
  | .pandn d a b => Sys2Proof.Machine.execPandn d a b s
  | .pnot d a => Sys2Proof.Machine.execPnot d a s
  | .pmov d a => Sys2Proof.Machine.execPmov d a s
  | .xput ad sa => Sys2Proof.Machine.execXput ad sa s
  | .xget sd ab rank => Sys2Proof.Machine.execXget sd ab rank s
  | .ld reg a size disp => Sys2Proof.Machine.execLd reg a size disp s
  | .ldu reg a size disp => Sys2Proof.Machine.execLdu reg a size disp s
  | .st reg a size disp => Sys2Proof.Machine.execSt reg a size disp s
  | .amo d a b op => Sys2Proof.Machine.execAmo d a b op s
  | .amow d a b op => Sys2Proof.Machine.execAmow d a b op s
  | .hld reg h size u disp => Sys2Proof.Machine.execHld reg h size u disp s
  | .hst reg h size disp => Sys2Proof.Machine.execHst reg h size disp s
  | .ldref hd m base disp => Sys2Proof.Machine.execLdref hd m base disp s
  | .stref hd m base disp => Sys2Proof.Machine.execStref hd m base disp s
  | .pin sd hb => Sys2Proof.Machine.execPin sd hb s
  | .unpin hb => Sys2Proof.Machine.execUnpin hb s
  | .hmov x y dir => Sys2Proof.Machine.execHmov x y dir s
  | .hnull hd => Sys2Proof.Machine.execHnull hd s
  | .heq qd ha hb => Sys2Proof.Machine.execHeq qd ha hb s
  | .gld reg ab size u disp => Sys2Proof.Machine.execGld reg ab size u disp s
  | .gst reg ab size disp => Sys2Proof.Machine.execGst reg ab size disp s
  | .gamo ad ab ac w op => Sys2Proof.Machine.execGamo ad ab ac w op s
  | .chld reg h size u disp => Sys2Proof.Machine.execChld reg h size u disp s
  | .chst reg h size disp => Sys2Proof.Machine.execChst reg h size disp s
  | .cldref hd m base disp => Sys2Proof.Machine.execCldref hd m base disp s
  | .cstref hd m base disp => Sys2Proof.Machine.execCstref hd m base disp s
  | .cpin ad hb => Sys2Proof.Machine.execCpin ad hb s
  | .cunpin hb => Sys2Proof.Machine.execCunpin hb s
  | .chmov x y dir => Sys2Proof.Machine.execChmov x y dir s
  | .chnull hd => Sys2Proof.Machine.execChnull hd s
  | .cheq ad ha hb => Sys2Proof.Machine.execCheq ad ha hb s
  | .aaddi ad aa imm => Sys2Proof.Machine.execAaddi ad aa imm s
  | .aadd ad aa ab => Sys2Proof.Machine.execAadd ad aa ab s
  | .ashl ad aa sh => Sys2Proof.Machine.execAshl ad aa sh s
  | .amovStride ad aa lvl => Sys2Proof.Machine.execAmovStride ad aa lvl s
  | .amov ad aa => Sys2Proof.Machine.execAmov ad aa s
  | .arank ad => Sys2Proof.Machine.execArank ad s
  | .vld v a width msel disp => Sys2Proof.Machine.execVld v a width msel disp s
  | .vst v a width msel disp => Sys2Proof.Machine.execVst v a width msel disp s
  | .vlds v a width msel stride => Sys2Proof.Machine.execVlds v a width msel stride s
  | .vldx v a vi width msel scale => Sys2Proof.Machine.execVldx v a vi width msel scale s
  | .vstx v a vi width msel scale => Sys2Proof.Machine.execVstx v a vi width msel scale s
  | .vldff v a width msel disp => Sys2Proof.Machine.execVldff v a width msel disp s
  | .vldg v a vi width msel scale => Sys2Proof.Machine.execVldg v a vi width msel scale s
  | .vstg v a vi width msel scale => Sys2Proof.Machine.execVstg v a vi width msel scale s
  | .agth aa ad vi cnt => Sys2Proof.Machine.execAgth aa ad vi cnt s
  | .vsetl d a vt => Sys2Proof.Machine.execVsetl d a vt s
  | .vadd vd va vb width msel => Sys2Proof.Machine.execVadd vd va vb width msel s
  | .vsub vd va vb width msel => Sys2Proof.Machine.execVsub vd va vb width msel s
  | .vadds vd va vb width msel => Sys2Proof.Machine.execVadds vd va vb width msel s
  | .vsubs vd va vb width msel => Sys2Proof.Machine.execVsubs vd va vb width msel s
  | .vaddus vd va vb width msel => Sys2Proof.Machine.execVaddus vd va vb width msel s
  | .vsubus vd va vb width msel => Sys2Proof.Machine.execVsubus vd va vb width msel s
  | .vavg vd va vb width msel => Sys2Proof.Machine.execVavg vd va vb width msel s
  | .vabd vd va vb width msel => Sys2Proof.Machine.execVabd vd va vb width msel s
  | .vmul vd va vb width msel => Sys2Proof.Machine.execVmul vd va vb width msel s
  | .vmulhs vd va vb width msel => Sys2Proof.Machine.execVmulhs vd va vb width msel s
  | .vmulhu vd va vb width msel => Sys2Proof.Machine.execVmulhu vd va vb width msel s
  | .vmulq vd va vb width msel => Sys2Proof.Machine.execVmulq vd va vb width msel s
  | .vmac vd va vb width msel => Sys2Proof.Machine.execVmac vd va vb width msel s
  | .vmsub vd va vb width msel => Sys2Proof.Machine.execVmsub vd va vb width msel s
  | .vmacs vd va vb width msel => Sys2Proof.Machine.execVmacs vd va vb width msel s
  | .vdot2 vd va vb width msel => Sys2Proof.Machine.execVdot2 vd va vb width msel s
  | .vand vd va vb width msel => Sys2Proof.Machine.execVand vd va vb width msel s
  | .vor vd va vb width msel => Sys2Proof.Machine.execVor vd va vb width msel s
  | .vxor vd va vb width msel => Sys2Proof.Machine.execVxor vd va vb width msel s
  | .vandn vd va vb width msel => Sys2Proof.Machine.execVandn vd va vb width msel s
  | .vsll vd va vb width msel => Sys2Proof.Machine.execVsll vd va vb width msel s
  | .vsrl vd va vb width msel => Sys2Proof.Machine.execVsrl vd va vb width msel s
  | .vsra vd va vb width msel => Sys2Proof.Machine.execVsra vd va vb width msel s
  | .vrot vd va vb width msel => Sys2Proof.Machine.execVrot vd va vb width msel s
  | .vslli vd va imm width msel => Sys2Proof.Machine.execVslli vd va imm width msel s
  | .vsrli vd va imm width msel => Sys2Proof.Machine.execVsrli vd va imm width msel s
  | .vsrai vd va imm width msel => Sys2Proof.Machine.execVsrai vd va imm width msel s
  | .vsrar vd va imm width msel => Sys2Proof.Machine.execVsrar vd va imm width msel s
  | .vmin vd va vb width msel => Sys2Proof.Machine.execVmin vd va vb width msel s
  | .vmax vd va vb width msel => Sys2Proof.Machine.execVmax vd va vb width msel s
  | .vminu vd va vb width msel => Sys2Proof.Machine.execVminu vd va vb width msel s
  | .vmaxu vd va vb width msel => Sys2Proof.Machine.execVmaxu vd va vb width msel s
  | .vceq vd va vb width msel => Sys2Proof.Machine.execVceq vd va vb width msel s
  | .vclt vd va vb width msel => Sys2Proof.Machine.execVclt vd va vb width msel s
  | .vcltu vd va vb width msel => Sys2Proof.Machine.execVcltu vd va vb width msel s
  | .vcle vd va vb width msel => Sys2Proof.Machine.execVcle vd va vb width msel s
  | .vfadd vd va vb width msel => Sys2Proof.Machine.execVfadd vd va vb width msel s
  | .vfsub vd va vb width msel => Sys2Proof.Machine.execVfsub vd va vb width msel s
  | .vfmin vd va vb width msel => Sys2Proof.Machine.execVfmin vd va vb width msel s
  | .vfmax vd va vb width msel => Sys2Proof.Machine.execVfmax vd va vb width msel s
  | .vfmul vd va vb width msel => Sys2Proof.Machine.execVfmul vd va vb width msel s
  | .vfma vd va vb width msel => Sys2Proof.Machine.execVfma vd va vb width msel s
  | .vfms vd va vb width msel => Sys2Proof.Machine.execVfms vd va vb width msel s
  | .vfnma vd va vb width msel => Sys2Proof.Machine.execVfnma vd va vb width msel s
  | .vfeq vd va vb width msel => Sys2Proof.Machine.execVfeq vd va vb width msel s
  | .vflt vd va vb width msel => Sys2Proof.Machine.execVflt vd va vb width msel s
  | .vfle vd va vb width msel => Sys2Proof.Machine.execVfle vd va vb width msel s
  | .vftot vd va vb width msel => Sys2Proof.Machine.execVftot vd va vb width msel s
  | .vfabs vd va width msel => Sys2Proof.Machine.execVfabs vd va width msel s
  | .vfneg vd va width msel => Sys2Proof.Machine.execVfneg vd va width msel s
  | .vfsqrt vd va width msel => Sys2Proof.Machine.execVfsqrt vd va width msel s
  | .vfrcp vd va width msel => Sys2Proof.Machine.execVfrcp vd va width msel s
  | .vi2f vd va u width msel => Sys2Proof.Machine.execVi2f vd va u width msel s
  | .vf2i vd va u rtz width msel => Sys2Proof.Machine.execVf2i vd va u rtz width msel s
  | .vfwid vd va width msel => Sys2Proof.Machine.execVfwid vd va width msel s
  | .vfnar vd va width msel => Sys2Proof.Machine.execVfnar vd va width msel s
  | .vredsum vd va vb width msel => Sys2Proof.Machine.execVredsum vd va vb width msel s
  | .vredmax vd va vb width msel => Sys2Proof.Machine.execVredmax vd va vb width msel s
  | .vredmin vd va vb width msel => Sys2Proof.Machine.execVredmin vd va vb width msel s
  | .vredarg vd va vb width msel => Sys2Proof.Machine.execVredarg vd va vb width msel s
  | .vfredsum vd va vb width msel => Sys2Proof.Machine.execVfredsum vd va vb width msel s
  | .vfredmax vd va vb width msel => Sys2Proof.Machine.execVfredmax vd va vb width msel s
  | .vfredmin vd va vb width msel => Sys2Proof.Machine.execVfredmin vd va vb width msel s
  | .vfredarg vd va vb width msel => Sys2Proof.Machine.execVfredarg vd va vb width msel s
  | .vidot vd va vb width msel => Sys2Proof.Machine.execVidot vd va vb width msel s
  | .vidotu vd va vb width msel => Sys2Proof.Machine.execVidotu vd va vb width msel s
  | .vfdot vd va vb width msel => Sys2Proof.Machine.execVfdot vd va vb width msel s
  | .vfdota vd va vb width msel => Sys2Proof.Machine.execVfdota vd va vb width msel s
  | .vgath vd va vb width msel => Sys2Proof.Machine.execVgath vd va vb width msel s
  | .vslup vd va vb width msel => Sys2Proof.Machine.execVslup vd va vb width msel s
  | .vsldn vd va vb width msel => Sys2Proof.Machine.execVsldn vd va vb width msel s
  | .vcomp vd va width msel => Sys2Proof.Machine.execVcomp vd va width msel s
  | .vmv vd va width msel => Sys2Proof.Machine.execVmv vd va width msel s
  | .vmvRf vd width => Sys2Proof.Machine.execVmvRf vd width s
  | .vmvCf va width => Sys2Proof.Machine.execVmvCf va width s
  | .vsplat vd vb width msel => Sys2Proof.Machine.execVsplat vd vb width msel s
  | .vbcs vd va vb width msel => Sys2Proof.Machine.execVbcs vd va vb width msel s
  | .vid vd width msel => Sys2Proof.Machine.execVid vd width msel s
  | .mand vd va vb width => Sys2Proof.Machine.execMand vd va vb width s
  | .mor vd va vb width => Sys2Proof.Machine.execMor vd va vb width s
  | .mxor vd va vb width => Sys2Proof.Machine.execMxor vd va vb width s
  | .mnot vd va width => Sys2Proof.Machine.execMnot vd va width s
  | .mpopc vd va width msel => Sys2Proof.Machine.execMpopc vd va width msel s
  | .mfirst vd va width msel => Sys2Proof.Machine.execMfirst vd va width msel s
  | .mset vd width => Sys2Proof.Machine.execMset vd width s
  | .mclr vd width => Sys2Proof.Machine.execMclr vd width s
  | .vmerge vd va vb width msel => Sys2Proof.Machine.execVmerge vd va vb width msel s
  | .vselm vd va width msel => Sys2Proof.Machine.execVselm vd va width msel s
  | .vbscl vd va vs width msel => Sys2Proof.Machine.execVbscl vd va vs width msel s
  | .upki vd va fmt part => Sys2Proof.Machine.execUpki vd va fmt part s
  | .upkf vd va vs fmt part => Sys2Proof.Machine.execUpkf vd va vs fmt part s
  | .upkb vd va part fl => Sys2Proof.Machine.execUpkb vd va part fl s
  | .pcki vd va fmt part => Sys2Proof.Machine.execPcki vd va fmt part s
  | .pckf vd va vs fmt part => Sys2Proof.Machine.execPckf vd va vs fmt part s
  | .pckb vd va part fl => Sys2Proof.Machine.execPckb vd va part fl s
  | .pscl vd va fmt => Sys2Proof.Machine.execPscl vd va fmt s
  | .afmt pol route nb na mode => Sys2Proof.Machine.execAfmt pol route nb na mode s
  | .alatchLa ak => Sys2Proof.Machine.execAlatchLa ak s
  | .alatchLb ak => Sys2Proof.Machine.execAlatchLb ak s
  | .alatchLbs ak => Sys2Proof.Machine.execAlatchLbs ak s
  | .alatchLz edge => Sys2Proof.Machine.execAlatchLz edge s
  | .abeat sb a c p => Sys2Proof.Machine.execAbeat sb a c p s
  | .adrain ad ak grp bip add clr => Sys2Proof.Machine.execAdrain ad ak grp bip add clr s
  | .aconf qd sa sb sk any => Sys2Proof.Machine.execAconf qd sa sb sk any s
  | .ard vd ar q => Sys2Proof.Machine.execArd vd ar q s
  | .awr vs ar q => Sys2Proof.Machine.execAwr vs ar q s
  | .ascl ad rs ac int => Sys2Proof.Machine.execAscl ad rs ac int s
  | .aclr grp => Sys2Proof.Machine.execAclr grp s
  | .gread ad sel j => Sys2Proof.Machine.execGread ad sel j s
  | .bterm ad aa ak => Sys2Proof.Machine.execBterm ad aa ak s
  | .bnext ad => Sys2Proof.Machine.execBnext ad s
  | .cpy d a tgt => Sys2Proof.Machine.execCpy d a tgt s
  | .barinit a b scope z => Sys2Proof.Machine.execBarinit a b scope z s
  | .baradd a b => Sys2Proof.Machine.execBaradd a b s
  | .bartest a qd => Sys2Proof.Machine.execBartest a qd s
  | .sendh d a => Sys2Proof.Machine.execSendh d a s
  | .hflip a b => Sys2Proof.Machine.execHflip a b s
  | .hstat d b => Sys2Proof.Machine.execHstat d b s
  | .estat d a => Sys2Proof.Machine.execEstat d a s
  | .ecan d a => Sys2Proof.Machine.execEcan d a s
  | .moduleReset => Sys2Proof.Machine.execModuleReset s
  | .bundleIssue => Sys2Proof.Machine.execBundleIssue s
  | .tlbMissWalk => Sys2Proof.Machine.execTlbMissWalk s
  | .asyncAccessComplete => Sys2Proof.Machine.execAsyncAccessComplete s
  | .trapEntry => Sys2Proof.Machine.execTrapEntry s
  | .bankFaultWait => Sys2Proof.Machine.execBankFaultWait s
  | .faultRecordPost => Sys2Proof.Machine.execFaultRecordPost s
  | .actionRetry => Sys2Proof.Machine.execActionRetry s
  | .actionEvict => Sys2Proof.Machine.execActionEvict s
  | .actionDeliver => Sys2Proof.Machine.execActionDeliver s
  | .actionFail => Sys2Proof.Machine.execActionFail s
  | .actionKill => Sys2Proof.Machine.execActionKill s
  | .preemption => Sys2Proof.Machine.execPreemption s
  | .swapIn => Sys2Proof.Machine.execSwapIn s
  | .recordTake => Sys2Proof.Machine.execRecordTake s
  | .taskRestore => Sys2Proof.Machine.execTaskRestore s
  | .queueAgeing => Sys2Proof.Machine.execQueueAgeing s
  | .dieLaunchTake => Sys2Proof.Machine.execDieLaunchTake s
  | .specialise => Sys2Proof.Machine.execSpecialise s
  | .specialiseTimeout => Sys2Proof.Machine.execSpecialiseTimeout s
  | .launchEnumerate => Sys2Proof.Machine.execLaunchEnumerate s
  | .dieCompletionReport => Sys2Proof.Machine.execDieCompletionReport s
  | .launchCompletion => Sys2Proof.Machine.execLaunchCompletion s
  | .commandStart => Sys2Proof.Machine.execCommandStart s
  | .courierElement => Sys2Proof.Machine.execCourierElement s
  | .commandComplete => Sys2Proof.Machine.execCommandComplete s
  | .arrivalReserve => Sys2Proof.Machine.execArrivalReserve s
  | .handlerStart => Sys2Proof.Machine.execHandlerStart s
  | .relocEntry => Sys2Proof.Machine.execRelocEntry s
  | .searchRun => Sys2Proof.Machine.execSearchRun s
  | .agthRowCopy => Sys2Proof.Machine.execAgthRowCopy s
  | .blockFillComplete => Sys2Proof.Machine.execBlockFillComplete s
  | .tlbinvComplete => Sys2Proof.Machine.execTlbinvComplete s
  | .tstepIncrement => Sys2Proof.Machine.execTstepIncrement s
  | .timeAlignmentLoss => Sys2Proof.Machine.execTimeAlignmentLoss s
  | .frameDrop => Sys2Proof.Machine.execFrameDrop s
  | .malformedMessage => Sys2Proof.Machine.execMalformedMessage s
  | .streamResend => Sys2Proof.Machine.execStreamResend s
  | .write => Sys2Proof.Machine.execWrite s
  | .read => Sys2Proof.Machine.execRead s
  | .arm => Sys2Proof.Machine.execArm s
  | .disarm => Sys2Proof.Machine.execDisarm s
  | .fire => Sys2Proof.Machine.execFire s
  | .resync => Sys2Proof.Machine.execResync s
  | .attest => Sys2Proof.Machine.execAttest s
  | .mgmtRootBase => Sys2Proof.Machine.execMgmtRootBase s
  | .mgmtHeapTable => Sys2Proof.Machine.execMgmtHeapTable s
  | .mgmtServiceClusters => Sys2Proof.Machine.execMgmtServiceClusters s
  | .mgmtCodeGeneration => Sys2Proof.Machine.execMgmtCodeGeneration s
  | .mgmtBackmapRead => Sys2Proof.Machine.execMgmtBackmapRead s
  | .mgmtFaultQueue => Sys2Proof.Machine.execMgmtFaultQueue s
  | .mgmtPreempt => Sys2Proof.Machine.execMgmtPreempt s
  | .mgmtDefaultTvb => Sys2Proof.Machine.execMgmtDefaultTvb s
  | .mgmtCertificate => Sys2Proof.Machine.execMgmtCertificate s
  | .mgmtReductionRing => Sys2Proof.Machine.execMgmtReductionRing s
  | .mgmtMaintenance => Sys2Proof.Machine.execMgmtMaintenance s
  | .mgmtLoadFirmware => Sys2Proof.Machine.execMgmtLoadFirmware s
  | .mgmtExtendM3 => Sys2Proof.Machine.execMgmtExtendM3 s
  | .mgmtEncapsulation => Sys2Proof.Machine.execMgmtEncapsulation s
  | .firmwarePollSlot => Sys2Proof.Machine.execFirmwarePollSlot s
  | .reductionDescriptor => Sys2Proof.Machine.execReductionDescriptor s
  | .reductionResult => Sys2Proof.Machine.execReductionResult s
  | .debugBlockWrite => Sys2Proof.Machine.execDebugBlockWrite s
  | .traceSample => Sys2Proof.Machine.execTraceSample s
  | .triggerEvaluate => Sys2Proof.Machine.execTriggerEvaluate s
  | .slenWrite => Sys2Proof.Machine.execSlenWrite s
  | .vlWrite => Sys2Proof.Machine.execVlWrite s
  | .vtypeWrite => Sys2Proof.Machine.execVtypeWrite s
  | .coreEnWrite => Sys2Proof.Machine.execCoreEnWrite s
  | .skewWrite => Sys2Proof.Machine.execSkewWrite s
  | .tswWrite => Sys2Proof.Machine.execTswWrite s
  | .nop => Sys2Proof.Machine.execNop s
  | .jr => Sys2Proof.Machine.execJr s
  | .ret => Sys2Proof.Machine.execRet s
  | .spawn => Sys2Proof.Machine.execSpawn s
  | .suspend => Sys2Proof.Machine.execSuspend s
  | .suspendDorm => Sys2Proof.Machine.execSuspendDorm s
  | .join => Sys2Proof.Machine.execJoin s
  | .exit => Sys2Proof.Machine.execExit s
  | .yield => Sys2Proof.Machine.execYield s
  | .launch => Sys2Proof.Machine.execLaunch s
  | .rett => Sys2Proof.Machine.execRett s
  | .halt => Sys2Proof.Machine.execHalt s
  | .twait => Sys2Proof.Machine.execTwait s
  | .tlbinvAsn => Sys2Proof.Machine.execTlbinvAsn s
  | .tlbinvAll => Sys2Proof.Machine.execTlbinvAll s
  | .tlbsync => Sys2Proof.Machine.execTlbsync s
  | .tlbunlAll => Sys2Proof.Machine.execTlbunlAll s
  | .blkdrop => Sys2Proof.Machine.execBlkdrop s
  | .pset => Sys2Proof.Machine.execPset s
  | .pclr => Sys2Proof.Machine.execPclr s
  | .ptos => Sys2Proof.Machine.execPtos s
  | .stop => Sys2Proof.Machine.execStop s
  | .aclrAll => Sys2Proof.Machine.execAclrAll s
  | .gseed => Sys2Proof.Machine.execGseed s
  | .gseedA => Sys2Proof.Machine.execGseedA s
  | .gseedB => Sys2Proof.Machine.execGseedB s
  | .grestart => Sys2Proof.Machine.execGrestart s
  | .barwait => Sys2Proof.Machine.execBarwait s
  | .reloc => Sys2Proof.Machine.execReloc s
  | .ssrch => Sys2Proof.Machine.execSsrch s
  | .equi => Sys2Proof.Machine.execEqui s
  | .ecanAll => Sys2Proof.Machine.execEcanAll s
  | .alignedAgain => Sys2Proof.Machine.execAlignedAgain s
  | .discardedMessage => Sys2Proof.Machine.execDiscardedMessage s
  | .tlbEntryDropped => Sys2Proof.Machine.execTlbEntryDropped s

end Sys2Proof.Machine
end

