-- ==== Sys2Proof/Machine/Run.lean ====
section
/-!
DEFINITION. Sys2Proof/Machine/Run.lean: running the slots of the open bundle (R23, R33, R36), and the choice of what moves next: the steps that
the environment asks for, the next bundle, the steps that are due of themselves, and the other clusters (log 1).
-/

namespace Sys2Proof.Machine

/-! ### Slots -/

/-- The slot at which the open bundle stands has been performed or guarded off: the next one is due, and after the last the bundle ends. -/
def finishSlot (s : State) : State :=
  let o := s.opn
  let pre := ((o.slots[o.idx]?).map fun f => isPrefix f.word).getD false
  let s1 := s.modOpn fun o =>
    { o with idx := o.idx + 1, phase := 0, abandon := false, ext := if pre then o.ext else none, ord := if pre then o.ord else none }
  if o.slots.length ≤ o.idx + 1 then finishBundle s1 else s1

/-- After a slot's meaning: the next slot, unless the slot waits or its bundle has ended in a trap. -/
def afterSlot (s : State) : State :=
  match s.cl.opn with
  | some o => if o.stalled then s else finishSlot s
  | none => s

/-- What follows the meaning of a slot. -/
def thenNext (r : Host.Outcome State Fault Refusal) : Host.Outcome State Fault Refusal :=
  match r with
  | .next t => .next (afterSlot t)
  | .fault f => .fault f
  | .refused q => .refused q

/-- The slot at which the open bundle stands is there, and its guard reads 1 (R23, R285). -/
def OpenBundle.acts (o : OpenBundle) : Bool := o.guards.getLsbD o.idx && o.kept.getLsbD o.idx

/-- A resolved branch of a residual has its effect where its slot stands in the original bundle (R281, R282). -/
def State.resolve (s : State) : State :=
  match s.opn.resolved with
  | some (i, a) => if i = s.opn.idx then setBranch s a else s
  | none => s

/-- The slot does nothing: its guard reads 0, or it is removed from a residual. -/
def passSlot (s : State) : State := finishSlot s.resolve

/-- The slot at which the open bundle stands: an encoding that traps (R33), a guard that reads 0 (R23), or an instruction. -/
def runSlot (s : State) : Host.Outcome State Fault Refusal :=
  let o := s.opn
  match o.slots[o.idx]? with
  | none => .next (finishBundle s)
  | some f =>
    match o.bad, f.slot with
    | some (j, v), x =>
      if j = o.idx then .next (takeTrapAt s j 0x01 v 8)
      else
        match x with
        | some x => if o.acts then thenNext (exec x.op s) else .next (passSlot s)
        | none => .next (takeTrapAt s o.idx 0x01 (f.word.setWidth 64) 8)
    | none, some x => if o.acts then thenNext (exec x.op s) else .next (passSlot s)
    | none, none => .next (takeTrapAt s o.idx 0x01 (f.word.setWidth 64) 8)

/-- A bundle is open and its next slot does not wait. -/
def slotDue (s : State) : Bool := s.cl.opn.isSome && !s.opn.stalled

/-- Issue the next bundle; its first slot runs in the same step. -/
def issueAndRun (s : State) : Host.Outcome State Fault Refusal :=
  let t := issueBundle s
  if slotDue t then runSlot t else .next t

/-! ### Steps outside a slot -/

/-- Perform a step on its subject. -/
def runEvent (s : State) (e : Event) : Host.Outcome State Fault Refusal := exec e.step { s with ev := e.arg }

/-- A subject: a cluster and two numbers. -/
def about (c : ClusterId) (a b : Nat) : Subject := { Subject.none with c := c, a := a, b := b }

/-- An event under a condition. -/
def dueIf (p : Bool) (e : Event) : List Event := if p then [e] else []

/-- Accesses of a bank that may be performed: operation and access. -/
def openAccesses (earlier : List MemOp) : List MemOp → List (Nat × Nat)
  | [] => []
  | o :: os =>
    ((List.range o.accs.length).zip o.accs).filterMap (fun p => if mayPerform earlier o p.1 p.2 then some (o.id, p.1) else none) ++
    openAccesses (earlier ++ [o]) os

/-- The step that a command of a courier may take (R136, R148). -/
def commandDue (c : Cluster) (x : Command) : List Event :=
  let at_ (i : Instr) : Event := ⟨i, about c.id x.seq 0⟩
  if x.state = .queued then [at_ .commandStart]
  else if x.state ≠ .running then []
  else if x.send && !x.reserved then [at_ .arrivalReserve]
  else if x.next < cmdTotal x.block then [at_ .courierElement]
  else [at_ .commandComplete]

/-- The steps that may be due in a cluster. -/
def clusterDue (c : Cluster) : List Event :=
  let at_ (i : Instr) (a b : Nat) : Event := ⟨i, about c.id a b⟩
  let taken := c.opn.isNone && c.bank.pendTrap.isSome
  dueIf (triggerDue c) (at_ .triggerEvaluate 0 0) ++ dueIf (sampleDue c) (at_ .traceSample 0 0) ++
  dueIf taken (at_ .bankFaultWait 0 0) ++ dueIf taken (at_ .trapEntry 0 0) ++
  dueIf c.preempt.isSome (at_ .preemption 0 0) ++
  (c.bank :: c.banks.toList).flatMap (fun b => (openAccesses [] b.ops).map fun p => at_ .asyncAccessComplete p.1 p.2) ++
  ((List.range 8).zip c.cores.toList).flatMap (fun p => dueIf (!p.2.gathers.isEmpty) (at_ .agthRowCopy p.1 0)) ++
  c.cmds.flatMap (commandDue c) ++
  dueIf (!c.arrivals.isEmpty) (at_ .handlerStart 0 0) ++ dueIf (!c.searches.isEmpty) (at_ .searchRun 0 0) ++
  c.invs.map (fun i => at_ .tlbinvComplete i.id 0) ++
  ((List.range 8).zip c.banks.toList).flatMap (fun p => dueIf (p.2.state = .restoring) (at_ .taskRestore p.1 0)) ++
  (if c.residents.isEmpty then (List.range c.shadows.length).map fun k => at_ .swapIn k 0 else [])

/-- The step of the action that has been written for a record (R324). -/
def actionStep (a : Nat) : Option Instr :=
  match a with
  | 1 => some .actionRetry
  | 2 => some .actionEvict
  | 3 => some .actionDeliver
  | 4 => some .actionFail
  | 5 => some .actionKill
  | _ => none

/-- Something of a die's debug block has been written. -/
def debugWritten (s : State) (d : Fin 64) : Bool :=
  !(s.die d).tracing.words.isEmpty || !(Cells.slice s.mem (debugBase d) (debugBase d + 256)).isEmpty

/-- The die's queues hold a record. -/
def Die.queued (x : Die) : Bool := (x.shared :: x.priv.toList).any fun q => q.size ≠ 0

/-- A record has aged. -/
def Die.ageing (x : Die) (now : Nat) : Bool :=
  (x.shared :: x.priv.toList).any fun q => (q.levels.toList.take 3).any fun l => l.any (QEntry.aged now)

/-- The steps that a die may take for a launch (R258 to R260, R267). -/
def shareDue (s : State) (d : Fin 64) (l : Launch) : List Event :=
  let y := l.share d
  let at_ (i : Instr) : Event := ⟨i, about ⟨d, 0⟩ l.num 0⟩
  if !y.taken then [at_ .dieLaunchTake]
  else if y.stopped || y.reported then dueIf (!y.reported && shareDone l d) (at_ .dieCompletionReport)
  else if !y.specDone then [at_ .specialise]
  else if y.next < shareSizeOf y.image d then
    dueIf (launchQueued s d l y.image (shareLo d.val (hdrTasks y.image) + y.next) < 64) (at_ .launchEnumerate)
  else dueIf (shareDone l d) (at_ .dieCompletionReport)

/-- The steps that may be due on a die. -/
def dieDue (s : State) (d : Fin 64) : List Event :=
  let x := s.die d
  let c : ClusterId := ⟨d, 0⟩
  dueIf (debugWritten s d && debugPending s d) ⟨.debugBlockWrite, about c 0 0⟩ ++
  dueIf (!x.fq.held.isEmpty && !fqFull x.fq) ⟨.faultRecordPost, about c 0 0⟩ ++
  x.fq.posted.filterMap (fun p => (actionStep (actionOf s d p.1 p.2)).map fun i => ⟨i, about c 0 p.1⟩) ++
  (x.blocks.filter fun b => !b.done).map (fun b => ⟨.blockFillComplete, about c b.num 0⟩) ++
  dueIf (x.ageing s.now) ⟨.queueAgeing, about c 0 0⟩ ++
  s.launches.flatMap (shareDue s d) ++
  (if x.queued then (List.finRange 8).map fun k => ⟨.recordTake, about ⟨d, k⟩ 0 0⟩ else [])

/-- The steps that may be due of themselves, in the order in which the model looks at them (log 1). -/
def due (s : State) : List Event :=
  s.clusters.flatMap clusterDue ++ (List.finRange 64).flatMap (dieDue s) ++
  (s.launches.filter fun l => l.shares.toList.all Share.reported).map (fun l => ⟨.launchCompletion, about ⟨0, 0⟩ l.num 0⟩) ++
  ((List.range 16).zip s.relocs.toList).filterMap (fun p => if p.2.running && !p.2.parked then some ⟨.relocEntry, about ⟨0, 0⟩ p.1 0⟩ else none) ++
  dueIf (s.aligned && decide (s.tstepAt + 4096 ≤ s.now)) ⟨.tstepIncrement, Subject.none⟩ ++
  dueIf (s.redBase ≠ 0) ⟨.reductionDescriptor, Subject.none⟩ ++ dueIf (!s.fires.isEmpty) ⟨.firmwarePollSlot, Subject.none⟩

/-- The step does something in this state; a poll that finds nothing does not count. -/
def takesEffect (s : State) (e : Event) : Bool :=
  match runEvent s e with
  | .next t => decide ({ t with ev := s.ev, pollSlot := s.pollSlot } ≠ s)
  | .fault _ => true
  | .refused _ => false

/-- The step that the machine takes of itself next. -/
def autoEvent (s : State) : Option Event := (due s).find? (takesEffect s)

/-! ### What moves next (log 1) -/

/-- A cluster with a running bank, after the current one in the order of clusters, else the first. -/
def nextCluster (s : State) : Option ClusterId :=
  let xs := (s.others.filter fun c => c.run.isSome).map Cluster.id
  match xs.find? fun c => clusterNum s.cl.id < clusterNum c with
  | some c => some c
  | none => xs.head?

/-- Turn 0: the current cluster issues its next bundle, or tries its waiting slot again in the next cycle. -/
def issueTurn (s : State) : Option (Host.Outcome State Fault Refusal) :=
  if canIssue s then some (issueAndRun { s with turn := 1 })
  else if s.cl.opn.isSome then some (.next { s.idle with turn := 1 })
  else none

/-- Turn 1: a step that is due of itself. -/
def eventTurn (s : State) : Option (Host.Outcome State Fault Refusal) := (autoEvent s).map fun e => runEvent { s with turn := 2 } e

/-- Turn 2: another cluster. -/
def clusterTurn (s : State) : Option (Host.Outcome State Fault Refusal) := (nextCluster s).map fun c => .next { s.focus c with turn := 0 }

/-- The first of three that is there, else the current cluster lets a cycle pass. -/
def firstOf (s : State) (a b c : State → Option (Host.Outcome State Fault Refusal)) : Host.Outcome State Fault Refusal :=
  match a s with
  | some r => r
  | none =>
    match b s with
    | some r => r
    | none =>
      match c s with
      | some r => r
      | none => .next s.idle

/-- Between bundles: the three turns, from the one that is next (DESIGN CHOICE, log 1). -/
def takeTurn (s : State) : Host.Outcome State Fault Refusal :=
  match s.turn with
  | 0 => firstOf s issueTurn eventTurn clusterTurn
  | 1 => firstOf s eventTurn clusterTurn issueTurn
  | _ => firstOf s clusterTurn issueTurn eventTurn

end Sys2Proof.Machine
end

