-- ==== Sys2Proof/Machine/Step.lean ====
section
/-!
DEFINITION. Sys2Proof/Machine/Step.lean: one step of the machine, and a state in which a given word is fetched next.
-/

namespace Sys2Proof.Machine

/-- One step: the open bundle's next slot; else the next step of the agenda; else what has its turn (log 1). -/
def step (s : State) : Host.Outcome State Fault Refusal :=
  if slotDue s then runSlot s
  else
    match s.agenda with
    | e :: rest => runEvent { s with agenda := rest } e
    | [] => takeTurn (releaseHolds s)

/-- The word after a placed one: a bundle ends with NOP, and a prefix needs a slot that takes it (R30, R32). -/
def followWord (w : Nat) : Nat :=
  match w / 262144 % 128 with
  | 1 => 0x80640000
  | 2 => match w % 4 with | 3 => 0x80AC0000 | 2 => 0x80A80000 | _ => 0x80A00000
  | _ => 0x80000000

/-- Where the tables and the code page of `withFetchWord` lie. -/
def fetchTables (asn : BitVec 16) (pc : Nat) (w : Nat) : List (Nat × Nat × Nat) :=
  let code := 0x80000000 + pc % 2 ^ 31
  [(0x1000 + 8 * asn.toNat, 0x100001, 8), (0x100000 + 8 * (pc / 2 ^ 44 % 4096), 0x200001, 8), (0x200000 + 8 * (pc / 2 ^ 31 % 8192), 0x8000000F, 8),
   (code, w % 2 ^ 32, 4), (code + 4, if w / 2147483648 % 2 = 1 then 0 else followWord w, 4)]

/-- The state in which the running bank of the current cluster (bank 0 where none runs) fetches the word `w` next: the page tables of its address
space and the word are in memory, and nothing comes before the issue of its bundle (log 8). -/
def State.withFetchWord (s : State) (nbits w : Nat) : State :=
  let b := if s.cl.run.isSome then s.cl.bank else s.cl.banks[0]
  let pc := b.pc.toNat % 2 ^ 56 / 4 * 4
  { s with
    mem := (fetchTables (tswAsn b.tsw) pc (w % 2 ^ nbits)).foldl (fun (m : Mem) p => m.write p.1 p.2.1 p.2.2) s.mem,
    rootBase := 0x1000, badWords := [], agenda := [], turn := 0,
    cl := { s.cl with run := some (s.cl.run.getD 0), opn := none, preempt := none, evals := [], sample := none, stop := none, sinceSample := 0, tlb := [],
                      bank := { b with state := .running, pc := BitVec.ofNat 64 pc, holds := [], pendTrap := none, reenter := none,
                                       ops := [], residual := none } },
    dies := s.dies.set s.cl.id.die.val { s.die s.cl.id.die with l2 := [] } s.cl.id.die.isLt }

end Sys2Proof.Machine
end

