-- ==== Sys2Proof/Safety.lean ====
section
/-!
DEFINITION. Sys2Proof/Safety.lean: the invariant that a run keeps, and conditions on states that the statements name.
-/

namespace Sys2Proof.Machine

/-- Main memory and the directory are in their canonical form: numbers strictly rising, no listed 0 (log 2). -/
def State.memOk (s : State) : Prop := Mem.wf s.mem = true ∧ Cells.wf s.lines = true

/-- Level h is one of the levels below m whose iterations end at the bundle at `at_`, with the counters `lc`: it is active and ends there, and so does
every active level above it, in its last iteration (R65). -/
def endsIteration (b : Bank) (lc : Fin 6 → BitVec 32) (at_ : Word) (m : Nat) (h : Fin 6) : Bool :=
  let ends (i : Fin 6) : Bool := (b.loops[i.val]).active && (b.loops[i.val]).last = at_
  decide (h.val < m) && ends h &&
    (List.finRange 6).all fun i => !(decide (h.val < i.val ∧ i.val < m) && (b.loops[i.val]).active) || (ends i && lc i = 1)

/-- Bank b has become b' by the ends of the iterations of the levels below m at the bundle at `at_` (R65): each has its counter decremented, every core,
enabled or not, has added the level's strides to a0 to a15, the level is inactive after its last iteration, and else its first bundle is next. Nothing
else changes but the count of iterations that the type 5 records give (R358). -/
def IterationsEnd (b b' : Bank) (at_ : Word) (m : Nat) (next : Option Word) : Prop :=
  let ends := endsIteration b (fun l => b.lc[l.val]) at_ m
  b' = { b with lc := b'.lc, loops := b'.loops, cores := b'.cores } ∧
  (∀ h : Fin 6, b'.lc[h.val] = (if ends h then b.lc[h.val] - 1 else b.lc[h.val]) ∧
    b'.loops[h.val] = if ends h then
      { b.loops[h.val] with active := decide (b.lc[h.val] ≠ 1), iter := min ((b.loops[h.val]).iter + 1) (2 ^ 32 - 1) } else b.loops[h.val]) ∧
  (∀ h : Fin 6, ends h = true → b.lc[h.val] ≠ 1 → next = some (b.loops[h.val]).start) ∧
  ((∀ h : Fin 6, ends h = true → b.lc[h.val] = 1) → next = none) ∧
  ∀ k : Fin 8, ∃ f : CoreFile, b'.cores[k.val] = { b.cores[k.val] with file := f } ∧ f = { (b.cores[k.val]).file with a := f.a } ∧
    ∀ i : Fin 16, f.a[i.val] = (List.finRange 6).foldl (fun x h => if ends h then x + ((b.cores[k.val]).stride[i.val])[h.val] else x)
      (b.cores[k.val]).file.a[i.val]

/-- No acquire or FENCE of an agent of the running bank is under way, and no memory error is known. -/
def Unhindered (s : State) : Prop := (∀ a : Fin 9, awaiting s a = false) ∧ s.badWords = [] ∧ s.softWords = []

/-- The step concerns the current cluster and its running bank's one operation `o`, of a bundle that has committed, which has the one access `a` to main
memory at `pa`, not yet performed; no memory error is known to the device, and the coherence events of the die are not traced. -/
def SoleAccess (s : State) (o : MemOp) (a : Access) (pa : Nat) : Prop :=
  s.ev.c = s.cl.id ∧ s.ev.a = o.id ∧ s.ev.b = 0 ∧ committed s o.id = true ∧ s.cl.run.isSome ∧ s.cl.bank.ops = [o] ∧
  (∀ j : Fin 8, (s.cl.banks[j.val]).ops = []) ∧ o.accs = [a] ∧ a.done = false ∧ a.loc = .mem pa ∧
  s.badWords = [] ∧ s.softWords = [] ∧ (s.dbg s.cl.id.die 0).getLsbD 2 = false

/-- The write of core k that a slot of the open bundle posts with latency `lat`, on the core's timeline. -/
def State.timed {α : Type} (s : State) (k : Fin 8) (lat : Nat) (x : α) : Pending α := ⟨s.coreTime k + lat, x, s.coreTime k, s.opn.idx⟩

/-- `exec i s` is the state in which every enabled core k has posted the writes `w k` with latency `lat`, in order; a disabled core, and everything
else, is as in s. -/
def CoresPost (i : Instr) (s : State) (lat : Nat) (w : Fin 8 → List CoreWrite) : Prop :=
  ∃ t, exec i s = .next t ∧ t = s.modBank (fun b => { b with cores := t.cl.bank.cores }) ∧
    ∀ k : Fin 8, t.cl.bank.cores[k.val] =
      if s.enabled k then
        { s.cl.bank.cores[k.val] with
          pend := (w k).foldl (fun p x => Pending.insert (s.timed k lat x) p) (s.cl.bank.cores[k.val]).pend }
      else s.cl.bank.cores[k.val]

/-- `exec i s` issues one operation of the sequencer with one access, which is found in s0, and changes nothing else than the translation has, which
gives s1 (TLBs, corrected errors, trace records), and the operations and writes under way, which are those of bank b and the new one: no register, and
where the coherence events of the die are not traced no byte of memory. -/
def SequencerIssuesFrom (i : Instr) (s s0 s1 : State) (b : Bank) (cls : WaitClass) (dest : Dest) (a : Access) : Prop :=
  ∃ t o, exec i s = .next t ∧ ((s0.dbg s0.cl.id.die 0).getLsbD 2 = false → t.mem = s0.mem) ∧
    t = { s1 with cl := { s1.cl with nextOp := s1.cl.nextOp + 1, bank := { b with ops := b.ops ++ [o] } } } ∧
    o.agent = 8 ∧ o.cls = cls ∧ o.acquire = s.ordAcq ∧ o.release = s.ordRel ∧ o.dest = dest ∧ o.accs = [a]

/-- The same where the access is found at once in s. -/
def SequencerIssues (i : Instr) (s s1 : State) (b : Bank) (cls : WaitClass) (dest : Dest) (a : Access) : Prop :=
  SequencerIssuesFrom i s s s1 b cls dest a

/-- `exec i s` issues one operation with one access in every enabled core, in rank order, and changes nothing else than the writes under way, which
are those of bank b. -/
def CoresIssueFrom (i : Instr) (s : State) (b : Bank) (cls : WaitClass) (dest : Dest) (a : Fin 8 → Access) : Prop :=
  ∃ t new, exec i s = .next t ∧ t = { s with cl := { s.cl with nextOp := t.cl.nextOp, bank := { b with ops := s.cl.bank.ops ++ new } } } ∧
    new.map (fun o => (o.agent, o.cls, o.acquire, o.release, o.dest, o.accs)) =
      ((List.finRange 8).filter fun k => s.enabled k).map fun k => ((coreWho s k).agent, cls, s.ordAcq, s.ordRel, dest, [a k])

/-- The same, and no write of a register comes under way. -/
def CoresIssue (i : Instr) (s : State) (cls : WaitClass) (dest : Dest) (a : Fin 8 → Access) : Prop := CoresIssueFrom i s s.cl.bank cls dest a

/-- `f` has been performed in each enabled core in turn, in rank order, from s to t. -/
def InTurn (s : State) (f : Fin 8 → State → Eff State) (t : State) : Prop :=
  ∃ u : Nat → State, u 0 = s ∧ u 8 = t ∧
    ∀ k : Fin 8, if s.enabled k then f k (u k.val) = .ok (u (k.val + 1)) else u (k.val + 1) = u k.val

/-- The translation that an agent holds for an address: that of its locked window (R93), else its first-level TLB's. -/
def heldLeaf (s : State) (w : Who) (va : Word) : Option Leaf :=
  match lockOf s w.agent va with
  | some x => x.leaf.filter fun l => l.base ≤ va.toNat && va.toNat < l.base + l.size
  | none => (s.cl.tlbOf w.agent).find? fun l => l.matches w.asn va

/-- An access of n bytes at `va` reaches the place `l` with no walk: a window address, or a translation that the agent holds and that passes the checks
of R84; where a pin is checked no memory word has a single-bit error. -/
def Reaches (s : State) (w : Who) (u : Use) (va : Word) (n : Nat) (l : Loc) : Prop :=
  (isWindow va = true ∧ windowLoc s w s.cl.id (coreOf w.agent) va = .ok l) ∨
  (isWindow va = false ∧ ∃ x pa, heldLeaf s w va = some x ∧ chkLeaf s w u x va = .ok () ∧ leafLoc w x va n = .ok pa ∧ l = .mem pa ∧
    (pinChecked u x = true → s.softWords = []))

/-- In every enabled core there is room for one more operation of the class, and the place of an access of n bytes at `ea k` is `l k`, from a window or
a translation that the core's TLB holds. -/
def CoresReach (s : State) (cls : WaitClass) (u : Use) (ea : Fin 8 → Word) (n : Nat) (l : Fin 8 → Loc) : Prop :=
  ∀ k : Fin 8, s.enabled k = true →
    outstanding s.cl s.bankNo s.cl.bank (coreWho s k).agent cls < 32 ∧ (ea k).toNat % n = 0 ∧ (ea k).toNat < 2 ^ 57 ∧
    Reaches s (coreWho s k) u (ea k) n (l k)

/-- No access of the bank is outstanding, the open bundle has no write to perform as it commits, no memory error is known, and the coherence events of
the die are not traced. -/
def MemoryQuiet (s : State) : Prop :=
  s.cl.bank.ops = [] ∧ s.opn.late = [] ∧ s.badWords = [] ∧ s.softWords = [] ∧ (s.dbg s.cl.id.die 0).getLsbD 2 = false

/-- Core k is the one enabled core. -/
def OnlyCore (s : State) (k : Fin 8) : Prop := ∀ j : Fin 8, s.enabled j = decide (j = k)

/-- A PIN or UNPIN of `r` by the agent of `w` reaches the object of `ref`, which the barrier answers: its header of 16 bytes stands in main memory
at pa. -/
def PinTarget (s : State) (w : Who) (r ref : Word) (pa : Nat) : Prop :=
  barrierRef s w r = .ok ref ∧ Reaches s w { write := true, href := true } (BitVec.ofNat 64 (refAddr ref)) 16 (.mem pa)

/-- The object of `ref`, with its header at pa, is not empty and lies in its heap's range; the counters of its pages are at `cs`, and none overlaps the
header. -/
def PinPages (s : State) (ref : Word) (pa : Nat) (cs : List Nat) : Prop :=
  let n := refHeap ref
  let bytes := 128 * s.mem.read pa 4
  let off := refAddr ref - (heapWord s n 4).toNat
  0 < bytes ∧ refAddr ref + bytes ≤ (heapWord s n 4).toNat + (heapWord s n 5).toNat ∧
  cs = (List.range ((off % 65536 + bytes + 65535) / 65536)).map (fun i => (heapWord s n 6).toNat + 4 * (off / 65536 + i)) ∧
  ∀ c ∈ cs, c + 4 ≤ pa ∨ pa + 16 ≤ c

/-- No setting of the die's debug block is in force: nothing is traced, and no trigger is enabled. -/
def Untraced (s : State) : Prop := (s.die s.cl.id.die).tracing.words = []

/-- The trap frame of the running bank, bytes 0x800 to 0x5BFF of its lodging, stands in main memory from pa on, within one page of 64 KiB that the
sequencer's TLB maps for the accesses of `w` that `u` names. -/
def FrameAt (s : State) (w : Who) (u : Use) (pa : Nat) : Prop :=
  let f := s.cl.bank.frame.toNat
  f % 8 = 0 ∧ f + 0x5C00 < 2 ^ 56 ∧ (f + 0x800) % 65536 + 0x5400 ≤ 65536 ∧ pa + 0x5400 ≤ Config.memTop ∧
  Reaches s w u (s.cl.bank.frame + 0x800) 8 (.mem pa)

/-- Bank z, split at slot j of the bundle at `at_`, has entered its handler as b: R315. -/
def InHandler (z b : Bank) (cause : BitVec 8) (tval at_ : Word) (j : Nat) : Prop :=
  b.tpc = at_ ∧ b.tcause = cause ∧ b.tval = tval ∧
  (∀ i, i < 64 → b.tsw.getLsbD i =
    if i = 0 ∨ i = 8 then true else if i = 10 then false else if 13 ≤ i ∧ i ≤ 15 then (BitVec.ofNat 64 j).getLsbD (i - 13) else z.tsw.getLsbD i) ∧
  b.pc = BitVec.ofNat 64 (z.tvb.toNat / 4096 * 4096 + 0x40 * cause.toNat) ∧
  (∀ l : Fin 6, (b.loops[l.val]).active = false) ∧ b.lc = z.lc ∧ b.file = z.file ∧ b.tvb = z.tvb ∧ b.coreEn = z.coreEn ∧ b.skew = z.skew ∧
  b.slen = z.slen ∧ b.vl = z.vl ∧ b.vtype = z.vtype ∧ b.wid = z.wid ∧ b.trec = z.trec ∧ b.frame = z.frame ∧ b.lrec = z.lrec ∧
  (∀ k : Fin 8, (b.cores[k.val]).file = (z.cores[k.val]).file ∧ (b.cores[k.val]).pendFmt = [])

/-- Bank i of the cluster waits in state `st` and its die is to post one more record, of the type, cause and VA given, with the bank's PC and task. -/
def WaitsWithRecord (s t : State) (i : Fin 8) (st : BankState) (type : Nat) (cause : BitVec 8) (va pc : Word) : Prop :=
  (t.bankAt i).state = st ∧ (t.bankAt i).pc = pc ∧ t.cl.run ≠ some i ∧
  ∃ r : FaultRec, (t.die s.cl.id.die).fq.held = (s.die s.cl.id.die).fq.held ++ [r] ∧ r.type = type ∧ bits r.w0 55 48 = cause.toNat ∧
    r.va = va ∧ r.pc = pc ∧ r.trec = s.cl.bank.trec ∧ bits r.w0 15 0 = (tswAsn s.cl.bank.tsw).toNat ∧
    bits r.w0 38 36 = i.val ∧ bits r.w0 41 39 = s.cl.id.cluster.val ∧ bits r.w0 47 42 = s.cl.id.die.val

/-! ### Vector slots (R164, R182, R183) -/

/-- The fields of a vector slot are legal: a width below 3, and in every enabled core each group's register is a multiple of the group. -/
def VecLegal (s : State) (width : Fin 4) (groups : List (Fin 16)) : Prop :=
  width.val ≠ 3 ∧ ∀ k : Fin 8, s.enabled k = true → ∀ r ∈ groups, r.val % (s.vcfg k).group = 0

/-- Elements are 32 bits wide in every enabled core (R184). -/
def Wide (s : State) : Prop := ∀ k : Fin 8, s.enabled k = true → (s.vcfg k).ew = 32

/-- `exec i s` completes. Every enabled core k has posted the writes that `w` says of its configuration and its n of R182, in order, with latency
`lat` plus one for each pass but the first; a core with n = 0 has posted none. Nothing else changes: the lanes and the freeze for them are taken as
the bundle issues (R183). -/
def VecPosts (i : Instr) (s : State) (width : Fin 4) (lat : Nat) (w : Fin 8 → VecCfg → Nat → List CoreWrite) : Prop :=
  ∃ t, exec i s = .next t ∧
    t = s.modBank (fun b => { b with cores := t.cl.bank.cores }) ∧
    ∀ k : Fin 8, t.cl.bank.cores[k.val] =
      let c := s.vcfg k
      let n := min c.vl (256 * 2 ^ width.val * c.group / c.ew)
      if s.enabled k = true ∧ n ≠ 0 then
        { s.cl.bank.cores[k.val] with
          pend := (w k c n).foldl (fun p x => Pending.insert (s.timed k (lat + (c.group - 1)) x) p) (s.cl.bank.cores[k.val]).pend }
      else s.cl.bank.cores[k.val]

/-- The writes of flags that elements set. -/
def flagWrites (f : BitVec 32) : List CoreWrite := if f = 0 then [] else [.flags f]

/-- The writes of a list of elements of `ew` bits to the group at d, and of the flags they set. -/
def elemPosts (d : Fin 16) (ew : Nat) (es : List (ElemWrite × BitVec 32)) : List CoreWrite :=
  groupWrites d ew (es.map Prod.fst) ((es.length * ew + 1023) / 1024) ++ flagWrites ((es.map Prod.snd).foldl (· ||| ·) 0)

/-- What an element becomes that the slot's result does not reach: kept or all ones, by the mask policy below n and by the tail policy from n on. -/
def kept (c : VecCfg) (ew n e : Nat) : ElemWrite × BitVec 32 :=
  (if (if e < n then c.mpol else c.tpol) then some (2 ^ ew - 1) else none, 0)

/-- An elementwise slot: every active element e of core k becomes `(r k c n e).1`, if that is given, and sets the flags `(r k c n e).2`; the others
follow the policies. -/
def VecResult (i : Instr) (s : State) (width msel : Fin 4) (lat : Nat) (d : Fin 16) (r : Fin 8 → VecCfg → Nat → ElemWrite × BitVec 32) : Prop :=
  VecPosts i s width lat fun k c n => elemPosts d c.ew ((List.range (1024 * c.group / c.ew)).map fun e =>
    if e < n ∧ (msel.val = 0 ∨ (s.rm k msel).getLsbD e = true) then r k c e else kept c c.ew n e)

/-- The active element numbers of a slot in core k, rising. -/
def activeList (s : State) (k : Fin 8) (msel : Fin 4) (n : Nat) : List Nat :=
  (List.range n).filter fun e => msel.val = 0 || (s.rm k msel).getLsbD e

/-- A slot that writes element 0 from the active elements; the others follow the tail policy (R191). -/
def VecReduced (i : Instr) (s : State) (width msel : Fin 4) (lat : Nat) (d : Fin 16) (r : Fin 8 → VecCfg → List Nat → Flagged) : Prop :=
  VecPosts i s width lat fun k c n => elemPosts d c.ew ((List.range (1024 * c.group / c.ew)).map fun e =>
    if e = 0 then (some ((r k c (activeList s k msel n)).1 % 2 ^ c.ew), (r k c (activeList s k msel n)).2) else kept c c.ew 0 e)

/-- A slot that writes mask m_d: bit e of core k becomes `(r k c e).1` where it is active, and its flags are set; the others follow the policies
(R186). -/
def MaskResult (i : Instr) (s : State) (width msel : Fin 4) (lat : Nat) (d : Fin 4) (r : Fin 8 → VecCfg → Nat → Bool × BitVec 32) : Prop :=
  VecPosts i s width lat fun k c n =>
    let p := packElems 1 0 ((List.range 256).map fun e =>
      if e < n ∧ (msel.val = 0 ∨ (s.rm k msel).getLsbD e = true) then some (r k c e).1.toNat else (kept c 1 n e).1)
    (if p.2 = 0 then [] else [.m d (BitVec.ofNat 256 p.1) (BitVec.ofNat 256 p.2)]) ++
      flagWrites (((activeList s k msel n).map fun e => (r k c e).2).foldl (· ||| ·) 0)

/-! ### Pack, unpack and array slots (R183, R197, R228) -/

/-- As `VecPosts`, for a slot of the unpack or pack unit: width 1024, latency 2 from the last pass; nothing else changes
(R183, R197). -/
def UnitPosts (i : Instr) (s : State) (w : Fin 8 → VecCfg → Nat → List CoreWrite) : Prop :=
  ∃ t, exec i s = .next t ∧
    t = s.modBank (fun b => { b with cores := t.cl.bank.cores }) ∧
    ∀ k : Fin 8, t.cl.bank.cores[k.val] =
      let c := s.vcfg k
      let n := min c.vl (1024 * c.group / c.ew)
      if s.enabled k = true ∧ n ≠ 0 then
        { s.cl.bank.cores[k.val] with
          pend := (w k c n).foldl (fun p x => Pending.insert (s.timed k (2 + (c.group - 1)) x) p) (s.cl.bank.cores[k.val]).pend }
      else s.cl.bank.cores[k.val]

/-- Packed element j of b bits, m to a lane of 32 bits, of the group of registers at r (R172, R197). -/
def packedField (v : Fin 16 → VReg) (r : Fin 16) (b m j : Nat) : Nat :=
  (v (Fin.ofNat 16 (r.val + j / m / 32))).toNat / 2 ^ (32 * (j / m % 32) + b * (j % m)) % 2 ^ b

/-- No write of a core's array state is under way. -/
def ArrayQuiet (s : State) : Prop := ∀ k : Fin 8, (s.cl.cores[k.val]).pend = []

/-- `exec i s` completes; in every enabled core k the writes `w k` of its array state are under way, each with its latency; nothing else changes but the
number of free values drawn. -/
def ArrayPosts (i : Instr) (s : State) (w : Fin 8 → List (Nat × ArrayWrite)) : Prop :=
  ∃ t, exec i s = .next t ∧ t = { s with freeCtr := t.freeCtr, cl := { s.cl with cores := t.cl.cores } } ∧
    ∀ k : Fin 8, t.cl.cores[k.val] =
      if s.enabled k then
        { s.cl.cores[k.val] with
          pend := (w k).foldl (fun p x => Pending.insert (s.timed k x.1 x.2) p) (s.cl.cores[k.val]).pend }
      else s.cl.cores[k.val]

/-! ### Tasks, records and faults (R253 to R275, R322 to R330) -/

/-- Nothing of the running bank is under way: no memory operation, command, search or gather; no error is pending. -/
def Calm (s : State) : Prop :=
  s.cl.bank.ops = [] ∧ s.cl.cmds = [] ∧ s.cl.searches = [] ∧ (∀ k : Fin 8, (s.cl.cores[k.val]).gathers = []) ∧
  tswMcp s.cl.bank.tsw = false ∧ s.cl.bank.courierErrs = []

/-- The record at `rec` of the launch with header image `h` is the last of level `prio` of the queue of die d that takes it; every other queue and
level, of every die, is as in s, and of a die nothing else has changed but the blocks that its cache keeps (R125, R261, R262). -/
def Queued (s t : State) (d : Fin 64) (h : List Word) (rec_ launch tidx : Word) (prio : Fin 4) : Prop :=
  let q := queueOf h tidx
  let e : QEntry := { addr := rec_, asn := hdrAsn h, part := hdrPart h, service := hdrQclass h, launch := launch, since := s.now }
  (∀ lv : Fin 4, ((t.die d).queue q).levels[lv.val] = ((s.die d).queue q).levels[lv.val] ++ (if lv = prio then [e] else [])) ∧
  (∀ q', q' ≠ q → (t.die d).queue q' = (s.die d).queue q') ∧
  ∀ d', t.die d' = { s.die d' with shared := (t.die d').shared, priv := (t.die d').priv, blocks := (t.die d').blocks } ∧
    (d' ≠ d → (t.die d').shared = (s.die d').shared ∧ (t.die d').priv = (s.die d').priv)

/-- The record at pa is that of the task of bank b, saved to resume at slot `slot` of the bundle at `code`: KIND 1, with COUNT, PRIO and PARENT as in
s3, and WAIT as given. No other byte differs from s3 (Table 14.1). -/
def RecordSaved (s3 t : State) (pa : Nat) (b : Bank) (code : Word) (slot : Nat) (wait : Bool) : Prop :=
  t.mem.word pa = recWord0' slot code ∧ t.mem.word (pa + 8) = b.frame ∧ t.mem.word (pa + 24) = b.wid ∧ t.mem.word (pa + 32) = b.lrec ∧
  t.mem.word (pa + 40) = s3.mem.word (pa + 40) ∧ t.mem.word (pa + 48) = b.tidx ∧
  bits (t.mem.word (pa + 16)) 39 36 = 1 ∧ bits (t.mem.word (pa + 16)) 34 33 = bits (s3.mem.word (pa + 16)) 34 33 ∧
  (t.mem.word (pa + 16)).getLsbD 32 = wait ∧ bits (t.mem.word (pa + 16)) 31 0 = bits (s3.mem.word (pa + 16)) 31 0 ∧
  ∀ x, x < pa ∨ pa + 64 ≤ x → t.mem.get x = s3.mem.get x

/-- Die d is to post one more record, of the type, code and task record given. -/
def Raised (s t : State) (d : Fin 64) (type : Nat) (code : BitVec 8) (rec_ : Word) : Prop :=
  ∃ r : FaultRec, (t.die d).fq.held = (s.die d).fq.held ++ [r] ∧ r.type = type ∧ bits r.w0 55 48 = code.toNat ∧ r.trec = rec_

/-- Bank b' holds the task of bank b: its registers, its addresses and where it goes on. -/
def SameTask (b b' : Bank) : Prop :=
  b'.file = b.file ∧ b'.lc = b.lc ∧ b'.loops = b.loops ∧ b'.pc = b.pc ∧ b'.tsw = b.tsw ∧ b'.wid = b.wid ∧ b'.trec = b.trec ∧ b'.frame = b.frame ∧
  b'.tidx = b.tidx ∧ b'.lrec = b.lrec ∧ b'.slen = b.slen ∧ b'.coreEn = b.coreEn ∧ b'.skew = b.skew ∧ b'.vl = b.vl ∧ b'.vtype = b.vtype ∧
  b'.gpos = b.gpos ∧ b'.gseedA = b.gseedA ∧ b'.gseedB = b.gseedB ∧ b'.tvb = b.tvb ∧ b'.tpc = b.tpc ∧ b'.tcause = b.tcause ∧ b'.tval = b.tval ∧
  b'.handles = b.handles ∧ b'.reenter = b.reenter ∧
  ∀ k : Fin 8, (b'.cores[k.val]).file = (b.cores[k.val]).file ∧ (b'.cores[k.val]).stride = (b.cores[k.val]).stride ∧
    (b'.cores[k.val]).lock = (b.cores[k.val]).lock ∧ (b'.cores[k.val]).fmt = (b.cores[k.val]).fmt ∧
    (b'.cores[k.val]).pendFmt = (b.cores[k.val]).pendFmt

/-- Bank i of the cluster, which ran no bank or another one, is ready, or it runs at once. -/
def ReadyOrRuns (t : State) (i : Fin 8) : Prop :=
  if t.cl.run = some i then (t.bankAt i).state = .running else (t.bankAt i).state = .ready

/-! ### The host link (R337 to R345) -/

/-- The steps that receive a message which its stream expects. -/
def hostSteps : List Instr :=
  [.malformedMessage, .write, .read, .arm, .disarm, .fire, .resync, .attest, .mgmtRootBase, .mgmtHeapTable, .mgmtServiceClusters, .mgmtCodeGeneration,
   .mgmtBackmapRead, .mgmtFaultQueue, .mgmtPreempt, .mgmtDefaultTvb, .mgmtCertificate, .mgmtReductionRing, .mgmtMaintenance, .mgmtLoadFirmware,
   .mgmtExtendM3, .mgmtEncapsulation]

/-- The step concerns the message m, an `i` that its stream expects and that waits for no other; the firmware runs. -/
def Received (s : State) (m : HostMsg) (i : Instr) : Prop :=
  s.ev.msg = m ∧ unanswerable s m = false ∧ expected s m = true ∧ msgStep m = i ∧ streamWaits s m.sid = false ∧ s.recovery = false

/-- Stream `id` of t has taken one message more than in s, and every other stream is as in s. -/
def Took (s t : State) (id : Nat) : Prop :=
  (t.stream id).rxNext = ((s.stream id).rxNext + 1) % 2 ^ 32 ∧ ∀ j, j ≠ id → t.stream j = s.stream j

/-- `exec i s` answers the message m with a status, an ARG and a payload, in parts of 8192 bytes numbered from the stream's next SEQ, of which the
last is marked; the message consumes its SEQ, and all else is as in t. -/
def Answers (i : Instr) (s t : State) (m : HostMsg) (status : BitVec 8) (arg : Word) (payload : List Byte) : Prop :=
  ∃ (u : State) (rs : List HostMsg), exec i s = .next u ∧ u = { t with streams := u.streams, outbox := s.outbox ++ rs } ∧ Took s u m.sid ∧
    rs.length = max 1 ((payload.length + 8191) / 8192) ∧ (rs.map HostMsg.payload).flatten = payload ∧
    (∀ r ∈ rs, r.type = m.type ∧ r.status = status ∧ r.arg = arg ∧ r.addr = m.addr ∧ r.stream = m.stream ∧ r.payload.length ≤ 8192) ∧
    (∀ j r, rs[j]? = some r → r.seq = BitVec.ofNat 32 ((s.stream m.sid).txNext + j) ∧ r.flags = if j + 1 = rs.length then 3 else 1) ∧
    (u.stream m.sid).txNext = ((s.stream m.sid).txNext + rs.length) % 2 ^ 32

/-- The record of eight words is the next in the ring of die d, and PROD counts it; or the ring is full and LOST does. Nothing else in memory changes
(R356). Of a ring that reaches past main memory it is open which of the two counts the record, and nothing but these changes (log 33). -/
def Traced (s t : State) (d : Fin 64) (ws : List Word) : Prop :=
  let blk := debugBase d
  let size := 2 ^ bits (s.dbg d 2) 39 32
  let prod := s.mem.read (blk + 16) 4
  let cons := s.mem.read (blk + 32) 4
  if size ≤ (prod + 2 ^ 32 - cons) % 2 ^ 32 then
    t.mem.word (blk + 24) = s.mem.word (blk + 24) + 1 ∧ ∀ x, x < blk + 24 ∨ blk + 32 ≤ x → t.mem.get x = s.mem.get x
  else if Config.memTop < (s.dbg d 1).toNat + 64 * (prod % size) + 64 then ∀ x, x < blk + 16 ∨ blk + 32 ≤ x → t.mem.get x = s.mem.get x
  else
    let at_ := (s.dbg d 1).toNat + 64 * (prod % size)
    (blk + 256 ≤ at_ ∨ at_ + 64 ≤ blk → t.mem.words at_ 8 = ws) ∧ t.mem.read (blk + 16) 4 = (prod + 1) % 2 ^ 32 ∧
    ∀ x, x < at_ ∨ at_ + 64 ≤ x → x < blk + 16 ∨ blk + 20 ≤ x → t.mem.get x = s.mem.get x

end Sys2Proof.Machine
end

