-- ==== Sys2Proof/Certificates/Slice0/Obligations.lean ====
section
/-!
DEFINITION. Sys2Proof/Certificates/Slice0/Obligations.lean: what is to be proved about the machine. `s.postS L d v` is the posted write of s_d with
latency L, and an equation `exec i s = .next t` says the whole of the next state: what t does not name is as in s. -/

open Sys2Proof Sys2Proof.Machine

/-! ### Encoding (R22, R25, R33) -/

/-- Decoding the bytes of an encoded slot gives the slot back, with every operand at every value its encoding admits, and leaves the bytes after it
(R22, R25). -/
def Obligations.EncodeThenDecodeIsTheSlot : Prop :=
  ∀ (f : Slot) (rest : List (BitVec 8)), f.wellFormed = true →
    ∃ w, encodeSlot f = some w ∧ w < 2 ^ 32 ∧ decodeBytes (bytesOfWord w ++ rest) = some (f, rest)

/-- Every word that decodes is the one word of the slot it decodes to, and that slot is well formed: no bit of a word is dropped, and no reserved
encoding or operand value decodes (R22, R25, R33). -/
def Obligations.DecodeThenEncodeIsTheWord : Prop :=
  ∀ (w : Nat) (f : Slot), w < 2 ^ 32 → decodeSlot w = .ok f → encodeSlot f = some w ∧ f.wellFormed = true

/-- Words written out from the layouts of the entries decode to the slots they stand for: MOVI, EXT, a BR with the stop bit
and a guard, LOOP, LDREF, TLBLK, CPY, LAUNCH, VREDARG. -/
def Obligations.KnownWordsDecode : Prop :=
  decodeSlot 0x0064EACE = .ok ⟨false, false, 0, .movi 7 0x0ACE, 0⟩ ∧
  decodeSlot 0x00041234 = .ok ⟨false, false, 0, .ext 0x1234, 0⟩ ∧
  decodeSlot 0x8A0FFFF4 = .ok ⟨true, false, 5, .br 0x3FFF4, 0⟩ ∧
  decodeSlot 0x80181001 = .ok ⟨true, false, 0, .loop 0 4 1, 0⟩ ∧
  decodeSlot 0x80BCA510 = .ok ⟨true, false, 0, .ldref 2 true 5 2, 0⟩ ∧
  decodeSlot 0x8031206A = .ok ⟨true, false, 0, .tlblk 9 3 1, 0⟩ ∧
  decodeSlot 0x81C0C530 = .ok ⟨true, false, 0, .cpy 6 5 3, 0⟩ ∧
  decodeSlot 0x80280505 = .ok ⟨true, false, 0, .launch, 5⟩ ∧
  decodeSlot 0x813D0C23 = .ok ⟨true, false, 0, .vredarg 4 3 0 2 0, 0⟩

/-! ### A step (R23, R27, R29) -/

/-- Where a bundle is open at a slot that was decoded: if its guard reads 1, a step is `exec` of its instruction, and then the bundle goes on to the
next slot, or ends after its last one; if its guard reads 0, the slot does nothing: the step only goes on (R23, R29). Outside the bundles of a
residual every slot is kept and none is resolved (R285). Between bundles the step at the head of the agenda comes first: it is `exec` of that step on
its subject, with the agenda moved on (log 1). -/
def Obligations.StepRunsTheDecodedInstruction : Prop :=
  (
  ∀ (s : State) (o : OpenBundle) (w : BitVec 32) (x : Slot),
    s.cl.opn = some o → o.stalled = false → o.bad = none → o.slots[o.idx]? = some ⟨w, some x⟩ →
    (o.guards.getLsbD o.idx = true → o.kept.getLsbD o.idx = true → step s = thenNext (exec x.op s)) ∧
    (o.guards.getLsbD o.idx = false ∨ o.kept.getLsbD o.idx = false → step s = .next (passSlot s)) ∧
    (o.resolved = none → passSlot s = finishSlot s) ∧
    (o.idx + 1 < o.slots.length →
      finishSlot s = s.modOpn (fun _ => (finishSlot s).opn) ∧ (finishSlot s).opn.idx = o.idx + 1 ∧ (finishSlot s).opn.snap = o.snap ∧
      (finishSlot s).opn.branch = o.branch ∧ (finishSlot s).opn.endAct = o.endAct)) ∧
  (
  ∀ (s : State) (e : Event) (rest : List Event),
    slotDue s = false → s.agenda = e :: rest → step s = exec e.step { s with agenda := rest, ev := e.arg })

/-- With nothing on the agenda and the turn at the bundles, a cluster whose running bank may issue fetches the bundle at its PC, and its first slot
runs in the same step: the words in memory at the PC, decoded, are what `exec` runs, once the cycles have passed for which checked mode and a change of
SKEW hold the bundle (R27, R34, R319; log 6, log 10). -/
def Obligations.StepIssuesTheBundleAtThePc : Prop :=
  (∀ s : State, slotDue s = false → s.agenda = [] → (releaseHolds s).turn = 0 → canIssue (releaseHolds s) = true →
    step s = issueAndRun { releaseHolds s with turn := 1 }) ∧
  (∀ s : State, s.ev.c = s.cl.id → exec .bundleIssue s = .next (if canIssue s = true then issueBundle s else s)) ∧
  ∀ (s s1 : State) (x : BitVec 32) (f : Slot),
    let v := awaitWrites s
    let u := (v.settle v.cl.time).modBank endChecked
    s.cl.bank.residual = none → s.cl.bank.reenter = none → buffered u.bank u.bank.pc = none →
    fetchWord u ⟨8, tswAsn u.bank.tsw, tswSup u.bank.tsw⟩ u.bank.pc = .ok (s1, x) →
    x.getLsbD 31 = true → decodeSlot x.toNat = .ok f → findBad 0 0 [x] = none → loopBufferFault u.bank u.bank.pc 1 = false →
    nullified u.bank u.cl.time [x] = false →
    ∃ t, issueBundle s = t ∧ t.opn.pc = s.cl.bank.pc ∧ t.opn.idx = 0 ∧ t.opn.slots = [⟨x, some f⟩] ∧
      issueAndRun s = if t.opn.guards.getLsbD 0 then thenNext (exec f.op t) else .next (finishSlot t)

/-! ### Reset and the invariant (R20) -/

/-- What module reset leaves: every register of every bank is 0 but q0, which reads 1; no bank runs; the pools, latches and accumulators are 0; TSW,
PC and VFLAGS are 0; memory lists nothing, so it is in its canonical form (R20). That unwritten memory and the pools are 0 is the model's choice (log
2), and so are the values that the spec marks fw (log 3). -/
def Obligations.ResetState : Prop :=
  let b : Bank := State.reset.cl.bank
  State.reset.cl.run = none ∧ (∀ c : ClusterId, State.reset.clusterAt c = Cluster.blank c) ∧
  (∀ i : Fin 8, State.reset.cl.banks[i.val] = b) ∧
  (∀ r : Fin 32, b.file.s[r.val] = 0) ∧ (∀ r : Fin 16, b.file.h[r.val] = 0) ∧ b.file.q = 1 ∧
  (∀ l : Fin 6, b.lc[l.val] = 0 ∧ (b.loops[l.val]).active = false) ∧
  b.pc = 0 ∧ b.tsw = 0 ∧ b.wid = 0 ∧ b.trec = 0 ∧ b.frame = 0 ∧ b.tidx = 0 ∧ b.lrec = 0 ∧ b.slen = 0 ∧ b.coreEn = 0 ∧ b.skew = 0 ∧
  b.vl = 0 ∧ b.vtype = 0 ∧ b.gpos = 0 ∧ b.gseedA = 0 ∧ b.gseedB = 0 ∧ b.tpc = 0 ∧ b.tcause = 0 ∧ b.tval = 0 ∧ b.blkdone = 0 ∧
  (∀ k : Fin 8, (∀ r : Fin 16, (b.cores[k.val]).file.a[r.val] = 0 ∧ (b.cores[k.val]).file.v[r.val] = 0 ∧ (b.cores[k.val]).file.h[r.val] = 0 ∧
      ∀ l : Fin 6, ((b.cores[k.val]).stride[r.val])[l.val] = 0) ∧
    (∀ r : Fin 4, (b.cores[k.val]).file.m[r.val] = 0) ∧ (b.cores[k.val]).file.vflags = 0) ∧
  State.reset.mem = [] ∧ State.reset.memOk ∧ State.reset.cycle = 0 ∧ State.reset.tstep = 0

/-- Every step keeps main memory in its canonical form, whatever it stores and wherever: equal memories are equal data. The canonical form is the
model's own (log 2). -/
def Obligations.StepKeepsMemoryCanonical : Prop :=
  ∀ s t : State, s.memOk → step s = .next t → t.memOk

/-! ### Writes of registers (R17, R34) -/

/-- s0 and the predicate q0 are hard-wired: they read 0 and 1 in every state, and a write to either changes nothing (Table 01.5). The frame of a posted
register write of the sequencer, of core k, and of core k's array state: only the list of writes under way changes (for a predicate also its last
delivery cycle, R69), and every byte of memory stays (R17). A register write is delivered at its latency and not before, to its register alone: with
no other write under way, a write of s_d posted with latency L at cycle c is not in the register before cycle c + L and is from then on; every other
register keeps its value. The same for a predicate, a reference register, and an address register of core k, on the core's own timeline (R17, R34). -/
def Obligations.WritesArriveInTheirRegisters : Prop :=
  (
  ∀ (s : State) (lat : Nat) (v : Word) (p : Bool) (f : SeqFile),
    s.rs 0 = 0 ∧ s.rq 0 = true ∧ s.postS lat 0 v = s ∧ s.postQ lat 0 p = s ∧ (f.write (.s 0 v)).s = f.s ∧
    (f.write (.q 0 p)).q = f.q) ∧
  (
  ∀ (s : State) (lat : Nat),
    (∀ d v, let t := s.postS lat d v; t = s.modBank (fun b => { b with pend := t.cl.bank.pend }) ∧ t.mem = s.mem) ∧
    (∀ d v, let t := s.postQ lat d v
      t = s.modBank (fun b => { b with pend := t.cl.bank.pend, qLast := t.cl.bank.qLast }) ∧
      (∀ r : Fin 32, r ≠ d → t.cl.bank.qLast[r.val] = s.cl.bank.qLast[r.val]) ∧ t.mem = s.mem) ∧
    (∀ d v, let t := s.postH lat d v; t = s.modBank (fun b => { b with pend := t.cl.bank.pend }) ∧ t.mem = s.mem) ∧
    (∀ k w, let t := s.postCore k lat w
      t = s.modCoreBank k (fun c => { c with pend := (t.cl.bank.cores[k.val]).pend }) ∧ t.mem = s.mem) ∧
    (∀ k w, let t := s.postArray k lat w
      t = s.modCore k (fun c => { c with pend := (t.cl.cores[k.val]).pend }) ∧ t.mem = s.mem)) ∧
  (
  ∀ (s : State) (lat n : Nat), s.cl.bank.pend = [] →
    (∀ (d r : Fin 32) (v : Word), d ≠ 0 →
      ((s.postS lat d v).settle n).cl.bank.file.s[r.val] =
        if r = d ∧ s.cl.time + lat ≤ n then v else s.cl.bank.file.s[r.val]) ∧
    (∀ (d r : Fin 32) (v : Bool), d ≠ 0 →
      ((s.postQ lat d v).settle n).cl.bank.file.q.getLsbD r.val =
        if r = d ∧ s.cl.time + lat ≤ n then v else s.cl.bank.file.q.getLsbD r.val) ∧
    (∀ (d r : Fin 16) (v : Word),
      ((s.postH lat d v).settle n).cl.bank.file.h[r.val] =
        if r = d ∧ s.cl.time + lat ≤ n then v else s.cl.bank.file.h[r.val]) ∧
    (∀ (k j : Fin 8) (d r : Fin 16) (v : Word), (∀ i : Fin 8, (s.cl.bank.cores[i.val]).pend = []) →
      (((s.postCore k lat (.a d v)).settle n).cl.bank.cores[j.val]).file.a[r.val] =
        if j = k ∧ r = d ∧ s.coreTime k + lat ≤ coreCycle n s.cl.bank.skew k.val then v else (s.cl.bank.cores[j.val]).file.a[r.val]))

/-! ### NOP, prefixes, special registers (R31, R32, R38, R45 to R48) -/

/-- NOP has no effect beyond taking its place in a bundle, whatever its guard reads (a branch that a residual has resolved stands at no NOP, R281); it
is the word whose major opcode and operand field are zero, with any stop bit, binding mark and guard; a nonzero operand field is no instruction (R38).
-/
def Obligations.NopDoesNothing : Prop :=
  (∀ s : State, exec .nop s = .next s) ∧
  (∀ (s : State) (o : OpenBundle) (w : BitVec 32) (x : Slot), s.cl.opn = some o → o.stalled = false → o.bad = none →
    o.slots[o.idx]? = some ⟨w, some x⟩ → x.op = .nop → (∀ a, o.resolved ≠ some (o.idx, a)) → step s = .next (finishSlot s)) ∧
  (∀ (stop bind : Bool) (g : Fin 32),
    decodeSlot (stop.toNat * 2 ^ 31 + bind.toNat * 2 ^ 30 + g.val * 2 ^ 25) = .ok ⟨stop, bind, g, .nop, 0⟩) ∧
  (∀ (top x : Nat), top < 2 ^ 7 → 0 < x → x < 2 ^ 18 → ∃ r, decodeSlot (top * 2 ^ 25 + x) = .error r)

/-- CMP and CMPI write q_d alone, with the relation of cc between s_a and s_b or the immediate, with latency 1; a reserved cc is the illegal instruction
(R54). The predicate-logic group writes q_d alone; PSET and PCLR name q_d as the register of their slot (R55). PTOS writes s_d with the 32 predicates,
bit 0 being 1, and STOP posts q_1 to q_31 from the bits of s_a, and nothing else (R56). All have latency 1. A prefix only enters its value for the
slot it applies to (R31, R32): under EXT a signed immediate of w bits reads as a field of w + 16 bits, without one as its own w bits; under ORD the
slot acquires with an odd order and releases with order 2 or 3. -/
def Obligations.ComparesPredicatesAndPrefixes : Prop :=
  (
  ∀ (s : State) (d a b : Fin 32) (imm : BitVec 5) (cc : Fin 8),
    let holds (x y : Word) : Bool :=
      if cc = 0 then decide (x = y) else if cc = 1 then decide (x ≠ y) else if cc = 2 then decide (x.toInt < y.toInt)
      else if cc = 3 then decide (x.toInt ≥ y.toInt) else if cc = 4 then decide (x.toNat < y.toNat) else decide (x.toNat ≥ y.toNat)
    (cc.val < 6 → exec (.cmp d a b cc) s = .next (s.postQ 1 d (holds (s.rs a) (s.rs b))) ∧
      exec (.cmpi d a imm cc) s = .next (s.postQ 1 d (holds (s.rs a) (toWord (s.extImm 5 imm.toNat))))) ∧
    (6 ≤ cc.val → exec (.cmp d a b cc) s = .next (takeTrap s 0x01 s.slotWord 8) ∧
      exec (.cmpi d a imm cc) s = .next (takeTrap s 0x01 s.slotWord 8))) ∧
  (
  ∀ (s : State) (d a b : Fin 32),
    exec (.pand d a b) s = .next (s.postQ 1 d (s.rq a && s.rq b)) ∧
    exec (.por d a b) s = .next (s.postQ 1 d (s.rq a || s.rq b)) ∧
    exec (.pxor d a b) s = .next (s.postQ 1 d (s.rq a != s.rq b)) ∧
    exec (.pandn d a b) s = .next (s.postQ 1 d (s.rq a && !s.rq b)) ∧
    exec (.pnot d a) s = .next (s.postQ 1 d (!s.rq a)) ∧
    exec (.pmov d a) s = .next (s.postQ 1 d (s.rq a)) ∧
    exec .pset s = .next (s.postQ 1 s.sole true) ∧
    exec .pclr s = .next (s.postQ 1 s.sole false) ∧
    (∃ w : Word, exec .ptos s = .next (s.postS 1 s.sole w) ∧ w.getLsbD 0 = true ∧
      (∀ r : Fin 32, w.getLsbD r.val = s.rq r) ∧ ∀ i, 32 ≤ i → w.getLsbD i = false) ∧
    (s.cl.bank.pend = [] → ∃ t, exec .stop s = .next t ∧ t.mem = s.mem ∧
      t = s.modBank (fun b => { b with pend := t.cl.bank.pend, qLast := t.cl.bank.qLast }) ∧
      ∀ (r : Fin 32) (n : Nat), r ≠ 0 → (t.settle n).cl.bank.file.q.getLsbD r.val =
        if s.cl.time + 1 ≤ n then (s.rs s.sole).getLsbD r.val else s.cl.bank.file.q.getLsbD r.val)) ∧
  (
  ∀ (s : State) (o : OpenBundle), s.cl.opn = some o →
    (∀ v : BitVec 16, ∃ t, exec (.ext v) s = .next t ∧ t = s.modOpn (fun o => { o with ext := some v }) ∧
      ∀ w imm : Nat, imm < 2 ^ w → t.extImm w imm = (BitVec.ofNat (w + 16) (v.toNat * 2 ^ w + imm)).toInt) ∧
    (o.ext = none → ∀ w imm : Nat, imm < 2 ^ w → s.extImm w imm = (BitVec.ofNat w imm).toInt) ∧
    (∀ (sc : Fin 8) (od : Fin 4), ∃ t, exec (.ord sc od) s = .next t ∧ t = s.modOpn (fun o => { o with ord := some (sc, od) }) ∧
      (t.ordAcq = true ↔ od = 1 ∨ od = 3) ∧ (t.ordRel = true ↔ od = 2 ∨ od = 3)) ∧
    (o.ord = none → s.ordAcq = false ∧ s.ordRel = false))

/-- MFS writes s_d with the special register its number names, zero-extended, at latency 1 and changes nothing else; the sampled registers read as the
open bundle sampled them, and the others that a slot can change as they stood at issue (R44 to R46, R207, R312, Table 03.1). MTS and the
register-write steps write the special register with its own rule: SLEN takes the powers of two from 2^3 to 2^16 and traps with 0x0D otherwise, VL
takes min(v, VLMAX), CORE_EN and SKEW their low bits with latency 3, after a change of SKEW the bundle's last core is waited for (R47, log 6), a loop
counter its low 32 bits at once; an RW-S register takes the value in supervisor state only and raises the privilege trap 0x03 outside it; a number
that is unassigned or names an RO register is the illegal instruction (R44 to R48, R180, R312). -/
def Obligations.SpecialRegisterMoves : Prop :=
  (
  ∀ (s : State) (d : Fin 32),
    let b := s.cl.bank
    let o := s.opn
    (∀ (n : BitVec 8) (r : SpecialReg), SpecialReg.ofNum n = some r → exec (.mfs d n) s = .next (s.postS 1 d (readSpecial s r))) ∧
    exec (.mfs d 0x00) s = .next (s.postS 1 d o.pc) ∧
    exec (.mfs d 0x02) s = .next (s.postS 1 d b.wid) ∧ exec (.mfs d 0x03) s = .next (s.postS 1 d b.trec) ∧
    exec (.mfs d 0x04) s = .next (s.postS 1 d b.frame) ∧ exec (.mfs d 0x05) s = .next (s.postS 1 d b.tidx) ∧
    exec (.mfs d 0x06) s = .next (s.postS 1 d b.lrec) ∧
    exec (.mfs d 0x08) s = .next (s.postS 1 d (BitVec.ofNat 64 o.sampled.slen.toNat)) ∧
    exec (.mfs d 0x09) s = .next (s.postS 1 d (BitVec.ofNat 64 o.sampled.coreEn.toNat)) ∧
    exec (.mfs d 0x0A) s = .next (s.postS 1 d (BitVec.ofNat 64 o.sampled.skew.toNat)) ∧
    exec (.mfs d 0x0B) s = .next (s.postS 1 d (BitVec.ofNat 64 o.sampled.vl.toNat)) ∧
    exec (.mfs d 0x0C) s = .next (s.postS 1 d (BitVec.ofNat 64 o.sampled.vtype.toNat)) ∧
    exec (.mfs d 0x01) s = .next (s.postS 1 d (o.regs.tsw ||| (if b.checked then 0x200 else 0))) ∧
    exec (.mfs d 0x10) s = .next (s.postS 1 d (BitVec.ofNat 64 o.regs.gen.1.toNat)) ∧
    exec (.mfs d 0x18) s = .next (s.postS 1 d o.regs.tvb) ∧ exec (.mfs d 0x19) s = .next (s.postS 1 d o.regs.tpc) ∧
    exec (.mfs d 0x1A) s = .next (s.postS 1 d (BitVec.ofNat 64 o.regs.tcause.toNat)) ∧ exec (.mfs d 0x1B) s = .next (s.postS 1 d o.regs.tval) ∧
    exec (.mfs d 0x20) s = .next (s.postS 1 d o.regs.blk) ∧ exec (.mfs d 0x21) s = .next (s.postS 1 d (BitVec.ofNat 64 s.tstepNow)) ∧
    (∀ l : Fin 6, exec (.mfs d (BitVec.ofNat 8 (0x28 + l.val))) s = .next (s.postS 1 d (BitVec.ofNat 64 (o.regs.lc[l.val]).toNat))) ∧
    ∀ n : BitVec 8, SpecialReg.ofNum n = none → exec (.mfs d n) s = .next (takeTrap s 0x01 s.slotWord 8)) ∧
  (
  ∀ (s : State) (a : Fin 32),
    let v := s.rs a
    let sup := s.sup = true
    ((∃ m, 3 ≤ m ∧ m ≤ 16 ∧ v.toNat = 2 ^ m) → exec (.mts a 0x08) s = .next (s.post 3 (.slen (BitVec.ofNat 17 v.toNat)))) ∧
    ((¬∃ m, 3 ≤ m ∧ m ≤ 16 ∧ v.toNat = 2 ^ m) → exec (.mts a 0x08) s = .next (takeTrap s 0x0D v 8)) ∧
    exec (.mts a 0x09) s = .next (s.post 3 (.coreEn (BitVec.ofNat 8 v.toNat))) ∧
    exec (.mts a 0x0A) s = .next ((s.post 3 (.skew (BitVec.ofNat 2 v.toNat))).modOpn fun o =>
      { o with drain := max o.drain (max 2 (7 * o.sampled.skew.toNat)) }) ∧
    exec (.mts a 0x0B) s = .next (s.post 3 (.vl (BitVec.ofNat 16 (min v.toNat (vlMax s.opn.sampled.vtype))))) ∧
    (v.toNat % 2 ^ 16 < 32 → v.toNat / 2 % 4 ≠ 3 → exec (.mts a 0x0C) s = .next (s.post 1 (.vtype (BitVec.ofNat 16 v.toNat)))) ∧
    (32 ≤ v.toNat % 2 ^ 16 ∨ v.toNat / 2 % 4 = 3 → exec (.mts a 0x0C) s = .next (takeTrap s 0x0D v 8)) ∧
    (∀ l : Fin 6, exec (.mts a (BitVec.ofNat 8 (0x28 + l.val))) s =
      .next (s.modBank fun b => { b with lc := b.lc.set l.val (BitVec.ofNat 32 v.toNat) l.isLt })) ∧
    (sup → exec (.mts a 0x01) s = .next (s.post 3 (.tsw v)) ∧ exec (.mts a 0x18) s = .next (s.post 1 (.tvb v)) ∧
      exec (.mts a 0x19) s = .next (s.post 1 (.tpc v)) ∧ exec (.mts a 0x1A) s = .next (s.post 1 (.tcause (BitVec.ofNat 8 v.toNat))) ∧
      exec (.mts a 0x1B) s = .next (s.post 1 (.tval v))) ∧
    (¬sup → ∀ n : BitVec 8, n = 0x01 ∨ n = 0x18 ∨ n = 0x19 ∨ n = 0x1A ∨ n = 0x1B → exec (.mts a n) s = .next (takeTrap s 0x03 s.slotWord 8)) ∧
    (∀ n : BitVec 8, SpecialReg.writable n = false → exec (.mts a n) s = .next (takeTrap s 0x01 s.slotWord 8)) ∧
    -- the register-write steps, on the value of the step
    (let u := s.ev.value
     ((∃ m, 3 ≤ m ∧ m ≤ 16 ∧ u.toNat = 2 ^ m) → exec .slenWrite s = .next (s.post 3 (.slen (BitVec.ofNat 17 u.toNat)))) ∧
     exec .vlWrite s = .next (s.post 3 (.vl (BitVec.ofNat 16 (min u.toNat (vlMax s.opn.sampled.vtype))))) ∧
     (u.toNat % 2 ^ 16 < 32 → u.toNat / 2 % 4 ≠ 3 → exec .vtypeWrite s = .next (s.post 1 (.vtype (BitVec.ofNat 16 u.toNat)))) ∧
     exec .coreEnWrite s = .next (s.post 3 (.coreEn (BitVec.ofNat 8 u.toNat))) ∧
     exec .skewWrite s = .next ((s.post 3 (.skew (BitVec.ofNat 2 u.toNat))).modOpn fun o =>
       { o with drain := max o.drain (max 2 (7 * o.sampled.skew.toNat)) }) ∧
     exec .tswWrite s = .next (s.post 3 (.tsw u))) ∧
    -- what a delivered write leaves of TSW
    ∀ (b : Bank) (x : Word) (i : Nat), i < 64 →
      (b.write (.tsw x)).tsw.getLsbD i =
        if i = 0 ∨ i = 8 ∨ i = 10 ∨ (13 ≤ i ∧ i ≤ 15) ∨ 48 ≤ i then x.getLsbD i else i = 11 && b.tsw.getLsbD 11)

/-! ### Scalar arithmetic (R49 to R57) -/

/-- The three-register arithmetic writes s_d alone, with the value of Table 03.5 and its latency, and with d = 0 nothing; the 32-bit forms keep the
low 32 bits of their result, sign-extended (R49). The forms of Table 03.5 that work on bits: each result bit from the bits of the operands (R49). The
immediate forms: ADDI to XORI on the sign-extended immediate, the shifts by sh6, MOVI, and SHORI on s_d as it reads at issue; each writes s_d alone
with latency 1 (R51 to R53). -/
def Obligations.ScalarIntegerForms : Prop :=
  (
  ∀ (s : State) (d a b : Fin 32),
    let x := s.rs a
    let y := s.rs b
    let n := y.toNat % 64
    let m := y.toNat % 32
    let w := 2 ^ 32
    exec (.add d a b) s = .next (s.postS 1 d (toWord (x.toInt + y.toInt))) ∧
    exec (.sub d a b) s = .next (s.postS 1 d (toWord (x.toInt - y.toInt))) ∧
    exec (.sll d a b) s = .next (s.postS 1 d (BitVec.ofNat 64 (x.toNat * 2 ^ n))) ∧
    exec (.srl d a b) s = .next (s.postS 1 d (BitVec.ofNat 64 (x.toNat / 2 ^ n))) ∧
    exec (.sra d a b) s = .next (s.postS 1 d (toWord (x.toInt / 2 ^ n))) ∧
    exec (.mul d a b) s = .next (s.postS 3 d (BitVec.ofNat 64 (x.toNat * y.toNat))) ∧
    exec (.mulhs d a b) s = .next (s.postS 3 d (toWord (x.toInt * y.toInt / 2 ^ 64))) ∧
    exec (.mulhu d a b) s = .next (s.postS 3 d (BitVec.ofNat 64 (x.toNat * y.toNat / 2 ^ 64))) ∧
    exec (.min d a b) s = .next (s.postS 1 d (toWord (min x.toInt y.toInt))) ∧
    exec (.max d a b) s = .next (s.postS 1 d (toWord (max x.toInt y.toInt))) ∧
    exec (.minu d a b) s = .next (s.postS 1 d (BitVec.ofNat 64 (min x.toNat y.toNat))) ∧
    exec (.maxu d a b) s = .next (s.postS 1 d (BitVec.ofNat 64 (max x.toNat y.toNat))) ∧
    exec (.addw d a b) s = .next (s.postS 1 d (toWord ((x.toInt + y.toInt).bmod w))) ∧
    exec (.subw d a b) s = .next (s.postS 1 d (toWord ((x.toInt - y.toInt).bmod w))) ∧
    exec (.mulw d a b) s = .next (s.postS 3 d (toWord ((x.toInt * y.toInt).bmod w))) ∧
    exec (.sllw d a b) s = .next (s.postS 1 d (toWord (((x.toNat * 2 ^ m : Nat) : Int).bmod w))) ∧
    exec (.srlw d a b) s = .next (s.postS 1 d (toWord (((x.toNat % w / 2 ^ m : Nat) : Int).bmod w))) ∧
    exec (.sraw d a b) s = .next (s.postS 1 d (toWord ((x.toInt.bmod w) / 2 ^ m)))) ∧
  (
  ∀ (s : State) (d a b : Fin 32),
    let x := s.rs a
    let y := s.rs b
    let n := y.toNat % 64
    (∃ r, exec (.and d a b) s = .next (s.postS 1 d r) ∧ ∀ i, i < 64 → r.getLsbD i = (x.getLsbD i && y.getLsbD i)) ∧
    (∃ r, exec (.or d a b) s = .next (s.postS 1 d r) ∧ ∀ i, i < 64 → r.getLsbD i = (x.getLsbD i || y.getLsbD i)) ∧
    (∃ r, exec (.xor d a b) s = .next (s.postS 1 d r) ∧ ∀ i, i < 64 → r.getLsbD i = (x.getLsbD i != y.getLsbD i)) ∧
    (∃ r, exec (.andn d a b) s = .next (s.postS 1 d r) ∧ ∀ i, i < 64 → r.getLsbD i = (x.getLsbD i && !y.getLsbD i)) ∧
    (∃ r, exec (.rotl d a b) s = .next (s.postS 1 d r) ∧ ∀ i, i < 64 → r.getLsbD ((i + n) % 64) = x.getLsbD i) ∧
    (∃ r, exec (.rotr d a b) s = .next (s.postS 1 d r) ∧ ∀ i, i < 64 → r.getLsbD i = x.getLsbD ((i + n) % 64)) ∧
    (∃ r, exec (.brev d a) s = .next (s.postS 1 d r) ∧ ∀ i, i < 64 → r.getLsbD i = x.getLsbD (63 - i)) ∧
    (∃ m, exec (.clz d a) s = .next (s.postS 1 d (BitVec.ofNat 64 m)) ∧ m ≤ 64 ∧ (∀ i, i < m → x.getLsbD (63 - i) = false) ∧
      (m < 64 → x.getLsbD (63 - m) = true)) ∧
    (∃ m, exec (.ctz d a) s = .next (s.postS 1 d (BitVec.ofNat 64 m)) ∧ m ≤ 64 ∧ (∀ i, i < m → x.getLsbD i = false) ∧
      (m < 64 → x.getLsbD m = true)) ∧
    exec (.popc d a) s = .next (s.postS 1 d (BitVec.ofNat 64 ((List.range 64).countP fun i => x.getLsbD i)))) ∧
  (
  ∀ (s : State) (d a : Fin 32),
    let x := s.rs a
    (∀ imm : BitVec 8,
      let y := toWord (s.extImm 8 imm.toNat)
      exec (.addi d a imm) s = .next (s.postS 1 d (toWord (x.toInt + s.extImm 8 imm.toNat))) ∧
      (∃ r, exec (.andi d a imm) s = .next (s.postS 1 d r) ∧ ∀ i, i < 64 → r.getLsbD i = (x.getLsbD i && y.getLsbD i)) ∧
      (∃ r, exec (.ori d a imm) s = .next (s.postS 1 d r) ∧ ∀ i, i < 64 → r.getLsbD i = (x.getLsbD i || y.getLsbD i)) ∧
      (∃ r, exec (.xori d a imm) s = .next (s.postS 1 d r) ∧ ∀ i, i < 64 → r.getLsbD i = (x.getLsbD i != y.getLsbD i))) ∧
    (∀ sh : Fin 64,
      exec (.slli d a sh) s = .next (s.postS 1 d (BitVec.ofNat 64 (x.toNat * 2 ^ sh.val))) ∧
      exec (.srli d a sh) s = .next (s.postS 1 d (BitVec.ofNat 64 (x.toNat / 2 ^ sh.val))) ∧
      exec (.srai d a sh) s = .next (s.postS 1 d (toWord (x.toInt / 2 ^ sh.val)))) ∧
    (∀ imm : BitVec 13, exec (.movi d imm) s = .next (s.postS 1 d (toWord (s.extImm 13 imm.toNat)))) ∧
    ∀ imm : BitVec 13, exec (.shori d imm) s = .next (s.postS 1 d (BitVec.ofNat 64 ((s.rs d).toNat * 2 ^ 13 + imm.toNat))))

/-- DIV, DIVU, REM and REMU truncate toward zero and give the values of R50 where the divisor is 0 and where the quotient does not fit; the sign of a
nonzero remainder is the sign of the dividend (R50). -/
def Obligations.DivisionTruncatesTowardZero : Prop :=
  ∀ (s : State) (d a b : Fin 32),
    let x := s.rs a
    let y := s.rs b
    let fits := ¬(x.toInt = -(2 ^ 63) ∧ y.toInt = -1)
    (y.toInt = 0 → exec (.div d a b) s = .next (s.postS 18 d 0xFFFFFFFFFFFFFFFF) ∧ exec (.rem d a b) s = .next (s.postS 18 d x)) ∧
    (y.toInt ≠ 0 → ¬fits → exec (.div d a b) s = .next (s.postS 18 d x) ∧ exec (.rem d a b) s = .next (s.postS 18 d 0)) ∧
    (y.toInt ≠ 0 → fits → ∃ q r : Int, x.toInt = q * y.toInt + r ∧ |r| < |y.toInt| ∧ (r ≠ 0 → (r < 0 ↔ x.toInt < 0)) ∧
      -(2 ^ 63) ≤ q ∧ q < 2 ^ 63 ∧
      exec (.div d a b) s = .next (s.postS 18 d (toWord q)) ∧ exec (.rem d a b) s = .next (s.postS 18 d (toWord r))) ∧
    (y.toNat = 0 → exec (.divu d a b) s = .next (s.postS 18 d 0xFFFFFFFFFFFFFFFF) ∧ exec (.remu d a b) s = .next (s.postS 18 d x)) ∧
    (y.toNat ≠ 0 → ∃ q r : Nat, x.toNat = q * y.toNat + r ∧ r < y.toNat ∧
      exec (.divu d a b) s = .next (s.postS 18 d (BitVec.ofNat 64 q)) ∧ exec (.remu d a b) s = .next (s.postS 18 d (BitVec.ofNat 64 r)))

/-- XPUT posts s_a to a_d of every enabled core, and no other core, with latency 2; XGET writes s_d with a_b of the core it names, enabled or not, 3
cycles after that core reaches the bundle; neither changes anything else (R57). The core-side scalar slots. The address-register group posts a_d, or a
stride, in every enabled core, and nothing else: AADDI and AADD add, ASHL shifts, AMOV copies a register or sets a stride to the low 32 bits, sign-
extended, ARANK gives the core's number; levels 6 and 7 are illegal (R160). GLD, GST and GAMO issue one access in every enabled core, at that core's
address, and change nothing else: no register and no byte of memory (R161, R163); the translation is one that the core's TLB holds, or a window. -/
def Obligations.CoreScalarSlotsAndMoves : Prop :=
  (
  ∀ (s : State) (r : Fin 32) (c : Fin 16),
    CoresPost (.xput c r) s 2 (fun _ => [.a c (s.rs r)]) ∧
    ∀ k : Fin 8, exec (.xget r c k) s = .next (s.postS (k.val * s.opn.sampled.skew.toNat + 3) r (s.ra k c))) ∧
  (
  ∀ (s : State) (d a b : Fin 16) (imm disp : BitVec 7) (sh : Fin 64) (size : Fin 4) (u w : Bool) (op : Fin 8) (l : Fin 8 → Loc),
    CoresPost (.aaddi d a imm) s 1 (fun k => [.a d (toWord ((s.ra k a).toInt + s.extImm 7 imm.toNat))]) ∧
    CoresPost (.aadd d a b) s 1 (fun k => [.a d (toWord ((s.ra k a).toInt + (s.ra k b).toInt))]) ∧
    CoresPost (.ashl d a sh) s 1 (fun k => [.a d (BitVec.ofNat 64 ((s.ra k a).toNat * 2 ^ sh.val))]) ∧
    (∀ l : Fin 6, CoresPost (.amovStride d a ⟨l.val, by omega⟩) s 1 (fun k => [.stride d l (toWord ((s.ra k a).toInt.bmod (2 ^ 32)))])) ∧
    (∀ v : Fin 8, 6 ≤ v.val → exec (.amovStride d a v) s = .next (takeTrap s 0x01 s.slotWord 8)) ∧
    CoresPost (.amov d a) s 1 (fun k => [.a d (s.ra k a)]) ∧
    CoresPost (.arank d) s 1 (fun k => [.a d (BitVec.ofNat 64 k.val)]) ∧
    (let n : Nat := 2 ^ size.val
     let ea (k : Fin 8) : Word := toWord ((s.ra k a).toNat + s.extImm 7 disp.toNat * n)
     let m : Nat := if w then 4 else 8
     (CoresReach s .load {} ea n l →
       CoresIssue (.gld d a size u disp) s .load (.coreA d n (!u)) (fun k => { va := ea k, loc := l k, size := n, kind := .load })) ∧
     (CoresReach s .store { write := true } ea n l →
       CoresIssue (.gst d a size disp) s .store .none (fun k => { va := ea k, loc := l k, size := n, kind := .store (s.ra k d) })) ∧
     (CoresReach s .load { write := true } (fun k => s.ra k a) m l →
       CoresIssue (.gamo d a b w op) s .load (.coreA d m true)
         (fun k => { va := s.ra k a, loc := l k, size := m, kind := .rmw ⟨op, s.ra k b, s.ra k d⟩ }))))

/-! ### Branches and loops (R60 to R66) -/

/-- BR, CALL, JR, JALR and RET: the slot leaves its target to the end of the bundle, CALL and JALR also post the address of the word after the bundle,
and nothing else changes; a target that is not 4-byte aligned raises the alignment trap at the slot, and the branch is not taken (R60, R61). -/
def Obligations.Branches : Prop :=
  ∀ (s : State) (o : OpenBundle), s.cl.opn = some o →
    let after := o.pc + BitVec.ofNat 64 (4 * o.slots.length)
    let takes (i : Instr) (s1 : State) (target : Word) : Prop :=
      (target.toNat % 4 = 0 → exec i s = .next (s1.modOpn fun o => { o with branch := some (.taken target) })) ∧
      (target.toNat % 4 ≠ 0 → exec i s = .next (takeTrap s 0x08 target 8))
    (∀ disp : BitVec 18,
      let target := toWord (o.pc.toNat + 4 * s.extImm 18 disp.toNat)
      takes (.br disp) s target ∧ takes (.call disp) (s.postS 1 31 after) target) ∧
    takes .jr s (s.rs s.sole) ∧
    (∀ d a : Fin 32, takes (.jalr d a) (s.postS 1 d after) (s.rs a)) ∧
    takes .ret s (s.rs 31)

/-- A taken BR, CALL, JR, JALR or RET ends every active loop level: the slot leaves its target to the end of its bundle; there the next address is the
target, every level is inactive, no strides are added, and lc0 to lc5 keep their values, as if LOOPX had exited level 0 (R62). -/
def Obligations.TakenBranchEndsEveryLoop : Prop :=
  (∀ (s : State) (o : OpenBundle) (i : Instr) (target : Word), s.cl.opn = some o → target.toNat % 4 = 0 →
    ((∃ disp : BitVec 18, (i = .br disp ∨ i = .call disp) ∧ target = toWord (o.pc.toNat + 4 * s.extImm 18 disp.toNat)) ∨
      (i = .jr ∧ target = s.rs s.sole) ∨ (∃ d a : Fin 32, i = .jalr d a ∧ target = s.rs a) ∨ (i = .ret ∧ target = s.rs 31)) →
    ∃ t, exec i s = .next t ∧ t.cl.opn = some { o with branch := some (.taken target) }) ∧
  ∀ (t : Nat) (b : Bank) (o : OpenBundle) (target : Word), o.next = none → o.branch = some (.taken target) →
    ∃ b', endNext t o b = (b', target) ∧ b' = { b with loops := b'.loops } ∧
      (∀ l : Fin 6, b'.loops[l.val] = { b.loops[l.val] with active := false }) ∧
      ∀ after : Word, b' = (b.branch t (.loopx 0 after)).1

/-- LOOP at level l, with every level below active, none at or above, and an end within the body of level l − 1: with a count it leaves the loop to
the end of its bundle, where lc[l] takes the count, the level becomes active and the body begins; with count 0 the bundle after the body's last one is
next and no level changes. A LOOP that breaks a rule traps with 0x11, level 6 or 7 with 0x01 (R63, R64). LOOPX and LOOPC at an active level leave
their action to the end of the bundle, with the address after the level's last bundle, which LOOPC needs in the last iteration only; at an inactive
level they trap with 0x11, at level 6 or 7 with 0x01. At the end of the bundle LOOPX makes its level and those above inactive and ends the iterations
of lower levels that share the end bundle, and LOOPC makes those above inactive and ends the iteration of its own level and of those that share its
end (R66). The end of an iteration: every core, enabled or not, adds the level's strides to a0 to a15, the counter is decremented, and the next bundle
is the first of the body, or in the last iteration the level becomes inactive and the levels below that end there too end theirs; no register of the
sequencer changes (R65). That the bundle at the end address is fetched at the slot, for LOOP with count 0 and for LOOPX and LOOPC where no level loops
back, by the counters of the slot or of the end of the bundle, is the model's choice (log 31). -/
def Obligations.LoopForms : Prop :=
  (
  ∀ (s : State) (o : OpenBundle) (l : Fin 6) (a : Fin 32) (fin : BitVec 10), s.cl.opn = some o →
    let b := s.cl.bank
    let start := o.pc + BitVec.ofNat 64 (4 * o.slots.length)
    let last := start + BitVec.ofNat 64 (4 * fin.toNat)
    let count := BitVec.ofNat 32 (s.rs a).toNat
    let i : Instr := .loop ⟨l.val, by omega⟩ a fin
    let rules := (∀ j : Fin 6, (b.loops[j.val]).active = decide (j.val < l.val)) ∧
      ∀ j : Fin 6, j.val + 1 = l.val → last.toNat ≤ (b.loops[j.val]).last.toNat
    (rules → count ≠ 0 → exec i s = .next (s.modOpn fun o => { o with branch := some (.loop l count start last last) })) ∧
    (rules → count = 0 → ∀ s1 after, afterBundle s last = .ok (s1, after) →
      exec i s = .next (s1.modOpn fun o => { o with branch := some (.loop l 0 start last after) })) ∧
    (¬rules → exec i s = .next (takeTrap s 0x11 s.slotWord 8)) ∧
    (∀ level : Fin 8, 6 ≤ level.val → exec (.loop level a fin) s = .next (takeTrap s 0x01 s.slotWord 8)) ∧
    -- the end of the bundle
    (∀ (t : Nat) (p : OpenBundle) (n : BitVec 32) (after : Word), p.next = none → p.branch = some (.loop l n start last after) →
      (n = 0 → endNext t p b = (b, after)) ∧
      (n ≠ 0 → ∃ b', endNext t p b = (b', start) ∧ b' = { b with lc := b'.lc, loops := b'.loops } ∧
        (∀ j : Fin 6, j ≠ l → b'.lc[j.val] = b.lc[j.val] ∧ b'.loops[j.val] = b.loops[j.val]) ∧
        b'.lc[l.val] = n ∧ (b'.loops[l.val]).active = true ∧ (b'.loops[l.val]).start = start ∧ (b'.loops[l.val]).last = last))) ∧
  (
  ∀ (s : State) (l : Fin 6),
    let b := s.cl.bank
    let lv := b.loops[l.val]
    let level : Fin 8 := ⟨l.val, by omega⟩
    -- none of the levels below m loops back at the end bundle, with the counters of now or of the end of the bundle
    let leaves (m : Nat) : Prop :=
      (∀ h, endsIteration b (fun l => b.lc[l.val]) lv.last m h = true → b.lc[h.val] = 1) ∨
      ∀ h, endsIteration b (lcAtEnd s) lv.last m h = true → lcAtEnd s h = 1
    let acts (i : Instr) (m : Nat) (act : Word → BranchAct) : Prop :=
      (leaves m → ∀ s1 after, afterBundle s lv.last = .ok (s1, after) →
        exec i s = .next (s1.modOpn fun o => { o with branch := some (act after) })) ∧
      (¬leaves m → exec i s = .next (s.modOpn fun o => { o with branch := some (act lv.last) }))
    (lv.active = true → acts (.loopx level) l.val (.loopx l) ∧ acts (.loopc level) (l.val + 1) (.loopc l)) ∧
    (lv.active = false → exec (.loopx level) s = .next (takeTrap s 0x11 s.slotWord 8) ∧
      exec (.loopc level) s = .next (takeTrap s 0x11 s.slotWord 8)) ∧
    (∀ v : Fin 8, 6 ≤ v.val → exec (.loopx v) s = .next (takeTrap s 0x01 s.slotWord 8) ∧
      exec (.loopc v) s = .next (takeTrap s 0x01 s.slotWord 8))) ∧
  (
  ∀ (t : Nat) (b b1 : Bank) (o : OpenBundle) (l : Fin 6) (after : Word), o.next = none → (∀ k : Fin 8, (b.cores[k.val]).pend = []) →
    let inactive (p : Fin 6 → Prop) [DecidablePred p] : Prop := b1 = { b with loops := b1.loops } ∧
      ∀ j : Fin 6, b1.loops[j.val] = if p j then { b.loops[j.val] with active := false } else b.loops[j.val]
    (o.branch = some (.loopx l after) → inactive (fun j => l.val ≤ j.val) →
      ∃ b' next, endNext t o b = (b', next.getD after) ∧ IterationsEnd b1 b' (b.loops[l.val]).last l.val next) ∧
    (o.branch = some (.loopc l after) → inactive (fun j => l.val < j.val) →
      ∃ b' next, endNext t o b = (b', next.getD after) ∧ IterationsEnd b1 b' (b.loops[l.val]).last (l.val + 1) next) ∧
    (o.branch = none → ∃ b' next, endNext t o b = (b', next.getD (o.pc + BitVec.ofNat 64 (4 * o.slots.length))) ∧ IterationsEnd b b' o.pc 6 next))

/-! ### Waiting (R67, R90, R306, R331) -/

/-- WAIT, FENCE, TWAIT and TLBSYNC. With no error pending, WAIT lets its bundle go on and holds the next one until every enabled core has reached the
bundle and every counted agent's operations are within its counts; an error that is pending when the test passes traps then at the WAIT, a machine
check before a courier error (R136, R138, R317; log 34); FENCE holds it until the operations issued before it by the sequencer and the enabled cores
are performed, and the slots right of it come after them. TWAIT at its time changes nothing, and TLBSYNC with no invalidation of the bank under way
only performs the writes to pool bytes of the slots left of it (log 5); where their condition is not met, the bundle waits at the slot. FENCE with
order 0 or scope 5 to 7 is illegal. LD, LDU, ST, AMO and AMOW at an address that is aligned, of the right form and translated, with room for one more
operation of the class: the slot only issues the access, at the effective address, for the bytes that the translation gives; no register and no byte
of memory changes until the access is performed. A misaligned address raises the alignment trap with TVAL the address (R58, R308). -/
def Obligations.SequencerMemoryForms : Prop :=
  (
  ∀ (s : State) (o : OpenBundle) (last : Nat), s.cl.opn = some o → tswMcp s.cl.bank.tsw = false → s.cl.bank.courierErrs = [] → o.abandon = false →
    -- the bundle's last enabled core has reached it
    (∀ k : Fin 8, o.sampled.coreEn.getLsbD k.val = true → k.val ≤ last) → (last = 0 ∨ o.sampled.coreEn.getLsbD last = true) →
    let drained := s.modOpn fun o => { o with drain := max o.drain (last * o.sampled.skew.toNat) }
    (∀ ld st cp tl : Fin 16, exec (.wait ld st cp tl) s =
      .next (drained.modBank fun b => { b with holds := b.holds ++ [.wait ld.val st.val cp.val tl.val o.sampled.coreEn o.pc (waitReentry o)] })) ∧
    (∀ (order : Fin 4) (scope : Fin 8),
      (order = 0 ∨ 5 ≤ scope.val → exec (.fence order scope) s = .next (takeTrap s 0x01 s.slotWord 8)) ∧
      (order ≠ 0 → scope.val < 5 → exec (.fence order scope) s =
        .next ((drained.modBank fun b => { b with holds := b.holds ++ [.fence s.cl.nextOp o.sampled.coreEn] }).modOpn fun o =>
          { o with fence := s.cl.nextOp }))) ∧
    ((s.rs s.sole).toNat ≤ s.tstepNow → exec .twait s = .next s) ∧
    (s.tstepNow < (s.rs s.sole).toNat → exec .twait s = .next (s.modOpn fun o => { o with stalled := true })) ∧
    (s.cl.bank.tlbinvs = [] → exec .tlbsync s = .next (commitLate s)) ∧
    (s.cl.bank.tlbinvs ≠ [] → exec .tlbsync s = .next ((commitLate s).modOpn fun o => { o with stalled := true }))) ∧
  (
  -- the holds that WAIT and FENCE leave
  ∀ (s : State) (rest : List Hold) (en : BitVec 8) (ld st cp tl upto : Nat) (at_ : Word) (re : Reentry),
    let counted (a : Fin 9) : Prop := a = 8 ∨ ∃ k : Fin 8, coreOf a = some k ∧ en.getLsbD k.val = true
    (s.cl.bank.holds ≠ [] → canIssue s = false) ∧
    (s.cl.bank.holds = .wait ld st cp tl en at_ re :: rest →
      let met := ∀ a, counted a → outstanding s.cl s.bankNo s.cl.bank a .load ≤ ld ∧ outstanding s.cl s.bankNo s.cl.bank a .store ≤ st ∧
        outstanding s.cl s.bankNo s.cl.bank a .copy ≤ cp ∧ outstanding s.cl s.bankNo s.cl.bank a .tile ≤ tl
      let go := s.modBank fun b => { closeWindows b en ld with holds := rest }
      (met → tswMcp s.cl.bank.tsw = false → s.cl.bank.courierErrs = [] → releaseHolds s = go) ∧
      (met → tswMcp s.cl.bank.tsw = true →
        releaseHolds s = holdTrap (go.modBank fun b => { b with tsw := b.tsw &&& ~~~(0x800 : Word) }) 0x16 s.cl.bank.mcAddr at_ re) ∧
      (∀ id cause more, met → tswMcp s.cl.bank.tsw = false → s.cl.bank.courierErrs = (id, cause) :: more →
        releaseHolds s = holdTrap (go.modBank fun b => { b with courierErrs := more }) (if cause = 0x16 then 0x16 else 0x12) (BitVec.ofNat 64 id) at_ re 0) ∧
      (¬met → releaseHolds s = s)) ∧
    (s.cl.bank.holds = .fence upto en :: rest →
      let met := ∀ o ∈ s.cl.bank.ops, counted o.agent → upto ≤ o.id
      (met → releaseHolds s = s.modBank fun b => { b with holds := rest }) ∧ (¬met → releaseHolds s = s))) ∧
  (
  ∀ (s : State) (d a b : Fin 32) (size : Fin 4) (disp : BitVec 6) (op : Fin 8),
    let n : Nat := 2 ^ size.val
    let ea := toWord ((s.rs a).toNat + s.extImm 6 disp.toNat * n)
    let issues (i : Instr) (cls : WaitClass) (u : Use) (ea : Word) (n : Nat) (dest : Dest) (kind : AccKind) : Prop :=
      ea.toNat % n = 0 → ea.toNat < 2 ^ 57 → outstanding s.cl s.bankNo s.cl.bank 8 cls < 32 →
      ∀ s1 l, locate s s.seqWho u ea n = .ok (s1, l) →
        SequencerIssues i s s1 s.cl.bank cls dest { va := ea, loc := l, size := n, kind := kind }
    issues (.ld d a size disp) .load {} ea n (.seqS d n true) .load ∧
    issues (.ldu d a size disp) .load {} ea n (.seqS d n false) .load ∧
    issues (.st d a size disp) .store { write := true } ea n .none (.store (s.rs d)) ∧
    issues (.amo d a b op) .load { write := true } (s.rs a) 8 (.seqS d 8 true) (.rmw ⟨op, s.rs b, s.rs d⟩) ∧
    issues (.amow d a b op) .load { write := true } (s.rs a) 4 (.seqS d 4 true) (.rmw ⟨op, s.rs b, s.rs d⟩) ∧
    (ea.toNat % n ≠ 0 → outstanding s.cl s.bankNo s.cl.bank 8 .load < 32 → outstanding s.cl s.bankNo s.cl.bank 8 .store < 32 →
      exec (.ld d a size disp) s = .next (takeTrap s 0x08 ea 8) ∧ exec (.ldu d a size disp) s = .next (takeTrap s 0x08 ea 8) ∧
      exec (.st d a size disp) s = .next (takeTrap s 0x08 ea 8)))

/-! ### Loads, stores and atomics of the sequencer (R58, R59, R308) -/

/-- An access of main memory is performed (ASYNC_ACCESS_COMPLETE), for the one operation of the running bank, with no memory error known and no
coherence trace. A load leaves memory; a store changes the n bytes at its address and no other byte; an atomic replaces them by the value of the
table of R308. The destination alone takes the old n bytes, least significant first, extended as the slot says (R5, R58, R161, R308). -/
def Obligations.AccessIsPerformed : Prop :=
  (∀ (n old : Nat) (x cmp : Word), (n = 4 ∨ n = 8) → old < 2 ^ (8 * n) →
    let m := 2 ^ (8 * n)
    let y := x.toNat % m
    let sg (v : Nat) : Int := (BitVec.ofNat (8 * n) v).toInt
    rmwValue ⟨0, x, cmp⟩ n old = some y ∧ rmwValue ⟨1, x, cmp⟩ n old = some ((old + y) % m) ∧
    rmwValue ⟨2, x, cmp⟩ n old = some (old &&& y) ∧ rmwValue ⟨3, x, cmp⟩ n old = some (old ||| y) ∧
    rmwValue ⟨4, x, cmp⟩ n old = some (old ^^^ y) ∧
    rmwValue ⟨5, x, cmp⟩ n old = some (if sg old ≤ sg y then old else y) ∧
    rmwValue ⟨6, x, cmp⟩ n old = some (if sg old ≥ sg y then old else y) ∧
    rmwValue ⟨7, x, cmp⟩ n old = (if old = cmp.toNat % m then some y else none)) ∧
  ∀ (s : State) (o : MemOp) (a : Access) (pa : Nat), s.memOk → SoleAccess s o a pa →
    let old := s.mem.read pa a.size
    let b := s.cl.bank
    let bytes (v x : Nat) : Byte := if pa ≤ x ∧ x < pa + a.size then BitVec.ofNat 8 (v / 256 ^ (x - pa)) else s.mem.get x
    ∃ t, exec .asyncAccessComplete s = .next t ∧ t.cl.bank.ops = [] ∧ t.cl.bank.pc = b.pc ∧
      (a.kind = .load → t.mem = s.mem) ∧
      (∀ v : Word, a.kind = .store v → ∀ x, t.mem.get x = bytes v.toNat x) ∧
      (∀ r : Rmw, a.kind = .rmw r → ∀ x, t.mem.get x = (match rmwValue r a.size old with | some v => bytes v x | none => s.mem.get x)) ∧
      (o.dest = .none → t.cl.bank.file = b.file ∧ t.cl.bank.cores = b.cores) ∧
      (∀ (d : Fin 32) (n : Nat) (sg : Bool), o.dest = .seqS d n sg → (∀ v, a.kind ≠ .store v) →
        t.cl.bank.cores = b.cores ∧
        t.cl.bank.file = { b.file with s := if d = 0 then b.file.s else b.file.s.set d.val (extend sg n (BitVec.ofNat 64 old)) d.isLt }) ∧
      (∀ d : Fin 16, o.dest = .seqH d → (∀ v, a.kind ≠ .store v) →
        t.cl.bank.cores = b.cores ∧ t.cl.bank.file = { b.file with h := b.file.h.set d.val (BitVec.ofNat 64 old) d.isLt }) ∧
      (∀ (k : Fin 8) (d : Fin 16) (n : Nat) (sg : Bool), coreOf o.agent = some k → o.dest = .coreA d n sg → (∀ v, a.kind ≠ .store v) →
        t.cl.bank.file = b.file ∧ (∀ j : Fin 8, j ≠ k → t.cl.bank.cores[j.val] = b.cores[j.val]) ∧
        (t.cl.bank.cores[k.val]).file = { (b.cores[k.val]).file with
          a := (b.cores[k.val]).file.a.set d.val (extend sg n (BitVec.ofNat 64 old)) d.isLt })

/-! ### The cores' scalar slots (R160 to R163) -/

/-! ### Managed heaps (R95 to R112) -/

/-- The barrier of R102: a null or reserved KIND traps with 0x09, address bit 6 and a heap that is disabled or not the task's with 0x05, an epoch that
is neither the current nor the previous one with 0x0A. What it answers carries the current epoch, KIND, HEAP and the low bits of the reference, and
lies in the heap's range: the reference itself if it is current, the old object if the table has no entry for it, else the new copy. The current epoch
is the hardware's; while the descriptor shows another value it may be that one (R95, log 35). The barrier comes after an acquire of its agent (R301),
and a word with an uncorrectable error among those that it reads is a machine check, with TVAL the address of the object (R72; the model's choice, log
35). HMOV and CHMOV copy 64 bits unchanged between h and s or a registers, HNULL and CHNULL write zero, HEQ and CHEQ compare two references, made
current, or null ones for identity of heap and object; each writes its destination alone, with latency 1, and the h registers that the barrier has
healed; a reserved KIND traps even beside a null one (R107, R110, R111). -/
def Obligations.ReferencesAndTheirBarrier : Prop :=
  (
  ∀ (s : State) (w : Who) (r : Word),
    let n := refHeap r
    let cur := epochSeen s n w.agent
    let open_ := heapEn s n = true ∧ (heapOwner s n = w.asn ∨ w.sup = true)
    (bits (heapWord s n 1) 1 0 = heapEpoch s n → cur = heapEpoch s n) ∧ (cur = heapEpoch s n ∨ cur = bits (heapWord s n 1) 1 0) ∧
    (refKind r ≠ 1 → barrierRef s w r = .error (.trap 0x09 r w.agent)) ∧
    (refKind r = 1 → r.getLsbD 6 = true → barrierRef s w r = .error (.trap 0x05 r w.agent)) ∧
    (refKind r = 1 → r.getLsbD 6 = false → ¬open_ → barrierRef s w r = .error (.trap 0x05 r w.agent)) ∧
    (refKind r = 1 → r.getLsbD 6 = false → open_ →
      (refEpoch r = cur → barrierRef s w r = if inRange s n (refAddr r) then .ok r else .error (.trap 0x05 r w.agent)) ∧
      (refEpoch r ≠ cur → refEpoch r ≠ (cur + 3) % 4 → barrierRef s w r = .error (.trap 0x0A r w.agent))) ∧
    ∀ y, barrierRef s w r = .ok y →
      refKind y = 1 ∧ refHeap y = n ∧ refEpoch y = cur ∧ bits y 5 0 = bits r 5 0 ∧ inRange s n (refAddr y) = true ∧
      (refEpoch r = cur → y = r) ∧
      (refEpoch r ≠ cur → lookup s n cur (refAddr r) = none → refAddr y = refAddr r) ∧
      ∀ p, refEpoch r ≠ cur → lookup s n cur (refAddr r) = some p →
        entryState (entryWord s (forwardBase s n cur) p 0) = 3 ∧ refAddr y = bits (entryWord s (forwardBase s n cur) p 1) 55 6 * 64) ∧
  (
  -- the words that the barrier reads
  ∀ (s : State) (w : Who) (r : Word),
    let t := afterAcquire s w.agent
    let reads := barrierReads t w r
    (t.badAmong reads = true → barrier s w r = .error (.trap 0x16 (BitVec.ofNat 64 (refAddr r)) w.agent)) ∧
    (t.badAmong reads = false → (∀ e, barrierRef t w r = .error e → barrier s w r = .error e) ∧
      ∀ y, barrierRef t w r = .ok y → barrier s w r = .ok (t.correctAll reads, y))) ∧
  (
  ∀ (s : State) (x y : Fin 16) (r q : Fin 32),
    let wide (h : Fin 16) : Fin 32 := ⟨h.val, by omega⟩
    exec (.hmov (wide x) (wide y) 0) s = .next (s.postH 1 x (s.rh y)) ∧
    exec (.hmov (wide x) r 1) s = .next (s.postH 1 x (s.rs r)) ∧
    exec (.hmov r (wide y) 2) s = .next (s.postS 1 r (s.rh y)) ∧
    exec (.hmov r q 3) s = .next (takeTrap s 0x01 s.slotWord 8) ∧
    exec (.hnull x) s = .next (s.postH 1 x 0) ∧
    CoresPost (.chmov x y 0) s 1 (fun k => [.h x (s.rch k y)]) ∧
    CoresPost (.chmov x y 1) s 1 (fun k => [.h x (s.ra k y)]) ∧
    CoresPost (.chmov x y 2) s 1 (fun k => [.a x (s.rch k y)]) ∧
    exec (.chmov x y 3) s = .next (takeTrap s 0x01 s.slotWord 8) ∧
    CoresPost (.chnull x) s 1 (fun _ => [.h x 0]) ∧
    (let same (a b : Word) : Bool :=
       (refKind a = 0 && refKind b = 0) || (refKind a ≠ 0 && refKind b ≠ 0 && refHeap a = refHeap b && refAddr a = refAddr b)
     -- a and b become a' and b': as they are where one is null, else as the barrier answers
     let null (a b : Word) : Prop := (refKind a = 0 ∨ refKind b = 0) ∧ refKind a < 2 ∧ refKind b < 2
     let seen (w : Who) (a b a' b' : Word) : Prop := (null a b ∧ a' = a ∧ b' = b) ∨ (barrierRef s w a = .ok a' ∧ barrierRef s w b = .ok b')
     let heals (h : Fin 16) (a a' : Word) (t : State) : State := if a = a' then t else t.postH 1 h a'
     (∀ (a' b' : Word) (s1 s2 : State),
       (null (s.rh x) (s.rh y) ∧ s2 = s ∧ a' = s.rh x ∧ b' = s.rh y) ∨
         (barrier s s.seqWho (s.rh x) = .ok (s1, a') ∧ barrier s1 s.seqWho (s.rh y) = .ok (s2, b')) →
       exec (.heq q x y) s = .next ((heals y (s.rh y) b' (heals x (s.rh x) a' s2)).postQ 1 q (same a' b'))) ∧
     (2 ≤ refKind (s.rh x) → exec (.heq q x y) s = .next (takeTrap s 0x09 (s.rh x) 8)) ∧
     (refKind (s.rh x) = 0 → 2 ≤ refKind (s.rh y) → exec (.heq q x y) s = .next (takeTrap s 0x09 (s.rh y) 8)) ∧
     (∀ (d : Fin 16) (a' b' : Fin 8 → Word), Unhindered s →
       (∀ k, s.enabled k = true → seen (coreWho s k) (s.rch k x) (s.rch k y) (a' k) (b' k)) →
       CoresPost (.cheq d x y) s 1 (fun k =>
         (if s.rch k x = a' k then [] else [.h x (a' k)]) ++ (if s.rch k y = b' k then [] else [.h y (b' k)]) ++
         [.a d (if same (a' k) (b' k) then 1 else 0)]))))

/-- HLD, HST, CHLD and CHST issue one access at the object's address plus a nonnegative offset, through the reference that the barrier answers; the h
register is healed with latency 1 where the barrier changed it, and nothing else changes. An offset below 0 traps with TVAL the offset (R105, R106).
LDREF and CLDREF put the reference in the field at base + offset into h_d, made current, and write the current value back to the field, as their
bundle commits, where it was stale and the page may be written; no other byte of memory changes. That they load at once and write back at the commit,
and what they do with a field in a window or a seeded page, is the model's choice (log 28, log 35). STREF and CSTREF issue the store of the reference
in h_s, made current, or of a null one; h_s is healed too (R107 to R109). The base is an s or a register, or an h register, which the barrier heals.
For the core forms every address is in a window or in a page that the core's TLB holds; where CLDREF finds a stale reference, one core is enabled. -/
def Obligations.HeapLoadsAndStores : Prop :=
  (
  ∀ (s : State) (size : Fin 4) (u : Bool),
    let n : Nat := 2 ^ size.val
    (∀ (d : Fin 32) (h : Fin 16) (disp : BitVec 6) (ref : Word) (s0 s1 : State) (l : Loc),
      let off := s.extImm 6 disp.toNat * n
      let ea := toWord (refAddr ref + off)
      let healed := if s.rh h = ref then s0.cl.bank else (s0.postH 1 h ref).cl.bank
      barrier s s.seqWho (s.rh h) = .ok (s0, ref) →
      (0 ≤ off → ea.toNat % n = 0 → ea.toNat < 2 ^ 56 →
        (outstanding s.cl s.bankNo s.cl.bank 8 .load < 32 → locate s0 s.seqWho { href := true } ea n = .ok (s1, l) →
          SequencerIssuesFrom (.hld d h size u disp) s s0 s1 healed .load (.seqS d n (!u)) { va := ea, loc := l, size := n, kind := .load }) ∧
        (outstanding s.cl s.bankNo s.cl.bank 8 .store < 32 → locate s0 s.seqWho { write := true, href := true } ea n = .ok (s1, l) →
          SequencerIssuesFrom (.hst d h size disp) s s0 s1 healed .store .none { va := ea, loc := l, size := n, kind := .store (s.rs d) })) ∧
      (off < 0 → (outstanding s.cl s.bankNo s.cl.bank 8 .load < 32 → exec (.hld d h size u disp) s = .next (takeTrap s 0x05 (toWord off) 8)) ∧
        (outstanding s.cl s.bankNo s.cl.bank 8 .store < 32 → exec (.hst d h size disp) s = .next (takeTrap s 0x05 (toWord off) 8)))) ∧
    ∀ (d h : Fin 16) (disp : BitVec 7) (ref : Fin 8 → Word) (l : Fin 8 → Loc),
      let off := s.extImm 7 disp.toNat * n
      let ea (k : Fin 8) : Word := toWord (refAddr (ref k) + off)
      let healed := (eachCore' (fun k t => if s.rch k h = ref k then t else t.postCore k 1 (.h h (ref k))) s).cl.bank
      0 ≤ off → Unhindered s → (∀ k, s.enabled k = true → barrierRef s (coreWho s k) (s.rch k h) = .ok (ref k) ∧ (ea k).toNat < 2 ^ 56) →
      (CoresReach s .load { href := true } ea n l →
        CoresIssueFrom (.chld d h size u disp) s healed .load (.coreA d n (!u)) (fun k => { va := ea k, loc := l k, size := n, kind := .load })) ∧
      (CoresReach s .store { write := true, href := true } ea n l →
        CoresIssueFrom (.chst d h size disp) s healed .store .none (fun k => { va := ea k, loc := l k, size := n, kind := .store (s.ra k d) }))) ∧
  (
  ∀ (s : State) (d : Fin 16) (m : Bool) (base : Fin 32) (disp : BitVec 5) (ref : Word) (s0 s1 s2 : State),
    let w := s.seqWho
    let b : Fin 16 := Fin.ofNat 16 base.val
    let off : Int := 8 * disp.toInt
    let ea := toWord ((if m then refAddr ref else (s.rs base).toNat : Nat) + off)
    let healed (t : State) : State := if m = true ∧ s.rh b ≠ ref then t.postH 1 b ref else t
    (m = true → 0 ≤ off ∧ ea.toNat < 2 ^ 56) → ea.toNat % 8 = 0 → ea.toNat < 2 ^ 57 →
    (∀ (pa : Nat) (o : OpenBundle), s.memOk → MemoryQuiet s → s.cl.opn = some o → (m = true → barrierRef s w (s.rh b) = .ok ref) →
      locate s w { href := m } ea 8 = .ok (s1, .mem pa) →
      let v := s.mem.word pa
      (refKind v = 0 ∨ barrierRef s w v = .ok v →
        ∃ t, exec (.ldref d m base disp) s = .next t ∧ t.mem = s.mem ∧ t.opn.late = [] ∧ t.cl.bank = ((healed s).postH 1 d v).cl.bank) ∧
      (∀ y, refKind v ≠ 0 → barrierRef s w v = .ok y → y ≠ v → Reaches s1 w { write := true, href := m } ea 8 (.mem pa) →
        ∃ t, exec (.ldref d m base disp) s = .next t ∧ t.mem = s.mem ∧ t.cl.bank = ((healed s).postH 1 d y).cl.bank ∧
          (commitLate t).mem.word pa = y ∧ ∀ x, x < pa ∨ pa + 8 ≤ x → (commitLate t).mem.get x = s.mem.get x)) ∧
    ∀ (l : Loc) (y : Word), outstanding s.cl s.bankNo s.cl.bank 8 .store < 32 →
      (if refKind (s.rh d) = 0 then y = s.rh d ∧ s0 = s else barrier s w (s.rh d) = .ok (s0, y)) →
      (if m then barrier s0 w (s.rh b) = .ok (s2, ref) else s2 = s0) → locate s2 w { write := true, href := m } ea 8 = .ok (s1, l) →
      SequencerIssuesFrom (.stref d m base disp) s s2 s1 (if s.rh d = y then healed s2 else (healed s2).postH 1 d y).cl.bank .store .none
        { va := ea, loc := l, size := 8, kind := .store y }) ∧
  (
  ∀ (s : State) (d : Fin 16) (m : Bool) (base : Fin 16) (disp : BitVec 6) (ref : Fin 8 → Word),
    let off : Int := 8 * disp.toInt
    let ea (k : Fin 8) : Word := toWord ((if m then refAddr (ref k) else (s.ra k base).toNat : Nat) + off)
    let heal (k : Fin 8) (t : State) : State := if m = true ∧ s.rch k base ≠ ref k then t.postCore k 1 (.h base (ref k)) else t
    (∀ k, s.enabled k = true → m = true → barrierRef s (coreWho s k) (s.rch k base) = .ok (ref k) ∧ 0 ≤ off ∧ (ea k).toNat < 2 ^ 56) →
    (∀ (pa : Fin 8 → Nat) (o : OpenBundle), s.memOk → MemoryQuiet s → s.cl.opn = some o → CoresReach s .load { href := m } ea 8 (fun k => .mem (pa k)) →
      let v (k : Fin 8) : Word := s.mem.word (pa k)
      ((∀ k, s.enabled k = true → refKind (v k) = 0 ∨ barrierRef s (coreWho s k) (v k) = .ok (v k)) →
        ∃ t, exec (.cldref d m base disp) s = .next t ∧ t.mem = s.mem ∧ t.opn.late = [] ∧
          t.cl.bank = (eachCore' (fun k u => (heal k u).postCore k 1 (.h d (v k))) s).cl.bank) ∧
      (∀ (k : Fin 8) (y : Word), OnlyCore s k → refKind (v k) ≠ 0 → barrierRef s (coreWho s k) (v k) = .ok y → y ≠ v k →
        Reaches s (coreWho s k) { write := true, href := m } (ea k) 8 (.mem (pa k)) →
        ∃ t, exec (.cldref d m base disp) s = .next t ∧ t.mem = s.mem ∧ t.cl.bank = ((heal k s).postCore k 1 (.h d y)).cl.bank ∧
          (commitLate t).mem.word (pa k) = y ∧ ∀ x, x < pa k ∨ pa k + 8 ≤ x → (commitLate t).mem.get x = s.mem.get x)) ∧
    ∀ (l : Fin 8 → Loc) (y : Fin 8 → Word), Unhindered s → CoresReach s .store { write := true, href := m } ea 8 l →
      (∀ k, s.enabled k = true → if refKind (s.rch k d) = 0 then y k = s.rch k d else barrierRef s (coreWho s k) (s.rch k d) = .ok (y k)) →
      CoresIssueFrom (.cstref d m base disp) s
        (eachCore' (fun k u => if s.rch k d = y k then heal k u else (heal k u).postCore k 1 (.h d (y k))) s).cl.bank .store .none
        (fun k => { va := ea k, loc := l k, size := 8, kind := .store (y k) }))

/-- PIN, UNPIN, CPIN and CUNPIN of an object that the barrier answers: the PINS count of its header and the counter of each of its pages go up or down
by one, a page counter of 0xFFFFFFFF stays, no other byte of memory changes, the h register is healed where the barrier changed it, and PIN and CPIN
write the object's address with latency 1. Under release the writes to pool bytes of the bundle's slots left of the pin are performed first (log 5). A
count at its end, and a header of length 0, trap with 0x05 and change nothing (R112). What becomes of a page counter that is 0 when it is to go down
is not said. Where several cores are enabled, CPIN and CUNPIN pin in each, in rank order. -/
def Obligations.PinsAreCounted : Prop :=
  ∀ (s0 : State) (pa : Nat) (cs : List Nat) (h : Fin 16) (ref : Word),
    let s := s0.released
    s.memOk → MemoryQuiet s →
    let pins (m : Mem) := m.read (pa + 8) 4
    let obj := BitVec.ofNat 64 (refAddr ref)
    let rest (m : Mem) : Prop := ∀ x, ¬(pa + 8 ≤ x ∧ x < pa + 12) → (∀ c ∈ cs, ¬(c ≤ x ∧ x < c + 4)) → m.get x = s.mem.get x
    let up (t : State) : Prop :=
      pins t.mem = pins s.mem + 1 ∧ (∀ c ∈ cs, t.mem.read c 4 = min (s.mem.read c 4 + 1) 0xFFFFFFFF) ∧ rest t.mem
    let down (t : State) : Prop :=
      pins t.mem + 1 = pins s.mem ∧ (∀ c ∈ cs, s.mem.read c 4 = 0xFFFFFFFF → t.mem.read c 4 = 0xFFFFFFFF) ∧
      (∀ c ∈ cs, 0 < s.mem.read c 4 → s.mem.read c 4 ≠ 0xFFFFFFFF → t.mem.read c 4 = s.mem.read c 4 - 1) ∧ rest t.mem
    (PinTarget s s.seqWho (s.rh h) ref pa → ∀ d : Fin 32,
      let healed := if s.rh h = ref then s else s.postH 1 h ref
      (PinPages s ref pa cs →
        (pins s.mem < 0xFFFFFFFF → ∃ t, exec (.pin d h) s0 = .next t ∧ up t ∧ t.cl.bank = (healed.postS 1 d obj).cl.bank) ∧
        (0 < pins s.mem → ∃ t, exec (.unpin h) s0 = .next t ∧ down t ∧ t.cl.bank = healed.cl.bank)) ∧
      (s.mem.read pa 4 = 0 ∨ pins s.mem = 0xFFFFFFFF → exec (.pin d h) s0 = .next (takeTrap s 0x05 ref 8)) ∧
      (s.mem.read pa 4 = 0 ∨ pins s.mem = 0 → exec (.unpin h) s0 = .next (takeTrap s 0x05 ref 8))) ∧
    (∀ k : Fin 8, OnlyCore s k → PinTarget s (coreWho s k) (s.rch k h) ref pa → ∀ d : Fin 16,
      let healed := if s.rch k h = ref then s else s.postCore k 1 (.h h ref)
      let core : Fin 9 := ⟨k.val, by omega⟩
      (PinPages s ref pa cs →
        (pins s.mem < 0xFFFFFFFF → ∃ t, exec (.cpin d h) s0 = .next t ∧ up t ∧ t.cl.bank = (healed.postCore k 1 (.a d obj)).cl.bank) ∧
        (0 < pins s.mem → ∃ t, exec (.cunpin h) s0 = .next t ∧ down t ∧ t.cl.bank = healed.cl.bank)) ∧
      (s.mem.read pa 4 = 0 ∨ pins s.mem = 0xFFFFFFFF → exec (.cpin d h) s0 = .next (takeTrap s 0x05 ref core)) ∧
      (s.mem.read pa 4 = 0 ∨ pins s.mem = 0 → exec (.cunpin h) s0 = .next (takeTrap s 0x05 ref core))) ∧
    ∀ (d : Fin 16) (t : State),
      (InTurn s (fun k u => (pinObject u (coreWho s k) h true).map fun p => p.1.postCore k 1 (.a d p.2)) t → exec (.cpin d h) s0 = .next t) ∧
      (InTurn s (fun k u => (pinObject u (coreWho s k) h false).map Prod.fst) t → exec (.cunpin h) s0 = .next t)

/-! ### Traps (R313 to R316, R320, R331) -/

/-- Taking a trap whose cause goes to the handler, outside a handler, at slot j of the open bundle: TPC, TCAUSE and TVAL are written, SUP and INH are
set, SS cleared, SLOT is j, no loop level is active, PC is TVB with its low 12 bits zero plus 0x40 times the cause, and the registers are those that
the committed slots left. The frame holds TSW, the guards and the snapshot of the bundle, and the next address that a committed branch has chosen; no
byte outside it changes (R313, R315, R318). TRAP_ENTRY takes a pending trap in the same way, at the bundle of the bank's PC; that its frame has SNAP 0
and no guards, and that the frame is written with the task's own privilege, is the model's reading (log 10, log 9). -/
def Obligations.TrapEntersTheHandler : Prop :=
  ∀ (s : State) (pa : Nat), s.memOk → Untraced s → s.cl.bank.residual = none →
    let frame (u t : State) (tsw : Word) (snap : Bool) (guards : Nat) (next : Option Word) (sq : SeqFile) : Prop :=
      t.mem.word pa = (tsw ||| (if s.cl.bank.checked then 0x200 else 0)) ∧ t.mem.word (pa + 8) = next.getD 0 ∧
      bits (t.mem.word (pa + 16)) 15 8 = guards ∧ (t.mem.word (pa + 16)).getLsbD 1 = next.isSome ∧ (t.mem.word (pa + 16)).getLsbD 0 = snap ∧
      (∀ r : Fin 32, t.mem.word (pa + 0x80 + 8 * r.val) = if r = 0 then 0 else sq.s[r.val]) ∧
      ∀ x, x < pa ∨ pa + 0x5400 ≤ x → t.mem.get x = u.mem.get x
    (∀ (o : OpenBundle) (j : Nat) (cause : BitVec 8) (tval : Word) (agent : Fin 9), s.cl.opn = some o → tswInh o.regs.tsw = false → cause ≠ 0x04 →
      j < 8 →
      -- what the committed slots left
      let n := coreCycle 1 o.sampled.skew 7
      let u := (leaveSplit s j n (some cause)).1
      let next := (leaveSplit s j n (some cause)).2
      let z := u.deliver.cl.bank
      (o.late = [] → u.mem = s.mem) ∧
      (o.late = [] → o.next = none → o.branch = none → next = none ∧ z.file = s.deliver.cl.bank.file ∧ z.lc = s.cl.bank.lc) ∧
      (FrameAt u s.seqWho { write := true } pa →
        ∃ t, takeTrapAt s j cause tval agent = t ∧ InHandler z t.cl.bank cause tval o.pc j ∧ t.cl.opn = none ∧ t.cl.run = s.cl.run ∧
          frame u t z.tsw true o.guards.toNat next o.snap.seq)) ∧
    ∀ p : TrapInfo, s.ev.c = s.cl.id → s.cl.run.isSome → s.cl.opn = none → s.cl.bank.pendTrap = some p → tswInh s.cl.bank.tsw = false → p.cause ≠ 0x04 →
      s.cl.bank.reenter = none → FrameAt s ⟨8, tswAsn s.cl.bank.tsw, tswSup s.cl.bank.tsw⟩ { write := true } pa →
      let z := s.deliver.cl.bank
      ∃ t, exec .trapEntry s = .next t ∧ InHandler z t.cl.bank p.cause p.tval s.cl.bank.pc 0 ∧ t.cl.bank.pendTrap = none ∧
        t.cl.run = s.cl.run ∧ frame s t z.tsw false 0 none z.file

/-- A page fault outside a handler leaves the bank waiting on it with a record of TYPE 1, and any cause in a handler leaves it waiting with a record
of TYPE 7, whose VA is the address of an address fault, else 0; no byte of memory changes but by the writes to pool bytes that the committed slots
made. At a slot the faults are those of the slots' traps; BANK_FAULT_WAIT takes the pending page fault of a bundle's issue (R316, R320, R323). TRAP
and BKPT trap after their slot with their immediate as TVAL: within the bundle the split is at the next slot, after the last slot it is at the next
bundle with SLOT 0 (R314). HALT leaves to the end of the bundle that the bank waits there, with a record of TYPE 8 for the next bundle (R331). -/
def Obligations.FaultsTrapsAndHaltLeaveTheBank : Prop :=
  (
  ∀ (s : State) (i : Fin 8), s.cl.run = some i → Untraced s → s.cl.bank.pend = [] →
    (∀ (o : OpenBundle) (j : Nat) (tval : Word) (agent : Fin 9), s.cl.opn = some o → j < 8 → o.late = [] →
      (tswInh o.regs.tsw = false → ∃ t, takeTrapAt s j 0x04 tval agent = t ∧ t.mem = s.mem ∧ WaitsWithRecord s t i .waitFault 1 0x04 tval o.pc) ∧
      (tswInh o.regs.tsw = true → ∀ cause : BitVec 8, ∃ t, takeTrapAt s j cause tval agent = t ∧ t.mem = s.mem ∧
        WaitsWithRecord s t i .halted 7 cause
          (if cause = 0x04 ∨ cause = 0x05 ∨ cause = 0x06 ∨ (cause = 0x07 ∧ isWindow tval = true) ∨ cause = 0x08 ∨ cause = 0x0B ∨ cause = 0x16
           then tval else 0) o.pc)) ∧
    ∀ v : Word, s.ev.c = s.cl.id → s.cl.bank.pendTrap = some ⟨0x04, v, false⟩ → tswInh s.cl.bank.tsw = false →
      ∃ t, exec .bankFaultWait s = .next t ∧ t.mem = s.mem ∧ WaitsWithRecord s t i .waitFault 1 0x04 v s.cl.bank.pc) ∧
  (
  ∀ (s : State) (o : OpenBundle) (imm : BitVec 15), s.cl.opn = some o →
    (let traps (i : Instr) (cause : BitVec 8) : Prop :=
       (o.idx + 1 < o.slots.length → exec i s = .next (takeTrapAt s (o.idx + 1) cause (BitVec.ofNat 64 imm.toNat) 8)) ∧
       (o.slots.length ≤ o.idx + 1 → exec i s = .next (trapAfterBundle s cause (BitVec.ofNat 64 imm.toNat)) ∧
         ∀ pa : Nat, s.memOk → Untraced s → tswInh o.regs.tsw = false →
           let e := closeWith (some cause) s
           FrameAt e s.seqWho { write := true } pa → e.cl.bank.residual = none →
             ∃ t, exec i s = .next t ∧ InHandler e.deliver.cl.bank t.cl.bank cause (BitVec.ofNat 64 imm.toNat) e.cl.bank.pc 0)
     traps (.trap imm) 0x15 ∧ traps (.bkpt imm) 0x13) ∧
    exec .halt s = .next (s.modOpn fun o => { o with endAct := some .halt }) ∧
    ∀ i : Fin 8, s.cl.run = some i → s.cl.bank.pend = [] → Untraced s → o.late = [] → o.endAct = some .halt →
      (finishBundle s).mem = s.mem ∧ WaitsWithRecord s (finishBundle s) i .halted 8 0 0 (closeBundle s).cl.bank.pc)

/-- RETT outside supervisor state traps with 0x03. In it, with a frame that can be read, the slot leaves the return to the end of its bundle: TSW then
takes the writable bits of OTSW with its SLOT kept, PC is TPC, checked mode begins, lc0 to lc5 and the active levels come from the frame, the
registers stay, the bundle at PC is entered at slot SLOT with the frame's snapshot, guards and next address, and no byte of memory changes (R331). The
frame is read as loads that see the sequencer's own earlier stores (R298). That MCP survives the return is the model's reading (log 10). Of the caches'
directory, which the reads of the frame change, nothing is said. -/
def Obligations.ReturnFromTrap : Prop :=
  ∀ (s : State) (o : OpenBundle) (pa : Nat), s.cl.opn = some o →
    (s.sup = false → exec .rett s = .next (takeTrap s 0x03 s.slotWord 8)) ∧
    -- memory as the sequencer sees it
    let v := ownView (drainAgent s s.bankNo 8) 8
    (s.badWords = [] → s.softWords = [] → Untraced s → FrameAt s s.seqWho {} pa → FrameAt v s.seqWho {} pa →
      (s.sup = true → ∃ t, exec .rett s = .next t ∧ t.mem = s.mem ∧
        t.cl = { s.cl with opn := some { o with endAct := some (.rett o.idx) } }) ∧
      ∀ j, o.endAct = some (.rett j) → o.late = [] →
        let c := closeBundle s
        let z := (c.settle c.cl.time).cl.bank
        let otsw := v.mem.word pa
        let head := v.mem.word (pa + 16)
        let t := finishBundle s
        let b := t.cl.bank
        t.mem = s.mem ∧ t.cl.opn = none ∧ t.cl.run = s.cl.run ∧ b.file = z.file ∧ b.pc = z.tpc ∧ b.checked = true ∧
        (∀ i, i < 64 → b.tsw.getLsbD i =
          if i = 0 ∨ i = 8 ∨ i = 10 ∨ 48 ≤ i then otsw.getLsbD i else if i = 11 ∨ (13 ≤ i ∧ i ≤ 15) then z.tsw.getLsbD i else false) ∧
        (∀ l : Fin 6, b.lc[l.val] = BitVec.ofNat 32 (v.mem.read (pa + 0x270 + 4 * l.val) 4) ∧
          (b.loops[l.val]).active = (v.mem.word (pa + 40)).getLsbD l.val) ∧
        ∃ r, b.reenter = some r ∧ r.slot = tswSlot z.tsw ∧ r.guards.toNat = bits head 15 8 ∧ r.snap.isSome = head.getLsbD 0 ∧
          r.next = (if head.getLsbD 1 then some (v.mem.word (pa + 8)) else none) ∧ r.byRett = true)

/-! ### TLBs and caches (R85 to R94, R124 to R131) -/

/-- A translation that an agent is given covers the address in its page, for its address space or for every one, and where coherence events are not
traced memory stays; a TLB_MISS_WALK enters the translation in the agent's TLB, and one that faults changes nothing; TLB_ENTRY_DROPPED removes one
entry (R82, R85 to R87). TLBINV in supervisor state, with room, starts an invalidation and changes nothing else; outside it it traps with 0x03, and a
window address traps with 0x05. It is released when the bank's earlier stores are performed. When it completes with no access under way that was
translated through an entry it names, no TLB of the device holds an entry that it names, and it is gone (R88 to R90). TLBLK and TLBUNL leave the
change of the lockable entries to the end of the bundle: the window's entry is the walk's leaf, and windows that overlap it are unlocked (R92). -/
def Obligations.TranslationsAndTlbs : Prop :=
  (
  (∀ (s t : State) (w : Who) (va : Word) (l : Leaf), translate s w va = .ok (t, l) →
    l.base ≤ va.toNat % 2 ^ 56 ∧ va.toNat % 2 ^ 56 < l.base + l.size ∧ (l.global = true ∨ l.asn = w.asn) ∧
    (t.cl.tlbOf w.agent).find? (fun x => x.matches w.asn va) = some l ∧
    ((s.dbg s.cl.id.die 0).getLsbD 2 = false → t.mem = s.mem) ∧ t.cl.bank = s.cl.bank) ∧
  (∀ s : State, s.ev.c = s.cl.id →
    let w : Who := ⟨Fin.ofNat 9 s.ev.a, tswAsn s.cl.bank.tsw, tswSup s.cl.bank.tsw⟩
    (∀ t l, translate s w s.ev.value = .ok (t, l) → exec .tlbMissWalk s = .next t) ∧
    (∀ e, translate s w s.ev.value = .error e → exec .tlbMissWalk s = .next s) ∧
    (s.ev.a < 9 → ∃ t, exec .tlbEntryDropped s = .next t ∧
      t.cl.tlbOf (Fin.ofNat 9 s.ev.a) = (s.cl.tlbOf (Fin.ofNat 9 s.ev.a)).eraseIdx s.ev.b ∧ t.mem = s.mem ∧ t.cl.bank = s.cl.bank ∧
      ∀ d, t.die d = s.die d) ∧
    (s.ev.a = 9 → ∃ t, exec .tlbEntryDropped s = .next t ∧ t.cl = s.cl ∧ t.mem = s.mem ∧
      (t.die s.cl.id.die).l2 = (s.die s.cl.id.die).l2.eraseIdx s.ev.b))) ∧
  (
  ∀ (s : State) (i : Fin 8) (a b : Fin 32) (idx : Fin 8) (size : Fin 4), s.cl.run = some i →
    (let starts (x : Instr) (mode : Fin 3) (va : Word) (asn : BitVec 16) : Prop :=
       let inv : TlbInv := { id := s.cl.nextOp, bank := i, mode := mode, va := va, asn := asn,
                             after := (s.cl.bank.ops.filter MemOp.storing).map MemOp.id }
       s.cl.bank.tlbinvs.length < 8 →
         exec x s = .next { s with cl := { s.cl with nextOp := s.cl.nextOp + 1, invs := s.cl.invs ++ [inv],
                                                     bank := { s.cl.bank with tlbinvs := s.cl.bank.tlbinvs ++ [s.cl.nextOp] } } }
     (s.sup = true → starts .tlbinvAsn 1 0 (BitVec.ofNat 16 (s.rs s.sole).toNat) ∧ starts .tlbinvAll 2 0 0 ∧
       ((s.rs a).toNat < 2 ^ 56 → starts (.tlbinvPage a b) 0 (s.rs a) (BitVec.ofNat 16 (s.rs b).toNat)) ∧
       (2 ^ 56 ≤ (s.rs a).toNat → exec (.tlbinvPage a b) s = .next (takeTrap s 0x05 (s.rs a) 8))) ∧
     (s.sup = false → ∀ x : Instr, x = .tlbinvAsn ∨ x = .tlbinvAll ∨ x = .tlbinvPage a b →
       exec x s = .next (takeTrap s 0x03 s.slotWord 8))) ∧
    (∀ v : TlbInv, s.ev.c = s.cl.id → s.cl.invs.find? (fun x => x.id = s.ev.a) = some v →
      let stores := ∃ x ∈ s.cl.bank :: s.cl.banks.toList, ∃ o ∈ x.ops, v.after.contains o.id = true ∧ o.storing = true
      (stores → exec .tlbinvComplete s = .next s) ∧
      (¬stores → v.waits = none → (∀ c, c ∈ s.clusters → c.liveOps v.drops = []) →
        ∃ t, exec .tlbinvComplete s = .next t ∧ t.mem = s.mem ∧ (∀ x ∈ t.cl.invs, x.id ≠ s.ev.a) ∧ t.cl.bank.file = s.cl.bank.file ∧
          t.cl.bank.tlbinvs = s.cl.bank.tlbinvs.filter (fun x => x ≠ s.ev.a) ∧
          (∀ (ag : Fin 9) (l : Leaf), l ∈ t.cl.tlbOf ag → v.drops l = false) ∧ (∀ (d : Fin 64) (l : Leaf), l ∈ (t.die d).l2 → v.drops l = false) ∧
          ∀ (k j : Fin 8) (x : LockWin) (l : Leaf), ((t.cl.bank.cores[k.val]).lock)[j.val] = some x → x.leaf = some l → v.drops l = false)) ∧
    (let base := s.rs a
     let n := if size = 0 then 2 ^ 16 else if size = 1 then 2 ^ 21 else 2 ^ 31
     (size = 3 → exec (.tlblk a idx size) s = .next (takeTrap s 0x01 s.slotWord 8)) ∧
     (size ≠ 3 → 2 ^ 57 ≤ base.toNat → exec (.tlblk a idx size) s = .next (takeTrap s 0x05 base 8)) ∧
     (size ≠ 3 → 2 ^ 56 ≤ base.toNat → base.toNat < 2 ^ 57 → exec (.tlblk a idx size) s = .next (takeTrap s 0x07 base 8)) ∧
     (size ≠ 3 → base.toNat < 2 ^ 56 → base.toNat % n ≠ 0 → exec (.tlblk a idx size) s = .next (takeTrap s 0x08 base 8)) ∧
     ∀ t l, size ≠ 3 → base.toNat < 2 ^ 56 → base.toNat % n = 0 → walk s s.seqWho base = .ok (t, l) →
       exec (.tlblk a idx size) s = .next (t.modOpn fun o => { o with lockAct := some (.lock idx ⟨base.toNat, n, some l⟩) })) ∧
    exec (.tlbunl idx) s = .next (s.modOpn fun o => { o with lockAct := some (.unlock idx) }) ∧
    exec .tlbunlAll s = .next (s.modOpn fun o => { o with lockAct := some .unlockAll }) ∧
    ∀ (c : CoreBank) (w : LockWin) (j : Fin 8),
      (c.lockStep .unlockAll).lock[j.val] = none ∧ (c.lockStep (.unlock idx)).lock[j.val] = (if j = idx then none else c.lock[j.val]) ∧
      (c.lockStep (.lock idx w)).lock[idx.val] = some w ∧
      (j ≠ idx → ∀ x, (c.lockStep (.lock idx w)).lock[j.val] = some x →
        c.lock[j.val] = some x ∧ (x.base + x.size ≤ w.base ∨ w.base + w.size ≤ x.base)) ∧
      (c.lockStep (.lock idx w)).file = c.file)

/-- LDBLK of n lines within the page of a readable base gives the lowest free handle, not yet done, for a block of those lines, or all ones when none
is free; a fill's end sets BLKDONE of the handles that name the block, whose lines the die's cache then holds, but for those that a store of the die
has taken from it (R126); BLKDROP frees the handle that s_a names, whose block is one no more, and has no effect on another value. CFLUSH and CCLEAN
of a run change no value: CFLUSH leaves no copy of a line of the run in any cache, CCLEAN no dirty one. No byte of memory changes (R124, R129 to
R131). The directory's states are the model's (log 16). -/
def Obligations.BlocksAndCacheMaintenance : Prop :=
  ∀ (s : State) (d a : Fin 32) (n : Fin 64), s.memOk → (s.dbg s.cl.id.die 0).getLsbD 2 = false →
    let base := s.rs a
    let b := s.cl.bank
    let die := s.cl.id.die
    (∀ s1 l pa, base.toNat < 2 ^ 56 → base.toNat % 128 = 0 → findLeaf s s.seqWho base = .ok (s1, l) →
      chkLeaf s1 s.seqWho { nopin := true } l base = .ok () → leafLoc s.seqWho l base 128 = .ok pa →
      (base.toNat + 128 * (n.val + 1) ≤ l.base + l.size →
        ((∀ h : Fin 64, b.handles[h.val] ≠ none) → ∃ t, exec (.ldblk d a n) s = .next t ∧ t.mem = s.mem ∧
          t.cl.bank = (s.postS 1 d 0xFFFFFFFFFFFFFFFF).cl.bank) ∧
        (∀ h : Fin 64, b.handles[h.val] = none → (∀ j : Fin 64, j.val < h.val → b.handles[j.val] ≠ none) →
          ∃ t, exec (.ldblk d a n) s = .next t ∧ t.mem = s.mem ∧
            t.cl.bank = { (s.postS 1 d (BitVec.ofNat 64 h.val)).cl.bank with
              handles := b.handles.set h.val (some ⟨some (die, (s.die die).nextBlock), false⟩) h.isLt } ∧
            ∃ x ∈ (t.die die).blocks, x.num = (s.die die).nextBlock ∧ x.first = pa / 128 ∧ x.lines = n.val + 1 ∧ x.done = false)) ∧
      (l.base + l.size < base.toNat + 128 * (n.val + 1) → exec (.ldblk d a n) s = .next (takeTrap s 0x08 base 8))) ∧
    (let x := s.rs s.sole
     (∀ h : Fin 64, x.toNat = h.val → (∀ y p, b.handles[h.val] = some y → y.block = some p → (s.dbg p.1 0).getLsbD 2 = false) →
        ∃ t, exec .blkdrop s = .next t ∧ t.mem = s.mem ∧
       t.cl = { s.cl with bank := { b with handles := b.handles.set h.val none h.isLt } } ∧
       ∀ y p, b.handles[h.val] = some y → y.block = some p → ∀ z ∈ (t.die p.1).blocks, z.num = p.2 → z.ordinary = true) ∧
     (64 ≤ x.toNat → exec .blkdrop s = .next s)) ∧
    (∀ y : Block, s.ev.c.die = die → ((s.die die).blocks.find? fun z => z.num = s.ev.a && !z.done) = some y →
      ∃ t, exec .blockFillComplete s = .next t ∧ t.mem = s.mem ∧ t.cl.bank = { b with handles := t.cl.bank.handles } ∧
        (y.ordinary = false → y.gone = [] → ∀ i, i < y.lines → t.lineAt die (y.first + i) ≠ 0) ∧
        ∀ (h : Fin 64), t.cl.bank.handles[h.val] =
          match b.handles[h.val] with
          | some x => if x.block = some (die, s.ev.a) then some ⟨if y.ordinary then none else x.block, true⟩ else some x
          | none => none) ∧
    (let first := base.toNat / 128 * 128
     (∀ s1, checkRun s.seqWho (runPages first (n.val + 1)) s = .ok s1 →
       (∃ t, exec (.cflush a n) s = .next t ∧ t.mem = s.mem ∧ t.cl = s1.cl) ∧ ∃ t, exec (.cclean a n) s = .next t ∧ t.mem = s.mem ∧ t.cl = s1.cl) ∧
     ∀ s1 pa, base.toNat < 2 ^ 56 → first % 65536 + 128 * (n.val + 1) ≤ 65536 →
       locate s s.seqWho { nopin := true } (BitVec.ofNat 64 first) 128 = .ok (s1, .mem pa) → pa + 128 * (n.val + 1) ≤ Config.memTop →
       (∃ t, exec (.cflush a n) s = .next t ∧ t.mem = s.mem ∧ t.cl = s1.cl ∧
         ∀ (i : Nat) (e : Fin 64), i ≤ n.val → t.lineAt e (pa / 128 + i) = 0) ∧
       (∃ t, exec (.cclean a n) s = .next t ∧ t.mem = s.mem ∧ t.cl = s1.cl ∧
         ∀ (i : Nat) (e : Fin 64), i ≤ n.val → t.lineAt e (pa / 128 + i) ≠ 3 ∧ t.lineAt e (pa / 128 + i) ≠ 4))

/-! ### Vector slots (R180 to R196) -/

/-- VSETL posts VL, the lesser of s_a and VLMAX, with VTYPE and latency 3, and s_d with latency 1 (R181). The element writes that vector slots post
leave element e of their group as its entry says, kept where it says nothing, and no other register changed; and so for the bits of a mask (R182). -/
def Obligations.VectorLengthAndElements : Prop :=
  (∀ (s : State) (d a : Fin 32) (vt : BitVec 5), bits vt 2 1 ≠ 3 →
    let ew := if vt.getLsbD 0 then 32 else 16
    let vl := min (s.rs a).toNat (1024 * 2 ^ bits vt 2 1 / ew)
    exec (.vsetl d a vt) s = .next ((s.post 3 (.vset (BitVec.ofNat 16 vl) (vt.setWidth 16))).postS 1 d (BitVec.ofNat 64 vl))) ∧
  (∀ (f : CoreFile) (d : Fin 16) (ew g : Nat) (es : List ElemWrite), ew = 16 ∨ ew = 32 → g = 1 ∨ g = 2 ∨ g = 4 → d.val % g = 0 →
    es.length * ew = 1024 * g →
    let f' := (groupWrites d ew es g).foldl CoreFile.write f
    f' = { f with v := f'.v } ∧ (∀ r : Fin 16, r.val < d.val ∨ d.val + g ≤ r.val → f'.v[r.val] = f.v[r.val]) ∧
    ∀ (e : Nat) (r : Fin 16), e < es.length → r.val = d.val + e * ew / 1024 →
      f'.v[r.val].toNat / 2 ^ (e * ew % 1024) % 2 ^ ew =
        match es[e]? with
        | some (some x) => x % 2 ^ ew
        | _ => f.v[r.val].toNat / 2 ^ (e * ew % 1024) % 2 ^ ew) ∧
  ∀ (f : CoreFile) (d : Fin 4) (es : List ElemWrite), es.length = 256 →
    let p := packElems 1 0 es
    let f' := f.write (.m d (BitVec.ofNat 256 p.1) (BitVec.ofNat 256 p.2))
    f' = { f with m := f.m.set d.val f'.m[d.val] d.isLt } ∧
    ∀ e, e < 256 → f'.m[d.val].getLsbD e = match es[e]? with | some (some x) => decide (x % 2 = 1) | _ => f.m[d.val].getLsbD e

/-- The integer slots of majors 0x41 to 0x48: every active element takes the value of Table 09.6, a clamp sets SAT, and every slot delivers with the
latency of its class (R182, R183, R185). -/
def Obligations.VectorIntegerArithmetic : Prop :=
  ∀ (s : State) (vd va vb : Fin 16) (width msel : Fin 4), VecLegal s width [vd, va, vb] →
    let res (f : Nat → Nat → Nat → Nat → Flagged) : Fin 8 → VecCfg → Nat → ElemWrite × BitVec 32 := fun k c e =>
      let y := f c.ew (s.elem k va c.ew e) (s.elem k vb c.ew e) (s.elem k vd c.ew e)
      (some y.1, y.2)
    let sx := sextNat
    let low (f : Nat → Nat → Nat → Nat → Int) : Nat → Nat → Nat → Nat → Flagged := fun ew x y d => ((f ew x y d % (2 ^ ew : Nat)).toNat, 0)
    let clamp (lo hi : Nat → Int) (f : Nat → Nat → Nat → Nat → Int) : Nat → Nat → Nat → Nat → Flagged := fun ew x y d =>
      let z := f ew x y d
      ((max (lo ew) (min z (hi ew)) % (2 ^ ew : Nat)).toNat, if lo ew ≤ z ∧ z ≤ hi ew then 0 else flSAT)
    let clampS := clamp (fun ew => -(2 ^ (ew - 1) : Nat)) (fun ew => (2 ^ (ew - 1) : Nat) - 1)
    let clampU := clamp (fun _ => 0) (fun ew => (2 ^ ew : Nat) - 1)
    let R (i : Instr) (lat : Nat) (f : Nat → Nat → Nat → Nat → Flagged) : Prop := VecResult i s width msel lat vd (res f)
    R (.vadd vd va vb width msel) 2 (low fun _ x y _ => x + y) ∧
    R (.vsub vd va vb width msel) 2 (low fun _ x y _ => x - y) ∧
    R (.vadds vd va vb width msel) 2 (clampS fun ew x y _ => sx ew x + sx ew y) ∧
    R (.vsubs vd va vb width msel) 2 (clampS fun ew x y _ => sx ew x - sx ew y) ∧
    R (.vaddus vd va vb width msel) 2 (clampU fun _ x y _ => x + y) ∧
    R (.vsubus vd va vb width msel) 2 (clampU fun _ x y _ => x - y) ∧
    R (.vavg vd va vb width msel) 2 (low fun ew x y _ => (sx ew x + sx ew y + 1) / 2) ∧
    R (.vabd vd va vb width msel) 2 (low fun ew x y _ => |sx ew x - sx ew y|) ∧
    R (.vmul vd va vb width msel) 3 (low fun _ x y _ => x * y) ∧
    R (.vmulhs vd va vb width msel) 3 (low fun ew x y _ => sx ew x * sx ew y / 2 ^ ew) ∧
    R (.vmulhu vd va vb width msel) 3 (low fun ew x y _ => x * y / 2 ^ ew) ∧
    R (.vmulq vd va vb width msel) 3 (clampS fun ew x y _ => (sx ew x * sx ew y + 2 ^ (ew - 2)) / 2 ^ (ew - 1)) ∧
    R (.vmac vd va vb width msel) 3 (low fun _ x y d => d + x * y) ∧
    R (.vmsub vd va vb width msel) 3 (low fun _ x y d => d - x * y) ∧
    R (.vmacs vd va vb width msel) 3 (clampS fun ew x y d => sx ew d + sx ew x * sx ew y) ∧
    (Wide s → R (.vdot2 vd va vb width msel) 3 (low fun _ x y d =>
      d + sx 16 (x % 2 ^ 16) * sx 16 (y % 2 ^ 16) + sx 16 (x / 2 ^ 16) * sx 16 (y / 2 ^ 16))) ∧
    R (.vand vd va vb width msel) 2 (fun _ x y _ => (x &&& y, 0)) ∧
    R (.vor vd va vb width msel) 2 (fun _ x y _ => (x ||| y, 0)) ∧
    R (.vxor vd va vb width msel) 2 (fun _ x y _ => (x ^^^ y, 0)) ∧
    R (.vandn vd va vb width msel) 2 (fun ew x y _ => (x &&& (2 ^ ew - 1 - y), 0)) ∧
    R (.vsll vd va vb width msel) 2 (low fun ew x y _ => x * 2 ^ (y % ew)) ∧
    R (.vsrl vd va vb width msel) 2 (low fun ew x y _ => x / 2 ^ (y % ew)) ∧
    R (.vsra vd va vb width msel) 2 (low fun ew x y _ => sx ew x / 2 ^ (y % ew)) ∧
    R (.vrot vd va vb width msel) 2 (low fun ew x y _ => x * 2 ^ (y % ew) + x / 2 ^ (ew - y % ew)) ∧
    R (.vmin vd va vb width msel) 2 (low fun ew x y _ => min (sx ew x) (sx ew y)) ∧
    R (.vmax vd va vb width msel) 2 (low fun ew x y _ => max (sx ew x) (sx ew y)) ∧
    R (.vminu vd va vb width msel) 2 (fun _ x y _ => (min x y, 0)) ∧
    R (.vmaxu vd va vb width msel) 2 (fun _ x y _ => (max x y, 0)) ∧
    ∀ n : Fin 16,
      R (.vslli vd va n width msel) 2 (low fun _ x _ _ => x * 2 ^ n.val) ∧
      R (.vsrli vd va n width msel) 2 (low fun _ x _ _ => x / 2 ^ n.val) ∧
      R (.vsrai vd va n width msel) 2 (low fun ew x _ _ => sx ew x / 2 ^ n.val) ∧
      R (.vsrar vd va n width msel) 2 (low fun ew x _ _ => if n.val = 0 then x else (sx ew x + 2 ^ (n.val - 1)) / 2 ^ n.val)

/-- Rounding is to the nearest value of the format, a tie to the even encoding; the second component says whether the value changed; an fp32 or bf16
result becomes infinite exactly from the largest finite value plus half its unit on (R175). -/
def Obligations.RoundingIsToNearestEven : Prop :=
  ∀ (f : FloatFmt) (m : Nat) (e : Int), f ∈ [fp32, bf16, e4m3, e5m2, e3m2, e2m1] →
    let x : ℚ := m * (2 : ℚ) ^ e
    let val (n : Nat) (v : ℚ) : Prop := ∃ q k, f.value n = .fin false q k ∧ v = q * (2 : ℚ) ^ k
    let r := f.roundMag m e
    (∀ top v, top = f.maxFin → val top v → x ≤ v → r.1 ≤ top) ∧
    (r.1 ≤ f.maxFin → ∃ v, val r.1 v ∧ (r.2 = true ↔ v ≠ x) ∧
      ∀ n w, n ≤ f.maxFin → n ≠ r.1 → val n w → |v - x| ≤ |w - x| ∧ (|v - x| = |w - x| → r.1 % 2 = 0)) ∧
    (f = fp32 → (f.maxFin < r.1 ↔ (2 ^ 25 - 1) * (2 : ℚ) ^ (103 : Int) ≤ x)) ∧
    (f = bf16 → (f.maxFin < r.1 ↔ (2 ^ 9 - 1) * (2 : ℚ) ^ (119 : Int) ≤ x))

/-- The float slots of majors 0x4A, 0x4B, 0x4D and 0x4E: each active element takes the exact result rounded once, a NaN operand gives the canonical NaN,
and NV where it signals; infinity minus infinity and 0 times infinity set NV. VF2I rounds to an integer, clamped, with NV and SAT where it clamps or meets
a NaN, and NX where rounding changed the value (R178, R189, R190). Of VFSQRT and VFRCP the statement gives the special values, and for the others that the
elements take what the model's `fSqrt` and `fRcp` answer. NV of VFWID and VFNAR and the flags of VFNAR's rounding are the model's reading (log 27). -/
def Obligations.VectorFloatArithmetic : Prop :=
  ∀ (s : State) (vd va vb : Fin 16) (width msel : Fin 4), VecLegal s width [vd, va, vb] →
    let R (i : Instr) (lat : Nat) (f : Nat → Nat → Nat → Nat → Flagged) : Prop := VecResult i s width msel lat vd fun k c e =>
      let y := f c.ew (s.elem k va c.ew e) (s.elem k vb c.ew e) (s.elem k vd c.ew e)
      (some y.1, y.2)
    let v (ew x : Nat) : FVal := (fmtOf ew).value x
    let nans (ew : Nat) (xs : List FVal) (r : Flagged) : Flagged :=
      if xs.any FVal.isNaN then (if ew = 32 then 0x7FC00000 else 0x7FC0, if xs.any FVal.isSNaN then flNV else 0) else r
    let zero : FVal → Bool := fun x => match x with | .fin _ m _ => m = 0 | _ => false
    let inf : FVal → Bool := fun x => match x with | .inf _ => true | _ => false
    let fma (ew : Nat) (x y d : FVal) : Flagged :=
      if (zero x && inf y) || (inf x && zero y) then (if ew = 32 then 0x7FC00000 else 0x7FC0, flNV)
      else nans ew [x, y, d] (((x.mul y).add d).round ew)
    R (.vfadd vd va vb width msel) 4 (fun ew x y _ => nans ew [v ew x, v ew y] (((v ew x).add (v ew y)).round ew)) ∧
    R (.vfsub vd va vb width msel) 4 (fun ew x y _ => nans ew [v ew x, v ew y] (((v ew x).add (v ew y).negate).round ew)) ∧
    R (.vfmul vd va vb width msel) 4 (fun ew x y _ => nans ew [v ew x, v ew y] (((v ew x).mul (v ew y)).round ew)) ∧
    R (.vfmin vd va vb width msel) 4 (fun ew x y _ => nans ew [v ew x, v ew y] (if orderKey ew x ≤ orderKey ew y then x else y, 0)) ∧
    R (.vfmax vd va vb width msel) 4 (fun ew x y _ => nans ew [v ew x, v ew y] (if orderKey ew x ≤ orderKey ew y then y else x, 0)) ∧
    R (.vfma vd va vb width msel) 4 (fun ew x y d => fma ew (v ew x) (v ew y) (v ew d)) ∧
    R (.vfms vd va vb width msel) 4 (fun ew x y d => fma ew (v ew x) (v ew y) (v ew d).negate) ∧
    R (.vfnma vd va vb width msel) 4 (fun ew x y d => fma ew (v ew x).negate (v ew y) (v ew d)) ∧
    R (.vfabs vd va width msel) 2 (fun ew x _ _ => (x % 2 ^ (ew - 1), 0)) ∧
    R (.vfneg vd va width msel) 2 (fun ew x _ _ => ((x + 2 ^ (ew - 1)) % 2 ^ ew, 0)) ∧
    R (.vfsqrt vd va width msel) 12 (fun ew x _ _ => fSqrt ew x) ∧
    R (.vfrcp vd va width msel) 12 (fun ew x _ _ => fRcp ew x) ∧
    (∀ ew x, nans ew [v ew x] (fSqrt ew x) = fSqrt ew x ∧ nans ew [v ew x] (fRcp ew x) = fRcp ew x ∧
      (∀ n e, v ew x = .fin n 0 e → fSqrt ew x = (x, 0) ∧ (fRcp ew x).2 = flDZ ∧ v ew (fRcp ew x).1 = .inf n) ∧
      (∀ m e, v ew x = .fin true m e → 0 < m → (fSqrt ew x) = (if ew = 32 then 0x7FC00000 else 0x7FC0, flNV)) ∧
      (v ew x = .inf false → fSqrt ew x = (x, 0))) ∧
    (∀ u rtz : Bool,
      R (.vi2f vd va u width msel) 4 (fun ew x _ _ =>
        let z : Int := if u then x else sextNat ew x
        (FVal.fin (decide (z < 0)) z.natAbs 0).round ew) ∧
      R (.vf2i vd va u rtz width msel) 4 (fun ew x _ _ => floatToInt ew u rtz x) ∧
      ∀ ew x,
        let lo : Int := if u then 0 else -2 ^ (ew - 1)
        let hi : Int := if u then 2 ^ ew - 1 else 2 ^ (ew - 1) - 1
        let pat (z : Int) : Nat := (z % 2 ^ ew).toNat
        ((v ew x).isNaN = true → floatToInt ew u rtz x = (0, flNV ||| flSAT)) ∧
        (∀ n, v ew x = .inf n → floatToInt ew u rtz x = (pat (if n then lo else hi), flNV ||| flSAT)) ∧
        ∀ n m e, v ew x = .fin n m e →
          let a : ℚ := m * (2 : ℚ) ^ e
          let up : Prop := rtz = false ∧ (1 / 2 < a - ⌊a⌋ ∨ (a - ⌊a⌋ = 1 / 2 ∧ ⌊a⌋ % 2 = 1))
          ∃ k : Int, (up → k = ⌊a⌋ + 1) ∧ (¬up → k = ⌊a⌋) ∧
            let z := if n then -k else k
            floatToInt ew u rtz x = if z < lo then (pat lo, flNV ||| flSAT) else if hi < z then (pat hi, flNV ||| flSAT)
              else (pat z, if a = ⌊a⌋ then 0 else flNX)) ∧
    (Wide s →
      VecResult (.vfwid vd va width msel) s width msel 4 vd (fun k _ e =>
        let x := v 16 (s.elem k va 16 e)
        let y := nans 32 [x] (x.round 32)
        (some y.1, y.2)) ∧
      VecPosts (.vfnar vd va width msel) s width 4 fun k c n => elemPosts vd 16 ((List.range (1024 * c.group / c.ew)).map fun e =>
        if e < n ∧ (msel.val = 0 ∨ (s.rm k msel).getLsbD e = true) then
          let x := v 32 (s.elem k va 32 e)
          let y := nans 16 [x] (x.round 16)
          (some y.1, y.2)
        else kept c 16 n e))

/-- Reductions write element 0 alone, from the active elements, with the sum of R179 for floats; the arg forms give the lowest index of the best
element, or all ones; the dot products add exact products to the old element, clamped once or summed by gsum (R191, R192). -/
def Obligations.ReductionsAndDotProducts : Prop :=
  ∀ (s : State) (vd va vb : Fin 16) (width msel : Fin 4), VecLegal s width [vd, va, vb] →
    let R (i : Instr) (lat : Nat) (f : Fin 8 → VecCfg → List Nat → Flagged) : Prop := VecReduced i s width msel lat vd f
    let sx (k : Fin 8) (c : VecCfg) (r : Fin 16) (e : Nat) : Int := sextNat c.ew (s.elem k r c.ew e)
    let v (ew x : Nat) : FVal := (fmtOf ew).value x
    let fold (maxi : Bool) : Fin 8 → VecCfg → List Nat → Flagged := fun k c es =>
      let r := es.foldl (fun (r : Flagged) e => let z := fMinMax c.ew maxi r.1 (s.elem k va c.ew e); (z.1, r.2 ||| z.2)) (s.elem k vb c.ew 0, 0)
      (if (v c.ew r.1).isNaN then (if c.ew = 32 then 0x7FC00000 else 0x7FC0) else r.1, r.2)
    let byte (x j : Nat) : Nat := x / 2 ^ (8 * j) % 256
    R (.vredsum vd va vb width msel) 6 (fun k c es => (s.elem k vb c.ew 0 + (es.map (s.elem k va c.ew)).sum, 0)) ∧
    R (.vredmax vd va vb width msel) 6 (fun k c es => (((es.map (sx k c va)).foldl max (sx k c vb 0) % (2 ^ c.ew : Nat)).toNat, 0)) ∧
    R (.vredmin vd va vb width msel) 6 (fun k c es => (((es.map (sx k c va)).foldl min (sx k c vb 0) % (2 ^ c.ew : Nat)).toNat, 0)) ∧
    R (.vfredsum vd va vb width msel) 6 (fun k c es => fsum c.ew (s.elem k vb c.ew 0) (es.map fun e => (e, v c.ew (s.elem k va c.ew e)))) ∧
    R (.vfredmax vd va vb width msel) 6 (fold true) ∧
    R (.vfredmin vd va vb width msel) 6 (fold false) ∧
    R (.vfdota vd va vb width msel) 5 (fun k c es =>
      fsum c.ew (s.elem k vd c.ew 0) (es.map fun e => (e, (v c.ew (s.elem k va c.ew e)).mul (v c.ew (s.elem k vb c.ew e))))) ∧
    (∀ mode : Fin 16, mode.val < 2 → ∃ best : Fin 8 → VecCfg → (Nat → Int) → List Nat → Nat,
      (∀ k c rank es, (es = [] → best k c rank es = 2 ^ c.ew - 1) ∧
        (es ≠ [] → es.Pairwise (· < ·) → best k c rank es ∈ es ∧ ∀ e ∈ es,
          (if mode.val = 0 then rank e ≤ rank (best k c rank es) else rank (best k c rank es) ≤ rank e) ∧
          (rank e = rank (best k c rank es) → best k c rank es ≤ e))) ∧
      R (.vredarg vd va mode width msel) 6 (fun k c es => (best k c (sx k c va) es, 0)) ∧
      R (.vfredarg vd va mode width msel) 6 (fun k c es => (best k c (fun e => (orderRank c.ew (s.elem k va c.ew e) : Int)) es, 0))) ∧
    (Wide s →
      let D (i : Instr) (f : Nat → Nat → Nat → Flagged) : Prop := VecResult i s width msel 5 vd fun k c e =>
        let y := f (s.elem k va c.ew e) (s.elem k vb c.ew e) (s.elem k vd c.ew e)
        (some y.1, y.2)
      let clamp (lo hi z : Int) : Flagged := ((max lo (min z hi) % 2 ^ 32).toNat, if lo ≤ z ∧ z ≤ hi then 0 else flSAT)
      D (.vidot vd va vb width msel) (fun x y d =>
        clamp (-(2 ^ 31)) (2 ^ 31 - 1) (sextNat 32 d + ((List.range 4).map fun j => sextNat 8 (byte x j) * sextNat 8 (byte y j)).sum)) ∧
      D (.vidotu vd va vb width msel) (fun x y d =>
        clamp 0 (2 ^ 32 - 1) ((d : Int) + ((List.range 4).map fun j => (byte x j : Int) * (byte y j : Int)).sum)) ∧
      D (.vfdot vd va vb width msel) (fun x y d =>
        gsum [v 32 d, (v 16 (x % 2 ^ 16)).mul (v 16 (y % 2 ^ 16)), (v 16 (x / 2 ^ 16)).mul (v 16 (y / 2 ^ 16))]))

/-- Compares write a mask: the relation of R186 where an element is active; VFLT and VFLE set NV for a signalling NaN. The mask operations write every
bit below n; MPOPC and MFIRST write a_d; VMERGE writes every element below n, VSELM the active ones (R186 to R188). -/
def Obligations.ComparesAndMasks : Prop :=
  ∀ (s : State) (vd va vb : Fin 16) (m a b : Fin 4) (width msel : Fin 4), VecLegal s width [va, vb] →
    let wide (x : Fin 4) : Fin 16 := ⟨x.val, by omega⟩
    let C (i : Instr) (lat : Nat) (f : Nat → Nat → Nat → Bool × BitVec 32) : Prop := MaskResult i s width msel lat m fun k c e =>
      f c.ew (s.elem k va c.ew e) (s.elem k vb c.ew e)
    let v (ew x : Nat) : FVal := (fmtOf ew).value x
    let nan (ew x y : Nat) : Bool := (v ew x).isNaN || (v ew y).isNaN
    let snan (ew x y : Nat) : BitVec 32 := if (v ew x).isSNaN || (v ew y).isSNaN then flNV else 0
    let zeros (ew x y : Nat) : Bool := x % 2 ^ (ew - 1) = 0 && y % 2 ^ (ew - 1) = 0
    let M (i : Instr) (f : Fin 8 → Nat → Bool) : Prop := MaskResult i s width 0 1 m fun k _ e => (f k e, 0)
    let hits (k : Fin 8) (n : Nat) : List Nat := (activeList s k msel n).filter fun e => (s.rm k a).getLsbD e
    C (.vceq (wide m) va vb width msel) 2 (fun _ x y => (decide (x = y), 0)) ∧
    C (.vclt (wide m) va vb width msel) 2 (fun ew x y => (decide (sextNat ew x < sextNat ew y), 0)) ∧
    C (.vcltu (wide m) va vb width msel) 2 (fun _ x y => (decide (x < y), 0)) ∧
    C (.vcle (wide m) va vb width msel) 2 (fun ew x y => (decide (sextNat ew x ≤ sextNat ew y), 0)) ∧
    C (.vfeq (wide m) va vb width msel) 4 (fun ew x y => (!nan ew x y && (x = y || zeros ew x y), 0)) ∧
    C (.vflt (wide m) va vb width msel) 4 (fun ew x y => (!nan ew x y && !zeros ew x y && orderKey ew x < orderKey ew y, snan ew x y)) ∧
    C (.vfle (wide m) va vb width msel) 4 (fun ew x y =>
      (!nan ew x y && (x = y || zeros ew x y || orderKey ew x < orderKey ew y), snan ew x y)) ∧
    C (.vftot (wide m) va vb width msel) 4 (fun ew x y => (decide (orderKey ew x < orderKey ew y), 0)) ∧
    M (.mand (wide m) (wide a) (wide b) width) (fun k e => (s.rm k a).getLsbD e && (s.rm k b).getLsbD e) ∧
    M (.mor (wide m) (wide a) (wide b) width) (fun k e => (s.rm k a).getLsbD e || (s.rm k b).getLsbD e) ∧
    M (.mxor (wide m) (wide a) (wide b) width) (fun k e => (s.rm k a).getLsbD e != (s.rm k b).getLsbD e) ∧
    M (.mnot (wide m) (wide a) width) (fun k e => !(s.rm k a).getLsbD e) ∧
    M (.mset (wide m) width) (fun _ _ => true) ∧
    M (.mclr (wide m) width) (fun _ _ => false) ∧
    VecPosts (.mpopc vd (wide a) width msel) s width 1 (fun k _ n => [.a vd (BitVec.ofNat 64 (hits k n).length)]) ∧
    VecPosts (.mfirst vd (wide a) width msel) s width 1 (fun k _ n =>
      [.a vd (if h : hits k n = [] then BitVec.allOnes 64 else BitVec.ofNat 64 ((hits k n).head h))]) ∧
    (VecLegal s width [vd, va, vb] →
      VecResult (.vmerge vd va vb width msel) s width 0 2 vd (fun k c e =>
        (some (if (s.rm k msel).getLsbD e then s.elem k va c.ew e else s.elem k vb c.ew e), 0)) ∧
      VecResult (.vselm vd (wide a) width msel) s width msel 2 vd (fun k c e =>
        (some (if (s.rm k a).getLsbD e then 2 ^ c.ew - 1 else 0), 0)))

/-- The permutes and moves: each active element takes the element of the source group that R193 and R194 name, an index from VLMAX on gives 0, VSLUP
keeps the elements below x, and VCOMP packs the active elements. VMV's flag forms read and clear VFLAGS. VBSCL multiplies by the scale of the element's
block, and traps with 0x0E where there are too few scales (R193 to R196). -/
def Obligations.PermutesMovesAndScales : Prop :=
  ∀ (s : State) (vd va vb r : Fin 16) (width msel : Fin 4), VecLegal s width [vd, va, vb] →
    let R (i : Instr) (lat : Nat) (f : Fin 8 → VecCfg → Nat → Nat → Nat) : Prop := VecResult i s width msel lat vd fun k c e =>
      (some (f k c (1024 * c.group / c.ew) e), 0)
    let src (k : Fin 8) (c : VecCfg) (max j : Nat) : Nat := if j < max then s.elem k va c.ew j else 0
    let scale (k : Fin 8) (b : Nat) : Nat := (s.rv k r).toNat / 2 ^ (8 * b) % 256
    R (.vgath vd va vb width msel) 3 (fun k c max e => src k c max (s.elem k vb c.ew e)) ∧
    R (.vsldn vd va r width msel) 3 (fun k c max e => src k c max (e + (s.ra k r).toNat)) ∧
    R (.vbcs vd va r width msel) 3 (fun k c max _ => src k c max (s.ra k r).toNat) ∧
    R (.vsplat vd r width msel) 3 (fun k c _ _ => (s.ra k r).toNat % 2 ^ c.ew) ∧
    R (.vid vd width msel) 3 (fun _ _ _ e => e) ∧
    R (.vmv vd va width msel) 3 (fun k c _ e => s.elem k va c.ew e) ∧
    VecResult (.vslup vd va r width msel) s width msel 3 vd (fun k c e =>
      let x := (s.ra k r).toNat
      (if e < x then none else some (s.elem k va c.ew (e - x)), 0)) ∧
    VecPosts (.vcomp vd va width msel) s width 3 (fun k c n => elemPosts vd c.ew ((List.range (1024 * c.group / c.ew)).map fun e =>
      match (activeList s k msel n)[e]? with
      | some j => (some (s.elem k va c.ew j), 0)
      | none => kept c c.ew 0 e)) ∧
    VecPosts (.vmvRf r width) s width 3 (fun k _ _ => [.a r ((s.opn.snap.cores[k.val]).vflags.setWidth 64)]) ∧
    VecPosts (.vmvCf r width) s width 3 (fun k _ _ => [.clear ((s.ra k r).setWidth 32)]) ∧
    (Wide s →
      let n (k : Fin 8) : Nat := min (s.vcfg k).vl (256 * 2 ^ width.val * (s.vcfg k).group / 32)
      ((∀ k, s.enabled k = true → (n k + 31) / 32 ≤ scale k 127) →
        VecResult (.vbscl vd va r width msel) s width msel 4 vd (fun k _ e =>
          let sc := scale k (e / 32)
          let y : Flagged := if sc = 255 then (0x7FC00000, flNV)
            else match (fmtOf 32).value (s.elem k va 32 e) with
              | .fin g m x => (FVal.fin g m (x + ((sc : Int) - 127))).round 32
              | z => z.round 32
          (some y.1, y.2))) ∧
      ∀ k : Fin 8, OnlyCore s k → scale k 127 < (n k + 31) / 32 →
        exec (.vbscl vd va r width msel) s = .next (takeTrap s 0x0E (BitVec.ofNat 64 ((n k + 31) / 32)) ⟨k.val, by omega⟩))

/-- The scratchpad forms: with every active element's address in the core's own pool and aligned, and nothing outstanding in the core, VLD, VLDS and
VLDX post the elements read, with latency 4 or 6, as they stand after the stores of slots to their left. VST and VSTX store the active elements in index
order: the accumulator store at the end of the cycle, the scratchpad as the bundle commits, when a byte reads as the element stored to it, and every
other byte as before. An address outside the pool traps with 0x07, one that is not aligned with 0x08, and nothing is stored (R157, R158, R164 to R166,
R299). No write of the array state is under way. -/
def Obligations.ScratchpadForms : Prop :=
  (
  ∀ (s : State) (v a vi : Fin 16) (width msel scale : Fin 4) (disp : BitVec 6),
    VecLegal s width [v, vi] → (∀ k : Fin 8, (s.cl.cores[k.val]).pend = []) →
    (∀ o ∈ s.cl.bank.ops, ∀ k : Fin 8, s.enabled k = true → o.agent.val ≠ k.val) →
    let ew (k : Fin 8) : Nat := (s.vcfg k).ew
    let n (k : Fin 8) : Nat := min (s.vcfg k).vl (256 * 2 ^ width.val * (s.vcfg k).group / ew k)
    let act (k : Fin 8) : List Nat := activeList s k msel (n k)
    let unit (k : Fin 8) (e : Nat) : Word := toWord ((s.ra k a).toNat + (64 * s.extImm 6 disp.toNat + (e * (ew k / 8) : Nat)))
    let strided (k : Fin 8) (e : Nat) : Word := toWord ((s.ra k a).toNat + e * s.extImm 6 disp.toNat * (ew k / 8 : Nat))
    let indexed (k : Fin 8) (e : Nat) : Word := toWord ((s.ra k a).toNat + (s.elem k vi (ew k) e * 2 ^ scale.val : Nat))
    let lies (k : Fin 8) (ea : Word) (acc : Bool) (off : Nat) : Prop :=
      ea.toNat = 2 ^ 56 + (if acc then 2 ^ 52 else 0) + off ∧ off < shareSize s.cl.part acc
    let inPool (ea : Fin 8 → Nat → Word) (acc : Fin 8 → Nat → Bool) (off : Fin 8 → Nat → Nat) : Prop :=
      ∀ k, s.enabled k = true → ∀ e ∈ act k, lies k (ea k e) (acc k e) (off k e) ∧ off k e % (ew k / 8) = 0
    let loads (i : Instr) (lat : Nat) (ea : Fin 8 → Nat → Word) : Prop := ∀ acc off, inPool ea acc off →
      ∃ t, exec i s = .next t ∧
        t = { s with
          freeCtr := t.freeCtr,
          cl := { s.cl with
            opn := s.cl.opn.map (fun o => { o with freeze := t.opn.freeze }), bank := { s.cl.bank with cores := t.cl.bank.cores } } } ∧
        ∀ k : Fin 8, t.cl.bank.cores[k.val] =
          if s.enabled k = true ∧ n k ≠ 0 then
            let c := s.vcfg k
            let es : List ElemWrite := (List.range (1024 * c.group / c.ew)).map fun e =>
              if e ∈ act k then some ((((ownView s (coreWho s k).agent).cl.cores[k.val]).share (acc k e)).read (off k e) (c.ew / 8)) else (kept c c.ew (n k) e).1
            { s.cl.bank.cores[k.val] with
              pend := (groupWrites v c.ew es c.group).foldl (fun p x => Pending.insert (s.timed k lat x) p) (s.cl.bank.cores[k.val]).pend }
          else s.cl.bank.cores[k.val]
    let stores (i : Instr) (ea : Fin 8 → Nat → Word) : Prop := ∀ acc off, inPool ea acc off →
      let late : List LateWrite := ((List.finRange 8).filter fun k => s.enabled k).flatMap fun k => ((act k).filter fun e => !acc k e).map fun e =>
        ⟨s.cl.nextOp, (coreWho s k).agent, .pool s.cl.id k false (off k e), .put (s.elem k v (ew k) e) (ew k / 8), s.opn.fence,
          s.sourceOf (coreWho s k).agent⟩
      ∃ t, exec i s = .next t ∧
        t = { s with cl := { s.cl with
          opn := s.cl.opn.map (fun o => { o with freeze := t.opn.freeze, late := o.late ++ late }), cores := t.cl.cores } } ∧
        ∀ k : Fin 8, t.cl.cores[k.val] =
          if s.enabled k then
            ((act k).filter fun e => acc k e).foldl (fun (c : PhysCore) e =>
              { c with pend := Pending.insert (s.timed k 1 (.rows (off k e) (leBytes (s.elem k v (ew k) e) (ew k / 8)))) c.pend }) s.cl.cores[k.val]
          else s.cl.cores[k.val]
    let traps (i : Instr) (ea : Fin 8 → Nat → Word) : Prop := ∀ (k : Fin 8) (e : Nat), OnlyCore s k → (act k).head? = some e →
      ((∀ acc off, ¬lies k (ea k e) acc off) → exec i s = .next (takeTrap s 0x07 (ea k e) ⟨k.val, by omega⟩)) ∧
      (∀ acc off, lies k (ea k e) acc off → off % (ew k / 8) ≠ 0 → exec i s = .next (takeTrap s 0x08 (ea k e) ⟨k.val, by omega⟩))
    loads (.vld v a width msel disp) 4 unit ∧ loads (.vlds v a width msel disp) 6 strided ∧ loads (.vldx v a vi width msel scale) 6 indexed ∧
    stores (.vst v a width msel disp) unit ∧ stores (.vstx v a vi width msel scale) indexed ∧
    traps (.vld v a width msel disp) unit ∧ traps (.vlds v a width msel disp) strided ∧ traps (.vldx v a vi width msel scale) indexed ∧
    traps (.vst v a width msel disp) unit ∧ traps (.vstx v a vi width msel scale) indexed) ∧
  ∀ (s : State) (o : OpenBundle) (x : LateWrite) (k : Fin 8) (off v n : Nat), s.cl.opn = some o → o.late = [x] → x.loc = .pool s.cl.id k false off →
    x.act = .put v n → s.cl.bank.ops = [] → (s.cl.cores[k.val]).pend = [] → Mem.wf (s.cl.cores[k.val]).spad = true →
    let t := commitLate s
    (ownView s x.agent).cl.cores = t.cl.cores ∧ t.mem = s.mem ∧ (∀ j : Fin 8, j ≠ k → t.cl.cores[j.val] = s.cl.cores[j.val]) ∧
    t.cl.cores[k.val] = { s.cl.cores[k.val] with spad := (t.cl.cores[k.val]).spad } ∧
    ∀ b, Mem.get (t.cl.cores[k.val]).spad b =
      if off ≤ b ∧ b < off + n then BitVec.ofNat 8 (v / 256 ^ (b - off)) else Mem.get (s.cl.cores[k.val]).spad b

/-- VLDG and VSTG issue one operation in every enabled core that has elements, with one access for each active element, in index order; VLDFF does so
too, and where an element after the first fails, it loads the elements before that one and sets VL to its index; a first element that fails traps
(R167, R168). An access reaches its place by a window or a translation that the core's TLB holds. AGTH enters a gather of n rows in every enabled
core, if each lies in the core's scratchpad share, else it traps with 0x07 and the first such address; AGTH_ROW_COPY then reads the next row of a
core's oldest gather, each byte as it stood at the AGTH or as it stands now, and with the last one writes the rows into the operand buffer, and no
other byte of it (R155, R170, R171). -/
def Obligations.GathersAndScatters : Prop :=
  (
  ∀ (s : State) (v a vi : Fin 16) (width msel : Fin 4) (scale : Bool) (disp : BitVec 6), VecLegal s width [v, vi] →
    let c (k : Fin 8) := s.vcfg k
    let n (k : Fin 8) : Nat := min (c k).vl (256 * 2 ^ width.val * (c k).group / (c k).ew)
    let act (k : Fin 8) : List Nat := activeList s k msel (n k)
    let indexed (k : Fin 8) (e : Nat) : Word :=
      toWord ((s.ra k a).toNat + (s.elem k vi (c k).ew e * (if scale then (c k).ew / 8 else 1) : Nat))
    let unit (k : Fin 8) (e : Nat) : Word := toWord ((s.ra k a).toNat + (64 * s.extImm 6 disp.toNat + (e * ((c k).ew / 8) : Nat)))
    let reach (k : Fin 8) (u : Use) (ea : Nat → Word) (l : Nat → Loc) (es : List Nat) : Prop := ∀ e ∈ es,
      (ea e).toNat % ((c k).ew / 8) = 0 ∧ (ea e).toNat < 2 ^ 57 ∧ Reaches s (coreWho s k) u (ea e) ((c k).ew / 8) (l e)
    let room (cls : WaitClass) : Prop := ∀ k, s.enabled k = true → outstanding s.cl s.bankNo s.cl.bank (coreWho s k).agent cls < 32
    let all (u : Use) (ea : Fin 8 → Nat → Word) (l : Fin 8 → Nat → Loc) : Prop := ∀ k, s.enabled k = true → reach k u (ea k) (l k) (act k)
    let access (k : Fin 8) (ea : Nat → Word) (l : Nat → Loc) (kind : Nat → AccKind) (e : Nat) : Access :=
      { elem := e, va := ea e, loc := l e, size := (c k).ew / 8, kind := kind e }
    let dest (k : Fin 8) (m : Nat) (es : List Nat) : Dest := .coreV v (c k).ew
      ((groupWrites v (c k).ew ((List.range (1024 * (c k).group / (c k).ew)).map fun e => if e ∈ es then none else (kept (c k) (c k).ew m e).1)
        (c k).group).filterMap fun w => match w with | .v r _ m => some (r, m) | _ => none)
    let issues (t : State) (cls : WaitClass) (d : Fin 8 → Dest) (accs : Fin 8 → List Access) : Prop := ∃ new,
      t.cl.bank.ops = s.cl.bank.ops ++ new ∧ new.map (fun o => (o.agent, o.cls, o.acquire, o.release, o.dest, o.accs)) =
        ((List.finRange 8).filter fun k => s.enabled k && !(accs k).isEmpty).map fun k => ((coreWho s k).agent, cls, s.ordAcq, s.ordRel, d k, accs k)
    let only (t : State) : Prop := t = { s with cl := { s.cl with nextOp := t.cl.nextOp, bank := { s.cl.bank with ops := t.cl.bank.ops } } }
    let some1 : Prop := ∀ k, s.enabled k = true → n k ≠ 0 → act k ≠ []
    (∀ l, room .load → all {} indexed l → ∃ t, exec (.vldg v a vi width msel scale) s = .next t ∧
      (some1 → only t ∧
        issues t .load (fun k => dest k (n k) (act k)) (fun k => (act k).map (access k (indexed k) (l k) fun _ => .load)))) ∧
    (∀ l, room .store → all { write := true } indexed l → ∃ t, exec (.vstg v a vi width msel scale) s = .next t ∧ only t ∧
      issues t .store (fun _ => .none)
        (fun k => (act k).map (access k (indexed k) (l k) fun e => .store (BitVec.ofNat 64 (s.elem k v (c k).ew e))))) ∧
    (room .load → room .store → (∀ k, s.enabled k = true → n k = 0) →
      exec (.vldg v a vi width msel scale) s = .next s ∧ exec (.vstg v a vi width msel scale) s = .next s) ∧
    ((∀ k : Fin 8, s.opn.regs.coreVl[k.val] = (s.opn.sampled.vl, s.opn.sampled.vtype)) → room .load →
      let after (t : State) : Prop := t = { s with cl := { s.cl with
        nextOp := t.cl.nextOp, opn := s.cl.opn.map (fun o => { o with minTime := max o.minTime (s.cl.time + 7 * o.sampled.skew.toNat + 1) }),
        bank := { s.cl.bank with ops := t.cl.bank.ops, pend := t.cl.bank.pend } } }
      (∀ l, all {} unit l → ∃ t, exec (.vldff v a width msel disp) s = .next t ∧
        (some1 → after t ∧ t.cl.bank.pend = s.cl.bank.pend ∧
          issues t .load (fun k => dest k (n k) (act k)) (fun k => (act k).map (access k (unit k) (l k) fun _ => .load)))) ∧
      ∀ (k : Fin 8) (m : Nat) (pre post : List Nat) (l : Nat → Loc) (cause : BitVec 8) (tval : Word) (g : Fin 9),
        OnlyCore s k → act k = pre ++ m :: post → reach k {} (unit k) l pre →
        corePlace s k {} (unit k m) ((c k).ew / 8) = .error (.trap cause tval g) →
        -- the reads of the walk that has led to the trap stay read (R87)
        (pre = [] → s.untranslated tval = false →
          exec (.vldff v a width msel disp) s = .next (takeTrap (s.noteWalk (coreWho s k) cause tval) cause tval g)) ∧
        (pre ≠ [] → ∃ t, exec (.vldff v a width msel disp) s = .next t ∧ after t ∧
          issues t .load (fun k => dest k m pre) (fun k => pre.map (access k (unit k) l fun _ => .load)) ∧
          t.cl.bank.pend = Pending.insert ⟨s.cl.time + 1, .vl (BitVec.ofNat 16 m), s.cl.time, s.opn.idx⟩ (s.cl.bank.pend.filterMap fun p =>
            match p.eff with
            | .vl _ => none
            | .vset _ x => some { p with eff := .vtype x }
            | _ => some p)))) ∧
  (
  ∀ (s : State),
    (∀ (ad aa vi : Fin 16) (cnt : Fin 64) (o : Fin 8 → Nat),
      let idx (k : Fin 8) (e : Nat) : Nat := (s.rv k vi).toNat / 2 ^ (16 * e) % 2 ^ 16
      let w (k : Fin 8) : Nat := if (s.ra k ad).getLsbD 7 then 256 else if partRf s.cl.part = 1 then 128 else 256
      let rows : List Nat := List.range (cnt.val + 1)
      let core (k : Fin 8) : Fin 9 := ⟨k.val, by omega⟩
      let src (k : Fin 8) (e : Nat) : Nat := o k + 64 * idx k e
      let fits (k : Fin 8) (e : Nat) : Prop := src k e + w k ≤ shareSize s.cl.part false
      (∀ k : Fin 8, s.enabled k = true → (s.ra k aa).toNat = 2 ^ 56 + o k ∧ o k < shareSize s.cl.part false ∧ o k % 64 = 0 ∧
        ((s.cl.cores[k.val]).gathers.filter fun g => g.bank = s.bankNo).length < 32) →
      ((∀ k : Fin 8, s.enabled k = true → ∀ e ∈ rows, fits k e) →
        ∃ t, exec (.agth aa ad vi cnt) s = .next t ∧ t = { s with cl := { s.cl with nextOp := t.cl.nextOp, cores := t.cl.cores } } ∧
          ∀ k : Fin 8, ∃ id olds, t.cl.cores[k.val] =
            (if s.enabled k then
              { s.cl.cores[k.val] with gathers := (s.cl.cores[k.val]).gathers ++ [{
                  id := id, bank := s.bankNo, toB := (s.ra k ad).getLsbD 7, row0 := (s.ra k ad).toNat % 128, width := w k,
                  srcs := rows.map (src k), olds := olds }] }
            else s.cl.cores[k.val]) ∧
            olds.length = cnt.val + 1 ∧ ∀ e ∈ rows, (∀ p ∈ olds.getD e [], p.1 < w k) ∧
              ∀ b, b < w k → Mem.get (olds.getD e []) b = Mem.get ((ownView s (core k)).cl.cores[k.val]).spad (src k e + b)) ∧
      ∀ (k : Fin 8) (e : Nat), OnlyCore s k → e ∈ rows → ¬fits k e → (∀ j, j < e → fits k j) →
        exec (.agth aa ad vi cnt) s = .next (takeTrap s 0x07 (s.ra k aa + BitVec.ofNat 64 (64 * idx k e)) ⟨k.val, by omega⟩)) ∧
    ∀ (k : Fin 8) (g : Gather) (rest : List Gather) (src : Nat), s.ev.c = s.cl.id → s.ev.a = k.val →
      (s.cl.cores[k.val]).gathers = g :: rest → g.srcs[g.next]? = some src → g.srcs.length ≤ 64 → g.olds.length = g.srcs.length →
      (∀ r ∈ g.olds, ∀ p ∈ r, p.1 < g.width) →
      ∃ t row, exec .agthRowCopy s = .next t ∧
        t = { s with freeCtr := t.freeCtr, cl := { s.cl with cores := t.cl.cores } } ∧
        (∀ j : Fin 8, j ≠ k → t.cl.cores[j.val] = s.cl.cores[j.val]) ∧
        let x := s.cl.cores[k.val]
        let y := t.cl.cores[k.val]
        let olds := g.olds.set g.next row
        let lo (i : Nat) : Nat := (g.row0 + i) % 128 * g.width
        (∀ p ∈ row, p.1 < g.width) ∧
        (∀ b, b < g.width → Mem.get row b = Mem.get x.spad (src + b) ∨ Mem.get row b = Mem.get (g.olds.getD g.next []) b) ∧
        (g.next + 1 < g.srcs.length → y = { x with gathers := { g with next := g.next + 1, olds := olds } :: rest }) ∧
        (g.next + 1 = g.srcs.length →
          y = { x with bufA := y.bufA, bufB := y.bufB, gathers := rest } ∧ (if g.toB then y.bufA = x.bufA else y.bufB = x.bufB) ∧
          let before := if g.toB then x.bufB else x.bufA
          let now := if g.toB then y.bufB else y.bufA
          (∀ i b, i < g.srcs.length → b < g.width → Mem.get now (lo i + b) = Mem.get (olds.getD i []) b) ∧
          ∀ a, (∀ i, i < g.srcs.length → a < lo i ∨ lo i + g.width ≤ a) → Mem.get now a = Mem.get before a))

/-! ### Unpack, pack and the stream array (R172, R195 to R246) -/

/-- Unpack: element e of the destination group from packed element part · VLMAX + e, widened or scaled and rounded once, or plus and minus one; past
the end of the group it traps with 0x0D, and so does a pack (packed bits, 32 a lane, never reach past it). Pack: those packed elements from the
elements, clamped, rounded or their signs; every other packed element keeps its bits, and in the 6-bit formats bits 31:30 of the lanes written are
zero. PSCL writes a scale for each block, and their number (R172, R195, R197 to R200). The NV of an unpacked signalling NaN and of a clamped infinity,
the NX of a clamp, UF, and the order of the tests in format 4 are the model's reading (log 27). -/
def Obligations.UnpackAndPack : Prop :=
  (∀ (s : State) (vd va vs : Fin 16) (fmt part : Fin 8) (bpart : Fin 16) (fl : Bool), VecLegal s 0 [vd, va] →
     let max (k : Fin 8) : Nat := 1024 * (s.vcfg k).group / (s.vcfg k).ew
     let n (k : Fin 8) : Nat := min (s.vcfg k).vl (max k)
     let scale (k : Fin 8) (b : Nat) : Nat := (s.rv k vs).toNat / 2 ^ (8 * b) % 256
     let room (m p : Nat) : Prop := ∀ k, s.enabled k = true → p * max k + n k ≤ 32 * (s.vcfg k).group * m
     let unpacks (i : Instr) (b m p : Nat) (f : Fin 8 → Nat → Nat → Nat → Flagged) : Prop := room m p → UnitPosts i s fun k c n =>
       elemPosts vd c.ew ((List.range (1024 * c.group / c.ew)).map fun e =>
         if e < n then let y := f k c.ew e (packedField (s.rv k) va b m (p * max k + e)); (some y.1, y.2) else kept c c.ew n e)
     let intBits : Nat := [4, 4, 6, 6, 8, 8, 16, 16].getD fmt.val 0
     let intLane : Nat := [8, 8, 5, 5, 4, 4, 2, 2].getD fmt.val 1
     let fltBits : Nat := [8, 8, 6, 4, 16].getD fmt.val 0
     let fltLane : Nat := [4, 4, 5, 8, 2].getD fmt.val 1
     unpacks (.upki vd va fmt part) intBits intLane part.val (fun _ ew _ x =>
       (if fmt.val % 2 = 0 then (sextNat intBits x % (2 ^ ew : Nat)).toNat else x, 0)) ∧
     (fmt.val < 5 → (fmt.val = 4 → Wide s) → (∀ k, s.enabled k = true → (n k + 31) / 32 ≤ scale k 127) →
       unpacks (.upkf vd va vs fmt part) fltBits fltLane part.val (fun k ew e x =>
         let v := (narrowFmt fmt.val).value x
         let sc := scale k (e / 32)
         if v.isNaN then (if ew = 32 then 0x7FC00000 else 0x7FC0, if v.isSNaN then flNV else 0)
         else if sc = 255 then (if ew = 32 then 0x7FC00000 else 0x7FC0, flNV)
         else (v.scale ((sc : Int) - 127)).round ew)) ∧
     unpacks (.upkb vd va bpart fl) 1 32 bpart.val (fun _ ew _ x =>
       (if fl then (if x = 1 then 0 else 2 ^ (ew - 1)) + (if ew = 32 then 0x3F800000 else 0x3F80)
        else if x = 1 then 1 else 2 ^ ew - 1, 0)) ∧
     ∀ k : Fin 8, OnlyCore s k →
       let past (i : Instr) (m p : Nat) : Prop := 32 * (s.vcfg k).group * m < p * max k + n k →
         exec i s = .next (takeTrap s 0x0D (BitVec.ofNat 64 (p * max k + n k)) ⟨k.val, by omega⟩)
       past (.upki vd va fmt part) intLane part.val ∧ past (.pcki vd va fmt part) intLane part.val ∧
       (fmt.val < 5 → (fmt.val = 4 → Wide s) → past (.upkf vd va vs fmt part) fltLane part.val ∧ past (.pckf vd va vs fmt part) fltLane part.val)) ∧
  ∀ (s : State) (vd va vs : Fin 16) (fmt part : Fin 8) (bpart : Fin 16) (fl : Bool), VecLegal s 0 [vd, va] →
    let max (k : Fin 8) : Nat := 1024 * (s.vcfg k).group / (s.vcfg k).ew
    let n (k : Fin 8) : Nat := min (s.vcfg k).vl (max k)
    let scale (k : Fin 8) (b : Nat) : Nat := (s.rv k vs).toNat / 2 ^ (8 * b) % 256
    let packs (i : Instr) (b m p : Nat) (f : Fin 8 → Nat → Nat → Nat → Flagged) : Prop :=
      (∀ k, s.enabled k = true → p * max k + n k ≤ 32 * (s.vcfg k).group * m) →
      ∃ ws : Fin 8 → List CoreWrite, UnitPosts i s (fun k _ _ => ws k) ∧ ∀ (k : Fin 8) (z : CoreFile), n k ≠ 0 → s.enabled k = true →
        let y (e : Nat) : Flagged := f k (s.vcfg k).ew e (s.elem k va (s.vcfg k).ew e)
        let z' := (ws k).foldl CoreFile.write z
        let field (x : CoreFile) (j : Nat) : Nat := packedField (fun r => x.v[r.val]) vd b m j
        z' = { z with v := z'.v, vflags := z.vflags ||| ((List.range (n k)).map fun e => (y e).2).foldl (· ||| ·) 0 } ∧
        (∀ e, e < n k → field z' (p * max k + e) = (y e).1 % 2 ^ b) ∧
        (∀ j, j < 32 * (s.vcfg k).group * m → j < p * max k ∨ p * max k + n k ≤ j → field z' j = field z j) ∧
        (b = 6 → ∀ lane, p * max k / m ≤ lane → lane ≤ (p * max k + n k - 1) / m →
          (z'.v[(Fin.ofNat 16 (vd.val + lane / 32)).val]).toNat / 2 ^ (32 * (lane % 32) + 30) % 4 = 0) ∧
        ∀ r : Fin 16, r.val < vd.val ∨ vd.val + (s.vcfg k).group ≤ r.val → z'.v[r.val] = z.v[r.val]
    let intBits : Nat := [4, 4, 6, 6, 8, 8, 16, 16].getD fmt.val 0
    let intLane : Nat := [8, 8, 5, 5, 4, 4, 2, 2].getD fmt.val 1
    let fltBits : Nat := [8, 8, 6, 4, 16].getD fmt.val 0
    let fltLane : Nat := [4, 4, 5, 8, 2].getD fmt.val 1
    packs (.pcki vd va fmt part) intBits intLane part.val (fun _ ew _ x =>
      let z := sextNat ew x
      let lo : Int := if fmt.val % 2 = 0 then -(2 ^ (intBits - 1) : Nat) else 0
      let hi : Int := if fmt.val % 2 = 0 then (2 ^ (intBits - 1) : Nat) - 1 else (2 ^ intBits : Nat) - 1
      ((Max.max lo (min z hi) % (2 ^ intBits : Nat)).toNat, if lo ≤ z ∧ z ≤ hi then 0 else flSAT)) ∧
    (fmt.val < 5 → (fmt.val = 4 → Wide s) → (∀ k, s.enabled k = true → (n k + 31) / 32 ≤ scale k 127) →
      packs (.pckf vd va vs fmt part) fltBits fltLane part.val (fun k ew e x =>
        let f := narrowFmt fmt.val
        let sc := scale k (e / 32)
        if fmt.val = 4 then
          if sc = 255 then (0x7FC0, flNV)
          else match (fmtOf ew).value x with
            | .nan sig _ => (0x7FC0, if sig then flNV else 0)
            | v => (v.scale (127 - (sc : Int))).round 16
        else
          match (fmtOf ew).value x with
          | .nan _ _ => ([0x7F, 0x7E, 0, 0].getD fmt.val 0, flNV)
          | .inf g =>
            if sc = 255 then ([0x7F, 0x7E, 0, 0].getD fmt.val 0, flNV)
            else if fmt.val = 1 then (0x7C + (if g then 0x80 else 0), 0) else (f.signed g f.maxFin, flSAT ||| flNV)
          | .fin g m ex =>
            if sc = 255 then ([0x7F, 0x7E, 0, 0].getD fmt.val 0, flNV)
            else
              let ex' := ex - ((sc : Int) - 127)
              if f.beyond m ex' then (f.signed g f.maxFin, flOF ||| flSAT ||| flNV ||| flNX)
              else
                let r := f.roundMag m ex'
                (f.signed g r.1, (if r.2 then flNX else 0) ||| (if r.2 && f.tiny m ex' then flUF else 0)))) ∧
    packs (.pckb vd va bpart fl) 1 32 bpart.val (fun _ ew _ x => (if x < 2 ^ (ew - 1) then 1 else 0, 0)) ∧
    ∀ d : Fin 16, UnitPosts (.pscl d va fmt) s (fun k c n => groupWrites d 8 ((List.range 128).map fun b =>
      if b = 127 then some ((n + 31) / 32)
      else if b < (n + 31) / 32 then
        some (blockScale fmt.val (((List.range 32).filter fun e => 32 * b + e < n).map fun e => (fmtOf c.ew).value (s.elem k va c.ew (32 * b + e))))
      else if c.tpol then some 0 else none) 1)

/-- ABEAT: a presenting beat of every enabled core counts, in each of the 16384 cells, the live positions at which its edges' bits are both one (AND
mode) or agree, saturated at 0xFFFFFF, and sets CORR, OVF, END and UNALIGNED as R224 says; the advance adds 8 to GPOS, the shift moves the top latch.
A wrong tag traps with 0x0D and correlated edges under policy 0 with 0x0F, and then nothing of the beat is done (R205, R206, R210, R217, R223 to
R227). No write of the array state is under way, and the counters are listed in rising order. -/
def Obligations.BeatCountsAgreements : Prop :=
  ∀ (s : State) (sh adv cnt pre : Bool), ArrayQuiet s → (∀ k : Fin 8, Cells.wf (s.cl.cores[k.val]).counters = true) →
    let b := s.cl.bank
    let c (k : Fin 8) : PhysCore := s.cl.cores[k.val]
    let f (k : Fin 8) : Nat := ((b.cores[k.val]).fmt).toNat
    let mode (k : Fin 8) : Nat := f k % 4
    let route (k : Fin 8) : Nat := f k / 64 % 4
    let lt (k : Fin 8) : Nat := (c k).leftTag.toNat
    let tt (k : Fin 8) : Nat := (c k).topTag.toNat
    let bad (k : Fin 8) : Nat :=
      if mode k = 2 then (if lt k = 1 then 0 else 1) + (if tt k = 1 then 0 else 2) else (if lt k = 0 then 0 else 1) + (if tt k = 1 then 2 else 0)
    let gen (k : Fin 8) : Bool := mode k ≠ 2 && tt k = 0
    let corr (k : Fin 8) : Bool := gen k && route k ≠ 0
    let slen := s.opn.sampled.slen.toNat
    let live (k : Fin 8) (p : Nat) : Bool := mode k = 2 || b.gpos.toNat + p < slen
    let ga (p : Nat) : Nat := genA b.gseedA ((b.gseedA.toNat / 2 ^ 16 + b.gpos.toNat + p) % 2 ^ 16)
    let gb (p : Nat) : Nat := genB b.gseedB ((b.gseedB.toNat / 2 ^ 16 + b.gpos.toNat + p) % 2 ^ 16)
    let l (k : Fin 8) (i p : Nat) : Bool :=
      let x := (Cells.get (c k).left i).toNat
      if lt k = 1 then x.testBit p else decide ((if route k = 2 then gb p else ga p) < x)
    let t (k : Fin 8) (j p : Nat) : Bool :=
      let x := (Cells.get (c k).top j).toNat
      if tt k = 1 then x.testBit p else if tt k = 2 then decide (x ≠ 0) else decide ((if route k = 1 then ga p else gb p) < x)
    let agree (k : Fin 8) (i j : Nat) : Nat :=
      (List.range 8).countP fun p => live k p && if mode k = 0 then l k i p && t k j p else l k i p == t k j p
    let sum (k : Fin 8) (i j : Nat) : Nat := (Cells.get (c k).counters (128 * i + j)).toNat + agree k i j
    let aligned (k : Fin 8) : Prop :=
      (route k < 2 → b.gseedA.toNat / 2 ^ 16 % slen = 0) ∧ (2 ≤ route k → b.gseedB.toNat / 2 ^ 16 % slen = 0) ∧
      (route k = 0 → b.gseedA.toNat / 2 ^ 16 = b.gseedB.toNat / 2 ^ 16)
    let refused (k : Fin 8) : Prop := corr k = true ∧ cnt = true ∧ f k / 256 % 4 = 0
    (cnt = true → pre = false → exec (.abeat sh adv cnt pre) s = .next (takeTrap s 0x01 s.slotWord 8)) ∧
    (pre = true → ∀ k : Fin 8, OnlyCore s k → (bad k ≠ 0 →
        exec (.abeat sh adv cnt pre) s = .next (takeTrap s 0x0D (BitVec.ofNat 64 (bad k)) ⟨k.val, by omega⟩)) ∧
      (bad k = 0 → refused k → exec (.abeat sh adv cnt pre) s = .next (takeTrap s 0x0F (b.gpos.setWidth 64) ⟨k.val, by omega⟩))) ∧
    ((cnt = true → pre = true) → (pre = true → ∀ k, s.enabled k = true → bad k = 0 ∧ ¬refused k) →
      ∃ u, exec (.abeat sh adv cnt pre) s = .next u ∧
        u = { s with freeCtr := u.freeCtr, cl := { s.cl with cores := u.cl.cores, bank := { b with
          gpos := if adv then BitVec.ofNat 32 (min (b.gpos.toNat + 8) 0x10000) else b.gpos, cores := u.cl.bank.cores } } } ∧
        ∀ k : Fin 8,
          (s.enabled k = false → u.cl.cores[k.val] = c k ∧ u.cl.bank.cores[k.val] = b.cores[k.val]) ∧
          (s.enabled k = true →
            (∃ v, u.cl.cores[k.val] = { c k with top := (u.cl.cores[k.val]).top, pend := if cnt then [s.timed k 2 (.count v)] else [] } ∧
              (cnt = true → ∀ i j, i < 128 → j < 128 → (Cells.get v (128 * i + j)).toNat = min (sum k i j) 0xFFFFFF)) ∧
            (∀ j, Cells.get (u.cl.cores[k.val]).top j = Cells.get (c k).top (if sh then j + 1 else j)) ∧
            ∃ fl : BitVec 32, u.cl.bank.cores[k.val] = { b.cores[k.val] with
                pend := if fl = 0 then (b.cores[k.val]).pend else Pending.insert (s.timed k 2 (.flags fl)) (b.cores[k.val]).pend } ∧
              ∀ n, fl.getLsbD n = true ↔ pre = true ∧
                ((n = 8 ∧ cnt = true ∧ corr k = true ∧ f k / 256 % 4 = 1) ∨
                 (n = 9 ∧ cnt = true ∧ ∃ i j, i < 128 ∧ j < 128 ∧ 0xFFFFFF < sum k i j) ∨
                 (n = 10 ∧ gen k = true ∧ ∃ p, p < 8 ∧ live k p = false) ∨ (n = 11 ∧ gen k = true ∧ ¬aligned k))))

/-- AFMT waits three bundles in every core; ALATCH loads a latch from a column of the A buffer, a row of the B buffer or with zeros, 2 cycles on, where
no gather into that buffer is outstanding; ADRAIN posts the values of a counter group for eight rows, 4 cycles on, and clear-after removes the counts
read; ACONF compares two counters; ARD and AWR move a quarter of a row, ASCL names its rows and its factor, ACLR clears counters. A row or column out of
range traps (R219 to R222, R228, R230 to R233, R235, R236, R238). No write of the array state is under way. What a drain and a scaling leave when they
are delivered: each lane takes its value, added where the drain adds, clamped to 32 bits with SAT, or the old lane plus the product rounded once; no
other byte of the accumulator store changes, and nothing else of the core (R229, R230, R237). -/
def Obligations.ArraySlotsAndTheirRows : Prop :=
  (
  ∀ s : State, ArrayQuiet s →
    let f (k : Fin 8) : Nat := ((s.cl.bank.cores[k.val]).fmt).toNat
    let c (k : Fin 8) : PhysCore := s.cl.cores[k.val]
    let w : Nat := if partRf s.cl.part = 1 then 128 else 256
    let rows : Nat := partAcc s.cl.part * 128
    let width (x : Nat) : Nat := [4, 8, 16].getD (x % 4) 16
    let image (k : Fin 8) (n x : Nat) : BitVec 16 :=
      if f k % 4 = 0 then BitVec.ofNat 16 (x * 2 ^ (16 - n)) else BitVec.ofInt 16 ((sextNat n x + 2 ^ (n - 1)) * 2 ^ (16 - n))
    let field (m : Mem) (base n e : Nat) : Nat := Mem.read m (base + e * n / 8) 2 / 2 ^ (e * n % 8) % 2 ^ n
    let tm (k : Fin 8) : Nat := if f k % 4 = 2 then s.cl.bank.gpos.toNat else min s.cl.bank.gpos.toNat s.opn.sampled.slen.toNat
    let count (k : Fin 8) (n : Nat) : Nat := (Cells.get (c k).counters n).toNat
    let bound (t : Nat) : Nat := ((List.range 17).map fun j => if t.testBit j then min (2 ^ j) ((3 * j + 27) / 9) else 0).sum
    let core (k : Fin 8) : Fin 9 := ⟨k.val, by omega⟩
    (∀ pol route nb na mode : Fin 4,
      (afmtOk pol route nb na mode = true → exec (.afmt pol route nb na mode) s = .next (s.modBank fun b => { b with
        cores := b.cores.map fun (x : CoreBank) => { x with
          fmt := ((x.pendFmt.filter fun p => p.wait = 0).map PendingFmt.fmt).getLastD x.fmt
          pendFmt := (x.pendFmt.filter fun p => p.wait ≠ 0) ++
            [⟨BitVec.ofNat 10 (pol.val * 256 + route.val * 64 + nb.val * 16 + na.val * 4 + mode.val), 3⟩] } })) ∧
      (afmtOk pol route nb na mode = false → exec (.afmt pol route nb na mode) s = .next (takeTrap s 0x01 s.slotWord 8))) ∧
    (∀ ak : Fin 16,
      let x (k : Fin 8) : Nat := (s.ra k ak).toNat
      let na (k : Fin 8) : Nat := width (f k / 4)
      let nb (k : Fin 8) : Nat := width (f k / 16)
      let endA (k : Fin 8) : Nat := if f k % 4 = 2 then w else 8 * w / na k
      (∃ buf : Fin 8 → Mem, (∀ k, (∀ g ∈ (c k).gathers, g.toB = true) → buf k = (c k).bufA) ∧
        ((∀ k, s.enabled k = true → x k < endA k) → ArrayPosts (.alatchLa ak) s fun k => [(2, .latch false (if f k % 4 = 2 then 1 else 0)
          ((List.range 128).map fun i =>
            if f k % 4 = 2 then (Mem.get (buf k) (i * w + x k)).setWidth 16 else image k (na k) (field (buf k) (i * w) (na k) (x k))))])) ∧
      (∃ buf : Fin 8 → Mem, (∀ k, (∀ g ∈ (c k).gathers, g.toB = false) → buf k = (c k).bufB) ∧
        ((∀ k, s.enabled k = true → x k < 128) → ArrayPosts (.alatchLb ak) s fun k => [(2, .latch true (if f k % 4 = 2 then 1 else 0)
          ((List.range 128).map fun j =>
            if f k % 4 = 2 then (Mem.get (buf k) (x k * 256 + j)).setWidth 16 else image k (nb k) (field (buf k) (x k * 256) (nb k) j)))])) ∧
      ∀ k : Fin 8, OnlyCore s k →
        (endA k ≤ x k → exec (.alatchLa ak) s = .next (takeTrap s 0x0D (s.ra k ak) (core k))) ∧
        (128 ≤ x k → exec (.alatchLb ak) s = .next (takeTrap s 0x0D (s.ra k ak) (core k)))) ∧
    (∀ edge : Fin 4,
      (edge ≠ 0 → ArrayPosts (.alatchLz edge) s fun _ =>
        (if edge.val % 2 = 1 then [(2, .latch false 0 (List.replicate 128 0))] else []) ++
        if 2 ≤ edge.val then [(2, .latch true 0 (List.replicate 128 0))] else []) ∧
      (edge = 0 → exec (.alatchLz edge) s = .next (takeTrap s 0x01 s.slotWord 8))) ∧
    (∀ (ad ak grp : Fin 16) (bip add clr : Bool),
      let value (k : Fin 8) (n : Nat) : Int := if bip then 2 * (count k n : Int) - ((s.ra k ak).toNat % 2 ^ 32 : Nat) * (tm k : Int) else count k n
      let group (n : Nat) : Prop := 1024 * grp.val ≤ n ∧ n < 1024 * grp.val + 1024
      (bip = true ∨ ak = 0 → (∀ k, s.enabled k = true → (s.ra k ad).toNat + 8 ≤ rows) →
        ∃ v : Fin 8 → Cells 24, (∀ k n, Cells.get (v k) n = if group n then 0 else Cells.get (c k).counters n) ∧
          ArrayPosts (.adrain ad ak grp bip add clr) s fun k =>
            (4, .drain (s.ra k ad).toNat ((List.range 1024).map fun n => value k (1024 * grp.val + n)) add) ::
              if clr then [(2, .count (v k))] else []) ∧
      (bip = false → ak ≠ 0 → exec (.adrain ad ak grp bip add clr) s = .next (takeTrap s 0x01 s.slotWord 8)) ∧
      (∀ k : Fin 8, bip = true ∨ ak = 0 → OnlyCore s k → rows < (s.ra k ad).toNat + 8 →
        exec (.adrain ad ak grp bip add clr) s = .next (takeTrap s 0x07 (s.ra k ad) (core k))) ∧
      ∃ v : Fin 8 → Cells 24, (∀ k n, Cells.get (v k) n = if group n then 0 else Cells.get (c k).counters n) ∧
        ArrayPosts (.aclr grp) s fun k => [(2, .count (v k))]) ∧
    ArrayPosts .aclrAll s (fun _ => [(2, .count [])]) ∧
    (∀ (qd : Fin 32) (sa sb sk : Fin 16) (any : Bool),
      let x (r : Fin 16) : Nat := (s.rs ⟨r.val, by omega⟩).toNat
      let cell (v : Nat) : Nat := v / 2 ^ 7 % 128 * 128 + v % 128
      let res (k : Fin 8) : Prop :=
        x sk % 2 ^ 16 * bound (tm k) / 256 < ((count k (cell (x sa)) : Int) - (count k (cell (x sb)) : Int)).natAbs
      ∃ r : Bool, exec (.aconf qd sa sb sk any) s = .next { s.postQ (2 + 7 * s.opn.sampled.skew.toNat) qd r with freeCtr := s.freeCtr + 16 } ∧
        (r = true ↔ (∃ k, s.enabled k = true) ∧
          if any then ∃ k, s.enabled k = true ∧ res k else ∀ k, s.enabled k = true → res k)) ∧
    (∀ (v ar : Fin 16) (q : Fin 4),
      let row (k : Fin 8) : Nat := (s.ra k ar).toNat
      ((∀ k, s.enabled k = true → row k < rows) →
        (∃ (t : State) (x : Fin 8 → VReg), exec (.ard v ar q) s = .next t ∧
          t = { s with freeCtr := t.freeCtr, cl := { s.cl with bank := { s.cl.bank with cores := t.cl.bank.cores } } } ∧
          ∀ k : Fin 8, t.cl.bank.cores[k.val] = (if s.enabled k then { s.cl.bank.cores[k.val] with
            pend := Pending.insert (s.timed k 3 (.v v (x k) (BitVec.allOnes 1024))) (s.cl.bank.cores[k.val]).pend }
            else s.cl.bank.cores[k.val]) ∧
            ∀ l, l < 32 → (x k).toNat / 2 ^ (32 * l) % 2 ^ 32 = Mem.read (c k).acc (512 * row k + 128 * q.val + 4 * l) 4) ∧
        ArrayPosts (.awr v ar q) s fun k => [(1, .rows (512 * row k + 128 * q.val) (leBytes (s.rv k v).toNat 128))]) ∧
      ∀ k : Fin 8, OnlyCore s k → rows ≤ row k → exec (.ard v ar q) s = .next (takeTrap s 0x07 (s.ra k ar) (core k)) ∧
        exec (.awr v ar q) s = .next (takeTrap s 0x07 (s.ra k ar) (core k))) ∧
    ∀ (ad ar ac : Fin 16) (int : Bool),
      ((∀ k, s.enabled k = true → (s.ra k ad).toNat < rows ∧ (s.ra k ar).toNat < rows) → ArrayPosts (.ascl ad ar ac int) s fun k =>
        [(4, .scale (s.ra k ad).toNat (s.ra k ar).toNat ((s.ra k ac).setWidth 16) int)]) ∧
      ∀ k : Fin 8, OnlyCore s k →
        (rows ≤ (s.ra k ad).toNat → exec (.ascl ad ar ac int) s = .next (takeTrap s 0x07 (s.ra k ad) (core k))) ∧
        ((s.ra k ad).toNat < rows → rows ≤ (s.ra k ar).toNat → exec (.ascl ad ar ac int) s = .next (takeTrap s 0x07 (s.ra k ar) (core k)))) ∧
  (
  ∀ x : PhysCore,
    let lane (m : Mem) (n : Nat) : Nat := Mem.read m (4 * n) 4
    (∀ (row : Nat) (vs : List Int) (add : Bool),
      let y := x.write (.drain row vs add)
      let z (i : Nat) (v : Int) : Int := if add then sextNat 32 (lane x.acc (128 * row + i)) + v else v
      y = { x with acc := y.acc, flags := y.flags } ∧
      (∀ i v, vs[i]? = some v → lane y.acc (128 * row + i) = (max (-(2 ^ 31)) (min (z i v) (2 ^ 31 - 1)) % 2 ^ 32).toNat) ∧
      (∀ a, a < 512 * row ∨ 512 * row + 4 * vs.length ≤ a → Mem.get y.acc a = Mem.get x.acc a) ∧
      ∀ n, y.flags.getLsbD n = true ↔ x.flags.getLsbD n = true ∨ (n = 5 ∧ ∃ i v, vs[i]? = some v ∧ ¬(-(2 ^ 31) ≤ z i v ∧ z i v ≤ 2 ^ 31 - 1))) ∧
    ∀ (dst src : Nat) (cf : BitVec 16) (int : Bool),
      let y := x.write (.scale dst src cf int)
      let v (i : Nat) : FVal :=
        let n := lane x.acc (128 * src + i)
        if int then .fin (decide (sextNat 32 n < 0)) (sextNat 32 n).natAbs 0 else fp32.value n
      let r (i : Nat) : Flagged := fusedMA 32 (bf16.value cf.toNat) (v i) (fp32.value (lane x.acc (128 * dst + i)))
      y = { x with acc := y.acc, flags := y.flags } ∧
      (∀ i, i < 128 → lane y.acc (128 * dst + i) = (r i).1 % 2 ^ 32) ∧
      (∀ a, a < 512 * dst ∨ 512 * dst + 512 ≤ a → Mem.get y.acc a = Mem.get x.acc a) ∧
      ∀ n, y.flags.getLsbD n = true ↔ x.flags.getLsbD n = true ∨ ∃ i, i < 128 ∧ (r i).2.getLsbD n = true)

/-- GSEED and GRESTART set the seeds and the position, GREAD reads a generator at position j of the next beat, bit by bit as R204 says. BTERM and
BNEXT select a term, post its coefficient and flags, and start its expansion; ALATCH LBS loads a row of the basis of the term selected, frozen until
that row is expanded (R204 to R206, R213 to R216, R222, R239 to R244). That BTERM's freeze is one cycle for all cores is the model's choice (log 6). A
record that Table 12.4 refuses, a seed of 0 and a missing selection trap. BTERM finds the translation in the core's TLB. -/
def Obligations.GeneratorsAndTerms : Prop :=
  ∀ (s : State) (ad aa ak : Fin 16),
    let b := s.cl.bank
    let r := s.rs s.sole
    let core (k : Fin 8) : Fin 9 := ⟨k.val, by omega⟩
    let table : List (BitVec 16) := [0x8000, 0xC000, 0xA000, 0xF000, 0x8800, 0xCC00, 0xAA00, 0xFF00, 0x8080, 0xC0C0, 0xA0A0, 0xF0F0, 0x8888, 0xCCCC,
      0xAAAA, 0xFFFF]
    exec .gseed s = .next (s.modBank fun b => { b with gseedA := BitVec.ofNat 32 r.toNat, gseedB := BitVec.ofNat 32 (r.toNat / 2 ^ 32) }) ∧
    exec .gseedA s = .next (s.modBank fun b => { b with gseedA := BitVec.ofNat 32 r.toNat }) ∧
    exec .gseedB s = .next (s.modBank fun b => { b with gseedB := BitVec.ofNat 32 (r.toNat / 2 ^ 32) }) ∧
    (let p := r.toNat % 2 ^ 32
     (p % 8 = 0 → p ≤ 0x10000 → exec .grestart s = .next (s.modBank fun b => { b with gpos := BitVec.ofNat 32 p })) ∧
     (p % 8 ≠ 0 ∨ 0x10000 < p → exec .grestart s = .next (takeTrap s 0x0D (BitVec.ofNat 64 p) 8))) ∧
    (∀ j : Fin 8,
      let index (seed : BitVec 32) : Nat := (seed.toNat / 2 ^ 16 + b.gpos.toNat + j.val) % 2 ^ 16
      (∃ x : Word, CoresPost (.gread ad 0 j) s 1 (fun _ => [.a ad x]) ∧ x.toNat < 2 ^ 16 ∧
        ∀ n, n < 16 → x.getLsbD n = ((index b.gseedA).testBit (15 - n) != b.gseedA.getLsbD n)) ∧
      (∃ x : Word, CoresPost (.gread ad 1 j) s 1 (fun _ => [.a ad x]) ∧ x.toNat < 2 ^ 16 ∧
        ∀ n, n < 16 → x.getLsbD n =
          (((List.range 16).countP (fun i => (index b.gseedB).testBit i && (table.getD i 0).getLsbD n) % 2 = 1) != b.gseedB.getLsbD n)) ∧
      (j = 0 → CoresPost (.gread ad 2 j) s 1 (fun _ => [.a ad (b.gpos.setWidth 64)])) ∧
      (j ≠ 0 → exec (.gread ad 2 j) s = .next (takeTrap s 0x01 s.slotWord 8)) ∧
      exec (.gread ad 3 j) s = .next (takeTrap s 0x01 s.slotWord 8)) ∧
    -- the cycle of core k, freezes counted
    (let clock (k : Fin 8) : Nat := s.cl.clock + k.val * s.opn.sampled.skew.toNat
     let coeff (rec : List Byte) (e : Nat) : Flagged :=
       let v := bf16.value (recCoeff rec e)
       if recScale rec = 255 then (0x7FC0, flNV)
       else if v.isNaN then (0x7FC0, if v.isSNaN then flNV else 0)
       else (v.scale ((recScale rec : Int) - 127)).round 16
     let selects (i : Instr) (rec : Fin 8 → List Byte) (e : Fin 8 → Nat) : Prop := ∃ t, exec i s = .next t ∧ t.mem = s.mem ∧
       t.cl = { s.cl with bank := { b with cores := t.cl.bank.cores } } ∧ ∀ k : Fin 8, t.cl.bank.cores[k.val] =
         if s.enabled k then
           let cf := coeff (rec k) (e k)
           { b.cores[k.val] with
             term := some ⟨rec k, e k, clock k + s.opn.freeze + 1⟩,
             pend := (CoreWrite.a ad (BitVec.ofNat 64 cf.1) :: flagWrites cf.2).foldl
               (fun p x => Pending.insert (s.timed k 1 x) p) (b.cores[k.val]).pend }
         else b.cores[k.val]
     let finds (k : Fin 8) (pa : Nat) : Prop :=
       (s.ra k aa).toNat < 2 ^ 56 ∧ (s.ra k aa).toNat % 128 = 0 ∧ (∀ o ∈ b.ops, o.agent ≠ core k) ∧
       ∃ x, heldLeaf s (coreWho s k) (s.ra k aa) = some x ∧ chkLeaf s (coreWho s k) {} x (s.ra k aa) = .ok () ∧ x.cls = 2 ∧
         leafLoc (coreWho s k) x (s.ra k aa) 128 = .ok pa
     let e (k : Fin 8) : Nat := (s.ra k ak).toNat
     s.badWords = [] → s.softWords = [] → (s.dbg s.cl.id.die 0).getLsbD 2 = false → ∀ pa : Fin 8 → Nat,
       (let img (k : Fin 8) : List Byte := s.mem.bytes (pa k) 128
        -- first the cluster freezes for a cycle
        (s.opn.phase = 0 → (∃ k, s.enabled k = true) → (∀ k, s.enabled k = true → finds k (pa k)) → exec (.bterm ad aa ak) s =
          .next (s.modOpn fun o => { o with stalled := true, arriving := true, phase := 1 })) ∧
        (s.opn.phase ≠ 0 ∨ (∀ k, s.enabled k = false) →
          (∀ k, s.enabled k = true → finds k (pa k) ∧ recInvalid (img k) (e k) = none ∧ recSeed (img k) (e k) ≠ 0) →
          selects (.bterm ad aa ak) img e) ∧
        (∀ k : Fin 8, s.opn.phase ≠ 0 → OnlyCore s k → finds k (pa k) →
          (∀ code, recInvalid (img k) (e k) = some code → exec (.bterm ad aa ak) s = .next (takeTrap s 0x0D (BitVec.ofNat 64 code) (core k))) ∧
          (recInvalid (img k) (e k) = none → recSeed (img k) (e k) = 0 → exec (.bterm ad aa ak) s = .next (takeTrap s 0x10 (s.ra k ak) (core k))))) ∧
       (∀ x : Fin 8 → TermSel, (∀ k, s.enabled k = true → (b.cores[k.val]).term = some (x k)) →
         ((∀ k, s.enabled k = true → (x k).term + 1 < recTerms (x k).record ∧ recSeed (x k).record ((x k).term + 1) ≠ 0) →
           selects (.bnext ad) (fun k => (x k).record) (fun k => (x k).term + 1)) ∧
         ((∀ k, s.enabled k = true → (s.ra k ak).toNat < recRows (x k).record) →
           let cols (k : Fin 8) : Nat := recCols (x k).record
           let step (st : BitVec 32) : BitVec 32 := (st >>> 1) ^^^ (if st.getLsbD 0 then 0x80200003 else 0)
           let row (k : Fin 8) : List (BitVec 16) := (List.range 128).map fun j =>
             if j < cols k ∧ (step^[(s.ra k ak).toNat * cols k + j] (BitVec.ofNat 32 (recSeed (x k).record (x k).term))).getLsbD 0 then 1 else 0
           let wait (k : Fin 8) : Nat := (x k).ready + ((s.ra k ak).toNat * cols k + cols k + 1023) / 1024 - clock k
           let freeze : Nat := (((List.finRange 8).filter s.enabled).map wait).foldl max s.opn.freeze
           ∃ t, exec (.alatchLbs ak) s = .next t ∧
             t = { s with cl := { s.cl with opn := s.cl.opn.map (fun o => { o with freeze := freeze }), cores := t.cl.cores } } ∧
             ∀ k : Fin 8, let z := s.cl.cores[k.val]
               t.cl.cores[k.val] = if s.enabled k then { z with pend := Pending.insert (s.timed k 2 (.latch true 2 (row k))) z.pend } else z)) ∧
       ∀ k : Fin 8, OnlyCore s k → (b.cores[k.val]).term = none →
         exec (.bnext ad) s = .next (takeTrap s 0x0D 8 (core k)) ∧ exec (.alatchLbs ak) s = .next (takeTrap s 0x0D 8 (core k)))

/-! ### Relocation, searches and the courier (R114 to R117, R132 to R153, R247 to R249) -/

/-- HSTAT posts the descriptor's STAT with its EPOCH, latency 3. RELOC checks EN, the owner and the engine, and starts it where entries are left; of
the descriptor it writes STAT, and EPOCH as the hardware holds it (R95). HFLIP traps for a count out of range; else, after the writes to pool bytes of
its bundle's slots left of it (log 5), it enters the set's members: the epoch goes on by one, STAT is idle with the members entered and skipped, no
register changes, and memory changes in the two descriptor words and the next buffer alone. RELOC_ENTRY makes the next entry COPYING, a raised one
first; its next step copies the object, with PINS zero, and forwards the entry; a page that is not present parks the engine, another fault stops it
(R114 to R117). -/
def Obligations.HeapsAreRelocated : Prop :=
  ∀ (s : State), s.memOk → (s.dbg s.cl.id.die 0).getLsbD 2 = false → s.badWords = [] → s.softWords = [] →
    (∀ (d b : Fin 32),
      let n : Fin 16 := Fin.ofNat 16 (s.rs b).toNat
      ∃ w : Word, exec (.hstat d b) s = .next (s.postS 3 d w) ∧ bits w 1 0 = bits (heapWord s n 1) 1 0 ∧ bits w 3 2 = bits (heapWord s n 7) 3 2 ∧
        bits w 15 4 = 0 ∧ bits w 63 16 = bits (heapWord s n 7) 63 16) ∧
    (let n : Fin 16 := Fin.ofNat 16 (s.rs s.sole).toNat
     let st := heapStat s n
     (heapEn s n = false → s.slot.map Slot.op = some .reloc → exec .reloc s = .next (takeTrap s 0x05 (BitVec.ofNat 64 n.val) 8)) ∧
     (heapEn s n = true → heapOwner s n ≠ s.asn → s.sup = false → exec .reloc s = .next (takeTrap s 0x03 s.slotWord 8)) ∧
     (heapEn s n = true → heapOwner s n = s.asn ∨ s.sup = true →
       (bits st 3 2 = 1 ∨ bits st 3 2 = 2 → exec .reloc s = .next (takeTrap s 0x12 (BitVec.ofNat 64 n.val) 8)) ∧
       (bits st 3 2 = 0 ∨ bits st 3 2 = 3 → ∃ t, exec .reloc s = .next t ∧ t.cl = s.cl ∧
         (let desc := Config.heapTable + 64 * n.val
          ∀ x, ¬(desc + 8 ≤ x ∧ x < desc + 16) → ¬(desc + 56 ≤ x ∧ x < desc + 64) → t.mem.get x = s.mem.get x) ∧
         heapWord t n 7 = heapStat t n ∧ heapEpoch t n = heapEpoch s n ∧ heapWord t n 1 = BitVec.ofNat 64 (heapEpoch s n) ∧
         bits (heapStat t n) 63 56 = bits st 63 56 ∧ bits (heapStat t n) 55 36 = bits st 55 36 ∧ bits (heapStat t n) 35 16 = bits st 35 16 ∧
         bits (heapStat t n) 3 2 = (if bits st 35 16 = 0 then 0 else 1) ∧
         (bits st 35 16 ≠ 0 → t.relocs[n.val] = { s.relocs[n.val] with
           stat := heapStat t n, running := true, parked := false, die := s.cl.id.die, asn := s.asn, sup := s.sup, cur := none }) ∧
         ∀ j : Fin 16, j ≠ n → t.relocs[j.val] = s.relocs[j.val]))) ∧
    (∀ (s0 : State) (a b : Fin 32), s = commitLate s0 → s.opn.phase = 0 →
      let n : Fin 16 := Fin.ofNat 16 (s.rs b).toNat
      let epoch := (heapEpoch s n + 1) % 4
      let buf := (heapWord s n (2 + epoch % 2)).toNat
      let desc := Config.heapTable + 64 * n.val
      (heapEn s n = false → s.slot.map Slot.op = some (.hflip a b) → exec (.hflip a b) s0 = .next (takeTrap s 0x05 (BitVec.ofNat 64 n.val) 8)) ∧
      (heapEn s n = true → heapOwner s n ≠ s.asn → s.sup = false → exec (.hflip a b) s0 = .next (takeTrap s 0x03 s.slotWord 8)) ∧
      (heapEn s n = true → heapOwner s n = s.asn ∨ s.sup = true → storesDone s = true →
        (bits (heapStat s n) 3 2 = 1 ∨ bits (heapStat s n) 3 2 = 2 → exec (.hflip a b) s0 = .next (takeTrap s 0x12 (BitVec.ofNat 64 n.val) 8)) ∧
        (bits (heapStat s n) 3 2 ≠ 1 → bits (heapStat s n) 3 2 ≠ 2 → ∀ s1 cnt, seqLoadNow s {} (s.rs a) = .ok (s1, cnt) →
          cnt.toNat = 0 ∨ 2 ^ (heapTlog s n - 1) < cnt.toNat → exec (.hflip a b) s0 = .next (takeTrap s 0x0C cnt 8))) ∧
      ∀ s1 ms t, flipCheck s (s.rs a) n = .ok (s1, ms) → flipEnter s1 n ms = .ok t → rangeBusy t n = false → ms.length < 2 ^ 20 → s.cl.bank.ops = [] →
        buf + 16 * 2 ^ heapTlog s n ≤ Config.heapTable →
        exec (.hflip a b) s0 = .next t ∧ t.cl.bank = s.cl.bank ∧ heapEpoch t n = epoch ∧ bits (heapWord t n 1) 1 0 = epoch ∧
        heapWord t n 7 = heapStat t n ∧ bits (heapStat t n) 3 2 = 0 ∧
        bits (heapStat t n) 63 56 = 0 ∧ bits (heapStat t n) 55 36 + bits (heapStat t n) 35 16 = ms.length ∧
        ∀ x, ¬(buf ≤ x ∧ x < buf + 16 * 2 ^ heapTlog s n) → ¬(desc + 8 ≤ x ∧ x < desc + 16) → ¬(desc + 56 ≤ x ∧ x < desc + 64) →
          t.mem.get x = s.mem.get x) ∧
    (∀ (n : Fin 16) (p : Nat), s.ev.a = n.val →
      let r := s.relocs[n.val]
      let st := heapStat s n
      let base := forwardBase s n (heapEpoch s n)
      let desc := Config.heapTable + 64 * n.val
      let w : Who := ⟨8, r.asn, r.sup⟩
      let pend (j : Nat) : Bool := entryState (entryWord s base j 0) = 1
      let old := bits (entryWord s base p 0) 55 6 * 64
      let new := ((r.news.find? fun y => y.1 = p).map Prod.snd).getD 0
      -- the engine acts on its die
      let u := s.focus ⟨r.die, 0⟩
      let copied := copyObject u w old new
      let goes (t : State) : Prop := exec .relocEntry s = .next (t.focus s.cl.id)
      (s.dbg r.die 0).getLsbD 2 = false → r.running = true → r.parked = false → base + 16 * (p + 1) ≤ Config.heapTable →
      (r.cur = none → r.raised.find? pend = some p ∨ r.raised.find? pend = none ∧ p < 2 ^ heapTlog s n ∧ pend p = true ∧ (∀ j, j < p → pend j = false) →
        ∃ t, goes t ∧ t.cl = u.cl ∧ entryState (entryWord t base p 0) = 2 ∧
          bits (entryWord t base p 0) 63 2 = bits (entryWord s base p 0) 63 2 ∧
          t.relocs = s.relocs.set n.val { r with cur := some p, raised := r.raised.filter fun x => x ≠ p } ∧
          ∀ x, x < base + 16 * p ∨ base + 16 * p + 8 ≤ x → t.mem.get x = s.mem.get x) ∧
      (r.cur = none → r.raised.find? pend = none → (∀ j, j < 2 ^ heapTlog s n → pend j = false) →
        ∃ t, goes t ∧ t.cl = u.cl ∧ (t.relocs[n.val]).running = false ∧ bits (heapStat t n) 3 2 = 0 ∧
          bits (heapStat t n) 63 16 = bits st 63 16 ∧ ∀ x, x < desc + 56 ∨ desc + 64 ≤ x → t.mem.get x = s.mem.get x) ∧
      (r.cur = some p →
        (∀ s2, copied = .ok s2 → s2.memOk →
          ∃ t, goes t ∧ t.cl = s2.cl ∧ entryState (entryWord t base p 0) = 3 ∧
            bits (entryWord t base p 0) 63 2 = bits (entryWord s2 base p 0) 63 2 ∧ entryWord t base p 1 = BitVec.ofNat 64 (new / 64 * 64) ∧
            bits (heapStat t n) 35 16 = bits st 35 16 - 1 ∧ bits (heapStat t n) 3 2 = (if bits st 35 16 ≤ 1 then 0 else 1) ∧
            (t.relocs[n.val]).cur = none ∧ (t.relocs[n.val]).running = decide (1 < bits st 35 16) ∧
            ∀ x, ¬(base + 16 * p ≤ x ∧ x < base + 16 * p + 16) → ¬(desc + 56 ≤ x ∧ x < desc + 64) → t.mem.get x = s2.mem.get x) ∧
        ∀ (c : BitVec 8) (v : Word) (g : Fin 9), copied = .error (.trap c v g) →
          ∃ t, goes t ∧ t.cl = u.cl ∧ bits (heapStat t n) 55 16 = bits st 55 16 ∧
            (c = 0x04 → t.relocs[n.val] = { r with stat := heapStat t n, parked := true } ∧ bits (heapStat t n) 3 2 = 2 ∧
              ∃ x : FaultRec, (t.die r.die).fq.held = (s.die r.die).fq.held ++ [x] ∧ x.type = 3 ∧ bits x.w0 55 48 = c.toNat ∧ x.va = v) ∧
            (c ≠ 0x04 → entryState (entryWord t base p 0) = 1 ∧ bits (heapStat t n) 3 2 = 3 ∧ bits (heapStat t n) 63 56 = c.toNat ∧
              (t.relocs[n.val]).running = false ∧ (t.relocs[n.val]).cur = none))) ∧
    ∀ (w : Who) (old new pa pb : Nat),
      let len := s.mem.read pa 4
      0 < len → old % 65536 + 128 * len ≤ 65536 → new % 65536 + 128 * len ≤ 65536 → old < 2 ^ 56 → new < 2 ^ 56 → old % 64 = 0 →
      new % 128 = 0 → pa + 128 * len ≤ Config.memTop → pb + 128 * len ≤ Config.memTop → pa + 128 * len ≤ pb ∨ pb + 128 * len ≤ pa →
      Reaches s w { href := true } (BitVec.ofNat 64 old) 8 (.mem pa) →
      Reaches s w { href := true, write := true } (BitVec.ofNat 64 new) 8 (.mem pb) →
      ∃ s2, copyObject s w old new = .ok s2 ∧ s2.cl = s.cl ∧
        (∀ i, i < 128 * len → s2.mem.get (pb + i) = if 8 ≤ i ∧ i < 12 then 0 else s.mem.get (pa + i)) ∧
        ∀ x, x < pb ∨ pb + 128 * len ≤ x → s2.mem.get x = s.mem.get x

/-- SSRCH reads its parameters, refuses counts and dimensions out of range (0x12) and seed 0 (0x10), and otherwise a search is under way. SEARCH_RUN
reads the target, each byte as it stood when the search was accepted or as it stands now, then scores one candidate seed at a time, keeping the larger
magnitude and the lower seed on ties, then stores the result (R247 to R249). -/
def Obligations.SeedSearches : Prop :=
  ∀ (s : State),
    (∀ pa, MemoryQuiet s →
      let va := s.rs s.sole
      let p (i : Nat) : Word := s.mem.word (pa + 8 * i)
      let rows := (p 1).toNat % 256
      let cols := (p 1).toNat / 256 % 256
      let first := (p 2).toNat % 2 ^ 32
      let count := (p 2).toNat / 2 ^ 32
      va.toNat % 8 = 0 → va.toNat + 24 < 2 ^ 56 →
      (∀ i, i < 4 → Reaches s s.seqWho {} (va + BitVec.ofNat 64 (8 * i)) 8 (.mem (pa + 8 * i))) →
      (rows = 0 ∨ 128 < rows ∨ cols = 0 ∨ 128 < cols ∨ 2 ^ 16 ≤ (p 1).toNat → exec .ssrch s = .next (takeTrap s 0x12 1 8)) ∧
      (1 ≤ rows → rows ≤ 128 → 1 ≤ cols → cols ≤ 128 → (p 1).toNat < 2 ^ 16 →
        (count = 0 ∨ 2 ^ 32 ≤ first + count - 1 → exec .ssrch s = .next (takeTrap s 0x12 2 8)) ∧
        (0 < count → first + count ≤ 2 ^ 32 →
          (first = 0 → exec .ssrch s = .next (takeTrap s 0x10 0 8)) ∧
          (0 < first → kind2Run s s.seqWho (p 0) (rows * cols) = .ok () → kind2Run s s.seqWho (p 3) 8 = .ok () →
            ((p 3).toNat % 8 ≠ 0 → exec .ssrch s = .next (takeTrap s 0x08 (p 3) 8)) ∧
            ((p 3).toNat % 8 = 0 → s.cl.searches.length < 8 → ∃ t olds, exec .ssrch s = .next t ∧ t.mem = s.mem ∧
              t.cl = { s.cl with
                nextOp := s.cl.nextOp + 1,
                searches := s.cl.searches ++
                  [{ id := s.cl.nextOp, bank := s.bankNo, params := [p 0, p 1, p 2, p 3], asn := s.asn, sup := s.sup, olds := olds }] } ∧
              ∀ c k acc off, windowLoc s s.seqWho s.cl.id none (p 0) = .ok (.pool c k acc off) → ((s.clusterAt c).cores[k.val]).pend = [] →
                olds = (((s.clusterAt c).cores[k.val]).share acc).bytes off (rows * cols)))))) ∧
    ∀ (x : Search) (rest : List Search), s.ev.c = s.cl.id → s.cl.searches = x :: rest →
      let w : Who := ⟨8, x.asn, x.sup⟩
      let first := (wordAt x.params 2).toNat % 2 ^ 32
      let count := (wordAt x.params 2).toNat / 2 ^ 32
      let size := (wordAt x.params 1).toNat % 256 * ((wordAt x.params 1).toNat / 256 % 256)
      let step (st : BitVec 32) : BitVec 32 := (st >>> 1) ^^^ (if st.getLsbD 0 then 0x80200003 else 0)
      let goes (y : Search) : Prop := exec .searchRun s = .next { s with cl := { s.cl with searches := y :: rest } }
      (∀ c k acc off, x.tile = none → windowLoc s w s.cl.id none (wordAt x.params 0) = .ok (.pool c k acc off) →
        ((s.clusterAt c).cores[k.val]).pend = [] →
        ∃ tile, exec .searchRun s =
            .next { s with freeCtr := s.freeCtr + size, cl := { s.cl with searches := { x with tile := some tile } :: rest } } ∧
          tile.length = size ∧ ∀ i, i < size →
            tile.getD i 0 = Mem.get (((s.clusterAt c).cores[k.val]).share acc) (off + i) ∨ tile.getD i 0 = x.olds.getD i 0) ∧
      (∀ tile, x.tile = some tile → x.next < count →
        let seed := first + x.next
        let term (i : Nat) : Int := sextNat 8 (tile.getD i 0).toNat
        let score : Int := ((List.range tile.length).map fun i =>
          if (step^[i] (BitVec.ofNat 32 seed)).getLsbD 0 then term i else -(term i)).sum
        (x.best = none → goes { x with next := x.next + 1, best := some (BitVec.ofNat 32 seed, score) }) ∧
        ∀ b y, x.best = some (b, y) →
          (y.natAbs < score.natAbs → goes { x with next := x.next + 1, best := some (BitVec.ofNat 32 seed, score) }) ∧
          (score.natAbs ≤ y.natAbs → goes { x with next := x.next + 1 })) ∧
      ∀ tile b y l, x.tile = some tile → count ≤ x.next → x.best = some (b, y) → windowLoc s w s.cl.id none (wordAt x.params 3) = .ok l →
        exec .searchRun s = .next ({ s with cl := { s.cl with searches := rest } }.writeLoc l (b.toNat + 2 ^ 32 * (y % (2 ^ 32 : Nat)).toNat) 8)

/-- The barrier slots act on the word that the locator names: BARINIT arms it and starts a round, BARADD adds to CNT, both as their bundle commits;
BARTEST posts whether it is complete, BARWAIT holds until it is; a set ERR traps in both, with the oldest command that set it. A bad locator traps
with 0x07 (R138, R142 to R145, R299). BARTEST and BARWAIT find no operation of the sequencer outstanding. -/
def Obligations.BarrierSlots : Prop :=
  (
  ∀ (s : State) (a b : Fin 32) (scope : Fin 8) (z : Bool),
    let loc (x : Word) : Nat := x.toNat % 2 ^ 32
    let bar (x : Word) : Option Loc := barrierLoc s s.asn s.sup (loc x)
    let puts (i : Instr) (l : Loc) (act : LateAct) : Prop :=
      exec i s = .next (s.modOpn fun o => { o with late := o.late ++ [⟨s.cl.nextOp, 8, l, act, s.opn.fence, s.slotSource⟩] })
    (∀ (n : Nat) (core : Fin 8) (word : Nat), n = core.val * 2 ^ 19 + word → word < 2 ^ 19 →
      (8 * word < shareSize s.cl.part false → barrierLoc s s.asn s.sup n = some (.pool s.cl.id core false (8 * word))) ∧
      (shareSize s.cl.part false ≤ 8 * word → barrierLoc s s.asn s.sup n = none) ∧
      (∀ c : ClusterId, let m := 2 ^ 31 + c.die.val * 2 ^ 25 + c.cluster.val * 2 ^ 22 + n
        barrierLoc s s.asn s.sup m =
          if 8 * word < shareSize (s.clusterAt c).part false ∧ (s.sup = true ∨ (s.clusterAt c).asn = s.asn) then some (.pool c core false (8 * word))
          else none) ∧
      ∀ m, 2 ^ 22 ≤ m → m < 2 ^ 31 → barrierLoc s s.asn s.sup m = none) ∧
    (5 ≤ scope.val → exec (.barinit a b scope z) s = .next (takeTrap s 0x01 s.slotWord 8)) ∧
    (bar (s.rs a) = none → ∀ i : Instr, (i = .barinit a b scope z ∧ scope.val < 5) ∨ i = .baradd a b ∨ i = .bartest a b →
      exec i s = .next (takeTrap s 0x07 (BitVec.ofNat 64 (loc (s.rs a))) 8)) ∧
    (bar (s.rs s.sole) = none → exec .barwait s = .next (takeTrap s 0x07 (BitVec.ofNat 64 (loc (s.rs s.sole))) 8)) ∧
    (∀ l, bar (s.rs a) = some l →
      (scope.val < 5 →
        (2 ^ 56 ≤ (s.rs b).toNat → exec (.barinit a b scope z) s = .next (takeTrap s 0x12 (s.rs b) 8)) ∧
        ((s.rs b).toNat < 2 ^ 56 → puts (.barinit a b scope z) l (.barinit (s.rs b).toNat scope z))) ∧
      puts (.baradd a b) l (.baradd (s.rs b).toInt)) ∧
    ((∀ o ∈ s.cl.bank.ops, o.agent ≠ 8) → ∀ l,
      let w : Word := BitVec.ofNat 64 ((ownView s 8).readLoc l 8)
      let known := s.cl.cmds.filter fun x => x.bank = s.bankNo && decide (s.cl.accepted ≤ x.seq + 256)
      (bar (s.rs a) = some l → w.getLsbD 62 = false → exec (.bartest a b) s = .next (s.postQ 0 b (w.getLsbD 63 && bits w 55 0 = 0))) ∧
      (bar (s.rs s.sole) = some l → w.getLsbD 62 = false → w.getLsbD 63 = true → bits w 55 0 = 0 → exec .barwait s = .next s) ∧
      (bar (s.rs s.sole) = some l → w.getLsbD 62 = false → w.getLsbD 63 = false ∨ bits w 55 0 ≠ 0 → exec .barwait s = .next s.stall) ∧
      ∀ i : Instr, (i = .barwait ∧ bar (s.rs s.sole) = some l) ∨ (i = .bartest a b ∧ bar (s.rs a) = some l) → w.getLsbD 62 = true →
        let traps (t : State) (x : Option Command) : Prop := exec i s =
          .next (takeTrap t (if x.map Command.cause = some 0x16 then 0x16 else 0x12) (BitVec.ofNat 64 ((x.map Command.id).getD 0)) 8 0)
        ((∀ p ∈ s.cl.barTold, p.1 = s.bankNo → p.2.1 ≠ l) →
          let x := known.find? fun x => x.onBar = some l
          traps (s.modCl fun c => { c with barTold := c.barTold ++ [(s.bankNo, l, (x.map Command.id).getD 0)] }) x) ∧
        ∀ p, (s.cl.barTold.find? fun p => p.1 = s.bankNo && p.2.1 = l) = some p → traps s (known.find? fun x => x.id = p.2.2 && x.onBar = some l))) ∧
  ∀ (s : State) (o : OpenBundle) (x : LateWrite) (l : Loc), s.cl.opn = some o → o.late = [x] → x.loc = l → s.cl.bank.ops = [] →
    let w : Word := BitVec.ofNat 64 (s.readLoc l 8)
    let leaves (v : Word) : Prop := commitLate s = (s.writeLoc l v.toNat 8).modOpn fun o => { o with late := [] }
    (∀ (y : Nat) (scope : Fin 8) (z : Bool), x.act = .barinit y scope z →
      let fresh : Bool := z || (w.getLsbD 63 && bits w 55 0 = 0)
      ∃ v : Word, v.getLsbD 63 = true ∧ v.getLsbD 62 = (!fresh && w.getLsbD 62) ∧ v.getLsbD 61 = (fresh != w.getLsbD 61) ∧
        bits v 60 58 = scope.val ∧ bits v 57 56 = bits w 57 56 ∧ bits v 55 0 = ((if z then 0 else bits w 55 0) + y) % 2 ^ 56 ∧ leaves v) ∧
    ∀ n : Int, x.act = .baradd n →
      ∃ v : Word, bits v 63 56 = bits w 63 56 ∧ ((bits v 55 0 : Int) - (bits w 55 0 : Int) - n) % 2 ^ 56 = 0 ∧ leaves v

/-- CPY and SENDH of a valid block of main memory accept a command with the block's image, the next id, and post the id; an invalid block traps with
0x12 and its code of Table 07.4, of several the lowest (the model's choice, log 36). EQUI waits for the bank's commands, ESTAT reports a command or
the bank, ECAN cancels queued and parked ones (R135, R138, R147, R151 to R153). The courier's own steps, of the command that the step names: a queued
command starts in its turn; a running one lands its next element, converted, at the addresses of the strides, and counts it on its barrier, parks at a
page that is not present and is in error at another fault; when every element has landed it is done, and a SENDH's arrival is posted; an arrival slot
is reserved, and the oldest arrival for the cluster's context starts the lowest dormant bank (R133, R136 to R138, R140, R144, R148, R150). ERRID of
the summary, and that elements land in iteration order, are the model's own (log 21), and so are the choice of the lowest dormant bank and that a
cancelled SENDH frees its arrival slot (log 36). -/
def Obligations.CourierCommands : Prop :=
  (
  ∀ (s : State) (d a : Fin 32), s.memOk →
    let mine (x : Command) : Bool := x.bank = s.bankNo
    let knows (x : Command) : Bool := mine x && decide (s.cl.accepted ≤ x.seq + 256)
    -- no two have one number in the order of acceptance, and no two that the courier knows have one id
    let numbered : Prop := (s.cl.cmds.map Command.seq).Nodup ∧ ((s.cl.cmds.filter knows).map Command.id).Nodup
    (∀ (pa : Nat) (tgt : Fin 16) (g : Fin 9) (i : Instr) (send : Bool), MemoryQuiet s →
      (i = .cpy d a tgt ∧ tgt.val = g.val ∧ send = false) ∨ (i = .sendh d a ∧ g = 8 ∧ send = true) →
      let blk := s.rs a
      let ws := s.mem.words pa 16
      (blk.toNat < 2 ^ 56 → blk.toNat % 128 ≠ 0 → exec i s = .next (takeTrap s 0x08 blk 8)) ∧
      (blk.toNat % 128 = 0 → blk.toNat < 2 ^ 56 →
        (∀ j, j < 16 → Reaches s s.seqWho {} (blk + BitVec.ofNat 64 (8 * j)) 8 (.mem (pa + 8 * j))) →
        (∀ code, cmdInvalid ws send g = some code → exec i s = .next (takeTrap s 0x12 (BitVec.ofNat 64 code) 8)) ∧
        (cmdInvalid ws send g = none →
          (cmdBaren ws = true → barrierLoc s s.asn s.sup (cmdBar ws) = none →
            exec i s = .next (takeTrap s 0x07 (BitVec.ofNat 64 (cmdBar ws)) 8)) ∧
          ((cmdBaren ws = true → barrierLoc s s.asn s.sup (cmdBar ws) ≠ none) →
            (s.cl.cmds.filter Command.counts).length < 64 → outstanding s.cl s.bankNo s.cl.bank g .copy < 32 →
            (∀ x ∈ s.cl.cmds, x.counts = true ∨ s.cl.accepted < x.seq + 256) →
            ∃ t, exec i s = .next t ∧ t.mem = s.mem ∧ t.cl = { s.cl with
              bank := (s.postS 1 d (BitVec.ofNat 64 s.cl.nextCmd)).cl.bank,
              cmds := s.cl.cmds ++ [{ id := s.cl.nextCmd, bank := s.bankNo, send := send, tgt := g, block := ws, asn := s.asn, sup := s.sup,
                                      order := s.cl.nextOp, seq := s.cl.accepted,
                                      born := if h : g.val < 8 then s.coreTime ⟨g.val, h⟩ else s.cl.time }],
              nextOp := s.cl.nextOp + 1, nextCmd := if s.cl.nextCmd = 0xFFFF then 1 else s.cl.nextCmd + 1, accepted := s.cl.accepted + 1,
              lastCmd := (s.bankNo, s.cl.nextCmd) :: s.cl.lastCmd.filter fun p => p.1 ≠ s.bankNo })))) ∧
    (∀ tgt : Fin 16, 9 ≤ tgt.val → exec (.cpy d a tgt) s = .next (takeTrap s 0x01 s.slotWord 8)) ∧
    (let n (st : CmdState) : Nat := (s.cl.cmds.filter fun x => mine x && x.state = st).length
     (s.opn.abandon = false → 0 < n .queued + n .running → exec .equi s = .next s.stall) ∧
     (s.opn.abandon = true ∨ n .queued + n .running = 0 → (tswMcp s.cl.bank.tsw = false → s.cl.bank.courierErrs = [] →
         exec .equi s = .next (s.postS 1 s.sole (BitVec.ofNat 64 (n .parked)))) ∧
       (tswMcp s.cl.bank.tsw = true →
         exec .equi s = .next (takeTrap (s.modBank fun b => { b with tsw := b.tsw &&& ~~~0x800 }) 0x16 s.cl.bank.mcAddr 8)) ∧
       ∀ id cause rest, tswMcp s.cl.bank.tsw = false → s.cl.bank.courierErrs = (id, cause) :: rest →
         exec .equi s = .next (takeTrap (s.modBank fun b => { b with courierErrs := rest }) (if cause = 0x16 then 0x16 else 0x12) (BitVec.ofNat 64 id) 8 0)) ∧
     ∃ w, exec (.estat d a) s = .next (s.postS 3 d w) ∧
       let x := s.rs a
       let id := x.toNat % 2 ^ 16
       let known (c : Command) : Prop := ∃ pre post, s.cl.cmds = pre ++ c :: post ∧ knows c = true ∧ c.id = id ∧ ∀ y ∈ post, knows y = true → y.id ≠ id
       let open_ (c : Command) : Bool := knows c &&
         ((c.onBar.isSome && !(s.cl.barTold.any fun p => p.1 = s.bankNo && c.onBar = some p.2.1 && p.2.2 = c.id)) || s.cl.bank.courierErrs.any fun p => p.1 = c.id)
       ((∀ c ∈ s.cl.cmds, knows c = true → c.id ≠ id) → x.getLsbD 63 = true ∨ id ≠ 0 → w = 0) ∧
       (∀ c, known c → x.getLsbD 63 = true → w = c.va) ∧
       (∀ c, known c → x.getLsbD 63 = false → id ≠ 0 → c.slot < 16 →
         bits w 63 56 = (if c.state = .error then c.cause.toNat else 0) ∧
         bits w 55 52 = (match c.state with | .queued => 1 | .running => 2 | .parked => 3 | .done => 4 | .error => 5 | .cancelled => 6) ∧
         bits w 51 48 = (if c.state = .parked then c.slot else 0) ∧ bits w 47 40 = 0 ∧
         bits w 39 0 = min ((cmdTotal c.block - c.next) * cmdDsz c.block) (2 ^ 40 - 1)) ∧
       (x.getLsbD 63 = false → id = 0 → n .queued < 256 → n .running < 256 → n .parked < 256 → s.cl.nextCmd ≤ 0xFFFF →
         (∀ c ∈ s.cl.cmds, c.id ≤ 0xFFFF) → (∀ p ∈ s.cl.lastCmd, p.2 ≤ 0xFFFF) →
         bits w 55 48 = n .queued ∧ bits w 47 40 = n .running ∧ bits w 39 32 = n .parked ∧
         bits w 31 16 = ((s.cl.cmds.find? open_).map Command.id).getD 0 ∧
         ∀ m, s.cl.lastCmd.find? (fun p => p.1 = s.bankNo) = some (s.bankNo, m) → bits w 15 0 = m)) ∧
    (numbered → (∀ c ∈ s.cl.cmds, c.barrier s = none ∧ (c.send && c.reserved) = false) →
      let open_ (c : Command) : Bool := mine c && (c.state = .queued || c.state = .parked)
      let gone (p : Command → Bool) : List Command := s.cl.cmds.map fun c =>
        if open_ c && p c then { c with state := .cancelled, slot := 0, reserved := false, news := true, stalled := false } else c
      let named (c : Command) : Bool := knows c && c.id = (s.rs a).toNat % 2 ^ 16
      exec (.ecan d a) s = .next (({ s with cl := { s.cl with cmds := gone named } }).postS 3 d
        (if s.cl.cmds.any (fun c => open_ c && named c) then 1 else 0)) ∧
      exec .ecanAll s = .next (({ s with cl := { s.cl with cmds := gone (fun _ => true) } }).postS 3 s.sole
        (BitVec.ofNat 64 (s.cl.cmds.filter open_).length))) ∧
    ∀ (c : Command) (l : Loc), c ∈ s.cl.cmds → knows c = true → c.state = .queued ∨ c.state = .parked → numbered → c.id = (s.rs a).toNat % 2 ^ 16 →
      -- a SENDH that holds an arrival slot gives it up
      (let dst := (cmdDst c.block).toNat
       let target : ClusterId := ⟨Fin.ofNat 64 (dst / 2 ^ 46), Fin.ofNat 8 (dst / 2 ^ 43)⟩
       c.send = true → c.reserved = true → ∃ t : State, exec (.ecan d a) s = .next (t.postS 3 d 1) ∧ t.mem = s.mem ∧
         (t.clusterAt target).arrSlots = (s.clusterAt target).arrSlots - 1 ∧ t.cl.cmds = s.cl.cmds.map fun (x : Command) =>
           if x.seq = c.seq then { c with state := .cancelled, slot := 0, reserved := false, news := true, stalled := false,
                                          onBar := (c.barrier s).orElse fun _ => c.onBar } else x) ∧
      (c.barrier s = some l → (c.send && c.reserved) = false → ∃ t : State, exec (.ecan d a) s = .next (t.postS 3 d 1) ∧ t.mem = s.mem ∧
        t = ({ s with cl := { s.cl with cmds := s.cl.cmds.map fun (x : Command) =>
            if x.seq = c.seq then { c with state := .cancelled, slot := 0, reserved := false, news := true, stalled := false, onBar := some l }
            else x } }).writeLoc l (BitVec.ofNat 64 (s.readLoc l 8) ||| 0x4000000000000000).toNat 8)) ∧
  (
  ∀ (s : State) (x : Command) (pre post : List Command), s.ev.c = s.cl.id → s.ev.a = x.seq → s.cl.cmds = pre ++ x :: post → (s.cl.cmds.map Command.seq).Nodup →
    let put (u : State) (y : Command) : State := { u with cl := { u.cl with cmds := pre ++ y :: post } }
    let total := ((List.range (cmdNdim x.block)).map (cmdCount x.block)).prod
    (x.state = .queued → (∀ y ∈ pre, y.state ≠ .queued) → s.cl.opn = none ∨ x.order < s.opn.first → s.cl.mayRun x.seq = true → ownWrites s x = false →
      (cmdAcq x.block = true → ∀ o ∈ (s.bankAt x.bank).ops, x.after.contains o.id = true → o.live = false) →
      exec .commandStart s = .next (put s { x with state := .running })) ∧
    (x.state ≠ .queued → exec .commandStart s = .next s) ∧
    (x.state = .running → s.cl.mayRun x.seq = true → x.next < total → x.send = false ∨ x.reserved = true →
      let n := cmdSsz x.block
      let m := cmdDsz x.block
      let as := cmdAddrs x.block x.next
      (∀ c va g, cmdLocate s x {} as.1 n = .error (.trap c va g) → exec .courierElement s = .next (cmdFault s x (.trap c va g))) ∧
      ∀ s1 src s2 dst, cmdLocate s x {} as.1 n = .ok (s1, src) → cmdLocate s1 x { write := true } as.2 m = .ok (s2, dst) →
        s2.cl.cmds = s.cl.cmds → s2.badWords = [] → s2.softWords = [] → s2.anyErrs = false → (s2.dbg s2.cl.id.die 0).getLsbD 2 = false →
        let v := s2.readLoc src n
        let r : Nat :=
          if n = m then v
          else if n < m then (if cmdConv x.block = 1 then (sextNat (8 * n) v % (2 ^ (8 * m) : Nat)).toNat else v)
          else if cmdConv x.block = 1 then
            (max (-(2 ^ (8 * m - 1) : Nat) : Int) (min (sextNat (8 * n) v) ((2 ^ (8 * m - 1) : Nat) - 1)) % (2 ^ (8 * m) : Nat)).toNat
          else min v (2 ^ (8 * m) - 1)
        ∃ u : State, u.mem = s2.mem ∧ u.cl = s2.cl ∧ u.others = s2.others ∧
          let z := put (u.writeLoc dst r m) { x with
            next := x.next + 1, stalled := false, landed := if cmdCrcen x.block then landBytes as.2.toNat r m x.landed else x.landed }
          exec .courierElement s = .next (match x.barrier z with
            | some l => if x.next + 1 < total then barrierCount z l (-(m : Nat)) else z
            | none => z)) ∧
    (∀ c va g,
      (c = (0x04 : BitVec 8) → ∀ k, k < 16 → (∀ j, j < k → ∃ y ∈ s.cl.cmds, y.state = .parked ∧ y.slot = j) →
        (∀ y ∈ s.cl.cmds, y.state = .parked → y.slot ≠ k) → ∃ r : FaultRec, r.type = 2 ∧ r.va = va ∧ r.subject = .command s.cl.id x.seq ∧
          cmdFault s x (.trap c va g) =
            (put s { x with state := .parked, slot := k, va := va, news := true, stalled := false }).raise s.cl.id.die r) ∧
      (c = 0x04 → (∀ k, k < 16 → ∃ y ∈ s.cl.cmds, y.state = .parked ∧ y.slot = k) → cmdFault s x (.trap c va g) = put s { x with stalled := true }) ∧
      (c ≠ 0x04 → cmdBaren x.block = false →
        let u := cmdFault s x (.trap c va g)
        u.cl.cmds = pre ++ { x with state := .error, cause := c, va := va, slot := 0, reserved := false, news := true, stalled := false } :: post ∧
        (u.bankAt x.bank).courierErrs = (s.bankAt x.bank).courierErrs ++ [(x.id, c)] ∧ u.mem = s.mem)) ∧
    (x.state = .running → s.cl.mayRun x.seq = true → total ≤ x.next → x.send = false ∨ x.reserved = true →
      (cmdCrcen x.block = false → cmdCrcStore s x = .ok s) ∧
      (∀ c va g, cmdCrcStore s x = .error (.trap c va g) → exec .commandComplete s = .next (cmdFault s x (.trap c va g))) ∧
      ∀ s1, cmdCrcStore s x = .ok s1 → s1.cl.cmds = s.cl.cmds →
        let z := put s1 { x with state := .done, stalled := false }
        let z1 := match x.barrier z with
          | some l => if 0 < total then barrierCount z l (-(cmdDsz x.block : Nat)) else z
          | none => z
        (x.send = false → exec .commandComplete s = .next z1) ∧
        (x.send = true →
          let dst := (cmdDst x.block).toNat
          let target : ClusterId := ⟨Fin.ofNat 64 (dst / 2 ^ 46), Fin.ofNat 8 (dst / 2 ^ 43)⟩
          ∃ t, exec .commandComplete s = .next t ∧ t.mem = s1.mem ∧ ∃ y : Arrival,
            (t.clusterAt target).arrivals = (s1.clusterAt target).arrivals ++ [y] ∧ y.pc = cmdAux x.block ∧ y.s1 = cmdDst x.block ∧
            y.s2 = BitVec.ofNat 64 (total * cmdDsz x.block) ∧ bits y.s3 31 16 = x.asn.toNat ∧ bits y.s3 15 10 = s.cl.id.die.val ∧
            bits y.s3 9 7 = s.cl.id.cluster.val ∧ bits y.s3 6 4 = x.bank.val ∧ bits y.s3 63 32 = 0 ∧ bits y.s3 3 0 = 0 ∧
            y.ctx = (s.clusterAt target).asn)) ∧
    (x.state = .running → s.cl.mayRun x.seq = true → x.send = true → x.reserved = false →
      let dst := (cmdDst x.block).toNat
      let target : ClusterId := ⟨Fin.ofNat 64 (dst / 2 ^ 46), Fin.ofNat 8 (dst / 2 ^ 43)⟩
      ((s.clusterAt target).arrSlots < 16 → (s.clusterAt target).away x.asn = false → ∃ t, exec .arrivalReserve s = .next t ∧
        t.cl.cmds = pre ++ { x with reserved := true } :: post ∧ (t.clusterAt target).arrSlots = (s.clusterAt target).arrSlots + 1) ∧
      (16 ≤ (s.clusterAt target).arrSlots ∨ (s.clusterAt target).away x.asn = true → exec .arrivalReserve s = .next s)) ∧
    ∀ (before : List Arrival) (y : Arrival) (rest : List Arrival) (i : Fin 8), s.cl.arrivals = before ++ y :: rest →
      (∀ w ∈ before, w.ctx ≠ s.cl.asn) → y.ctx = s.cl.asn → (s.bankAt i).state = .dormant →
      (∀ j : Fin 8, j.val < i.val → (s.bankAt j).state ≠ .dormant) → s.cl.run ≠ none →
      ∃ t, exec .handlerStart s = .next t ∧ t.mem = s.mem ∧ t.cl.arrivals = before ++ rest ∧ t.cl.arrSlots = s.cl.arrSlots - 1 ∧
        (t.bankAt i).state = .ready ∧ (t.bankAt i).pc = y.pc ∧ (t.bankAt i).residual = none ∧ (t.bankAt i).file.s[1] = y.s1 ∧
        (t.bankAt i).file.s[2] = y.s2 ∧ (t.bankAt i).file.s[3] = y.s3 ∧
        (∀ r : Fin 32, 4 ≤ r.val → (t.bankAt i).file.s[r.val] = (s.bankAt i).file.s[r.val]) ∧
        ∀ j : Fin 8, j ≠ i → t.bankAt j = s.bankAt j)

/-! ### Tasks and launches (R253 to R293) -/

/-- SPAWN of a valid record in main memory writes its PARENT, LREC, COUNT and WAIT, adds 1 to the own record's COUNT and enqueues it, once the bank's
stores are performed and the queue has room. LAUNCH of a valid header, once the stores are performed and fewer than 64 launches are in flight, adds 1
to COUNT at CTARGET for CKIND 2 and puts a launch in flight. Both trap for a window address, a misaligned one, an invalid image and a full COUNT.
SUSPEND, JOIN, EXIT and YIELD leave what they do to the end of their bundle (R269 to R275). The model's choices: how the child and the own record are
reached (log 23), the room in a queue (log 3), and that the bundle's own writes to pool bytes come before SPAWN and LAUNCH (log 5). -/
def Obligations.TaskSlots : Prop :=
  ∀ (s0 : State), let s := commitLate s0
    s.memOk →
    let r := s.rs s.sole
    let b := s.cl.bank
    let d := s.cl.id.die
    let unseen : Prop := s.badWords = [] ∧ s.softWords = [] ∧ (s.dbg d 0).getLsbD 2 = false
    (isWindow r = true → r.toNat < 2 ^ 57 → exec .spawn s0 = .next (takeTrap s 0x07 r 8) ∧ exec .launch s0 = .next (takeTrap s 0x07 r 8)) ∧
    (r.toNat < 2 ^ 56 → (r.toNat % 64 ≠ 0 → exec .spawn s0 = .next (takeTrap s 0x08 r 8)) ∧
      (r.toNat % 128 ≠ 0 → exec .launch s0 = .next (takeTrap s 0x08 r 8))) ∧
    (∀ pa, unseen → r.toNat < 2 ^ 56 → r.toNat % 64 = 0 → Reaches s s.seqWho { write := true } r 64 (.mem pa) →
      let ws := s.mem.words pa 8
      let h := s.header d b.lrec s.asn
      (storesDone s = false → s.opn.abandon = false → exec .spawn s0 = .next s.stall) ∧
      ((∀ o ∈ b.ops, o.agent ≠ 8) → storesDone s = true → recKind ws ≠ 0 ∨ recZeros ws = true → exec .spawn s0 = .next (takeTrap s 0x12 0x26 8)) ∧
      ∀ s1 own, (∀ o ∈ b.ops, o.agent ≠ 8) → storesDone s = true → recKind ws = 0 → recZeros ws = false → engineCount s s.asn b.trec = .ok (s1, own) →
        own + 64 ≤ pa ∨ pa + 64 ≤ own →
        let n := s.mem.read (own + 16) 4
        (Config.queueRoom ≤ ((s.die d).queue (queueOf h (wordAt ws 6))).size → s.opn.abandon = false → exec .spawn s0 = .next s.stall) ∧
        (((s.die d).queue (queueOf h (wordAt ws 6))).size < Config.queueRoom →
          (n = 0xFFFFFFFF → exec .spawn s0 = .next (takeTrap s 0x12 0x29 8)) ∧
          (n < 0xFFFFFFFF → ∃ t : State, exec .spawn s0 = .next t ∧ t.cl = s.cl ∧ t.others = s.others ∧
            (∀ j, j < 8 → t.mem.word (pa + 8 * j) =
              if j = 2 then BitVec.ofNat 64 (bits (wordAt ws 2) 34 33 * 2 ^ 33) else if j = 4 then b.lrec else if j = 5 then b.trec else wordAt ws j) ∧
            t.mem.read (own + 16) 4 = n + 1 ∧
            (∀ x, x < pa ∨ pa + 64 ≤ x → x < own + 16 ∨ own + 20 ≤ x → t.mem.get x = s.mem.get x) ∧
            Queued s t d h r b.lrec (wordAt ws 6) (Fin.ofNat 4 (bits (wordAt ws 2) 34 33))))) ∧
    (∀ pa, MemoryQuiet s → r.toNat < 2 ^ 56 → r.toNat % 128 = 0 →
      (∀ j, j < 16 → Reaches s s.seqWho {} (r + BitVec.ofNat 64 (8 * j)) 8 (.mem (pa + 8 * j))) →
      let h := s.mem.words pa 16
      (∀ code, hdrInvalid h s.sup true = some code → exec .launch s0 = .next (takeTrap s 0x12 (code.setWidth 64) 8)) ∧
      (hdrInvalid h s.sup true = none →
        (hdrAsn h ≠ s.asn → s.sup = false → exec .launch s0 = .next (takeTrap s 0x03 s.slotWord 8)) ∧
        (hdrAsn h = s.asn ∨ s.sup = true →
          let goes (m : State → Prop) : Prop := ∃ t : State, exec .launch s0 = .next t ∧ m t ∧ t.cl = s.cl ∧ t.others = s.others ∧
            (∀ d', t.die d' = { s.die d' with blocks := (t.die d').blocks }) ∧ t.nextLaunch = s.nextLaunch + 1 ∧
            t.launches = s.launches ++ [{ num := s.nextLaunch, hdr := r, asn := s.asn, collect := d, sup := s.sup, image := h }]
          (s.opn.abandon = false → 64 ≤ s.launches.length → exec .launch s0 = .next s.stall) ∧
          (s.launches.length < 64 → hdrCkind h ≠ 2 → goes fun t => t.mem = s.mem) ∧
          ∀ pc, s.launches.length < 64 → hdrCkind h = 2 → Reaches s s.seqWho { write := true } (hdrCtarget h) 64 (.mem pc) →
            let n := s.mem.read (pc + 16) 4
            (n = 0xFFFFFFFF → exec .launch s0 = .next (takeTrap s 0x12 0x29 8)) ∧
            (n < 0xFFFFFFFF → goes fun t => t.mem.read (pc + 16) 4 = n + 1 ∧ ∀ x, x < pc + 16 ∨ pc + 20 ≤ x → t.mem.get x = s.mem.get x)))) ∧
    ∀ o, s0.cl.opn = some o →
      let b := s0.cl.bank
      let e (a : EndAct) : State := s0.modOpn fun o => { o with endAct := some a }
      let clear := s0.modBank fun b => { b with tsw := b.tsw &&& ~~~(0x800 : Word) }
      exec .yield s0 = .next (e .yield) ∧
      (tswMcp b.tsw = false → exec .join s0 = .next (e (.join o.idx)) ∧ exec .exit s0 = .next (e (.exit o.idx)) ∧
        (b.courierErrs = [] → exec .suspend s0 = .next (e (.suspend o.idx)) ∧ exec .suspendDorm s0 = .next (e .suspendDorm)) ∧
        ∀ id cause rest, b.courierErrs = (id, cause) :: rest → ∀ i : Instr, i = .suspend ∨ i = .suspendDorm →
          exec i s0 = .next (takeTrap (s0.modBank fun b => { b with courierErrs := rest }) (if cause = 0x16 then 0x16 else 0x12) (BitVec.ofNat 64 id) 8 0)) ∧
      (tswMcp b.tsw = true → ∀ i : Instr, i = .join ∨ i = .exit ∨ i = .suspend ∨ i = .suspendDorm →
        exec i s0 = .next (takeTrap clear 0x16 b.mcAddr 8))

/-- At the end of its bundle YIELD makes the bank ready when another is ready, and has no effect else; the bank that a switch point selects goes before
every other ready one. SUSPEND.dorm leaves the bank dormant with its registers. JOIN goes on where COUNT is 0; where it is not, the task is saved and
its record waits, as it is for EXIT, at the EXIT slot; SUSPEND saves and enqueues. A save that fails leaves the task where it resumes, with TCAUSE and
TVAL. EXIT at COUNT 0 frees the bank and counts the exit (R265, R271 to R274). A single step of such a bundle is taken before the bank's next one
(R314). How a task finds its launch is the model's choice (log 23). -/
def Obligations.EndsOfTurns : Prop :=
  (∀ (c : Cluster) (j : Fin 8), c.select = some j → (c.banks[j.val]).state = .ready ∧ ∀ i : Fin 8, (c.banks[i.val]).state = .ready →
    let x := c.banks[i.val]
    let y := c.banks[j.val]
    (x.byArrival = true → y.byArrival = true ∧ y.readySince ≤ x.readySince) ∧
    (y.byArrival = false → x.prio ≤ y.prio ∧ (x.prio = y.prio → y.readySince ≤ x.readySince))) ∧
  ∀ (s : State) (i : Fin 8) (o : OpenBundle), Untraced s → Calm s → s.cl.bank.pend = [] → s.cl.bank.reenter = none →
    (∀ (h : Fin 64) (y : BlockHandle) (p : Fin 64 × Nat), s.cl.bank.handles[h] = some y → y.block = some p → p.1 = s.cl.id.die) →
    s.cl.run = some i → s.cl.opn = some o →
    let e (a : EndAct) : State := s.modOpn fun o => { o with endAct := some a }
    let b := s.cl.bank
    let d := s.cl.id.die
    let asn := tswAsn b.tsw
    let steps : Bool := tswSs o.regs.tsw && !tswInh o.regs.tsw
    let z (a : EndAct) : State := (closeBundle (e a)).deliver
    (∀ a, (e a).cl.select = s.cl.select) ∧
    (s.cl.select = none → steps = false → finishBundle (e .yield) = closeBundle (e .yield)) ∧
    (∀ j, s.cl.select = some j → ∃ t, finishBundle (e .yield) = t ∧ t.mem = (z .yield).mem ∧ ReadyOrRuns t i ∧ t.cl.run ≠ none ∧
      (steps = false → SameTask (z .yield).cl.bank (t.bankAt i)) ∧
      (steps = true → (t.bankAt i).pendTrap = some ⟨0x14, 0, false⟩ ∧ (t.bankAt i).pc = (z .yield).cl.bank.pc)) ∧
    (s.cl.arrivals = [] → steps = false → ∃ t, finishBundle (e .suspendDorm) = t ∧ t.mem = (z .suspendDorm).mem ∧ t.cl.run ≠ some i ∧
      t.bankAt i = { (z .suspendDorm).cl.bank.leaveResidual with state := .dormant }) ∧
    ∀ (a : EndAct) (s1 : State) (pa : Nat) (reason slot : Nat) (wake : Bool),
      (a = .suspend o.idx ∧ reason = 2 ∧ slot = 0 ∧ wake = true) ∨ (a = .join o.idx ∧ reason = 3 ∧ slot = 0 ∧ wake = false) ∨
        (a = .exit o.idx ∧ reason = 4 ∧ slot = o.idx ∧ wake = false) →
      (if reason = 3 then engineCount (e a) asn b.trec else engineLoc (e a) asn b.trec 64 true true) = .ok (s1, pa) →
      let count := bits (s1.mem.word (pa + 16)) 31 0
      let parent := s1.mem.word (pa + 40)
      let closed := closeBundle s1
      let code := if reason = 4 then o.pc else closed.cl.bank.pc
      let left := (if reason = 4 then leaveBundle s1 o.idx else closed).deliver
      let stepped := left.modBank fun b => { b with
        pendTrap := some ⟨0x14, 0, false⟩, reenter := some { slot := 0, snap := none, guards := o.guards, sampled := o.sampled } }
      let s2 := (if reason ≠ 4 ∧ steps = true then stepped else left).modBank fun b => { b.leaveResidual with pc := code }
      (reason = 3 → count = 0 → steps = false → finishBundle (e a) = closed) ∧
      (reason = 2 ∨ count ≠ 0 →
        (∀ s3, saveTask s2 (s2.resident i) reason = (s3, none) → s3.memOk →
          ∃ t, finishBundle (e a) = t ∧ t.bankAt i = {} ∧
            RecordSaved s3 t pa b code slot (if wake then (s3.mem.word (pa + 16)).getLsbD 32 else true) ∧
            (wake = false → ∀ d', (t.die d').shared = (s3.die d').shared ∧ (t.die d').priv = (s3.die d').priv) ∧
            (wake = true → Queued s3 t d (s3.header d b.lrec asn) b.trec b.lrec b.tidx (Fin.ofNat 4 (bits (s3.mem.word (pa + 16)) 34 33)))) ∧
        ∀ s3 c, saveTask s2 (s2.resident i) reason = (s3, some c) →
          ∃ t, finishBundle (e a) = t ∧ t.mem = s3.mem ∧ t.cl.run = some i ∧ t.cl.opn = none ∧ t.cl.bank.pc = code ∧ t.cl.bank.tcause = 0x12 ∧
            t.cl.bank.tval = c.code.setWidth 64 ∧ (t.cl.bank.reenter.map Reentry.slot).getD 0 = slot) ∧
      (reason = 4 → count = 0 →
        (∀ l, parent = 0 → s1.launchOf b.lrec asn = some l →
          let h := homeDie (hdrTasks (l.headerAt d)) b.tidx.toNat
          let u := s1.setLaunch (l.setShare h { l.share h with exits := (l.share h).exits + 1 })
          ∃ t, finishBundle (e a) = t ∧ t.bankAt i = {} ∧ t.mem = (closeBundle u).mem ∧ t.launches = u.launches) ∧
        ∀ s4 pp, parent ≠ 0 → engineCount s1 asn parent = .ok (s4, pp) →
          let u := s4.countDown d pp parent asn
          ∃ t, finishBundle (e a) = t ∧ t.bankAt i = {} ∧ t.mem = (closeBundle u).mem ∧ t.launches = s.launches ∧
            ∀ d', (t.die d').shared = (u.die d').shared ∧ (t.die d').priv = (u.die d').priv)

/-- A cluster with a free bank takes the oldest record that it may hold of the highest level, one of its own queue first. A KIND 0 record starts
afresh with the values of Table 14.4, a KIND 1 record is to be restored, any other is refused with a record of TYPE 6; a new tenant finds the pool
zero (R156, R263, R266, R330). Ageing moves what has waited 2^20 cycles to the tail of the next level (R261). The model's choices: how a record finds
its launch (log 23), and that one which cannot be read is refused with TYPE 6 too, with a code of Table 17.8 (log 22). -/
def Obligations.RecordsAreTaken : Prop :=
  ∀ (s : State), s.ev.c = s.cl.id →
    let c := s.cl
    let d := c.id.die
    let level (q : Option (Fin 8)) (lv : Fin 4) : List QEntry := ((s.die d).queue q).levels[lv.val]
    let none_ (q : Option (Fin 8)) (lv : Fin 4) : Prop := ∀ x ∈ level q lv, mayHold s c x = false
    (∀ e q lv, nextRecord s c = some (e, q, lv) → mayHold s c e = true ∧ (q = none ∨ q = some c.id.cluster) ∧
      (∃ pre post, level q lv = pre ++ e :: post ∧ ∀ x ∈ pre, mayHold s c x = false) ∧ (q = none → none_ (some c.id.cluster) lv) ∧
      ∀ lv' : Fin 4, lv < lv' → none_ none lv' ∧ none_ (some c.id.cluster) lv') ∧
    (nextRecord s c = none → ∀ lv, none_ none lv ∧ none_ (some c.id.cluster) lv) ∧
    (nextRecord s c = none ∨ c.preempt ≠ none → exec .recordTake s = .next s) ∧
    (∀ e q lv i, c.preempt = none → nextRecord s c = some (e, q, lv) → freeBankFor c e.part = some i →
      let s1 := s.dequeue d q lv e
      (∀ lv', ((s1.die d).queue q).levels[lv'] = if lv' = lv then (level q lv).erase e else level q lv') ∧
      (∀ cause v a, engineLoc s1 e.asn e.addr 64 true false = .error (.trap cause v a) →
        ∃ t, exec .recordTake s = .next t ∧ t.mem = s.mem ∧ t.cl = s.cl ∧
          Raised s t d 6 (if cause = 0x04 then 0x32 else if cause = 0x16 then 0x35 else 0x33) e.addr) ∧
      ∀ s2 pa, engineLoc s1 e.asn e.addr 64 true false = .ok (s2, pa) →
        let ws := s2.mem.words pa 8
        let h := s.header d (wordAt ws 4) e.asn
        (recKind ws = 0 → ∃ t, exec .recordTake s = .next t ∧ t.mem = s2.mem ∧ t.dies = s2.dies ∧ t.cl.part = e.part ∧ t.cl.asn = e.asn ∧
          (∀ k : Fin 8, t.cl.cores[k.val] =
            if c.part = e.part ∧ c.asn = e.asn then c.cores[k.val] else { c.cores[k.val] with spad := [], acc := [], bufA := [], bufB := [] }) ∧
          (∀ j, j ≠ i → SameTask (s.bankAt j) (t.bankAt j)) ∧
          let b := t.bankAt i
          ReadyOrRuns t i ∧ b.pc = recCode ws ∧ (∀ r : Fin 32, b.file.s[r.val] = if r = 1 then hdrArgs h else 0) ∧ b.file.q = 1 ∧
          b.file.h = Vector.replicate 16 0 ∧ b.lc = Vector.replicate 6 0 ∧ (∀ l : Fin 6, (b.loops[l.val]).active = false) ∧
          b.wid = wordAt ws 3 ∧ b.trec = e.addr ∧ b.frame = wordAt ws 1 ∧ b.tidx = wordAt ws 6 ∧ b.lrec = wordAt ws 4 ∧
          b.tsw.toNat = e.asn.toNat * 2 ^ 48 + (hdrSup h).toNat ∧ b.slen = BitVec.ofNat 17 (2 ^ hdrSlog h) ∧ b.coreEn = 0xFF ∧ b.skew = 0 ∧ b.vl = 0 ∧
          b.vtype = 0 ∧ b.gpos = 0 ∧ b.gseedA = 0 ∧ b.gseedB = 0 ∧ b.tvb = s.defaultTvb ∧ b.handles = Vector.replicate 64 none ∧
          ∀ k : Fin 8, let y := b.cores[k.val]
            y.file = {} ∧ y.stride = Vector.replicate 16 (Vector.replicate 6 0) ∧ y.fmt = hdrFmt h ∧ y.pendFmt = [] ∧ y.term = none) ∧
        (recKind ws = 1 → ∃ t, exec .recordTake s = .next t ∧ t.mem = s2.mem ∧ (t.bankAt i).state = .restoring ∧ (t.bankAt i).trec = e.addr ∧
          t.cl.part = e.part ∧ t.cl.asn = e.asn) ∧
        (1 < recKind ws → ∃ t, exec .recordTake s = .next t ∧ t.mem = s2.mem ∧ t.cl = s.cl ∧ Raised s t d 6 0x36 e.addr)) ∧
    ∃ t, exec .queueAgeing s = .next t ∧ t.cl = s.cl ∧ t.mem = s.mem ∧ (∀ d', d' ≠ d → t.die d' = s.die d') ∧
      ∀ q : Option (Fin 8),
        let old (lv : Fin 4) : List QEntry := level q lv
        let aged (lv : Fin 4) : List QEntry := ((old lv).filter fun e => e.since + 2 ^ 20 ≤ s.now).map fun e => { e with since := s.now }
        let stay (lv : Fin 4) : List QEntry := (old lv).filter fun e => s.now < e.since + 2 ^ 20
        ((t.die d).queue q).levels[3] = old 3 ++ aged 2 ∧ ((t.die d).queue q).levels[2] = stay 2 ++ aged 1 ∧
        ((t.die d).queue q).levels[1] = stay 1 ++ aged 0 ∧ ((t.die d).queue q).levels[0] = stay 0

/-- TASK_RESTORE ends with the bank ready, in checked mode, at the record's CODE and with the record's addresses, or, where the restore fails, with the
bank free and a record of TYPE 6 (R330). What the blocks of a save hold is what a restore reads from them: the registers of the sequencer and of a
core (Table 17.7), of which the zero fields read 0 (R3). The places inside the areas that the table does not divide are the model's (log 22). -/
def Obligations.SavedTasksComeBack : Prop :=
  (∀ (s : State) (i : Fin 8), s.ev.c = s.cl.id → s.ev.a = i.val → s.cl.run ≠ some i → (s.bankAt i).state = .restoring →
    let b := s.bankAt i
    let asn := tswAsn b.tsw
    ∀ s0 pa, engineLoc s asn b.trec 64 true false = .ok (s0, pa) →
      let ws := s0.mem.words pa 8
      let h := s.header s.cl.id.die (wordAt ws 4) asn
      let e : QEntry := ⟨b.trec, asn, hdrPart h, hdrQclass h, wordAt ws 4, 0⟩
      (∀ s1, restoreTask s0 i e ws h = (s1, none) → s1.cl.run = s.cl.run ∧ ∃ t, exec .taskRestore s = .next t ∧ t.mem = s1.mem ∧ ReadyOrRuns t i ∧
        let r := t.bankAt i
        r.pc = recCode ws ∧ r.wid = wordAt ws 3 ∧ r.trec = b.trec ∧ r.frame = wordAt ws 1 ∧ r.tidx = wordAt ws 6 ∧ r.lrec = wordAt ws 4 ∧
        r.checked = true ∧ ∀ k : Fin 8, (r.cores[k.val]).checked = true) ∧
      ∀ s1 c, restoreTask s0 i e ws h = (s1, some c) → ∃ t, exec .taskRestore s = .next t ∧ t.mem = s1.mem ∧ t.bankAt i = {} ∧
        Raised s1 t s.cl.id.die 6 c.code b.trec) ∧
  (∀ (b base : Bank),
    let r := readBank base ((bankWords b).foldl (fun (m : Mem) x => m.setWord x.1 x.2) []) 0
    (∀ j : Fin 32, j ≠ 0 → r.file.s[j.val] = b.file.s[j.val]) ∧ r.file.s[0] = 0 ∧ r.file.q = b.file.q ||| 1 ∧ r.file.h = b.file.h ∧ r.lc = b.lc ∧
    (∀ l : Fin 6, (r.loops[l.val]).active = (b.loops[l.val]).active ∧ (r.loops[l.val]).start = (b.loops[l.val]).start ∧
      (r.loops[l.val]).last = (b.loops[l.val]).last) ∧
    (∀ i, i < 64 → r.tsw.getLsbD i = if i = 0 ∨ i = 8 ∨ i = 10 ∨ i = 11 ∨ (13 ≤ i ∧ i ≤ 15) ∨ 48 ≤ i then b.tsw.getLsbD i else false) ∧
    r.slen = b.slen ∧ r.coreEn = b.coreEn ∧ r.skew = b.skew ∧ r.vl = b.vl ∧ r.vtype.toNat = b.vtype.toNat % 32 ∧ r.gpos = b.gpos ∧
    r.gseedA = b.gseedA ∧ r.gseedB = b.gseedB ∧ r.tvb = b.tvb ∧ r.tpc = b.tpc ∧ r.tcause = b.tcause ∧ r.tval = b.tval ∧ r.pendTrap = b.pendTrap ∧
    (b.courierErrs.length ≤ 252 → (∀ p ∈ b.courierErrs, p.1 < 2 ^ 24) → r.courierErrs = b.courierErrs) ∧
    ∀ j : Fin 64, (b.handles[j.val] = none → r.handles[j.val] = none) ∧
      ∀ x : BlockHandle, b.handles[j.val] = some x → (∀ p, x.block = some p → p.2 < 2 ^ 64) → r.handles[j.val] = some x) ∧
  ∀ (s : State) (w : Who) (c : CoreBank) (p : PhysCore),
    c.pendFmt.length ≤ 3 → (∀ x ∈ c.pendFmt, x.wait < 4) → p.left = [] → p.top = [] → c.term = none →
    let r := readCore s w ((coreBlock c p).foldl (fun (m : Mem) x => m.setWord x.1 x.2) []) 0
    r.file = { c.file with vflags := c.file.vflags &&& 0xF3F } ∧ r.stride = c.stride ∧ r.fmt = c.fmt ∧ r.pendFmt = c.pendFmt ∧ r.term = none

/-- A pre-emption of a quiet cluster between bundles moves its context into a shadow slot: every bank with its task, the running one settled and
ready, the commands and the searches; the cluster holds no bank, and the pool stays. SWAP_IN of a context into an idle cluster that its pool still
belongs to brings every bank back in checked mode (R326 to R328). -/
def Obligations.ContextsMoveAndReturn : Prop :=
  ∀ (s : State), s.ev.c = s.cl.id →
    (s.cl.preempt = none ∨ s.cl.evals ≠ [] → exec .preemption s = .next s) ∧
    (s.cl.preempt = some none → s.cl.evals = [] → s.cl.opn = none → (s.cl.run.isSome → s.cl.bank.pendTrap = none) → s.preempts = [] → shadowFits s.cl = true →
      (∀ i : Fin 8, (s.bankAt i).state ≠ .restoring ∧ (s.bankAt i).ops = []) → (∀ x ∈ s.cl.cmds, x.state ≠ .running) →
      (∀ k : Fin 8, (s.cl.cores[k.val]).gathers = []) → (∃ i : Fin 8, (s.bankAt i).state ≠ .free) →
      (∀ x ∈ s.cl.shadows, ∃ i : Fin 8, (x.banks[i.val]).state ≠ .free) →
      let z := s.deliver
      ∃ (t : State) (x : Shadow), exec .preemption s = .next t ∧ t.mem = s.mem ∧ t.cl.shadows = s.cl.shadows ++ [x] ∧ t.cl.run = none ∧
        t.cl.preempt = none ∧ t.cl.cmds = s.cl.cmds.filter (fun y => !y.counts) ∧ t.cl.searches = [] ∧ (∀ i : Fin 8, t.bankAt i = {}) ∧
        (∀ k : Fin 8, (t.cl.cores[k.val]).spad = (z.cl.cores[k.val]).spad ∧ (t.cl.cores[k.val]).acc = (z.cl.cores[k.val]).acc ∧
          x.cores[k.val] = { z.cl.cores[k.val] with spad := [], acc := [], tlb := [] }) ∧
        x.part = s.cl.part ∧ x.asn = s.cl.asn ∧ x.cmds = s.cl.cmds.filter Command.counts ∧ x.searches = s.cl.searches ∧
        ∀ i : Fin 8, SameTask (z.bankAt i) x.banks[i.val] ∧
          (x.banks[i.val]).state = if (z.bankAt i).state = .running then .ready else (z.bankAt i).state) ∧
    ∀ x, s.cl.shadows[s.ev.a]? = some x → s.cl.residents = [] → s.cl.preempt = none → s.cl.part = x.part → s.cl.asn = x.asn →
      ∃ t : State, exec .swapIn s = .next t ∧ t.mem = s.mem ∧ t.cl.shadows = s.cl.shadows.eraseIdx s.ev.a ∧
        (∀ k : Fin 8, (t.cl.cores[k.val]).spad = (s.cl.cores[k.val]).spad ∧ (t.cl.cores[k.val]).acc = (s.cl.cores[k.val]).acc) ∧
        ∀ i : Fin 8, let b := t.bankAt i
          SameTask x.banks[i.val] b ∧
          ((x.banks[i.val]).state ≠ .free → b.checked = true ∧ ∀ k : Fin 8, (b.cores[k.val]).checked = true) ∧
          b.state = if t.cl.run = some i then .running else (x.banks[i.val]).state

/-- A die takes its share with the header that it reads: a valid one is taken, with its key where it is specialised, and an invalid or unreadable one
gives the code and no task. An evaluation and a timeout each enter one residual under the key, no more than 16384 bundles, declined for the timeout.
Enumeration writes the next record of the share and enqueues it, or stops on a fault with a record of TYPE 4. A die reports when its share is
enumerated and exited, and the launch completes with all 64 reports (R255, R257, R258, R260, R267, R268, R277, R284). The cache holds 4 MiB of
residuals and keeps those that a bank runs; which others are replaced is open (log 15), and so is where the count of refused shares is shown (log 11);
a die that cannot read a static word goes on without a key (log 40). -/
def Obligations.LaunchesRunAndComplete : Prop :=
  ∀ (s : State) (l : Launch) (d : Fin 64), s.memOk → s.ev.c.die = d → s.launch s.ev.a = some l →
    let x := l.share d
    let becomes (u : State) (y : Share) : State := u.setLaunch (l.setShare d y)
    (x.taken = false → s.ev.c = s.cl.id →
      let refused (u : State) (code : BitVec 8) (image : List Word) : Prop :=
        ∃ t : State, exec .dieLaunchTake s = .next t ∧ t.mem = u.mem ∧ t.cl = s.cl ∧ t.dies = u.dies ∧
          t.launches = (becomes s { x with taken := true, image := image, code := code, stopped := true }).launches ∧
          (Cells.wf s.counts = true → Cells.get t.counts 5 = Cells.get s.counts 5 + 1)
      (∀ e, engineLoc s l.asn l.hdr 128 true false = .error e → refused s 0x26 []) ∧
      ∀ s1 pa, engineLoc s l.asn l.hdr 128 true false = .ok (s1, pa) →
        let h := s1.mem.words pa 16
        (∀ code, hdrInvalid h l.sup true = some code → refused s1 code h) ∧
        (hdrInvalid h l.sup true = none →
          (hdrSpec h = false ∨ shareSizeOf h d = 0 → exec .dieLaunchTake s = .next (becomes s1 { x with taken := true, image := h, specDone := true })) ∧
          (hdrSpec h = true → shareSizeOf h d ≠ 0 →
            (∀ e, readStatics h (staticArgs h) s1 = .error e →
              exec .dieLaunchTake s = .next (becomes s1 { x with taken := true, image := h, specDone := true })) ∧
            ∀ s2 st, readStatics h (staticArgs h) s1 = .ok (s2, st) →
              let key := launchKey s2 h st
              exec .dieLaunchTake s =
                .next (becomes s2 { x with taken := true, image := h, key := key, specDone := ((s2.die d).findResidual key).isSome })))) ∧
    (x.taken = true → x.specDone = false → x.key ≠ [] → ∀ i : Instr, i = .specialise ∨ i = .specialiseTimeout →
      ∃ (t : State) (r : Residual) (stay : List Residual) (l' : Launch), exec i s = .next t ∧ t.mem = s.mem ∧ t.cl = s.cl ∧
        t.die d = { s.die d with residuals := (t.die d).residuals, nextKey := (s.die d).nextKey + 1 } ∧
        stay.Sublist (s.die d).residuals ∧
        (∀ y ∈ (s.die d).residuals, (∃ c ∈ s.clusters, c.id.die = d ∧ c.runs y.num = true) → y ∈ stay) ∧
        (t.die d).residuals = (if cacheSize stay + r.size ≤ 2 ^ 22 then stay ++ [r] else stay) ∧ r.key = x.key ∧
        r.entries.length ≤ 16384 ∧ (r.declined = true ↔ i = .specialiseTimeout) ∧ t.launch s.ev.a = some l' ∧ l'.share d = { x with specDone := true }) ∧
    (x.taken = true → x.stopped = false → x.specDone = true → x.next < shareSizeOf x.image d → s.ev.c = s.cl.id →
      let h := x.image
      let i := shareLo d.val (hdrTasks h) + x.next
      let rec_ := hdrRecbase h + BitVec.ofNat 64 (64 * i)
      launchQueued s d l h i < 64 →
      (∀ s1 pa, engineLoc s (hdrAsn h) rec_ 64 false true = .ok (s1, pa) → s1.memOk → ∃ t : State, exec .launchEnumerate s = .next t ∧ t.cl = s.cl ∧
        t.mem.words pa 8 = [BitVec.ofNat 64 (bits (hdrCode h) 55 2 * 4), hdrFrbase h + BitVec.ofNat 64 (i * 2 ^ hdrFrsz h), BitVec.ofNat 64 (hdrPrio h * 2 ^ 33),
          hdrWid h i, l.hdr, 0, BitVec.ofNat 64 i, 0] ∧
        (∀ y, y < pa ∨ pa + 64 ≤ y → t.mem.get y = s1.mem.get y) ∧
        Queued s t d h rec_ l.hdr (BitVec.ofNat 64 i) (Fin.ofNat 4 (hdrPrio h)) ∧ t.launches = (becomes s { x with next := x.next + 1 }).launches) ∧
      ∀ c v a, engineLoc s (hdrAsn h) rec_ 64 false true = .error (.trap c v a) → ∃ t : State, exec .launchEnumerate s = .next t ∧ t.mem = s.mem ∧
        t.cl = s.cl ∧ Raised s t d 4 c rec_ ∧ t.launches = (becomes s { x with stopped := true }).launches) ∧
    (let size := shareSizeOf x.image d
     (x.taken = true → x.code = 0 → size ≤ x.next → size ≤ x.exits → exec .dieCompletionReport s = .next (becomes s { x with reported := true })) ∧
     (x.taken = false ∨ x.code ≠ 0 ∨ x.next < size ∨ x.exits < size → exec .dieCompletionReport s = .next s)) ∧
    ((∃ j : Fin 64, (l.share j).reported = false) →
      ∃ t : State, exec .launchCompletion s = .next t ∧ t.mem = s.mem ∧ t.launches = s.launches ∧ t.outbox = s.outbox ∧ t.dies = s.dies) ∧
    ((∀ j : Fin 64, (l.share j).reported = true) →
      let h := l.headerAt l.collect
      let ended := s.launches.filter fun y => y.num ≠ s.ev.a
      let s1 := { s.focus ⟨l.collect, 0⟩ with launches := ended }
      (hdrCkind h = 0 → ∃ t : State, exec .launchCompletion s = .next t ∧ t.mem = s.mem ∧ t.launches = ended ∧ t.outbox = s.outbox ∧ t.dies = s.dies) ∧
      (hdrCkind h = 1 → ∃ (t : State) (m : HostMsg), exec .launchCompletion s = .next t ∧ t.mem = s.mem ∧ t.launches = ended ∧
        t.outbox = s.outbox ++ [m] ∧ m.type = 8 ∧ m.stream = 0 ∧ bits m.arg 15 0 = hdrTag h % 2 ^ 16) ∧
      ∀ s2 pa, hdrCkind h = 2 → engineCount s1 l.asn (hdrCtarget h) = .ok (s2, pa) →
        let u := s2.countDown l.collect pa (hdrCtarget h) l.asn
        ∃ t : State, exec .launchCompletion s = .next t ∧ t.mem = u.mem ∧ t.launches = ended ∧ t.dies = u.dies)

/-- Indices and counts. Every index below N has one home die, whose share holds it. A work identifier holds the digits of the index in its fields. A
decrement takes 1 off COUNT; at 0 a record that waits is woken and enqueued, and nothing else changes (R255, R260, R268, R272). By which header it is
enqueued, that of its launch, is the model's choice (log 23). -/
def Obligations.SharesWorkIdentifiersAndCounts : Prop :=
  (∀ (n i : Nat) (d : Fin 64), i < n → (homeDie n i = d ↔ d.val * n / 64 ≤ i ∧ i < (d.val + 1) * n / 64)) ∧
  (∀ (h : List Word) (sup : Bool) (i f : Nat), hdrInvalid h sup true = none → i < hdrTasks h → f < hdrNf h →
    let lo := ((List.range f).map (hdrWidth h)).sum
    let div := ((List.range f).map (hdrExtent h)).prod
    (hdrWid h i).toNat / 2 ^ lo % 2 ^ hdrWidth h f = i / div % hdrExtent h f) ∧
  ∀ (s : State) (d : Fin 64) (pa : Nat) (rec_ : Word) (asn : BitVec 16), s.memOk →
    let t := s.countDown d pa rec_ asn
    let n := s.mem.read (pa + 16) 4
    let w := s.mem.word (pa + 16)
    let lrec := s.mem.word (pa + 32)
    t.cl = s.cl ∧ t.launches = s.launches ∧ (∀ x, x < pa + 16 ∨ pa + 24 ≤ x → t.mem.get x = s.mem.get x) ∧
    (0 < n → t.mem.read (pa + 16) 4 = n - 1) ∧ bits (t.mem.word (pa + 16)) 63 33 = bits w 63 33 ∧
    (n = 1 → w.getLsbD 32 = true → (t.mem.word (pa + 16)).getLsbD 32 = false ∧
      Queued s t d (s.header d lrec asn) rec_ lrec (s.mem.word (pa + 48)) (Fin.ofNat 4 (bits w 34 33))) ∧
    (n ≠ 1 ∨ w.getLsbD 32 = false → (t.mem.word (pa + 16)).getLsbD 32 = w.getLsbD 32 ∧ t.dies = s.dies)

/-! ### The fault queue and its service (R322 to R325) -/

/-- FAULT_RECORD_POST writes the oldest record that is held, with word 4 zero, and advances the producer index; in host mode it is sent to the host; a
full ring takes none. An action takes effect when the service has written it, and DONE is set and the consumer index passes what is DONE: retry makes
the waiting bank ready in checked mode, evict asks for the pre-emption of its cluster, deliver gives its handler the trap, fail puts a parked command
into error, kill frees the bank; a relocation engine goes on or stops with ERR, and a launch unit goes on or abandons its share (R322 to R325, Table
17.6). The model's choices: how a record finds its task's launch (log 23), and the entry whose copy a stopped engine abandons is PENDING (log 22). -/
def Obligations.FaultsAreServiced : Prop :=
  ∀ (s : State) (d : Fin 64), s.memOk → s.ev.c.die = d → (s.dbg d 0).getLsbD 2 = false →
    let q := (s.die d).fq
    let base := fqBase s d
    (∀ r rest, q.held = r :: rest →
      (fqFull q = true → exec .faultRecordPost s = .next s) ∧
      (fqFull q = false →
        let at_ := base + 64 + 64 * (q.prod % 2 ^ q.log2)
        ∃ t : State, exec .faultRecordPost s = .next t ∧ t.cl = s.cl ∧ t.mem.words at_ 8 = [r.w0, r.va, r.pc, r.trec, 0, 0, 0, 0] ∧
          t.mem.word base = BitVec.ofNat 64 ((q.prod + 1) % 2 ^ 32) ∧
          (∀ x, x < base ∨ base + 8 ≤ x → x < at_ ∨ at_ + 64 ≤ x → t.mem.get x = s.mem.get x) ∧
          (t.die d).fq = { q with held := rest, prod := (q.prod + 1) % 2 ^ 32, posted := q.posted ++ [(q.prod, r)] } ∧
          (q.host = false → t.outbox = s.outbox) ∧
          (q.host = true → ∃ m : HostMsg, t.outbox = s.outbox ++ [m] ∧ m.type = 8 ∧ m.addr = BitVec.ofNat 64 at_ ∧ m.payload = t.mem.bytes at_ 64))) ∧
    ∀ n r, s.ev.b = n → q.posted.find? (fun p => p.1 = n) = some (n, r) →
      let a := actionOf s d n r
      let slot := base + 64 + 64 * (n % 2 ^ q.log2)
      let w := s.mem.word (slot + 32)
      let cause := BitVec.ofNat 8 (bits w 23 16)
      let asn := BitVec.ofNat 16 (bits r.w0 15 0)
      let done (t : State) : Prop :=
        let q' := (t.die d).fq
        (t.mem.word (slot + 32)).getLsbD 63 = true ∧ bits (t.mem.word (slot + 32)) 62 0 = bits w 62 0 ∧ t.mem.word (base + 8) = BitVec.ofNat 64 q'.cons ∧
        q'.cons ∉ q'.done ∧ (∀ p ∈ q'.posted, p.1 ≠ n) ∧ q'.prod = q.prod ∧ q'.held = q.held
      let quiet (t : State) : Prop := ∀ x, x < slot + 32 ∨ slot + 40 ≤ x → x < base + 8 ∨ base + 16 ≤ x → t.mem.get x = s.mem.get x
      (a ≠ 1 → exec .actionRetry s = .next s) ∧ (a ≠ 2 → exec .actionEvict s = .next s) ∧ (a ≠ 3 → exec .actionDeliver s = .next s) ∧
      (a ≠ 4 → exec .actionFail s = .next s) ∧ (a ≠ 5 → exec .actionKill s = .next s) ∧
      (∀ trec i, r.subject = .bank s.cl.id trec → findWaiting s.cl trec asn = some i →
        (a = 1 → ∃ t : State, exec .actionRetry s = .next t ∧ done t ∧ quiet t ∧ SameTask (s.bankAt i) (t.bankAt i) ∧
          (if (s.bankAt i).slept then (t.bankAt i).state = .dormant else ReadyOrRuns t i) ∧ (t.bankAt i).checked = true ∧
          ∀ k : Fin 8, ((t.bankAt i).cores[k.val]).checked = true) ∧
        (a = 2 → ∃ t : State, exec .actionEvict s = .next t ∧ done t ∧ quiet t ∧ t.cl = { s.cl with preempt := some (some (Fin.ofNat 64 (bits w 13 8))) }) ∧
        (a = 3 → ∃ t : State, exec .actionDeliver s = .next t ∧ done t ∧ quiet t ∧ ReadyOrRuns t i ∧ SameTask (s.bankAt i) (t.bankAt i) ∧
          (t.bankAt i).pendTrap = some ⟨cause, r.va, true⟩) ∧
        (a = 5 → findNamed s.cl trec asn = some i → d = s.cl.id.die →
          (∀ (h : Fin 64) (y : BlockHandle) (p : Fin 64 × Nat), (s.bankAt i).handles[h] = some y → y.block = some p → p.1 = d) →
          s.softWords = [] → (∀ x ∈ s.cl.cmds, x.bank ≠ i) → (s.bankAt i).ops = [] →
          ∀ s1 pa l, engineLoc s asn trec 64 true false = .ok (s1, pa) → s.mem.word (pa + 40) = 0 →
            s.launchOf (s.mem.word (pa + 32)) asn = some l →
            let e := homeDie (hdrTasks (l.headerAt s.cl.id.die)) (s.mem.word (pa + 48)).toNat
            ∃ t : State, exec .actionKill s = .next t ∧ done t ∧ quiet t ∧ t.bankAt i = {} ∧
              t.launches = (s.setLaunch (l.setShare e { l.share e with exits := (l.share e).exits + 1 })).launches)) ∧
      (∀ seq x, r.subject = .command s.cl.id seq → s.cl.cmds.find? (fun y => y.seq = seq && y.state = .parked) = some x → x.barrier s = none →
        (x.send && x.reserved) = false →
        (a = 1 → ∃ t : State, exec .actionRetry s = .next t ∧ done t ∧ quiet t ∧ t.cl = { s.cl with
          cmds := s.cl.cmds.map fun y => if y.seq = seq then { x with state := .running, slot := 0 } else y }) ∧
        (a = 4 → ∃ t : State, exec .actionFail s = .next t ∧ done t ∧ quiet t ∧
          t.cl.cmds = s.cl.cmds.map (fun y => if y.seq = seq then
            { x with state := .error, cause := cause, slot := 0, reserved := false, news := true, stalled := false } else y) ∧
          (t.bankAt x.bank).courierErrs = (s.bankAt x.bank).courierErrs ++ [(x.id, cause)]) ∧
        (a = 5 → ∃ t : State, exec .actionKill s = .next t ∧ done t ∧ quiet t ∧ t.cl = { s.cl with
          cmds := s.cl.cmds.map fun y => if y.seq = seq then
            { x with state := .cancelled, slot := 0, reserved := false, news := true, stalled := false } else y })) ∧
      (∀ h : Fin 16, r.subject = .heap h → (s.dbg (s.relocs[h.val]).die 0).getLsbD 2 = false →
        let y := s.relocs[h.val]
        let st (err state : Nat) : Word := statWord err (bits y.stat 55 36) (bits y.stat 35 16) state
        let at_ := Config.heapTable + 64 * h.val + 56
        let entry (p : Nat) : Nat := (heapWord s h (2 + y.epoch.toNat % 2)).toNat + 16 * p
        let apart (x : Nat) : Prop := (x + 8 ≤ slot + 32 ∨ slot + 40 ≤ x) ∧ (x + 8 ≤ base + 8 ∨ base + 16 ≤ x)
        (y.parked = false → ∀ i, (a = 1 ∧ i = .actionRetry) ∨ (a = 4 ∧ i = .actionFail) ∨ (a = 5 ∧ i = .actionKill) →
          ∃ t : State, exec i s = .next t ∧ done t ∧ quiet t ∧ t.cl = s.cl ∧ t.relocs = s.relocs) ∧
        (y.parked = true → apart at_ →
          (a = 1 → ∃ t : State, exec .actionRetry s = .next t ∧ done t ∧ t.cl = s.cl ∧ t.mem.word at_ = st (bits y.stat 63 56) 1 ∧
            t.relocs[h.val] = { y with parked := false, stat := st (bits y.stat 63 56) 1 } ∧
            ∀ x, x < at_ ∨ at_ + 8 ≤ x → x < slot + 32 ∨ slot + 40 ≤ x → x < base + 8 ∨ base + 16 ≤ x → t.mem.get x = s.mem.get x) ∧
          ∀ (i : Instr) (err : BitVec 8), (a = 4 ∧ i = .actionFail ∧ err = cause) ∨ (a = 5 ∧ i = .actionKill ∧ err = 0x12) →
            (∀ p, y.cur = some p → apart (entry p) ∧ (entry p + 8 ≤ at_ ∨ at_ + 8 ≤ entry p)) →
            ∃ t : State, exec i s = .next t ∧ done t ∧ t.cl = s.cl ∧ t.mem.word at_ = st err.toNat 3 ∧
              t.relocs[h.val] = { y with parked := false, running := false, cur := none, stat := st err.toNat 3 } ∧
              (∀ p, y.cur = some p → t.mem.word (entry p) = (s.mem.word (entry p) &&& ~~~(3 : Word)) ||| 1) ∧
              ∀ x, (∀ p, y.cur = some p → x < entry p ∨ entry p + 8 ≤ x) → x < at_ ∨ at_ + 8 ≤ x → x < slot + 32 ∨ slot + 40 ≤ x →
                x < base + 8 ∨ base + 16 ≤ x → t.mem.get x = s.mem.get x)) ∧
      ∀ num l, r.subject = .launch num → s.launch num = some l →
        (a = 1 → ∃ t : State, exec .actionRetry s = .next t ∧ done t ∧ quiet t ∧ t.cl = s.cl ∧
          t.launches = (s.setLaunch (l.setShare d { l.share d with stopped := false })).launches) ∧
        ∀ i, (a = 4 ∧ i = .actionFail) ∨ (a = 5 ∧ i = .actionKill) → ∃ t : State, exec i s = .next t ∧ done t ∧ quiet t ∧ t.cl = s.cl ∧
          t.launches = (s.setLaunch (l.setShare d { l.share d with stopped := true, code := 0x26 })).launches

/-! ### The host link (R337 to R350) -/

/-- A frame that carries no message is counted and dropped. A message that its stream does not expect is discarded: a request that was performed before
gets its original reply, and nothing else happens. One that is expected consumes its SEQ: a malformed one is answered with STATUS 1, one behind a
request that waits is held, and in recovery only RESYNC, ATTEST and MGMT 0x0C are performed. A stream resends what is not acknowledged, in order
(R337, R339, R347). Which replies are kept is the model's choice (log 11). -/
def Obligations.MessagesAreReceivedInOrder : Prop :=
  ∀ (s : State),
    let m := s.ev.msg
    let again (rs : List HostMsg) (id : Nat) : List HostMsg := rs.map fun r => { r with ack := BitVec.ofNat 32 (s.stream id).rxNext }
    (∀ i ∈ hostSteps, unanswerable s m = true ∨ expected s m = false ∨ msgStep m ≠ i → exec i s = .next s) ∧
    (unanswerable s m = true → Cells.wf s.counts = true → ∃ t, exec .frameDrop s = .next t ∧
      t = { s with counts := t.counts } ∧ Cells.get t.counts 2 = Cells.get s.counts 2 + 1) ∧
    (unanswerable s m = false → exec .frameDrop s = .next s) ∧
    (Received s m .malformedMessage → Answers .malformedMessage s s m 1 0 []) ∧
    (∀ i ∈ hostSteps, unanswerable s m = false → expected s m = true → msgStep m = i →
      (streamWaits s m.sid = true → ∃ t, exec i s = .next t ∧ t = { s with streams := t.streams, fires := s.fires ++ [m] } ∧ Took s t m.sid) ∧
      (streamWaits s m.sid = false → s.recovery = true → i ≠ .resync → i ≠ .attest → i ≠ .mgmtLoadFirmware →
        ∃ t, exec i s = .next t ∧ t = { s with streams := t.streams } ∧ Took s t m.sid)) ∧
    (unanswerable s m = true ∨ expected s m = true → exec .discardedMessage s = .next s) ∧
    (unanswerable s m = false → expected s m = false → ∃ t, exec .discardedMessage s = .next t ∧ t = { s with streams := t.streams, outbox := t.outbox } ∧
      t.outbox = s.outbox ++ again (((s.stream m.sid).replies.filter fun p => p.1 = m.seq.toNat).map Prod.snd) m.sid ∧
      (t.stream m.sid).rxNext = (s.stream m.sid).rxNext ∧ (t.stream m.sid).txNext = (s.stream m.sid).txNext ∧
      ∀ j, j ≠ m.sid → t.stream j = s.stream j) ∧
    ∃ t, exec .streamResend s = .next t ∧ t = { s with streams := t.streams, outbox := s.outbox ++ again (s.stream s.ev.a).unacked s.ev.a } ∧
      ∀ j, t.stream j = { s.stream j with
        ackSent := if j = s.ev.a ∧ (s.stream j).unacked ≠ [] then (s.stream j).rxNext else (s.stream j).ackSent }

/-- A physical WRITE stores its payload from ADDR on, word by word, and answers with the bytes performed; at the first word beyond main memory it
stops with STATUS 2. A virtual one of a word stores it where the translation says. No copy of a stored line stays in a cache, and every other stays.
READ answers with the bytes that memory holds (R123, R338, R340). -/
def Obligations.HostReadsAndWritesMemory : Prop :=
  ∀ (s : State) (m : HostMsg),
    let n := m.len.toNat
    let a := m.addr.toNat
    (Received s m .write → m.arg.getLsbD 16 = true →
      ∀ k, (k = n ∧ a + n ≤ Config.memTop) ∨ (k % 8 = 0 ∧ k < n ∧ (0 < k → a + k ≤ Config.memTop) ∧ Config.memTop < a + k + 8) → s.memOk →
        ∃ t : State, t = { s with mem := t.mem, badWords := t.badWords, lines := t.lines } ∧
          Answers .write s t m (if k = n then 0 else 2) (BitVec.ofNat 64 k) [] ∧ (∀ i, i < k → t.mem.get (a + i) = m.payload.getD i 0) ∧
          (∀ x, x < a ∨ a + k ≤ x → t.mem.get x = s.mem.get x) ∧
          ∀ d line, ((∃ i, i < k ∧ (a + i) / 128 = line) → t.lineAt d line = 0) ∧
            ((∀ i, i < k → (a + i) / 128 ≠ line) → t.lineAt d line = s.lineAt d line)) ∧
    (Received s m .write → m.arg.getLsbD 16 = false → n = 8 →
      (∀ s1 l, hostLoc s false (m.arg.extractLsb' 0 16) true m.addr = .ok (s1, l) →
        Answers .write s (s1.homeStore l (leNat m.body) 8) m 0 8 []) ∧
      ∀ e, hostLoc s false (m.arg.extractLsb' 0 16) true m.addr = .error e → Answers .write s s m (faultStatus e) 0 []) ∧
    ∀ k pa, Received s m .read → s.badWords = [] → s.softWords = [] → bits m.arg 63 32 = 8 * k →
      (∀ j, j < k → hostLoc s (m.arg.getLsbD 16) (m.arg.extractLsb' 0 16) false (m.addr + BitVec.ofNat 64 (8 * j)) = .ok (s, .mem (pa + 8 * j))) →
      Answers .read s s m 0 (BitVec.ofNat 64 (8 * k)) (s.mem.bytes pa (8 * k))

/-- ARM of a valid header enters it under its tag, replacing one that is not in flight; an invalid header gives its code. Disarming removes the entry,
and an unknown tag gives STATUS 5. FIRE copies the header, the block and the payload into the next slot and starts a launch of it, whose number it
answers; it is held while the slot or the launches are taken (R341, R342). The STATUS of a fault at CTARGET is the model's choice (log 11). -/
def Obligations.ArmedTagsFire : Prop :=
  ∀ (s : State) (m : HostMsg),
    let tag := bits m.arg 15 0
    let busy (a : Armed) : Prop := ∃ p ∈ a.fly, ∃ l ∈ s.launches, l.fire = p.2
    (Received s m .arm →
      let image := leWords (m.body.take 128) 16
      let x : Armed := { tag := tag, image := image, args := leWords (m.body.drop 128) 64, ring := m.addr, nlog := bits m.arg 23 16, zlog := bits m.arg 31 24 }
      (∀ code, hdrInvalid image true false = some code → Answers .arm s s m code 0 []) ∧
      (hdrInvalid image true false = none →
        (∀ a, s.armedTag tag = some a → busy a → Answers .arm s s m 4 0 []) ∧
        (s.armedTag tag = none → 256 ≤ s.armed.length → Answers .arm s s m 4 0 []) ∧
        ((∀ a, s.armedTag tag = some a → ¬busy a) → s.armedTag tag ≠ none ∨ s.armed.length < 256 →
          Answers .arm s { s with armed := putArmed x s.armed } m 0 0 [] ∧ State.armedTag { s with armed := putArmed x s.armed } tag = some x ∧
          ∀ j, j ≠ tag → State.armedTag { s with armed := putArmed x s.armed } j = s.armedTag j))) ∧
    (Received s m .disarm →
      (s.armedTag tag = none → Answers .disarm s s m 5 0 []) ∧
      ∀ a, s.armedTag tag = some a → (busy a → Answers .disarm s s m 4 0 []) ∧
        (¬busy a → Answers .disarm s { s with armed := s.armed.filter fun x => x.tag ≠ tag } m 0 0 [])) ∧
    (Received s m .fire →
      (s.armedTag tag = none → Answers .fire s s m 5 0 []) ∧
      ∀ a, s.armedTag tag = some a →
        (2 ^ a.zlog < m.len.toNat + 640 → Answers .fire s s m 1 0 []) ∧
        (m.len.toNat + 640 ≤ 2 ^ a.zlog →
          let held : Prop := 64 ≤ s.launches.length ∨ ∃ p ∈ a.fly, p.1 = a.next ∧ ∃ l ∈ s.launches, l.fire = p.2
          let r := a.ring + BitVec.ofNat 64 (a.next * 2 ^ a.zlog)
          let image := a.image.set 1 (r + 128)
          let asn := hdrAsn a.image
          (held → ∃ t, exec .fire s = .next t ∧ t = { s with streams := t.streams, fires := s.fires ++ [m] } ∧ Took s t m.sid) ∧
          (¬held → ∀ t done st, hostStore false asn r 0 (image ++ a.args.set 0 (r + 640) ++ payloadWords m.body) s = (t, some (done, st)) →
            Answers .fire s t m st (BitVec.ofNat 64 (8 * done)) []) ∧
          (¬held → a.image.length = 16 → hdrInvalid image true true = none → hdrCkind image ≠ 2 →
            ∀ t, hostStore false asn r 0 (image ++ a.args.set 0 (r + 640) ++ payloadWords m.body) s = (t, none) →
              Answers .fire s { t with
                launches := s.launches ++ [{ num := s.nextLaunch, hdr := r, asn := asn, collect := 0, sup := true, image := image, fire := s.nextFire }],
                nextLaunch := s.nextLaunch + 1, nextFire := s.nextFire + 1,
                armed := putArmed { a with next := (a.next + 1) % 2 ^ a.nlog, fly := (a.next, s.nextFire) :: a.fly.filter fun p => p.1 ≠ a.next } s.armed }
                m 0 (BitVec.ofNat 64 s.nextFire) [])))

/-- RESYNC answers with the ten sections of Table 19.3 in order, the spare map with a line for every physical spare, and with the reset flag starts its
stream anew at 0. ATTEST answers with the nonce, M0 to M3, the count of resets, the serial number, and a signature of 2420 bytes over all of it (R339,
R344, R349, R350). The layout inside the sections is the model's, and what it counts of link retries and wear alerts is open (log 11); how the device
signs is open (log 12). -/
def Obligations.SummaryAndAttestation : Prop :=
  ∀ (s : State) (m : HostMsg),
    (Received s m .resync →
      (m.flags.getLsbD 2 = false → ∃ t : State, t = { s with streams := t.streams } ∧ Took s t m.sid ∧
        Answers .resync s { s with freeCtr := s.freeCtr + 1 } m 0 0 (bytesOfWords (summary t)) ∧
        let sec (id : Nat) (ws : List Word) : List Word := BitVec.ofNat 64 (id + 256 * (8 * ws.length)) :: ws
        let n (x : Nat) : Word := BitVec.ofNat 64 x
        let flying (f : Nat) : Bool := s.launches.any fun l => l.fire = f
        let s2 := s.armed.flatMap fun a => [n a.tag, a.ring, n a.nlog, n a.zlog, n a.next, n (a.fly.filter fun p => flying p.2).length]
        let refused (l : Launch) : List (Fin 64) := (List.finRange 64).filter fun j => (l.share j).code ≠ 0
        let s3 := s.launches.flatMap fun l =>
          [n l.fire, l.hdr, n l.collect.val, n ((List.finRange 64).filter fun j => (l.share j).reported).length, n (refused l).length] ++
            (refused l).flatMap fun j => [n j.val, (l.share j).code.setWidth 64]
        let s7 := t.streams.flatMap fun x =>
          [n x.id, n x.txNext, match x.unacked with | r :: _ => r.seq.setWidth 64 | [] => n x.txNext, n x.rxNext, n x.rxNext]
        let waits (st : BankState) : Option Nat := match st with | .waitFault => some 3 | .halted => some 4 | .dormant => some 5 | _ => none
        ∃ s4 s5 s8 s9 : List Word,
          (∀ c ∈ s.clusters, ∀ (i : Fin 8) (code : Nat), waits (c.banks[i.val]).state = some code →
            ∃ pre post, s5 = pre ++ [n (c.id.die.val * 8 + c.id.cluster.val), n i.val, (c.banks[i.val]).trec, n code] ++ post) ∧
          (∀ c ∈ s.clusters, ∀ x ∈ c.shadows, ∀ i : Fin 8, (x.banks[i.val]).state ≠ .free →
            ∃ pre post w, s5 = pre ++ [n (c.id.die.val * 8 + c.id.cluster.val), n i.val, (x.banks[i.val]).trec, w] ++ post ∧ w.getLsbD 3 = true) ∧
          summary t = sec 1 [if s.recovery then 1 else 0, Config.firmwareVersion] ++ sec 2 s2 ++ sec 3 s3 ++ sec 4 s4 ++ sec 5 s5 ++
            sec 6 (s.dies.toList.map fun x => BitVec.ofNat 64 (x.fq.prod + 2 ^ 32 * x.fq.cons)) ++ sec 7 s7 ++ sec 8 s8 ++
            sec 9 s9 ++ sec 10 (asWords (measures s)) ∧ s4.length = 64 * 9 * 4 ∧
          s9.length = 5 ∧ (∀ i, i = 0 ∨ i = 2 ∨ i = 4 → wordAt s9 i = Cells.get s.counts i) ∧
          ∀ k i, 1 ≤ k → k ≤ 6 → i < spareCount k → ∃ pre post, s8 = pre ++ [BitVec.ofNat 64 k, BitVec.ofNat 64 i,
            match s.spareUnit k i with | some u => BitVec.ofNat 64 u | none => 0xFFFFFFFFFFFFFFFF] ++ post) ∧
      (m.flags.getLsbD 2 = true → ∃ (u : State) (r : HostMsg) (rs : List HostMsg), exec .resync s = .next u ∧
        u = { s with streams := u.streams, outbox := s.outbox ++ r :: rs, freeCtr := s.freeCtr + 1 } ∧ r.seq = 0 ∧ r.status = 0 ∧
        (u.stream m.sid).rxNext = 0 ∧ ∀ j, j ≠ m.sid → u.stream j = s.stream j)) ∧
    (Received s m .attest → s.m0.length = 32 → s.m1.length = 32 → s.m2.length = 32 → s.m3.length = 32 → ∃ p : List Byte,
      Answers .attest s s m 0 0 p ∧ p.take 32 = m.body ∧ (p.drop 32).take 128 = s.m0 ++ s.m1 ++ s.m2 ++ s.m3 ∧
      (p.drop 160).take 8 = leBytes s.resets.toNat 8 ∧ (p.drop 168).take 16 = leBytes Config.serial.toNat 16 ∧
      p.drop 184 = leBytes (Config.sign (p.take 184)).toNat 2420 ∧ p.length = 32 + 128 + 8 + 16 + 2420)

/-- Every MGMT request has its effect and its reply: the root base, the heap table, the service clusters, a code generation, a back-map, the fault
queue, a pre-emption, the default TVB, the certificate, the reduction ring, maintenance, which maps an unused spare in and flushes a cache slice that
it replaces, the firmware image, M3 and the encapsulation; each with its refusals (R350, Table 19.4). The model's choices: the numbers that ARG
answers, and STATUS 0x04 for a pre-emption of a cluster that has one under way (log 11); SHA3-256 for M3 (log 13); which spare is taken, that the one
it replaces is unused again, and 0x04 where none is left (log 24). -/
def Obligations.ManagementRequests : Prop :=
  ∀ (s : State) (m : HostMsg),
    let f (hi lo : Nat) : Nat := bits m.arg hi lo
    let d : Fin 64 := Fin.ofNat 64 (f 15 8)
    let held (c : ClusterId) : Prop := (s.clusterAt c).residents ≠ [] ∨ (s.clusterAt c).shadows ≠ []
    (Received s m .mgmtRootBase →
      let b := if m.addr = 0xFFFFFFFFFFFFFFFF then s.rootBase else m.addr.toNat
      Answers .mgmtRootBase s { s with rootBase := b } m 0 (BitVec.ofNat 64 b) []) ∧
    (Received s m .mgmtHeapTable → Answers .mgmtHeapTable s s m 0 (BitVec.ofNat 64 Config.heapTable) []) ∧
    (Received s m .mgmtServiceClusters →
      let mask := m.arg.extractLsb' 16 8
      let general : Prop := ∃ k : Fin 8, mask.getLsbD k.val = true ∧ (s.die d).svcMask.getLsbD k.val = false ∧ (s.clusterAt ⟨d, k⟩).residents ≠ []
      (general → Answers .mgmtServiceClusters s s m 4 0 []) ∧
      (¬general → Answers .mgmtServiceClusters s (s.setDie d { s.die d with svcMask := mask }) m 0 0 [])) ∧
    (Received s m .mgmtCodeGeneration → ∃ t : State, t = { s with codeGen := t.codeGen } ∧
      Answers .mgmtCodeGeneration s t m 0 ((Cells.get s.codeGen (f 23 8) + 1).setWidth 64) [] ∧
      (Cells.wf s.codeGen = true → ∀ j, Cells.get t.codeGen j = if j = f 23 8 then Cells.get s.codeGen j + 1 else Cells.get s.codeGen j)) ∧
    (Received s m .mgmtBackmapRead →
      ((∀ r ∈ (s.die d).residuals, r.key ≠ asWords m.body) → Answers .mgmtBackmapRead s s m 5 0 []) ∧
      ∀ pre r post, (s.die d).residuals = pre ++ r :: post → r.key = asWords m.body → (∀ x ∈ pre, x.key ≠ asWords m.body) →
        Answers .mgmtBackmapRead s s m 0 0 (bytesOfWords (r.stats ++ r.entries.flatten))) ∧
    (Received s m .mgmtFaultQueue →
      let q := (s.die d).fq
      (q.posted ≠ [] → Answers .mgmtFaultQueue s s m 4 0 []) ∧
      (q.posted = [] → s.memOk → ∃ t : State, Answers .mgmtFaultQueue s t m 0 0 [] ∧ t.cl = s.cl ∧
        (t.die d).fq = (if m.addr = 0 then { held := q.held }
          else { base := some m.addr.toNat, log2 := f 23 16, host := m.arg.getLsbD 24, held := q.held }) ∧
        (∀ d', d' ≠ d → t.die d' = s.die d') ∧ t.mem.words (fqBase t d) 8 = List.replicate 8 0)) ∧
    (Received s m .mgmtPreempt →
      let c : ClusterId := ⟨d, Fin.ofNat 8 (f 18 16)⟩
      let x := s.clusterAt c
      (x.preempt ≠ none ∨ shadowFits x = false ∧ (∀ y ∈ x.shadows, y.evictable = false) → Answers .mgmtPreempt s s m 4 0 []) ∧
      (x.preempt = none → shadowFits x = true ∨ (∃ y ∈ x.shadows, y.evictable = true) → ∃ t, exec .mgmtPreempt s = .next t ∧ Took s t m.sid ∧
        t = { s.setCluster { x with preempt := some (if m.arg.getLsbD 24 then some (Fin.ofNat 64 (f 37 32)) else none) } with
          streams := t.streams, preempts := s.preempts ++ [(c, m)] })) ∧
    (Received s m .mgmtDefaultTvb → Answers .mgmtDefaultTvb s { s with defaultTvb := m.addr } m 0 0 []) ∧
    (Received s m .mgmtCertificate → Answers .mgmtCertificate s s m 0 0 ((Config.certificate.drop (8192 * f 15 8)).take 8192)) ∧
    (Received s m .mgmtReductionRing →
      Answers .mgmtReductionRing s { s with redBase := m.addr.toNat, redLog := f 23 16, redGroup := f 31 24, redRank := f 39 32, redCons := 0, red := none }
        m 0 0 []) ∧
    (Received s m .mgmtMaintenance →
      let k := f 15 8
      let u := f 47 16
      let busy : Prop := (k = 1 ∧ ∃ i, held ⟨Fin.ofNat 64 u, i⟩) ∨ (k = 2 ∧ held ⟨Fin.ofNat 64 (u / 8), Fin.ofNat 8 u⟩)
      let free (i : Nat) : Prop := i ∈ sparesFor k u ∧ s.spareUnit k i = none
      (busy ∨ (∀ i, ¬free i) → Answers .mgmtMaintenance s s m 4 0 []) ∧
      (¬busy → (∃ i, free i) → s.memOk → (s.spares.map fun p => (p.1, p.2.1)).Nodup →
        ∃ (t : State) (i : Nat), Answers .mgmtMaintenance s t m 0 0 [] ∧ free i ∧ t.spareUnit k i = some u ∧
          (∀ j, j ≠ i → t.spareUnit k j = if s.spareUnit k j = some u then none else s.spareUnit k j) ∧
          (∀ k' j, k' ≠ k → t.spareUnit k' j = s.spareUnit k' j) ∧ (k ≠ 3 → t = { s with spares := t.spares }) ∧
          (k = 3 → t.cl = s.cl ∧
            let x : Fin 64 := Fin.ofNat 64 (u / 160)
            let inBlock (line : Nat) : Prop := ∃ b ∈ (s.die x).blocks, b.covers line = true
            ∀ line, ((Config.homeSlice line).val = u % 160 ∧ s.lineAt x line ≠ 0 ∧ ¬inBlock line) ∨
                (∃ b ∈ (s.die x).blocks, b.slice.val = u % 160 ∧ b.covers line = true) → ∀ d', t.lineAt d' line = 0))) ∧
    (Received s m .mgmtLoadFirmware → Answers .mgmtLoadFirmware s { s with image := some m.body } m 0 0 []) ∧
    (Received s m .mgmtExtendM3 → Answers .mgmtExtendM3 s { s with m3 := sha3 (s.m3 ++ m.body) } m 0 0 []) ∧
    (Received s m .mgmtEncapsulation →
      Answers .mgmtEncapsulation s { s with etherType := m.arg.extractLsb' 8 16, udpPort := m.arg.extractLsb' 24 16 } m 0 0 [])

/-- TSTEP counts blocks of 4096 cycles, only while the device is aligned: what a read gives follows the cycle, before and after its register has
stepped; a loss of alignment holds it and is counted. A poll takes the next of 64 slots and looks at what waits. Module reset leaves every register as
after reset, the measurements at what the boot ROM found, and main memory but for the device's own registers in it, the stored image, and the count of
resets plus one; the stored image is checked, and a firmware that does not run maps no spare and starts no launch (R20, R259, R346 to R348, R350,
R351). The model's choices: what a poll takes up (log 14), what module reset keeps beyond main memory and what the firmware starts (log 24), SHA3-256
for M1 (log 13), and the hashes of the ROM, of the image that the module comes with and of the fused key (log 12). -/
def Obligations.TimePollsAndModuleReset : Prop :=
  ∀ (s : State),
    (s.aligned = true → s.tstepNow = (s.tstep + (s.now - s.tstepAt) / 4096) % 2 ^ 64) ∧
    (s.aligned = true → s.tstepAt + 4096 ≤ s.now → ∃ t : State,
      exec .tstepIncrement s = .next t ∧ t = { s with tstep := (s.tstep + 1) % 2 ^ 64, tstepAt := s.tstepAt + 4096 } ∧ t.tstepNow = s.tstepNow) ∧
    (s.aligned = false ∨ s.now < s.tstepAt + 4096 → exec .tstepIncrement s = .next s) ∧
    (s.aligned = true → Cells.wf s.counts = true → ∃ t, exec .timeAlignmentLoss s = .next t ∧
      t = { s with aligned := false, tstep := s.tstepNow, counts := t.counts } ∧ t.tstepNow = s.tstepNow ∧
      Cells.get t.counts 4 = Cells.get s.counts 4 + 1) ∧
    (s.aligned = false → exec .timeAlignmentLoss s = .next s ∧ ∃ t, exec .alignedAgain s = .next t ∧ t = { s with aligned := true, tstepAt := t.tstepAt } ∧
      t.now < t.tstepAt + 4096) ∧
    (s.aligned = true → exec .alignedAgain s = .next s) ∧
    (let p := { s with pollSlot := (s.pollSlot + 1) % 64, fires := [] }
     (s.fires = [] → exec .firmwarePollSlot s = .next p) ∧
     ∀ m, s.fires = [m] → (∀ x ∈ s.preempts, x.2.sid ≠ m.sid) →
       (∀ t, performMsg m p = some t → exec .firmwarePollSlot s = .next t) ∧
       (performMsg m p = none → exec .firmwarePollSlot s = .next { p with fires := [m] })) ∧
    let boots : Prop := ∀ x, s.image = some x → Config.signerHash x = Config.fusedKeyHash ∧ Config.imageValid x = true
    ∃ u t : State, exec .moduleReset s = .next t ∧
      (boots → t = (Config.bootLaunches (s.resets + 1).toNat).foldl bootLaunch u) ∧ (¬boots → t = u) ∧
      t.cl = State.reset.cl ∧ t.others = [] ∧
      t.armed = [] ∧ t.streams = [] ∧ t.tstep = 0 ∧ t.cycle = 0 ∧ t.image = s.image ∧ t.resets = s.resets + 1 ∧ u.badWords = s.badWords ∧
      (s.memOk → ∀ x, u.mem.get x = if Config.heapTable ≤ x ∧ x < Config.heapTable + 0x4400 then 0 else s.mem.get x) ∧
      t.m0 = leBytes Config.romHash.toNat 32 ∧
      t.m1 = (match s.image with | none => leBytes Config.factoryHash.toNat 32 | some x => sha3 x) ∧
      t.m2 = leBytes (match s.image with | none => Config.fusedKeyHash | some x => Config.signerHash x).toNat 32 ∧ t.m3 = List.replicate 32 0 ∧
      (t.recovery = true ↔ ¬boots) ∧
      u.lines = [] ∧ u.dies = State.reset.dies ∧ u.launches = [] ∧ (¬boots → t.spares = s.spares)

/-! ### Reductions (R352, R353) -/

/-- REDUCTION_DESCRIPTOR reads the next descriptor that is posted, and its source, in main memory or in a window. REDUCTION_RESULT with the
contributions of the other ranks stores, element by element, the sum in rank order, sets word 7 to 0 and counts down CTARGET; members that differ in
STEP, TYPE or COUNT, and a descriptor or source that cannot be read, give 1 in word 7, and no DST. Integers wrap; an fp32 sum is the exact one rounded
once after each addition (R175, R352, R353). The ring's layout, the contributions as inputs, and what an unreadable word of the ring does are the
model's choice (log 25). -/
def Obligations.ReductionsSumInRankOrder : Prop :=
  (∀ (s : State), s.redBase ≠ 0 → s.red = none → s.softWords = [] →
    let at_ := s.redBase + 64 + 64 * (s.redCons % 2 ^ s.redLog)
    let ds := (List.range 8).map fun i => if s.badAt (at_ + 8 * i) 8 then 0 else s.mem.word (at_ + 8 * i)
    let k := if redType ds = 1 then 8 else 4
    (s.badAt s.redBase 8 = true ∨ (s.mem.word s.redBase).toNat = s.redCons → exec .reductionDescriptor s = .next s) ∧
    (s.badAt s.redBase 8 = false → (s.mem.word s.redBase).toNat ≠ s.redCons → ∃ u es, exec .reductionDescriptor s =
        .next { u with redCons := (s.redCons + 1) % 2 ^ 64, red := some ⟨at_, ds, es⟩ } ∧ u.cl = s.cl ∧
      (s.badAt at_ 56 = true ∨ 2 < redType ds ∨ redCount ds = 0 ∨ 2 ^ 24 < redCount ds ∨ bits (wordAt ds 2) 15 8 ≠ s.redGroup → es = none ∧ u = s) ∧
      ∀ l : Nat → Loc, s.badAt at_ 56 = false → redOk s ds = true →
        (∀ j, j < redCount ds → redPlace s (redAsn ds) (redSrc ds + BitVec.ofNat 64 (j * k)) k false = .ok (s, l j)) →
        u = s ∧ es = some ((List.range (redCount ds)).map fun j => s.readLoc (l j) k))) ∧
  (∀ (s : State) (x : Reduction), s.memOk → s.red = some x →
    let ds := x.desc
    let ends (t : State) (v : Word) : Prop := ∃ u, exec .reductionResult s = .next u ∧ u.red = none ∧ u.cl = t.cl ∧
      (wordAt ds 4 = 0 → u.mem.word (x.at_ + 56) = v ∧ ∀ y, y < x.at_ + 56 ∨ x.at_ + 64 ≤ y → u.mem.get y = t.mem.get y) ∧
      ∀ s2 pa, wordAt ds 4 ≠ 0 → enginePlace { t.homeStore (.mem (x.at_ + 56)) v.toNat 8 with red := none } (redAsn ds) (wordAt ds 4) 64 true true =
        .ok (s2, pa) → u = (s2.homeRun pa 64).countDown 0 pa (wordAt ds 4) (redAsn ds)
    (x.elems = none → ends s 1) ∧
    ∀ es, x.elems = some es →
      let own : Contribution := ⟨s.redRank, wordAt ds 3, BitVec.ofNat 8 (redType ds), BitVec.ofNat 32 (redCount ds), es⟩
      let same (c : Contribution) : Prop := c.step = own.step ∧ c.type = own.type ∧ c.count = own.count ∧ c.elems.length = es.length
      ∀ cs, byRank (own :: s.ev.others) 0 (s.ev.others.length + 1) = some cs →
        ((∃ c ∈ cs, ¬same c) → ends s 1) ∧
        ((∀ c ∈ cs, same c) →
          let k := if redType ds = 1 then 8 else 4
          (∀ e, redStore (redAsn ds) k (redDst ds) (redSum (redType ds) (cs.map Contribution.elems)) s = .error e → ends s 1) ∧
          ∀ t, redStore (redAsn ds) k (redDst ds) (redSum (redType ds) (cs.map Contribution.elems)) s = .ok t → t.memOk → ends t 0)) ∧
  (∀ (c : List Contribution) (n : Nat) (l : List Contribution), byRank c 0 n = some l →
    l.length = n ∧ ∀ j x, l[j]? = some x → x ∈ c ∧ x.rank = j) ∧
  (∀ (type : Nat) (r : List Nat) (rs : List (List Nat)), (∀ x ∈ rs, x.length = r.length) →
    (redSum type (r :: rs)).length = r.length ∧
    ∀ j, j < r.length → (redSum type (r :: rs)).getD j 0 = rs.foldl (fun acc x => redAdd type acc (x.getD j 0)) (r.getD j 0)) ∧
  (∀ x y : Nat, redAdd 0 x y = (x + y) % 2 ^ 32 ∧ redAdd 1 x y = (x + y) % 2 ^ 64) ∧
  ∀ x y : Nat,
    let a := fp32.value x
    let b := fp32.value y
    (a.isNaN = true ∨ b.isNaN = true → redAdd 2 x y = 0x7FC00000) ∧
    (∀ p, a = .inf p → b.isNaN = false → redAdd 2 x y = if b = .inf (!p) then 0x7FC00000 else if p then 0xFF800000 else 0x7F800000) ∧
    (∀ p, b = .inf p → a.isNaN = false → redAdd 2 x y = if a = .inf (!p) then 0x7FC00000 else if p then 0xFF800000 else 0x7F800000) ∧
    ∀ p m e q n k, a = .fin p m e → b = .fin q n k →
      let sum : ℚ := (if p then -1 else 1) * (m * (2 : ℚ) ^ e) + (if q then -1 else 1) * (n * (2 : ℚ) ^ k)
      ∃ (z : Nat) (j : Int), |sum| = z * (2 : ℚ) ^ j ∧
        redAdd 2 x y = min (fp32.roundMag z j).1 0x7F800000 + if sum < 0 ∨ (sum = 0 ∧ p = true ∧ q = true) then 2 ^ 31 else 0

/-! ### Debugging (R355 to R360) -/

/-- A die that observes a change of its debug block goes by the new settings, once its clusters' cycles are judged. One bundle in 2^SLOG is to be
sampled, and makes a record of TYPE 1 while records are made. A trigger judges every cycle: a trace window opens at its start condition, closes at its
stop condition, and opens for no cycle where both hold, and each change makes a record of TYPE 3; a stop trigger leaves the cycle's bank waiting, as
its bundle has ended, with a record of TYPE 8 (R355 to R360). The model's choices are log 33: when settings wait, a cycle with no bundle has no PC, and
of a record in a ring that reaches past main memory nothing but a count is left, which of the two is open. -/
def Obligations.TracesSamplesAndTriggers : Prop :=
  (∀ (s : State) (d : Fin 64), s.ev.c.die = d →
    let ws := s.mem.words (debugBase d) 32
    let inForce : List Word := if (s.die d).tracing.words = [] then List.replicate 32 0 else (s.die d).tracing.words
    let new := ((ws.set 2 (wordAt ws 2 &&& 0xFFFFFFFF00000000)).set 3 0).set 4 0
    let unjudged : Prop := ∃ c ∈ s.clusters, c.id.die = d ∧ (c.evals ≠ [] ∨ c.sample ≠ none)
    (new = inForce ∨ unjudged → exec .debugBlockWrite s = .next s) ∧
    (new ≠ inForce → ¬unjudged → ∃ t, exec .debugBlockWrite s = .next t ∧ t.mem = s.mem ∧ t.cl = s.cl ∧ (∀ i, i < 32 → t.dbg d i = wordAt new i) ∧
      (∀ d', d' ≠ d → t.die d' = s.die d') ∧ ∀ p ∈ (t.die d).tracing.windows, p ∈ (s.die d).tracing.windows)) ∧
  ∀ (s : State), s.memOk → s.ev.c = s.cl.id →
    let c := s.cl
    let d := c.id.die
    let slog := bits (s.dbg d 0) 12 8
    let mine (asn : BitVec 16) : Prop := bits (s.dbg d 0) 63 48 = 0xFFFF ∨ bits (s.dbg d 0) 63 48 = asn.toNat
    let traced (asn : BitVec 16) : Prop := (s.dbg d 0).getLsbD 0 = true ∧ mine asn
    let head (type : Nat) (x : CycleInfo) : List Word :=
      [BitVec.ofNat 64 (type * 2 ^ 56 + d.val * 2 ^ 50 + c.id.cluster.val * 2 ^ 47 + x.bank.val * 2 ^ 44 + 8 * 2 ^ 40 + x.asn.toNat), x.pc, BitVec.ofNat 64 x.cycle]
    (∀ o : OpenBundle,
      let t := s.countIssue o
      let due : Prop := traced (tswAsn o.regs.tsw) ∧ slog ≠ 0 ∧ 2 ^ slog ≤ c.sinceSample + 1
      (¬due → t.cl.sinceSample = c.sinceSample + 1 ∧ t.cl.sample = c.sample) ∧
      (due → t.cl.sinceSample = 0 ∧ ∃ x, t.cl.sample = some (c.clock, x) ∧ x.pc = o.pc ∧ x.asn = tswAsn o.regs.tsw ∧ x.cycle = s.now)) ∧
    (c.sample = none ∨ sampleDue c = false → exec .traceSample s = .next s) ∧
    (∀ n x, c.sample = some (n, x) → sampleDue c = true → ∃ t, exec .traceSample s = .next t ∧ t.cl = { c with sample := none } ∧ t.dies = s.dies ∧
      (s.windowOpen c.id = false ∨ ¬traced x.asn → t.mem = s.mem) ∧
      (s.windowOpen c.id = true → traced x.asn → Traced s t d (head 1 x ++ [x.iters.1, x.iters.2, 0, 0, 0]))) ∧
    (sampleDue c = true ∨ (c.evals = [] ∧ (c.stop = none ∨ c.opn ≠ none)) → exec .triggerEvaluate s = .next s) ∧
    ∀ (x : CycleInfo) (n : Nat) (rest : List (CycleInfo × Nat)), c.evals = (x, n) :: rest → sampleDue c = false → x.note = [] → c.stop = none →
      let c1 := { c with evals := (if n ≤ 1 then [] else [({ x with cycle := x.cycle + 1, cause := none, note := [] }, n - 1)]) ++ rest }
      ((∀ i, i < 4 → s.trigOn d i = false) → exec .triggerEvaluate s = .next { s with cl := c1 }) ∧
      ∀ i, i < 4 → (∀ j, j < 4 → (s.trigOn d j = true ↔ j = i)) → mine x.asn →
        let w := s.trig d i 0
        let lo := (s.trig d i 1).toNat
        let hi := (s.trig d i 2).toNat
        let v := s.trig d i 3
        let start : Prop :=
          if bits w 5 4 = 0 then x.bundle = true ∧ lo ≤ x.pc.toNat ∧ x.pc.toNat ≤ hi
          else if bits w 5 4 = 1 then x.cause = some (BitVec.ofNat 8 (bits w 15 8)) else if bits w 5 4 = 2 then lo ≤ x.cycle else True
        let stop : Prop :=
          if bits w 7 6 = 0 then x.bundle = true ∧ x.pc = v
          else if bits w 7 6 = 1 then x.cause = some (BitVec.ofNat 8 (bits w 23 16)) else if bits w 7 6 = 2 then v.toNat ≤ x.cycle else False
        let wins (t : State) : List (Fin 8 × Nat) := (t.die d).tracing.windows
        let opened : Prop := (c.id.cluster, i) ∈ wins s
        let b := s.bankAt x.bank
        (bits w 2 1 = 0 →
          let change (n : Nat) (open_ : Prop) : Prop := ∃ t, exec .triggerEvaluate s = .next t ∧ t.cl = c1 ∧
            ((c.id.cluster, i) ∈ wins t ↔ open_) ∧ (∀ p, p ≠ (c.id.cluster, i) → (p ∈ wins t ↔ p ∈ wins s)) ∧
            (n = 0 ∨ (s.dbg d 0).getLsbD 0 = false → t.mem = s.mem) ∧
            (n ≠ 0 → (s.dbg d 0).getLsbD 0 = true → Traced s t d (head 3 x ++ [BitVec.ofNat 64 (i * 256 + n), 0, 0, 0, 0]))
          (start → stop → change 3 False) ∧ (start → ¬stop → ¬opened → change 1 True) ∧ (start → ¬stop → opened → change 0 True) ∧
          (¬start → stop → opened → change 2 False) ∧ (¬start → (stop → ¬opened) → change 0 opened)) ∧
        (bits w 2 1 = 1 →
          (¬start → exec .triggerEvaluate s = .next { s with cl := c1 }) ∧
          (start → c.opn ≠ none → exec .triggerEvaluate s = .next { s with cl := { c1 with stop := some x.bank } }) ∧
          (start → c.opn = none → c.run = some x.bank → c.bank.pend = [] → (s.dbg d 0).getLsbD 0 = false →
            ∃ t, exec .triggerEvaluate s = .next t ∧ t.mem = s.mem ∧ WaitsWithRecord s t x.bank .halted 8 0 0 c.bank.pc) ∧
          (start → c.opn = none → c.run ≠ some x.bank → b.state = .ready ∨ b.state = .dormant → (s.dbg d 0).getLsbD 0 = false →
            ∃ t, exec .triggerEvaluate s = .next t ∧ t.mem = s.mem ∧ (t.bankAt x.bank).state = .halted ∧
              ((t.bankAt x.bank).slept = true ↔ b.state = .dormant) ∧ Raised s t d 8 0 b.trec))
end

