-- ==== Sys2Proof/Laws/Cells.lean ====
section
/-!
SUPPORT. Sys2Proof/Laws/Cells.lean: sparse storage: the canonical form as a pairwise order, what each operation reads back, and that each
operation keeps the form.
-/

namespace Sys2Proof.Machine

/-! ### The canonical form -/

/-- The canonical form, said of the whole list: numbers rise strictly and no listed value is 0. -/
theorem Cells.wf_iff {w : Nat} (m : Cells w) :
    Cells.wf m = true ↔ m.Pairwise (fun p q => p.1 < q.1) ∧ ∀ p ∈ m, p.2 ≠ 0 := by
  induction m with
  | nil => simp [Cells.wf]
  | cons p t ih =>
    cases t with
    | nil => simp [Cells.wf]
    | cons q t =>
      obtain ⟨a, v⟩ := p
      obtain ⟨b, u⟩ := q
      simp only [Cells.wf, Bool.and_eq_true, bne_iff_ne, ne_eq, decide_eq_true_eq, ih, List.pairwise_cons, List.mem_cons,
        forall_eq_or_imp]
      constructor
      · rintro ⟨⟨hv, hab⟩, ⟨hb, ht⟩, hu, hz⟩
        exact ⟨⟨⟨hab, fun x hx => lt_trans hab (hb x hx)⟩, hb, ht⟩, hv, hu, hz⟩
      · rintro ⟨⟨⟨hab, _⟩, hb, ht⟩, hv, hu, hz⟩
        exact ⟨⟨hv, hab⟩, ⟨hb, ht⟩, hu, hz⟩

@[simp] theorem Cells.wf_nil {w : Nat} : Cells.wf ([] : Cells w) = true := rfl

theorem Cells.wf_tail {w : Nat} {p : Nat × BitVec w} {t : Cells w} (h : Cells.wf (p :: t) = true) : Cells.wf t = true := by
  rw [Cells.wf_iff] at h ⊢
  exact ⟨(List.pairwise_cons.mp h.1).2, fun q hq => h.2 q (List.mem_cons_of_mem _ hq)⟩

/-- Every number of the tail of a canonical list is above its head's. -/
theorem Cells.wf_lt {w : Nat} {p : Nat × BitVec w} {t : Cells w} (h : Cells.wf (p :: t) = true) : ∀ q ∈ t, p.1 < q.1 :=
  (List.pairwise_cons.mp ((Cells.wf_iff _).mp h).1).1

theorem Cells.wf_cons {w : Nat} {p : Nat × BitVec w} {t : Cells w} (hv : p.2 ≠ 0) (hlt : ∀ q ∈ t, p.1 < q.1)
    (ht : Cells.wf t = true) : Cells.wf (p :: t) = true := by
  rw [Cells.wf_iff] at ht ⊢
  refine ⟨List.pairwise_cons.mpr ⟨hlt, ht.1⟩, ?_⟩
  intro q hq
  rcases List.mem_cons.mp hq with rfl | hq
  · exact hv
  · exact ht.2 q hq

theorem Cells.wf_put {w : Nat} {k : Nat} {v : BitVec w} {t : Cells w} (hlt : ∀ q ∈ t, k < q.1) (ht : Cells.wf t = true) :
    Cells.wf (Cells.put k v t) = true := by
  unfold Cells.put
  split
  · exact ht
  · rename_i hv
    exact Cells.wf_cons hv hlt ht

/-- The numbers of a list after a write: those before it, and the written one. -/
theorem Cells.mem_set {w : Nat} {m : Cells w} {k : Nat} {v : BitVec w} {q : Nat × BitVec w} (h : q ∈ Cells.set m k v) :
    q ∈ m ∨ q.1 = k := by
  induction m with
  | nil =>
    simp only [Cells.set, Cells.put] at h
    split at h
    · simp at h
    · simp only [List.mem_singleton] at h; right; rw [h]
  | cons p t ih =>
    obtain ⟨a, u⟩ := p
    simp only [Cells.set] at h
    split at h
    · simp only [Cells.put] at h
      split at h
      · exact .inl h
      · rcases List.mem_cons.mp h with rfl | h
        · exact .inr rfl
        · exact .inl h
    · split at h
      · simp only [Cells.put] at h
        split at h
        · exact .inl (List.mem_cons_of_mem _ h)
        · rcases List.mem_cons.mp h with rfl | h
          · exact .inr rfl
          · exact .inl (List.mem_cons_of_mem _ h)
      · rcases List.mem_cons.mp h with rfl | h
        · exact .inl (List.mem_cons_self ..)
        · rcases ih h with h | h
          · exact .inl (List.mem_cons_of_mem _ h)
          · exact .inr h

/-- A write keeps the canonical form. -/
theorem Cells.wf_set {w : Nat} {m : Cells w} (h : Cells.wf m = true) (k : Nat) (v : BitVec w) :
    Cells.wf (Cells.set m k v) = true := by
  induction m with
  | nil => exact Cells.wf_put (by simp) rfl
  | cons p t ih =>
    obtain ⟨a, u⟩ := p
    have hlt := Cells.wf_lt h
    have ht := Cells.wf_tail h
    simp only [Cells.set]
    split
    · rename_i hk
      refine Cells.wf_put ?_ h
      intro q hq
      rcases List.mem_cons.mp hq with rfl | hq
      · exact hk
      · exact lt_trans hk (hlt q hq)
    · split
      · rename_i _ hk
        subst hk
        exact Cells.wf_put hlt ht
      · rename_i h1 h2
        refine Cells.wf_cons (((Cells.wf_iff _).mp h).2 _ (List.mem_cons_self ..)) ?_ (ih ht)
        intro q hq
        rcases Cells.mem_set hq with hq | hq
        · exact hlt q hq
        · simp only; omega

theorem Cells.wf_filter {w : Nat} {m : Cells w} (h : Cells.wf m = true) (f : Nat × BitVec w → Bool) :
    Cells.wf (m.filter f : Cells w) = true := by
  rw [Cells.wf_iff] at h ⊢
  exact ⟨h.1.filter _, fun p hp => h.2 p (List.mem_filter.mp hp).1⟩

/-- Clearing a run keeps the canonical form. -/
theorem Cells.wf_clear {w : Nat} {m : Cells w} (h : Cells.wf m = true) (lo hi : Nat) : Cells.wf (Cells.clear m lo hi) = true :=
  Cells.wf_filter h _

theorem Cells.wf_slice {w : Nat} {m : Cells w} (h : Cells.wf m = true) (lo hi : Nat) : Cells.wf (Cells.slice m lo hi) = true :=
  Cells.wf_filter h _

/-- Writing a run keeps the canonical form. -/
theorem Cells.wf_setRun {w : Nat} (vs : List (BitVec w)) : ∀ {m : Cells w}, Cells.wf m = true → ∀ k, Cells.wf (Cells.setRun m k vs) = true := by
  induction vs with
  | nil => intro m h k; exact h
  | cons v vs ih => intro m h k; exact ih (Cells.wf_set h k v) (k + 1)

/-- Cells of a table lie in its range. -/
theorem Cells.mem_tab {w : Nat} (f : Nat → BitVec w) (n : Nat) :
    ∀ (k : Nat) {q : Nat × BitVec w}, q ∈ Cells.tab f k n → k ≤ q.1 ∧ q.1 < k + n := by
  induction n with
  | zero => intro k q h; simp [Cells.tab] at h
  | succ n ih =>
    intro k q h
    simp only [Cells.tab, Cells.put] at h
    split at h
    · have := ih (k + 1) h; omega
    · rcases List.mem_cons.mp h with rfl | h
      · simp
      · have := ih (k + 1) h; omega

theorem Cells.wf_tab {w : Nat} (f : Nat → BitVec w) (n : Nat) : ∀ k, Cells.wf (Cells.tab f k n) = true := by
  induction n with
  | zero => intro k; rfl
  | succ n ih =>
    intro k
    exact Cells.wf_put (fun q hq => by have := Cells.mem_tab f n (k + 1) hq; omega) (ih (k + 1))

/-- Replacing a run by canonical cells that lie in it keeps the canonical form. -/
theorem Cells.wf_replace {w : Nat} {m new : Cells w} {lo hi : Nat} (h : Cells.wf m = true) (hn : Cells.wf new = true)
    (hlh : lo ≤ hi) (hin : ∀ q ∈ new, lo ≤ q.1 ∧ q.1 < hi) : Cells.wf (Cells.replace m lo hi new) = true := by
  rw [Cells.wf_iff] at h hn ⊢
  unfold Cells.replace
  refine ⟨?_, ?_⟩
  · refine List.pairwise_append.mpr ⟨List.pairwise_append.mpr ⟨h.1.filter _, hn.1, ?_⟩, h.1.filter _, ?_⟩
    · intro a ha b hb
      have h1 := (List.mem_filter.mp ha).2
      have h2 := hin b hb
      simp only [decide_eq_true_eq] at h1
      omega
    · intro a ha b hb
      have h1 := (List.mem_filter.mp hb).2
      simp only [decide_eq_true_eq] at h1
      rcases List.mem_append.mp ha with ha | ha
      · have h2 := (List.mem_filter.mp ha).2
        simp only [decide_eq_true_eq] at h2
        omega
      · have h2 := hin a ha
        omega
  · intro p hp
    rcases List.mem_append.mp hp with hp | hp
    · rcases List.mem_append.mp hp with hp | hp
      · exact h.2 p (List.mem_filter.mp hp).1
      · exact hn.2 p hp
    · exact h.2 p (List.mem_filter.mp hp).1

/-! ### Reading back -/

/-- A number below every listed one reads 0. -/
theorem Cells.get_below {w : Nat} {m : Cells w} {k : Nat} (h : ∀ q ∈ m, k < q.1) : Cells.get m k = 0 := by
  induction m with
  | nil => rfl
  | cons p t ih =>
    obtain ⟨a, v⟩ := p
    have ha : k < a := h (a, v) (List.mem_cons_self ..)
    simp only [Cells.get]
    rw [if_neg (by omega)]
    exact ih fun q hq => h q (List.mem_cons_of_mem _ hq)

theorem Cells.get_put {w : Nat} {k : Nat} {v : BitVec w} {t : Cells w} (h : ∀ q ∈ t, k < q.1) (j : Nat) :
    Cells.get (Cells.put k v t) j = if k = j then v else Cells.get t j := by
  unfold Cells.put
  split
  · rename_i hv
    split
    · rename_i hkj
      subst hkj
      rw [Cells.get_below h, hv]
    · rfl
  · rfl

/-- What a write leaves: the value at its number, everything else as before. -/
theorem Cells.get_set {w : Nat} {m : Cells w} (h : Cells.wf m = true) (k : Nat) (v : BitVec w) (j : Nat) :
    Cells.get (Cells.set m k v) j = if k = j then v else Cells.get m j := by
  induction m with
  | nil => exact Cells.get_put (by simp) j
  | cons p t ih =>
    obtain ⟨a, u⟩ := p
    have hlt := Cells.wf_lt h
    have ht := Cells.wf_tail h
    simp only [Cells.set]
    split
    · rename_i hk
      rw [Cells.get_put ?_ j]
      intro q hq
      rcases List.mem_cons.mp hq with rfl | hq
      · exact hk
      · exact lt_trans hk (hlt q hq)
    · split
      · rename_i _ hk
        subst hk
        rw [Cells.get_put hlt j]
        simp only [Cells.get]
        split <;> rfl
      · rename_i h1 h2
        simp only [Cells.get, ih ht]
        split
        · rename_i haj
          rw [if_neg (by omega)]
        · rfl

/-- A number that is not listed reads 0. -/
theorem Cells.get_eq_zero {w : Nat} {m : Cells w} {k : Nat} (h : ∀ q ∈ m, q.1 ≠ k) : Cells.get m k = 0 := by
  induction m with
  | nil => rfl
  | cons p t ih =>
    simp only [Cells.get]
    rw [if_neg (h p (List.mem_cons_self ..))]
    exact ih fun q hq => h q (List.mem_cons_of_mem _ hq)

theorem Cells.get_filter {w : Nat} (f : Nat → Bool) (m : Cells w) (j : Nat) :
    Cells.get (m.filter fun p => f p.1) j = if f j then Cells.get m j else 0 := by
  induction m with
  | nil => simp [Cells.get]
  | cons p t ih =>
    obtain ⟨a, v⟩ := p
    simp only [List.filter_cons]
    split
    · rename_i hf
      simp only [Cells.get, ih]
      by_cases haj : a = j
      · subst haj; simp [hf]
      · simp [haj]
    · rename_i hf
      rw [ih]
      simp only [Cells.get]
      by_cases haj : a = j
      · subst haj; simp [hf]
      · simp [haj]

/-- What clearing a run leaves. -/
theorem Cells.get_clear {w : Nat} (m : Cells w) (lo hi j : Nat) :
    Cells.get (Cells.clear m lo hi) j = if lo ≤ j ∧ j < hi then 0 else Cells.get m j := by
  unfold Cells.clear
  rw [Cells.get_filter (fun a => !(lo ≤ a && a < hi))]
  by_cases h : lo ≤ j ∧ j < hi
  · simp [h.1, h.2]
  · rw [if_neg h]
    have : (!(decide (lo ≤ j) && decide (j < hi))) = true := by
      simp only [Bool.not_eq_true', Bool.and_eq_false_iff, decide_eq_false_iff_not]
      omega
    simp [this]

/-! ### Memory (R5) -/

/-- The write of a byte, as a memory operation. -/
theorem Mem.get_set {m : Mem} (h : Mem.wf m = true) (a : Nat) (b : Byte) (j : Nat) :
    Mem.get (Mem.set m a b) j = if a = j then b else Mem.get m j := Cells.get_set h a b j

theorem Mem.wf_set {m : Mem} (h : Mem.wf m = true) (a : Nat) (b : Byte) : Mem.wf (Mem.set m a b) = true := Cells.wf_set h a b

/-- A store of `n` bytes keeps the canonical form. -/
theorem Mem.wf_write (n : Nat) : ∀ {m : Mem}, Mem.wf m = true → ∀ a x, Mem.wf (Mem.write m a x n) = true := by
  induction n with
  | zero => intro m h a x; exact h
  | succ n ih => intro m h a x; exact ih (Mem.wf_set h a _) (a + 1) (x / 256)

theorem Mem.wf_setWord {m : Mem} (h : Mem.wf m = true) (a : Nat) (v : Word) : Mem.wf (Mem.setWord m a v) = true := Mem.wf_write 8 h a _

theorem Mem.wf_setBytes {m : Mem} (h : Mem.wf m = true) (a : Nat) (bs : List Byte) : Mem.wf (Mem.setBytes m a bs) = true :=
  Cells.wf_setRun bs h a

theorem Mem.wf_setWords (ws : List Word) : ∀ {m : Mem}, Mem.wf m = true → ∀ a, Mem.wf (Mem.setWords m a ws) = true := by
  induction ws with
  | nil => intro m h a; exact h
  | cons v vs ih => intro m h a; exact ih (Mem.wf_setWord h a v) (a + 8)

theorem Mem.wf_clear {m : Mem} (h : Mem.wf m = true) (lo hi : Nat) : Mem.wf (Cells.clear m lo hi) = true := Cells.wf_clear h lo hi

/-- A store leaves every byte outside it alone. -/
theorem Mem.get_write_other (n : Nat) :
    ∀ {m : Mem}, Mem.wf m = true → ∀ (a x j : Nat), (j < a ∨ a + n ≤ j) → Mem.get (Mem.write m a x n) j = Mem.get m j := by
  induction n with
  | zero => intro m _ a x j _; rfl
  | succ n ih =>
    intro m h a x j hj
    simp only [Mem.write]
    rw [ih (Mem.wf_set h a _) (a + 1) (x / 256) j (by omega), Mem.get_set h, if_neg (by omega)]

/-- The bytes that a store writes. -/
theorem Mem.get_write (n : Nat) :
    ∀ {m : Mem}, Mem.wf m = true → ∀ (a x i : Nat), i < n → Mem.get (Mem.write m a x n) (a + i) = BitVec.ofNat 8 (x / 256 ^ i) := by
  induction n with
  | zero => intro m _ a x i hi; omega
  | succ n ih =>
    intro m h a x i hi
    simp only [Mem.write]
    cases i with
    | zero =>
      rw [Mem.get_write_other n (Mem.wf_set h a _) (a + 1) (x / 256) (a + 0) (by omega), Mem.get_set h]
      simp
    | succ i =>
      have := ih (Mem.wf_set h a (BitVec.ofNat 8 x)) (a + 1) (x / 256) i (by omega)
      rw [show a + (i + 1) = a + 1 + i by omega, this, Nat.div_div_eq_div_mul, ← pow_succ']

/-- Reading depends on the bytes read alone. -/
theorem Mem.read_congr (n : Nat) :
    ∀ {m m' : Mem} {a : Nat}, (∀ i, i < n → Mem.get m (a + i) = Mem.get m' (a + i)) → Mem.read m a n = Mem.read m' a n := by
  induction n with
  | zero => intro m m' a _; rfl
  | succ n ih =>
    intro m m' a h
    simp only [Mem.read]
    rw [show Mem.get m a = Mem.get m' a from h 0 (by omega), ih (a := a + 1)]
    intro i hi
    have := h (i + 1) (by omega)
    rwa [show a + (i + 1) = a + 1 + i by omega] at this

/-- A load beside a store reads what stood there. -/
theorem Mem.read_write_other {m : Mem} (h : Mem.wf m = true) (a x n b k : Nat) (hd : b + k ≤ a ∨ a + n ≤ b) :
    Mem.read (Mem.write m a x n) b k = Mem.read m b k :=
  Mem.read_congr k fun i hi => Mem.get_write_other n h a x (b + i) (by omega)

/-- A load of the bytes that a store wrote reads the stored number. -/
theorem Mem.read_write (n : Nat) :
    ∀ {m : Mem}, Mem.wf m = true → ∀ (a x : Nat), Mem.read (Mem.write m a x n) a n = x % 256 ^ n := by
  induction n with
  | zero => intro m _ a x; simp [Mem.read, Nat.mod_one]
  | succ n ih =>
    intro m h a x
    have h1 := Mem.wf_set h a (BitVec.ofNat 8 x)
    simp only [Mem.read, Mem.write]
    rw [Mem.get_write_other n h1 (a + 1) (x / 256) a (by omega), ih h1 (a + 1) (x / 256), Mem.get_set h]
    simp only [if_true, BitVec.toNat_ofNat]
    rw [show (2 : Nat) ^ 8 = 256 by norm_num, pow_succ', Nat.mod_mul]

/-- Empty memory is in canonical form. -/
theorem Mem.wf_nil : Mem.wf [] = true := rfl

/-- A number that is read is below the power of its bytes. -/
theorem Mem.read_lt (n : Nat) : ∀ (m : Mem) (a : Nat), Mem.read m a n < 256 ^ n := by
  induction n with
  | zero => intro m a; simp [Mem.read]
  | succ n ih =>
    intro m a
    have h1 := ih m (a + 1)
    have h2 := (Mem.get m a).isLt
    simp only [Mem.read]
    rw [pow_succ']
    omega

end Sys2Proof.Machine
end

