-- ==== Sys2Proof/Laws/Directory.lean ====
section
/-!
SUPPORT. Sys2Proof/Laws/Directory.lean: what requests to the directory, trace records, corrections of single-bit errors and translations do to the
state: memory and directory stay canonical, and but for TLBs no cluster changes.
-/

namespace Sys2Proof.Machine

/-- From s to t no cluster has changed, no word has become uncorrectable, and what was canonical still is. -/
structure Quiet (s t : State) : Prop where
  cl : t.cl = s.cl
  others : t.others = s.others
  bad : t.badWords ⊆ s.badWords
  mem : Mem.wf s.mem = true → Mem.wf t.mem = true
  lines : Cells.wf s.lines = true → Cells.wf t.lines = true

theorem Quiet.refl (s : State) : Quiet s s := ⟨rfl, rfl, List.Subset.refl _, id, id⟩

theorem Quiet.trans {s t u : State} (h : Quiet s t) (k : Quiet t u) : Quiet s u :=
  ⟨k.cl.trans h.cl, k.others.trans h.others, fun _ x => h.bad (k.bad x), fun x => k.mem (h.mem x), fun x => k.lines (h.lines x)⟩

theorem Quiet.foldl {α : Type} {f : State → α → State} (hf : ∀ s a, Quiet s (f s a)) : ∀ (l : List α) (s : State), Quiet s (l.foldl f s)
  | [], s => Quiet.refl s
  | a :: l, s => (hf s a).trans (Quiet.foldl hf l (f s a))

theorem Quiet.ite {s t u : State} {p : Prop} [Decidable p] (ht : Quiet s t) (hu : Quiet s u) : Quiet s (if p then t else u) := by
  split
  · exact ht
  · exact hu

/-! ### Records -/

theorem coverWords_subset (bad : List Nat) (pa n : Nat) : coverWords bad pa n ⊆ bad := List.filter_subset_self _

theorem State.putBytes_quiet (s : State) (pa x n : Nat) : Quiet s (s.putBytes pa x n) :=
  ⟨rfl, rfl, coverWords_subset .., fun h => Mem.wf_write n h _ _, id⟩

theorem State.homeRun_quiet (s : State) (pa n : Nat) : Quiet s (s.homeRun pa n) :=
  ⟨rfl, rfl, List.Subset.refl _, id, fun h => Cells.wf_clear h _ _⟩

theorem State.countRecord_quiet (s : State) (d : Fin 64) (kept : Bool) : Quiet s (s.countRecord d kept) := by
  unfold State.countRecord
  exact Quiet.ite ((State.putBytes_quiet ..).trans (State.homeRun_quiet ..)) ((State.putBytes_quiet ..).trans (State.homeRun_quiet ..))

theorem State.traceWrite_quiet (s : State) (d : Fin 64) (ws : List Word) : Quiet s (s.traceWrite d ws) := by
  unfold State.traceWrite
  simp only
  split
  · exact State.countRecord_quiet ..
  · split
    · exact Quiet.trans (t := { s with freeCtr := s.freeCtr + 1 }) ⟨rfl, rfl, List.Subset.refl _, id, id⟩ (State.countRecord_quiet ..)
    · refine Quiet.trans (Quiet.trans ?_ (State.homeRun_quiet ..)) (State.countRecord_quiet ..)
      exact ⟨rfl, rfl, coverWords_subset .., fun h => Mem.wf_setWords _ h _, id⟩

theorem State.cohRecord_quiet (s : State) (q : Requester) (line event before after : Nat) : Quiet s (s.cohRecord q line event before after) := by
  unfold State.cohRecord
  simp only
  split
  · exact State.traceWrite_quiet ..
  · exact Quiet.refl s

theorem State.correct_quiet (s : State) (pa n : Nat) : Quiet s (s.correct pa n) := by
  unfold State.correct
  simp only
  split
  · exact Quiet.refl s
  · exact ⟨rfl, rfl, List.Subset.refl _, id, id⟩

/-! ### The directory -/

theorem State.setLine_quiet (s : State) (d : Fin 64) (line st : Nat) : Quiet s (s.setLine d line st) :=
  ⟨rfl, rfl, List.Subset.refl _, id, fun h => Cells.wf_set h _ _⟩

/-- Changing or dropping listed values in place keeps the form. -/
theorem Cells.wf_filterMap {w : Nat} {m : Cells w} (h : Cells.wf m = true) (f : Nat × BitVec w → Option (Nat × BitVec w))
    (hf : ∀ p q, f p = some q → q.1 = p.1 ∧ (p.2 ≠ 0 → q.2 ≠ 0)) : Cells.wf (m.filterMap f) = true := by
  rw [Cells.wf_iff] at h ⊢
  refine ⟨?_, ?_⟩
  · rw [List.pairwise_filterMap]
    refine h.1.imp ?_
    intro p q hpq a ha b hb
    rw [(hf p a ha).1, (hf q b hb).1]
    exact hpq
  · intro q hq
    obtain ⟨p, hp, he⟩ := List.mem_filterMap.mp hq
    exact (hf p q he).2 (h.2 p hp)

theorem State.otherLines_quiet (s : State) (d : Fin 64) (line : Nat) (f : Nat → Nat) : Quiet s (s.otherLines d line f) := by
  refine ⟨rfl, rfl, List.Subset.refl _, id, fun h => Cells.wf_filterMap h _ ?_⟩
  intro p q hq
  simp only at hq
  split at hq
  · split at hq
    · cases hq
    · cases hq
      rename_i hv
      exact ⟨rfl, fun _ => hv⟩
  · cases hq; exact ⟨rfl, id⟩

theorem State.evictLine_quiet (s : State) (d : Fin 64) (line : Nat) : Quiet s (s.evictLine d line) := by
  unfold State.evictLine
  simp only
  split
  · exact Quiet.refl s
  · exact (Quiet.ite (Quiet.refl s) (State.cohRecord_quiet ..)).trans (State.setLine_quiet ..)

theorem State.setDie_quiet (s : State) (d : Fin 64) (x : Die) : Quiet s (s.setDie d x) := ⟨rfl, rfl, List.Subset.refl _, id, id⟩

theorem State.evictBlock_quiet (s : State) (d : Fin 64) (b : Block) : Quiet s (s.evictBlock d b) := by
  unfold State.evictBlock
  exact (Quiet.foldl (fun t i => State.evictLine_quiet t d (b.first + i)) _ s).trans (State.setDie_quiet ..)

theorem State.trimSlice_quiet (s : State) (d : Fin 64) (line n : Nat) : Quiet s (s.trimSlice d line n) := by
  unfold State.trimSlice
  simp only
  split
  · exact Quiet.refl s
  · split
    · exact Quiet.refl s
    · have h : Quiet s { s with freeCtr := s.freeCtr + 1 } := ⟨rfl, rfl, List.Subset.refl _, id, id⟩
      split
      · exact h.trans (State.evictLine_quiet ..)
      · split
        · exact h.trans (State.evictBlock_quiet ..)
        · exact h

theorem State.enterLine_quiet (s : State) (d : Fin 64) (line st : Nat) : Quiet s (s.enterLine d line st) := by
  unfold State.enterLine
  exact (Quiet.ite (Quiet.refl s) (State.trimSlice_quiet ..)).trans (State.setLine_quiet ..)

theorem State.readLine_quiet (s : State) (q : Requester) (line : Nat) : Quiet s (s.readLine q line) := by
  unfold State.readLine
  simp only
  split
  · exact Quiet.refl s
  · exact ((State.otherLines_quiet ..).trans (State.enterLine_quiet ..)).trans (State.cohRecord_quiet ..)

theorem State.leaveBlock_quiet (s : State) (d : Fin 64) (line : Nat) : Quiet s (s.leaveBlock d line) := by
  unfold State.leaveBlock
  exact Quiet.ite ((State.setDie_quiet ..).trans (State.trimSlice_quiet ..)) (Quiet.refl s)

theorem State.ownLine_quiet (s : State) (q : Requester) (line : Nat) : Quiet s (s.ownLine q line) := by
  unfold State.ownLine
  simp only
  refine (State.leaveBlock_quiet s q.c.die line).trans ?_
  split
  · exact Quiet.refl _
  · split
    · exact State.setLine_quiet ..
    · exact ((State.otherLines_quiet ..).trans (State.enterLine_quiet ..)).trans (State.cohRecord_quiet ..)

theorem State.dropCopy_quiet (s : State) (q : Requester) (line : Nat) (drop : Bool) (p : Fin 64 × Nat) : Quiet s (s.dropCopy q line drop p) := by
  unfold State.dropCopy
  simp only
  have h : Quiet s (if p.2 = cleanState p.2 then s else (s.setLine p.1 line (cleanState p.2)).cohRecord q line 3 p.2 (cleanState p.2)) :=
    Quiet.ite (Quiet.refl s) ((State.setLine_quiet ..).trans (State.cohRecord_quiet ..))
  split
  · exact (h.trans (State.setLine_quiet ..)).trans (State.cohRecord_quiet ..)
  · exact h

theorem State.removeCopies_quiet (s : State) (q : Requester) (line : Nat) : Quiet s (s.removeCopies q line) :=
  Quiet.foldl (fun t p => State.dropCopy_quiet t q line true p) _ s

theorem State.homeLine_quiet (s : State) (q : Requester) (line : Nat) : Quiet s (s.homeLine q line) :=
  (State.removeCopies_quiet ..).trans (State.cohRecord_quiet ..)

/-- The lines of a run that is read, and of one that is owned. -/
theorem State.readRun_quiet (s : State) (q : Requester) (pa n : Nat) : Quiet s (s.readRun q pa n) :=
  Quiet.foldl (fun t l => State.readLine_quiet t q l) _ s

theorem State.ownRun_quiet (s : State) (q : Requester) (pa n : Nat) : Quiet s (s.ownRun q pa n) :=
  Quiet.foldl (fun t l => State.ownLine_quiet t q l) _ s

/-! ### Walks and translations -/

theorem readPte_quiet {s s1 : State} {w : Who} {va e : Word} {pa : Nat} (h : readPte s w va pa = .ok (s1, e)) : Quiet s s1 := by
  unfold readPte at h
  split at h
  · cases h
  · split at h
    · cases h
    · cases h
      exact (State.correct_quiet ..).trans (State.cohRecord_quiet ..)

theorem walkFrom_quiet {w : Who} {va : Word} : ∀ {ls : List Nat} {table : Nat} {s s1 : State} {l : Leaf},
    walkFrom w va ls table s = .ok (s1, l) → Quiet s s1
  | [], _, _, _, _, h => by cases h
  | lv :: rest, table, s, s1, l, h => by
    unfold walkFrom at h
    cases hp : readPte s w va (table + 8 * levelIndex va lv) with
    | error e => rw [hp] at h; cases h
    | ok r =>
      obtain ⟨s2, e⟩ := r
      rw [hp] at h
      have q := readPte_quiet hp
      simp only [bind, Except.bind] at h
      split at h
      · cases h
      · split at h
        · cases h
        · split at h
          · split at h
            · cases h
            · cases h; exact q
          · exact q.trans (walkFrom_quiet h)

theorem walk_quiet {s s1 : State} {w : Who} {va : Word} {l : Leaf} (h : walk s w va = .ok (s1, l)) : Quiet s s1 := by
  unfold walk at h
  cases hp : readPte s w va (s.rootBase + 8 * w.asn.toNat) with
  | error e => rw [hp] at h; cases h
  | ok r =>
    obtain ⟨s2, e⟩ := r
    rw [hp] at h
    have q := readPte_quiet hp
    simp only [bind, Except.bind] at h
    split at h
    · cases h
    · split at h
      · cases h
      · exact q.trans (walkFrom_quiet h)

/-- From s to t no word has become uncorrectable, and what was canonical still is. -/
structure Placed (s t : State) : Prop where
  bad : t.badWords ⊆ s.badWords
  mem : Mem.wf s.mem = true → Mem.wf t.mem = true
  lines : Cells.wf s.lines = true → Cells.wf t.lines = true

theorem Placed.refl (s : State) : Placed s s := ⟨List.Subset.refl _, id, id⟩

theorem Placed.trans {s t u : State} (h : Placed s t) (k : Placed t u) : Placed s u :=
  ⟨fun _ x => h.bad (k.bad x), fun x => k.mem (h.mem x), fun x => k.lines (h.lines x)⟩

/-- Where every word can be read, it still can. -/
theorem Quiet.noBad {s t : State} (h : Quiet s t) (k : s.badWords = []) : t.badWords = [] := List.subset_nil.mp (k ▸ h.bad)

theorem Quiet.placed {s t : State} (h : Quiet s t) : Placed s t := ⟨h.bad, h.mem, h.lines⟩

theorem translate_placed {s s1 : State} {w : Who} {va : Word} {l : Leaf} (h : Machine.translate s w va = .ok (s1, l)) : Placed s s1 := by
  unfold Machine.translate at h
  simp only at h
  split at h
  · cases h; exact Placed.refl s
  · split at h
    · cases h; exact ⟨List.Subset.refl _, id, id⟩
    · split at h
      · cases h
      · rename_i hw
        cases h
        have q := walk_quiet hw
        exact ⟨q.bad, q.mem, q.lines⟩

theorem findLeaf_placed {s s1 : State} {w : Who} {va : Word} {l : Leaf} (h : findLeaf s w va = .ok (s1, l)) : Placed s s1 := by
  unfold findLeaf at h
  split at h
  · split at h
    · split at h
      · cases h; exact Placed.refl s
      · cases h
    · cases h
  · exact translate_placed h

theorem State.correctAll_quiet (s : State) (ws : List Nat) : Quiet s (s.correctAll ws) := Quiet.foldl (fun t pa => State.correct_quiet t pa 8) ws s

theorem pinCorrect_quiet (s : State) (u : Use) (l : Leaf) (va : Word) : Quiet s (pinCorrect s u l va) :=
  Quiet.ite (State.correctAll_quiet ..) (Quiet.refl s)

/-- Finding a place. -/
theorem locate_placed {s s1 : State} {w : Who} {u : Use} {va : Word} {n : Nat} {l : Loc} (h : locate s w u va n = .ok (s1, l)) : Placed s s1 := by
  unfold locate at h
  split at h
  · split at h
    · cases h; exact Placed.refl s
    · cases h
  · split at h
    · cases h
    · rename_i hf
      split at h
      · cases h
      · split at h
        · cases h; exact (findLeaf_placed hf).trans (pinCorrect_quiet ..).placed
        · cases h

end Sys2Proof.Machine
end

