-- ==== Sys2Proof/Laws/Blocks.lean ====
section
/-!
SUPPORT. Sys2Proof/Laws/Blocks.lean: what finding a place leaves alone, and what a write of a block, of the blocks of a lodging and a
save do: they keep memory in its canonical form, and they succeed where the TLB holds a writable page over all of it.
-/

namespace Sys2Proof.Machine

/-! ### What blocks keep -/

theorem placeChunks_placed {w : Who} {u : Use} {va : Word} :
    ∀ {cs : List (Nat × Nat)} {s s1 : State} {ps : List (Nat × Nat × Nat)}, placeChunks w u va cs s = .ok (s1, ps) → Placed s s1 := by
  intro cs
  induction cs with
  | nil => intro s s1 ps h; cases h; exact Placed.refl s
  | cons c cs ih =>
    intro s s1 ps h
    obtain ⟨off, n⟩ := c
    simp only [placeChunks] at h
    split at h
    · cases h
    · rename_i hl; cases h; exact locate_placed hl
    · rename_i s2 pa hl
      have k := locate_placed hl
      split at h
      · cases h
      · split at h
        · cases h
        · split at h
          · cases h
          · rename_i hp
            cases h
            have q : Quiet s2 (if u.write then s2 else (s2.correct pa n).readRun (.engine s2.cl.id w.asn) pa n) :=
              Quiet.ite (Quiet.refl s2) ((State.correct_quiet ..).trans (State.readRun_quiet ..))
            exact (k.trans q.placed).trans (ih hp)

/-- Writing doublewords at places keeps the canonical form. -/
theorem Mem.wf_foldl_setWord (f : Nat × Word → Nat) (ws : List (Nat × Word)) :
    ∀ {m : Mem}, Mem.wf m = true → Mem.wf (ws.foldl (fun m x => m.setWord (f x) x.2) m) = true := by
  induction ws with
  | nil => intro m h; exact h
  | cons x ws ih => intro m h; exact ih (Mem.wf_setWord h _ _)

/-- What keeps main memory and the directory canonical. -/
structure Canon (s t : State) : Prop where
  mem : Mem.wf s.mem = true → Mem.wf t.mem = true
  lines : Cells.wf s.lines = true → Cells.wf t.lines = true

theorem Canon.refl (s : State) : Canon s s := ⟨id, id⟩
theorem Canon.trans {s t u : State} (h : Canon s t) (k : Canon t u) : Canon s u := ⟨fun x => k.mem (h.mem x), fun x => k.lines (h.lines x)⟩
theorem Placed.canon {s t : State} (h : Placed s t) : Canon s t := ⟨h.mem, h.lines⟩
theorem Quiet.canon {s t : State} (h : Quiet s t) : Canon s t := ⟨h.mem, h.lines⟩

/-- A write of a block keeps main memory and the directory canonical. -/
theorem blockWrite_canon {s t : State} {w : Who} {va : Word} {len : Nat} {ws : List (Nat × Word)} (h : blockWrite s w va len ws = .ok t) :
    Canon s t := by
  unfold blockWrite at h
  cases hc : chkBlock w va with
  | error e => rw [hc] at h; cases h
  | ok _ =>
    rw [hc] at h
    cases hp : placeChunks w { write := true } va (chunks va.toNat 0 len (len / 65536 + 2)) s with
    | error e => rw [hp] at h; cases h
    | ok r =>
      obtain ⟨s1, ps⟩ := r
      rw [hp] at h
      cases h
      refine (placeChunks_placed hp).canon.trans (Canon.trans ?_
        (Quiet.foldl (f := fun t p => t.ownRun (.engine t.cl.id w.asn) p.2.2 p.2.1) (fun t p => State.ownRun_quiet ..) ps _).canon)
      refine ⟨fun h1 => ?_, id⟩
      generalize s1.mem = m at h1
      clear hp hc
      simp only
      induction ps generalizing m with
      | nil => exact h1
      | cons p ps ih => exact ih _ (Mem.wf_foldl_setWord _ _ (Mem.wf_clear h1 _ _))

/-- So do the blocks of a lodging, whether or not all of them are written. -/
theorem writeBlocks_canon {w : Who} {base : Word} :
    ∀ {bs : List (Nat × Nat × List (Nat × Word))} {s t : State} {c : Option SaveFail}, writeBlocks w base bs s = (t, c) → Canon s t := by
  intro bs
  induction bs with
  | nil => intro s t c h; cases h; exact Canon.refl s
  | cons b bs ih =>
    intro s t c h
    obtain ⟨off, len, ws⟩ := b
    simp only [writeBlocks] at h
    split at h
    · rename_i hw
      exact (blockWrite_canon hw).trans (ih h)
    · cases h; exact Canon.refl s

theorem blockRead_placed {s s1 : State} {w : Who} {va : Word} {len : Nat} {m : Mem} (h : blockRead s w va len = .ok (s1, m)) : Placed s s1 := by
  unfold blockRead at h
  cases hc : chkBlock w va with
  | error e => rw [hc] at h; cases h
  | ok _ =>
    rw [hc] at h
    cases hp : placeChunks w {} va (chunks va.toNat 0 len (len / 65536 + 2)) s with
    | error e => rw [hp] at h; cases h
    | ok r =>
      obtain ⟨s2, ps⟩ := r
      rw [hp] at h
      cases h
      exact placeChunks_placed hp

/-- A save keeps main memory and the directory canonical. -/
theorem saveTask_canon {s t : State} {r : Resident} {reason : Nat} {c : Option SaveFail} (h : saveTask s r reason = (t, c)) : Canon s t := by
  unfold saveTask at h
  simp only at h
  split at h
  · cases h; exact Canon.refl s
  · rename_i hr
    have k := (blockRead_placed hr).canon
    split at h
    · cases h; exact k
    · split at h
      · cases h; exact k
      · exact k.trans (writeBlocks_canon h)

/-! ### Where the TLB holds a page over a block -/

/-- An agent's TLB finds a leaf of ordinary pages that user level may write, and that lies in main memory. -/
structure Covered (s : State) (w : Who) (l : Leaf) (lo hi : Nat) : Prop where
  agent : w.agent = 8
  first : ∃ rest, s.cl.tlb = l :: rest
  asn : l.global = true ∨ l.asn = w.asn
  low : l.base ≤ lo
  high : hi ≤ l.base + l.size
  form : hi ≤ 2 ^ 56
  write : l.write = true
  sup : l.sup = false
  cls : l.cls = 0
  pa : l.pa + l.size ≤ Config.memTop

theorem bits_low {va : Word} (h : va.toNat < 2 ^ 56) : bits va 55 0 = va.toNat := by
  unfold bits
  rw [Nat.pow_zero, Nat.div_one, Nat.mod_eq_of_lt (by simpa using h)]

/-- An access to a covered address succeeds, and changes nothing. -/
theorem locate_covered {s : State} {w : Who} {u : Use} {l : Leaf} {lo hi n : Nat} {va : Word} (h : Covered s w l lo hi)
    (hf : u.fetch = false) (hh : u.href = false) (h1 : lo ≤ va.toNat) (h2 : va.toNat + n ≤ hi) (hn : 0 < n) :
    locate s w u va n = .ok (s, .mem (l.pa + (va.toNat - l.base))) := by
  have := h.low; have := h.high; have := h.form; have := h.pa
  have hb : bits va 55 0 = va.toNat := bits_low (by omega)
  have hw : isWindow va = false := by
    unfold isWindow
    rw [BitVec.getLsbD, Nat.testBit_lt_two_pow (by omega)]
  have hm : l.matches w.asn va = true := by
    unfold Leaf.matches
    rw [hb]
    have := h.asn
    simp only [Bool.and_eq_true, decide_eq_true_eq, Bool.or_eq_true]
    exact ⟨⟨by omega, by omega⟩, this⟩
  obtain ⟨rest, ht⟩ := h.first
  have hp : pinChecked u l = false := by simp [pinChecked, h.cls]
  have hc : chkLeaf s w u l va = .ok () := by
    simp [chkLeaf, h.sup, h.write, h.cls, hf, hh, hp]
  have hl : leafLoc w l va n = .ok (l.pa + (va.toNat - l.base)) := by
    unfold leafLoc
    simp only [hb]
    rw [if_neg (by omega)]
  unfold locate findLeaf lockOf Machine.translate Cluster.tlbOf
  rw [hw, h.agent]
  simp only [Bool.false_eq_true, if_false, Fin.isValue, show ¬((8 : Fin 9).val < 8) by decide, dite_false, ht, List.find?_cons, hm, hc, hl, pinCorrect, hp]

/-- The parts of a block lie in it. -/
theorem mem_chunks {va : Nat} : ∀ {fuel off len : Nat} {c : Nat × Nat}, c ∈ chunks va off len fuel → off ≤ c.1 ∧ c.1 + c.2 ≤ off + len ∧ 0 < c.2 := by
  intro fuel
  induction fuel with
  | zero => intro off len c h; simp [chunks] at h
  | succ fuel ih =>
    intro off len c h
    simp only [chunks] at h
    split at h
    · simp at h
    · rename_i hl
      have hm : (va + off) % 65536 < 65536 := Nat.mod_lt _ (by decide)
      rcases List.mem_cons.mp h with rfl | h
      · simp only; omega
      · have := ih h; omega

theorem word_add {va : Word} {n : Nat} (h : va.toNat + n < 2 ^ 64) : (va + BitVec.ofNat 64 n).toNat = va.toNat + n := by
  rw [BitVec.toNat_add, BitVec.toNat_ofNat]; omega

/-- The page stays covered while no TLB changes. -/
theorem Covered.of_cl {s t : State} {w : Who} {l : Leaf} {lo hi : Nat} (h : Covered s w l lo hi) (e : t.cl = s.cl) : Covered t w l lo hi := by
  obtain ⟨a, b, c, d, e1, f, g, i, j, k⟩ := h
  exact ⟨a, by rw [e]; exact b, c, d, e1, f, g, i, j, k⟩

/-- The parts of a covered block are found. The 8 bytes at the head of each part are covered as well. -/
theorem placeChunks_covered {w : Who} {u : Use} {l : Leaf} {lo hi : Nat} {va : Word} (hf : u.fetch = false) (hh : u.href = false) :
    ∀ {cs : List (Nat × Nat)} {s : State}, Covered s w l lo hi → (u.write = true ∨ s.badWords = []) →
      (∀ c ∈ cs, lo ≤ va.toNat + c.1 ∧ va.toNat + c.1 + c.2 ≤ hi ∧ va.toNat + c.1 + 8 ≤ hi ∧ 0 < c.2) →
      ∃ t ps, placeChunks w u va cs s = .ok (t, ps) ∧ Quiet s t := by
  intro cs
  induction cs with
  | nil => intro s _ _ _; exact ⟨s, [], rfl, Quiet.refl s⟩
  | cons c cs ih =>
    intro s h hg hc
    obtain ⟨off, n⟩ := c
    have h0 := hc _ (List.mem_cons_self ..)
    have := h.form; have := h.high; have := h.low; have := h.pa
    simp only at h0
    have e := word_add (va := va) (n := off) (by omega)
    have hl := locate_covered (va := va + BitVec.ofNat 64 off) (n := 8) h hf hh (by omega) (by omega) (by omega)
    let pa := l.pa + ((va + BitVec.ofNat 64 off).toNat - l.base)
    have q : Quiet s (if u.write then s else (s.correct pa n).readRun (.engine s.cl.id w.asn) pa n) :=
      Quiet.ite (Quiet.refl s) ((State.correct_quiet ..).trans (State.readRun_quiet ..))
    obtain ⟨t, ps, hp, k⟩ := ih (h.of_cl q.cl) (hg.imp id q.noBad) fun d hd => hc d (List.mem_cons_of_mem _ hd)
    refine ⟨t, (off, n, pa) :: ps, ?_, q.trans k⟩
    simp only [placeChunks, hl]
    rw [if_neg (by omega), if_neg, hp]
    simp only [Bool.and_eq_true, not_and, Bool.not_eq_true', Bool.not_eq_true]
    intro hw
    rcases hg with hg | hg
    · simp [hg] at hw
    · simp [State.badAt, hg]

/-- A block is 8 bytes or longer and lies in the covered range. -/
def Inside (lo hi : Nat) (va : Word) (len : Nat) : Prop := lo ≤ va.toNat ∧ va.toNat + len + 8 ≤ hi ∧ va.toNat % 8 = 0

theorem chkBlock_inside {w : Who} {l : Leaf} {s : State} {lo hi len : Nat} {va : Word} (h : Covered s w l lo hi) (hi' : Inside lo hi va len) :
    chkBlock w va = .ok () := by
  have := h.form
  obtain ⟨h1, h2, h3⟩ := hi'
  have hw : isWindow va = false := by
    unfold isWindow
    rw [BitVec.getLsbD, Nat.testBit_lt_two_pow (by omega)]
  unfold chkBlock bits
  rw [Nat.div_eq_of_lt (by omega)]
  simp [h3, hw]

/-- The parts of a block that lies in the covered range are found. -/
theorem chunks_inside {va : Word} {lo hi len : Nat} (hb : Inside lo hi va len) :
    ∀ c ∈ chunks va.toNat 0 len (len / 65536 + 2),
      lo ≤ va.toNat + c.1 ∧ va.toNat + c.1 + c.2 ≤ hi ∧ va.toNat + c.1 + 8 ≤ hi ∧ 0 < c.2 := by
  intro c hc
  have := mem_chunks hc
  obtain ⟨h1, h2, _⟩ := hb
  omega

/-- A write of a covered block succeeds, and changes no cluster. -/
theorem blockWrite_covered {s : State} {w : Who} {l : Leaf} {lo hi len : Nat} {va : Word} {ws : List (Nat × Word)} (h : Covered s w l lo hi)
    (hb : Inside lo hi va len) : ∃ t, blockWrite s w va len ws = .ok t ∧ t.cl = s.cl := by
  obtain ⟨t, ps, hp, q⟩ := placeChunks_covered (u := { write := true }) rfl rfl h (.inl rfl) (chunks_inside hb)
  unfold blockWrite
  rw [chkBlock_inside h hb, hp]
  refine ⟨_, rfl, ?_⟩
  refine Eq.trans (Quiet.foldl (f := fun t p => t.ownRun (.engine t.cl.id w.asn) p.2.2 p.2.1) (fun t p => State.ownRun_quiet ..) ps _).cl ?_
  exact q.cl

theorem blockRead_covered {s : State} {w : Who} {l : Leaf} {lo hi len : Nat} {va : Word} (h : Covered s w l lo hi) (hq : s.badWords = [])
    (hb : Inside lo hi va len) : ∃ t m, blockRead s w va len = .ok (t, m) ∧ t.cl = s.cl ∧ t.badWords = [] := by
  obtain ⟨t, ps, hp, q⟩ := placeChunks_covered (u := {}) rfl rfl h (.inr hq) (chunks_inside hb)
  unfold blockRead
  rw [chkBlock_inside h hb, hp]
  exact ⟨t, _, rfl, q.cl, q.noBad hq⟩

/-- Blocks that are all covered are all written. -/
theorem writeBlocks_covered {w : Who} {base : Word} {l : Leaf} {lo hi : Nat} :
    ∀ {bs : List (Nat × Nat × List (Nat × Word))} {s : State}, Covered s w l lo hi →
      (∀ b ∈ bs, Inside lo hi (base + BitVec.ofNat 64 b.1) b.2.1) → ∃ t, writeBlocks w base bs s = (t, none) := by
  intro bs
  induction bs with
  | nil => intro s _ _; exact ⟨s, rfl⟩
  | cons b bs ih =>
    intro s h hb
    obtain ⟨off, len, ws⟩ := b
    obtain ⟨t, hw, e⟩ := blockWrite_covered (ws := ws) h (hb _ (List.mem_cons_self ..))
    obtain ⟨u, hu⟩ := ih (h.of_cl e) fun d hd => hb d (List.mem_cons_of_mem _ hd)
    exact ⟨u, by simp only [writeBlocks]; rw [hw]; exact hu⟩

/-- A save succeeds whose lodging is covered, large enough and names no extents. -/
theorem saveTask_covered {s s1 : State} {r : Resident} {reason : Nat} {l : Leaf} {lo hi : Nat} {m : Mem}
    (h : Covered s ⟨8, tswAsn r.bank.tsw, tswSup r.bank.tsw⟩ l lo hi)
    (hr : blockRead s ⟨8, tswAsn r.bank.tsw, tswSup r.bank.tsw⟩ (r.bank.frame + 0x40) 128 = .ok (s1, m)) (e : s1.cl = s.cl) (he : readExtents m = [])
    (hz : 0x120000 + 8 * (partSpad r.part + partAcc r.part) * 0x10000 ≤ 2 ^ hdrFrsz (s.header s.cl.id.die r.bank.lrec (tswAsn r.bank.tsw)))
    (hb : ∀ b ∈ [(0, 8, [])] ++ lodgingBlocks r [] reason ++ [(0, 8, [(0, 1)])], Inside lo hi (r.bank.frame + BitVec.ofNat 64 b.1) b.2.1) :
    ∃ t, saveTask s r reason = (t, none) := by
  obtain ⟨t, ht⟩ := writeBlocks_covered (h.of_cl e) hb
  refine ⟨t, ?_⟩
  unfold saveTask
  simp only [hr, he]
  rw [if_neg (by omega), if_neg (by simp)]
  exact ht

/-- Parts that are all covered are all read. -/
theorem readBlocks_covered {w : Who} {base : Word} {l : Leaf} {lo hi : Nat} :
    ∀ {bs : List (Nat × Nat)} {s : State} {m : Mem}, Covered s w l lo hi → s.badWords = [] →
      (∀ b ∈ bs, Inside lo hi (base + BitVec.ofNat 64 b.1) b.2) → ∃ t n, readBlocks w base bs m s = .ok (t, n) ∧ t.cl = s.cl := by
  intro bs
  induction bs with
  | nil => intro s m _ _ _; exact ⟨s, m, rfl, rfl⟩
  | cons b bs ih =>
    intro s m h hq hb
    obtain ⟨off, len⟩ := b
    obtain ⟨t, x, hr, e, q⟩ := blockRead_covered h hq (hb _ (List.mem_cons_self ..))
    obtain ⟨u, n, hu, k⟩ := ih (m := Cells.replace m off (off + len) (x.map fun p => (off + p.1, p.2))) (h.of_cl e) q
      fun d hd => hb d (List.mem_cons_of_mem _ hd)
    exact ⟨u, n, by simp only [readBlocks, hr]; exact hu, k.trans e⟩

theorem tenant_tlb (s : State) (part : BitVec 32) (asn : BitVec 16) :
    (s.tenant part asn).cl.tlb = s.cl.tlb ∧ (s.tenant part asn).badWords = s.badWords := by
  unfold State.tenant State.forgetClear Cluster.tenant State.modCl Cluster.forgetErrs
  simp only
  split <;> split <;> exact ⟨rfl, rfl⟩

/-- A restore succeeds from a lodging that is covered, valid, of the partition word and without extents. -/
theorem restoreTask_covered {s s1 : State} {i : Fin 8} {e : QEntry} {ws h : List Word} {l : Leaf} {lo hi : Nat} {m : Mem}
    (hc : Covered s (engineWho e.asn) l lo hi) (hr : readBlocks (engineWho e.asn) (wordAt ws 1) [(0, 0xC0)] [] s = .ok (s1, m)) (h1 : s1.cl.tlb = s.cl.tlb)
    (hq : s1.badWords = []) (hv : (m.word 0).getLsbD 0 = true) (hw : bits (m.word 8) 7 0 = 1) (hp : BitVec.ofNat 32 (m.word 16).toNat = hdrPart h)
    (he : readExtents (m.shift 0x40 0xC0) = []) (h0 : Inside lo hi (wordAt ws 1) 8)
    (hb : ∀ b ∈ (if (m.word 8).getLsbD 41 then [(0x800, frameLen)] else []) ++
        [(0x6000, 0x1000), (0x7000, 160 * bits (m.word 8) 30 24), (0x9800, 64 * bits (m.word 8) 35 32), (0x10000, 0x8000), (0x20000, 0x100000)],
      Inside lo hi (wordAt ws 1 + BitVec.ofNat 64 b.1) b.2) : ∃ t, restoreTask s i e ws h = (t, none) := by
  have cover {t : State} (k : t.cl.tlb = s.cl.tlb) : Covered t (engineWho e.asn) l lo hi := by
    obtain ⟨a, b, c, d, e1, f, g, i, j, k'⟩ := hc
    exact ⟨a, by rw [k]; exact b, c, d, e1, f, g, i, j, k'⟩
  have k2 := tenant_tlb s1 (hdrPart h) e.asn
  obtain ⟨s3, n, hn, k3⟩ := readBlocks_covered (m := m) (cover (k2.1.trans h1)) (k2.2.trans hq) hb
  obtain ⟨s4, h4, _⟩ := blockWrite_covered (ws := []) (cover ((congrArg Cluster.tlb k3).trans (k2.1.trans h1))) h0
  refine ⟨loadBank s4 i e ws h n, ?_⟩
  unfold restoreTask
  simp only [hr]
  rw [if_neg (by simp [hv, hw, hp])]
  simp only [he, List.any_nil, Bool.false_eq_true, if_false, extentRuns, List.flatMap_nil, List.map_nil, List.append_nil, hn, h4]

end Sys2Proof.Machine
end

