-- ==== Sys2Proof/Laws/PerInstr.lean ====
section
/-!
SUPPORT. Sys2Proof/Laws/PerInstr.lean: statements that are made per instruction. EncodeBound: the major opcode and the operand field of an
encoded instruction fit their places in the slot word (R22).
-/

namespace Sys2Proof.Laws.EncodeBound

/-- The encoder gives an instruction a major of 7 bits and an operand field of 18 bits. -/
def Statement (i : Instr) : Prop := ∀ major x : Nat, encodeOp i = some (major, x) → major < 128 ∧ x < 262144

theorem some_bound (m y : Nat) (hm : m < 128) (hy : y < 262144) (major x : Nat) (h : some (m, y) = some (major, x)) :
    major < 128 ∧ x < 262144 := by
  cases h
  exact ⟨hm, hy⟩

theorem none_bound (major x : Nat) (h : (none : Option (Nat × Nat)) = some (major, x)) : major < 128 ∧ x < 262144 := nomatch h

theorem ext (value : BitVec 16) : Statement (.ext value) := by
  have h_value := value.isLt
  exact some_bound 0x01 (value.toNat) (by decide) (by omega)

theorem ord (scope : Fin 8) (order : Fin 4) : Statement (.ord scope order) := by
  have h_scope := scope.isLt
  have h_order := order.isLt
  exact some_bound 0x02 (scope.val * 8 + order.val) (by decide) (by omega)

theorem br (disp : BitVec 18) : Statement (.br disp) := by
  have h_disp := disp.isLt
  exact some_bound 0x03 (disp.toNat) (by decide) (by omega)

theorem call (disp : BitVec 18) : Statement (.call disp) := by
  have h_disp := disp.isLt
  exact some_bound 0x04 (disp.toNat) (by decide) (by omega)

theorem jalr (d : Fin 32) (a : Fin 32) : Statement (.jalr d a) := by
  have h_d := d.isLt
  have h_a := a.isLt
  exact some_bound 0x05 (d.val * 8192 + a.val * 256 + 1) (by decide) (by omega)

theorem loop (level : Fin 8) (a : Fin 32) (fin : BitVec 10) : Statement (.loop level a fin) := by
  have h_level := level.isLt
  have h_a := a.isLt
  have h_fin := fin.isLt
  exact some_bound 0x06 (level.val * 32768 + a.val * 1024 + fin.toNat) (by decide) (by omega)

theorem loopx (level : Fin 8) : Statement (.loopx level) := by
  have h_level := level.isLt
  exact some_bound 0x07 (level.val * 32768) (by decide) (by omega)

theorem loopc (level : Fin 8) : Statement (.loopc level) := by
  have h_level := level.isLt
  exact some_bound 0x07 (level.val * 32768 + 1) (by decide) (by omega)

theorem wait (ld : Fin 16) (st : Fin 16) (cp : Fin 16) (tl : Fin 16) : Statement (.wait ld st cp tl) := by
  have h_ld := ld.isLt
  have h_st := st.isLt
  have h_cp := cp.isLt
  have h_tl := tl.isLt
  exact some_bound 0x08 (ld.val * 4096 + st.val * 256 + cp.val * 16 + tl.val) (by decide) (by omega)

theorem fence (order : Fin 4) (scope : Fin 8) : Statement (.fence order scope) := by
  have h_order := order.isLt
  have h_scope := scope.isLt
  exact some_bound 0x09 (order.val * 64 + scope.val * 8) (by decide) (by omega)

theorem trap (imm : BitVec 15) : Statement (.trap imm) := by
  have h_imm := imm.isLt
  exact some_bound 0x0B (imm.toNat * 8) (by decide) (by omega)

theorem bkpt (imm : BitVec 15) : Statement (.bkpt imm) := by
  have h_imm := imm.isLt
  exact some_bound 0x0B (imm.toNat * 8 + 2) (by decide) (by omega)

theorem tlbinvPage (a : Fin 32) (b : Fin 32) : Statement (.tlbinvPage a b) := by
  have h_a := a.isLt
  have h_b := b.isLt
  exact some_bound 0x0C (a.val * 8192 + b.val * 256) (by decide) (by omega)

theorem tlblk (a : Fin 32) (idx : Fin 8) (size : Fin 4) : Statement (.tlblk a idx size) := by
  have h_a := a.isLt
  have h_idx := idx.isLt
  have h_size := size.isLt
  exact some_bound 0x0C (a.val * 8192 + idx.val * 32 + size.val * 8 + 2) (by decide) (by omega)

theorem tlbunl (idx : Fin 8) : Statement (.tlbunl idx) := by
  have h_idx := idx.isLt
  exact some_bound 0x0C (idx.val * 32 + 3) (by decide) (by omega)

theorem ldblk (d : Fin 32) (a : Fin 32) (n : Fin 64) : Statement (.ldblk d a n) := by
  have h_d := d.isLt
  have h_a := a.isLt
  have h_n := n.isLt
  exact some_bound 0x0D (d.val * 8192 + a.val * 256 + n.val * 4) (by decide) (by omega)

theorem cflush (a : Fin 32) (n : Fin 64) : Statement (.cflush a n) := by
  have h_a := a.isLt
  have h_n := n.isLt
  exact some_bound 0x0D (a.val * 256 + n.val * 4 + 2) (by decide) (by omega)

theorem cclean (a : Fin 32) (n : Fin 64) : Statement (.cclean a n) := by
  have h_a := a.isLt
  have h_n := n.isLt
  exact some_bound 0x0D (a.val * 256 + n.val * 4 + 3) (by decide) (by omega)

theorem mfs (d : Fin 32) (sr : BitVec 8) : Statement (.mfs d sr) := by
  have h_d := d.isLt
  have h_sr := sr.isLt
  exact some_bound 0x0E (d.val * 8192 + sr.toNat) (by decide) (by omega)

theorem mts (a : Fin 32) (sr : BitVec 8) : Statement (.mts a sr) := by
  have h_a := a.isLt
  have h_sr := sr.isLt
  exact some_bound 0x0F (a.val * 256 + sr.toNat) (by decide) (by omega)

theorem add (d : Fin 32) (a : Fin 32) (b : Fin 32) : Statement (.add d a b) := by
  have h_d := d.isLt
  have h_a := a.isLt
  have h_b := b.isLt
  exact some_bound 0x10 (d.val * 8192 + a.val * 256 + b.val * 8) (by decide) (by omega)

theorem sub (d : Fin 32) (a : Fin 32) (b : Fin 32) : Statement (.sub d a b) := by
  have h_d := d.isLt
  have h_a := a.isLt
  have h_b := b.isLt
  exact some_bound 0x10 (d.val * 8192 + a.val * 256 + b.val * 8 + 1) (by decide) (by omega)

theorem and (d : Fin 32) (a : Fin 32) (b : Fin 32) : Statement (.and d a b) := by
  have h_d := d.isLt
  have h_a := a.isLt
  have h_b := b.isLt
  exact some_bound 0x10 (d.val * 8192 + a.val * 256 + b.val * 8 + 2) (by decide) (by omega)

theorem or (d : Fin 32) (a : Fin 32) (b : Fin 32) : Statement (.or d a b) := by
  have h_d := d.isLt
  have h_a := a.isLt
  have h_b := b.isLt
  exact some_bound 0x10 (d.val * 8192 + a.val * 256 + b.val * 8 + 3) (by decide) (by omega)

theorem xor (d : Fin 32) (a : Fin 32) (b : Fin 32) : Statement (.xor d a b) := by
  have h_d := d.isLt
  have h_a := a.isLt
  have h_b := b.isLt
  exact some_bound 0x10 (d.val * 8192 + a.val * 256 + b.val * 8 + 4) (by decide) (by omega)

theorem sll (d : Fin 32) (a : Fin 32) (b : Fin 32) : Statement (.sll d a b) := by
  have h_d := d.isLt
  have h_a := a.isLt
  have h_b := b.isLt
  exact some_bound 0x10 (d.val * 8192 + a.val * 256 + b.val * 8 + 5) (by decide) (by omega)

theorem srl (d : Fin 32) (a : Fin 32) (b : Fin 32) : Statement (.srl d a b) := by
  have h_d := d.isLt
  have h_a := a.isLt
  have h_b := b.isLt
  exact some_bound 0x10 (d.val * 8192 + a.val * 256 + b.val * 8 + 6) (by decide) (by omega)

theorem sra (d : Fin 32) (a : Fin 32) (b : Fin 32) : Statement (.sra d a b) := by
  have h_d := d.isLt
  have h_a := a.isLt
  have h_b := b.isLt
  exact some_bound 0x10 (d.val * 8192 + a.val * 256 + b.val * 8 + 7) (by decide) (by omega)

theorem mul (d : Fin 32) (a : Fin 32) (b : Fin 32) : Statement (.mul d a b) := by
  have h_d := d.isLt
  have h_a := a.isLt
  have h_b := b.isLt
  exact some_bound 0x11 (d.val * 8192 + a.val * 256 + b.val * 8) (by decide) (by omega)

theorem mulhs (d : Fin 32) (a : Fin 32) (b : Fin 32) : Statement (.mulhs d a b) := by
  have h_d := d.isLt
  have h_a := a.isLt
  have h_b := b.isLt
  exact some_bound 0x11 (d.val * 8192 + a.val * 256 + b.val * 8 + 1) (by decide) (by omega)

theorem mulhu (d : Fin 32) (a : Fin 32) (b : Fin 32) : Statement (.mulhu d a b) := by
  have h_d := d.isLt
  have h_a := a.isLt
  have h_b := b.isLt
  exact some_bound 0x11 (d.val * 8192 + a.val * 256 + b.val * 8 + 2) (by decide) (by omega)

theorem min (d : Fin 32) (a : Fin 32) (b : Fin 32) : Statement (.min d a b) := by
  have h_d := d.isLt
  have h_a := a.isLt
  have h_b := b.isLt
  exact some_bound 0x11 (d.val * 8192 + a.val * 256 + b.val * 8 + 3) (by decide) (by omega)

theorem max (d : Fin 32) (a : Fin 32) (b : Fin 32) : Statement (.max d a b) := by
  have h_d := d.isLt
  have h_a := a.isLt
  have h_b := b.isLt
  exact some_bound 0x11 (d.val * 8192 + a.val * 256 + b.val * 8 + 4) (by decide) (by omega)

theorem minu (d : Fin 32) (a : Fin 32) (b : Fin 32) : Statement (.minu d a b) := by
  have h_d := d.isLt
  have h_a := a.isLt
  have h_b := b.isLt
  exact some_bound 0x11 (d.val * 8192 + a.val * 256 + b.val * 8 + 5) (by decide) (by omega)

theorem maxu (d : Fin 32) (a : Fin 32) (b : Fin 32) : Statement (.maxu d a b) := by
  have h_d := d.isLt
  have h_a := a.isLt
  have h_b := b.isLt
  exact some_bound 0x11 (d.val * 8192 + a.val * 256 + b.val * 8 + 6) (by decide) (by omega)

theorem andn (d : Fin 32) (a : Fin 32) (b : Fin 32) : Statement (.andn d a b) := by
  have h_d := d.isLt
  have h_a := a.isLt
  have h_b := b.isLt
  exact some_bound 0x11 (d.val * 8192 + a.val * 256 + b.val * 8 + 7) (by decide) (by omega)

theorem addw (d : Fin 32) (a : Fin 32) (b : Fin 32) : Statement (.addw d a b) := by
  have h_d := d.isLt
  have h_a := a.isLt
  have h_b := b.isLt
  exact some_bound 0x12 (d.val * 8192 + a.val * 256 + b.val * 8) (by decide) (by omega)

theorem subw (d : Fin 32) (a : Fin 32) (b : Fin 32) : Statement (.subw d a b) := by
  have h_d := d.isLt
  have h_a := a.isLt
  have h_b := b.isLt
  exact some_bound 0x12 (d.val * 8192 + a.val * 256 + b.val * 8 + 1) (by decide) (by omega)

theorem sllw (d : Fin 32) (a : Fin 32) (b : Fin 32) : Statement (.sllw d a b) := by
  have h_d := d.isLt
  have h_a := a.isLt
  have h_b := b.isLt
  exact some_bound 0x12 (d.val * 8192 + a.val * 256 + b.val * 8 + 2) (by decide) (by omega)

theorem srlw (d : Fin 32) (a : Fin 32) (b : Fin 32) : Statement (.srlw d a b) := by
  have h_d := d.isLt
  have h_a := a.isLt
  have h_b := b.isLt
  exact some_bound 0x12 (d.val * 8192 + a.val * 256 + b.val * 8 + 3) (by decide) (by omega)

theorem sraw (d : Fin 32) (a : Fin 32) (b : Fin 32) : Statement (.sraw d a b) := by
  have h_d := d.isLt
  have h_a := a.isLt
  have h_b := b.isLt
  exact some_bound 0x12 (d.val * 8192 + a.val * 256 + b.val * 8 + 4) (by decide) (by omega)

theorem mulw (d : Fin 32) (a : Fin 32) (b : Fin 32) : Statement (.mulw d a b) := by
  have h_d := d.isLt
  have h_a := a.isLt
  have h_b := b.isLt
  exact some_bound 0x12 (d.val * 8192 + a.val * 256 + b.val * 8 + 5) (by decide) (by omega)

theorem rotl (d : Fin 32) (a : Fin 32) (b : Fin 32) : Statement (.rotl d a b) := by
  have h_d := d.isLt
  have h_a := a.isLt
  have h_b := b.isLt
  exact some_bound 0x12 (d.val * 8192 + a.val * 256 + b.val * 8 + 6) (by decide) (by omega)

theorem rotr (d : Fin 32) (a : Fin 32) (b : Fin 32) : Statement (.rotr d a b) := by
  have h_d := d.isLt
  have h_a := a.isLt
  have h_b := b.isLt
  exact some_bound 0x12 (d.val * 8192 + a.val * 256 + b.val * 8 + 7) (by decide) (by omega)

theorem div (d : Fin 32) (a : Fin 32) (b : Fin 32) : Statement (.div d a b) := by
  have h_d := d.isLt
  have h_a := a.isLt
  have h_b := b.isLt
  exact some_bound 0x13 (d.val * 8192 + a.val * 256 + b.val * 8) (by decide) (by omega)

theorem divu (d : Fin 32) (a : Fin 32) (b : Fin 32) : Statement (.divu d a b) := by
  have h_d := d.isLt
  have h_a := a.isLt
  have h_b := b.isLt
  exact some_bound 0x13 (d.val * 8192 + a.val * 256 + b.val * 8 + 1) (by decide) (by omega)

theorem rem (d : Fin 32) (a : Fin 32) (b : Fin 32) : Statement (.rem d a b) := by
  have h_d := d.isLt
  have h_a := a.isLt
  have h_b := b.isLt
  exact some_bound 0x13 (d.val * 8192 + a.val * 256 + b.val * 8 + 2) (by decide) (by omega)

theorem remu (d : Fin 32) (a : Fin 32) (b : Fin 32) : Statement (.remu d a b) := by
  have h_d := d.isLt
  have h_a := a.isLt
  have h_b := b.isLt
  exact some_bound 0x13 (d.val * 8192 + a.val * 256 + b.val * 8 + 3) (by decide) (by omega)

theorem clz (d : Fin 32) (a : Fin 32) : Statement (.clz d a) := by
  have h_d := d.isLt
  have h_a := a.isLt
  exact some_bound 0x13 (d.val * 8192 + a.val * 256 + 4) (by decide) (by omega)

theorem ctz (d : Fin 32) (a : Fin 32) : Statement (.ctz d a) := by
  have h_d := d.isLt
  have h_a := a.isLt
  exact some_bound 0x13 (d.val * 8192 + a.val * 256 + 5) (by decide) (by omega)

theorem popc (d : Fin 32) (a : Fin 32) : Statement (.popc d a) := by
  have h_d := d.isLt
  have h_a := a.isLt
  exact some_bound 0x13 (d.val * 8192 + a.val * 256 + 6) (by decide) (by omega)

theorem brev (d : Fin 32) (a : Fin 32) : Statement (.brev d a) := by
  have h_d := d.isLt
  have h_a := a.isLt
  exact some_bound 0x13 (d.val * 8192 + a.val * 256 + 7) (by decide) (by omega)

theorem addi (d : Fin 32) (a : Fin 32) (imm : BitVec 8) : Statement (.addi d a imm) := by
  have h_d := d.isLt
  have h_a := a.isLt
  have h_imm := imm.isLt
  exact some_bound 0x14 (d.val * 8192 + a.val * 256 + imm.toNat) (by decide) (by omega)

theorem andi (d : Fin 32) (a : Fin 32) (imm : BitVec 8) : Statement (.andi d a imm) := by
  have h_d := d.isLt
  have h_a := a.isLt
  have h_imm := imm.isLt
  exact some_bound 0x15 (d.val * 8192 + a.val * 256 + imm.toNat) (by decide) (by omega)

theorem ori (d : Fin 32) (a : Fin 32) (imm : BitVec 8) : Statement (.ori d a imm) := by
  have h_d := d.isLt
  have h_a := a.isLt
  have h_imm := imm.isLt
  exact some_bound 0x16 (d.val * 8192 + a.val * 256 + imm.toNat) (by decide) (by omega)

theorem xori (d : Fin 32) (a : Fin 32) (imm : BitVec 8) : Statement (.xori d a imm) := by
  have h_d := d.isLt
  have h_a := a.isLt
  have h_imm := imm.isLt
  exact some_bound 0x17 (d.val * 8192 + a.val * 256 + imm.toNat) (by decide) (by omega)

theorem slli (d : Fin 32) (a : Fin 32) (sh : Fin 64) : Statement (.slli d a sh) := by
  have h_d := d.isLt
  have h_a := a.isLt
  have h_sh := sh.isLt
  exact some_bound 0x18 (d.val * 8192 + a.val * 256 + sh.val * 4) (by decide) (by omega)

theorem srli (d : Fin 32) (a : Fin 32) (sh : Fin 64) : Statement (.srli d a sh) := by
  have h_d := d.isLt
  have h_a := a.isLt
  have h_sh := sh.isLt
  exact some_bound 0x18 (d.val * 8192 + a.val * 256 + sh.val * 4 + 1) (by decide) (by omega)

theorem srai (d : Fin 32) (a : Fin 32) (sh : Fin 64) : Statement (.srai d a sh) := by
  have h_d := d.isLt
  have h_a := a.isLt
  have h_sh := sh.isLt
  exact some_bound 0x18 (d.val * 8192 + a.val * 256 + sh.val * 4 + 2) (by decide) (by omega)

theorem movi (d : Fin 32) (imm : BitVec 13) : Statement (.movi d imm) := by
  have h_d := d.isLt
  have h_imm := imm.isLt
  exact some_bound 0x19 (d.val * 8192 + imm.toNat) (by decide) (by omega)

theorem shori (d : Fin 32) (imm : BitVec 13) : Statement (.shori d imm) := by
  have h_d := d.isLt
  have h_imm := imm.isLt
  exact some_bound 0x1A (d.val * 8192 + imm.toNat) (by decide) (by omega)

theorem cmp (d : Fin 32) (a : Fin 32) (b : Fin 32) (cc : Fin 8) : Statement (.cmp d a b cc) := by
  have h_d := d.isLt
  have h_a := a.isLt
  have h_b := b.isLt
  have h_cc := cc.isLt
  exact some_bound 0x1B (d.val * 8192 + a.val * 256 + b.val * 8 + cc.val) (by decide) (by omega)

theorem cmpi (d : Fin 32) (a : Fin 32) (imm : BitVec 5) (cc : Fin 8) : Statement (.cmpi d a imm cc) := by
  have h_d := d.isLt
  have h_a := a.isLt
  have h_imm := imm.isLt
  have h_cc := cc.isLt
  exact some_bound 0x1C (d.val * 8192 + a.val * 256 + imm.toNat * 8 + cc.val) (by decide) (by omega)

theorem pand (d : Fin 32) (a : Fin 32) (b : Fin 32) : Statement (.pand d a b) := by
  have h_d := d.isLt
  have h_a := a.isLt
  have h_b := b.isLt
  exact some_bound 0x1D (d.val * 8192 + a.val * 256 + b.val * 8) (by decide) (by omega)

theorem por (d : Fin 32) (a : Fin 32) (b : Fin 32) : Statement (.por d a b) := by
  have h_d := d.isLt
  have h_a := a.isLt
  have h_b := b.isLt
  exact some_bound 0x1D (d.val * 8192 + a.val * 256 + b.val * 8 + 1) (by decide) (by omega)

theorem pxor (d : Fin 32) (a : Fin 32) (b : Fin 32) : Statement (.pxor d a b) := by
  have h_d := d.isLt
  have h_a := a.isLt
  have h_b := b.isLt
  exact some_bound 0x1D (d.val * 8192 + a.val * 256 + b.val * 8 + 2) (by decide) (by omega)

theorem pandn (d : Fin 32) (a : Fin 32) (b : Fin 32) : Statement (.pandn d a b) := by
  have h_d := d.isLt
  have h_a := a.isLt
  have h_b := b.isLt
  exact some_bound 0x1D (d.val * 8192 + a.val * 256 + b.val * 8 + 3) (by decide) (by omega)

theorem pnot (d : Fin 32) (a : Fin 32) : Statement (.pnot d a) := by
  have h_d := d.isLt
  have h_a := a.isLt
  exact some_bound 0x1D (d.val * 8192 + a.val * 256 + 4) (by decide) (by omega)

theorem pmov (d : Fin 32) (a : Fin 32) : Statement (.pmov d a) := by
  have h_d := d.isLt
  have h_a := a.isLt
  exact some_bound 0x1D (d.val * 8192 + a.val * 256 + 5) (by decide) (by omega)

theorem xput (ad : Fin 16) (sa : Fin 32) : Statement (.xput ad sa) := by
  have h_ad := ad.isLt
  have h_sa := sa.isLt
  exact some_bound 0x1F (ad.val * 16384 + sa.val * 512) (by decide) (by omega)

theorem xget (sd : Fin 32) (ab : Fin 16) (rank : Fin 8) : Statement (.xget sd ab rank) := by
  have h_sd := sd.isLt
  have h_ab := ab.isLt
  have h_rank := rank.isLt
  exact some_bound 0x1F (sd.val * 8192 + ab.val * 512 + rank.val * 64 + 1) (by decide) (by omega)

theorem ld (reg : Fin 32) (a : Fin 32) (size : Fin 4) (disp : BitVec 6) : Statement (.ld reg a size disp) := by
  have h_reg := reg.isLt
  have h_a := a.isLt
  have h_size := size.isLt
  have h_disp := disp.isLt
  exact some_bound 0x28 (reg.val * 8192 + a.val * 256 + size.val * 64 + disp.toNat) (by decide) (by omega)

theorem ldu (reg : Fin 32) (a : Fin 32) (size : Fin 4) (disp : BitVec 6) : Statement (.ldu reg a size disp) := by
  have h_reg := reg.isLt
  have h_a := a.isLt
  have h_size := size.isLt
  have h_disp := disp.isLt
  exact some_bound 0x29 (reg.val * 8192 + a.val * 256 + size.val * 64 + disp.toNat) (by decide) (by omega)

theorem st (reg : Fin 32) (a : Fin 32) (size : Fin 4) (disp : BitVec 6) : Statement (.st reg a size disp) := by
  have h_reg := reg.isLt
  have h_a := a.isLt
  have h_size := size.isLt
  have h_disp := disp.isLt
  exact some_bound 0x2A (reg.val * 8192 + a.val * 256 + size.val * 64 + disp.toNat) (by decide) (by omega)

theorem amo (d : Fin 32) (a : Fin 32) (b : Fin 32) (op : Fin 8) : Statement (.amo d a b op) := by
  have h_d := d.isLt
  have h_a := a.isLt
  have h_b := b.isLt
  have h_op := op.isLt
  exact some_bound 0x2B (d.val * 8192 + a.val * 256 + b.val * 8 + op.val) (by decide) (by omega)

theorem amow (d : Fin 32) (a : Fin 32) (b : Fin 32) (op : Fin 8) : Statement (.amow d a b op) := by
  have h_d := d.isLt
  have h_a := a.isLt
  have h_b := b.isLt
  have h_op := op.isLt
  exact some_bound 0x2C (d.val * 8192 + a.val * 256 + b.val * 8 + op.val) (by decide) (by omega)

theorem hld (reg : Fin 32) (h : Fin 16) (size : Fin 4) (u : Bool) (disp : BitVec 6) : Statement (.hld reg h size u disp) := by
  have h_reg := reg.isLt
  have h_h := h.isLt
  have h_size := size.isLt
  have h_u := Bool.toNat_lt u
  have h_disp := disp.isLt
  exact some_bound 0x2D (reg.val * 8192 + h.val * 512 + size.val * 128 + u.toNat * 64 + disp.toNat) (by decide) (by omega)

theorem hst (reg : Fin 32) (h : Fin 16) (size : Fin 4) (disp : BitVec 6) : Statement (.hst reg h size disp) := by
  have h_reg := reg.isLt
  have h_h := h.isLt
  have h_size := size.isLt
  have h_disp := disp.isLt
  exact some_bound 0x2E (reg.val * 8192 + h.val * 512 + size.val * 128 + disp.toNat) (by decide) (by omega)

theorem ldref (hd : Fin 16) (m : Bool) (base : Fin 32) (disp : BitVec 5) : Statement (.ldref hd m base disp) := by
  have h_hd := hd.isLt
  have h_m := Bool.toNat_lt m
  have h_base := base.isLt
  have h_disp := disp.isLt
  exact some_bound 0x2F (hd.val * 16384 + m.toNat * 8192 + base.val * 256 + disp.toNat * 8) (by decide) (by omega)

theorem stref (hd : Fin 16) (m : Bool) (base : Fin 32) (disp : BitVec 5) : Statement (.stref hd m base disp) := by
  have h_hd := hd.isLt
  have h_m := Bool.toNat_lt m
  have h_base := base.isLt
  have h_disp := disp.isLt
  exact some_bound 0x2F (hd.val * 16384 + m.toNat * 8192 + base.val * 256 + disp.toNat * 8 + 1) (by decide) (by omega)

theorem pin (sd : Fin 32) (hb : Fin 16) : Statement (.pin sd hb) := by
  have h_sd := sd.isLt
  have h_hb := hb.isLt
  exact some_bound 0x2F (sd.val * 8192 + hb.val * 512 + 2) (by decide) (by omega)

theorem unpin (hb : Fin 16) : Statement (.unpin hb) := by
  have h_hb := hb.isLt
  exact some_bound 0x2F (hb.val * 512 + 3) (by decide) (by omega)

theorem hmov (x : Fin 32) (y : Fin 32) (dir : Fin 4) : Statement (.hmov x y dir) := by
  have h_x := x.isLt
  have h_y := y.isLt
  have h_dir := dir.isLt
  exact some_bound 0x2F (x.val * 8192 + y.val * 256 + dir.val * 64 + 4) (by decide) (by omega)

theorem hnull (hd : Fin 16) : Statement (.hnull hd) := by
  have h_hd := hd.isLt
  exact some_bound 0x2F (hd.val * 16384 + 5) (by decide) (by omega)

theorem heq (qd : Fin 32) (ha : Fin 16) (hb : Fin 16) : Statement (.heq qd ha hb) := by
  have h_qd := qd.isLt
  have h_ha := ha.isLt
  have h_hb := hb.isLt
  exact some_bound 0x2F (qd.val * 8192 + ha.val * 512 + hb.val * 32 + 6) (by decide) (by omega)

theorem gld (reg : Fin 16) (ab : Fin 16) (size : Fin 4) (u : Bool) (disp : BitVec 7) : Statement (.gld reg ab size u disp) := by
  have h_reg := reg.isLt
  have h_ab := ab.isLt
  have h_size := size.isLt
  have h_u := Bool.toNat_lt u
  have h_disp := disp.isLt
  exact some_bound 0x30 (reg.val * 16384 + ab.val * 1024 + size.val * 256 + u.toNat * 128 + disp.toNat) (by decide) (by omega)

theorem gst (reg : Fin 16) (ab : Fin 16) (size : Fin 4) (disp : BitVec 7) : Statement (.gst reg ab size disp) := by
  have h_reg := reg.isLt
  have h_ab := ab.isLt
  have h_size := size.isLt
  have h_disp := disp.isLt
  exact some_bound 0x31 (reg.val * 16384 + ab.val * 1024 + size.val * 256 + disp.toNat) (by decide) (by omega)

theorem gamo (ad : Fin 16) (ab : Fin 16) (ac : Fin 16) (w : Bool) (op : Fin 8) : Statement (.gamo ad ab ac w op) := by
  have h_ad := ad.isLt
  have h_ab := ab.isLt
  have h_ac := ac.isLt
  have h_w := Bool.toNat_lt w
  have h_op := op.isLt
  exact some_bound 0x32 (ad.val * 16384 + ab.val * 1024 + ac.val * 64 + w.toNat * 32 + op.val * 4) (by decide) (by omega)

theorem chld (reg : Fin 16) (h : Fin 16) (size : Fin 4) (u : Bool) (disp : BitVec 7) : Statement (.chld reg h size u disp) := by
  have h_reg := reg.isLt
  have h_h := h.isLt
  have h_size := size.isLt
  have h_u := Bool.toNat_lt u
  have h_disp := disp.isLt
  exact some_bound 0x33 (reg.val * 16384 + h.val * 1024 + size.val * 256 + u.toNat * 128 + disp.toNat) (by decide) (by omega)

theorem chst (reg : Fin 16) (h : Fin 16) (size : Fin 4) (disp : BitVec 7) : Statement (.chst reg h size disp) := by
  have h_reg := reg.isLt
  have h_h := h.isLt
  have h_size := size.isLt
  have h_disp := disp.isLt
  exact some_bound 0x34 (reg.val * 16384 + h.val * 1024 + size.val * 256 + disp.toNat) (by decide) (by omega)

theorem cldref (hd : Fin 16) (m : Bool) (base : Fin 16) (disp : BitVec 6) : Statement (.cldref hd m base disp) := by
  have h_hd := hd.isLt
  have h_m := Bool.toNat_lt m
  have h_base := base.isLt
  have h_disp := disp.isLt
  exact some_bound 0x35 (hd.val * 16384 + m.toNat * 8192 + base.val * 512 + disp.toNat * 8) (by decide) (by omega)

theorem cstref (hd : Fin 16) (m : Bool) (base : Fin 16) (disp : BitVec 6) : Statement (.cstref hd m base disp) := by
  have h_hd := hd.isLt
  have h_m := Bool.toNat_lt m
  have h_base := base.isLt
  have h_disp := disp.isLt
  exact some_bound 0x35 (hd.val * 16384 + m.toNat * 8192 + base.val * 512 + disp.toNat * 8 + 1) (by decide) (by omega)

theorem cpin (ad : Fin 16) (hb : Fin 16) : Statement (.cpin ad hb) := by
  have h_ad := ad.isLt
  have h_hb := hb.isLt
  exact some_bound 0x35 (ad.val * 16384 + hb.val * 1024 + 2) (by decide) (by omega)

theorem cunpin (hb : Fin 16) : Statement (.cunpin hb) := by
  have h_hb := hb.isLt
  exact some_bound 0x35 (hb.val * 1024 + 3) (by decide) (by omega)

theorem chmov (x : Fin 16) (y : Fin 16) (dir : Fin 4) : Statement (.chmov x y dir) := by
  have h_x := x.isLt
  have h_y := y.isLt
  have h_dir := dir.isLt
  exact some_bound 0x35 (x.val * 16384 + y.val * 1024 + dir.val * 256 + 4) (by decide) (by omega)

theorem chnull (hd : Fin 16) : Statement (.chnull hd) := by
  have h_hd := hd.isLt
  exact some_bound 0x35 (hd.val * 16384 + 5) (by decide) (by omega)

theorem cheq (ad : Fin 16) (ha : Fin 16) (hb : Fin 16) : Statement (.cheq ad ha hb) := by
  have h_ad := ad.isLt
  have h_ha := ha.isLt
  have h_hb := hb.isLt
  exact some_bound 0x35 (ad.val * 16384 + ha.val * 1024 + hb.val * 64 + 6) (by decide) (by omega)

theorem aaddi (ad : Fin 16) (aa : Fin 16) (imm : BitVec 7) : Statement (.aaddi ad aa imm) := by
  have h_ad := ad.isLt
  have h_aa := aa.isLt
  have h_imm := imm.isLt
  exact some_bound 0x36 (ad.val * 16384 + aa.val * 1024 + imm.toNat * 8) (by decide) (by omega)

theorem aadd (ad : Fin 16) (aa : Fin 16) (ab : Fin 16) : Statement (.aadd ad aa ab) := by
  have h_ad := ad.isLt
  have h_aa := aa.isLt
  have h_ab := ab.isLt
  exact some_bound 0x36 (ad.val * 16384 + aa.val * 1024 + ab.val * 64 + 1) (by decide) (by omega)

theorem ashl (ad : Fin 16) (aa : Fin 16) (sh : Fin 64) : Statement (.ashl ad aa sh) := by
  have h_ad := ad.isLt
  have h_aa := aa.isLt
  have h_sh := sh.isLt
  exact some_bound 0x36 (ad.val * 16384 + aa.val * 1024 + sh.val * 16 + 2) (by decide) (by omega)

theorem amovStride (ad : Fin 16) (aa : Fin 16) (lvl : Fin 8) : Statement (.amovStride ad aa lvl) := by
  have h_ad := ad.isLt
  have h_aa := aa.isLt
  have h_lvl := lvl.isLt
  exact some_bound 0x36 (ad.val * 16384 + aa.val * 1024 + lvl.val * 128 + 3) (by decide) (by omega)

theorem amov (ad : Fin 16) (aa : Fin 16) : Statement (.amov ad aa) := by
  have h_ad := ad.isLt
  have h_aa := aa.isLt
  exact some_bound 0x36 (ad.val * 16384 + aa.val * 1024 + 899) (by decide) (by omega)

theorem arank (ad : Fin 16) : Statement (.arank ad) := by
  have h_ad := ad.isLt
  exact some_bound 0x36 (ad.val * 16384 + 4) (by decide) (by omega)

theorem vld (v : Fin 16) (a : Fin 16) (width : Fin 4) (msel : Fin 4) (disp : BitVec 6) : Statement (.vld v a width msel disp) := by
  have h_v := v.isLt
  have h_a := a.isLt
  have h_width := width.isLt
  have h_msel := msel.isLt
  have h_disp := disp.isLt
  exact some_bound 0x38 (v.val * 16384 + a.val * 1024 + width.val * 256 + msel.val * 64 + disp.toNat) (by decide) (by omega)

theorem vst (v : Fin 16) (a : Fin 16) (width : Fin 4) (msel : Fin 4) (disp : BitVec 6) : Statement (.vst v a width msel disp) := by
  have h_v := v.isLt
  have h_a := a.isLt
  have h_width := width.isLt
  have h_msel := msel.isLt
  have h_disp := disp.isLt
  exact some_bound 0x39 (v.val * 16384 + a.val * 1024 + width.val * 256 + msel.val * 64 + disp.toNat) (by decide) (by omega)

theorem vlds (v : Fin 16) (a : Fin 16) (width : Fin 4) (msel : Fin 4) (stride : BitVec 6) : Statement (.vlds v a width msel stride) := by
  have h_v := v.isLt
  have h_a := a.isLt
  have h_width := width.isLt
  have h_msel := msel.isLt
  have h_stride := stride.isLt
  exact some_bound 0x3A (v.val * 16384 + a.val * 1024 + width.val * 256 + msel.val * 64 + stride.toNat) (by decide) (by omega)

theorem vldx (v : Fin 16) (a : Fin 16) (vi : Fin 16) (width : Fin 4) (msel : Fin 4) (scale : Fin 4) : Statement (.vldx v a vi width msel scale) := by
  have h_v := v.isLt
  have h_a := a.isLt
  have h_vi := vi.isLt
  have h_width := width.isLt
  have h_msel := msel.isLt
  have h_scale := scale.isLt
  exact some_bound 0x3B (v.val * 16384 + a.val * 1024 + vi.val * 64 + width.val * 16 + msel.val * 4 + scale.val) (by decide) (by omega)

theorem vstx (v : Fin 16) (a : Fin 16) (vi : Fin 16) (width : Fin 4) (msel : Fin 4) (scale : Fin 4) : Statement (.vstx v a vi width msel scale) := by
  have h_v := v.isLt
  have h_a := a.isLt
  have h_vi := vi.isLt
  have h_width := width.isLt
  have h_msel := msel.isLt
  have h_scale := scale.isLt
  exact some_bound 0x3C (v.val * 16384 + a.val * 1024 + vi.val * 64 + width.val * 16 + msel.val * 4 + scale.val) (by decide) (by omega)

theorem vldff (v : Fin 16) (a : Fin 16) (width : Fin 4) (msel : Fin 4) (disp : BitVec 6) : Statement (.vldff v a width msel disp) := by
  have h_v := v.isLt
  have h_a := a.isLt
  have h_width := width.isLt
  have h_msel := msel.isLt
  have h_disp := disp.isLt
  exact some_bound 0x3D (v.val * 16384 + a.val * 1024 + width.val * 256 + msel.val * 64 + disp.toNat) (by decide) (by omega)

theorem vldg (v : Fin 16) (a : Fin 16) (vi : Fin 16) (width : Fin 4) (msel : Fin 4) (scale : Bool) : Statement (.vldg v a vi width msel scale) := by
  have h_v := v.isLt
  have h_a := a.isLt
  have h_vi := vi.isLt
  have h_width := width.isLt
  have h_msel := msel.isLt
  have h_scale := Bool.toNat_lt scale
  exact some_bound 0x3E (v.val * 16384 + a.val * 1024 + vi.val * 64 + width.val * 16 + msel.val * 4 + scale.toNat * 2) (by decide) (by omega)

theorem vstg (v : Fin 16) (a : Fin 16) (vi : Fin 16) (width : Fin 4) (msel : Fin 4) (scale : Bool) : Statement (.vstg v a vi width msel scale) := by
  have h_v := v.isLt
  have h_a := a.isLt
  have h_vi := vi.isLt
  have h_width := width.isLt
  have h_msel := msel.isLt
  have h_scale := Bool.toNat_lt scale
  exact some_bound 0x3E (v.val * 16384 + a.val * 1024 + vi.val * 64 + width.val * 16 + msel.val * 4 + scale.toNat * 2 + 1) (by decide) (by omega)

theorem agth (aa : Fin 16) (ad : Fin 16) (vi : Fin 16) (cnt : Fin 64) : Statement (.agth aa ad vi cnt) := by
  have h_aa := aa.isLt
  have h_ad := ad.isLt
  have h_vi := vi.isLt
  have h_cnt := cnt.isLt
  exact some_bound 0x3F (aa.val * 16384 + ad.val * 1024 + vi.val * 64 + cnt.val) (by decide) (by omega)

theorem vsetl (d : Fin 32) (a : Fin 32) (vt : BitVec 5) : Statement (.vsetl d a vt) := by
  have h_d := d.isLt
  have h_a := a.isLt
  have h_vt := vt.isLt
  exact some_bound 0x40 (d.val * 8192 + a.val * 256 + vt.toNat) (by decide) (by omega)

theorem vadd (vd : Fin 16) (va : Fin 16) (vb : Fin 16) (width : Fin 4) (msel : Fin 4) : Statement (.vadd vd va vb width msel) := by
  have h_vd := vd.isLt
  have h_va := va.isLt
  have h_vb := vb.isLt
  have h_width := width.isLt
  have h_msel := msel.isLt
  exact some_bound 0x41 (vd.val * 16384 + va.val * 1024 + vb.val * 64 + width.val * 16 + msel.val * 4) (by decide) (by omega)

theorem vsub (vd : Fin 16) (va : Fin 16) (vb : Fin 16) (width : Fin 4) (msel : Fin 4) : Statement (.vsub vd va vb width msel) := by
  have h_vd := vd.isLt
  have h_va := va.isLt
  have h_vb := vb.isLt
  have h_width := width.isLt
  have h_msel := msel.isLt
  exact some_bound 0x41 (vd.val * 16384 + va.val * 1024 + vb.val * 64 + width.val * 16 + msel.val * 4 + 1) (by decide) (by omega)

theorem vadds (vd : Fin 16) (va : Fin 16) (vb : Fin 16) (width : Fin 4) (msel : Fin 4) : Statement (.vadds vd va vb width msel) := by
  have h_vd := vd.isLt
  have h_va := va.isLt
  have h_vb := vb.isLt
  have h_width := width.isLt
  have h_msel := msel.isLt
  exact some_bound 0x41 (vd.val * 16384 + va.val * 1024 + vb.val * 64 + width.val * 16 + msel.val * 4 + 2) (by decide) (by omega)

theorem vsubs (vd : Fin 16) (va : Fin 16) (vb : Fin 16) (width : Fin 4) (msel : Fin 4) : Statement (.vsubs vd va vb width msel) := by
  have h_vd := vd.isLt
  have h_va := va.isLt
  have h_vb := vb.isLt
  have h_width := width.isLt
  have h_msel := msel.isLt
  exact some_bound 0x41 (vd.val * 16384 + va.val * 1024 + vb.val * 64 + width.val * 16 + msel.val * 4 + 3) (by decide) (by omega)

theorem vaddus (vd : Fin 16) (va : Fin 16) (vb : Fin 16) (width : Fin 4) (msel : Fin 4) : Statement (.vaddus vd va vb width msel) := by
  have h_vd := vd.isLt
  have h_va := va.isLt
  have h_vb := vb.isLt
  have h_width := width.isLt
  have h_msel := msel.isLt
  exact some_bound 0x42 (vd.val * 16384 + va.val * 1024 + vb.val * 64 + width.val * 16 + msel.val * 4) (by decide) (by omega)

theorem vsubus (vd : Fin 16) (va : Fin 16) (vb : Fin 16) (width : Fin 4) (msel : Fin 4) : Statement (.vsubus vd va vb width msel) := by
  have h_vd := vd.isLt
  have h_va := va.isLt
  have h_vb := vb.isLt
  have h_width := width.isLt
  have h_msel := msel.isLt
  exact some_bound 0x42 (vd.val * 16384 + va.val * 1024 + vb.val * 64 + width.val * 16 + msel.val * 4 + 1) (by decide) (by omega)

theorem vavg (vd : Fin 16) (va : Fin 16) (vb : Fin 16) (width : Fin 4) (msel : Fin 4) : Statement (.vavg vd va vb width msel) := by
  have h_vd := vd.isLt
  have h_va := va.isLt
  have h_vb := vb.isLt
  have h_width := width.isLt
  have h_msel := msel.isLt
  exact some_bound 0x42 (vd.val * 16384 + va.val * 1024 + vb.val * 64 + width.val * 16 + msel.val * 4 + 2) (by decide) (by omega)

theorem vabd (vd : Fin 16) (va : Fin 16) (vb : Fin 16) (width : Fin 4) (msel : Fin 4) : Statement (.vabd vd va vb width msel) := by
  have h_vd := vd.isLt
  have h_va := va.isLt
  have h_vb := vb.isLt
  have h_width := width.isLt
  have h_msel := msel.isLt
  exact some_bound 0x42 (vd.val * 16384 + va.val * 1024 + vb.val * 64 + width.val * 16 + msel.val * 4 + 3) (by decide) (by omega)

theorem vmul (vd : Fin 16) (va : Fin 16) (vb : Fin 16) (width : Fin 4) (msel : Fin 4) : Statement (.vmul vd va vb width msel) := by
  have h_vd := vd.isLt
  have h_va := va.isLt
  have h_vb := vb.isLt
  have h_width := width.isLt
  have h_msel := msel.isLt
  exact some_bound 0x43 (vd.val * 16384 + va.val * 1024 + vb.val * 64 + width.val * 16 + msel.val * 4) (by decide) (by omega)

theorem vmulhs (vd : Fin 16) (va : Fin 16) (vb : Fin 16) (width : Fin 4) (msel : Fin 4) : Statement (.vmulhs vd va vb width msel) := by
  have h_vd := vd.isLt
  have h_va := va.isLt
  have h_vb := vb.isLt
  have h_width := width.isLt
  have h_msel := msel.isLt
  exact some_bound 0x43 (vd.val * 16384 + va.val * 1024 + vb.val * 64 + width.val * 16 + msel.val * 4 + 1) (by decide) (by omega)

theorem vmulhu (vd : Fin 16) (va : Fin 16) (vb : Fin 16) (width : Fin 4) (msel : Fin 4) : Statement (.vmulhu vd va vb width msel) := by
  have h_vd := vd.isLt
  have h_va := va.isLt
  have h_vb := vb.isLt
  have h_width := width.isLt
  have h_msel := msel.isLt
  exact some_bound 0x43 (vd.val * 16384 + va.val * 1024 + vb.val * 64 + width.val * 16 + msel.val * 4 + 2) (by decide) (by omega)

theorem vmulq (vd : Fin 16) (va : Fin 16) (vb : Fin 16) (width : Fin 4) (msel : Fin 4) : Statement (.vmulq vd va vb width msel) := by
  have h_vd := vd.isLt
  have h_va := va.isLt
  have h_vb := vb.isLt
  have h_width := width.isLt
  have h_msel := msel.isLt
  exact some_bound 0x43 (vd.val * 16384 + va.val * 1024 + vb.val * 64 + width.val * 16 + msel.val * 4 + 3) (by decide) (by omega)

theorem vmac (vd : Fin 16) (va : Fin 16) (vb : Fin 16) (width : Fin 4) (msel : Fin 4) : Statement (.vmac vd va vb width msel) := by
  have h_vd := vd.isLt
  have h_va := va.isLt
  have h_vb := vb.isLt
  have h_width := width.isLt
  have h_msel := msel.isLt
  exact some_bound 0x44 (vd.val * 16384 + va.val * 1024 + vb.val * 64 + width.val * 16 + msel.val * 4) (by decide) (by omega)

theorem vmsub (vd : Fin 16) (va : Fin 16) (vb : Fin 16) (width : Fin 4) (msel : Fin 4) : Statement (.vmsub vd va vb width msel) := by
  have h_vd := vd.isLt
  have h_va := va.isLt
  have h_vb := vb.isLt
  have h_width := width.isLt
  have h_msel := msel.isLt
  exact some_bound 0x44 (vd.val * 16384 + va.val * 1024 + vb.val * 64 + width.val * 16 + msel.val * 4 + 1) (by decide) (by omega)

theorem vmacs (vd : Fin 16) (va : Fin 16) (vb : Fin 16) (width : Fin 4) (msel : Fin 4) : Statement (.vmacs vd va vb width msel) := by
  have h_vd := vd.isLt
  have h_va := va.isLt
  have h_vb := vb.isLt
  have h_width := width.isLt
  have h_msel := msel.isLt
  exact some_bound 0x44 (vd.val * 16384 + va.val * 1024 + vb.val * 64 + width.val * 16 + msel.val * 4 + 2) (by decide) (by omega)

theorem vdot2 (vd : Fin 16) (va : Fin 16) (vb : Fin 16) (width : Fin 4) (msel : Fin 4) : Statement (.vdot2 vd va vb width msel) := by
  have h_vd := vd.isLt
  have h_va := va.isLt
  have h_vb := vb.isLt
  have h_width := width.isLt
  have h_msel := msel.isLt
  exact some_bound 0x44 (vd.val * 16384 + va.val * 1024 + vb.val * 64 + width.val * 16 + msel.val * 4 + 3) (by decide) (by omega)

theorem vand (vd : Fin 16) (va : Fin 16) (vb : Fin 16) (width : Fin 4) (msel : Fin 4) : Statement (.vand vd va vb width msel) := by
  have h_vd := vd.isLt
  have h_va := va.isLt
  have h_vb := vb.isLt
  have h_width := width.isLt
  have h_msel := msel.isLt
  exact some_bound 0x45 (vd.val * 16384 + va.val * 1024 + vb.val * 64 + width.val * 16 + msel.val * 4) (by decide) (by omega)

theorem vor (vd : Fin 16) (va : Fin 16) (vb : Fin 16) (width : Fin 4) (msel : Fin 4) : Statement (.vor vd va vb width msel) := by
  have h_vd := vd.isLt
  have h_va := va.isLt
  have h_vb := vb.isLt
  have h_width := width.isLt
  have h_msel := msel.isLt
  exact some_bound 0x45 (vd.val * 16384 + va.val * 1024 + vb.val * 64 + width.val * 16 + msel.val * 4 + 1) (by decide) (by omega)

theorem vxor (vd : Fin 16) (va : Fin 16) (vb : Fin 16) (width : Fin 4) (msel : Fin 4) : Statement (.vxor vd va vb width msel) := by
  have h_vd := vd.isLt
  have h_va := va.isLt
  have h_vb := vb.isLt
  have h_width := width.isLt
  have h_msel := msel.isLt
  exact some_bound 0x45 (vd.val * 16384 + va.val * 1024 + vb.val * 64 + width.val * 16 + msel.val * 4 + 2) (by decide) (by omega)

theorem vandn (vd : Fin 16) (va : Fin 16) (vb : Fin 16) (width : Fin 4) (msel : Fin 4) : Statement (.vandn vd va vb width msel) := by
  have h_vd := vd.isLt
  have h_va := va.isLt
  have h_vb := vb.isLt
  have h_width := width.isLt
  have h_msel := msel.isLt
  exact some_bound 0x45 (vd.val * 16384 + va.val * 1024 + vb.val * 64 + width.val * 16 + msel.val * 4 + 3) (by decide) (by omega)

theorem vsll (vd : Fin 16) (va : Fin 16) (vb : Fin 16) (width : Fin 4) (msel : Fin 4) : Statement (.vsll vd va vb width msel) := by
  have h_vd := vd.isLt
  have h_va := va.isLt
  have h_vb := vb.isLt
  have h_width := width.isLt
  have h_msel := msel.isLt
  exact some_bound 0x46 (vd.val * 16384 + va.val * 1024 + vb.val * 64 + width.val * 16 + msel.val * 4) (by decide) (by omega)

theorem vsrl (vd : Fin 16) (va : Fin 16) (vb : Fin 16) (width : Fin 4) (msel : Fin 4) : Statement (.vsrl vd va vb width msel) := by
  have h_vd := vd.isLt
  have h_va := va.isLt
  have h_vb := vb.isLt
  have h_width := width.isLt
  have h_msel := msel.isLt
  exact some_bound 0x46 (vd.val * 16384 + va.val * 1024 + vb.val * 64 + width.val * 16 + msel.val * 4 + 1) (by decide) (by omega)

theorem vsra (vd : Fin 16) (va : Fin 16) (vb : Fin 16) (width : Fin 4) (msel : Fin 4) : Statement (.vsra vd va vb width msel) := by
  have h_vd := vd.isLt
  have h_va := va.isLt
  have h_vb := vb.isLt
  have h_width := width.isLt
  have h_msel := msel.isLt
  exact some_bound 0x46 (vd.val * 16384 + va.val * 1024 + vb.val * 64 + width.val * 16 + msel.val * 4 + 2) (by decide) (by omega)

theorem vrot (vd : Fin 16) (va : Fin 16) (vb : Fin 16) (width : Fin 4) (msel : Fin 4) : Statement (.vrot vd va vb width msel) := by
  have h_vd := vd.isLt
  have h_va := va.isLt
  have h_vb := vb.isLt
  have h_width := width.isLt
  have h_msel := msel.isLt
  exact some_bound 0x46 (vd.val * 16384 + va.val * 1024 + vb.val * 64 + width.val * 16 + msel.val * 4 + 3) (by decide) (by omega)

theorem vslli (vd : Fin 16) (va : Fin 16) (imm : Fin 16) (width : Fin 4) (msel : Fin 4) : Statement (.vslli vd va imm width msel) := by
  have h_vd := vd.isLt
  have h_va := va.isLt
  have h_imm := imm.isLt
  have h_width := width.isLt
  have h_msel := msel.isLt
  exact some_bound 0x47 (vd.val * 16384 + va.val * 1024 + imm.val * 64 + width.val * 16 + msel.val * 4) (by decide) (by omega)

theorem vsrli (vd : Fin 16) (va : Fin 16) (imm : Fin 16) (width : Fin 4) (msel : Fin 4) : Statement (.vsrli vd va imm width msel) := by
  have h_vd := vd.isLt
  have h_va := va.isLt
  have h_imm := imm.isLt
  have h_width := width.isLt
  have h_msel := msel.isLt
  exact some_bound 0x47 (vd.val * 16384 + va.val * 1024 + imm.val * 64 + width.val * 16 + msel.val * 4 + 1) (by decide) (by omega)

theorem vsrai (vd : Fin 16) (va : Fin 16) (imm : Fin 16) (width : Fin 4) (msel : Fin 4) : Statement (.vsrai vd va imm width msel) := by
  have h_vd := vd.isLt
  have h_va := va.isLt
  have h_imm := imm.isLt
  have h_width := width.isLt
  have h_msel := msel.isLt
  exact some_bound 0x47 (vd.val * 16384 + va.val * 1024 + imm.val * 64 + width.val * 16 + msel.val * 4 + 2) (by decide) (by omega)

theorem vsrar (vd : Fin 16) (va : Fin 16) (imm : Fin 16) (width : Fin 4) (msel : Fin 4) : Statement (.vsrar vd va imm width msel) := by
  have h_vd := vd.isLt
  have h_va := va.isLt
  have h_imm := imm.isLt
  have h_width := width.isLt
  have h_msel := msel.isLt
  exact some_bound 0x47 (vd.val * 16384 + va.val * 1024 + imm.val * 64 + width.val * 16 + msel.val * 4 + 3) (by decide) (by omega)

theorem vmin (vd : Fin 16) (va : Fin 16) (vb : Fin 16) (width : Fin 4) (msel : Fin 4) : Statement (.vmin vd va vb width msel) := by
  have h_vd := vd.isLt
  have h_va := va.isLt
  have h_vb := vb.isLt
  have h_width := width.isLt
  have h_msel := msel.isLt
  exact some_bound 0x48 (vd.val * 16384 + va.val * 1024 + vb.val * 64 + width.val * 16 + msel.val * 4) (by decide) (by omega)

theorem vmax (vd : Fin 16) (va : Fin 16) (vb : Fin 16) (width : Fin 4) (msel : Fin 4) : Statement (.vmax vd va vb width msel) := by
  have h_vd := vd.isLt
  have h_va := va.isLt
  have h_vb := vb.isLt
  have h_width := width.isLt
  have h_msel := msel.isLt
  exact some_bound 0x48 (vd.val * 16384 + va.val * 1024 + vb.val * 64 + width.val * 16 + msel.val * 4 + 1) (by decide) (by omega)

theorem vminu (vd : Fin 16) (va : Fin 16) (vb : Fin 16) (width : Fin 4) (msel : Fin 4) : Statement (.vminu vd va vb width msel) := by
  have h_vd := vd.isLt
  have h_va := va.isLt
  have h_vb := vb.isLt
  have h_width := width.isLt
  have h_msel := msel.isLt
  exact some_bound 0x48 (vd.val * 16384 + va.val * 1024 + vb.val * 64 + width.val * 16 + msel.val * 4 + 2) (by decide) (by omega)

theorem vmaxu (vd : Fin 16) (va : Fin 16) (vb : Fin 16) (width : Fin 4) (msel : Fin 4) : Statement (.vmaxu vd va vb width msel) := by
  have h_vd := vd.isLt
  have h_va := va.isLt
  have h_vb := vb.isLt
  have h_width := width.isLt
  have h_msel := msel.isLt
  exact some_bound 0x48 (vd.val * 16384 + va.val * 1024 + vb.val * 64 + width.val * 16 + msel.val * 4 + 3) (by decide) (by omega)

theorem vceq (vd : Fin 16) (va : Fin 16) (vb : Fin 16) (width : Fin 4) (msel : Fin 4) : Statement (.vceq vd va vb width msel) := by
  have h_vd := vd.isLt
  have h_va := va.isLt
  have h_vb := vb.isLt
  have h_width := width.isLt
  have h_msel := msel.isLt
  exact some_bound 0x49 (vd.val * 16384 + va.val * 1024 + vb.val * 64 + width.val * 16 + msel.val * 4) (by decide) (by omega)

theorem vclt (vd : Fin 16) (va : Fin 16) (vb : Fin 16) (width : Fin 4) (msel : Fin 4) : Statement (.vclt vd va vb width msel) := by
  have h_vd := vd.isLt
  have h_va := va.isLt
  have h_vb := vb.isLt
  have h_width := width.isLt
  have h_msel := msel.isLt
  exact some_bound 0x49 (vd.val * 16384 + va.val * 1024 + vb.val * 64 + width.val * 16 + msel.val * 4 + 1) (by decide) (by omega)

theorem vcltu (vd : Fin 16) (va : Fin 16) (vb : Fin 16) (width : Fin 4) (msel : Fin 4) : Statement (.vcltu vd va vb width msel) := by
  have h_vd := vd.isLt
  have h_va := va.isLt
  have h_vb := vb.isLt
  have h_width := width.isLt
  have h_msel := msel.isLt
  exact some_bound 0x49 (vd.val * 16384 + va.val * 1024 + vb.val * 64 + width.val * 16 + msel.val * 4 + 2) (by decide) (by omega)

theorem vcle (vd : Fin 16) (va : Fin 16) (vb : Fin 16) (width : Fin 4) (msel : Fin 4) : Statement (.vcle vd va vb width msel) := by
  have h_vd := vd.isLt
  have h_va := va.isLt
  have h_vb := vb.isLt
  have h_width := width.isLt
  have h_msel := msel.isLt
  exact some_bound 0x49 (vd.val * 16384 + va.val * 1024 + vb.val * 64 + width.val * 16 + msel.val * 4 + 3) (by decide) (by omega)

theorem vfadd (vd : Fin 16) (va : Fin 16) (vb : Fin 16) (width : Fin 4) (msel : Fin 4) : Statement (.vfadd vd va vb width msel) := by
  have h_vd := vd.isLt
  have h_va := va.isLt
  have h_vb := vb.isLt
  have h_width := width.isLt
  have h_msel := msel.isLt
  exact some_bound 0x4A (vd.val * 16384 + va.val * 1024 + vb.val * 64 + width.val * 16 + msel.val * 4) (by decide) (by omega)

theorem vfsub (vd : Fin 16) (va : Fin 16) (vb : Fin 16) (width : Fin 4) (msel : Fin 4) : Statement (.vfsub vd va vb width msel) := by
  have h_vd := vd.isLt
  have h_va := va.isLt
  have h_vb := vb.isLt
  have h_width := width.isLt
  have h_msel := msel.isLt
  exact some_bound 0x4A (vd.val * 16384 + va.val * 1024 + vb.val * 64 + width.val * 16 + msel.val * 4 + 1) (by decide) (by omega)

theorem vfmin (vd : Fin 16) (va : Fin 16) (vb : Fin 16) (width : Fin 4) (msel : Fin 4) : Statement (.vfmin vd va vb width msel) := by
  have h_vd := vd.isLt
  have h_va := va.isLt
  have h_vb := vb.isLt
  have h_width := width.isLt
  have h_msel := msel.isLt
  exact some_bound 0x4A (vd.val * 16384 + va.val * 1024 + vb.val * 64 + width.val * 16 + msel.val * 4 + 2) (by decide) (by omega)

theorem vfmax (vd : Fin 16) (va : Fin 16) (vb : Fin 16) (width : Fin 4) (msel : Fin 4) : Statement (.vfmax vd va vb width msel) := by
  have h_vd := vd.isLt
  have h_va := va.isLt
  have h_vb := vb.isLt
  have h_width := width.isLt
  have h_msel := msel.isLt
  exact some_bound 0x4A (vd.val * 16384 + va.val * 1024 + vb.val * 64 + width.val * 16 + msel.val * 4 + 3) (by decide) (by omega)

theorem vfmul (vd : Fin 16) (va : Fin 16) (vb : Fin 16) (width : Fin 4) (msel : Fin 4) : Statement (.vfmul vd va vb width msel) := by
  have h_vd := vd.isLt
  have h_va := va.isLt
  have h_vb := vb.isLt
  have h_width := width.isLt
  have h_msel := msel.isLt
  exact some_bound 0x4B (vd.val * 16384 + va.val * 1024 + vb.val * 64 + width.val * 16 + msel.val * 4) (by decide) (by omega)

theorem vfma (vd : Fin 16) (va : Fin 16) (vb : Fin 16) (width : Fin 4) (msel : Fin 4) : Statement (.vfma vd va vb width msel) := by
  have h_vd := vd.isLt
  have h_va := va.isLt
  have h_vb := vb.isLt
  have h_width := width.isLt
  have h_msel := msel.isLt
  exact some_bound 0x4B (vd.val * 16384 + va.val * 1024 + vb.val * 64 + width.val * 16 + msel.val * 4 + 1) (by decide) (by omega)

theorem vfms (vd : Fin 16) (va : Fin 16) (vb : Fin 16) (width : Fin 4) (msel : Fin 4) : Statement (.vfms vd va vb width msel) := by
  have h_vd := vd.isLt
  have h_va := va.isLt
  have h_vb := vb.isLt
  have h_width := width.isLt
  have h_msel := msel.isLt
  exact some_bound 0x4B (vd.val * 16384 + va.val * 1024 + vb.val * 64 + width.val * 16 + msel.val * 4 + 2) (by decide) (by omega)

theorem vfnma (vd : Fin 16) (va : Fin 16) (vb : Fin 16) (width : Fin 4) (msel : Fin 4) : Statement (.vfnma vd va vb width msel) := by
  have h_vd := vd.isLt
  have h_va := va.isLt
  have h_vb := vb.isLt
  have h_width := width.isLt
  have h_msel := msel.isLt
  exact some_bound 0x4B (vd.val * 16384 + va.val * 1024 + vb.val * 64 + width.val * 16 + msel.val * 4 + 3) (by decide) (by omega)

theorem vfeq (vd : Fin 16) (va : Fin 16) (vb : Fin 16) (width : Fin 4) (msel : Fin 4) : Statement (.vfeq vd va vb width msel) := by
  have h_vd := vd.isLt
  have h_va := va.isLt
  have h_vb := vb.isLt
  have h_width := width.isLt
  have h_msel := msel.isLt
  exact some_bound 0x4C (vd.val * 16384 + va.val * 1024 + vb.val * 64 + width.val * 16 + msel.val * 4) (by decide) (by omega)

theorem vflt (vd : Fin 16) (va : Fin 16) (vb : Fin 16) (width : Fin 4) (msel : Fin 4) : Statement (.vflt vd va vb width msel) := by
  have h_vd := vd.isLt
  have h_va := va.isLt
  have h_vb := vb.isLt
  have h_width := width.isLt
  have h_msel := msel.isLt
  exact some_bound 0x4C (vd.val * 16384 + va.val * 1024 + vb.val * 64 + width.val * 16 + msel.val * 4 + 1) (by decide) (by omega)

theorem vfle (vd : Fin 16) (va : Fin 16) (vb : Fin 16) (width : Fin 4) (msel : Fin 4) : Statement (.vfle vd va vb width msel) := by
  have h_vd := vd.isLt
  have h_va := va.isLt
  have h_vb := vb.isLt
  have h_width := width.isLt
  have h_msel := msel.isLt
  exact some_bound 0x4C (vd.val * 16384 + va.val * 1024 + vb.val * 64 + width.val * 16 + msel.val * 4 + 2) (by decide) (by omega)

theorem vftot (vd : Fin 16) (va : Fin 16) (vb : Fin 16) (width : Fin 4) (msel : Fin 4) : Statement (.vftot vd va vb width msel) := by
  have h_vd := vd.isLt
  have h_va := va.isLt
  have h_vb := vb.isLt
  have h_width := width.isLt
  have h_msel := msel.isLt
  exact some_bound 0x4C (vd.val * 16384 + va.val * 1024 + vb.val * 64 + width.val * 16 + msel.val * 4 + 3) (by decide) (by omega)

theorem vfabs (vd : Fin 16) (va : Fin 16) (width : Fin 4) (msel : Fin 4) : Statement (.vfabs vd va width msel) := by
  have h_vd := vd.isLt
  have h_va := va.isLt
  have h_width := width.isLt
  have h_msel := msel.isLt
  exact some_bound 0x4D (vd.val * 16384 + va.val * 1024 + width.val * 16 + msel.val * 4) (by decide) (by omega)

theorem vfneg (vd : Fin 16) (va : Fin 16) (width : Fin 4) (msel : Fin 4) : Statement (.vfneg vd va width msel) := by
  have h_vd := vd.isLt
  have h_va := va.isLt
  have h_width := width.isLt
  have h_msel := msel.isLt
  exact some_bound 0x4D (vd.val * 16384 + va.val * 1024 + width.val * 16 + msel.val * 4 + 1) (by decide) (by omega)

theorem vfsqrt (vd : Fin 16) (va : Fin 16) (width : Fin 4) (msel : Fin 4) : Statement (.vfsqrt vd va width msel) := by
  have h_vd := vd.isLt
  have h_va := va.isLt
  have h_width := width.isLt
  have h_msel := msel.isLt
  exact some_bound 0x4D (vd.val * 16384 + va.val * 1024 + width.val * 16 + msel.val * 4 + 2) (by decide) (by omega)

theorem vfrcp (vd : Fin 16) (va : Fin 16) (width : Fin 4) (msel : Fin 4) : Statement (.vfrcp vd va width msel) := by
  have h_vd := vd.isLt
  have h_va := va.isLt
  have h_width := width.isLt
  have h_msel := msel.isLt
  exact some_bound 0x4D (vd.val * 16384 + va.val * 1024 + width.val * 16 + msel.val * 4 + 3) (by decide) (by omega)

theorem vi2f (vd : Fin 16) (va : Fin 16) (u : Bool) (width : Fin 4) (msel : Fin 4) : Statement (.vi2f vd va u width msel) := by
  have h_vd := vd.isLt
  have h_va := va.isLt
  have h_u := Bool.toNat_lt u
  have h_width := width.isLt
  have h_msel := msel.isLt
  exact some_bound 0x4E (vd.val * 16384 + va.val * 1024 + u.toNat * 128 + width.val * 16 + msel.val * 4) (by decide) (by omega)

theorem vf2i (vd : Fin 16) (va : Fin 16) (u : Bool) (rtz : Bool) (width : Fin 4) (msel : Fin 4) : Statement (.vf2i vd va u rtz width msel) := by
  have h_vd := vd.isLt
  have h_va := va.isLt
  have h_u := Bool.toNat_lt u
  have h_rtz := Bool.toNat_lt rtz
  have h_width := width.isLt
  have h_msel := msel.isLt
  exact some_bound 0x4E (vd.val * 16384 + va.val * 1024 + u.toNat * 128 + rtz.toNat * 64 + width.val * 16 + msel.val * 4 + 1) (by decide) (by omega)

theorem vfwid (vd : Fin 16) (va : Fin 16) (width : Fin 4) (msel : Fin 4) : Statement (.vfwid vd va width msel) := by
  have h_vd := vd.isLt
  have h_va := va.isLt
  have h_width := width.isLt
  have h_msel := msel.isLt
  exact some_bound 0x4E (vd.val * 16384 + va.val * 1024 + width.val * 16 + msel.val * 4 + 2) (by decide) (by omega)

theorem vfnar (vd : Fin 16) (va : Fin 16) (width : Fin 4) (msel : Fin 4) : Statement (.vfnar vd va width msel) := by
  have h_vd := vd.isLt
  have h_va := va.isLt
  have h_width := width.isLt
  have h_msel := msel.isLt
  exact some_bound 0x4E (vd.val * 16384 + va.val * 1024 + width.val * 16 + msel.val * 4 + 3) (by decide) (by omega)

theorem vredsum (vd : Fin 16) (va : Fin 16) (vb : Fin 16) (width : Fin 4) (msel : Fin 4) : Statement (.vredsum vd va vb width msel) := by
  have h_vd := vd.isLt
  have h_va := va.isLt
  have h_vb := vb.isLt
  have h_width := width.isLt
  have h_msel := msel.isLt
  exact some_bound 0x4F (vd.val * 16384 + va.val * 1024 + vb.val * 64 + width.val * 16 + msel.val * 4) (by decide) (by omega)

theorem vredmax (vd : Fin 16) (va : Fin 16) (vb : Fin 16) (width : Fin 4) (msel : Fin 4) : Statement (.vredmax vd va vb width msel) := by
  have h_vd := vd.isLt
  have h_va := va.isLt
  have h_vb := vb.isLt
  have h_width := width.isLt
  have h_msel := msel.isLt
  exact some_bound 0x4F (vd.val * 16384 + va.val * 1024 + vb.val * 64 + width.val * 16 + msel.val * 4 + 1) (by decide) (by omega)

theorem vredmin (vd : Fin 16) (va : Fin 16) (vb : Fin 16) (width : Fin 4) (msel : Fin 4) : Statement (.vredmin vd va vb width msel) := by
  have h_vd := vd.isLt
  have h_va := va.isLt
  have h_vb := vb.isLt
  have h_width := width.isLt
  have h_msel := msel.isLt
  exact some_bound 0x4F (vd.val * 16384 + va.val * 1024 + vb.val * 64 + width.val * 16 + msel.val * 4 + 2) (by decide) (by omega)

theorem vredarg (vd : Fin 16) (va : Fin 16) (vb : Fin 16) (width : Fin 4) (msel : Fin 4) : Statement (.vredarg vd va vb width msel) := by
  have h_vd := vd.isLt
  have h_va := va.isLt
  have h_vb := vb.isLt
  have h_width := width.isLt
  have h_msel := msel.isLt
  exact some_bound 0x4F (vd.val * 16384 + va.val * 1024 + vb.val * 64 + width.val * 16 + msel.val * 4 + 3) (by decide) (by omega)

theorem vfredsum (vd : Fin 16) (va : Fin 16) (vb : Fin 16) (width : Fin 4) (msel : Fin 4) : Statement (.vfredsum vd va vb width msel) := by
  have h_vd := vd.isLt
  have h_va := va.isLt
  have h_vb := vb.isLt
  have h_width := width.isLt
  have h_msel := msel.isLt
  exact some_bound 0x50 (vd.val * 16384 + va.val * 1024 + vb.val * 64 + width.val * 16 + msel.val * 4) (by decide) (by omega)

theorem vfredmax (vd : Fin 16) (va : Fin 16) (vb : Fin 16) (width : Fin 4) (msel : Fin 4) : Statement (.vfredmax vd va vb width msel) := by
  have h_vd := vd.isLt
  have h_va := va.isLt
  have h_vb := vb.isLt
  have h_width := width.isLt
  have h_msel := msel.isLt
  exact some_bound 0x50 (vd.val * 16384 + va.val * 1024 + vb.val * 64 + width.val * 16 + msel.val * 4 + 1) (by decide) (by omega)

theorem vfredmin (vd : Fin 16) (va : Fin 16) (vb : Fin 16) (width : Fin 4) (msel : Fin 4) : Statement (.vfredmin vd va vb width msel) := by
  have h_vd := vd.isLt
  have h_va := va.isLt
  have h_vb := vb.isLt
  have h_width := width.isLt
  have h_msel := msel.isLt
  exact some_bound 0x50 (vd.val * 16384 + va.val * 1024 + vb.val * 64 + width.val * 16 + msel.val * 4 + 2) (by decide) (by omega)

theorem vfredarg (vd : Fin 16) (va : Fin 16) (vb : Fin 16) (width : Fin 4) (msel : Fin 4) : Statement (.vfredarg vd va vb width msel) := by
  have h_vd := vd.isLt
  have h_va := va.isLt
  have h_vb := vb.isLt
  have h_width := width.isLt
  have h_msel := msel.isLt
  exact some_bound 0x50 (vd.val * 16384 + va.val * 1024 + vb.val * 64 + width.val * 16 + msel.val * 4 + 3) (by decide) (by omega)

theorem vidot (vd : Fin 16) (va : Fin 16) (vb : Fin 16) (width : Fin 4) (msel : Fin 4) : Statement (.vidot vd va vb width msel) := by
  have h_vd := vd.isLt
  have h_va := va.isLt
  have h_vb := vb.isLt
  have h_width := width.isLt
  have h_msel := msel.isLt
  exact some_bound 0x51 (vd.val * 16384 + va.val * 1024 + vb.val * 64 + width.val * 16 + msel.val * 4) (by decide) (by omega)

theorem vidotu (vd : Fin 16) (va : Fin 16) (vb : Fin 16) (width : Fin 4) (msel : Fin 4) : Statement (.vidotu vd va vb width msel) := by
  have h_vd := vd.isLt
  have h_va := va.isLt
  have h_vb := vb.isLt
  have h_width := width.isLt
  have h_msel := msel.isLt
  exact some_bound 0x51 (vd.val * 16384 + va.val * 1024 + vb.val * 64 + width.val * 16 + msel.val * 4 + 1) (by decide) (by omega)

theorem vfdot (vd : Fin 16) (va : Fin 16) (vb : Fin 16) (width : Fin 4) (msel : Fin 4) : Statement (.vfdot vd va vb width msel) := by
  have h_vd := vd.isLt
  have h_va := va.isLt
  have h_vb := vb.isLt
  have h_width := width.isLt
  have h_msel := msel.isLt
  exact some_bound 0x51 (vd.val * 16384 + va.val * 1024 + vb.val * 64 + width.val * 16 + msel.val * 4 + 2) (by decide) (by omega)

theorem vfdota (vd : Fin 16) (va : Fin 16) (vb : Fin 16) (width : Fin 4) (msel : Fin 4) : Statement (.vfdota vd va vb width msel) := by
  have h_vd := vd.isLt
  have h_va := va.isLt
  have h_vb := vb.isLt
  have h_width := width.isLt
  have h_msel := msel.isLt
  exact some_bound 0x51 (vd.val * 16384 + va.val * 1024 + vb.val * 64 + width.val * 16 + msel.val * 4 + 3) (by decide) (by omega)

theorem vgath (vd : Fin 16) (va : Fin 16) (vb : Fin 16) (width : Fin 4) (msel : Fin 4) : Statement (.vgath vd va vb width msel) := by
  have h_vd := vd.isLt
  have h_va := va.isLt
  have h_vb := vb.isLt
  have h_width := width.isLt
  have h_msel := msel.isLt
  exact some_bound 0x52 (vd.val * 16384 + va.val * 1024 + vb.val * 64 + width.val * 16 + msel.val * 4) (by decide) (by omega)

theorem vslup (vd : Fin 16) (va : Fin 16) (vb : Fin 16) (width : Fin 4) (msel : Fin 4) : Statement (.vslup vd va vb width msel) := by
  have h_vd := vd.isLt
  have h_va := va.isLt
  have h_vb := vb.isLt
  have h_width := width.isLt
  have h_msel := msel.isLt
  exact some_bound 0x52 (vd.val * 16384 + va.val * 1024 + vb.val * 64 + width.val * 16 + msel.val * 4 + 1) (by decide) (by omega)

theorem vsldn (vd : Fin 16) (va : Fin 16) (vb : Fin 16) (width : Fin 4) (msel : Fin 4) : Statement (.vsldn vd va vb width msel) := by
  have h_vd := vd.isLt
  have h_va := va.isLt
  have h_vb := vb.isLt
  have h_width := width.isLt
  have h_msel := msel.isLt
  exact some_bound 0x52 (vd.val * 16384 + va.val * 1024 + vb.val * 64 + width.val * 16 + msel.val * 4 + 2) (by decide) (by omega)

theorem vcomp (vd : Fin 16) (va : Fin 16) (width : Fin 4) (msel : Fin 4) : Statement (.vcomp vd va width msel) := by
  have h_vd := vd.isLt
  have h_va := va.isLt
  have h_width := width.isLt
  have h_msel := msel.isLt
  exact some_bound 0x52 (vd.val * 16384 + va.val * 1024 + width.val * 16 + msel.val * 4 + 3) (by decide) (by omega)

theorem vmv (vd : Fin 16) (va : Fin 16) (width : Fin 4) (msel : Fin 4) : Statement (.vmv vd va width msel) := by
  have h_vd := vd.isLt
  have h_va := va.isLt
  have h_width := width.isLt
  have h_msel := msel.isLt
  exact some_bound 0x53 (vd.val * 16384 + va.val * 1024 + width.val * 16 + msel.val * 4) (by decide) (by omega)

theorem vmvRf (vd : Fin 16) (width : Fin 4) : Statement (.vmvRf vd width) := by
  have h_vd := vd.isLt
  have h_width := width.isLt
  exact some_bound 0x53 (vd.val * 16384 + width.val * 16 + 64) (by decide) (by omega)

theorem vmvCf (va : Fin 16) (width : Fin 4) : Statement (.vmvCf va width) := by
  have h_va := va.isLt
  have h_width := width.isLt
  exact some_bound 0x53 (va.val * 1024 + width.val * 16 + 128) (by decide) (by omega)

theorem vsplat (vd : Fin 16) (vb : Fin 16) (width : Fin 4) (msel : Fin 4) : Statement (.vsplat vd vb width msel) := by
  have h_vd := vd.isLt
  have h_vb := vb.isLt
  have h_width := width.isLt
  have h_msel := msel.isLt
  exact some_bound 0x53 (vd.val * 16384 + vb.val * 64 + width.val * 16 + msel.val * 4 + 1) (by decide) (by omega)

theorem vbcs (vd : Fin 16) (va : Fin 16) (vb : Fin 16) (width : Fin 4) (msel : Fin 4) : Statement (.vbcs vd va vb width msel) := by
  have h_vd := vd.isLt
  have h_va := va.isLt
  have h_vb := vb.isLt
  have h_width := width.isLt
  have h_msel := msel.isLt
  exact some_bound 0x53 (vd.val * 16384 + va.val * 1024 + vb.val * 64 + width.val * 16 + msel.val * 4 + 2) (by decide) (by omega)

theorem vid (vd : Fin 16) (width : Fin 4) (msel : Fin 4) : Statement (.vid vd width msel) := by
  have h_vd := vd.isLt
  have h_width := width.isLt
  have h_msel := msel.isLt
  exact some_bound 0x53 (vd.val * 16384 + width.val * 16 + msel.val * 4 + 3) (by decide) (by omega)

theorem mand (vd : Fin 16) (va : Fin 16) (vb : Fin 16) (width : Fin 4) : Statement (.mand vd va vb width) := by
  have h_vd := vd.isLt
  have h_va := va.isLt
  have h_vb := vb.isLt
  have h_width := width.isLt
  exact some_bound 0x54 (vd.val * 16384 + va.val * 1024 + vb.val * 64 + width.val * 16) (by decide) (by omega)

theorem mor (vd : Fin 16) (va : Fin 16) (vb : Fin 16) (width : Fin 4) : Statement (.mor vd va vb width) := by
  have h_vd := vd.isLt
  have h_va := va.isLt
  have h_vb := vb.isLt
  have h_width := width.isLt
  exact some_bound 0x54 (vd.val * 16384 + va.val * 1024 + vb.val * 64 + width.val * 16 + 1) (by decide) (by omega)

theorem mxor (vd : Fin 16) (va : Fin 16) (vb : Fin 16) (width : Fin 4) : Statement (.mxor vd va vb width) := by
  have h_vd := vd.isLt
  have h_va := va.isLt
  have h_vb := vb.isLt
  have h_width := width.isLt
  exact some_bound 0x54 (vd.val * 16384 + va.val * 1024 + vb.val * 64 + width.val * 16 + 2) (by decide) (by omega)

theorem mnot (vd : Fin 16) (va : Fin 16) (width : Fin 4) : Statement (.mnot vd va width) := by
  have h_vd := vd.isLt
  have h_va := va.isLt
  have h_width := width.isLt
  exact some_bound 0x54 (vd.val * 16384 + va.val * 1024 + width.val * 16 + 3) (by decide) (by omega)

theorem mpopc (vd : Fin 16) (va : Fin 16) (width : Fin 4) (msel : Fin 4) : Statement (.mpopc vd va width msel) := by
  have h_vd := vd.isLt
  have h_va := va.isLt
  have h_width := width.isLt
  have h_msel := msel.isLt
  exact some_bound 0x55 (vd.val * 16384 + va.val * 1024 + width.val * 16 + msel.val * 4) (by decide) (by omega)

theorem mfirst (vd : Fin 16) (va : Fin 16) (width : Fin 4) (msel : Fin 4) : Statement (.mfirst vd va width msel) := by
  have h_vd := vd.isLt
  have h_va := va.isLt
  have h_width := width.isLt
  have h_msel := msel.isLt
  exact some_bound 0x55 (vd.val * 16384 + va.val * 1024 + width.val * 16 + msel.val * 4 + 1) (by decide) (by omega)

theorem mset (vd : Fin 16) (width : Fin 4) : Statement (.mset vd width) := by
  have h_vd := vd.isLt
  have h_width := width.isLt
  exact some_bound 0x55 (vd.val * 16384 + width.val * 16 + 2) (by decide) (by omega)

theorem mclr (vd : Fin 16) (width : Fin 4) : Statement (.mclr vd width) := by
  have h_vd := vd.isLt
  have h_width := width.isLt
  exact some_bound 0x55 (vd.val * 16384 + width.val * 16 + 3) (by decide) (by omega)

theorem vmerge (vd : Fin 16) (va : Fin 16) (vb : Fin 16) (width : Fin 4) (msel : Fin 4) : Statement (.vmerge vd va vb width msel) := by
  have h_vd := vd.isLt
  have h_va := va.isLt
  have h_vb := vb.isLt
  have h_width := width.isLt
  have h_msel := msel.isLt
  exact some_bound 0x56 (vd.val * 16384 + va.val * 1024 + vb.val * 64 + width.val * 16 + msel.val * 4) (by decide) (by omega)

theorem vselm (vd : Fin 16) (va : Fin 16) (width : Fin 4) (msel : Fin 4) : Statement (.vselm vd va width msel) := by
  have h_vd := vd.isLt
  have h_va := va.isLt
  have h_width := width.isLt
  have h_msel := msel.isLt
  exact some_bound 0x56 (vd.val * 16384 + va.val * 1024 + width.val * 16 + msel.val * 4 + 1) (by decide) (by omega)

theorem vbscl (vd : Fin 16) (va : Fin 16) (vs : Fin 16) (width : Fin 4) (msel : Fin 4) : Statement (.vbscl vd va vs width msel) := by
  have h_vd := vd.isLt
  have h_va := va.isLt
  have h_vs := vs.isLt
  have h_width := width.isLt
  have h_msel := msel.isLt
  exact some_bound 0x57 (vd.val * 16384 + va.val * 1024 + vs.val * 64 + width.val * 16 + msel.val * 4) (by decide) (by omega)

theorem upki (vd : Fin 16) (va : Fin 16) (fmt : Fin 8) (part : Fin 8) : Statement (.upki vd va fmt part) := by
  have h_vd := vd.isLt
  have h_va := va.isLt
  have h_fmt := fmt.isLt
  have h_part := part.isLt
  exact some_bound 0x60 (vd.val * 16384 + va.val * 1024 + fmt.val * 8 + part.val) (by decide) (by omega)

theorem upkf (vd : Fin 16) (va : Fin 16) (vs : Fin 16) (fmt : Fin 8) (part : Fin 8) : Statement (.upkf vd va vs fmt part) := by
  have h_vd := vd.isLt
  have h_va := va.isLt
  have h_vs := vs.isLt
  have h_fmt := fmt.isLt
  have h_part := part.isLt
  exact some_bound 0x61 (vd.val * 16384 + va.val * 1024 + vs.val * 64 + fmt.val * 8 + part.val) (by decide) (by omega)

theorem upkb (vd : Fin 16) (va : Fin 16) (part : Fin 16) (fl : Bool) : Statement (.upkb vd va part fl) := by
  have h_vd := vd.isLt
  have h_va := va.isLt
  have h_part := part.isLt
  have h_fl := Bool.toNat_lt fl
  exact some_bound 0x62 (vd.val * 16384 + va.val * 1024 + part.val * 64 + fl.toNat * 32) (by decide) (by omega)

theorem pcki (vd : Fin 16) (va : Fin 16) (fmt : Fin 8) (part : Fin 8) : Statement (.pcki vd va fmt part) := by
  have h_vd := vd.isLt
  have h_va := va.isLt
  have h_fmt := fmt.isLt
  have h_part := part.isLt
  exact some_bound 0x64 (vd.val * 16384 + va.val * 1024 + fmt.val * 8 + part.val) (by decide) (by omega)

theorem pckf (vd : Fin 16) (va : Fin 16) (vs : Fin 16) (fmt : Fin 8) (part : Fin 8) : Statement (.pckf vd va vs fmt part) := by
  have h_vd := vd.isLt
  have h_va := va.isLt
  have h_vs := vs.isLt
  have h_fmt := fmt.isLt
  have h_part := part.isLt
  exact some_bound 0x65 (vd.val * 16384 + va.val * 1024 + vs.val * 64 + fmt.val * 8 + part.val) (by decide) (by omega)

theorem pckb (vd : Fin 16) (va : Fin 16) (part : Fin 16) (fl : Bool) : Statement (.pckb vd va part fl) := by
  have h_vd := vd.isLt
  have h_va := va.isLt
  have h_part := part.isLt
  have h_fl := Bool.toNat_lt fl
  exact some_bound 0x66 (vd.val * 16384 + va.val * 1024 + part.val * 64 + fl.toNat * 32) (by decide) (by omega)

theorem pscl (vd : Fin 16) (va : Fin 16) (fmt : Fin 8) : Statement (.pscl vd va fmt) := by
  have h_vd := vd.isLt
  have h_va := va.isLt
  have h_fmt := fmt.isLt
  exact some_bound 0x67 (vd.val * 16384 + va.val * 1024 + fmt.val * 8) (by decide) (by omega)

theorem afmt (pol : Fin 4) (route : Fin 4) (nb : Fin 4) (na : Fin 4) (mode : Fin 4) : Statement (.afmt pol route nb na mode) := by
  have h_pol := pol.isLt
  have h_route := route.isLt
  have h_nb := nb.isLt
  have h_na := na.isLt
  have h_mode := mode.isLt
  exact some_bound 0x68 (pol.val * 256 + route.val * 64 + nb.val * 16 + na.val * 4 + mode.val) (by decide) (by omega)

theorem alatchLa (ak : Fin 16) : Statement (.alatchLa ak) := by
  have h_ak := ak.isLt
  exact some_bound 0x69 (ak.val * 16384) (by decide) (by omega)

theorem alatchLb (ak : Fin 16) : Statement (.alatchLb ak) := by
  have h_ak := ak.isLt
  exact some_bound 0x69 (ak.val * 16384 + 1) (by decide) (by omega)

theorem alatchLbs (ak : Fin 16) : Statement (.alatchLbs ak) := by
  have h_ak := ak.isLt
  exact some_bound 0x69 (ak.val * 16384 + 2) (by decide) (by omega)

theorem alatchLz (edge : Fin 4) : Statement (.alatchLz edge) := by
  have h_edge := edge.isLt
  exact some_bound 0x69 (edge.val * 4 + 3) (by decide) (by omega)

theorem abeat (s : Bool) (a : Bool) (c : Bool) (p : Bool) : Statement (.abeat s a c p) := by
  have h_s := Bool.toNat_lt s
  have h_a := Bool.toNat_lt a
  have h_c := Bool.toNat_lt c
  have h_p := Bool.toNat_lt p
  exact some_bound 0x6A (s.toNat * 8 + a.toNat * 4 + c.toNat * 2 + p.toNat) (by decide) (by omega)

theorem adrain (ad : Fin 16) (ak : Fin 16) (grp : Fin 16) (bip : Bool) (add : Bool) (clr : Bool) : Statement (.adrain ad ak grp bip add clr) := by
  have h_ad := ad.isLt
  have h_ak := ak.isLt
  have h_grp := grp.isLt
  have h_bip := Bool.toNat_lt bip
  have h_add := Bool.toNat_lt add
  have h_clr := Bool.toNat_lt clr
  exact some_bound 0x6B (ad.val * 16384 + ak.val * 1024 + grp.val * 64 + bip.toNat * 32 + add.toNat * 16 + clr.toNat * 8) (by decide) (by omega)

theorem aconf (qd : Fin 32) (sa : Fin 16) (sb : Fin 16) (sk : Fin 16) (any : Bool) : Statement (.aconf qd sa sb sk any) := by
  have h_qd := qd.isLt
  have h_sa := sa.isLt
  have h_sb := sb.isLt
  have h_sk := sk.isLt
  have h_any := Bool.toNat_lt any
  exact some_bound 0x6C (qd.val * 8192 + sa.val * 512 + sb.val * 32 + sk.val * 2 + any.toNat) (by decide) (by omega)

theorem ard (vd : Fin 16) (ar : Fin 16) (q : Fin 4) : Statement (.ard vd ar q) := by
  have h_vd := vd.isLt
  have h_ar := ar.isLt
  have h_q := q.isLt
  exact some_bound 0x6D (vd.val * 16384 + ar.val * 1024 + q.val * 256) (by decide) (by omega)

theorem awr (vs : Fin 16) (ar : Fin 16) (q : Fin 4) : Statement (.awr vs ar q) := by
  have h_vs := vs.isLt
  have h_ar := ar.isLt
  have h_q := q.isLt
  exact some_bound 0x6D (vs.val * 16384 + ar.val * 1024 + q.val * 256 + 1) (by decide) (by omega)

theorem ascl (ad : Fin 16) (rs : Fin 16) (ac : Fin 16) (int : Bool) : Statement (.ascl ad rs ac int) := by
  have h_ad := ad.isLt
  have h_rs := rs.isLt
  have h_ac := ac.isLt
  have h_int := Bool.toNat_lt int
  exact some_bound 0x6D (ad.val * 16384 + rs.val * 1024 + ac.val * 64 + int.toNat * 32 + 2) (by decide) (by omega)

theorem aclr (grp : Fin 16) : Statement (.aclr grp) := by
  have h_grp := grp.isLt
  exact some_bound 0x6D (grp.val * 64 + 3) (by decide) (by omega)

theorem gread (ad : Fin 16) (sel : Fin 4) (j : Fin 8) : Statement (.gread ad sel j) := by
  have h_ad := ad.isLt
  have h_sel := sel.isLt
  have h_j := j.isLt
  exact some_bound 0x6E (ad.val * 16384 + sel.val * 4096 + j.val * 512 + 2) (by decide) (by omega)

theorem bterm (ad : Fin 16) (aa : Fin 16) (ak : Fin 16) : Statement (.bterm ad aa ak) := by
  have h_ad := ad.isLt
  have h_aa := aa.isLt
  have h_ak := ak.isLt
  exact some_bound 0x6F (ad.val * 16384 + aa.val * 1024 + ak.val * 64) (by decide) (by omega)

theorem bnext (ad : Fin 16) : Statement (.bnext ad) := by
  have h_ad := ad.isLt
  exact some_bound 0x6F (ad.val * 16384 + 1) (by decide) (by omega)

theorem cpy (d : Fin 32) (a : Fin 32) (tgt : Fin 16) : Statement (.cpy d a tgt) := by
  have h_d := d.isLt
  have h_a := a.isLt
  have h_tgt := tgt.isLt
  exact some_bound 0x70 (d.val * 8192 + a.val * 256 + tgt.val * 16) (by decide) (by omega)

theorem barinit (a : Fin 32) (b : Fin 32) (scope : Fin 8) (z : Bool) : Statement (.barinit a b scope z) := by
  have h_a := a.isLt
  have h_b := b.isLt
  have h_scope := scope.isLt
  have h_z := Bool.toNat_lt z
  exact some_bound 0x71 (a.val * 8192 + b.val * 256 + scope.val * 32 + z.toNat * 16) (by decide) (by omega)

theorem baradd (a : Fin 32) (b : Fin 32) : Statement (.baradd a b) := by
  have h_a := a.isLt
  have h_b := b.isLt
  exact some_bound 0x71 (a.val * 8192 + b.val * 256 + 1) (by decide) (by omega)

theorem bartest (a : Fin 32) (qd : Fin 32) : Statement (.bartest a qd) := by
  have h_a := a.isLt
  have h_qd := qd.isLt
  exact some_bound 0x71 (a.val * 8192 + qd.val * 256 + 2) (by decide) (by omega)

theorem sendh (d : Fin 32) (a : Fin 32) : Statement (.sendh d a) := by
  have h_d := d.isLt
  have h_a := a.isLt
  exact some_bound 0x72 (d.val * 8192 + a.val * 256) (by decide) (by omega)

theorem hflip (a : Fin 32) (b : Fin 32) : Statement (.hflip a b) := by
  have h_a := a.isLt
  have h_b := b.isLt
  exact some_bound 0x73 (a.val * 8192 + b.val * 256) (by decide) (by omega)

theorem hstat (d : Fin 32) (b : Fin 32) : Statement (.hstat d b) := by
  have h_d := d.isLt
  have h_b := b.isLt
  exact some_bound 0x73 (d.val * 8192 + b.val * 256 + 2) (by decide) (by omega)

theorem estat (d : Fin 32) (a : Fin 32) : Statement (.estat d a) := by
  have h_d := d.isLt
  have h_a := a.isLt
  exact some_bound 0x75 (d.val * 8192 + a.val * 256 + 1) (by decide) (by omega)

theorem ecan (d : Fin 32) (a : Fin 32) : Statement (.ecan d a) := by
  have h_d := d.isLt
  have h_a := a.isLt
  exact some_bound 0x75 (d.val * 8192 + a.val * 256 + 2) (by decide) (by omega)

theorem moduleReset : Statement (.moduleReset) := none_bound

theorem bundleIssue : Statement (.bundleIssue) := none_bound

theorem tlbMissWalk : Statement (.tlbMissWalk) := none_bound

theorem asyncAccessComplete : Statement (.asyncAccessComplete) := none_bound

theorem trapEntry : Statement (.trapEntry) := none_bound

theorem bankFaultWait : Statement (.bankFaultWait) := none_bound

theorem faultRecordPost : Statement (.faultRecordPost) := none_bound

theorem actionRetry : Statement (.actionRetry) := none_bound

theorem actionEvict : Statement (.actionEvict) := none_bound

theorem actionDeliver : Statement (.actionDeliver) := none_bound

theorem actionFail : Statement (.actionFail) := none_bound

theorem actionKill : Statement (.actionKill) := none_bound

theorem preemption : Statement (.preemption) := none_bound

theorem swapIn : Statement (.swapIn) := none_bound

theorem recordTake : Statement (.recordTake) := none_bound

theorem taskRestore : Statement (.taskRestore) := none_bound

theorem queueAgeing : Statement (.queueAgeing) := none_bound

theorem dieLaunchTake : Statement (.dieLaunchTake) := none_bound

theorem specialise : Statement (.specialise) := none_bound

theorem specialiseTimeout : Statement (.specialiseTimeout) := none_bound

theorem launchEnumerate : Statement (.launchEnumerate) := none_bound

theorem dieCompletionReport : Statement (.dieCompletionReport) := none_bound

theorem launchCompletion : Statement (.launchCompletion) := none_bound

theorem commandStart : Statement (.commandStart) := none_bound

theorem courierElement : Statement (.courierElement) := none_bound

theorem commandComplete : Statement (.commandComplete) := none_bound

theorem arrivalReserve : Statement (.arrivalReserve) := none_bound

theorem handlerStart : Statement (.handlerStart) := none_bound

theorem relocEntry : Statement (.relocEntry) := none_bound

theorem searchRun : Statement (.searchRun) := none_bound

theorem agthRowCopy : Statement (.agthRowCopy) := none_bound

theorem blockFillComplete : Statement (.blockFillComplete) := none_bound

theorem tlbinvComplete : Statement (.tlbinvComplete) := none_bound

theorem tstepIncrement : Statement (.tstepIncrement) := none_bound

theorem timeAlignmentLoss : Statement (.timeAlignmentLoss) := none_bound

theorem frameDrop : Statement (.frameDrop) := none_bound

theorem malformedMessage : Statement (.malformedMessage) := none_bound

theorem streamResend : Statement (.streamResend) := none_bound

theorem write : Statement (.write) := none_bound

theorem read : Statement (.read) := none_bound

theorem arm : Statement (.arm) := none_bound

theorem disarm : Statement (.disarm) := none_bound

theorem fire : Statement (.fire) := none_bound

theorem resync : Statement (.resync) := none_bound

theorem attest : Statement (.attest) := none_bound

theorem mgmtRootBase : Statement (.mgmtRootBase) := none_bound

theorem mgmtHeapTable : Statement (.mgmtHeapTable) := none_bound

theorem mgmtServiceClusters : Statement (.mgmtServiceClusters) := none_bound

theorem mgmtCodeGeneration : Statement (.mgmtCodeGeneration) := none_bound

theorem mgmtBackmapRead : Statement (.mgmtBackmapRead) := none_bound

theorem mgmtFaultQueue : Statement (.mgmtFaultQueue) := none_bound

theorem mgmtPreempt : Statement (.mgmtPreempt) := none_bound

theorem mgmtDefaultTvb : Statement (.mgmtDefaultTvb) := none_bound

theorem mgmtCertificate : Statement (.mgmtCertificate) := none_bound

theorem mgmtReductionRing : Statement (.mgmtReductionRing) := none_bound

theorem mgmtMaintenance : Statement (.mgmtMaintenance) := none_bound

theorem mgmtLoadFirmware : Statement (.mgmtLoadFirmware) := none_bound

theorem mgmtExtendM3 : Statement (.mgmtExtendM3) := none_bound

theorem mgmtEncapsulation : Statement (.mgmtEncapsulation) := none_bound

theorem firmwarePollSlot : Statement (.firmwarePollSlot) := none_bound

theorem reductionDescriptor : Statement (.reductionDescriptor) := none_bound

theorem reductionResult : Statement (.reductionResult) := none_bound

theorem debugBlockWrite : Statement (.debugBlockWrite) := none_bound

theorem traceSample : Statement (.traceSample) := none_bound

theorem triggerEvaluate : Statement (.triggerEvaluate) := none_bound

theorem slenWrite : Statement (.slenWrite) := none_bound

theorem vlWrite : Statement (.vlWrite) := none_bound

theorem vtypeWrite : Statement (.vtypeWrite) := none_bound

theorem coreEnWrite : Statement (.coreEnWrite) := none_bound

theorem skewWrite : Statement (.skewWrite) := none_bound

theorem tswWrite : Statement (.tswWrite) := none_bound

theorem nop : Statement (.nop) := by
  exact some_bound 0x00 (0) (by decide) (by omega)

theorem jr : Statement (.jr) := by
  exact some_bound 0x05 (0) (by decide) (by omega)

theorem ret : Statement (.ret) := by
  exact some_bound 0x05 (2) (by decide) (by omega)

theorem spawn : Statement (.spawn) := by
  exact some_bound 0x0A (0) (by decide) (by omega)

theorem suspend : Statement (.suspend) := by
  exact some_bound 0x0A (1) (by decide) (by omega)

theorem suspendDorm : Statement (.suspendDorm) := by
  exact some_bound 0x0A (9) (by decide) (by omega)

theorem join : Statement (.join) := by
  exact some_bound 0x0A (2) (by decide) (by omega)

theorem exit : Statement (.exit) := by
  exact some_bound 0x0A (3) (by decide) (by omega)

theorem yield : Statement (.yield) := by
  exact some_bound 0x0A (4) (by decide) (by omega)

theorem launch : Statement (.launch) := by
  exact some_bound 0x0A (5) (by decide) (by omega)

theorem rett : Statement (.rett) := by
  exact some_bound 0x0B (1) (by decide) (by omega)

theorem halt : Statement (.halt) := by
  exact some_bound 0x0B (3) (by decide) (by omega)

theorem twait : Statement (.twait) := by
  exact some_bound 0x0B (4) (by decide) (by omega)

theorem tlbinvAsn : Statement (.tlbinvAsn) := by
  exact some_bound 0x0C (8) (by decide) (by omega)

theorem tlbinvAll : Statement (.tlbinvAll) := by
  exact some_bound 0x0C (16) (by decide) (by omega)

theorem tlbsync : Statement (.tlbsync) := by
  exact some_bound 0x0C (1) (by decide) (by omega)

theorem tlbunlAll : Statement (.tlbunlAll) := by
  exact some_bound 0x0C (19) (by decide) (by omega)

theorem blkdrop : Statement (.blkdrop) := by
  exact some_bound 0x0D (1) (by decide) (by omega)

theorem pset : Statement (.pset) := by
  exact some_bound 0x1D (6) (by decide) (by omega)

theorem pclr : Statement (.pclr) := by
  exact some_bound 0x1D (7) (by decide) (by omega)

theorem ptos : Statement (.ptos) := by
  exact some_bound 0x1E (0) (by decide) (by omega)

theorem stop : Statement (.stop) := by
  exact some_bound 0x1E (1) (by decide) (by omega)

theorem aclrAll : Statement (.aclrAll) := by
  exact some_bound 0x6D (35) (by decide) (by omega)

theorem gseed : Statement (.gseed) := by
  exact some_bound 0x6E (12) (by decide) (by omega)

theorem gseedA : Statement (.gseedA) := by
  exact some_bound 0x6E (4) (by decide) (by omega)

theorem gseedB : Statement (.gseedB) := by
  exact some_bound 0x6E (8) (by decide) (by omega)

theorem grestart : Statement (.grestart) := by
  exact some_bound 0x6E (1) (by decide) (by omega)

theorem barwait : Statement (.barwait) := by
  exact some_bound 0x71 (3) (by decide) (by omega)

theorem reloc : Statement (.reloc) := by
  exact some_bound 0x73 (1) (by decide) (by omega)

theorem ssrch : Statement (.ssrch) := by
  exact some_bound 0x74 (0) (by decide) (by omega)

theorem equi : Statement (.equi) := by
  exact some_bound 0x75 (0) (by decide) (by omega)

theorem ecanAll : Statement (.ecanAll) := by
  exact some_bound 0x75 (130) (by decide) (by omega)

theorem alignedAgain : Statement (.alignedAgain) := none_bound

theorem discardedMessage : Statement (.discardedMessage) := none_bound

theorem tlbEntryDropped : Statement (.tlbEntryDropped) := none_bound

end Sys2Proof.Laws.EncodeBound
end

