-- ==== Sys2Proof/Laws/State.lean ====
section
/-!
SUPPORT. Sys2Proof/Laws/State.lean: one lemma per field and update of the state, true by rfl: what each named update of Machine/Ops.lean
changes, and that it changes nothing else.
-/

namespace Sys2Proof.Machine


/-! ### State.modCl -/

@[simp] theorem State.modCl_others (s : State) (f : Cluster → Cluster) : (s.modCl f).others = s.others := rfl
@[simp] theorem State.modCl_mem (s : State) (f : Cluster → Cluster) : (s.modCl f).mem = s.mem := rfl
@[simp] theorem State.modCl_badWords (s : State) (f : Cluster → Cluster) : (s.modCl f).badWords = s.badWords := rfl
@[simp] theorem State.modCl_softWords (s : State) (f : Cluster → Cluster) : (s.modCl f).softWords = s.softWords := rfl
@[simp] theorem State.modCl_lines (s : State) (f : Cluster → Cluster) : (s.modCl f).lines = s.lines := rfl
@[simp] theorem State.modCl_cycle (s : State) (f : Cluster → Cluster) : (s.modCl f).cycle = s.cycle := rfl
@[simp] theorem State.modCl_tstep (s : State) (f : Cluster → Cluster) : (s.modCl f).tstep = s.tstep := rfl
@[simp] theorem State.modCl_tstepAt (s : State) (f : Cluster → Cluster) : (s.modCl f).tstepAt = s.tstepAt := rfl
@[simp] theorem State.modCl_aligned (s : State) (f : Cluster → Cluster) : (s.modCl f).aligned = s.aligned := rfl
@[simp] theorem State.modCl_rootBase (s : State) (f : Cluster → Cluster) : (s.modCl f).rootBase = s.rootBase := rfl
@[simp] theorem State.modCl_defaultTvb (s : State) (f : Cluster → Cluster) : (s.modCl f).defaultTvb = s.defaultTvb := rfl
@[simp] theorem State.modCl_dies (s : State) (f : Cluster → Cluster) : (s.modCl f).dies = s.dies := rfl
@[simp] theorem State.modCl_relocs (s : State) (f : Cluster → Cluster) : (s.modCl f).relocs = s.relocs := rfl
@[simp] theorem State.modCl_launches (s : State) (f : Cluster → Cluster) : (s.modCl f).launches = s.launches := rfl
@[simp] theorem State.modCl_nextLaunch (s : State) (f : Cluster → Cluster) : (s.modCl f).nextLaunch = s.nextLaunch := rfl
@[simp] theorem State.modCl_nextFire (s : State) (f : Cluster → Cluster) : (s.modCl f).nextFire = s.nextFire := rfl
@[simp] theorem State.modCl_fires (s : State) (f : Cluster → Cluster) : (s.modCl f).fires = s.fires := rfl
@[simp] theorem State.modCl_preempts (s : State) (f : Cluster → Cluster) : (s.modCl f).preempts = s.preempts := rfl
@[simp] theorem State.modCl_armed (s : State) (f : Cluster → Cluster) : (s.modCl f).armed = s.armed := rfl
@[simp] theorem State.modCl_streams (s : State) (f : Cluster → Cluster) : (s.modCl f).streams = s.streams := rfl
@[simp] theorem State.modCl_outbox (s : State) (f : Cluster → Cluster) : (s.modCl f).outbox = s.outbox := rfl
@[simp] theorem State.modCl_etherType (s : State) (f : Cluster → Cluster) : (s.modCl f).etherType = s.etherType := rfl
@[simp] theorem State.modCl_udpPort (s : State) (f : Cluster → Cluster) : (s.modCl f).udpPort = s.udpPort := rfl
@[simp] theorem State.modCl_codeGen (s : State) (f : Cluster → Cluster) : (s.modCl f).codeGen = s.codeGen := rfl
@[simp] theorem State.modCl_counts (s : State) (f : Cluster → Cluster) : (s.modCl f).counts = s.counts := rfl
@[simp] theorem State.modCl_m0 (s : State) (f : Cluster → Cluster) : (s.modCl f).m0 = s.m0 := rfl
@[simp] theorem State.modCl_m1 (s : State) (f : Cluster → Cluster) : (s.modCl f).m1 = s.m1 := rfl
@[simp] theorem State.modCl_m2 (s : State) (f : Cluster → Cluster) : (s.modCl f).m2 = s.m2 := rfl
@[simp] theorem State.modCl_m3 (s : State) (f : Cluster → Cluster) : (s.modCl f).m3 = s.m3 := rfl
@[simp] theorem State.modCl_resets (s : State) (f : Cluster → Cluster) : (s.modCl f).resets = s.resets := rfl
@[simp] theorem State.modCl_image (s : State) (f : Cluster → Cluster) : (s.modCl f).image = s.image := rfl
@[simp] theorem State.modCl_booted (s : State) (f : Cluster → Cluster) : (s.modCl f).booted = s.booted := rfl
@[simp] theorem State.modCl_recovery (s : State) (f : Cluster → Cluster) : (s.modCl f).recovery = s.recovery := rfl
@[simp] theorem State.modCl_spares (s : State) (f : Cluster → Cluster) : (s.modCl f).spares = s.spares := rfl
@[simp] theorem State.modCl_redBase (s : State) (f : Cluster → Cluster) : (s.modCl f).redBase = s.redBase := rfl
@[simp] theorem State.modCl_redLog (s : State) (f : Cluster → Cluster) : (s.modCl f).redLog = s.redLog := rfl
@[simp] theorem State.modCl_redGroup (s : State) (f : Cluster → Cluster) : (s.modCl f).redGroup = s.redGroup := rfl
@[simp] theorem State.modCl_redRank (s : State) (f : Cluster → Cluster) : (s.modCl f).redRank = s.redRank := rfl
@[simp] theorem State.modCl_redCons (s : State) (f : Cluster → Cluster) : (s.modCl f).redCons = s.redCons := rfl
@[simp] theorem State.modCl_red (s : State) (f : Cluster → Cluster) : (s.modCl f).red = s.red := rfl
@[simp] theorem State.modCl_pollSlot (s : State) (f : Cluster → Cluster) : (s.modCl f).pollSlot = s.pollSlot := rfl
@[simp] theorem State.modCl_agenda (s : State) (f : Cluster → Cluster) : (s.modCl f).agenda = s.agenda := rfl
@[simp] theorem State.modCl_ev (s : State) (f : Cluster → Cluster) : (s.modCl f).ev = s.ev := rfl
@[simp] theorem State.modCl_turn (s : State) (f : Cluster → Cluster) : (s.modCl f).turn = s.turn := rfl
@[simp] theorem State.modCl_freeCtr (s : State) (f : Cluster → Cluster) : (s.modCl f).freeCtr = s.freeCtr := rfl
@[simp] theorem State.modCl_readied (s : State) (f : Cluster → Cluster) : (s.modCl f).readied = s.readied := rfl
@[simp] theorem State.modCl_cl (s : State) (f : Cluster → Cluster) : (s.modCl f).cl = f s.cl := rfl

/-! ### State.modBank -/

@[simp] theorem State.modBank_others (s : State) (f : Bank → Bank) : (s.modBank f).others = s.others := rfl
@[simp] theorem State.modBank_mem (s : State) (f : Bank → Bank) : (s.modBank f).mem = s.mem := rfl
@[simp] theorem State.modBank_badWords (s : State) (f : Bank → Bank) : (s.modBank f).badWords = s.badWords := rfl
@[simp] theorem State.modBank_softWords (s : State) (f : Bank → Bank) : (s.modBank f).softWords = s.softWords := rfl
@[simp] theorem State.modBank_lines (s : State) (f : Bank → Bank) : (s.modBank f).lines = s.lines := rfl
@[simp] theorem State.modBank_cycle (s : State) (f : Bank → Bank) : (s.modBank f).cycle = s.cycle := rfl
@[simp] theorem State.modBank_tstep (s : State) (f : Bank → Bank) : (s.modBank f).tstep = s.tstep := rfl
@[simp] theorem State.modBank_tstepAt (s : State) (f : Bank → Bank) : (s.modBank f).tstepAt = s.tstepAt := rfl
@[simp] theorem State.modBank_aligned (s : State) (f : Bank → Bank) : (s.modBank f).aligned = s.aligned := rfl
@[simp] theorem State.modBank_rootBase (s : State) (f : Bank → Bank) : (s.modBank f).rootBase = s.rootBase := rfl
@[simp] theorem State.modBank_defaultTvb (s : State) (f : Bank → Bank) : (s.modBank f).defaultTvb = s.defaultTvb := rfl
@[simp] theorem State.modBank_dies (s : State) (f : Bank → Bank) : (s.modBank f).dies = s.dies := rfl
@[simp] theorem State.modBank_relocs (s : State) (f : Bank → Bank) : (s.modBank f).relocs = s.relocs := rfl
@[simp] theorem State.modBank_launches (s : State) (f : Bank → Bank) : (s.modBank f).launches = s.launches := rfl
@[simp] theorem State.modBank_nextLaunch (s : State) (f : Bank → Bank) : (s.modBank f).nextLaunch = s.nextLaunch := rfl
@[simp] theorem State.modBank_nextFire (s : State) (f : Bank → Bank) : (s.modBank f).nextFire = s.nextFire := rfl
@[simp] theorem State.modBank_fires (s : State) (f : Bank → Bank) : (s.modBank f).fires = s.fires := rfl
@[simp] theorem State.modBank_preempts (s : State) (f : Bank → Bank) : (s.modBank f).preempts = s.preempts := rfl
@[simp] theorem State.modBank_armed (s : State) (f : Bank → Bank) : (s.modBank f).armed = s.armed := rfl
@[simp] theorem State.modBank_streams (s : State) (f : Bank → Bank) : (s.modBank f).streams = s.streams := rfl
@[simp] theorem State.modBank_outbox (s : State) (f : Bank → Bank) : (s.modBank f).outbox = s.outbox := rfl
@[simp] theorem State.modBank_etherType (s : State) (f : Bank → Bank) : (s.modBank f).etherType = s.etherType := rfl
@[simp] theorem State.modBank_udpPort (s : State) (f : Bank → Bank) : (s.modBank f).udpPort = s.udpPort := rfl
@[simp] theorem State.modBank_codeGen (s : State) (f : Bank → Bank) : (s.modBank f).codeGen = s.codeGen := rfl
@[simp] theorem State.modBank_counts (s : State) (f : Bank → Bank) : (s.modBank f).counts = s.counts := rfl
@[simp] theorem State.modBank_m0 (s : State) (f : Bank → Bank) : (s.modBank f).m0 = s.m0 := rfl
@[simp] theorem State.modBank_m1 (s : State) (f : Bank → Bank) : (s.modBank f).m1 = s.m1 := rfl
@[simp] theorem State.modBank_m2 (s : State) (f : Bank → Bank) : (s.modBank f).m2 = s.m2 := rfl
@[simp] theorem State.modBank_m3 (s : State) (f : Bank → Bank) : (s.modBank f).m3 = s.m3 := rfl
@[simp] theorem State.modBank_resets (s : State) (f : Bank → Bank) : (s.modBank f).resets = s.resets := rfl
@[simp] theorem State.modBank_image (s : State) (f : Bank → Bank) : (s.modBank f).image = s.image := rfl
@[simp] theorem State.modBank_booted (s : State) (f : Bank → Bank) : (s.modBank f).booted = s.booted := rfl
@[simp] theorem State.modBank_recovery (s : State) (f : Bank → Bank) : (s.modBank f).recovery = s.recovery := rfl
@[simp] theorem State.modBank_spares (s : State) (f : Bank → Bank) : (s.modBank f).spares = s.spares := rfl
@[simp] theorem State.modBank_redBase (s : State) (f : Bank → Bank) : (s.modBank f).redBase = s.redBase := rfl
@[simp] theorem State.modBank_redLog (s : State) (f : Bank → Bank) : (s.modBank f).redLog = s.redLog := rfl
@[simp] theorem State.modBank_redGroup (s : State) (f : Bank → Bank) : (s.modBank f).redGroup = s.redGroup := rfl
@[simp] theorem State.modBank_redRank (s : State) (f : Bank → Bank) : (s.modBank f).redRank = s.redRank := rfl
@[simp] theorem State.modBank_redCons (s : State) (f : Bank → Bank) : (s.modBank f).redCons = s.redCons := rfl
@[simp] theorem State.modBank_red (s : State) (f : Bank → Bank) : (s.modBank f).red = s.red := rfl
@[simp] theorem State.modBank_pollSlot (s : State) (f : Bank → Bank) : (s.modBank f).pollSlot = s.pollSlot := rfl
@[simp] theorem State.modBank_agenda (s : State) (f : Bank → Bank) : (s.modBank f).agenda = s.agenda := rfl
@[simp] theorem State.modBank_ev (s : State) (f : Bank → Bank) : (s.modBank f).ev = s.ev := rfl
@[simp] theorem State.modBank_turn (s : State) (f : Bank → Bank) : (s.modBank f).turn = s.turn := rfl
@[simp] theorem State.modBank_freeCtr (s : State) (f : Bank → Bank) : (s.modBank f).freeCtr = s.freeCtr := rfl
@[simp] theorem State.modBank_readied (s : State) (f : Bank → Bank) : (s.modBank f).readied = s.readied := rfl
@[simp] theorem State.modBank_cl_id (s : State) (f : Bank → Bank) : (s.modBank f).cl.id = s.cl.id := rfl
@[simp] theorem State.modBank_cl_part (s : State) (f : Bank → Bank) : (s.modBank f).cl.part = s.cl.part := rfl
@[simp] theorem State.modBank_cl_asn (s : State) (f : Bank → Bank) : (s.modBank f).cl.asn = s.cl.asn := rfl
@[simp] theorem State.modBank_cl_run (s : State) (f : Bank → Bank) : (s.modBank f).cl.run = s.cl.run := rfl
@[simp] theorem State.modBank_cl_banks (s : State) (f : Bank → Bank) : (s.modBank f).cl.banks = s.cl.banks := rfl
@[simp] theorem State.modBank_cl_cores (s : State) (f : Bank → Bank) : (s.modBank f).cl.cores = s.cl.cores := rfl
@[simp] theorem State.modBank_cl_tlb (s : State) (f : Bank → Bank) : (s.modBank f).cl.tlb = s.cl.tlb := rfl
@[simp] theorem State.modBank_cl_time (s : State) (f : Bank → Bank) : (s.modBank f).cl.time = s.cl.time := rfl
@[simp] theorem State.modBank_cl_frozen (s : State) (f : Bank → Bank) : (s.modBank f).cl.frozen = s.cl.frozen := rfl
@[simp] theorem State.modBank_cl_lastAt (s : State) (f : Bank → Bank) : (s.modBank f).cl.lastAt = s.cl.lastAt := rfl
@[simp] theorem State.modBank_cl_lastSkew (s : State) (f : Bank → Bank) : (s.modBank f).cl.lastSkew = s.cl.lastSkew := rfl
@[simp] theorem State.modBank_cl_opn (s : State) (f : Bank → Bank) : (s.modBank f).cl.opn = s.cl.opn := rfl
@[simp] theorem State.modBank_cl_nextOp (s : State) (f : Bank → Bank) : (s.modBank f).cl.nextOp = s.cl.nextOp := rfl
@[simp] theorem State.modBank_cl_cmds (s : State) (f : Bank → Bank) : (s.modBank f).cl.cmds = s.cl.cmds := rfl
@[simp] theorem State.modBank_cl_nextCmd (s : State) (f : Bank → Bank) : (s.modBank f).cl.nextCmd = s.cl.nextCmd := rfl
@[simp] theorem State.modBank_cl_accepted (s : State) (f : Bank → Bank) : (s.modBank f).cl.accepted = s.cl.accepted := rfl
@[simp] theorem State.modBank_cl_lastCmd (s : State) (f : Bank → Bank) : (s.modBank f).cl.lastCmd = s.cl.lastCmd := rfl
@[simp] theorem State.modBank_cl_barTold (s : State) (f : Bank → Bank) : (s.modBank f).cl.barTold = s.cl.barTold := rfl
@[simp] theorem State.modBank_cl_arrSlots (s : State) (f : Bank → Bank) : (s.modBank f).cl.arrSlots = s.cl.arrSlots := rfl
@[simp] theorem State.modBank_cl_arrivals (s : State) (f : Bank → Bank) : (s.modBank f).cl.arrivals = s.cl.arrivals := rfl
@[simp] theorem State.modBank_cl_searches (s : State) (f : Bank → Bank) : (s.modBank f).cl.searches = s.cl.searches := rfl
@[simp] theorem State.modBank_cl_invs (s : State) (f : Bank → Bank) : (s.modBank f).cl.invs = s.cl.invs := rfl
@[simp] theorem State.modBank_cl_preempt (s : State) (f : Bank → Bank) : (s.modBank f).cl.preempt = s.cl.preempt := rfl
@[simp] theorem State.modBank_cl_shadows (s : State) (f : Bank → Bank) : (s.modBank f).cl.shadows = s.cl.shadows := rfl
@[simp] theorem State.modBank_cl_busyVec (s : State) (f : Bank → Bank) : (s.modBank f).cl.busyVec = s.cl.busyVec := rfl
@[simp] theorem State.modBank_cl_busyUnpack (s : State) (f : Bank → Bank) : (s.modBank f).cl.busyUnpack = s.cl.busyUnpack := rfl
@[simp] theorem State.modBank_cl_busyPack (s : State) (f : Bank → Bank) : (s.modBank f).cl.busyPack = s.cl.busyPack := rfl
@[simp] theorem State.modBank_cl_sinceSample (s : State) (f : Bank → Bank) : (s.modBank f).cl.sinceSample = s.cl.sinceSample := rfl
@[simp] theorem State.modBank_cl_last (s : State) (f : Bank → Bank) : (s.modBank f).cl.last = s.cl.last := rfl
@[simp] theorem State.modBank_cl_sample (s : State) (f : Bank → Bank) : (s.modBank f).cl.sample = s.cl.sample := rfl
@[simp] theorem State.modBank_cl_evals (s : State) (f : Bank → Bank) : (s.modBank f).cl.evals = s.cl.evals := rfl
@[simp] theorem State.modBank_cl_stop (s : State) (f : Bank → Bank) : (s.modBank f).cl.stop = s.cl.stop := rfl
@[simp] theorem State.modBank_bank (s : State) (f : Bank → Bank) : (s.modBank f).cl.bank = f s.cl.bank := rfl

/-! ### State.modOpn -/

@[simp] theorem State.modOpn_others (s : State) (f : OpenBundle → OpenBundle) : (s.modOpn f).others = s.others := rfl
@[simp] theorem State.modOpn_mem (s : State) (f : OpenBundle → OpenBundle) : (s.modOpn f).mem = s.mem := rfl
@[simp] theorem State.modOpn_badWords (s : State) (f : OpenBundle → OpenBundle) : (s.modOpn f).badWords = s.badWords := rfl
@[simp] theorem State.modOpn_softWords (s : State) (f : OpenBundle → OpenBundle) : (s.modOpn f).softWords = s.softWords := rfl
@[simp] theorem State.modOpn_lines (s : State) (f : OpenBundle → OpenBundle) : (s.modOpn f).lines = s.lines := rfl
@[simp] theorem State.modOpn_cycle (s : State) (f : OpenBundle → OpenBundle) : (s.modOpn f).cycle = s.cycle := rfl
@[simp] theorem State.modOpn_tstep (s : State) (f : OpenBundle → OpenBundle) : (s.modOpn f).tstep = s.tstep := rfl
@[simp] theorem State.modOpn_tstepAt (s : State) (f : OpenBundle → OpenBundle) : (s.modOpn f).tstepAt = s.tstepAt := rfl
@[simp] theorem State.modOpn_aligned (s : State) (f : OpenBundle → OpenBundle) : (s.modOpn f).aligned = s.aligned := rfl
@[simp] theorem State.modOpn_rootBase (s : State) (f : OpenBundle → OpenBundle) : (s.modOpn f).rootBase = s.rootBase := rfl
@[simp] theorem State.modOpn_defaultTvb (s : State) (f : OpenBundle → OpenBundle) : (s.modOpn f).defaultTvb = s.defaultTvb := rfl
@[simp] theorem State.modOpn_dies (s : State) (f : OpenBundle → OpenBundle) : (s.modOpn f).dies = s.dies := rfl
@[simp] theorem State.modOpn_relocs (s : State) (f : OpenBundle → OpenBundle) : (s.modOpn f).relocs = s.relocs := rfl
@[simp] theorem State.modOpn_launches (s : State) (f : OpenBundle → OpenBundle) : (s.modOpn f).launches = s.launches := rfl
@[simp] theorem State.modOpn_nextLaunch (s : State) (f : OpenBundle → OpenBundle) : (s.modOpn f).nextLaunch = s.nextLaunch := rfl
@[simp] theorem State.modOpn_nextFire (s : State) (f : OpenBundle → OpenBundle) : (s.modOpn f).nextFire = s.nextFire := rfl
@[simp] theorem State.modOpn_fires (s : State) (f : OpenBundle → OpenBundle) : (s.modOpn f).fires = s.fires := rfl
@[simp] theorem State.modOpn_preempts (s : State) (f : OpenBundle → OpenBundle) : (s.modOpn f).preempts = s.preempts := rfl
@[simp] theorem State.modOpn_armed (s : State) (f : OpenBundle → OpenBundle) : (s.modOpn f).armed = s.armed := rfl
@[simp] theorem State.modOpn_streams (s : State) (f : OpenBundle → OpenBundle) : (s.modOpn f).streams = s.streams := rfl
@[simp] theorem State.modOpn_outbox (s : State) (f : OpenBundle → OpenBundle) : (s.modOpn f).outbox = s.outbox := rfl
@[simp] theorem State.modOpn_etherType (s : State) (f : OpenBundle → OpenBundle) : (s.modOpn f).etherType = s.etherType := rfl
@[simp] theorem State.modOpn_udpPort (s : State) (f : OpenBundle → OpenBundle) : (s.modOpn f).udpPort = s.udpPort := rfl
@[simp] theorem State.modOpn_codeGen (s : State) (f : OpenBundle → OpenBundle) : (s.modOpn f).codeGen = s.codeGen := rfl
@[simp] theorem State.modOpn_counts (s : State) (f : OpenBundle → OpenBundle) : (s.modOpn f).counts = s.counts := rfl
@[simp] theorem State.modOpn_m0 (s : State) (f : OpenBundle → OpenBundle) : (s.modOpn f).m0 = s.m0 := rfl
@[simp] theorem State.modOpn_m1 (s : State) (f : OpenBundle → OpenBundle) : (s.modOpn f).m1 = s.m1 := rfl
@[simp] theorem State.modOpn_m2 (s : State) (f : OpenBundle → OpenBundle) : (s.modOpn f).m2 = s.m2 := rfl
@[simp] theorem State.modOpn_m3 (s : State) (f : OpenBundle → OpenBundle) : (s.modOpn f).m3 = s.m3 := rfl
@[simp] theorem State.modOpn_resets (s : State) (f : OpenBundle → OpenBundle) : (s.modOpn f).resets = s.resets := rfl
@[simp] theorem State.modOpn_image (s : State) (f : OpenBundle → OpenBundle) : (s.modOpn f).image = s.image := rfl
@[simp] theorem State.modOpn_booted (s : State) (f : OpenBundle → OpenBundle) : (s.modOpn f).booted = s.booted := rfl
@[simp] theorem State.modOpn_recovery (s : State) (f : OpenBundle → OpenBundle) : (s.modOpn f).recovery = s.recovery := rfl
@[simp] theorem State.modOpn_spares (s : State) (f : OpenBundle → OpenBundle) : (s.modOpn f).spares = s.spares := rfl
@[simp] theorem State.modOpn_redBase (s : State) (f : OpenBundle → OpenBundle) : (s.modOpn f).redBase = s.redBase := rfl
@[simp] theorem State.modOpn_redLog (s : State) (f : OpenBundle → OpenBundle) : (s.modOpn f).redLog = s.redLog := rfl
@[simp] theorem State.modOpn_redGroup (s : State) (f : OpenBundle → OpenBundle) : (s.modOpn f).redGroup = s.redGroup := rfl
@[simp] theorem State.modOpn_redRank (s : State) (f : OpenBundle → OpenBundle) : (s.modOpn f).redRank = s.redRank := rfl
@[simp] theorem State.modOpn_redCons (s : State) (f : OpenBundle → OpenBundle) : (s.modOpn f).redCons = s.redCons := rfl
@[simp] theorem State.modOpn_red (s : State) (f : OpenBundle → OpenBundle) : (s.modOpn f).red = s.red := rfl
@[simp] theorem State.modOpn_pollSlot (s : State) (f : OpenBundle → OpenBundle) : (s.modOpn f).pollSlot = s.pollSlot := rfl
@[simp] theorem State.modOpn_agenda (s : State) (f : OpenBundle → OpenBundle) : (s.modOpn f).agenda = s.agenda := rfl
@[simp] theorem State.modOpn_ev (s : State) (f : OpenBundle → OpenBundle) : (s.modOpn f).ev = s.ev := rfl
@[simp] theorem State.modOpn_turn (s : State) (f : OpenBundle → OpenBundle) : (s.modOpn f).turn = s.turn := rfl
@[simp] theorem State.modOpn_freeCtr (s : State) (f : OpenBundle → OpenBundle) : (s.modOpn f).freeCtr = s.freeCtr := rfl
@[simp] theorem State.modOpn_readied (s : State) (f : OpenBundle → OpenBundle) : (s.modOpn f).readied = s.readied := rfl
@[simp] theorem State.modOpn_cl_id (s : State) (f : OpenBundle → OpenBundle) : (s.modOpn f).cl.id = s.cl.id := rfl
@[simp] theorem State.modOpn_cl_part (s : State) (f : OpenBundle → OpenBundle) : (s.modOpn f).cl.part = s.cl.part := rfl
@[simp] theorem State.modOpn_cl_asn (s : State) (f : OpenBundle → OpenBundle) : (s.modOpn f).cl.asn = s.cl.asn := rfl
@[simp] theorem State.modOpn_cl_run (s : State) (f : OpenBundle → OpenBundle) : (s.modOpn f).cl.run = s.cl.run := rfl
@[simp] theorem State.modOpn_cl_bank (s : State) (f : OpenBundle → OpenBundle) : (s.modOpn f).cl.bank = s.cl.bank := rfl
@[simp] theorem State.modOpn_cl_banks (s : State) (f : OpenBundle → OpenBundle) : (s.modOpn f).cl.banks = s.cl.banks := rfl
@[simp] theorem State.modOpn_cl_cores (s : State) (f : OpenBundle → OpenBundle) : (s.modOpn f).cl.cores = s.cl.cores := rfl
@[simp] theorem State.modOpn_cl_tlb (s : State) (f : OpenBundle → OpenBundle) : (s.modOpn f).cl.tlb = s.cl.tlb := rfl
@[simp] theorem State.modOpn_cl_time (s : State) (f : OpenBundle → OpenBundle) : (s.modOpn f).cl.time = s.cl.time := rfl
@[simp] theorem State.modOpn_cl_frozen (s : State) (f : OpenBundle → OpenBundle) : (s.modOpn f).cl.frozen = s.cl.frozen := rfl
@[simp] theorem State.modOpn_cl_lastAt (s : State) (f : OpenBundle → OpenBundle) : (s.modOpn f).cl.lastAt = s.cl.lastAt := rfl
@[simp] theorem State.modOpn_cl_lastSkew (s : State) (f : OpenBundle → OpenBundle) : (s.modOpn f).cl.lastSkew = s.cl.lastSkew := rfl
@[simp] theorem State.modOpn_cl_nextOp (s : State) (f : OpenBundle → OpenBundle) : (s.modOpn f).cl.nextOp = s.cl.nextOp := rfl
@[simp] theorem State.modOpn_cl_cmds (s : State) (f : OpenBundle → OpenBundle) : (s.modOpn f).cl.cmds = s.cl.cmds := rfl
@[simp] theorem State.modOpn_cl_nextCmd (s : State) (f : OpenBundle → OpenBundle) : (s.modOpn f).cl.nextCmd = s.cl.nextCmd := rfl
@[simp] theorem State.modOpn_cl_accepted (s : State) (f : OpenBundle → OpenBundle) : (s.modOpn f).cl.accepted = s.cl.accepted := rfl
@[simp] theorem State.modOpn_cl_lastCmd (s : State) (f : OpenBundle → OpenBundle) : (s.modOpn f).cl.lastCmd = s.cl.lastCmd := rfl
@[simp] theorem State.modOpn_cl_barTold (s : State) (f : OpenBundle → OpenBundle) : (s.modOpn f).cl.barTold = s.cl.barTold := rfl
@[simp] theorem State.modOpn_cl_arrSlots (s : State) (f : OpenBundle → OpenBundle) : (s.modOpn f).cl.arrSlots = s.cl.arrSlots := rfl
@[simp] theorem State.modOpn_cl_arrivals (s : State) (f : OpenBundle → OpenBundle) : (s.modOpn f).cl.arrivals = s.cl.arrivals := rfl
@[simp] theorem State.modOpn_cl_searches (s : State) (f : OpenBundle → OpenBundle) : (s.modOpn f).cl.searches = s.cl.searches := rfl
@[simp] theorem State.modOpn_cl_invs (s : State) (f : OpenBundle → OpenBundle) : (s.modOpn f).cl.invs = s.cl.invs := rfl
@[simp] theorem State.modOpn_cl_preempt (s : State) (f : OpenBundle → OpenBundle) : (s.modOpn f).cl.preempt = s.cl.preempt := rfl
@[simp] theorem State.modOpn_cl_shadows (s : State) (f : OpenBundle → OpenBundle) : (s.modOpn f).cl.shadows = s.cl.shadows := rfl
@[simp] theorem State.modOpn_cl_busyVec (s : State) (f : OpenBundle → OpenBundle) : (s.modOpn f).cl.busyVec = s.cl.busyVec := rfl
@[simp] theorem State.modOpn_cl_busyUnpack (s : State) (f : OpenBundle → OpenBundle) : (s.modOpn f).cl.busyUnpack = s.cl.busyUnpack := rfl
@[simp] theorem State.modOpn_cl_busyPack (s : State) (f : OpenBundle → OpenBundle) : (s.modOpn f).cl.busyPack = s.cl.busyPack := rfl
@[simp] theorem State.modOpn_cl_sinceSample (s : State) (f : OpenBundle → OpenBundle) : (s.modOpn f).cl.sinceSample = s.cl.sinceSample := rfl
@[simp] theorem State.modOpn_cl_last (s : State) (f : OpenBundle → OpenBundle) : (s.modOpn f).cl.last = s.cl.last := rfl
@[simp] theorem State.modOpn_cl_sample (s : State) (f : OpenBundle → OpenBundle) : (s.modOpn f).cl.sample = s.cl.sample := rfl
@[simp] theorem State.modOpn_cl_evals (s : State) (f : OpenBundle → OpenBundle) : (s.modOpn f).cl.evals = s.cl.evals := rfl
@[simp] theorem State.modOpn_cl_stop (s : State) (f : OpenBundle → OpenBundle) : (s.modOpn f).cl.stop = s.cl.stop := rfl

/-! ### State.modCoreBank -/

@[simp] theorem State.modCoreBank_others (s : State) (k : Fin 8) (f : CoreBank → CoreBank) : (s.modCoreBank k f).others = s.others := rfl
@[simp] theorem State.modCoreBank_mem (s : State) (k : Fin 8) (f : CoreBank → CoreBank) : (s.modCoreBank k f).mem = s.mem := rfl
@[simp] theorem State.modCoreBank_badWords (s : State) (k : Fin 8) (f : CoreBank → CoreBank) : (s.modCoreBank k f).badWords = s.badWords := rfl
@[simp] theorem State.modCoreBank_softWords (s : State) (k : Fin 8) (f : CoreBank → CoreBank) : (s.modCoreBank k f).softWords = s.softWords := rfl
@[simp] theorem State.modCoreBank_lines (s : State) (k : Fin 8) (f : CoreBank → CoreBank) : (s.modCoreBank k f).lines = s.lines := rfl
@[simp] theorem State.modCoreBank_cycle (s : State) (k : Fin 8) (f : CoreBank → CoreBank) : (s.modCoreBank k f).cycle = s.cycle := rfl
@[simp] theorem State.modCoreBank_tstep (s : State) (k : Fin 8) (f : CoreBank → CoreBank) : (s.modCoreBank k f).tstep = s.tstep := rfl
@[simp] theorem State.modCoreBank_tstepAt (s : State) (k : Fin 8) (f : CoreBank → CoreBank) : (s.modCoreBank k f).tstepAt = s.tstepAt := rfl
@[simp] theorem State.modCoreBank_aligned (s : State) (k : Fin 8) (f : CoreBank → CoreBank) : (s.modCoreBank k f).aligned = s.aligned := rfl
@[simp] theorem State.modCoreBank_rootBase (s : State) (k : Fin 8) (f : CoreBank → CoreBank) : (s.modCoreBank k f).rootBase = s.rootBase := rfl
@[simp] theorem State.modCoreBank_defaultTvb (s : State) (k : Fin 8) (f : CoreBank → CoreBank) : (s.modCoreBank k f).defaultTvb = s.defaultTvb := rfl
@[simp] theorem State.modCoreBank_dies (s : State) (k : Fin 8) (f : CoreBank → CoreBank) : (s.modCoreBank k f).dies = s.dies := rfl
@[simp] theorem State.modCoreBank_relocs (s : State) (k : Fin 8) (f : CoreBank → CoreBank) : (s.modCoreBank k f).relocs = s.relocs := rfl
@[simp] theorem State.modCoreBank_launches (s : State) (k : Fin 8) (f : CoreBank → CoreBank) : (s.modCoreBank k f).launches = s.launches := rfl
@[simp] theorem State.modCoreBank_nextLaunch (s : State) (k : Fin 8) (f : CoreBank → CoreBank) : (s.modCoreBank k f).nextLaunch = s.nextLaunch := rfl
@[simp] theorem State.modCoreBank_nextFire (s : State) (k : Fin 8) (f : CoreBank → CoreBank) : (s.modCoreBank k f).nextFire = s.nextFire := rfl
@[simp] theorem State.modCoreBank_fires (s : State) (k : Fin 8) (f : CoreBank → CoreBank) : (s.modCoreBank k f).fires = s.fires := rfl
@[simp] theorem State.modCoreBank_preempts (s : State) (k : Fin 8) (f : CoreBank → CoreBank) : (s.modCoreBank k f).preempts = s.preempts := rfl
@[simp] theorem State.modCoreBank_armed (s : State) (k : Fin 8) (f : CoreBank → CoreBank) : (s.modCoreBank k f).armed = s.armed := rfl
@[simp] theorem State.modCoreBank_streams (s : State) (k : Fin 8) (f : CoreBank → CoreBank) : (s.modCoreBank k f).streams = s.streams := rfl
@[simp] theorem State.modCoreBank_outbox (s : State) (k : Fin 8) (f : CoreBank → CoreBank) : (s.modCoreBank k f).outbox = s.outbox := rfl
@[simp] theorem State.modCoreBank_etherType (s : State) (k : Fin 8) (f : CoreBank → CoreBank) : (s.modCoreBank k f).etherType = s.etherType := rfl
@[simp] theorem State.modCoreBank_udpPort (s : State) (k : Fin 8) (f : CoreBank → CoreBank) : (s.modCoreBank k f).udpPort = s.udpPort := rfl
@[simp] theorem State.modCoreBank_codeGen (s : State) (k : Fin 8) (f : CoreBank → CoreBank) : (s.modCoreBank k f).codeGen = s.codeGen := rfl
@[simp] theorem State.modCoreBank_counts (s : State) (k : Fin 8) (f : CoreBank → CoreBank) : (s.modCoreBank k f).counts = s.counts := rfl
@[simp] theorem State.modCoreBank_m0 (s : State) (k : Fin 8) (f : CoreBank → CoreBank) : (s.modCoreBank k f).m0 = s.m0 := rfl
@[simp] theorem State.modCoreBank_m1 (s : State) (k : Fin 8) (f : CoreBank → CoreBank) : (s.modCoreBank k f).m1 = s.m1 := rfl
@[simp] theorem State.modCoreBank_m2 (s : State) (k : Fin 8) (f : CoreBank → CoreBank) : (s.modCoreBank k f).m2 = s.m2 := rfl
@[simp] theorem State.modCoreBank_m3 (s : State) (k : Fin 8) (f : CoreBank → CoreBank) : (s.modCoreBank k f).m3 = s.m3 := rfl
@[simp] theorem State.modCoreBank_resets (s : State) (k : Fin 8) (f : CoreBank → CoreBank) : (s.modCoreBank k f).resets = s.resets := rfl
@[simp] theorem State.modCoreBank_image (s : State) (k : Fin 8) (f : CoreBank → CoreBank) : (s.modCoreBank k f).image = s.image := rfl
@[simp] theorem State.modCoreBank_booted (s : State) (k : Fin 8) (f : CoreBank → CoreBank) : (s.modCoreBank k f).booted = s.booted := rfl
@[simp] theorem State.modCoreBank_recovery (s : State) (k : Fin 8) (f : CoreBank → CoreBank) : (s.modCoreBank k f).recovery = s.recovery := rfl
@[simp] theorem State.modCoreBank_spares (s : State) (k : Fin 8) (f : CoreBank → CoreBank) : (s.modCoreBank k f).spares = s.spares := rfl
@[simp] theorem State.modCoreBank_redBase (s : State) (k : Fin 8) (f : CoreBank → CoreBank) : (s.modCoreBank k f).redBase = s.redBase := rfl
@[simp] theorem State.modCoreBank_redLog (s : State) (k : Fin 8) (f : CoreBank → CoreBank) : (s.modCoreBank k f).redLog = s.redLog := rfl
@[simp] theorem State.modCoreBank_redGroup (s : State) (k : Fin 8) (f : CoreBank → CoreBank) : (s.modCoreBank k f).redGroup = s.redGroup := rfl
@[simp] theorem State.modCoreBank_redRank (s : State) (k : Fin 8) (f : CoreBank → CoreBank) : (s.modCoreBank k f).redRank = s.redRank := rfl
@[simp] theorem State.modCoreBank_redCons (s : State) (k : Fin 8) (f : CoreBank → CoreBank) : (s.modCoreBank k f).redCons = s.redCons := rfl
@[simp] theorem State.modCoreBank_red (s : State) (k : Fin 8) (f : CoreBank → CoreBank) : (s.modCoreBank k f).red = s.red := rfl
@[simp] theorem State.modCoreBank_pollSlot (s : State) (k : Fin 8) (f : CoreBank → CoreBank) : (s.modCoreBank k f).pollSlot = s.pollSlot := rfl
@[simp] theorem State.modCoreBank_agenda (s : State) (k : Fin 8) (f : CoreBank → CoreBank) : (s.modCoreBank k f).agenda = s.agenda := rfl
@[simp] theorem State.modCoreBank_ev (s : State) (k : Fin 8) (f : CoreBank → CoreBank) : (s.modCoreBank k f).ev = s.ev := rfl
@[simp] theorem State.modCoreBank_turn (s : State) (k : Fin 8) (f : CoreBank → CoreBank) : (s.modCoreBank k f).turn = s.turn := rfl
@[simp] theorem State.modCoreBank_freeCtr (s : State) (k : Fin 8) (f : CoreBank → CoreBank) : (s.modCoreBank k f).freeCtr = s.freeCtr := rfl
@[simp] theorem State.modCoreBank_readied (s : State) (k : Fin 8) (f : CoreBank → CoreBank) : (s.modCoreBank k f).readied = s.readied := rfl
@[simp] theorem State.modCoreBank_cl_id (s : State) (k : Fin 8) (f : CoreBank → CoreBank) : (s.modCoreBank k f).cl.id = s.cl.id := rfl
@[simp] theorem State.modCoreBank_cl_part (s : State) (k : Fin 8) (f : CoreBank → CoreBank) : (s.modCoreBank k f).cl.part = s.cl.part := rfl
@[simp] theorem State.modCoreBank_cl_asn (s : State) (k : Fin 8) (f : CoreBank → CoreBank) : (s.modCoreBank k f).cl.asn = s.cl.asn := rfl
@[simp] theorem State.modCoreBank_cl_run (s : State) (k : Fin 8) (f : CoreBank → CoreBank) : (s.modCoreBank k f).cl.run = s.cl.run := rfl
@[simp] theorem State.modCoreBank_cl_banks (s : State) (k : Fin 8) (f : CoreBank → CoreBank) : (s.modCoreBank k f).cl.banks = s.cl.banks := rfl
@[simp] theorem State.modCoreBank_cl_cores (s : State) (k : Fin 8) (f : CoreBank → CoreBank) : (s.modCoreBank k f).cl.cores = s.cl.cores := rfl
@[simp] theorem State.modCoreBank_cl_tlb (s : State) (k : Fin 8) (f : CoreBank → CoreBank) : (s.modCoreBank k f).cl.tlb = s.cl.tlb := rfl
@[simp] theorem State.modCoreBank_cl_time (s : State) (k : Fin 8) (f : CoreBank → CoreBank) : (s.modCoreBank k f).cl.time = s.cl.time := rfl
@[simp] theorem State.modCoreBank_cl_frozen (s : State) (k : Fin 8) (f : CoreBank → CoreBank) : (s.modCoreBank k f).cl.frozen = s.cl.frozen := rfl
@[simp] theorem State.modCoreBank_cl_lastAt (s : State) (k : Fin 8) (f : CoreBank → CoreBank) : (s.modCoreBank k f).cl.lastAt = s.cl.lastAt := rfl
@[simp] theorem State.modCoreBank_cl_lastSkew (s : State) (k : Fin 8) (f : CoreBank → CoreBank) : (s.modCoreBank k f).cl.lastSkew = s.cl.lastSkew := rfl
@[simp] theorem State.modCoreBank_cl_opn (s : State) (k : Fin 8) (f : CoreBank → CoreBank) : (s.modCoreBank k f).cl.opn = s.cl.opn := rfl
@[simp] theorem State.modCoreBank_cl_nextOp (s : State) (k : Fin 8) (f : CoreBank → CoreBank) : (s.modCoreBank k f).cl.nextOp = s.cl.nextOp := rfl
@[simp] theorem State.modCoreBank_cl_cmds (s : State) (k : Fin 8) (f : CoreBank → CoreBank) : (s.modCoreBank k f).cl.cmds = s.cl.cmds := rfl
@[simp] theorem State.modCoreBank_cl_nextCmd (s : State) (k : Fin 8) (f : CoreBank → CoreBank) : (s.modCoreBank k f).cl.nextCmd = s.cl.nextCmd := rfl
@[simp] theorem State.modCoreBank_cl_accepted (s : State) (k : Fin 8) (f : CoreBank → CoreBank) : (s.modCoreBank k f).cl.accepted = s.cl.accepted := rfl
@[simp] theorem State.modCoreBank_cl_lastCmd (s : State) (k : Fin 8) (f : CoreBank → CoreBank) : (s.modCoreBank k f).cl.lastCmd = s.cl.lastCmd := rfl
@[simp] theorem State.modCoreBank_cl_barTold (s : State) (k : Fin 8) (f : CoreBank → CoreBank) : (s.modCoreBank k f).cl.barTold = s.cl.barTold := rfl
@[simp] theorem State.modCoreBank_cl_arrSlots (s : State) (k : Fin 8) (f : CoreBank → CoreBank) : (s.modCoreBank k f).cl.arrSlots = s.cl.arrSlots := rfl
@[simp] theorem State.modCoreBank_cl_arrivals (s : State) (k : Fin 8) (f : CoreBank → CoreBank) : (s.modCoreBank k f).cl.arrivals = s.cl.arrivals := rfl
@[simp] theorem State.modCoreBank_cl_searches (s : State) (k : Fin 8) (f : CoreBank → CoreBank) : (s.modCoreBank k f).cl.searches = s.cl.searches := rfl
@[simp] theorem State.modCoreBank_cl_invs (s : State) (k : Fin 8) (f : CoreBank → CoreBank) : (s.modCoreBank k f).cl.invs = s.cl.invs := rfl
@[simp] theorem State.modCoreBank_cl_preempt (s : State) (k : Fin 8) (f : CoreBank → CoreBank) : (s.modCoreBank k f).cl.preempt = s.cl.preempt := rfl
@[simp] theorem State.modCoreBank_cl_shadows (s : State) (k : Fin 8) (f : CoreBank → CoreBank) : (s.modCoreBank k f).cl.shadows = s.cl.shadows := rfl
@[simp] theorem State.modCoreBank_cl_busyVec (s : State) (k : Fin 8) (f : CoreBank → CoreBank) : (s.modCoreBank k f).cl.busyVec = s.cl.busyVec := rfl
@[simp] theorem State.modCoreBank_cl_busyUnpack (s : State) (k : Fin 8) (f : CoreBank → CoreBank) : (s.modCoreBank k f).cl.busyUnpack = s.cl.busyUnpack := rfl
@[simp] theorem State.modCoreBank_cl_busyPack (s : State) (k : Fin 8) (f : CoreBank → CoreBank) : (s.modCoreBank k f).cl.busyPack = s.cl.busyPack := rfl
@[simp] theorem State.modCoreBank_cl_sinceSample (s : State) (k : Fin 8) (f : CoreBank → CoreBank) : (s.modCoreBank k f).cl.sinceSample = s.cl.sinceSample := rfl
@[simp] theorem State.modCoreBank_cl_last (s : State) (k : Fin 8) (f : CoreBank → CoreBank) : (s.modCoreBank k f).cl.last = s.cl.last := rfl
@[simp] theorem State.modCoreBank_cl_sample (s : State) (k : Fin 8) (f : CoreBank → CoreBank) : (s.modCoreBank k f).cl.sample = s.cl.sample := rfl
@[simp] theorem State.modCoreBank_cl_evals (s : State) (k : Fin 8) (f : CoreBank → CoreBank) : (s.modCoreBank k f).cl.evals = s.cl.evals := rfl
@[simp] theorem State.modCoreBank_cl_stop (s : State) (k : Fin 8) (f : CoreBank → CoreBank) : (s.modCoreBank k f).cl.stop = s.cl.stop := rfl
@[simp] theorem State.modCoreBank_bank_state (s : State) (k : Fin 8) (f : CoreBank → CoreBank) : (s.modCoreBank k f).cl.bank.state = s.cl.bank.state := rfl
@[simp] theorem State.modCoreBank_bank_file (s : State) (k : Fin 8) (f : CoreBank → CoreBank) : (s.modCoreBank k f).cl.bank.file = s.cl.bank.file := rfl
@[simp] theorem State.modCoreBank_bank_lc (s : State) (k : Fin 8) (f : CoreBank → CoreBank) : (s.modCoreBank k f).cl.bank.lc = s.cl.bank.lc := rfl
@[simp] theorem State.modCoreBank_bank_loops (s : State) (k : Fin 8) (f : CoreBank → CoreBank) : (s.modCoreBank k f).cl.bank.loops = s.cl.bank.loops := rfl
@[simp] theorem State.modCoreBank_bank_aside (s : State) (k : Fin 8) (f : CoreBank → CoreBank) : (s.modCoreBank k f).cl.bank.aside = s.cl.bank.aside := rfl
@[simp] theorem State.modCoreBank_bank_loopBuf (s : State) (k : Fin 8) (f : CoreBank → CoreBank) : (s.modCoreBank k f).cl.bank.loopBuf = s.cl.bank.loopBuf := rfl
@[simp] theorem State.modCoreBank_bank_pc (s : State) (k : Fin 8) (f : CoreBank → CoreBank) : (s.modCoreBank k f).cl.bank.pc = s.cl.bank.pc := rfl
@[simp] theorem State.modCoreBank_bank_tsw (s : State) (k : Fin 8) (f : CoreBank → CoreBank) : (s.modCoreBank k f).cl.bank.tsw = s.cl.bank.tsw := rfl
@[simp] theorem State.modCoreBank_bank_wid (s : State) (k : Fin 8) (f : CoreBank → CoreBank) : (s.modCoreBank k f).cl.bank.wid = s.cl.bank.wid := rfl
@[simp] theorem State.modCoreBank_bank_trec (s : State) (k : Fin 8) (f : CoreBank → CoreBank) : (s.modCoreBank k f).cl.bank.trec = s.cl.bank.trec := rfl
@[simp] theorem State.modCoreBank_bank_frame (s : State) (k : Fin 8) (f : CoreBank → CoreBank) : (s.modCoreBank k f).cl.bank.frame = s.cl.bank.frame := rfl
@[simp] theorem State.modCoreBank_bank_tidx (s : State) (k : Fin 8) (f : CoreBank → CoreBank) : (s.modCoreBank k f).cl.bank.tidx = s.cl.bank.tidx := rfl
@[simp] theorem State.modCoreBank_bank_lrec (s : State) (k : Fin 8) (f : CoreBank → CoreBank) : (s.modCoreBank k f).cl.bank.lrec = s.cl.bank.lrec := rfl
@[simp] theorem State.modCoreBank_bank_slen (s : State) (k : Fin 8) (f : CoreBank → CoreBank) : (s.modCoreBank k f).cl.bank.slen = s.cl.bank.slen := rfl
@[simp] theorem State.modCoreBank_bank_coreEn (s : State) (k : Fin 8) (f : CoreBank → CoreBank) : (s.modCoreBank k f).cl.bank.coreEn = s.cl.bank.coreEn := rfl
@[simp] theorem State.modCoreBank_bank_skew (s : State) (k : Fin 8) (f : CoreBank → CoreBank) : (s.modCoreBank k f).cl.bank.skew = s.cl.bank.skew := rfl
@[simp] theorem State.modCoreBank_bank_vl (s : State) (k : Fin 8) (f : CoreBank → CoreBank) : (s.modCoreBank k f).cl.bank.vl = s.cl.bank.vl := rfl
@[simp] theorem State.modCoreBank_bank_vtype (s : State) (k : Fin 8) (f : CoreBank → CoreBank) : (s.modCoreBank k f).cl.bank.vtype = s.cl.bank.vtype := rfl
@[simp] theorem State.modCoreBank_bank_gpos (s : State) (k : Fin 8) (f : CoreBank → CoreBank) : (s.modCoreBank k f).cl.bank.gpos = s.cl.bank.gpos := rfl
@[simp] theorem State.modCoreBank_bank_gseedA (s : State) (k : Fin 8) (f : CoreBank → CoreBank) : (s.modCoreBank k f).cl.bank.gseedA = s.cl.bank.gseedA := rfl
@[simp] theorem State.modCoreBank_bank_gseedB (s : State) (k : Fin 8) (f : CoreBank → CoreBank) : (s.modCoreBank k f).cl.bank.gseedB = s.cl.bank.gseedB := rfl
@[simp] theorem State.modCoreBank_bank_tvb (s : State) (k : Fin 8) (f : CoreBank → CoreBank) : (s.modCoreBank k f).cl.bank.tvb = s.cl.bank.tvb := rfl
@[simp] theorem State.modCoreBank_bank_tpc (s : State) (k : Fin 8) (f : CoreBank → CoreBank) : (s.modCoreBank k f).cl.bank.tpc = s.cl.bank.tpc := rfl
@[simp] theorem State.modCoreBank_bank_tcause (s : State) (k : Fin 8) (f : CoreBank → CoreBank) : (s.modCoreBank k f).cl.bank.tcause = s.cl.bank.tcause := rfl
@[simp] theorem State.modCoreBank_bank_tval (s : State) (k : Fin 8) (f : CoreBank → CoreBank) : (s.modCoreBank k f).cl.bank.tval = s.cl.bank.tval := rfl
@[simp] theorem State.modCoreBank_bank_handles (s : State) (k : Fin 8) (f : CoreBank → CoreBank) : (s.modCoreBank k f).cl.bank.handles = s.cl.bank.handles := rfl
@[simp] theorem State.modCoreBank_bank_pend (s : State) (k : Fin 8) (f : CoreBank → CoreBank) : (s.modCoreBank k f).cl.bank.pend = s.cl.bank.pend := rfl
@[simp] theorem State.modCoreBank_bank_qLast (s : State) (k : Fin 8) (f : CoreBank → CoreBank) : (s.modCoreBank k f).cl.bank.qLast = s.cl.bank.qLast := rfl
@[simp] theorem State.modCoreBank_bank_ops (s : State) (k : Fin 8) (f : CoreBank → CoreBank) : (s.modCoreBank k f).cl.bank.ops = s.cl.bank.ops := rfl
@[simp] theorem State.modCoreBank_bank_windows (s : State) (k : Fin 8) (f : CoreBank → CoreBank) : (s.modCoreBank k f).cl.bank.windows = s.cl.bank.windows := rfl
@[simp] theorem State.modCoreBank_bank_holds (s : State) (k : Fin 8) (f : CoreBank → CoreBank) : (s.modCoreBank k f).cl.bank.holds = s.cl.bank.holds := rfl
@[simp] theorem State.modCoreBank_bank_tlbinvs (s : State) (k : Fin 8) (f : CoreBank → CoreBank) : (s.modCoreBank k f).cl.bank.tlbinvs = s.cl.bank.tlbinvs := rfl
@[simp] theorem State.modCoreBank_bank_reenter (s : State) (k : Fin 8) (f : CoreBank → CoreBank) : (s.modCoreBank k f).cl.bank.reenter = s.cl.bank.reenter := rfl
@[simp] theorem State.modCoreBank_bank_pendTrap (s : State) (k : Fin 8) (f : CoreBank → CoreBank) : (s.modCoreBank k f).cl.bank.pendTrap = s.cl.bank.pendTrap := rfl
@[simp] theorem State.modCoreBank_bank_checked (s : State) (k : Fin 8) (f : CoreBank → CoreBank) : (s.modCoreBank k f).cl.bank.checked = s.cl.bank.checked := rfl
@[simp] theorem State.modCoreBank_bank_checkedNew (s : State) (k : Fin 8) (f : CoreBank → CoreBank) : (s.modCoreBank k f).cl.bank.checkedNew = s.cl.bank.checkedNew := rfl
@[simp] theorem State.modCoreBank_bank_checkedAt (s : State) (k : Fin 8) (f : CoreBank → CoreBank) : (s.modCoreBank k f).cl.bank.checkedAt = s.cl.bank.checkedAt := rfl
@[simp] theorem State.modCoreBank_bank_mcAddr (s : State) (k : Fin 8) (f : CoreBank → CoreBank) : (s.modCoreBank k f).cl.bank.mcAddr = s.cl.bank.mcAddr := rfl
@[simp] theorem State.modCoreBank_bank_courierErrs (s : State) (k : Fin 8) (f : CoreBank → CoreBank) : (s.modCoreBank k f).cl.bank.courierErrs = s.cl.bank.courierErrs := rfl
@[simp] theorem State.modCoreBank_bank_byArrival (s : State) (k : Fin 8) (f : CoreBank → CoreBank) : (s.modCoreBank k f).cl.bank.byArrival = s.cl.bank.byArrival := rfl
@[simp] theorem State.modCoreBank_bank_readySince (s : State) (k : Fin 8) (f : CoreBank → CoreBank) : (s.modCoreBank k f).cl.bank.readySince = s.cl.bank.readySince := rfl
@[simp] theorem State.modCoreBank_bank_prio (s : State) (k : Fin 8) (f : CoreBank → CoreBank) : (s.modCoreBank k f).cl.bank.prio = s.cl.bank.prio := rfl
@[simp] theorem State.modCoreBank_bank_slept (s : State) (k : Fin 8) (f : CoreBank → CoreBank) : (s.modCoreBank k f).cl.bank.slept = s.cl.bank.slept := rfl
@[simp] theorem State.modCoreBank_bank_residual (s : State) (k : Fin 8) (f : CoreBank → CoreBank) : (s.modCoreBank k f).cl.bank.residual = s.cl.bank.residual := rfl

/-! ### State.modCore -/

@[simp] theorem State.modCore_others (s : State) (k : Fin 8) (f : PhysCore → PhysCore) : (s.modCore k f).others = s.others := rfl
@[simp] theorem State.modCore_mem (s : State) (k : Fin 8) (f : PhysCore → PhysCore) : (s.modCore k f).mem = s.mem := rfl
@[simp] theorem State.modCore_badWords (s : State) (k : Fin 8) (f : PhysCore → PhysCore) : (s.modCore k f).badWords = s.badWords := rfl
@[simp] theorem State.modCore_softWords (s : State) (k : Fin 8) (f : PhysCore → PhysCore) : (s.modCore k f).softWords = s.softWords := rfl
@[simp] theorem State.modCore_lines (s : State) (k : Fin 8) (f : PhysCore → PhysCore) : (s.modCore k f).lines = s.lines := rfl
@[simp] theorem State.modCore_cycle (s : State) (k : Fin 8) (f : PhysCore → PhysCore) : (s.modCore k f).cycle = s.cycle := rfl
@[simp] theorem State.modCore_tstep (s : State) (k : Fin 8) (f : PhysCore → PhysCore) : (s.modCore k f).tstep = s.tstep := rfl
@[simp] theorem State.modCore_tstepAt (s : State) (k : Fin 8) (f : PhysCore → PhysCore) : (s.modCore k f).tstepAt = s.tstepAt := rfl
@[simp] theorem State.modCore_aligned (s : State) (k : Fin 8) (f : PhysCore → PhysCore) : (s.modCore k f).aligned = s.aligned := rfl
@[simp] theorem State.modCore_rootBase (s : State) (k : Fin 8) (f : PhysCore → PhysCore) : (s.modCore k f).rootBase = s.rootBase := rfl
@[simp] theorem State.modCore_defaultTvb (s : State) (k : Fin 8) (f : PhysCore → PhysCore) : (s.modCore k f).defaultTvb = s.defaultTvb := rfl
@[simp] theorem State.modCore_dies (s : State) (k : Fin 8) (f : PhysCore → PhysCore) : (s.modCore k f).dies = s.dies := rfl
@[simp] theorem State.modCore_relocs (s : State) (k : Fin 8) (f : PhysCore → PhysCore) : (s.modCore k f).relocs = s.relocs := rfl
@[simp] theorem State.modCore_launches (s : State) (k : Fin 8) (f : PhysCore → PhysCore) : (s.modCore k f).launches = s.launches := rfl
@[simp] theorem State.modCore_nextLaunch (s : State) (k : Fin 8) (f : PhysCore → PhysCore) : (s.modCore k f).nextLaunch = s.nextLaunch := rfl
@[simp] theorem State.modCore_nextFire (s : State) (k : Fin 8) (f : PhysCore → PhysCore) : (s.modCore k f).nextFire = s.nextFire := rfl
@[simp] theorem State.modCore_fires (s : State) (k : Fin 8) (f : PhysCore → PhysCore) : (s.modCore k f).fires = s.fires := rfl
@[simp] theorem State.modCore_preempts (s : State) (k : Fin 8) (f : PhysCore → PhysCore) : (s.modCore k f).preempts = s.preempts := rfl
@[simp] theorem State.modCore_armed (s : State) (k : Fin 8) (f : PhysCore → PhysCore) : (s.modCore k f).armed = s.armed := rfl
@[simp] theorem State.modCore_streams (s : State) (k : Fin 8) (f : PhysCore → PhysCore) : (s.modCore k f).streams = s.streams := rfl
@[simp] theorem State.modCore_outbox (s : State) (k : Fin 8) (f : PhysCore → PhysCore) : (s.modCore k f).outbox = s.outbox := rfl
@[simp] theorem State.modCore_etherType (s : State) (k : Fin 8) (f : PhysCore → PhysCore) : (s.modCore k f).etherType = s.etherType := rfl
@[simp] theorem State.modCore_udpPort (s : State) (k : Fin 8) (f : PhysCore → PhysCore) : (s.modCore k f).udpPort = s.udpPort := rfl
@[simp] theorem State.modCore_codeGen (s : State) (k : Fin 8) (f : PhysCore → PhysCore) : (s.modCore k f).codeGen = s.codeGen := rfl
@[simp] theorem State.modCore_counts (s : State) (k : Fin 8) (f : PhysCore → PhysCore) : (s.modCore k f).counts = s.counts := rfl
@[simp] theorem State.modCore_m0 (s : State) (k : Fin 8) (f : PhysCore → PhysCore) : (s.modCore k f).m0 = s.m0 := rfl
@[simp] theorem State.modCore_m1 (s : State) (k : Fin 8) (f : PhysCore → PhysCore) : (s.modCore k f).m1 = s.m1 := rfl
@[simp] theorem State.modCore_m2 (s : State) (k : Fin 8) (f : PhysCore → PhysCore) : (s.modCore k f).m2 = s.m2 := rfl
@[simp] theorem State.modCore_m3 (s : State) (k : Fin 8) (f : PhysCore → PhysCore) : (s.modCore k f).m3 = s.m3 := rfl
@[simp] theorem State.modCore_resets (s : State) (k : Fin 8) (f : PhysCore → PhysCore) : (s.modCore k f).resets = s.resets := rfl
@[simp] theorem State.modCore_image (s : State) (k : Fin 8) (f : PhysCore → PhysCore) : (s.modCore k f).image = s.image := rfl
@[simp] theorem State.modCore_booted (s : State) (k : Fin 8) (f : PhysCore → PhysCore) : (s.modCore k f).booted = s.booted := rfl
@[simp] theorem State.modCore_recovery (s : State) (k : Fin 8) (f : PhysCore → PhysCore) : (s.modCore k f).recovery = s.recovery := rfl
@[simp] theorem State.modCore_spares (s : State) (k : Fin 8) (f : PhysCore → PhysCore) : (s.modCore k f).spares = s.spares := rfl
@[simp] theorem State.modCore_redBase (s : State) (k : Fin 8) (f : PhysCore → PhysCore) : (s.modCore k f).redBase = s.redBase := rfl
@[simp] theorem State.modCore_redLog (s : State) (k : Fin 8) (f : PhysCore → PhysCore) : (s.modCore k f).redLog = s.redLog := rfl
@[simp] theorem State.modCore_redGroup (s : State) (k : Fin 8) (f : PhysCore → PhysCore) : (s.modCore k f).redGroup = s.redGroup := rfl
@[simp] theorem State.modCore_redRank (s : State) (k : Fin 8) (f : PhysCore → PhysCore) : (s.modCore k f).redRank = s.redRank := rfl
@[simp] theorem State.modCore_redCons (s : State) (k : Fin 8) (f : PhysCore → PhysCore) : (s.modCore k f).redCons = s.redCons := rfl
@[simp] theorem State.modCore_red (s : State) (k : Fin 8) (f : PhysCore → PhysCore) : (s.modCore k f).red = s.red := rfl
@[simp] theorem State.modCore_pollSlot (s : State) (k : Fin 8) (f : PhysCore → PhysCore) : (s.modCore k f).pollSlot = s.pollSlot := rfl
@[simp] theorem State.modCore_agenda (s : State) (k : Fin 8) (f : PhysCore → PhysCore) : (s.modCore k f).agenda = s.agenda := rfl
@[simp] theorem State.modCore_ev (s : State) (k : Fin 8) (f : PhysCore → PhysCore) : (s.modCore k f).ev = s.ev := rfl
@[simp] theorem State.modCore_turn (s : State) (k : Fin 8) (f : PhysCore → PhysCore) : (s.modCore k f).turn = s.turn := rfl
@[simp] theorem State.modCore_freeCtr (s : State) (k : Fin 8) (f : PhysCore → PhysCore) : (s.modCore k f).freeCtr = s.freeCtr := rfl
@[simp] theorem State.modCore_readied (s : State) (k : Fin 8) (f : PhysCore → PhysCore) : (s.modCore k f).readied = s.readied := rfl
@[simp] theorem State.modCore_cl_id (s : State) (k : Fin 8) (f : PhysCore → PhysCore) : (s.modCore k f).cl.id = s.cl.id := rfl
@[simp] theorem State.modCore_cl_part (s : State) (k : Fin 8) (f : PhysCore → PhysCore) : (s.modCore k f).cl.part = s.cl.part := rfl
@[simp] theorem State.modCore_cl_asn (s : State) (k : Fin 8) (f : PhysCore → PhysCore) : (s.modCore k f).cl.asn = s.cl.asn := rfl
@[simp] theorem State.modCore_cl_run (s : State) (k : Fin 8) (f : PhysCore → PhysCore) : (s.modCore k f).cl.run = s.cl.run := rfl
@[simp] theorem State.modCore_cl_bank (s : State) (k : Fin 8) (f : PhysCore → PhysCore) : (s.modCore k f).cl.bank = s.cl.bank := rfl
@[simp] theorem State.modCore_cl_banks (s : State) (k : Fin 8) (f : PhysCore → PhysCore) : (s.modCore k f).cl.banks = s.cl.banks := rfl
@[simp] theorem State.modCore_cl_tlb (s : State) (k : Fin 8) (f : PhysCore → PhysCore) : (s.modCore k f).cl.tlb = s.cl.tlb := rfl
@[simp] theorem State.modCore_cl_time (s : State) (k : Fin 8) (f : PhysCore → PhysCore) : (s.modCore k f).cl.time = s.cl.time := rfl
@[simp] theorem State.modCore_cl_frozen (s : State) (k : Fin 8) (f : PhysCore → PhysCore) : (s.modCore k f).cl.frozen = s.cl.frozen := rfl
@[simp] theorem State.modCore_cl_lastAt (s : State) (k : Fin 8) (f : PhysCore → PhysCore) : (s.modCore k f).cl.lastAt = s.cl.lastAt := rfl
@[simp] theorem State.modCore_cl_lastSkew (s : State) (k : Fin 8) (f : PhysCore → PhysCore) : (s.modCore k f).cl.lastSkew = s.cl.lastSkew := rfl
@[simp] theorem State.modCore_cl_opn (s : State) (k : Fin 8) (f : PhysCore → PhysCore) : (s.modCore k f).cl.opn = s.cl.opn := rfl
@[simp] theorem State.modCore_cl_nextOp (s : State) (k : Fin 8) (f : PhysCore → PhysCore) : (s.modCore k f).cl.nextOp = s.cl.nextOp := rfl
@[simp] theorem State.modCore_cl_cmds (s : State) (k : Fin 8) (f : PhysCore → PhysCore) : (s.modCore k f).cl.cmds = s.cl.cmds := rfl
@[simp] theorem State.modCore_cl_nextCmd (s : State) (k : Fin 8) (f : PhysCore → PhysCore) : (s.modCore k f).cl.nextCmd = s.cl.nextCmd := rfl
@[simp] theorem State.modCore_cl_accepted (s : State) (k : Fin 8) (f : PhysCore → PhysCore) : (s.modCore k f).cl.accepted = s.cl.accepted := rfl
@[simp] theorem State.modCore_cl_lastCmd (s : State) (k : Fin 8) (f : PhysCore → PhysCore) : (s.modCore k f).cl.lastCmd = s.cl.lastCmd := rfl
@[simp] theorem State.modCore_cl_barTold (s : State) (k : Fin 8) (f : PhysCore → PhysCore) : (s.modCore k f).cl.barTold = s.cl.barTold := rfl
@[simp] theorem State.modCore_cl_arrSlots (s : State) (k : Fin 8) (f : PhysCore → PhysCore) : (s.modCore k f).cl.arrSlots = s.cl.arrSlots := rfl
@[simp] theorem State.modCore_cl_arrivals (s : State) (k : Fin 8) (f : PhysCore → PhysCore) : (s.modCore k f).cl.arrivals = s.cl.arrivals := rfl
@[simp] theorem State.modCore_cl_searches (s : State) (k : Fin 8) (f : PhysCore → PhysCore) : (s.modCore k f).cl.searches = s.cl.searches := rfl
@[simp] theorem State.modCore_cl_invs (s : State) (k : Fin 8) (f : PhysCore → PhysCore) : (s.modCore k f).cl.invs = s.cl.invs := rfl
@[simp] theorem State.modCore_cl_preempt (s : State) (k : Fin 8) (f : PhysCore → PhysCore) : (s.modCore k f).cl.preempt = s.cl.preempt := rfl
@[simp] theorem State.modCore_cl_shadows (s : State) (k : Fin 8) (f : PhysCore → PhysCore) : (s.modCore k f).cl.shadows = s.cl.shadows := rfl
@[simp] theorem State.modCore_cl_busyVec (s : State) (k : Fin 8) (f : PhysCore → PhysCore) : (s.modCore k f).cl.busyVec = s.cl.busyVec := rfl
@[simp] theorem State.modCore_cl_busyUnpack (s : State) (k : Fin 8) (f : PhysCore → PhysCore) : (s.modCore k f).cl.busyUnpack = s.cl.busyUnpack := rfl
@[simp] theorem State.modCore_cl_busyPack (s : State) (k : Fin 8) (f : PhysCore → PhysCore) : (s.modCore k f).cl.busyPack = s.cl.busyPack := rfl
@[simp] theorem State.modCore_cl_sinceSample (s : State) (k : Fin 8) (f : PhysCore → PhysCore) : (s.modCore k f).cl.sinceSample = s.cl.sinceSample := rfl
@[simp] theorem State.modCore_cl_last (s : State) (k : Fin 8) (f : PhysCore → PhysCore) : (s.modCore k f).cl.last = s.cl.last := rfl
@[simp] theorem State.modCore_cl_sample (s : State) (k : Fin 8) (f : PhysCore → PhysCore) : (s.modCore k f).cl.sample = s.cl.sample := rfl
@[simp] theorem State.modCore_cl_evals (s : State) (k : Fin 8) (f : PhysCore → PhysCore) : (s.modCore k f).cl.evals = s.cl.evals := rfl
@[simp] theorem State.modCore_cl_stop (s : State) (k : Fin 8) (f : PhysCore → PhysCore) : (s.modCore k f).cl.stop = s.cl.stop := rfl

/-! ### State.post -/

@[simp] theorem State.post_others (s : State) (lat : Nat) (w : SeqWrite) : (s.post lat w).others = s.others := rfl
@[simp] theorem State.post_mem (s : State) (lat : Nat) (w : SeqWrite) : (s.post lat w).mem = s.mem := rfl
@[simp] theorem State.post_badWords (s : State) (lat : Nat) (w : SeqWrite) : (s.post lat w).badWords = s.badWords := rfl
@[simp] theorem State.post_softWords (s : State) (lat : Nat) (w : SeqWrite) : (s.post lat w).softWords = s.softWords := rfl
@[simp] theorem State.post_lines (s : State) (lat : Nat) (w : SeqWrite) : (s.post lat w).lines = s.lines := rfl
@[simp] theorem State.post_cycle (s : State) (lat : Nat) (w : SeqWrite) : (s.post lat w).cycle = s.cycle := rfl
@[simp] theorem State.post_tstep (s : State) (lat : Nat) (w : SeqWrite) : (s.post lat w).tstep = s.tstep := rfl
@[simp] theorem State.post_tstepAt (s : State) (lat : Nat) (w : SeqWrite) : (s.post lat w).tstepAt = s.tstepAt := rfl
@[simp] theorem State.post_aligned (s : State) (lat : Nat) (w : SeqWrite) : (s.post lat w).aligned = s.aligned := rfl
@[simp] theorem State.post_rootBase (s : State) (lat : Nat) (w : SeqWrite) : (s.post lat w).rootBase = s.rootBase := rfl
@[simp] theorem State.post_defaultTvb (s : State) (lat : Nat) (w : SeqWrite) : (s.post lat w).defaultTvb = s.defaultTvb := rfl
@[simp] theorem State.post_dies (s : State) (lat : Nat) (w : SeqWrite) : (s.post lat w).dies = s.dies := rfl
@[simp] theorem State.post_relocs (s : State) (lat : Nat) (w : SeqWrite) : (s.post lat w).relocs = s.relocs := rfl
@[simp] theorem State.post_launches (s : State) (lat : Nat) (w : SeqWrite) : (s.post lat w).launches = s.launches := rfl
@[simp] theorem State.post_nextLaunch (s : State) (lat : Nat) (w : SeqWrite) : (s.post lat w).nextLaunch = s.nextLaunch := rfl
@[simp] theorem State.post_nextFire (s : State) (lat : Nat) (w : SeqWrite) : (s.post lat w).nextFire = s.nextFire := rfl
@[simp] theorem State.post_fires (s : State) (lat : Nat) (w : SeqWrite) : (s.post lat w).fires = s.fires := rfl
@[simp] theorem State.post_preempts (s : State) (lat : Nat) (w : SeqWrite) : (s.post lat w).preempts = s.preempts := rfl
@[simp] theorem State.post_armed (s : State) (lat : Nat) (w : SeqWrite) : (s.post lat w).armed = s.armed := rfl
@[simp] theorem State.post_streams (s : State) (lat : Nat) (w : SeqWrite) : (s.post lat w).streams = s.streams := rfl
@[simp] theorem State.post_outbox (s : State) (lat : Nat) (w : SeqWrite) : (s.post lat w).outbox = s.outbox := rfl
@[simp] theorem State.post_etherType (s : State) (lat : Nat) (w : SeqWrite) : (s.post lat w).etherType = s.etherType := rfl
@[simp] theorem State.post_udpPort (s : State) (lat : Nat) (w : SeqWrite) : (s.post lat w).udpPort = s.udpPort := rfl
@[simp] theorem State.post_codeGen (s : State) (lat : Nat) (w : SeqWrite) : (s.post lat w).codeGen = s.codeGen := rfl
@[simp] theorem State.post_counts (s : State) (lat : Nat) (w : SeqWrite) : (s.post lat w).counts = s.counts := rfl
@[simp] theorem State.post_m0 (s : State) (lat : Nat) (w : SeqWrite) : (s.post lat w).m0 = s.m0 := rfl
@[simp] theorem State.post_m1 (s : State) (lat : Nat) (w : SeqWrite) : (s.post lat w).m1 = s.m1 := rfl
@[simp] theorem State.post_m2 (s : State) (lat : Nat) (w : SeqWrite) : (s.post lat w).m2 = s.m2 := rfl
@[simp] theorem State.post_m3 (s : State) (lat : Nat) (w : SeqWrite) : (s.post lat w).m3 = s.m3 := rfl
@[simp] theorem State.post_resets (s : State) (lat : Nat) (w : SeqWrite) : (s.post lat w).resets = s.resets := rfl
@[simp] theorem State.post_image (s : State) (lat : Nat) (w : SeqWrite) : (s.post lat w).image = s.image := rfl
@[simp] theorem State.post_booted (s : State) (lat : Nat) (w : SeqWrite) : (s.post lat w).booted = s.booted := rfl
@[simp] theorem State.post_recovery (s : State) (lat : Nat) (w : SeqWrite) : (s.post lat w).recovery = s.recovery := rfl
@[simp] theorem State.post_spares (s : State) (lat : Nat) (w : SeqWrite) : (s.post lat w).spares = s.spares := rfl
@[simp] theorem State.post_redBase (s : State) (lat : Nat) (w : SeqWrite) : (s.post lat w).redBase = s.redBase := rfl
@[simp] theorem State.post_redLog (s : State) (lat : Nat) (w : SeqWrite) : (s.post lat w).redLog = s.redLog := rfl
@[simp] theorem State.post_redGroup (s : State) (lat : Nat) (w : SeqWrite) : (s.post lat w).redGroup = s.redGroup := rfl
@[simp] theorem State.post_redRank (s : State) (lat : Nat) (w : SeqWrite) : (s.post lat w).redRank = s.redRank := rfl
@[simp] theorem State.post_redCons (s : State) (lat : Nat) (w : SeqWrite) : (s.post lat w).redCons = s.redCons := rfl
@[simp] theorem State.post_red (s : State) (lat : Nat) (w : SeqWrite) : (s.post lat w).red = s.red := rfl
@[simp] theorem State.post_pollSlot (s : State) (lat : Nat) (w : SeqWrite) : (s.post lat w).pollSlot = s.pollSlot := rfl
@[simp] theorem State.post_agenda (s : State) (lat : Nat) (w : SeqWrite) : (s.post lat w).agenda = s.agenda := rfl
@[simp] theorem State.post_ev (s : State) (lat : Nat) (w : SeqWrite) : (s.post lat w).ev = s.ev := rfl
@[simp] theorem State.post_turn (s : State) (lat : Nat) (w : SeqWrite) : (s.post lat w).turn = s.turn := rfl
@[simp] theorem State.post_freeCtr (s : State) (lat : Nat) (w : SeqWrite) : (s.post lat w).freeCtr = s.freeCtr := rfl
@[simp] theorem State.post_readied (s : State) (lat : Nat) (w : SeqWrite) : (s.post lat w).readied = s.readied := rfl
@[simp] theorem State.post_cl_id (s : State) (lat : Nat) (w : SeqWrite) : (s.post lat w).cl.id = s.cl.id := rfl
@[simp] theorem State.post_cl_part (s : State) (lat : Nat) (w : SeqWrite) : (s.post lat w).cl.part = s.cl.part := rfl
@[simp] theorem State.post_cl_asn (s : State) (lat : Nat) (w : SeqWrite) : (s.post lat w).cl.asn = s.cl.asn := rfl
@[simp] theorem State.post_cl_run (s : State) (lat : Nat) (w : SeqWrite) : (s.post lat w).cl.run = s.cl.run := rfl
@[simp] theorem State.post_cl_banks (s : State) (lat : Nat) (w : SeqWrite) : (s.post lat w).cl.banks = s.cl.banks := rfl
@[simp] theorem State.post_cl_cores (s : State) (lat : Nat) (w : SeqWrite) : (s.post lat w).cl.cores = s.cl.cores := rfl
@[simp] theorem State.post_cl_tlb (s : State) (lat : Nat) (w : SeqWrite) : (s.post lat w).cl.tlb = s.cl.tlb := rfl
@[simp] theorem State.post_cl_time (s : State) (lat : Nat) (w : SeqWrite) : (s.post lat w).cl.time = s.cl.time := rfl
@[simp] theorem State.post_cl_frozen (s : State) (lat : Nat) (w : SeqWrite) : (s.post lat w).cl.frozen = s.cl.frozen := rfl
@[simp] theorem State.post_cl_lastAt (s : State) (lat : Nat) (w : SeqWrite) : (s.post lat w).cl.lastAt = s.cl.lastAt := rfl
@[simp] theorem State.post_cl_lastSkew (s : State) (lat : Nat) (w : SeqWrite) : (s.post lat w).cl.lastSkew = s.cl.lastSkew := rfl
@[simp] theorem State.post_cl_opn (s : State) (lat : Nat) (w : SeqWrite) : (s.post lat w).cl.opn = s.cl.opn := rfl
@[simp] theorem State.post_cl_nextOp (s : State) (lat : Nat) (w : SeqWrite) : (s.post lat w).cl.nextOp = s.cl.nextOp := rfl
@[simp] theorem State.post_cl_cmds (s : State) (lat : Nat) (w : SeqWrite) : (s.post lat w).cl.cmds = s.cl.cmds := rfl
@[simp] theorem State.post_cl_nextCmd (s : State) (lat : Nat) (w : SeqWrite) : (s.post lat w).cl.nextCmd = s.cl.nextCmd := rfl
@[simp] theorem State.post_cl_accepted (s : State) (lat : Nat) (w : SeqWrite) : (s.post lat w).cl.accepted = s.cl.accepted := rfl
@[simp] theorem State.post_cl_lastCmd (s : State) (lat : Nat) (w : SeqWrite) : (s.post lat w).cl.lastCmd = s.cl.lastCmd := rfl
@[simp] theorem State.post_cl_barTold (s : State) (lat : Nat) (w : SeqWrite) : (s.post lat w).cl.barTold = s.cl.barTold := rfl
@[simp] theorem State.post_cl_arrSlots (s : State) (lat : Nat) (w : SeqWrite) : (s.post lat w).cl.arrSlots = s.cl.arrSlots := rfl
@[simp] theorem State.post_cl_arrivals (s : State) (lat : Nat) (w : SeqWrite) : (s.post lat w).cl.arrivals = s.cl.arrivals := rfl
@[simp] theorem State.post_cl_searches (s : State) (lat : Nat) (w : SeqWrite) : (s.post lat w).cl.searches = s.cl.searches := rfl
@[simp] theorem State.post_cl_invs (s : State) (lat : Nat) (w : SeqWrite) : (s.post lat w).cl.invs = s.cl.invs := rfl
@[simp] theorem State.post_cl_preempt (s : State) (lat : Nat) (w : SeqWrite) : (s.post lat w).cl.preempt = s.cl.preempt := rfl
@[simp] theorem State.post_cl_shadows (s : State) (lat : Nat) (w : SeqWrite) : (s.post lat w).cl.shadows = s.cl.shadows := rfl
@[simp] theorem State.post_cl_busyVec (s : State) (lat : Nat) (w : SeqWrite) : (s.post lat w).cl.busyVec = s.cl.busyVec := rfl
@[simp] theorem State.post_cl_busyUnpack (s : State) (lat : Nat) (w : SeqWrite) : (s.post lat w).cl.busyUnpack = s.cl.busyUnpack := rfl
@[simp] theorem State.post_cl_busyPack (s : State) (lat : Nat) (w : SeqWrite) : (s.post lat w).cl.busyPack = s.cl.busyPack := rfl
@[simp] theorem State.post_cl_sinceSample (s : State) (lat : Nat) (w : SeqWrite) : (s.post lat w).cl.sinceSample = s.cl.sinceSample := rfl
@[simp] theorem State.post_cl_last (s : State) (lat : Nat) (w : SeqWrite) : (s.post lat w).cl.last = s.cl.last := rfl
@[simp] theorem State.post_cl_sample (s : State) (lat : Nat) (w : SeqWrite) : (s.post lat w).cl.sample = s.cl.sample := rfl
@[simp] theorem State.post_cl_evals (s : State) (lat : Nat) (w : SeqWrite) : (s.post lat w).cl.evals = s.cl.evals := rfl
@[simp] theorem State.post_cl_stop (s : State) (lat : Nat) (w : SeqWrite) : (s.post lat w).cl.stop = s.cl.stop := rfl
@[simp] theorem State.post_bank_state (s : State) (lat : Nat) (w : SeqWrite) : (s.post lat w).cl.bank.state = s.cl.bank.state := rfl
@[simp] theorem State.post_bank_file (s : State) (lat : Nat) (w : SeqWrite) : (s.post lat w).cl.bank.file = s.cl.bank.file := rfl
@[simp] theorem State.post_bank_lc (s : State) (lat : Nat) (w : SeqWrite) : (s.post lat w).cl.bank.lc = s.cl.bank.lc := rfl
@[simp] theorem State.post_bank_loops (s : State) (lat : Nat) (w : SeqWrite) : (s.post lat w).cl.bank.loops = s.cl.bank.loops := rfl
@[simp] theorem State.post_bank_aside (s : State) (lat : Nat) (w : SeqWrite) : (s.post lat w).cl.bank.aside = s.cl.bank.aside := rfl
@[simp] theorem State.post_bank_loopBuf (s : State) (lat : Nat) (w : SeqWrite) : (s.post lat w).cl.bank.loopBuf = s.cl.bank.loopBuf := rfl
@[simp] theorem State.post_bank_pc (s : State) (lat : Nat) (w : SeqWrite) : (s.post lat w).cl.bank.pc = s.cl.bank.pc := rfl
@[simp] theorem State.post_bank_tsw (s : State) (lat : Nat) (w : SeqWrite) : (s.post lat w).cl.bank.tsw = s.cl.bank.tsw := rfl
@[simp] theorem State.post_bank_wid (s : State) (lat : Nat) (w : SeqWrite) : (s.post lat w).cl.bank.wid = s.cl.bank.wid := rfl
@[simp] theorem State.post_bank_trec (s : State) (lat : Nat) (w : SeqWrite) : (s.post lat w).cl.bank.trec = s.cl.bank.trec := rfl
@[simp] theorem State.post_bank_frame (s : State) (lat : Nat) (w : SeqWrite) : (s.post lat w).cl.bank.frame = s.cl.bank.frame := rfl
@[simp] theorem State.post_bank_tidx (s : State) (lat : Nat) (w : SeqWrite) : (s.post lat w).cl.bank.tidx = s.cl.bank.tidx := rfl
@[simp] theorem State.post_bank_lrec (s : State) (lat : Nat) (w : SeqWrite) : (s.post lat w).cl.bank.lrec = s.cl.bank.lrec := rfl
@[simp] theorem State.post_bank_slen (s : State) (lat : Nat) (w : SeqWrite) : (s.post lat w).cl.bank.slen = s.cl.bank.slen := rfl
@[simp] theorem State.post_bank_coreEn (s : State) (lat : Nat) (w : SeqWrite) : (s.post lat w).cl.bank.coreEn = s.cl.bank.coreEn := rfl
@[simp] theorem State.post_bank_skew (s : State) (lat : Nat) (w : SeqWrite) : (s.post lat w).cl.bank.skew = s.cl.bank.skew := rfl
@[simp] theorem State.post_bank_vl (s : State) (lat : Nat) (w : SeqWrite) : (s.post lat w).cl.bank.vl = s.cl.bank.vl := rfl
@[simp] theorem State.post_bank_vtype (s : State) (lat : Nat) (w : SeqWrite) : (s.post lat w).cl.bank.vtype = s.cl.bank.vtype := rfl
@[simp] theorem State.post_bank_gpos (s : State) (lat : Nat) (w : SeqWrite) : (s.post lat w).cl.bank.gpos = s.cl.bank.gpos := rfl
@[simp] theorem State.post_bank_gseedA (s : State) (lat : Nat) (w : SeqWrite) : (s.post lat w).cl.bank.gseedA = s.cl.bank.gseedA := rfl
@[simp] theorem State.post_bank_gseedB (s : State) (lat : Nat) (w : SeqWrite) : (s.post lat w).cl.bank.gseedB = s.cl.bank.gseedB := rfl
@[simp] theorem State.post_bank_tvb (s : State) (lat : Nat) (w : SeqWrite) : (s.post lat w).cl.bank.tvb = s.cl.bank.tvb := rfl
@[simp] theorem State.post_bank_tpc (s : State) (lat : Nat) (w : SeqWrite) : (s.post lat w).cl.bank.tpc = s.cl.bank.tpc := rfl
@[simp] theorem State.post_bank_tcause (s : State) (lat : Nat) (w : SeqWrite) : (s.post lat w).cl.bank.tcause = s.cl.bank.tcause := rfl
@[simp] theorem State.post_bank_tval (s : State) (lat : Nat) (w : SeqWrite) : (s.post lat w).cl.bank.tval = s.cl.bank.tval := rfl
@[simp] theorem State.post_bank_handles (s : State) (lat : Nat) (w : SeqWrite) : (s.post lat w).cl.bank.handles = s.cl.bank.handles := rfl
@[simp] theorem State.post_bank_qLast (s : State) (lat : Nat) (w : SeqWrite) : (s.post lat w).cl.bank.qLast = s.cl.bank.qLast := rfl
@[simp] theorem State.post_bank_ops (s : State) (lat : Nat) (w : SeqWrite) : (s.post lat w).cl.bank.ops = s.cl.bank.ops := rfl
@[simp] theorem State.post_bank_windows (s : State) (lat : Nat) (w : SeqWrite) : (s.post lat w).cl.bank.windows = s.cl.bank.windows := rfl
@[simp] theorem State.post_bank_holds (s : State) (lat : Nat) (w : SeqWrite) : (s.post lat w).cl.bank.holds = s.cl.bank.holds := rfl
@[simp] theorem State.post_bank_tlbinvs (s : State) (lat : Nat) (w : SeqWrite) : (s.post lat w).cl.bank.tlbinvs = s.cl.bank.tlbinvs := rfl
@[simp] theorem State.post_bank_reenter (s : State) (lat : Nat) (w : SeqWrite) : (s.post lat w).cl.bank.reenter = s.cl.bank.reenter := rfl
@[simp] theorem State.post_bank_pendTrap (s : State) (lat : Nat) (w : SeqWrite) : (s.post lat w).cl.bank.pendTrap = s.cl.bank.pendTrap := rfl
@[simp] theorem State.post_bank_checked (s : State) (lat : Nat) (w : SeqWrite) : (s.post lat w).cl.bank.checked = s.cl.bank.checked := rfl
@[simp] theorem State.post_bank_checkedNew (s : State) (lat : Nat) (w : SeqWrite) : (s.post lat w).cl.bank.checkedNew = s.cl.bank.checkedNew := rfl
@[simp] theorem State.post_bank_checkedAt (s : State) (lat : Nat) (w : SeqWrite) : (s.post lat w).cl.bank.checkedAt = s.cl.bank.checkedAt := rfl
@[simp] theorem State.post_bank_mcAddr (s : State) (lat : Nat) (w : SeqWrite) : (s.post lat w).cl.bank.mcAddr = s.cl.bank.mcAddr := rfl
@[simp] theorem State.post_bank_courierErrs (s : State) (lat : Nat) (w : SeqWrite) : (s.post lat w).cl.bank.courierErrs = s.cl.bank.courierErrs := rfl
@[simp] theorem State.post_bank_byArrival (s : State) (lat : Nat) (w : SeqWrite) : (s.post lat w).cl.bank.byArrival = s.cl.bank.byArrival := rfl
@[simp] theorem State.post_bank_readySince (s : State) (lat : Nat) (w : SeqWrite) : (s.post lat w).cl.bank.readySince = s.cl.bank.readySince := rfl
@[simp] theorem State.post_bank_prio (s : State) (lat : Nat) (w : SeqWrite) : (s.post lat w).cl.bank.prio = s.cl.bank.prio := rfl
@[simp] theorem State.post_bank_slept (s : State) (lat : Nat) (w : SeqWrite) : (s.post lat w).cl.bank.slept = s.cl.bank.slept := rfl
@[simp] theorem State.post_bank_residual (s : State) (lat : Nat) (w : SeqWrite) : (s.post lat w).cl.bank.residual = s.cl.bank.residual := rfl
@[simp] theorem State.post_bank_cores (s : State) (lat : Nat) (w : SeqWrite) : (s.post lat w).cl.bank.cores = s.cl.bank.cores := rfl

/-! ### State.postH -/

@[simp] theorem State.postH_others (s : State) (lat : Nat) (d : Fin 16) (v : Word) : (s.postH lat d v).others = s.others := rfl
@[simp] theorem State.postH_mem (s : State) (lat : Nat) (d : Fin 16) (v : Word) : (s.postH lat d v).mem = s.mem := rfl
@[simp] theorem State.postH_badWords (s : State) (lat : Nat) (d : Fin 16) (v : Word) : (s.postH lat d v).badWords = s.badWords := rfl
@[simp] theorem State.postH_softWords (s : State) (lat : Nat) (d : Fin 16) (v : Word) : (s.postH lat d v).softWords = s.softWords := rfl
@[simp] theorem State.postH_lines (s : State) (lat : Nat) (d : Fin 16) (v : Word) : (s.postH lat d v).lines = s.lines := rfl
@[simp] theorem State.postH_cycle (s : State) (lat : Nat) (d : Fin 16) (v : Word) : (s.postH lat d v).cycle = s.cycle := rfl
@[simp] theorem State.postH_tstep (s : State) (lat : Nat) (d : Fin 16) (v : Word) : (s.postH lat d v).tstep = s.tstep := rfl
@[simp] theorem State.postH_tstepAt (s : State) (lat : Nat) (d : Fin 16) (v : Word) : (s.postH lat d v).tstepAt = s.tstepAt := rfl
@[simp] theorem State.postH_aligned (s : State) (lat : Nat) (d : Fin 16) (v : Word) : (s.postH lat d v).aligned = s.aligned := rfl
@[simp] theorem State.postH_rootBase (s : State) (lat : Nat) (d : Fin 16) (v : Word) : (s.postH lat d v).rootBase = s.rootBase := rfl
@[simp] theorem State.postH_defaultTvb (s : State) (lat : Nat) (d : Fin 16) (v : Word) : (s.postH lat d v).defaultTvb = s.defaultTvb := rfl
@[simp] theorem State.postH_dies (s : State) (lat : Nat) (d : Fin 16) (v : Word) : (s.postH lat d v).dies = s.dies := rfl
@[simp] theorem State.postH_relocs (s : State) (lat : Nat) (d : Fin 16) (v : Word) : (s.postH lat d v).relocs = s.relocs := rfl
@[simp] theorem State.postH_launches (s : State) (lat : Nat) (d : Fin 16) (v : Word) : (s.postH lat d v).launches = s.launches := rfl
@[simp] theorem State.postH_nextLaunch (s : State) (lat : Nat) (d : Fin 16) (v : Word) : (s.postH lat d v).nextLaunch = s.nextLaunch := rfl
@[simp] theorem State.postH_nextFire (s : State) (lat : Nat) (d : Fin 16) (v : Word) : (s.postH lat d v).nextFire = s.nextFire := rfl
@[simp] theorem State.postH_fires (s : State) (lat : Nat) (d : Fin 16) (v : Word) : (s.postH lat d v).fires = s.fires := rfl
@[simp] theorem State.postH_preempts (s : State) (lat : Nat) (d : Fin 16) (v : Word) : (s.postH lat d v).preempts = s.preempts := rfl
@[simp] theorem State.postH_armed (s : State) (lat : Nat) (d : Fin 16) (v : Word) : (s.postH lat d v).armed = s.armed := rfl
@[simp] theorem State.postH_streams (s : State) (lat : Nat) (d : Fin 16) (v : Word) : (s.postH lat d v).streams = s.streams := rfl
@[simp] theorem State.postH_outbox (s : State) (lat : Nat) (d : Fin 16) (v : Word) : (s.postH lat d v).outbox = s.outbox := rfl
@[simp] theorem State.postH_etherType (s : State) (lat : Nat) (d : Fin 16) (v : Word) : (s.postH lat d v).etherType = s.etherType := rfl
@[simp] theorem State.postH_udpPort (s : State) (lat : Nat) (d : Fin 16) (v : Word) : (s.postH lat d v).udpPort = s.udpPort := rfl
@[simp] theorem State.postH_codeGen (s : State) (lat : Nat) (d : Fin 16) (v : Word) : (s.postH lat d v).codeGen = s.codeGen := rfl
@[simp] theorem State.postH_counts (s : State) (lat : Nat) (d : Fin 16) (v : Word) : (s.postH lat d v).counts = s.counts := rfl
@[simp] theorem State.postH_m0 (s : State) (lat : Nat) (d : Fin 16) (v : Word) : (s.postH lat d v).m0 = s.m0 := rfl
@[simp] theorem State.postH_m1 (s : State) (lat : Nat) (d : Fin 16) (v : Word) : (s.postH lat d v).m1 = s.m1 := rfl
@[simp] theorem State.postH_m2 (s : State) (lat : Nat) (d : Fin 16) (v : Word) : (s.postH lat d v).m2 = s.m2 := rfl
@[simp] theorem State.postH_m3 (s : State) (lat : Nat) (d : Fin 16) (v : Word) : (s.postH lat d v).m3 = s.m3 := rfl
@[simp] theorem State.postH_resets (s : State) (lat : Nat) (d : Fin 16) (v : Word) : (s.postH lat d v).resets = s.resets := rfl
@[simp] theorem State.postH_image (s : State) (lat : Nat) (d : Fin 16) (v : Word) : (s.postH lat d v).image = s.image := rfl
@[simp] theorem State.postH_booted (s : State) (lat : Nat) (d : Fin 16) (v : Word) : (s.postH lat d v).booted = s.booted := rfl
@[simp] theorem State.postH_recovery (s : State) (lat : Nat) (d : Fin 16) (v : Word) : (s.postH lat d v).recovery = s.recovery := rfl
@[simp] theorem State.postH_spares (s : State) (lat : Nat) (d : Fin 16) (v : Word) : (s.postH lat d v).spares = s.spares := rfl
@[simp] theorem State.postH_redBase (s : State) (lat : Nat) (d : Fin 16) (v : Word) : (s.postH lat d v).redBase = s.redBase := rfl
@[simp] theorem State.postH_redLog (s : State) (lat : Nat) (d : Fin 16) (v : Word) : (s.postH lat d v).redLog = s.redLog := rfl
@[simp] theorem State.postH_redGroup (s : State) (lat : Nat) (d : Fin 16) (v : Word) : (s.postH lat d v).redGroup = s.redGroup := rfl
@[simp] theorem State.postH_redRank (s : State) (lat : Nat) (d : Fin 16) (v : Word) : (s.postH lat d v).redRank = s.redRank := rfl
@[simp] theorem State.postH_redCons (s : State) (lat : Nat) (d : Fin 16) (v : Word) : (s.postH lat d v).redCons = s.redCons := rfl
@[simp] theorem State.postH_red (s : State) (lat : Nat) (d : Fin 16) (v : Word) : (s.postH lat d v).red = s.red := rfl
@[simp] theorem State.postH_pollSlot (s : State) (lat : Nat) (d : Fin 16) (v : Word) : (s.postH lat d v).pollSlot = s.pollSlot := rfl
@[simp] theorem State.postH_agenda (s : State) (lat : Nat) (d : Fin 16) (v : Word) : (s.postH lat d v).agenda = s.agenda := rfl
@[simp] theorem State.postH_ev (s : State) (lat : Nat) (d : Fin 16) (v : Word) : (s.postH lat d v).ev = s.ev := rfl
@[simp] theorem State.postH_turn (s : State) (lat : Nat) (d : Fin 16) (v : Word) : (s.postH lat d v).turn = s.turn := rfl
@[simp] theorem State.postH_freeCtr (s : State) (lat : Nat) (d : Fin 16) (v : Word) : (s.postH lat d v).freeCtr = s.freeCtr := rfl
@[simp] theorem State.postH_readied (s : State) (lat : Nat) (d : Fin 16) (v : Word) : (s.postH lat d v).readied = s.readied := rfl
@[simp] theorem State.postH_cl_id (s : State) (lat : Nat) (d : Fin 16) (v : Word) : (s.postH lat d v).cl.id = s.cl.id := rfl
@[simp] theorem State.postH_cl_part (s : State) (lat : Nat) (d : Fin 16) (v : Word) : (s.postH lat d v).cl.part = s.cl.part := rfl
@[simp] theorem State.postH_cl_asn (s : State) (lat : Nat) (d : Fin 16) (v : Word) : (s.postH lat d v).cl.asn = s.cl.asn := rfl
@[simp] theorem State.postH_cl_run (s : State) (lat : Nat) (d : Fin 16) (v : Word) : (s.postH lat d v).cl.run = s.cl.run := rfl
@[simp] theorem State.postH_cl_banks (s : State) (lat : Nat) (d : Fin 16) (v : Word) : (s.postH lat d v).cl.banks = s.cl.banks := rfl
@[simp] theorem State.postH_cl_cores (s : State) (lat : Nat) (d : Fin 16) (v : Word) : (s.postH lat d v).cl.cores = s.cl.cores := rfl
@[simp] theorem State.postH_cl_tlb (s : State) (lat : Nat) (d : Fin 16) (v : Word) : (s.postH lat d v).cl.tlb = s.cl.tlb := rfl
@[simp] theorem State.postH_cl_time (s : State) (lat : Nat) (d : Fin 16) (v : Word) : (s.postH lat d v).cl.time = s.cl.time := rfl
@[simp] theorem State.postH_cl_frozen (s : State) (lat : Nat) (d : Fin 16) (v : Word) : (s.postH lat d v).cl.frozen = s.cl.frozen := rfl
@[simp] theorem State.postH_cl_lastAt (s : State) (lat : Nat) (d : Fin 16) (v : Word) : (s.postH lat d v).cl.lastAt = s.cl.lastAt := rfl
@[simp] theorem State.postH_cl_lastSkew (s : State) (lat : Nat) (d : Fin 16) (v : Word) : (s.postH lat d v).cl.lastSkew = s.cl.lastSkew := rfl
@[simp] theorem State.postH_cl_opn (s : State) (lat : Nat) (d : Fin 16) (v : Word) : (s.postH lat d v).cl.opn = s.cl.opn := rfl
@[simp] theorem State.postH_cl_nextOp (s : State) (lat : Nat) (d : Fin 16) (v : Word) : (s.postH lat d v).cl.nextOp = s.cl.nextOp := rfl
@[simp] theorem State.postH_cl_cmds (s : State) (lat : Nat) (d : Fin 16) (v : Word) : (s.postH lat d v).cl.cmds = s.cl.cmds := rfl
@[simp] theorem State.postH_cl_nextCmd (s : State) (lat : Nat) (d : Fin 16) (v : Word) : (s.postH lat d v).cl.nextCmd = s.cl.nextCmd := rfl
@[simp] theorem State.postH_cl_accepted (s : State) (lat : Nat) (d : Fin 16) (v : Word) : (s.postH lat d v).cl.accepted = s.cl.accepted := rfl
@[simp] theorem State.postH_cl_lastCmd (s : State) (lat : Nat) (d : Fin 16) (v : Word) : (s.postH lat d v).cl.lastCmd = s.cl.lastCmd := rfl
@[simp] theorem State.postH_cl_barTold (s : State) (lat : Nat) (d : Fin 16) (v : Word) : (s.postH lat d v).cl.barTold = s.cl.barTold := rfl
@[simp] theorem State.postH_cl_arrSlots (s : State) (lat : Nat) (d : Fin 16) (v : Word) : (s.postH lat d v).cl.arrSlots = s.cl.arrSlots := rfl
@[simp] theorem State.postH_cl_arrivals (s : State) (lat : Nat) (d : Fin 16) (v : Word) : (s.postH lat d v).cl.arrivals = s.cl.arrivals := rfl
@[simp] theorem State.postH_cl_searches (s : State) (lat : Nat) (d : Fin 16) (v : Word) : (s.postH lat d v).cl.searches = s.cl.searches := rfl
@[simp] theorem State.postH_cl_invs (s : State) (lat : Nat) (d : Fin 16) (v : Word) : (s.postH lat d v).cl.invs = s.cl.invs := rfl
@[simp] theorem State.postH_cl_preempt (s : State) (lat : Nat) (d : Fin 16) (v : Word) : (s.postH lat d v).cl.preempt = s.cl.preempt := rfl
@[simp] theorem State.postH_cl_shadows (s : State) (lat : Nat) (d : Fin 16) (v : Word) : (s.postH lat d v).cl.shadows = s.cl.shadows := rfl
@[simp] theorem State.postH_cl_busyVec (s : State) (lat : Nat) (d : Fin 16) (v : Word) : (s.postH lat d v).cl.busyVec = s.cl.busyVec := rfl
@[simp] theorem State.postH_cl_busyUnpack (s : State) (lat : Nat) (d : Fin 16) (v : Word) : (s.postH lat d v).cl.busyUnpack = s.cl.busyUnpack := rfl
@[simp] theorem State.postH_cl_busyPack (s : State) (lat : Nat) (d : Fin 16) (v : Word) : (s.postH lat d v).cl.busyPack = s.cl.busyPack := rfl
@[simp] theorem State.postH_cl_sinceSample (s : State) (lat : Nat) (d : Fin 16) (v : Word) : (s.postH lat d v).cl.sinceSample = s.cl.sinceSample := rfl
@[simp] theorem State.postH_cl_last (s : State) (lat : Nat) (d : Fin 16) (v : Word) : (s.postH lat d v).cl.last = s.cl.last := rfl
@[simp] theorem State.postH_cl_sample (s : State) (lat : Nat) (d : Fin 16) (v : Word) : (s.postH lat d v).cl.sample = s.cl.sample := rfl
@[simp] theorem State.postH_cl_evals (s : State) (lat : Nat) (d : Fin 16) (v : Word) : (s.postH lat d v).cl.evals = s.cl.evals := rfl
@[simp] theorem State.postH_cl_stop (s : State) (lat : Nat) (d : Fin 16) (v : Word) : (s.postH lat d v).cl.stop = s.cl.stop := rfl
@[simp] theorem State.postH_bank_state (s : State) (lat : Nat) (d : Fin 16) (v : Word) : (s.postH lat d v).cl.bank.state = s.cl.bank.state := rfl
@[simp] theorem State.postH_bank_file (s : State) (lat : Nat) (d : Fin 16) (v : Word) : (s.postH lat d v).cl.bank.file = s.cl.bank.file := rfl
@[simp] theorem State.postH_bank_lc (s : State) (lat : Nat) (d : Fin 16) (v : Word) : (s.postH lat d v).cl.bank.lc = s.cl.bank.lc := rfl
@[simp] theorem State.postH_bank_loops (s : State) (lat : Nat) (d : Fin 16) (v : Word) : (s.postH lat d v).cl.bank.loops = s.cl.bank.loops := rfl
@[simp] theorem State.postH_bank_aside (s : State) (lat : Nat) (d : Fin 16) (v : Word) : (s.postH lat d v).cl.bank.aside = s.cl.bank.aside := rfl
@[simp] theorem State.postH_bank_loopBuf (s : State) (lat : Nat) (d : Fin 16) (v : Word) : (s.postH lat d v).cl.bank.loopBuf = s.cl.bank.loopBuf := rfl
@[simp] theorem State.postH_bank_pc (s : State) (lat : Nat) (d : Fin 16) (v : Word) : (s.postH lat d v).cl.bank.pc = s.cl.bank.pc := rfl
@[simp] theorem State.postH_bank_tsw (s : State) (lat : Nat) (d : Fin 16) (v : Word) : (s.postH lat d v).cl.bank.tsw = s.cl.bank.tsw := rfl
@[simp] theorem State.postH_bank_wid (s : State) (lat : Nat) (d : Fin 16) (v : Word) : (s.postH lat d v).cl.bank.wid = s.cl.bank.wid := rfl
@[simp] theorem State.postH_bank_trec (s : State) (lat : Nat) (d : Fin 16) (v : Word) : (s.postH lat d v).cl.bank.trec = s.cl.bank.trec := rfl
@[simp] theorem State.postH_bank_frame (s : State) (lat : Nat) (d : Fin 16) (v : Word) : (s.postH lat d v).cl.bank.frame = s.cl.bank.frame := rfl
@[simp] theorem State.postH_bank_tidx (s : State) (lat : Nat) (d : Fin 16) (v : Word) : (s.postH lat d v).cl.bank.tidx = s.cl.bank.tidx := rfl
@[simp] theorem State.postH_bank_lrec (s : State) (lat : Nat) (d : Fin 16) (v : Word) : (s.postH lat d v).cl.bank.lrec = s.cl.bank.lrec := rfl
@[simp] theorem State.postH_bank_slen (s : State) (lat : Nat) (d : Fin 16) (v : Word) : (s.postH lat d v).cl.bank.slen = s.cl.bank.slen := rfl
@[simp] theorem State.postH_bank_coreEn (s : State) (lat : Nat) (d : Fin 16) (v : Word) : (s.postH lat d v).cl.bank.coreEn = s.cl.bank.coreEn := rfl
@[simp] theorem State.postH_bank_skew (s : State) (lat : Nat) (d : Fin 16) (v : Word) : (s.postH lat d v).cl.bank.skew = s.cl.bank.skew := rfl
@[simp] theorem State.postH_bank_vl (s : State) (lat : Nat) (d : Fin 16) (v : Word) : (s.postH lat d v).cl.bank.vl = s.cl.bank.vl := rfl
@[simp] theorem State.postH_bank_vtype (s : State) (lat : Nat) (d : Fin 16) (v : Word) : (s.postH lat d v).cl.bank.vtype = s.cl.bank.vtype := rfl
@[simp] theorem State.postH_bank_gpos (s : State) (lat : Nat) (d : Fin 16) (v : Word) : (s.postH lat d v).cl.bank.gpos = s.cl.bank.gpos := rfl
@[simp] theorem State.postH_bank_gseedA (s : State) (lat : Nat) (d : Fin 16) (v : Word) : (s.postH lat d v).cl.bank.gseedA = s.cl.bank.gseedA := rfl
@[simp] theorem State.postH_bank_gseedB (s : State) (lat : Nat) (d : Fin 16) (v : Word) : (s.postH lat d v).cl.bank.gseedB = s.cl.bank.gseedB := rfl
@[simp] theorem State.postH_bank_tvb (s : State) (lat : Nat) (d : Fin 16) (v : Word) : (s.postH lat d v).cl.bank.tvb = s.cl.bank.tvb := rfl
@[simp] theorem State.postH_bank_tpc (s : State) (lat : Nat) (d : Fin 16) (v : Word) : (s.postH lat d v).cl.bank.tpc = s.cl.bank.tpc := rfl
@[simp] theorem State.postH_bank_tcause (s : State) (lat : Nat) (d : Fin 16) (v : Word) : (s.postH lat d v).cl.bank.tcause = s.cl.bank.tcause := rfl
@[simp] theorem State.postH_bank_tval (s : State) (lat : Nat) (d : Fin 16) (v : Word) : (s.postH lat d v).cl.bank.tval = s.cl.bank.tval := rfl
@[simp] theorem State.postH_bank_handles (s : State) (lat : Nat) (d : Fin 16) (v : Word) : (s.postH lat d v).cl.bank.handles = s.cl.bank.handles := rfl
@[simp] theorem State.postH_bank_qLast (s : State) (lat : Nat) (d : Fin 16) (v : Word) : (s.postH lat d v).cl.bank.qLast = s.cl.bank.qLast := rfl
@[simp] theorem State.postH_bank_ops (s : State) (lat : Nat) (d : Fin 16) (v : Word) : (s.postH lat d v).cl.bank.ops = s.cl.bank.ops := rfl
@[simp] theorem State.postH_bank_windows (s : State) (lat : Nat) (d : Fin 16) (v : Word) : (s.postH lat d v).cl.bank.windows = s.cl.bank.windows := rfl
@[simp] theorem State.postH_bank_holds (s : State) (lat : Nat) (d : Fin 16) (v : Word) : (s.postH lat d v).cl.bank.holds = s.cl.bank.holds := rfl
@[simp] theorem State.postH_bank_tlbinvs (s : State) (lat : Nat) (d : Fin 16) (v : Word) : (s.postH lat d v).cl.bank.tlbinvs = s.cl.bank.tlbinvs := rfl
@[simp] theorem State.postH_bank_reenter (s : State) (lat : Nat) (d : Fin 16) (v : Word) : (s.postH lat d v).cl.bank.reenter = s.cl.bank.reenter := rfl
@[simp] theorem State.postH_bank_pendTrap (s : State) (lat : Nat) (d : Fin 16) (v : Word) : (s.postH lat d v).cl.bank.pendTrap = s.cl.bank.pendTrap := rfl
@[simp] theorem State.postH_bank_checked (s : State) (lat : Nat) (d : Fin 16) (v : Word) : (s.postH lat d v).cl.bank.checked = s.cl.bank.checked := rfl
@[simp] theorem State.postH_bank_checkedNew (s : State) (lat : Nat) (d : Fin 16) (v : Word) : (s.postH lat d v).cl.bank.checkedNew = s.cl.bank.checkedNew := rfl
@[simp] theorem State.postH_bank_checkedAt (s : State) (lat : Nat) (d : Fin 16) (v : Word) : (s.postH lat d v).cl.bank.checkedAt = s.cl.bank.checkedAt := rfl
@[simp] theorem State.postH_bank_mcAddr (s : State) (lat : Nat) (d : Fin 16) (v : Word) : (s.postH lat d v).cl.bank.mcAddr = s.cl.bank.mcAddr := rfl
@[simp] theorem State.postH_bank_courierErrs (s : State) (lat : Nat) (d : Fin 16) (v : Word) : (s.postH lat d v).cl.bank.courierErrs = s.cl.bank.courierErrs := rfl
@[simp] theorem State.postH_bank_byArrival (s : State) (lat : Nat) (d : Fin 16) (v : Word) : (s.postH lat d v).cl.bank.byArrival = s.cl.bank.byArrival := rfl
@[simp] theorem State.postH_bank_readySince (s : State) (lat : Nat) (d : Fin 16) (v : Word) : (s.postH lat d v).cl.bank.readySince = s.cl.bank.readySince := rfl
@[simp] theorem State.postH_bank_prio (s : State) (lat : Nat) (d : Fin 16) (v : Word) : (s.postH lat d v).cl.bank.prio = s.cl.bank.prio := rfl
@[simp] theorem State.postH_bank_slept (s : State) (lat : Nat) (d : Fin 16) (v : Word) : (s.postH lat d v).cl.bank.slept = s.cl.bank.slept := rfl
@[simp] theorem State.postH_bank_residual (s : State) (lat : Nat) (d : Fin 16) (v : Word) : (s.postH lat d v).cl.bank.residual = s.cl.bank.residual := rfl
@[simp] theorem State.postH_bank_cores (s : State) (lat : Nat) (d : Fin 16) (v : Word) : (s.postH lat d v).cl.bank.cores = s.cl.bank.cores := rfl

/-! ### State.postCore -/

@[simp] theorem State.postCore_others (s : State) (k : Fin 8) (lat : Nat) (w : CoreWrite) : (s.postCore k lat w).others = s.others := rfl
@[simp] theorem State.postCore_mem (s : State) (k : Fin 8) (lat : Nat) (w : CoreWrite) : (s.postCore k lat w).mem = s.mem := rfl
@[simp] theorem State.postCore_badWords (s : State) (k : Fin 8) (lat : Nat) (w : CoreWrite) : (s.postCore k lat w).badWords = s.badWords := rfl
@[simp] theorem State.postCore_softWords (s : State) (k : Fin 8) (lat : Nat) (w : CoreWrite) : (s.postCore k lat w).softWords = s.softWords := rfl
@[simp] theorem State.postCore_lines (s : State) (k : Fin 8) (lat : Nat) (w : CoreWrite) : (s.postCore k lat w).lines = s.lines := rfl
@[simp] theorem State.postCore_cycle (s : State) (k : Fin 8) (lat : Nat) (w : CoreWrite) : (s.postCore k lat w).cycle = s.cycle := rfl
@[simp] theorem State.postCore_tstep (s : State) (k : Fin 8) (lat : Nat) (w : CoreWrite) : (s.postCore k lat w).tstep = s.tstep := rfl
@[simp] theorem State.postCore_tstepAt (s : State) (k : Fin 8) (lat : Nat) (w : CoreWrite) : (s.postCore k lat w).tstepAt = s.tstepAt := rfl
@[simp] theorem State.postCore_aligned (s : State) (k : Fin 8) (lat : Nat) (w : CoreWrite) : (s.postCore k lat w).aligned = s.aligned := rfl
@[simp] theorem State.postCore_rootBase (s : State) (k : Fin 8) (lat : Nat) (w : CoreWrite) : (s.postCore k lat w).rootBase = s.rootBase := rfl
@[simp] theorem State.postCore_defaultTvb (s : State) (k : Fin 8) (lat : Nat) (w : CoreWrite) : (s.postCore k lat w).defaultTvb = s.defaultTvb := rfl
@[simp] theorem State.postCore_dies (s : State) (k : Fin 8) (lat : Nat) (w : CoreWrite) : (s.postCore k lat w).dies = s.dies := rfl
@[simp] theorem State.postCore_relocs (s : State) (k : Fin 8) (lat : Nat) (w : CoreWrite) : (s.postCore k lat w).relocs = s.relocs := rfl
@[simp] theorem State.postCore_launches (s : State) (k : Fin 8) (lat : Nat) (w : CoreWrite) : (s.postCore k lat w).launches = s.launches := rfl
@[simp] theorem State.postCore_nextLaunch (s : State) (k : Fin 8) (lat : Nat) (w : CoreWrite) : (s.postCore k lat w).nextLaunch = s.nextLaunch := rfl
@[simp] theorem State.postCore_nextFire (s : State) (k : Fin 8) (lat : Nat) (w : CoreWrite) : (s.postCore k lat w).nextFire = s.nextFire := rfl
@[simp] theorem State.postCore_fires (s : State) (k : Fin 8) (lat : Nat) (w : CoreWrite) : (s.postCore k lat w).fires = s.fires := rfl
@[simp] theorem State.postCore_preempts (s : State) (k : Fin 8) (lat : Nat) (w : CoreWrite) : (s.postCore k lat w).preempts = s.preempts := rfl
@[simp] theorem State.postCore_armed (s : State) (k : Fin 8) (lat : Nat) (w : CoreWrite) : (s.postCore k lat w).armed = s.armed := rfl
@[simp] theorem State.postCore_streams (s : State) (k : Fin 8) (lat : Nat) (w : CoreWrite) : (s.postCore k lat w).streams = s.streams := rfl
@[simp] theorem State.postCore_outbox (s : State) (k : Fin 8) (lat : Nat) (w : CoreWrite) : (s.postCore k lat w).outbox = s.outbox := rfl
@[simp] theorem State.postCore_etherType (s : State) (k : Fin 8) (lat : Nat) (w : CoreWrite) : (s.postCore k lat w).etherType = s.etherType := rfl
@[simp] theorem State.postCore_udpPort (s : State) (k : Fin 8) (lat : Nat) (w : CoreWrite) : (s.postCore k lat w).udpPort = s.udpPort := rfl
@[simp] theorem State.postCore_codeGen (s : State) (k : Fin 8) (lat : Nat) (w : CoreWrite) : (s.postCore k lat w).codeGen = s.codeGen := rfl
@[simp] theorem State.postCore_counts (s : State) (k : Fin 8) (lat : Nat) (w : CoreWrite) : (s.postCore k lat w).counts = s.counts := rfl
@[simp] theorem State.postCore_m0 (s : State) (k : Fin 8) (lat : Nat) (w : CoreWrite) : (s.postCore k lat w).m0 = s.m0 := rfl
@[simp] theorem State.postCore_m1 (s : State) (k : Fin 8) (lat : Nat) (w : CoreWrite) : (s.postCore k lat w).m1 = s.m1 := rfl
@[simp] theorem State.postCore_m2 (s : State) (k : Fin 8) (lat : Nat) (w : CoreWrite) : (s.postCore k lat w).m2 = s.m2 := rfl
@[simp] theorem State.postCore_m3 (s : State) (k : Fin 8) (lat : Nat) (w : CoreWrite) : (s.postCore k lat w).m3 = s.m3 := rfl
@[simp] theorem State.postCore_resets (s : State) (k : Fin 8) (lat : Nat) (w : CoreWrite) : (s.postCore k lat w).resets = s.resets := rfl
@[simp] theorem State.postCore_image (s : State) (k : Fin 8) (lat : Nat) (w : CoreWrite) : (s.postCore k lat w).image = s.image := rfl
@[simp] theorem State.postCore_booted (s : State) (k : Fin 8) (lat : Nat) (w : CoreWrite) : (s.postCore k lat w).booted = s.booted := rfl
@[simp] theorem State.postCore_recovery (s : State) (k : Fin 8) (lat : Nat) (w : CoreWrite) : (s.postCore k lat w).recovery = s.recovery := rfl
@[simp] theorem State.postCore_spares (s : State) (k : Fin 8) (lat : Nat) (w : CoreWrite) : (s.postCore k lat w).spares = s.spares := rfl
@[simp] theorem State.postCore_redBase (s : State) (k : Fin 8) (lat : Nat) (w : CoreWrite) : (s.postCore k lat w).redBase = s.redBase := rfl
@[simp] theorem State.postCore_redLog (s : State) (k : Fin 8) (lat : Nat) (w : CoreWrite) : (s.postCore k lat w).redLog = s.redLog := rfl
@[simp] theorem State.postCore_redGroup (s : State) (k : Fin 8) (lat : Nat) (w : CoreWrite) : (s.postCore k lat w).redGroup = s.redGroup := rfl
@[simp] theorem State.postCore_redRank (s : State) (k : Fin 8) (lat : Nat) (w : CoreWrite) : (s.postCore k lat w).redRank = s.redRank := rfl
@[simp] theorem State.postCore_redCons (s : State) (k : Fin 8) (lat : Nat) (w : CoreWrite) : (s.postCore k lat w).redCons = s.redCons := rfl
@[simp] theorem State.postCore_red (s : State) (k : Fin 8) (lat : Nat) (w : CoreWrite) : (s.postCore k lat w).red = s.red := rfl
@[simp] theorem State.postCore_pollSlot (s : State) (k : Fin 8) (lat : Nat) (w : CoreWrite) : (s.postCore k lat w).pollSlot = s.pollSlot := rfl
@[simp] theorem State.postCore_agenda (s : State) (k : Fin 8) (lat : Nat) (w : CoreWrite) : (s.postCore k lat w).agenda = s.agenda := rfl
@[simp] theorem State.postCore_ev (s : State) (k : Fin 8) (lat : Nat) (w : CoreWrite) : (s.postCore k lat w).ev = s.ev := rfl
@[simp] theorem State.postCore_turn (s : State) (k : Fin 8) (lat : Nat) (w : CoreWrite) : (s.postCore k lat w).turn = s.turn := rfl
@[simp] theorem State.postCore_freeCtr (s : State) (k : Fin 8) (lat : Nat) (w : CoreWrite) : (s.postCore k lat w).freeCtr = s.freeCtr := rfl
@[simp] theorem State.postCore_readied (s : State) (k : Fin 8) (lat : Nat) (w : CoreWrite) : (s.postCore k lat w).readied = s.readied := rfl
@[simp] theorem State.postCore_cl_id (s : State) (k : Fin 8) (lat : Nat) (w : CoreWrite) : (s.postCore k lat w).cl.id = s.cl.id := rfl
@[simp] theorem State.postCore_cl_part (s : State) (k : Fin 8) (lat : Nat) (w : CoreWrite) : (s.postCore k lat w).cl.part = s.cl.part := rfl
@[simp] theorem State.postCore_cl_asn (s : State) (k : Fin 8) (lat : Nat) (w : CoreWrite) : (s.postCore k lat w).cl.asn = s.cl.asn := rfl
@[simp] theorem State.postCore_cl_run (s : State) (k : Fin 8) (lat : Nat) (w : CoreWrite) : (s.postCore k lat w).cl.run = s.cl.run := rfl
@[simp] theorem State.postCore_cl_banks (s : State) (k : Fin 8) (lat : Nat) (w : CoreWrite) : (s.postCore k lat w).cl.banks = s.cl.banks := rfl
@[simp] theorem State.postCore_cl_cores (s : State) (k : Fin 8) (lat : Nat) (w : CoreWrite) : (s.postCore k lat w).cl.cores = s.cl.cores := rfl
@[simp] theorem State.postCore_cl_tlb (s : State) (k : Fin 8) (lat : Nat) (w : CoreWrite) : (s.postCore k lat w).cl.tlb = s.cl.tlb := rfl
@[simp] theorem State.postCore_cl_time (s : State) (k : Fin 8) (lat : Nat) (w : CoreWrite) : (s.postCore k lat w).cl.time = s.cl.time := rfl
@[simp] theorem State.postCore_cl_frozen (s : State) (k : Fin 8) (lat : Nat) (w : CoreWrite) : (s.postCore k lat w).cl.frozen = s.cl.frozen := rfl
@[simp] theorem State.postCore_cl_lastAt (s : State) (k : Fin 8) (lat : Nat) (w : CoreWrite) : (s.postCore k lat w).cl.lastAt = s.cl.lastAt := rfl
@[simp] theorem State.postCore_cl_lastSkew (s : State) (k : Fin 8) (lat : Nat) (w : CoreWrite) : (s.postCore k lat w).cl.lastSkew = s.cl.lastSkew := rfl
@[simp] theorem State.postCore_cl_opn (s : State) (k : Fin 8) (lat : Nat) (w : CoreWrite) : (s.postCore k lat w).cl.opn = s.cl.opn := rfl
@[simp] theorem State.postCore_cl_nextOp (s : State) (k : Fin 8) (lat : Nat) (w : CoreWrite) : (s.postCore k lat w).cl.nextOp = s.cl.nextOp := rfl
@[simp] theorem State.postCore_cl_cmds (s : State) (k : Fin 8) (lat : Nat) (w : CoreWrite) : (s.postCore k lat w).cl.cmds = s.cl.cmds := rfl
@[simp] theorem State.postCore_cl_nextCmd (s : State) (k : Fin 8) (lat : Nat) (w : CoreWrite) : (s.postCore k lat w).cl.nextCmd = s.cl.nextCmd := rfl
@[simp] theorem State.postCore_cl_accepted (s : State) (k : Fin 8) (lat : Nat) (w : CoreWrite) : (s.postCore k lat w).cl.accepted = s.cl.accepted := rfl
@[simp] theorem State.postCore_cl_lastCmd (s : State) (k : Fin 8) (lat : Nat) (w : CoreWrite) : (s.postCore k lat w).cl.lastCmd = s.cl.lastCmd := rfl
@[simp] theorem State.postCore_cl_barTold (s : State) (k : Fin 8) (lat : Nat) (w : CoreWrite) : (s.postCore k lat w).cl.barTold = s.cl.barTold := rfl
@[simp] theorem State.postCore_cl_arrSlots (s : State) (k : Fin 8) (lat : Nat) (w : CoreWrite) : (s.postCore k lat w).cl.arrSlots = s.cl.arrSlots := rfl
@[simp] theorem State.postCore_cl_arrivals (s : State) (k : Fin 8) (lat : Nat) (w : CoreWrite) : (s.postCore k lat w).cl.arrivals = s.cl.arrivals := rfl
@[simp] theorem State.postCore_cl_searches (s : State) (k : Fin 8) (lat : Nat) (w : CoreWrite) : (s.postCore k lat w).cl.searches = s.cl.searches := rfl
@[simp] theorem State.postCore_cl_invs (s : State) (k : Fin 8) (lat : Nat) (w : CoreWrite) : (s.postCore k lat w).cl.invs = s.cl.invs := rfl
@[simp] theorem State.postCore_cl_preempt (s : State) (k : Fin 8) (lat : Nat) (w : CoreWrite) : (s.postCore k lat w).cl.preempt = s.cl.preempt := rfl
@[simp] theorem State.postCore_cl_shadows (s : State) (k : Fin 8) (lat : Nat) (w : CoreWrite) : (s.postCore k lat w).cl.shadows = s.cl.shadows := rfl
@[simp] theorem State.postCore_cl_busyVec (s : State) (k : Fin 8) (lat : Nat) (w : CoreWrite) : (s.postCore k lat w).cl.busyVec = s.cl.busyVec := rfl
@[simp] theorem State.postCore_cl_busyUnpack (s : State) (k : Fin 8) (lat : Nat) (w : CoreWrite) : (s.postCore k lat w).cl.busyUnpack = s.cl.busyUnpack := rfl
@[simp] theorem State.postCore_cl_busyPack (s : State) (k : Fin 8) (lat : Nat) (w : CoreWrite) : (s.postCore k lat w).cl.busyPack = s.cl.busyPack := rfl
@[simp] theorem State.postCore_cl_sinceSample (s : State) (k : Fin 8) (lat : Nat) (w : CoreWrite) : (s.postCore k lat w).cl.sinceSample = s.cl.sinceSample := rfl
@[simp] theorem State.postCore_cl_last (s : State) (k : Fin 8) (lat : Nat) (w : CoreWrite) : (s.postCore k lat w).cl.last = s.cl.last := rfl
@[simp] theorem State.postCore_cl_sample (s : State) (k : Fin 8) (lat : Nat) (w : CoreWrite) : (s.postCore k lat w).cl.sample = s.cl.sample := rfl
@[simp] theorem State.postCore_cl_evals (s : State) (k : Fin 8) (lat : Nat) (w : CoreWrite) : (s.postCore k lat w).cl.evals = s.cl.evals := rfl
@[simp] theorem State.postCore_cl_stop (s : State) (k : Fin 8) (lat : Nat) (w : CoreWrite) : (s.postCore k lat w).cl.stop = s.cl.stop := rfl
@[simp] theorem State.postCore_bank_state (s : State) (k : Fin 8) (lat : Nat) (w : CoreWrite) : (s.postCore k lat w).cl.bank.state = s.cl.bank.state := rfl
@[simp] theorem State.postCore_bank_file (s : State) (k : Fin 8) (lat : Nat) (w : CoreWrite) : (s.postCore k lat w).cl.bank.file = s.cl.bank.file := rfl
@[simp] theorem State.postCore_bank_lc (s : State) (k : Fin 8) (lat : Nat) (w : CoreWrite) : (s.postCore k lat w).cl.bank.lc = s.cl.bank.lc := rfl
@[simp] theorem State.postCore_bank_loops (s : State) (k : Fin 8) (lat : Nat) (w : CoreWrite) : (s.postCore k lat w).cl.bank.loops = s.cl.bank.loops := rfl
@[simp] theorem State.postCore_bank_aside (s : State) (k : Fin 8) (lat : Nat) (w : CoreWrite) : (s.postCore k lat w).cl.bank.aside = s.cl.bank.aside := rfl
@[simp] theorem State.postCore_bank_loopBuf (s : State) (k : Fin 8) (lat : Nat) (w : CoreWrite) : (s.postCore k lat w).cl.bank.loopBuf = s.cl.bank.loopBuf := rfl
@[simp] theorem State.postCore_bank_pc (s : State) (k : Fin 8) (lat : Nat) (w : CoreWrite) : (s.postCore k lat w).cl.bank.pc = s.cl.bank.pc := rfl
@[simp] theorem State.postCore_bank_tsw (s : State) (k : Fin 8) (lat : Nat) (w : CoreWrite) : (s.postCore k lat w).cl.bank.tsw = s.cl.bank.tsw := rfl
@[simp] theorem State.postCore_bank_wid (s : State) (k : Fin 8) (lat : Nat) (w : CoreWrite) : (s.postCore k lat w).cl.bank.wid = s.cl.bank.wid := rfl
@[simp] theorem State.postCore_bank_trec (s : State) (k : Fin 8) (lat : Nat) (w : CoreWrite) : (s.postCore k lat w).cl.bank.trec = s.cl.bank.trec := rfl
@[simp] theorem State.postCore_bank_frame (s : State) (k : Fin 8) (lat : Nat) (w : CoreWrite) : (s.postCore k lat w).cl.bank.frame = s.cl.bank.frame := rfl
@[simp] theorem State.postCore_bank_tidx (s : State) (k : Fin 8) (lat : Nat) (w : CoreWrite) : (s.postCore k lat w).cl.bank.tidx = s.cl.bank.tidx := rfl
@[simp] theorem State.postCore_bank_lrec (s : State) (k : Fin 8) (lat : Nat) (w : CoreWrite) : (s.postCore k lat w).cl.bank.lrec = s.cl.bank.lrec := rfl
@[simp] theorem State.postCore_bank_slen (s : State) (k : Fin 8) (lat : Nat) (w : CoreWrite) : (s.postCore k lat w).cl.bank.slen = s.cl.bank.slen := rfl
@[simp] theorem State.postCore_bank_coreEn (s : State) (k : Fin 8) (lat : Nat) (w : CoreWrite) : (s.postCore k lat w).cl.bank.coreEn = s.cl.bank.coreEn := rfl
@[simp] theorem State.postCore_bank_skew (s : State) (k : Fin 8) (lat : Nat) (w : CoreWrite) : (s.postCore k lat w).cl.bank.skew = s.cl.bank.skew := rfl
@[simp] theorem State.postCore_bank_vl (s : State) (k : Fin 8) (lat : Nat) (w : CoreWrite) : (s.postCore k lat w).cl.bank.vl = s.cl.bank.vl := rfl
@[simp] theorem State.postCore_bank_vtype (s : State) (k : Fin 8) (lat : Nat) (w : CoreWrite) : (s.postCore k lat w).cl.bank.vtype = s.cl.bank.vtype := rfl
@[simp] theorem State.postCore_bank_gpos (s : State) (k : Fin 8) (lat : Nat) (w : CoreWrite) : (s.postCore k lat w).cl.bank.gpos = s.cl.bank.gpos := rfl
@[simp] theorem State.postCore_bank_gseedA (s : State) (k : Fin 8) (lat : Nat) (w : CoreWrite) : (s.postCore k lat w).cl.bank.gseedA = s.cl.bank.gseedA := rfl
@[simp] theorem State.postCore_bank_gseedB (s : State) (k : Fin 8) (lat : Nat) (w : CoreWrite) : (s.postCore k lat w).cl.bank.gseedB = s.cl.bank.gseedB := rfl
@[simp] theorem State.postCore_bank_tvb (s : State) (k : Fin 8) (lat : Nat) (w : CoreWrite) : (s.postCore k lat w).cl.bank.tvb = s.cl.bank.tvb := rfl
@[simp] theorem State.postCore_bank_tpc (s : State) (k : Fin 8) (lat : Nat) (w : CoreWrite) : (s.postCore k lat w).cl.bank.tpc = s.cl.bank.tpc := rfl
@[simp] theorem State.postCore_bank_tcause (s : State) (k : Fin 8) (lat : Nat) (w : CoreWrite) : (s.postCore k lat w).cl.bank.tcause = s.cl.bank.tcause := rfl
@[simp] theorem State.postCore_bank_tval (s : State) (k : Fin 8) (lat : Nat) (w : CoreWrite) : (s.postCore k lat w).cl.bank.tval = s.cl.bank.tval := rfl
@[simp] theorem State.postCore_bank_handles (s : State) (k : Fin 8) (lat : Nat) (w : CoreWrite) : (s.postCore k lat w).cl.bank.handles = s.cl.bank.handles := rfl
@[simp] theorem State.postCore_bank_pend (s : State) (k : Fin 8) (lat : Nat) (w : CoreWrite) : (s.postCore k lat w).cl.bank.pend = s.cl.bank.pend := rfl
@[simp] theorem State.postCore_bank_qLast (s : State) (k : Fin 8) (lat : Nat) (w : CoreWrite) : (s.postCore k lat w).cl.bank.qLast = s.cl.bank.qLast := rfl
@[simp] theorem State.postCore_bank_ops (s : State) (k : Fin 8) (lat : Nat) (w : CoreWrite) : (s.postCore k lat w).cl.bank.ops = s.cl.bank.ops := rfl
@[simp] theorem State.postCore_bank_windows (s : State) (k : Fin 8) (lat : Nat) (w : CoreWrite) : (s.postCore k lat w).cl.bank.windows = s.cl.bank.windows := rfl
@[simp] theorem State.postCore_bank_holds (s : State) (k : Fin 8) (lat : Nat) (w : CoreWrite) : (s.postCore k lat w).cl.bank.holds = s.cl.bank.holds := rfl
@[simp] theorem State.postCore_bank_tlbinvs (s : State) (k : Fin 8) (lat : Nat) (w : CoreWrite) : (s.postCore k lat w).cl.bank.tlbinvs = s.cl.bank.tlbinvs := rfl
@[simp] theorem State.postCore_bank_reenter (s : State) (k : Fin 8) (lat : Nat) (w : CoreWrite) : (s.postCore k lat w).cl.bank.reenter = s.cl.bank.reenter := rfl
@[simp] theorem State.postCore_bank_pendTrap (s : State) (k : Fin 8) (lat : Nat) (w : CoreWrite) : (s.postCore k lat w).cl.bank.pendTrap = s.cl.bank.pendTrap := rfl
@[simp] theorem State.postCore_bank_checked (s : State) (k : Fin 8) (lat : Nat) (w : CoreWrite) : (s.postCore k lat w).cl.bank.checked = s.cl.bank.checked := rfl
@[simp] theorem State.postCore_bank_checkedNew (s : State) (k : Fin 8) (lat : Nat) (w : CoreWrite) : (s.postCore k lat w).cl.bank.checkedNew = s.cl.bank.checkedNew := rfl
@[simp] theorem State.postCore_bank_checkedAt (s : State) (k : Fin 8) (lat : Nat) (w : CoreWrite) : (s.postCore k lat w).cl.bank.checkedAt = s.cl.bank.checkedAt := rfl
@[simp] theorem State.postCore_bank_mcAddr (s : State) (k : Fin 8) (lat : Nat) (w : CoreWrite) : (s.postCore k lat w).cl.bank.mcAddr = s.cl.bank.mcAddr := rfl
@[simp] theorem State.postCore_bank_courierErrs (s : State) (k : Fin 8) (lat : Nat) (w : CoreWrite) : (s.postCore k lat w).cl.bank.courierErrs = s.cl.bank.courierErrs := rfl
@[simp] theorem State.postCore_bank_byArrival (s : State) (k : Fin 8) (lat : Nat) (w : CoreWrite) : (s.postCore k lat w).cl.bank.byArrival = s.cl.bank.byArrival := rfl
@[simp] theorem State.postCore_bank_readySince (s : State) (k : Fin 8) (lat : Nat) (w : CoreWrite) : (s.postCore k lat w).cl.bank.readySince = s.cl.bank.readySince := rfl
@[simp] theorem State.postCore_bank_prio (s : State) (k : Fin 8) (lat : Nat) (w : CoreWrite) : (s.postCore k lat w).cl.bank.prio = s.cl.bank.prio := rfl
@[simp] theorem State.postCore_bank_slept (s : State) (k : Fin 8) (lat : Nat) (w : CoreWrite) : (s.postCore k lat w).cl.bank.slept = s.cl.bank.slept := rfl
@[simp] theorem State.postCore_bank_residual (s : State) (k : Fin 8) (lat : Nat) (w : CoreWrite) : (s.postCore k lat w).cl.bank.residual = s.cl.bank.residual := rfl

/-! ### State.postArray -/

@[simp] theorem State.postArray_others (s : State) (k : Fin 8) (lat : Nat) (w : ArrayWrite) : (s.postArray k lat w).others = s.others := rfl
@[simp] theorem State.postArray_mem (s : State) (k : Fin 8) (lat : Nat) (w : ArrayWrite) : (s.postArray k lat w).mem = s.mem := rfl
@[simp] theorem State.postArray_badWords (s : State) (k : Fin 8) (lat : Nat) (w : ArrayWrite) : (s.postArray k lat w).badWords = s.badWords := rfl
@[simp] theorem State.postArray_softWords (s : State) (k : Fin 8) (lat : Nat) (w : ArrayWrite) : (s.postArray k lat w).softWords = s.softWords := rfl
@[simp] theorem State.postArray_lines (s : State) (k : Fin 8) (lat : Nat) (w : ArrayWrite) : (s.postArray k lat w).lines = s.lines := rfl
@[simp] theorem State.postArray_cycle (s : State) (k : Fin 8) (lat : Nat) (w : ArrayWrite) : (s.postArray k lat w).cycle = s.cycle := rfl
@[simp] theorem State.postArray_tstep (s : State) (k : Fin 8) (lat : Nat) (w : ArrayWrite) : (s.postArray k lat w).tstep = s.tstep := rfl
@[simp] theorem State.postArray_tstepAt (s : State) (k : Fin 8) (lat : Nat) (w : ArrayWrite) : (s.postArray k lat w).tstepAt = s.tstepAt := rfl
@[simp] theorem State.postArray_aligned (s : State) (k : Fin 8) (lat : Nat) (w : ArrayWrite) : (s.postArray k lat w).aligned = s.aligned := rfl
@[simp] theorem State.postArray_rootBase (s : State) (k : Fin 8) (lat : Nat) (w : ArrayWrite) : (s.postArray k lat w).rootBase = s.rootBase := rfl
@[simp] theorem State.postArray_defaultTvb (s : State) (k : Fin 8) (lat : Nat) (w : ArrayWrite) : (s.postArray k lat w).defaultTvb = s.defaultTvb := rfl
@[simp] theorem State.postArray_dies (s : State) (k : Fin 8) (lat : Nat) (w : ArrayWrite) : (s.postArray k lat w).dies = s.dies := rfl
@[simp] theorem State.postArray_relocs (s : State) (k : Fin 8) (lat : Nat) (w : ArrayWrite) : (s.postArray k lat w).relocs = s.relocs := rfl
@[simp] theorem State.postArray_launches (s : State) (k : Fin 8) (lat : Nat) (w : ArrayWrite) : (s.postArray k lat w).launches = s.launches := rfl
@[simp] theorem State.postArray_nextLaunch (s : State) (k : Fin 8) (lat : Nat) (w : ArrayWrite) : (s.postArray k lat w).nextLaunch = s.nextLaunch := rfl
@[simp] theorem State.postArray_nextFire (s : State) (k : Fin 8) (lat : Nat) (w : ArrayWrite) : (s.postArray k lat w).nextFire = s.nextFire := rfl
@[simp] theorem State.postArray_fires (s : State) (k : Fin 8) (lat : Nat) (w : ArrayWrite) : (s.postArray k lat w).fires = s.fires := rfl
@[simp] theorem State.postArray_preempts (s : State) (k : Fin 8) (lat : Nat) (w : ArrayWrite) : (s.postArray k lat w).preempts = s.preempts := rfl
@[simp] theorem State.postArray_armed (s : State) (k : Fin 8) (lat : Nat) (w : ArrayWrite) : (s.postArray k lat w).armed = s.armed := rfl
@[simp] theorem State.postArray_streams (s : State) (k : Fin 8) (lat : Nat) (w : ArrayWrite) : (s.postArray k lat w).streams = s.streams := rfl
@[simp] theorem State.postArray_outbox (s : State) (k : Fin 8) (lat : Nat) (w : ArrayWrite) : (s.postArray k lat w).outbox = s.outbox := rfl
@[simp] theorem State.postArray_etherType (s : State) (k : Fin 8) (lat : Nat) (w : ArrayWrite) : (s.postArray k lat w).etherType = s.etherType := rfl
@[simp] theorem State.postArray_udpPort (s : State) (k : Fin 8) (lat : Nat) (w : ArrayWrite) : (s.postArray k lat w).udpPort = s.udpPort := rfl
@[simp] theorem State.postArray_codeGen (s : State) (k : Fin 8) (lat : Nat) (w : ArrayWrite) : (s.postArray k lat w).codeGen = s.codeGen := rfl
@[simp] theorem State.postArray_counts (s : State) (k : Fin 8) (lat : Nat) (w : ArrayWrite) : (s.postArray k lat w).counts = s.counts := rfl
@[simp] theorem State.postArray_m0 (s : State) (k : Fin 8) (lat : Nat) (w : ArrayWrite) : (s.postArray k lat w).m0 = s.m0 := rfl
@[simp] theorem State.postArray_m1 (s : State) (k : Fin 8) (lat : Nat) (w : ArrayWrite) : (s.postArray k lat w).m1 = s.m1 := rfl
@[simp] theorem State.postArray_m2 (s : State) (k : Fin 8) (lat : Nat) (w : ArrayWrite) : (s.postArray k lat w).m2 = s.m2 := rfl
@[simp] theorem State.postArray_m3 (s : State) (k : Fin 8) (lat : Nat) (w : ArrayWrite) : (s.postArray k lat w).m3 = s.m3 := rfl
@[simp] theorem State.postArray_resets (s : State) (k : Fin 8) (lat : Nat) (w : ArrayWrite) : (s.postArray k lat w).resets = s.resets := rfl
@[simp] theorem State.postArray_image (s : State) (k : Fin 8) (lat : Nat) (w : ArrayWrite) : (s.postArray k lat w).image = s.image := rfl
@[simp] theorem State.postArray_booted (s : State) (k : Fin 8) (lat : Nat) (w : ArrayWrite) : (s.postArray k lat w).booted = s.booted := rfl
@[simp] theorem State.postArray_recovery (s : State) (k : Fin 8) (lat : Nat) (w : ArrayWrite) : (s.postArray k lat w).recovery = s.recovery := rfl
@[simp] theorem State.postArray_spares (s : State) (k : Fin 8) (lat : Nat) (w : ArrayWrite) : (s.postArray k lat w).spares = s.spares := rfl
@[simp] theorem State.postArray_redBase (s : State) (k : Fin 8) (lat : Nat) (w : ArrayWrite) : (s.postArray k lat w).redBase = s.redBase := rfl
@[simp] theorem State.postArray_redLog (s : State) (k : Fin 8) (lat : Nat) (w : ArrayWrite) : (s.postArray k lat w).redLog = s.redLog := rfl
@[simp] theorem State.postArray_redGroup (s : State) (k : Fin 8) (lat : Nat) (w : ArrayWrite) : (s.postArray k lat w).redGroup = s.redGroup := rfl
@[simp] theorem State.postArray_redRank (s : State) (k : Fin 8) (lat : Nat) (w : ArrayWrite) : (s.postArray k lat w).redRank = s.redRank := rfl
@[simp] theorem State.postArray_redCons (s : State) (k : Fin 8) (lat : Nat) (w : ArrayWrite) : (s.postArray k lat w).redCons = s.redCons := rfl
@[simp] theorem State.postArray_red (s : State) (k : Fin 8) (lat : Nat) (w : ArrayWrite) : (s.postArray k lat w).red = s.red := rfl
@[simp] theorem State.postArray_pollSlot (s : State) (k : Fin 8) (lat : Nat) (w : ArrayWrite) : (s.postArray k lat w).pollSlot = s.pollSlot := rfl
@[simp] theorem State.postArray_agenda (s : State) (k : Fin 8) (lat : Nat) (w : ArrayWrite) : (s.postArray k lat w).agenda = s.agenda := rfl
@[simp] theorem State.postArray_ev (s : State) (k : Fin 8) (lat : Nat) (w : ArrayWrite) : (s.postArray k lat w).ev = s.ev := rfl
@[simp] theorem State.postArray_turn (s : State) (k : Fin 8) (lat : Nat) (w : ArrayWrite) : (s.postArray k lat w).turn = s.turn := rfl
@[simp] theorem State.postArray_freeCtr (s : State) (k : Fin 8) (lat : Nat) (w : ArrayWrite) : (s.postArray k lat w).freeCtr = s.freeCtr := rfl
@[simp] theorem State.postArray_readied (s : State) (k : Fin 8) (lat : Nat) (w : ArrayWrite) : (s.postArray k lat w).readied = s.readied := rfl
@[simp] theorem State.postArray_cl_id (s : State) (k : Fin 8) (lat : Nat) (w : ArrayWrite) : (s.postArray k lat w).cl.id = s.cl.id := rfl
@[simp] theorem State.postArray_cl_part (s : State) (k : Fin 8) (lat : Nat) (w : ArrayWrite) : (s.postArray k lat w).cl.part = s.cl.part := rfl
@[simp] theorem State.postArray_cl_asn (s : State) (k : Fin 8) (lat : Nat) (w : ArrayWrite) : (s.postArray k lat w).cl.asn = s.cl.asn := rfl
@[simp] theorem State.postArray_cl_run (s : State) (k : Fin 8) (lat : Nat) (w : ArrayWrite) : (s.postArray k lat w).cl.run = s.cl.run := rfl
@[simp] theorem State.postArray_cl_bank (s : State) (k : Fin 8) (lat : Nat) (w : ArrayWrite) : (s.postArray k lat w).cl.bank = s.cl.bank := rfl
@[simp] theorem State.postArray_cl_banks (s : State) (k : Fin 8) (lat : Nat) (w : ArrayWrite) : (s.postArray k lat w).cl.banks = s.cl.banks := rfl
@[simp] theorem State.postArray_cl_tlb (s : State) (k : Fin 8) (lat : Nat) (w : ArrayWrite) : (s.postArray k lat w).cl.tlb = s.cl.tlb := rfl
@[simp] theorem State.postArray_cl_time (s : State) (k : Fin 8) (lat : Nat) (w : ArrayWrite) : (s.postArray k lat w).cl.time = s.cl.time := rfl
@[simp] theorem State.postArray_cl_frozen (s : State) (k : Fin 8) (lat : Nat) (w : ArrayWrite) : (s.postArray k lat w).cl.frozen = s.cl.frozen := rfl
@[simp] theorem State.postArray_cl_lastAt (s : State) (k : Fin 8) (lat : Nat) (w : ArrayWrite) : (s.postArray k lat w).cl.lastAt = s.cl.lastAt := rfl
@[simp] theorem State.postArray_cl_lastSkew (s : State) (k : Fin 8) (lat : Nat) (w : ArrayWrite) : (s.postArray k lat w).cl.lastSkew = s.cl.lastSkew := rfl
@[simp] theorem State.postArray_cl_opn (s : State) (k : Fin 8) (lat : Nat) (w : ArrayWrite) : (s.postArray k lat w).cl.opn = s.cl.opn := rfl
@[simp] theorem State.postArray_cl_nextOp (s : State) (k : Fin 8) (lat : Nat) (w : ArrayWrite) : (s.postArray k lat w).cl.nextOp = s.cl.nextOp := rfl
@[simp] theorem State.postArray_cl_cmds (s : State) (k : Fin 8) (lat : Nat) (w : ArrayWrite) : (s.postArray k lat w).cl.cmds = s.cl.cmds := rfl
@[simp] theorem State.postArray_cl_nextCmd (s : State) (k : Fin 8) (lat : Nat) (w : ArrayWrite) : (s.postArray k lat w).cl.nextCmd = s.cl.nextCmd := rfl
@[simp] theorem State.postArray_cl_accepted (s : State) (k : Fin 8) (lat : Nat) (w : ArrayWrite) : (s.postArray k lat w).cl.accepted = s.cl.accepted := rfl
@[simp] theorem State.postArray_cl_lastCmd (s : State) (k : Fin 8) (lat : Nat) (w : ArrayWrite) : (s.postArray k lat w).cl.lastCmd = s.cl.lastCmd := rfl
@[simp] theorem State.postArray_cl_barTold (s : State) (k : Fin 8) (lat : Nat) (w : ArrayWrite) : (s.postArray k lat w).cl.barTold = s.cl.barTold := rfl
@[simp] theorem State.postArray_cl_arrSlots (s : State) (k : Fin 8) (lat : Nat) (w : ArrayWrite) : (s.postArray k lat w).cl.arrSlots = s.cl.arrSlots := rfl
@[simp] theorem State.postArray_cl_arrivals (s : State) (k : Fin 8) (lat : Nat) (w : ArrayWrite) : (s.postArray k lat w).cl.arrivals = s.cl.arrivals := rfl
@[simp] theorem State.postArray_cl_searches (s : State) (k : Fin 8) (lat : Nat) (w : ArrayWrite) : (s.postArray k lat w).cl.searches = s.cl.searches := rfl
@[simp] theorem State.postArray_cl_invs (s : State) (k : Fin 8) (lat : Nat) (w : ArrayWrite) : (s.postArray k lat w).cl.invs = s.cl.invs := rfl
@[simp] theorem State.postArray_cl_preempt (s : State) (k : Fin 8) (lat : Nat) (w : ArrayWrite) : (s.postArray k lat w).cl.preempt = s.cl.preempt := rfl
@[simp] theorem State.postArray_cl_shadows (s : State) (k : Fin 8) (lat : Nat) (w : ArrayWrite) : (s.postArray k lat w).cl.shadows = s.cl.shadows := rfl
@[simp] theorem State.postArray_cl_busyVec (s : State) (k : Fin 8) (lat : Nat) (w : ArrayWrite) : (s.postArray k lat w).cl.busyVec = s.cl.busyVec := rfl
@[simp] theorem State.postArray_cl_busyUnpack (s : State) (k : Fin 8) (lat : Nat) (w : ArrayWrite) : (s.postArray k lat w).cl.busyUnpack = s.cl.busyUnpack := rfl
@[simp] theorem State.postArray_cl_busyPack (s : State) (k : Fin 8) (lat : Nat) (w : ArrayWrite) : (s.postArray k lat w).cl.busyPack = s.cl.busyPack := rfl
@[simp] theorem State.postArray_cl_sinceSample (s : State) (k : Fin 8) (lat : Nat) (w : ArrayWrite) : (s.postArray k lat w).cl.sinceSample = s.cl.sinceSample := rfl
@[simp] theorem State.postArray_cl_last (s : State) (k : Fin 8) (lat : Nat) (w : ArrayWrite) : (s.postArray k lat w).cl.last = s.cl.last := rfl
@[simp] theorem State.postArray_cl_sample (s : State) (k : Fin 8) (lat : Nat) (w : ArrayWrite) : (s.postArray k lat w).cl.sample = s.cl.sample := rfl
@[simp] theorem State.postArray_cl_evals (s : State) (k : Fin 8) (lat : Nat) (w : ArrayWrite) : (s.postArray k lat w).cl.evals = s.cl.evals := rfl
@[simp] theorem State.postArray_cl_stop (s : State) (k : Fin 8) (lat : Nat) (w : ArrayWrite) : (s.postArray k lat w).cl.stop = s.cl.stop := rfl

/-! ### State.stall -/

@[simp] theorem State.stall_others (s : State)  : (s.stall).others = s.others := rfl
@[simp] theorem State.stall_mem (s : State)  : (s.stall).mem = s.mem := rfl
@[simp] theorem State.stall_badWords (s : State)  : (s.stall).badWords = s.badWords := rfl
@[simp] theorem State.stall_softWords (s : State)  : (s.stall).softWords = s.softWords := rfl
@[simp] theorem State.stall_lines (s : State)  : (s.stall).lines = s.lines := rfl
@[simp] theorem State.stall_cycle (s : State)  : (s.stall).cycle = s.cycle := rfl
@[simp] theorem State.stall_tstep (s : State)  : (s.stall).tstep = s.tstep := rfl
@[simp] theorem State.stall_tstepAt (s : State)  : (s.stall).tstepAt = s.tstepAt := rfl
@[simp] theorem State.stall_aligned (s : State)  : (s.stall).aligned = s.aligned := rfl
@[simp] theorem State.stall_rootBase (s : State)  : (s.stall).rootBase = s.rootBase := rfl
@[simp] theorem State.stall_defaultTvb (s : State)  : (s.stall).defaultTvb = s.defaultTvb := rfl
@[simp] theorem State.stall_dies (s : State)  : (s.stall).dies = s.dies := rfl
@[simp] theorem State.stall_relocs (s : State)  : (s.stall).relocs = s.relocs := rfl
@[simp] theorem State.stall_launches (s : State)  : (s.stall).launches = s.launches := rfl
@[simp] theorem State.stall_nextLaunch (s : State)  : (s.stall).nextLaunch = s.nextLaunch := rfl
@[simp] theorem State.stall_nextFire (s : State)  : (s.stall).nextFire = s.nextFire := rfl
@[simp] theorem State.stall_fires (s : State)  : (s.stall).fires = s.fires := rfl
@[simp] theorem State.stall_preempts (s : State)  : (s.stall).preempts = s.preempts := rfl
@[simp] theorem State.stall_armed (s : State)  : (s.stall).armed = s.armed := rfl
@[simp] theorem State.stall_streams (s : State)  : (s.stall).streams = s.streams := rfl
@[simp] theorem State.stall_outbox (s : State)  : (s.stall).outbox = s.outbox := rfl
@[simp] theorem State.stall_etherType (s : State)  : (s.stall).etherType = s.etherType := rfl
@[simp] theorem State.stall_udpPort (s : State)  : (s.stall).udpPort = s.udpPort := rfl
@[simp] theorem State.stall_codeGen (s : State)  : (s.stall).codeGen = s.codeGen := rfl
@[simp] theorem State.stall_counts (s : State)  : (s.stall).counts = s.counts := rfl
@[simp] theorem State.stall_m0 (s : State)  : (s.stall).m0 = s.m0 := rfl
@[simp] theorem State.stall_m1 (s : State)  : (s.stall).m1 = s.m1 := rfl
@[simp] theorem State.stall_m2 (s : State)  : (s.stall).m2 = s.m2 := rfl
@[simp] theorem State.stall_m3 (s : State)  : (s.stall).m3 = s.m3 := rfl
@[simp] theorem State.stall_resets (s : State)  : (s.stall).resets = s.resets := rfl
@[simp] theorem State.stall_image (s : State)  : (s.stall).image = s.image := rfl
@[simp] theorem State.stall_booted (s : State)  : (s.stall).booted = s.booted := rfl
@[simp] theorem State.stall_recovery (s : State)  : (s.stall).recovery = s.recovery := rfl
@[simp] theorem State.stall_spares (s : State)  : (s.stall).spares = s.spares := rfl
@[simp] theorem State.stall_redBase (s : State)  : (s.stall).redBase = s.redBase := rfl
@[simp] theorem State.stall_redLog (s : State)  : (s.stall).redLog = s.redLog := rfl
@[simp] theorem State.stall_redGroup (s : State)  : (s.stall).redGroup = s.redGroup := rfl
@[simp] theorem State.stall_redRank (s : State)  : (s.stall).redRank = s.redRank := rfl
@[simp] theorem State.stall_redCons (s : State)  : (s.stall).redCons = s.redCons := rfl
@[simp] theorem State.stall_red (s : State)  : (s.stall).red = s.red := rfl
@[simp] theorem State.stall_pollSlot (s : State)  : (s.stall).pollSlot = s.pollSlot := rfl
@[simp] theorem State.stall_agenda (s : State)  : (s.stall).agenda = s.agenda := rfl
@[simp] theorem State.stall_ev (s : State)  : (s.stall).ev = s.ev := rfl
@[simp] theorem State.stall_turn (s : State)  : (s.stall).turn = s.turn := rfl
@[simp] theorem State.stall_freeCtr (s : State)  : (s.stall).freeCtr = s.freeCtr := rfl
@[simp] theorem State.stall_readied (s : State)  : (s.stall).readied = s.readied := rfl
@[simp] theorem State.stall_cl_id (s : State)  : (s.stall).cl.id = s.cl.id := rfl
@[simp] theorem State.stall_cl_part (s : State)  : (s.stall).cl.part = s.cl.part := rfl
@[simp] theorem State.stall_cl_asn (s : State)  : (s.stall).cl.asn = s.cl.asn := rfl
@[simp] theorem State.stall_cl_run (s : State)  : (s.stall).cl.run = s.cl.run := rfl
@[simp] theorem State.stall_cl_bank (s : State)  : (s.stall).cl.bank = s.cl.bank := rfl
@[simp] theorem State.stall_cl_banks (s : State)  : (s.stall).cl.banks = s.cl.banks := rfl
@[simp] theorem State.stall_cl_cores (s : State)  : (s.stall).cl.cores = s.cl.cores := rfl
@[simp] theorem State.stall_cl_tlb (s : State)  : (s.stall).cl.tlb = s.cl.tlb := rfl
@[simp] theorem State.stall_cl_time (s : State)  : (s.stall).cl.time = s.cl.time := rfl
@[simp] theorem State.stall_cl_frozen (s : State)  : (s.stall).cl.frozen = s.cl.frozen := rfl
@[simp] theorem State.stall_cl_lastAt (s : State)  : (s.stall).cl.lastAt = s.cl.lastAt := rfl
@[simp] theorem State.stall_cl_lastSkew (s : State)  : (s.stall).cl.lastSkew = s.cl.lastSkew := rfl
@[simp] theorem State.stall_cl_nextOp (s : State)  : (s.stall).cl.nextOp = s.cl.nextOp := rfl
@[simp] theorem State.stall_cl_cmds (s : State)  : (s.stall).cl.cmds = s.cl.cmds := rfl
@[simp] theorem State.stall_cl_nextCmd (s : State)  : (s.stall).cl.nextCmd = s.cl.nextCmd := rfl
@[simp] theorem State.stall_cl_accepted (s : State)  : (s.stall).cl.accepted = s.cl.accepted := rfl
@[simp] theorem State.stall_cl_lastCmd (s : State)  : (s.stall).cl.lastCmd = s.cl.lastCmd := rfl
@[simp] theorem State.stall_cl_barTold (s : State)  : (s.stall).cl.barTold = s.cl.barTold := rfl
@[simp] theorem State.stall_cl_arrSlots (s : State)  : (s.stall).cl.arrSlots = s.cl.arrSlots := rfl
@[simp] theorem State.stall_cl_arrivals (s : State)  : (s.stall).cl.arrivals = s.cl.arrivals := rfl
@[simp] theorem State.stall_cl_searches (s : State)  : (s.stall).cl.searches = s.cl.searches := rfl
@[simp] theorem State.stall_cl_invs (s : State)  : (s.stall).cl.invs = s.cl.invs := rfl
@[simp] theorem State.stall_cl_preempt (s : State)  : (s.stall).cl.preempt = s.cl.preempt := rfl
@[simp] theorem State.stall_cl_shadows (s : State)  : (s.stall).cl.shadows = s.cl.shadows := rfl
@[simp] theorem State.stall_cl_busyVec (s : State)  : (s.stall).cl.busyVec = s.cl.busyVec := rfl
@[simp] theorem State.stall_cl_busyUnpack (s : State)  : (s.stall).cl.busyUnpack = s.cl.busyUnpack := rfl
@[simp] theorem State.stall_cl_busyPack (s : State)  : (s.stall).cl.busyPack = s.cl.busyPack := rfl
@[simp] theorem State.stall_cl_sinceSample (s : State)  : (s.stall).cl.sinceSample = s.cl.sinceSample := rfl
@[simp] theorem State.stall_cl_last (s : State)  : (s.stall).cl.last = s.cl.last := rfl
@[simp] theorem State.stall_cl_sample (s : State)  : (s.stall).cl.sample = s.cl.sample := rfl
@[simp] theorem State.stall_cl_evals (s : State)  : (s.stall).cl.evals = s.cl.evals := rfl
@[simp] theorem State.stall_cl_stop (s : State)  : (s.stall).cl.stop = s.cl.stop := rfl

/-! ### State.setDie -/

@[simp] theorem State.setDie_cl (s : State) (d : Fin 64) (x : Die) : (s.setDie d x).cl = s.cl := rfl
@[simp] theorem State.setDie_others (s : State) (d : Fin 64) (x : Die) : (s.setDie d x).others = s.others := rfl
@[simp] theorem State.setDie_mem (s : State) (d : Fin 64) (x : Die) : (s.setDie d x).mem = s.mem := rfl
@[simp] theorem State.setDie_badWords (s : State) (d : Fin 64) (x : Die) : (s.setDie d x).badWords = s.badWords := rfl
@[simp] theorem State.setDie_softWords (s : State) (d : Fin 64) (x : Die) : (s.setDie d x).softWords = s.softWords := rfl
@[simp] theorem State.setDie_lines (s : State) (d : Fin 64) (x : Die) : (s.setDie d x).lines = s.lines := rfl
@[simp] theorem State.setDie_cycle (s : State) (d : Fin 64) (x : Die) : (s.setDie d x).cycle = s.cycle := rfl
@[simp] theorem State.setDie_tstep (s : State) (d : Fin 64) (x : Die) : (s.setDie d x).tstep = s.tstep := rfl
@[simp] theorem State.setDie_tstepAt (s : State) (d : Fin 64) (x : Die) : (s.setDie d x).tstepAt = s.tstepAt := rfl
@[simp] theorem State.setDie_aligned (s : State) (d : Fin 64) (x : Die) : (s.setDie d x).aligned = s.aligned := rfl
@[simp] theorem State.setDie_rootBase (s : State) (d : Fin 64) (x : Die) : (s.setDie d x).rootBase = s.rootBase := rfl
@[simp] theorem State.setDie_defaultTvb (s : State) (d : Fin 64) (x : Die) : (s.setDie d x).defaultTvb = s.defaultTvb := rfl
@[simp] theorem State.setDie_relocs (s : State) (d : Fin 64) (x : Die) : (s.setDie d x).relocs = s.relocs := rfl
@[simp] theorem State.setDie_launches (s : State) (d : Fin 64) (x : Die) : (s.setDie d x).launches = s.launches := rfl
@[simp] theorem State.setDie_nextLaunch (s : State) (d : Fin 64) (x : Die) : (s.setDie d x).nextLaunch = s.nextLaunch := rfl
@[simp] theorem State.setDie_nextFire (s : State) (d : Fin 64) (x : Die) : (s.setDie d x).nextFire = s.nextFire := rfl
@[simp] theorem State.setDie_fires (s : State) (d : Fin 64) (x : Die) : (s.setDie d x).fires = s.fires := rfl
@[simp] theorem State.setDie_preempts (s : State) (d : Fin 64) (x : Die) : (s.setDie d x).preempts = s.preempts := rfl
@[simp] theorem State.setDie_armed (s : State) (d : Fin 64) (x : Die) : (s.setDie d x).armed = s.armed := rfl
@[simp] theorem State.setDie_streams (s : State) (d : Fin 64) (x : Die) : (s.setDie d x).streams = s.streams := rfl
@[simp] theorem State.setDie_outbox (s : State) (d : Fin 64) (x : Die) : (s.setDie d x).outbox = s.outbox := rfl
@[simp] theorem State.setDie_etherType (s : State) (d : Fin 64) (x : Die) : (s.setDie d x).etherType = s.etherType := rfl
@[simp] theorem State.setDie_udpPort (s : State) (d : Fin 64) (x : Die) : (s.setDie d x).udpPort = s.udpPort := rfl
@[simp] theorem State.setDie_codeGen (s : State) (d : Fin 64) (x : Die) : (s.setDie d x).codeGen = s.codeGen := rfl
@[simp] theorem State.setDie_counts (s : State) (d : Fin 64) (x : Die) : (s.setDie d x).counts = s.counts := rfl
@[simp] theorem State.setDie_m0 (s : State) (d : Fin 64) (x : Die) : (s.setDie d x).m0 = s.m0 := rfl
@[simp] theorem State.setDie_m1 (s : State) (d : Fin 64) (x : Die) : (s.setDie d x).m1 = s.m1 := rfl
@[simp] theorem State.setDie_m2 (s : State) (d : Fin 64) (x : Die) : (s.setDie d x).m2 = s.m2 := rfl
@[simp] theorem State.setDie_m3 (s : State) (d : Fin 64) (x : Die) : (s.setDie d x).m3 = s.m3 := rfl
@[simp] theorem State.setDie_resets (s : State) (d : Fin 64) (x : Die) : (s.setDie d x).resets = s.resets := rfl
@[simp] theorem State.setDie_image (s : State) (d : Fin 64) (x : Die) : (s.setDie d x).image = s.image := rfl
@[simp] theorem State.setDie_booted (s : State) (d : Fin 64) (x : Die) : (s.setDie d x).booted = s.booted := rfl
@[simp] theorem State.setDie_recovery (s : State) (d : Fin 64) (x : Die) : (s.setDie d x).recovery = s.recovery := rfl
@[simp] theorem State.setDie_spares (s : State) (d : Fin 64) (x : Die) : (s.setDie d x).spares = s.spares := rfl
@[simp] theorem State.setDie_redBase (s : State) (d : Fin 64) (x : Die) : (s.setDie d x).redBase = s.redBase := rfl
@[simp] theorem State.setDie_redLog (s : State) (d : Fin 64) (x : Die) : (s.setDie d x).redLog = s.redLog := rfl
@[simp] theorem State.setDie_redGroup (s : State) (d : Fin 64) (x : Die) : (s.setDie d x).redGroup = s.redGroup := rfl
@[simp] theorem State.setDie_redRank (s : State) (d : Fin 64) (x : Die) : (s.setDie d x).redRank = s.redRank := rfl
@[simp] theorem State.setDie_redCons (s : State) (d : Fin 64) (x : Die) : (s.setDie d x).redCons = s.redCons := rfl
@[simp] theorem State.setDie_red (s : State) (d : Fin 64) (x : Die) : (s.setDie d x).red = s.red := rfl
@[simp] theorem State.setDie_pollSlot (s : State) (d : Fin 64) (x : Die) : (s.setDie d x).pollSlot = s.pollSlot := rfl
@[simp] theorem State.setDie_agenda (s : State) (d : Fin 64) (x : Die) : (s.setDie d x).agenda = s.agenda := rfl
@[simp] theorem State.setDie_ev (s : State) (d : Fin 64) (x : Die) : (s.setDie d x).ev = s.ev := rfl
@[simp] theorem State.setDie_turn (s : State) (d : Fin 64) (x : Die) : (s.setDie d x).turn = s.turn := rfl
@[simp] theorem State.setDie_freeCtr (s : State) (d : Fin 64) (x : Die) : (s.setDie d x).freeCtr = s.freeCtr := rfl
@[simp] theorem State.setDie_readied (s : State) (d : Fin 64) (x : Die) : (s.setDie d x).readied = s.readied := rfl

/-! ### State.postS -/

@[simp] theorem State.postS_others (s : State) (lat : Nat) (d : Fin 32) (v : Word) : (s.postS lat d v).others = s.others := by unfold State.postS; split <;> rfl
@[simp] theorem State.postS_mem (s : State) (lat : Nat) (d : Fin 32) (v : Word) : (s.postS lat d v).mem = s.mem := by unfold State.postS; split <;> rfl
@[simp] theorem State.postS_badWords (s : State) (lat : Nat) (d : Fin 32) (v : Word) : (s.postS lat d v).badWords = s.badWords := by unfold State.postS; split <;> rfl
@[simp] theorem State.postS_softWords (s : State) (lat : Nat) (d : Fin 32) (v : Word) : (s.postS lat d v).softWords = s.softWords := by unfold State.postS; split <;> rfl
@[simp] theorem State.postS_lines (s : State) (lat : Nat) (d : Fin 32) (v : Word) : (s.postS lat d v).lines = s.lines := by unfold State.postS; split <;> rfl
@[simp] theorem State.postS_cycle (s : State) (lat : Nat) (d : Fin 32) (v : Word) : (s.postS lat d v).cycle = s.cycle := by unfold State.postS; split <;> rfl
@[simp] theorem State.postS_tstep (s : State) (lat : Nat) (d : Fin 32) (v : Word) : (s.postS lat d v).tstep = s.tstep := by unfold State.postS; split <;> rfl
@[simp] theorem State.postS_tstepAt (s : State) (lat : Nat) (d : Fin 32) (v : Word) : (s.postS lat d v).tstepAt = s.tstepAt := by unfold State.postS; split <;> rfl
@[simp] theorem State.postS_aligned (s : State) (lat : Nat) (d : Fin 32) (v : Word) : (s.postS lat d v).aligned = s.aligned := by unfold State.postS; split <;> rfl
@[simp] theorem State.postS_rootBase (s : State) (lat : Nat) (d : Fin 32) (v : Word) : (s.postS lat d v).rootBase = s.rootBase := by unfold State.postS; split <;> rfl
@[simp] theorem State.postS_defaultTvb (s : State) (lat : Nat) (d : Fin 32) (v : Word) : (s.postS lat d v).defaultTvb = s.defaultTvb := by unfold State.postS; split <;> rfl
@[simp] theorem State.postS_dies (s : State) (lat : Nat) (d : Fin 32) (v : Word) : (s.postS lat d v).dies = s.dies := by unfold State.postS; split <;> rfl
@[simp] theorem State.postS_relocs (s : State) (lat : Nat) (d : Fin 32) (v : Word) : (s.postS lat d v).relocs = s.relocs := by unfold State.postS; split <;> rfl
@[simp] theorem State.postS_launches (s : State) (lat : Nat) (d : Fin 32) (v : Word) : (s.postS lat d v).launches = s.launches := by unfold State.postS; split <;> rfl
@[simp] theorem State.postS_nextLaunch (s : State) (lat : Nat) (d : Fin 32) (v : Word) : (s.postS lat d v).nextLaunch = s.nextLaunch := by unfold State.postS; split <;> rfl
@[simp] theorem State.postS_nextFire (s : State) (lat : Nat) (d : Fin 32) (v : Word) : (s.postS lat d v).nextFire = s.nextFire := by unfold State.postS; split <;> rfl
@[simp] theorem State.postS_fires (s : State) (lat : Nat) (d : Fin 32) (v : Word) : (s.postS lat d v).fires = s.fires := by unfold State.postS; split <;> rfl
@[simp] theorem State.postS_preempts (s : State) (lat : Nat) (d : Fin 32) (v : Word) : (s.postS lat d v).preempts = s.preempts := by unfold State.postS; split <;> rfl
@[simp] theorem State.postS_armed (s : State) (lat : Nat) (d : Fin 32) (v : Word) : (s.postS lat d v).armed = s.armed := by unfold State.postS; split <;> rfl
@[simp] theorem State.postS_streams (s : State) (lat : Nat) (d : Fin 32) (v : Word) : (s.postS lat d v).streams = s.streams := by unfold State.postS; split <;> rfl
@[simp] theorem State.postS_outbox (s : State) (lat : Nat) (d : Fin 32) (v : Word) : (s.postS lat d v).outbox = s.outbox := by unfold State.postS; split <;> rfl
@[simp] theorem State.postS_etherType (s : State) (lat : Nat) (d : Fin 32) (v : Word) : (s.postS lat d v).etherType = s.etherType := by unfold State.postS; split <;> rfl
@[simp] theorem State.postS_udpPort (s : State) (lat : Nat) (d : Fin 32) (v : Word) : (s.postS lat d v).udpPort = s.udpPort := by unfold State.postS; split <;> rfl
@[simp] theorem State.postS_codeGen (s : State) (lat : Nat) (d : Fin 32) (v : Word) : (s.postS lat d v).codeGen = s.codeGen := by unfold State.postS; split <;> rfl
@[simp] theorem State.postS_counts (s : State) (lat : Nat) (d : Fin 32) (v : Word) : (s.postS lat d v).counts = s.counts := by unfold State.postS; split <;> rfl
@[simp] theorem State.postS_m0 (s : State) (lat : Nat) (d : Fin 32) (v : Word) : (s.postS lat d v).m0 = s.m0 := by unfold State.postS; split <;> rfl
@[simp] theorem State.postS_m1 (s : State) (lat : Nat) (d : Fin 32) (v : Word) : (s.postS lat d v).m1 = s.m1 := by unfold State.postS; split <;> rfl
@[simp] theorem State.postS_m2 (s : State) (lat : Nat) (d : Fin 32) (v : Word) : (s.postS lat d v).m2 = s.m2 := by unfold State.postS; split <;> rfl
@[simp] theorem State.postS_m3 (s : State) (lat : Nat) (d : Fin 32) (v : Word) : (s.postS lat d v).m3 = s.m3 := by unfold State.postS; split <;> rfl
@[simp] theorem State.postS_resets (s : State) (lat : Nat) (d : Fin 32) (v : Word) : (s.postS lat d v).resets = s.resets := by unfold State.postS; split <;> rfl
@[simp] theorem State.postS_image (s : State) (lat : Nat) (d : Fin 32) (v : Word) : (s.postS lat d v).image = s.image := by unfold State.postS; split <;> rfl
@[simp] theorem State.postS_booted (s : State) (lat : Nat) (d : Fin 32) (v : Word) : (s.postS lat d v).booted = s.booted := by unfold State.postS; split <;> rfl
@[simp] theorem State.postS_recovery (s : State) (lat : Nat) (d : Fin 32) (v : Word) : (s.postS lat d v).recovery = s.recovery := by unfold State.postS; split <;> rfl
@[simp] theorem State.postS_spares (s : State) (lat : Nat) (d : Fin 32) (v : Word) : (s.postS lat d v).spares = s.spares := by unfold State.postS; split <;> rfl
@[simp] theorem State.postS_redBase (s : State) (lat : Nat) (d : Fin 32) (v : Word) : (s.postS lat d v).redBase = s.redBase := by unfold State.postS; split <;> rfl
@[simp] theorem State.postS_redLog (s : State) (lat : Nat) (d : Fin 32) (v : Word) : (s.postS lat d v).redLog = s.redLog := by unfold State.postS; split <;> rfl
@[simp] theorem State.postS_redGroup (s : State) (lat : Nat) (d : Fin 32) (v : Word) : (s.postS lat d v).redGroup = s.redGroup := by unfold State.postS; split <;> rfl
@[simp] theorem State.postS_redRank (s : State) (lat : Nat) (d : Fin 32) (v : Word) : (s.postS lat d v).redRank = s.redRank := by unfold State.postS; split <;> rfl
@[simp] theorem State.postS_redCons (s : State) (lat : Nat) (d : Fin 32) (v : Word) : (s.postS lat d v).redCons = s.redCons := by unfold State.postS; split <;> rfl
@[simp] theorem State.postS_red (s : State) (lat : Nat) (d : Fin 32) (v : Word) : (s.postS lat d v).red = s.red := by unfold State.postS; split <;> rfl
@[simp] theorem State.postS_pollSlot (s : State) (lat : Nat) (d : Fin 32) (v : Word) : (s.postS lat d v).pollSlot = s.pollSlot := by unfold State.postS; split <;> rfl
@[simp] theorem State.postS_agenda (s : State) (lat : Nat) (d : Fin 32) (v : Word) : (s.postS lat d v).agenda = s.agenda := by unfold State.postS; split <;> rfl
@[simp] theorem State.postS_ev (s : State) (lat : Nat) (d : Fin 32) (v : Word) : (s.postS lat d v).ev = s.ev := by unfold State.postS; split <;> rfl
@[simp] theorem State.postS_turn (s : State) (lat : Nat) (d : Fin 32) (v : Word) : (s.postS lat d v).turn = s.turn := by unfold State.postS; split <;> rfl
@[simp] theorem State.postS_freeCtr (s : State) (lat : Nat) (d : Fin 32) (v : Word) : (s.postS lat d v).freeCtr = s.freeCtr := by unfold State.postS; split <;> rfl
@[simp] theorem State.postS_readied (s : State) (lat : Nat) (d : Fin 32) (v : Word) : (s.postS lat d v).readied = s.readied := by unfold State.postS; split <;> rfl
@[simp] theorem State.postS_cl_id (s : State) (lat : Nat) (d : Fin 32) (v : Word) : (s.postS lat d v).cl.id = s.cl.id := by unfold State.postS; split <;> rfl
@[simp] theorem State.postS_cl_part (s : State) (lat : Nat) (d : Fin 32) (v : Word) : (s.postS lat d v).cl.part = s.cl.part := by unfold State.postS; split <;> rfl
@[simp] theorem State.postS_cl_asn (s : State) (lat : Nat) (d : Fin 32) (v : Word) : (s.postS lat d v).cl.asn = s.cl.asn := by unfold State.postS; split <;> rfl
@[simp] theorem State.postS_cl_run (s : State) (lat : Nat) (d : Fin 32) (v : Word) : (s.postS lat d v).cl.run = s.cl.run := by unfold State.postS; split <;> rfl
@[simp] theorem State.postS_cl_banks (s : State) (lat : Nat) (d : Fin 32) (v : Word) : (s.postS lat d v).cl.banks = s.cl.banks := by unfold State.postS; split <;> rfl
@[simp] theorem State.postS_cl_cores (s : State) (lat : Nat) (d : Fin 32) (v : Word) : (s.postS lat d v).cl.cores = s.cl.cores := by unfold State.postS; split <;> rfl
@[simp] theorem State.postS_cl_tlb (s : State) (lat : Nat) (d : Fin 32) (v : Word) : (s.postS lat d v).cl.tlb = s.cl.tlb := by unfold State.postS; split <;> rfl
@[simp] theorem State.postS_cl_time (s : State) (lat : Nat) (d : Fin 32) (v : Word) : (s.postS lat d v).cl.time = s.cl.time := by unfold State.postS; split <;> rfl
@[simp] theorem State.postS_cl_frozen (s : State) (lat : Nat) (d : Fin 32) (v : Word) : (s.postS lat d v).cl.frozen = s.cl.frozen := by unfold State.postS; split <;> rfl
@[simp] theorem State.postS_cl_lastAt (s : State) (lat : Nat) (d : Fin 32) (v : Word) : (s.postS lat d v).cl.lastAt = s.cl.lastAt := by unfold State.postS; split <;> rfl
@[simp] theorem State.postS_cl_lastSkew (s : State) (lat : Nat) (d : Fin 32) (v : Word) : (s.postS lat d v).cl.lastSkew = s.cl.lastSkew := by unfold State.postS; split <;> rfl
@[simp] theorem State.postS_cl_opn (s : State) (lat : Nat) (d : Fin 32) (v : Word) : (s.postS lat d v).cl.opn = s.cl.opn := by unfold State.postS; split <;> rfl
@[simp] theorem State.postS_cl_nextOp (s : State) (lat : Nat) (d : Fin 32) (v : Word) : (s.postS lat d v).cl.nextOp = s.cl.nextOp := by unfold State.postS; split <;> rfl
@[simp] theorem State.postS_cl_cmds (s : State) (lat : Nat) (d : Fin 32) (v : Word) : (s.postS lat d v).cl.cmds = s.cl.cmds := by unfold State.postS; split <;> rfl
@[simp] theorem State.postS_cl_nextCmd (s : State) (lat : Nat) (d : Fin 32) (v : Word) : (s.postS lat d v).cl.nextCmd = s.cl.nextCmd := by unfold State.postS; split <;> rfl
@[simp] theorem State.postS_cl_accepted (s : State) (lat : Nat) (d : Fin 32) (v : Word) : (s.postS lat d v).cl.accepted = s.cl.accepted := by unfold State.postS; split <;> rfl
@[simp] theorem State.postS_cl_lastCmd (s : State) (lat : Nat) (d : Fin 32) (v : Word) : (s.postS lat d v).cl.lastCmd = s.cl.lastCmd := by unfold State.postS; split <;> rfl
@[simp] theorem State.postS_cl_barTold (s : State) (lat : Nat) (d : Fin 32) (v : Word) : (s.postS lat d v).cl.barTold = s.cl.barTold := by unfold State.postS; split <;> rfl
@[simp] theorem State.postS_cl_arrSlots (s : State) (lat : Nat) (d : Fin 32) (v : Word) : (s.postS lat d v).cl.arrSlots = s.cl.arrSlots := by unfold State.postS; split <;> rfl
@[simp] theorem State.postS_cl_arrivals (s : State) (lat : Nat) (d : Fin 32) (v : Word) : (s.postS lat d v).cl.arrivals = s.cl.arrivals := by unfold State.postS; split <;> rfl
@[simp] theorem State.postS_cl_searches (s : State) (lat : Nat) (d : Fin 32) (v : Word) : (s.postS lat d v).cl.searches = s.cl.searches := by unfold State.postS; split <;> rfl
@[simp] theorem State.postS_cl_invs (s : State) (lat : Nat) (d : Fin 32) (v : Word) : (s.postS lat d v).cl.invs = s.cl.invs := by unfold State.postS; split <;> rfl
@[simp] theorem State.postS_cl_preempt (s : State) (lat : Nat) (d : Fin 32) (v : Word) : (s.postS lat d v).cl.preempt = s.cl.preempt := by unfold State.postS; split <;> rfl
@[simp] theorem State.postS_cl_shadows (s : State) (lat : Nat) (d : Fin 32) (v : Word) : (s.postS lat d v).cl.shadows = s.cl.shadows := by unfold State.postS; split <;> rfl
@[simp] theorem State.postS_cl_busyVec (s : State) (lat : Nat) (d : Fin 32) (v : Word) : (s.postS lat d v).cl.busyVec = s.cl.busyVec := by unfold State.postS; split <;> rfl
@[simp] theorem State.postS_cl_busyUnpack (s : State) (lat : Nat) (d : Fin 32) (v : Word) : (s.postS lat d v).cl.busyUnpack = s.cl.busyUnpack := by unfold State.postS; split <;> rfl
@[simp] theorem State.postS_cl_busyPack (s : State) (lat : Nat) (d : Fin 32) (v : Word) : (s.postS lat d v).cl.busyPack = s.cl.busyPack := by unfold State.postS; split <;> rfl
@[simp] theorem State.postS_cl_sinceSample (s : State) (lat : Nat) (d : Fin 32) (v : Word) : (s.postS lat d v).cl.sinceSample = s.cl.sinceSample := by unfold State.postS; split <;> rfl
@[simp] theorem State.postS_cl_last (s : State) (lat : Nat) (d : Fin 32) (v : Word) : (s.postS lat d v).cl.last = s.cl.last := by unfold State.postS; split <;> rfl
@[simp] theorem State.postS_cl_sample (s : State) (lat : Nat) (d : Fin 32) (v : Word) : (s.postS lat d v).cl.sample = s.cl.sample := by unfold State.postS; split <;> rfl
@[simp] theorem State.postS_cl_evals (s : State) (lat : Nat) (d : Fin 32) (v : Word) : (s.postS lat d v).cl.evals = s.cl.evals := by unfold State.postS; split <;> rfl
@[simp] theorem State.postS_cl_stop (s : State) (lat : Nat) (d : Fin 32) (v : Word) : (s.postS lat d v).cl.stop = s.cl.stop := by unfold State.postS; split <;> rfl
@[simp] theorem State.postS_bank_state (s : State) (lat : Nat) (d : Fin 32) (v : Word) : (s.postS lat d v).cl.bank.state = s.cl.bank.state := by unfold State.postS; split <;> rfl
@[simp] theorem State.postS_bank_file (s : State) (lat : Nat) (d : Fin 32) (v : Word) : (s.postS lat d v).cl.bank.file = s.cl.bank.file := by unfold State.postS; split <;> rfl
@[simp] theorem State.postS_bank_lc (s : State) (lat : Nat) (d : Fin 32) (v : Word) : (s.postS lat d v).cl.bank.lc = s.cl.bank.lc := by unfold State.postS; split <;> rfl
@[simp] theorem State.postS_bank_loops (s : State) (lat : Nat) (d : Fin 32) (v : Word) : (s.postS lat d v).cl.bank.loops = s.cl.bank.loops := by unfold State.postS; split <;> rfl
@[simp] theorem State.postS_bank_aside (s : State) (lat : Nat) (d : Fin 32) (v : Word) : (s.postS lat d v).cl.bank.aside = s.cl.bank.aside := by unfold State.postS; split <;> rfl
@[simp] theorem State.postS_bank_loopBuf (s : State) (lat : Nat) (d : Fin 32) (v : Word) : (s.postS lat d v).cl.bank.loopBuf = s.cl.bank.loopBuf := by unfold State.postS; split <;> rfl
@[simp] theorem State.postS_bank_pc (s : State) (lat : Nat) (d : Fin 32) (v : Word) : (s.postS lat d v).cl.bank.pc = s.cl.bank.pc := by unfold State.postS; split <;> rfl
@[simp] theorem State.postS_bank_tsw (s : State) (lat : Nat) (d : Fin 32) (v : Word) : (s.postS lat d v).cl.bank.tsw = s.cl.bank.tsw := by unfold State.postS; split <;> rfl
@[simp] theorem State.postS_bank_wid (s : State) (lat : Nat) (d : Fin 32) (v : Word) : (s.postS lat d v).cl.bank.wid = s.cl.bank.wid := by unfold State.postS; split <;> rfl
@[simp] theorem State.postS_bank_trec (s : State) (lat : Nat) (d : Fin 32) (v : Word) : (s.postS lat d v).cl.bank.trec = s.cl.bank.trec := by unfold State.postS; split <;> rfl
@[simp] theorem State.postS_bank_frame (s : State) (lat : Nat) (d : Fin 32) (v : Word) : (s.postS lat d v).cl.bank.frame = s.cl.bank.frame := by unfold State.postS; split <;> rfl
@[simp] theorem State.postS_bank_tidx (s : State) (lat : Nat) (d : Fin 32) (v : Word) : (s.postS lat d v).cl.bank.tidx = s.cl.bank.tidx := by unfold State.postS; split <;> rfl
@[simp] theorem State.postS_bank_lrec (s : State) (lat : Nat) (d : Fin 32) (v : Word) : (s.postS lat d v).cl.bank.lrec = s.cl.bank.lrec := by unfold State.postS; split <;> rfl
@[simp] theorem State.postS_bank_slen (s : State) (lat : Nat) (d : Fin 32) (v : Word) : (s.postS lat d v).cl.bank.slen = s.cl.bank.slen := by unfold State.postS; split <;> rfl
@[simp] theorem State.postS_bank_coreEn (s : State) (lat : Nat) (d : Fin 32) (v : Word) : (s.postS lat d v).cl.bank.coreEn = s.cl.bank.coreEn := by unfold State.postS; split <;> rfl
@[simp] theorem State.postS_bank_skew (s : State) (lat : Nat) (d : Fin 32) (v : Word) : (s.postS lat d v).cl.bank.skew = s.cl.bank.skew := by unfold State.postS; split <;> rfl
@[simp] theorem State.postS_bank_vl (s : State) (lat : Nat) (d : Fin 32) (v : Word) : (s.postS lat d v).cl.bank.vl = s.cl.bank.vl := by unfold State.postS; split <;> rfl
@[simp] theorem State.postS_bank_vtype (s : State) (lat : Nat) (d : Fin 32) (v : Word) : (s.postS lat d v).cl.bank.vtype = s.cl.bank.vtype := by unfold State.postS; split <;> rfl
@[simp] theorem State.postS_bank_gpos (s : State) (lat : Nat) (d : Fin 32) (v : Word) : (s.postS lat d v).cl.bank.gpos = s.cl.bank.gpos := by unfold State.postS; split <;> rfl
@[simp] theorem State.postS_bank_gseedA (s : State) (lat : Nat) (d : Fin 32) (v : Word) : (s.postS lat d v).cl.bank.gseedA = s.cl.bank.gseedA := by unfold State.postS; split <;> rfl
@[simp] theorem State.postS_bank_gseedB (s : State) (lat : Nat) (d : Fin 32) (v : Word) : (s.postS lat d v).cl.bank.gseedB = s.cl.bank.gseedB := by unfold State.postS; split <;> rfl
@[simp] theorem State.postS_bank_tvb (s : State) (lat : Nat) (d : Fin 32) (v : Word) : (s.postS lat d v).cl.bank.tvb = s.cl.bank.tvb := by unfold State.postS; split <;> rfl
@[simp] theorem State.postS_bank_tpc (s : State) (lat : Nat) (d : Fin 32) (v : Word) : (s.postS lat d v).cl.bank.tpc = s.cl.bank.tpc := by unfold State.postS; split <;> rfl
@[simp] theorem State.postS_bank_tcause (s : State) (lat : Nat) (d : Fin 32) (v : Word) : (s.postS lat d v).cl.bank.tcause = s.cl.bank.tcause := by unfold State.postS; split <;> rfl
@[simp] theorem State.postS_bank_tval (s : State) (lat : Nat) (d : Fin 32) (v : Word) : (s.postS lat d v).cl.bank.tval = s.cl.bank.tval := by unfold State.postS; split <;> rfl
@[simp] theorem State.postS_bank_handles (s : State) (lat : Nat) (d : Fin 32) (v : Word) : (s.postS lat d v).cl.bank.handles = s.cl.bank.handles := by unfold State.postS; split <;> rfl
@[simp] theorem State.postS_bank_qLast (s : State) (lat : Nat) (d : Fin 32) (v : Word) : (s.postS lat d v).cl.bank.qLast = s.cl.bank.qLast := by unfold State.postS; split <;> rfl
@[simp] theorem State.postS_bank_ops (s : State) (lat : Nat) (d : Fin 32) (v : Word) : (s.postS lat d v).cl.bank.ops = s.cl.bank.ops := by unfold State.postS; split <;> rfl
@[simp] theorem State.postS_bank_windows (s : State) (lat : Nat) (d : Fin 32) (v : Word) : (s.postS lat d v).cl.bank.windows = s.cl.bank.windows := by unfold State.postS; split <;> rfl
@[simp] theorem State.postS_bank_holds (s : State) (lat : Nat) (d : Fin 32) (v : Word) : (s.postS lat d v).cl.bank.holds = s.cl.bank.holds := by unfold State.postS; split <;> rfl
@[simp] theorem State.postS_bank_tlbinvs (s : State) (lat : Nat) (d : Fin 32) (v : Word) : (s.postS lat d v).cl.bank.tlbinvs = s.cl.bank.tlbinvs := by unfold State.postS; split <;> rfl
@[simp] theorem State.postS_bank_reenter (s : State) (lat : Nat) (d : Fin 32) (v : Word) : (s.postS lat d v).cl.bank.reenter = s.cl.bank.reenter := by unfold State.postS; split <;> rfl
@[simp] theorem State.postS_bank_pendTrap (s : State) (lat : Nat) (d : Fin 32) (v : Word) : (s.postS lat d v).cl.bank.pendTrap = s.cl.bank.pendTrap := by unfold State.postS; split <;> rfl
@[simp] theorem State.postS_bank_checked (s : State) (lat : Nat) (d : Fin 32) (v : Word) : (s.postS lat d v).cl.bank.checked = s.cl.bank.checked := by unfold State.postS; split <;> rfl
@[simp] theorem State.postS_bank_checkedNew (s : State) (lat : Nat) (d : Fin 32) (v : Word) : (s.postS lat d v).cl.bank.checkedNew = s.cl.bank.checkedNew := by unfold State.postS; split <;> rfl
@[simp] theorem State.postS_bank_checkedAt (s : State) (lat : Nat) (d : Fin 32) (v : Word) : (s.postS lat d v).cl.bank.checkedAt = s.cl.bank.checkedAt := by unfold State.postS; split <;> rfl
@[simp] theorem State.postS_bank_mcAddr (s : State) (lat : Nat) (d : Fin 32) (v : Word) : (s.postS lat d v).cl.bank.mcAddr = s.cl.bank.mcAddr := by unfold State.postS; split <;> rfl
@[simp] theorem State.postS_bank_courierErrs (s : State) (lat : Nat) (d : Fin 32) (v : Word) : (s.postS lat d v).cl.bank.courierErrs = s.cl.bank.courierErrs := by unfold State.postS; split <;> rfl
@[simp] theorem State.postS_bank_byArrival (s : State) (lat : Nat) (d : Fin 32) (v : Word) : (s.postS lat d v).cl.bank.byArrival = s.cl.bank.byArrival := by unfold State.postS; split <;> rfl
@[simp] theorem State.postS_bank_readySince (s : State) (lat : Nat) (d : Fin 32) (v : Word) : (s.postS lat d v).cl.bank.readySince = s.cl.bank.readySince := by unfold State.postS; split <;> rfl
@[simp] theorem State.postS_bank_prio (s : State) (lat : Nat) (d : Fin 32) (v : Word) : (s.postS lat d v).cl.bank.prio = s.cl.bank.prio := by unfold State.postS; split <;> rfl
@[simp] theorem State.postS_bank_slept (s : State) (lat : Nat) (d : Fin 32) (v : Word) : (s.postS lat d v).cl.bank.slept = s.cl.bank.slept := by unfold State.postS; split <;> rfl
@[simp] theorem State.postS_bank_residual (s : State) (lat : Nat) (d : Fin 32) (v : Word) : (s.postS lat d v).cl.bank.residual = s.cl.bank.residual := by unfold State.postS; split <;> rfl
@[simp] theorem State.postS_bank_cores (s : State) (lat : Nat) (d : Fin 32) (v : Word) : (s.postS lat d v).cl.bank.cores = s.cl.bank.cores := by unfold State.postS; split <;> rfl

/-! ### State.postQ -/

@[simp] theorem State.postQ_others (s : State) (lat : Nat) (d : Fin 32) (v : Bool) : (s.postQ lat d v).others = s.others := by unfold State.postQ; split <;> rfl
@[simp] theorem State.postQ_mem (s : State) (lat : Nat) (d : Fin 32) (v : Bool) : (s.postQ lat d v).mem = s.mem := by unfold State.postQ; split <;> rfl
@[simp] theorem State.postQ_badWords (s : State) (lat : Nat) (d : Fin 32) (v : Bool) : (s.postQ lat d v).badWords = s.badWords := by unfold State.postQ; split <;> rfl
@[simp] theorem State.postQ_softWords (s : State) (lat : Nat) (d : Fin 32) (v : Bool) : (s.postQ lat d v).softWords = s.softWords := by unfold State.postQ; split <;> rfl
@[simp] theorem State.postQ_lines (s : State) (lat : Nat) (d : Fin 32) (v : Bool) : (s.postQ lat d v).lines = s.lines := by unfold State.postQ; split <;> rfl
@[simp] theorem State.postQ_cycle (s : State) (lat : Nat) (d : Fin 32) (v : Bool) : (s.postQ lat d v).cycle = s.cycle := by unfold State.postQ; split <;> rfl
@[simp] theorem State.postQ_tstep (s : State) (lat : Nat) (d : Fin 32) (v : Bool) : (s.postQ lat d v).tstep = s.tstep := by unfold State.postQ; split <;> rfl
@[simp] theorem State.postQ_tstepAt (s : State) (lat : Nat) (d : Fin 32) (v : Bool) : (s.postQ lat d v).tstepAt = s.tstepAt := by unfold State.postQ; split <;> rfl
@[simp] theorem State.postQ_aligned (s : State) (lat : Nat) (d : Fin 32) (v : Bool) : (s.postQ lat d v).aligned = s.aligned := by unfold State.postQ; split <;> rfl
@[simp] theorem State.postQ_rootBase (s : State) (lat : Nat) (d : Fin 32) (v : Bool) : (s.postQ lat d v).rootBase = s.rootBase := by unfold State.postQ; split <;> rfl
@[simp] theorem State.postQ_defaultTvb (s : State) (lat : Nat) (d : Fin 32) (v : Bool) : (s.postQ lat d v).defaultTvb = s.defaultTvb := by unfold State.postQ; split <;> rfl
@[simp] theorem State.postQ_dies (s : State) (lat : Nat) (d : Fin 32) (v : Bool) : (s.postQ lat d v).dies = s.dies := by unfold State.postQ; split <;> rfl
@[simp] theorem State.postQ_relocs (s : State) (lat : Nat) (d : Fin 32) (v : Bool) : (s.postQ lat d v).relocs = s.relocs := by unfold State.postQ; split <;> rfl
@[simp] theorem State.postQ_launches (s : State) (lat : Nat) (d : Fin 32) (v : Bool) : (s.postQ lat d v).launches = s.launches := by unfold State.postQ; split <;> rfl
@[simp] theorem State.postQ_nextLaunch (s : State) (lat : Nat) (d : Fin 32) (v : Bool) : (s.postQ lat d v).nextLaunch = s.nextLaunch := by unfold State.postQ; split <;> rfl
@[simp] theorem State.postQ_nextFire (s : State) (lat : Nat) (d : Fin 32) (v : Bool) : (s.postQ lat d v).nextFire = s.nextFire := by unfold State.postQ; split <;> rfl
@[simp] theorem State.postQ_fires (s : State) (lat : Nat) (d : Fin 32) (v : Bool) : (s.postQ lat d v).fires = s.fires := by unfold State.postQ; split <;> rfl
@[simp] theorem State.postQ_preempts (s : State) (lat : Nat) (d : Fin 32) (v : Bool) : (s.postQ lat d v).preempts = s.preempts := by unfold State.postQ; split <;> rfl
@[simp] theorem State.postQ_armed (s : State) (lat : Nat) (d : Fin 32) (v : Bool) : (s.postQ lat d v).armed = s.armed := by unfold State.postQ; split <;> rfl
@[simp] theorem State.postQ_streams (s : State) (lat : Nat) (d : Fin 32) (v : Bool) : (s.postQ lat d v).streams = s.streams := by unfold State.postQ; split <;> rfl
@[simp] theorem State.postQ_outbox (s : State) (lat : Nat) (d : Fin 32) (v : Bool) : (s.postQ lat d v).outbox = s.outbox := by unfold State.postQ; split <;> rfl
@[simp] theorem State.postQ_etherType (s : State) (lat : Nat) (d : Fin 32) (v : Bool) : (s.postQ lat d v).etherType = s.etherType := by unfold State.postQ; split <;> rfl
@[simp] theorem State.postQ_udpPort (s : State) (lat : Nat) (d : Fin 32) (v : Bool) : (s.postQ lat d v).udpPort = s.udpPort := by unfold State.postQ; split <;> rfl
@[simp] theorem State.postQ_codeGen (s : State) (lat : Nat) (d : Fin 32) (v : Bool) : (s.postQ lat d v).codeGen = s.codeGen := by unfold State.postQ; split <;> rfl
@[simp] theorem State.postQ_counts (s : State) (lat : Nat) (d : Fin 32) (v : Bool) : (s.postQ lat d v).counts = s.counts := by unfold State.postQ; split <;> rfl
@[simp] theorem State.postQ_m0 (s : State) (lat : Nat) (d : Fin 32) (v : Bool) : (s.postQ lat d v).m0 = s.m0 := by unfold State.postQ; split <;> rfl
@[simp] theorem State.postQ_m1 (s : State) (lat : Nat) (d : Fin 32) (v : Bool) : (s.postQ lat d v).m1 = s.m1 := by unfold State.postQ; split <;> rfl
@[simp] theorem State.postQ_m2 (s : State) (lat : Nat) (d : Fin 32) (v : Bool) : (s.postQ lat d v).m2 = s.m2 := by unfold State.postQ; split <;> rfl
@[simp] theorem State.postQ_m3 (s : State) (lat : Nat) (d : Fin 32) (v : Bool) : (s.postQ lat d v).m3 = s.m3 := by unfold State.postQ; split <;> rfl
@[simp] theorem State.postQ_resets (s : State) (lat : Nat) (d : Fin 32) (v : Bool) : (s.postQ lat d v).resets = s.resets := by unfold State.postQ; split <;> rfl
@[simp] theorem State.postQ_image (s : State) (lat : Nat) (d : Fin 32) (v : Bool) : (s.postQ lat d v).image = s.image := by unfold State.postQ; split <;> rfl
@[simp] theorem State.postQ_booted (s : State) (lat : Nat) (d : Fin 32) (v : Bool) : (s.postQ lat d v).booted = s.booted := by unfold State.postQ; split <;> rfl
@[simp] theorem State.postQ_recovery (s : State) (lat : Nat) (d : Fin 32) (v : Bool) : (s.postQ lat d v).recovery = s.recovery := by unfold State.postQ; split <;> rfl
@[simp] theorem State.postQ_spares (s : State) (lat : Nat) (d : Fin 32) (v : Bool) : (s.postQ lat d v).spares = s.spares := by unfold State.postQ; split <;> rfl
@[simp] theorem State.postQ_redBase (s : State) (lat : Nat) (d : Fin 32) (v : Bool) : (s.postQ lat d v).redBase = s.redBase := by unfold State.postQ; split <;> rfl
@[simp] theorem State.postQ_redLog (s : State) (lat : Nat) (d : Fin 32) (v : Bool) : (s.postQ lat d v).redLog = s.redLog := by unfold State.postQ; split <;> rfl
@[simp] theorem State.postQ_redGroup (s : State) (lat : Nat) (d : Fin 32) (v : Bool) : (s.postQ lat d v).redGroup = s.redGroup := by unfold State.postQ; split <;> rfl
@[simp] theorem State.postQ_redRank (s : State) (lat : Nat) (d : Fin 32) (v : Bool) : (s.postQ lat d v).redRank = s.redRank := by unfold State.postQ; split <;> rfl
@[simp] theorem State.postQ_redCons (s : State) (lat : Nat) (d : Fin 32) (v : Bool) : (s.postQ lat d v).redCons = s.redCons := by unfold State.postQ; split <;> rfl
@[simp] theorem State.postQ_red (s : State) (lat : Nat) (d : Fin 32) (v : Bool) : (s.postQ lat d v).red = s.red := by unfold State.postQ; split <;> rfl
@[simp] theorem State.postQ_pollSlot (s : State) (lat : Nat) (d : Fin 32) (v : Bool) : (s.postQ lat d v).pollSlot = s.pollSlot := by unfold State.postQ; split <;> rfl
@[simp] theorem State.postQ_agenda (s : State) (lat : Nat) (d : Fin 32) (v : Bool) : (s.postQ lat d v).agenda = s.agenda := by unfold State.postQ; split <;> rfl
@[simp] theorem State.postQ_ev (s : State) (lat : Nat) (d : Fin 32) (v : Bool) : (s.postQ lat d v).ev = s.ev := by unfold State.postQ; split <;> rfl
@[simp] theorem State.postQ_turn (s : State) (lat : Nat) (d : Fin 32) (v : Bool) : (s.postQ lat d v).turn = s.turn := by unfold State.postQ; split <;> rfl
@[simp] theorem State.postQ_freeCtr (s : State) (lat : Nat) (d : Fin 32) (v : Bool) : (s.postQ lat d v).freeCtr = s.freeCtr := by unfold State.postQ; split <;> rfl
@[simp] theorem State.postQ_readied (s : State) (lat : Nat) (d : Fin 32) (v : Bool) : (s.postQ lat d v).readied = s.readied := by unfold State.postQ; split <;> rfl
@[simp] theorem State.postQ_cl_id (s : State) (lat : Nat) (d : Fin 32) (v : Bool) : (s.postQ lat d v).cl.id = s.cl.id := by unfold State.postQ; split <;> rfl
@[simp] theorem State.postQ_cl_part (s : State) (lat : Nat) (d : Fin 32) (v : Bool) : (s.postQ lat d v).cl.part = s.cl.part := by unfold State.postQ; split <;> rfl
@[simp] theorem State.postQ_cl_asn (s : State) (lat : Nat) (d : Fin 32) (v : Bool) : (s.postQ lat d v).cl.asn = s.cl.asn := by unfold State.postQ; split <;> rfl
@[simp] theorem State.postQ_cl_run (s : State) (lat : Nat) (d : Fin 32) (v : Bool) : (s.postQ lat d v).cl.run = s.cl.run := by unfold State.postQ; split <;> rfl
@[simp] theorem State.postQ_cl_banks (s : State) (lat : Nat) (d : Fin 32) (v : Bool) : (s.postQ lat d v).cl.banks = s.cl.banks := by unfold State.postQ; split <;> rfl
@[simp] theorem State.postQ_cl_cores (s : State) (lat : Nat) (d : Fin 32) (v : Bool) : (s.postQ lat d v).cl.cores = s.cl.cores := by unfold State.postQ; split <;> rfl
@[simp] theorem State.postQ_cl_tlb (s : State) (lat : Nat) (d : Fin 32) (v : Bool) : (s.postQ lat d v).cl.tlb = s.cl.tlb := by unfold State.postQ; split <;> rfl
@[simp] theorem State.postQ_cl_time (s : State) (lat : Nat) (d : Fin 32) (v : Bool) : (s.postQ lat d v).cl.time = s.cl.time := by unfold State.postQ; split <;> rfl
@[simp] theorem State.postQ_cl_frozen (s : State) (lat : Nat) (d : Fin 32) (v : Bool) : (s.postQ lat d v).cl.frozen = s.cl.frozen := by unfold State.postQ; split <;> rfl
@[simp] theorem State.postQ_cl_lastAt (s : State) (lat : Nat) (d : Fin 32) (v : Bool) : (s.postQ lat d v).cl.lastAt = s.cl.lastAt := by unfold State.postQ; split <;> rfl
@[simp] theorem State.postQ_cl_lastSkew (s : State) (lat : Nat) (d : Fin 32) (v : Bool) : (s.postQ lat d v).cl.lastSkew = s.cl.lastSkew := by unfold State.postQ; split <;> rfl
@[simp] theorem State.postQ_cl_opn (s : State) (lat : Nat) (d : Fin 32) (v : Bool) : (s.postQ lat d v).cl.opn = s.cl.opn := by unfold State.postQ; split <;> rfl
@[simp] theorem State.postQ_cl_nextOp (s : State) (lat : Nat) (d : Fin 32) (v : Bool) : (s.postQ lat d v).cl.nextOp = s.cl.nextOp := by unfold State.postQ; split <;> rfl
@[simp] theorem State.postQ_cl_cmds (s : State) (lat : Nat) (d : Fin 32) (v : Bool) : (s.postQ lat d v).cl.cmds = s.cl.cmds := by unfold State.postQ; split <;> rfl
@[simp] theorem State.postQ_cl_nextCmd (s : State) (lat : Nat) (d : Fin 32) (v : Bool) : (s.postQ lat d v).cl.nextCmd = s.cl.nextCmd := by unfold State.postQ; split <;> rfl
@[simp] theorem State.postQ_cl_accepted (s : State) (lat : Nat) (d : Fin 32) (v : Bool) : (s.postQ lat d v).cl.accepted = s.cl.accepted := by unfold State.postQ; split <;> rfl
@[simp] theorem State.postQ_cl_lastCmd (s : State) (lat : Nat) (d : Fin 32) (v : Bool) : (s.postQ lat d v).cl.lastCmd = s.cl.lastCmd := by unfold State.postQ; split <;> rfl
@[simp] theorem State.postQ_cl_barTold (s : State) (lat : Nat) (d : Fin 32) (v : Bool) : (s.postQ lat d v).cl.barTold = s.cl.barTold := by unfold State.postQ; split <;> rfl
@[simp] theorem State.postQ_cl_arrSlots (s : State) (lat : Nat) (d : Fin 32) (v : Bool) : (s.postQ lat d v).cl.arrSlots = s.cl.arrSlots := by unfold State.postQ; split <;> rfl
@[simp] theorem State.postQ_cl_arrivals (s : State) (lat : Nat) (d : Fin 32) (v : Bool) : (s.postQ lat d v).cl.arrivals = s.cl.arrivals := by unfold State.postQ; split <;> rfl
@[simp] theorem State.postQ_cl_searches (s : State) (lat : Nat) (d : Fin 32) (v : Bool) : (s.postQ lat d v).cl.searches = s.cl.searches := by unfold State.postQ; split <;> rfl
@[simp] theorem State.postQ_cl_invs (s : State) (lat : Nat) (d : Fin 32) (v : Bool) : (s.postQ lat d v).cl.invs = s.cl.invs := by unfold State.postQ; split <;> rfl
@[simp] theorem State.postQ_cl_preempt (s : State) (lat : Nat) (d : Fin 32) (v : Bool) : (s.postQ lat d v).cl.preempt = s.cl.preempt := by unfold State.postQ; split <;> rfl
@[simp] theorem State.postQ_cl_shadows (s : State) (lat : Nat) (d : Fin 32) (v : Bool) : (s.postQ lat d v).cl.shadows = s.cl.shadows := by unfold State.postQ; split <;> rfl
@[simp] theorem State.postQ_cl_busyVec (s : State) (lat : Nat) (d : Fin 32) (v : Bool) : (s.postQ lat d v).cl.busyVec = s.cl.busyVec := by unfold State.postQ; split <;> rfl
@[simp] theorem State.postQ_cl_busyUnpack (s : State) (lat : Nat) (d : Fin 32) (v : Bool) : (s.postQ lat d v).cl.busyUnpack = s.cl.busyUnpack := by unfold State.postQ; split <;> rfl
@[simp] theorem State.postQ_cl_busyPack (s : State) (lat : Nat) (d : Fin 32) (v : Bool) : (s.postQ lat d v).cl.busyPack = s.cl.busyPack := by unfold State.postQ; split <;> rfl
@[simp] theorem State.postQ_cl_sinceSample (s : State) (lat : Nat) (d : Fin 32) (v : Bool) : (s.postQ lat d v).cl.sinceSample = s.cl.sinceSample := by unfold State.postQ; split <;> rfl
@[simp] theorem State.postQ_cl_last (s : State) (lat : Nat) (d : Fin 32) (v : Bool) : (s.postQ lat d v).cl.last = s.cl.last := by unfold State.postQ; split <;> rfl
@[simp] theorem State.postQ_cl_sample (s : State) (lat : Nat) (d : Fin 32) (v : Bool) : (s.postQ lat d v).cl.sample = s.cl.sample := by unfold State.postQ; split <;> rfl
@[simp] theorem State.postQ_cl_evals (s : State) (lat : Nat) (d : Fin 32) (v : Bool) : (s.postQ lat d v).cl.evals = s.cl.evals := by unfold State.postQ; split <;> rfl
@[simp] theorem State.postQ_cl_stop (s : State) (lat : Nat) (d : Fin 32) (v : Bool) : (s.postQ lat d v).cl.stop = s.cl.stop := by unfold State.postQ; split <;> rfl
@[simp] theorem State.postQ_bank_state (s : State) (lat : Nat) (d : Fin 32) (v : Bool) : (s.postQ lat d v).cl.bank.state = s.cl.bank.state := by unfold State.postQ; split <;> rfl
@[simp] theorem State.postQ_bank_file (s : State) (lat : Nat) (d : Fin 32) (v : Bool) : (s.postQ lat d v).cl.bank.file = s.cl.bank.file := by unfold State.postQ; split <;> rfl
@[simp] theorem State.postQ_bank_lc (s : State) (lat : Nat) (d : Fin 32) (v : Bool) : (s.postQ lat d v).cl.bank.lc = s.cl.bank.lc := by unfold State.postQ; split <;> rfl
@[simp] theorem State.postQ_bank_loops (s : State) (lat : Nat) (d : Fin 32) (v : Bool) : (s.postQ lat d v).cl.bank.loops = s.cl.bank.loops := by unfold State.postQ; split <;> rfl
@[simp] theorem State.postQ_bank_aside (s : State) (lat : Nat) (d : Fin 32) (v : Bool) : (s.postQ lat d v).cl.bank.aside = s.cl.bank.aside := by unfold State.postQ; split <;> rfl
@[simp] theorem State.postQ_bank_loopBuf (s : State) (lat : Nat) (d : Fin 32) (v : Bool) : (s.postQ lat d v).cl.bank.loopBuf = s.cl.bank.loopBuf := by unfold State.postQ; split <;> rfl
@[simp] theorem State.postQ_bank_pc (s : State) (lat : Nat) (d : Fin 32) (v : Bool) : (s.postQ lat d v).cl.bank.pc = s.cl.bank.pc := by unfold State.postQ; split <;> rfl
@[simp] theorem State.postQ_bank_tsw (s : State) (lat : Nat) (d : Fin 32) (v : Bool) : (s.postQ lat d v).cl.bank.tsw = s.cl.bank.tsw := by unfold State.postQ; split <;> rfl
@[simp] theorem State.postQ_bank_wid (s : State) (lat : Nat) (d : Fin 32) (v : Bool) : (s.postQ lat d v).cl.bank.wid = s.cl.bank.wid := by unfold State.postQ; split <;> rfl
@[simp] theorem State.postQ_bank_trec (s : State) (lat : Nat) (d : Fin 32) (v : Bool) : (s.postQ lat d v).cl.bank.trec = s.cl.bank.trec := by unfold State.postQ; split <;> rfl
@[simp] theorem State.postQ_bank_frame (s : State) (lat : Nat) (d : Fin 32) (v : Bool) : (s.postQ lat d v).cl.bank.frame = s.cl.bank.frame := by unfold State.postQ; split <;> rfl
@[simp] theorem State.postQ_bank_tidx (s : State) (lat : Nat) (d : Fin 32) (v : Bool) : (s.postQ lat d v).cl.bank.tidx = s.cl.bank.tidx := by unfold State.postQ; split <;> rfl
@[simp] theorem State.postQ_bank_lrec (s : State) (lat : Nat) (d : Fin 32) (v : Bool) : (s.postQ lat d v).cl.bank.lrec = s.cl.bank.lrec := by unfold State.postQ; split <;> rfl
@[simp] theorem State.postQ_bank_slen (s : State) (lat : Nat) (d : Fin 32) (v : Bool) : (s.postQ lat d v).cl.bank.slen = s.cl.bank.slen := by unfold State.postQ; split <;> rfl
@[simp] theorem State.postQ_bank_coreEn (s : State) (lat : Nat) (d : Fin 32) (v : Bool) : (s.postQ lat d v).cl.bank.coreEn = s.cl.bank.coreEn := by unfold State.postQ; split <;> rfl
@[simp] theorem State.postQ_bank_skew (s : State) (lat : Nat) (d : Fin 32) (v : Bool) : (s.postQ lat d v).cl.bank.skew = s.cl.bank.skew := by unfold State.postQ; split <;> rfl
@[simp] theorem State.postQ_bank_vl (s : State) (lat : Nat) (d : Fin 32) (v : Bool) : (s.postQ lat d v).cl.bank.vl = s.cl.bank.vl := by unfold State.postQ; split <;> rfl
@[simp] theorem State.postQ_bank_vtype (s : State) (lat : Nat) (d : Fin 32) (v : Bool) : (s.postQ lat d v).cl.bank.vtype = s.cl.bank.vtype := by unfold State.postQ; split <;> rfl
@[simp] theorem State.postQ_bank_gpos (s : State) (lat : Nat) (d : Fin 32) (v : Bool) : (s.postQ lat d v).cl.bank.gpos = s.cl.bank.gpos := by unfold State.postQ; split <;> rfl
@[simp] theorem State.postQ_bank_gseedA (s : State) (lat : Nat) (d : Fin 32) (v : Bool) : (s.postQ lat d v).cl.bank.gseedA = s.cl.bank.gseedA := by unfold State.postQ; split <;> rfl
@[simp] theorem State.postQ_bank_gseedB (s : State) (lat : Nat) (d : Fin 32) (v : Bool) : (s.postQ lat d v).cl.bank.gseedB = s.cl.bank.gseedB := by unfold State.postQ; split <;> rfl
@[simp] theorem State.postQ_bank_tvb (s : State) (lat : Nat) (d : Fin 32) (v : Bool) : (s.postQ lat d v).cl.bank.tvb = s.cl.bank.tvb := by unfold State.postQ; split <;> rfl
@[simp] theorem State.postQ_bank_tpc (s : State) (lat : Nat) (d : Fin 32) (v : Bool) : (s.postQ lat d v).cl.bank.tpc = s.cl.bank.tpc := by unfold State.postQ; split <;> rfl
@[simp] theorem State.postQ_bank_tcause (s : State) (lat : Nat) (d : Fin 32) (v : Bool) : (s.postQ lat d v).cl.bank.tcause = s.cl.bank.tcause := by unfold State.postQ; split <;> rfl
@[simp] theorem State.postQ_bank_tval (s : State) (lat : Nat) (d : Fin 32) (v : Bool) : (s.postQ lat d v).cl.bank.tval = s.cl.bank.tval := by unfold State.postQ; split <;> rfl
@[simp] theorem State.postQ_bank_handles (s : State) (lat : Nat) (d : Fin 32) (v : Bool) : (s.postQ lat d v).cl.bank.handles = s.cl.bank.handles := by unfold State.postQ; split <;> rfl
@[simp] theorem State.postQ_bank_ops (s : State) (lat : Nat) (d : Fin 32) (v : Bool) : (s.postQ lat d v).cl.bank.ops = s.cl.bank.ops := by unfold State.postQ; split <;> rfl
@[simp] theorem State.postQ_bank_windows (s : State) (lat : Nat) (d : Fin 32) (v : Bool) : (s.postQ lat d v).cl.bank.windows = s.cl.bank.windows := by unfold State.postQ; split <;> rfl
@[simp] theorem State.postQ_bank_holds (s : State) (lat : Nat) (d : Fin 32) (v : Bool) : (s.postQ lat d v).cl.bank.holds = s.cl.bank.holds := by unfold State.postQ; split <;> rfl
@[simp] theorem State.postQ_bank_tlbinvs (s : State) (lat : Nat) (d : Fin 32) (v : Bool) : (s.postQ lat d v).cl.bank.tlbinvs = s.cl.bank.tlbinvs := by unfold State.postQ; split <;> rfl
@[simp] theorem State.postQ_bank_reenter (s : State) (lat : Nat) (d : Fin 32) (v : Bool) : (s.postQ lat d v).cl.bank.reenter = s.cl.bank.reenter := by unfold State.postQ; split <;> rfl
@[simp] theorem State.postQ_bank_pendTrap (s : State) (lat : Nat) (d : Fin 32) (v : Bool) : (s.postQ lat d v).cl.bank.pendTrap = s.cl.bank.pendTrap := by unfold State.postQ; split <;> rfl
@[simp] theorem State.postQ_bank_checked (s : State) (lat : Nat) (d : Fin 32) (v : Bool) : (s.postQ lat d v).cl.bank.checked = s.cl.bank.checked := by unfold State.postQ; split <;> rfl
@[simp] theorem State.postQ_bank_checkedNew (s : State) (lat : Nat) (d : Fin 32) (v : Bool) : (s.postQ lat d v).cl.bank.checkedNew = s.cl.bank.checkedNew := by unfold State.postQ; split <;> rfl
@[simp] theorem State.postQ_bank_checkedAt (s : State) (lat : Nat) (d : Fin 32) (v : Bool) : (s.postQ lat d v).cl.bank.checkedAt = s.cl.bank.checkedAt := by unfold State.postQ; split <;> rfl
@[simp] theorem State.postQ_bank_mcAddr (s : State) (lat : Nat) (d : Fin 32) (v : Bool) : (s.postQ lat d v).cl.bank.mcAddr = s.cl.bank.mcAddr := by unfold State.postQ; split <;> rfl
@[simp] theorem State.postQ_bank_courierErrs (s : State) (lat : Nat) (d : Fin 32) (v : Bool) : (s.postQ lat d v).cl.bank.courierErrs = s.cl.bank.courierErrs := by unfold State.postQ; split <;> rfl
@[simp] theorem State.postQ_bank_byArrival (s : State) (lat : Nat) (d : Fin 32) (v : Bool) : (s.postQ lat d v).cl.bank.byArrival = s.cl.bank.byArrival := by unfold State.postQ; split <;> rfl
@[simp] theorem State.postQ_bank_readySince (s : State) (lat : Nat) (d : Fin 32) (v : Bool) : (s.postQ lat d v).cl.bank.readySince = s.cl.bank.readySince := by unfold State.postQ; split <;> rfl
@[simp] theorem State.postQ_bank_prio (s : State) (lat : Nat) (d : Fin 32) (v : Bool) : (s.postQ lat d v).cl.bank.prio = s.cl.bank.prio := by unfold State.postQ; split <;> rfl
@[simp] theorem State.postQ_bank_slept (s : State) (lat : Nat) (d : Fin 32) (v : Bool) : (s.postQ lat d v).cl.bank.slept = s.cl.bank.slept := by unfold State.postQ; split <;> rfl
@[simp] theorem State.postQ_bank_residual (s : State) (lat : Nat) (d : Fin 32) (v : Bool) : (s.postQ lat d v).cl.bank.residual = s.cl.bank.residual := by unfold State.postQ; split <;> rfl
@[simp] theorem State.postQ_bank_cores (s : State) (lat : Nat) (d : Fin 32) (v : Bool) : (s.postQ lat d v).cl.bank.cores = s.cl.bank.cores := by unfold State.postQ; split <;> rfl

end Sys2Proof.Machine
end

