-- ==== Sys2Proof/Tests/Slice0.lean ====
section
/-!
SUPPORT. Sys2Proof/Tests/Slice0.lean: words written out from the spec's encodings, ill-formed terms, values of the spec's tables, and for each statement
with hypotheses a state and operands that meet them (`wit_<statement>`).
-/

namespace Sys2Proof.Tests

set_option Elab.async false

open Sys2Proof Sys2Proof.Machine

/-! ### Well-formed terms: one ill-formed term for each check -/

/-- A slot of an operation, with the sole operand `x`. -/
def op (i : Instr) (x : Fin 32 := 0) : Slot := ⟨true, false, 0, i, x⟩

theorem test_wellFormed : (op (.add 31 31 31)).wellFormed = true ∧ (op .launch 5).wellFormed = true := by decide +kernel
theorem test_illformed_width_1 : ([
    .vld 0 0 3 0 0, .vst 0 0 3 0 0, .vlds 0 0 3 0 0, .vldx 0 0 0 3 0 0, .vstx 0 0 0 3 0 0, .vldff 0 0 3 0 0, .vldg 0 0 0 3 0 0, .vstg 0 0 0 3 0 0,
    .vadd 0 0 0 3 0, .vsub 0 0 0 3 0, .vadds 0 0 0 3 0, .vsubs 0 0 0 3 0, .vaddus 0 0 0 3 0, .vsubus 0 0 0 3 0, .vavg 0 0 0 3 0, .vabd 0 0 0 3 0,
    .vmul 0 0 0 3 0, .vmulhs 0 0 0 3 0, .vmulhu 0 0 0 3 0, .vmulq 0 0 0 3 0, .vmac 0 0 0 3 0, .vmsub 0 0 0 3 0, .vmacs 0 0 0 3 0, .vdot2 0 0 0 3 0,
    .vand 0 0 0 3 0, .vor 0 0 0 3 0, .vxor 0 0 0 3 0, .vandn 0 0 0 3 0, .vsll 0 0 0 3 0, .vsrl 0 0 0 3 0, .vsra 0 0 0 3 0, .vrot 0 0 0 3 0,
    .vslli 0 0 0 3 0, .vsrli 0 0 0 3 0, .vsrai 0 0 0 3 0, .vsrar 0 0 0 3 0, .vmin 0 0 0 3 0, .vmax 0 0 0 3 0, .vminu 0 0 0 3 0, .vmaxu 0 0 0 3 0] : List Instr).all (fun i => !i.wellFormed) = true := by decide +kernel

theorem test_illformed_width_2 : ([
    .vceq 0 0 0 3 0, .vclt 0 0 0 3 0, .vcltu 0 0 0 3 0, .vcle 0 0 0 3 0, .vfadd 0 0 0 3 0, .vfsub 0 0 0 3 0, .vfmin 0 0 0 3 0, .vfmax 0 0 0 3 0,
    .vfmul 0 0 0 3 0, .vfma 0 0 0 3 0, .vfms 0 0 0 3 0, .vfnma 0 0 0 3 0, .vfeq 0 0 0 3 0, .vflt 0 0 0 3 0, .vfle 0 0 0 3 0, .vftot 0 0 0 3 0,
    .vfabs 0 0 3 0, .vfneg 0 0 3 0, .vfsqrt 0 0 3 0, .vfrcp 0 0 3 0, .vi2f 0 0 0 3 0, .vf2i 0 0 0 0 3 0, .vfwid 0 0 3 0, .vfnar 0 0 3 0,
    .vredsum 0 0 0 3 0, .vredmax 0 0 0 3 0, .vredmin 0 0 0 3 0, .vredarg 0 0 0 3 0, .vfredsum 0 0 0 3 0, .vfredmax 0 0 0 3 0, .vfredmin 0 0 0 3 0,
    .vfredarg 0 0 0 3 0, .vidot 0 0 0 3 0, .vidotu 0 0 0 3 0, .vfdot 0 0 0 3 0, .vfdota 0 0 0 3 0, .vgath 0 0 0 3 0, .vslup 0 0 0 3 0,
    .vsldn 0 0 0 3 0, .vcomp 0 0 3 0] : List Instr).all (fun i => !i.wellFormed) = true := by decide +kernel

theorem test_illformed_width_3 : ([
    .vmv 0 0 3 0, .vmvRf 0 3, .vmvCf 0 3, .vsplat 0 0 3 0, .vbcs 0 0 0 3 0, .vid 0 3 0, .mand 0 0 0 3, .mor 0 0 0 3, .mxor 0 0 0 3, .mnot 0 0 3,
    .mpopc 0 0 3 0, .mfirst 0 0 3 0, .mset 0 3, .mclr 0 3, .vmerge 0 0 0 3 0, .vselm 0 0 3 0, .vbscl 0 0 0 3 0] : List Instr).all (fun i => !i.wellFormed) = true := by decide +kernel

theorem test_illformed_vector_field : ([
    .vceq 4 0 0 0 0, .vclt 4 0 0 0 0, .vcltu 4 0 0 0 0, .vcle 4 0 0 0 0, .vfeq 4 0 0 0 0, .vflt 4 0 0 0 0, .vfle 4 0 0 0 0, .vftot 4 0 0 0 0,
    .mset 4 0, .mclr 4 0, .mand 4 0 0 0, .mor 4 0 0 0, .mxor 4 0 0 0, .mnot 4 0 0, .mand 0 4 0 0, .mor 0 4 0 0, .mxor 0 4 0 0, .mnot 0 4 0,
    .mpopc 0 4 0 0, .mfirst 0 4 0 0, .vselm 0 4 0 0, .mand 0 0 4 0, .mor 0 0 4 0, .mxor 0 0 4 0, .vredarg 0 0 2 0 0, .vfredarg 0 0 2 0 0,
    .vmerge 0 0 0 0 0] : List Instr).all (fun i => !i.wellFormed) = true := by decide +kernel

theorem test_illformed_scalar : ([
    .ord 5 0, .fence 0 0, .fence 1 5, .tlblk 0 0 3, .mfs 0 0x07, .mts 0 0x00, .cmp 0 0 0 6, .cmpi 0 0 0 6,
    .ldref 0 true 16 0, .stref 0 true 16 0, .hmov 16 0 0, .hmov 0 16 0, .hmov 16 0 1, .hmov 0 16 2, .hmov 0 0 3, .chmov 0 0 3, .amovStride 0 0 6] : List Instr).all (fun i => !i.wellFormed) = true := by decide +kernel

theorem test_illformed_unit : ([
    .vsetl 0 0 6, .upkf 0 0 0 5 0, .pckf 0 0 0 5 0, .pscl 0 0 4, .afmt 3 0 0 0 0, .afmt 0 3 0 0 0, .afmt 0 0 3 0 0, .afmt 0 0 0 3 0, .afmt 0 0 0 0 3,
    .afmt 1 0 0 0 2, .alatchLz 0, .abeat false false true false, .adrain 0 1 0 false false false, .gread 0 3 0, .gread 0 2 1, .cpy 0 0 9,
    .barinit 0 0 5 false] : List Instr).all (fun i => !i.wellFormed) = true := by decide +kernel

/-! ### Words written out from the layouts of the entries -/

theorem test_decode_control : [0x00041234, 0x0008001A, 0x8A0FFFF4, 0x80140002, 0x80181001, 0x8020F012, 0x802400D8, 0x802C00A8, 0x8031206A, 0x8034827C, 0x803403FE,
      0x80386029].map (fun w => (decodeSlot w).toOption) =
    [some ⟨false, false, 0, .ext 0x1234, 0⟩, some ⟨false, false, 0, .ord 3 2, 0⟩, some ⟨true, false, 5, .br 0x3FFF4, 0⟩, some (op .ret), some (op (.loop 0 4 1)),
      some (op (.wait 15 0 1 2)), some (op (.fence 3 3)), some (op (.trap 0x15)), some (op (.tlblk 9 3 1)), some (op (.ldblk 4 2 31)), some (op (.cflush 3 63)),
      some (op (.mfs 3 0x29))] := by decide +kernel

theorem test_decode_tasks : [0x80280500, 0x80280001, 0x80280009, 0x80280002, 0x80280003, 0x80280004, 0x80280505].map (fun w => (decodeSlot w).toOption) =
    [some (op .spawn 5), some (op .suspend), some (op .suspendDorm), some (op .join), some (op .exit), some (op .yield), some (op .launch 5)] := by decide +kernel

theorem test_decode_scalar : [0x8040A638, 0x0064EACE, 0xC0704200, 0x80742218, 0x807C4741, 0xC0A041C0, 0x80ACA431, 0x80B4A383, 0x80BC9FF9, 0x80BCB444,
      0x80BCA510].map (fun w => (decodeSlot w).toOption) =
    [some (op (.add 5 6 7)), some ⟨false, false, 0, .movi 7 0xACE, 0⟩, some ⟨true, true, 0, .cmpi 2 2 0 0, 0⟩, some (op (.pand 1 2 3)), some (op (.xget 2 3 5)),
      some ⟨true, true, 0, .ld 2 1 3 0, 0⟩, some (op (.amo 5 4 6 1)), some (op (.hld 5 1 3 false 3)), some (op (.stref 2 false 31 0x1F)), some (op (.hmov 5 20 1)),
      some (op (.ldref 2 true 5 2))] := by decide +kernel

theorem test_decode_cores : [0x80C4AB00, 0x80CC4BFF, 0x80D84BF8, 0x80E0C9BF, 0x80ECC867, 0x80FC90C3].map (fun w => (decodeSlot w).toOption) =
    [some (op (.gst 2 10 3 0)), some (op (.chld 1 2 3 true 0x7F)), some (op (.aaddi 1 2 0x7F)), some (op (.vld 3 2 1 2 0x3F)), some (op (.vldx 3 2 1 2 1 3)),
      some (op (.agth 2 4 3 3))] := by decide +kernel

theorem test_decode_vector : [0x8100A40B, 0x810448E4, 0x812BFB4C, 0x813D0C23, 0x814848E4, 0x815048D0].map (fun w => (decodeSlot w).toOption) =
    [some (op (.vsetl 5 4 0x0B)), some (op (.vadd 1 2 3 2 1)), some (op (.vfadd 15 14 13 0 3)), some (op (.vredarg 4 3 0 2 0)), some (op (.vgath 1 2 3 2 1)),
      some (op (.mand 1 2 3 1))] := by decide +kernel

theorem test_decode_units : [0x8181200F, 0x81852080, 0x81908020, 0x81A00001, 0x81A00015, 0x81A44000, 0x81A44001, 0x81A68002, 0x81A80003, 0x81B02068, 0x81AC4820,
      0x81AE8828, 0x81B40400, 0x81B5E8E2].map (fun w => (decodeSlot w).toOption) =
    [some (op (.upki 4 8 1 7)), some (op (.upkf 4 8 2 0 0)), some (op (.pcki 2 0 4 0)), some (op (.afmt 0 0 0 0 1)), some (op (.afmt 0 0 1 1 1)), some (op (.alatchLa 1)),
      some (op (.alatchLb 1)), some (op (.alatchLbs 10)), some (op (.abeat false false true true)), some (op (.aconf 1 0 3 4 false)),
      some (op (.adrain 1 2 0 true false false)), some (op (.adrain 10 2 0 true false true)), some (op (.ard 0 1 0)), some (op (.ascl 7 10 3 true))] := by decide +kernel

theorem test_decode_engines : [0x81B8060C, 0x81B80001, 0x81B8D402, 0x81BCD680, 0x81BD0001, 0x81C0C530, 0x01C4C820, 0x81CEB600, 0x81D00900, 0x81D46402].map
      (fun w => (decodeSlot w).toOption) =
    [some (op .gseed 6), some (op .grestart), some (op (.gread 3 1 2)), some (op (.bterm 3 5 10)), some (op (.bnext 4)), some (op (.cpy 6 5 3)),
      some ⟨false, false, 0, .barinit 6 8 1 false, 0⟩, some (op (.hflip 21 22)), some (op .ssrch 9), some (op (.ecan 3 4))] := by decide +kernel

/-- A word whose major opcode is unassigned, a reserved cc and a nonzero field of NOP (R25, R33, R38). -/
theorem test_decode_rejects : [0x81FC0000, 0x806C0006, 0x80000001].map (fun w => (decodeSlot w).toOption.isSome) = [false, false, false] := by decide +kernel

/-! ### Values of the spec's tables -/

/-- Table 14.7. -/
theorem test_mix : (List.range 4).map (fun i => mixSeed 0 (BitVec.ofNat 64 i)) =
    [0xE220A8397B1DCDAF, 0x6E789E6AA1B965F4, 0x06C45D188009454F, 0xF88BB8A8724C81EC] := by decide +kernel

/-- R241: seed 1 gives the bits 1, 1, 0, 1, 1, 0. -/
theorem test_seed_bits : (List.range 6).map (fun i => (basisStep^[i] (1 : BitVec 32)).getLsbD 0) = [true, true, false, true, true, false] := by decide +kernel

/-! ### States for the witnesses -/

/-- Raw addresses below 2^31, for ASN 0. -/
def lf : Leaf := ⟨0, 2 ^ 31, 0x80000000, 0, false, false, true, true, 0⟩

/-- Addresses from 2^31 on: pages of a managed heap. -/
def hf : Leaf := ⟨2 ^ 31, 2 ^ 31, 0x100000000, 0, false, false, false, true, 1⟩

/-- Bank 0 runs and the bundle of the words `ws` is open at its first slot. -/
def st (ws : List (BitVec 32)) : State :=
  let file : SeqFile := {}
  { State.reset with
    cl := { State.reset.cl with
      run := some 0, time := 100, tlb := [lf, hf], cores := Vector.replicate 8 { tlb := [lf, hf] },
      bank := { State.reset.cl.bank with state := .running, pc := 0x1000, tvb := 0x20000, frame := 0x40000, file := file },
      opn := some { OpenBundle.blank with pc := 0x1000, slots := ws.map fetched, guards := 0xFF, sampled := { slen := 2048, coreEn := 0xFF } } } }

/-- No bundle is open. -/
def idle (s : State) : State := { s with cl := { s.cl with opn := none } }

/-- The slots read s_r as v. -/
def withS (l : List (Fin 32 × Word)) (s : State) : State :=
  s.modOpn fun o => { o with snap := { o.snap with seq := l.foldl (fun f x => f.write (.s x.1 x.2)) o.snap.seq } }

/-- The slots read h_r of the sequencer as v. -/
def withH (l : List (Fin 16 × Word)) (s : State) : State :=
  s.modOpn fun o => { o with snap := { o.snap with seq := l.foldl (fun f x => f.write (.h x.1 x.2)) o.snap.seq } }

/-- The slots read what the writes `l` leave in every core. -/
def withC (l : List CoreWrite) (s : State) : State :=
  s.modOpn fun o => { o with snap := { o.snap with cores := o.snap.cores.map fun (f : CoreFile) => l.foldl CoreFile.write f } }

/-- The open bundle's task is a supervisor. -/
def asSup (s : State) : State := s.modOpn fun o => { o with regs := { o.regs with tsw := 1 } }

/-- Core k is the one enabled core. -/
def oneCore (k : Fin 8) (s : State) : State := s.modOpn fun o => { o with sampled := { o.sampled with coreEn := BitVec.twoPow 8 k.val } }

/-- Doublewords of main memory. -/
def withMem (l : List (Nat × Word)) (s : State) : State := { s with mem := l.foldl (fun m x => m.setWord x.1 x.2) s.mem }

/-- The step concerns the current cluster and what a, b, value and msg say. -/
def about (a b : Nat) (v : Word) (s : State) : State := { s with ev := { s.ev with c := s.cl.id, a := a, b := b, value := v } }

/-- Change the running bank. -/
def bankWith (f : Bank → Bank) (s : State) : State := s.modBank f

def isNext (x : Host.Outcome State Fault Refusal) : Bool := match x with | .next _ => true | _ => false

theorem nextOf {x : Host.Outcome State Fault Refusal} (h : isNext x = true) : ∃ t, x = .next t := by
  cases x <;> simp_all [isNext]

def isOk {α : Type} (x : Eff α) : Bool := match x with | .ok _ => true | .error _ => false

theorem okOf {α : Type} {x : Eff α} (h : isOk x = true) : ∃ y, x = .ok y := by
  cases x <;> simp_all [isOk]

theorem okOf2 {α β : Type} {x : Eff (α × β)} (h : isOk x = true) : ∃ y z, x = .ok (y, z) := (okOf h).elim fun y e => ⟨y.1, y.2, e⟩

/-- An effect answers the value y. -/
def gives {α : Type} [DecidableEq α] (x : Eff α) (y : α) : Bool := match x with | .ok z => z = y | .error _ => false

theorem givesOf {α : Type} [DecidableEq α] {x : Eff α} {y : α} (h : gives x y = true) : x = .ok y := by
  cases x <;> simp_all [gives]

/-- A place is found. -/
def finds {α : Type} [DecidableEq α] (x : Eff (State × α)) (l : α) : Bool := match x with | .ok z => z.2 = l | .error _ => false

theorem findsOf {α : Type} [DecidableEq α] {x : Eff (State × α)} {l : α} (h : finds x l = true) : ∃ s1, x = .ok (s1, l) := by
  rcases x with e | ⟨s1, m⟩ <;> simp_all [finds]

/-- The state that an effect goes on from. -/
def after {α : Type} (x : Eff (State × α)) : State := match x with | .ok z => z.1 | .error _ => .reset

theorem afterOf {α : Type} [DecidableEq α] {x : Eff (State × α)} {l : α} (h : finds x l = true) : x = .ok (after x, l) := by
  rcases x with e | ⟨s1, m⟩ <;> simp_all [finds, after]

/-- A trap of the cause is met. -/
def traps {α : Type} (x : Eff α) (c : BitVec 8) : Bool := match x with | .error (.trap d _ _) => d = c | _ => false

theorem trapsOf {α : Type} {x : Eff α} {c : BitVec 8} (h : traps x c = true) : ∃ v g, x = .error (.trap c v g) := by
  rcases x with e | y
  · cases e <;> simp_all [traps]
  · simp_all [traps]

/-- A trap of the cause and the TVAL is met. -/
def trapsAt {α : Type} (x : Eff α) (c : BitVec 8) (v : Word) : Bool := match x with | .error (.trap d u _) => d = c && u = v | _ => false

theorem trapAtOf {α : Type} {x : Eff α} {c : BitVec 8} {v : Word} (h : trapsAt x c v = true) : ∃ g, x = .error (.trap c v g) := by
  rcases x with e | y
  · cases e <;> simp_all [trapsAt]
  · simp_all [trapsAt]

theorem reachesOf {s : State} {w : Who} {u : Use} {va : Word} {n pa : Nat} {x : Leaf} (h0 : isWindow va = false) (h1 : heldLeaf s w va = some x)
    (h2 : gives (chkLeaf s w u x va) () = true) (h3 : gives (leafLoc w x va n) pa = true)
    (h4 : s.softWords = [] := by decide +kernel) : Reaches s w u va n (.mem pa) :=
  .inr ⟨h0, x, pa, h1, givesOf h2, givesOf h3, rfl, fun _ => h4⟩

/-! ### Witnesses: encoding, step, registers -/

theorem wit_EncodeThenDecodeIsTheSlot : (⟨true, true, 31, .br 0x3FFFF, 0⟩ : Slot).wellFormed = true := by decide +kernel

theorem wit_DecodeThenEncodeIsTheWord :
    0x8A0FFFF4 < 2 ^ 32 ∧ decodeSlot 0x8A0FFFF4 = .ok ⟨true, false, 5, .br 0x3FFF4, 0⟩ := by decide +kernel

/-- ADD, then NOP guarded by q1, which reads 0. -/
def two : State := (st [0x0040A638, 0x82000000]).modOpn fun o => { o with guards := 1, first := 6 }

theorem wit_StepRunsTheDecodedInstruction :
    (two.cl.opn = some two.opn ∧ two.opn.stalled = false ∧ two.opn.bad = none ∧
      two.opn.slots[two.opn.idx]? = some ⟨0x0040A638, some ⟨false, false, 0, .add 5 6 7, 0⟩⟩ ∧ two.opn.guards.getLsbD two.opn.idx = true ∧
      two.opn.kept.getLsbD two.opn.idx = true ∧ two.opn.resolved = none ∧ two.opn.idx + 1 < two.opn.slots.length) ∧
    (let s := two.modOpn fun o => { o with idx := 1 }
     s.cl.opn = some s.opn ∧ s.opn.stalled = false ∧ s.opn.bad = none ∧
      s.opn.slots[s.opn.idx]? = some ⟨0x82000000, some ⟨true, false, 1, .nop, 0⟩⟩ ∧ s.opn.guards.getLsbD s.opn.idx = false) ∧
    (let s := { idle two with agenda := [⟨.tstepIncrement, Subject.none⟩] }
     slotDue s = false ∧ s.agenda = ⟨.tstepIncrement, Subject.none⟩ :: []) :=
  ⟨⟨rfl, by decide +kernel⟩, ⟨rfl, by decide +kernel⟩, by decide +kernel⟩

/-- Between bundles; the word at the PC is a MOVI with the stop bit. -/
def mv : State := withMem [(0x80001000, 0x8064EACE)] (idle (st []))

theorem wit_StepIssuesTheBundleAtThePc :
    (slotDue mv = false ∧ mv.agenda = [] ∧ (releaseHolds mv).turn = 0 ∧ canIssue (releaseHolds mv) = true) ∧
    (about 0 0 0 mv).ev.c = (about 0 0 0 mv).cl.id ∧
    (let v := awaitWrites mv
     let u := (v.settle v.cl.time).modBank endChecked
     (mv.cl.bank.residual = none ∧ mv.cl.bank.reenter = none ∧ buffered u.bank u.bank.pc = none) ∧
     (∃ s1, fetchWord u ⟨8, tswAsn u.bank.tsw, tswSup u.bank.tsw⟩ u.bank.pc = .ok (s1, 0x8064EACE)) ∧
     (0x8064EACE : BitVec 32).getLsbD 31 = true ∧ decodeSlot 0x8064EACE = .ok (op (.movi 7 0xACE)) ∧ findBad 0 0 [0x8064EACE] = none ∧
     loopBufferFault u.bank u.bank.pc 1 = false ∧ nullified u.bank u.cl.time [0x8064EACE] = false) := by
  refine ⟨by decide +kernel, rfl, ⟨rfl, rfl, by decide +kernel⟩, ?_, by decide +kernel⟩
  have h : (match fetchWord (((awaitWrites mv).settle (awaitWrites mv).cl.time).modBank endChecked) ⟨8, 0, false⟩ 0x1000 with
    | .ok z => decide (z.2 = 0x8064EACE) | .error _ => false) = true := by decide +kernel
  generalize hx : fetchWord (((awaitWrites mv).settle (awaitWrites mv).cl.time).modBank endChecked) ⟨8, 0, false⟩ 0x1000 = x at h
  rcases x with e | ⟨s1, y⟩
  · simp at h
  · exact ⟨s1, by rw [show y = 0x8064EACE by simpa using h] at hx; exact hx⟩

theorem wit_StepKeepsMemoryCanonical : mv.memOk ∧ ∃ t, step mv = .next t := by
  refine ⟨?_, nextOf (by decide +kernel)⟩
  unfold State.memOk; decide +kernel

theorem wit_WritesArriveInTheirRegisters :
    two.cl.bank.pend = [] ∧ (31 : Fin 32) ≠ 0 ∧ (1 : Fin 32) ≠ 0 ∧ (∀ i : Fin 8, (two.cl.bank.cores[i.val]).pend = []) ∧
    (∃ r : Fin 32, r ≠ 31) ∧ two.cl.time + 1 ≤ 101 ∧ ¬two.cl.time + 1 ≤ 100 := by decide +kernel

theorem wit_NopDoesNothing :
    (let s := st [0x80000000]
     s.cl.opn = some s.opn ∧ s.opn.stalled = false ∧ s.opn.bad = none ∧ s.opn.slots[s.opn.idx]? = some ⟨0x80000000, some (op .nop)⟩ ∧
      (op .nop).op = .nop ∧ ∀ a, s.opn.resolved ≠ some (s.opn.idx, a)) ∧
    (127 < 2 ^ 7 ∧ 0 < 2 ^ 18 - 1 ∧ 2 ^ 18 - 1 < 2 ^ 18) ∧ (0 < 2 ^ 7 ∧ 0 < 1 ∧ 1 < 2 ^ 18) :=
  ⟨⟨rfl, rfl, rfl, by decide +kernel, rfl, fun a h => nomatch h⟩, by decide⟩

theorem wit_ComparesPredicatesAndPrefixes :
    two.cl.opn = some two.opn ∧ two.opn.ext = none ∧ two.opn.ord = none ∧ two.cl.bank.pend = [] ∧
    (2 ^ 18 - 1 < 2 ^ 18) ∧ (5 : Fin 8).val < 6 ∧ 6 ≤ (6 : Fin 8).val ∧ (31 : Fin 32) ≠ 0 ∧ two.cl.time + 1 ≤ 101 := ⟨rfl, by decide +kernel⟩

theorem wit_SpecialRegisterMoves :
    SpecialReg.ofNum 0x2D = some .lc5 ∧ SpecialReg.ofNum 0x2E = none ∧ SpecialReg.writable 0x00 = false ∧ SpecialReg.writable 0xFF = false ∧
    (∃ m, 3 ≤ m ∧ m ≤ 16 ∧ ((withS [(1, 8)] two).rs 1).toNat = 2 ^ m) ∧ (∃ m, 3 ≤ m ∧ m ≤ 16 ∧ ((withS [(1, 65536)] two).rs 1).toNat = 2 ^ m) ∧
    (¬∃ m, 3 ≤ m ∧ m ≤ 16 ∧ ((withS [(1, 4)] two).rs 1).toNat = 2 ^ m) ∧
    (((withS [(1, 0x1001D)] two).rs 1).toNat % 2 ^ 16 < 32 ∧ ((withS [(1, 0x1001D)] two).rs 1).toNat / 2 % 4 ≠ 3) ∧
    32 ≤ ((withS [(1, 32)] two).rs 1).toNat % 2 ^ 16 ∧ ((withS [(1, 30)] two).rs 1).toNat / 2 % 4 = 3 ∧
    two.cl.opn.isSome ∧ (asSup two).sup = true ∧ ¬two.sup = true ∧
    (∃ m, 3 ≤ m ∧ m ≤ 16 ∧ (about 0 0 65536 two).ev.value.toNat = 2 ^ m) ∧
    ((about 0 0 25 two).ev.value.toNat % 2 ^ 16 < 32 ∧ (about 0 0 25 two).ev.value.toNat / 2 % 4 ≠ 3) := by
  refine ⟨by decide +kernel, by decide +kernel, by decide +kernel, by decide +kernel, ⟨3, by decide +kernel⟩, ⟨16, by decide +kernel⟩, ?_,
    by decide +kernel, by decide +kernel, by decide +kernel, by decide +kernel, by decide +kernel, by decide +kernel, ⟨16, by decide +kernel⟩, by decide +kernel⟩
  rintro ⟨m, h3, h16, h⟩
  have h4 : ((withS [(1, 4)] two).rs 1).toNat = 4 := by decide +kernel
  rw [h4] at h
  have := Nat.pow_le_pow_right (n := 2) (by omega) h3
  omega

/-- -2^63 divided by -1, and by 0. -/
theorem wit_DivisionTruncatesTowardZero :
    let s := withS [(1, 0x8000000000000000), (2, 0xFFFFFFFFFFFFFFFF), (3, 0), (4, 7)] two
    (s.rs 3).toInt = 0 ∧ ((s.rs 2).toInt ≠ 0 ∧ (s.rs 1).toInt = -(2 ^ 63) ∧ (s.rs 2).toInt = -1) ∧
    ((s.rs 4).toInt ≠ 0 ∧ ¬((s.rs 1).toInt = -(2 ^ 63) ∧ (s.rs 4).toInt = -1)) ∧ (s.rs 3).toNat = 0 ∧ (s.rs 2).toNat ≠ 0 := by decide +kernel

theorem coresReachOf {s : State} {cls : WaitClass} {u : Use} {ea : Fin 8 → Word} {n : Nat} {x : Leaf} {pa : Fin 8 → Nat}
    (h : ∀ k : Fin 8, s.enabled k = true →
      outstanding s.cl s.bankNo s.cl.bank (coreWho s k).agent cls < 32 ∧ (ea k).toNat % n = 0 ∧ (ea k).toNat < 2 ^ 57 ∧
      isWindow (ea k) = false ∧ heldLeaf s (coreWho s k) (ea k) = some x ∧ gives (chkLeaf s (coreWho s k) u x (ea k)) () = true ∧
      gives (leafLoc (coreWho s k) x (ea k) n) (pa k) = true) (hs : s.softWords = [] := by decide +kernel) :
    CoresReach s cls u ea n (fun k => .mem (pa k)) :=
  fun k hk => let ⟨a, b, c, d, e, f, g⟩ := h k hk
    ⟨a, b, c, reachesOf d e f g hs⟩

/-- a2 of every core is 0x5000, a4 is 1. -/
def pt : State := withC [.a 2 0x5000, .a 4 1] two

theorem wit_CoreScalarSlotsAndMoves :
    CoresReach pt .load {} (fun k => toWord ((pt.ra k 2).toNat + pt.extImm 7 0x7F * (8 : Nat))) 8 (fun _ => .mem 0x80004FF8) ∧
    CoresReach pt .store { write := true } (fun k => toWord ((pt.ra k 2).toNat + pt.extImm 7 0x7F * (8 : Nat))) 8 (fun _ => .mem 0x80004FF8) ∧
    CoresReach pt .load { write := true } (fun k => pt.ra k 2) 4 (fun _ => .mem 0x80005000) ∧ 6 ≤ (6 : Fin 8).val :=
  ⟨coresReachOf (x := lf) (pa := fun _ => 0x80004FF8) (by decide +kernel), coresReachOf (x := lf) (pa := fun _ => 0x80004FF8) (by decide +kernel),
    coresReachOf (x := lf) (pa := fun _ => 0x80005000) (by decide +kernel), by decide⟩

/-! ### Witnesses: branches, loops, memory -/

theorem wit_Branches :
    let s := withS [(9, 0x2000), (10, 0x2002), (31, 0xFFFFFFFFFFFFFFFC)] (st [0x82140900])
    s.cl.opn = some s.opn ∧ (toWord (s.opn.pc.toNat + 4 * s.extImm 18 0x20000)).toNat % 4 = 0 ∧ (s.rs 9).toNat % 4 = 0 ∧ (s.rs 10).toNat % 4 ≠ 0 ∧
      (s.rs 31).toNat % 4 = 0 := ⟨rfl, by decide +kernel⟩

theorem wit_TakenBranchEndsEveryLoop :
    (let s := withS [(31, 0x2000)] (st [0x80140002])
     s.cl.opn = some s.opn ∧ (s.rs 31).toNat % 4 = 0 ∧ (Instr.ret = .ret ∧ s.rs 31 = s.rs 31)) ∧
    (let o := { OpenBundle.blank with branch := some (.taken 0x2000) }
     o.next = none ∧ o.branch = some (.taken 0x2000)) := ⟨⟨rfl, by decide +kernel⟩, rfl, rfl⟩

/-- Levels below n are active, with their last bundle at 0x2000; every count is `count`. -/
def nest (n : Nat) (count : BitVec 32) (s : State) : State :=
  bankWith (fun b =>
    { b with
      lc := Vector.replicate 6 count
      loops := Vector.ofFn fun l : Fin 6 => { active := l.val < n, start := 0x1000, last := 0x2000 } }) s

/-- A LOOP whose count is in s3; a one-slot bundle stands at 0x1010. -/
def lp (n : Nat) (x : Word) : State := withMem [(0x80001010, 0x80000000)] (withS [(3, x)] (nest n 2 (st [0x80180303])))

/-- The levels that p names are inactive. -/
def without (p : Fin 6 → Bool) (b : Bank) : Bank :=
  { b with loops := Vector.ofFn fun j : Fin 6 => if p j then { b.loops[j.val] with active := false } else b.loops[j.val] }

theorem wit_LoopForms :
    ((lp 5 7).cl.opn = some (lp 5 7).opn ∧ (∀ j : Fin 6, (((lp 5 7).cl.bank.loops[j.val]).active = decide (j.val < 5))) ∧
      (∀ j : Fin 6, j.val + 1 = 5 → ((lp 5 7).opn.pc + 4 + 12).toNat ≤ (((lp 5 7).cl.bank.loops[j.val]).last).toNat) ∧
      BitVec.ofNat 32 ((lp 5 7).rs 3).toNat ≠ 0) ∧
    ((∀ j : Fin 6, (((lp 0 0).cl.bank.loops[j.val]).active = decide (j.val < 0))) ∧ BitVec.ofNat 32 ((lp 0 0).rs 3).toNat = 0) ∧
    (∃ s1 after, afterBundle (lp 0 0) ((lp 0 0).opn.pc + 4 + 12) = .ok (s1, after)) ∧
    (¬(∀ j : Fin 6, (((lp 0 7).cl.bank.loops[j.val]).active = decide (j.val < 1)))) ∧ 6 ≤ (7 : Fin 8).val ∧
    (let p := { OpenBundle.blank with branch := some (.loop 5 7 0x1004 0x1010 0x1014) }
     p.next = none ∧ p.branch = some (.loop 5 7 0x1004 0x1010 0x1014)) ∧
    -- LOOPX and LOOPC: no lower level shares the end bundle in another iteration than its last, and one does
    ((((lp 6 7).cl.bank.loops[5]).active = true) ∧ (((lp 5 7).cl.bank.loops[5]).active = false)) ∧
    (∀ h, endsIteration (lp 6 7).cl.bank (fun l => (lp 6 7).cl.bank.lc[l.val]) 0x2000 0 h = false) ∧
    (∃ s1 after, afterBundle (withMem [(0x80002000, 0x80000000)] (lp 6 7)) 0x2000 = .ok (s1, after)) ∧
    (let b := (lp 6 7).cl.bank
     endsIteration b (fun l => b.lc[l.val]) 0x2000 5 4 = true ∧ endsIteration b (lcAtEnd (lp 6 7)) 0x2000 5 4 = true ∧
       b.lc[4] ≠ 1 ∧ lcAtEnd (lp 6 7) 4 ≠ 1) ∧
    (let s := withMem [(0x80002000, 0x80000000)] (nest 6 1 two)
     ((s.cl.bank.loops[5]).active = true) ∧ (∀ h : Fin 6, s.cl.bank.lc[h.val] = 1) ∧
       ∃ s1 after, afterBundle s (s.cl.bank.loops[5]).last = .ok (s1, after)) ∧
    -- the end of the bundle
    ∀ (l : Fin 6) (c : Fin 3), let b := (nest 6 (BitVec.ofNat 32 c.val) two).cl.bank
      let o := { OpenBundle.blank with pc := 0x2000 }
      (o.next = none ∧ o.branch = none ∧ (∀ k : Fin 8, (b.cores[k.val]).pend = [])) ∧
      (∀ j : Fin 6, (without (fun i => l.val ≤ i.val) b).loops[j.val] = if l.val ≤ j.val then { b.loops[j.val] with active := false } else b.loops[j.val]) ∧
      (∀ j : Fin 6, (without (fun i => l.val < i.val) b).loops[j.val] = if l.val < j.val then { b.loops[j.val] with active := false } else b.loops[j.val]) ∧
      endsIteration b (fun l => b.lc[l.val]) o.pc 6 5 = true ∧ (endsIteration b (fun l => b.lc[l.val]) o.pc 6 4 = true ↔ c.val = 1) := by
  refine ⟨⟨rfl, by decide +kernel⟩, by decide +kernel, ?_, by decide +kernel, by decide +kernel, by decide +kernel, by decide +kernel, by decide +kernel, ?_,
    by decide +kernel, ⟨by decide +kernel, by decide +kernel, ?_⟩, by decide +kernel⟩
  · obtain ⟨y, h⟩ := okOf (x := afterBundle (lp 0 0) ((lp 0 0).opn.pc + 4 + 12)) (by decide +kernel)
    exact ⟨y.1, y.2, h⟩
  · obtain ⟨y, h⟩ := okOf (x := afterBundle (withMem [(0x80002000, 0x80000000)] (lp 6 7)) 0x2000) (by decide +kernel)
    exact ⟨y.1, y.2, h⟩
  · obtain ⟨y, h⟩ := okOf (x := afterBundle (withMem [(0x80002000, 0x80000000)] (nest 6 1 two)) 0x2000) (by decide +kernel)
    exact ⟨y.1, y.2, h⟩

/-- An access of 8 bytes. -/
def one (kind : AccKind) : Access := { va := 0x5000, loc := .mem 0x80005000, size := 8, kind := kind }

/-- An operation of the agent with it, and its destination. -/
def acc (ag : Fin 9) (kind : AccKind) (dest : Dest) : MemOp := { id := 5, agent := ag, cls := .load, dest := dest, accs := [one kind] }

/-- The operation is under way. -/
def under (o : MemOp) (s : State) : State := bankWith (fun b => { b with ops := [o] }) s

/-- The next bundle waits for the hold. -/
def held (h : Hold) (s : State) : State := bankWith (fun b => { b with holds := [h] }) s

theorem wit_SequencerMemoryForms :
    let s := withS [(1, 0x5000), (2, 0x5001), (4, 10)] two
    (tswMcp s.cl.bank.tsw = false ∧ s.cl.bank.courierErrs = [] ∧ s.opn.abandon = false) ∧ ((3 : Fin 4) ≠ 0 ∧ (4 : Fin 8).val < 5 ∧ 5 ≤ (5 : Fin 8).val) ∧
    (let u := s.modOpn fun o => { o with slots := [⟨0, some (op .twait 4)⟩] }
     (({ u with tstep := 10 }).rs ({ u with tstep := 10 }).sole).toNat ≤ ({ u with tstep := 10 }).tstepNow ∧
     ({ u with tstep := 9 }).tstepNow < (({ u with tstep := 9 }).rs ({ u with tstep := 9 }).sole).toNat) ∧
    s.cl.bank.tlbinvs = [] ∧ (bankWith (fun b => { b with tlbinvs := [7] }) s).cl.bank.tlbinvs ≠ [] ∧
    -- holds, met and not
    ((∀ k : Fin 8, s.opn.sampled.coreEn.getLsbD k.val = true → k.val ≤ 7) ∧ s.opn.sampled.coreEn.getLsbD 7 = true) ∧
    (∀ i : Fin 2, let w := held (.wait 0 0 0 0 0x80 0x1000 { slot := 0 }) (if i = 0 then s else under (acc 7 .load .none) s)
     w.cl.bank.holds ≠ [] ∧ w.cl.bank.holds = .wait 0 0 0 0 0x80 0x1000 { slot := 0 } :: [] ∧
      tswMcp (bankWith (fun b => { b with tsw := 0x800 }) w).cl.bank.tsw = true ∧
      (bankWith (fun b => { b with courierErrs := [(5, 0x16)] }) w).cl.bank.courierErrs = (5, 0x16) :: [] ∧
      ((∀ a : Fin 9, a = 8 ∨ (∃ k : Fin 8, coreOf a = some k ∧ (0x80 : BitVec 8).getLsbD k.val = true) →
        outstanding w.cl w.bankNo w.cl.bank a .load ≤ 0 ∧ outstanding w.cl w.bankNo w.cl.bank a .store ≤ 0 ∧
        outstanding w.cl w.bankNo w.cl.bank a .copy ≤ 0 ∧ outstanding w.cl w.bankNo w.cl.bank a .tile ≤ 0) ↔ i = 0)) ∧
    (∀ i : Fin 2, let w := under (acc 7 .load .none) (held (.fence (if i = 0 then 5 else 6) 0x80) s)
     w.cl.bank.holds ≠ [] ∧ w.cl.bank.holds = .fence (if i = 0 then 5 else 6) 0x80 :: [] ∧
      ((∀ o ∈ w.cl.bank.ops, (o.agent = 8 ∨ ∃ k : Fin 8, coreOf o.agent = some k ∧ (0x80 : BitVec 8).getLsbD k.val = true) →
        (if i = 0 then 5 else 6) ≤ o.id) ↔ i = 0)) ∧
    -- accesses
    ((toWord ((s.rs 1).toNat + s.extImm 6 0x3F * (8 : Nat))).toNat = 0x4FF8 ∧ 0x4FF8 % 8 = 0 ∧ 0x4FF8 < 2 ^ 57 ∧
      outstanding s.cl s.bankNo s.cl.bank 8 .load < 32 ∧ outstanding s.cl s.bankNo s.cl.bank 8 .store < 32) ∧
    (∃ s1, locate s s.seqWho { write := true } 0x4FF8 8 = .ok (s1, .mem 0x80004FF8)) ∧
    (∃ s1, locate s s.seqWho {} 0x4FF8 8 = .ok (s1, .mem 0x80004FF8)) ∧
    (toWord ((s.rs 2).toNat + s.extImm 6 0 * (8 : Nat))).toNat % 8 ≠ 0 :=
  ⟨by decide +kernel, by decide +kernel, by decide +kernel, by decide +kernel, by decide +kernel, by decide +kernel, by decide +kernel, by decide +kernel,
    by decide +kernel, findsOf (by decide +kernel), findsOf (by decide +kernel), by decide +kernel⟩

theorem wit_AccessIsPerformed :
    (2 ^ 32 - 1 < 2 ^ (8 * 4) ∧ 2 ^ 64 - 1 < 2 ^ (8 * 8)) ∧
    ∀ i : Fin 4,
      let o := acc (if i = 3 then 7 else 8) (if i = 0 then .store 9 else if i = 1 then .rmw ⟨7, 1, 0⟩ else .load)
        (if i = 0 then .none else if i = 1 then .seqS 31 8 true else if i = 2 then .seqH 15 else .coreA 15 8 true)
      let s := about 5 0 0 (under o (withMem [(0x80005000, 3)] two))
      s.memOk ∧ (∃ a, SoleAccess s o a 0x80005000) ∧ (i = 3 → coreOf o.agent = some 7) := by
  refine ⟨by decide, fun i => ⟨?_, ⟨one (if i = 0 then .store 9 else if i = 1 then .rmw ⟨7, 1, 0⟩ else .load), ?_⟩, ?_⟩⟩
  · unfold State.memOk; revert i; decide +kernel
  · unfold SoleAccess; revert i; decide +kernel
  · revert i; decide +kernel

/-! ### Witnesses: managed heaps -/

/-- Heap 3: enabled for ASN 0, epoch 1, 128 KiB from 2^31 on, a table of 16 entries. -/
def heap3 : List (Nat × Word) :=
  let d := Config.heapTable + 64 * 3
  [(d, 0x0000000400000001), (d + 8, 1), (d + 24, 0x17D00000000), (d + 32, 0x80000000), (d + 40, 0x20000), (d + 48, 0x17E00000000)]

/-- References of heap 3 with the current epoch, with the previous one, and with a later one. -/
def now (addr : Nat) : Word := 0x5300000000000000 + BitVec.ofNat 64 addr
@[inherit_doc now] def old (addr : Nat) : Word := 0x4300000000000000 + BitVec.ofNat 64 addr
@[inherit_doc now] def later (addr : Nat) : Word := 0x6300000000000000 + BitVec.ofNat 64 addr

/-- The entry that forwards the object at x to y, at its home slot. -/
def forward (x y : Nat) : List (Nat × Word) :=
  [(0x17D00000000 + 16 * homeSlot 4 x, BitVec.ofNat 64 (x + 3)), (0x17D00000008 + 16 * homeSlot 4 x, BitVec.ofNat 64 y)]

/-- The hardware holds EPOCH 1 of heap 3. -/
def epoch3 (s : State) : State := { s with relocs := s.relocs.set 3 { s.relocs[3] with epoch := 1 } }

/-- Heap 3 stands, with an object moved from 2^31 + 0x80 to 2^31 + 0x10000. -/
def hs (s : State) : State := epoch3 (withMem (heap3 ++ forward 0x80000080 0x80010000) s)

theorem wit_ReferencesAndTheirBarrier :
    let s := hs two
    let w := s.seqWho
    (bits (heapWord s 3 1) 1 0 = heapEpoch s 3 ∧ epochSeen s 3 w.agent = heapEpoch s 3) ∧
    (refKind 0 ≠ 1 ∧ refKind 0x8000000000000000 ≠ 1) ∧ (refKind (now 0x80000040) = 1 ∧ (now 0x80000040).getLsbD 6 = true) ∧
    (refKind (now 0x80000100) = 1 ∧ (now 0x80000100).getLsbD 6 = false ∧
      heapEn s (refHeap (now 0x80000100)) = true ∧ heapOwner s (refHeap (now 0x80000100)) = w.asn) ∧
    (¬(heapEn s 4 = true ∧ (heapOwner s 4 = w.asn ∨ w.sup = true))) ∧
    refEpoch (now 0x80000100) = epochSeen s 3 w.agent ∧
    (refEpoch (later 0x80000100) ≠ epochSeen s 3 w.agent ∧ refEpoch (later 0x80000100) ≠ (epochSeen s 3 w.agent + 3) % 4) ∧
    barrierRef s w (now 0x8001FF80) = .ok (now 0x8001FF80) ∧
    (barrierRef s w (old 0x80000100) = .ok (now 0x80000100) ∧ refEpoch (old 0x80000100) ≠ epochSeen s 3 w.agent ∧
      lookup s 3 (epochSeen s 3 w.agent) (refAddr (old 0x80000100)) = none) ∧
    (barrierRef s w (old 0x80000080) = .ok (now 0x80010000) ∧
      ∃ p, lookup s 3 (epochSeen s 3 w.agent) (refAddr (old 0x80000080)) = some p) ∧
    -- the words that it reads
    ((afterAcquire s w.agent).badAmong (barrierReads (afterAcquire s w.agent) w (old 0x80000080)) = false ∧
      barrierRef (afterAcquire s w.agent) w (old 0x80000080) = .ok (now 0x80010000) ∧
      ∃ e, barrierRef (afterAcquire s w.agent) w (later 0x80000100) = .error e) ∧
    (let t := afterAcquire { s with badWords := [heapPlaceOf 3 1 / 8] } w.agent
     t.badAmong (barrierReads t w (old 0x80000080)) = true) ∧
    -- comparing
    (let t := withH [(1, 0), (2, now 0x80000100), (3, 0x8000000000000000)] s
     (refKind (t.rh 1) = 0 ∧ refKind (t.rh 1) < 2 ∧ refKind (t.rh 2) < 2) ∧ 2 ≤ refKind (t.rh 3)) ∧
    (let t := withH [(1, now 0x80000100), (2, old 0x80000080)] s
     ∃ s1 s2, barrier t t.seqWho (t.rh 1) = .ok (s1, now 0x80000100) ∧ barrier s1 t.seqWho (t.rh 2) = .ok (s2, now 0x80010000)) ∧
    (let t := withC [.h 1 (now 0x80000100), .h 2 (now 0x80000180)] s
     Unhindered t ∧
     ∀ k, t.enabled k = true → barrierRef t (coreWho t k) (t.rch k 1) = .ok (t.rch k 1) ∧ barrierRef t (coreWho t k) (t.rch k 2) = .ok (t.rch k 2)) := by
  refine ⟨by decide +kernel, by decide +kernel, by decide +kernel, by decide +kernel, by decide +kernel, by decide +kernel, by decide +kernel,
    givesOf (by decide +kernel), ⟨givesOf (by decide +kernel), by decide +kernel⟩, ⟨givesOf (by decide +kernel), homeSlot 4 0x80000080, by decide +kernel⟩,
    ⟨by decide +kernel, givesOf (by decide +kernel), ?_⟩, by decide +kernel, by decide +kernel,
    ⟨_, _, afterOf (by decide +kernel), afterOf (by decide +kernel)⟩, by unfold Unhindered; decide +kernel,
    fun k _ => ⟨givesOf (by revert k; decide +kernel), givesOf (by revert k; decide +kernel)⟩⟩
  exact ⟨_, (trapsOf (c := 0x0A) (by decide +kernel)).choose_spec.choose_spec⟩

/-- h1 is a stale reference to the moved object, h2 a current one, in the sequencer and in every core. -/
def hr : State := withC [.h 1 (old 0x80000080), .h 2 (now 0x80000100), .a 2 0x5000] (withH [(1, old 0x80000080), (2, now 0x80000100)] (withS [(2, 0x5000)] (hs two)))

/-- Behind the barrier of h1. -/
def hb : State := after (barrier hr hr.seqWho (hr.rh 1))

theorem wit_HeapLoadsAndStores :
    (barrier hr hr.seqWho (hr.rh 1) = .ok (hb, now 0x80010000) ∧ hr.rh 1 ≠ now 0x80010000) ∧
    (let ea := toWord (refAddr (now 0x80010000) + hr.extImm 6 0x1F * (8 : Nat))
     0 ≤ hr.extImm 6 0x1F * (8 : Nat) ∧ ea.toNat % 8 = 0 ∧ ea.toNat < 2 ^ 56 ∧ outstanding hr.cl hr.bankNo hr.cl.bank 8 .load < 32 ∧
       outstanding hr.cl hr.bankNo hr.cl.bank 8 .store < 32 ∧
       (∃ s1, locate hb hr.seqWho { href := true } ea 8 = .ok (s1, .mem 0x1000100F8)) ∧
       ∃ s1, locate hb hr.seqWho { write := true, href := true } ea 8 = .ok (s1, .mem 0x1000100F8)) ∧
    hr.extImm 6 0x20 * (8 : Nat) < 0 ∧ Unhindered hr ∧
    (∀ k, hr.enabled k = true → barrierRef hr (coreWho hr k) (hr.rch k 2) = .ok (hr.rch k 2)) ∧
    (CoresReach hr .load { href := true } (fun k => toWord (refAddr (hr.rch k 2) + hr.extImm 7 0x3F * (8 : Nat))) 8 (fun _ => .mem 0x1000002F8)) ∧
    (CoresReach hr .store { write := true, href := true } (fun k => toWord (refAddr (hr.rch k 2) + hr.extImm 7 0x3F * (8 : Nat))) 8 (fun _ => .mem 0x1000002F8)) ∧
    -- references in memory
    (∀ i : Fin 3, let v := if i = 0 then 0 else if i = 1 then now 0x80000100 else old 0x80000080
     let s := withMem [(0x80004F80, v)] hr
     let ea := toWord ((s.rs 2).toNat + 8 * (0x10 : BitVec 5).toInt)
     ea.toNat % 8 = 0 ∧ ea.toNat < 2 ^ 57 ∧ s.memOk ∧ MemoryQuiet s ∧ s.cl.opn.isSome ∧
       (∃ s1, locate s s.seqWho {} ea 8 = .ok (s1, .mem 0x80004F80) ∧
         (i = 2 → Reaches s1 s.seqWho { write := true } ea 8 (.mem 0x80004F80))) ∧
       s.mem.word 0x80004F80 = v ∧ (i = 0 → refKind v = 0) ∧ (i = 1 → barrierRef s s.seqWho v = .ok v) ∧
       (i = 2 → refKind v ≠ 0 ∧ barrierRef s s.seqWho v = .ok (now 0x80010000) ∧ now 0x80010000 ≠ v)) ∧
    (let s := withMem [(0x100010078, old 0x80000080)] hr
     let ea := toWord (refAddr (now 0x80010000) + 8 * (0x0F : BitVec 5).toInt)
     s.rh 1 ≠ now 0x80010000 ∧ barrierRef s s.seqWho (s.rh 1) = .ok (now 0x80010000) ∧ ea.toNat < 2 ^ 56 ∧ MemoryQuiet s ∧
       (∃ s1, locate s s.seqWho { href := true } ea 8 = .ok (s1, .mem 0x100010078) ∧
         Reaches s1 s.seqWho { write := true, href := true } ea 8 (.mem 0x100010078)) ∧
       barrierRef s s.seqWho (s.mem.word 0x100010078) = .ok (now 0x80010000) ∧ now 0x80010000 ≠ s.mem.word 0x100010078) ∧
    (∃ s0 s1 s2, barrier hr hr.seqWho (hr.rh 2) = .ok (s0, hr.rh 2) ∧ barrier s0 hr.seqWho (hr.rh 1) = .ok (s2, now 0x80010000) ∧
      locate s2 hr.seqWho { write := true, href := true } (toWord (refAddr (now 0x80010000) + 8 * (0x0F : BitVec 5).toInt)) 8 = .ok (s1, .mem 0x100010078)) ∧
    (let s := withMem [(0x80004F00, old 0x80000080)] (oneCore 7 hr)
     let ea := toWord ((s.ra 7 2).toNat + 8 * (0x20 : BitVec 6).toInt)
     OnlyCore s 7 ∧ refKind (s.mem.word 0x80004F00) ≠ 0 ∧ barrierRef s (coreWho s 7) (s.mem.word 0x80004F00) = .ok (now 0x80010000) ∧
       now 0x80010000 ≠ s.mem.word 0x80004F00 ∧ Reaches s (coreWho s 7) { write := true } ea 8 (.mem 0x80004F00)) ∧
    CoresReach hr .load {} (fun k => toWord ((hr.ra k 2).toNat + 8 * (0x20 : BitVec 6).toInt)) 8 (fun _ => .mem 0x80004F00) ∧
    CoresReach hr .store { write := true } (fun k => toWord ((hr.ra k 2).toNat + 8 * (0x20 : BitVec 6).toInt)) 8 (fun _ => .mem 0x80004F00) := by
  refine ⟨⟨afterOf (by decide +kernel), by decide +kernel⟩,
    ⟨by decide +kernel, by decide +kernel, by decide +kernel, by decide +kernel, by decide +kernel, findsOf (by decide +kernel), findsOf (by decide +kernel)⟩,
    by decide +kernel, by unfold Unhindered; decide +kernel, fun k _ => givesOf (by revert k; decide +kernel),
    coresReachOf (x := hf) (pa := fun _ => 0x1000002F8) (by decide +kernel),
    coresReachOf (x := hf) (pa := fun _ => 0x1000002F8) (by decide +kernel), ?_,
    ⟨by decide +kernel, givesOf (by decide +kernel), by decide +kernel, by unfold MemoryQuiet; decide +kernel,
      ⟨_, afterOf (by decide +kernel), reachesOf (x := hf) (by decide +kernel) (by decide +kernel) (by decide +kernel) (by decide +kernel)⟩,
      givesOf (by decide +kernel), by decide +kernel⟩,
    ⟨_, _, _, afterOf (by decide +kernel), afterOf (by decide +kernel), afterOf (by decide +kernel)⟩,
    ⟨by unfold OnlyCore; decide +kernel, by decide +kernel, givesOf (by decide +kernel), by decide +kernel,
      reachesOf (x := lf) (by decide +kernel) (by decide +kernel) (by decide +kernel) (by decide +kernel)⟩,
    coresReachOf (x := lf) (pa := fun _ => 0x80004F00) (by decide +kernel), coresReachOf (x := lf) (pa := fun _ => 0x80004F00) (by decide +kernel)⟩
  intro i
  refine ⟨by revert i; decide +kernel, by revert i; decide +kernel, ?_, ?_, rfl, ⟨_, afterOf (by revert i; decide +kernel), ?_⟩, by revert i; decide +kernel,
    by revert i; decide +kernel, ?_, ?_⟩
  · unfold State.memOk; revert i; decide +kernel
  · unfold MemoryQuiet; revert i; decide +kernel
  · rintro rfl
    exact reachesOf (x := lf) (by decide +kernel) (by decide +kernel) (by decide +kernel) (by decide +kernel)
  · rintro rfl; exact givesOf (by decide +kernel)
  · rintro rfl
    exact ⟨by decide +kernel, givesOf (by decide +kernel), by decide +kernel⟩

/-- The object of h2: length 1, n pins, on a page with m pins. -/
def pinned (n m : Nat) : State := withMem [(0x100000100, 1), (0x100000108, BitVec.ofNat 64 n), (0x17E00000000, BitVec.ofNat 64 m)] hr

/-- What `f` leaves in core after core. -/
def turns (s : State) (f : Fin 8 → State → Eff State) : Nat → State
  | 0 => s
  | n + 1 => if h : n < 8 then if s.enabled ⟨n, h⟩ then ((f ⟨n, h⟩ (turns s f n)).toOption).getD s else turns s f n else s

theorem inTurnOf {s : State} {f : Fin 8 → State → Eff State} (h : ∀ k : Fin 8, s.enabled k = true → isOk (f k (turns s f k.val)) = true) :
    ∃ t, InTurn s f t := by
  refine ⟨_, turns s f, rfl, rfl, fun k => ?_⟩
  split
  · obtain ⟨y, hy⟩ := okOf (h k ‹_›)
    simp only [turns, hy, k.isLt, dite_true, if_pos ‹s.enabled k = true›]; rfl
  · simp [turns, k.isLt, ‹¬s.enabled k = true›]

theorem pagesOf {s : State} {ref : Word} {pa : Nat} {cs : List Nat} (h :
    let n := refHeap ref
    let bytes := 128 * s.mem.read pa 4
    let off := refAddr ref - (heapWord s n 4).toNat
    0 < bytes ∧ refAddr ref + bytes ≤ (heapWord s n 4).toNat + (heapWord s n 5).toNat ∧
    cs = (List.range ((off % 65536 + bytes + 65535) / 65536)).map (fun i => (heapWord s n 6).toNat + 4 * (off / 65536 + i)) ∧
    ∀ c ∈ cs, c + 4 ≤ pa ∨ pa + 16 ≤ c) : PinPages s ref pa cs := h

theorem wit_PinsAreCounted :
    (∀ i : Fin 4, let s := State.released <| pinned (if i = 0 then 0xFFFFFFFE else if i = 1 then 1 else if i = 2 then 0 else 0xFFFFFFFF) (if i = 1 then 0xFFFFFFFF else 7)
      s.memOk ∧ MemoryQuiet s ∧ PinTarget s s.seqWho (s.rh 2) (now 0x80000100) 0x100000100 ∧ PinPages s (now 0x80000100) 0x100000100 [0x17E00000000] ∧
        (i = 0 → s.mem.read (0x100000100 + 8) 4 < 0xFFFFFFFF ∧ 0 < s.mem.read (0x100000100 + 8) 4 ∧ 0 < s.mem.read 0x17E00000000 4 ∧
          s.mem.read 0x17E00000000 4 ≠ 0xFFFFFFFF) ∧
        (i = 1 → 0 < s.mem.read (0x100000100 + 8) 4 ∧ s.mem.read 0x17E00000000 4 = 0xFFFFFFFF) ∧ (i = 2 → s.mem.read (0x100000100 + 8) 4 = 0) ∧
        (i = 3 → s.mem.read (0x100000100 + 8) 4 = 0xFFFFFFFF)) ∧
    (let s := hr
     PinTarget s s.seqWho (s.rh 2) (now 0x80000100) 0x100000100 ∧ s.mem.read 0x100000100 4 = 0) ∧
    (let s := State.released (oneCore 7 (pinned 1 1))
     OnlyCore s 7 ∧ PinTarget s (coreWho s 7) (s.rch 7 2) (now 0x80000100) 0x100000100 ∧ PinPages s (now 0x80000100) 0x100000100 [0x17E00000000] ∧
       s.mem.read (0x100000100 + 8) 4 < 0xFFFFFFFF ∧ 0 < s.mem.read (0x100000100 + 8) 4) ∧
    (let s := (pinned 7 9).modOpn fun o => { o with sampled := { o.sampled with coreEn := 0x81 } }
     (∃ t, InTurn s (fun k u => (pinObject u (coreWho s k) 2 true).map fun p => p.1.postCore k 1 (.a 3 p.2)) t) ∧
       ∃ t, InTurn s (fun k u => (pinObject u (coreWho s k) 2 false).map Prod.fst) t) := by
  have tgt {s : State} {w : Who} {r : Word} (h0 : gives (barrierRef s w r) (now 0x80000100) = true) (h1 : heldLeaf s w 0x80000100 = some hf)
      (h2 : gives (chkLeaf s w { write := true, href := true } hf 0x80000100) () = true) (h3 : gives (leafLoc w hf 0x80000100 16) 0x100000100 = true)
      (h4 : s.softWords = []) : PinTarget s w r (now 0x80000100) 0x100000100 := ⟨givesOf h0, reachesOf (x := hf) (by decide +kernel) h1 h2 h3 h4⟩
  refine ⟨fun i => ⟨?_, ?_, ?_, ?_, ?_⟩, ⟨?_, by decide +kernel⟩, ⟨by unfold OnlyCore; decide +kernel, ?_, ?_, by decide +kernel⟩,
    inTurnOf (by decide +kernel), inTurnOf (by decide +kernel)⟩
  · unfold State.memOk; revert i; decide +kernel
  · unfold MemoryQuiet; revert i; decide +kernel
  · exact tgt (by revert i; decide +kernel) (by revert i; decide +kernel) (by revert i; decide +kernel) (by revert i; decide +kernel)
      (by revert i; decide +kernel)
  · exact pagesOf (by revert i; decide +kernel)
  · revert i; decide +kernel
  · exact tgt (by decide +kernel) (by decide +kernel) (by decide +kernel) (by decide +kernel) (by decide +kernel)
  · exact tgt (by decide +kernel) (by decide +kernel) (by decide +kernel) (by decide +kernel) (by decide +kernel)
  · exact pagesOf (by decide +kernel)

/-! ### Witnesses: traps, TLBs, caches -/

theorem frameOf {s : State} {w : Who} {u : Use} {pa : Nat} {x : Leaf}
    (h : s.cl.bank.frame.toNat % 8 = 0 ∧ s.cl.bank.frame.toNat + 0x5C00 < 2 ^ 56 ∧ (s.cl.bank.frame.toNat + 0x800) % 65536 + 0x5400 ≤ 65536 ∧
      pa + 0x5400 ≤ Config.memTop) (h0 : isWindow (s.cl.bank.frame + 0x800) = false) (h1 : heldLeaf s w (s.cl.bank.frame + 0x800) = some x)
    (h2 : gives (chkLeaf s w u x (s.cl.bank.frame + 0x800)) () = true) (h3 : gives (leafLoc w x (s.cl.bank.frame + 0x800) 8) pa = true)
    (h4 : s.softWords = [] := by decide +kernel) : FrameAt s w u pa :=
  ⟨h.1, h.2.1, h.2.2.1, h.2.2.2, reachesOf h0 h1 h2 h3 h4⟩

theorem memOk_two : two.memOk := by unfold State.memOk; decide +kernel

theorem wit_TrapEntersTheHandler :
    (two.memOk ∧ Untraced two ∧ two.cl.bank.residual = none ∧ two.cl.opn = some two.opn ∧ tswInh two.opn.regs.tsw = false ∧ (0x15 : BitVec 8) ≠ 0x04 ∧
      7 < 8 ∧ two.opn.late = [] ∧ two.opn.next = none ∧ two.opn.branch = none ∧
      FrameAt (leaveSplit two 7 (coreCycle 1 two.opn.sampled.skew 7) (some 0x15)).1 two.seqWho { write := true } 0x80040800) ∧
    (let s := about 0 0 0 (bankWith (fun b => { b with pendTrap := some ⟨0x02, 0x1000, false⟩ }) (idle two))
     s.memOk ∧ Untraced s ∧ s.cl.bank.residual = none ∧ s.ev.c = s.cl.id ∧ s.cl.run.isSome ∧ s.cl.opn = none ∧
       s.cl.bank.pendTrap = some ⟨0x02, 0x1000, false⟩ ∧ tswInh s.cl.bank.tsw = false ∧ s.cl.bank.reenter = none ∧
       FrameAt s ⟨8, tswAsn s.cl.bank.tsw, tswSup s.cl.bank.tsw⟩ { write := true } 0x80040800) := by
  refine ⟨⟨memOk_two, by unfold Untraced; decide +kernel, rfl, rfl, by decide +kernel, by decide, by decide, rfl, rfl, rfl,
      frameOf (x := lf) (by decide +kernel) (by decide +kernel) (by decide +kernel) (by decide +kernel) (by decide +kernel)⟩, ?_,
    by unfold Untraced; decide +kernel, rfl, by decide +kernel, by decide +kernel, rfl, rfl, by decide +kernel, rfl,
    frameOf (x := lf) (by decide +kernel) (by decide +kernel) (by decide +kernel) (by decide +kernel) (by decide +kernel)⟩
  unfold State.memOk; decide +kernel

theorem wit_FaultsTrapsAndHaltLeaveTheBank :
    (two.cl.run = some 0 ∧ Untraced two ∧ two.cl.bank.pend = [] ∧ two.cl.opn = some two.opn ∧ 7 < 8 ∧ two.opn.late = [] ∧
      tswInh two.opn.regs.tsw = false) ∧
    (let s := two.modOpn fun o => { o with regs := { o.regs with tsw := 0x100 } }
     s.cl.run = some 0 ∧ Untraced s ∧ s.cl.bank.pend = [] ∧ s.cl.opn = some s.opn ∧ s.opn.late = [] ∧ tswInh s.opn.regs.tsw = true) ∧
    (let s := about 0 0 0 (bankWith (fun b => { b with pendTrap := some ⟨0x04, 0x1000, false⟩ }) (idle two))
     s.cl.run = some 0 ∧ Untraced s ∧ s.cl.bank.pend = [] ∧ s.ev.c = s.cl.id ∧ s.cl.bank.pendTrap = some ⟨0x04, 0x1000, false⟩ ∧
       tswInh s.cl.bank.tsw = false) ∧
    -- TRAP and BKPT before the last slot and at it, and HALT
    two.opn.idx + 1 < two.opn.slots.length ∧
    (let s := two.modOpn fun o => { o with idx := 1 }
     s.cl.opn = some s.opn ∧ s.opn.slots.length ≤ s.opn.idx + 1 ∧ s.memOk ∧ Untraced s ∧ tswInh s.opn.regs.tsw = false ∧
       FrameAt (closeWith (some 0x15) s) s.seqWho { write := true } 0x80040800 ∧ (closeWith (some 0x15) s).cl.bank.residual = none) ∧
    (let s := two.modOpn fun o => { o with endAct := some .halt }
     s.cl.opn = some s.opn ∧ s.cl.run = some 0 ∧ s.cl.bank.pend = [] ∧ Untraced s ∧ s.opn.late = [] ∧ s.opn.endAct = some .halt) := by
  refine ⟨⟨rfl, by unfold Untraced; decide +kernel, rfl, rfl, by decide, rfl, by decide +kernel⟩,
    ⟨rfl, by unfold Untraced; decide +kernel, rfl, rfl, rfl, by decide +kernel⟩,
    ⟨rfl, by unfold Untraced; decide +kernel, rfl, rfl, rfl, by decide +kernel⟩, by decide +kernel,
    ⟨rfl, by decide +kernel, by unfold State.memOk; decide +kernel, by unfold Untraced; decide +kernel, by decide +kernel,
      frameOf (x := lf) (by decide +kernel) (by decide +kernel) (by decide +kernel) (by decide +kernel) (by decide +kernel), by decide +kernel⟩,
    ⟨rfl, rfl, rfl, by unfold Untraced; decide +kernel, rfl, rfl⟩⟩

theorem wit_ReturnFromTrap :
    (two.cl.opn = some two.opn ∧ two.sup = false) ∧
    (let s := asSup (withMem [(0x80040810, 0xFF01)] two)
     s.cl.opn = some s.opn ∧ s.badWords = [] ∧ s.softWords = [] ∧ Untraced s ∧ FrameAt s s.seqWho {} 0x80040800 ∧
       FrameAt (ownView (drainAgent s s.bankNo 8) 8) s.seqWho {} 0x80040800 ∧ s.sup = true ∧
       (s.mem.word (0x80040800 + 16)).getLsbD 0 = true) ∧
    (let s := (asSup (withMem [(0x80040810, 0xFF02)] two)).modOpn fun o => { o with endAct := some (.rett 1) }
     s.cl.opn = some s.opn ∧ s.badWords = [] ∧ s.softWords = [] ∧ Untraced s ∧ FrameAt s s.seqWho {} 0x80040800 ∧
       FrameAt (ownView (drainAgent s s.bankNo 8) 8) s.seqWho {} 0x80040800 ∧ s.opn.endAct = some (.rett 1) ∧ s.opn.late = [] ∧ (s.mem.word (0x80040800 + 16)).getLsbD 1 = true) :=
  ⟨⟨rfl, by decide +kernel⟩,
    ⟨rfl, rfl, rfl, by unfold Untraced; decide +kernel,
      frameOf (x := lf) (by decide +kernel) (by decide +kernel) (by decide +kernel) (by decide +kernel) (by decide +kernel),
      frameOf (x := lf) (by decide +kernel) (by decide +kernel) (by decide +kernel) (by decide +kernel) (by decide +kernel),
      by decide +kernel, by decide +kernel⟩,
    ⟨rfl, rfl, rfl, by unfold Untraced; decide +kernel,
      frameOf (x := lf) (by decide +kernel) (by decide +kernel) (by decide +kernel) (by decide +kernel) (by decide +kernel),
      frameOf (x := lf) (by decide +kernel) (by decide +kernel) (by decide +kernel) (by decide +kernel) (by decide +kernel),
      rfl, rfl, by decide +kernel⟩⟩

/-- Page tables for the addresses below 2^31 of ASN 0. -/
def tabs (s : State) : State := { withMem [(0x1000, 0x100001), (0x100000, 0x200001), (0x200000, 0x8000000F)] s with rootBase := 0x1000 }

/-- The same, and the sequencer's TLB is empty. -/
def tables (s : State) : State := { tabs s with cl := { s.cl with tlb := [] } }

/-- An invalidation of every entry. -/
def inval : TlbInv := { id := 5, bank := 0, mode := 2, va := 0, asn := 0 }

theorem wit_TranslationsAndTlbs :
    (let s := about 8 0 0x5000 (tables two)
     s.ev.c = s.cl.id ∧ (∃ t l, translate s s.seqWho 0x5000 = .ok (t, l)) ∧
       (∃ t l, translate s ⟨Fin.ofNat 9 s.ev.a, tswAsn s.cl.bank.tsw, tswSup s.cl.bank.tsw⟩ s.ev.value = .ok (t, l)) ∧
       (∃ v g, translate s ⟨8, 0, false⟩ 0x100000000 = .error (.trap 0x04 v g)) ∧ s.ev.a < 9 ∧ (about 9 0 0 s).ev.a = 9) ∧
    -- TLBINV
    (two.cl.run = some 0 ∧ two.cl.bank.tlbinvs.length < 8 ∧ (asSup two).sup = true ∧ two.sup = false ∧
      ((withS [(1, 0xFFFFFFFFFF0000)] two).rs 1).toNat < 2 ^ 56 ∧ 2 ^ 56 ≤ ((withS [(1, 0x100000000000000)] two).rs 1).toNat) ∧
    (let s := about 5 0 0 { two with cl := { two.cl with invs := [inval] } }
     s.ev.c = s.cl.id ∧ s.cl.invs.find? (fun x => x.id = s.ev.a) = some inval ∧ inval.waits = none ∧ (∀ c, c ∈ s.clusters → c.liveOps inval.drops = []) ∧
       ¬∃ x ∈ s.cl.bank :: s.cl.banks.toList, ∃ o ∈ x.ops, inval.after.contains o.id = true ∧ o.storing = true) ∧
    (let v := { inval with after := [5] }
     let u := under (acc 8 (.store 9) .none) two
     let s := about 5 0 0 { u with cl := { u.cl with invs := [v] } }
     s.ev.c = s.cl.id ∧ s.cl.invs.find? (fun x => x.id = s.ev.a) = some v ∧
       ∃ x ∈ s.cl.bank :: s.cl.banks.toList, ∃ o ∈ x.ops, v.after.contains o.id = true ∧ o.storing = true) ∧
    -- TLBLK of 2^31, 2^21 and 2^16 bytes
    (∀ z : Fin 3, let s := withS [(1, if z = 2 then 0x80000000 else if z = 1 then 0x200000 else 0x10000), (2, 0x8000)] (tables two)
     let n := if z = 0 then 2 ^ 16 else if z = 1 then 2 ^ 21 else 2 ^ 31
     (s.rs 1).toNat < 2 ^ 56 ∧ (s.rs 1).toNat % n = 0 ∧ (s.rs 2).toNat < 2 ^ 56 ∧ (s.rs 2).toNat % n ≠ 0) ∧
    (let s := withS [(1, 0x200000000000000), (2, 0x100000000000000)] two
     2 ^ 57 ≤ (s.rs 1).toNat ∧ 2 ^ 56 ≤ (s.rs 2).toNat ∧ (s.rs 2).toNat < 2 ^ 57) ∧
    (∃ t l, walk (tables two) two.seqWho 0x10000 = .ok (t, l)) ∧
    (let c : CoreBank := { lock := Vector.replicate 8 (some ⟨0x200000, 0x200000, some lf⟩) }
     (1 : Fin 8) ≠ 0 ∧ (c.lockStep (.lock 0 ⟨0x10000, 0x10000, some lf⟩)).lock[1] = some ⟨0x200000, 0x200000, some lf⟩) := by
  refine ⟨⟨by decide +kernel, ?_, ?_, trapsOf (by decide +kernel), by decide +kernel, by decide +kernel⟩, by decide +kernel,
    ⟨by decide +kernel, by decide +kernel, rfl, ?_, ?_⟩, ⟨by decide +kernel, by decide +kernel, (under (acc 8 (.store 9) .none) two).cl.bank, ?_⟩, by decide +kernel, by decide +kernel, ?_,
    by decide +kernel⟩
  · obtain ⟨y, h⟩ := okOf (x := translate (about 8 0 0x5000 (tables two)) (about 8 0 0x5000 (tables two)).seqWho 0x5000) (by decide +kernel)
    exact ⟨y.1, y.2, h⟩
  · obtain ⟨y, h⟩ := okOf (x := translate (about 8 0 0x5000 (tables two)) ⟨8, 0, false⟩ 0x5000) (by decide +kernel)
    exact ⟨y.1, y.2, h⟩
  · decide +kernel
  · decide +kernel
  · decide +kernel
  · obtain ⟨y, h⟩ := okOf (x := walk (tables two) two.seqWho 0x10000) (by decide +kernel)
    exact ⟨y.1, y.2, h⟩

/-- s1 is the base of a run of lines, handle 63 is the one that is free. -/
def blk : State := bankWith (fun b => { b with handles := Vector.ofFn fun h : Fin 64 => if h.val = 63 then none else some ⟨some (0, 7), false⟩ })
  (withS [(1, 0x7FFFE000), (2, 63), (3, 64), (4, 0x7FFFE080)] two)

theorem wit_BlocksAndCacheMaintenance :
    (blk.memOk ∧ (blk.dbg blk.cl.id.die 0).getLsbD 2 = false) ∧
    ((blk.rs 1).toNat < 2 ^ 56 ∧ (blk.rs 1).toNat % 128 = 0 ∧ (∃ s1, findLeaf blk blk.seqWho (blk.rs 1) = .ok (s1, lf) ∧
       chkLeaf s1 blk.seqWho { nopin := true } lf (blk.rs 1) = .ok ()) ∧ leafLoc blk.seqWho lf (blk.rs 1) 128 = .ok 0xFFFFE000) ∧
    ((blk.rs 1).toNat + 128 * (63 + 1) ≤ lf.base + lf.size ∧ lf.base + lf.size < (blk.rs 4).toNat + 128 * (63 + 1)) ∧
    (blk.cl.bank.handles[63] = none ∧ ∀ j : Fin 64, j.val < 63 → blk.cl.bank.handles[j.val] ≠ none) ∧
    (∀ h : Fin 64, (bankWith (fun b => { b with handles := Vector.replicate 64 (some ⟨some (0, 7), true⟩) }) blk).cl.bank.handles[h.val] ≠ none) ∧
    ((blk.rs 2).toNat = 63 ∧ 64 ≤ (blk.rs 3).toNat) ∧
    (∀ o : Bool, let y : Block := { num := 7, first := 0x1000, lines := 2, ordinary := o }
     let s := about 7 0 0 (blk.setDie blk.cl.id.die { blk.die blk.cl.id.die with blocks := [y] })
     s.ev.c.die = s.cl.id.die ∧ ((s.die s.cl.id.die).blocks.find? fun z => z.num = s.ev.a && !z.done) = some y ∧
       s.cl.bank.handles[0] = some ⟨some (0, 7), false⟩ ∧ (s.dbg 0 0).getLsbD 2 = false ∧ y.gone = [] ∧ s.cl.id.die = 0 ∧ ∃ z ∈ (s.die 0).blocks, z.num = 7) ∧
    (∃ s1, checkRun blk.seqWho (runPages (0x7FFFE000 / 128 * 128) (63 + 1)) blk = .ok s1) ∧
    ((BitVec.ofNat 64 ((blk.rs 1).toNat / 128 * 128)).toNat % 65536 + 128 * (63 + 1) ≤ 65536 ∧
      0xFFFFE000 + 128 * (63 + 1) ≤ Config.memTop ∧
      ∃ s1, locate blk blk.seqWho { nopin := true } 0x7FFFE000 128 = .ok (s1, .mem 0xFFFFE000)) := by
  have hf : findLeaf blk blk.seqWho (blk.rs 1) = .ok (blk, lf) := by
    have h2 : lockOf blk blk.seqWho.agent (blk.rs 1) = none := by decide +kernel
    have h3 : (blk.cl.tlbOf blk.seqWho.agent).find? (fun l => l.matches blk.seqWho.asn (blk.rs 1)) = some lf := by decide +kernel
    unfold findLeaf Machine.translate
    rw [h2]; simp only []; rw [h3]
  have hc : chkLeaf blk blk.seqWho { nopin := true } lf (blk.rs 1) = .ok () := givesOf (by decide +kernel)
  have hl : leafLoc blk.seqWho lf (blk.rs 1) 128 = .ok 0xFFFFE000 := givesOf (by decide +kernel)
  refine ⟨⟨?_, by decide +kernel⟩, ⟨by decide +kernel, by decide +kernel, ⟨blk, hf, hc⟩, hl⟩, by decide +kernel, by decide +kernel, by decide +kernel, by decide +kernel,
    by decide +kernel, okOf (by decide +kernel), by decide +kernel, by decide +kernel, findsOf (by decide +kernel)⟩
  unfold State.memOk; decide +kernel

/-! ### Witnesses: vectors, packs and the array -/

/-- Every core samples VL = vl and VTYPE = vt; the cores' pools have 24 and 39 granules, with rows of 128 bytes. -/
def vec (vl vt : BitVec 16) (s : State) : State :=
  let u := s.modOpn fun o => { o with regs := { o.regs with coreVl := Vector.replicate 8 (vl, vt) }, sampled := { o.sampled with vl := vl, vtype := vt } }
  { u with cl := { u.cl with part := 0x00271801 } }

/-- 32-bit elements in groups of four registers. -/
def vq : State := vec 128 5 two

theorem legal_vq : VecLegal vq 2 [12, 8, 4] ∧ VecLegal vq 2 [8, 4] ∧ VecLegal vq 0 [12, 8] ∧ Wide vq := by
  unfold VecLegal Wide; exact ⟨by decide +kernel, by decide +kernel, by decide +kernel, by decide +kernel⟩

theorem wit_VectorLengthAndElements :
    bits (0x1D : BitVec 5) 2 1 ≠ 3 ∧ ((32 = 16 ∨ 32 = 32) ∧ (4 = 1 ∨ 4 = 2 ∨ 4 = 4) ∧ (12 : Fin 16).val % 4 = 0) ∧
    (List.replicate 128 (some 0xFFFFFFFF) : List ElemWrite).length * 32 = 1024 * 4 ∧ (11 : Fin 16).val < 12 ∧ 127 < 128 ∧
    (15 : Fin 16).val = 12 + 127 * 32 / 1024 ∧ (List.replicate 256 (some 1) : List ElemWrite).length = 256 ∧ 255 < 256 := by decide +kernel

theorem wit_VectorIntegerArithmetic : VecLegal vq 2 [12, 8, 4] ∧ Wide vq := ⟨legal_vq.1, legal_vq.2.2.2⟩
theorem wit_VectorFloatArithmetic : VecLegal vq 2 [12, 8, 4] ∧ Wide vq ∧
    (fmtOf 32).value 0x80000000 = .fin true 0 (-149) ∧ (fmtOf 32).value 0x80000001 = .fin true 1 (-149) ∧ (fmtOf 32).value 0x7F800000 = .inf false ∧
    ((fmtOf 32).value 0x7FC00000).isNaN = true :=
  ⟨legal_vq.1, legal_vq.2.2.2, by decide +kernel⟩
/-- VF2I of bf16 2.5, 3.5, -1 unsigned and 2^15 signed (R190): ties to even, and the two clamps. -/
theorem test_vf2i_ties_and_clamps : floatToInt 16 false false 0x4020 = (2, flNX) ∧ floatToInt 16 false false 0x4060 = (4, flNX) ∧
    floatToInt 16 true true 0xBF80 = (0, flNV ||| flSAT) ∧ floatToInt 16 false true 0x4700 = (0x7FFF, flNV ||| flSAT) := by decide +kernel
theorem wit_ComparesAndMasks : VecLegal vq 2 [8, 4] ∧ VecLegal vq 2 [12, 8, 4] := ⟨legal_vq.2.1, legal_vq.1⟩

/-- The largest finite value, and the value half a unit above it, which rounds to infinity. -/
theorem wit_RoundingIsToNearestEven :
    fp32 ∈ [fp32, bf16, e4m3, e5m2, e3m2, e2m1] ∧ fp32.value fp32.maxFin = .fin false (2 ^ 24 - 1) 104 ∧ (fp32.roundMag 1 0).1 ≤ fp32.maxFin ∧
    fp32.value 0x3F800001 = .fin false (2 ^ 23 + 1) (-23) ∧ 0x3F800001 ≤ fp32.maxFin ∧ 0x3F800001 ≠ (fp32.roundMag 1 0).1 ∧
    fp32.maxFin < (fp32.roundMag (2 ^ 25 - 1) 103).1 := by decide +kernel

theorem wit_ReductionsAndDotProducts : VecLegal vq 2 [12, 8, 4] ∧ Wide vq ∧ (1 : Fin 16).val < 2 ∧ [0, 3, 127] ≠ [] ∧ [0, 3, 127].Pairwise (· < ·) :=
  ⟨legal_vq.1, legal_vq.2.2.2, by decide⟩

/-- v9 holds `n` scales. -/
def scales (n : Nat) (s : State) : State := withC [.v 9 (BitVec.ofNat 1024 (n * 2 ^ 1016)) (BitVec.allOnes 1024)] s

theorem wit_PermutesMovesAndScales :
    (VecLegal (scales 4 vq) 2 [12, 8, 4] ∧ Wide (scales 4 vq)) ∧
    (∀ k, (scales 4 vq).enabled k = true → (min ((scales 4 vq).vcfg k).vl (256 * 2 ^ 2 * ((scales 4 vq).vcfg k).group / 32) + 31) / 32 ≤
      ((scales 4 vq).rv k 9).toNat / 2 ^ (8 * 127) % 256) ∧
    (OnlyCore (oneCore 7 (scales 3 vq)) 7 ∧ ((oneCore 7 (scales 3 vq)).rv 7 9).toNat / 2 ^ (8 * 127) % 256 <
      (min ((oneCore 7 (scales 3 vq)).vcfg 7).vl (256 * 2 ^ 2 * ((oneCore 7 (scales 3 vq)).vcfg 7).group / 32) + 31) / 32) := by
  unfold VecLegal Wide OnlyCore; decide +kernel

/-- a2 is the start of the scratchpad, a3 that of the accumulator store, a6 an address in memory; two elements of 32 bits, and index registers of
zeros. -/
def sp (vl : BitVec 16) : State := vec vl 1 (withC [.a 2 0x0100000000000000, .a 3 0x0110000000000000, .a 6 0x5000] two)

theorem wit_ScratchpadForms :
    (VecLegal (sp 2) 1 [12, 4] ∧ (∀ k : Fin 8, ((sp 2).cl.cores[k.val]).pend = []) ∧
      ∀ o ∈ (sp 2).cl.bank.ops, ∀ k : Fin 8, (sp 2).enabled k = true → o.agent.val ≠ k.val) ∧
    (∀ acc : Bool, ∀ k, (sp 2).enabled k = true → ∀ e ∈ activeList (sp 2) k 0 2,
      (toWord (((sp 2).ra k (if acc then 3 else 2)).toNat + (64 * (sp 2).extImm 6 0x1F + (e * (32 / 8) : Nat)))).toNat =
          2 ^ 56 + (if acc then 2 ^ 52 else 0) + (1984 + 4 * e) ∧ 1984 + 4 * e < shareSize (sp 2).cl.part acc ∧ (1984 + 4 * e) % (32 / 8) = 0) ∧
    (∀ k, (sp 2).enabled k = true → ∀ e ∈ activeList (sp 2) k 0 2,
      (toWord (((sp 2).ra k 2).toNat + e * (sp 2).extImm 6 0x1F * (32 / 8 : Nat))).toNat = 2 ^ 56 + (if false then 2 ^ 52 else 0) + 124 * e ∧
        124 * e < shareSize (sp 2).cl.part false ∧ 124 * e % (32 / 8) = 0) ∧
    (∀ k, (sp 2).enabled k = true → ∀ e ∈ activeList (sp 2) k 0 2,
      (toWord (((sp 2).ra k 2).toNat + ((sp 2).elem k 4 32 e * 2 ^ 3 : Nat))).toNat = 2 ^ 56 + (if false then 2 ^ 52 else 0) + 0) ∧
    -- an address outside the pool, and one that is not aligned
    (let s := withC [.a 7 0x0100000000000002] (oneCore 7 (sp 2))
     OnlyCore s 7 ∧ (activeList s 7 0 2).head? = some 0 ∧ (toWord ((s.ra 7 6).toNat + (64 * s.extImm 6 0 + (0 * (32 / 8) : Nat)))).toNat < 2 ^ 56 ∧
       (toWord ((s.ra 7 7).toNat + (64 * s.extImm 6 0 + (0 * (32 / 8) : Nat)))).toNat = 2 ^ 56 + (if false then 2 ^ 52 else 0) + 2 ∧
       2 < shareSize s.cl.part false ∧ 2 % (32 / 8) ≠ 0) ∧
    -- a store that its bundle commits
    (let x : LateWrite := { id := 1, agent := 7, loc := .pool two.cl.id 7 false 64, act := .put 9 4 }
     let s := two.modOpn fun o => { o with late := [x] }
     s.cl.opn = some s.opn ∧ s.opn.late = [x] ∧ x.loc = .pool s.cl.id 7 false 64 ∧ x.act = .put 9 4 ∧ s.cl.bank.ops = [] ∧
       (s.cl.cores[7]).pend = [] ∧ Mem.wf (s.cl.cores[7]).spad = true ∧ (6 : Fin 8) ≠ 7) := by
  unfold VecLegal OnlyCore; exact ⟨by decide +kernel, by decide +kernel, by decide +kernel, by decide +kernel, by decide +kernel, rfl, by decide +kernel⟩

theorem wit_GathersAndScatters :
    VecLegal (sp 2) 1 [12, 4] ∧
    (∀ k, (sp 2).enabled k = true → outstanding (sp 2).cl (sp 2).bankNo (sp 2).cl.bank (coreWho (sp 2) k).agent .load < 32 ∧
      outstanding (sp 2).cl (sp 2).bankNo (sp 2).cl.bank (coreWho (sp 2) k).agent .store < 32) ∧
    (∀ k, (sp 2).enabled k = true → activeList (sp 2) k 0 2 = [0, 1]) ∧
    (∀ k, ∀ e ∈ [0, 1], (toWord (((sp 2).ra k 6).toNat + ((sp 2).elem k 4 32 e * 4 : Nat))).toNat = 0x5000) ∧
    (∀ k, Reaches (sp 2) (coreWho (sp 2) k) { write := true } 0x5000 4 (.mem 0x80005000) ∧ Reaches (sp 2) (coreWho (sp 2) k) {} 0x5000 4 (.mem 0x80005000)) ∧
    (∀ k, (sp 0).enabled k = true → min ((sp 0).vcfg k).vl (256 * 2 ^ 1 * ((sp 0).vcfg k).group / ((sp 0).vcfg k).ew) = 0) ∧
    -- VLDFF: element 1 lies beyond the page
    (∀ k : Fin 8, (sp 2).opn.regs.coreVl[k.val] = ((sp 2).opn.sampled.vl, (sp 2).opn.sampled.vtype)) ∧
    (let s := oneCore 7 (withC [.a 6 0x7FFFFFFC] (tables (sp 2)))
     OnlyCore s 7 ∧ activeList s 7 0 2 = [0] ++ 1 :: [] ∧ toWord ((s.ra 7 6).toNat + (64 * s.extImm 6 0 + (1 * (32 / 8) : Nat))) = 0x80000000 ∧
       (∃ v g, corePlace s 7 {} 0x80000000 4 = .error (.trap 0x0B v g)) ∧
       Reaches s (coreWho s 7) {} 0x7FFFFFFC 4 (.mem 0xFFFFFFFC)) ∧
    (let s := oneCore 7 (withC [.a 6 0x80000000] (tables (sp 2)))
     OnlyCore s 7 ∧ activeList s 7 0 2 = [] ++ 0 :: [1] ∧ toWord ((s.ra 7 6).toNat + (64 * s.extImm 6 0 + (0 * (32 / 8) : Nat))) = 0x80000000 ∧
       s.untranslated 0x80000000 = false ∧ ∃ g, corePlace s 7 {} 0x80000000 4 = .error (.trap 0x0B 0x80000000 g)) ∧
    -- the porter
    (let s := withC [.a 8 0x0100000000000000, .a 9 0] (sp 2)
     (∀ k : Fin 8, s.enabled k = true → (s.ra k 8).toNat = 2 ^ 56 + 0 ∧ 0 < shareSize s.cl.part false ∧ 0 % 64 = 0 ∧
       ((s.cl.cores[k.val]).gathers.filter fun g => g.bank = s.bankNo).length < 32) ∧
     (∀ k : Fin 8, ∀ e ∈ List.range 64, 0 + 64 * ((s.rv k 1).toNat / 2 ^ (16 * e) % 2 ^ 16) + 128 ≤ shareSize s.cl.part false)) ∧
    (let s := oneCore 7 (withC [.a 8 0x0100000000000000, .a 9 0, .v 1 0x5FFF0000 (BitVec.allOnes 1024)] (sp 2))
     OnlyCore s 7 ∧ 1 ∈ List.range 64 ∧ ¬0 + 64 * ((s.rv 7 1).toNat / 2 ^ (16 * 1) % 2 ^ 16) + 128 ≤ shareSize s.cl.part false ∧
       ∀ j, j < 1 → 0 + 64 * ((s.rv 7 1).toNat / 2 ^ (16 * j) % 2 ^ 16) + 128 ≤ shareSize s.cl.part false) ∧
    (∀ i : Fin 2, let g : Gather := ⟨3, 0, true, 127, 256, [0, 64], i.val, [[(0, 9)], []]⟩
     let s := about 7 0 0 { two with cl := two.cl.setCore 7 { gathers := [g] } }
     s.ev.c = s.cl.id ∧ s.ev.a = 7 ∧ (s.cl.cores[7]).gathers = g :: [] ∧ g.srcs[g.next]? = some (64 * i.val) ∧ g.srcs.length ≤ 64 ∧
       g.olds.length = g.srcs.length ∧ (∀ r ∈ g.olds, ∀ p ∈ r, p.1 < g.width) ∧ (i = 0 → g.next + 1 < g.srcs.length) ∧
       (i = 1 → g.next + 1 = g.srcs.length)) := by
  refine ⟨by unfold VecLegal; decide +kernel, by decide +kernel, by decide +kernel, by decide +kernel,
    fun k => ⟨reachesOf (x := lf) (by revert k; decide +kernel) (by revert k; decide +kernel) (by revert k; decide +kernel) (by revert k; decide +kernel),
      reachesOf (x := lf) (by revert k; decide +kernel) (by revert k; decide +kernel) (by revert k; decide +kernel) (by revert k; decide +kernel)⟩,
    by decide +kernel, by decide +kernel, ⟨by unfold OnlyCore; decide +kernel, by decide +kernel, by decide +kernel, trapsOf (by decide +kernel),
      reachesOf (x := lf) (by decide +kernel) (by decide +kernel) (by decide +kernel) (by decide +kernel)⟩,
    ⟨by unfold OnlyCore; decide +kernel, by decide +kernel, by decide +kernel, by decide +kernel, trapAtOf (by decide +kernel)⟩, by decide +kernel,
    ⟨by unfold OnlyCore; decide +kernel, by decide +kernel⟩, by decide +kernel⟩

theorem wit_UnpackAndPack :
    (VecLegal (scales 4 vq) 0 [12, 8] ∧ Wide (scales 4 vq)) ∧
    (∀ k, (scales 4 vq).enabled k = true → 3 * 128 + min ((scales 4 vq).vcfg k).vl 128 ≤ 32 * ((scales 4 vq).vcfg k).group * 4) ∧
    (4 < 5 ∧ ∀ k, (scales 4 vq).enabled k = true → (min ((scales 4 vq).vcfg k).vl 128 + 31) / 32 ≤ ((scales 4 vq).rv k 9).toNat / 2 ^ (8 * 127) % 256) ∧
    -- past the group: of formats 0 and 4 with 16-bit and 32-bit elements
    (OnlyCore (oneCore 7 vq) 7 ∧ 32 * ((oneCore 7 vq).vcfg 7).group * 4 < 4 * 128 + min ((oneCore 7 vq).vcfg 7).vl 128 ∧
      32 * ((oneCore 7 vq).vcfg 7).group * 2 < 2 * 128 + min ((oneCore 7 vq).vcfg 7).vl 128) ∧
    (let s := oneCore 7 (vec 256 4 two)
     VecLegal s 0 [12, 8] ∧ OnlyCore s 7 ∧ 32 * (s.vcfg 7).group * 8 < 4 * (1024 * (s.vcfg 7).group / (s.vcfg 7).ew) + min (s.vcfg 7).vl 256 ∧
       1024 * (s.vcfg 7).group / (s.vcfg 7).ew = 256) ∧
    (127 < min (vq.vcfg 0).vl 128 ∧ min (vq.vcfg 0).vl 128 ≠ 0 ∧ vq.enabled 0 = true ∧ (11 : Fin 16).val < 12) := by
  unfold VecLegal Wide OnlyCore
  exact ⟨by decide +kernel, by decide +kernel, by decide +kernel, by decide +kernel, by decide +kernel, by decide +kernel⟩

/-- The cores' format, and the tags of the latches. -/
def array (fmt : BitVec 10) (l t : BitVec 8) (s : State) : State :=
  { s with cl := { s.cl with
      bank := { s.cl.bank with cores := Vector.replicate 8 { fmt := fmt } }
      cores := Vector.replicate 8 { leftTag := l, topTag := t, counters := [(16383, 0xFFFFFF)] } } }

theorem wit_BeatCountsAgreements :
    (∀ i : Fin 3, let s := array (if i = 0 then 0x155 else if i = 1 then 0x055 else 0) 0 (if i = 2 then 1 else 0) (oneCore 7 vq)
      ArrayQuiet s ∧ (∀ k : Fin 8, Cells.wf (s.cl.cores[k.val]).counters = true) ∧ OnlyCore s 7 ∧
        let f := (((s.cl.bank.cores[7]).fmt).toNat)
        let bad := (if (s.cl.cores[7]).leftTag.toNat = 0 then 0 else 1) + (if (s.cl.cores[7]).topTag.toNat = 1 then 2 else 0)
        f % 4 ≠ 2 ∧ (i = 0 → bad = 0 ∧ f / 64 % 4 ≠ 0 ∧ f / 256 % 4 ≠ 0) ∧ (i = 1 → bad = 0 ∧ f / 64 % 4 ≠ 0 ∧ f / 256 % 4 = 0) ∧ (i = 2 → bad ≠ 0)) ∧
    0xFFFFFF < (Cells.get ((array 0 0 0 vq).cl.cores[0]).counters (128 * 127 + 127)).toNat + 1 := by
  unfold ArrayQuiet OnlyCore; decide +kernel

theorem wit_ArraySlotsAndTheirRows :
    let s := withC [.a 1 4991, .a 2 127, .a 3 4984, .a 4 256, .a 5 128, .a 6 4985, .a 7 4992] (array 0 0 0 vq)
    let w := if partRf s.cl.part = 1 then 128 else 256
    let rows := partAcc s.cl.part * 128
    ArrayQuiet s ∧ afmtOk 2 2 2 2 1 = true ∧ afmtOk 0 0 0 0 3 = false ∧
    (∀ k, s.enabled k = true → (s.ra k 2).toNat < 8 * w / 4 ∧ (s.ra k 2).toNat < 128 ∧ (s.ra k 3).toNat + 8 ≤ rows ∧ (s.ra k 1).toNat < rows) ∧
    (OnlyCore (oneCore 7 s) 7 ∧ 8 * w / 4 ≤ ((oneCore 7 s).ra 7 4).toNat ∧ 128 ≤ ((oneCore 7 s).ra 7 5).toNat ∧ rows < ((oneCore 7 s).ra 7 6).toNat + 8 ∧
      rows ≤ ((oneCore 7 s).ra 7 7).toNat ∧ ((oneCore 7 s).ra 7 1).toNat < rows) ∧
    ((3 : Fin 4) ≠ 0 ∧ (2 : Fin 16) ≠ 0) ∧ ([2 ^ 31, -(2 ^ 31)] : List Int)[0]? = some (2 ^ 31) := by
  unfold ArrayQuiet OnlyCore; decide +kernel

/-- A record of one term: 128 rows and columns, scale 127. -/
def recOne (seed : Nat) : List Word := [0x7F01808001, 0, BitVec.ofNat 64 (0x3F8000000000 + seed)]

/-- Read-only raw pages. -/
def rf : Leaf := ⟨0, 2 ^ 31, 0x80000000, 0, false, false, false, true, 2⟩

/-- A record at 0x5000 in read-only pages, whose address is in a5 of every core; a6 is 0, a7 is 1, a8 127. -/
def br (seed : Nat) (s : State) : State :=
  let u := withC [.a 5 0x5000, .a 6 0, .a 7 1, .a 8 127] s
  { u with mem := Mem.setWords u.mem 0x80005000 (recOne seed), cl := { u.cl with cores := Vector.replicate 8 { tlb := [rf] } } }

/-- The term that a core selected. -/
def term1 (terms : Nat) : TermSel := ⟨bytesOfWords ([BitVec.ofNat 64 (0x7F00808001 + terms * 2 ^ 24), 0] ++ List.replicate 14 0x3F8000000001), 12, 0⟩

theorem wit_GeneratorsAndTerms :
    (0x10000 % 8 = 0 ∧ 0x10000 ≤ 0x10000 ∧ 0x10008 % 8 = 0 ∧ 0x10000 < 0x10008 ∧ 4 % 8 ≠ 0) ∧ (7 : Fin 8) ≠ 0 ∧
    (∀ i : Fin 3, let s := (br (if i = 1 then 0 else 1) (if i = 1 then oneCore 7 two else two)).modOpn fun o => { o with phase := if i = 2 then 0 else 1 }
      (s.opn.phase = 0 ↔ i = 2) ∧ (∃ k, s.enabled k = true) ∧ s.badWords = [] ∧ s.softWords = [] ∧ (s.dbg s.cl.id.die 0).getLsbD 2 = false ∧ ∀ k : Fin 8, s.enabled k = true →
        ((s.ra k 5).toNat < 2 ^ 56 ∧ (s.ra k 5).toNat % 128 = 0 ∧ (∀ o ∈ s.cl.bank.ops, o.agent ≠ ⟨k.val, by omega⟩)) ∧
        (heldLeaf s (coreWho s k) (s.ra k 5) = some rf ∧ chkLeaf s (coreWho s k) {} rf (s.ra k 5) = .ok () ∧ rf.cls = 2 ∧
          leafLoc (coreWho s k) rf (s.ra k 5) 128 = .ok 0x80005000) ∧
        recInvalid (s.mem.bytes 0x80005000 128) (s.ra k 6).toNat = none ∧ (i ≠ 1 → recSeed (s.mem.bytes 0x80005000 128) (s.ra k 6).toNat ≠ 0) ∧
        (i = 1 → recSeed (s.mem.bytes 0x80005000 128) (s.ra k 6).toNat = 0) ∧ recInvalid (s.mem.bytes 0x80005000 128) (s.ra k 7).toNat = some 7) ∧
    (let s := bankWith (fun b => { b with cores := Vector.replicate 8 { term := some (term1 14) } }) (br 1 two)
     (∀ k : Fin 8, s.enabled k = true → (s.cl.bank.cores[k.val]).term = some (term1 14)) ∧
       ((term1 14).term + 1 < recTerms (term1 14).record ∧ recSeed (term1 14).record ((term1 14).term + 1) ≠ 0) ∧
       ∀ k, s.enabled k = true → (s.ra k 8).toNat < recRows (term1 14).record) ∧
    (OnlyCore (oneCore 7 two) 7 ∧ ((oneCore 7 two).cl.bank.cores[7]).term = none) := by
  refine ⟨by decide, by decide, ?_, by decide +kernel, by unfold OnlyCore; decide +kernel⟩
  intro i
  refine ⟨by revert i; decide +kernel, by revert i; decide +kernel, by revert i; decide +kernel, by revert i; decide +kernel, by revert i; decide +kernel,
    fun k hk => ⟨by revert k; revert i; decide +kernel, ⟨by revert k; revert i; decide +kernel,
    givesOf (by revert k; revert i; decide +kernel), rfl, givesOf (by revert k; revert i; decide +kernel)⟩, by revert k; revert i; decide +kernel⟩⟩

/-! ### Witnesses: relocation, searches, barriers and the courier -/

/-- The relocation engine of heap 3. -/
def reloc3 (f : Reloc → Reloc) (s : State) : State := { s with relocs := s.relocs.set 3 (f s.relocs[3]) }

/-- STAT of heap 3 is x, s8 to s10 name sets and it, and its object at 2^31 + 0x80 has one line; a set of one member stands at 0x5000. -/
def rl (x : Word) (s : State) : State :=
  reloc3 (fun r => { r with stat := x }) (epoch3 (withS [(8, 0x5000), (9, 3), (10, 0x5100)]
    (withMem ([(Config.heapTable + 64 * 3 + 56, x), (0x100000080, 1), (0x80005000, 1), (0x80005008, now 0x80000080), (0x80005010, 0x80010000), (0x80005100, 9)] ++ heap3) s)))

/-- HFLIP completes. -/
def flips (s : State) (set : Word) (n : Fin 16) : Bool :=
  match flipCheck s set n with
  | .ok (s1, ms) => match flipEnter s1 n ms with | .ok t => !rangeBusy t n && decide (ms.length < 2 ^ 20) | .error _ => false
  | .error _ => false

theorem flipsOf {s : State} {set : Word} {n : Fin 16} (h : flips s set n = true) :
    ∃ s1 ms t, flipCheck s set n = .ok (s1, ms) ∧ flipEnter s1 n ms = .ok t ∧ rangeBusy t n = false ∧ ms.length < 2 ^ 20 := by
  unfold flips at h
  split at h
  · rename_i s1 ms hc
    split at h
    · rename_i t ht; exact ⟨s1, ms, t, hc, ht, by simp_all⟩
    · simp at h
  · simp at h

/-- An effect leaves memory and directory canonical. -/
def keeps (x : Eff State) : Bool :=
  match x with
  | .ok t => Mem.wf t.mem && Cells.wf t.lines
  | .error _ => false

theorem keepsOf {x : Eff State} (h : keeps x = true) : ∃ t, x = .ok t ∧ t.memOk := by
  unfold keeps at h
  split at h
  · rename_i t; exact ⟨t, rfl, by simpa [State.memOk] using h⟩
  · simp at h

/-- The slot of the entry of the object at 2^31 + 0x80. -/
def slot3 : Nat := homeSlot 4 0x80000080

/-- The engine of heap 3 runs, and its one entry, which goes to `new`, is PENDING, or COPYING where the engine is at it. -/
def engine (new : Nat) (cur : Option Nat) (raised : List Nat) : State :=
  let s := rl 0x0000000000010004 (withMem [(0x17D00000000 + 16 * slot3, if cur.isSome then 0x80000082 else 0x80000081)] two)
  about 3 0 0 (reloc3 (fun r => { r with running := true, news := [(slot3, new)], cur := cur, raised := raised }) s)

theorem wit_HeapsAreRelocated :
    -- RELOC
    (∀ x : Fin 3, let s := (rl (if x = 0 then 0x10000 else if x = 1 then 0x10004 else 0xC) two).modOpn fun o => { o with slots := [⟨0, some (op .reloc 9)⟩] }
      let n : Fin 16 := Fin.ofNat 16 (s.rs s.sole).toNat
      s.memOk ∧ (s.dbg s.cl.id.die 0).getLsbD 2 = false ∧ s.badWords = [] ∧ s.softWords = [] ∧ n = 3 ∧ heapEn s n = true ∧ heapOwner s n = s.asn ∧
        (x = 0 → bits (heapStat s n) 3 2 = 0 ∧ bits (heapStat s n) 35 16 ≠ 0) ∧ (x = 1 → bits (heapStat s n) 3 2 = 1) ∧
        (x = 2 → bits (heapStat s n) 3 2 = 3 ∧ bits (heapStat s n) 35 16 = 0)) ∧
    (let s := withMem [(Config.heapTable + 192, 0x0000000400070001)] (rl 0 two)
     heapEn s 3 = true ∧ heapOwner s 3 ≠ s.asn ∧ s.sup = false) ∧
    (∀ i : Instr, i = .reloc ∨ i = .hflip 8 9 →
     let s := (withS [(9, 4)] (rl 0 two)).modOpn fun o => { o with slots := [⟨0, some (op i 9)⟩] }
     s.slot.map Slot.op = some i ∧ s.sole = 9 ∧ (s.rs 9).toNat = 4 ∧ heapEn s 4 = false) ∧
    -- HFLIP
    (let s := rl 0 two
     s = commitLate s ∧ s.opn.phase = 0 ∧ heapEn s 3 = true ∧ heapOwner s 3 = s.asn ∧ storesDone s = true ∧ bits (heapStat s 3) 3 2 ≠ 1 ∧ bits (heapStat s 3) 3 2 ≠ 2 ∧
       (∃ s1 cnt, seqLoadNow s {} (s.rs 10) = .ok (s1, cnt) ∧ 2 ^ (heapTlog s 3 - 1) < cnt.toNat) ∧
       (∃ s1 ms t, flipCheck s (s.rs 8) 3 = .ok (s1, ms) ∧ flipEnter s1 3 ms = .ok t ∧ rangeBusy t 3 = false ∧ ms.length < 2 ^ 20) ∧
       s.cl.bank.ops = [] ∧ (heapWord s 3 (2 + (heapEpoch s 3 + 1) % 4 % 2)).toNat + 16 * 2 ^ heapTlog s 3 ≤ Config.heapTable) ∧
    -- RELOC_ENTRY: an entry, raised or not, becomes COPYING; none is left
    (∀ i : Fin 3, let s := engine 0x80010000 none (if i = 1 then [slot3] else [])
     let r := s.relocs[3]
     let base := forwardBase s 3 (heapEpoch s 3)
     let pend (j : Nat) : Bool := entryState (entryWord s base j 0) = 1
     (s.ev.a = 3 ∧ (s.dbg r.die 0).getLsbD 2 = false ∧ r.running = true ∧ r.parked = false ∧ r.cur = none ∧ base + 16 * (slot3 + 1) ≤ Config.heapTable) ∧
       (i = 0 → r.raised.find? pend = none ∧ slot3 < 2 ^ heapTlog s 3 ∧ pend slot3 = true ∧ ∀ j, j < slot3 → pend j = false) ∧
       (i = 1 → r.raised.find? pend = some slot3)) ∧
    (let s := about 3 0 0 (reloc3 (fun r => { r with running := true }) (rl 0x4 two))
     s.ev.a = 3 ∧ (s.relocs[3]).running = true ∧ (s.relocs[3]).parked = false ∧ (s.relocs[3]).cur = none ∧ (s.relocs[3]).raised = [] ∧
       ∀ j, j < 2 ^ heapTlog s 3 → entryState (entryWord s (forwardBase s 3 (heapEpoch s 3)) j 0) ≠ 1) ∧
    -- its copy, and faults of it
    (let s := engine 0x80010000 (some slot3) []
     (s.relocs[3]).cur = some slot3 ∧ ((s.relocs[3]).news.find? fun y => y.1 = slot3) = some (slot3, 0x80010000) ∧
       bits (entryWord s (forwardBase s 3 (heapEpoch s 3)) slot3 0) 55 6 * 64 = 0x80000080 ∧
       ∃ s2, copyObject (s.focus ⟨(s.relocs[3]).die, 0⟩) ⟨8, (s.relocs[3]).asn, (s.relocs[3]).sup⟩ 0x80000080 0x80010000 = .ok s2 ∧ s2.memOk) ∧
    (∃ v g, copyObject ((engine 0x100000000 (some slot3) []).focus ⟨0, 0⟩) ⟨8, 0, false⟩ 0x80000080 0x100000000 = .error (.trap 0x04 v g)) ∧
    (∃ v g, copyObject ((engine 0x10000 (some slot3) []).focus ⟨0, 0⟩) ⟨8, 0, false⟩ 0x80000080 0x10000 = .error (.trap 0x05 v g)) ∧
    -- copying an object
    (let s := engine 0x80010000 (some slot3) []
     let len := s.mem.read 0x100000080 4
     (0 < len ∧ 0x80000080 % 65536 + 128 * len ≤ 65536 ∧ 0x80010000 % 65536 + 128 * len ≤ 65536 ∧ 0x80000080 < 2 ^ 56 ∧ 0x80010000 < 2 ^ 56 ∧
       0x80000080 % 64 = 0 ∧ 0x80010000 % 128 = 0 ∧ 0x100000080 + 128 * len ≤ Config.memTop ∧ 0x100010000 + 128 * len ≤ Config.memTop ∧
       0x100000080 + 128 * len ≤ 0x100010000) ∧
       Reaches s s.seqWho { href := true } 0x80000080 8 (.mem 0x100000080) ∧
       Reaches s s.seqWho { href := true, write := true } 0x80010000 8 (.mem 0x100010000)) := by
  refine ⟨fun x => ⟨?_, by revert x; decide +kernel⟩, by decide +kernel, ?_, ⟨by decide +kernel, by decide +kernel, by decide +kernel, by decide +kernel, by decide +kernel,
    by decide +kernel, by decide +kernel, ?_, flipsOf (by decide +kernel), by decide +kernel, by decide +kernel⟩, by decide +kernel, by decide +kernel,
    ⟨by decide +kernel, by decide +kernel, by decide +kernel, keepsOf (by decide +kernel)⟩, trapsOf (by decide +kernel), trapsOf (by decide +kernel),
    by decide +kernel,
    reachesOf (x := hf) (by decide +kernel) (by decide +kernel) (by decide +kernel) (by decide +kernel),
    reachesOf (x := hf) (by decide +kernel) (by decide +kernel) (by decide +kernel) (by decide +kernel)⟩
  · unfold State.memOk; revert x; decide +kernel
  · rintro i (rfl | rfl) <;> exact ⟨rfl, by decide +kernel⟩
  · have h : (match seqLoadNow (rl 0 two) {} ((rl 0 two).rs 10) with | .ok z => decide (z.2 = 9) | .error _ => false) = true := by decide +kernel
    split at h
    · rename_i z hz
      exact ⟨z.1, 9, by rw [hz]; exact congrArg _ (Prod.ext rfl (by simpa using h)), by decide +kernel⟩
    · simp at h

/-- A search of a tile of rows × cols over `count` seeds from `first` on, with its result at `dst`: its parameters stand at 0x5000, and s9 holds their
address. -/
def ss (rows cols first count : Nat) (dst : Word) : State :=
  withS [(9, 0x5000)] (withMem [(0x80005000, 0x0120000000000000), (0x80005008, BitVec.ofNat 64 (rows + 256 * cols)),
    (0x80005010, BitVec.ofNat 64 (first + 2 ^ 32 * count)), (0x80005018, dst)] (vec 0 0 (st [0x81D00900])))

theorem wit_SeedSearches :
    (∀ i : Fin 5,
      let s := ss 128 (if i = 0 then 129 else 128) (if i = 2 then 0 else 0xFFFFFFFF) (if i = 1 then 2 else 1)
        (if i = 4 then 0x0120000000001004 else 0x0120000000001000)
      let p (j : Nat) : Word := s.mem.word (0x80005000 + 8 * j)
      let rows := (p 1).toNat % 256
      let cols := (p 1).toNat / 256 % 256
      let first := (p 2).toNat % 2 ^ 32
      let count := (p 2).toNat / 2 ^ 32
      MemoryQuiet s ∧ (s.rs s.sole).toNat % 8 = 0 ∧ (s.rs s.sole).toNat + 24 < 2 ^ 56 ∧
        (∀ j : Fin 4, Reaches s s.seqWho {} (s.rs s.sole + BitVec.ofNat 64 (8 * j.val)) 8 (.mem (0x80005000 + 8 * j.val))) ∧ (i = 0 → 128 < cols) ∧
        (i ≠ 0 → 1 ≤ rows ∧ rows ≤ 128 ∧ 1 ≤ cols ∧ cols ≤ 128 ∧ (p 1).toNat < 2 ^ 16) ∧ (i = 1 → 2 ^ 32 ≤ first + count - 1) ∧
        (2 ≤ i.val → 0 < count ∧ first + count ≤ 2 ^ 32) ∧ (i = 2 → first = 0) ∧ (i = 4 → (p 3).toNat % 8 ≠ 0) ∧
        (3 ≤ i.val → 0 < first ∧ kind2Run s s.seqWho (p 0) (rows * cols) = .ok () ∧ kind2Run s s.seqWho (p 3) 8 = .ok () ∧ s.cl.searches.length < 8 ∧
          windowLoc s s.seqWho s.cl.id none (p 0) = .ok (.pool ⟨0, 0⟩ 0 false 0) ∧ ((s.clusterAt ⟨0, 0⟩).cores[0]).pend = []) ∧
        (i = 3 → (p 3).toNat % 8 = 0)) ∧
    -- a search under way: before the target is read, with candidates left, and with none
    (∀ i : Fin 4, let x : Search := { id := 1, bank := 0, params := [0x0120000000000000, 0x0202, 0x0000000200000001, 0x0120000000001000], asn := 0, sup := false,
                                      olds := [1, 2, 3, 4], tile := if i = 0 then none else some [5, 6, 7, 8],
                                      next := i.val - 1, best := if i.val < 2 then none else some (1, 12) }
     let s := about 0 0 0 { ss 2 2 1 2 0 with cl := { (ss 2 2 1 2 0).cl with searches := [x] } }
     (s.ev.c = s.cl.id ∧ s.cl.searches = x :: [] ∧ ((s.clusterAt ⟨0, 0⟩).cores[0]).pend = [] ∧ (i = 0 → x.tile = none) ∧
       (i ≠ 0 → x.tile = some [5, 6, 7, 8]) ∧ (i = 1 → x.next < 2 ∧ x.best = none) ∧ (i = 2 → x.next < 2 ∧ x.best = some (1, 12)) ∧
       (i = 3 → 2 ≤ x.next ∧ x.best = some (1, 12))) ∧
       windowLoc s ⟨8, 0, false⟩ s.cl.id none 0x0120000000000000 = .ok (.pool ⟨0, 0⟩ 0 false 0) ∧
       windowLoc s ⟨8, 0, false⟩ s.cl.id none 0x0120000000001000 = .ok (.pool ⟨0, 0⟩ 0 false 0x1000)) := by
  refine ⟨fun i => ⟨?_, by revert i; decide +kernel, by revert i; decide +kernel,
    fun j => reachesOf (x := lf) (by revert j; revert i; decide +kernel) (by revert j; revert i; decide +kernel) (by revert j; revert i; decide +kernel)
      (by revert j; revert i; decide +kernel) (by revert i; decide +kernel),
    by revert i; decide +kernel, by revert i; decide +kernel, by revert i; decide +kernel, by revert i; decide +kernel, by revert i; decide +kernel,
    by revert i; decide +kernel, fun h => ?_, by revert i; decide +kernel⟩,
    fun i => ⟨by revert i; decide +kernel, givesOf (by revert i; decide +kernel), givesOf (by revert i; decide +kernel)⟩⟩
  · unfold MemoryQuiet; revert i; decide +kernel
  · exact ⟨by revert i; decide +kernel, givesOf (by revert i; decide +kernel), givesOf (by revert i; decide +kernel), by revert i; decide +kernel,
      givesOf (by revert i; decide +kernel), by revert i; decide +kernel⟩

/-- The barrier word of core 0, at its locator 0, is v; s1 names it, s2 is a count, s3 one that is too large, s4 a bad locator. -/
def bar (v : Word) : State :=
  let s := withS [(1, 0), (2, 0xFFFFFFFFFFFFFF), (3, 0x100000000000000), (4, 0x400000)] (vec 0 0 (st [0x81C40103]))
  { s with cl := s.cl.setCore 0 { spad := Mem.setWord [] 0 v } }

/-- The word, as a location. -/
def barAt : Loc := .pool ⟨0, 0⟩ 0 false 0

/-- A command of bank 0 whose barrier is that word, in error on it. -/
def onBar : Command :=
  { id := 7, bank := 0, send := false, tgt := 0, block := [0, 0, 0x80000], asn := 0, sup := false, state := .error, cause := 0x16, onBar := some barAt }

theorem wit_BarrierSlots :
    (7 * 2 ^ 19 + 0x2FFFF < 2 ^ 22 ∧ 8 * 0x2FFFF < shareSize (bar 0).cl.part false ∧ shareSize (bar 0).cl.part false ≤ 8 * 0x30000 ∧ 0x7FFFF < 2 ^ 19 ∧
      ((bar 0).clusterAt ⟨63, 7⟩).asn = (bar 0).asn ∧ 2 ^ 22 ≤ 2 ^ 31 - 1 ∧ 2 ^ 31 - 1 < 2 ^ 31) ∧ 5 ≤ (5 : Fin 8).val ∧ (4 : Fin 8).val < 5 ∧
    barrierLoc (bar 0) (bar 0).asn (bar 0).sup (((bar 0).rs 4).toNat % 2 ^ 32) = none ∧ barrierLoc (bar 0) (bar 0).asn (bar 0).sup (((bar 0).rs 1).toNat % 2 ^ 32) = some barAt ∧
    (2 ^ 56 ≤ ((bar 0).rs 3).toNat ∧ ((bar 0).rs 2).toNat < 2 ^ 56) ∧
    (∀ i : Fin 4, let v : Word := if i = 0 then 0x8000000000000000 else if i = 1 then 0x8000000000000001 else if i = 2 then 0 else 0xC000000000000000
     let s := (bar v).modOpn fun o => { o with slots := [⟨0, some (op .barwait 1)⟩] }
     let w : Word := BitVec.ofNat 64 ((ownView s 8).readLoc barAt 8)
     (∀ o ∈ s.cl.bank.ops, o.agent ≠ 8) ∧
       barrierLoc s s.asn s.sup ((s.rs s.sole).toNat % 2 ^ 32) = some barAt ∧ (i ≠ 3 → w.getLsbD 62 = false) ∧ (i = 3 → w.getLsbD 62 = true) ∧
       (i = 0 → w.getLsbD 63 = true ∧ bits w 55 0 = 0) ∧ (i = 1 → bits w 55 0 ≠ 0) ∧ (i = 2 → w.getLsbD 63 = false)) ∧
    (∀ told : Bool,
     let s := { bar 0xC000000000000000 with cl := { (bar 0xC000000000000000).cl with
       cmds := [{ onBar with id := 6, onBar := none }, onBar], barTold := if told then [(1, barAt, 5), (0, barAt, 7)] else [(1, barAt, 5)] } }
     let known := s.cl.cmds.filter fun x => x.bank = s.bankNo && decide (s.cl.accepted ≤ x.seq + 256)
     (told = false → (∀ p ∈ s.cl.barTold, p.1 = s.bankNo → p.2.1 ≠ barAt) ∧ (known.find? fun x => x.onBar = some barAt) = some onBar) ∧
       (told = true → (s.cl.barTold.find? fun p => p.1 = s.bankNo && p.2.1 = barAt) = some (0, barAt, 7) ∧
         (known.find? fun x => x.id = 7 && x.onBar = some barAt) = some onBar)) ∧
    -- at the end of the bundle
    (∀ act : Fin 2, let x : LateWrite := { id := 1, agent := 8, loc := barAt, act := if act = 0 then .barinit 3 2 false else .baradd (-3) }
     let s := (bar 0x8000000000000000).modOpn fun o => { o with late := [x] }
     s.cl.opn = some s.opn ∧ s.opn.late = [x] ∧ x.loc = barAt ∧ s.cl.bank.ops = [] ∧ (act = 0 → x.act = .barinit 3 2 false) ∧
       (act = 1 → x.act = .baradd (-3))) := by
  refine ⟨by decide +kernel, by decide, by decide, by decide +kernel, by decide +kernel, by decide +kernel, by decide +kernel, by decide +kernel,
    fun act => ⟨rfl, rfl, rfl, rfl, by revert act; decide, by revert act; decide⟩⟩

/-- A command block: one dimension of 4 doublewords from 0x6000 to 0x7000, with the bits `x` added to word 2. -/
def blkOf (x : Word) : List Word := [0x6000, 0x7000, 0xF1 + x, 0, 0x0000000800000004, 0x0000000000000800] ++ List.replicate 10 0

/-- The block stands at 0x5000 and s1 names it; `cmds` are known to the courier. -/
def cpy (x : Word) (cmds : List Command) : State :=
  let s := withS [(1, 0x5000), (2, 0x8000000000000007), (3, 7), (4, 0)] (withMem ((List.range 16).map fun j => (0x80005000 + 8 * j, wordAt (blkOf x) j)) (vec 0 0 two))
  { s with cl := { s.cl with cmds := cmds } }

/-- A command of bank 0. -/
def cmd (id : Nat) (st : CmdState) : Command := { id := id, seq := id, bank := 0, send := false, tgt := 0, block := blkOf 0, asn := 0, sup := false, state := st }

/-- Between bundles; the step concerns command 7. -/
def run (cmds : List Command) : State := about 7 0 0 (idle (cpy 0 cmds))

/-- A SENDH to cluster 0 of die 0. -/
def send (x : Command) : Command :=
  { x with send := true, tgt := 8, block := [0x6000, 0x0120000000000000, 0xF1, 0x8000, 0x0000000800000004, 0x0000000000000800] ++ List.replicate 10 0 }

/-- The block of a CPY that stores a checksum at an address that is not mapped. -/
def crcBlock : List Word := [0x6000, 0x7000, 0x400F1, 0x100000000, 0x0000000800000004, 0x0000000000000800] ++ List.replicate 10 0

theorem wit_CourierCommands :
    (∀ i : Fin 4, let s := cpy (if i = 0 then 0 else if i = 1 then 0xFFFFFFFFFFFFFFFF else if i = 2 then 0x80000 else 0x0040000000080000) []
      let ws := s.mem.words 0x80005000 16
      s.memOk ∧ MemoryQuiet s ∧ (s.rs 1).toNat % 128 = 0 ∧ (s.rs 1).toNat < 2 ^ 56 ∧
        (∀ j : Fin 16, Reaches s s.seqWho {} (s.rs 1 + BitVec.ofNat 64 (8 * j.val)) 8 (.mem (0x80005000 + 8 * j.val))) ∧
        (i ≠ 1 → cmdInvalid ws false 8 = none) ∧ (i = 1 → cmdInvalid ws false 8 = some 1) ∧
        (i = 2 → cmdBaren ws = true ∧ barrierLoc s s.asn s.sup (cmdBar ws) ≠ none) ∧ (i = 3 → cmdBaren ws = true ∧ barrierLoc s s.asn s.sup (cmdBar ws) = none) ∧
        (s.cl.cmds.filter Command.counts).length < 64 ∧ outstanding s.cl s.bankNo s.cl.bank 8 .copy < 32 ∧
        ∀ x ∈ s.cl.cmds, x.counts = true ∨ s.cl.accepted < x.seq + 256) ∧
    (((withS [(1, 0x5008)] (cpy 0 [])).rs 1).toNat < 2 ^ 56 ∧ ((withS [(1, 0x5008)] (cpy 0 [])).rs 1).toNat % 128 ≠ 0) ∧ 9 ≤ (9 : Fin 16).val ∧
    -- EQUI and ESTAT
    (let n (s : State) (st : CmdState) : Nat := (s.cl.cmds.filter fun x => x.bank = s.bankNo && x.state = st).length
     let knows (s : State) (x : Command) : Bool := x.bank = s.bankNo && decide (s.cl.accepted ≤ x.seq + 256)
     let s := cpy 0 [cmd 7 .parked]
     (n (cpy 0 [cmd 7 .queued]) .queued + n (cpy 0 [cmd 7 .queued]) .running = 1 ∧ s.opn.abandon = false ∧ n s .queued + n s .running = 0 ∧
       tswMcp s.cl.bank.tsw = false ∧ s.cl.bank.courierErrs = [] ∧
       (bankWith (fun b => { b with courierErrs := [(7, 0x16)] }) s).cl.bank.courierErrs = (7, 0x16) :: [] ∧
       tswMcp (bankWith (fun b => { b with tsw := 0x800 }) s).cl.bank.tsw = true) ∧
       (s.cl.cmds = [] ++ cmd 7 .parked :: [] ∧ knows s (cmd 7 .parked) = true ∧ (cmd 7 .parked).id = (s.rs 2).toNat % 2 ^ 16 ∧
         (s.rs 2).getLsbD 63 = true ∧ (s.rs 3).getLsbD 63 = false ∧ (s.rs 3).toNat % 2 ^ 16 ≠ 0 ∧ (cmd 7 .parked).slot < 16) ∧
       ((s.rs 4).getLsbD 63 = false ∧ (s.rs 4).toNat % 2 ^ 16 = 0 ∧ n s .parked < 256 ∧ n s .queued < 256 ∧ n s .running < 256 ∧ s.cl.nextCmd ≤ 0xFFFF ∧
         (∀ c ∈ s.cl.cmds, knows s c = true → c.id ≠ 6) ∧ (∀ c ∈ s.cl.cmds, c.id ≤ 0xFFFF) ∧ (∀ p ∈ s.cl.lastCmd, p.2 ≤ 0xFFFF) ∧
         ([((0 : Fin 8), 7)].find? fun p => p.1 = s.bankNo) = some (s.bankNo, 7))) ∧
    -- ECAN, without and with a barrier
    (let s := cpy 0 [cmd 6 .done, cmd 7 .parked]
     (s.cl.cmds.map Command.seq).Nodup ∧ ((s.cl.cmds.filter fun x => x.bank = s.bankNo && decide (s.cl.accepted ≤ x.seq + 256)).map Command.id).Nodup ∧
       ∀ c ∈ s.cl.cmds, c.barrier s = none ∧ (c.send && c.reserved) = false) ∧
    (∀ i : Fin 2, let c := if i = 0 then { cmd 7 .parked with block := blkOf 0x80000 } else { send (cmd 7 .parked) with reserved := true }
     let s := cpy 0 [cmd 6 .done, c]
     let knows (x : Command) : Bool := x.bank = s.bankNo && decide (s.cl.accepted ≤ x.seq + 256)
     c ∈ s.cl.cmds ∧ knows c = true ∧ c.state = .parked ∧ (s.cl.cmds.map Command.seq).Nodup ∧ ((s.cl.cmds.filter knows).map Command.id).Nodup ∧
       c.id = (s.rs 3).toNat % 2 ^ 16 ∧ (i = 0 → c.barrier s = some (.pool ⟨0, 0⟩ 0 false 0) ∧ (c.send && c.reserved) = false) ∧
       (i = 1 → c.send = true ∧ c.reserved = true)) ∧
    -- the courier's own steps
    (∀ st : CmdState, let s := run [cmd 6 .running, cmd 7 st, cmd 8 .queued]
      s.ev.c = s.cl.id ∧ s.ev.a = (cmd 7 st).seq ∧ s.cl.cmds = [cmd 6 .running] ++ cmd 7 st :: [cmd 8 .queued] ∧ (s.cl.cmds.map Command.seq).Nodup ∧
        s.cl.mayRun 7 = true) ∧
    (let s := run [cmd 6 .running, cmd 7 .queued, cmd 8 .queued]
     (∀ y ∈ [cmd 6 .running], y.state ≠ .queued) ∧ (s.cl.opn = none ∨ (cmd 7 .queued).order < s.opn.first) ∧ ownWrites s (cmd 7 .queued) = false ∧
       cmdAcq (cmd 7 .queued).block = false ∧ (cmd 7 .running).state ≠ .queued) ∧
    (let x := { cmd 7 .running with next := 3 }
     let s := run [x]
     (x.next < ((List.range (cmdNdim x.block)).map (cmdCount x.block)).prod ∧ x.send = false) ∧
       (∃ s1, cmdLocate s x {} (cmdAddrs x.block x.next).1 8 = .ok (s1, .mem 0x80006018) ∧ ∃ s2, cmdLocate s1 x { write := true } (cmdAddrs x.block x.next).2 8 =
         .ok (s2, .mem 0x80007018) ∧ s2.cl.cmds = s.cl.cmds ∧ s2.badWords = [] ∧ s2.softWords = [] ∧ s2.anyErrs = false ∧
         (s2.dbg s2.cl.id.die 0).getLsbD 2 = false) ∧ cmdBaren x.block = false ∧ cmdCrcen x.block = false) ∧
    (let x := { cmd 7 .running with block := [0x100000000, 0x7000, 0xF1, 0, 4, 0] }
     ∃ va g, cmdLocate (tables (run [x])) x {} (cmdAddrs x.block 0).1 8 = .error (.trap 0x04 va g)) ∧
    -- the 16th parked command, one more, and an error
    (let s := run ((List.range 15).map (fun i => { cmd (100 + i) .parked with slot := i }) ++ [cmd 7 .running])
     (15 < 16 ∧ (∀ j, j < 15 → ∃ y ∈ s.cl.cmds, y.state = .parked ∧ y.slot = j) ∧ (∀ y ∈ s.cl.cmds, y.state = .parked → y.slot ≠ 15)) ∧
       (0x05 : BitVec 8) ≠ 0x04 ∧ cmdBaren (cmd 7 .running).block = false) ∧
    (let s := run ((List.range 16).map (fun i => { cmd (100 + i) .parked with slot := i }) ++ [cmd 7 .running])
     ∀ j, j < 16 → ∃ y ∈ s.cl.cmds, y.state = .parked ∧ y.slot = j) ∧
    -- completion, with and without a checksum to store
    (let x := { send (cmd 7 .running) with next := 4, reserved := true }
     x.state = .running ∧ (run [x]).cl.mayRun x.seq = true ∧ ((List.range (cmdNdim x.block)).map (cmdCount x.block)).prod ≤ x.next ∧
       cmdCrcen x.block = false ∧ cmdCrcStore (run [x]) x = .ok (run [x]) ∧ x.send = true ∧ x.reserved = true ∧ { cmd 7 .running with next := 4 }.send = false) ∧
    (let x := { cmd 7 .running with next := 4, block := crcBlock }
     x.state = .running ∧ ((List.range (cmdNdim x.block)).map (cmdCount x.block)).prod ≤ x.next ∧ cmdCrcen x.block = true ∧
       ∃ v g, cmdCrcStore (run [x]) x = .error (.trap 0x04 v g)) ∧
    (let x := send (cmd 7 .running)
     let away : Shadow := ⟨0, x.asn, Vector.replicate 8 {}, Vector.replicate 8 {}, [], []⟩
     x.state = .running ∧ x.send = true ∧ x.reserved = false ∧ ((run [x]).clusterAt ⟨0, 0⟩).arrSlots < 16 ∧ ((run [x]).clusterAt ⟨0, 0⟩).away x.asn = false ∧
       16 ≤ ({ run [x] with cl := { (run [x]).cl with arrSlots := 16 } }.clusterAt ⟨0, 0⟩).arrSlots ∧
       ({ run [x] with cl := { (run [x]).cl with asn := 5, shadows := [away] } }.clusterAt ⟨0, 0⟩).away x.asn = true) ∧
    (let z : Arrival := ⟨0x8000, 0x0120000000000000, 32, 0, 5⟩
     let y : Arrival := ⟨0x8000, 0x0120000000000000, 32, 0, 0⟩
     let s := about 0 0 0 { idle two with cl := { (idle two).cl with arrivals := [z, y], arrSlots := 2, banks := Vector.ofFn fun i : Fin 8 => { state := if i.val = 7 then .dormant else .free } } }
     s.cl.arrivals = [z] ++ y :: [] ∧ (∀ w ∈ [z], w.ctx ≠ s.cl.asn) ∧ y.ctx = s.cl.asn ∧ (s.bankAt 7).state = .dormant ∧
       (∀ j : Fin 8, j.val < 7 → (s.bankAt j).state ≠ .dormant) ∧ s.cl.run ≠ none) := by
  refine ⟨fun i => ⟨?_, ?_, by revert i; decide +kernel, by revert i; decide +kernel,
    fun j => reachesOf (x := lf) (by revert j; revert i; decide +kernel) (by revert j; revert i; decide +kernel) (by revert j; revert i; decide +kernel)
      (by revert j; revert i; decide +kernel) (by revert i; decide +kernel),
    by revert i; decide +kernel⟩, by decide +kernel, by decide, by decide +kernel, by decide +kernel, by decide +kernel,
    fun st => by cases st <;> decide +kernel, by decide +kernel, ⟨by decide +kernel, ?_, by decide +kernel⟩, trapsOf (by decide +kernel),
    by decide +kernel, by decide +kernel, ⟨by decide +kernel, by decide +kernel, by decide +kernel, by decide +kernel, rfl, by decide +kernel⟩,
    ⟨by decide +kernel, by decide +kernel, by decide +kernel, trapsOf (by decide +kernel)⟩, by decide +kernel, by decide +kernel⟩
  · unfold State.memOk; revert i; decide +kernel
  · unfold MemoryQuiet; revert i; decide +kernel
  have h : ∀ (s : State) (va : Word) (u : Use) (w : Who) (pa : Nat), isWindow va = false → lockOf s w.agent va = none →
      (s.cl.tlbOf w.agent).find? (fun l => l.matches w.asn va) = some lf → chkLeaf s w u lf va = .ok () → leafLoc w lf va 8 = .ok pa →
      locate s w u va 8 = .ok (s, .mem pa) := by
    intro s va u w pa h0 h1 h2 h3 h4
    have h5 : pinChecked u lf = false := by unfold pinChecked; simp [lf]
    unfold locate findLeaf Machine.translate pinCorrect
    rw [h0, h1]; simp only [Bool.false_eq_true, if_false]; rw [h2]; simp only []; rw [h3]; simp only []; rw [h4, h5]; rfl
  refine ⟨run [{ cmd 7 .running with next := 3 }], ?_, run [{ cmd 7 .running with next := 3 }], ?_, rfl, by decide +kernel, by decide +kernel, by decide +kernel,
    by decide +kernel⟩
  · exact h (run [{ cmd 7 .running with next := 3 }]) 0x6018 {} ⟨8, 0, false⟩ 0x80006018 (by decide +kernel) (by decide +kernel) (by decide +kernel) (givesOf (by decide +kernel)) (givesOf (by decide +kernel))
  · exact h (run [{ cmd 7 .running with next := 3 }]) 0x7018 { write := true } ⟨8, 0, false⟩ 0x80007018 (by decide +kernel) (by decide +kernel) (by decide +kernel) (givesOf (by decide +kernel)) (givesOf (by decide +kernel))

/-! ### Witnesses: tasks, launches and faults -/

/-- A launch header of n tasks in one field of 7 bits. -/
def hd (n : Nat) (w7 w13 ctarget : Word) : List Word :=
  [0x1000, 0x5200, 0, 0x0000040000000007, BitVec.ofNat 64 n, 0, 0, 0xB000 + w7, 0, 0x00271801, 0x10000, 0x1000000, 24, w13, ctarget, 0]

/-- Words from a place on. -/
def at_ (pa : Nat) (ws : List Word) : List (Nat × Word) := (List.range ws.length).map fun j => (pa + 8 * j, wordAt ws j)

/-- A task record: CODE 0x1000, its frame at 0x400000, word 2 and PARENT. -/
def rec_ (w2 parent : Word) : List Word := [0x1000, 0x400000, w2, 0, 0x6000, parent, 0, 0]

/-- The running task's record is at 0x7000, with COUNT n, and another stands at 0x7100; r9 names that one. -/
def tk (n : Nat) (w2 : Word) (s : State) : State :=
  withS [(9, 0x7100), (10, 0x0120000000000000), (11, 0x7101), (12, 0x5040)]
    (withMem (at_ 0x80007000 (rec_ (BitVec.ofNat 64 n) 0) ++ at_ 0x80007100 (rec_ w2 0)) (tabs (bankWith (fun b => { b with trec := 0x7000, lrec := 0x6000, frame := 0x400000 }) s)))

/-- A header stands at 0x5000 and s9 names it. -/
def lh (h : List Word) : State := withS [(9, 0x5000)] (withMem (at_ 0x80005000 h) (st [0x80280905]))

/-- A record of the launch at 0x6000. -/
def ent (addr : Word) (since : Nat) : QEntry := ⟨addr, 0, 0x00271801, false, 0x6000, since⟩

/-- Level lv of queue q of die 0 holds the records l. -/
def withQ (q : Option (Fin 8)) (lv : Fin 4) (l : List QEntry) (s : State) : State :=
  s.setDie 0 ((s.die 0).setQueue q { levels := ((s.die 0).queue q).levels.set lv.val l lv.isLt })

/-- The level of a queue with n records. -/
theorem size_withQ (n : Nat) (s : State) : n ≤ (((withQ none 0 (List.replicate n (ent 0 0)) s).die 0).queue none).size := by
  have h (v : Vector (List QEntry) 4) : n ≤ Queue.size ⟨v.set 0 (List.replicate n (ent 0 0))⟩ := by
    obtain ⟨⟨l⟩, h⟩ := v
    match l, h with
    | [a, b, c, d], _ => simp [Queue.size]; omega
  simpa [withQ, State.setDie, State.die, Die.setQueue, Die.queue] using h _

/-- A bundle with nothing to commit at its end is as it was. -/
theorem commitLate_of {s : State} {o : OpenBundle} (h : s.cl.opn = some o) (hl : o.late = []) : commitLate s = s := by
  obtain ⟨cl⟩ := s
  obtain ⟨_⟩ := cl
  obtain ⟨_⟩ := o
  simp only at h hl
  subst h hl
  rfl

theorem wit_TaskSlots :
    (isWindow ((tk 0 0 two).rs 10) = true ∧ ((tk 0 0 two).rs 10).toNat < 2 ^ 57 ∧ ((tk 0 0 two).rs 11).toNat < 2 ^ 56 ∧ ((tk 0 0 two).rs 11).toNat % 64 ≠ 0 ∧
      ((tk 0 0 two).rs 12).toNat % 128 ≠ 0) ∧
    -- SPAWN
    (∀ i : Fin 2,
      let s := tk (if i = 0 then 0xFFFFFFFE else 0xFFFFFFFF) 0 (st [0x80280900])
      let ws := s.mem.words 0x80007100 8
      commitLate s = s ∧ s.memOk ∧ (s.badWords = [] ∧ s.softWords = [] ∧ (s.dbg s.cl.id.die 0).getLsbD 2 = false ∧ ∀ o ∈ s.cl.bank.ops, o.agent ≠ 8) ∧ (s.rs s.sole).toNat < 2 ^ 56 ∧ (s.rs s.sole).toNat % 64 = 0 ∧
        Reaches s s.seqWho { write := true } (s.rs s.sole) 64 (.mem 0x80007100) ∧ recKind ws = 0 ∧ recZeros ws = false ∧
        (∃ s1, engineCount s s.asn s.cl.bank.trec = .ok (s1, 0x80007000)) ∧ 0x80007000 + 64 ≤ 0x80007100 ∧ storesDone s = true ∧
        ((s.die s.cl.id.die).queue (queueOf (s.header s.cl.id.die s.cl.bank.lrec s.asn) (wordAt ws 6))).size < Config.queueRoom ∧
        s.mem.read (0x80007000 + 16) 4 = if i = 0 then 0xFFFFFFFE else 0xFFFFFFFF) ∧
    (let s := withQ none 0 (List.replicate Config.queueRoom (ent 0 0)) (tk 0 0 (st [0x80280900]))
     Config.queueRoom ≤ ((s.die s.cl.id.die).queue (queueOf (s.header s.cl.id.die s.cl.bank.lrec s.asn) (wordAt (s.mem.words 0x80007100 8) 6))).size ∧
       s.opn.abandon = false) ∧
    (recKind ((tk 0 0x1000000000 two).mem.words 0x80007100 8) ≠ 0 ∧ storesDone (under (acc 8 (.store 9) .none) two) = false ∧ two.opn.abandon = false) ∧
    -- LAUNCH
    (∀ i : Fin 5,
      let s := lh (hd (if i = 1 then 129 else 128) (if i = 2 then 0x100000000 else 0) (if 3 ≤ i then 2 else 0) (if 3 ≤ i then 0x7000 else 0))
      let s := { s with mem := s.mem.setWord 0x80007010 (if i = 3 then 0xFFFFFFFE else 0xFFFFFFFF) }
      let h := s.mem.words 0x80005000 16
      commitLate s = s ∧ MemoryQuiet s ∧ (s.rs s.sole).toNat < 2 ^ 56 ∧ (s.rs s.sole).toNat % 128 = 0 ∧
        (∀ j : Fin 16, Reaches s s.seqWho {} (s.rs s.sole + BitVec.ofNat 64 (8 * j.val)) 8 (.mem (0x80005000 + 8 * j.val))) ∧ s.launches.length < 64 ∧
        (i = 1 → hdrInvalid h s.sup true = some 0x22) ∧ (i ≠ 1 → hdrInvalid h s.sup true = none) ∧ (i = 2 → hdrAsn h ≠ s.asn ∧ s.sup = false) ∧
        (i ≠ 2 → hdrAsn h = s.asn) ∧ (i = 0 → hdrCkind h ≠ 2) ∧
        (3 ≤ i → hdrCkind h = 2 ∧ Reaches s s.seqWho { write := true } (hdrCtarget h) 64 (.mem 0x80007000)) ∧
        (i = 3 → s.mem.read (0x80007000 + 16) 4 < 0xFFFFFFFF) ∧ (i = 4 → s.mem.read (0x80007000 + 16) 4 = 0xFFFFFFFF)) ∧
    (let s := lh (hd 128 0 0 0)
     let s := { s with launches := List.replicate 64 { num := 1, hdr := 0x6000, asn := 0, collect := 0, sup := false, image := [] } }
     MemoryQuiet s ∧ hdrInvalid (s.mem.words 0x80005000 16) s.sup true = none ∧ s.opn.abandon = false ∧ 64 ≤ s.launches.length) ∧
    -- the ends of turns
    (two.cl.opn = some two.opn ∧ tswMcp two.cl.bank.tsw = false ∧ two.cl.bank.courierErrs = [] ∧
      (bankWith (fun b => { b with courierErrs := [(7, 0x12)] }) two).cl.bank.courierErrs = (7, 0x12) :: [] ∧
      tswMcp (bankWith (fun b => { b with tsw := 0x800 }) two).cl.bank.tsw = true) := by
  refine ⟨by decide +kernel, fun i => ⟨commitLate_of rfl rfl, ?_, by revert i; decide +kernel, by revert i; decide +kernel, by revert i; decide +kernel,
      reachesOf (x := lf) (by revert i; decide +kernel) (by revert i; decide +kernel) (by revert i; decide +kernel) (by revert i; decide +kernel)
        (by revert i; decide +kernel),
      by revert i; decide +kernel, by revert i; decide +kernel, findsOf (by revert i; decide +kernel), by decide, by revert i; decide +kernel,
      by revert i; decide +kernel, by revert i; decide +kernel⟩, ⟨size_withQ _ _, rfl⟩, by decide +kernel, fun i => ⟨commitLate_of rfl rfl, ?_, by revert i; decide +kernel, by revert i; decide +kernel,
      fun j => reachesOf (x := lf) (by revert j; revert i; decide +kernel) (by revert j; revert i; decide +kernel) (by revert j; revert i; decide +kernel)
      (by revert j; revert i; decide +kernel) (by revert i; decide +kernel),
      by revert i; decide +kernel, by revert i; decide +kernel, by revert i; decide +kernel, by revert i; decide +kernel, by revert i; decide +kernel,
      by revert i; decide +kernel, fun h => ⟨by revert i; decide +kernel, reachesOf (x := lf) ?_ ?_ ?_ ?_ ?_⟩, by revert i; decide +kernel, by revert i; decide +kernel⟩,
      by unfold MemoryQuiet; decide +kernel, rfl, by decide +kernel⟩
  · unfold State.memOk; revert i; decide +kernel
  · unfold MemoryQuiet; revert i; decide +kernel
  all_goals (revert i; decide +kernel)

/-- A save is of a task whose lodging lies at 0x400000, in the page of `lf`. -/
def lodges (s : State) (i : Fin 8) (reason : Nat) : Bool :=
  let r := s.resident i
  (s.cl.tlb.head? = some lf && tswAsn r.bank.tsw = 0 && s.badWords = [] && r.bank.frame = 0x400000 &&
    0x120000 + 8 * (partSpad r.part + partAcc r.part) * 0x10000 ≤ 2 ^ hdrFrsz (s.header s.cl.id.die r.bank.lrec (tswAsn r.bank.tsw)) &&
    (match blockRead s ⟨8, tswAsn r.bank.tsw, tswSup r.bank.tsw⟩ (r.bank.frame + 0x40) 128 with | .ok z => readExtents z.2 = [] | .error _ => false) &&
    ([(0, 8, [])] ++ lodgingBlocks r [] reason ++ [(0, 8, [(0, 1)])]).all fun b => b.1 % 8 = 0 && b.1 + b.2.1 ≤ 0x200000) &&
  Mem.wf s.mem && Cells.wf s.lines

theorem lodgesOf {s : State} {i : Fin 8} {reason : Nat} (h : lodges s i reason = true) :
    ∃ s3, saveTask s (s.resident i) reason = (s3, none) ∧ s3.memOk := by
  unfold lodges at h
  simp only [Bool.and_eq_true, decide_eq_true_eq, List.all_eq_true] at h
  obtain ⟨⟨⟨⟨⟨⟨⟨⟨h1, h2⟩, h3⟩, h4⟩, h5⟩, h6⟩, h7⟩, h8⟩, h9⟩ := h
  have hc : Covered s ⟨8, tswAsn (s.resident i).bank.tsw, tswSup (s.resident i).bank.tsw⟩ lf 0 (2 ^ 31) := by
    refine ⟨rfl, ?_, .inr h2.symm, by decide, by decide, by decide, rfl, rfl, rfl, by decide⟩
    cases ht : s.cl.tlb with
    | nil => simp [ht] at h1
    | cons x y => exact ⟨y, by simp [ht] at h1; rw [h1]⟩
  obtain ⟨s1, m, hm, he, _⟩ := blockRead_covered (va := (s.resident i).bank.frame + 0x40) (len := 128) hc h3 (by rw [h4]; unfold Inside; decide)
  rw [hm] at h6
  obtain ⟨t, ht⟩ := saveTask_covered hc hm he (by simpa using h6) h5 (by
    intro b hb
    have := h7 b hb
    rw [h4]
    have e := word_add (va := 0x400000) (n := b.1) (by simp; omega)
    unfold Inside
    rw [e]
    simp
    omega)
  have k := saveTask_canon ht
  exact ⟨t, ht, k.mem h8, k.lines h9⟩

/-- What a save answers, where it fails, and that memory is then in its canonical form. -/
def fails (x : State × Option SaveFail) (c : BitVec 8) : Bool := (x.2.map SaveFail.code) = some c && Mem.wf x.1.mem && Cells.wf x.1.lines

theorem failsOf {x : State × Option SaveFail} {c : BitVec 8} (h : fails x c = true) : ∃ s3 f, x = (s3, some f) ∧ f.code = c ∧ s3.memOk := by
  rcases x with ⟨s3, f⟩
  simp [fails] at h
  obtain ⟨⟨⟨g, rfl, e⟩, m⟩, l⟩ := h
  exact ⟨s3, g, rfl, e, m, l⟩

/-- The bundle that ends the turn of a task with COUNT n, of a launch with 2^z bytes of lodging. -/
def turn (n z : Nat) : State :=
  { tk n 0 two with launches := [{ num := 1, hdr := 0x6000, asn := 0, collect := 0, sup := false, image := (hd 128 0 0 0).set 12 (BitVec.ofNat 64 z) }] }

/-- The bundle of `s` ends the turn. -/
def ends (a : EndAct) (s : State) : State := s.modOpn fun o => { o with endAct := some a }

/-- Its task's record is reached. -/
def found (a : EndAct) (s : State) : Eff (State × Nat) :=
  match a with
  | .join _ => engineCount (ends a s) 0 0x7000
  | _ => engineLoc (ends a s) 0 0x7000 64 true true

/-- The state in which the task is saved, at SUSPEND (2), JOIN (3) or EXIT (4). -/
def saving (a : EndAct) (reason : Nat) (s : State) : State :=
  let s1 := after (found a s)
  let o := s.opn
  let closed := closeBundle s1
  let code := if reason = 4 then o.pc else closed.cl.bank.pc
  let left := (if reason = 4 then leaveBundle s1 o.idx else closed).deliver
  let stepped := left.modBank fun b =>
    { b with pendTrap := some ⟨0x14, 0, false⟩, reenter := some { slot := 0, snap := none, guards := o.guards, sampled := o.sampled } }
  (if reason ≠ 4 ∧ (tswSs o.regs.tsw && !tswInh o.regs.tsw) = true then stepped else left).modBank fun b => { b.leaveResidual with pc := code }

/-- The bundle's task is single-stepped. -/
def stepping (s : State) : State := s.modOpn fun o => { o with regs := { o.regs with tsw := 0x400 } }

theorem calm_turn : Untraced (turn 1 24) ∧ Calm (turn 1 24) := by unfold Untraced Calm; decide +kernel

theorem wit_EndsOfTurns :
    (Untraced (turn 1 24) ∧ Calm (turn 1 24) ∧ (turn 1 24).cl.bank.pend = [] ∧ (turn 1 24).cl.bank.reenter = none ∧
      (∀ h : Fin 64, (turn 1 24).cl.bank.handles[h] = none) ∧ (turn 1 24).cl.run = some 0 ∧ (turn 1 24).cl.opn = some (turn 1 24).opn ∧
      (turn 1 24).cl.arrivals = [] ∧ (turn 1 24).cl.select = none ∧ (tswSs (turn 1 24).opn.regs.tsw && !tswInh (turn 1 24).opn.regs.tsw) = false ∧
      (let o := (stepping (turn 1 24)).opn
       (tswSs o.regs.tsw && !tswInh o.regs.tsw) = true)) ∧
    ({ (turn 1 24).cl with banks := Vector.ofFn fun i : Fin 8 => { state := if i.val < 6 then .free else .ready, prio := Fin.ofNat 4 i.val } }.select = some 7) ∧
    -- the record, and its COUNT
    (∀ n : Fin 2, (∃ s1, found (.suspend 0) (turn n.val 24) = .ok (s1, 0x80007000)) ∧ (∃ s1, found (.join 0) (turn n.val 24) = .ok (s1, 0x80007000)) ∧
      ∃ s1, found (.exit 0) (turn n.val 24) = .ok (s1, 0x80007000) ∧ bits (s1.mem.word (0x80007000 + 16)) 31 0 = n.val) ∧
    -- the save
    (∃ s3, saveTask (saving (.suspend 0) 2 (turn 1 24)) ((saving (.suspend 0) 2 (turn 1 24)).resident 0) 2 = (s3, none) ∧ s3.memOk) ∧
    (∃ s3, saveTask (saving (.suspend 0) 2 (stepping (turn 1 24))) ((saving (.suspend 0) 2 (stepping (turn 1 24))).resident 0) 2 = (s3, none) ∧ s3.memOk) ∧
    (∃ s3, saveTask (saving (.join 0) 3 (turn 1 24)) ((saving (.join 0) 3 (turn 1 24)).resident 0) 3 = (s3, none) ∧ s3.memOk) ∧
    (∃ s3 f, saveTask (saving (.exit 0) 4 (turn 1 20)) ((saving (.exit 0) 4 (turn 1 20)).resident 0) 4 = (s3, some f) ∧ f.code = 0x31 ∧ s3.memOk) ∧
    -- EXIT with no parent, and with one
    (let s1 := after (found (.exit 0) (turn 0 24))
     bits (s1.mem.word (0x80007000 + 16)) 31 0 = 0 ∧ s1.mem.word (0x80007000 + 40) = 0 ∧ ∃ l, s1.launchOf (turn 0 24).cl.bank.lrec 0 = some l) ∧
    (let s1 := after (found (.exit 0) (withMem [(0x80007028, 0x7100)] (turn 0 24)))
     s1.mem.word (0x80007000 + 40) = 0x7100 ∧ ∃ s4, engineCount s1 0 (s1.mem.word (0x80007000 + 40)) = .ok (s4, 0x80007100)) := by
  refine ⟨⟨calm_turn.1, calm_turn.2, rfl, rfl, by decide +kernel, rfl, rfl, rfl, by decide +kernel⟩, by decide +kernel,
    fun n => ⟨findsOf (by revert n; decide +kernel), findsOf (by revert n; decide +kernel), after (found (.exit 0) (turn n.val 24)), afterOf (by revert n; decide +kernel),
      by revert n; decide +kernel⟩, lodgesOf (by decide +kernel), lodgesOf (by decide +kernel), lodgesOf (by decide +kernel), failsOf (by decide +kernel),
    ⟨by decide +kernel, by decide +kernel, Option.isSome_iff_exists.mp (by decide +kernel)⟩, by decide +kernel, findsOf (by decide +kernel)⟩

/-! ### Witnesses: records, contexts and launches -/

/-- Launch 1 of 128 tasks, of the header at 0x6000, is in flight. -/
def flying (s : State) : State := { s with launches := [{ num := 1, hdr := 0x6000, asn := 0, collect := 0, sup := false, image := hd 128 0 0 0 }] }

/-- A record of KIND k at 0x7000 is at level 2 of the shared queue, in front of one of level 1. -/
def offered (k : Nat) (s : State) : State :=
  about 0 0 0 (flying (withQ none 2 [ent 0x7000 100] (withQ (some 0) 1 [ent 0x7040 100] (withMem (at_ 0x80007000 ((rec_ (BitVec.ofNat 64 (k * 2 ^ 36)) 0).set 4 0x6000))
    (tabs (idle s))))))

/-- No bank runs. -/
def bare (s : State) : State := { s with cl := { s.cl with run := none, bank := {}, opn := none } }

/-- The cluster's pool is of the partition word of `hd`. -/
def parted (s : State) : State := { s with cl := { s.cl with part := 0x00271801 } }

theorem wit_RecordsAreTaken :
    (offered 0 two).ev.c = (offered 0 two).cl.id ∧
    -- the next record, of the shared queue and of the cluster's own
    (nextRecord (offered 0 (parted two)) (offered 0 (parted two)).cl = some (ent 0x7000 100, none, 2) ∧
      nextRecord (withQ none 2 [] (offered 0 (parted two))) (offered 0 (parted two)).cl = some (ent 0x7040 100, some 0, 1) ∧
      nextRecord (offered 0 two) (offered 0 two).cl = none ∧ { (offered 0 two).cl with preempt := some none }.preempt ≠ none) ∧
    -- each KIND, into a pool of the same tenant and of another
    (∀ (k : Fin 16) (x : Bool), let s := offered k.val (if x then parted two else bare two)
      let i : Fin 8 := if x then 1 else 0
      s.cl.preempt = none ∧ nextRecord s s.cl = some (ent 0x7000 100, none, 2) ∧ freeBankFor s.cl (0x00271801 : BitVec 32) = some i ∧
        (let x := engineLoc (s.dequeue 0 none 2 (ent 0x7000 100)) 0 0x7000 64 true false
         x = .ok (after x, 0x80007000) ∧ recKind ((after x).mem.words 0x80007000 8) = k.val) ∧
        (s.cl.part = 0x00271801 ∧ s.cl.asn = 0 ↔ x = true)) ∧
    -- a record that cannot be read
    (let e := ent 0x100000000 100
     let s := withQ none 2 [e] (offered 0 (bare two))
     s.cl.preempt = none ∧ nextRecord s s.cl = some (e, none, 2) ∧ freeBankFor s.cl e.part = some 0 ∧
       ∃ v a, engineLoc (s.dequeue 0 none 2 e) e.asn e.addr 64 true false = .error (.trap 0x04 v a)) := by
  refine ⟨by decide +kernel, by decide +kernel, fun k x => ⟨?_, ?_, ?_, ⟨afterOf ?_, ?_⟩, ?_⟩,
    by decide +kernel, by decide +kernel, by decide +kernel, trapsOf (by decide +kernel)⟩ <;> revert k <;> cases x <;> decide +kernel

theorem refusesOf {x : State × Option SaveFail} {c : BitVec 8} (h : x.2.map SaveFail.code = some c) : ∃ s1 f, x = (s1, some f) ∧ f.code = c := by
  rcases x with ⟨s1, f⟩
  simp at h
  obtain ⟨g, rfl, e⟩ := h
  exact ⟨s1, g, rfl, e⟩

/-- The restore of bank 1. -/
def restored (s : State) : State × Option SaveFail :=
  let s0 := after (engineLoc s 0 0x7000 64 true false)
  let ws := s0.mem.words 0x80007000 8
  let h := s.header 0 (wordAt ws 4) 0
  restoreTask s0 1 ⟨0x7000, 0, hdrPart h, hdrQclass h, wordAt ws 4, 0⟩ ws h

/-- The lodging lies at 0x400000, in the page of `lf`, and can be restored. -/
def restorable (s : State) : Bool :=
  let s0 := after (engineLoc s 0 0x7000 64 true false)
  let ws := s0.mem.words 0x80007000 8
  let h := s.header 0 (wordAt ws 4) 0
  s0.cl.tlb.head? = some lf && wordAt ws 1 = 0x400000 &&
  match readBlocks (engineWho 0) (wordAt ws 1) [(0, 0xC0)] [] s0 with
  | .error _ => false
  | .ok (s1, m) => decide (s1.cl.tlb = s0.cl.tlb) && decide (s1.badWords = []) && (m.word 0).getLsbD 0 && decide (bits (m.word 8) 7 0 = 1) &&
    decide (BitVec.ofNat 32 (m.word 16).toNat = hdrPart h) && decide (readExtents (m.shift 0x40 0xC0) = []) &&
    ((if (m.word 8).getLsbD 41 then [(0x800, frameLen)] else []) ++ [(0x6000, 0x1000), (0x7000, 160 * bits (m.word 8) 30 24),
      (0x9800, 64 * bits (m.word 8) 35 32), (0x10000, 0x8000), (0x20000, 0x100000)]).all fun b => decide (b.1 % 8 = 0) && decide (b.1 + b.2 ≤ 0x200000)

theorem restorableOf {s : State} (h : restorable s = true) : ∃ s1, restored s = (s1, none) := by
  unfold restorable at h
  simp only [Bool.and_eq_true, decide_eq_true_eq] at h
  obtain ⟨⟨h1, h2⟩, h3⟩ := h
  have hc : Covered (after (engineLoc s 0 0x7000 64 true false)) (engineWho 0) lf 0 (2 ^ 31) := by
    refine ⟨rfl, ?_, .inr rfl, by decide, by decide, by decide, rfl, rfl, rfl, by decide⟩
    cases ht : (after (engineLoc s 0 0x7000 64 true false)).cl.tlb with
    | nil => rw [ht] at h1; cases h1
    | cons x y => rw [ht] at h1; exact ⟨y, by rw [Option.some.inj h1]⟩
  unfold restored
  cases hr : readBlocks (engineWho 0) (wordAt ((after (engineLoc s 0 0x7000 64 true false)).mem.words 0x80007000 8) 1) [(0, 0xC0)] []
      (after (engineLoc s 0 0x7000 64 true false)) with
  | error c => rw [hr] at h3; cases h3
  | ok z =>
    obtain ⟨s1, m⟩ := z
    rw [hr] at h3
    simp only [Bool.and_eq_true, decide_eq_true_eq, List.all_eq_true] at h3
    obtain ⟨⟨⟨⟨⟨⟨a, b⟩, c⟩, d⟩, e⟩, f⟩, g⟩ := h3
    refine restoreTask_covered hc hr a b c d e f (by rw [h2]; unfold Inside; decide) fun x hx => ?_
    rw [h2]
    have hs := g x hx
    have e := word_add (va := 0x400000) (n := x.1) (by simp; omega)
    unfold Inside
    rw [e]
    simp
    omega

/-- Bank 1 is to be restored from the record at 0x7000, whose lodging has header words 0, 1 and 2. -/
def dormant (w0 w1 w2 : Word) : State :=
  let s := offered 1 two
  about 1 0 0 (withMem [(0x80400000, w0), (0x80400008, w1), (0x80400010, w2)]
    { s with cl := { s.cl with banks := s.cl.banks.set 1 { state := .restoring, trec := 0x7000 } } })

theorem wit_SavedTasksComeBack :
    (∀ w0 w1 w2, (dormant w0 w1 w2).ev.c = (dormant w0 w1 w2).cl.id ∧ (dormant w0 w1 w2).ev.a = (1 : Fin 8).val ∧ (dormant w0 w1 w2).cl.run ≠ some 1 ∧
      ((dormant w0 w1 w2).bankAt 1).state = .restoring) ∧
    (∃ s0, engineLoc (dormant 1 1 0x00271801) 0 0x7000 64 true false = .ok (s0, 0x80007000)) ∧
    (∃ s1, restored (dormant 1 1 0x00271801) = (s1, none)) ∧ (∃ s1 f, restored (dormant 0 1 0x00271801) = (s1, some f) ∧ f.code = 0x36) ∧
    (∃ (b : Bank) (j : Fin 64) (x : BlockHandle), b.handles[j.val] = some x ∧ (∀ p, x.block = some p → p.2 < 2 ^ 64) ∧ b.courierErrs.length ≤ 252 ∧
      b.courierErrs ≠ [] ∧ ∀ p ∈ b.courierErrs, p.1 < 2 ^ 24) ∧
    ∃ (c : CoreBank) (p : PhysCore), c.pendFmt.length ≤ 3 ∧ c.pendFmt ≠ [] ∧ (∀ x ∈ c.pendFmt, x.wait < 4) ∧ p.left = [] ∧ p.top = [] ∧ c.term = none := by
  refine ⟨fun _ _ _ => ⟨rfl, rfl, by simp [dormant, offered, about, withMem, flying, withQ, tabs, idle, two, st, State.modOpn, State.setDie], rfl⟩,
    findsOf (by decide +kernel), restorableOf (by decide +kernel), refusesOf (by decide +kernel),
    ⟨{ handles := (Vector.replicate 64 none).set 63 (some ⟨some (63, 2 ^ 64 - 1), true⟩), courierErrs := List.replicate 252 (2 ^ 24 - 1, 0x16) }, 63, _, rfl,
      by simp, (List.length_replicate (n := 252)).le, List.cons_ne_nil _ _, fun p hp => by rw [List.eq_of_mem_replicate hp]; decide⟩,
    ⟨{ pendFmt := List.replicate 3 ⟨1023, 3⟩ }, {}, by decide, by decide, by decide, rfl, rfl, rfl⟩⟩

/-- A context that left the cluster. -/
def away : Shadow :=
  { part := 0, asn := 0, banks := (Vector.replicate 8 {}).set 7 { state := .ready, pc := 0x1000 }, cores := Vector.replicate 8 {}, cmds := [], searches := [] }

theorem wit_ContextsMoveAndReturn :
    let s := about 0 0 0 (idle two)
    s.ev.c = s.cl.id ∧ s.cl.preempt = none ∧ { s.cl with preempt := some none, evals := [({}, 1)] }.evals ≠ [] ∧
    (let s := { s with cl := { s.cl with preempt := some none, cmds := [cmd 6 .queued, cmd 7 .done], shadows := [away] } }
     s.cl.preempt = some none ∧ s.cl.evals = [] ∧ s.cl.opn = none ∧ (s.cl.run.isSome ∧ s.cl.bank.pendTrap = none) ∧ s.preempts = [] ∧ shadowFits s.cl = true ∧
       (∀ i : Fin 8, (s.bankAt i).state ≠ .restoring ∧ (s.bankAt i).ops = []) ∧ (∀ x ∈ s.cl.cmds, x.state ≠ .running) ∧
       (∀ k : Fin 8, (s.cl.cores[k.val]).gathers = []) ∧ (∃ i : Fin 8, (s.bankAt i).state ≠ .free) ∧
       ∀ x ∈ s.cl.shadows, ∃ i : Fin 8, (x.banks[i.val]).state ≠ .free) ∧
    (let s := about 1 0 0 (bare { s with cl := { s.cl with shadows := [away, away] } })
     s.cl.shadows[s.ev.a]? = some away ∧ s.cl.residents = [] ∧ s.cl.preempt = none ∧ s.cl.part = away.part ∧ s.cl.asn = away.asn) := by
  refine ⟨rfl, rfl, by decide, by decide +kernel, by decide +kernel⟩

/-- Launch 1 of the header at 0x6000, with the same share on every die; the step concerns die d and its cluster 0. -/
def lau (d : Fin 64) (h : List Word) (x : Share) (s : State) : State :=
  let s := (withMem (at_ 0x80006000 h) s).focus ⟨d, 0⟩
  { s with launches := [{ num := 1, hdr := 0x6000, asn := 0, collect := 0, sup := false, image := h, shares := Vector.replicate 64 x }],
           ev := { s.ev with c := ⟨d, 0⟩, a := 1 } }

/-- An effect is not had. -/
def errs {α : Type} (x : Eff α) : Bool := match x with | .ok _ => false | .error _ => true

theorem errsOf {α : Type} {x : Eff α} (h : errs x = true) : ∃ e, x = .error e := by
  cases x <;> simp_all [errs]

/-- A specialised launch whose words 0 and 63 are static. -/
def spec : List Word := (hd 128 0x110 0 0).set 2 0x8000000000000001

/-- A share that is taken, of `next` records and `exits` exits. -/
def shareOf (h : List Word) (next exits : Nat) : Share := { taken := true, image := h, specDone := true, next := next, exits := exits }

theorem memOk_lau : (lau 0 (hd 128 0 0 0) {} (tabs two)).memOk := by unfold State.memOk; decide +kernel

theorem wit_LaunchesRunAndComplete :
    (∃ l, (lau 63 (hd 128 0 0 0) {} (tabs two)).launch (lau 63 (hd 128 0 0 0) {} (tabs two)).ev.a = some l) ∧ (lau 0 (hd 128 0 0 0) {} (tabs two)).memOk ∧
    -- the header that cannot be read, that is invalid, and that is taken
    (∃ e, engineLoc (lau 0 (hd 128 0 0 0) {} two) 0 0x6000 128 true false = .error e) ∧
    (lau 63 (hd 128 0 0 0) {} (tabs two)).ev.c = (lau 63 (hd 128 0 0 0) {} (tabs two)).cl.id ∧
    (∃ s1, engineLoc (lau 0 (hd 129 0 0 0) {} (tabs two)) 0 0x6000 128 true false = .ok (s1, 0x80006000)) ∧
    (hdrInvalid ((lau 0 (hd 129 0 0 0) {} (tabs two)).mem.words 0x80006000 16) false true = some 0x22 ∧
      (∀ n : Fin 2, let h := (lau 0 (hd (if n = 0 then 128 else 1) 0 0 0) {} (tabs two)).mem.words 0x80006000 16
        hdrInvalid h false true = none ∧ hdrSpec h = false ∧ (n = 1 → shareSizeOf h 0 = 0))) ∧
    (let s := lau 0 spec {} (tabs two)
     let h := s.mem.words 0x80006000 16
     let x := engineLoc s 0 0x6000 128 true false
     x = .ok (after x, 0x80006000) ∧ hdrInvalid h false true = none ∧ hdrSpec h = true ∧ shareSizeOf h 0 ≠ 0 ∧
       ∃ s2 st, readStatics h (staticArgs h) (after x) = .ok (s2, st)) ∧
    -- static words on a page that is not mapped
    (let s := lau 0 (spec.set 1 0x100000000) {} (tabs two)
     let h := s.mem.words 0x80006000 16
     let x := engineLoc s 0 0x6000 128 true false
     x = .ok (after x, 0x80006000) ∧ hdrInvalid h false true = none ∧ hdrSpec h = true ∧ shareSizeOf h 0 ≠ 0 ∧
       ∃ e, readStatics h (staticArgs h) (after x) = .error e) ∧
    -- its evaluation
    (∀ d : Fin 64, let x : Share := ({ taken := true, image := spec, key := [1] } : Share)
     (lau 0 spec x (tabs two)).launches.map (fun l => l.share d) = [x] ∧ x.taken = true ∧ x.specDone = false ∧ x.key ≠ []) ∧
    -- enumeration, to the last record of die 63 and to a page that is not mapped
    (let h := hd 128 0 0 0
     let s := lau 63 h (shareOf h 1 0) (tabs two)
     let i := shareLo 63 (hdrTasks h) + 1
     1 < shareSizeOf h 63 ∧ i = 127 ∧ (∀ l ∈ s.launches, launchQueued s 63 l h i < 64) ∧
       let x := engineLoc s 0 (hdrRecbase h + BitVec.ofNat 64 (64 * i)) 64 false true
       x = .ok (after x, 0x80010000 + 64 * 127) ∧ (after x).memOk) ∧
    (let h := (hd 128 0 0 0).set 10 0x100000000
     ∃ v a, engineLoc (lau 0 h (shareOf h 0 0) (tabs two)) 0 (hdrRecbase h + BitVec.ofNat 64 (64 * 0)) 64 false true = .error (.trap 0x04 v a)) ∧
    -- the report
    (let h := hd 128 0 0 0
     shareSizeOf h 0 = 2 ∧ (shareOf h 2 2).code = 0 ∧ (shareOf h 1 2).next < 2 ∧ (shareOf h 2 1).exits < 2 ∧ ({} : Share).taken = false ∧
       { shareOf h 2 2 with code := 0x26 }.code ≠ 0) ∧
    -- completion
    ((∃ j : Fin 64, (Vector.replicate 64 ({} : Share))[j.val].reported = false) ∧ (∀ j : Fin 64, (Vector.replicate 64 ({ reported := true } : Share))[j.val].reported = true) ∧
      hdrCkind (hd 128 0 0 0) = 0 ∧ hdrCkind (hd 128 0 1 0) = 1 ∧ hdrCkind (hd 128 0 2 0x7000) = 2 ∧
      ∃ s2, engineCount { (lau 0 (hd 128 0 2 0x7000) { reported := true } (tabs two)).focus ⟨0, 0⟩ with launches := [] } 0 0x7000 = .ok (s2, 0x80007000)) := by
  refine ⟨⟨_, rfl⟩, memOk_lau, errsOf (by decide +kernel), by decide +kernel, findsOf (by decide +kernel), by decide +kernel,
    ⟨afterOf (by decide +kernel), by decide +kernel, by decide +kernel, by decide +kernel, okOf2 (by decide +kernel)⟩,
    ⟨afterOf (by decide +kernel), by decide +kernel, by decide +kernel, by decide +kernel, errsOf (by decide +kernel)⟩, by decide +kernel, ⟨by decide +kernel, by decide +kernel, by decide +kernel, afterOf (by decide +kernel), by unfold State.memOk; decide +kernel⟩, trapsOf (by decide +kernel), by decide +kernel,
    by decide +kernel, by decide +kernel, by decide +kernel, by decide +kernel, by decide +kernel, findsOf (by decide +kernel)⟩

/-- A header of six fields of one bit, of extent 2. -/
def hd6 : List Word :=
  [0x1000, 0x5200, 0, BitVec.ofNat 64 (6 * 2 ^ 42 + 1 + 2 ^ 7 + 2 ^ 14 + 2 ^ 21 + 2 ^ 28 + 2 ^ 35), 0x200000002, 0x200000002, 0x200000002, 0xB000, 0, 0x00271801, 0x10000, 0x1000000,
    24, 0, 0, 0]

theorem wit_SharesWorkIdentifiersAndCounts :
    (0 < 1 ∧ homeDie 1 0 = 63 ∧ homeDie 128 1 = 0 ∧ homeDie 128 2 = 1 ∧ homeDie 128 127 = 63) ∧
    (hdrInvalid hd6 false true = none ∧ 63 < hdrTasks hd6 ∧ hdrNf hd6 = 6 ∧ hdrInvalid (hd 128 0 0 0) false true = none ∧ 127 < hdrTasks (hd 128 0 0 0)) ∧
    (two.memOk ∧ (∀ n : Fin 3, let s := tk n.val 0 two
      s.mem.read (0x80007000 + 16) 4 = n.val ∧ (s.mem.word (0x80007000 + 16)).getLsbD 32 = false)) ∧
    (let s := withMem [(0x80007010, 0x100000001)] (tk 1 0 two)
     s.mem.read (0x80007000 + 16) 4 = 1 ∧ (s.mem.word (0x80007000 + 16)).getLsbD 32 = true) :=
  ⟨by decide +kernel, by decide +kernel, ⟨memOk_two, by decide +kernel⟩, by decide +kernel⟩

/-- A record of a type about a subject. -/
def frec (type : Nat) (f : FaultOf) : FaultRec := ⟨BitVec.ofNat 64 (type * 2 ^ 56), 0x1000, 0, 0x7000, f⟩

/-- Record 5 of die 0 waits for its action, which the service has written with RDIE 9 and RCAUSE 0x12; bank 1 waits on its fault. -/
def served (type : Nat) (f : FaultOf) (a : Word) : State :=
  let s := tabs (parted (idle two))
  let q : FaultQueue := { prod := 6, cons := 5, posted := [(5, frec type f)] }
  let s := { s.setDie 0 { s.die 0 with fq := q } with
    cl := { s.cl with banks := s.cl.banks.set 1 { state := .waitFault, trec := 0x7000 }, cmds := [cmd 6 .done, { cmd 7 .parked with slot := 3 }] } }
  let s := withMem ((Config.faultQueueBase 0 + 64 + 64 * 5 + 32, 0x120900 + a) :: at_ 0x80007000 ((rec_ 0 0).set 4 0x6000)) s
  let s := lau 0 (hd 128 0 0 0) (shareOf (hd 128 0 0 0) 0 0) s
  { s with ev := { s.ev with a := 0, b := 5 } }

/-- Die 0 holds a record, with PROD and CONS, and the host's mode. -/
def holds (prod cons : Nat) (host : Bool) : State :=
  let s := about 0 0 0 (idle two)
  s.setDie 0 { s.die 0 with fq := { prod := prod, cons := cons, host := host, held := [frec 1 .nothing] } }

theorem wit_FaultsAreServiced :
    (∀ host : Bool, (holds 63 0 host).ev.c.die = 0 ∧ ((holds 63 0 host).die 0).fq.held = frec 1 .nothing :: [] ∧ ((holds 63 0 host).die 0).fq.host = host ∧
      fqFull ((holds 64 0 host).die 0).fq = true ∧ fqFull ((holds 63 0 host).die 0).fq = false ∧ fqFull ((holds 0xFFFFFFFF 0xFFFFFFC0 host).die 0).fq = false) ∧
    (holds 63 0 true).memOk ∧
    -- a bank
    (∀ a : Fin 6, let f : FaultOf := .bank ⟨0, 0⟩ 0x7000
     let s := served 1 f (BitVec.ofNat 64 a.val)
     s.memOk ∧ s.ev.c.die = 0 ∧ s.ev.b = 5 ∧ (s.die 0).fq.posted.find? (fun p => p.1 = 5) = some (5, frec 1 f) ∧ actionOf s 0 5 (frec 1 f) = (if a = 4 then 5 else a.val) ∧
       s.cl.id = ⟨0, 0⟩ ∧ findWaiting s.cl 0x7000 0 = some 1 ∧ findNamed s.cl 0x7000 0 = some 1 ∧ (∀ h : Fin 64, (s.bankAt 1).handles[h] = none) ∧
       (s.bankAt 1).slept = false ∧ (∀ x ∈ s.cl.cmds, x.bank ≠ 1) ∧ (s.bankAt 1).ops = [] ∧
       s.softWords = [] ∧ (s.dbg 0 0).getLsbD 2 = false ∧ (∃ s1, engineLoc s 0 0x7000 64 true false = .ok (s1, 0x80007000)) ∧
       s.mem.word (0x80007000 + 40) = 0 ∧ ∃ l, s.launchOf (s.mem.word (0x80007000 + 32)) 0 = some l) ∧
    -- a command
    (∀ a : Fin 6, let f : FaultOf := .command ⟨0, 0⟩ 7
     let s := served 2 f (BitVec.ofNat 64 a.val)
     s.memOk ∧ (s.die 0).fq.posted.find? (fun p => p.1 = 5) = some (5, frec 2 f) ∧ actionOf s 0 5 (frec 2 f) = (if 2 ≤ a ∧ a ≤ 3 then 5 else a.val) ∧
       s.cl.cmds.find? (fun y => y.seq = 7 && y.state = .parked) = some { cmd 7 .parked with slot := 3 } ∧ ({ cmd 7 .parked with slot := 3 } : Command).barrier s = none ∧
       ({ cmd 7 .parked with slot := 3 } : Command).send = false) ∧
    -- an engine, with a copy under way where it has parked
    (∀ (a : Fin 6) (p : Bool),
     let u := withMem heap3 (served 3 (.heap 3) (BitVec.ofNat 64 a.val))
     let s := reloc3 (fun r => { r with parked := p, running := true, epoch := 1, cur := if p then some 2 else none }) u
     let y := s.relocs[3]
     let slot := fqBase s 0 + 64 + 64 * 5
     let at_ := Config.heapTable + 64 * 3 + 56
     let entry := (heapWord s 3 (2 + y.epoch.toNat % 2)).toNat + 16 * 2
     let apart (x : Nat) : Prop := (x + 8 ≤ slot + 32 ∨ slot + 40 ≤ x) ∧ (x + 8 ≤ fqBase s 0 + 8 ∨ fqBase s 0 + 16 ≤ x)
     s.memOk ∧ (s.die 0).fq.posted.find? (fun p => p.1 = 5) = some (5, frec 3 (.heap 3)) ∧
       actionOf s 0 5 (frec 3 (.heap 3)) = (if 2 ≤ a ∧ a ≤ 3 then 5 else a.val) ∧ (s.dbg y.die 0).getLsbD 2 = false ∧ y.parked = p ∧
       y.cur = (if p then some 2 else none) ∧ apart at_ ∧ apart entry ∧ (entry + 8 ≤ at_ ∨ at_ + 8 ≤ entry)) ∧
    -- a launch
    (∀ a : Fin 6, let s := served 4 (.launch 1) (BitVec.ofNat 64 a.val)
     s.memOk ∧ (s.die 0).fq.posted.find? (fun p => p.1 = 5) = some (5, frec 4 (.launch 1)) ∧ actionOf s 0 5 (frec 4 (.launch 1)) = (if 2 ≤ a ∧ a ≤ 3 then 5 else a.val) ∧
       ∃ l, s.launch 1 = some l) := by
  refine ⟨by decide +kernel, ⟨rfl, rfl⟩, fun a => ⟨by unfold State.memOk; revert a; decide +kernel, rfl, rfl, by revert a; decide +kernel,
      by revert a; decide +kernel, rfl, by revert a; decide +kernel, by revert a; decide +kernel, by revert a; decide +kernel, by revert a; decide +kernel,
      by revert a; decide +kernel, by revert a; decide +kernel, by revert a; decide +kernel, by revert a; decide +kernel, findsOf (by revert a; decide +kernel),
      by revert a; decide +kernel, ?_⟩,
    fun a => ⟨by unfold State.memOk; revert a; decide +kernel, by revert a; decide +kernel⟩,
    fun a p => ⟨by unfold State.memOk; revert a p; decide +kernel, by revert a p; decide +kernel⟩,
    fun a => ⟨by unfold State.memOk; revert a; decide +kernel, by revert a; decide +kernel, by revert a; decide +kernel,
      Option.isSome_iff_exists.mp (by revert a; decide +kernel)⟩⟩
  have h : ((served 1 (.bank ⟨0, 0⟩ 0x7000) (BitVec.ofNat 64 a.val)).launchOf ((served 1 (.bank ⟨0, 0⟩ 0x7000) (BitVec.ofNat 64 a.val)).mem.word (0x80007000 + 32)) 0).isSome = true := by
    revert a; decide +kernel
  exact Option.isSome_iff_exists.mp h

/-! ### Witnesses: the host link -/

/-- A request on stream 63. -/
def msg (type : BitVec 8) (addr arg : Word) (payload : List Byte) : HostMsg :=
  ⟨1, type, 0, 0, 63, BitVec.ofNat 16 payload.length, 0, 0, addr, arg, payload, false, .ether State.reset.etherType⟩

/-- The step concerns the message. -/
def got (m : HostMsg) (s : State) : State := { s with ev := { s.ev with msg := m } }

theorem receivedOf {s : State} {m : HostMsg} {i : Instr} (h : unanswerable (got m s) m = false ∧ expected (got m s) m = true ∧ msgStep m = i ∧
    streamWaits (got m s) m.sid = false ∧ (got m s).recovery = false) : Received (got m s) m i := ⟨rfl, h⟩

/-- Doublewords as a payload. -/
def bytes (ws : List Word) : List Byte := bytesOfWords ws

/-- A FIRE of tag 9 that waits. -/
def fire9 : HostMsg := msg 4 0 9 []

theorem wit_MessagesAreReceivedInOrder :
    -- dropped: stream 64, a short frame, another framing
    (unanswerable two { fire9 with stream := 64 } = true ∧ unanswerable two { fire9 with short := true } = true ∧ unanswerable two { fire9 with frame := .other } = true ∧
      unanswerable two { fire9 with len := 8193 } = true ∧ Cells.wf two.counts = true ∧ unanswerable two fire9 = false) ∧
    -- expected or not
    (expected two fire9 = true ∧ expected two { fire9 with seq := 1 } = false ∧ unanswerable two { fire9 with seq := 1 } = false) ∧
    Received (got { fire9 with status := 1 } two) { fire9 with status := 1 } .malformedMessage ∧
    (Instr.fire ∈ hostSteps ∧ msgStep fire9 = .fire ∧ streamWaits { two with fires := [fire9] } 63 = true ∧ unanswerable { two with fires := [fire9] } fire9 = false ∧
      expected { two with fires := [fire9] } fire9 = true) ∧
    (streamWaits { two with recovery := true } 63 = false ∧ ({ two with recovery := true } : State).recovery = true ∧ unanswerable { two with recovery := true } fire9 = false ∧
      expected { two with recovery := true } fire9 = true) :=
  ⟨by decide +kernel, by decide +kernel, receivedOf (by decide +kernel), by decide +kernel, by decide +kernel⟩

theorem wit_HostReadsAndWritesMemory :
    -- all of it, none, and the first of two words
    (∀ i : Fin 3, let m := msg 1 (BitVec.ofNat 64 (Config.memTop - if i = 0 then 16 else if i = 1 then 0 else 8)) 0x10000 (bytes [7, 8])
     let k := if i = 0 then 16 else if i = 1 then 0 else 8
     Received (got m two) m .write ∧ m.arg.getLsbD 16 = true ∧ m.len.toNat = 16 ∧ two.memOk ∧ (i = 0 → m.addr.toNat + 16 ≤ Config.memTop) ∧
       (i ≠ 0 → k % 8 = 0 ∧ k < 16 ∧ (0 < k → m.addr.toNat + k ≤ Config.memTop) ∧ Config.memTop < m.addr.toNat + k + 8)) ∧
    (∀ i : Fin 2, let m := msg 1 (if i = 0 then 0x5000 else 0x80000000) 0 (bytes [7])
     let s := got m (tabs two)
     Received s m .write ∧ m.arg.getLsbD 16 = false ∧ m.len.toNat = 8 ∧ (i = 0 → ∃ s1, hostLoc s false 0 true m.addr = .ok (s1, .mem 0x80005000)) ∧
       (i = 1 → ∃ e, hostLoc s false 0 true m.addr = .error e)) ∧
    (let m := msg 2 (BitVec.ofNat 64 (Config.memTop - 8192)) 0x200000010000 []
     Received (got m two) m .read ∧ (got m two).badWords = [] ∧ (got m two).softWords = [] ∧ bits m.arg 63 32 = 8 * 1024 ∧
       ∀ j, j < 1024 → hostLoc (got m two) (m.arg.getLsbD 16) (m.arg.extractLsb' 0 16) false (m.addr + BitVec.ofNat 64 (8 * j)) = .ok (got m two, .mem (Config.memTop - 8192 + 8 * j))) := by
  refine ⟨fun i => ⟨receivedOf (by revert i; decide +kernel), by revert i; decide +kernel, by revert i; decide +kernel, memOk_two, by revert i; decide +kernel, by revert i; decide +kernel⟩,
    fun i => ⟨receivedOf (by revert i; decide +kernel), by revert i; decide +kernel, by revert i; decide +kernel, ?_, ?_⟩,
    receivedOf (by decide +kernel), rfl, rfl, by decide +kernel, fun j hj => ?_⟩
  · rintro rfl; exact findsOf (by decide +kernel)
  · rintro rfl; exact errsOf (by decide +kernel)
  · have e : (BitVec.ofNat 64 (Config.memTop - 8192) + BitVec.ofNat 64 (8 * j)).toNat = Config.memTop - 8192 + 8 * j := by
      unfold Config.memTop at *; simp; omega
    show hostLoc _ true _ _ _ = _
    unfold hostLoc
    simp only [if_true]
    rw [if_pos (by show (BitVec.ofNat 64 (Config.memTop - 8192) + BitVec.ofNat 64 (8 * j)).toNat + 8 ≤ _; rw [e]; unfold Config.memTop; omega)]
    show Except.ok (_, Loc.mem (BitVec.ofNat 64 (Config.memTop - 8192) + BitVec.ofNat 64 (8 * j)).toNat) = _
    rw [e]

/-- An ARM of tag 9 with a header and a ring at 0x8000 of 2^n slots of 2^z bytes. -/
def arm9 (h : List Word) (n z : Nat) : HostMsg := msg 3 0x8000 (BitVec.ofNat 64 (9 + n * 2 ^ 16 + z * 2 ^ 24)) (bytes (h ++ List.replicate 64 0))

/-- Tag 9 is armed with slots of 2^10 bytes at `ring`; slot 0 was last used for launch `f`. -/
def armed9 (ring : Word) (f : Nat) : Armed := ⟨9, hd 128 0 0 0, List.replicate 64 0, ring, 1, 10, 0, [(0, f)]⟩

/-- FIRE of launch 5 is in flight. -/
def fired5 (s : State) : State := { s with launches := [{ num := 1, hdr := 0x6000, asn := 0, collect := 0, sup := false, image := hd 128 0 0 0, fire := 5 }] }

theorem storedOf {x : State × Option (Nat × BitVec 8)} {o : Option (Nat × BitVec 8)} (h : x.2 = o) : ∃ t, x = (t, o) := ⟨x.1, by rw [← h]⟩

theorem wit_ArmedTagsFire :
    (∀ i : Fin 2, let m := arm9 (hd (if i = 0 then 128 else 129) 0 0 0) 8 (if i = 0 then 10 else 14)
     let image := leWords (m.body.take 128) 16
     Received (got { m with addr := 0x8000 } two) { m with addr := 0x8000 } .arm ∧ bits m.arg 15 0 = 9 ∧ (i = 0 → hdrInvalid image true false = none) ∧ (i = 1 → hdrInvalid image true false = some 0x22)) ∧
    (∀ f : Fin 6, let s := fired5 { two with armed := [armed9 0x8000 f.val] }
     s.armedTag 9 = some (armed9 0x8000 f.val) ∧ ((∃ p ∈ (armed9 0x8000 f.val).fly, ∃ l ∈ s.launches, l.fire = p.2) ↔ f = 5) ∧ s.armedTag 8 = none ∧ s.armed.length < 256) ∧
    (let s := { two with armed := List.replicate 256 { armed9 0x8000 0 with tag := 10 } }
     s.armedTag 9 = none ∧ 256 ≤ s.armed.length) ∧
    Received (got (msg 3 0 9 []) two) (msg 3 0 9 []) .disarm ∧
    -- FIRE
    (∀ i : Fin 2, Received (got (msg 4 0 9 (List.replicate (384 + i.val) 7)) two) (msg 4 0 9 (List.replicate (384 + i.val) 7)) .fire ∧
      (i = 0 → 384 + 640 ≤ 2 ^ (armed9 0x8000 0).zlog) ∧ (i = 1 → 2 ^ (armed9 0x8000 0).zlog < 385 + 640)) ∧
    (let a := armed9 0x8000 0
     let r := a.ring + BitVec.ofNat 64 (a.next * 2 ^ a.zlog)
     let image := a.image.set 1 (r + 128)
     let s := got fire9 (fired5 { tabs two with armed := [a] })
     ¬(64 ≤ s.launches.length ∨ ∃ p ∈ a.fly, p.1 = a.next ∧ ∃ l ∈ s.launches, l.fire = p.2) ∧ a.image.length = 16 ∧ hdrInvalid image true true = none ∧ hdrCkind image ≠ 2 ∧
       ∃ t, hostStore false 0 r 0 (image ++ a.args.set 0 (r + 640) ++ payloadWords fire9.body) s = (t, none)) ∧
    (let a := armed9 0x7FFFFC00 0
     let a := { a with next := 1 }
     let r := a.ring + BitVec.ofNat 64 (a.next * 2 ^ a.zlog)
     let image := a.image.set 1 (r + 128)
     let s := got fire9 (fired5 { tabs two with armed := [a] })
     ∃ t, hostStore false 0 r 0 (image ++ a.args.set 0 (r + 640) ++ payloadWords fire9.body) s = (t, some (0, 2))) :=
  ⟨fun i => ⟨receivedOf (by revert i; decide +kernel), by revert i; decide +kernel, by revert i; decide +kernel, by revert i; decide +kernel⟩, by decide +kernel, by decide +kernel,
    receivedOf (by decide +kernel), fun i => ⟨receivedOf (by revert i; decide +kernel), by revert i; decide +kernel, by revert i; decide +kernel⟩,
    ⟨by decide +kernel, by decide +kernel, by decide +kernel, by decide +kernel, storedOf (by decide +kernel)⟩, storedOf (by decide +kernel)⟩

theorem wit_SummaryAndAttestation :
    (∀ i : Fin 2, Received (got { msg 5 0 0 [] with flags := if i = 0 then 0 else 4 } two) { msg 5 0 0 [] with flags := if i = 0 then 0 else 4 } .resync ∧
      ((if i = 0 then 0 else 4 : BitVec 8).getLsbD 2 = true ↔ i = 1)) ∧
    (1 ≤ 3 ∧ 3 ≤ 6 ∧ 511 < spareCount 3) ∧
    (let m : List Byte := List.replicate 32 0
     let s := got (msg 6 0 0 (List.replicate 32 0xAB)) { two with m0 := m, m1 := m, m2 := m, m3 := m }
     Received s (msg 6 0 0 (List.replicate 32 0xAB)) .attest ∧ s.m0.length = 32 ∧ s.m1.length = 32 ∧ s.m2.length = 32 ∧ s.m3.length = 32) :=
  ⟨fun i => ⟨receivedOf (by revert i; decide +kernel), by revert i; decide +kernel⟩, by decide, receivedOf (by decide +kernel), rfl, rfl, rfl, rfl⟩

/-- A residual under a key. -/
def res (k : Word) : Residual := { num := 1, key := [k] }

theorem wit_ManagementRequests :
    (∀ p ∈ [(msg 7 0x1000 0x01 [], Instr.mgmtRootBase), (msg 7 0xFFFFFFFFFFFFFFFF 0x01 [], .mgmtRootBase), (msg 7 0 0x02 [], .mgmtHeapTable), (msg 7 0 0xFF3F03 [], .mgmtServiceClusters),
        (msg 7 0 0xFFFF04 [], .mgmtCodeGeneration), (msg 7 0 0x05 (bytes [3]), .mgmtBackmapRead), (msg 7 0 0x06 [], .mgmtFaultQueue), (msg 7 0x10000 0x1103F06 [], .mgmtFaultQueue),
        (msg 7 0 0x3F01073F07 [], .mgmtPreempt), (msg 7 0x20000 0x08 [], .mgmtDefaultTvb), (msg 7 0 0xFF09 [], .mgmtCertificate), (msg 7 0x8000 0xFFFF03000A [], .mgmtReductionRing),
        (msg 7 0 0x00000000010B [], .mgmtMaintenance), (msg 7 0 0x01FF020B [], .mgmtMaintenance), (msg 7 0 0xFFFFFFFF060B [], .mgmtMaintenance), (msg 7 0 0x0C [1, 2], .mgmtLoadFirmware),
        (msg 7 0 0x0D (List.replicate 32 1), .mgmtExtendM3), (msg 7 0 0xFFFFFFFF0E [], .mgmtEncapsulation)], Received (got p.1 two) p.1 p.2) ∧
    -- what a request may meet
    (∃ k : Fin 8, (1 : BitVec 8).getLsbD k.val = true ∧ (two.die 0).svcMask.getLsbD k.val = false ∧ (two.clusterAt ⟨0, k⟩).residents ≠ []) ∧
    (¬∃ k : Fin 8, (0xFE : BitVec 8).getLsbD k.val = true ∧ (two.die 0).svcMask.getLsbD k.val = false ∧ (two.clusterAt ⟨0, k⟩).residents ≠ []) ∧
    Cells.wf two.codeGen = true ∧
    ((two.die 0).residuals = [] ∧ (let s := two.setDie 0 { two.die 0 with residuals := [res 2, res 3] }
      (s.die 0).residuals = [res 2] ++ res 3 :: [] ∧ (res 3).key = asWords (msg 7 0 0x05 (bytes [3])).body ∧ ∀ x ∈ [res 2], x.key ≠ [3])) ∧
    (((holds 63 0 true).die 0).fq.posted = [] ∧ ((served 1 .nothing 0).die 0).fq.posted ≠ [] ∧ two.memOk) ∧
    (two.cl.preempt = none ∧ shadowFits two.cl = true ∧ { two.cl with preempt := some none }.preempt ≠ none ∧
      (let x := { two.cl with shadows := [away, away] }
       shadowFits x = false ∧ ∃ y ∈ x.shadows, y.evictable = true) ∧
      let y : Shadow := { away with banks := (Vector.replicate 8 {}).set 0 { state := .dormant } }
      shadowFits { two.cl with shadows := [y, y] } = false ∧ ∀ z ∈ [y, y], z.evictable = false) ∧
    (let held (c : ClusterId) : Prop := (two.clusterAt c).residents ≠ [] ∨ (two.clusterAt c).shadows ≠ []
     held ⟨0, 0⟩ ∧ ¬held ⟨63, 7⟩ ∧ ¬∃ i, held ⟨63, i⟩) ∧
    -- maintenance: an unused spare of each die, cluster and slice, and none left
    (let free (s : State) (k u i : Nat) : Prop := i ∈ sparesFor k u ∧ s.spareUnit k i = none
     let used : State := { two with spares := [(1, 0, 5), (1, 1, 6), (2, 63, 511)] }
     (∃ i, free two 1 63 i) ∧ free two 2 511 63 ∧ free two 3 (64 * 160 - 1) 511 ∧ (used.spares.map fun p => (p.1, p.2.1)).Nodup ∧
       (∀ i, ¬free used 1 63 i) ∧ ∀ i, ¬free used 2 511 i) ∧
    -- the slice of a block, and of a line of no block
    (let b : Block := { num := 1, first := 4, lines := 4 }
     let s := (two.setDie 0 { two.die 0 with blocks := [b] }).setLine 0 9 1
     (∃ u : Fin 160, b ∈ (s.die 0).blocks ∧ b.slice.val = u.val % 160 ∧ b.covers 7 = true) ∧
       ∃ u : Fin 160, (Config.homeSlice 9).val = u.val % 160 ∧ s.lineAt 0 9 ≠ 0 ∧ ¬∃ b ∈ (s.die 0).blocks, b.covers 9 = true) := by
  refine ⟨?_, by decide +kernel, by decide +kernel, by decide +kernel, by decide +kernel, ⟨by decide +kernel, by decide +kernel, memOk_two⟩, by decide +kernel, by decide +kernel,
    ⟨⟨0, by decide +kernel⟩, by decide +kernel, by decide +kernel, by decide +kernel, ?_, ?_⟩,
    ⟨⟨_, by decide +kernel, (Nat.mod_eq_of_lt (Fin.isLt _)).symm, by decide +kernel⟩,
      ⟨_, (Nat.mod_eq_of_lt (Fin.isLt _)).symm, by decide +kernel, by decide +kernel⟩⟩⟩
  rotate_left
  · rintro i ⟨h, k⟩
    have : i = 0 ∨ i = 1 := by simpa [sparesFor, spareCount, List.range_succ] using h
    rcases this with rfl | rfl <;> exact absurd k (by decide +kernel)
  · rintro i ⟨h, k⟩
    have : i = 63 := by simpa [sparesFor] using h
    subst this
    exact absurd k (by decide +kernel)
  intro p hp
  apply receivedOf
  revert hp
  revert p
  decide +kernel

/-! ### Witnesses: time, reductions and debugging -/

theorem wit_TimePollsAndModuleReset :
    (let s := { idle two with cycle := 4096, tstepAt := 100 }
     s.aligned = true ∧ s.tstepAt + 4096 ≤ { s with tstepAt := 0 }.now + 100 ∧ { s with tstepAt := 0 }.tstepAt + 4096 ≤ { s with tstepAt := 0 }.now ∧ s.now < s.tstepAt + 4096 ∧
       Cells.wf s.counts = true ∧ { s with aligned := false }.aligned = false) ∧
    (two.fires = [] ∧ (let s := fired5 { tabs two with fires := [fire9], armed := [armed9 0x8000 5] }
      s.fires = [fire9] ∧ (∀ x ∈ s.preempts, x.2.sid ≠ fire9.sid) ∧ performMsg fire9 { s with pollSlot := (s.pollSlot + 1) % 64, fires := [] } = none)) ∧
    (two.image = none ∧ two.memOk) ∧
    (let s := { tabs two with fires := [fire9] }
     ∃ t, performMsg fire9 { s with pollSlot := (s.pollSlot + 1) % 64, fires := [] } = some t) :=
  ⟨by decide +kernel, ⟨rfl, rfl, by decide +kernel, Option.isNone_iff_eq_none.mp (by decide +kernel)⟩, ⟨rfl, memOk_two⟩, Option.isSome_iff_exists.mp (by decide +kernel)⟩

/-- A reduction ring at 0x90000 with PROD p holds a descriptor of two elements of a type, from 0x5000 to 0x6000, of group 3. -/
def reduces (p type : Nat) : State :=
  let s := withMem ([(0x90000, BitVec.ofNat 64 p), (0x80005000, 0x0000000700000005), (0x80005008, 9)] ++
    at_ 0x90040 [0x5000, 0x6000, BitVec.ofNat 64 (2 * 2 ^ 32 + 3 * 256 + type), 11, 0x7000, 0, 0, 0]) (tk 1 0 two)
  { s with redBase := 0x90000, redLog := 4, redGroup := 3, redRank := 1 }

/-- The descriptor that was read. -/
def posted (ctarget : Word) (type : Nat) (dst : Word) (es : Option (List Nat)) : Reduction :=
  ⟨0x90040, [0x5000, dst, BitVec.ofNat 64 (2 * 2 ^ 32 + 3 * 256 + type), 11, ctarget, 0, 0, 0], es⟩

/-- Elements are stored, memory is then in its canonical form, and the cluster is as it was. -/
def stores (c : Cluster) (x : Eff State) : Bool := match x with | .ok t => Mem.wf t.mem && Cells.wf t.lines && decide (t.cl = c) | .error _ => false

theorem storesOf {c : Cluster} {x : Eff State} (h : stores c x = true) : ∃ t, x = .ok t ∧ t.memOk ∧ t.cl = c := by
  rcases x with e | t
  · simp [stores] at h
  · simp only [stores, Bool.and_eq_true, decide_eq_true_eq] at h
    exact ⟨t, rfl, h.1, h.2⟩

theorem wit_ReductionsSumInRankOrder :
    (∀ p : Fin 2, let s := reduces p.val 0
     s.redBase ≠ 0 ∧ s.red = none ∧ s.softWords = [] ∧ s.badAt s.redBase 8 = false ∧ ((s.mem.word s.redBase).toNat = s.redCons ↔ p = 0) ∧
       State.badAt { s with badWords := [0x90000 / 8] } s.redBase 8 = true ∧ State.badAt { s with badWords := [0x90040 / 8 + 6] } 0x90040 56 = true) ∧
    (∀ type : Fin 4, let s := reduces 1 type.val
     let ds := s.mem.words 0x90040 8
     (type = 3 → 2 < redType ds) ∧ (type ≠ 3 → s.badAt 0x90040 56 = false ∧ redOk s ds = true ∧ redCount ds = 2 ∧ ∀ j : Fin 2, let k := if redType ds = 1 then 8 else 4
       redPlace s (redAsn ds) (redSrc ds + BitVec.ofNat 64 (j.val * k)) k false = .ok (s, .mem (0x80005000 + j.val * k)))) ∧
    (reduces 1 0).memOk ∧
    (let s := reduces 1 0
     let t := { s.homeStore (.mem (0x90040 + 56)) 0 8 with red := none }
     ∃ s2, enginePlace t 0 0x7000 64 true true = .ok (s2, 0x80007000)) ∧
    -- the members: the same, and of another STEP
    (let own : Contribution := ⟨1, 11, 0, 2, [5, 7]⟩
     byRank (own :: [⟨0, 11, 0, 2, [1, 2]⟩]) 0 2 = some [⟨0, 11, 0, 2, [1, 2]⟩, own] ∧ byRank (own :: [⟨0, 12, 0, 2, [1, 2]⟩]) 0 2 = some [⟨0, 12, 0, 2, [1, 2]⟩, own]) ∧
    -- a destination that can be stored to, and one that cannot
    (∃ t, redStore 0 4 0x6000 (redSum 0 [[1, 2], [5, 7]]) (reduces 1 0) = .ok t ∧ t.memOk ∧ t.cl = (reduces 1 0).cl) ∧
    (∃ e, redStore 0 4 0x80000000 (redSum 0 [[1, 2], [5, 7]]) (reduces 1 0) = .error e) ∧
    (∀ x ∈ [[5, 7]], x.length = [1, 2].length) ∧
    -- fp32: a NaN, infinities of both signs, and finite values of both signs and their ends
    (fp32.value 0x7F800001).isNaN = true ∧ fp32.value 0x7F800000 = .inf false ∧ fp32.value 0xFF800000 = .inf true ∧ fp32.value 0x80000000 = .fin true 0 (-149) ∧
    fp32.value 1 = .fin false 1 (-149) ∧ fp32.value 0x7F7FFFFF = .fin false (2 ^ 24 - 1) 104 := by
  refine ⟨by decide +kernel, fun type => ⟨by revert type; decide +kernel, fun h => ⟨?_, ?_, ?_, fun j => ?_⟩⟩, ?_, findsOf (by decide +kernel), by decide +kernel,
    storesOf (by decide +kernel), errsOf (by decide +kernel), by decide, by decide +kernel⟩
  · revert h; revert type; decide +kernel
  · revert h; revert type; decide +kernel
  · revert type; decide +kernel
  · exact givesOf (by revert h; revert j; revert type; decide +kernel)
  · unfold State.memOk; decide +kernel

/-- The debug block of die 0 has word 0 and word 2, and its ring at 0x90000. -/
def block (w0 w1 w2 : Word) : State := about 0 0 0 (withMem (at_ (debugBase 0) [w0, w1, w2]) (idle two))

/-- The settings in force on die 0: word 0, a ring of 16 records at 0x90000, and trigger i; 15 bundles have issued since the last sample. -/
def traced (w0 : Word) (i : Nat) (t : List Word) (wins : List (Fin 8 × Nat)) : State :=
  let s := about 0 0 0 (idle two)
  let s := s.setDie 0 { s.die 0 with tracing := { words := [w0, 0x90000, 0x400000000, 0, 0, 0, 0, 0] ++ List.replicate (4 * i) 0 ++ t ++ List.replicate (20 - 4 * i) 0, windows := wins } }
  { s with cl := { s.cl with sinceSample := 15 } }

/-- Two cycles wait to be judged, the first with a bundle at 0x1000 where `b` is true. -/
def judging (b : Bool) (s : State) : State :=
  { s with cl := { s.cl with evals := [({ pc := if b then 0x1000 else 0, cycle := 500, bundle := b }, 2)] } }

/-- A bundle is to be sampled. -/
def sampling (s : State) : State := { s with cl := { s.cl with sample := some (100, { pc := 0x1000, cycle := 100 }) } }

theorem wit_TracesSamplesAndTriggers :
    -- the debug block
    (let new (s : State) : List Word := (((s.mem.words (debugBase 0) 32).set 2 (wordAt (s.mem.words (debugBase 0) 32) 2 &&& 0xFFFFFFFF00000000)).set 3 0).set 4 0
     let top := BitVec.ofNat 64 (Config.memTop - 64 * 16)
     ((idle two).die 0).tracing.words = [] ∧ new (block 0 0 0) = List.replicate 32 0 ∧ new (block 1 (top + 64) 0x400000000) ≠ List.replicate 32 0 ∧
       (∀ c ∈ (block 0 0 0).clusters, c.evals = [] ∧ c.sample = none) ∧ (judging true two).cl ∈ (judging true two).clusters ∧ (judging true two).cl.evals ≠ []) ∧
    -- samples: of what issues, and their records
    (∀ slog : Fin 6, let s := traced (BitVec.ofNat 64 (0xFFFF * 2 ^ 48 + 1 + slog.val * 256)) 0 [0, 0, 0, 0] []
     s.memOk ∧ s.ev.c = s.cl.id ∧ (s.dbg 0 0).getLsbD 0 = true ∧ bits (s.dbg 0 0) 63 48 = 0xFFFF ∧ bits (s.dbg 0 0) 12 8 = slog.val ∧
       (2 ^ slog.val ≤ s.cl.sinceSample + 1 ↔ slog.val < 5)) ∧
    (let s := sampling (traced 0xFFFF000000000101 0 [0, 0, 0, 0] [])
     s.cl.sample = some (100, { pc := 0x1000, cycle := 100 }) ∧ sampleDue s.cl = true ∧ s.windowOpen s.cl.id = true ∧ (s.dbg 0 0).getLsbD 0 = true ∧
       sampleDue (sampling two).cl = false ∧ sampleDue two.cl = false ∧
       (sampling (traced 0xFFFF000000000101 0 [1, 0x1004, 0x1004, 0] [])).windowOpen ⟨0, 0⟩ = false) ∧
    -- triggers: each start and stop condition, met and not met, of the last trigger
    ((two.cl.evals = [] ∧ two.cl.stop = none ∧ { two.cl with stop := some 0 }.opn ≠ none) ∧ sampleDue (judging true (sampling two)).cl = true ∧
     (sampleDue (judging true two).cl = false ∧ ∀ i, i < 4 → (judging true two).trigOn 0 i = false) ∧
     ∀ k : Fin 32, let met (j : Nat) : Bool := k.val / 4 % 4 = j
      let b : Bool := k.val < 16
      -- start by pc in [0x1000, 0x1000], stop at pc 0x1000, or never
      let s := judging b (traced 0xFFFF000000000001 3 [if met 2 then 0x01 else 0xC1, if met 1 then 0x1004 else 0x1000, 0x1000, if k.val % 2 = 0 then 0x1000 else 0x1004]
        (if k.val / 2 % 2 = 0 then [] else [(0, 3)]))
      let x : CycleInfo := { pc := if b then 0x1000 else 0, cycle := 500, bundle := b }
      s.cl.evals = (x, 2) :: [] ∧ sampleDue s.cl = false ∧ x.note = [] ∧ s.cl.stop = none ∧ (∀ j, j < 4 → (s.trigOn 0 j = true ↔ j = 3)) ∧
        bits (s.dbg 0 0) 63 48 = 0xFFFF ∧ bits (s.trig 0 3 0) 2 1 = 0 ∧ bits (s.trig 0 3 0) 5 4 = 0 ∧
        (x.bundle = true ∧ (s.trig 0 3 1).toNat ≤ x.pc.toNat ∧ x.pc.toNat ≤ (s.trig 0 3 2).toNat ↔ met 1 = false ∧ b = true) ∧
        (bits (s.trig 0 3 0) 7 6 = if met 2 then 0 else 3) ∧ (x.bundle = true ∧ x.pc = s.trig 0 3 3 ↔ k.val % 2 = 0 ∧ b = true) ∧
        ((0, 3) ∈ (s.die 0).tracing.windows ↔ k.val / 2 % 2 = 1)) ∧
    -- by cause and by cycle
    (let s := traced 0xFFFF000000000001 0 [0x151551, 0, 0, 0] []
     let u := traced 0xFFFF000000000001 0 [0xA1, 500, 0, 500] []
     bits (s.trig 0 0 0) 5 4 = 1 ∧ bits (s.trig 0 0 0) 7 6 = 1 ∧ bits (s.trig 0 0 0) 15 8 = 0x15 ∧ bits (s.trig 0 0 0) 23 16 = 0x15 ∧
       bits (u.trig 0 0 0) 5 4 = 2 ∧ bits (u.trig 0 0 0) 7 6 = 2 ∧ (u.trig 0 0 1).toNat ≤ 500 ∧ (u.trig 0 0 3).toNat ≤ 500) ∧
    -- stop trigger: while a bundle is open, of the running bank, and of a bank that has left
    (let s := judging true (traced 0xFFFF000000000000 0 [0x33, 0, 0, 0] [])
     bits (s.trig 0 0 0) 2 1 = 1 ∧ bits (s.trig 0 0 0) 5 4 = 3 ∧ s.cl.opn = none ∧ s.cl.run = some 0 ∧ s.cl.bank.pend = [] ∧
       (s.dbg 0 0).getLsbD 0 = false ∧ { s.cl with opn := some OpenBundle.blank }.opn ≠ none ∧
       ∀ d : Bool, let b : Bank := { state := if d then .dormant else .ready }
         let u : State := { s with cl := { s.cl with run := none, banks := s.cl.banks.set 0 b } }
         u.cl.run ≠ some 0 ∧ (u.bankAt 0).state = (if d then .dormant else .ready)) := by
  refine ⟨by decide +kernel, fun slog => ⟨?_, by revert slog; decide +kernel⟩, by decide +kernel, by decide +kernel, by decide +kernel, by decide +kernel⟩
  unfold State.memOk; revert slog; decide +kernel

end Sys2Proof.Tests
end

section
/-!
SUPPORT. The device: module reset, its time and its polls (O6, O58). `State.besideMemory` says what the hardware's own accesses to main memory, and
with them the firmware's launches at boot, leave alone.
-/

namespace Sys2Proof.Machine

/-! ### What accesses of the hardware to memory leave alone -/

/-- The state with the parts that an access of the hardware to main memory or the start of a launch can change put back to what reset leaves. -/
def State.besideMemory (s : State) : State :=
  { s with mem := [], badWords := [], softWords := [], lines := [], dies := State.reset.dies, counts := [], launches := [], nextLaunch := 1, freeCtr := 0 }

/-- Steps that keep what stands beside memory keep it when they are done in turn. -/
theorem State.besideMemory_foldl {α : Type} {f : State → α → State} (hf : ∀ s a, (f s a).besideMemory = s.besideMemory) (l : List α) (s : State) :
    (l.foldl f s).besideMemory = s.besideMemory := by
  induction l generalizing s with
  | nil => rfl
  | cons a l ih => exact (ih (f s a)).trans (hf s a)

/-! #### Writes of memory and trace records -/

@[simp] theorem State.putBytes_besideMemory (s : State) (pa x n : Nat) : (s.putBytes pa x n).besideMemory = s.besideMemory := rfl

@[simp] theorem State.putWord_besideMemory (s : State) (pa : Nat) (v : Word) : (s.putWord pa v).besideMemory = s.besideMemory := rfl

@[simp] theorem State.homeRun_besideMemory (s : State) (pa n : Nat) : (s.homeRun pa n).besideMemory = s.besideMemory := rfl

@[simp] theorem State.countRecord_besideMemory (s : State) (d : Fin 64) (kept : Bool) : (s.countRecord d kept).besideMemory = s.besideMemory := by
  unfold State.countRecord
  simp only
  split <;> simp

@[simp] theorem State.traceWrite_besideMemory (s : State) (d : Fin 64) (ws : List Word) : (s.traceWrite d ws).besideMemory = s.besideMemory := by
  unfold State.traceWrite
  simp only
  split
  · exact State.countRecord_besideMemory ..
  · split
    · exact State.countRecord_besideMemory { s with freeCtr := s.freeCtr + 1 } ..
    · rw [State.countRecord_besideMemory, State.homeRun_besideMemory]
      rfl

@[simp] theorem State.cohRecord_besideMemory (s : State) (q : Requester) (line event before after : Nat) :
    (s.cohRecord q line event before after).besideMemory = s.besideMemory := by
  unfold State.cohRecord
  simp only
  split
  · exact State.traceWrite_besideMemory ..
  · rfl

@[simp] theorem State.correct_besideMemory (s : State) (pa n : Nat) : (s.correct pa n).besideMemory = s.besideMemory := by
  unfold State.correct
  simp only
  split <;> rfl

/-! #### The directory -/

@[simp] theorem State.setLine_besideMemory (s : State) (d : Fin 64) (line st : Nat) : (s.setLine d line st).besideMemory = s.besideMemory := rfl

@[simp] theorem State.otherLines_besideMemory (s : State) (d : Fin 64) (line : Nat) (f : Nat → Nat) :
    (s.otherLines d line f).besideMemory = s.besideMemory := rfl

@[simp] theorem State.setDie_besideMemory (s : State) (d : Fin 64) (x : Die) : (s.setDie d x).besideMemory = s.besideMemory := rfl

@[simp] theorem State.evictLine_besideMemory (s : State) (d : Fin 64) (line : Nat) : (s.evictLine d line).besideMemory = s.besideMemory := by
  unfold State.evictLine
  simp only
  split
  · rfl
  · split <;> simp

@[simp] theorem State.evictBlock_besideMemory (s : State) (d : Fin 64) (b : Block) : (s.evictBlock d b).besideMemory = s.besideMemory := by
  unfold State.evictBlock
  simp only [State.setDie_besideMemory]
  exact State.besideMemory_foldl (fun t i => State.evictLine_besideMemory t d (b.first + i)) _ s

@[simp] theorem State.trimSlice_besideMemory (s : State) (d : Fin 64) (line n : Nat) : (s.trimSlice d line n).besideMemory = s.besideMemory := by
  have draw : { s with freeCtr := s.freeCtr + 1 }.besideMemory = s.besideMemory := rfl
  unfold State.trimSlice
  simp only
  split
  · rfl
  · split
    · rfl
    · split
      · rw [State.evictLine_besideMemory, draw]
      · split
        · rw [State.evictBlock_besideMemory, draw]
        · exact draw

@[simp] theorem State.enterLine_besideMemory (s : State) (d : Fin 64) (line st : Nat) : (s.enterLine d line st).besideMemory = s.besideMemory := by
  unfold State.enterLine
  simp only [State.setLine_besideMemory]
  split
  · rfl
  · exact State.trimSlice_besideMemory ..

@[simp] theorem State.readLine_besideMemory (s : State) (q : Requester) (line : Nat) : (s.readLine q line).besideMemory = s.besideMemory := by
  unfold State.readLine
  simp only
  split
  · rfl
  · simp

@[simp] theorem State.leaveBlock_besideMemory (s : State) (d : Fin 64) (line : Nat) : (s.leaveBlock d line).besideMemory = s.besideMemory := by
  unfold State.leaveBlock
  simp only
  split
  · simp
  · rfl

@[simp] theorem State.ownLine_besideMemory (s : State) (q : Requester) (line : Nat) : (s.ownLine q line).besideMemory = s.besideMemory := by
  unfold State.ownLine
  simp only
  split
  · simp
  · split <;> simp

@[simp] theorem State.dropCopy_besideMemory (s : State) (q : Requester) (line : Nat) (drop : Bool) (p : Fin 64 × Nat) :
    (s.dropCopy q line drop p).besideMemory = s.besideMemory := by
  have written : (if p.2 = cleanState p.2 then s else
      (s.setLine p.1 line (cleanState p.2)).cohRecord q line 3 p.2 (cleanState p.2)).besideMemory = s.besideMemory := by
    split
    · rfl
    · simp
  unfold State.dropCopy
  cases drop with
  | false => exact written
  | true => simpa using written

@[simp] theorem State.homeLine_besideMemory (s : State) (q : Requester) (line : Nat) : (s.homeLine q line).besideMemory = s.besideMemory := by
  unfold State.homeLine
  rw [State.cohRecord_besideMemory]
  exact State.besideMemory_foldl (fun t p => State.dropCopy_besideMemory t q line true p) _ s

@[simp] theorem State.readRun_besideMemory (s : State) (q : Requester) (pa n : Nat) : (s.readRun q pa n).besideMemory = s.besideMemory :=
  State.besideMemory_foldl (fun t l => State.readLine_besideMemory t q l) _ s

@[simp] theorem State.ownRun_besideMemory (s : State) (q : Requester) (pa n : Nat) : (s.ownRun q pa n).besideMemory = s.besideMemory :=
  State.besideMemory_foldl (fun t l => State.ownLine_besideMemory t q l) _ s

/-! #### Walks and the places that the hardware finds for itself -/

/-- A sequence of two effects succeeds when the first does, and the second does with its result. -/
theorem Eff.bind_eq_ok {α β : Type} {x : Eff α} {f : α → Eff β} {r : β} : (x >>= f) = .ok r ↔ ∃ a, x = .ok a ∧ f a = .ok r := by
  cases x with
  | error e => simp [bind, Except.bind]
  | ok a => simp [bind, Except.bind]

/-- An effect behind a check that traps succeeds when the check passes and it does. -/
theorem Eff.ite_trap_eq_ok {α : Type} {p : Prop} [Decidable p] {w : Who} {cause : BitVec 8} {tval : Word} {y : Eff α} {r : α} :
    (if p then w.trap cause tval else y) = .ok r ↔ ¬p ∧ y = .ok r := by
  by_cases hp : p
  · simp [hp, Who.trap]
  · simp [hp]

theorem readPte_besideMemory {s s1 : State} {w : Who} {va e : Word} {pa : Nat} (h : readPte s w va pa = .ok (s1, e)) :
    s1.besideMemory = s.besideMemory := by
  unfold readPte at h
  simp only [Eff.ite_trap_eq_ok] at h
  obtain ⟨-, -, ⟨⟩⟩ := h
  simp [State.walkLine]

theorem walkFrom_besideMemory {w : Who} {va : Word} {ls : List Nat} {table : Nat} {s s1 : State} {l : Leaf}
    (h : walkFrom w va ls table s = .ok (s1, l)) : s1.besideMemory = s.besideMemory := by
  induction ls generalizing table s with
  | nil => cases h
  | cons lv rest ih =>
    unfold walkFrom at h
    obtain ⟨⟨s2, e⟩, hp, h⟩ := Eff.bind_eq_ok.mp h
    simp only [Eff.ite_trap_eq_ok] at h
    obtain ⟨-, -, h⟩ := h
    split at h
    · obtain ⟨-, ⟨⟩⟩ := Eff.ite_trap_eq_ok.mp h
      exact readPte_besideMemory hp
    · exact (ih h).trans (readPte_besideMemory hp)

theorem walk_besideMemory {s s1 : State} {w : Who} {va : Word} {l : Leaf} (h : walk s w va = .ok (s1, l)) : s1.besideMemory = s.besideMemory := by
  unfold walk at h
  obtain ⟨⟨s2, e⟩, hp, h⟩ := Eff.bind_eq_ok.mp h
  simp only [Eff.ite_trap_eq_ok] at h
  obtain ⟨-, -, h⟩ := h
  exact (walkFrom_besideMemory h).trans (readPte_besideMemory hp)

theorem enginePlace_besideMemory {s s1 : State} {asn : BitVec 16} {va : Word} {n pa : Nat} {read write : Bool}
    (h : enginePlace s asn va n read write = .ok (s1, pa)) : s1.besideMemory = s.besideMemory := by
  unfold enginePlace at h
  obtain ⟨-, -, h⟩ := Eff.bind_eq_ok.mp h
  obtain ⟨-, h⟩ := Eff.ite_trap_eq_ok.mp h
  obtain ⟨-, -, h⟩ := Eff.bind_eq_ok.mp h
  obtain ⟨⟨s2, l⟩, hw, h⟩ := Eff.bind_eq_ok.mp h
  obtain ⟨-, -, h⟩ := Eff.bind_eq_ok.mp h
  obtain ⟨pa', -, h⟩ := Eff.bind_eq_ok.mp h
  simp only [Eff.ite_trap_eq_ok] at h
  obtain ⟨-, -, ⟨⟩⟩ := h
  rw [← walk_besideMemory hw]
  split
  · exact State.correct_besideMemory ..
  · rfl

theorem engineLoc_besideMemory {s s1 : State} {asn : BitVec 16} {va : Word} {n pa : Nat} {read write : Bool}
    (h : engineLoc s asn va n read write = .ok (s1, pa)) : s1.besideMemory = s.besideMemory := by
  unfold engineLoc at h
  obtain ⟨⟨s2, pa'⟩, hp, ⟨⟩⟩ := Eff.bind_eq_ok.mp h
  rw [← enginePlace_besideMemory hp]
  cases read <;> cases write <;> simp

theorem engineCount_besideMemory {s s1 : State} {asn : BitVec 16} {va : Word} {pa : Nat} (h : engineCount s asn va = .ok (s1, pa)) :
    s1.besideMemory = s.besideMemory := by
  unfold engineCount at h
  obtain ⟨⟨s2, pa'⟩, hp, ⟨⟩⟩ := Eff.bind_eq_ok.mp h
  rw [← enginePlace_besideMemory hp, State.homeLine_besideMemory]

/-! #### Launches of the firmware's own (R259) -/

theorem State.countUp_besideMemory {s s1 : State} {pa : Nat} (h : s.countUp pa = some s1) : s1.besideMemory = s.besideMemory := by
  unfold State.countUp at h
  simp only [Option.ite_none_left_eq_some, Option.some.injEq] at h
  rw [← h.2, State.putBytes_besideMemory]

@[simp] theorem State.startLaunch_besideMemory (s : State) (hdr : Word) (asn : BitVec 16) (image : List Word) (collect : Fin 64) (sup : Bool) (fire : Nat) :
    (s.startLaunch hdr asn image collect sup fire).besideMemory = s.besideMemory := rfl

theorem bootLaunch_besideMemory (s : State) (p : Word × BitVec 16) : (bootLaunch s p).besideMemory = s.besideMemory := by
  unfold bootLaunch
  split
  · rfl
  next s1 pa hl =>
    rw [← engineLoc_besideMemory hl]
    simp only
    split
    · rfl
    split
    · exact State.startLaunch_besideMemory ..
    split
    · rfl
    next s2 own hc =>
      rw [← engineCount_besideMemory hc]
      split
      next s3 hu => rw [State.startLaunch_besideMemory, State.countUp_besideMemory hu]
      · rfl

/-! ### The state that module reset leaves (R20) -/

/-- Every cluster is blank after module reset: the current one is the blank cluster 0 of die 0, and no other is listed. -/
theorem State.reset_clusterAt (c : ClusterId) : State.reset.clusterAt c = Cluster.blank c := by
  unfold State.clusterAt
  split
  next h => rw [← h]; rfl
  · rfl

/-- The registers of a core after module reset, v, a, h and m with their strides and flags. -/
theorem CoreBank.reset_registers (c : CoreBank) (hc : c = {}) :
    (∀ r : Fin 16, c.file.a[r.val] = 0 ∧ c.file.v[r.val] = 0 ∧ c.file.h[r.val] = 0 ∧ ∀ l : Fin 6, (c.stride[r.val])[l.val] = 0) ∧
    (∀ r : Fin 4, c.file.m[r.val] = 0) ∧ c.file.vflags = 0 := by
  subst hc
  refine ⟨fun r => ⟨?_, ?_, ?_, fun l => ?_⟩, fun r => ?_, rfl⟩ <;> simp

/-- Settles O6: a register is an entry of a replicated vector, and the rest of the reset state is read off its definition. -/
theorem resetState : Obligations.ResetState := by
  unfold Obligations.ResetState
  refine ⟨rfl, State.reset_clusterAt, fun i => Vector.getElem_replicate .., fun r => Vector.getElem_replicate ..,
    fun r => Vector.getElem_replicate .., rfl, fun l => ⟨Vector.getElem_replicate .., congrArg LoopLevel.active (Vector.getElem_replicate ..)⟩,
    rfl, rfl, rfl, rfl, rfl, rfl, rfl, rfl, rfl, rfl, rfl, rfl, rfl, rfl, rfl, rfl, rfl, rfl, rfl,
    fun k => CoreBank.reset_registers _ (Vector.getElem_replicate ..), rfl, ⟨Mem.wf_nil, Cells.wf_nil⟩, rfl, rfl⟩

/-! ### TSTEP (R351) -/

theorem State.tstepNow_of_aligned {s : State} (h : s.aligned = true) : s.tstepNow = (s.tstep + (s.now - s.tstepAt) / 4096) % 2 ^ 64 := if_pos h

theorem State.tstepNow_of_not_aligned {s : State} (h : s.aligned = false) : s.tstepNow = s.tstep := if_neg (by simp [h])

/-- A block of 4096 cycles that the register has counted is no longer counted from `tstepAt`. -/
theorem State.tstepNow_stepped {s : State} (h : s.aligned = true) (hn : s.tstepAt + 4096 ≤ s.now) :
    { s with tstep := (s.tstep + 1) % 2 ^ 64, tstepAt := s.tstepAt + 4096 }.tstepNow = s.tstepNow := by
  refine (State.tstepNow_of_aligned (s := { s with tstep := (s.tstep + 1) % 2 ^ 64, tstepAt := s.tstepAt + 4096 }) h).trans ?_
  rw [State.tstepNow_of_aligned h]
  change ((s.tstep + 1) % 2 ^ 64 + (s.now - (s.tstepAt + 4096)) / 4096) % 2 ^ 64 = _
  omega

theorem exec_tstepIncrement_due {s : State} (h : s.aligned = true) (hn : s.tstepAt + 4096 ≤ s.now) :
    exec .tstepIncrement s = .next { s with tstep := (s.tstep + 1) % 2 ^ 64, tstepAt := s.tstepAt + 4096 } :=
  congrArg _ (if_pos (by simp [h, hn]))

theorem exec_tstepIncrement_not_due {s : State} (h : s.aligned = false ∨ s.now < s.tstepAt + 4096) : exec .tstepIncrement s = .next s :=
  congrArg _ (if_neg (by simpa [imp_iff_not_or] using h))

theorem exec_timeAlignmentLoss_of_aligned {s : State} (h : s.aligned = true) :
    exec .timeAlignmentLoss s = .next { s with aligned := false, tstep := s.tstepNow, counts := Cells.set s.counts 4 (Cells.get s.counts 4 + 1) } :=
  congrArg _ (if_pos h)

theorem exec_timeAlignmentLoss_of_not_aligned {s : State} (h : s.aligned = false) : exec .timeAlignmentLoss s = .next s :=
  congrArg _ (if_neg (by simp [h]))

theorem exec_alignedAgain_of_aligned {s : State} (h : s.aligned = true) : exec .alignedAgain s = .next s := congrArg _ (if_pos h)

theorem exec_alignedAgain_of_not_aligned {s : State} (h : s.aligned = false) :
    exec .alignedAgain s = .next { s with aligned := true, tstepAt := s.now } :=
  congrArg _ (if_neg (by simp [h]))

/-! ### Polls (R346) -/

/-- The state of a poll that has taken its slot and holds no request yet. -/
def State.polled (s : State) : State := { s with pollSlot := (s.pollSlot + 1) % 64, fires := [] }

theorem exec_firmwarePollSlot (s : State) : exec .firmwarePollSlot s = .next (retryHeld s.fires [] s.polled) := rfl

/-- The one request that waits is looked at again: it is performed, or waits on. -/
theorem retryHeld_singleton {m : HostMsg} {s : State} (h : ∀ x ∈ s.preempts, x.2.sid ≠ m.sid) :
    retryHeld [m] [] s = (performMsg m s).getD { s with fires := s.fires ++ [m] } := by
  have free : (([] : List Nat).contains m.sid || s.preempts.any (fun p => p.2.sid = m.sid)) = false := by simpa using h
  simp only [retryHeld, free, Bool.false_eq_true, if_false]
  cases performMsg m s <;> rfl

theorem exec_firmwarePollSlot_singleton {m : HostMsg} {s : State} (hm : s.fires = [m]) (h : ∀ x ∈ s.preempts, x.2.sid ≠ m.sid) :
    exec .firmwarePollSlot s = .next ((performMsg m s.polled).getD { s.polled with fires := [m] }) := by
  rw [exec_firmwarePollSlot, hm, retryHeld_singleton (s := s.polled) h]
  rfl

/-! ### Module reset (R20, R347, R348) -/

theorem Cells.get_foldl_clear {w : Nat} {α : Type} (lo hi : α → Nat) (l : List α) (m : Cells w) (x : Nat) :
    Cells.get (l.foldl (fun m d => Cells.clear m (lo d) (hi d)) m) x = if ∃ d ∈ l, lo d ≤ x ∧ x < hi d then 0 else Cells.get m x := by
  induction l generalizing m with
  | nil => simp
  | cons d l ih =>
    rw [List.foldl_cons, ih, Cells.get_clear]
    by_cases hd : lo d ≤ x ∧ x < hi d
    · simp [hd]
    · simp only [List.exists_mem_cons_iff, hd, false_or, if_false]

/-- The debug blocks of the 64 dies lie one after the other, right after the heaps' descriptors. -/
theorem exists_debugBase_iff (x : Nat) :
    (∃ d ∈ List.finRange 64, debugBase d ≤ x ∧ x < debugBase d + 256) ↔ Config.heapTable + 0x400 ≤ x ∧ x < Config.heapTable + 0x4400 := by
  unfold debugBase
  generalize Config.heapTable = base
  constructor
  · rintro ⟨d, -, h⟩
    have := d.isLt
    omega
  · intro h
    refine ⟨⟨(x - (base + 0x400)) / 256, by omega⟩, List.mem_finRange _, ?_⟩
    simp only
    omega

theorem get_resetMem (m : Mem) (x : Nat) :
    (resetMem m).get x = if Config.heapTable ≤ x ∧ x < Config.heapTable + 0x4400 then 0 else m.get x := by
  unfold resetMem Mem.get
  rw [Cells.get_foldl_clear, Cells.get_clear]
  simp only [exists_debugBase_iff]
  generalize Config.heapTable = base
  by_cases hx : base ≤ x ∧ x < base + 0x4400
  · rw [if_pos hx]
    by_cases hb : base + 0x400 ≤ x ∧ x < base + 0x4400
    · rw [if_pos hb]
    · rw [if_neg hb, if_pos (by omega)]
  · rw [if_neg hx, if_neg (by omega), if_neg (by omega)]

/-- The spares that the firmware maps in at its boot, unit by unit. -/
def State.mapSpares (s : State) (units : List (Nat × Nat)) : State := units.foldl (fun t p => (t.takeSpare p.1 p.2).getD t) s

/-- The state with another spare map. -/
def State.withSpares (s : State) (m : List (Nat × Nat × Nat)) : State := { s with spares := m }

theorem State.withSpares_mem (s : State) (m : List (Nat × Nat × Nat)) : (s.withSpares m).mem = s.mem := rfl

theorem State.withSpares_spares (s : State) : s.withSpares s.spares = s := rfl

/-- A unit that the firmware replaces changes the spare map alone. -/
theorem State.takeSpare_frame (s : State) (k u : Nat) : ∃ m, (s.takeSpare k u).getD s = s.withSpares m := by
  unfold State.takeSpare
  cases (sparesFor k u).find? fun i => (s.spareUnit k i).isNone with
  | none => exact ⟨_, s.withSpares_spares.symm⟩
  | some i => exact ⟨_, rfl⟩

theorem State.mapSpares_frame (s : State) (units : List (Nat × Nat)) : ∃ m, s.mapSpares units = s.withSpares m := by
  induction units generalizing s with
  | nil => exact ⟨_, s.withSpares_spares.symm⟩
  | cons p units ih =>
    obtain ⟨m, hm⟩ := s.takeSpare_frame p.1 p.2
    obtain ⟨m', hm'⟩ := ih (s.withSpares m)
    exact ⟨m', (congrArg (State.mapSpares · units) hm).trans hm'⟩

/-- The state in which the boot ROM has measured and checked the stored image, before the firmware starts. -/
def State.measuredReset (s : State) : State :=
  State.measured { State.reset with
    mem := resetMem s.mem, badWords := s.badWords, softWords := s.softWords, image := s.image, booted := s.image, spares := s.spares,
    resets := s.resets + 1, recovery := s.image.any fun x => !imageBoots x,
    agenda := s.agenda, ev := s.ev, turn := s.turn, freeCtr := s.freeCtr } s.image

theorem State.measuredReset_mem (s : State) : s.measuredReset.mem = resetMem s.mem := by
  simp only [State.measuredReset, State.measured]

/-- The stored image passes both checks of R347, or none is stored. -/
def State.imagePasses (s : State) : Prop := ∀ x, s.image = some x → Config.signerHash x = Config.fusedKeyHash ∧ Config.imageValid x = true

theorem State.imagePasses_iff (s : State) : s.imagePasses ↔ ∀ x, s.image = some x → imageBoots x = true := by
  simp only [State.imagePasses, imageBoots, Bool.and_eq_true, decide_eq_true_eq]

theorem State.measuredReset_recovery (s : State) : s.measuredReset.recovery = true ↔ ¬s.imagePasses := by
  change (s.image.any fun x => !imageBoots x) = true ↔ _
  rw [State.imagePasses_iff]
  cases s.image with
  | none => simp
  | some x => simp

/-- The state after module reset before the firmware's launches: it has mapped spares in, unless the device is in recovery. -/
def State.beforeLaunches (s : State) : State :=
  if s.measuredReset.recovery then s.measuredReset else s.measuredReset.mapSpares (Config.bootSpares (s.resets + 1).toNat)

theorem State.beforeLaunches_of_not_passes {s : State} (h : ¬s.imagePasses) : s.beforeLaunches = s.measuredReset :=
  if_pos (s.measuredReset_recovery.mpr h)

theorem State.beforeLaunches_frame (s : State) : ∃ m, s.beforeLaunches = s.measuredReset.withSpares m := by
  unfold State.beforeLaunches
  by_cases h : s.measuredReset.recovery = true
  · rw [if_pos h]
    exact ⟨_, s.measuredReset.withSpares_spares.symm⟩
  · rw [if_neg h]
    exact State.mapSpares_frame ..

theorem exec_moduleReset (s : State) :
    exec .moduleReset s = .next (if s.measuredReset.recovery then s.measuredReset else s.measuredReset.boot) := rfl

/-- The firmware maps spares in and starts its launches where the image passes; else the device stays as the boot ROM left it. -/
theorem exec_moduleReset_of_passes {s : State} (h : s.imagePasses) :
    exec .moduleReset s = .next ((Config.bootLaunches (s.resets + 1).toNat).foldl bootLaunch s.beforeLaunches) := by
  have ok : ¬s.measuredReset.recovery = true := fun k => s.measuredReset_recovery.mp k h
  rw [exec_moduleReset, State.beforeLaunches, if_neg ok, if_neg ok]
  rfl

theorem exec_moduleReset_of_not_passes {s : State} (h : ¬s.imagePasses) : exec .moduleReset s = .next s.beforeLaunches := by
  rw [exec_moduleReset, if_pos (s.measuredReset_recovery.mpr h), State.beforeLaunches_of_not_passes h]

/-- What module reset ends in, and that beside memory nothing but the spare map then differs from what the boot ROM left. -/
theorem exec_moduleReset_besideMemory (s : State) :
    ∃ t m, exec .moduleReset s = .next t ∧
      (s.imagePasses → t = (Config.bootLaunches (s.resets + 1).toNat).foldl bootLaunch s.beforeLaunches) ∧ (¬s.imagePasses → t = s.beforeLaunches) ∧
      t.besideMemory = (s.measuredReset.withSpares m).besideMemory := by
  obtain ⟨m, hm⟩ := s.beforeLaunches_frame
  by_cases h : s.imagePasses
  · exact ⟨_, m, exec_moduleReset_of_passes h, fun _ => rfl, fun k => absurd h k,
      (State.besideMemory_foldl bootLaunch_besideMemory _ _).trans (congrArg State.besideMemory hm)⟩
  · exact ⟨_, m, exec_moduleReset_of_not_passes h, fun k => absurd k h, fun _ => rfl, congrArg State.besideMemory hm⟩

/-! ### The statement -/

/-- Settles O58: each step's equation gives its clause. Of module reset every field that is read at the end, `t`, stands beside memory, and what is read
before the firmware's launches, in `s.beforeLaunches`, is the boot ROM's but for the spare map. -/
theorem timePollsAndModuleReset : Obligations.TimePollsAndModuleReset := by
  unfold Obligations.TimePollsAndModuleReset
  intro s
  refine ⟨State.tstepNow_of_aligned, fun h hn => ⟨_, exec_tstepIncrement_due h hn, rfl, State.tstepNow_stepped h hn⟩, exec_tstepIncrement_not_due,
    fun h hc => ⟨_, exec_timeAlignmentLoss_of_aligned h, rfl, State.tstepNow_of_not_aligned rfl, (Cells.get_set hc 4 _ 4).trans (if_pos rfl)⟩,
    fun h => ⟨exec_timeAlignmentLoss_of_not_aligned h, _, exec_alignedAgain_of_not_aligned h, rfl, Nat.lt_add_of_pos_right (by decide)⟩,
    exec_alignedAgain_of_aligned,
    ⟨fun h => ?_, fun m h hs => ⟨fun t (ht : performMsg m s.polled = some t) => ?_, fun (hn : performMsg m s.polled = none) => ?_⟩⟩, ?_⟩
  · rw [exec_firmwarePollSlot, h]
    rfl
  · rw [exec_firmwarePollSlot_singleton h hs, ht]
    rfl
  · rw [exec_firmwarePollSlot_singleton h hs, hn]
    rfl
  · obtain ⟨t, m, ht, hpass, hfail, hb⟩ := exec_moduleReset_besideMemory s
    obtain ⟨n, hu⟩ := s.beforeLaunches_frame
    have field {α : Type} (f : State → α) : f t.besideMemory = f (s.measuredReset.withSpares m).besideMemory := congrArg f hb
    have before {α : Type} (f : State → α) : f s.beforeLaunches = f (s.measuredReset.withSpares n) := congrArg f hu
    have hm1 : t.m1 = s.image.elim (leBytes Config.factoryHash.toNat 32) sha3 := field State.m1
    have hm2 : t.m2 = leBytes (s.image.elim Config.fusedKeyHash Config.signerHash).toNat 32 := field State.m2
    have hrec : t.recovery = s.measuredReset.recovery := field State.recovery
    refine ⟨s.beforeLaunches, t, ht, hpass, hfail, field State.cl, field State.others, field State.armed, field State.streams, field State.tstep,
      field State.cycle, field State.image, field State.resets, before State.badWords, fun _ x => ?_, field State.m0, ?_, ?_, field State.m3, ?_,
      before State.lines, before State.dies, before State.launches, fun h => ?_⟩
    · rw [hu, State.withSpares_mem, State.measuredReset_mem]
      exact get_resetMem s.mem x
    · rw [hm1]
      cases s.image <;> rfl
    · rw [hm2]
      cases s.image <;> rfl
    · rw [hrec]
      exact s.measuredReset_recovery
    · rw [hfail h, State.beforeLaunches_of_not_passes h]
      rfl

end Sys2Proof.Machine
end

section
/-!
SUPPORT. A step at the open bundle, and the issue of the next one (O4, O5): what runs at a decoded slot, what a fetch and an issue leave alone, and
the bundle of one word that the bank finds at its PC.
-/

namespace Sys2Proof.Machine

/-! ### Slots of the open bundle -/

/-- The open bundle that a state has. -/
theorem State.opn_of_some {s : State} {o : OpenBundle} (h : s.cl.opn = some o) : s.opn = o := by
  rw [State.opn, h]
  rfl

theorem slotDue_of_opn {s : State} {o : OpenBundle} (h : s.cl.opn = some o) : slotDue s = !o.stalled := by
  rw [slotDue, h, State.opn_of_some h]
  rfl

theorem step_of_slotDue {s : State} (h : slotDue s = true) : step s = runSlot s := if_pos h

/-- A decoded slot of a bundle whose encoding is legal: it is performed when it acts, and passed over otherwise. -/
theorem runSlot_of_decoded {s : State} {o : OpenBundle} {w : BitVec 32} {x : Slot} (h : s.cl.opn = some o) (hb : o.bad = none)
    (hx : o.slots[o.idx]? = some ⟨w, some x⟩) : runSlot s = if o.acts then thenNext (exec x.op s) else .next (passSlot s) := by
  unfold runSlot
  simp only [State.opn_of_some h, hx, hb]

theorem step_of_decoded {s : State} {o : OpenBundle} {w : BitVec 32} {x : Slot} (h : s.cl.opn = some o) (hs : o.stalled = false)
    (hb : o.bad = none) (hx : o.slots[o.idx]? = some ⟨w, some x⟩) :
    step s = if o.acts then thenNext (exec x.op s) else .next (passSlot s) := by
  rw [step_of_slotDue (by rw [slotDue_of_opn h, hs]; rfl), runSlot_of_decoded h hb hx]

theorem OpenBundle.acts_iff (o : OpenBundle) : o.acts = true ↔ o.guards.getLsbD o.idx = true ∧ o.kept.getLsbD o.idx = true := Bool.and_eq_true_iff

/-- Only a resolved branch at the slot itself has an effect where the slot is passed over. -/
theorem State.resolve_of_not_resolved {s : State} (h : ∀ a, s.opn.resolved ≠ some (s.opn.idx, a)) : s.resolve = s := by
  unfold State.resolve
  split
  next i a hr => exact if_neg fun (hi : i = s.opn.idx) => h a (hi ▸ hr)
  · rfl

theorem passSlot_of_not_resolved {s : State} (h : ∀ a, s.opn.resolved ≠ some (s.opn.idx, a)) : passSlot s = finishSlot s := by
  rw [passSlot, State.resolve_of_not_resolved h]

/-- After a slot that is not the last, only the open bundle has changed: it stands at the next slot, and its prefixes are kept after a prefix alone. -/
theorem finishSlot_of_not_last {s : State} (h : s.opn.idx + 1 < s.opn.slots.length) :
    finishSlot s = s.modOpn fun o =>
      let pre := ((s.opn.slots[s.opn.idx]?).map fun f => isPrefix f.word).getD false
      { o with idx := o.idx + 1, phase := 0, abandon := false, ext := if pre then o.ext else none, ord := if pre then o.ord else none } :=
  if_neg (Nat.not_le.mpr h)

theorem State.modOpn_opn {s : State} {o : OpenBundle} (h : s.cl.opn = some o) (f : OpenBundle → OpenBundle) : (s.modOpn f).opn = f o := by
  rw [State.opn, State.modOpn, h]
  rfl

/-- What is written to an open bundle depends on that bundle alone. -/
theorem State.modOpn_const {s : State} {o : OpenBundle} (h : s.cl.opn = some o) (f : OpenBundle → OpenBundle) :
    s.modOpn f = s.modOpn fun _ => f o := by
  simp only [State.modOpn, h, Option.map_some]

/-- Settles O4: the meaning of a decoded slot, of the passing of a slot and of the agenda's head are the equations above. -/
theorem stepRunsTheDecodedInstruction : Obligations.StepRunsTheDecodedInstruction := by
  unfold Obligations.StepRunsTheDecodedInstruction
  refine ⟨fun s o w x ho hs hb hx => ?_, fun s e rest hd ha => ?_⟩
  · have run := step_of_decoded ho hs hb hx
    have open_eq := State.opn_of_some ho
    refine ⟨fun hg hk => ?_, fun h => ?_, fun hr => ?_, fun hl => ?_⟩
    · rw [run, if_pos (o.acts_iff.mpr ⟨hg, hk⟩)]
    · rw [run, if_neg (by rw [o.acts_iff]; rcases h with h | h <;> simp [h])]
    · exact passSlot_of_not_resolved fun a => by simp [open_eq, hr]
    · have step_on := finishSlot_of_not_last (s := s) (by rwa [open_eq])
      rw [step_on, State.modOpn_opn ho]
      exact ⟨State.modOpn_const ho _, rfl, rfl, rfl, rfl⟩
  · rw [step, if_neg (by simp [hd]), ha]
    rfl


/-! ### NOP -/

theorem exec_nop (s : State) : exec .nop s = .next s := rfl

theorem afterSlot_of_opn {s : State} {o : OpenBundle} (h : s.cl.opn = some o) (hs : o.stalled = false) : afterSlot s = finishSlot s := by
  simp [afterSlot, h, hs]

/-- A step at a NOP only goes on to the next slot, whether the slot acts or is passed over. -/
theorem step_nop {s : State} {o : OpenBundle} {w : BitVec 32} {x : Slot} (h : s.cl.opn = some o) (hs : o.stalled = false) (hb : o.bad = none)
    (hx : o.slots[o.idx]? = some ⟨w, some x⟩) (hn : x.op = .nop) (hr : ∀ a, o.resolved ≠ some (o.idx, a)) : step s = .next (finishSlot s) := by
  rw [step_of_decoded h hs hb hx]
  split
  · rw [hn, exec_nop, thenNext, afterSlot_of_opn h hs]
  · rw [passSlot_of_not_resolved (by rwa [State.opn_of_some h])]

/-! ### The bundle at the PC -/

theorem step_of_turn_issue {s : State} (hd : slotDue s = false) (ha : s.agenda = []) (ht : (releaseHolds s).turn = 0)
    (hc : canIssue (releaseHolds s) = true) : step s = issueAndRun { releaseHolds s with turn := 1 } := by
  simp [step, hd, ha, takeTurn, ht, firstOf, issueTurn, hc]


/-! #### What a fetch leaves alone -/

/-- From s to t the current cluster is the same and its running bank has not changed. -/
structure SameBank (s t : State) : Prop where
  id : t.cl.id = s.cl.id
  bank : t.cl.bank = s.cl.bank

theorem SameBank.refl (s : State) : SameBank s s := ⟨rfl, rfl⟩

theorem SameBank.trans {s t u : State} (h : SameBank s t) (k : SameBank t u) : SameBank s u := ⟨k.id.trans h.id, k.bank.trans h.bank⟩

theorem Quiet.sameBank {s t : State} (h : Quiet s t) : SameBank s t := ⟨congrArg Cluster.id h.cl, congrArg Cluster.bank h.cl⟩

/-- A TLB belongs to the cluster, not to its bank. -/
theorem State.setTlb_sameBank (s : State) (a : Fin 9) (l : List Leaf) : SameBank s { s with cl := s.cl.setTlb a l } := by
  unfold Cluster.setTlb
  split
  · exact ⟨rfl, rfl⟩
  · exact ⟨rfl, rfl⟩

theorem translate_sameBank {s s1 : State} {w : Who} {va : Word} {l : Leaf} (h : Machine.translate s w va = .ok (s1, l)) : SameBank s s1 := by
  unfold Machine.translate at h
  simp only at h
  split at h
  · cases h
    exact .refl s
  · split at h
    · cases h
      exact s.setTlb_sameBank ..
    · split at h
      · cases h
      next s2 _ hw =>
        cases h
        exact (walk_quiet hw).sameBank.trans ((s2.setTlb_sameBank ..).trans (State.setDie_quiet _ _ _).sameBank)

theorem findLeaf_sameBank {s s1 : State} {w : Who} {va : Word} {l : Leaf} (h : findLeaf s w va = .ok (s1, l)) : SameBank s s1 := by
  unfold findLeaf at h
  split at h
  · split at h
    · split at h
      · cases h
        exact .refl s
      · cases h
    · cases h
  · exact translate_sameBank h

theorem locate_sameBank {s s1 : State} {w : Who} {u : Use} {va : Word} {n : Nat} {l : Loc} (h : locate s w u va n = .ok (s1, l)) :
    SameBank s s1 := by
  unfold locate at h
  split at h
  · split at h
    · cases h
      exact .refl s
    · cases h
  · split at h
    · cases h
    next hf =>
      split at h
      · cases h
      · split at h
        · cases h
          exact (findLeaf_sameBank hf).trans (pinCorrect_quiet ..).sameBank
        · cases h

theorem State.correctLoc_sameBank (s : State) (l : Loc) (n : Nat) : SameBank s (s.correctLoc l n) := by
  cases l with
  | mem pa => exact (State.correct_quiet ..).sameBank
  | pool c k acc off => exact .refl s

theorem fetchWord_sameBank {s s1 : State} {w : Who} {va : Word} {x : BitVec 32} (h : fetchWord s w va = .ok (s1, x)) : SameBank s s1 := by
  unfold fetchWord at h
  obtain ⟨-, -, h⟩ := Eff.bind_eq_ok.mp h
  obtain ⟨-, h⟩ := Eff.ite_trap_eq_ok.mp h
  obtain ⟨-, -, h⟩ := Eff.bind_eq_ok.mp h
  obtain ⟨⟨s2, l⟩, hl, h⟩ := Eff.bind_eq_ok.mp h
  obtain ⟨-, ⟨⟩⟩ := Eff.ite_trap_eq_ok.mp h
  exact (locate_sameBank hl).trans (State.correctLoc_sameBank ..)

theorem fetchFrom_sameBank {w : Who} {pc : Word} {n i : Nat} {acc ws : List (BitVec 32)} {s s1 : State}
    (h : fetchFrom w pc i acc n s = .ok (s1, ws)) : SameBank s s1 := by
  induction n generalizing i acc s with
  | zero => cases h
  | succ n ih =>
    unfold fetchFrom at h
    split at h
    · cases h
    next hf =>
      split at h
      · cases h
        exact fetchWord_sameBank hf
      · exact (fetchWord_sameBank hf).trans (ih h)

theorem nextWords_sameBank {s s1 : State} {ws : List (BitVec 32)} (h : nextWords s = .ok (s1, ws)) : SameBank s s1 := by
  unfold nextWords at h
  split at h
  · cases h
    exact .refl s
  · cases h
    exact .refl s
  · exact fetchFrom_sameBank h

/-! #### Issue stays in its cluster -/

theorem walkNotes_quiet (w : Who) (va : Word) (ls : List Nat) (table : Nat) (s : State) : Quiet s (walkNotes w va ls table s) := by
  induction ls generalizing table s with
  | nil => exact .refl s
  | cons lv rest ih =>
    unfold walkNotes
    split
    · exact .refl s
    next hp => exact (readPte_quiet hp).trans (.ite (ih ..) (.refl _))

theorem State.noteWalk_quiet (s : State) (w : Who) (cause : BitVec 8) (va : Word) : Quiet s (s.noteWalk w cause va) := by
  unfold State.noteWalk
  refine .ite (.refl s) ?_
  split
  · exact .refl s
  next hp => exact (readPte_quiet hp).trans (.ite (walkNotes_quiet ..) (.refl _))

theorem loopExits_quiet (s : State) (old new : Vector LoopLevel 6) (bank : Fin 8) (asn : BitVec 16) (cycle : Nat) :
    Quiet s (loopExits s old new bank asn cycle) :=
  .ite (.foldl (fun t _ => .ite (State.traceWrite_quiet ..) (.refl t)) _ s) (.refl s)

theorem State.noteCycles_id (s : State) (x : CycleInfo) (n : Nat) : (s.noteCycles x n).cl.id = s.cl.id := by
  unfold State.noteCycles
  split <;> rfl

theorem awaitWrites_id (s : State) : (awaitWrites s).cl.id = s.cl.id := by
  unfold awaitWrites
  simp only
  split
  · rfl
  · exact State.noteCycles_id ..

theorem issueTrap_id (s : State) (cause : BitVec 8) (tval : Word) (words : Option (List (BitVec 32))) :
    (issueTrap s cause tval words).cl.id = s.cl.id := by
  cases words with
  | none => exact (State.noteWalk_quiet s _ cause tval).sameBank.id
  | some ws =>
    unfold issueTrap
    simp only [State.modBank_cl_id]
    split <;> rfl

theorem skipBundle_id (s : State) (pc : Word) (len : Nat) : (skipBundle s pc len).cl.id = s.cl.id :=
  (loopExits_quiet s ..).sameBank.id

theorem openBundle_id (s : State) (pc : Word) (ws : List (BitVec 32)) : (openBundle s pc ws).cl.id = s.cl.id := by
  unfold openBundle
  simp only [State.modCl_cl]
  split <;> rfl

/-- The state whose next bundle issues: what it waits for has passed, and what is due has been delivered. -/
def issueState (s : State) : State := ((awaitWrites s).settle (awaitWrites s).cl.time).modBank endChecked

theorem issueState_id (s : State) : (issueState s).cl.id = s.cl.id := awaitWrites_id s

theorem issueBundle_id (s : State) : (issueBundle s).cl.id = s.cl.id := by
  unfold issueBundle
  simp only
  split
  · exact (issueTrap_id ..).trans (issueState_id s)
  · exact issueState_id s
  next hn =>
    have fetched_id := (nextWords_sameBank hn).id.trans (issueState_id s)
    split
    · exact (issueTrap_id ..).trans fetched_id
    · split
      · exact (issueTrap_id ..).trans fetched_id
      · split
        · exact (skipBundle_id ..).trans fetched_id
        · exact (openBundle_id ..).trans fetched_id

theorem State.focus_self (s : State) : s.focus s.cl.id = s := if_pos rfl

/-- Work on the current cluster that stays in it needs no change of cluster. -/
theorem onCluster_self {s : State} {f : State → State} (h : (f s).cl.id = s.cl.id) : onCluster s.cl.id f s = f s := by
  rw [onCluster, State.focus_self, ← h, State.focus_self]

theorem exec_bundleIssue {s : State} (h : s.ev.c = s.cl.id) : exec .bundleIssue s = .next (if canIssue s = true then issueBundle s else s) := by
  change execBundleIssue s = _
  rw [execBundleIssue, h, onCluster_self]
  split
  · exact issueBundle_id s
  · rfl

/-! #### What says which bundle is next -/

/-- Where the bank enters its next bundle, and as what: the PC, the point of a residual, and a split or trap that it goes on after. -/
def Bank.place (b : Bank) : Word × Option (Nat × Nat) × Option Reentry := (b.pc, b.residual, b.reenter)

theorem Bank.write_place (b : Bank) (w : SeqWrite) : (b.write w).place = b.place := by
  cases w <;> rfl

theorem Bank.settleFold_place (t : Nat) (l : List (Pending SeqWrite)) (b : Bank) : (Machine.settle Bank.write t l b).1.place = b.place := by
  induction l generalizing b with
  | nil => rfl
  | cons p ps ih =>
    unfold Machine.settle
    split
    · exact (ih _).trans (b.write_place _)
    · rfl

theorem Bank.settle_place (t : Nat) (b : Bank) : (b.settle t).place = b.place := Bank.settleFold_place t b.pend b

theorem Bank.addFlags_place (b : Bank) (f : Vector (BitVec 32) 8) : (b.addFlags f).place = b.place := rfl

theorem State.settle_place (s : State) (t : Nat) : (s.settle t).cl.bank.place = s.cl.bank.place :=
  (Bank.addFlags_place ..).trans (Bank.settle_place t s.cl.bank)

theorem endChecked_place (b : Bank) : (endChecked b).place = b.place := rfl

theorem State.noteCycles_bank (s : State) (x : CycleInfo) (n : Nat) : (s.noteCycles x n).cl.bank = s.cl.bank := by
  unfold State.noteCycles
  split <;> rfl

theorem awaitWrites_place (s : State) : (awaitWrites s).cl.bank.place = s.cl.bank.place := by
  unfold awaitWrites
  simp only
  split
  · rfl
  · change (s.noteIdle ..).cl.bank.place = _
    rw [State.noteIdle, State.noteCycles_bank]

theorem issueState_place (s : State) : (issueState s).cl.bank.place = s.cl.bank.place :=
  (endChecked_place _).trans ((State.settle_place ..).trans (awaitWrites_place s))

theorem enterBuffer_place (b : Bank) (pc : Word) (ws : List (BitVec 32)) : (enterBuffer b pc ws).place = b.place := by
  unfold enterBuffer
  split
  · rfl
  · split <;> rfl

theorem State.point_of_no_residual {s : State} (h : s.cl.bank.residual = none) : s.point = none := by
  rw [State.point, State.bank, Die.point, h]
  rfl

/-! #### A bundle of one word -/

/-- Outside residuals and the loop buffer a word with the stop bit is a whole bundle (R27). -/
theorem nextWords_of_stop {s s1 : State} {x : BitVec 32} (hr : s.cl.bank.residual = none) (hb : buffered s.bank s.bank.pc = none)
    (hf : fetchWord s ⟨8, tswAsn s.bank.tsw, tswSup s.bank.tsw⟩ s.bank.pc = .ok (s1, x)) (hx : x.getLsbD 31 = true) :
    nextWords s = .ok (s1, [x]) := by
  have first : s.bank.pc + BitVec.ofNat 64 (4 * 0) = s.bank.pc := by simp
  rw [nextWords, State.point_of_no_residual hr, hb]
  simp only
  rw [fetchBundle, fetchFrom, first, hf]
  simp [hx]

/-- One slot keeps every limit of a bundle (R27, R28). -/
theorem limitsOk_singleton (x : BitVec 32) : limitsOk [x] = true := by
  have class_le (c : SlotClass) : ([x].filter fun y => classOf (majorOf y) = some c).length ≤ classLimit c := by
    refine (List.length_filter_le ..).trans ?_
    rw [List.length_singleton]
    cases c <;> decide
  have width_le : slotWidth x ≤ 2048 := by
    unfold slotWidth
    split
    · split <;> decide
    · decide
  simp only [limitsOk, Bool.and_eq_true, List.all_eq_true, decide_eq_true_eq]
  exact ⟨fun c _ => class_le c, by simpa using width_le⟩

theorem entrySlot_of_fresh {b : Bank} (h : b.reenter = none) : entrySlot b = 0 := by
  rw [entrySlot, h]
  rfl

theorem passesOver_of_no_residual {s : State} (h : s.cl.bank.residual = none) (ws : List (BitVec 32)) :
    passesOver s ws = ((findBad 0 0 ws).isNone && nullified s.bank s.cl.time ws) := by
  rw [passesOver, State.point_of_no_residual h]

/-- A bundle that the bank does not enter again opens at its first slot, with every slot there (R23, R33). -/
theorem openBundle_opn_of_fresh {s : State} (hr : s.cl.bank.residual = none) (hn : s.cl.bank.reenter = none) (pc : Word) (ws : List (BitVec 32)) :
    ∃ o, (openBundle s pc ws).cl.opn = some o ∧ o.pc = pc ∧ o.idx = 0 ∧ o.slots = ws.map fetched ∧ o.stalled = false ∧
      o.bad = findBad 0 0 ws ∧ o.kept = 0xFF ∧ o.resolved = none := by
  have point_none := State.point_of_no_residual hr
  have live : (liveBundle s pc ws).kept = 0xFF ∧ (liveBundle s pc ws).resolved = none := by
    simp [liveBundle, nextKept, point_none]
  unfold openBundle
  simp only [State.bank, hn]
  exact ⟨_, rfl, rfl, rfl, rfl, rfl, rfl, live⟩

/-- The issue of a bundle that is fetched as one word, breaks no rule of the encoding or of the loop buffer, and is not skipped. -/
theorem issueBundle_of_stop {s s1 : State} {x : BitVec 32} (hr : (issueState s).cl.bank.residual = none)
    (hn : (issueState s).cl.bank.reenter = none) (hw : nextWords (issueState s) = .ok (s1, [x])) (hb : findBad 0 0 [x] = none)
    (hl : loopBufferFault (issueState s).bank (issueState s).bank.pc 1 = false)
    (hz : nullified (issueState s).bank (issueState s).cl.time [x] = false) :
    issueBundle s = openBundle (s1.modBank fun b => enterBuffer b (issueState s).bank.pc [x]) (issueState s).bank.pc [x] := by
  have entered : (!limitsOk [x] || decide (1 ≤ entrySlot (issueState s).bank)) = false := by
    rw [limitsOk_singleton, State.bank, entrySlot_of_fresh hn]
    rfl
  have acts : passesOver (issueState s) [x] = false := by rw [passesOver_of_no_residual hr, hb, hz]; rfl
  unfold issueBundle
  simp only
  rw [← issueState, hw]
  simp only [entered, hl, acts, List.length_singleton, Bool.and_false, Bool.false_eq_true, if_false]

/-- After the issue of such a bundle its first slot runs, or is passed over where its guard reads 0 (R23, R27). -/
theorem issueAndRun_of_open {s : State} {o : OpenBundle} {x : BitVec 32} {f : Slot} (ho : (issueBundle s).cl.opn = some o) (hi : o.idx = 0)
    (hs : o.slots = [⟨x, some f⟩]) (hst : o.stalled = false) (hb : o.bad = none) (hk : o.kept = 0xFF) (hr : o.resolved = none) :
    issueAndRun s = if (issueBundle s).opn.guards.getLsbD 0 then thenNext (exec f.op (issueBundle s)) else .next (finishSlot (issueBundle s)) := by
  have due : slotDue (issueBundle s) = true := by rw [slotDue_of_opn ho, hst]; rfl
  have acts : o.acts = o.guards.getLsbD 0 := by rw [OpenBundle.acts, hi, hk]; exact Bool.and_true _
  have passed : passSlot (issueBundle s) = finishSlot (issueBundle s) :=
    passSlot_of_not_resolved fun a => by simp [State.opn_of_some ho, hr]
  rw [issueAndRun]
  simp only [due, if_true]
  rw [runSlot_of_decoded ho hb (w := x) (x := f) (by rw [hs, hi]; rfl), acts, passed, State.opn_of_some ho]

theorem fetched_of_decoded {x : BitVec 32} {f : Slot} (h : decodeSlot x.toNat = .ok f) : fetched x = ⟨x, some f⟩ := by
  rw [fetched, h]
  rfl

/-- The third clause of O5: the bundle at the PC, fetched and decoded, is what runs. -/
theorem issueBundle_runs_fetched {s s1 : State} {x : BitVec 32} {f : Slot} (hr : s.cl.bank.residual = none) (hn : s.cl.bank.reenter = none)
    (hb : buffered (issueState s).bank (issueState s).bank.pc = none)
    (hf : fetchWord (issueState s) ⟨8, tswAsn (issueState s).bank.tsw, tswSup (issueState s).bank.tsw⟩ (issueState s).bank.pc = .ok (s1, x))
    (hx : x.getLsbD 31 = true) (hd : decodeSlot x.toNat = .ok f) (hbad : findBad 0 0 [x] = none)
    (hl : loopBufferFault (issueState s).bank (issueState s).bank.pc 1 = false)
    (hz : nullified (issueState s).bank (issueState s).cl.time [x] = false) :
    ∃ t, issueBundle s = t ∧ t.opn.pc = s.cl.bank.pc ∧ t.opn.idx = 0 ∧ t.opn.slots = [⟨x, some f⟩] ∧
      issueAndRun s = if t.opn.guards.getLsbD 0 then thenNext (exec f.op t) else .next (finishSlot t) := by
  have place : ((issueState s).cl.bank.pc, (issueState s).cl.bank.residual, (issueState s).cl.bank.reenter) =
    (s.cl.bank.pc, s.cl.bank.residual, s.cl.bank.reenter) := issueState_place s
  simp only [Prod.mk.injEq] at place
  obtain ⟨hpc, hres, hre⟩ := place
  rw [hr] at hres
  rw [hn] at hre
  have opened := issueBundle_of_stop hres hre (nextWords_of_stop hres hb hf hx) hbad hl hz
  have bank_eq : (s1.modBank fun b => enterBuffer b (issueState s).bank.pc [x]).cl.bank.place = (issueState s).cl.bank.place :=
    (enterBuffer_place ..).trans (congrArg Bank.place (fetchWord_sameBank hf).bank)
  simp only [Bank.place, Prod.mk.injEq] at bank_eq
  obtain ⟨-, hres1, hre1⟩ := bank_eq
  obtain ⟨o, ho, opc, oidx, oslots, ostalled, obad, okept, oresolved⟩ :=
    openBundle_opn_of_fresh (hres1.trans hres) (hre1.trans hre) (issueState s).bank.pc [x]
  rw [← opened] at ho
  rw [List.map_singleton, fetched_of_decoded hd] at oslots
  refine ⟨_, rfl, ?_, ?_, ?_, issueAndRun_of_open ho oidx oslots ostalled (obad.trans hbad) okept oresolved⟩
  · rw [State.opn_of_some ho, opc]
    exact hpc
  · rw [State.opn_of_some ho, oidx]
  · rw [State.opn_of_some ho, oslots]

/-- Settles O5: what the turn of the bundles comes to, the step of issue in its own cluster, and the issue of a bundle of one word. -/
theorem stepIssuesTheBundleAtThePc : Obligations.StepIssuesTheBundleAtThePc := by
  unfold Obligations.StepIssuesTheBundleAtThePc
  exact ⟨fun s => step_of_turn_issue, fun s => exec_bundleIssue,
    fun s s1 x f hr hn hb hf hx hd hbad hl hz => issueBundle_runs_fetched hr hn hb hf hx hd hbad hl hz⟩

end Sys2Proof.Machine
end

section
/-!
SUPPORT. Slot words (R22, R25, R33): reading fields, what each word decodes to, and what each instruction encodes to.
-/

namespace Sys2Proof

/-! ### Fields and operands -/

theorem fld_lt (x lo n : Nat) : fld x lo n < 2 ^ n := Nat.mod_lt _ (Nat.two_pow_pos n)

theorem fld_zero_of_lt {v n : Nat} (h : v < 2 ^ n) : fld v 0 n = v := by
  unfold fld
  rw [pow_zero, Nat.div_one, Nat.mod_eq_of_lt h]

/-- The number of an operand is the field it is read from. -/
theorem operand_val (x lo : Nat) :
    (fin2 x lo).val = fld x lo 2 ∧ (fin3 x lo).val = fld x lo 3 ∧ (fin4 x lo).val = fld x lo 4 ∧ (fin5 x lo).val = fld x lo 5 ∧
    (fin6 x lo).val = fld x lo 6 ∧ (∀ n, (bv n x lo).toNat = fld x lo n) ∧ (bitAt x lo).toNat = fld x lo 1 := by
  have bit : (bitAt x lo).toNat = fld x lo 1 := by
    unfold bitAt
    obtain h | h := Nat.lt_succ_iff_lt_or_eq.mp (fld_lt x lo 1)
    · rw [Nat.lt_one_iff.mp h]
      rfl
    · rw [h]
      rfl
  refine ⟨?_, ?_, ?_, ?_, ?_, fun n => Nat.mod_eq_of_lt (fld_lt x lo n), bit⟩
  all_goals exact Nat.mod_eq_of_lt (fld_lt x lo _)

/-- An operand is read from a word where its number stands in its field. -/
theorem operand_eq_iff {x lo : Nat} :
    (∀ d, fin2 x lo = d ↔ fld x lo 2 = d.val) ∧ (∀ d, fin3 x lo = d ↔ fld x lo 3 = d.val) ∧ (∀ d, fin4 x lo = d ↔ fld x lo 4 = d.val) ∧
    (∀ d, fin5 x lo = d ↔ fld x lo 5 = d.val) ∧ (∀ d, fin6 x lo = d ↔ fld x lo 6 = d.val) ∧
    (∀ n (v : BitVec n), bv n x lo = v ↔ fld x lo n = v.toNat) ∧ ∀ b, bitAt x lo = b ↔ fld x lo 1 = b.toNat := by
  simp only [Fin.ext_iff, ← BitVec.toNat_inj, operand_val, implies_true, true_and]
  obtain ⟨-, -, -, -, -, -, bit⟩ := operand_val x lo
  rw [← bit]
  cases bitAt x lo <;> decide

/-- The number of a bit vector and of a bit as an element of `Fin`, whose bound linear arithmetic sees. -/
theorem operand_toNat : (∀ n (v : BitVec n), v.toNat = v.toFin.val) ∧ ∀ b : Bool, b.toNat = (BitVec.ofBool b).toFin.val :=
  ⟨fun _ v => v.val_toFin.symm, fun b => by cases b <;> rfl⟩

/-- Two adjacent fields, each at its place, are one field at the place of the lower one. -/
theorem fld_join {x lo n hi k c d : Nat} (hhi : hi = lo + n) (hc : c = 2 ^ hi) (hd : d = 2 ^ lo) :
    fld x hi k * c + fld x lo n * d = fld x lo (n + k) * d := by
  subst hhi hc hd
  unfold fld
  rw [pow_add 2 n k, Nat.mod_mul, Nat.div_div_eq_div_mul, ← pow_add, pow_add 2 lo n]
  ring

/-- The same where the lower field stands at bit 0. -/
theorem fld_join_zero {x hi k c : Nat} (hc : c = 2 ^ hi) : fld x hi k * c + fld x 0 hi = fld x 0 (hi + k) := by
  have join := fld_join (x := x) (k := k) (Nat.zero_add hi).symm hc (pow_zero 2).symm
  rwa [Nat.mul_one, Nat.mul_one] at join

/-- A field below the place of a summand does not see it. -/
theorem fld_tail {v c r lo n : Nat} (h : c % 2 ^ (lo + n) = 0) : fld (v * c + r) lo n = fld r lo n := by
  obtain ⟨e, rfl⟩ := Nat.dvd_of_mod_eq_zero h
  have split : v * (2 ^ (lo + n) * e) + r = 2 ^ lo * (2 ^ n * (v * e)) + r := by ring
  unfold fld
  rw [split, Nat.mul_add_div (Nat.two_pow_pos lo), Nat.mul_add_mod]

@[inherit_doc fld_tail] theorem fld_add_tail {a c lo n : Nat} (h : c % 2 ^ (lo + n) = 0) : fld (a + c) lo n = fld a lo n := by
  have read := fld_tail (v := 1) (r := a) h
  rwa [Nat.one_mul, Nat.add_comm] at read

/-- A field at the place of a summand or above it sees nothing of what stands below that place. -/
theorem fld_head {v c r lo n : Nat} (hr : r < c) (h : 2 ^ lo % c = 0) : fld (v * c + r) lo n = v / (2 ^ lo / c) % 2 ^ n := by
  have hc : 0 < c := Nat.zero_lt_of_lt hr
  unfold fld
  conv_lhs => rw [← Nat.mul_div_cancel' (Nat.dvd_of_mod_eq_zero h), ← Nat.div_div_eq_div_mul, Nat.mul_comm v c, Nat.mul_add_div hc,
    Nat.div_eq_of_lt hr, Nat.add_zero]

/-- Reading a field of a sum of fields, from the highest summand down. -/
theorem fld_sum {lo n : Nat} :
    (∀ {v c r}, c % 2 ^ (lo + n) = 0 → fld (v * c + r) lo n = fld r lo n) ∧
    (∀ {v c r}, r < c → 2 ^ lo % c = 0 → fld (v * c + r) lo n = v / (2 ^ lo / c) % 2 ^ n) ∧
    (∀ {v c}, c % 2 ^ (lo + n) = 0 → fld (v * c) lo n = 0) ∧
    ∀ {v c}, 0 < c → 2 ^ lo % c = 0 → fld (v * c) lo n = v / (2 ^ lo / c) % 2 ^ n := by
  have zero : fld 0 lo n = 0 := by rw [fld, Nat.zero_div, Nat.zero_mod]
  exact ⟨fld_tail, fld_head, fun h => (fld_tail (r := 0) h).trans zero, fun hc h => fld_head (r := 0) hc h⟩

/-! ### The operand field of an instruction -/

/-- The major opcode and the operand field of an instruction whose sole register, where it has one, is what `f` gives for its place (R22). -/
def wordField (i : Instr) (f : Nat → Fin 32) : Option (Nat × Nat) :=
  match soleAt i with
  | some lo => (encodeOp i).map fun p => (p.1, p.2 + (f lo).val * 2 ^ lo)
  | none => encodeOp i

/-- A sole register stands at bit 8 or at bit 13 of the operand field. -/
theorem soleAt_eq {i : Instr} {lo : Nat} (h : soleAt i = some lo) : lo = 8 ∨ lo = 13 := by
  unfold soleAt at h
  split at h <;> cases h <;> decide

/-- The decoder of each major opcode (R25). -/
theorem decodeOp_eq_decodeMajor (x : Nat) :
    decodeOp 0x00 x = decodeMajor00 x ∧ decodeOp 0x01 x = decodeMajor01 x ∧ decodeOp 0x02 x = decodeMajor02 x ∧ decodeOp 0x03 x = decodeMajor03 x ∧
    decodeOp 0x04 x = decodeMajor04 x ∧ decodeOp 0x05 x = decodeMajor05 x ∧ decodeOp 0x06 x = decodeMajor06 x ∧ decodeOp 0x07 x = decodeMajor07 x ∧
    decodeOp 0x08 x = decodeMajor08 x ∧ decodeOp 0x09 x = decodeMajor09 x ∧ decodeOp 0x0A x = decodeMajor0A x ∧ decodeOp 0x0B x = decodeMajor0B x ∧
    decodeOp 0x0C x = decodeMajor0C x ∧ decodeOp 0x0D x = decodeMajor0D x ∧ decodeOp 0x0E x = decodeMajor0E x ∧ decodeOp 0x0F x = decodeMajor0F x ∧
    decodeOp 0x10 x = decodeMajor10 x ∧ decodeOp 0x11 x = decodeMajor11 x ∧ decodeOp 0x12 x = decodeMajor12 x ∧ decodeOp 0x13 x = decodeMajor13 x ∧
    decodeOp 0x14 x = decodeMajor14 x ∧ decodeOp 0x15 x = decodeMajor15 x ∧ decodeOp 0x16 x = decodeMajor16 x ∧ decodeOp 0x17 x = decodeMajor17 x ∧
    decodeOp 0x18 x = decodeMajor18 x ∧ decodeOp 0x19 x = decodeMajor19 x ∧ decodeOp 0x1A x = decodeMajor1A x ∧ decodeOp 0x1B x = decodeMajor1B x ∧
    decodeOp 0x1C x = decodeMajor1C x ∧ decodeOp 0x1D x = decodeMajor1D x ∧ decodeOp 0x1E x = decodeMajor1E x ∧ decodeOp 0x1F x = decodeMajor1F x ∧
    decodeOp 0x28 x = decodeMajor28 x ∧ decodeOp 0x29 x = decodeMajor29 x ∧ decodeOp 0x2A x = decodeMajor2A x ∧ decodeOp 0x2B x = decodeMajor2B x ∧
    decodeOp 0x2C x = decodeMajor2C x ∧ decodeOp 0x2D x = decodeMajor2D x ∧ decodeOp 0x2E x = decodeMajor2E x ∧ decodeOp 0x2F x = decodeMajor2F x ∧
    decodeOp 0x30 x = decodeMajor30 x ∧ decodeOp 0x31 x = decodeMajor31 x ∧ decodeOp 0x32 x = decodeMajor32 x ∧ decodeOp 0x33 x = decodeMajor33 x ∧
    decodeOp 0x34 x = decodeMajor34 x ∧ decodeOp 0x35 x = decodeMajor35 x ∧ decodeOp 0x36 x = decodeMajor36 x ∧ decodeOp 0x38 x = decodeMajor38 x ∧
    decodeOp 0x39 x = decodeMajor39 x ∧ decodeOp 0x3A x = decodeMajor3A x ∧ decodeOp 0x3B x = decodeMajor3B x ∧ decodeOp 0x3C x = decodeMajor3C x ∧
    decodeOp 0x3D x = decodeMajor3D x ∧ decodeOp 0x3E x = decodeMajor3E x ∧ decodeOp 0x3F x = decodeMajor3F x ∧ decodeOp 0x40 x = decodeMajor40 x ∧
    decodeOp 0x41 x = decodeMajor41 x ∧ decodeOp 0x42 x = decodeMajor42 x ∧ decodeOp 0x43 x = decodeMajor43 x ∧ decodeOp 0x44 x = decodeMajor44 x ∧
    decodeOp 0x45 x = decodeMajor45 x ∧ decodeOp 0x46 x = decodeMajor46 x ∧ decodeOp 0x47 x = decodeMajor47 x ∧ decodeOp 0x48 x = decodeMajor48 x ∧
    decodeOp 0x49 x = decodeMajor49 x ∧ decodeOp 0x4A x = decodeMajor4A x ∧ decodeOp 0x4B x = decodeMajor4B x ∧ decodeOp 0x4C x = decodeMajor4C x ∧
    decodeOp 0x4D x = decodeMajor4D x ∧ decodeOp 0x4E x = decodeMajor4E x ∧ decodeOp 0x4F x = decodeMajor4F x ∧ decodeOp 0x50 x = decodeMajor50 x ∧
    decodeOp 0x51 x = decodeMajor51 x ∧ decodeOp 0x52 x = decodeMajor52 x ∧ decodeOp 0x53 x = decodeMajor53 x ∧ decodeOp 0x54 x = decodeMajor54 x ∧
    decodeOp 0x55 x = decodeMajor55 x ∧ decodeOp 0x56 x = decodeMajor56 x ∧ decodeOp 0x57 x = decodeMajor57 x ∧ decodeOp 0x60 x = decodeMajor60 x ∧
    decodeOp 0x61 x = decodeMajor61 x ∧ decodeOp 0x62 x = decodeMajor62 x ∧ decodeOp 0x64 x = decodeMajor64 x ∧ decodeOp 0x65 x = decodeMajor65 x ∧
    decodeOp 0x66 x = decodeMajor66 x ∧ decodeOp 0x67 x = decodeMajor67 x ∧ decodeOp 0x68 x = decodeMajor68 x ∧ decodeOp 0x69 x = decodeMajor69 x ∧
    decodeOp 0x6A x = decodeMajor6A x ∧ decodeOp 0x6B x = decodeMajor6B x ∧ decodeOp 0x6C x = decodeMajor6C x ∧ decodeOp 0x6D x = decodeMajor6D x ∧
    decodeOp 0x6E x = decodeMajor6E x ∧ decodeOp 0x6F x = decodeMajor6F x ∧ decodeOp 0x70 x = decodeMajor70 x ∧ decodeOp 0x71 x = decodeMajor71 x ∧
    decodeOp 0x72 x = decodeMajor72 x ∧ decodeOp 0x73 x = decodeMajor73 x ∧ decodeOp 0x74 x = decodeMajor74 x ∧
    decodeOp 0x75 x = decodeMajor75 x := by
  and_intros <;> rfl

/-! ### What decodes is well formed and encodes to its word (R25, R33) -/

/-- What the decoder answers for the operand field `x` of major opcode `m` is well formed, and `x` is its operand field. -/
def Sound (m x : Nat) (a : Except Reject Instr) : Prop :=
  ∀ i, a = .ok i → i.wellFormed = true ∧ wordField i (fin5 x) = some (m, x)

theorem Sound.error {m x : Nat} (e : Reject) : Sound m x (.error e) := fun _ h => nomatch h

theorem Sound.checked {m x y : Nat} {j : Instr} (hj : wordField j (fin5 x) = some (m, y)) (hy : y = x) : Sound m x (checked j) := by
  intro i h
  unfold Sys2Proof.checked at h
  split at h
  next hw =>
    cases h
    exact ⟨hw, hy ▸ hj⟩
  · cases h

/-- One instruction of a major opcode: under its test of the fixed bits the operand field is that of the instruction. -/
theorem Sound.arm {m x y : Nat} {c : Bool} {j : Instr} {rest : Except Reject Instr} (hj : wordField j (fin5 x) = some (m, y))
    (hy : c = true → y = x) (hr : Sound m x rest) : Sound m x (if c then Sys2Proof.checked j else rest) := by
  split
  next h => exact .checked hj (hy h)
  · exact hr

/-- Majors 0x00 to 0x0D. -/
theorem control_sound {x : Nat} (hx : x < 2 ^ 18) :
    Sound 0x00 x (decodeMajor00 x) ∧ Sound 0x01 x (decodeMajor01 x) ∧ Sound 0x02 x (decodeMajor02 x) ∧ Sound 0x03 x (decodeMajor03 x) ∧
    Sound 0x04 x (decodeMajor04 x) ∧ Sound 0x05 x (decodeMajor05 x) ∧ Sound 0x06 x (decodeMajor06 x) ∧ Sound 0x07 x (decodeMajor07 x) ∧
    Sound 0x08 x (decodeMajor08 x) ∧ Sound 0x09 x (decodeMajor09 x) ∧ Sound 0x0A x (decodeMajor0A x) ∧ Sound 0x0B x (decodeMajor0B x) ∧
    Sound 0x0C x (decodeMajor0C x) ∧ Sound 0x0D x (decodeMajor0D x) := by
  unfold decodeMajor00 decodeMajor01 decodeMajor02 decodeMajor03 decodeMajor04 decodeMajor05 decodeMajor06 decodeMajor07 decodeMajor08 decodeMajor09
    decodeMajor0A decodeMajor0B decodeMajor0C decodeMajor0D
  and_intros
  all_goals
    repeat' first | exact Sound.error _ | refine Sound.arm (by rfl) (fun h => ?_) ?_ | refine Sound.checked (by rfl) ?_
  all_goals
    simp only [operand_val, fld_join, fld_join_zero, Nat.reducePow, Nat.reduceAdd, beq_iff_eq, Bool.and_eq_true] at *
    unfold fld at *
    lia

/-- Majors 0x0E to 0x1F. -/
theorem scalar_sound {x : Nat} (hx : x < 2 ^ 18) :
    Sound 0x0E x (decodeMajor0E x) ∧ Sound 0x0F x (decodeMajor0F x) ∧ Sound 0x10 x (decodeMajor10 x) ∧ Sound 0x11 x (decodeMajor11 x) ∧
    Sound 0x12 x (decodeMajor12 x) ∧ Sound 0x13 x (decodeMajor13 x) ∧ Sound 0x14 x (decodeMajor14 x) ∧ Sound 0x15 x (decodeMajor15 x) ∧
    Sound 0x16 x (decodeMajor16 x) ∧ Sound 0x17 x (decodeMajor17 x) ∧ Sound 0x18 x (decodeMajor18 x) ∧ Sound 0x19 x (decodeMajor19 x) ∧
    Sound 0x1A x (decodeMajor1A x) ∧ Sound 0x1B x (decodeMajor1B x) ∧ Sound 0x1C x (decodeMajor1C x) ∧ Sound 0x1D x (decodeMajor1D x) ∧
    Sound 0x1E x (decodeMajor1E x) ∧ Sound 0x1F x (decodeMajor1F x) := by
  unfold decodeMajor0E decodeMajor0F decodeMajor10 decodeMajor11 decodeMajor12 decodeMajor13 decodeMajor14 decodeMajor15 decodeMajor16 decodeMajor17
    decodeMajor18 decodeMajor19 decodeMajor1A decodeMajor1B decodeMajor1C decodeMajor1D decodeMajor1E decodeMajor1F
  and_intros
  all_goals
    repeat' first | exact Sound.error _ | refine Sound.arm (by rfl) (fun h => ?_) ?_ | refine Sound.checked (by rfl) ?_
  all_goals
    simp only [operand_val, fld_join, fld_join_zero, Nat.reducePow, Nat.reduceAdd, beq_iff_eq, Bool.and_eq_true] at *
    unfold fld at *
    lia

/-- Majors 0x28 to 0x3F. -/
theorem memory_sound {x : Nat} (hx : x < 2 ^ 18) :
    Sound 0x28 x (decodeMajor28 x) ∧ Sound 0x29 x (decodeMajor29 x) ∧ Sound 0x2A x (decodeMajor2A x) ∧ Sound 0x2B x (decodeMajor2B x) ∧
    Sound 0x2C x (decodeMajor2C x) ∧ Sound 0x2D x (decodeMajor2D x) ∧ Sound 0x2E x (decodeMajor2E x) ∧ Sound 0x2F x (decodeMajor2F x) ∧
    Sound 0x30 x (decodeMajor30 x) ∧ Sound 0x31 x (decodeMajor31 x) ∧ Sound 0x32 x (decodeMajor32 x) ∧ Sound 0x33 x (decodeMajor33 x) ∧
    Sound 0x34 x (decodeMajor34 x) ∧ Sound 0x35 x (decodeMajor35 x) ∧ Sound 0x36 x (decodeMajor36 x) ∧ Sound 0x38 x (decodeMajor38 x) ∧
    Sound 0x39 x (decodeMajor39 x) ∧ Sound 0x3A x (decodeMajor3A x) ∧ Sound 0x3B x (decodeMajor3B x) ∧ Sound 0x3C x (decodeMajor3C x) ∧
    Sound 0x3D x (decodeMajor3D x) ∧ Sound 0x3E x (decodeMajor3E x) ∧ Sound 0x3F x (decodeMajor3F x) := by
  unfold decodeMajor28 decodeMajor29 decodeMajor2A decodeMajor2B decodeMajor2C decodeMajor2D decodeMajor2E decodeMajor2F decodeMajor30 decodeMajor31
    decodeMajor32 decodeMajor33 decodeMajor34 decodeMajor35 decodeMajor36 decodeMajor38 decodeMajor39 decodeMajor3A decodeMajor3B decodeMajor3C
    decodeMajor3D decodeMajor3E decodeMajor3F
  and_intros
  all_goals
    repeat' first | exact Sound.error _ | refine Sound.arm (by rfl) (fun h => ?_) ?_ | refine Sound.checked (by rfl) ?_
  all_goals
    simp only [operand_val, fld_join, fld_join_zero, Nat.reducePow, Nat.reduceAdd, beq_iff_eq, Bool.and_eq_true] at *
    unfold fld at *
    lia

/-- Majors 0x40 to 0x4B. -/
theorem vecArith_sound {x : Nat} (hx : x < 2 ^ 18) :
    Sound 0x40 x (decodeMajor40 x) ∧ Sound 0x41 x (decodeMajor41 x) ∧ Sound 0x42 x (decodeMajor42 x) ∧ Sound 0x43 x (decodeMajor43 x) ∧
    Sound 0x44 x (decodeMajor44 x) ∧ Sound 0x45 x (decodeMajor45 x) ∧ Sound 0x46 x (decodeMajor46 x) ∧ Sound 0x47 x (decodeMajor47 x) ∧
    Sound 0x48 x (decodeMajor48 x) ∧ Sound 0x49 x (decodeMajor49 x) ∧ Sound 0x4A x (decodeMajor4A x) ∧ Sound 0x4B x (decodeMajor4B x) := by
  unfold decodeMajor40 decodeMajor41 decodeMajor42 decodeMajor43 decodeMajor44 decodeMajor45 decodeMajor46 decodeMajor47 decodeMajor48 decodeMajor49
    decodeMajor4A decodeMajor4B
  and_intros
  all_goals
    repeat' first | exact Sound.error _ | refine Sound.arm (by rfl) (fun h => ?_) ?_ | refine Sound.checked (by rfl) ?_
  all_goals
    simp only [operand_val, fld_join, Nat.reducePow, Nat.reduceAdd, beq_iff_eq] at *
    unfold fld at *
    lia

/-- Majors 0x4C to 0x57. -/
theorem vecMove_sound {x : Nat} (hx : x < 2 ^ 18) :
    Sound 0x4C x (decodeMajor4C x) ∧ Sound 0x4D x (decodeMajor4D x) ∧ Sound 0x4E x (decodeMajor4E x) ∧ Sound 0x4F x (decodeMajor4F x) ∧
    Sound 0x50 x (decodeMajor50 x) ∧ Sound 0x51 x (decodeMajor51 x) ∧ Sound 0x52 x (decodeMajor52 x) ∧ Sound 0x53 x (decodeMajor53 x) ∧
    Sound 0x54 x (decodeMajor54 x) ∧ Sound 0x55 x (decodeMajor55 x) ∧ Sound 0x56 x (decodeMajor56 x) ∧ Sound 0x57 x (decodeMajor57 x) := by
  unfold decodeMajor4C decodeMajor4D decodeMajor4E decodeMajor4F decodeMajor50 decodeMajor51 decodeMajor52 decodeMajor53 decodeMajor54 decodeMajor55
    decodeMajor56 decodeMajor57
  and_intros
  all_goals
    repeat' first | exact Sound.error _ | refine Sound.arm (by rfl) (fun h => ?_) ?_ | refine Sound.checked (by rfl) ?_
  all_goals
    simp only [operand_val, fld_join, Nat.reducePow, Nat.reduceAdd, beq_iff_eq, Bool.and_eq_true] at *
    unfold fld at *
    lia

/-- Majors 0x60 to 0x75. -/
theorem array_sound {x : Nat} (hx : x < 2 ^ 18) :
    Sound 0x60 x (decodeMajor60 x) ∧ Sound 0x61 x (decodeMajor61 x) ∧ Sound 0x62 x (decodeMajor62 x) ∧ Sound 0x64 x (decodeMajor64 x) ∧
    Sound 0x65 x (decodeMajor65 x) ∧ Sound 0x66 x (decodeMajor66 x) ∧ Sound 0x67 x (decodeMajor67 x) ∧ Sound 0x68 x (decodeMajor68 x) ∧
    Sound 0x69 x (decodeMajor69 x) ∧ Sound 0x6A x (decodeMajor6A x) ∧ Sound 0x6B x (decodeMajor6B x) ∧ Sound 0x6C x (decodeMajor6C x) ∧
    Sound 0x6D x (decodeMajor6D x) ∧ Sound 0x6E x (decodeMajor6E x) ∧ Sound 0x6F x (decodeMajor6F x) ∧ Sound 0x70 x (decodeMajor70 x) ∧
    Sound 0x71 x (decodeMajor71 x) ∧ Sound 0x72 x (decodeMajor72 x) ∧ Sound 0x73 x (decodeMajor73 x) ∧ Sound 0x74 x (decodeMajor74 x) ∧
    Sound 0x75 x (decodeMajor75 x) := by
  unfold decodeMajor60 decodeMajor61 decodeMajor62 decodeMajor64 decodeMajor65 decodeMajor66 decodeMajor67 decodeMajor68 decodeMajor69 decodeMajor6A
    decodeMajor6B decodeMajor6C decodeMajor6D decodeMajor6E decodeMajor6F decodeMajor70 decodeMajor71 decodeMajor72 decodeMajor73 decodeMajor74
    decodeMajor75
  and_intros
  all_goals
    repeat' first | exact Sound.error _ | refine Sound.arm (by rfl) (fun h => ?_) ?_ | refine Sound.checked (by rfl) ?_
  all_goals
    simp only [operand_val, fld_join, fld_join_zero, Nat.reducePow, Nat.reduceAdd, beq_iff_eq, Bool.and_eq_true] at *
    unfold fld at *
    lia

theorem decodeOp_sound {x : Nat} (hx : x < 2 ^ 18) (m : Nat) : Sound m x (decodeOp m x) := by
  unfold decodeOp
  split
  all_goals simp only [Sound.error, control_sound hx, scalar_sound hx, memory_sound hx, vecArith_sound hx, vecMove_sound hx, array_sound hx]

/-! ### What is encoded decodes to its instruction (R22, R25) -/

/-- The decoder reads back what the encoder writes of an instruction, with any sole register. -/
def ReadsBack (i : Instr) : Prop :=
  ∀ (r : Fin 32) (m x : Nat), wordField i (fun _ => r) = some (m, x) →
    m < 2 ^ 7 ∧ x < 2 ^ 18 ∧ (i.wellFormed = true → decodeOp m x = .ok i) ∧ ∀ lo, soleAt i = some lo → fin5 x lo = r

theorem ReadsBack.of_event {i : Instr} (h : encodeOp i = none) : ReadsBack i := by
  intro r m x hw
  unfold wordField at hw
  split at hw <;> simp [h] at hw

theorem ReadsBack.of_plain {i : Instr} {m x : Nat} (hs : soleAt i = none) (he : encodeOp i = some (m, x)) (hm : m < 2 ^ 7)
    (h : x < 2 ^ 18 ∧ (i.wellFormed = true → decodeOp m x = checked i)) : ReadsBack i := by
  intro r m' x' hw
  simp only [wordField, hs, he, Option.some.injEq, Prod.mk.injEq] at hw
  obtain ⟨rfl, rfl⟩ := hw
  obtain ⟨hx, hd⟩ := h
  exact ⟨hm, hx, fun hi => (hd hi).trans (if_pos hi), fun lo hlo => nomatch hs.symm.trans hlo⟩

theorem ReadsBack.of_sole {i : Instr} {m x lo : Nat} (hs : soleAt i = some lo) (he : encodeOp i = some (m, x)) (hm : m < 2 ^ 7)
    (h : ∀ r : Fin 32, x + r.val * 2 ^ lo < 2 ^ 18 ∧ decodeOp m (x + r.val * 2 ^ lo) = checked i ∧ fin5 (x + r.val * 2 ^ lo) lo = r) :
    ReadsBack i := by
  intro r m' x' hw
  simp only [wordField, hs, he, Option.map_some, Option.some.injEq, Prod.mk.injEq] at hw
  obtain ⟨rfl, rfl⟩ := hw
  obtain ⟨hx, hd, hr⟩ := h r
  exact ⟨hm, hx, fun hi => hd.trans (if_pos hi), fun lo' hlo => by rwa [← Option.some.inj (hs.symm.trans hlo)]⟩

/-- Instructions with several operands, majors 0x00 to 0x0D. -/
theorem control_readsBack :
    (∀ value, ReadsBack (.ext value)) ∧ (∀ scope order, ReadsBack (.ord scope order)) ∧ (∀ disp, ReadsBack (.br disp)) ∧
    (∀ disp, ReadsBack (.call disp)) ∧ (∀ d a, ReadsBack (.jalr d a)) ∧ (∀ level a fin, ReadsBack (.loop level a fin)) ∧
    (∀ level, ReadsBack (.loopx level)) ∧ (∀ level, ReadsBack (.loopc level)) ∧ (∀ ld st cp tl, ReadsBack (.wait ld st cp tl)) ∧
    (∀ order scope, ReadsBack (.fence order scope)) ∧ (∀ imm, ReadsBack (.trap imm)) ∧ (∀ imm, ReadsBack (.bkpt imm)) ∧
    (∀ a b, ReadsBack (.tlbinvPage a b)) ∧ (∀ a idx size, ReadsBack (.tlblk a idx size)) ∧ (∀ idx, ReadsBack (.tlbunl idx)) ∧
    (∀ d a n, ReadsBack (.ldblk d a n)) ∧ (∀ a n, ReadsBack (.cflush a n)) ∧ (∀ a n, ReadsBack (.cclean a n)) := by
  and_intros <;> intros
  all_goals
    refine .of_plain rfl rfl (by decide) ?_
    simp only [decodeOp_eq_decodeMajor, decodeMajor01, decodeMajor02, decodeMajor03, decodeMajor04, decodeMajor05, decodeMajor06, decodeMajor07,
      decodeMajor08, decodeMajor09, decodeMajor0B, decodeMajor0C, decodeMajor0D, operand_toNat, fld, beq_iff_eq, Bool.and_eq_true]
    refine ⟨by lia, fun _ => ?_⟩
    repeat rw [if_neg (by lia)]
    try rw [if_pos (by lia)]
  all_goals congr 2
  all_goals
    simp (disch := lia) only [operand_eq_iff, operand_toNat, Nat.add_assoc, fld_sum, fld_zero_of_lt, Nat.reducePow, Nat.reduceDiv,
      Nat.div_one, Nat.mod_eq_of_lt]

/-- Instructions with several operands, majors 0x0E to 0x13. -/
theorem alu_readsBack :
    (∀ d sr, ReadsBack (.mfs d sr)) ∧ (∀ a sr, ReadsBack (.mts a sr)) ∧ (∀ d a b, ReadsBack (.add d a b)) ∧ (∀ d a b, ReadsBack (.sub d a b)) ∧
    (∀ d a b, ReadsBack (.and d a b)) ∧ (∀ d a b, ReadsBack (.or d a b)) ∧ (∀ d a b, ReadsBack (.xor d a b)) ∧ (∀ d a b, ReadsBack (.sll d a b)) ∧
    (∀ d a b, ReadsBack (.srl d a b)) ∧ (∀ d a b, ReadsBack (.sra d a b)) ∧ (∀ d a b, ReadsBack (.mul d a b)) ∧ (∀ d a b, ReadsBack (.mulhs d a b)) ∧
    (∀ d a b, ReadsBack (.mulhu d a b)) ∧ (∀ d a b, ReadsBack (.min d a b)) ∧ (∀ d a b, ReadsBack (.max d a b)) ∧
    (∀ d a b, ReadsBack (.minu d a b)) ∧ (∀ d a b, ReadsBack (.maxu d a b)) ∧ (∀ d a b, ReadsBack (.andn d a b)) ∧
    (∀ d a b, ReadsBack (.addw d a b)) ∧ (∀ d a b, ReadsBack (.subw d a b)) ∧ (∀ d a b, ReadsBack (.sllw d a b)) ∧
    (∀ d a b, ReadsBack (.srlw d a b)) ∧ (∀ d a b, ReadsBack (.sraw d a b)) ∧ (∀ d a b, ReadsBack (.mulw d a b)) ∧
    (∀ d a b, ReadsBack (.rotl d a b)) ∧ (∀ d a b, ReadsBack (.rotr d a b)) ∧ (∀ d a b, ReadsBack (.div d a b)) ∧
    (∀ d a b, ReadsBack (.divu d a b)) ∧ (∀ d a b, ReadsBack (.rem d a b)) ∧ (∀ d a b, ReadsBack (.remu d a b)) ∧ (∀ d a, ReadsBack (.clz d a)) ∧
    (∀ d a, ReadsBack (.ctz d a)) ∧ (∀ d a, ReadsBack (.popc d a)) ∧ (∀ d a, ReadsBack (.brev d a)) := by
  and_intros <;> intros
  all_goals
    refine .of_plain rfl rfl (by decide) ?_
    simp only [decodeOp_eq_decodeMajor, decodeMajor0E, decodeMajor0F, decodeMajor10, decodeMajor11, decodeMajor12, decodeMajor13, operand_toNat, fld,
      beq_iff_eq]
    refine ⟨by lia, fun _ => ?_⟩
    repeat rw [if_neg (by lia)]
    rw [if_pos (by lia)]
  all_goals congr 2
  all_goals
    simp (disch := lia) only [operand_eq_iff, operand_toNat, Nat.add_assoc, fld_sum, fld_zero_of_lt, Nat.reducePow, Nat.reduceDiv,
      Nat.div_one, Nat.mod_eq_of_lt]

/-- Instructions with several operands, majors 0x14 to 0x1F. -/
theorem scalar_readsBack :
    (∀ d a imm, ReadsBack (.addi d a imm)) ∧ (∀ d a imm, ReadsBack (.andi d a imm)) ∧ (∀ d a imm, ReadsBack (.ori d a imm)) ∧
    (∀ d a imm, ReadsBack (.xori d a imm)) ∧ (∀ d a sh, ReadsBack (.slli d a sh)) ∧ (∀ d a sh, ReadsBack (.srli d a sh)) ∧
    (∀ d a sh, ReadsBack (.srai d a sh)) ∧ (∀ d imm, ReadsBack (.movi d imm)) ∧ (∀ d imm, ReadsBack (.shori d imm)) ∧
    (∀ d a b cc, ReadsBack (.cmp d a b cc)) ∧ (∀ d a imm cc, ReadsBack (.cmpi d a imm cc)) ∧ (∀ d a b, ReadsBack (.pand d a b)) ∧
    (∀ d a b, ReadsBack (.por d a b)) ∧ (∀ d a b, ReadsBack (.pxor d a b)) ∧ (∀ d a b, ReadsBack (.pandn d a b)) ∧ (∀ d a, ReadsBack (.pnot d a)) ∧
    (∀ d a, ReadsBack (.pmov d a)) ∧ (∀ ad sa, ReadsBack (.xput ad sa)) ∧ (∀ sd ab rank, ReadsBack (.xget sd ab rank)) := by
  and_intros <;> intros
  all_goals
    refine .of_plain rfl rfl (by decide) ?_
    simp only [decodeOp_eq_decodeMajor, decodeMajor14, decodeMajor15, decodeMajor16, decodeMajor17, decodeMajor18, decodeMajor19, decodeMajor1A,
      decodeMajor1B, decodeMajor1C, decodeMajor1D, decodeMajor1F, operand_toNat, fld, beq_iff_eq]
    refine ⟨by lia, fun _ => ?_⟩
    repeat rw [if_neg (by lia)]
    try rw [if_pos (by lia)]
  all_goals congr 2
  all_goals
    simp (disch := lia) only [operand_eq_iff, operand_toNat, Nat.add_assoc, fld_sum, fld_zero_of_lt, Nat.reducePow, Nat.reduceDiv,
      Nat.div_one, Nat.mod_eq_of_lt]

/-- Instructions with several operands, majors 0x28 to 0x2F. -/
theorem seqMem_readsBack :
    (∀ reg a size disp, ReadsBack (.ld reg a size disp)) ∧ (∀ reg a size disp, ReadsBack (.ldu reg a size disp)) ∧
    (∀ reg a size disp, ReadsBack (.st reg a size disp)) ∧ (∀ d a b op, ReadsBack (.amo d a b op)) ∧ (∀ d a b op, ReadsBack (.amow d a b op)) ∧
    (∀ reg h size u disp, ReadsBack (.hld reg h size u disp)) ∧ (∀ reg h size disp, ReadsBack (.hst reg h size disp)) ∧
    (∀ hd m base disp, ReadsBack (.ldref hd m base disp)) ∧ (∀ hd m base disp, ReadsBack (.stref hd m base disp)) ∧
    (∀ sd hb, ReadsBack (.pin sd hb)) ∧ (∀ hb, ReadsBack (.unpin hb)) ∧ (∀ x y dir, ReadsBack (.hmov x y dir)) ∧ (∀ hd, ReadsBack (.hnull hd)) ∧
    (∀ qd ha hb, ReadsBack (.heq qd ha hb)) := by
  and_intros <;> intros
  all_goals
    refine .of_plain rfl rfl (by decide) ?_
    simp only [decodeOp_eq_decodeMajor, decodeMajor28, decodeMajor29, decodeMajor2A, decodeMajor2B, decodeMajor2C, decodeMajor2D, decodeMajor2E,
      decodeMajor2F, operand_toNat, fld, beq_iff_eq, Bool.and_eq_true]
    refine ⟨by lia, fun _ => ?_⟩
    repeat rw [if_neg (by lia)]
    try rw [if_pos (by lia)]
  all_goals congr 2
  all_goals
    simp (disch := lia) only [operand_eq_iff, operand_toNat, Nat.add_assoc, fld_sum, fld_zero_of_lt, Nat.reducePow, Nat.reduceDiv,
      Nat.div_one, Nat.mod_eq_of_lt]

/-- Instructions with several operands, majors 0x30 to 0x36. -/
theorem coreMem_readsBack :
    (∀ reg ab size u disp, ReadsBack (.gld reg ab size u disp)) ∧ (∀ reg ab size disp, ReadsBack (.gst reg ab size disp)) ∧
    (∀ ad ab ac w op, ReadsBack (.gamo ad ab ac w op)) ∧ (∀ reg h size u disp, ReadsBack (.chld reg h size u disp)) ∧
    (∀ reg h size disp, ReadsBack (.chst reg h size disp)) ∧ (∀ hd m base disp, ReadsBack (.cldref hd m base disp)) ∧
    (∀ hd m base disp, ReadsBack (.cstref hd m base disp)) ∧ (∀ ad hb, ReadsBack (.cpin ad hb)) ∧ (∀ hb, ReadsBack (.cunpin hb)) ∧
    (∀ x y dir, ReadsBack (.chmov x y dir)) ∧ (∀ hd, ReadsBack (.chnull hd)) ∧ (∀ ad ha hb, ReadsBack (.cheq ad ha hb)) ∧
    (∀ ad aa imm, ReadsBack (.aaddi ad aa imm)) ∧ (∀ ad aa ab, ReadsBack (.aadd ad aa ab)) ∧ (∀ ad aa sh, ReadsBack (.ashl ad aa sh)) ∧
    (∀ ad aa, ReadsBack (.amov ad aa)) ∧ (∀ ad, ReadsBack (.arank ad)) := by
  and_intros <;> intros
  all_goals
    refine .of_plain rfl rfl (by decide) ?_
    simp only [decodeOp_eq_decodeMajor, decodeMajor30, decodeMajor31, decodeMajor32, decodeMajor33, decodeMajor34, decodeMajor35, decodeMajor36,
      operand_toNat, fld, beq_iff_eq, Bool.and_eq_true]
    refine ⟨by lia, fun _ => ?_⟩
    repeat rw [if_neg (by lia)]
    try rw [if_pos (by lia)]
  all_goals congr 2
  all_goals
    simp (disch := lia) only [operand_eq_iff, operand_toNat, Nat.add_assoc, fld_sum, fld_zero_of_lt, Nat.reducePow, Nat.reduceDiv,
      Nat.div_one, Nat.mod_eq_of_lt]

/-- Instructions with several operands, majors 0x38 to 0x40. -/
theorem vecMem_readsBack :
    (∀ v a width msel disp, ReadsBack (.vld v a width msel disp)) ∧ (∀ v a width msel disp, ReadsBack (.vst v a width msel disp)) ∧
    (∀ v a width msel stride, ReadsBack (.vlds v a width msel stride)) ∧ (∀ v a vi width msel scale, ReadsBack (.vldx v a vi width msel scale)) ∧
    (∀ v a vi width msel scale, ReadsBack (.vstx v a vi width msel scale)) ∧ (∀ v a width msel disp, ReadsBack (.vldff v a width msel disp)) ∧
    (∀ v a vi width msel scale, ReadsBack (.vldg v a vi width msel scale)) ∧ (∀ v a vi width msel scale, ReadsBack (.vstg v a vi width msel scale)) ∧
    (∀ aa ad vi cnt, ReadsBack (.agth aa ad vi cnt)) ∧ (∀ d a vt, ReadsBack (.vsetl d a vt)) := by
  and_intros <;> intros
  all_goals
    refine .of_plain rfl rfl (by decide) ?_
    simp only [decodeOp_eq_decodeMajor, decodeMajor38, decodeMajor39, decodeMajor3A, decodeMajor3B, decodeMajor3C, decodeMajor3D, decodeMajor3E,
      decodeMajor3F, decodeMajor40, operand_toNat, fld, beq_iff_eq]
    refine ⟨by lia, fun _ => ?_⟩
    repeat rw [if_neg (by lia)]
    try rw [if_pos (by lia)]
  all_goals congr 2
  all_goals
    simp (disch := lia) only [operand_eq_iff, operand_toNat, Nat.add_assoc, fld_sum, fld_zero_of_lt, Nat.reducePow, Nat.reduceDiv,
      Nat.div_one, Nat.mod_eq_of_lt]

/-- Instructions with several operands, majors 0x41 to 0x49. -/
theorem vecInt_readsBack :
    (∀ vd va vb width msel, ReadsBack (.vadd vd va vb width msel)) ∧ (∀ vd va vb width msel, ReadsBack (.vsub vd va vb width msel)) ∧
    (∀ vd va vb width msel, ReadsBack (.vadds vd va vb width msel)) ∧ (∀ vd va vb width msel, ReadsBack (.vsubs vd va vb width msel)) ∧
    (∀ vd va vb width msel, ReadsBack (.vaddus vd va vb width msel)) ∧ (∀ vd va vb width msel, ReadsBack (.vsubus vd va vb width msel)) ∧
    (∀ vd va vb width msel, ReadsBack (.vavg vd va vb width msel)) ∧ (∀ vd va vb width msel, ReadsBack (.vabd vd va vb width msel)) ∧
    (∀ vd va vb width msel, ReadsBack (.vmul vd va vb width msel)) ∧ (∀ vd va vb width msel, ReadsBack (.vmulhs vd va vb width msel)) ∧
    (∀ vd va vb width msel, ReadsBack (.vmulhu vd va vb width msel)) ∧ (∀ vd va vb width msel, ReadsBack (.vmulq vd va vb width msel)) ∧
    (∀ vd va vb width msel, ReadsBack (.vmac vd va vb width msel)) ∧ (∀ vd va vb width msel, ReadsBack (.vmsub vd va vb width msel)) ∧
    (∀ vd va vb width msel, ReadsBack (.vmacs vd va vb width msel)) ∧ (∀ vd va vb width msel, ReadsBack (.vdot2 vd va vb width msel)) ∧
    (∀ vd va vb width msel, ReadsBack (.vand vd va vb width msel)) ∧ (∀ vd va vb width msel, ReadsBack (.vor vd va vb width msel)) ∧
    (∀ vd va vb width msel, ReadsBack (.vxor vd va vb width msel)) ∧ (∀ vd va vb width msel, ReadsBack (.vandn vd va vb width msel)) ∧
    (∀ vd va vb width msel, ReadsBack (.vsll vd va vb width msel)) ∧ (∀ vd va vb width msel, ReadsBack (.vsrl vd va vb width msel)) ∧
    (∀ vd va vb width msel, ReadsBack (.vsra vd va vb width msel)) ∧ (∀ vd va vb width msel, ReadsBack (.vrot vd va vb width msel)) ∧
    (∀ vd va imm width msel, ReadsBack (.vslli vd va imm width msel)) ∧ (∀ vd va imm width msel, ReadsBack (.vsrli vd va imm width msel)) ∧
    (∀ vd va imm width msel, ReadsBack (.vsrai vd va imm width msel)) ∧ (∀ vd va imm width msel, ReadsBack (.vsrar vd va imm width msel)) ∧
    (∀ vd va vb width msel, ReadsBack (.vmin vd va vb width msel)) ∧ (∀ vd va vb width msel, ReadsBack (.vmax vd va vb width msel)) ∧
    (∀ vd va vb width msel, ReadsBack (.vminu vd va vb width msel)) ∧ (∀ vd va vb width msel, ReadsBack (.vmaxu vd va vb width msel)) ∧
    (∀ vd va vb width msel, ReadsBack (.vceq vd va vb width msel)) ∧ (∀ vd va vb width msel, ReadsBack (.vclt vd va vb width msel)) ∧
    (∀ vd va vb width msel, ReadsBack (.vcltu vd va vb width msel)) ∧ (∀ vd va vb width msel, ReadsBack (.vcle vd va vb width msel)) := by
  and_intros <;> intros
  all_goals
    refine .of_plain rfl rfl (by decide) ?_
    simp only [decodeOp_eq_decodeMajor, decodeMajor41, decodeMajor42, decodeMajor43, decodeMajor44, decodeMajor45, decodeMajor46, decodeMajor47,
      decodeMajor48, decodeMajor49, fld, beq_iff_eq]
    refine ⟨by lia, fun _ => ?_⟩
    repeat rw [if_neg (by lia)]
    rw [if_pos (by lia)]
  all_goals congr 2
  all_goals
    simp (disch := lia) only [operand_eq_iff, Nat.add_assoc, fld_sum, Nat.reducePow, Nat.reduceDiv,
      Nat.div_one, Nat.mod_eq_of_lt]

/-- Instructions with several operands, majors 0x4A to 0x52. -/
theorem vecFloat_readsBack :
    (∀ vd va vb width msel, ReadsBack (.vfadd vd va vb width msel)) ∧ (∀ vd va vb width msel, ReadsBack (.vfsub vd va vb width msel)) ∧
    (∀ vd va vb width msel, ReadsBack (.vfmin vd va vb width msel)) ∧ (∀ vd va vb width msel, ReadsBack (.vfmax vd va vb width msel)) ∧
    (∀ vd va vb width msel, ReadsBack (.vfmul vd va vb width msel)) ∧ (∀ vd va vb width msel, ReadsBack (.vfma vd va vb width msel)) ∧
    (∀ vd va vb width msel, ReadsBack (.vfms vd va vb width msel)) ∧ (∀ vd va vb width msel, ReadsBack (.vfnma vd va vb width msel)) ∧
    (∀ vd va vb width msel, ReadsBack (.vfeq vd va vb width msel)) ∧ (∀ vd va vb width msel, ReadsBack (.vflt vd va vb width msel)) ∧
    (∀ vd va vb width msel, ReadsBack (.vfle vd va vb width msel)) ∧ (∀ vd va vb width msel, ReadsBack (.vftot vd va vb width msel)) ∧
    (∀ vd va width msel, ReadsBack (.vfabs vd va width msel)) ∧ (∀ vd va width msel, ReadsBack (.vfneg vd va width msel)) ∧
    (∀ vd va width msel, ReadsBack (.vfsqrt vd va width msel)) ∧ (∀ vd va width msel, ReadsBack (.vfrcp vd va width msel)) ∧
    (∀ vd va u width msel, ReadsBack (.vi2f vd va u width msel)) ∧ (∀ vd va u rtz width msel, ReadsBack (.vf2i vd va u rtz width msel)) ∧
    (∀ vd va width msel, ReadsBack (.vfwid vd va width msel)) ∧ (∀ vd va width msel, ReadsBack (.vfnar vd va width msel)) ∧
    (∀ vd va vb width msel, ReadsBack (.vredsum vd va vb width msel)) ∧ (∀ vd va vb width msel, ReadsBack (.vredmax vd va vb width msel)) ∧
    (∀ vd va vb width msel, ReadsBack (.vredmin vd va vb width msel)) ∧ (∀ vd va vb width msel, ReadsBack (.vredarg vd va vb width msel)) ∧
    (∀ vd va vb width msel, ReadsBack (.vfredsum vd va vb width msel)) ∧ (∀ vd va vb width msel, ReadsBack (.vfredmax vd va vb width msel)) ∧
    (∀ vd va vb width msel, ReadsBack (.vfredmin vd va vb width msel)) ∧ (∀ vd va vb width msel, ReadsBack (.vfredarg vd va vb width msel)) ∧
    (∀ vd va vb width msel, ReadsBack (.vidot vd va vb width msel)) ∧ (∀ vd va vb width msel, ReadsBack (.vidotu vd va vb width msel)) ∧
    (∀ vd va vb width msel, ReadsBack (.vfdot vd va vb width msel)) ∧ (∀ vd va vb width msel, ReadsBack (.vfdota vd va vb width msel)) ∧
    (∀ vd va vb width msel, ReadsBack (.vgath vd va vb width msel)) ∧ (∀ vd va vb width msel, ReadsBack (.vslup vd va vb width msel)) ∧
    (∀ vd va vb width msel, ReadsBack (.vsldn vd va vb width msel)) ∧ (∀ vd va width msel, ReadsBack (.vcomp vd va width msel)) := by
  and_intros <;> intros
  all_goals
    refine .of_plain rfl rfl (by decide) ?_
    simp only [decodeOp_eq_decodeMajor, decodeMajor4A, decodeMajor4B, decodeMajor4C, decodeMajor4D, decodeMajor4E, decodeMajor4F, decodeMajor50,
      decodeMajor51, decodeMajor52, operand_toNat, fld, beq_iff_eq, Bool.and_eq_true]
    refine ⟨by lia, fun _ => ?_⟩
    repeat rw [if_neg (by lia)]
    rw [if_pos (by lia)]
  all_goals congr 2
  all_goals
    simp (disch := lia) only [operand_eq_iff, operand_toNat, Nat.add_assoc, fld_sum, Nat.reducePow, Nat.reduceDiv,
      Nat.div_one, Nat.mod_eq_of_lt]

/-- Instructions with several operands, majors 0x53 to 0x57. -/
theorem vecMove_readsBack :
    (∀ vd va width msel, ReadsBack (.vmv vd va width msel)) ∧ (∀ vd width, ReadsBack (.vmvRf vd width)) ∧ (∀ va width, ReadsBack (.vmvCf va width)) ∧
    (∀ vd vb width msel, ReadsBack (.vsplat vd vb width msel)) ∧ (∀ vd va vb width msel, ReadsBack (.vbcs vd va vb width msel)) ∧
    (∀ vd width msel, ReadsBack (.vid vd width msel)) ∧ (∀ vd va vb width, ReadsBack (.mand vd va vb width)) ∧
    (∀ vd va vb width, ReadsBack (.mor vd va vb width)) ∧ (∀ vd va vb width, ReadsBack (.mxor vd va vb width)) ∧
    (∀ vd va width, ReadsBack (.mnot vd va width)) ∧ (∀ vd va width msel, ReadsBack (.mpopc vd va width msel)) ∧
    (∀ vd va width msel, ReadsBack (.mfirst vd va width msel)) ∧ (∀ vd width, ReadsBack (.mset vd width)) ∧
    (∀ vd width, ReadsBack (.mclr vd width)) ∧ (∀ vd va vb width msel, ReadsBack (.vmerge vd va vb width msel)) ∧
    (∀ vd va width msel, ReadsBack (.vselm vd va width msel)) ∧ (∀ vd va vs width msel, ReadsBack (.vbscl vd va vs width msel)) := by
  and_intros <;> intros
  all_goals
    refine .of_plain rfl rfl (by decide) ?_
    simp only [decodeOp_eq_decodeMajor, decodeMajor53, decodeMajor54, decodeMajor55, decodeMajor56, decodeMajor57, fld, beq_iff_eq, Bool.and_eq_true]
    refine ⟨by lia, fun _ => ?_⟩
    repeat rw [if_neg (by lia)]
    rw [if_pos (by lia)]
  all_goals congr 2
  all_goals
    simp (disch := lia) only [operand_eq_iff, Nat.add_assoc, fld_sum, fld_add_tail, Nat.reducePow, Nat.reduceDiv,
      Nat.div_one, Nat.mod_eq_of_lt]

/-- Instructions with several operands, majors 0x60 to 0x69. -/
theorem array_readsBack :
    (∀ vd va fmt part, ReadsBack (.upki vd va fmt part)) ∧ (∀ vd va vs fmt part, ReadsBack (.upkf vd va vs fmt part)) ∧
    (∀ vd va part fl, ReadsBack (.upkb vd va part fl)) ∧ (∀ vd va fmt part, ReadsBack (.pcki vd va fmt part)) ∧
    (∀ vd va vs fmt part, ReadsBack (.pckf vd va vs fmt part)) ∧ (∀ vd va part fl, ReadsBack (.pckb vd va part fl)) ∧
    (∀ vd va fmt, ReadsBack (.pscl vd va fmt)) ∧ (∀ pol route nb na mode, ReadsBack (.afmt pol route nb na mode)) ∧
    (∀ ak, ReadsBack (.alatchLa ak)) ∧ (∀ ak, ReadsBack (.alatchLb ak)) ∧ (∀ ak, ReadsBack (.alatchLbs ak)) ∧
    (∀ edge, ReadsBack (.alatchLz edge)) := by
  and_intros <;> intros
  all_goals
    refine .of_plain rfl rfl (by decide) ?_
    simp only [decodeOp_eq_decodeMajor, decodeMajor60, decodeMajor61, decodeMajor62, decodeMajor64, decodeMajor65, decodeMajor66, decodeMajor67,
      decodeMajor68, decodeMajor69, operand_toNat, fld, beq_iff_eq, Bool.and_eq_true]
    refine ⟨by lia, fun _ => ?_⟩
    repeat rw [if_neg (by lia)]
    try rw [if_pos (by lia)]
  all_goals congr 2
  all_goals
    simp (disch := lia) only [operand_eq_iff, operand_toNat, Nat.add_assoc, fld_sum, fld_zero_of_lt, Nat.reducePow, Nat.reduceDiv,
      Nat.div_one, Nat.mod_eq_of_lt]

/-- Instructions with several operands, majors 0x6A to 0x75. -/
theorem engine_readsBack :
    (∀ s a c p, ReadsBack (.abeat s a c p)) ∧ (∀ ad ak grp bip add clr, ReadsBack (.adrain ad ak grp bip add clr)) ∧
    (∀ qd sa sb sk any, ReadsBack (.aconf qd sa sb sk any)) ∧ (∀ vd ar q, ReadsBack (.ard vd ar q)) ∧ (∀ vs ar q, ReadsBack (.awr vs ar q)) ∧
    (∀ ad rs ac int, ReadsBack (.ascl ad rs ac int)) ∧ (∀ grp, ReadsBack (.aclr grp)) ∧ (∀ ad sel j, ReadsBack (.gread ad sel j)) ∧
    (∀ ad aa ak, ReadsBack (.bterm ad aa ak)) ∧ (∀ ad, ReadsBack (.bnext ad)) ∧ (∀ d a tgt, ReadsBack (.cpy d a tgt)) ∧
    (∀ a b scope z, ReadsBack (.barinit a b scope z)) ∧ (∀ a b, ReadsBack (.baradd a b)) ∧ (∀ a qd, ReadsBack (.bartest a qd)) ∧
    (∀ d a, ReadsBack (.sendh d a)) ∧ (∀ a b, ReadsBack (.hflip a b)) ∧ (∀ d b, ReadsBack (.hstat d b)) ∧ (∀ d a, ReadsBack (.estat d a)) ∧
    (∀ d a, ReadsBack (.ecan d a)) := by
  and_intros <;> intros
  all_goals
    refine .of_plain rfl rfl (by decide) ?_
    simp only [decodeOp_eq_decodeMajor, decodeMajor6A, decodeMajor6B, decodeMajor6C, decodeMajor6D, decodeMajor6E, decodeMajor6F, decodeMajor70,
      decodeMajor71, decodeMajor72, decodeMajor73, decodeMajor75, operand_toNat, fld, beq_iff_eq, Bool.and_eq_true]
    refine ⟨by lia, fun _ => ?_⟩
    repeat rw [if_neg (by lia)]
    try rw [if_pos (by lia)]
  all_goals congr 2
  all_goals
    simp (disch := lia) only [operand_eq_iff, operand_toNat, Nat.add_assoc, fld_sum, fld_zero_of_lt, Nat.reducePow, Nat.reduceDiv,
      Nat.div_one, Nat.mod_eq_of_lt]

/-- AMOV_STRIDE, whose levels 6 and 7 are reserved: level 7 is the word of AMOV. -/
theorem amovStride_readsBack (ad aa : Fin 16) (lvl : Fin 8) : ReadsBack (.amovStride ad aa lvl) := by
  refine .of_plain rfl rfl (by decide) ⟨by lia, fun h => ?_⟩
  have level : lvl.val < 6 := of_decide_eq_true h
  simp only [decodeOp_eq_decodeMajor, decodeMajor36, fld, beq_iff_eq]
  rw [if_neg (by lia), if_neg (by lia), if_pos (by lia)]
  congr 2
  all_goals simp (disch := lia) only [operand_eq_iff, Nat.add_assoc, fld_sum, Nat.reducePow, Nat.reduceDiv, Nat.div_one, Nat.mod_eq_of_lt]

/-- Instructions without an operand. -/
theorem bare_readsBack :
    ReadsBack .nop ∧ ReadsBack .ret ∧ ReadsBack .suspend ∧ ReadsBack .suspendDorm ∧ ReadsBack .join ∧ ReadsBack .exit ∧ ReadsBack .yield ∧
    ReadsBack .rett ∧ ReadsBack .halt ∧ ReadsBack .tlbinvAll ∧ ReadsBack .tlbsync ∧ ReadsBack .tlbunlAll ∧ ReadsBack .aclrAll := by
  and_intros <;> exact .of_plain rfl rfl (by decide) ⟨by decide, fun _ => rfl⟩

/-- Instructions whose only operand is a register of the slot. -/
theorem sole_readsBack :
    ReadsBack .jr ∧ ReadsBack .spawn ∧ ReadsBack .launch ∧ ReadsBack .twait ∧ ReadsBack .tlbinvAsn ∧ ReadsBack .blkdrop ∧ ReadsBack .pset ∧
    ReadsBack .pclr ∧ ReadsBack .ptos ∧ ReadsBack .stop ∧ ReadsBack .gseed ∧ ReadsBack .gseedA ∧ ReadsBack .gseedB ∧ ReadsBack .grestart ∧
    ReadsBack .barwait ∧ ReadsBack .reloc ∧ ReadsBack .ssrch ∧ ReadsBack .equi ∧ ReadsBack .ecanAll := by
  and_intros
  all_goals
    refine .of_sole rfl rfl (by decide) fun r => ?_
    simp only [decodeOp_eq_decodeMajor, decodeMajor05, decodeMajor0A, decodeMajor0B, decodeMajor0C, decodeMajor0D, decodeMajor1D, decodeMajor1E,
      decodeMajor6E, decodeMajor71, decodeMajor73, decodeMajor74, decodeMajor75, operand_eq_iff, fld, beq_iff_eq, Bool.and_eq_true]
    refine ⟨by lia, ?_, by lia⟩
    repeat rw [if_neg (by lia)]
    rw [if_pos (by lia)]

/-- Events, which have no word. -/
theorem event_readsBack :
    ReadsBack .moduleReset ∧ ReadsBack .bundleIssue ∧ ReadsBack .tlbMissWalk ∧ ReadsBack .asyncAccessComplete ∧ ReadsBack .trapEntry ∧
    ReadsBack .bankFaultWait ∧ ReadsBack .faultRecordPost ∧ ReadsBack .actionRetry ∧ ReadsBack .actionEvict ∧ ReadsBack .actionDeliver ∧
    ReadsBack .actionFail ∧ ReadsBack .actionKill ∧ ReadsBack .preemption ∧ ReadsBack .swapIn ∧ ReadsBack .recordTake ∧ ReadsBack .taskRestore ∧
    ReadsBack .queueAgeing ∧ ReadsBack .dieLaunchTake ∧ ReadsBack .specialise ∧ ReadsBack .specialiseTimeout ∧ ReadsBack .launchEnumerate ∧
    ReadsBack .dieCompletionReport ∧ ReadsBack .launchCompletion ∧ ReadsBack .commandStart ∧ ReadsBack .courierElement ∧ ReadsBack .commandComplete ∧
    ReadsBack .arrivalReserve ∧ ReadsBack .handlerStart ∧ ReadsBack .relocEntry ∧ ReadsBack .searchRun ∧ ReadsBack .agthRowCopy ∧
    ReadsBack .blockFillComplete ∧ ReadsBack .tlbinvComplete ∧ ReadsBack .tstepIncrement ∧ ReadsBack .timeAlignmentLoss ∧ ReadsBack .frameDrop ∧
    ReadsBack .malformedMessage ∧ ReadsBack .streamResend ∧ ReadsBack .write ∧ ReadsBack .read ∧ ReadsBack .arm ∧ ReadsBack .disarm ∧
    ReadsBack .fire ∧ ReadsBack .resync ∧ ReadsBack .attest ∧ ReadsBack .mgmtRootBase ∧ ReadsBack .mgmtHeapTable ∧ ReadsBack .mgmtServiceClusters ∧
    ReadsBack .mgmtCodeGeneration ∧ ReadsBack .mgmtBackmapRead ∧ ReadsBack .mgmtFaultQueue ∧ ReadsBack .mgmtPreempt ∧ ReadsBack .mgmtDefaultTvb ∧
    ReadsBack .mgmtCertificate ∧ ReadsBack .mgmtReductionRing ∧ ReadsBack .mgmtMaintenance ∧ ReadsBack .mgmtLoadFirmware ∧ ReadsBack .mgmtExtendM3 ∧
    ReadsBack .mgmtEncapsulation ∧ ReadsBack .firmwarePollSlot ∧ ReadsBack .reductionDescriptor ∧ ReadsBack .reductionResult ∧
    ReadsBack .debugBlockWrite ∧ ReadsBack .traceSample ∧ ReadsBack .triggerEvaluate ∧ ReadsBack .slenWrite ∧ ReadsBack .vlWrite ∧
    ReadsBack .vtypeWrite ∧ ReadsBack .coreEnWrite ∧ ReadsBack .skewWrite ∧ ReadsBack .tswWrite ∧ ReadsBack .alignedAgain ∧
    ReadsBack .discardedMessage ∧ ReadsBack .tlbEntryDropped := by
  and_intros <;> exact .of_event rfl

theorem readsBack (i : Instr) : ReadsBack i := by
  cases i <;> simp only [control_readsBack, alu_readsBack, scalar_readsBack, seqMem_readsBack, coreMem_readsBack, vecMem_readsBack, vecInt_readsBack,
    vecFloat_readsBack, vecMove_readsBack, array_readsBack, engine_readsBack, amovStride_readsBack, bare_readsBack, sole_readsBack, event_readsBack]

/-! ### The word of a slot (R22) -/

/-- The word with these fields (R22). -/
def wordOfFields (stop bind : Bool) (guard : Fin 32) (m x : Nat) : Nat :=
  stop.toNat * 2147483648 + bind.toNat * 1073741824 + guard.val * 33554432 + m * 262144 + x

theorem encodeSlot_eq (s : Slot) :
    encodeSlot s = (wordField s.op fun _ => s.sole).map fun p => wordOfFields s.stop s.bind s.guard p.1 p.2 := by
  unfold encodeSlot wordField wordOfFields
  cases encodeOp s.op <;> cases soleAt s.op <;> rfl

theorem Slot.wellFormed_iff (s : Slot) :
    s.wellFormed = true ↔ s.op.wellFormed = true ∧ (soleAt s.op = none → s.sole = 0) ∧
      ∃ m x, (wordField s.op fun _ => s.sole) = some (m, x) ∧ (isPrefixMajor m = true → s.bind = false ∧ s.guard = 0) := by
  unfold Slot.wellFormed wordField
  cases encodeOp s.op <;> cases soleAt s.op <;> simp [imp_iff_not_or, and_assoc, Prod.ext_iff]

/-- The sole register of an instruction is the same read from the word as from its operand field. -/
theorem fin5_operandField {i : Instr} {lo : Nat} (h : soleAt i = some lo) (w : Nat) : fin5 (fld w 0 18) lo = fin5 w lo := by
  simp only [Fin.ext_iff, operand_val]
  unfold fld
  obtain rfl | rfl := soleAt_eq h <;> lia

theorem wordOfFields_lt (stop bind : Bool) (guard : Fin 32) {m x : Nat} (hm : m < 2 ^ 7) (hx : x < 2 ^ 18) :
    wordOfFields stop bind guard m x < 2 ^ 32 := by
  have hstop := stop.toNat_le
  have hbind := bind.toNat_le
  unfold wordOfFields
  lia

/-- The fields of a word are what it was put together from. -/
theorem fields_wordOfFields (stop bind : Bool) (guard : Fin 32) {m x : Nat} (hm : m < 2 ^ 7) (hx : x < 2 ^ 18) :
    bitAt (wordOfFields stop bind guard m x) 31 = stop ∧ bitAt (wordOfFields stop bind guard m x) 30 = bind ∧
    fin5 (wordOfFields stop bind guard m x) 25 = guard ∧ fld (wordOfFields stop bind guard m x) 18 7 = m ∧
    fld (wordOfFields stop bind guard m x) 0 18 = x := by
  and_intros
  all_goals
    simp (disch := lia) only [wordOfFields, operand_eq_iff, operand_toNat, Nat.add_assoc, fld_sum, fld_zero_of_lt, Nat.reducePow, Nat.reduceDiv,
      Nat.div_one, Nat.mod_eq_of_lt]

/-- A word is put together from its fields. -/
theorem wordOfFields_fields {w : Nat} (h : w < 2 ^ 32) : wordOfFields (bitAt w 31) (bitAt w 30) (fin5 w 25) (fld w 18 7) (fld w 0 18) = w := by
  simp only [wordOfFields, operand_val, fld_join, fld_join_zero, Nat.reducePow, Nat.reduceAdd]
  exact fld_zero_of_lt h

/-- A word whose fields decode is the slot of these fields. -/
theorem decodeSlot_wordOfFields {stop bind : Bool} {guard r : Fin 32} {m x : Nat} {i : Instr} (hm : m < 2 ^ 7) (hx : x < 2 ^ 18)
    (hi : decodeOp m x = .ok i) (hr : ∀ lo, soleAt i = some lo → fin5 x lo = r) (hz : soleAt i = none → r = 0)
    (hp : isPrefixMajor m = true → bind = false ∧ guard = 0) : decodeSlot (wordOfFields stop bind guard m x) = .ok ⟨stop, bind, guard, i, r⟩ := by
  obtain ⟨fstop, fbind, fguard, fmajor, foperands⟩ := fields_wordOfFields stop bind guard hm hx
  have noPrefixBits : (isPrefixMajor m && fld (wordOfFields stop bind guard m x) 25 6 != 0) = false := by
    by_cases h : isPrefixMajor m = true
    · obtain ⟨rfl, rfl⟩ := hp h
      have zero : fld (wordOfFields stop false 0 m x) 25 6 = 0 := by
        simp only [wordOfFields, fld, Bool.toNat_false, Fin.val_zero]
        lia
      simp [zero]
    · simp [h]
  unfold decodeSlot
  simp only [fstop, fbind, fguard, fmajor, noPrefixBits, foperands, hi, Bool.false_eq_true, if_false]
  cases sole : soleAt i with
  | none => rw [hz sole]
  | some lo => simp only [← hr lo sole, ← fin5_operandField sole (wordOfFields stop bind guard m x), foperands]

theorem wordOfBytes_bytesOfWord {w : Nat} (h : w < 2 ^ 32) : wordOfBytes (bytesOfWord w) = w := by
  simp only [bytesOfWord, wordOfBytes, BitVec.toNat_ofNat]
  lia

theorem decodeBytes_bytesOfWord {w : Nat} {f : Slot} (rest : List (BitVec 8)) (hw : w < 2 ^ 32) (hf : decodeSlot w = .ok f) :
    decodeBytes (bytesOfWord w ++ rest) = some (f, rest) := by
  rw [← wordOfBytes_bytesOfWord hw] at hf
  unfold bytesOfWord at hf ⊢
  simp only [List.cons_append, List.nil_append, decodeBytes, hf]

/-- What a word that decodes holds (R22, R33). -/
theorem decodeSlot_eq_ok {w : Nat} {f : Slot} (h : decodeSlot w = .ok f) :
    f.stop = bitAt w 31 ∧ f.bind = bitAt w 30 ∧ f.guard = fin5 w 25 ∧ decodeOp (fld w 18 7) (fld w 0 18) = .ok f.op ∧
      (∀ lo, soleAt f.op = some lo → f.sole = fin5 w lo) ∧ (soleAt f.op = none → f.sole = 0) ∧
      (isPrefixMajor (fld w 18 7) = true → fld w 25 6 = 0) := by
  unfold decodeSlot at h
  dsimp only at h
  split at h
  · cases h
  next hp =>
    split at h
    next i hi =>
      cases h
      refine ⟨rfl, rfl, rfl, hi, fun lo hlo => ?_, fun hn => ?_, fun hm => by simpa [hm] using hp⟩
      · simp only [hlo]
      · simp only [hn]
    · cases h

theorem decodeSlot_nop (stop bind : Bool) (g : Fin 32) :
    decodeSlot (stop.toNat * 2 ^ 31 + bind.toNat * 2 ^ 30 + g.val * 2 ^ 25) = .ok ⟨stop, bind, g, .nop, 0⟩ := by
  have word : stop.toNat * 2 ^ 31 + bind.toNat * 2 ^ 30 + g.val * 2 ^ 25 = wordOfFields stop bind g 0 0 := by
    unfold wordOfFields
    lia
  rw [word]
  exact decodeSlot_wordOfFields (by decide) (by decide) rfl (fun _ h => nomatch h) (fun _ => rfl) (fun h => nomatch h)

theorem decodeSlot_nop_error {top x : Nat} (h0 : 0 < x) (hx : x < 2 ^ 18) :
    decodeSlot (top * 2 ^ 25 + x) = .error (.reservedEncoding 0) := by
  have major : fld (top * 2 ^ 25 + x) 18 7 = 0 := by unfold fld; lia
  have operands : fld (top * 2 ^ 25 + x) 0 18 = x := by unfold fld; lia
  have notNop : decodeOp 0 x = .error (.reservedEncoding 0) := by
    show decodeMajor00 x = _
    unfold decodeMajor00
    rw [fld_zero_of_lt hx, if_neg (by simp; lia)]
  rw [decodeSlot, major, operands, notNop]
  rfl

end Sys2Proof
end
section
/-!
SETTLED. O1, O2, O3 and O9: slot words and NOP.
-/

namespace Sys2Proof.Machine

/-- Settles O1: the decoder reads back the operand field of every instruction, and the fields of its word. -/
theorem encodeThenDecodeIsTheSlot : Obligations.EncodeThenDecodeIsTheSlot := by
  unfold Obligations.EncodeThenDecodeIsTheSlot
  intro f rest hf
  obtain ⟨hop, hsole, m, x, hword, hprefix⟩ := f.wellFormed_iff.mp hf
  obtain ⟨hm, hx, hdecode, hr⟩ := readsBack f.op f.sole m x hword
  have hw := wordOfFields_lt f.stop f.bind f.guard hm hx
  exact ⟨_, by rw [encodeSlot_eq, hword, Option.map_some], hw,
    decodeBytes_bytesOfWord rest hw (decodeSlot_wordOfFields hm hx (hdecode hop) hr hsole hprefix)⟩

/-- Settles O2: what each major opcode decodes is well formed and has the operand field it was read from. -/
theorem decodeThenEncodeIsTheWord : Obligations.DecodeThenEncodeIsTheWord := by
  unfold Obligations.DecodeThenEncodeIsTheWord
  intro w f hw h
  obtain ⟨hstop, hbind, hguard, hop, hsole, hnone, hprefix⟩ := decodeSlot_eq_ok h
  obtain ⟨hwf, hfield⟩ := decodeOp_sound (fld_lt w 0 18) _ f.op hop
  have field : (wordField f.op fun _ => f.sole) = some (fld w 18 7, fld w 0 18) := by
    rw [← hfield]
    unfold wordField
    split
    next lo hlo => rw [hsole lo hlo, fin5_operandField hlo]
    · rfl
  constructor
  · rw [encodeSlot_eq, field, Option.map_some, hstop, hbind, hguard, wordOfFields_fields hw]
  · refine f.wellFormed_iff.mpr ⟨hwf, hnone, _, _, field, fun hm => ?_⟩
    have zero := hprefix hm
    simp only [hbind, hguard, operand_eq_iff, Bool.toNat_false, Fin.val_zero]
    unfold fld at zero ⊢
    constructor <;> lia

/-- Settles O3, by decoding each word. -/
theorem knownWordsDecode : Obligations.KnownWordsDecode := by
  unfold Obligations.KnownWordsDecode
  exact ⟨rfl, rfl, rfl, rfl, rfl, rfl, rfl, rfl, rfl⟩

/-- Settles O9: a step at a NOP only goes on, and major opcode 0 decodes with the operand field 0 alone. -/
theorem nopDoesNothing : Obligations.NopDoesNothing := by
  unfold Obligations.NopDoesNothing
  exact ⟨exec_nop, fun _ _ _ _ => step_nop, decodeSlot_nop, fun _ _ _ h0 hx => ⟨_, decodeSlot_nop_error h0 hx⟩⟩

end Sys2Proof.Machine
end

section
/-!
SUPPORT. The outcome of a scalar slot, and the numbers that its operands and results stand for (R6, R31, R49 to R53).
-/

namespace Sys2Proof.Machine

/-! ### Outcomes of slots -/

theorem outcome_ok (s t : State) : outcome s (.ok t) = .next t := rfl

/-- A trap of a cause that no walk leads to is taken at the slot as the state stands. -/
theorem outcome_trap {s : State} {c : BitVec 8} (v : Word) (a : Fin 9) (hc : [0x04, 0x05, 0x0B, 0x16].contains c.toNat = false) :
    outcome s (.error (.trap c v a)) = .next (takeTrap s c v a) := by
  have walk : s.noteWalk (s.who a) c v = s := by
    unfold State.noteWalk
    rw [hc]
    simp
  unfold outcome
  simp only [walk, ite_self]

theorem outcome_illegal (s : State) : outcome s (illegal s) = .next (takeTrap s 0x01 s.slotWord 8) := outcome_trap _ _ rfl

theorem outcome_privilege (s : State) : outcome s (privilege s) = .next (takeTrap s 0x03 s.slotWord 8) := outcome_trap _ _ rfl

/-- Results that are one word are one write. -/
theorem next_postS {s : State} {lat : Nat} {d : Fin 32} {u v : Word} (h : u = v) :
    (.next (s.postS lat d u) : Host.Outcome State Fault Refusal) = .next (s.postS lat d v) := congrArg _ (congrArg _ h)

/-! ### Words and integers -/

@[simp] theorem toWord_toInt (x : Word) : toWord x.toInt = x := BitVec.ofInt_toInt

theorem toWord_add (i j : Int) : toWord (i + j) = toWord i + toWord j := BitVec.ofInt_add i j

theorem toWord_sub (i j : Int) : toWord (i - j) = toWord i - toWord j := by
  rw [sub_eq_add_neg, toWord_add, BitVec.sub_eq_add_neg]
  exact congrArg _ BitVec.ofInt_neg

theorem toWord_mul (i j : Int) : toWord (i * j) = toWord i * toWord j := BitVec.ofInt_mul i j

/-- A field of n bits, sign-extended, is the integer that its bit vector stands for. -/
theorem sextNat_eq_toInt (n x : Nat) : sextNat n x = (BitVec.ofNat n x).toInt := by
  unfold sextNat
  rw [BitVec.toInt_eq_toNat_cond, BitVec.toNat_ofNat]
  cases n with
  | zero => simp [Nat.mod_one]
  | succ n =>
    simp only [Nat.add_sub_cancel, pow_succ]
    split <;> split <;> omega

/-! ### Results of 32 bits -/

theorem sextW_eq (x : BitVec 32) : sextW x = toWord x.toInt := rfl

/-- The low 32 bits of an integer's word stand for the integer's residue nearest 0. -/
theorem toInt_low_toWord (i : Int) : ((toWord i).setWidth 32).toInt = i.bmod ((2 : Nat) ^ 32) := by
  rw [BitVec.toInt_setWidth, ← Int.bmod_bmod_of_dvd (m := 2 ^ 64) (Nat.pow_dvd_pow 2 (by decide)), ← BitVec.toInt_eq_toNat_bmod, toWord,
    BitVec.toInt_ofInt, Int.bmod_bmod_of_dvd (Nat.pow_dvd_pow 2 (by decide))]

theorem toInt_low (x : Word) : (x.setWidth 32).toInt = x.toInt.bmod ((2 : Nat) ^ 32) := by
  rw [← toInt_low_toWord, toWord_toInt]

theorem sextW_low_toWord (i : Int) : sextW ((toWord i).setWidth 32) = toWord (i.bmod ((2 : Nat) ^ 32)) := by rw [sextW_eq, toInt_low_toWord]

theorem sextW_ofNat (n : Nat) : sextW (BitVec.ofNat 32 n) = toWord ((n : Int).bmod ((2 : Nat) ^ 32)) := by rw [sextW_eq, BitVec.toInt_ofNat']

theorem sextNat_eq_bmod (x : Word) : sextNat 32 x.toNat = x.toInt.bmod ((2 : Nat) ^ 32) := by
  rw [sextNat_eq_toInt, ← toInt_low]
  rfl

/-! ### Shifts -/

theorem shiftLeft_eq_ofNat {w : Nat} (x : BitVec w) (n : Nat) : x <<< n = BitVec.ofNat w (x.toNat * 2 ^ n) := by
  apply BitVec.eq_of_toNat_eq
  rw [BitVec.toNat_shiftLeft, Nat.shiftLeft_eq, BitVec.toNat_ofNat]

theorem ushiftRight_eq_ofNat {w : Nat} (x : BitVec w) (n : Nat) : x >>> n = BitVec.ofNat w (x.toNat / 2 ^ n) := by
  apply BitVec.eq_of_toNat_eq
  rw [BitVec.toNat_ushiftRight, Nat.shiftRight_eq_div_pow, BitVec.toNat_ofNat, Nat.mod_eq_of_lt]
  exact lt_of_le_of_lt (Nat.div_le_self ..) x.isLt

theorem sshiftRight_eq_toWord (x : Word) (n : Nat) : x.sshiftRight n = toWord (x.toInt / 2 ^ n) := by
  rw [← toWord_toInt (x.sshiftRight n), BitVec.toInt_sshiftRight, Int.shiftRight_eq_div_pow]
  rfl

theorem low_shiftLeft (x : Word) (n : Nat) : x.setWidth 32 <<< n = BitVec.ofNat 32 (x.toNat * 2 ^ n) := by
  apply BitVec.eq_of_toNat_eq
  rw [shiftLeft_eq_ofNat, BitVec.toNat_ofNat, BitVec.toNat_ofNat, BitVec.toNat_setWidth, Nat.mod_mul_mod]

theorem low_ushiftRight (x : Word) (n : Nat) : x.setWidth 32 >>> n = BitVec.ofNat 32 (x.toNat % 2 ^ 32 / 2 ^ n) := by
  rw [ushiftRight_eq_ofNat, BitVec.toNat_setWidth]

theorem sextW_low_sshiftRight (x : Word) (n : Nat) : sextW ((x.setWidth 32).sshiftRight n) = toWord (x.toInt.bmod ((2 : Nat) ^ 32) / 2 ^ n) := by
  rw [sextW_eq, BitVec.toInt_sshiftRight, toInt_low, Int.shiftRight_eq_div_pow]
  rfl

/-- SHORI's value: the register moved up, the immediate in the bits that become free (R53). -/
theorem shiftLeft_or_eq (x : Word) (imm : BitVec 13) : (x <<< 13) ||| imm.setWidth 64 = BitVec.ofNat 64 (x.toNat * 2 ^ 13 + imm.toNat) := by
  have himm := imm.isLt
  apply BitVec.eq_of_toNat_eq
  rw [shiftLeft_eq_ofNat, BitVec.toNat_or, BitVec.toNat_ofNat, BitVec.toNat_ofNat, BitVec.toNat_setWidth,
    Nat.mod_eq_of_lt (a := imm.toNat) (by omega),
    show x.toNat * 2 ^ 13 % 2 ^ 64 = (x.toNat % 2 ^ 51) <<< 13 by rw [Nat.shiftLeft_eq]; omega,
    ← Nat.shiftLeft_add_eq_or_of_lt himm, Nat.shiftLeft_eq]
  omega

/-! ### Extremes -/

theorem toWord_min (x y : Word) : toWord (min x.toInt y.toInt) = if x.toInt ≤ y.toInt then x else y := by
  rw [min_def]
  split <;> exact toWord_toInt _

theorem toWord_max (x y : Word) : toWord (max x.toInt y.toInt) = if x.toInt ≤ y.toInt then y else x := by
  rw [max_def]
  split <;> exact toWord_toInt _

theorem ofNat_min (x y : Word) : BitVec.ofNat 64 (min x.toNat y.toNat) = if x.toNat ≤ y.toNat then x else y := by
  rw [min_def]
  split <;> simp

theorem ofNat_max (x y : Word) : BitVec.ofNat 64 (max x.toNat y.toNat) = if x.toNat ≤ y.toNat then y else x := by
  rw [max_def]
  split <;> simp

/-! ### Results bit by bit -/

theorem getLsbD_rotateLeft_add (x : Word) (n : Nat) {i : Nat} (hi : i < 64) : (x.rotateLeft n).getLsbD ((i + n) % 64) = x.getLsbD i := by
  have hr := Nat.mod_lt n (show 0 < 64 by decide)
  rw [BitVec.getLsbD_rotateLeft, Bool.cond_decide]
  by_cases h : (i + n) % 64 < n % 64
  · rw [if_pos h]
    congr 1
    omega
  · rw [if_neg h, decide_eq_true (Nat.mod_lt _ (by decide)), Bool.true_and]
    congr 1
    omega

theorem getLsbD_rotateRight_add (x : Word) (n : Nat) {i : Nat} (hi : i < 64) : (x.rotateRight n).getLsbD i = x.getLsbD ((i + n) % 64) := by
  have hr := Nat.mod_lt n (show 0 < 64 by decide)
  rw [BitVec.getLsbD_rotateRight, Bool.cond_decide]
  by_cases h : i < 64 - n % 64
  · rw [if_pos h]
    congr 1
    omega
  · rw [if_neg h, decide_eq_true hi, Bool.true_and]
    congr 1
    omega

/-- A sum of powers of two, one for each number below n that `p` names. -/
def maskNat (p : Nat → Bool) (n : Nat) : Nat := (List.range n).foldl (fun m i => if p i then m + 2 ^ i else m) 0

theorem maskNat_succ (p : Nat → Bool) (n : Nat) : maskNat p (n + 1) = if p n then maskNat p n + 2 ^ n else maskNat p n := by
  unfold maskNat
  rw [List.range_succ, List.foldl_append]
  rfl

theorem maskNat_lt (p : Nat → Bool) (n : Nat) : maskNat p n < 2 ^ n := by
  induction n with
  | zero => exact Nat.one_pos
  | succ n ih =>
    rw [maskNat_succ, pow_succ]
    split <;> omega

theorem testBit_maskNat (p : Nat → Bool) {n i : Nat} (h : i < n) : (maskNat p n).testBit i = p i := by
  induction n with
  | zero => omega
  | succ n ih =>
    have hlt := maskNat_lt p n
    rw [maskNat_succ]
    rcases Nat.lt_succ_iff_lt_or_eq.mp h with hi | rfl
    · rw [← ih hi]
      split
      · rw [Nat.add_comm, Nat.testBit_two_pow_add_gt hi]
      · rfl
    · cases hp : p i with
      | true => rw [if_pos rfl, Nat.add_comm, Nat.testBit_two_pow_add_eq, Nat.testBit_lt_two_pow hlt]; rfl
      | false => exact Nat.testBit_lt_two_pow hlt

theorem getLsbD_bitReverse (x : Word) {i : Nat} (hi : i < 64) : (bitReverse x).getLsbD i = x.getLsbD (63 - i) := by
  change (BitVec.ofNat 64 (maskNat (fun i => x.getLsbD (63 - i)) 64)).getLsbD i = _
  rw [BitVec.getLsbD_ofNat, testBit_maskNat _ hi, decide_eq_true hi, Bool.true_and]

/-- The zero bits above the highest set bit below n. -/
theorem leadingZeros_spec (x : Word) (n : Nat) :
    leadingZeros x n ≤ n ∧ (∀ i, i < leadingZeros x n → x.getLsbD (n - 1 - i) = false) ∧
      (leadingZeros x n < n → x.getLsbD (n - 1 - leadingZeros x n) = true) := by
  induction n with
  | zero => simp [leadingZeros]
  | succ n ih =>
    obtain ⟨hle, hzero, hone⟩ := ih
    unfold leadingZeros
    cases hx : x.getLsbD n with
    | true => simp [hx]
    | false =>
      simp only [Bool.false_eq_true, if_false]
      refine ⟨by omega, fun i hi => ?_, fun h => ?_⟩
      · cases i with
        | zero => exact hx
        | succ i => rw [← hzero i (by omega)]; congr 1; omega
      · rw [← hone (by omega)]; congr 1; omega

/-- The zero bits below the lowest set bit from bit 64 - n on. -/
theorem trailingZeros_spec (x : Word) {n : Nat} (hn : n ≤ 64) :
    trailingZeros x n ≤ n ∧ (∀ i, i < trailingZeros x n → x.getLsbD (64 - n + i) = false) ∧
      (trailingZeros x n < n → x.getLsbD (64 - n + trailingZeros x n) = true) := by
  induction n with
  | zero => simp [trailingZeros]
  | succ n ih =>
    obtain ⟨hle, hzero, hone⟩ := ih (by omega)
    have first : 64 - (n + 1) = 63 - n := by omega
    unfold trailingZeros
    rw [first]
    cases hx : x.getLsbD (63 - n) with
    | true => simp [hx]
    | false =>
      simp only [Bool.false_eq_true, if_false]
      refine ⟨by omega, fun i hi => ?_, fun h => ?_⟩
      · cases i with
        | zero => exact hx
        | succ i => rw [← hzero i (by omega)]; congr 1; omega
      · rw [← hone (by omega)]; congr 1; omega

theorem popCount_eq_countP {w : Nat} (x : BitVec w) (n : Nat) : popCount x n = (List.range n).countP fun i => x.getLsbD i := by
  induction n with
  | zero => rfl
  | succ n ih =>
    rw [List.range_succ, List.countP_append, ← ih, List.countP_singleton]
    exact Nat.add_comm ..

end Sys2Proof.Machine
end

section
/-!
SETTLED. O12 and O13: scalar arithmetic (R49 to R53).
-/

namespace Sys2Proof.Machine

/-- Settles O12: each form's value, by the integer or the bits that it stands for. -/
theorem scalarIntegerForms : Obligations.ScalarIntegerForms := by
  unfold Obligations.ScalarIntegerForms
  refine ⟨fun s d a b => ?_, fun s d a b => ?_, fun s d a => ?_⟩
  · intro x y n m w
    refine ⟨next_postS ?_, next_postS ?_, next_postS ?_, next_postS ?_, next_postS ?_, next_postS ?_, rfl, rfl, next_postS ?_, next_postS ?_,
      next_postS ?_, next_postS ?_, next_postS ?_, next_postS ?_, next_postS ?_, next_postS ?_, next_postS ?_, next_postS ?_⟩
    · rw [toWord_add, toWord_toInt, toWord_toInt]
    · rw [toWord_sub, toWord_toInt, toWord_toInt]
    · exact shiftLeft_eq_ofNat x n
    · exact ushiftRight_eq_ofNat x n
    · exact sshiftRight_eq_toWord x n
    · exact BitVec.eq_of_toNat_eq (by rw [BitVec.toNat_mul, BitVec.toNat_ofNat])
    · exact (toWord_min x y).symm
    · exact (toWord_max x y).symm
    · exact (ofNat_min x y).symm
    · exact (ofNat_max x y).symm
    · rw [← sextW_low_toWord, toWord_add, toWord_toInt, toWord_toInt]
    · rw [← sextW_low_toWord, toWord_sub, toWord_toInt, toWord_toInt]
    · rw [← sextW_low_toWord, toWord_mul, toWord_toInt, toWord_toInt]
    · exact (congrArg sextW (low_shiftLeft x m)).trans (sextW_ofNat _)
    · exact (congrArg sextW (low_ushiftRight x m)).trans (sextW_ofNat _)
    · exact sextW_low_sshiftRight x m
  · intro x y n
    refine ⟨⟨x &&& y, rfl, fun i _ => BitVec.getLsbD_and⟩, ⟨x ||| y, rfl, fun i _ => BitVec.getLsbD_or⟩,
      ⟨x ^^^ y, rfl, fun i _ => BitVec.getLsbD_xor⟩,
      ⟨x &&& ~~~y, rfl, fun i hi => ?_⟩, ⟨x.rotateLeft n, rfl, fun i => getLsbD_rotateLeft_add x n⟩,
      ⟨x.rotateRight n, rfl, fun i => getLsbD_rotateRight_add x n⟩, ⟨bitReverse x, rfl, fun i => getLsbD_bitReverse x⟩,
      ⟨leadingZeros x 64, rfl, leadingZeros_spec x 64⟩, ⟨trailingZeros x 64, rfl, ?_⟩, ?_⟩
    · rw [BitVec.getLsbD_and, BitVec.getLsbD_not, decide_eq_true hi, Bool.true_and]
    · simpa using trailingZeros_spec x (le_refl 64)
    · rw [← popCount_eq_countP]
      rfl
  · intro x
    refine ⟨fun imm => ⟨?_, ⟨_, rfl, fun i _ => BitVec.getLsbD_and⟩, ⟨_, rfl, fun i _ => BitVec.getLsbD_or⟩,
      ⟨_, rfl, fun i _ => BitVec.getLsbD_xor⟩⟩,
      fun sh => ⟨?_, ?_, ?_⟩, fun imm => rfl, fun imm => ?_⟩
    · rw [toWord_add, toWord_toInt]
      rfl
    · rw [← shiftLeft_eq_ofNat]
      rfl
    · rw [← ushiftRight_eq_ofNat]
      rfl
    · rw [← sshiftRight_eq_toWord]
      rfl
    · rw [← shiftLeft_or_eq]
      rfl

/-! ### Division (R50) -/

/-- The one quotient of signed words that does not fit is that of -2^63 by -1. -/
theorem tdiv_bounds (x y : Word) (h : ¬(x.toInt = -(2 ^ 63) ∧ y.toInt = -1)) :
    -(2 ^ 63) ≤ x.toInt.tdiv y.toInt ∧ x.toInt.tdiv y.toInt < 2 ^ 63 := by
  have hlo : -(2 ^ 63) ≤ x.toInt := BitVec.le_toInt x
  have hhi : x.toInt < 2 ^ 63 := BitVec.toInt_lt
  generalize x.toInt = a at *
  generalize y.toInt = b at *
  by_cases one : b = 1
  · rw [one, Int.tdiv_one]
    exact ⟨hlo, hhi⟩
  by_cases minus : b = -1
  · rw [minus, Int.tdiv_neg, Int.tdiv_one]
    omega
  by_cases zero : b = 0
  · rw [zero, Int.tdiv_zero]
    decide
  · have half : (a.tdiv b).natAbs ≤ a.natAbs / 2 := by
      rw [Int.natAbs_tdiv]
      exact Nat.div_le_div_left (by omega) (by decide)
    omega

/-- A remainder that is not 0 has the sign of the dividend. -/
theorem tmod_neg_iff {a b : Int} (h : a.tmod b ≠ 0) : a.tmod b < 0 ↔ a < 0 := by
  have sign := Int.sign_tmod a b
  rw [if_neg (fun hd => h (Int.tmod_eq_zero_of_dvd hd))] at sign
  rw [← Int.sign_eq_neg_one_iff_neg, sign, Int.sign_eq_neg_one_iff_neg]

theorem abs_tmod_lt (a : Int) {b : Int} (h : b ≠ 0) : |a.tmod b| < |b| := by
  have lt := Nat.mod_lt a.natAbs (Int.natAbs_pos.mpr h)
  rw [← Int.natAbs_tmod] at lt
  rw [Int.abs_eq_natAbs, Int.abs_eq_natAbs]
  exact_mod_cast lt

/-- Settles O13: truncated division of integers, with the values of R50 where there is no quotient or it does not fit. -/
theorem divisionTruncatesTowardZero : Obligations.DivisionTruncatesTowardZero := by
  unfold Obligations.DivisionTruncatesTowardZero
  intro s d a b x y fits
  have int : y = 0 ↔ y.toInt = 0 := by rw [← BitVec.toInt_inj]; rfl
  have nat : y = 0 ↔ y.toNat = 0 := by rw [← BitVec.toNat_inj]; rfl
  refine ⟨fun hy => ?_, fun hy hf => ?_, fun hy hf => ?_, fun hy => ?_, fun hy => ?_⟩
  · exact ⟨next_postS (if_pos (int.mpr hy)), next_postS (if_pos (int.mpr hy))⟩
  · have neg := mt int.mp hy
    have both := not_not.mp hf
    exact ⟨next_postS ((if_neg neg).trans (if_pos both)), next_postS ((if_neg neg).trans (if_pos both))⟩
  · have neg := mt int.mp hy
    obtain ⟨hlo, hhi⟩ := tdiv_bounds x y hf
    refine ⟨x.toInt.tdiv y.toInt, x.toInt.tmod y.toInt, (Int.tdiv_mul_add_tmod ..).symm, abs_tmod_lt _ hy, tmod_neg_iff, hlo, hhi,
      next_postS ((if_neg neg).trans (if_neg hf)), next_postS ?_⟩
    rw [Int.tmod_def]
    exact (if_neg neg).trans (if_neg hf)
  · exact ⟨next_postS (if_pos (nat.mpr hy)), next_postS (if_pos (nat.mpr hy))⟩
  · have neg := mt nat.mp hy
    refine ⟨x.toNat / y.toNat, x.toNat % y.toNat, (Nat.div_add_mod' ..).symm, Nat.mod_lt _ (Nat.pos_of_ne_zero hy), next_postS (if_neg neg),
      next_postS ?_⟩
    rw [Nat.mod_eq_sub]
    exact if_neg neg

end Sys2Proof.Machine
end

section
/-!
SUPPORT. Writes of registers under way (O8): what a posted write changes, and which registers hold it once the writes that are due have been
delivered (R17, R34, R69).
-/

namespace Sys2Proof.Machine

/-! ### What a posted write changes -/

theorem State.postS_zero (s : State) (lat : Nat) (v : Word) : s.postS lat 0 v = s := rfl

theorem State.postQ_zero (s : State) (lat : Nat) (v : Bool) : s.postQ lat 0 v = s := rfl

theorem State.postS_of_ne_zero {d : Fin 32} (h : d ≠ 0) (s : State) (lat : Nat) (v : Word) : s.postS lat d v = s.post lat (.s d v) :=
  if_neg (Fin.val_ne_of_ne h)

theorem State.postQ_of_ne_zero {d : Fin 32} (h : d ≠ 0) (s : State) (lat : Nat) (v : Bool) :
    s.postQ lat d v = (s.post lat (.q d v)).modBank fun b =>
      { b with qLast := b.qLast.set d.val (max b.qLast[d.val] (s.cl.time + lat + 1)) d.isLt } :=
  if_neg (Fin.val_ne_of_ne h)

theorem State.postS_frame (s : State) (lat : Nat) (d : Fin 32) (v : Word) :
    s.postS lat d v = s.modBank fun b => { b with pend := (s.postS lat d v).cl.bank.pend } := by
  unfold State.postS
  split <;> rfl

theorem State.postQ_frame (s : State) (lat : Nat) (d : Fin 32) (v : Bool) :
    s.postQ lat d v = s.modBank fun b => { b with pend := (s.postQ lat d v).cl.bank.pend, qLast := (s.postQ lat d v).cl.bank.qLast } := by
  unfold State.postQ
  split <;> rfl

theorem State.postQ_qLast_other {d r : Fin 32} (h : r ≠ d) (s : State) (lat : Nat) (v : Bool) :
    (s.postQ lat d v).cl.bank.qLast[r.val] = s.cl.bank.qLast[r.val] := by
  unfold State.postQ
  split
  · rfl
  · exact Vector.getElem_set_ne d.isLt r.isLt (Fin.val_ne_of_ne h.symm)

theorem State.postQ_pend {d : Fin 32} (h : d ≠ 0) (s : State) (lat : Nat) (v : Bool) :
    (s.postQ lat d v).cl.bank.pend = Pending.insert ⟨s.cl.time + lat, .q d v, s.cl.time, s.opn.idx⟩ s.cl.bank.pend := by
  rw [State.postQ_of_ne_zero h]
  rfl

theorem State.modCoreBank_core (s : State) (k : Fin 8) (f : CoreBank → CoreBank) :
    (s.modCoreBank k f).cl.bank.cores[k.val] = f s.cl.bank.cores[k.val] := Vector.getElem_set_self k.isLt

theorem State.modCoreBank_core_other {j k : Fin 8} (h : j ≠ k) (s : State) (f : CoreBank → CoreBank) :
    (s.modCoreBank k f).cl.bank.cores[j.val] = s.cl.bank.cores[j.val] := Vector.getElem_set_ne k.isLt j.isLt (Fin.val_ne_of_ne h.symm)

theorem State.modCore_core (s : State) (k : Fin 8) (f : PhysCore → PhysCore) : (s.modCore k f).cl.cores[k.val] = f s.cl.cores[k.val] :=
  Vector.getElem_set_self k.isLt

/-! ### Delivery -/

theorem SeqFile.write_s {d : Fin 32} (h : d ≠ 0) (f : SeqFile) (v : Word) : f.write (.s d v) = { f with s := f.s.set d.val v d.isLt } :=
  if_neg (Fin.val_ne_of_ne h)

/-- A file of registers after a write of one of them. -/
theorem getElem_set_fin {α : Type} {n : Nat} (x : Vector α n) (d r : Fin n) (v : α) :
    (x.set d.val v d.isLt)[r.val] = if r = d then v else x[r.val] := by
  rw [Vector.getElem_set]
  exact if_congr (by rw [Fin.ext_iff, eq_comm]) rfl rfl

/-- One condition for two, the first of which decides alone. -/
theorem ite_ite_and {α : Type} (p q : Prop) [Decidable p] [Decidable q] (x y : α) :
    (if p then (if q then x else y) else y) = if q ∧ p then x else y := by
  by_cases hp : p <;> simp [hp]

theorem ite_getElem_set {α : Type} {n : Nat} (p : Prop) [Decidable p] (x : Vector α n) (d r : Fin n) (v : α) :
    (if p then x.set d.val v d.isLt else x)[r.val] = if r = d ∧ p then v else x[r.val] := by
  rw [apply_ite (fun y : Vector α n => y[r.val]), getElem_set_fin, ite_ite_and]

theorem settle_singleton {α β : Type} (f : β → α → β) (n : Nat) (p : Pending α) (x : β) :
    (settle f n [p] x).1 = if p.due ≤ n then f x p.eff else x := by
  unfold settle
  split <;> rfl

theorem State.settle_file (s : State) (n : Nat) : (s.settle n).cl.bank.file = (Machine.settle Bank.write n s.cl.bank.pend s.cl.bank).1.file := rfl

/-- The address registers of a core as the writes due in it leave them; the flags that array rows set are no part of them. -/
theorem State.settle_core_a (s : State) (n : Nat) (j : Fin 8) :
    ((s.settle n).cl.bank.cores[j.val]).file.a =
      ((s.cl.bank.cores[j.val]).settle (coreCycle n (Machine.settle Bank.write n s.cl.bank.pend s.cl.bank).1.skew j.val)).file.a := by
  simp only [State.settle, State.modCl_cl, Cluster.delivered, Bank.addFlags, Bank.settle, Vector.getElem_ofFn]
  split <;> rfl

theorem CoreBank.settle_nil {c : CoreBank} (h : c.pend = []) (n : Nat) : c.settle n = c := by
  cases c
  cases h
  rfl

theorem getLsbD_twoPow_fin (d r : Fin 32) : (BitVec.twoPow 32 d.val).getLsbD r.val = decide (r = d) := by
  rw [BitVec.getLsbD_twoPow, decide_eq_true d.isLt, Bool.true_and]
  exact decide_eq_decide.mpr (by rw [Fin.ext_iff, eq_comm])

/-- A file of predicates after a write of one of them. -/
theorem getLsbD_setQ {d : Fin 32} (h : d ≠ 0) (q : BitVec 32) (v : Bool) (r : Fin 32) :
    (setQ q d v).getLsbD r.val = if r = d then v else q.getLsbD r.val := by
  have nonzero : ¬d.val = 0 := Fin.val_ne_of_ne h
  unfold setQ
  rw [if_neg nonzero]
  cases v
  · rw [if_neg Bool.false_ne_true, BitVec.getLsbD_and, BitVec.getLsbD_not, getLsbD_twoPow_fin, decide_eq_true r.isLt]
    split <;> simp only [*, decide_true, decide_false, Bool.not_true, Bool.not_false, Bool.and_false, Bool.and_true]
  · rw [if_pos rfl, BitVec.getLsbD_or, getLsbD_twoPow_fin]
    split <;> simp only [*, decide_true, decide_false, Bool.or_true, Bool.or_false]

theorem Bank.write_file (b : Bank) (w : SeqWrite) : (b.write w).file = b.file.write w := by
  cases w <;> rfl

/-- The registers at cycle n where one write is under way, due at cycle `due`. -/
theorem State.settle_file_of_singleton {s : State} {due born slot : Nat} {w : SeqWrite} (h : s.cl.bank.pend = [⟨due, w, born, slot⟩]) (n : Nat) :
    (s.settle n).cl.bank.file = if due ≤ n then s.cl.bank.file.write w else s.cl.bank.file := by
  rw [State.settle_file, h, settle_singleton]
  split
  · exact Bank.write_file _ _
  · rfl

theorem State.post_pend_of_nil {s : State} (h : s.cl.bank.pend = []) (lat : Nat) (w : SeqWrite) :
    (s.post lat w).cl.bank.pend = [⟨s.cl.time + lat, w, s.cl.time, s.opn.idx⟩] := by
  change Pending.insert _ s.cl.bank.pend = _
  rw [h]
  rfl

/-- A write that is posted where no other is under way is in the file from the cycle of its delivery on. -/
theorem State.settle_post_file {s : State} (h : s.cl.bank.pend = []) (lat n : Nat) (w : SeqWrite) :
    ((s.post lat w).settle n).cl.bank.file = if s.cl.time + lat ≤ n then s.cl.bank.file.write w else s.cl.bank.file :=
  State.settle_file_of_singleton (State.post_pend_of_nil h lat w) n

theorem State.settle_postQ_file {s : State} (h : s.cl.bank.pend = []) {d : Fin 32} (hd : d ≠ 0) (lat n : Nat) (v : Bool) :
    ((s.postQ lat d v).settle n).cl.bank.file = if s.cl.time + lat ≤ n then s.cl.bank.file.write (.q d v) else s.cl.bank.file := by
  have pend := State.postQ_pend hd s lat v
  rw [h] at pend
  rw [State.settle_file_of_singleton pend, State.postQ_bank_file]

theorem State.settle_postCore_a {s : State} (h : s.cl.bank.pend = []) (hc : ∀ i : Fin 8, (s.cl.bank.cores[i.val]).pend = []) (k j : Fin 8)
    (lat n : Nat) (d r : Fin 16) (v : Word) :
    (((s.postCore k lat (.a d v)).settle n).cl.bank.cores[j.val]).file.a[r.val] =
      if j = k ∧ r = d ∧ s.coreTime k + lat ≤ coreCycle n s.cl.bank.skew k.val then v else (s.cl.bank.cores[j.val]).file.a[r.val] := by
  have seq : (s.postCore k lat (.a d v)).cl.bank.pend = [] := h
  rw [State.settle_core_a, seq]
  by_cases e : j = k
  · subst e
    have core : (s.postCore j lat (.a d v)).cl.bank.cores[j.val] =
        { s.cl.bank.cores[j.val] with pend := [⟨s.coreTime j + lat, .a d v, s.coreTime j, s.opn.idx⟩] } := by
      rw [State.postCore, State.modCoreBank_core, hc]
      rfl
    rw [core]
    change (Machine.settle CoreBank.write _ [_] _).1.file.a[r.val] = _
    rw [settle_singleton]
    split
    next due =>
      change ((s.cl.bank.cores[j.val]).file.a.set d.val v d.isLt)[r.val] = _
      rw [getElem_set_fin]
      exact if_congr ⟨fun e => ⟨rfl, e, due⟩, fun e => e.2.1⟩ rfl rfl
    next early => exact (if_neg fun e => early e.2.2).symm
  · have core : (s.postCore k lat (.a d v)).cl.bank.cores[j.val] = s.cl.bank.cores[j.val] := State.modCoreBank_core_other e ..
    rw [core, CoreBank.settle_nil (hc j), if_neg fun he => e he.1]

/-- Settles O8: each write alone in its list, delivered at its cycle. -/
theorem writesArriveInTheirRegisters : Obligations.WritesArriveInTheirRegisters := by
  unfold Obligations.WritesArriveInTheirRegisters
  refine ⟨fun s lat v p f => ⟨rfl, rfl, s.postS_zero lat v, s.postQ_zero lat p, rfl, rfl⟩, fun s lat => ⟨?_, ?_, ?_, ?_, ?_⟩, fun s lat n hp => ⟨?_, ?_, ?_, ?_⟩⟩
  · exact fun d v => ⟨State.postS_frame s lat d v, State.postS_mem s lat d v⟩
  · exact fun d v => ⟨State.postQ_frame s lat d v, fun r hr => State.postQ_qLast_other hr s lat v, State.postQ_mem s lat d v⟩
  · exact fun d v => ⟨rfl, rfl⟩
  · exact fun k w => ⟨by rw [State.postCore, State.modCoreBank_core]; rfl, rfl⟩
  · exact fun k w => ⟨by rw [State.postArray, State.modCore_core]; rfl, rfl⟩
  · intro d r v hd
    rw [State.postS_of_ne_zero hd, State.settle_post_file hp, SeqFile.write_s hd, apply_ite SeqFile.s, ite_getElem_set]
  · intro d r v hd
    rw [State.settle_postQ_file hp hd, apply_ite SeqFile.q, apply_ite (BitVec.getLsbD · r.val)]
    change (if _ then (setQ _ d v).getLsbD r.val else _) = _
    rw [getLsbD_setQ hd, ite_ite_and]
  · intro d r v
    rw [State.postH, State.settle_post_file hp, apply_ite SeqFile.h]
    exact ite_getElem_set ..
  · exact fun k j d r v hc => State.settle_postCore_a hp hc k j lat n d r v

end Sys2Proof.Machine
end

section
/-!
SETTLED. O10: compares, predicates and prefixes (R31, R32, R54 to R56). STOP posts a list of predicates, all due in the same cycle.
-/

namespace Sys2Proof.Machine

/-! ### Compares -/

theorem relation_reserved {cc : Fin 8} (h : 6 ≤ cc.val) (x y : Word) : relation cc x y = none := by
  have top : cc = 6 ∨ cc = 7 := by omega
  rcases top with rfl | rfl
  · rfl
  · rfl

theorem compare_reserved {cc : Fin 8} (h : 6 ≤ cc.val) (s : State) (d : Fin 32) (x y : Word) :
    outcome s (compare s d cc x y) = .next (takeTrap s 0x01 s.slotWord 8) := by
  rw [compare, relation_reserved h]
  exact outcome_illegal s

theorem compare_of_relation {cc : Fin 8} {x y : Word} {r : Bool} (h : relation cc x y = some r) (s : State) (d : Fin 32) :
    outcome s (compare s d cc x y) = .next (s.postQ 1 d r) := by
  rw [compare, h]
  rfl

/-! ### The predicates as a word -/

theorem predicates_getLsbD (s : State) (r : Fin 32) : ((s.opn.snap.seq.q ||| 1).setWidth 64).getLsbD r.val = s.rq r := by
  have hr : r.val < 64 := by omega
  rw [BitVec.getLsbD_setWidth, decide_eq_true hr, Bool.true_and, BitVec.getLsbD_or, State.rq, Bool.or_comm]
  congr 1
  change (BitVec.ofNat 32 1).getLsbD r.val = _
  revert r
  decide

/-! ### STOP: predicates posted from the bits of a word -/

/-- The writes of the predicates of `l` from the bits of `x`. -/
def State.postBits (x : Word) (l : List (Fin 32)) (s : State) : State := l.foldl (fun t i => t.postQ 1 i (x.getLsbD i.val)) s

/-- `t` differs from `s` in the writes under way and the last deliveries of the predicates alone. -/
def PredicatesPosted (s t : State) : Prop := t = s.modBank fun b => { b with pend := t.cl.bank.pend, qLast := t.cl.bank.qLast }

theorem PredicatesPosted.trans {s t u : State} (h : PredicatesPosted s t) (g : PredicatesPosted t u) : PredicatesPosted s u := by
  unfold PredicatesPosted at *
  rw [g, h]
  rfl

theorem PredicatesPosted.mem {s t : State} (h : PredicatesPosted s t) : t.mem = s.mem := by
  rw [h]
  rfl

theorem PredicatesPosted.file {s t : State} (h : PredicatesPosted s t) : t.cl.bank.file = s.cl.bank.file := by
  rw [h]
  rfl

theorem State.postBits_posted (x : Word) (l : List (Fin 32)) (s : State) : PredicatesPosted s (s.postBits x l) := by
  induction l generalizing s with
  | nil => rfl
  | cons i l ih => exact .trans (State.postQ_frame s 1 i _) (ih _)

/-- A write that is due no earlier than the others under way is the last of them. -/
theorem Pending.insert_last {α : Type} {p : Pending α} {l : List (Pending α)} (h : ∀ x ∈ l, x.due ≤ p.due) : Pending.insert p l = l ++ [p] := by
  induction l with
  | nil => rfl
  | cons x l ih =>
    obtain ⟨hx, hl⟩ := List.forall_mem_cons.mp h
    rw [Pending.insert, if_neg (by omega), ih hl]
    rfl

/-- The write of a predicate that is due in the next cycle. -/
def State.bitWrite (s : State) (x : Word) (i : Fin 32) : Pending SeqWrite := ⟨s.cl.time + 1, .q i (x.getLsbD i.val), s.cl.time, s.opn.idx⟩

theorem State.postBits_pend (x : Word) (l : List (Fin 32)) (h0 : 0 ∉ l) (s : State) (h : ∀ p ∈ s.cl.bank.pend, p.due = s.cl.time + 1) :
    (s.postBits x l).cl.bank.pend = s.cl.bank.pend ++ l.map (s.bitWrite x) := by
  induction l generalizing s with
  | nil => simp [State.postBits]
  | cons i l ih =>
    obtain ⟨hi, hl⟩ : 0 ≠ i ∧ 0 ∉ l := not_or.mp fun h => h0 (List.mem_cons.mpr h)
    have first : (s.postQ 1 i (x.getLsbD i.val)).cl.bank.pend = s.cl.bank.pend ++ [s.bitWrite x i] := by
      rw [State.postQ_pend (Ne.symm hi)]
      exact Pending.insert_last fun p hp => (h p hp).le
    have same : (s.postQ 1 i (x.getLsbD i.val)).bitWrite x = s.bitWrite x := by
      funext j
      rw [State.bitWrite, State.postQ_frame]
      rfl
    have rest := ih hl (s.postQ 1 i (x.getLsbD i.val)) fun p hp => by
      rw [first] at hp
      rw [State.postQ_cl_time]
      rcases List.mem_append.mp hp with hp | hp
      · exact h p hp
      · rw [List.mem_singleton.mp hp]
        rfl
    change ((s.postQ 1 i _).postBits x l).cl.bank.pend = _
    rw [rest, first, same, List.append_assoc]
    rfl

/-- Writes that are all due in one cycle are delivered together. -/
theorem settle_of_due {α β : Type} (f : β → α → β) {n due : Nat} {l : List (Pending α)} (h : ∀ p ∈ l, p.due = due) (x : β) :
    (settle f n l x).1 = if due ≤ n then l.foldl (fun b p => f b p.eff) x else x := by
  induction l generalizing x with
  | nil => simp [settle]
  | cons p l ih =>
    obtain ⟨hp, hl⟩ := List.forall_mem_cons.mp h
    rw [settle, hp]
    split
    · rw [ih hl, if_pos ‹_›]
      rfl
    · rfl

/-- A predicate after writes of the bits of `x` to the predicates of `l`. -/
theorem getLsbD_foldl_bitWrite (s : State) (x : Word) (l : List (Fin 32)) (h0 : 0 ∉ l) (b : Bank) (r : Fin 32) :
    ((l.map (s.bitWrite x)).foldl (fun b p => b.write p.eff) b).file.q.getLsbD r.val =
      if r ∈ l then x.getLsbD r.val else b.file.q.getLsbD r.val := by
  induction l generalizing b with
  | nil => rfl
  | cons i l ih =>
    obtain ⟨hi, hl⟩ : 0 ≠ i ∧ 0 ∉ l := not_or.mp fun h => h0 (List.mem_cons.mpr h)
    have one : (b.write (.q i (x.getLsbD i.val))).file.q.getLsbD r.val = if r = i then x.getLsbD r.val else b.file.q.getLsbD r.val := by
      rw [Bank.write_file]
      change (setQ _ i _).getLsbD r.val = _
      rw [getLsbD_setQ (Ne.symm hi)]
      split
      · rw [‹r = i›]
      · rfl
    rw [List.map_cons, List.foldl_cons, ih hl]
    by_cases hr : r ∈ l
    · rw [if_pos hr, if_pos (List.mem_cons_of_mem i hr)]
    · rw [if_neg hr]
      refine one.trans (if_congr ?_ rfl rfl)
      rw [List.mem_cons]
      exact ⟨Or.inl, fun h => h.resolve_right hr⟩

/-- The predicates q1 to q31. -/
def writtenPredicates : List (Fin 32) := (List.finRange 31).map Fin.succ

theorem zero_notMem_writtenPredicates : 0 ∉ writtenPredicates := fun h => by
  obtain ⟨i, -, hi⟩ := List.mem_map.mp h
  exact Fin.succ_ne_zero i hi

theorem mem_writtenPredicates {r : Fin 32} (h : r ≠ 0) : r ∈ writtenPredicates := by
  obtain ⟨i, rfl⟩ := Fin.exists_succ_eq.mpr h
  exact List.mem_map_of_mem (List.mem_finRange i)

/-- The write of q0 that STOP names has no effect. -/
theorem State.postBits_finRange (x : Word) (s : State) : s.postBits x (List.finRange 32) = s.postBits x writtenPredicates := by
  rw [List.finRange_succ, State.postBits, List.foldl_cons, State.postQ_zero s 1]
  exact rfl

theorem exec_stop (s : State) : exec .stop s = .next (s.postBits (s.rs s.sole) writtenPredicates) := by
  rw [← State.postBits_finRange]
  exact rfl

theorem State.settle_postBits_q {s : State} (h : s.cl.bank.pend = []) (x : Word) (l : List (Fin 32)) (h0 : 0 ∉ l) (r : Fin 32) (hr : r ∈ l)
    (n : Nat) : ((s.postBits x l).settle n).cl.bank.file.q.getLsbD r.val =
      if s.cl.time + 1 ≤ n then x.getLsbD r.val else s.cl.bank.file.q.getLsbD r.val := by
  have pend : (s.postBits x l).cl.bank.pend = l.map (s.bitWrite x) := by
    rw [State.postBits_pend x l h0 s (by simp [h]), h]
    rfl
  have due : ∀ p ∈ l.map (s.bitWrite x), p.due = s.cl.time + 1 := fun p hp => by
    obtain ⟨i, -, rfl⟩ := List.mem_map.mp hp
    rfl
  rw [State.settle_file, pend, settle_of_due _ due]
  split
  · rw [getLsbD_foldl_bitWrite s x l h0, if_pos hr]
  · rw [(State.postBits_posted x l s).file]

/-- Settles O10: compares by their relation, STOP by its list of writes, EXT and ORD by what they enter in the open bundle. -/
theorem comparesPredicatesAndPrefixes : Obligations.ComparesPredicatesAndPrefixes := by
  unfold Obligations.ComparesPredicatesAndPrefixes
  refine ⟨fun s d a b imm cc => ?_, fun s d a b => ?_, fun s o ho => ⟨fun v => ?_, fun he w imm h => ?_, fun sc od => ?_, fun hord => ?_⟩⟩
  · intro holds
    refine ⟨fun hcc => ?_, fun hcc => ⟨compare_reserved hcc .., compare_reserved hcc ..⟩⟩
    have rel (x y : Word) : relation cc x y = some (holds x y) := by
      fin_cases cc
      · rfl
      · exact congrArg some (decide_not ..).symm
      · rfl
      · rfl
      · rfl
      · rfl
      · exact absurd hcc (by decide)
      · exact absurd hcc (by decide)
    exact ⟨compare_of_relation (rel ..) s d, compare_of_relation (rel ..) s d⟩
  · refine ⟨rfl, rfl, rfl, rfl, rfl, rfl, rfl, rfl, ⟨_, rfl, predicates_getLsbD s 0, predicates_getLsbD s, fun i hi => ?_⟩, fun hp => ?_⟩
    · rw [BitVec.getLsbD_setWidth, BitVec.getLsbD_of_ge _ i hi, Bool.and_false]
    · refine ⟨_, exec_stop s, (State.postBits_posted ..).mem, State.postBits_posted .., fun r n hr => ?_⟩
      exact State.settle_postBits_q hp _ _ zero_notMem_writtenPredicates r (mem_writtenPredicates hr) n
  · refine ⟨_, rfl, rfl, fun w imm _ => ?_⟩
    rw [State.extImm, State.modOpn_opn ho, ← sextNat_eq_toInt]
  · rw [State.extImm, State.opn_of_some ho, he, ← sextNat_eq_toInt]
  · refine ⟨_, rfl, rfl, ?_⟩
    rw [State.ordAcq, State.ordRel, State.modOpn_opn ho]
    change (decide (od.val % 2 = 1) = true ↔ _) ∧ (decide (od.val ≥ 2) = true ↔ _)
    revert od
    decide
  · rw [State.ordAcq, State.ordRel, State.opn_of_some ho, hord]
    exact ⟨rfl, rfl⟩

end Sys2Proof.Machine
end

section
/-!
SETTLED. O11: moves from and to the special registers (R44 to R48, R180, R207, R312, Table 03.1).
-/

namespace Sys2Proof.Machine

/-! ### MFS and MTS by the register that the number names -/

theorem exec_mfs {n : BitVec 8} {r : SpecialReg} (h : SpecialReg.ofNum n = some r) (s : State) (d : Fin 32) :
    exec (.mfs d n) s = .next (s.postS 1 d (readSpecial s r)) := by
  change execMfs d n s = _
  rw [execMfs, h]

theorem exec_mfs_unassigned {n : BitVec 8} (h : SpecialReg.ofNum n = none) (s : State) (d : Fin 32) :
    exec (.mfs d n) s = .next (takeTrap s 0x01 s.slotWord 8) := by
  change execMfs d n s = _
  rw [execMfs, h]
  exact outcome_illegal s

theorem exec_mts {n : BitVec 8} {r : SpecialReg} (h : SpecialReg.ofNum n = some r) (s : State) (a : Fin 32) :
    exec (.mts a n) s = outcome s (writeSpecial s r (s.rs a)) := by
  change execMts a n s = _
  rw [execMts, h]

/-- What MFS reads of a register narrower than 64 bits is its value. -/
theorem exec_mfs_of_readSpecial {n : BitVec 8} {r : SpecialReg} {s : State} {w : Nat} {x : BitVec w} (h : SpecialReg.ofNum n = some r)
    (hx : readSpecial s r = x.setWidth 64) (d : Fin 32) : exec (.mfs d n) s = .next (s.postS 1 d (BitVec.ofNat 64 x.toNat)) := by
  rw [exec_mfs h, hx, BitVec.ofNat_toNat]

/-! ### The loop counters -/

/-- The loop counter of a level as a special register. -/
def loopCounter : Fin 6 → SpecialReg
  | 0 => .lc0
  | 1 => .lc1
  | 2 => .lc2
  | 3 => .lc3
  | 4 => .lc4
  | 5 => .lc5

theorem ofNum_loopCounter : ∀ l : Fin 6, SpecialReg.ofNum (BitVec.ofNat 8 (0x28 + l.val)) = some (loopCounter l) := by decide

theorem readSpecial_loopCounter (s : State) : ∀ l : Fin 6, readSpecial s (loopCounter l) = (s.opn.regs.lc[l.val]).setWidth 64
  | 0 | 1 | 2 | 3 | 4 | 5 => rfl

theorem writeSpecial_loopCounter (s : State) (v : Word) : ∀ l : Fin 6, writeSpecial s (loopCounter l) v = .ok (writeLc s l v)
  | 0 | 1 | 2 | 3 | 4 | 5 => rfl

/-! ### Write rules -/

theorem slenOk_iff (v : Word) : slenOk v = true ↔ ∃ m, 3 ≤ m ∧ m ≤ 16 ∧ v.toNat = 2 ^ m := by
  simp only [slenOk, List.any_eq_true, List.mem_range, decide_eq_true_eq]
  constructor
  · rintro ⟨i, hi, hv⟩
    exact ⟨i + 3, by omega, by omega, hv⟩
  · rintro ⟨m, hlo, hhi, hv⟩
    exact ⟨m - 3, by omega, by rw [hv, Nat.sub_add_cancel hlo]⟩

theorem writeSlen_of_power {s : State} {v : Word} (h : ∃ m, 3 ≤ m ∧ m ≤ 16 ∧ v.toNat = 2 ^ m) :
    outcome s (writeSlen s v) = .next (s.post 3 (.slen (BitVec.ofNat 17 v.toNat))) := by
  rw [writeSlen, if_pos ((slenOk_iff v).mpr h), BitVec.ofNat_toNat]
  rfl

theorem writeSlen_of_no_power {s : State} {v : Word} (h : ¬∃ m, 3 ≤ m ∧ m ≤ 16 ∧ v.toNat = 2 ^ m) :
    outcome s (writeSlen s v) = .next (takeTrap s 0x0D v 8) := by
  rw [writeSlen, if_neg (mt (slenOk_iff v).mp h)]
  exact outcome_trap _ _ rfl

theorem vtypeOk_iff (v : Word) : vtypeOk v = true ↔ v.toNat % 2 ^ 16 < 32 ∧ v.toNat / 2 % 4 ≠ 3 := by
  have high : v.toNat / 2 ^ 5 % 2 ^ (15 + 1 - 5) = 0 ↔ v.toNat % 2 ^ 16 < 32 := by omega
  rw [vtypeOk, Bool.and_eq_true, decide_eq_true_iff, decide_eq_true_iff]
  exact and_congr high Iff.rfl

theorem writeVtype_of_ok {s : State} {v : Word} (h : v.toNat % 2 ^ 16 < 32) (g : v.toNat / 2 % 4 ≠ 3) :
    outcome s (writeVtype s v) = .next (s.post 1 (.vtype (BitVec.ofNat 16 v.toNat))) := by
  rw [writeVtype, if_pos ((vtypeOk_iff v).mpr ⟨h, g⟩), BitVec.ofNat_toNat]
  rfl

theorem writeVtype_of_not_ok {s : State} {v : Word} (h : 32 ≤ v.toNat % 2 ^ 16 ∨ v.toNat / 2 % 4 = 3) :
    outcome s (writeVtype s v) = .next (takeTrap s 0x0D v 8) := by
  rw [writeVtype, if_neg fun ok => by have := (vtypeOk_iff v).mp ok; omega]
  exact outcome_trap _ _ rfl

theorem writeCoreEn_eq (s : State) (v : Word) : writeCoreEn s v = s.post 3 (.coreEn (BitVec.ofNat 8 v.toNat)) := by
  rw [BitVec.ofNat_toNat]
  rfl

/-- Core 7 is 7 times the skew behind the sequencer. -/
theorem writeSkew_eq (s : State) (v : Word) : writeSkew s v = (s.post 3 (.skew (BitVec.ofNat 2 v.toNat))).modOpn fun o =>
    { o with drain := max o.drain (max 2 (7 * o.sampled.skew.toNat)) } := by
  simp only [writeSkew, coreCycle, Nat.zero_add, BitVec.ofNat_toNat]

theorem writeLc_eq (s : State) (l : Fin 6) (v : Word) :
    writeLc s l v = s.modBank fun b => { b with lc := b.lc.set l.val (BitVec.ofNat 32 v.toNat) l.isLt } := by
  rw [BitVec.ofNat_toNat]
  rfl

theorem writeSpecial_user {s : State} {r : SpecialReg} (h : ¬s.sup = true) (hr : r.supervisorWrite = true) (v : Word) :
    writeSpecial s r v = privilege s := if_pos (by simp [h, hr])

theorem exec_mts_user {n : BitVec 8} {r : SpecialReg} {s : State} (hn : SpecialReg.ofNum n = some r) (h : ¬s.sup = true)
    (hr : r.supervisorWrite = true) (a : Fin 32) : exec (.mts a n) s = .next (takeTrap s 0x03 s.slotWord 8) := by
  rw [exec_mts hn, writeSpecial_user h hr]
  exact outcome_privilege s

theorem not_refused_of_sup {s : State} (h : s.sup = true) (r : SpecialReg) : ¬(r.supervisorWrite && !s.sup) = true := by
  simp [h]

theorem writeSpecial_readOnly {r : SpecialReg} (h : r.readOnly = true) (s : State) (v : Word) : writeSpecial s r v = illegal s := by
  cases r <;> cases h <;> rfl

theorem exec_mts_of_not_writable {n : BitVec 8} (h : SpecialReg.writable n = false) (s : State) (a : Fin 32) :
    exec (.mts a n) s = .next (takeTrap s 0x01 s.slotWord 8) := by
  unfold SpecialReg.writable at h
  cases e : SpecialReg.ofNum n with
  | none =>
    change execMts a n s = _
    rw [execMts, e]
    exact outcome_illegal s
  | some r =>
    rw [e] at h
    rw [exec_mts e, writeSpecial_readOnly (by simpa using h)]
    exact outcome_illegal s

/-! ### TSW -/

theorem tswWritable_getLsbD : ∀ i : Fin 64,
    tswWritable.getLsbD i.val = decide (i.val = 0 ∨ i.val = 8 ∨ i.val = 10 ∨ (13 ≤ i.val ∧ i.val ≤ 15) ∨ 48 ≤ i.val) := by
  decide

theorem mcp_getLsbD : ∀ i : Fin 64, (0x800 : Word).getLsbD i.val = decide (i.val = 11) := by decide

theorem tswWrite_getLsbD (old v : Word) {i : Nat} (h : i < 64) :
    (tswWrite old v).getLsbD i = if i = 0 ∨ i = 8 ∨ i = 10 ∨ (13 ≤ i ∧ i ≤ 15) ∨ 48 ≤ i then v.getLsbD i else i = 11 && old.getLsbD 11 := by
  rw [tswWrite, BitVec.getLsbD_or, BitVec.getLsbD_and, BitVec.getLsbD_and, tswWritable_getLsbD ⟨i, h⟩, mcp_getLsbD ⟨i, h⟩]
  by_cases mcp : i = 11
  · subst mcp
    simp
  · by_cases w : i = 0 ∨ i = 8 ∨ i = 10 ∨ (13 ≤ i ∧ i ≤ 15) ∨ 48 ≤ i <;> simp [mcp, w]

/-- Settles O11: each number names its register, which has its own rule. -/
theorem specialRegisterMoves : Obligations.SpecialRegisterMoves := by
  unfold Obligations.SpecialRegisterMoves
  refine ⟨fun s d => ?_, fun s a => ?_⟩
  · exact ⟨fun n r h => exec_mfs h s d, rfl, rfl, rfl, rfl, rfl, rfl, exec_mfs_of_readSpecial rfl rfl d, exec_mfs_of_readSpecial rfl rfl d,
      exec_mfs_of_readSpecial rfl rfl d, exec_mfs_of_readSpecial rfl rfl d, exec_mfs_of_readSpecial rfl rfl d, rfl,
      exec_mfs_of_readSpecial rfl rfl d, rfl, rfl, exec_mfs_of_readSpecial rfl rfl d, rfl, rfl, rfl,
      fun l => exec_mfs_of_readSpecial (ofNum_loopCounter l) (readSpecial_loopCounter s l) d, fun n h => exec_mfs_unassigned h s d⟩
  · refine ⟨writeSlen_of_power, writeSlen_of_no_power, ?_, ?_, rfl, writeVtype_of_ok, writeVtype_of_not_ok, fun l => ?_, fun sup => ?_,
      fun user n hn => ?_, fun n h => exec_mts_of_not_writable h s a, ?_, fun b x i hi => tswWrite_getLsbD b.tsw x hi⟩
    · exact congrArg Host.Outcome.next (writeCoreEn_eq s _)
    · exact congrArg Host.Outcome.next (writeSkew_eq s _)
    · rw [exec_mts (ofNum_loopCounter l), writeSpecial_loopCounter, writeLc_eq]
      rfl
    · have rule (r : SpecialReg) (n : BitVec 8) (h : SpecialReg.ofNum n = some r) :=
        (exec_mts h s a).trans (congrArg (outcome s) (if_neg (not_refused_of_sup sup r)))
      refine ⟨rule .tsw 0x01 rfl, rule .tvb 0x18 rfl, rule .tpc 0x19 rfl, ?_, rule .tval 0x1B rfl⟩
      rw [BitVec.ofNat_toNat]
      exact rule .tcause 0x1A rfl
    · obtain rfl | rfl | rfl | rfl | rfl := hn
      · exact exec_mts_user (r := .tsw) rfl user rfl a
      · exact exec_mts_user (r := .tvb) rfl user rfl a
      · exact exec_mts_user (r := .tpc) rfl user rfl a
      · exact exec_mts_user (r := .tcause) rfl user rfl a
      · exact exec_mts_user (r := .tval) rfl user rfl a
    · exact ⟨writeSlen_of_power, rfl, writeVtype_of_ok, congrArg Host.Outcome.next (writeCoreEn_eq s _),
        congrArg Host.Outcome.next (writeSkew_eq s _), rfl⟩

end Sys2Proof.Machine
end

section
/-!
SETTLED. O15 and O16: branches (R60 to R62).
-/

namespace Sys2Proof.Machine

/-! ### A branch slot -/

theorem branchTo_aligned {target : Word} (h : target.toNat % 4 = 0) (s s1 : State) :
    outcome s (branchTo s1 target) = .next (s1.modOpn fun o => { o with branch := some (.taken target) }) := by
  rw [branchTo, if_neg (not_not.mpr h)]
  rfl

theorem branchTo_misaligned {target : Word} (h : target.toNat % 4 ≠ 0) (s s1 : State) :
    outcome s (branchTo s1 target) = .next (takeTrap s 0x08 target 8) := by
  rw [branchTo, if_pos h]
  exact outcome_trap _ _ rfl

theorem branchTarget_of_opn {s : State} {o : OpenBundle} (h : s.cl.opn = some o) (disp : BitVec 18) :
    branchTarget s disp = toWord (o.pc.toNat + 4 * s.extImm 18 disp.toNat) := by
  rw [branchTarget, State.opn_of_some h]
  rfl

/-- Settles O15: each branch is `branchTo` at its target. -/
theorem branches : Obligations.Branches := by
  unfold Obligations.Branches
  intro s o ho after takes
  have takes_of {i : Instr} {s1 : State} {target : Word} (h : exec i s = outcome s (branchTo s1 target)) : takes i s1 target :=
    ⟨fun e => h.trans (branchTo_aligned e s s1), fun e => h.trans (branchTo_misaligned e s s1)⟩
  have after_eq : s.opn.after = after := by rw [State.opn_of_some ho]; rfl
  refine ⟨fun disp => ?_, takes_of rfl, fun d a => takes_of ?_, takes_of rfl⟩
  · rw [← branchTarget_of_opn ho, ← after_eq]
    exact ⟨takes_of rfl, takes_of rfl⟩
  · rw [← after_eq]
    rfl

/-! ### The end of a taken branch's bundle -/

theorem State.modOpn_cl_opn {s s1 : State} {o : OpenBundle} (h : s.cl.opn = some o) (h1 : s1.cl.opn = s.cl.opn) (f : OpenBundle → OpenBundle) :
    (s1.modOpn f).cl.opn = some (f o) := by
  change s1.cl.opn.map f = _
  rw [h1, h]
  rfl

theorem Bank.deactivate_loops (b : Bank) (p : Nat → Bool) (l : Fin 6) :
    (b.deactivate p).loops[l.val] = if p l.val then { b.loops[l.val] with active := false } else b.loops[l.val] := Vector.getElem_ofFn _

theorem endNext_of_branch {o : OpenBundle} {a : BranchAct} (hn : o.next = none) (hb : o.branch = some a) (t : Nat) (b : Bank) :
    endNext t o b = ((b.branch t a).1, (b.branch t a).2.getD o.after) := by
  simp only [endNext, hn, hb]

theorem endNext_of_no_branch {o : OpenBundle} (hn : o.next = none) (hb : o.branch = none) (t : Nat) (b : Bank) :
    endNext t o b = ((Bank.iterEnds t b o.pc (levelsDown 5) b).1, (Bank.iterEnds t b o.pc (levelsDown 5) b).2.getD o.after) := by
  simp only [endNext, hn, hb]

/-- Settles O16: the slot leaves its target; the end of its bundle makes every level inactive, as LOOPX of level 0 does. -/
theorem takenBranchEndsEveryLoop : Obligations.TakenBranchEndsEveryLoop := by
  unfold Obligations.TakenBranchEndsEveryLoop
  refine ⟨fun s o i target ho ht hi => ?_, fun t b o target hn hb => ?_⟩
  · have leaves {s1 : State} (h : exec i s = outcome s (branchTo s1 target)) (h1 : s1.cl.opn = s.cl.opn) :
        ∃ t, exec i s = .next t ∧ t.cl.opn = some { o with branch := some (.taken target) } :=
      ⟨_, h.trans (branchTo_aligned ht s s1), State.modOpn_cl_opn ho h1 _⟩
    obtain ⟨disp, hdisp, rfl⟩ | ⟨rfl, rfl⟩ | ⟨d, a, rfl, rfl⟩ | ⟨rfl, rfl⟩ := hi
    · rw [← branchTarget_of_opn ho] at leaves ⊢
      obtain rfl | rfl := hdisp
      · exact leaves rfl rfl
      · exact leaves rfl (State.postS_cl_opn ..)
    · exact leaves rfl rfl
    · exact leaves rfl (State.postS_cl_opn ..)
    · exact leaves rfl rfl
  · exact ⟨_, endNext_of_branch hn hb t b, rfl, fun l => Bank.deactivate_loops b _ l, fun _ => rfl⟩

end Sys2Proof.Machine
end

section
/-!
SUPPORT. Loop nests (R63 to R66): the levels whose iterations end at a bundle, from the innermost outward, and what their ends leave.
-/

namespace Sys2Proof.Machine

/-! ### The levels below one, innermost first -/

/-- The levels below `m`, from the innermost outward. -/
def levelsBelow : Nat → List (Fin 6)
  | 0 => []
  | m + 1 => if h : m < 6 then ⟨m, h⟩ :: levelsBelow m else levelsBelow m

theorem levelsBelow_succ (l : Fin 6) : levelsBelow (l.val + 1) = l :: levelsBelow l.val := dif_pos l.isLt

theorem levelsDown_eq : ∀ l : Fin 6, levelsDown l.val = levelsBelow (l.val + 1) := by decide

theorem levelsDown_pred_eq : ∀ l : Fin 6, (if l.val = 0 then [] else levelsDown (l.val - 1)) = levelsBelow l.val := by decide

/-! ### The levels whose iterations end -/

section
variable {b : Bank} {lc : Fin 6 → BitVec 32} {at_ : Word}

/-- A level is active and has its end bundle at `at_`. -/
def Bank.EndsAt (b : Bank) (at_ : Word) (l : Fin 6) : Prop := (b.loops[l.val]).active = true ∧ (b.loops[l.val]).last = at_

theorem endsIteration_iff {m : Nat} {h : Fin 6} : endsIteration b lc at_ m h = true ↔
    h.val < m ∧ b.EndsAt at_ h ∧ ∀ i : Fin 6, h.val < i.val → i.val < m → (b.loops[i.val]).active = true → b.EndsAt at_ i ∧ lc i = 1 := by
  simp only [endsIteration, Bank.EndsAt, Bool.and_eq_true, decide_eq_true_eq, List.all_eq_true, List.mem_finRange, Bool.or_eq_true, Bool.not_eq_true',
    Bool.and_eq_false_iff, decide_eq_false_iff_not, true_implies, and_assoc]
  refine and_congr Iff.rfl (and_congr Iff.rfl (and_congr Iff.rfl (forall_congr' fun i => ?_)))
  cases (b.loops[i.val]).active
  · simp
  · simp only [Bool.true_eq_false, or_false]
    tauto

theorem endsIteration_congr {b c : Bank} {lc lc' : Fin 6 → BitVec 32} {m : Nat}
    (h : ∀ i : Fin 6, i.val < m → b.loops[i.val] = c.loops[i.val] ∧ lc i = lc' i) (g : Fin 6) :
    endsIteration b lc at_ m g = endsIteration c lc' at_ m g := by
  rw [Bool.eq_iff_iff, endsIteration_iff, endsIteration_iff]
  refine and_congr_right fun hg => ?_
  unfold Bank.EndsAt
  rw [(h g hg).1]
  refine and_congr_right fun _ => forall_congr' fun i => forall_congr' fun _ => forall_congr' fun hi => ?_
  rw [(h i hi).1, (h i hi).2]

theorem endsIteration_zero (h : Fin 6) : endsIteration b lc at_ 0 h = false :=
  Bool.eq_false_iff.mpr fun e => absurd (endsIteration_iff.mp e).1 (Nat.not_lt_zero _)

theorem lt_of_endsIteration {m : Nat} {h : Fin 6} (e : endsIteration b lc at_ m h = true) : h.val < m := (endsIteration_iff.mp e).1

/-- The innermost level ends its iteration, and the others do after its last one. -/
theorem endsIteration_succ_of_endsAt {l : Fin 6} (hl : b.EndsAt at_ l) (h : Fin 6) :
    endsIteration b lc at_ (l.val + 1) h = (decide (h = l) || (decide (lc l = 1) && endsIteration b lc at_ l.val h)) := by
  rw [Bool.eq_iff_iff, Bool.or_eq_true, Bool.and_eq_true, decide_eq_true_iff, decide_eq_true_iff, endsIteration_iff, endsIteration_iff]
  constructor
  · rintro ⟨hm, he, hall⟩
    by_cases e : h = l
    · exact .inl e
    · have below : h.val < l.val := by omega
      exact .inr ⟨(hall l below (by omega) hl.1).2, below, he, fun i hi hil => hall i hi (by omega)⟩
  · rintro (rfl | ⟨hlc, hm, he, hall⟩)
    · exact ⟨by omega, hl, fun i hi hil => by omega⟩
    · refine ⟨by omega, he, fun i hi hil ha => ?_⟩
      by_cases e : i = l
      · exact e ▸ ⟨hl, hlc⟩
      · exact hall i hi (by omega) ha

/-- An active level that ends elsewhere goes on, and so do those below it. -/
theorem endsIteration_succ_of_active {l : Fin 6} (ha : (b.loops[l.val]).active = true) (hl : ¬b.EndsAt at_ l) (h : Fin 6) :
    endsIteration b lc at_ (l.val + 1) h = false := by
  refine Bool.eq_false_iff.mpr fun e => ?_
  obtain ⟨hm, he, hall⟩ := endsIteration_iff.mp e
  by_cases e : h = l
  · exact hl (e ▸ he)
  · exact hl (hall l (by omega) (by omega) ha).1

theorem endsIteration_succ_of_inactive {l : Fin 6} (ha : (b.loops[l.val]).active = false) (h : Fin 6) :
    endsIteration b lc at_ (l.val + 1) h = endsIteration b lc at_ l.val h := by
  have idle : ¬(b.loops[l.val]).active = true := by simp [ha]
  rw [Bool.eq_iff_iff, endsIteration_iff, endsIteration_iff]
  constructor
  · rintro ⟨hm, he, hall⟩
    have ne : h ≠ l := fun e => idle (e ▸ he.1)
    exact ⟨by omega, he, fun i hi hil => hall i hi (by omega)⟩
  · rintro ⟨hm, he, hall⟩
    refine ⟨by omega, he, fun i hi hil hia => hall i hi ?_ hia⟩
    have ne : i ≠ l := fun e => idle (e ▸ hia)
    omega

/-! ### None of the levels loops back -/

theorem endsAt_iff {l : Fin 6} : ((b.loops[l.val]).active && (b.loops[l.val]).last = at_) = true ↔ b.EndsAt at_ l := by
  rw [Bool.and_eq_true, decide_eq_true_iff]
  exact Iff.rfl

theorem leavesLoops_levelsBelow {m : Nat} (hm : m ≤ 6) :
    leavesLoops b lc at_ (levelsBelow m) = true ↔ ∀ h, endsIteration b lc at_ m h = true → lc h = 1 := by
  induction m with
  | zero =>
    simp only [endsIteration_zero]
    exact ⟨fun _ _ e => absurd e Bool.false_ne_true, fun _ => rfl⟩
  | succ m ih =>
    obtain ⟨l, rfl⟩ : ∃ l : Fin 6, l.val = m := ⟨⟨m, hm⟩, rfl⟩
    specialize ih (by omega)
    rw [levelsBelow_succ, leavesLoops]
    by_cases hl : b.EndsAt at_ l
    · rw [if_pos (endsAt_iff.mpr hl), Bool.and_eq_true, decide_eq_true_iff, ih]
      simp only [endsIteration_succ_of_endsAt hl, Bool.or_eq_true, Bool.and_eq_true, decide_eq_true_eq]
      constructor
      · rintro ⟨hlc, hall⟩ h (rfl | ⟨-, e⟩)
        · exact hlc
        · exact hall h e
      · exact fun hall => ⟨hall l (.inl rfl), fun h e => hall h (.inr ⟨hall l (.inl rfl), e⟩)⟩
    · rw [if_neg (mt endsAt_iff.mp hl)]
      cases ha : (b.loops[l.val]).active with
      | true => simp [endsIteration_succ_of_active ha hl]
      | false => simp only [endsIteration_succ_of_inactive ha, Bool.false_or, ih]

end

/-! ### The ends of iterations -/

/-- Bank b has become b' by the ends of the iterations of the levels that `ends` names, and `next` is the first bundle of the one that loops back. -/
structure LevelsEnd (ends : Fin 6 → Bool) (b b' : Bank) (next : Option Word) : Prop where
  frame : b' = { b with lc := b'.lc, loops := b'.loops, cores := b'.cores }
  levels (h : Fin 6) : b'.lc[h.val] = (if ends h then b.lc[h.val] - 1 else b.lc[h.val]) ∧
    b'.loops[h.val] = if ends h then
      { b.loops[h.val] with active := decide (b.lc[h.val] ≠ 1), iter := min ((b.loops[h.val]).iter + 1) (2 ^ 32 - 1) } else b.loops[h.val]
  loops_back (h : Fin 6) : ends h = true → b.lc[h.val] ≠ 1 → next = some (b.loops[h.val]).start
  leaves : (∀ h : Fin 6, ends h = true → b.lc[h.val] = 1) → next = none
  cores (k : Fin 8) : ∃ f : CoreFile, b'.cores[k.val] = { b.cores[k.val] with file := f } ∧ f = { (b.cores[k.val]).file with a := f.a } ∧
    ∀ i : Fin 16, f.a[i.val] = (List.finRange 6).foldl (fun x h => if ends h then x + ((b.cores[k.val]).stride[i.val])[h.val] else x)
      (b.cores[k.val]).file.a[i.val]

theorem LevelsEnd.iterationsEnd {b b' : Bank} {at_ : Word} {m : Nat} {next : Option Word}
    (h : LevelsEnd (endsIteration b (fun l => b.lc[l.val]) at_ m) b b' next) : IterationsEnd b b' at_ m next :=
  ⟨h.frame, h.levels, h.loops_back, h.leaves, h.cores⟩

/-- The strides of the levels that `ends` names, added in turn, are their sum. -/
theorem foldl_strides (ends : Fin 6 → Bool) (stride : Fin 6 → Word) (x : Word) :
    (List.finRange 6).foldl (fun x h => if ends h then x + stride h else x) x = x + ∑ h, if ends h then stride h else 0 := by
  rw [Fin.sum_univ_def]
  generalize List.finRange 6 = l
  induction l generalizing x with
  | nil => simp
  | cons h l ih =>
    rw [List.foldl_cons, ih, List.map_cons, List.sum_cons, ← add_assoc]
    split <;> simp

theorem foldl_strides_none (stride : Fin 6 → Word) (x : Word) :
    (List.finRange 6).foldl (fun x h => if false = true then x + stride h else x) x = x :=
  (foldl_strides (fun _ => false) stride x).trans (by simp)

theorem foldl_strides_single (l : Fin 6) (stride : Fin 6 → Word) (x : Word) :
    (List.finRange 6).foldl (fun x h => if decide (h = l) = true then x + stride h else x) x = x + stride l := by
  rw [foldl_strides fun h => decide (h = l)]
  simp only [decide_eq_true_eq, Finset.sum_ite_eq', Finset.mem_univ, if_true]

/-- A level that ends its iteration before the others of `ends` adds its stride first. -/
theorem foldl_strides_insert {ends : Fin 6 → Bool} {l : Fin 6} (h : ends l = false) (stride : Fin 6 → Word) (x : Word) :
    (List.finRange 6).foldl (fun x h => if ends h then x + stride h else x) (x + stride l) =
      (List.finRange 6).foldl (fun x h => if (decide (h = l) || ends h) = true then x + stride h else x) x := by
  rw [foldl_strides, foldl_strides fun h => decide (h = l) || ends h, add_assoc]
  have split (g : Fin 6) : (if (decide (g = l) || ends g) = true then stride g else 0) =
      (if g = l then stride g else 0) + if ends g then stride g else 0 := by
    by_cases e : g = l
    · subst e
      simp [h]
    · simp [e]
  simp only [split, Finset.sum_add_distrib, Finset.sum_ite_eq', Finset.mem_univ, if_true]

theorem LevelsEnd.none (b : Bank) : LevelsEnd (fun _ => false) b b none where
  frame := rfl
  levels _ := ⟨rfl, rfl⟩
  loops_back _ e := absurd e Bool.false_ne_true
  leaves _ := rfl
  cores _ := ⟨_, rfl, rfl, fun _ => (foldl_strides_none ..).symm⟩

/-- A bank after the end of an iteration of level l alone. -/
def Bank.endLevel (b : Bank) (t : Nat) (old : Bank) (l : Fin 6) : Bank :=
  let b1 := b.addStrides t old l
  { b1 with
    lc := b1.lc.set l.val (b1.lc[l.val] - 1) l.isLt,
    loops := b1.loops.set l.val
      { b.loops[l.val] with active := decide (b.lc[l.val] ≠ 1), iter := min ((b.loops[l.val]).iter + 1) (2 ^ 32 - 1) } l.isLt }

/-- No write of a core is under way, and the strides are those of `old`. -/
def Bank.Steady (old b : Bank) : Prop := ∀ k : Fin 8, (b.cores[k.val]).pend = [] ∧ (old.cores[k.val]).stride = (b.cores[k.val]).stride

theorem Bank.endLevel_core {old b : Bank} (hs : old.Steady b) (t : Nat) (l : Fin 6) (k : Fin 8) :
    (b.endLevel t old l).cores[k.val] = { b.cores[k.val] with
      file := { (b.cores[k.val]).file with
        a := Vector.ofFn fun i : Fin 16 => (b.cores[k.val]).file.a[i.val] + ((b.cores[k.val]).stride[i.val])[l.val] } } := by
  obtain ⟨pend, stride⟩ := hs k
  simp only [Bank.endLevel, Bank.addStrides, Vector.getElem_ofFn, CoreBank.stride1, CoreBank.settle_nil pend, stride]

theorem Bank.Steady.endLevel {old b : Bank} (hs : old.Steady b) (t : Nat) (l : Fin 6) : old.Steady (b.endLevel t old l) := fun k => by
  rw [Bank.endLevel_core hs]
  exact hs k

theorem Bank.endLevel_lc (t : Nat) (old : Bank) (l : Fin 6) (b : Bank) (h : Fin 6) :
    (b.endLevel t old l).lc[h.val] = if decide (h = l) then b.lc[h.val] - 1 else b.lc[h.val] := by
  refine (getElem_set_fin ..).trans ?_
  by_cases e : h = l
  · subst e
    simp only [decide_true, if_true]
    rfl
  · simp only [e, decide_false, if_false, Bool.false_eq_true]
    rfl

theorem Bank.endLevel_loops (t : Nat) (old : Bank) (l : Fin 6) (b : Bank) (h : Fin 6) :
    (b.endLevel t old l).loops[h.val] = if decide (h = l) then
      { b.loops[h.val] with active := decide (b.lc[h.val] ≠ 1), iter := min ((b.loops[h.val]).iter + 1) (2 ^ 32 - 1) } else b.loops[h.val] := by
  refine (getElem_set_fin ..).trans ?_
  by_cases e : h = l
  · subst e
    simp only [decide_true, if_true]
  · simp only [e, decide_false, if_false, Bool.false_eq_true]
    rfl

theorem Bank.endLevel_of_ne {l h : Fin 6} (e : h ≠ l) (t : Nat) (old b : Bank) :
    (b.endLevel t old l).lc[h.val] = b.lc[h.val] ∧ (b.endLevel t old l).loops[h.val] = b.loops[h.val] := by
  rw [Bank.endLevel_lc, Bank.endLevel_loops, decide_eq_false e]
  exact ⟨rfl, rfl⟩

/-- A level that loops back ends no other's iteration. -/
theorem levelsEnd_of_loops_back {old b : Bank} (hs : old.Steady b) (t : Nat) {l : Fin 6} (hl : b.lc[l.val] ≠ 1) :
    LevelsEnd (fun h => decide (h = l)) b (b.endLevel t old l) (some (b.loops[l.val]).start) where
  frame := rfl
  levels h := ⟨Bank.endLevel_lc .., Bank.endLevel_loops ..⟩
  loops_back h e _ := by rw [of_decide_eq_true e]
  leaves h := absurd (h l (decide_eq_true rfl)) hl
  cores k := by
    refine ⟨_, Bank.endLevel_core hs t l k, rfl, fun i => ?_⟩
    rw [Vector.getElem_ofFn]
    exact (foldl_strides_single ..).symm

/-- After its last iteration a level leaves the others to those of `ends`. -/
theorem LevelsEnd.endLevel {ends : Fin 6 → Bool} {old b b' : Bank} {t : Nat} {l : Fin 6} {next : Option Word} (hs : old.Steady b)
    (hl : b.lc[l.val] = 1) (he : ends l = false) (h : LevelsEnd ends (b.endLevel t old l) b' next) :
    LevelsEnd (fun h => decide (h = l) || ends h) b b' next where
  frame := by
    rw [h.frame]
    rfl
  levels g := by
    obtain ⟨hlc, hloops⟩ := h.levels g
    by_cases e : g = l
    · subst e
      rw [hlc, hloops, he, Bank.endLevel_lc, Bank.endLevel_loops, decide_eq_true rfl]
      exact ⟨rfl, rfl⟩
    · obtain ⟨slc, sloops⟩ := Bank.endLevel_of_ne e t old b
      rw [hlc, hloops, slc, sloops, decide_eq_false e]
      exact ⟨rfl, rfl⟩
  loops_back g hg hlc := by
    have e : g ≠ l := fun e => hlc (e ▸ hl)
    obtain ⟨slc, sloops⟩ := Bank.endLevel_of_ne e t old b
    rw [← sloops]
    exact h.loops_back g (by simpa [e] using hg) (slc ▸ hlc)
  leaves hall := by
    refine h.leaves fun g hg => ?_
    have e : g ≠ l := fun e => by simp [e, he] at hg
    rw [(Bank.endLevel_of_ne e t old b).1]
    exact hall g (by simp [hg])
  cores k := by
    obtain ⟨f, hcore, hfile, ha⟩ := h.cores k
    rw [Bank.endLevel_core hs] at hcore hfile ha
    refine ⟨f, hcore, hfile, fun i => ?_⟩
    rw [ha i, Vector.getElem_ofFn]
    exact foldl_strides_insert he _ _

/-! ### The walk over the levels -/

theorem iterEnds_of_loops_back {b : Bank} {at_ : Word} {l : Fin 6} (ha : b.EndsAt at_ l) (hl : b.lc[l.val] ≠ 1) (t : Nat) (old : Bank)
    (ls : List (Fin 6)) : Bank.iterEnds t old at_ (l :: ls) b = (b.endLevel t old l, some (b.loops[l.val]).start) := by
  have more : (b.addStrides t old l).lc[l.val] - 1 ≠ 0 := sub_ne_zero.mpr hl
  have active : decide (b.lc[l.val] ≠ 1) = (b.loops[l.val]).active := (decide_eq_true hl).trans ha.1.symm
  rw [Bank.iterEnds, if_pos (endsAt_iff.mpr ha), if_pos more, Bank.endLevel, active]
  rfl

theorem iterEnds_of_last {b : Bank} {at_ : Word} {l : Fin 6} (ha : b.EndsAt at_ l) (hl : b.lc[l.val] = 1) (t : Nat) (old : Bank)
    (ls : List (Fin 6)) : Bank.iterEnds t old at_ (l :: ls) b = Bank.iterEnds t old at_ ls (b.endLevel t old l) := by
  have last : ¬(b.addStrides t old l).lc[l.val] - 1 ≠ 0 := not_not.mpr (sub_eq_zero.mpr hl)
  have inactive : decide (b.lc[l.val] ≠ 1) = false := decide_eq_false (not_not.mpr hl)
  rw [Bank.iterEnds, if_pos (endsAt_iff.mpr ha), if_neg last, Bank.endLevel, inactive]
  rfl

theorem iterEnds_levelsEnd {old : Bank} {at_ : Word} (t : Nat) {m : Nat} (hm : m ≤ 6) {b : Bank} (hs : old.Steady b) :
    LevelsEnd (endsIteration b (fun l => b.lc[l.val]) at_ m) b (Bank.iterEnds t old at_ (levelsBelow m) b).1
      (Bank.iterEnds t old at_ (levelsBelow m) b).2 := by
  induction m generalizing b with
  | zero =>
    rw [funext endsIteration_zero]
    exact .none b
  | succ m ih =>
    obtain ⟨l, rfl⟩ : ∃ l : Fin 6, l.val = m := ⟨⟨m, hm⟩, rfl⟩
    rw [levelsBelow_succ]
    by_cases ha : b.EndsAt at_ l
    · rw [funext (endsIteration_succ_of_endsAt ha)]
      by_cases hl : b.lc[l.val] = 1
      · have rest := ih (by omega) (hs.endLevel t l)
        have same : endsIteration (b.endLevel t old l) (fun i => (b.endLevel t old l).lc[i.val]) at_ l.val =
            endsIteration b (fun i => b.lc[i.val]) at_ l.val :=
          funext <| endsIteration_congr fun i hi => by
            obtain ⟨lc, loops⟩ := Bank.endLevel_of_ne (Fin.ne_of_lt hi) t old b
            exact ⟨loops, lc⟩
        rw [same] at rest
        rw [iterEnds_of_last ha hl]
        simpa only [hl, decide_true, Bool.true_and] using
          rest.endLevel hs hl (Bool.eq_false_iff.mpr fun e => absurd (lt_of_endsIteration e) (lt_irrefl _))
      · rw [iterEnds_of_loops_back ha hl]
        simpa only [hl, decide_false, Bool.false_and, Bool.or_false] using levelsEnd_of_loops_back hs t hl
    · rw [Bank.iterEnds, if_neg (mt endsAt_iff.mp ha)]
      cases active : (b.loops[l.val]).active with
      | true =>
        rw [funext (endsIteration_succ_of_active active ha)]
        exact .none b
      | false =>
        rw [funext (endsIteration_succ_of_inactive active)]
        exact ih (by omega) hs

end Sys2Proof.Machine
end

section
/-!
SETTLED. O17: LOOP, LOOPX and LOOPC, and the end of an iteration (R63 to R66).
-/

namespace Sys2Proof.Machine

/-! ### The slots -/

theorem outcome_loopTrap (s : State) : outcome s (loopTrap s) = .next (takeTrap s 0x11 s.slotWord 8) := outcome_trap _ _ rfl

theorem loopNests_iff (b : Bank) (l : Fin 6) (last : Word) : loopNests b l last = true ↔
    (∀ j : Fin 6, (b.loops[j.val]).active = decide (j.val < l.val)) ∧
      ∀ j : Fin 6, j.val + 1 = l.val → last.toNat ≤ (b.loops[j.val]).last.toNat := by
  rw [loopNests, Bool.and_eq_true, List.all_eq_true]
  refine and_congr ⟨fun h j => eq_of_beq (h j (List.mem_finRange j)), fun h j _ => beq_iff_eq.mpr (h j)⟩ ?_
  split
  next zero => exact ⟨fun _ j hj => by omega, fun _ => rfl⟩
  next pos =>
    rw [decide_eq_true_iff, Vector.getElem?_eq_getElem (by omega : l.val - 1 < 6)]
    constructor
    · intro h j hj
      have below : l.val - 1 = j.val := by omega
      simpa only [below, Option.getD_some] using h
    · exact fun h => h ⟨l.val - 1, by omega⟩ (Nat.sub_add_cancel (Nat.pos_of_ne_zero pos))

section
variable {s : State} {l : Fin 6} {a : Fin 32} {fin : BitVec 10} {start last : Word}

theorem exec_loop_of_not_nests (hs : s.opn.after = start) (hl : start + BitVec.ofNat 64 (4 * fin.toNat) = last)
    (h : ¬loopNests s.bank l last = true) : exec (.loop ⟨l.val, by omega⟩ a fin) s = .next (takeTrap s 0x11 s.slotWord 8) := by
  subst hs hl
  change execLoop _ a fin s = _
  rw [execLoop, dif_pos l.isLt]
  simp only [Fin.eta, h, Bool.not_false, if_true]
  exact outcome_loopTrap s

theorem exec_loop_of_count (hs : s.opn.after = start) (hl : start + BitVec.ofNat 64 (4 * fin.toNat) = last)
    (h : loopNests s.bank l last = true) (hc : (s.rs a).setWidth 32 ≠ 0) :
    exec (.loop ⟨l.val, by omega⟩ a fin) s = .next (setBranch s (.loop l ((s.rs a).setWidth 32) start last last)) := by
  subst hs hl
  change execLoop _ a fin s = _
  rw [execLoop, dif_pos l.isLt]
  simp only [Fin.eta, h, Bool.not_true, Bool.false_eq_true, if_false, if_neg hc]
  exact outcome_ok ..

theorem exec_loop_of_no_count (hs : s.opn.after = start) (hl : start + BitVec.ofNat 64 (4 * fin.toNat) = last)
    (h : loopNests s.bank l last = true) (hc : (s.rs a).setWidth 32 = 0) {s1 : State} {after : Word} (hf : afterBundle s last = .ok (s1, after)) :
    exec (.loop ⟨l.val, by omega⟩ a fin) s = .next (setBranch s1 (.loop l 0 start last after)) := by
  subst hs hl
  change execLoop _ a fin s = _
  rw [execLoop, dif_pos l.isLt]
  simp only [Fin.eta, h, Bool.not_true, Bool.false_eq_true, if_false, hc, if_true, hf]
  exact outcome_ok ..

end

theorem leaveLoops_of_leaves {s s1 : State} {ls : List (Fin 6)} {at_ after : Word}
    (h : leavesLoops s.bank (fun l => s.bank.lc[l.val]) at_ ls = true ∨ leavesLoops s.bank (lcAtEnd s) at_ ls = true)
    (hf : afterBundle s at_ = .ok (s1, after)) (act : Word → BranchAct) :
    outcome s (leaveLoops s ls at_ act) = .next (setBranch s1 (act after)) := by
  rw [leaveLoops, if_pos (Bool.or_eq_true_iff.mpr h), hf]
  exact outcome_ok ..

theorem leaveLoops_of_not_leaves {s : State} {ls : List (Fin 6)} {at_ : Word}
    (h : ¬(leavesLoops s.bank (fun l => s.bank.lc[l.val]) at_ ls = true ∨ leavesLoops s.bank (lcAtEnd s) at_ ls = true)) (act : Word → BranchAct) :
    outcome s (leaveLoops s ls at_ act) = .next (setBranch s (act at_)) := by
  rw [leaveLoops, if_neg (mt Bool.or_eq_true_iff.mp h)]
  exact outcome_ok ..

section
variable {s : State} {l : Fin 6}

theorem exec_loopx_of_active (h : (s.bank.loops[l.val]).active = true) : exec (.loopx ⟨l.val, by omega⟩) s =
    outcome s (leaveLoops s (levelsBelow l.val) (s.bank.loops[l.val]).last (BranchAct.loopx l)) := by
  change execLoopx _ s = _
  rw [execLoopx, dif_pos l.isLt]
  simp only [Fin.eta, h, Bool.not_true, Bool.false_eq_true, if_false, levelsDown_pred_eq]

theorem exec_loopc_of_active (h : (s.bank.loops[l.val]).active = true) : exec (.loopc ⟨l.val, by omega⟩) s =
    outcome s (leaveLoops s (levelsBelow (l.val + 1)) (s.bank.loops[l.val]).last (BranchAct.loopc l)) := by
  change execLoopc _ s = _
  rw [execLoopc, dif_pos l.isLt]
  simp only [Fin.eta, h, Bool.not_true, Bool.false_eq_true, if_false, levelsDown_eq]

theorem exec_loopx_of_inactive (h : (s.bank.loops[l.val]).active = false) :
    exec (.loopx ⟨l.val, by omega⟩) s = .next (takeTrap s 0x11 s.slotWord 8) := by
  change execLoopx _ s = _
  rw [execLoopx, dif_pos l.isLt]
  simp only [Fin.eta, h, Bool.not_false, if_true]
  exact outcome_loopTrap s

theorem exec_loopc_of_inactive (h : (s.bank.loops[l.val]).active = false) :
    exec (.loopc ⟨l.val, by omega⟩) s = .next (takeTrap s 0x11 s.slotWord 8) := by
  change execLoopc _ s = _
  rw [execLoopc, dif_pos l.isLt]
  simp only [Fin.eta, h, Bool.not_false, if_true]
  exact outcome_loopTrap s

end

section
variable {level : Fin 8} (h : 6 ≤ level.val) (s : State)
include h

theorem exec_loop_illegal (a : Fin 32) (fin : BitVec 10) : exec (.loop level a fin) s = .next (takeTrap s 0x01 s.slotWord 8) :=
  (congrArg (outcome s) (dif_neg (by omega))).trans (outcome_illegal s)

theorem exec_loopx_illegal : exec (.loopx level) s = .next (takeTrap s 0x01 s.slotWord 8) :=
  (congrArg (outcome s) (dif_neg (by omega))).trans (outcome_illegal s)

theorem exec_loopc_illegal : exec (.loopc level) s = .next (takeTrap s 0x01 s.slotWord 8) :=
  (congrArg (outcome s) (dif_neg (by omega))).trans (outcome_illegal s)

end

/-! ### The end of the bundle -/

theorem Bank.steady_of_pend_nil {b : Bank} (h : ∀ k : Fin 8, (b.cores[k.val]).pend = []) : b.Steady b := fun k => ⟨h k, rfl⟩

theorem iterEnds_iterationsEnd {old b : Bank} (at_ : Word) (t : Nat) {m : Nat} (hm : m ≤ 6) (hs : old.Steady b) :
    IterationsEnd b (Bank.iterEnds t old at_ (levelsBelow m) b).1 at_ m (Bank.iterEnds t old at_ (levelsBelow m) b).2 :=
  (iterEnds_levelsEnd t hm hs).iterationsEnd

/-- A bank that differs in its active levels alone has the levels that p names inactive. -/
theorem eq_deactivate {b b1 : Bank} {p : Nat → Bool} (h : b1 = { b with loops := b1.loops })
    (hl : ∀ j : Fin 6, b1.loops[j.val] = if p j.val then { b.loops[j.val] with active := false } else b.loops[j.val]) : b1 = b.deactivate p := by
  have loops : b1.loops = (b.deactivate p).loops := Vector.ext fun i hi => (hl ⟨i, hi⟩).trans (Bank.deactivate_loops b p ⟨i, hi⟩).symm
  rw [h, loops]
  rfl

theorem Bank.branch_loopx (t : Nat) (b : Bank) (l : Fin 6) (after : Word) : b.branch t (.loopx l after) =
    ((Bank.iterEnds t b (b.loops[l.val]).last (levelsBelow l.val) (b.deactivate fun i => l.val ≤ i)).1,
      some ((Bank.iterEnds t b (b.loops[l.val]).last (levelsBelow l.val) (b.deactivate fun i => l.val ≤ i)).2.getD after)) := by
  rw [← levelsDown_pred_eq, Bank.branch]
  split <;> rfl

theorem Bank.branch_loopc (t : Nat) (b : Bank) (l : Fin 6) (after : Word) : b.branch t (.loopc l after) =
    ((Bank.iterEnds t b (b.loops[l.val]).last (levelsBelow (l.val + 1)) (b.deactivate fun i => l.val < i)).1,
      some ((Bank.iterEnds t b (b.loops[l.val]).last (levelsBelow (l.val + 1)) (b.deactivate fun i => l.val < i)).2.getD after)) := by
  rw [← levelsDown_eq]
  rfl

theorem endNext_loop_of_no_count {o : OpenBundle} {l : Fin 6} {start last after : Word} (hn : o.next = none)
    (hb : o.branch = some (.loop l 0 start last after)) (t : Nat) (b : Bank) : endNext t o b = (b, after) := by
  rw [endNext_of_branch hn hb]
  rfl

/-- The bank in which LOOP has made its level active. -/
def Bank.enterLoop (b : Bank) (l : Fin 6) (count : BitVec 32) (start last : Word) : Bank :=
  { b with lc := b.lc.set l.val count l.isLt,
           loops := b.loops.set l.val { active := true, start := start, last := last, at_ := b.pc } l.isLt }

theorem endNext_loop_of_count {o : OpenBundle} {l : Fin 6} {count : BitVec 32} {start last after : Word} (hc : count ≠ 0) (hn : o.next = none)
    (hb : o.branch = some (.loop l count start last after)) (t : Nat) (b : Bank) :
    endNext t o b = (b.enterLoop l count start last, start) := by
  rw [endNext_of_branch hn hb, Bank.branch, if_neg hc]
  rfl

theorem Bank.enterLoop_of_ne {j l : Fin 6} (h : j ≠ l) (b : Bank) (count : BitVec 32) (start last : Word) :
    (b.enterLoop l count start last).lc[j.val] = b.lc[j.val] ∧ (b.enterLoop l count start last).loops[j.val] = b.loops[j.val] :=
  ⟨(getElem_set_fin ..).trans (if_neg h), (getElem_set_fin ..).trans (if_neg h)⟩

theorem Bank.enterLoop_self (b : Bank) (l : Fin 6) (count : BitVec 32) (start last : Word) :
    (b.enterLoop l count start last).lc[l.val] = count ∧
      (b.enterLoop l count start last).loops[l.val] = { active := true, start := start, last := last, at_ := b.pc } :=
  ⟨Vector.getElem_set_self l.isLt, Vector.getElem_set_self l.isLt⟩

/-- Settles O17: the slots by their rules, and the ends of iterations by the walk over the levels. -/
theorem loopForms : Obligations.LoopForms := by
  unfold Obligations.LoopForms
  refine ⟨fun s o l a fin ho => ?_, fun s l => ?_, fun t b b1 o l after hn hp => ?_⟩
  · intro b start last count i rules
    have hstart : s.opn.after = start := by rw [State.opn_of_some ho]; rfl
    have hcount : (s.rs a).setWidth 32 = count := (BitVec.ofNat_toNat ..).symm
    have nests : loopNests s.bank l last = true ↔ rules := loopNests_iff b l last
    refine ⟨fun hr hc => ?_, fun hr hc s1 after hf => ?_, fun hr => ?_, fun level h => exec_loop_illegal h s a fin, fun t p n after hn hb => ⟨?_, ?_⟩⟩
    · rw [← hcount] at hc ⊢
      exact exec_loop_of_count hstart rfl (nests.mpr hr) hc
    · exact exec_loop_of_no_count hstart rfl (nests.mpr hr) (hcount.trans hc) hf
    · exact exec_loop_of_not_nests hstart rfl (mt nests.mp hr)
    · rintro rfl
      exact endNext_loop_of_no_count hn hb t b
    · intro h
      obtain ⟨hlc, hloops⟩ := b.enterLoop_self l n start last
      refine ⟨_, endNext_loop_of_count h hn hb t b, rfl, fun j hj => Bank.enterLoop_of_ne hj b n start last, hlc, ?_⟩
      rw [hloops]
      exact ⟨rfl, rfl, rfl⟩
  · intro b lv level leaves acts
    have leaves_iff {m : Nat} (hm : m ≤ 6) : leaves m ↔ leavesLoops s.bank (fun l => s.bank.lc[l.val]) lv.last (levelsBelow m) = true ∨
        leavesLoops s.bank (lcAtEnd s) lv.last (levelsBelow m) = true := by
      rw [leavesLoops_levelsBelow hm, leavesLoops_levelsBelow hm]
      exact Iff.rfl
    have acts_of {i : Instr} {m : Nat} {act : Word → BranchAct} (hm : m ≤ 6)
        (h : exec i s = outcome s (leaveLoops s (levelsBelow m) lv.last act)) : acts i m act :=
      ⟨fun hl s1 after hf => h.trans (leaveLoops_of_leaves ((leaves_iff hm).mp hl) hf act),
        fun hl => h.trans (leaveLoops_of_not_leaves (mt (leaves_iff hm).mpr hl) act)⟩
    exact ⟨fun h => ⟨acts_of (by omega) (exec_loopx_of_active h), acts_of (by omega) (exec_loopc_of_active h)⟩,
      fun h => ⟨exec_loopx_of_inactive h, exec_loopc_of_inactive h⟩, fun v h => ⟨exec_loopx_illegal h s, exec_loopc_illegal h s⟩⟩
  · intro inactive
    have steady (p : Nat → Bool) : b.Steady (b.deactivate p) := Bank.steady_of_pend_nil hp
    refine ⟨fun hb hi => ?_, fun hb hi => ?_, fun hb => ?_⟩
    · obtain rfl := eq_deactivate (p := fun i => l.val ≤ i) hi.1 (by simpa using hi.2)
      refine ⟨_, _, ?_, iterEnds_iterationsEnd (b.loops[l.val]).last t (by omega) (steady _)⟩
      rw [endNext_of_branch hn hb, Bank.branch_loopx]
      rfl
    · obtain rfl := eq_deactivate (p := fun i => l.val < i) hi.1 (by simpa using hi.2)
      refine ⟨_, _, ?_, iterEnds_iterationsEnd (b.loops[l.val]).last t (by omega) (steady _)⟩
      rw [endNext_of_branch hn hb, Bank.branch_loopc]
      rfl
    · exact ⟨_, _, endNext_of_no_branch hn hb t b, iterEnds_iterationsEnd o.pc t (le_refl 6) (Bank.steady_of_pend_nil hp)⟩

end Sys2Proof.Machine
end

section
/-!
SETTLED. O18: WAIT, FENCE, TWAIT and TLBSYNC, and the issue of the sequencer's memory operations (R58, R59, R67, R306, R308, R331).
-/

namespace Sys2Proof.Machine

/-! ### The slots that wait -/

/-- The last of the numbers below n that p names; 0 where it names none. -/
theorem getLastD_filter_range {p : Nat → Bool} {n m : Nat} (hp : ∀ k < n, p k = true → k ≤ m) (hm : m = 0 ∨ m < n ∧ p m = true) :
    ((List.range n).filter p).getLastD 0 = m := by
  induction n with
  | zero =>
    rcases hm with rfl | hm
    · rfl
    · omega
  | succ n ih =>
    rw [List.range_succ, List.filter_append]
    cases hn : p n with
    | true =>
      have le := hp n (by omega) hn
      obtain rfl : n = m := by omega
      rw [List.filter_singleton, hn]
      exact List.getLastD_concat ..
    | false =>
      have below : m = 0 ∨ m < n ∧ p m = true := by
        refine hm.imp_right fun ⟨hlt, hpm⟩ => ⟨?_, hpm⟩
        have ne : m ≠ n := fun e => by rw [e, hn] at hpm; cases hpm
        omega
      simpa [hn] using ih (fun k hk => hp k (by omega)) below

theorem lastCore_eq {en : BitVec 8} {last : Nat} (h : ∀ k : Fin 8, en.getLsbD k.val = true → k.val ≤ last)
    (hl : last = 0 ∨ en.getLsbD last = true) : lastCore en = last :=
  getLastD_filter_range (fun k hk => h ⟨k, hk⟩) (hl.imp_right fun e => ⟨BitVec.lt_of_getLsbD e, e⟩)

theorem drainCores_eq {s : State} {o : OpenBundle} {last : Nat} (ho : s.cl.opn = some o) (h : lastCore o.sampled.coreEn = last) :
    drainCores s = s.modOpn fun o => { o with drain := max o.drain (last * o.sampled.skew.toNat) } := by
  rw [drainCores, State.modOpn_const ho, coreCycle, h, Nat.zero_add]
  exact (State.modOpn_const ho fun o => { o with drain := max o.drain (last * o.sampled.skew.toNat) }).symm

theorem takeMachineCheck_none {s : State} (h : tswMcp s.cl.bank.tsw = false) : takeMachineCheck s = none :=
  if_neg (by rw [State.bank, h]; exact Bool.false_ne_true)

theorem takeMachineCheck_some {s : State} (h : tswMcp s.cl.bank.tsw = true) :
    takeMachineCheck s = some (s.modBank fun b => { b with tsw := b.tsw &&& ~~~(0x800 : Word) }, s.cl.bank.mcAddr) := if_pos h

theorem takeCourierError_nil {s : State} (h : s.cl.bank.courierErrs = []) : takeCourierError s = none := by
  rw [takeCourierError, State.bank, h]

theorem takeCourierError_cons {s : State} {id : Nat} {cause : BitVec 8} {more : List (Nat × BitVec 8)}
    (h : s.cl.bank.courierErrs = (id, cause) :: more) : takeCourierError s =
      some (s.modBank fun b => { b with courierErrs := more }, if cause = 0x16 then 0x16 else 0x12, BitVec.ofNat 64 id) := by
  rw [takeCourierError, State.bank, h]

theorem pendingError_none {s : State} (hm : tswMcp s.cl.bank.tsw = false) (hc : s.cl.bank.courierErrs = []) (courier : Bool) :
    pendingError s courier = none := by
  rw [pendingError, takeMachineCheck_none hm, takeCourierError_nil hc]
  cases courier <;> rfl

theorem exec_wait_of_no_error {s : State} (hm : tswMcp s.cl.bank.tsw = false) (hc : s.cl.bank.courierErrs = []) (ld st cp tl : Fin 16) :
    exec (.wait ld st cp tl) s = .next ((drainCores s).modBank fun b =>
      { b with holds := b.holds ++ [.wait ld.val st.val cp.val tl.val s.opn.sampled.coreEn s.opn.pc (waitReentry s.opn)] }) := by
  change execWait ld st cp tl s = _
  simp only [execWait, pendingError_none hm hc, ite_self]

theorem exec_fence_illegal {order : Fin 4} {scope : Fin 8} (h : order = 0 ∨ 5 ≤ scope.val) (s : State) :
    exec (.fence order scope) s = .next (takeTrap s 0x01 s.slotWord 8) := by
  change execFence order scope s = _
  rw [execFence, if_pos]
  · exact outcome_illegal s
  · rw [Bool.or_eq_true, decide_eq_true_iff, decide_eq_true_iff]
    exact h.imp_left (congrArg Fin.val)

theorem exec_fence_of_no_error {s : State} {order : Fin 4} {scope : Fin 8} (ho : order ≠ 0) (hs : scope.val < 5)
    (hm : tswMcp s.cl.bank.tsw = false) (hc : s.cl.bank.courierErrs = []) : exec (.fence order scope) s =
      .next (((drainCores s).modBank fun b => { b with holds := b.holds ++ [.fence s.cl.nextOp s.opn.sampled.coreEn] }).modOpn fun o =>
        { o with fence := s.cl.nextOp }) := by
  change execFence order scope s = _
  rw [execFence, if_neg, pendingError_none hm hc]
  rw [Bool.or_eq_true, decide_eq_true_iff, decide_eq_true_iff]
  exact not_or.mpr ⟨Fin.val_ne_of_ne ho, Nat.not_le.mpr hs⟩

theorem exec_tlbsync_of_none {s : State} (h : s.cl.bank.tlbinvs = []) : exec .tlbsync s = .next (commitLate s) := by
  change execTlbsync s = _
  rw [execTlbsync, State.bank, h]
  rfl

theorem exec_tlbsync_of_some {s : State} (h : s.cl.bank.tlbinvs ≠ []) (ha : s.opn.abandon = false) :
    exec .tlbsync s = .next ((commitLate s).modOpn fun o => { o with stalled := true }) := by
  change execTlbsync s = _
  rw [execTlbsync, if_neg]
  · rfl
  · simpa [ha, State.bank] using h

/-! ### The holds -/

theorem mem_agentsOf {en : BitVec 8} {a : Fin 9} :
    a ∈ agentsOf en ↔ a = 8 ∨ ∃ k : Fin 8, coreOf a = some k ∧ en.getLsbD k.val = true := by
  have eight : a.val = 8 ↔ a = 8 := ⟨fun h => Fin.ext h, fun h => by rw [h]; rfl⟩
  simp only [agentsOf, List.mem_filter, List.mem_finRange, true_and, Bool.or_eq_true, decide_eq_true_eq, eight]
  refine or_congr_right ?_
  unfold coreOf
  split
  next h => exact ⟨fun e => ⟨_, rfl, e⟩, fun ⟨k, hk, e⟩ => by cases hk; exact e⟩
  next h =>
    have bit : en.getLsbD a.val = false := BitVec.getLsbD_of_ge _ _ (by omega)
    simp [bit]

theorem waitMet_iff {s : State} {en : BitVec 8} {ld st cp tl : Nat} : waitMet s en ld st cp tl = true ↔
    ∀ a, (a = 8 ∨ ∃ k : Fin 8, coreOf a = some k ∧ en.getLsbD k.val = true) →
      outstanding s.cl s.bankNo s.cl.bank a .load ≤ ld ∧ outstanding s.cl s.bankNo s.cl.bank a .store ≤ st ∧
        outstanding s.cl s.bankNo s.cl.bank a .copy ≤ cp ∧ outstanding s.cl s.bankNo s.cl.bank a .tile ≤ tl := by
  simp only [waitMet, List.all_eq_true, mem_agentsOf, Bool.and_eq_true, decide_eq_true_eq, and_assoc]
  exact Iff.rfl

theorem fenceMet_iff {s : State} {upto : Nat} {en : BitVec 8} : fenceMet s upto en = true ↔
    ∀ o ∈ s.cl.bank.ops, (o.agent = 8 ∨ ∃ k : Fin 8, coreOf o.agent = some k ∧ en.getLsbD k.val = true) → upto ≤ o.id := by
  simp only [fenceMet, List.all_eq_true, Bool.not_eq_true', Bool.and_eq_false_imp, List.contains_iff_mem, mem_agentsOf, decide_eq_false_iff_not,
    not_lt]
  exact Iff.rfl

theorem canIssue_of_holds {s : State} (h : s.cl.bank.holds ≠ []) : canIssue s = false := by
  have held : s.bank.holds.isEmpty = false := by simpa [State.bank] using h
  simp [canIssue, held]

section
variable {s : State} {rest : List Hold} {en : BitVec 8} {ld st cp tl : Nat} {at_ : Word} {re : Reentry}

/-- A state whose WAIT hold has gone. -/
def State.waitOver (s : State) (en : BitVec 8) (ld : Nat) (rest : List Hold) : State :=
  s.modBank fun b => { closeWindows b en ld with holds := rest }

variable (h : s.cl.bank.holds = .wait ld st cp tl en at_ re :: rest)
include h

theorem releaseHolds_wait_of_not_met (hm : ¬waitMet s en ld st cp tl = true) : releaseHolds s = s := by
  rw [releaseHolds, State.bank, h]
  exact if_neg hm

theorem releaseHolds_wait_of_met (hm : waitMet s en ld st cp tl = true) (hc : tswMcp s.cl.bank.tsw = false)
    (he : s.cl.bank.courierErrs = []) : releaseHolds s = s.waitOver en ld rest := by
  have mc : takeMachineCheck (s.waitOver en ld rest) = none := takeMachineCheck_none hc
  have ce : takeCourierError (s.waitOver en ld rest) = none := takeCourierError_nil he
  rw [State.waitOver] at mc ce ⊢
  rw [releaseHolds, State.bank, h]
  simp only [hm, if_true, mc, ce]

theorem releaseHolds_wait_of_machineCheck (hm : waitMet s en ld st cp tl = true) (hc : tswMcp s.cl.bank.tsw = true) : releaseHolds s =
    holdTrap ((s.waitOver en ld rest).modBank fun b => { b with tsw := b.tsw &&& ~~~(0x800 : Word) }) 0x16 s.cl.bank.mcAddr at_ re := by
  have mc := takeMachineCheck_some (s := s.waitOver en ld rest) hc
  rw [State.waitOver] at mc ⊢
  rw [releaseHolds, State.bank, h]
  simp only [hm, if_true, mc]
  rfl

theorem releaseHolds_wait_of_courierError {id : Nat} {cause : BitVec 8} {more : List (Nat × BitVec 8)} (hm : waitMet s en ld st cp tl = true)
    (hc : tswMcp s.cl.bank.tsw = false) (he : s.cl.bank.courierErrs = (id, cause) :: more) : releaseHolds s =
      holdTrap ((s.waitOver en ld rest).modBank fun b => { b with courierErrs := more }) (if cause = 0x16 then 0x16 else 0x12)
        (BitVec.ofNat 64 id) at_ re 0 := by
  have mc : takeMachineCheck (s.waitOver en ld rest) = none := takeMachineCheck_none hc
  have ce := takeCourierError_cons (s := s.waitOver en ld rest) he
  rw [State.waitOver] at mc ce ⊢
  rw [releaseHolds, State.bank, h]
  simp only [hm, if_true, mc, ce]

end

theorem releaseHolds_fence {s : State} {upto : Nat} {en : BitVec 8} {rest : List Hold} (h : s.cl.bank.holds = .fence upto en :: rest) :
    releaseHolds s = if fenceMet s upto en then s.modBank fun b => { b with holds := rest } else s := by
  rw [releaseHolds, State.bank, h]

/-! ### What finding a place leaves of memory -/

/-- The coherence events of the current die are not traced. -/
def State.Untraced (s : State) : Prop := (s.dbg s.cl.id.die 0).getLsbD 2 = false

theorem State.walkLine_of_untraced {s : State} {q : Requester} (h : (s.dbg q.c.die 0).getLsbD 2 = false) (line : Nat) : s.walkLine q line = s := by
  rw [State.walkLine, State.cohRecord, h, Bool.and_false]
  rfl

theorem State.correct_mem (s : State) (pa n : Nat) : (s.correct pa n).mem = s.mem := by
  unfold State.correct
  simp only
  split <;> rfl

theorem State.correct_dbg (s : State) (pa n : Nat) : (s.correct pa n).dbg = s.dbg := by
  unfold State.correct
  simp only
  split <;> rfl

theorem State.correct_untraced {s : State} (h : s.Untraced) (pa n : Nat) : (s.correct pa n).Untraced := by
  rw [State.Untraced, State.correct_dbg, (State.correct_quiet s pa n).cl]
  exact h

theorem State.correctAll_mem (s : State) (ws : List Nat) : (s.correctAll ws).mem = s.mem := by
  induction ws generalizing s with
  | nil => rfl
  | cons pa ws ih => exact (ih _).trans (State.correct_mem s pa 8)

theorem pinCorrect_mem (s : State) (u : Use) (l : Leaf) (va : Word) : (pinCorrect s u l va).mem = s.mem := by
  unfold pinCorrect
  split
  · exact State.correctAll_mem ..
  · rfl

theorem readPte_of_untraced {s s1 : State} {w : Who} {va e : Word} {pa : Nat} (hu : s.Untraced) (h : readPte s w va pa = .ok (s1, e)) :
    s1.Untraced ∧ s1.mem = s.mem := by
  unfold readPte at h
  simp only [Eff.ite_trap_eq_ok] at h
  obtain ⟨-, -, ⟨⟩⟩ := h
  have untraced : ((s.correct pa 8).dbg s.cl.id.die 0).getLsbD 2 = false := by
    rw [State.correct_dbg]
    exact hu
  rw [State.walkLine_of_untraced (q := .engine s.cl.id w.asn) untraced]
  exact ⟨State.correct_untraced hu pa 8, State.correct_mem s pa 8⟩

theorem walkFrom_mem {w : Who} {va : Word} {ls : List Nat} {table : Nat} {s s1 : State} {l : Leaf} (hu : s.Untraced)
    (h : walkFrom w va ls table s = .ok (s1, l)) : s1.mem = s.mem := by
  induction ls generalizing table s with
  | nil => cases h
  | cons lv rest ih =>
    unfold walkFrom at h
    obtain ⟨⟨s2, e⟩, hp, h⟩ := Eff.bind_eq_ok.mp h
    obtain ⟨hu2, hm2⟩ := readPte_of_untraced hu hp
    simp only [Eff.ite_trap_eq_ok] at h
    obtain ⟨-, -, h⟩ := h
    split at h
    · obtain ⟨-, ⟨⟩⟩ := Eff.ite_trap_eq_ok.mp h
      exact hm2
    · exact (ih hu2 h).trans hm2

theorem walk_mem {s s1 : State} {w : Who} {va : Word} {l : Leaf} (hu : s.Untraced) (h : walk s w va = .ok (s1, l)) : s1.mem = s.mem := by
  unfold walk at h
  obtain ⟨⟨s2, e⟩, hp, h⟩ := Eff.bind_eq_ok.mp h
  obtain ⟨hu2, hm2⟩ := readPte_of_untraced hu hp
  simp only [Eff.ite_trap_eq_ok] at h
  obtain ⟨-, -, h⟩ := h
  exact (walkFrom_mem hu2 h).trans hm2

theorem translate_mem {s s1 : State} {w : Who} {va : Word} {l : Leaf} (hu : s.Untraced) (h : Machine.translate s w va = .ok (s1, l)) :
    s1.mem = s.mem := by
  unfold Machine.translate at h
  simp only at h
  split at h
  · cases h
    rfl
  · split at h
    · cases h
      rfl
    · split at h
      · cases h
      next hw =>
        have kept := walk_mem hu hw
        cases h
        exact kept

theorem findLeaf_mem {s s1 : State} {w : Who} {va : Word} {l : Leaf} (hu : s.Untraced) (h : findLeaf s w va = .ok (s1, l)) : s1.mem = s.mem := by
  unfold findLeaf at h
  split at h
  · split at h
    · split at h
      · cases h
        rfl
      · cases h
    · cases h
  · exact translate_mem hu h

/-- Finding a place changes no byte of memory but records of the trace. -/
theorem locate_mem {s s1 : State} {w : Who} {u : Use} {va : Word} {n : Nat} {l : Loc} (hu : s.Untraced) (h : locate s w u va n = .ok (s1, l)) :
    s1.mem = s.mem := by
  unfold locate at h
  split at h
  · split at h
    · cases h
      rfl
    · cases h
  · split at h
    · cases h
    next hf =>
      split at h
      · cases h
      · split at h
        · cases h
          exact (pinCorrect_mem ..).trans (findLeaf_mem hu hf)
        · cases h

/-! ### Issue -/

theorem chkForm_of_lt {w : Who} {va : Word} (h : va.toNat < 2 ^ 57) : chkForm w va = .ok () := by
  have zero : bits va 63 57 = 0 := by rw [bits, Nat.div_eq_of_lt h, Nat.zero_mod]
  exact if_pos zero

theorem chkAlign_of_aligned {w : Who} {va : Word} {n : Nat} (h : va.toNat % n = 0) : chkAlign w va n = .ok () := if_pos h

theorem roomFor_of_lt {s : State} {agent : Fin 9} {cls : WaitClass} (h : outstanding s.cl s.bankNo s.cl.bank agent cls < 32) :
    roomFor s agent cls = .ok () := if_pos h

theorem seqPlace_of_aligned {s : State} {u : Use} {ea : Word} {n : Nat} (ha : ea.toNat % n = 0) (hf : ea.toNat < 2 ^ 57) :
    seqPlace s u ea n = locate s s.seqWho u ea n := by
  rw [seqPlace, chkAlign_of_aligned ha, chkForm_of_lt hf]
  rfl

theorem seqPlace_of_misaligned {s : State} {u : Use} {ea : Word} {n : Nat} (ha : ea.toNat % n ≠ 0) :
    seqPlace s u ea n = .error (.trap 0x08 ea 8) := by
  rw [seqPlace, chkAlign, if_neg ha]
  rfl

/-- The slots of the sequencer find their place with the window that the sequencer sees. -/
theorem windowLoc_of_locate {s s1 : State} {u : Use} {va : Word} {n : Nat} {l : Loc} (hw : isWindow va = true)
    (h : locate s s.seqWho u va n = .ok (s1, l)) : ∃ l, windowLoc s s.seqWho s.cl.id none va = .ok l := by
  rw [locate, if_pos hw] at h
  split at h
  next l hl => exact ⟨l, hl⟩
  next => cases h

/-- The operation that a slot issues. -/
theorem issueOp_eq {s s1 : State} (h : s1.cl.bank = s.cl.bank) (agent : Fin 9) (cls : WaitClass) (acq rel : Bool) (dest : Dest) (a : Access) :
    ∃ o, issueOp s1 agent cls acq rel dest [a] =
        { s1 with cl := { s1.cl with nextOp := s1.cl.nextOp + 1, bank := { s.cl.bank with ops := s.cl.bank.ops ++ [o] } } } ∧
      o.agent = agent ∧ o.cls = cls ∧ o.acquire = acq ∧ o.release = rel ∧ o.dest = dest ∧ o.accs = [a] := by
  rw [← h]
  exact ⟨_, rfl, rfl, rfl, rfl, rfl, rfl, rfl⟩

theorem sequencerIssues_of_eq {i : Instr} {s s1 : State} {u : Use} {va : Word} {n : Nat} {l : Loc} {cls : WaitClass} {dest : Dest} {a : Access}
    (hl : locate s s.seqWho u va n = .ok (s1, l)) (h : exec i s = .next (issueOp s1 8 cls s.ordAcq s.ordRel dest [a])) :
    SequencerIssues i s s1 s.cl.bank cls dest a := by
  obtain ⟨o, eq, rest⟩ := issueOp_eq (locate_sameBank hl).bank 8 cls s.ordAcq s.ordRel dest a
  exact ⟨_, o, h, fun hu => (locate_mem hu hl : s1.mem = s.mem), eq, rest⟩

section
variable {s s1 : State} {ea : Word} {n : Nat} {l : Loc}

theorem seqLoad_eq (ha : ea.toNat % n = 0) (hf : ea.toNat < 2 ^ 57) (hr : outstanding s.cl s.bankNo s.cl.bank 8 .load < 32)
    (hl : locate s s.seqWho {} ea n = .ok (s1, l)) (reg : Fin 32) (signed : Bool) : seqLoad s reg ea n signed =
      .ok (issueOp s1 8 .load s.ordAcq s.ordRel (.seqS reg n signed) [{ va := ea, loc := l, size := n, kind := .load }]) := by
  rw [seqLoad, roomFor_of_lt hr, seqPlace_of_aligned ha hf, hl]
  rfl

theorem seqStore_eq (ha : ea.toNat % n = 0) (hf : ea.toNat < 2 ^ 57) (hr : outstanding s.cl s.bankNo s.cl.bank 8 .store < 32)
    (hl : locate s s.seqWho { write := true } ea n = .ok (s1, l)) (x : Word) : seqStore s x ea n =
      .ok (issueOp s1 8 .store s.ordAcq s.ordRel .none [{ va := ea, loc := l, size := n, kind := .store x }]) := by
  rw [seqStore, roomFor_of_lt hr, seqPlace_of_aligned ha hf, hl]
  rfl

theorem seqAtomic_eq {a : Fin 32} (ha : (s.rs a).toNat % n = 0) (hf : (s.rs a).toNat < 2 ^ 57)
    (hr : outstanding s.cl s.bankNo s.cl.bank 8 .load < 32) (hl : locate s s.seqWho { write := true } (s.rs a) n = .ok (s1, l)) (d b : Fin 32)
    (op : Fin 8) : seqAtomic s d a b op n = .ok (issueOp s1 8 .load s.ordAcq s.ordRel (.seqS d n true)
      [{ va := s.rs a, loc := l, size := n, kind := .rmw ⟨op, s.rs b, s.rs d⟩ }]) := by
  rw [seqAtomic]
  simp only [roomFor_of_lt hr, chkForm_of_lt hf, chkAlign_of_aligned ha, hl, bind, Except.bind]
  split
  next hw =>
    obtain ⟨l', hl'⟩ := windowLoc_of_locate hw hl
    rw [hl']
  next => rfl

theorem seqLoad_of_misaligned (ha : ea.toNat % n ≠ 0) (hr : outstanding s.cl s.bankNo s.cl.bank 8 .load < 32) (reg : Fin 32) (signed : Bool) :
    outcome s (seqLoad s reg ea n signed) = .next (takeTrap s 0x08 ea 8) := by
  rw [seqLoad, roomFor_of_lt hr, seqPlace_of_misaligned ha]
  exact outcome_trap _ _ rfl

theorem seqStore_of_misaligned (ha : ea.toNat % n ≠ 0) (hr : outstanding s.cl s.bankNo s.cl.bank 8 .store < 32) (x : Word) :
    outcome s (seqStore s x ea n) = .next (takeTrap s 0x08 ea 8) := by
  rw [seqStore, roomFor_of_lt hr, seqPlace_of_misaligned ha]
  exact outcome_trap _ _ rfl

end

/-- Settles O18: the waiting slots by their holds, the memory slots by the place that they find. -/
theorem sequencerMemoryForms : Obligations.SequencerMemoryForms := by
  unfold Obligations.SequencerMemoryForms
  refine ⟨fun s o last ho hm hc ha hle hlast => ?_, fun s rest en ld st cp tl upto at_ re => ?_, fun s d a b size disp op => ?_⟩
  · have open_eq := State.opn_of_some ho
    have drained := drainCores_eq ho (lastCore_eq hle hlast)
    refine ⟨fun ld st cp tl => ?_, fun order scope => ⟨fun h => exec_fence_illegal h s, fun hord hsc => ?_⟩, fun h => if_pos h, fun h => ?_,
      exec_tlbsync_of_none, fun h => exec_tlbsync_of_some h (open_eq ▸ ha)⟩
    · rw [exec_wait_of_no_error hm hc, drained, open_eq]
    · rw [exec_fence_of_no_error hord hsc hm hc, drained, open_eq]
    · exact if_neg (Nat.not_le.mpr h)
  · intro counted
    refine ⟨canIssue_of_holds, fun h => ?_, fun h => ?_⟩
    · exact ⟨fun met => releaseHolds_wait_of_met h (waitMet_iff.mpr met), fun met => releaseHolds_wait_of_machineCheck h (waitMet_iff.mpr met),
        fun id cause more met => releaseHolds_wait_of_courierError h (waitMet_iff.mpr met),
        fun met => releaseHolds_wait_of_not_met h (mt waitMet_iff.mp met)⟩
    · rw [releaseHolds_fence h]
      exact ⟨fun met => if_pos (fenceMet_iff.mpr met), fun met => if_neg (mt fenceMet_iff.mp met)⟩
  · intro n ea issues
    refine ⟨fun ha hf hr s1 l hl => sequencerIssues_of_eq hl (congrArg (outcome s) (seqLoad_eq ha hf hr hl d true)),
      fun ha hf hr s1 l hl => sequencerIssues_of_eq hl (congrArg (outcome s) (seqLoad_eq ha hf hr hl d false)),
      fun ha hf hr s1 l hl => sequencerIssues_of_eq hl (congrArg (outcome s) (seqStore_eq ha hf hr hl (s.rs d))),
      fun ha hf hr s1 l hl => sequencerIssues_of_eq hl (congrArg (outcome s) (seqAtomic_eq ha hf hr hl d b op)),
      fun ha hf hr s1 l hl => sequencerIssues_of_eq hl (congrArg (outcome s) (seqAtomic_eq ha hf hr hl d b op)), fun ha hl hs => ?_⟩
    exact ⟨seqLoad_of_misaligned ha hl d true, seqLoad_of_misaligned ha hl d false, seqStore_of_misaligned ha hs (s.rs d)⟩

end Sys2Proof.Machine
end

section
/-!
SUPPORT. Slots of every enabled core: the writes that they post (R57, R160), and the operations that they issue where each core's place is found
with no walk (R161, R163).
-/

namespace Sys2Proof.Machine

/-! ### Writes posted in every enabled core -/

/-- The cores of a bank after `g` in those of a list that `e` names. -/
def changeCores (e : Fin 8 → Bool) (g : Fin 8 → CoreBank → CoreBank) (l : List (Fin 8)) (cs : Vector CoreBank 8) : Vector CoreBank 8 :=
  l.foldl (fun cs k => if e k then cs.set k.val (g k cs[k.val]) k.isLt else cs) cs

theorem changeCores_getElem (e : Fin 8 → Bool) (g : Fin 8 → CoreBank → CoreBank) {l : List (Fin 8)} (hl : l.Nodup) (cs : Vector CoreBank 8)
    (k : Fin 8) : (changeCores e g l cs)[k.val] = if k ∈ l ∧ e k = true then g k cs[k.val] else cs[k.val] := by
  induction l generalizing cs with
  | nil => simp [changeCores]
  | cons a l ih =>
    obtain ⟨ha, hl⟩ := List.nodup_cons.mp hl
    have first : (if e a then cs.set a.val (g a cs[a.val]) a.isLt else cs)[k.val] = if k = a ∧ e a = true then g a cs[a.val] else cs[k.val] :=
      ite_getElem_set ..
    refine (ih hl _).trans ?_
    rw [first]
    by_cases h : k = a
    · subst h
      simp [ha]
    · simp [h]

/-- A state with other cores in its running bank. -/
def State.withCores (s : State) (cs : Vector CoreBank 8) : State := s.modBank fun b => { b with cores := cs }

/-- The write that core k posts. -/
def State.postTimed (s : State) (lat : Nat) (f : Fin 8 → CoreWrite) (k : Fin 8) (c : CoreBank) : CoreBank :=
  { c with pend := Pending.insert (s.timed k lat (f k)) c.pend }

theorem foldl_postCore (s : State) (lat : Nat) (f : Fin 8 → CoreWrite) (l : List (Fin 8)) (cs : Vector CoreBank 8) :
    l.foldl (fun t k => if t.enabled k then t.postCore k lat (f k) else t) (s.withCores cs) =
      s.withCores (changeCores s.enabled (s.postTimed lat f) l cs) := by
  induction l generalizing cs with
  | nil => rfl
  | cons k l ih =>
    have first : (if (s.withCores cs).enabled k then (s.withCores cs).postCore k lat (f k) else s.withCores cs) =
        s.withCores (if s.enabled k then cs.set k.val (s.postTimed lat f k cs[k.val]) k.isLt else cs) := by
      rw [apply_ite s.withCores]
      rfl
    rw [List.foldl_cons, first, ih]
    rfl

theorem coresPost_of_eachCore' {i : Instr} {s : State} {lat : Nat} {f : Fin 8 → CoreWrite}
    (h : exec i s = .next (eachCore' (fun k t => t.postCore k lat (f k)) s)) : CoresPost i s lat fun k => [f k] := by
  refine ⟨_, h, ?_⟩
  rw [eachCore', show s = s.withCores s.cl.bank.cores from rfl, foldl_postCore]
  refine ⟨rfl, fun k => (changeCores_getElem _ _ (List.nodup_finRange 8) _ k).trans ?_⟩
  simp only [List.mem_finRange, true_and]
  rfl

/-- The same for writes given in another form. -/
theorem coresPost_of_eq {i : Instr} {s : State} {lat : Nat} {f g : Fin 8 → CoreWrite} (hf : ∀ k, f k = g k)
    (h : exec i s = .next (eachCore' (fun k t => t.postCore k lat (f k)) s)) : CoresPost i s lat fun k => [g k] := by
  rw [← funext hf]
  exact coresPost_of_eachCore' h

/-! ### Operations under way -/

/-- A state in which operations have come under way. -/
def State.issuing (s : State) (n : Nat) (new : List MemOp) : State :=
  { s with cl := { s.cl with nextOp := n, bank := { s.cl.bank with ops := s.cl.bank.ops ++ new } } }

/-- What is said of an operation that a slot issues. -/
def MemOp.sig (o : MemOp) : Fin 9 × WaitClass × Bool × Bool × Dest × List Access := (o.agent, o.cls, o.acquire, o.release, o.dest, o.accs)

theorem issueOp_issuing (s : State) (n : Nat) (new : List MemOp) (agent : Fin 9) (cls : WaitClass) (acq rel : Bool) (dest : Dest) (a : Access) :
    ∃ o, issueOp (s.issuing n new) agent cls acq rel dest [a] = s.issuing (n + 1) (new ++ [o]) ∧
      o.sig = (agent, cls, acq, rel, dest, [a]) := by
  obtain ⟨o, eq, rfl, rfl, rfl, rfl, rfl, haccs⟩ := issueOp_eq (s1 := s.issuing n new) rfl agent cls acq rel dest a
  refine ⟨o, eq.trans ?_, by rw [MemOp.sig, haccs]⟩
  rw [State.issuing, State.issuing, ← List.append_assoc]

/-- Operations of other agents take no room. -/
theorem outstanding_issuing {s : State} {n : Nat} {new : List MemOp} {agent : Fin 9} (h : ∀ o ∈ new, o.agent ≠ agent) (cls : WaitClass) :
    outstanding (s.issuing n new).cl (s.issuing n new).bankNo (s.issuing n new).cl.bank agent cls =
      outstanding s.cl s.bankNo s.cl.bank agent cls := by
  have none : new.filter (fun o => decide (o.agent = agent) && decide (o.cls = cls)) = [] :=
    List.filter_eq_nil_iff.mpr fun o ho => by simp [h o ho]
  have same : ((s.cl.bank.ops ++ new).filter fun o => decide (o.agent = agent) && decide (o.cls = cls)) =
      s.cl.bank.ops.filter fun o => decide (o.agent = agent) && decide (o.cls = cls) := by
    rw [List.filter_append, none, List.append_nil]
  cases cls
  · exact congrArg List.length same
  · exact congrArg List.length same
  · rfl
  · rfl

/-- A slot that issues one operation in each enabled core, whatever the cores before it have issued. -/
theorem coresFrom_issuing {s : State} {f : Fin 8 → State → Eff State} {sig : Fin 8 → WaitClass × Bool × Bool × Dest × List Access}
    (hf : ∀ k n new, s.enabled k = true → (∀ o ∈ new, o.agent ≠ (coreWho s k).agent) →
      ∃ o : MemOp, f k (s.issuing n new) = .ok (s.issuing (n + 1) (new ++ [o])) ∧ o.sig = ((coreWho s k).agent, sig k))
    {l : List (Fin 8)} (hl : l.Nodup) (n : Nat) (new : List MemOp) (hnew : ∀ o ∈ new, ∀ k ∈ l, o.agent ≠ (coreWho s k).agent) :
    ∃ m ops, coresFrom f l (s.issuing n new) = .ok (s.issuing m (new ++ ops)) ∧
      ops.map MemOp.sig = (l.filter fun k => s.enabled k).map fun k => ((coreWho s k).agent, sig k) := by
  induction l generalizing n new with
  | nil => exact ⟨n, [], by rw [List.append_nil]; rfl, rfl⟩
  | cons k l ih =>
    obtain ⟨hk, hl⟩ := List.nodup_cons.mp hl
    have enabled : (s.issuing n new).enabled k = s.enabled k := rfl
    rw [coresFrom, enabled]
    cases he : s.enabled k with
    | false =>
      obtain ⟨m, ops, run, sigs⟩ := ih hl n new fun o ho j hj => hnew o ho j (List.mem_cons_of_mem k hj)
      refine ⟨m, ops, run, ?_⟩
      rw [sigs, List.filter_cons, he]
      rfl
    | true =>
      obtain ⟨o, first, hsig⟩ := hf k n new he fun o ho => hnew o ho k List.mem_cons_self
      have agent : o.agent = (coreWho s k).agent := congrArg Prod.fst hsig
      obtain ⟨m, ops, run, sigs⟩ := ih hl (n + 1) (new ++ [o]) fun x hx j hj => by
        rcases List.mem_append.mp hx with hx | hx
        · exact hnew x hx j (List.mem_cons_of_mem k hj)
        · rw [List.mem_singleton.mp hx, agent]
          intro eq
          have val : k.val = j.val := congrArg (fun x : Fin 9 => x.val) eq
          exact hk (Fin.ext val ▸ hj)
      refine ⟨m, o :: ops, ?_, ?_⟩
      · rw [if_pos rfl, first]
        simp only
        rw [run, List.append_assoc]
        rfl
      · rw [List.map_cons, hsig, sigs, List.filter_cons, he]
        rfl

theorem coresIssue_of_eachCore {i : Instr} {s : State} {f : Fin 8 → State → Eff State} {cls : WaitClass} {dest : Dest} {a : Fin 8 → Access}
    (h : exec i s = outcome s (eachCore f s))
    (hf : ∀ k n new, s.enabled k = true → (∀ o ∈ new, o.agent ≠ (coreWho s k).agent) →
      f k (s.issuing n new) = .ok (issueOp (s.issuing n new) (coreWho s k).agent cls s.ordAcq s.ordRel dest [a k])) :
    CoresIssue i s cls dest a := by
  have start : s = s.issuing s.cl.nextOp [] := by
    rw [State.issuing, List.append_nil]
  obtain ⟨m, ops, run, sigs⟩ := coresFrom_issuing (s := s) (f := f) (sig := fun k => (cls, s.ordAcq, s.ordRel, dest, [a k]))
    (fun k n new he hn => by
      obtain ⟨o, eq, hsig⟩ := issueOp_issuing s n new (coreWho s k).agent cls s.ordAcq s.ordRel dest (a k)
      exact ⟨o, (hf k n new he hn).trans (congrArg Except.ok eq), hsig⟩)
    (List.nodup_finRange 8) s.cl.nextOp [] (by simp)
  rw [← start] at run
  exact ⟨_, ops, h.trans (congrArg (outcome s) run), rfl, sigs⟩

/-! ### Places found with no walk -/

theorem findLeaf_of_heldLeaf {s : State} {w : Who} {va : Word} {x : Leaf} (h : heldLeaf s w va = some x) : findLeaf s w va = .ok (s, x) := by
  unfold heldLeaf at h
  unfold findLeaf
  cases hl : lockOf s w.agent va with
  | some lock =>
    rw [hl] at h
    obtain ⟨leaf, inside⟩ := Option.filter_eq_some_iff.mp h
    simp only [leaf]
    exact if_pos inside
  | none =>
    rw [hl] at h
    simp only [Machine.translate, h]

theorem State.correct_of_no_soft {s : State} (h : s.softWords = []) (pa n : Nat) : s.correct pa n = s := by
  rw [State.correct, h]
  rfl

theorem State.correctAll_of_no_soft {s : State} (h : s.softWords = []) (ws : List Nat) : s.correctAll ws = s := by
  induction ws with
  | nil => rfl
  | cons pa ws ih => exact (congrArg (State.correctAll · ws) (State.correct_of_no_soft h pa 8)).trans ih

theorem pinCorrect_of_no_soft {s : State} {u : Use} {x : Leaf} (h : pinChecked u x = true → s.softWords = []) (va : Word) :
    pinCorrect s u x va = s := by
  unfold pinCorrect
  split
  next hp => exact State.correctAll_of_no_soft (h hp) _
  next => rfl

/-- A place that is reached with no walk is found, and nothing else changes. -/
theorem locate_of_reaches {s : State} {w : Who} {u : Use} {va : Word} {n : Nat} {l : Loc} (h : Reaches s w u va n l) :
    locate s w u va n = .ok (s, l) := by
  rcases h with ⟨hw, hloc⟩ | ⟨hw, x, pa, hheld, hchk, hpa, rfl, hpin⟩
  · rw [locate, if_pos hw, hloc]
  · rw [locate, hw, findLeaf_of_heldLeaf hheld]
    simp only [hchk, hpa, pinCorrect_of_no_soft hpin, Bool.false_eq_true, if_false]

theorem shareSize_clusterAt_issuing (s : State) (n : Nat) (new : List MemOp) (c : ClusterId) :
    ((s.issuing n new).clusterAt c).part = (s.clusterAt c).part ∧ ((s.issuing n new).clusterAt c).asn = (s.clusterAt c).asn := by
  unfold State.clusterAt
  change (if s.cl.id = c then _ else _ : Cluster).part = _ ∧ (if s.cl.id = c then _ else _ : Cluster).asn = _
  split <;> exact ⟨rfl, rfl⟩

theorem windowLoc_issuing (s : State) (n : Nat) (new : List MemOp) (w : Who) (here : ClusterId) (own : Option (Fin 8)) (va : Word) :
    windowLoc (s.issuing n new) w here own va = windowLoc s w here own va := by
  unfold windowLoc
  simp only [shareSize_clusterAt_issuing]

theorem Reaches.issuing {s : State} {w : Who} {u : Use} {va : Word} {size : Nat} {l : Loc} (h : Reaches s w u va size l) (n : Nat)
    (new : List MemOp) : Reaches (s.issuing n new) w u va size l := by
  rcases h with ⟨hw, hloc⟩ | h
  · exact .inl ⟨hw, (windowLoc_issuing ..).trans hloc⟩
  · exact .inr h

/-! ### Core accesses -/

section
variable {s : State} {cls : WaitClass} {u : Use} {ea : Fin 8 → Word} {size : Nat} {l : Fin 8 → Loc} (h : CoresReach s cls u ea size l)
  {k : Fin 8} (he : s.enabled k = true)
include h he

theorem corePlace_issuing (n : Nat) (new : List MemOp) : corePlace (s.issuing n new) k u (ea k) size = .ok (s.issuing n new, l k) := by
  obtain ⟨-, align, form, reach⟩ := h k he
  rw [corePlace, chkForm_of_lt form, chkAlign_of_aligned align]
  exact locate_of_reaches (reach.issuing n new)

theorem roomFor_issuing {new : List MemOp} (hn : ∀ o ∈ new, o.agent ≠ (coreWho s k).agent) (n : Nat) :
    roomFor (s.issuing n new) (coreWho (s.issuing n new) k).agent cls = .ok () := by
  obtain ⟨room, -, -, -⟩ := h k he
  refine roomFor_of_lt ?_
  rw [← outstanding_issuing hn (n := n)] at room
  exact room

end

section
variable {s : State} {ea : Fin 8 → Word} {size : Nat} {l : Fin 8 → Loc} {k : Fin 8} (he : s.enabled k = true) {new : List MemOp}
  (hn : ∀ o ∈ new, o.agent ≠ (coreWho s k).agent) (n : Nat)
include he hn

theorem coreLoad_issuing (h : CoresReach s .load {} ea size l) (reg : Fin 16) (signed : Bool) :
    coreLoad (s.issuing n new) k reg (ea k) size signed = .ok (issueOp (s.issuing n new) (coreWho s k).agent .load s.ordAcq s.ordRel
      (.coreA reg size signed) [{ va := ea k, loc := l k, size := size, kind := .load }]) := by
  rw [coreLoad, roomFor_issuing h he hn n, corePlace_issuing h he n new]
  rfl

theorem coreStore_issuing (h : CoresReach s .store { write := true } ea size l) (x : Word) :
    coreStore (s.issuing n new) k x (ea k) size = .ok (issueOp (s.issuing n new) (coreWho s k).agent .store s.ordAcq s.ordRel .none
      [{ va := ea k, loc := l k, size := size, kind := .store x }]) := by
  rw [coreStore, roomFor_issuing h he hn n, corePlace_issuing h he n new]
  rfl

theorem coreAtomic_issuing {ab : Fin 16} (h : CoresReach s .load { write := true } (fun k => s.ra k ab) size l) (ad ac : Fin 16) (op : Fin 8) :
    coreAtomic (s.issuing n new) k ad ab ac op size = .ok (issueOp (s.issuing n new) (coreWho s k).agent .load s.ordAcq s.ordRel
      (.coreA ad size true) [{ va := s.ra k ab, loc := l k, size := size, kind := .rmw ⟨op, s.ra k ac, s.ra k ad⟩ }]) := by
  have place : corePlace (s.issuing n new) k { write := true } ((s.issuing n new).ra k ab) size = .ok (s.issuing n new, l k) :=
    corePlace_issuing h he n new
  rw [coreAtomic, roomFor_issuing h he hn n, place]
  rfl

end

end Sys2Proof.Machine
end

section
/-!
SETTLED. O14: XPUT and XGET, the address-register group and the core accesses (R57, R160, R161, R163).
-/

namespace Sys2Proof.Machine

theorem exec_amovStride_illegal {v : Fin 8} (h : 6 ≤ v.val) (s : State) (d a : Fin 16) :
    exec (.amovStride d a v) s = .next (takeTrap s 0x01 s.slotWord 8) :=
  (dif_neg (by omega)).trans (outcome_illegal s)

/-- Settles O14: each group by its writes or its operations, core by core. -/
theorem coreScalarSlotsAndMoves : Obligations.CoreScalarSlotsAndMoves := by
  unfold Obligations.CoreScalarSlotsAndMoves
  refine ⟨fun s r c => ⟨coresPost_of_eachCore' rfl, fun k => rfl⟩, fun s d a b imm disp sh size u w op l => ?_⟩
  refine ⟨coresPost_of_eq (fun k => ?_) rfl, coresPost_of_eq (fun k => ?_) rfl, coresPost_of_eq (fun k => ?_) rfl,
    fun v => coresPost_of_eq (fun k => ?_) (dif_pos v.isLt), fun v hv => exec_amovStride_illegal hv s d a, coresPost_of_eachCore' rfl,
    coresPost_of_eachCore' rfl, ?_⟩
  · rw [toWord_add, toWord_toInt]
  · rw [toWord_add, toWord_toInt, toWord_toInt]
  · rw [shiftLeft_eq_ofNat]
  · rw [sextNat_eq_bmod]
  · intro n ea m
    exact ⟨fun h => coresIssue_of_eachCore rfl fun k i new he hn => coreLoad_issuing he hn i h d (!u),
      fun h => coresIssue_of_eachCore rfl fun k i new he hn => coreStore_issuing he hn i h (s.ra k d),
      fun h => coresIssue_of_eachCore rfl fun k i new he hn => coreAtomic_issuing he hn i h d b op⟩

end Sys2Proof.Machine
end

section
/-!
SUPPORT. What the accesses of a slot and of the engines to memory leave alone (R82 to R87, R122, R123): where the coherence events of the die are not
traced no byte of memory changes, and beside memory the TLBs alone do.
-/

namespace Sys2Proof.Machine

/-! ### The relation -/

/-- The coherence events of die d are not traced. -/
def State.UntracedAt (s : State) (d : Fin 64) : Prop := (s.dbg d 0).getLsbD 2 = false

/-- The cluster with its TLBs empty. -/
def Cluster.withoutTlbs (c : Cluster) : Cluster := { c with tlb := [], cores := c.cores.map fun (k : PhysCore) => { k with tlb := [] } }

/-- The state beside memory, but for the TLBs of the current cluster. -/
def State.besideTlbs (s : State) : State := { s.besideMemory with cl := s.cl.withoutTlbs }

/-- From s to t nothing has changed but main memory, the directory with the blocks of the dies, TLBs, and corrected errors. -/
structure Beside (s t : State) : Prop where
  beside : t.besideTlbs = s.besideTlbs
  bad : s.badWords = [] → t.badWords = []
  soft : s.softWords = [] → t.softWords = []
  dies : ∀ d, (t.die d).tracing = (s.die d).tracing ∧ (t.die d).fq = (s.die d).fq
  lines : Cells.wf s.lines = true → Cells.wf t.lines = true

/-- The same, and no byte of memory has changed. -/
structure Kept (s t : State) : Prop extends Beside s t where
  mem : t.mem = s.mem

theorem Beside.refl (s : State) : Beside s s := ⟨rfl, id, id, fun _ => ⟨rfl, rfl⟩, id⟩

theorem Beside.trans {s t u : State} (h : Beside s t) (k : Beside t u) : Beside s u :=
  ⟨k.beside.trans h.beside, fun x => k.bad (h.bad x), fun x => k.soft (h.soft x),
    fun d => ⟨(k.dies d).1.trans (h.dies d).1, (k.dies d).2.trans (h.dies d).2⟩, fun x => k.lines (h.lines x)⟩

theorem Kept.refl (s : State) : Kept s s := ⟨.refl s, rfl⟩

theorem Kept.trans {s t u : State} (h : Kept s t) (k : Kept t u) : Kept s u := ⟨h.toBeside.trans k.toBeside, k.mem.trans h.mem⟩

section
variable {s t : State} (h : Beside s t)
include h

theorem Beside.relocs : t.relocs = s.relocs := (congrArg (fun x : State => x.relocs) h.beside :)
theorem Beside.bank : t.cl.bank = s.cl.bank := (congrArg (fun x : State => x.cl.bank) h.beside :)
theorem Beside.opn : t.cl.opn = s.cl.opn := (congrArg (fun x : State => x.cl.opn) h.beside :)
theorem Beside.id : t.cl.id = s.cl.id := (congrArg (fun x : State => x.cl.id) h.beside :)
theorem Beside.time : t.cl.time = s.cl.time := (congrArg (fun x : State => x.cl.time) h.beside :)

theorem Beside.now : t.now = s.now :=
  (congrArg (fun x : State => max x.cycle (x.cl.time + x.cl.frozen)) h.beside :)

theorem Beside.untracedAt {d : Fin 64} (hu : s.UntracedAt d) : t.UntracedAt d := by
  rw [State.UntracedAt, State.dbg, (h.dies d).1]
  exact hu

end

theorem Kept.ite {s t u : State} {p : Prop} [Decidable p] (ht : Kept s t) (hu : Kept s u) : Kept s (if p then t else u) := by
  split
  · exact ht
  · exact hu

/-- Steps that keep memory while a die is untraced keep it when they are done in turn. -/
theorem Kept.foldl {α : Type} {d : Fin 64} {f : State → α → State} (hf : ∀ s a, s.UntracedAt d → Kept s (f s a)) (l : List α) {s : State}
    (hu : s.UntracedAt d) : Kept s (l.foldl f s) := by
  induction l generalizing s with
  | nil => exact .refl s
  | cons a l ih =>
    have first := hf s a hu
    exact first.trans (ih (first.untracedAt hu))

/-- A step that leaves the clusters alone, the TLBs too. -/
theorem besideTlbs_of_besideMemory {s t : State} (h : t.besideMemory = s.besideMemory) : t.besideTlbs = s.besideTlbs :=
  congrArg (fun x : State => { x with cl := x.cl.withoutTlbs }) h

/-! ### The directory (R121 to R127) -/

theorem State.cohRecord_of_untraced {s : State} {q : Requester} (h : s.UntracedAt q.c.die) (line event before after : Nat) :
    s.cohRecord q line event before after = s := by
  rw [State.cohRecord, h, Bool.and_false]
  rfl

theorem State.setLine_kept (s : State) (d : Fin 64) (line st : Nat) : Kept s (s.setLine d line st) :=
  ⟨⟨rfl, id, id, fun _ => ⟨rfl, rfl⟩, fun h => Cells.wf_set h _ _⟩, rfl⟩

theorem State.otherLines_kept (s : State) (d : Fin 64) (line : Nat) (f : Nat → Nat) : Kept s (s.otherLines d line f) :=
  ⟨⟨rfl, id, id, fun _ => ⟨rfl, rfl⟩, (State.otherLines_quiet s d line f).lines⟩, rfl⟩

theorem State.die_setDie (s : State) (d e : Fin 64) (x : Die) : (s.setDie d x).die e = if e = d then x else s.die e := by
  rw [State.die, State.setDie]
  exact getElem_set_fin s.dies d e x

theorem State.setDie_kept {s : State} {d : Fin 64} {x : Die} (ht : x.tracing = (s.die d).tracing) (hq : x.fq = (s.die d).fq) :
    Kept s (s.setDie d x) := by
  refine ⟨⟨rfl, id, id, fun e => ?_, id⟩, rfl⟩
  rw [State.die_setDie]
  split
  next he => exact ⟨he ▸ ht, he ▸ hq⟩
  next => exact ⟨rfl, rfl⟩

theorem State.freeCtr_kept (s : State) (n : Nat) : Kept s { s with freeCtr := n } :=
  ⟨⟨besideTlbs_of_besideMemory rfl, id, id, fun _ => ⟨rfl, rfl⟩, id⟩, rfl⟩

theorem State.evictLine_kept {s : State} {d : Fin 64} (h : s.UntracedAt d) (line : Nat) : Kept s (s.evictLine d line) := by
  have silent (event before after : Nat) : s.cohRecord (.engine ⟨d, 0⟩ 0) line event before after = s :=
    State.cohRecord_of_untraced (q := .engine ⟨d, 0⟩ 0) h ..
  unfold State.evictLine
  simp only [silent, ite_self]
  exact .ite (.refl s) (State.setLine_kept ..)

theorem State.evictBlock_kept {s : State} {d : Fin 64} (h : s.UntracedAt d) (b : Block) : Kept s (s.evictBlock d b) := by
  unfold State.evictBlock
  exact (Kept.foldl (fun t i ht => State.evictLine_kept ht (b.first + i)) _ h).trans (State.setDie_kept rfl rfl)

theorem State.trimSlice_kept {s : State} {d : Fin 64} (h : s.UntracedAt d) (line n : Nat) : Kept s (s.trimSlice d line n) := by
  have draw := State.freeCtr_kept s (s.freeCtr + 1)
  have untraced := draw.untracedAt h
  unfold State.trimSlice
  refine .ite (.refl s) (.ite (.refl s) ?_)
  simp only
  split
  · exact draw.trans (State.evictLine_kept untraced _)
  · split
    · exact draw.trans (State.evictBlock_kept untraced _)
    · exact draw

theorem State.enterLine_kept {s : State} {d : Fin 64} (h : s.UntracedAt d) (line st : Nat) : Kept s (s.enterLine d line st) :=
  Kept.trans (.ite (.refl s) (State.trimSlice_kept h ..)) (State.setLine_kept ..)

theorem State.cohRecord_kept {s : State} {q : Requester} (h : s.UntracedAt q.c.die) (line event before after : Nat) :
    Kept s (s.cohRecord q line event before after) := by
  rw [State.cohRecord_of_untraced h]
  exact .refl s

theorem State.readLine_kept {s : State} {q : Requester} (h : s.UntracedAt q.c.die) (line : Nat) : Kept s (s.readLine q line) := by
  have others := State.otherLines_kept s q.c.die line fun x => if x = 4 then 3 else if x = 2 then 1 else x
  have enters := others.trans (State.enterLine_kept (others.untracedAt h) line (if (s.copies line).isEmpty then 2 else 1))
  exact .ite (.refl s) (enters.trans (State.cohRecord_kept (enters.untracedAt h) ..))

theorem State.leaveBlock_kept {s : State} {d : Fin 64} (h : s.UntracedAt d) (line : Nat) : Kept s (s.leaveBlock d line) := by
  have gone : Kept s (s.setDie d { s.die d with blocks := (s.die d).blocks.map fun b => if b.covers line then { b with gone := line :: b.gone } else b }) :=
    State.setDie_kept rfl rfl
  exact .ite (gone.trans (State.trimSlice_kept (gone.untracedAt h) ..)) (.refl s)

theorem State.ownLine_kept {s : State} {q : Requester} (h : s.UntracedAt q.c.die) (line : Nat) : Kept s (s.ownLine q line) := by
  have left := State.leaveBlock_kept h line
  have others := State.otherLines_kept (s.leaveBlock q.c.die line) q.c.die line fun _ => 0
  have enters := others.trans (State.enterLine_kept ((left.trans others).untracedAt h) line 4)
  have records := enters.trans (State.cohRecord_kept (q := q) ((left.trans enters).untracedAt h) line 2
    ((s.leaveBlock q.c.die line).lineAt q.c.die line) 4)
  exact left.trans (.ite (.refl _) (.ite (State.setLine_kept ..) records))

theorem State.dropCopy_kept {s : State} {q : Requester} (h : s.UntracedAt q.c.die) (line : Nat) (drop : Bool) (p : Fin 64 × Nat) :
    Kept s (s.dropCopy q line drop p) := by
  have cleans : Kept s (if p.2 = cleanState p.2 then s else
      (s.setLine p.1 line (cleanState p.2)).cohRecord q line 3 p.2 (cleanState p.2)) :=
    .ite (.refl s) ((State.setLine_kept ..).trans (State.cohRecord_kept ((State.setLine_kept ..).untracedAt h) ..))
  have drops := cleans.trans (State.setLine_kept _ p.1 line 0)
  exact .ite (drops.trans (State.cohRecord_kept (drops.untracedAt h) ..)) cleans

theorem State.homeLine_kept {s : State} {q : Requester} (h : s.UntracedAt q.c.die) (line : Nat) : Kept s (s.homeLine q line) := by
  have removes : Kept s (s.removeCopies q line) := Kept.foldl (fun t p ht => State.dropCopy_kept ht line true p) _ h
  exact removes.trans (State.cohRecord_kept (removes.untracedAt h) ..)

theorem State.readRun_kept {s : State} {q : Requester} (h : s.UntracedAt q.c.die) (pa n : Nat) : Kept s (s.readRun q pa n) :=
  Kept.foldl (fun _ l ht => State.readLine_kept ht l) _ h

theorem State.ownRun_kept {s : State} {q : Requester} (h : s.UntracedAt q.c.die) (pa n : Nat) : Kept s (s.ownRun q pa n) :=
  Kept.foldl (fun _ l ht => State.ownLine_kept ht l) _ h

/-! ### Corrections and translations (R71, R82 to R87) -/

theorem State.correct_kept (s : State) (pa n : Nat) : Kept s (s.correct pa n) := by
  refine ⟨⟨besideTlbs_of_besideMemory (State.correct_besideMemory s pa n), (State.correct_quiet s pa n).noBad, fun h => ?_, fun d => ?_,
    (State.correct_quiet s pa n).lines⟩, State.correct_mem s pa n⟩
  · rw [State.correct_of_no_soft h]
    exact h
  · unfold State.correct
    simp only
    split <;> exact ⟨rfl, rfl⟩

theorem State.correctAll_kept (s : State) (ws : List Nat) : Kept s (s.correctAll ws) := by
  induction ws generalizing s with
  | nil => exact .refl s
  | cons pa ws ih => exact (State.correct_kept s pa 8).trans (ih _)

theorem readPte_kept {s s1 : State} {w : Who} {va e : Word} {pa : Nat} (hu : s.Untraced) (h : readPte s w va pa = .ok (s1, e)) : Kept s s1 := by
  unfold readPte at h
  simp only [Eff.ite_trap_eq_ok] at h
  obtain ⟨-, -, ⟨⟩⟩ := h
  exact (State.correct_kept s pa 8).trans (State.cohRecord_kept (q := .engine s.cl.id w.asn) ((State.correct_kept s pa 8).untracedAt hu) ..)

theorem Beside.untraced {s t : State} (h : Beside s t) (hu : s.Untraced) : t.Untraced := by
  rw [State.Untraced, h.id]
  exact h.untracedAt hu

theorem walkFrom_kept {w : Who} {va : Word} {ls : List Nat} {table : Nat} {s s1 : State} {l : Leaf} (hu : s.Untraced)
    (h : walkFrom w va ls table s = .ok (s1, l)) : Kept s s1 := by
  induction ls generalizing table s with
  | nil => cases h
  | cons lv rest ih =>
    unfold walkFrom at h
    obtain ⟨⟨s2, e⟩, hp, h⟩ := Eff.bind_eq_ok.mp h
    have entry := readPte_kept hu hp
    simp only [Eff.ite_trap_eq_ok] at h
    obtain ⟨-, -, h⟩ := h
    split at h
    · obtain ⟨-, ⟨⟩⟩ := Eff.ite_trap_eq_ok.mp h
      exact entry
    · exact entry.trans (ih (entry.untraced hu) h)

theorem walk_kept {s s1 : State} {w : Who} {va : Word} {l : Leaf} (hu : s.Untraced) (h : walk s w va = .ok (s1, l)) : Kept s s1 := by
  unfold walk at h
  obtain ⟨⟨s2, e⟩, hp, h⟩ := Eff.bind_eq_ok.mp h
  have entry := readPte_kept hu hp
  simp only [Eff.ite_trap_eq_ok] at h
  obtain ⟨-, -, h⟩ := h
  exact entry.trans (walkFrom_kept (entry.untraced hu) h)

theorem Cluster.setTlb_withoutTlbs (c : Cluster) (a : Fin 9) (l : List Leaf) : (c.setTlb a l).withoutTlbs = c.withoutTlbs := by
  unfold Cluster.setTlb
  split
  next ha =>
    have same : ((c.cores.set a.val { c.cores[a.val] with tlb := l } ha).map fun (k : PhysCore) => { k with tlb := [] }) =
        c.cores.map fun (k : PhysCore) => { k with tlb := [] } := by
      ext i hi : 1
      simp only [Vector.getElem_map, Vector.getElem_set]
      split
      next he => subst he; rfl
      next => rfl
    exact congrArg (fun cores => { c with tlb := [], cores := cores }) same
  next => rfl

theorem State.setTlb_kept (s : State) (a : Fin 9) (l : List Leaf) : Kept s { s with cl := s.cl.setTlb a l } :=
  ⟨⟨congrArg (fun c => { s.besideMemory with cl := c }) (Cluster.setTlb_withoutTlbs s.cl a l), id, id, fun _ => ⟨rfl, rfl⟩, id⟩, rfl⟩

theorem pinCorrect_kept (s : State) (u : Use) (l : Leaf) (va : Word) : Kept s (pinCorrect s u l va) := .ite (State.correctAll_kept ..) (.refl s)

theorem translate_besideTlbs {s s1 : State} {w : Who} {va : Word} {l : Leaf} (h : Machine.translate s w va = .ok (s1, l)) :
    s1.besideTlbs = s.besideTlbs := by
  unfold Machine.translate at h
  simp only at h
  split at h
  · cases h
    rfl
  · split at h
    · cases h
      exact (s.setTlb_kept ..).beside
    · split at h
      · cases h
      next s2 _ hw =>
        cases h
        exact ((s2.setTlb_kept ..).beside).trans (besideTlbs_of_besideMemory (walk_besideMemory hw))

theorem findLeaf_besideTlbs {s s1 : State} {w : Who} {va : Word} {l : Leaf} (h : findLeaf s w va = .ok (s1, l)) :
    s1.besideTlbs = s.besideTlbs := by
  unfold findLeaf at h
  split at h
  · split at h
    · split at h
      · cases h
        rfl
      · cases h
    · cases h
  · exact translate_besideTlbs h

/-- Finding a place leaves everything beside memory and the TLBs alone, traced or not. -/
theorem locate_besideTlbs {s s1 : State} {w : Who} {u : Use} {va : Word} {n : Nat} {l : Loc} (h : locate s w u va n = .ok (s1, l)) :
    s1.besideTlbs = s.besideTlbs := by
  unfold locate at h
  split at h
  · split at h
    · cases h
      rfl
    · cases h
  · split at h
    · cases h
    next hf =>
      split at h
      · cases h
      · split at h
        · cases h
          exact (pinCorrect_kept ..).beside.trans (findLeaf_besideTlbs hf)
        · cases h

theorem translate_kept {s s1 : State} {w : Who} {va : Word} {l : Leaf} (hu : s.Untraced) (h : Machine.translate s w va = .ok (s1, l)) :
    Kept s s1 := by
  unfold Machine.translate at h
  simp only at h
  split at h
  · cases h
    exact .refl s
  · split at h
    · cases h
      exact s.setTlb_kept ..
    · split at h
      · cases h
      next s2 _ hw =>
        have walked := walk_kept hu hw
        cases h
        have entered := walked.trans (s2.setTlb_kept w.agent ((l :: s.cl.tlbOf w.agent).take 64))
        refine entered.trans (State.setDie_kept ?_ ?_)
        · rw [walked.id]
          exact ((entered.dies s.cl.id.die).1).symm
        · rw [walked.id]
          exact ((entered.dies s.cl.id.die).2).symm

theorem findLeaf_kept {s s1 : State} {w : Who} {va : Word} {l : Leaf} (hu : s.Untraced) (h : findLeaf s w va = .ok (s1, l)) : Kept s s1 := by
  unfold findLeaf at h
  split at h
  · split at h
    · split at h
      · cases h
        exact .refl s
      · cases h
    · cases h
  · exact translate_kept hu h

/-- Finding a place changes TLBs, and corrects errors. -/
theorem locate_kept {s s1 : State} {w : Who} {u : Use} {va : Word} {n : Nat} {l : Loc} (hu : s.Untraced) (h : locate s w u va n = .ok (s1, l)) :
    Kept s s1 := by
  unfold locate at h
  split at h
  · split at h
    · cases h
      exact .refl s
    · cases h
  · split at h
    · cases h
    next hf =>
      split at h
      · cases h
      · split at h
        · cases h
          exact (findLeaf_kept hu hf).trans (pinCorrect_kept ..)
        · cases h

end Sys2Proof.Machine
end

section
/-!
SUPPORT. Slots of every enabled core, said once: what is kept from core to core, and lists of writes that each core posts (R13, R34, R46).
-/

namespace Sys2Proof.Machine

/-! ### One core after another -/

/-- What each enabled core's work leads on, from the cores that are done to those with one more, holds when all are done. -/
theorem coresFrom_induction {s : State} {f : Fin 8 → State → Eff State} {P : List (Fin 8) → State → Prop} {all : List (Fin 8)}
    (enabled : ∀ {done t}, P done t → t.enabled = s.enabled)
    (skip : ∀ {done k rest t}, done ++ k :: rest = all → s.enabled k = false → P done t → P (done ++ [k]) t)
    (step : ∀ {done k rest t}, done ++ k :: rest = all → s.enabled k = true → P done t → ∃ u, f k t = .ok u ∧ P (done ++ [k]) u)
    (rest : List (Fin 8)) {done : List (Fin 8)} {t : State} (h : done ++ rest = all) (ht : P done t) : ∃ u, coresFrom f rest t = .ok u ∧ P all u := by
  induction rest generalizing done t with
  | nil => exact ⟨t, rfl, by rw [← h, List.append_nil]; exact ht⟩
  | cons k rest ih =>
    have next : (done ++ [k]) ++ rest = all := by rw [List.append_assoc]; exact h
    rw [coresFrom, enabled ht]
    cases he : s.enabled k with
    | false => exact ih next (skip h he ht)
    | true =>
      obtain ⟨u, hu, hP⟩ := step h he ht
      rw [if_pos rfl, hu]
      exact ih next hP

/-- The same for all cores. -/
theorem eachCore_induction {s : State} {f : Fin 8 → State → Eff State} {P : List (Fin 8) → State → Prop}
    (enabled : ∀ {done t}, P done t → t.enabled = s.enabled)
    (skip : ∀ {done k rest t}, done ++ k :: rest = List.finRange 8 → s.enabled k = false → P done t → P (done ++ [k]) t)
    (step : ∀ {done k rest t}, done ++ k :: rest = List.finRange 8 → s.enabled k = true → P done t → ∃ u, f k t = .ok u ∧ P (done ++ [k]) u)
    (start : P [] s) : ∃ u, eachCore f s = .ok u ∧ P (List.finRange 8) u :=
  coresFrom_induction enabled skip step (List.finRange 8) (List.nil_append _) start

/-- A core that comes is not among those that are done. -/
theorem notMem_done {done rest : List (Fin 8)} {k : Fin 8} (h : done ++ k :: rest = List.finRange 8) : k ∉ done := by
  have distinct : (done ++ k :: rest).Nodup := h ▸ List.nodup_finRange 8
  intro hk
  exact (List.nodup_append.mp distinct).2.2 k hk k List.mem_cons_self rfl

/-- Cores that are not enabled do nothing. -/
theorem coresFrom_of_disabled {f : Fin 8 → State → Eff State} {l : List (Fin 8)} {s : State} (h : ∀ j ∈ l, s.enabled j = false) (rest : List (Fin 8)) :
    coresFrom f (l ++ rest) s = coresFrom f rest s := by
  induction l with
  | nil => rfl
  | cons j l ih =>
    rw [List.cons_append, coresFrom, h j List.mem_cons_self]
    exact ih fun i hi => h i (List.mem_cons_of_mem j hi)

/-- A slot of one enabled core is that core's work. -/
theorem eachCore_of_onlyCore {s t : State} {k : Fin 8} {f : Fin 8 → State → Eff State} (h : OnlyCore s k) (hf : f k s = .ok t)
    (he : t.enabled = s.enabled) : eachCore f s = .ok t := by
  obtain ⟨before, after, split⟩ := List.append_of_mem (List.mem_finRange k)
  have others {j : Fin 8} (hj : j ≠ k) : s.enabled j = false := (h j).trans (decide_eq_false hj)
  have distinct : (before ++ k :: after).Nodup := split ▸ List.nodup_finRange 8
  obtain ⟨-, hafter, hbefore⟩ := List.nodup_append.mp distinct
  rw [eachCore, split, coresFrom_of_disabled fun j hj => others (hbefore j hj k List.mem_cons_self), coresFrom, h k, decide_eq_true rfl, if_pos rfl, hf]
  have rest := coresFrom_of_disabled (f := f) (l := after) (s := t)
    (fun j hj => he ▸ others fun e => (List.nodup_cons.mp hafter).1 (e ▸ hj)) []
  rw [List.append_nil] at rest
  exact rest

/-- A trap of the one enabled core is the slot's. -/
theorem eachCore_trap_of_onlyCore {s : State} {k : Fin 8} {f : Fin 8 → State → Eff State} (h : OnlyCore s k) {c : BitVec 8} {v : Word} {a : Fin 9}
    (hf : f k s = .error (.trap c v a)) : eachCore f s = .error (.trap c v a) := by
  obtain ⟨before, after, split⟩ := List.append_of_mem (List.mem_finRange k)
  have distinct : (before ++ k :: after).Nodup := split ▸ List.nodup_finRange 8
  obtain ⟨-, -, hbefore⟩ := List.nodup_append.mp distinct
  have others (j : Fin 8) (hj : j ∈ before) : s.enabled j = false :=
    (h j).trans (decide_eq_false (hbefore j hj k List.mem_cons_self))
  rw [eachCore, split, coresFrom_of_disabled others, coresFrom, h k, decide_eq_true rfl, if_pos rfl, hf]

/-! ### Lists of writes -/

/-- Core k posts a list of writes. -/
def State.postCoreList (s : State) (k : Fin 8) (lat : Nat) (ws : List CoreWrite) : State := ws.foldl (fun t x => t.postCore k lat x) s

/-- The core's bank after the list. -/
def State.postTimedList (s : State) (lat : Nat) (w : Fin 8 → List CoreWrite) (k : Fin 8) (c : CoreBank) : CoreBank :=
  { c with pend := (w k).foldl (fun p x => Pending.insert (s.timed k lat x) p) c.pend }

theorem State.postCoreList_append (s : State) (k : Fin 8) (lat : Nat) (xs ys : List CoreWrite) :
    s.postCoreList k lat (xs ++ ys) = (s.postCoreList k lat xs).postCoreList k lat ys := List.foldl_append

/-- A list of writes changes the core's bank alone. -/
theorem State.postCoreList_withCores (s : State) (cs : Vector CoreBank 8) (k : Fin 8) (lat : Nat) (ws : List CoreWrite) :
    (s.withCores cs).postCoreList k lat ws = s.withCores (cs.set k.val (s.postTimedList lat (fun _ => ws) k cs[k.val]) k.isLt) := by
  induction ws generalizing cs with
  | nil => exact congrArg s.withCores (Vector.set_getElem_self k.isLt).symm
  | cons x ws ih =>
    have first : (s.withCores cs).postCore k lat x = s.withCores (cs.set k.val (s.postTimed lat (fun _ => x) k cs[k.val]) k.isLt) := rfl
    rw [State.postCoreList, List.foldl_cons, first]
    refine (ih _).trans (congrArg s.withCores ?_)
    rw [Vector.set_set, Vector.getElem_set_self]
    rfl

/-- The cores after those that are done, and one more. -/
theorem changeCores_append (e : Fin 8 → Bool) (g : Fin 8 → CoreBank → CoreBank) (done : List (Fin 8)) (k : Fin 8) (cs : Vector CoreBank 8) :
    changeCores e g (done ++ [k]) cs =
      if e k then (changeCores e g done cs).set k.val (g k (changeCores e g done cs)[k.val]) k.isLt else changeCores e g done cs := List.foldl_append

/-- Work that cannot trap, and posts a list of writes in each enabled core. -/
theorem eachCore'_postCoreList (s : State) (lat : Nat) (w : Fin 8 → List CoreWrite) :
    eachCore' (fun k t => t.postCoreList k lat (w k)) s =
      s.withCores (changeCores s.enabled (s.postTimedList lat w) (List.finRange 8) s.cl.bank.cores) := by
  have run (l : List (Fin 8)) (cs : Vector CoreBank 8) :
      l.foldl (fun t k => if t.enabled k then t.postCoreList k lat (w k) else t) (s.withCores cs) =
        s.withCores (changeCores s.enabled (s.postTimedList lat w) l cs) := by
    induction l generalizing cs with
    | nil => rfl
    | cons k l ih =>
      have first : (if (s.withCores cs).enabled k then (s.withCores cs).postCoreList k lat (w k) else s.withCores cs) =
          s.withCores (if s.enabled k then cs.set k.val (s.postTimedList lat w k cs[k.val]) k.isLt else cs) := by
        rw [State.postCoreList_withCores, apply_ite s.withCores]
        rfl
      rw [List.foldl_cons, first, ih]
      rfl
  exact run (List.finRange 8) s.cl.bank.cores

/-- A slot that posts a list of writes in each enabled core, whatever the cores before it have posted. -/
theorem coresPost_of_eachCore {i : Instr} {s : State} {lat : Nat} {f : Fin 8 → State → Eff State} {w : Fin 8 → List CoreWrite}
    (h : exec i s = outcome s (eachCore f s))
    (hf : ∀ k cs, s.enabled k = true → f k (s.withCores cs) = .ok ((s.withCores cs).postCoreList k lat (w k))) : CoresPost i s lat w := by
  let P (done : List (Fin 8)) (t : State) : Prop :=
    t = s.withCores (changeCores s.enabled (s.postTimedList lat w) done s.cl.bank.cores)
  obtain ⟨t, run, rfl⟩ := eachCore_induction (s := s) (f := f) (P := P) (fun {_ _} ht => ht ▸ rfl)
    (fun {done k _ _} _ he ht => by
      change _ = _
      rw [changeCores_append, he]
      exact ht)
    (fun {done k _ t} _ he ht => by
      change t = _ at ht
      subst ht
      refine ⟨_, hf k _ he, ?_⟩
      change _ = _
      rw [changeCores_append, he, State.postCoreList_withCores]
      rfl) rfl
  refine ⟨_, h.trans (congrArg (outcome s) run), rfl, fun k => (changeCores_getElem _ _ (List.nodup_finRange 8) _ k).trans ?_⟩
  simp only [List.mem_finRange, true_and]
  rfl

/-! ### The agents' own registers -/

theorem coreOf_coreWho (s : State) (k : Fin 8) : coreOf (coreWho s k).agent = some k := dif_pos k.isLt

theorem readH_seq (s : State) (r : Fin 16) : readH s 8 r = s.rh r := rfl

theorem readH_core (s t : State) (k : Fin 8) (r : Fin 16) : readH t (coreWho s k).agent r = t.rch k r := by
  rw [readH, coreOf_coreWho]

theorem healH_seq (s : State) (r : Fin 16) (old new : Word) : healH s 8 r old new = if old = new then s else s.postH 1 r new := rfl

/-- The writes that heal a register of a core. -/
def healWrites (r : Fin 16) (old new : Word) : List CoreWrite := if old = new then [] else [.h r new]

theorem healH_core (s t : State) (k : Fin 8) (r : Fin 16) (old new : Word) :
    healH t (coreWho s k).agent r old new = t.postCoreList k 1 (healWrites r old new) := by
  rw [healH, coreOf_coreWho, healWrites]
  split <;> rfl

end Sys2Proof.Machine
end

section
/-!
SUPPORT. References and their barrier (R97 to R103): the fields of a reference, and what the barrier answers.
-/

namespace Sys2Proof.Machine

/-! ### Fields of a word -/

theorem bits_and {w : Nat} (x y : BitVec w) (hi lo : Nat) : bits (x &&& y) hi lo = bits x hi lo &&& bits y hi lo := by
  rw [bits, bits, bits, BitVec.toNat_and, Nat.and_div_two_pow, Nat.and_mod_two_pow]

theorem bits_or {w : Nat} (x y : BitVec w) (hi lo : Nat) : bits (x ||| y) hi lo = bits x hi lo ||| bits y hi lo := by
  rw [bits, bits, bits, BitVec.toNat_or, Nat.or_div_two_pow, Nat.or_mod_two_pow]

theorem bits_lt {w : Nat} (x : BitVec w) (hi lo : Nat) : bits x hi lo < 2 ^ (hi + 1 - lo) := Nat.mod_lt _ (Nat.two_pow_pos _)

theorem bits_and_ones {w : Nat} (x : BitVec w) (hi lo : Nat) : bits x hi lo &&& (2 ^ (hi + 1 - lo) - 1) = bits x hi lo := by
  rw [Nat.and_two_pow_sub_one_eq_mod, Nat.mod_eq_of_lt (bits_lt x hi lo)]

theorem refKind_refWith (r : Word) {e : Nat} (a : Nat) (he : e < 4) : refKind (refWith r e a) = refKind r := by
  have new : bits (BitVec.ofNat 64 (e * 2 ^ 60 + a % 2 ^ 56)) 63 62 = 0 := by
    simp only [bits, BitVec.toNat_ofNat]
    omega
  rw [refKind, refWith, bits_or, bits_and, new, Nat.or_zero]
  exact bits_and_ones r 63 62

theorem refEpoch_refWith (r : Word) {e : Nat} (a : Nat) (he : e < 4) : refEpoch (refWith r e a) = e := by
  have new : bits (BitVec.ofNat 64 (e * 2 ^ 60 + a % 2 ^ 56)) 61 60 = e := by
    simp only [bits, BitVec.toNat_ofNat]
    omega
  rw [refEpoch, refWith, bits_or, bits_and, new]
  exact (congrArg (· ||| e) (Nat.and_zero _)).trans (Nat.zero_or e)

theorem refHeap_refWith (r : Word) (e a : Nat) : refHeap (refWith r e a) = refHeap r := by
  have new : bits (BitVec.ofNat 64 (e * 2 ^ 60 + a % 2 ^ 56)) 59 56 = 0 := by
    simp only [bits, BitVec.toNat_ofNat]
    omega
  rw [refHeap, refWith, bits_or, bits_and, new, Nat.or_zero]
  exact congrArg (Fin.ofNat 16) (bits_and_ones r 59 56)

theorem refAddr_refWith (r : Word) (e : Nat) {a : Nat} (ha : a % 64 = 0) (hl : a < 2 ^ 56) : refAddr (refWith r e a) = a := by
  have new : bits (BitVec.ofNat 64 (e * 2 ^ 60 + a % 2 ^ 56)) 55 6 = a / 64 := by
    simp only [bits, BitVec.toNat_ofNat]
    omega
  have old : bits r 55 6 &&& bits (0xCF0000000000003F : Word) 55 6 = 0 := Nat.and_zero _
  rw [refAddr, refWith, bits_or, bits_and, new, old, Nat.zero_or]
  omega

theorem lowBits_refWith (r : Word) (e : Nat) {a : Nat} (ha : a % 64 = 0) : bits (refWith r e a) 5 0 = bits r 5 0 := by
  have new : bits (BitVec.ofNat 64 (e * 2 ^ 60 + a % 2 ^ 56)) 5 0 = 0 := by
    simp only [bits, BitVec.toNat_ofNat]
    omega
  rw [refWith, bits_or, bits_and, new, Nat.or_zero]
  exact bits_and_ones r 5 0

theorem refAddr_lt (r : Word) : refAddr r < 2 ^ 56 := by
  have := bits_lt r 55 6
  rw [refAddr]
  omega

theorem refAddr_mod (r : Word) : refAddr r % 64 = 0 := Nat.mul_mod_left ..

/-! ### What the barrier reads -/

theorem epochSeen_lt (s : State) (n : Fin 16) (a : Fin 9) : epochSeen s n a < 4 := by
  unfold epochSeen
  simp only
  split
  · exact bits_lt _ 1 0
  · exact (s.relocs[n.val]).epoch.isLt

/-- The heaps look the same in t as in s: memory, the engines and the cycle have not changed. -/
structure SameHeaps (s t : State) : Prop where
  mem : t.mem = s.mem
  relocs : t.relocs = s.relocs
  now : t.now = s.now

theorem Kept.sameHeaps {s t : State} (h : Kept s t) : SameHeaps s t := ⟨h.mem, h.relocs, h.now⟩

theorem SameHeaps.trans {s t u : State} (h : SameHeaps s t) (k : SameHeaps t u) : SameHeaps s u :=
  ⟨k.mem.trans h.mem, k.relocs.trans h.relocs, k.now.trans h.now⟩

section
variable {s t : State} (h : SameHeaps s t)
include h

theorem SameHeaps.heapWord : heapWord t = heapWord s := by
  funext n k
  rw [Machine.heapWord, h.mem]
  rfl

theorem SameHeaps.entryWord : entryWord t = entryWord s := by
  funext base p k
  rw [Machine.entryWord, h.mem]
  rfl

theorem SameHeaps.epochSeen : epochSeen t = epochSeen s := by
  funext n a
  rw [Machine.epochSeen, Machine.epochSeen, heapEpoch, heapEpoch, h.heapWord, h.relocs, h.now]

theorem SameHeaps.lookup : lookup t = lookup s := by
  have run (base x : Nat) (l : List Nat) : lookupIn t base x l = lookupIn s base x l := by
    induction l with
    | nil => rfl
    | cons p l ih => rw [lookupIn, lookupIn, ih, h.entryWord]
  funext n e x
  rw [Machine.lookup, Machine.lookup, run, forwardBase, forwardBase, heapTlog, heapTlog, h.heapWord]

end

/-! ### What the barrier answers -/

/-- The heap is enabled, and the task's (R96). -/
def HeapOpen (s : State) (w : Who) (n : Fin 16) : Prop := heapEn s n = true ∧ (heapOwner s n = w.asn ∨ w.sup = true)

theorem not_heapOpen_iff {s : State} {w : Who} {n : Fin 16} :
    (!heapEn s n || !(heapOwner s n = w.asn || w.sup)) = true ↔ ¬HeapOpen s w n := by
  rw [HeapOpen]
  cases heapEn s n <;> cases w.sup <;> simp

theorem barrierRange_eq_ok {s : State} {w : Who} {r y : Word} : barrierRange s w r = .ok y ↔ inRange s (refHeap r) (refAddr r) = true ∧ y = r := by
  unfold barrierRange
  split
  next h => simp [h, eq_comm]
  next h => simp [h, Who.trap]

section
variable {s : State} {w : Who} {r : Word}

theorem barrierRef_of_kind (h : refKind r ≠ 1) : barrierRef s w r = .error (.trap 0x09 r w.agent) := if_pos h

theorem barrierRef_of_bit6 (hk : refKind r = 1) (h : r.getLsbD 6 = true) : barrierRef s w r = .error (.trap 0x05 r w.agent) := by
  rw [barrierRef, if_neg (not_not.mpr hk), if_pos h]
  rfl

theorem barrierRef_of_closed (hk : refKind r = 1) (h6 : r.getLsbD 6 = false) (h : ¬HeapOpen s w (refHeap r)) :
    barrierRef s w r = .error (.trap 0x05 r w.agent) := by
  rw [barrierRef, if_neg (not_not.mpr hk), h6, if_neg Bool.false_ne_true]
  exact if_pos (not_heapOpen_iff.mpr h)

/-- A reference with the previous epoch goes by the table of the current one (R100, R102). -/
def forwarded (s : State) (w : Who) (r : Word) (cur : Nat) : Eff Word :=
  match lookup s (refHeap r) cur (refAddr r) with
  | none => barrierRange s w (refWith r cur (refAddr r))
  | some p =>
    if entryState (entryWord s (forwardBase s (refHeap r) cur) p 0) = 3 then
      barrierRange s w (refWith r cur (bits (entryWord s (forwardBase s (refHeap r) cur) p 1) 55 6 * 64))
    else .error (.holdRaise [(refHeap r, p)])

section
variable (hk : refKind r = 1) (h6 : r.getLsbD 6 = false) (ho : HeapOpen s w (refHeap r))
include hk h6 ho

/-- Behind the first checks the barrier goes by the epoch. -/
theorem barrierRef_of_open :
    barrierRef s w r =
      if refEpoch r = epochSeen s (refHeap r) w.agent then barrierRange s w r
      else if refEpoch r ≠ (epochSeen s (refHeap r) w.agent + 3) % 4 then w.trap 0x0A r else forwarded s w r (epochSeen s (refHeap r) w.agent) := by
  have passes : (!heapEn s (refHeap r) || !(heapOwner s (refHeap r) = w.asn || w.sup)) = false :=
    Bool.eq_false_iff.mpr (mt not_heapOpen_iff.mp (not_not.mpr ho))
  unfold barrierRef
  simp only [hk, h6, passes, ne_eq, not_true, if_false, Bool.false_eq_true]
  refine ite_congr rfl (fun _ => rfl) fun _ => ite_congr rfl (fun _ => rfl) fun _ => ?_
  unfold forwarded
  cases lookup s (refHeap r) (epochSeen s (refHeap r) w.agent) (refAddr r) <;> rfl

theorem barrierRef_of_current (he : refEpoch r = epochSeen s (refHeap r) w.agent) :
    barrierRef s w r = if inRange s (refHeap r) (refAddr r) then .ok r else .error (.trap 0x05 r w.agent) := by
  rw [barrierRef_of_open hk h6 ho]
  exact if_pos he

theorem barrierRef_of_stale (he : refEpoch r ≠ epochSeen s (refHeap r) w.agent) (hp : refEpoch r ≠ (epochSeen s (refHeap r) w.agent + 3) % 4) :
    barrierRef s w r = .error (.trap 0x0A r w.agent) := by
  rw [barrierRef_of_open hk h6 ho]
  exact (if_neg he).trans (if_pos hp)

end

/-- The barrier answers the same where the heaps look the same. -/
theorem SameHeaps.barrierRef {t : State} (h : SameHeaps s t) (w : Who) (r : Word) : barrierRef t w r = barrierRef s w r := by
  have range (y : Word) : barrierRange t w y = barrierRange s w y := by
    rw [barrierRange, barrierRange, inRange, inRange, h.heapWord]
  have open_ (n : Fin 16) : HeapOpen t w n ↔ HeapOpen s w n := by
    rw [HeapOpen, HeapOpen, heapEn, heapEn, heapOwner, heapOwner, h.heapWord]
  have table (cur : Nat) : forwarded t w r cur = forwarded s w r cur := by
    have base : forwardBase t = forwardBase s := by
      funext n e
      rw [forwardBase, forwardBase, h.heapWord]
    rw [forwarded, forwarded, h.lookup, h.entryWord, base]
    cases Machine.lookup s (refHeap r) cur (refAddr r) with
    | none => exact range _
    | some p => exact ite_congr rfl (fun _ => range _) fun _ => rfl
  by_cases hk : refKind r = 1
  · by_cases h6 : r.getLsbD 6 = true
    · rw [barrierRef_of_bit6 hk h6, barrierRef_of_bit6 hk h6]
    · have h6 := Bool.eq_false_iff.mpr h6
      by_cases ho : HeapOpen s w (refHeap r)
      · rw [barrierRef_of_open hk h6 ((open_ _).mpr ho), barrierRef_of_open hk h6 ho, table, range, h.epochSeen]
      · rw [barrierRef_of_closed hk h6 (mt (open_ _).mp ho), barrierRef_of_closed hk h6 ho]
  · rw [barrierRef_of_kind hk, barrierRef_of_kind hk]

/-- A reference that the barrier answers is one of an open heap, and the answer one of the three of R102. -/
theorem barrierRef_eq_ok {y : Word} (h : barrierRef s w r = .ok y) :
    let n := refHeap r
    let cur := epochSeen s n w.agent
    refKind r = 1 ∧ HeapOpen s w n ∧ inRange s (refHeap y) (refAddr y) = true ∧
    ((refEpoch r = cur ∧ y = r) ∨
     (refEpoch r ≠ cur ∧ lookup s n cur (refAddr r) = none ∧ y = refWith r cur (refAddr r)) ∨
     (refEpoch r ≠ cur ∧ ∃ p, lookup s n cur (refAddr r) = some p ∧ entryState (entryWord s (forwardBase s n cur) p 0) = 3 ∧
       y = refWith r cur (bits (entryWord s (forwardBase s n cur) p 1) 55 6 * 64))) := by
  have hk : refKind r = 1 := by
    by_contra hk
    rw [barrierRef_of_kind hk] at h
    cases h
  have h6 : r.getLsbD 6 = false := by
    by_contra h6
    rw [barrierRef_of_bit6 hk (Bool.not_eq_false _ ▸ h6)] at h
    cases h
  have ho : HeapOpen s w (refHeap r) := by
    by_contra ho
    rw [barrierRef_of_closed hk h6 ho] at h
    cases h
  rw [barrierRef_of_open hk h6 ho, forwarded] at h
  refine ⟨hk, ho, ?_⟩
  split at h
  next he =>
    obtain ⟨hr, rfl⟩ := barrierRange_eq_ok.mp h
    exact ⟨hr, .inl ⟨he, rfl⟩⟩
  next he =>
    split at h
    · cases h
    · split at h
      next hl =>
        obtain ⟨hr, rfl⟩ := barrierRange_eq_ok.mp h
        exact ⟨hr, .inr (.inl ⟨he, hl, rfl⟩)⟩
      next p hl =>
        split at h
        next hs =>
          obtain ⟨hr, rfl⟩ := barrierRange_eq_ok.mp h
          exact ⟨hr, .inr (.inr ⟨he, p, hl, hs, rfl⟩)⟩
        next => cases h

/-- What the barrier answers is a reference to the same heap, with the current epoch. -/
theorem barrierRef_fields {y : Word} (h : barrierRef s w r = .ok y) :
    refKind y = 1 ∧ refHeap y = refHeap r ∧ refEpoch y = epochSeen s (refHeap r) w.agent ∧ bits y 5 0 = bits r 5 0 := by
  have he := epochSeen_lt s (refHeap r) w.agent
  obtain ⟨hk, -, -, ⟨hc, rfl⟩ | ⟨-, -, rfl⟩ | ⟨-, p, -, -, rfl⟩⟩ := barrierRef_eq_ok h
  · exact ⟨hk, rfl, hc, rfl⟩
  · exact ⟨(refKind_refWith r _ he).trans hk, refHeap_refWith .., refEpoch_refWith r _ he, lowBits_refWith r _ (refAddr_mod r)⟩
  · exact ⟨(refKind_refWith r _ he).trans hk, refHeap_refWith .., refEpoch_refWith r _ he, lowBits_refWith r _ (Nat.mul_mod_left ..)⟩

theorem refKind_of_barrierRef {y : Word} (h : barrierRef s w r = .ok y) : refKind r = 1 := (barrierRef_eq_ok h).1

end

/-- The barrier's answer, of words that can be read, is that of R102. -/
theorem barrier_eq_ok {s s1 : State} {w : Who} {r y : Word} (h : barrier s w r = .ok (s1, y)) :
    barrierRef (afterAcquire s w.agent) w r = .ok y ∧ s1 = (afterAcquire s w.agent).correctAll (barrierReads (afterAcquire s w.agent) w r) := by
  unfold barrier at h
  simp only at h
  split at h
  · cases h
  · split at h
    next hy =>
      cases h
      exact ⟨hy, rfl⟩
    · cases h

/-- No memory error is known. -/
def State.Sound (s : State) : Prop := s.badWords = [] ∧ s.softWords = []

theorem State.badAmong_of_sound {s : State} (h : s.badWords = []) (ws : List Nat) : s.badAmong ws = false := by
  unfold State.badAmong State.badAt
  rw [h]
  simp

/-- Where nothing is under way and no memory error is known the barrier changes nothing. -/
theorem barrier_of_barrierRef {s : State} {w : Who} {r y : Word} (ha : awaiting s w.agent = false) (he : s.Sound) (h : barrierRef s w r = .ok y) :
    barrier s w r = .ok (s, y) := by
  have acquired : afterAcquire s w.agent = s := by
    rw [afterAcquire, ha]
    rfl
  unfold barrier
  simp only [acquired, State.badAmong_of_sound he.1, State.correctAll_of_no_soft he.2, h, Bool.false_eq_true, if_false]

end Sys2Proof.Machine
end

section
/-!
SETTLED. O20: the barrier, and the slots that move and compare references (R102, R107, R110, R111).
-/

namespace Sys2Proof.Machine

/-! ### Comparing references (R111) -/

/-- Two references, current or null, name the same object: what HEQ and CHEQ answer. -/
def sameReference (a b : Word) : Bool :=
  (refKind a = 0 && refKind b = 0) || (refKind a ≠ 0 && refKind b ≠ 0 && refHeap a = refHeap b && refAddr a = refAddr b)

theorem sameReference_of_null {a b : Word} (h : refKind a = 0 ∨ refKind b = 0) :
    sameReference a b = (decide (refKind a = 0) && decide (refKind b = 0)) := by
  unfold sameReference
  rcases h with h | h <;> simp [h]

theorem sameReference_of_object {a b : Word} (ha : refKind a = 1) (hb : refKind b = 1) :
    sameReference a b = (decide (refHeap a = refHeap b) && decide (refAddr a = refAddr b)) := by
  simp [sameReference, ha, hb]

section
variable {s : State} {w : Who} {ha hb : Fin 16}

theorem sameObject_of_null (h : refKind (readH s w.agent ha) = 0 ∨ refKind (readH s w.agent hb) = 0) (h1 : refKind (readH s w.agent ha) < 2)
    (h2 : refKind (readH s w.agent hb) < 2) : sameObject s w ha hb = .ok (s, sameReference (readH s w.agent ha) (readH s w.agent hb)) := by
  rw [sameReference_of_null h]
  unfold sameObject
  simp only [ge_iff_le, Nat.not_le.mpr h1, Nat.not_le.mpr h2, decide_false, Bool.and_false, Bool.false_eq_true, if_false]
  rcases h with h | h
  · by_cases k : refKind (readH s w.agent hb) = 0 <;> simp [h, k]
  · by_cases k : refKind (readH s w.agent ha) = 0 <;> simp [h, k]

theorem sameObject_of_barrier {s1 s2 : State} {x y : Word} (h1 : barrier s w (readH s w.agent ha) = .ok (s1, x))
    (h2 : barrier s1 w (readH s w.agent hb) = .ok (s2, y)) :
    sameObject s w ha hb =
      .ok (healH (healH s2 w.agent ha (readH s w.agent ha) x) w.agent hb (readH s w.agent hb) y, sameReference x y) := by
  obtain ⟨b1, -⟩ := barrier_eq_ok h1
  obtain ⟨b2, -⟩ := barrier_eq_ok h2
  rw [sameReference_of_object (barrierRef_fields b1).1 (barrierRef_fields b2).1]
  unfold sameObject
  simp only [refKind_of_barrierRef b1, refKind_of_barrierRef b2, h1, h2, bind, Except.bind]
  rfl

theorem sameObject_of_reserved_left (h : 2 ≤ refKind (readH s w.agent ha)) :
    sameObject s w ha hb = .error (.trap 0x09 (readH s w.agent ha) w.agent) := if_pos h

theorem sameObject_of_reserved_right (h1 : refKind (readH s w.agent ha) = 0) (h2 : 2 ≤ refKind (readH s w.agent hb)) :
    sameObject s w ha hb = .error (.trap 0x09 (readH s w.agent hb) w.agent) := by
  unfold sameObject
  simp [h1, h2, Who.trap]

end

theorem exec_heq_of_sameObject {s t : State} {x y : Fin 16} {r : Bool} (h : sameObject s s.seqWho x y = .ok (t, r)) (q : Fin 32) :
    exec (.heq q x y) s = .next (t.postQ 1 q r) := by
  change outcome s (sameObject s s.seqWho x y >>= fun p => .ok (p.1.postQ 1 q p.2)) = _
  rw [h]
  rfl

theorem exec_heq_of_reserved {s : State} {x y : Fin 16} {v : Word} (h : sameObject s s.seqWho x y = .error (.trap 0x09 v 8)) (q : Fin 32) :
    exec (.heq q x y) s = .next (takeTrap s 0x09 v 8) := by
  change outcome s (sameObject s s.seqWho x y >>= fun p => .ok (p.1.postQ 1 q p.2)) = _
  rw [h]
  exact outcome_trap _ _ rfl

theorem SameHeaps.withCores (s : State) (cs : Vector CoreBank 8) : SameHeaps s (s.withCores cs) := ⟨rfl, rfl, rfl⟩

/-- What core k compares, whatever the cores before it have posted. -/
theorem sameObject_withCores {s : State} (hu : Unhindered s) {k : Fin 8} {x y : Fin 16} {a b : Word} (cs : Vector CoreBank 8)
    (h : (((refKind (s.rch k x) = 0 ∨ refKind (s.rch k y) = 0) ∧ refKind (s.rch k x) < 2 ∧ refKind (s.rch k y) < 2) ∧ a = s.rch k x ∧ b = s.rch k y) ∨
      (barrierRef s (coreWho s k) (s.rch k x) = .ok a ∧ barrierRef s (coreWho s k) (s.rch k y) = .ok b)) :
    sameObject (s.withCores cs) (coreWho s k) x y =
      .ok (((s.withCores cs).postCoreList k 1 (healWrites x (s.rch k x) a)).postCoreList k 1 (healWrites y (s.rch k y) b), sameReference a b) := by
  have read (r : Fin 16) : readH (s.withCores cs) (coreWho s k).agent r = s.rch k r := readH_core ..
  obtain ⟨calm, bad, soft⟩ := hu
  rcases h with ⟨⟨h, h1, h2⟩, rfl, rfl⟩ | ⟨h1, h2⟩
  · rw [← read x, ← read y] at h
    rw [← read x] at h1
    rw [← read y] at h2
    rw [sameObject_of_null h h1 h2, read, read, healWrites, healWrites, if_pos rfl, if_pos rfl]
    rfl
  · have answer {r v : Word} (h : barrierRef s (coreWho s k) r = .ok v) :
        barrier (s.withCores cs) (coreWho s k) r = .ok (s.withCores cs, v) :=
      barrier_of_barrierRef (calm _) ⟨bad, soft⟩ ((SameHeaps.withCores s cs).barrierRef .. |>.trans h)
    rw [sameObject_of_barrier ((read x).symm ▸ answer h1) ((read y).symm ▸ answer h2), healH_core, healH_core, read, read]

/-- Settles O20: the barrier by its checks in order, the slots by the writes that they post. -/
theorem referencesAndTheirBarrier : Obligations.ReferencesAndTheirBarrier := by
  unfold Obligations.ReferencesAndTheirBarrier
  refine ⟨fun s w r => ?_, fun s w r => ?_, fun s x y r q => ?_⟩
  · intro n cur open_
    refine ⟨fun h => if_neg (by simp [h]), ?_, barrierRef_of_kind, barrierRef_of_bit6, barrierRef_of_closed,
      fun hk h6 ho => ⟨barrierRef_of_current hk h6 ho, barrierRef_of_stale hk h6 ho⟩, fun y hy => ?_⟩
    · change epochSeen s n w.agent = _ ∨ epochSeen s n w.agent = _
      unfold epochSeen
      simp only
      split
      · exact .inr rfl
      · exact .inl rfl
    · obtain ⟨hk, hh, he, hb⟩ := barrierRef_fields hy
      obtain ⟨-, -, hr, answer⟩ := barrierRef_eq_ok hy
      rw [hh] at hr
      refine ⟨hk, hh, he, hb, hr, ?_⟩
      rcases answer with ⟨hc, rfl⟩ | ⟨hc, hl, rfl⟩ | ⟨hc, p, hl, hs, rfl⟩
      · exact ⟨fun _ => rfl, fun h => absurd hc h, fun p h => absurd hc h⟩
      · exact ⟨fun h => absurd h hc, fun _ _ => refAddr_refWith r _ (refAddr_mod r) (refAddr_lt r), fun p _ h => absurd (hl.symm.trans h) (Option.some_ne_none p).symm⟩
      · refine ⟨fun h => absurd h hc, fun _ h => absurd (hl.symm.trans h) (Option.some_ne_none p), fun p' _ h => ?_⟩
        cases hl.symm.trans h
        exact ⟨hs, refAddr_refWith r _ (refAddr_mod _) (refAddr_lt _)⟩
  · intro t reads
    constructor
    · intro h
      exact if_pos h
    · intro h
      have readable : barrier s w r = match barrierRef t w r with | .ok y => .ok (t.correctAll reads, y) | .error e => .error e :=
        if_neg (by simpa using h)
      exact ⟨fun e he => by rw [readable, he], fun y hy => by rw [readable, hy]⟩
  · intro wide
    have wideEq (h : Fin 16) : Fin.ofNat 16 (wide h).val = h := Fin.ext (Nat.mod_eq_of_lt h.isLt)
    refine ⟨?_, ?_, ?_, outcome_illegal s, rfl, coresPost_of_eachCore' rfl, coresPost_of_eachCore' rfl, coresPost_of_eachCore' rfl, outcome_illegal s,
      coresPost_of_eachCore' rfl, ?_⟩
    · change Host.Outcome.next (s.postH 1 (Fin.ofNat 16 (wide x).val) (s.rh (Fin.ofNat 16 (wide y).val))) = _
      rw [wideEq, wideEq]
    · change Host.Outcome.next (s.postH 1 (Fin.ofNat 16 (wide x).val) (s.rs r)) = _
      rw [wideEq]
    · change Host.Outcome.next (s.postS 1 r (s.rh (Fin.ofNat 16 (wide y).val))) = _
      rw [wideEq]
    · intro same null seen heals
      refine ⟨fun a b s1 s2 h => ?_, fun h => exec_heq_of_reserved (sameObject_of_reserved_left h) q,
        fun h1 h2 => exec_heq_of_reserved (sameObject_of_reserved_right h1 h2) q, fun d a b hu h => ?_⟩
      · refine exec_heq_of_sameObject ?_ q
        rcases h with ⟨⟨h, h1, h2⟩, rfl, rfl, rfl⟩ | ⟨h1, h2⟩
        · rw [show heals y (s2.rh y) (s2.rh y) (heals x (s2.rh x) (s2.rh x) s2) = s2 from (if_pos rfl).trans (if_pos rfl)]
          exact sameObject_of_null (w := s2.seqWho) h h1 h2
        · exact sameObject_of_barrier (w := s.seqWho) h1 h2
      · refine coresPost_of_eachCore rfl fun k cs he => ?_
        simp only [sameObject_withCores hu cs (h k he), State.postCoreList_append]
        rfl

end Sys2Proof.Machine
end

section
/-!
SUPPORT. What a slot of the heaps finds and leaves (R103, R106, R108): the bundle that is open, the place of a reference's field, and an access that
the slot makes at once.
-/

namespace Sys2Proof.Machine

/-! ### The open bundle stays open -/

theorem State.clusterAt_id (s : State) (c : ClusterId) : (s.clusterAt c).id = c := by
  unfold State.clusterAt
  split
  next h => exact h
  next =>
    cases found : s.others.find? fun x => x.id = c with
    | none => rfl
    | some x =>
      have is := List.find?_some found
      exact of_decide_eq_true is

/-- A cluster that is put back with its open bundle leaves the current one's as it is. -/
theorem State.setCluster_opn {s : State} {c : ClusterId} {x : Cluster} (hid : x.id = c) (ho : x.opn = (s.clusterAt c).opn) :
    (s.setCluster x).cl.opn = s.cl.opn := by
  unfold State.setCluster
  split
  next h =>
    rw [hid] at h
    rw [State.clusterAt, if_pos h] at ho
    exact ho
  next => rfl

theorem State.writeLoc_opn (s : State) (l : Loc) (x n : Nat) : (s.writeLoc l x n).cl.opn = s.cl.opn := by
  cases l with
  | mem pa => rfl
  | pool c k acc off =>
    unfold State.writeLoc
    simp only
    have put (core : PhysCore) : (s.setCluster ((s.clusterAt c).setCore k core)).cl.opn = s.cl.opn :=
      State.setCluster_opn (s.clusterAt_id c) rfl
    split
    · exact put _
    · exact put _

theorem State.correctLoc_opn (s : State) (l : Loc) (n : Nat) : (s.correctLoc l n).cl.opn = s.cl.opn := by
  cases l with
  | mem pa => exact congrArg Cluster.opn (State.correct_quiet s pa n).cl
  | pool => rfl

theorem cohAccess_quiet (s : State) (o : MemOp) (a : Access) : Quiet s (cohAccess s o a) := by
  unfold cohAccess
  split
  · exact .refl s
  · split
    · exact State.readLine_quiet ..
    · exact State.ownLine_quiet ..
    · exact State.homeLine_quiet ..

theorem performAcc_opn (s : State) (a : Access) : (performAcc s a).1.cl.opn = s.cl.opn := by
  unfold performAcc
  split
  · split
    · rfl
    · exact State.correctLoc_opn ..
  · split
    · rfl
    · exact State.writeLoc_opn ..
  · split
    · rfl
    · simp only
      split
      · exact (State.writeLoc_opn ..).trans (State.correctLoc_opn ..)
      · exact State.correctLoc_opn ..

theorem performIn_opn {s s1 : State} {id j : Nat} {force : Bool} {l earlier ops : List MemOp} {a : Access}
    (h : performIn s id j force earlier l = some (s1, ops, a)) : s1.cl.opn = s.cl.opn := by
  induction l generalizing earlier with
  | nil => cases h
  | cons o rest ih =>
    unfold performIn at h
    split at h
    · split at h
      · cases h
      · rw [Option.ite_none_right_eq_some] at h
        obtain ⟨-, h⟩ := h
        cases h
        exact (congrArg Cluster.opn (cohAccess_quiet ..).cl).trans (performAcc_opn ..)
    · exact ih h

theorem State.setBankAt_opn (s : State) (i : Fin 8) (b : Bank) : (s.setBankAt i b).cl.opn = s.cl.opn := by
  unfold State.setBankAt
  split <;> rfl

theorem performOp_opn {s t : State} {i : Fin 8} {id j : Nat} {force : Bool} (h : performOp s i id j force = some t) : t.cl.opn = s.cl.opn := by
  unfold performOp at h
  split at h
  · cases h
  next found =>
    cases h
    exact (State.setBankAt_opn ..).trans (performIn_opn found)

theorem performAll_opn (i : Fin 8) (o : MemOp) (s : State) : (performAll i o s).cl.opn = s.cl.opn := by
  unfold performAll
  generalize List.range o.accs.length = l
  induction l generalizing s with
  | nil => rfl
  | cons j l ih =>
    refine (ih _).trans ?_
    change ((performOp s i o.id j true).getD s).cl.opn = s.cl.opn
    cases done : performOp s i o.id j true with
    | none => rfl
    | some t => exact performOp_opn done

theorem drainAgent_opn (s : State) (i : Fin 8) (agent : Fin 9) : (drainAgent s i agent).cl.opn = s.cl.opn := by
  unfold drainAgent
  generalize List.filter _ _ = l
  induction l generalizing s with
  | nil => rfl
  | cons o l ih => exact (ih _).trans (performAll_opn ..)

theorem afterAcquire_opn (s : State) (agent : Fin 9) : (afterAcquire s agent).cl.opn = s.cl.opn := by
  unfold afterAcquire
  split
  · exact drainAgent_opn ..
  · rfl

theorem beforeSync_opn (s : State) (agent : Fin 9) (l : Loc) (n : Nat) : (beforeSync s agent l n).cl.opn = s.cl.opn := by
  unfold beforeSync
  split
  · exact drainAgent_opn ..
  · rfl

/-- The barrier leaves the bundle open as it was. -/
theorem barrier_opn {s s1 : State} {w : Who} {r y : Word} (h : barrier s w r = .ok (s1, y)) : s1.cl.opn = s.cl.opn := by
  obtain ⟨-, rfl⟩ := barrier_eq_ok h
  exact (congrArg Cluster.opn (State.correctAll_quiet ..).cl).trans (afterAcquire_opn ..)

/-! ### Writes of registers depend on the bank, the time and the slot -/

/-- Writes posted in t are those posted in s: the same bank, cycle and slot. -/
structure SameSlot (s t : State) : Prop where
  bank : t.cl.bank = s.cl.bank
  time : t.cl.time = s.cl.time
  idx : t.opn.idx = s.opn.idx
  sampled : t.opn.sampled = s.opn.sampled

theorem SameSlot.refl (s : State) : SameSlot s s := ⟨rfl, rfl, rfl, rfl⟩

theorem SameSlot.trans {s t u : State} (h : SameSlot s t) (k : SameSlot t u) : SameSlot s u :=
  ⟨k.bank.trans h.bank, k.time.trans h.time, k.idx.trans h.idx, k.sampled.trans h.sampled⟩

theorem SameSlot.of_cl {s t : State} (h : t.cl = s.cl) : SameSlot s t := by
  exact ⟨congrArg Cluster.bank h, congrArg Cluster.time h, congrArg (fun c : Cluster => (c.opn.getD OpenBundle.blank).idx) h,
    congrArg (fun c : Cluster => (c.opn.getD OpenBundle.blank).sampled) h⟩

theorem sameSlot_of_besideTlbs {s t : State} (h : t.besideTlbs = s.besideTlbs) : SameSlot s t :=
  ⟨(congrArg (fun x : State => x.cl.bank) h :), (congrArg (fun x : State => x.cl.time) h :),
    (congrArg (fun x : State => (x.cl.opn.getD OpenBundle.blank).idx) h :), (congrArg (fun x : State => (x.cl.opn.getD OpenBundle.blank).sampled) h :)⟩

section
variable {s t : State} (h : SameSlot s t)
include h

theorem SameSlot.postH (lat : Nat) (r : Fin 16) (v : Word) : SameSlot (s.postH lat r v) (t.postH lat r v) := by
  refine ⟨?_, h.time, h.idx, h.sampled⟩
  change { t.cl.bank with pend := Pending.insert ⟨t.cl.time + lat, .h r v, t.cl.time, t.opn.idx⟩ t.cl.bank.pend } = _
  rw [h.bank, h.time, h.idx]
  rfl

theorem SameSlot.postS (lat : Nat) (r : Fin 32) (v : Word) : SameSlot (s.postS lat r v) (t.postS lat r v) := by
  unfold State.postS
  split
  · exact h
  · refine ⟨?_, h.time, h.idx, h.sampled⟩
    change { t.cl.bank with pend := Pending.insert ⟨t.cl.time + lat, .s r v, t.cl.time, t.opn.idx⟩ t.cl.bank.pend } = _
    rw [h.bank, h.time, h.idx]
    rfl

theorem SameSlot.postCore (k : Fin 8) (lat : Nat) (x : CoreWrite) : SameSlot (s.postCore k lat x) (t.postCore k lat x) := by
  refine ⟨?_, h.time, h.idx, h.sampled⟩
  have core : t.coreTime k = s.coreTime k := by rw [State.coreTime, State.coreTime, h.time, h.sampled]
  unfold State.postCore State.modCoreBank
  rw [core, h.idx, State.modBank_bank, State.modBank_bank, h.bank]

theorem SameSlot.healH (a : Fin 9) (r : Fin 16) (old new : Word) : SameSlot (healH s a r old new) (healH t a r old new) := by
  unfold Machine.healH
  split
  · exact h
  · split
    · exact h.postCore ..
    · exact h.postH ..

end

/-- The state with another running bank. -/
def State.withBank (s : State) (b : Bank) : State := { s with cl := { s.cl with bank := b } }

/-- Healing changes the running bank alone. -/
theorem healH_withBank (s : State) (b : Bank) (a : Fin 9) (r : Fin 16) (old new : Word) :
    healH (s.withBank b) a r old new = s.withBank (healH (s.withBank b) a r old new).cl.bank := by
  unfold healH
  split
  · rfl
  · split <;> rfl

theorem healH_eq_withBank (s : State) (a : Fin 9) (r : Fin 16) (old new : Word) :
    healH s a r old new = s.withBank (healH s a r old new).cl.bank := healH_withBank s s.cl.bank a r old new

theorem healH_ops (s : State) (a : Fin 9) (r : Fin 16) (old new : Word) : (healH s a r old new).cl.bank.ops = s.cl.bank.ops := by
  unfold healH
  split
  · rfl
  · split <;> rfl

/-! ### Where nothing is under way -/

theorem MemoryQuiet.kept {s t : State} (h : MemoryQuiet s) (k : Kept s t) : MemoryQuiet t := by
  obtain ⟨ops, late, bad, soft, untraced⟩ := h
  refine ⟨by rw [k.bank, ops], ?_, k.bad bad, k.soft soft, k.untraced untraced⟩
  rw [State.opn, k.opn]
  exact late

theorem MemoryQuiet.withBank {s : State} {b : Bank} (h : MemoryQuiet s) (hb : b.ops = []) : MemoryQuiet (s.withBank b) := by
  obtain ⟨-, late, bad, soft, untraced⟩ := h
  exact ⟨hb, late, bad, soft, untraced⟩

theorem MemoryQuiet.healH {s : State} (h : MemoryQuiet s) (a : Fin 9) (r : Fin 16) (old new : Word) : MemoryQuiet (healH s a r old new) := by
  rw [healH_eq_withBank]
  exact h.withBank ((healH_ops ..).trans h.1)

theorem MemoryQuiet.sound {s : State} (h : MemoryQuiet s) : s.Sound := ⟨h.2.2.1, h.2.2.2.1⟩

theorem MemoryQuiet.untraced {s : State} (h : MemoryQuiet s) : s.Untraced := h.2.2.2.2

theorem awaiting_of_no_ops {s : State} (h : s.cl.bank.ops = []) (a : Fin 9) : awaiting s a = false := by
  rw [awaiting, State.bank, h]
  rfl

theorem roomFor_of_no_ops {s : State} (h : s.cl.bank.ops = []) (a : Fin 9) : roomFor s a .load = .ok () := by
  refine roomFor_of_lt ?_
  unfold outstanding
  rw [h]
  exact Nat.zero_lt_succ _

/-- A barrier changes nothing there. -/
theorem MemoryQuiet.barrier {s : State} (h : MemoryQuiet s) {w : Who} {r y : Word} (hy : barrierRef s w r = .ok y) : barrier s w r = .ok (s, y) :=
  barrier_of_barrierRef (awaiting_of_no_ops h.1 _) h.sound hy

theorem cohNow_quiet (s : State) (agent : Fin 9) (l : Loc) (n : Nat) (kind : AccKind) : Quiet s (cohNow s agent l n kind) := cohAccess_quiet ..

theorem cohNow_kept {s : State} (h : s.Untraced) (agent : Fin 9) (l : Loc) (n : Nat) (kind : AccKind) : Kept s (cohNow s agent l n kind) := by
  unfold cohNow cohAccess
  split
  · exact .refl s
  · split
    · exact State.readLine_kept (q := ⟨s.cl.id, agent, s.sourceOf agent⟩) h _
    · exact State.ownLine_kept (q := ⟨s.cl.id, agent, s.sourceOf agent⟩) h _
    · exact State.homeLine_kept (q := ⟨s.cl.id, agent, s.sourceOf agent⟩) h _

theorem beforeSync_of_no_ops {s : State} (h : s.cl.bank.ops = []) (agent : Fin 9) (l : Loc) (n : Nat) : beforeSync s agent l n = s := by
  rw [beforeSync, awaiting_of_no_ops h, State.bank, h]
  rfl

theorem ownView_of_quiet {s : State} (h : MemoryQuiet s) (agent : Fin 9) : ownView s agent = s := by
  obtain ⟨ops, late, -⟩ := h
  unfold ownView
  simp only [late, List.filter_nil, List.foldl_nil, State.bank, ops]

/-- A load of main memory that a slot makes at once reads what stands there. -/
theorem loadNow_of_quiet {s : State} (h : MemoryQuiet s) (w : Who) (va : Word) (pa n : Nat) :
    loadNow s w va (.mem pa) n = .ok (cohNow s w.agent (.mem pa) n .load, s.mem.read pa n) := by
  obtain ⟨ops, late, bad, soft, untraced⟩ := id h
  have good : s.badRead (.mem pa) n = false := by
    unfold State.badRead State.badAt
    rw [bad]
    rfl
  unfold loadNow
  simp only [beforeSync_of_no_ops ops, good, Bool.false_eq_true, if_false, State.correctLoc, State.correct_of_no_soft soft, ownRead, ownView_of_quiet h]
  rfl

/-! ### Places found with no walk -/

/-- A place is found in t as in s: the same clusters, TLBs and locked windows, and the same memory and errors. -/
structure SameView (s t : State) : Prop where
  id : t.cl.id = s.cl.id
  parts : ∀ c, (t.clusterAt c).part = (s.clusterAt c).part ∧ (t.clusterAt c).asn = (s.clusterAt c).asn
  tlb : ∀ a, t.cl.tlbOf a = s.cl.tlbOf a
  lock : ∀ a va, lockOf t a va = lockOf s a va
  mem : t.mem = s.mem
  bad : t.badWords = s.badWords
  soft : s.softWords = [] → t.softWords = []

section
variable {s t : State} (h : SameView s t)
include h

theorem SameView.windowLoc (w : Who) (here : ClusterId) (own : Option (Fin 8)) (va : Word) : windowLoc t w here own va = windowLoc s w here own va := by
  unfold Machine.windowLoc
  simp only [h.parts]

theorem SameView.heapOf (va : Word) : heapOf t va = heapOf s va := by
  unfold Machine.heapOf Machine.heapWord
  rw [h.mem]

theorem SameView.chkLeaf (w : Who) (u : Use) (x : Leaf) (va : Word) : chkLeaf t w u x va = chkLeaf s w u x va := by
  have counter (n : Fin 16) : pinCounter t n va = pinCounter s n va := by
    unfold pinCounter heapWord
    rw [h.mem]
  have reads : pinReads t va = pinReads s va := by
    unfold pinReads
    simp only [h.heapOf, counter]
  have pin : Machine.pinned t va = Machine.pinned s va := by
    unfold Machine.pinned
    simp only [h.heapOf, counter, h.mem]
  have bad (ws : List Nat) : t.badAmong ws = s.badAmong ws := by
    unfold State.badAmong State.badAt
    rw [h.bad]
  unfold Machine.chkLeaf
  simp only [reads, pin, bad]

/-- An access reaches the same place. -/
theorem SameView.reaches {w : Who} {u : Use} {va : Word} {n : Nat} {l : Loc} (hr : Reaches s w u va n l) : Reaches t w u va n l := by
  rcases hr with ⟨hw, hl⟩ | ⟨hw, x, pa, held, check, place, hl, soft⟩
  · exact .inl ⟨hw, by rw [h.windowLoc, h.id, hl]⟩
  · refine .inr ⟨hw, x, pa, ?_, (h.chkLeaf ..).trans check, place, hl, fun hp => h.soft (soft hp)⟩
    rw [heldLeaf, h.lock, h.tlb]
    exact held

end

theorem sameView_of_kept {s t : State} (h : Kept s t) (hc : t.cl = s.cl) (hb : s.badWords = []) : SameView s t := by
  have others : t.others = s.others := (congrArg (fun x : State => x.others) h.beside :)
  have at_ (c : ClusterId) : t.clusterAt c = s.clusterAt c := by
    unfold State.clusterAt
    rw [hc, others]
  exact ⟨by rw [hc], fun c => by rw [at_]; exact ⟨rfl, rfl⟩, fun a => by rw [hc], fun a va => by unfold lockOf; rw [hc], h.mem, (h.bad hb).trans hb.symm,
    h.soft⟩

theorem sameView_withBank {s : State} {b : Bank} (hl : ∀ j : Fin 8, (b.cores[j.val]).lock = (s.cl.bank.cores[j.val]).lock) : SameView s (s.withBank b) := by
  refine ⟨rfl, fun c => ?_, fun a => rfl, fun a va => ?_, rfl, rfl, id⟩
  · unfold State.clusterAt
    change (if s.cl.id = c then _ else _ : Cluster).part = _ ∧ (if s.cl.id = c then _ else _ : Cluster).asn = _
    split <;> exact ⟨rfl, rfl⟩
  · unfold lockOf
    split
    next ha =>
      have lock := hl ⟨a.val, ha⟩
      change (((b.cores[a.val]).lock.toList.filterMap id).find? _) = _
      rw [show (b.cores[a.val]).lock = (s.cl.bank.cores[a.val]).lock from lock]
    next => rfl

theorem SameView.trans {s t u : State} (h : SameView s t) (k : SameView t u) : SameView s u :=
  ⟨k.id.trans h.id, fun c => ⟨(k.parts c).1.trans (h.parts c).1, (k.parts c).2.trans (h.parts c).2⟩, fun a => (k.tlb a).trans (h.tlb a),
    fun a va => (k.lock a va).trans (h.lock a va), k.mem.trans h.mem, k.bad.trans h.bad, fun x => k.soft (h.soft x)⟩

/-! ### The place of a field (R105, R106, R108) -/

theorem addDisp_refAddr (ref : Word) (off : Int) : addDisp (BitVec.ofNat 64 (refAddr ref)) off = toWord (refAddr ref + off) := by
  have small := refAddr_lt ref
  rw [addDisp, BitVec.toNat_ofNat, Nat.mod_eq_of_lt (by omega)]

theorem not_window_of_lt {va : Word} (h : va.toNat < 2 ^ 56) : isWindow va = false := by
  rw [isWindow, BitVec.getLsbD, Nat.testBit_lt_two_pow h]

section
variable {s s1 : State} {w : Who} {u : Use} {ref : Word} {off : Int} {n : Nat} {l : Loc}

theorem heapPlace_of_locate (h0 : 0 ≤ off) (ha : (toWord (refAddr ref + off)).toNat % n = 0) (hf : (toWord (refAddr ref + off)).toNat < 2 ^ 56)
    (hl : locate s w { u with href := true } (toWord (refAddr ref + off)) n = .ok (s1, l)) :
    heapPlace s w u ref off n = .ok (s1, toWord (refAddr ref + off), l) := by
  have form : chkForm w (toWord (refAddr ref + off)) = .ok () := chkForm_of_lt (Nat.lt_trans hf (by norm_num))
  unfold heapPlace
  simp only [if_neg (Int.not_lt.mpr h0), addDisp_refAddr, chkAlign_of_aligned ha, form, not_window_of_lt hf, Bool.false_eq_true, if_false, hl]
  rfl

theorem heapPlace_of_negative (h : off < 0) : heapPlace s w u ref off n = .error (.trap 0x05 (toWord off) w.agent) := if_pos h

end

/-- Where a reference's field lies: beside an object, or at a raw address (R108, R109). -/
def fieldAddr (m : Bool) (ref raw : Word) (off : Int) : Word := toWord ((if m then refAddr ref else raw.toNat : Nat) + off)

/-- The place of a field, and the base healed. -/
theorem refPlace_of_locate {s s0 s1 : State} {w : Who} {u : Use} {m : Bool} {b : Fin 16} {ref raw : Word} {off : Int} {l : Loc} (hu : u.href = false)
    (hb : if m then barrier s w (readH s w.agent b) = .ok (s0, ref) else s0 = s)
    (h0 : m = true → 0 ≤ off ∧ (fieldAddr m ref raw off).toNat < 2 ^ 56) (ha : (fieldAddr m ref raw off).toNat % 8 = 0)
    (hf : (fieldAddr m ref raw off).toNat < 2 ^ 57) (hl : locate s0 w { u with href := m } (fieldAddr m ref raw off) 8 = .ok (s1, l)) :
    refPlace s w u (if m then some b else none) raw off =
      .ok (if m then healH s1 w.agent b (readH s w.agent b) ref else s1, fieldAddr m ref raw off, l) := by
  cases m with
  | true =>
    obtain ⟨pos, form⟩ := h0 rfl
    unfold refPlace
    simp only [if_true] at hb ⊢
    rw [hb]
    have place : heapPlace s0 w u ref off 8 = _ := heapPlace_of_locate pos ha form hl
    simp only [bind, Except.bind, place]
    rfl
  | false =>
    have raws : { u with href := false } = u := by rw [← hu]
    change s0 = s at hb
    subst hb
    rw [raws] at hl
    unfold refPlace
    simp only [Bool.false_eq_true, if_false]
    have ea : addDisp raw off = fieldAddr false ref raw off := rfl
    rw [ea, chkAlign_of_aligned ha, chkForm_of_lt hf, hl]
    rfl

end Sys2Proof.Machine
end

section
/-!
SUPPORT. Heap accesses as the sequencer and the cores issue them (R105, R106, R109).
-/

namespace Sys2Proof.Machine

/-! ### Of the sequencer -/

/-- A field of n bits, sign-extended, is not below -2^(n-1). -/
theorem sextNat_ge (n x : Nat) : -(2 ^ n : Nat) ≤ sextNat n x := by
  have pos : 0 < 2 ^ n := Nat.two_pow_pos n
  unfold sextNat
  simp only
  split <;> omega

theorem extImm_ge (s : State) (imm : Nat) : -(2 ^ 22 : Nat) ≤ s.extImm 6 imm := by
  unfold State.extImm
  split
  · exact sextNat_ge ..
  · exact le_trans (by norm_num) (sextNat_ge 6 imm)

/-- A trap whose TVAL is no address is taken as the state stands. -/
theorem outcome_trap_of_form {s : State} {c : BitVec 8} {v : Word} (a : Fin 9) (hv : bits v 63 57 ≠ 0) :
    outcome s (.error (.trap c v a)) = .next (takeTrap s c v a) := by
  have walk : s.noteWalk (s.who a) c v = s := by
    unfold State.noteWalk
    rw [if_pos (by simp [hv])]
  unfold outcome
  simp only [walk, ite_self]

/-- A small negative number is no address. -/
theorem form_of_negative {i : Int} (h : i < 0) (hl : -(2 ^ 56 : Nat) ≤ i) : bits (toWord i) 63 57 ≠ 0 := by
  have value : (toWord i).toNat = (i + (2 ^ 64 : Nat)).toNat := by
    rw [toWord, BitVec.toNat_ofInt, ← Int.emod_eq_of_lt (a := i + (2 ^ 64 : Nat)) (b := (2 ^ 64 : Nat)) (by omega) (by omega), Int.add_emod_right]
  rw [bits, value]
  omega

section
variable {s s0 s1 : State} {w : Who} {b : Fin 16} {v ref : Word} {off : Int} {n : Nat} {l : Loc}

/-- A heap access is issued through the reference that the barrier answers, with the base healed. -/
theorem heapLoad_eq (hr : roomFor s w.agent .load = .ok ()) (hb : barrier s w v = .ok (s0, ref)) (h0 : 0 ≤ off)
    (ha : (toWord (refAddr ref + off)).toNat % n = 0) (hf : (toWord (refAddr ref + off)).toNat < 2 ^ 56)
    (hl : locate s0 w { href := true } (toWord (refAddr ref + off)) n = .ok (s1, l)) (dest : Dest) :
    heapLoad s w b v off n dest = .ok (issueOp (healH s1 w.agent b v ref) w.agent .load s.ordAcq s.ordRel dest
      [{ va := toWord (refAddr ref + off), loc := l, size := n, kind := .load }]) := by
  have place : heapPlace s0 w {} ref off n = _ := heapPlace_of_locate h0 ha hf hl
  unfold heapLoad
  simp only [hr, hb, place, bind, Except.bind]

@[inherit_doc heapLoad_eq]
theorem heapStore_eq (hr : roomFor s w.agent .store = .ok ()) (hb : barrier s w v = .ok (s0, ref)) (h0 : 0 ≤ off)
    (ha : (toWord (refAddr ref + off)).toNat % n = 0) (hf : (toWord (refAddr ref + off)).toNat < 2 ^ 56)
    (hl : locate s0 w { write := true, href := true } (toWord (refAddr ref + off)) n = .ok (s1, l)) (x : Word) :
    heapStore s w b v off n x = .ok (issueOp (healH s1 w.agent b v ref) w.agent .store s.ordAcq s.ordRel .none
      [{ va := toWord (refAddr ref + off), loc := l, size := n, kind := .store x }]) := by
  have place : heapPlace s0 w { write := true } ref off n = _ := heapPlace_of_locate h0 ha hf hl
  unfold heapStore
  simp only [hr, hb, place, bind, Except.bind]

theorem heapLoad_of_negative (hr : roomFor s w.agent .load = .ok ()) (hb : barrier s w v = .ok (s0, ref)) (h : off < 0) (dest : Dest) :
    heapLoad s w b v off n dest = .error (.trap 0x05 (toWord off) w.agent) := by
  unfold heapLoad
  simp only [hr, hb, heapPlace_of_negative h, bind, Except.bind]

theorem heapStore_of_negative (hr : roomFor s w.agent .store = .ok ()) (hb : barrier s w v = .ok (s0, ref)) (h : off < 0) (x : Word) :
    heapStore s w b v off n x = .error (.trap 0x05 (toWord off) w.agent) := by
  unfold heapStore
  simp only [hr, hb, heapPlace_of_negative h, bind, Except.bind]

/-- STREF and CSTREF issue the store of the reference that the barrier answers, or of a null one (R109). -/
theorem storeRef_eq {r : Fin 16} {hbase : Option (Fin 16)} {raw y ea : Word} (hr : roomFor s w.agent .store = .ok ())
    (hy : if refKind (readH s w.agent r) = 0 then y = readH s w.agent r ∧ s0 = s else barrier s w (readH s w.agent r) = .ok (s0, y))
    (hp : refPlace s0 w { write := true } hbase raw off = .ok (s1, ea, l)) :
    storeRef s w r hbase raw off = .ok (issueOp (healH s1 w.agent r (readH s w.agent r) y) w.agent .store s.ordAcq s.ordRel .none
      [{ va := ea, loc := l, size := 8, kind := .store y }]) := by
  unfold storeRef
  split at hy
  next null =>
    obtain ⟨rfl, rfl⟩ := hy
    simp only [hr, null, if_true, hp, bind, Except.bind]
  next live => simp only [hr, live, if_false, hy, hp, bind, Except.bind]

end

theorem SameSlot.healBank {s t : State} (h : SameSlot s t) (a : Fin 9) (r : Fin 16) (old new : Word) :
    (Machine.healH t a r old new).cl.bank = (Machine.healH s a r old new).cl.bank := (h.healH a r old new).bank

/-- An access of the sequencer that is issued once registers have been healed. -/
theorem sequencerIssuesFrom_of_eq {i : Instr} {s s0 s1 : State} {w : Who} {u : Use} {va : Word} {n : Nat} {l : Loc} {b : Bank} {cls : WaitClass}
    {dest : Dest} {a : Access} (hl : locate s0 w u va n = .ok (s1, l))
    (h : exec i s = .next (issueOp (s1.withBank b) 8 cls s.ordAcq s.ordRel dest [a])) : SequencerIssuesFrom i s s0 s1 b cls dest a := by
  obtain ⟨o, eq, sig⟩ := issueOp_eq (s := s1.withBank b) rfl 8 cls s.ordAcq s.ordRel dest a
  exact ⟨_, o, h.trans (congrArg _ eq), fun hu => (locate_mem hu hl : s1.mem = s0.mem), rfl, sig⟩

/-- The bank of the sequencer once h_r has been healed. -/
theorem healH_seq_bank (s : State) (r : Fin 16) (old new : Word) :
    (healH s 8 r old new).cl.bank = if old = new then s.cl.bank else (s.postH 1 r new).cl.bank := by
  rw [healH_seq]
  split <;> rfl

/-- HLD and HST. -/
theorem sequencerIssuesFrom_of_heal {i : Instr} {s s0 s1 : State} {u : Use} {va : Word} {n : Nat} {l : Loc} {h : Fin 16} {ref : Word} {cls : WaitClass}
    {dest : Dest} {a : Access} (hl : locate s0 s.seqWho u va n = .ok (s1, l))
    (he : exec i s = .next (issueOp (healH s1 8 h (s.rh h) ref) 8 cls s.ordAcq s.ordRel dest [a])) :
    SequencerIssuesFrom i s s0 s1 (if s.rh h = ref then s0.cl.bank else (s0.postH 1 h ref).cl.bank) cls dest a := by
  refine sequencerIssuesFrom_of_eq hl (he.trans ?_)
  rw [healH_eq_withBank, (sameSlot_of_besideTlbs (locate_besideTlbs hl)).healBank, healH_seq_bank]

/-- A base register is healed where it is one. -/
def healBase (m : Bool) (s : State) (a : Fin 9) (r : Fin 16) (old new : Word) : State := if m then healH s a r old new else s

theorem SameSlot.healBase {s t : State} (h : SameSlot s t) (m : Bool) (a : Fin 9) (r : Fin 16) (old new : Word) :
    SameSlot (Machine.healBase m s a r old new) (Machine.healBase m t a r old new) := by
  cases m with
  | true => exact h.healH a r old new
  | false => exact h

theorem healBase_eq_withBank (m : Bool) (s : State) (a : Fin 9) (r : Fin 16) (old new : Word) :
    healBase m s a r old new = s.withBank (healBase m s a r old new).cl.bank := by
  cases m with
  | true => exact healH_eq_withBank s a r old new
  | false => rfl

theorem healBase_seq (m : Bool) (s : State) (r : Fin 16) (old new : Word) :
    healBase m s 8 r old new = if m = true ∧ old ≠ new then s.postH 1 r new else s := by
  cases m with
  | true =>
    rw [healBase, if_pos rfl, healH_seq]
    by_cases h : old = new <;> simp [h]
  | false => simp [healBase]

/-! ### Of the cores -/

/-- The state in the midst of a slot that issues an operation in each core: `new` are the operations of those that are done, cs the banks of the cores
with the writes that those have posted. -/
def State.amid (s : State) (n : Nat) (new : List MemOp) (cs : Vector CoreBank 8) : State := (s.issuing n new).withCores cs

/-- The cores have the locked windows of s. -/
def SameLocks (s : State) (cs : Vector CoreBank 8) : Prop := ∀ j : Fin 8, (cs[j.val]).lock = (s.cl.bank.cores[j.val]).lock

theorem sameLocks_changeCores (s : State) (lat : Nat) (w : Fin 8 → List CoreWrite) {done : List (Fin 8)} (hd : done.Nodup) :
    SameLocks s (changeCores s.enabled (s.postTimedList lat w) done s.cl.bank.cores) := by
  intro j
  rw [changeCores_getElem _ _ hd]
  split <;> rfl

section
variable {s : State} {n : Nat} {new : List MemOp} {cs : Vector CoreBank 8}

theorem sameView_amid (hc : SameLocks s cs) : SameView s (s.amid n new cs) :=
  have first : SameView s (s.issuing n new) := ⟨rfl, shareSize_clusterAt_issuing s n new, fun _ => rfl, fun _ _ => rfl, rfl, rfl, id⟩
  first.trans (sameView_withBank hc)

theorem awaiting_amid {a : Fin 9} (hn : ∀ o ∈ new, o.agent ≠ a) (h : awaiting s a = false) : awaiting (s.amid n new cs) a = false := by
  change (s.cl.bank.ops ++ new).any _ = false
  rw [List.any_append, Bool.or_eq_false_iff]
  exact ⟨h, List.any_eq_false.mpr fun o ho => by simp [hn o ho]⟩

section
variable (hu : Unhindered s) {k : Fin 8} (hn : ∀ o ∈ new, o.agent ≠ (coreWho s k).agent)
include hu hn

theorem barrier_amid {v y : Word} (hy : barrierRef s (coreWho s k) v = .ok y) : barrier (s.amid n new cs) (coreWho s k) v = .ok (s.amid n new cs, y) := by
  obtain ⟨acquired, bad, soft⟩ := hu
  have heaps : SameHeaps s (s.amid n new cs) := ⟨rfl, rfl, rfl⟩
  exact barrier_of_barrierRef (awaiting_amid hn (acquired _)) ⟨bad, soft⟩ ((heaps.barrierRef ..).trans hy)

end

/-- The writes that a core posts amid the others. -/
theorem postCoreList_amid (k : Fin 8) (lat : Nat) (ws : List CoreWrite) :
    (s.amid n new cs).postCoreList k lat ws = s.amid n new (cs.set k.val (s.postTimedList lat (fun _ => ws) k cs[k.val]) k.isLt) :=
  State.postCoreList_withCores (s.issuing n new) cs k lat ws

theorem issueOp_amid (agent : Fin 9) (cls : WaitClass) (acq rel : Bool) (dest : Dest) (a : Access) :
    ∃ o, issueOp (s.amid n new cs) agent cls acq rel dest [a] = s.amid (n + 1) (new ++ [o]) cs ∧ o.sig = (agent, cls, acq, rel, dest, [a]) :=
  issueOp_issuing (s.withCores cs) n new agent cls acq rel dest a

theorem readH_amid (k : Fin 8) (r : Fin 16) : readH (s.amid n new cs) (coreWho s k).agent r = s.rch k r := readH_core s _ k r

end

/-- Where the slot stands when the cores of a list are done: each enabled one has issued its operation, and posted its writes. -/
def IssuedAmid (s : State) (w : Fin 8 → List CoreWrite) (sig : Fin 8 → WaitClass × Bool × Bool × Dest × List Access) (done : List (Fin 8)) (t : State) :
    Prop :=
  ∃ n new, t = s.amid n new (changeCores s.enabled (s.postTimedList 1 w) done s.cl.bank.cores) ∧
    new.map MemOp.sig = (done.filter fun k => s.enabled k).map fun k => ((coreWho s k).agent, sig k)

section
variable {s : State} {w : Fin 8 → List CoreWrite} {sig : Fin 8 → WaitClass × Bool × Bool × Dest × List Access} {done : List (Fin 8)} {k : Fin 8}

theorem issuedAmid_skip {t : State} (he : s.enabled k = false) (h : IssuedAmid s w sig done t) : IssuedAmid s w sig (done ++ [k]) t := by
  obtain ⟨n, new, eq, sigs⟩ := h
  refine ⟨n, new, ?_, ?_⟩
  · rw [changeCores_append, he]
    exact eq
  · rw [List.filter_append, List.filter_cons, he, sigs]
    simp

/-- The operations that are under way are of the cores that are done. -/
theorem agent_ne_of_sigs {new : List MemOp} (hk : k ∉ done)
    (h : new.map MemOp.sig = (done.filter fun k => s.enabled k).map fun k => ((coreWho s k).agent, sig k)) : ∀ o ∈ new, o.agent ≠ (coreWho s k).agent := by
  intro o ho eq
  have mem : o.sig ∈ (done.filter fun k => s.enabled k).map fun k => ((coreWho s k).agent, sig k) := h ▸ List.mem_map_of_mem ho
  obtain ⟨j, hj, hsig⟩ := List.mem_map.mp mem
  have agent : (coreWho s j).agent = (coreWho s k).agent := (congrArg Prod.fst hsig).trans eq
  have val : j.val = k.val := congrArg (fun x : Fin 9 => x.val) agent
  exact hk (Fin.ext val ▸ (List.mem_filter.mp hj).1)

end

/-- A slot that issues one operation in each enabled core, once that core has posted its writes. -/
theorem coresIssueFrom_of_eachCore {i : Instr} {s : State} {f : Fin 8 → State → Eff State} {w : Fin 8 → List CoreWrite} {cls : WaitClass} {dest : Dest}
    {a : Fin 8 → Access} (h : exec i s = outcome s (eachCore f s))
    (hf : ∀ k n new cs, s.enabled k = true → (∀ o ∈ new, o.agent ≠ (coreWho s k).agent) → SameLocks s cs →
      f k (s.amid n new cs) = .ok (issueOp ((s.amid n new cs).postCoreList k 1 (w k)) (coreWho s k).agent cls s.ordAcq s.ordRel dest [a k])) :
    CoresIssueFrom i s (eachCore' (fun k t => t.postCoreList k 1 (w k)) s).cl.bank cls dest a := by
  obtain ⟨_, run, n, new, rfl, sigs⟩ := eachCore_induction (s := s) (f := f)
    (P := IssuedAmid s w fun k => (cls, s.ordAcq, s.ordRel, dest, [a k]))
    (fun ⟨_, _, eq, _⟩ => eq ▸ rfl) (fun _ he ht => issuedAmid_skip he ht)
    (fun {done k rest t} hall he ⟨n, new, eq, sigs⟩ => by
      have distinct : (done ++ k :: rest).Nodup := hall ▸ List.nodup_finRange 8
      have agents := agent_ne_of_sigs (notMem_done hall) sigs
      subst eq
      refine ⟨_, hf k n new _ he agents (sameLocks_changeCores s 1 w distinct.of_append_left), ?_⟩
      rw [postCoreList_amid]
      obtain ⟨o, eq, hsig⟩ := issueOp_amid (s := s) (n := n) (new := new)
        (cs := (changeCores s.enabled (s.postTimedList 1 w) done s.cl.bank.cores).set k.val
          (s.postTimedList 1 (fun _ => w k) k (changeCores s.enabled (s.postTimedList 1 w) done s.cl.bank.cores)[k.val]) k.isLt)
        (coreWho s k).agent cls s.ordAcq s.ordRel dest (a k)
      refine ⟨n + 1, new ++ [o], ?_, ?_⟩
      · rw [eq, changeCores_append, if_pos he]
        rfl
      · rw [List.map_append, sigs, List.filter_append, List.filter_cons, if_pos he, List.map_append, List.map_singleton, hsig]
        rfl)
    ⟨s.cl.nextOp, [], by rw [State.amid, State.issuing, List.append_nil]; rfl, rfl⟩
  refine ⟨_, new, h.trans (congrArg (outcome s) run), ?_, sigs⟩
  rw [eachCore'_postCoreList]
  rfl

/-! ### Heap accesses of the cores -/

section
variable {s : State} (hu : Unhindered s) {k : Fin 8} (he : s.enabled k = true) {new : List MemOp} (hn : ∀ o ∈ new, o.agent ≠ (coreWho s k).agent)
  {cs : Vector CoreBank 8} (hc : SameLocks s cs) (n : Nat) {size : Nat} {l : Fin 8 → Loc}
include he hn

theorem roomFor_amid {cls : WaitClass} {u : Use} {ea : Fin 8 → Word} (h : CoresReach s cls u ea size l) :
    roomFor (s.amid n new cs) (coreWho s k).agent cls = .ok () := roomFor_issuing h he hn n

include hu hc

theorem heapLoad_amid {h : Fin 16} {ref : Fin 8 → Word} {off : Int} (h0 : 0 ≤ off) (hb : barrierRef s (coreWho s k) (s.rch k h) = .ok (ref k))
    (hf : (toWord (refAddr (ref k) + off)).toNat < 2 ^ 56) (hr : CoresReach s .load { href := true } (fun k => toWord (refAddr (ref k) + off)) size l)
    (dest : Dest) :
    heapLoad (s.amid n new cs) (coreWho s k) h (s.rch k h) off size dest =
      .ok (issueOp ((s.amid n new cs).postCoreList k 1 (healWrites h (s.rch k h) (ref k))) (coreWho s k).agent .load s.ordAcq s.ordRel dest
        [{ va := toWord (refAddr (ref k) + off), loc := l k, size := size, kind := .load }]) := by
  obtain ⟨-, align, -, reach⟩ := hr k he
  rw [heapLoad_eq (roomFor_amid he hn n hr) (barrier_amid hu hn hb) h0 align hf (locate_of_reaches ((sameView_amid hc).reaches reach)), healH_core]
  rfl

theorem heapStore_amid {h : Fin 16} {ref : Fin 8 → Word} {off : Int} (h0 : 0 ≤ off) (hb : barrierRef s (coreWho s k) (s.rch k h) = .ok (ref k))
    (hf : (toWord (refAddr (ref k) + off)).toNat < 2 ^ 56)
    (hr : CoresReach s .store { write := true, href := true } (fun k => toWord (refAddr (ref k) + off)) size l) (x : Word) :
    heapStore (s.amid n new cs) (coreWho s k) h (s.rch k h) off size x =
      .ok (issueOp ((s.amid n new cs).postCoreList k 1 (healWrites h (s.rch k h) (ref k))) (coreWho s k).agent .store s.ordAcq s.ordRel .none
        [{ va := toWord (refAddr (ref k) + off), loc := l k, size := size, kind := .store x }]) := by
  obtain ⟨-, align, -, reach⟩ := hr k he
  rw [heapStore_eq (roomFor_amid he hn n hr) (barrier_amid hu hn hb) h0 align hf (locate_of_reaches ((sameView_amid hc).reaches reach)), healH_core]
  rfl

end

/-- The writes that heal a base register where it is one. -/
def baseWrites (m : Bool) (r : Fin 16) (old new : Word) : List CoreWrite := if m then healWrites r old new else []

theorem healBase_core (m : Bool) (s t : State) (k : Fin 8) (r : Fin 16) (old new : Word) :
    healBase m t (coreWho s k).agent r old new = t.postCoreList k 1 (baseWrites m r old new) := by
  cases m with
  | true => exact healH_core s t k r old new
  | false => rfl

theorem postCoreList_baseWrites (m : Bool) (t : State) (k : Fin 8) (r : Fin 16) (old new : Word) :
    t.postCoreList k 1 (baseWrites m r old new) = if m = true ∧ old ≠ new then t.postCore k 1 (.h r new) else t := by
  cases m with
  | true =>
    rw [baseWrites, if_pos rfl, healWrites]
    by_cases h : old = new <;> simp [h, State.postCoreList]
  | false => simp [baseWrites, State.postCoreList]

/-! ### References stored by the cores -/

section
variable {s : State} (hu : Unhindered s) {k : Fin 8} (he : s.enabled k = true) {new : List MemOp} (hn : ∀ o ∈ new, o.agent ≠ (coreWho s k).agent)
  {cs : Vector CoreBank 8} (hc : SameLocks s cs) (n : Nat)
include hu he hn hc

theorem storeRef_amid {d b : Fin 16} {m : Bool} {raw ref : Fin 8 → Word} {y : Word} {off : Int} {l : Fin 8 → Loc}
    (hb : m = true → barrierRef s (coreWho s k) (s.rch k b) = .ok (ref k) ∧ 0 ≤ off ∧ (fieldAddr m (ref k) (raw k) off).toNat < 2 ^ 56)
    (hr : CoresReach s .store { write := true, href := m } (fun k => fieldAddr m (ref k) (raw k) off) 8 l)
    (hy : if refKind (s.rch k d) = 0 then y = s.rch k d else barrierRef s (coreWho s k) (s.rch k d) = .ok y) :
    storeRef (s.amid n new cs) (coreWho s k) d (if m then some b else none) (raw k) off =
      .ok (issueOp ((s.amid n new cs).postCoreList k 1 (baseWrites m b (s.rch k b) (ref k) ++ healWrites d (s.rch k d) y)) (coreWho s k).agent .store
        s.ordAcq s.ordRel .none [{ va := fieldAddr m (ref k) (raw k) off, loc := l k, size := 8, kind := .store y }]) := by
  obtain ⟨-, align, form, reach⟩ := hr k he
  have reads (r : Fin 16) : readH (s.amid n new cs) (coreWho s k).agent r = s.rch k r := readH_amid k r
  have place := refPlace_of_locate (s := s.amid n new cs) (s0 := s.amid n new cs) (w := coreWho s k) (u := { write := true }) (m := m) (b := b)
    (ref := ref k) (raw := raw k) (off := off) rfl
    (by cases m with | true => rw [reads]; exact barrier_amid hu hn (hb rfl).1 | false => rfl) (fun hm => (hb hm).2) align form
    (locate_of_reaches ((sameView_amid hc).reaches reach))
  have stored := storeRef_eq (s0 := s.amid n new cs) (r := d) (y := y) (roomFor_amid he hn n hr)
    (by
      rw [reads]
      split at hy
      next null =>
        rw [if_pos null]
        exact ⟨hy, rfl⟩
      next live =>
        rw [if_neg live]
        exact barrier_amid hu hn hy) place
  rw [stored, reads, reads, State.postCoreList_append, ← healBase_core, ← healH_core]
  rfl

end

end Sys2Proof.Machine
end

section
/-!
SUPPORT. References loaded by a slot (R108): the load at once, and the write-back as the bundle commits.
-/

namespace Sys2Proof.Machine

/-! ### States that differ in the directory alone -/

/-- The state t is s but for the directory, the blocks of the dies and corrected errors. -/
structure Like (s t : State) : Prop extends Kept s t where
  cl : t.cl = s.cl

theorem Like.refl (s : State) : Like s s := ⟨.refl s, rfl⟩

theorem Like.trans {s t u : State} (h : Like s t) (k : Like t u) : Like s u := ⟨h.toKept.trans k.toKept, k.cl.trans h.cl⟩

theorem Kept.withBank {s t : State} (h : Kept s t) (b : Bank) : Kept (s.withBank b) (t.withBank b) :=
  ⟨⟨congrArg (fun x : State => x.withBank b) h.beside, h.bad, h.soft, h.dies, h.lines⟩, h.mem⟩

/-- A slot writes an h register of its agent with latency 1. -/
def putRef (s : State) (a : Fin 9) (d : Fin 16) (v : Word) : State :=
  match coreOf a with
  | some k => s.postCore k 1 (.h d v)
  | none => s.postH 1 d v

theorem putRef_core (s t : State) (k : Fin 8) (d : Fin 16) (v : Word) : putRef t (coreWho s k).agent d v = t.postCore k 1 (.h d v) := by
  rw [putRef, coreOf_coreWho]

theorem putRef_eq_withBank (s : State) (a : Fin 9) (d : Fin 16) (v : Word) : putRef s a d v = s.withBank (putRef s a d v).cl.bank := by
  unfold putRef
  split <;> rfl

theorem putRef_opn (s : State) (a : Fin 9) (d : Fin 16) (v : Word) : (putRef s a d v).cl.opn = s.cl.opn := by
  rw [putRef_eq_withBank]
  rfl

theorem putRef_ops (s : State) (a : Fin 9) (d : Fin 16) (v : Word) : (putRef s a d v).cl.bank.ops = s.cl.bank.ops := by
  unfold putRef
  split <;> rfl

theorem SameSlot.putRef {s t : State} (h : SameSlot s t) (a : Fin 9) (d : Fin 16) (v : Word) : SameSlot (putRef s a d v) (putRef t a d v) := by
  unfold Machine.putRef
  split
  · exact h.postCore ..
  · exact h.postH ..

section
variable {s t : State} (h : Like s t)
include h

theorem Like.putRef (a : Fin 9) (d : Fin 16) (v : Word) : Like (putRef s a d v) (putRef t a d v) := by
  rw [putRef_eq_withBank s, putRef_eq_withBank t, ((SameSlot.of_cl h.cl).putRef a d v).bank]
  exact ⟨h.toKept.withBank _, congrArg (fun c : Cluster => { c with bank := (Machine.putRef s a d v).cl.bank }) h.cl⟩

theorem Like.healBase (m : Bool) (a : Fin 9) (r : Fin 16) (old new : Word) : Like (healBase m s a r old new) (healBase m t a r old new) := by
  rw [healBase_eq_withBank m s, healBase_eq_withBank m t, ((SameSlot.of_cl h.cl).healBase m a r old new).bank]
  exact ⟨h.toKept.withBank _, congrArg (fun c : Cluster => { c with bank := (Machine.healBase m s a r old new).cl.bank }) h.cl⟩

theorem Like.sourceOf (a : Fin 9) : t.sourceOf a = s.sourceOf a := by
  simp only [State.sourceOf, h.now, State.asn, State.opn, State.bankNo, h.cl]

theorem Like.putLate (a : Fin 9) (l : Loc) (act : LateAct) : Like (s.putLate a l act) (t.putLate a l act) := by
  have opn : t.opn = s.opn := by rw [State.opn, State.opn, h.cl]
  unfold State.putLate
  rw [h.sourceOf, opn, h.cl]
  refine ⟨⟨⟨?_, h.bad, h.soft, h.dies, h.lines⟩, h.mem⟩, ?_⟩
  · exact congrArg (fun x : State => x.modOpn fun o => { o with late := o.late ++ [⟨s.cl.nextOp, a, l, act, s.opn.fence, s.sourceOf a⟩] }) h.beside
  · rw [State.modOpn, State.modOpn, h.cl]

end

/-- A write that waits for the commit is no write of a register. -/
theorem putLate_slot (s : State) (a : Fin 9) (l : Loc) (act : LateAct) : SameSlot s (s.putLate a l act) := by
  have opn {α : Type} (f : OpenBundle → α) (hf : ∀ o late, f { o with late := late } = f o) : f (s.putLate a l act).opn = f s.opn := by
    unfold State.putLate State.modOpn State.opn
    cases s.cl.opn with
    | none => rfl
    | some o => exact hf o _
  exact ⟨rfl, rfl, opn OpenBundle.idx fun _ _ => rfl, opn OpenBundle.sampled fun _ _ => rfl⟩

theorem cohNow_like {s : State} (h : s.Untraced) (agent : Fin 9) (l : Loc) (n : Nat) (kind : AccKind) : Like s (cohNow s agent l n kind) :=
  ⟨cohNow_kept h agent l n kind, (cohNow_quiet s agent l n kind).cl⟩

/-! ### The load -/

section
variable {s s1 : State} {w : Who} {d : Fin 16} {hbase : Option (Fin 16)} {raw ea : Word} {off : Int} {pa : Nat} (hr : roomFor s w.agent .load = .ok ())
  (hp : refPlace s w {} hbase raw off = .ok (s1, ea, .mem pa)) (hq : MemoryQuiet s1)
include hr hp hq

/-- A null or current reference is loaded as it is. -/
theorem loadRef_of_current (hv : refKind (s1.mem.word pa) = 0 ∨ barrierRef s1 w (s1.mem.word pa) = .ok (s1.mem.word pa)) :
    ∃ t, loadRef s w d hbase raw off = .ok t ∧ Like (putRef s1 w.agent d (s1.mem.word pa)) t := by
  have read := cohNow_like hq.untraced w.agent (.mem pa) 8 .load
  refine ⟨_, ?_, read.putRef w.agent d (s1.mem.word pa)⟩
  have word : BitVec.ofNat 64 (s1.mem.read pa 8) = s1.mem.word pa := rfl
  unfold loadRef
  simp only [hr, hp, loadNow_of_quiet hq w ea pa 8, word, bind, Except.bind]
  split
  next => rfl
  next live =>
    have current := (read.toKept.sameHeaps.barrierRef ..).trans (hv.resolve_left live)
    rw [(hq.kept read.toKept).barrier current]
    simp only [ne_eq, not_true, if_false]
    rfl

/-- A stale reference is loaded as the barrier answers, and written back as the bundle commits. -/
theorem loadRef_of_stale {y : Word} (hk : refKind (s1.mem.word pa) ≠ 0) (hy : barrierRef s1 w (s1.mem.word pa) = .ok y) (hne : y ≠ s1.mem.word pa)
    (hw : Reaches s1 w { write := true, href := hbase.isSome } ea 8 (.mem pa)) :
    ∃ t, loadRef s w d hbase raw off = .ok t ∧ Like (putRef (s1.putLate w.agent (.mem pa) (.swap (s1.mem.word pa) y)) w.agent d y) t := by
  have read := cohNow_like hq.untraced w.agent (.mem pa) 8 .load
  refine ⟨_, ?_, (read.putLate w.agent (.mem pa) (.swap (s1.mem.word pa) y)).putRef w.agent d y⟩
  have word : BitVec.ofNat 64 (s1.mem.read pa 8) = s1.mem.word pa := rfl
  have found := locate_of_reaches ((sameView_of_kept read.toKept read.cl hq.sound.1).reaches hw)
  have answer := (hq.kept read.toKept).barrier ((read.toKept.sameHeaps.barrierRef ..).trans hy)
  unfold loadRef
  simp only [hr, hp, loadNow_of_quiet hq w ea pa 8, word, bind, Except.bind]
  rw [if_neg hk, answer]
  simp only [ne_eq, hne, not_false_eq_true, if_true, found]
  rfl

end

/-! ### The write-back -/

/-- As the bundle commits, a swap that finds the old value leaves the new one. -/
theorem commitLate_swap {t : State} {x : LateWrite} {pa : Nat} {v y : Word} (hops : t.cl.bank.ops = []) (hlate : t.opn.late = [x]) (hl : x.loc = .mem pa)
    (ha : x.act = .swap v y) (hv : t.mem.word pa = v) (hu : t.Untraced) : (commitLate t).mem = t.mem.write pa y.toNat 8 := by
  have read : t.mem.read pa 8 = v.toNat := by
    have small : t.mem.read pa 8 < 2 ^ 64 := Mem.read_lt 8 t.mem pa
    rw [← hv, Mem.word, BitVec.toNat_ofNat, Nat.mod_eq_of_lt small]
  have home := State.homeLine_kept (q := ⟨t.cl.id, x.agent, x.src⟩) hu (pa / 128)
  unfold commitLate
  rw [hlate]
  change (performLate t x).mem = _
  unfold performLate
  simp only [State.bank, hops, List.filter_nil, List.any_nil, Bool.false_eq_true, if_false, hl, ha, LateAct.size, State.readLoc, read, if_true,
    LateAct.value, State.writeLoc]
  exact congrArg (fun m => Mem.write m pa y.toNat 8) home.mem

/-- A doubleword that has been written is there, and no other byte has changed. -/
theorem write_word {m : Mem} (h : Mem.wf m = true) (pa : Nat) (y : Word) :
    (Mem.write m pa y.toNat 8).word pa = y ∧ ∀ x, x < pa ∨ pa + 8 ≤ x → (Mem.write m pa y.toNat 8).get x = m.get x := by
  refine ⟨?_, fun x hx => Mem.get_write_other 8 h pa y.toNat x hx⟩
  rw [Mem.word, Mem.read_write 8 h, Nat.mod_eq_of_lt (by have := y.isLt; omega), BitVec.ofNat_toNat, BitVec.setWidth_eq]

/-- What the bundle leaves once a stale reference has been loaded. -/
theorem writtenBack {s t : State} {a : Fin 9} {d : Fin 16} {pa : Nat} {v y : Word} {o : OpenBundle} (hm : s.memOk) (hq : MemoryQuiet s)
    (ho : s.cl.opn = some o) (hv : s.mem.word pa = v) (h : Like (putRef (s.putLate a (.mem pa) (.swap v y)) a d y) t) :
    t.mem = s.mem ∧ t.cl.bank = (putRef s a d y).cl.bank ∧ t.enabled = s.enabled ∧
      (commitLate t).mem.word pa = y ∧ ∀ x, x < pa ∨ pa + 8 ≤ x → (commitLate t).mem.get x = s.mem.get x := by
  have base := putRef_eq_withBank (s.putLate a (.mem pa) (.swap v y)) a d y
  have mem : t.mem = s.mem := h.mem.trans (by rw [base]; rfl)
  have opn : t.opn = (s.putLate a (.mem pa) (.swap v y)).opn := by
    rw [State.opn, h.cl, putRef_opn]
    rfl
  have slot := putLate_slot s a (.mem pa) (.swap v y)
  have late : t.opn.late = [⟨s.cl.nextOp, a, .mem pa, .swap v y, s.opn.fence, s.sourceOf a⟩] := by
    rw [opn, State.putLate, State.modOpn_opn ho]
    change o.late ++ _ = _
    rw [← State.opn_of_some ho, hq.2.1, List.nil_append]
  have ops : t.cl.bank.ops = [] := by
    rw [h.cl, putRef_ops]
    exact hq.1
  have untraced : t.Untraced := h.untraced (by rw [base]; exact hq.untraced)
  have commits := commitLate_swap ops late rfl rfl ((congrArg (Mem.word · pa) mem).trans hv) untraced
  rw [mem] at commits
  refine ⟨mem, ?_, ?_, ?_⟩
  · rw [h.cl]
    exact (slot.putRef a d y).bank
  · funext k
    rw [State.enabled, State.enabled, opn, slot.sampled]
  · rw [commits]
    exact write_word hm.1 pa y

/-! ### The slot of one agent -/

theorem MemoryQuiet.healBase {s : State} (h : MemoryQuiet s) (m : Bool) (a : Fin 9) (r : Fin 16) (old new : Word) :
    MemoryQuiet (healBase m s a r old new) := by
  cases m with
  | true => exact h.healH a r old new
  | false => exact h

theorem healH_lock (s : State) (a : Fin 9) (r : Fin 16) (old new : Word) (j : Fin 8) :
    ((healH s a r old new).cl.bank.cores[j.val]).lock = (s.cl.bank.cores[j.val]).lock := by
  unfold healH
  split
  · rfl
  · split
    next k _ =>
      change ((s.cl.bank.cores.set k.val _ k.isLt)[j.val]).lock = _
      rw [getElem_set_fin]
      split
      next hj => rw [hj]
      next => rfl
    next => rfl

/-- Healing a base leaves the places of memory. -/
theorem sameView_healBase (s : State) (m : Bool) (a : Fin 9) (r : Fin 16) (old new : Word) : SameView s (healBase m s a r old new) := by
  cases m with
  | true =>
    rw [healBase, if_pos rfl, healH_eq_withBank]
    exact sameView_withBank fun j => healH_lock s a r old new j
  | false => exact sameView_withBank (b := s.cl.bank) fun _ => rfl

section
variable {s s1 : State} {w : Who} {d b : Fin 16} {m : Bool} {ref raw : Word} {off : Int} {pa : Nat} (hq : MemoryQuiet s)
  (hb : m = true → barrierRef s w (readH s w.agent b) = .ok ref ∧ 0 ≤ off ∧ (fieldAddr m ref raw off).toNat < 2 ^ 56)
  (ha : (fieldAddr m ref raw off).toNat % 8 = 0) (hf : (fieldAddr m ref raw off).toNat < 2 ^ 57)
  (hl : locate s w { href := m } (fieldAddr m ref raw off) 8 = .ok (s1, .mem pa))

include hq hl in
/-- The state once the field is found and the base healed. -/
theorem foundField : let s2 := healBase m s1 w.agent b (readH s w.agent b) ref
    MemoryQuiet s2 ∧ SameHeaps s s2 ∧ s2.cl.opn = s.cl.opn ∧ (s.memOk → s2.memOk) := by
  have found := locate_kept hq.untraced hl
  have base := healBase_eq_withBank m s1 w.agent b (readH s w.agent b) ref
  refine ⟨(hq.kept found).healBase .., ?_, ?_, fun ⟨hm, hc⟩ => ?_⟩
  · rw [base]
    exact ⟨found.mem, found.relocs, found.now⟩
  · rw [base]
    exact found.opn
  · rw [base]
    exact ⟨(congrArg Mem.wf found.mem).trans hm, found.lines hc⟩

include hq hb ha hf hl in
theorem refPlace_of_quiet : refPlace s w {} (if m then some b else none) raw off =
    .ok (healBase m s1 w.agent b (readH s w.agent b) ref, fieldAddr m ref raw off, .mem pa) :=
  refPlace_of_locate (u := {}) rfl (by cases m with | true => exact hq.barrier (hb rfl).1 | false => rfl) (fun hm => (hb hm).2) ha hf hl

include hq hb ha hf hl

/-- The agent loads a null or current reference. -/
theorem loads_current (hv : refKind (s.mem.word pa) = 0 ∨ barrierRef s w (s.mem.word pa) = .ok (s.mem.word pa)) :
    ∃ t, loadRef s w d (if m then some b else none) raw off = .ok t ∧
      Like (putRef (healBase m s1 w.agent b (readH s w.agent b) ref) w.agent d (s.mem.word pa)) t := by
  obtain ⟨quiet, heaps, -⟩ := foundField (b := b) (ref := ref) hq hl
  rw [← heaps.mem] at hv ⊢
  exact loadRef_of_current (roomFor_of_no_ops hq.1 _) (refPlace_of_quiet hq hb ha hf hl) quiet (hv.imp_right (heaps.barrierRef ..).trans)

/-- The agent loads a stale reference, and writes it back. -/
theorem loads_stale {y : Word} {o : OpenBundle} (hm : s.memOk) (ho : s.cl.opn = some o) (hk : refKind (s.mem.word pa) ≠ 0)
    (hy : barrierRef s w (s.mem.word pa) = .ok y) (hne : y ≠ s.mem.word pa)
    (hw : Reaches s1 w { write := true, href := m } (fieldAddr m ref raw off) 8 (.mem pa)) :
    ∃ t, loadRef s w d (if m then some b else none) raw off = .ok t ∧ t.mem = s.mem ∧
      t.cl.bank = (putRef (healBase m s1 w.agent b (readH s w.agent b) ref) w.agent d y).cl.bank ∧ t.enabled = s.enabled ∧
      (commitLate t).mem.word pa = y ∧ ∀ x, x < pa ∨ pa + 8 ≤ x → (commitLate t).mem.get x = s.mem.get x := by
  obtain ⟨quiet, heaps, opn, mem⟩ := foundField (b := b) (ref := ref) hq hl
  have view := sameView_healBase s1 m w.agent b (readH s w.agent b) ref
  have some_ : (if m then some b else none).isSome = m := by cases m <;> rfl
  rw [← heaps.mem] at hk hy hne
  obtain ⟨t, run, like⟩ := loadRef_of_stale (d := d) (roomFor_of_no_ops hq.1 _) (refPlace_of_quiet hq hb ha hf hl) quiet hk
    ((heaps.barrierRef ..).trans hy) hne (by rw [some_]; exact view.reaches hw)
  obtain ⟨same, bank, enabled, back, others⟩ := writtenBack (mem hm) quiet (opn.trans ho) rfl like
  refine ⟨t, run, same.trans heaps.mem, bank, ?_, back, fun x hx => (others x hx).trans (congrArg (Mem.get · x) heaps.mem)⟩
  rw [enabled]
  funext k
  rw [State.enabled, State.enabled, State.opn, opn]
  rfl

end

end Sys2Proof.Machine
end

section
/-!
SETTLED. O21: heap loads and stores, and references loaded and stored (R105 to R109).
-/

namespace Sys2Proof.Machine

/-- An offset below 0 is no address. -/
theorem heapOffset_form {s : State} {size : Fin 4} {disp : BitVec 6} (h0 : s.extImm 6 disp.toNat * (2 ^ size.val : Nat) < 0) :
    bits (toWord (s.extImm 6 disp.toNat * (2 ^ size.val : Nat))) 63 57 ≠ 0 := by
  have low := extImm_ge s disp.toNat
  have scale : 2 ^ size.val ≤ 2 ^ 3 := Nat.pow_le_pow_right (by norm_num) (by omega)
  refine form_of_negative h0 ?_
  generalize s.extImm 6 disp.toNat = i at *
  generalize 2 ^ size.val = n at *
  have first : -(2 ^ 22 : Nat) * (n : Int) ≤ i * n := mul_le_mul_of_nonneg_right low (Int.natCast_nonneg n)
  refine le_trans ?_ first
  push_cast
  omega

/-- A displacement of 8-byte fields. -/
theorem fieldDisp_eq {n : Nat} (disp : BitVec n) : 8 * sextNat n disp.toNat = 8 * disp.toInt := by
  rw [sextNat_eq_toInt, BitVec.ofNat_toNat, BitVec.setWidth_eq]

/-! ### Healing in every core -/

/-- A slot's healing of a register in every enabled core, as lists of writes. -/
theorem eachCore'_heal (s : State) (h : Fin 16) (ref : Fin 8 → Word) :
    eachCore' (fun k t => if s.rch k h = ref k then t else t.postCore k 1 (.h h (ref k))) s =
      eachCore' (fun k t => t.postCoreList k 1 (healWrites h (s.rch k h) (ref k))) s := by
  refine congrArg (eachCore' · s) (funext fun k => funext fun t => ?_)
  unfold healWrites
  split <;> rfl

section
variable {s : State} {heal : Fin 8 → State → State} {w : Fin 8 → List CoreWrite} (h : ∀ k t, heal k t = t.postCoreList k 1 (w k)) (d : Fin 16)
  (y : Fin 8 → Word)
include h

/-- The same where another register has been healed before. -/
theorem eachCore'_healTwo : eachCore' (fun k u => if s.rch k d = y k then heal k u else (heal k u).postCore k 1 (.h d (y k))) s =
    eachCore' (fun k t => t.postCoreList k 1 (w k ++ healWrites d (s.rch k d) (y k))) s := by
  refine congrArg (eachCore' · s) (funext fun k => funext fun t => ?_)
  rw [State.postCoreList_append, h, healWrites]
  split <;> rfl

/-- The same with a register that is written whatever it holds. -/
theorem eachCore'_healThenWrite : eachCore' (fun k u => (heal k u).postCore k 1 (.h d (y k))) s =
    eachCore' (fun k t => t.postCoreList k 1 (w k ++ [.h d (y k)])) s := by
  refine congrArg (eachCore' · s) (funext fun k => funext fun t => ?_)
  rw [State.postCoreList_append, h]
  rfl

end

/-! ### LDREF and STREF -/

section
variable {s s1 : State} {d : Fin 16} {m : Bool} {base : Fin 32} {disp : BitVec 5} {ref : Word}

theorem exec_ldref_eq : exec (.ldref d m base disp) s =
    outcome s (loadRef s s.seqWho d (if m then some (Fin.ofNat 16 base.val) else none) (s.rs base) (8 * disp.toInt)) := by
  rw [← fieldDisp_eq]
  rfl

theorem exec_stref_eq : exec (.stref d m base disp) s =
    outcome s (storeRef s s.seqWho d (if m then some (Fin.ofNat 16 base.val) else none) (s.rs base) (8 * disp.toInt)) := by
  rw [← fieldDisp_eq]
  rfl

/-- The bank of the sequencer once the base has been healed. -/
theorem healBase_slot {u : State} {b : Fin 16} {old : Word} (h : SameSlot s u) :
    SameSlot (if m = true ∧ old ≠ ref then s.postH 1 b ref else s) (healBase m u 8 b old ref) := by
  rw [← healBase_seq]
  exact h.healBase m 8 b old ref

theorem healTwo_eq_withBank (m : Bool) (s : State) (a : Fin 9) (b d : Fin 16) (old ref x y : Word) :
    healH (healBase m s a b old ref) a d x y = s.withBank (healH (healBase m s a b old ref) a d x y).cl.bank :=
  have inner := congrArg (fun u : State => u.withBank (healH (healBase m s a b old ref) a d x y).cl.bank) (healBase_eq_withBank m s a b old ref)
  (healH_eq_withBank ..).trans inner

/-- STREF issues its store in the state that the translation leaves. -/
theorem stref_issues {s0 s2 : State} {l : Loc} {y : Word}
    (h0 : m = true → 0 ≤ 8 * disp.toInt ∧ (fieldAddr m ref (s.rs base) (8 * disp.toInt)).toNat < 2 ^ 56)
    (ha : (fieldAddr m ref (s.rs base) (8 * disp.toInt)).toNat % 8 = 0) (hf : (fieldAddr m ref (s.rs base) (8 * disp.toInt)).toNat < 2 ^ 57)
    (hr : outstanding s.cl s.bankNo s.cl.bank 8 .store < 32)
    (hy : if refKind (s.rh d) = 0 then y = s.rh d ∧ s0 = s else barrier s s.seqWho (s.rh d) = .ok (s0, y))
    (hb : if m then barrier s0 s.seqWho (s.rh (Fin.ofNat 16 base.val)) = .ok (s2, ref) else s2 = s0)
    (hl : locate s2 s.seqWho { write := true, href := m } (fieldAddr m ref (s.rs base) (8 * disp.toInt)) 8 = .ok (s1, l)) :
    SequencerIssuesFrom (.stref d m base disp) s s2 s1
      (healH (healBase m s2 8 (Fin.ofNat 16 base.val) (s.rh (Fin.ofNat 16 base.val)) ref) 8 d (s.rh d) y).cl.bank .store .none
      { va := fieldAddr m ref (s.rs base) (8 * disp.toInt), loc := l, size := 8, kind := .store y } := by
  have opn : s0.cl.opn = s.cl.opn := by
    split at hy
    · rw [hy.2]
    · exact barrier_opn hy
  have reads (r : Fin 16) : readH s0 8 r = s.rh r := by rw [readH_seq, State.rh, State.rh, State.opn, State.opn, opn]
  have place := refPlace_of_locate (s := s0) (w := s.seqWho) (u := { write := true }) (m := m) (b := Fin.ofNat 16 base.val) (raw := s.rs base) rfl
    (by rw [show readH s0 s.seqWho.agent _ = _ from reads _]; exact hb) h0 ha hf hl
  rw [show readH s0 s.seqWho.agent _ = _ from reads _] at place
  have stored := storeRef_eq (s := s) (w := s.seqWho) (r := d) (roomFor_of_lt hr) hy place
  refine sequencerIssuesFrom_of_eq hl (exec_stref_eq.trans ((congrArg (outcome s) stored).trans ?_))
  have slot := ((sameSlot_of_besideTlbs (locate_besideTlbs hl)).healBase m 8 (Fin.ofNat 16 base.val) (s.rh (Fin.ofNat 16 base.val)) ref).healH 8 d
    (s.rh d) y
  have healed := healTwo_eq_withBank m s1 8 (Fin.ofNat 16 base.val) d (s.rh (Fin.ofNat 16 base.val)) ref (s.rh d) y
  rw [slot.bank] at healed
  exact congrArg (fun x => (.next (issueOp x 8 .store s.ordAcq s.ordRel .none
    [{ va := fieldAddr m ref (s.rs base) (8 * disp.toInt), loc := l, size := 8, kind := .store y }]) : Host.Outcome State Fault Refusal)) healed

end

/-! ### CLDREF -/

theorem exec_cldref_eq (s : State) (d : Fin 16) (m : Bool) (base : Fin 16) (disp : BitVec 6) : exec (.cldref d m base disp) s =
    outcome s (eachCore (fun k t => loadRef t (coreWho s k) d (if m then some base else none) (s.ra k base) (8 * disp.toInt)) s) := by
  rw [← fieldDisp_eq]
  rfl

theorem exec_cstref_eq (s : State) (d : Fin 16) (m : Bool) (base : Fin 16) (disp : BitVec 6) : exec (.cstref d m base disp) s =
    outcome s (eachCore (fun k t => storeRef t (coreWho s k) d (if m then some base else none) (s.ra k base) (8 * disp.toInt)) s) := by
  rw [← fieldDisp_eq]
  rfl

theorem Like.opn {s t : State} (h : Like s t) : t.opn = s.opn := by rw [State.opn, State.opn, h.cl]

section
variable {s : State} {m : Bool} {base : Fin 16} {off : Int} {ref : Fin 8 → Word} {pa : Fin 8 → Nat}
  (hb : ∀ k, s.enabled k = true → m = true →
    barrierRef s (coreWho s k) (s.rch k base) = .ok (ref k) ∧ 0 ≤ off ∧ (fieldAddr m (ref k) (s.ra k base) off).toNat < 2 ^ 56)
  (hq : MemoryQuiet s) (hr : CoresReach s .load { href := m } (fun k => fieldAddr m (ref k) (s.ra k base) off) 8 fun k => .mem (pa k))
include hb hq hr

/-- One core loads a current reference amid the others: it posts its writes, and changes nothing else but the directory. -/
theorem cldref_core {k : Fin 8} (he : s.enabled k = true) {cs : Vector CoreBank 8} (hc : SameLocks s cs) {t : State} (ht : Like (s.withCores cs) t)
    (d : Fin 16) (hv : refKind (s.mem.word (pa k)) = 0 ∨ barrierRef s (coreWho s k) (s.mem.word (pa k)) = .ok (s.mem.word (pa k))) :
    ∃ u, loadRef t (coreWho s k) d (if m then some base else none) (s.ra k base) off = .ok u ∧
      Like ((s.withCores cs).postCoreList k 1 (baseWrites m base (s.rch k base) (ref k) ++ [.h d (s.mem.word (pa k))])) u := by
  obtain ⟨-, align, form, reach⟩ := hr k he
  have quiet : MemoryQuiet t := (hq.withBank hq.1 : MemoryQuiet (s.withCores cs)).kept ht.toKept
  have heaps : SameHeaps s t := SameHeaps.trans (t := s.withCores cs) ⟨rfl, rfl, rfl⟩ ht.toKept.sameHeaps
  have view : SameView s t := (sameView_withBank hc : SameView s (s.withCores cs)).trans (sameView_of_kept ht.toKept ht.cl hq.sound.1)
  have reads : readH t (coreWho s k).agent base = s.rch k base := by
    rw [readH_core, State.rch, ht.opn]
    rfl
  obtain ⟨u, run, like⟩ := loads_current (s := t) (w := coreWho s k) (d := d) (b := base) (m := m) (ref := ref k) (raw := s.ra k base) (off := off)
    quiet (fun hm => ⟨by rw [reads]; exact (heaps.barrierRef ..).trans (hb k he hm).1, (hb k he hm).2⟩) align form
    (locate_of_reaches (view.reaches reach)) (by rw [heaps.mem]; exact hv.imp_right (heaps.barrierRef ..).trans)
  refine ⟨u, run, ?_⟩
  rw [reads, heaps.mem] at like
  have posts := (ht.healBase m (coreWho s k).agent base (s.rch k base) (ref k)).putRef (coreWho s k).agent d (s.mem.word (pa k))
  rw [healBase_core, putRef_core] at posts
  rw [State.postCoreList_append]
  exact posts.trans like

/-- CLDREF of current references in every enabled core. -/
theorem cldref_cores (d : Fin 16)
    (hv : ∀ k, s.enabled k = true → refKind (s.mem.word (pa k)) = 0 ∨ barrierRef s (coreWho s k) (s.mem.word (pa k)) = .ok (s.mem.word (pa k))) :
    ∃ t, eachCore (fun k t => loadRef t (coreWho s k) d (if m then some base else none) (s.ra k base) off) s = .ok t ∧
      Like (eachCore' (fun k t => t.postCoreList k 1 (baseWrites m base (s.rch k base) (ref k) ++ [.h d (s.mem.word (pa k))])) s) t := by
  rw [eachCore'_postCoreList]
  let w (k : Fin 8) : List CoreWrite := baseWrites m base (s.rch k base) (ref k) ++ [.h d (s.mem.word (pa k))]
  refine eachCore_induction
    (P := fun done t => Like (s.withCores (changeCores s.enabled (s.postTimedList 1 w) done s.cl.bank.cores)) t)
    (fun ht => by funext k; rw [State.enabled, State.enabled, ht.opn]; rfl) (fun _ he ht => by rw [changeCores_append, he]; exact ht)
    (fun {done k rest t} hall he ht => ?_) (.refl s)
  have distinct : (done ++ k :: rest).Nodup := hall ▸ List.nodup_finRange 8
  obtain ⟨u, run, like⟩ := cldref_core hb hq hr he (sameLocks_changeCores s 1 w distinct.of_append_left) ht d (hv k he)
  refine ⟨u, run, ?_⟩
  rw [changeCores_append, if_pos he]
  rw [State.postCoreList_withCores] at like
  exact like

end

/-! ### The obligation -/

/-- Settles O21: each access through the reference that the barrier answers; a reference that is loaded is written back by the commit. -/
theorem heapLoadsAndStores : Obligations.HeapLoadsAndStores := by
  unfold Obligations.HeapLoadsAndStores
  refine ⟨fun s size u => ⟨?_, ?_⟩, fun s d m base disp ref s0 s1 s2 => ?_, fun s d m base disp ref => ?_⟩
  · intro d h disp ref s0 s1 l off ea healed hb
    refine ⟨fun h0 ha hf => ⟨fun hr hl => ?_, fun hr hl => ?_⟩, fun h0 => ⟨fun hr => ?_, fun hr => ?_⟩⟩
    · exact sequencerIssuesFrom_of_heal hl (congrArg (outcome s) (heapLoad_eq (w := s.seqWho) (roomFor_of_lt hr) hb h0 ha hf hl _))
    · exact sequencerIssuesFrom_of_heal hl (congrArg (outcome s) (heapStore_eq (w := s.seqWho) (roomFor_of_lt hr) hb h0 ha hf hl _))
    · exact (congrArg (outcome s) (heapLoad_of_negative (w := s.seqWho) (roomFor_of_lt hr) hb h0 _)).trans (outcome_trap_of_form 8 (heapOffset_form h0))
    · exact (congrArg (outcome s) (heapStore_of_negative (w := s.seqWho) (roomFor_of_lt hr) hb h0 _)).trans
        (outcome_trap_of_form 8 (heapOffset_form h0))
  · intro d h disp ref l off ea healed h0 hu hb
    have heals : healed = (eachCore' (fun k t => t.postCoreList k 1 (healWrites h (s.rch k h) (ref k))) s).cl.bank :=
      congrArg (fun x : State => x.cl.bank) (eachCore'_heal s h ref)
    rw [heals]
    exact ⟨fun hr => coresIssueFrom_of_eachCore rfl fun k n new cs he hn hc => heapLoad_amid hu he hn hc n h0 (hb k he).1 (hb k he).2 hr _,
      fun hr => coresIssueFrom_of_eachCore rfl fun k n new cs he hn hc => heapStore_amid hu he hn hc n h0 (hb k he).1 (hb k he).2 hr _⟩
  · intro w b off ea healed h0 ha hf
    refine ⟨?_, fun l y hr hy hb hl => ?_⟩
    · intro pa o hm hq ho hb hl v
      have based (hm : m = true) : barrierRef s w (readH s w.agent b) = .ok ref ∧ 0 ≤ off ∧ (fieldAddr m ref (s.rs base) off).toNat < 2 ^ 56 :=
        ⟨hb hm, h0 hm⟩
      have found : SameSlot s s1 := sameSlot_of_besideTlbs (locate_besideTlbs hl)
      have slot (y : Word) : (putRef (healBase m s1 8 b (s.rh b) ref) 8 d y).cl.bank = ((healed s).postH 1 d y).cl.bank :=
        ((healBase_slot found).putRef 8 d y).bank
      refine ⟨fun hv => ?_, fun y hk hy hne hw => ?_⟩
      · obtain ⟨t, run, like⟩ := loads_current (d := d) hq based ha hf hl hv
        obtain ⟨quiet, heaps, -, -⟩ := foundField (b := b) (ref := ref) hq hl
        refine ⟨t, exec_ldref_eq.trans (congrArg (outcome s) run), ?_, ?_, (congrArg Cluster.bank like.cl).trans (slot v)⟩
        · rw [like.mem, putRef_eq_withBank]
          exact heaps.mem
        · rw [like.opn, State.opn, putRef_opn]
          exact quiet.2.1
      · obtain ⟨t, run, mem, bank, -, back, others⟩ := loads_stale (d := d) hq based ha hf hl hm ho hk hy hne hw
        exact ⟨t, exec_ldref_eq.trans (congrArg (outcome s) run), mem, bank.trans (slot y), back, others⟩
    · have issues := stref_issues h0 ha hf hr hy hb hl
      rw [healBase_seq, healH_seq] at issues
      exact issues
  · intro off ea heal hb
    have healed (k : Fin 8) (t : State) : heal k t = t.postCoreList k 1 (baseWrites m base (s.rch k base) (ref k)) :=
      (postCoreList_baseWrites ..).symm
    refine ⟨?_, fun l y hu hr hy => ?_⟩
    · intro pa o hm hq ho hr v
      refine ⟨fun hv => ?_, fun k y only hk hy hne hw => ?_⟩
      · obtain ⟨t, run, like⟩ := cldref_cores hb hq hr d hv
        refine ⟨t, (exec_cldref_eq ..).trans (congrArg (outcome s) run), ?_, ?_, ?_⟩
        · rw [like.mem, eachCore'_postCoreList]
          rfl
        · rw [like.opn, eachCore'_postCoreList]
          exact hq.2.1
        · rw [like.cl]
          exact congrArg (fun x : State => x.cl.bank) (eachCore'_healThenWrite healed d v).symm
      · have he : s.enabled k = true := (only k).trans (decide_eq_true rfl)
        obtain ⟨-, align, form, reach⟩ := hr k he
        obtain ⟨t, run, mem, bank, enabled, back, others⟩ := loads_stale (w := coreWho s k) (b := base) (ref := ref k) (raw := s.ra k base) (d := d) hq
          (fun hm => ⟨by rw [readH_core]; exact (hb k he hm).1, (hb k he hm).2⟩) align form (locate_of_reaches reach) hm ho hk hy hne hw
        refine ⟨t, (exec_cldref_eq ..).trans (congrArg (outcome s) (eachCore_of_onlyCore only run enabled)), mem, ?_, back, others⟩
        rw [bank, readH_core, putRef_core, healBase_core, healed]
    · rw [eachCore'_healTwo healed d y]
      exact coresIssueFrom_of_eachCore (exec_cstref_eq ..) fun k n new cs he hn hc =>
        storeRef_amid hu he hn hc n (raw := fun k => s.ra k base) (fun hm => hb k he hm) hr (hy k he)

end Sys2Proof.Machine
end

section
/-!
SUPPORT. Pins (R112): the count in an object's header and the counters of its pages, as bytes of memory.
-/

namespace Sys2Proof.Machine

/-! ### Fields of a run of bytes -/

theorem Mem.read_add (k n : Nat) (m : Mem) (a : Nat) : m.read a (k + n) = m.read a k + 256 ^ k * m.read (a + k) n := by
  induction k generalizing a with
  | zero => simp [Mem.read]
  | succ k ih =>
    rw [Nat.succ_add, Mem.read, Mem.read, ih, Nat.pow_succ, show a + 1 + k = a + (k + 1) by omega]
    ring

theorem Mem.get_of_read {n i : Nat} (m : Mem) (a : Nat) (h : i < n) : m.get (a + i) = BitVec.ofNat 8 (m.read a n / 256 ^ i) := by
  obtain ⟨k, rfl⟩ := Nat.exists_eq_add_of_lt h
  have split : m.read a (i + k + 1) = m.read a i + 256 ^ i * ((m.get (a + i)).toNat + 256 * m.read (a + i + 1) k) := by
    rw [show i + k + 1 = i + (k + 1) by omega, Mem.read_add, Mem.read]
  rw [split, Nat.add_mul_div_left _ _ (Nat.pow_pos (by norm_num)), Nat.div_eq_of_lt (Mem.read_lt i m a), Nat.zero_add]
  refine BitVec.eq_of_toNat_eq ?_
  rw [BitVec.toNat_ofNat, Nat.add_mul_mod_self_left, Nat.mod_eq_of_lt (m.get (a + i)).isLt]

/-- A header of 16 bytes with another PINS count. -/
def repinned (w pins : Nat) : Nat := w - w / 2 ^ 64 % 2 ^ 32 * 2 ^ 64 + pins * 2 ^ 64

section
variable {m : Mem} (hm : Mem.wf m = true) (pa : Nat)

theorem header_length : m.read pa 16 % 2 ^ 32 = m.read pa 4 := by
  have low : m.read pa 4 < 2 ^ 32 := Mem.read_lt 4 m pa
  have split := Mem.read_add 4 12 m pa
  norm_num at split
  omega

theorem header_pins : m.read pa 16 / 2 ^ 64 % 2 ^ 32 = m.read (pa + 8) 4 := by
  have first : m.read pa 8 < 2 ^ 64 := Mem.read_lt 8 m pa
  have count : m.read (pa + 8) 4 < 2 ^ 32 := Mem.read_lt 4 m (pa + 8)
  have split := Mem.read_add 8 8 m pa
  have rest := Mem.read_add 4 4 m (pa + 8)
  norm_num at split rest
  omega

include hm

/-- The header is written with another count: the count is there, and no other byte has changed. -/
theorem write_repinned {pins : Nat} (hp : pins < 2 ^ 32) :
    (m.write pa (repinned (m.read pa 16) pins) 16).read (pa + 8) 4 = pins ∧
      ∀ x, ¬(pa + 8 ≤ x ∧ x < pa + 12) → (m.write pa (repinned (m.read pa 16) pins) 16).get x = m.get x := by
  have small : m.read pa 16 < 2 ^ 128 := Mem.read_lt 16 m pa
  generalize hw : m.read pa 16 = w at *
  constructor
  · have all := Mem.read_write 16 hm pa (repinned w pins)
    rw [← header_pins, all, repinned]
    norm_num
    omega
  · intro x hx
    by_cases inside : pa ≤ x ∧ x < pa + 16
    · obtain ⟨i, rfl⟩ := Nat.exists_eq_add_of_le inside.1
      have hi : i < 16 := by omega
      rw [Mem.get_write 16 hm pa _ i hi, Mem.get_of_read m pa hi, hw]
      refine BitVec.eq_of_toNat_eq ?_
      rw [BitVec.toNat_ofNat, BitVec.toNat_ofNat, repinned]
      rcases (by omega : i < 8 ∨ 12 ≤ i) with low | high
      · interval_cases i <;> norm_num <;> omega
      · interval_cases i <;> norm_num <;> omega
    · exact Mem.get_write_other 16 hm pa _ x (by omega)

end

/-! ### The counters -/

theorem bumpCounter_lt {c : Nat} (up : Bool) (h : c < 2 ^ 32) : bumpCounter up c < 2 ^ 32 := by
  unfold bumpCounter
  split
  · exact h
  · split <;> omega

/-- Memory after one counter has been changed. -/
def bumpMem (up : Bool) (m : Mem) (c : Nat) : Mem := m.write c (bumpCounter up (m.read c 4)) 4

theorem read_bumpMem {m : Mem} (h : Mem.wf m = true) (up : Bool) (c : Nat) : (bumpMem up m c).read c 4 = bumpCounter up (m.read c 4) := by
  rw [bumpMem, Mem.read_write 4 h]
  exact Nat.mod_eq_of_lt (bumpCounter_lt up (Mem.read_lt 4 m c))

/-- Counters that do not overlap are each changed once, and no other byte is. -/
theorem foldl_bumpMem (up : Bool) {cs : List Nat} (hd : cs.Pairwise fun c d => c + 4 ≤ d ∨ d + 4 ≤ c) {m : Mem} (h : Mem.wf m = true) :
    (∀ c ∈ cs, (cs.foldl (bumpMem up) m).read c 4 = bumpCounter up (m.read c 4)) ∧
      ∀ x, (∀ c ∈ cs, ¬(c ≤ x ∧ x < c + 4)) → (cs.foldl (bumpMem up) m).get x = m.get x := by
  induction cs generalizing m with
  | nil => exact ⟨by simp, fun _ _ => rfl⟩
  | cons c cs ih =>
    obtain ⟨apart, hd⟩ := List.pairwise_cons.mp hd
    have wf : Mem.wf (bumpMem up m c) = true := Mem.wf_write 4 h _ _
    obtain ⟨counts, others⟩ := ih hd wf
    have same (x : Nat) (hx : ¬(c ≤ x ∧ x < c + 4)) : (bumpMem up m c).get x = m.get x := Mem.get_write_other 4 h c _ x (by omega)
    refine ⟨fun d hd => ?_, fun x hx => (others x fun d hd => hx d (List.mem_cons_of_mem c hd)).trans (same x (hx c List.mem_cons_self))⟩
    rcases List.mem_cons.mp hd with rfl | hd
    · rw [List.foldl_cons, ← read_bumpMem h]
      exact Mem.read_congr 4 fun i hi => others (d + i) fun e he => by have := apart e he; omega
    · rw [List.foldl_cons, counts d hd]
      exact congrArg (bumpCounter up) (Mem.read_congr 4 fun i hi => same (d + i) (by have := apart d hd; omega))

/-- The counters of PinPages do not overlap. -/
theorem pairwise_counters (base first n : Nat) :
    ((List.range n).map fun i => base + 4 * (first + i)).Pairwise fun c d => c + 4 ≤ d ∨ d + 4 ≤ c :=
  List.pairwise_map.mpr (List.pairwise_lt_range.imp fun h => by omega)

/-- What a pin or an unpin does to memory: PINS becomes `n`, each counter goes up or down, and no other byte changes. -/
theorem pin_memory (up : Bool) {m : Mem} (hm : Mem.wf m = true) {pa n : Nat} {cs : List Nat} (hn : n < 2 ^ 32)
    (hd : cs.Pairwise fun c d => c + 4 ≤ d ∨ d + 4 ≤ c) (hc : ∀ c ∈ cs, c + 4 ≤ pa ∨ pa + 16 ≤ c) :
    let m' := cs.foldl (bumpMem up) (m.write pa (repinned (m.read pa 16) n) 16)
    m'.read (pa + 8) 4 = n ∧ (∀ c ∈ cs, m'.read c 4 = bumpCounter up (m.read c 4)) ∧
      ∀ x, ¬(pa + 8 ≤ x ∧ x < pa + 12) → (∀ c ∈ cs, ¬(c ≤ x ∧ x < c + 4)) → m'.get x = m.get x := by
  obtain ⟨count, others⟩ := write_repinned hm pa hn
  obtain ⟨counts, rest⟩ := foldl_bumpMem up hd (Mem.wf_write 16 hm pa (repinned (m.read pa 16) n))
  refine ⟨?_, fun c hm => ?_, fun x hx hcs => (rest x hcs).trans (others x hx)⟩
  · refine Eq.trans (Mem.read_congr 4 fun i hi => ?_) count
    exact rest (pa + 8 + i) fun c hm => by have := hc c hm; omega
  · rw [counts c hm]
    exact congrArg (bumpCounter up) (Mem.read_congr 4 fun i hi => others (c + i) (by have := hc c hm; omega))

end Sys2Proof.Machine
end

section
/-!
SETTLED. O22: pins are counted (R112).
-/

namespace Sys2Proof.Machine

/-! ### States that differ in memory too -/

/-- The state t is s but for memory, the directory, the blocks of the dies and corrected errors. -/
structure Near (s t : State) : Prop extends Beside s t where
  cl : t.cl = s.cl

theorem Like.near {s t : State} (h : Like s t) : Near s t := ⟨h.toBeside, h.cl⟩

theorem Near.trans {s t u : State} (h : Near s t) (k : Near t u) : Near s u := ⟨h.toBeside.trans k.toBeside, k.cl.trans h.cl⟩

@[simp] theorem State.putBytes_mem (s : State) (pa x n : Nat) : (s.putBytes pa x n).mem = s.mem.write pa x n := rfl

theorem State.putBytes_near (s : State) (pa x n : Nat) : Near s (s.putBytes pa x n) :=
  ⟨⟨rfl, fun h => by rw [State.putBytes, h]; rfl, id, fun _ => ⟨rfl, rfl⟩, id⟩, rfl⟩

theorem MemoryQuiet.near {s t : State} (h : MemoryQuiet s) (k : Near s t) : MemoryQuiet t := by
  obtain ⟨ops, late, bad, soft, untraced⟩ := h
  refine ⟨by rw [k.cl, ops], ?_, k.bad bad, k.soft soft, k.untraced untraced⟩
  rw [State.opn, k.cl]
  exact late

/-! ### One counter, and all of an object's -/

theorem bumpAt_near {s : State} (h : MemoryQuiet s) (agent : Fin 9) (up : Bool) (c : Nat) :
    Near s (bumpAt agent up s c) ∧ (bumpAt agent up s c).mem = bumpMem up s.mem c := by
  have owned := cohNow_like h.untraced agent (.mem c) 4 (.rmw ⟨1, 0, 0⟩)
  unfold bumpAt
  rw [beforeSync_of_no_ops h.1, State.correct_of_no_soft h.sound.2]
  refine ⟨owned.near.trans (State.putBytes_near ..), ?_⟩
  rw [bumpMem, ← owned.mem]
  rfl

theorem foldl_bumpAt_near {s : State} (h : MemoryQuiet s) (agent : Fin 9) (up : Bool) (cs : List Nat) :
    Near s (cs.foldl (bumpAt agent up) s) ∧ (cs.foldl (bumpAt agent up) s).mem = cs.foldl (bumpMem up) s.mem := by
  induction cs generalizing s with
  | nil => exact ⟨(Like.refl s).near, rfl⟩
  | cons c cs ih =>
    obtain ⟨first, mem⟩ := bumpAt_near h agent up c
    obtain ⟨rest, mems⟩ := ih (h.near first)
    exact ⟨first.trans rest, mems.trans (congrArg (cs.foldl (bumpMem up)) mem)⟩

/-! ### A pin -/

/-- The count at its end. -/
def pinsEnd (up : Bool) : Nat := if up then 0xFFFFFFFF else 0

/-- The count after it. -/
def pinsNext (up : Bool) (n : Nat) : Nat := if up then n + 1 else n - 1

section
variable {s : State} {w : Who} {b : Fin 16} {ref : Word} {pa : Nat} (hq : MemoryQuiet s) (hp : PinTarget s w (readH s w.agent b) ref pa) (up : Bool)
include hq hp

/-- A count at its end and an empty object trap. -/
theorem pinObject_of_end (h : s.mem.read pa 4 = 0 ∨ s.mem.read (pa + 8) 4 = pinsEnd up) :
    pinObject s w b up = .error (.trap 0x05 ref w.agent) := by
  obtain ⟨hb, hr⟩ := hp
  have idle : (s.ordRel && s.bank.ops.any fun o => o.agent = w.agent && o.live) = false := by
    rw [State.bank, hq.1]
    exact Bool.and_false _
  unfold pinObject
  simp only [idle, hq.barrier hb, locate_of_reaches hr, loadNow_of_quiet hq, header_length, header_pins, bind, Except.bind, Bool.false_eq_true, if_false,
    Who.trap]
  by_cases empty : s.mem.read pa 4 = 0
  · rw [if_pos empty]
  · have full := h.resolve_left empty
    rw [if_neg empty, full]
    cases up <;> rfl

/-- Where neither is so, the header has the next count and each counter of the object's pages is changed. -/
theorem pinObject_of_counts (h0 : s.mem.read pa 4 ≠ 0) (he : s.mem.read (pa + 8) 4 ≠ pinsEnd up) :
    ∃ t, pinObject s w b up = .ok (healH t w.agent b (readH s w.agent b) ref, BitVec.ofNat 64 (refAddr ref)) ∧ Near s t ∧
      t.mem = (pageCounters s (refHeap ref) (refAddr ref) (s.mem.read pa 4)).foldl (bumpMem up)
        (s.mem.write pa (repinned (s.mem.read pa 16) (pinsNext up (s.mem.read (pa + 8) 4))) 16) := by
  obtain ⟨hb, hr⟩ := hp
  have idle : (s.ordRel && s.bank.ops.any fun o => o.agent = w.agent && o.live) = false := by
    rw [State.bank, hq.1]
    exact Bool.and_false _
  have read := cohNow_like hq.untraced w.agent (.mem pa) 16 .load
  have quiet := hq.near read.near
  have owned := cohNow_like quiet.untraced w.agent (.mem pa) 16 (.rmw ⟨1, 0, 0⟩)
  have put := (read.near.trans owned.near).trans
    (State.putBytes_near _ pa (repinned (s.mem.read pa 16) (pinsNext up (s.mem.read (pa + 8) 4))) 16)
  have pages : pageCounters (cohNow s w.agent (.mem pa) 16 .load) = pageCounters s := by
    funext n addr lines
    simp only [pageCounters, read.toKept.sameHeaps.heapWord]
  obtain ⟨bumped, mem⟩ := foldl_bumpAt_near (hq.near put) w.agent up (pageCounters s (refHeap ref) (refAddr ref) (s.mem.read pa 4))
  refine ⟨_, ?_, put.trans bumped, ?_⟩
  · have sound (ws : List Nat) : ((cohNow s w.agent (.mem pa) 16 .load).badAmong ws ||
        (pageCounters s (refHeap ref) (refAddr ref) (s.mem.read pa 4)).any fun a => (cohNow s w.agent (.mem pa) 16 .load).badAt a 4) = false := by
      simp [State.badAmong, State.badAt, quiet.sound.1]
    have upEnd : (up && decide (s.mem.read (pa + 8) 4 = 0xFFFFFFFF)) = false := by
      cases up with
      | true => exact decide_eq_false he
      | false => rfl
    have downEnd : (!up && decide (s.mem.read (pa + 8) 4 = 0)) = false := by
      cases up with
      | true => rfl
      | false => exact decide_eq_false he
    unfold pinObject
    simp only [idle, hq.barrier hb, locate_of_reaches hr, loadNow_of_quiet hq, header_length, bind, Except.bind, Bool.false_eq_true, if_false]
    rw [if_neg h0]
    simp only [header_pins, upEnd, downEnd, pages, sound, Bool.false_eq_true, if_false, State.correctAll_of_no_soft quiet.sound.2]
    rw [repinned, header_pins]
    rfl
  · rw [mem, State.putBytes_mem, owned.mem, read.mem]

end

/-! ### The counters of an object -/

/-- What the barrier answers lies in its heap (R102). -/
theorem heapBase_le {s : State} {w : Who} {r ref : Word} (h : barrierRef s w r = .ok ref) : (heapWord s (refHeap ref) 4).toNat ≤ refAddr ref := by
  obtain ⟨-, -, range, -⟩ := barrierRef_eq_ok h
  unfold inRange at range
  exact of_decide_eq_true (Bool.and_eq_true_iff.mp range).1

theorem pageCounters_of_pinPages {s : State} {w : Who} {r ref : Word} {pa : Nat} {cs : List Nat} (hb : barrierRef s w r = .ok ref)
    (h : PinPages s ref pa cs) : pageCounters s (refHeap ref) (refAddr ref) (s.mem.read pa 4) = cs := by
  obtain ⟨-, inside, rfl, -⟩ := h
  have base := heapBase_le hb
  unfold pageCounters
  simp only [Nat.min_eq_left inside]
  congr 2
  omega

theorem pairwise_of_pinPages {s : State} {ref : Word} {pa : Nat} {cs : List Nat} (h : PinPages s ref pa cs) :
    cs.Pairwise fun c d => c + 4 ≤ d ∨ d + 4 ≤ c := by
  obtain ⟨-, -, rfl, -⟩ := h
  exact pairwise_counters ..

/-- A trap whose TVAL is a reference is taken as the state stands. -/
theorem outcome_trap_of_ref {s : State} {w : Who} {r ref : Word} (h : barrierRef s w r = .ok ref) (a : Fin 9) :
    outcome s (.error (.trap 0x05 ref a)) = .next (takeTrap s 0x05 ref a) := by
  have kind := (barrierRef_fields h).1
  refine outcome_trap_of_form a ?_
  unfold refKind bits at kind
  unfold bits
  norm_num at kind ⊢
  omega

theorem Near.opn {s t : State} (h : Near s t) : t.opn = s.opn := by rw [State.opn, State.opn, h.cl]

/-- What a pin leaves: one more pin, or one less, in the header and in each counter. -/
def PinsCounted (up : Bool) (m m' : Mem) (pa : Nat) (cs : List Nat) : Prop :=
  m'.read (pa + 8) 4 = pinsNext up (m.read (pa + 8) 4) ∧ (∀ c ∈ cs, m'.read c 4 = bumpCounter up (m.read c 4)) ∧
    ∀ x, ¬(pa + 8 ≤ x ∧ x < pa + 12) → (∀ c ∈ cs, ¬(c ≤ x ∧ x < c + 4)) → m'.get x = m.get x

/-- A pin or an unpin by one agent counts in the header and the pages, and heals the register. -/
theorem pinObject_counted {s : State} {w : Who} {b : Fin 16} {ref : Word} {pa : Nat} {cs : List Nat} (hm : s.memOk) (hq : MemoryQuiet s)
    (hp : PinTarget s w (readH s w.agent b) ref pa) (hc : PinPages s ref pa cs) (up : Bool) (he : s.mem.read (pa + 8) 4 ≠ pinsEnd up) :
    ∃ t, pinObject s w b up = .ok (t, BitVec.ofNat 64 (refAddr ref)) ∧ PinsCounted up s.mem t.mem pa cs ∧
      SameSlot (healH s w.agent b (readH s w.agent b) ref) t := by
  have small : s.mem.read (pa + 8) 4 < 2 ^ 32 := Mem.read_lt 4 s.mem (pa + 8)
  have next : pinsNext up (s.mem.read (pa + 8) 4) < 2 ^ 32 := by
    unfold pinsNext pinsEnd at *
    split at he <;> simp_all <;> omega
  have some_ : s.mem.read pa 4 ≠ 0 := by have := hc.1; omega
  obtain ⟨t, run, near, mem⟩ := pinObject_of_counts hq hp up some_ he
  rw [pageCounters_of_pinPages hp.1 hc] at mem
  refine ⟨_, run, ?_, (SameSlot.of_cl near.cl).healH ..⟩
  have healed : (healH t w.agent b (readH s w.agent b) ref).mem = t.mem := by
    rw [healH_eq_withBank]
    rfl
  rw [healed, mem]
  exact pin_memory up hm.1 next (pairwise_of_pinPages hc) hc.2.2.2

/-! ### The slots -/

/-- The object's address is written by CPIN alone. -/
def postPin (d : Option (Fin 16)) (k : Fin 8) (p : State × Word) : State :=
  match d with
  | some d => p.1.postCore k 1 (.a d p.2)
  | none => p.1

/-- A core's part of CPIN to a_d, and of CUNPIN. -/
def corePin (s : State) (h : Fin 16) (d : Option (Fin 16)) (k : Fin 8) (t : State) : Eff State :=
  (pinObject t (coreWho s k) h d.isSome).map (postPin d k)

theorem exec_cpin_eq (s0 : State) (d h : Fin 16) : exec (.cpin d h) s0 = outcome s0.released (eachCore (corePin s0.released h (some d)) s0.released) := by
  refine congrArg (fun f => outcome s0.released (eachCore f s0.released)) (funext fun k => funext fun t => ?_)
  change _ = Except.map _ (pinObject t (coreWho s0.released k) h true)
  cases pinObject t (coreWho s0.released k) h true <;> rfl

theorem exec_cunpin_eq (s0 : State) (h : Fin 16) : exec (.cunpin h) s0 = outcome s0.released (eachCore (corePin s0.released h none) s0.released) := by
  refine congrArg (fun f => outcome s0.released (eachCore f s0.released)) (funext fun k => funext fun t => ?_)
  change _ = Except.map _ (pinObject t (coreWho s0.released k) h false)
  cases pinObject t (coreWho s0.released k) h false <;> rfl

theorem loadNow_opn {s s1 : State} {w : Who} {va : Word} {l : Loc} {n x : Nat} (h : loadNow s w va l n = .ok (s1, x)) : s1.cl.opn = s.cl.opn := by
  unfold loadNow at h
  simp only at h
  split at h
  · cases h
  · cases h
    exact (congrArg Cluster.opn (cohNow_quiet ..).cl).trans ((State.correctLoc_opn ..).trans (beforeSync_opn ..))

theorem bumpAt_opn (agent : Fin 9) (up : Bool) (s : State) (c : Nat) : (bumpAt agent up s c).cl.opn = s.cl.opn :=
  (congrArg Cluster.opn (cohNow_quiet ..).cl).trans ((congrArg Cluster.opn (State.correct_quiet ..).cl).trans (beforeSync_opn ..))

theorem foldl_bumpAt_opn (agent : Fin 9) (up : Bool) (cs : List Nat) (s : State) : (cs.foldl (bumpAt agent up) s).cl.opn = s.cl.opn := by
  induction cs generalizing s with
  | nil => rfl
  | cons c cs ih => exact (ih _).trans (bumpAt_opn ..)

/-- A pin leaves the bundle open as it was. -/
theorem pinObject_opn {s t : State} {w : Who} {b : Fin 16} {up : Bool} {x : Word} (h : pinObject s w b up = .ok (t, x)) : t.cl.opn = s.cl.opn := by
  unfold pinObject at h
  simp only at h
  split at h
  · cases h
  · obtain ⟨⟨s0, ref⟩, hb, h⟩ := Eff.bind_eq_ok.mp h
    obtain ⟨⟨s1, l⟩, hl, h⟩ := Eff.bind_eq_ok.mp h
    obtain ⟨⟨s2, w0⟩, hr, h⟩ := Eff.bind_eq_ok.mp h
    obtain ⟨-, h⟩ := Eff.ite_trap_eq_ok.mp h
    obtain ⟨-, h⟩ := Eff.ite_trap_eq_ok.mp h
    obtain ⟨-, h⟩ := Eff.ite_trap_eq_ok.mp h
    obtain ⟨-, h⟩ := Eff.ite_trap_eq_ok.mp h
    cases h
    have placed : s1.cl.opn = s0.cl.opn := (congrArg (fun x : State => x.cl.opn) (locate_besideTlbs hl) :)
    calc _ = (List.foldl (bumpAt w.agent up) _ _).cl.opn := by rw [healH_eq_withBank]; rfl
      _ = _ := foldl_bumpAt_opn ..
      _ = (cohNow _ w.agent l 16 (.rmw ⟨1, 0, 0⟩)).cl.opn := State.writeLoc_opn ..
      _ = (s2.correctAll _).cl.opn := congrArg Cluster.opn (cohNow_quiet ..).cl
      _ = s2.cl.opn := congrArg Cluster.opn (State.correctAll_quiet ..).cl
      _ = s.cl.opn := (loadNow_opn hr).trans (placed.trans (barrier_opn hb))

theorem corePin_enabled {s t u : State} {h : Fin 16} {d : Option (Fin 16)} {k : Fin 8} (hu : corePin s h d k t = .ok u) : u.enabled = t.enabled := by
  unfold corePin at hu
  cases hp : pinObject t (coreWho s k) h d.isSome with
  | error e =>
    rw [hp] at hu
    cases hu
  | ok p =>
    rw [hp] at hu
    have opn := pinObject_opn hp
    have same : u.cl.opn = p.1.cl.opn := by
      cases d <;> cases hu <;> rfl
    funext j
    rw [State.enabled, State.enabled, State.opn, State.opn, same, opn]

/-- The cores come in the order of their ranks. -/
theorem length_of_split {done rest : List (Fin 8)} {k : Fin 8} (h : done ++ k :: rest = List.finRange 8) : k.val = done.length := by
  have at_ : (done ++ k :: rest)[done.length]? = some k := by simp
  rw [h, List.getElem?_eq_some_iff] at at_
  obtain ⟨_, eq⟩ := at_
  rw [← eq, List.getElem_finRange]
  rfl

/-- Pins that are counted in each enabled core in turn are those of the slot. -/
theorem eachCore_of_inTurn {s t : State} {h : Fin 16} {d : Option (Fin 16)} (hs : InTurn s (corePin s h d) t) : eachCore (corePin s h d) s = .ok t := by
  obtain ⟨u, first, last, each⟩ := hs
  obtain ⟨t', run, eq, -⟩ := eachCore_induction (s := s) (f := corePin s h d)
    (P := fun done x => x = u done.length ∧ x.enabled = s.enabled) (fun hx => hx.2)
    (fun {done k rest x} hall he ⟨hx, enabled⟩ => by
      have place := length_of_split hall
      have stays := each k
      rw [he, if_neg Bool.false_ne_true, place] at stays
      exact ⟨by rw [List.length_append, List.length_singleton, stays, hx], enabled⟩)
    (fun {done k rest x} hall he ⟨hx, enabled⟩ => by
      have place := length_of_split hall
      have goes := each k
      rw [if_pos he, place, ← hx] at goes
      exact ⟨_, goes, by rw [List.length_append, List.length_singleton], (corePin_enabled goes).trans enabled⟩)
    ⟨first.symm, rfl⟩
  rw [run, eq, ← last]
  rfl

/-- The count of a pin, and of an unpin. -/
theorem up_of_pinsCounted {m m' : Mem} {pa : Nat} {cs : List Nat} (h : PinsCounted true m m' pa cs) :
    m'.read (pa + 8) 4 = m.read (pa + 8) 4 + 1 ∧ (∀ c ∈ cs, m'.read c 4 = min (m.read c 4 + 1) 0xFFFFFFFF) ∧
      ∀ x, ¬(pa + 8 ≤ x ∧ x < pa + 12) → (∀ c ∈ cs, ¬(c ≤ x ∧ x < c + 4)) → m'.get x = m.get x := by
  obtain ⟨pins, counts, rest⟩ := h
  refine ⟨pins, fun c hc => ?_, rest⟩
  have small : m.read c 4 < 2 ^ 32 := Mem.read_lt 4 m c
  rw [counts c hc, bumpCounter]
  split
  · omega
  · simp only [if_true]
    omega

@[inherit_doc up_of_pinsCounted]
theorem down_of_pinsCounted {m m' : Mem} {pa : Nat} {cs : List Nat} (h : PinsCounted false m m' pa cs) (h0 : 0 < m.read (pa + 8) 4) :
    m'.read (pa + 8) 4 + 1 = m.read (pa + 8) 4 ∧ (∀ c ∈ cs, m.read c 4 = 0xFFFFFFFF → m'.read c 4 = 0xFFFFFFFF) ∧
      (∀ c ∈ cs, 0 < m.read c 4 → m.read c 4 ≠ 0xFFFFFFFF → m'.read c 4 = m.read c 4 - 1) ∧
      ∀ x, ¬(pa + 8 ≤ x ∧ x < pa + 12) → (∀ c ∈ cs, ¬(c ≤ x ∧ x < c + 4)) → m'.get x = m.get x := by
  obtain ⟨pins, counts, rest⟩ := h
  refine ⟨?_, fun c hc full => ?_, fun c hc _ some_ => ?_, rest⟩
  · rw [pins]
    exact Nat.sub_add_cancel h0
  · rw [counts c hc, bumpCounter, if_pos full, full]
  · rw [counts c hc, bumpCounter, if_neg some_]
    rfl

theorem healH_core_eq (s : State) (k : Fin 8) (r : Fin 16) (old new : Word) :
    healH s (coreWho s k).agent r old new = if old = new then s else s.postCore k 1 (.h r new) := by
  rw [healH, coreOf_coreWho]

/-! ### The obligation -/

theorem exec_pin_of_ok {s0 t : State} {d : Fin 32} {h : Fin 16} {x : Word} (hp : pinObject s0.released s0.released.seqWho h true = .ok (t, x)) :
    exec (.pin d h) s0 = .next (t.postS 1 d x) := by
  change outcome s0.released (pinObject s0.released s0.released.seqWho h true >>= _) = _
  rw [hp]
  rfl

theorem exec_unpin_of_ok {s0 t : State} {h : Fin 16} {x : Word} (hp : pinObject s0.released s0.released.seqWho h false = .ok (t, x)) :
    exec (.unpin h) s0 = .next t := by
  change outcome s0.released (pinObject s0.released s0.released.seqWho h false >>= _) = _
  rw [hp]
  rfl

section
variable {s : State} {h : Fin 16} {d : Option (Fin 16)} {k : Fin 8} (only : OnlyCore s k)
include only

theorem eachCore_corePin_of_ok {t : State} {x : Word} (hp : pinObject s (coreWho s k) h d.isSome = .ok (t, x)) :
    eachCore (corePin s h d) s = .ok (postPin d k (t, x)) := by
  have run : corePin s h d k s = .ok (postPin d k (t, x)) := by
    rw [corePin, hp]
    rfl
  exact eachCore_of_onlyCore only run (corePin_enabled run)

theorem eachCore_corePin_of_trap {c : BitVec 8} {v : Word} {a : Fin 9} (hp : pinObject s (coreWho s k) h d.isSome = .error (.trap c v a)) :
    eachCore (corePin s h d) s = .error (.trap c v a) := by
  refine eachCore_trap_of_onlyCore only ?_
  rw [corePin, hp]
  rfl

end

/-- Settles O22: the pin of one agent, and of the cores in turn. -/
theorem pinsAreCounted : Obligations.PinsAreCounted := by
  unfold Obligations.PinsAreCounted
  intro s0 pa cs h ref s hm hq pins obj rest up down
  refine ⟨fun hp d => ?_, fun k only hp d => ?_, fun d t => ⟨fun ht => ?_, fun ht => ?_⟩⟩
  · intro healed
    have heals : healH s 8 h (s.rh h) ref = healed := healH_seq ..
    refine ⟨fun hc => ⟨fun hl => ?_, fun h0 => ?_⟩, fun he => ?_, fun he => ?_⟩
    · obtain ⟨t, run, counted, slot⟩ := pinObject_counted (w := s.seqWho) (b := h) hm hq hp hc true (Nat.ne_of_lt hl)
      refine ⟨t.postS 1 d obj, exec_pin_of_ok run, ?_, heals ▸ (slot.postS 1 d obj).bank⟩
      rw [← State.postS_mem t 1 d obj] at counted
      exact up_of_pinsCounted counted
    · obtain ⟨t, run, counted, slot⟩ := pinObject_counted (w := s.seqWho) (b := h) hm hq hp hc false (Nat.ne_of_gt h0)
      exact ⟨t, exec_unpin_of_ok run, down_of_pinsCounted counted h0, heals ▸ slot.bank⟩
    · exact (congrArg (fun e => outcome s (e >>= _)) (pinObject_of_end (w := s.seqWho) hq hp true he)).trans (outcome_trap_of_ref hp.1 8)
    · exact (congrArg (fun e => outcome s (e >>= _)) (pinObject_of_end (w := s.seqWho) hq hp false he)).trans (outcome_trap_of_ref hp.1 8)
  · intro healed core
    have reads : readH s (coreWho s k).agent h = s.rch k h := readH_core ..
    have heals : healH s (coreWho s k).agent h (s.rch k h) ref = healed := healH_core_eq ..
    rw [← reads] at hp heals
    refine ⟨fun hc => ⟨fun hl => ?_, fun h0 => ?_⟩, fun he => ?_, fun he => ?_⟩
    · obtain ⟨t, run, counted, slot⟩ := pinObject_counted hm hq hp hc true (Nat.ne_of_lt hl)
      rw [heals] at slot
      refine ⟨t.postCore k 1 (.a d obj), ?_, up_of_pinsCounted counted, (slot.postCore k 1 (.a d obj)).bank⟩
      rw [exec_cpin_eq, eachCore_corePin_of_ok (d := some d) only run]
      rfl
    · obtain ⟨t, run, counted, slot⟩ := pinObject_counted hm hq hp hc false (Nat.ne_of_gt h0)
      rw [heals] at slot
      refine ⟨t, ?_, down_of_pinsCounted counted h0, slot.bank⟩
      rw [exec_cunpin_eq, eachCore_corePin_of_ok (d := none) only run]
      rfl
    · rw [exec_cpin_eq, eachCore_corePin_of_trap (d := some d) only (pinObject_of_end hq hp true he)]
      exact outcome_trap_of_ref hp.1 core
    · rw [exec_cunpin_eq, eachCore_corePin_of_trap (d := none) only (pinObject_of_end hq hp false he)]
      exact outcome_trap_of_ref hp.1 core
  · rw [exec_cpin_eq, eachCore_of_inTurn (d := some d) ht]
    rfl
  · rw [exec_cunpin_eq, eachCore_of_inTurn (d := none) ht]
    rfl

end Sys2Proof.Machine
end

section
/-!
SUPPORT. Descriptors of heaps as the slots and the engines write them (R95, R114, R117, Table 05.8).
-/

namespace Sys2Proof.Machine

/-! ### Fields of STAT and of a word -/

section
variable {err skip left state : Nat} (he : err < 256) (hk : skip < 2 ^ 20) (hl : left < 2 ^ 20) (hs : state < 4)
include he hk hl hs

theorem statWord_toNat : (statWord err skip left state).toNat = err * 2 ^ 56 + skip * 2 ^ 36 + left * 2 ^ 16 + state * 4 := by
  rw [statWord, BitVec.toNat_ofNat]
  exact Nat.mod_eq_of_lt (by omega)

theorem statWord_fields : bits (statWord err skip left state) 63 56 = err ∧ bits (statWord err skip left state) 55 36 = skip ∧
    bits (statWord err skip left state) 35 16 = left ∧ bits (statWord err skip left state) 3 2 = state := by
  have value := statWord_toNat he hk hl hs
  unfold bits
  rw [value]
  norm_num
  omega

end

/-- The error and the counts of a word of STAT. -/
theorem bits_counts (x : Word) : bits x 55 16 = bits x 55 36 * 2 ^ 20 + bits x 35 16 ∧ bits x 63 16 = bits x 63 56 * 2 ^ 40 + bits x 55 16 := by
  unfold bits
  norm_num
  omega

theorem bits_ofNat_two {k : Nat} (h : k < 4) : bits (BitVec.ofNat 64 k) 1 0 = k ∧ bits (BitVec.ofNat 64 k) 63 2 = 0 := by
  unfold bits
  rw [BitVec.toNat_ofNat]
  norm_num
  omega

/-- An entry with another STATE. -/
theorem bits_setState (x : Word) {k : Nat} (h : k < 4) :
    bits ((x &&& ~~~(3 : Word)) ||| BitVec.ofNat 64 k) 1 0 = k ∧ bits ((x &&& ~~~(3 : Word)) ||| BitVec.ofNat 64 k) 63 2 = bits x 63 2 := by
  obtain ⟨low, high⟩ := bits_ofNat_two h
  have none : bits (~~~(3 : Word)) 1 0 = 0 := rfl
  have all : bits (~~~(3 : Word)) 63 2 = 2 ^ (63 + 1 - 2) - 1 := rfl
  constructor
  · rw [bits_or, bits_and, none, low, Nat.and_zero, Nat.zero_or]
  · rw [bits_or, bits_and, all, bits_and_ones, high, Nat.or_zero]

theorem word_write (m : Mem) (h : Mem.wf m = true) (pa : Nat) (v : Word) : (m.write pa v.toNat 8).word pa = v := (write_word h pa v).1

theorem word_write_other {m : Mem} (h : Mem.wf m = true) {pa b : Nat} (v : Word) (hd : b + 8 ≤ pa ∨ pa + 8 ≤ b) :
    (m.write pa v.toNat 8).word b = m.word b := congrArg (BitVec.ofNat 64) (Mem.read_write_other h pa v.toNat 8 b 8 hd)

/-! ### What the steps leave -/

/-- From s to t the cluster that acts, the settings of the dies and their fault queues have not changed. -/
structure Stays (s t : State) : Prop where
  cl : t.cl = s.cl
  dies : ∀ d, (t.die d).tracing = (s.die d).tracing ∧ (t.die d).fq = (s.die d).fq

theorem Near.stays {s t : State} (h : Near s t) : Stays s t := ⟨h.cl, h.dies⟩

theorem Stays.trans {s t u : State} (h : Stays s t) (k : Stays t u) : Stays s u :=
  ⟨k.cl.trans h.cl, fun d => ⟨(k.dies d).1.trans (h.dies d).1, (k.dies d).2.trans (h.dies d).2⟩⟩

theorem Stays.untracedAt {s t : State} {d : Fin 64} (h : Stays s t) (hu : s.UntracedAt d) : t.UntracedAt d := by
  rw [State.UntracedAt, State.dbg, (h.dies d).1]
  exact hu

section
variable {s : State} {q : Requester} (hu : s.UntracedAt q.c.die) (n : Fin 16)
include hu

theorem storeWord_near (pa : Nat) (v : Word) : Near s (s.storeWord q pa v) :=
  have owned : Near s (s.ownLine q (pa / 128)) := ⟨(State.ownLine_kept hu _).toBeside, (State.ownLine_quiet ..).cl⟩
  owned.trans (State.putBytes_near ..)

theorem storeWord_mem (pa : Nat) (v : Word) : (s.storeWord q pa v).mem = s.mem.write pa v.toNat 8 :=
  congrArg (fun m => Mem.write m pa v.toNat 8) (State.ownLine_kept hu (pa / 128)).mem

theorem setStat_stays (v : Word) : Stays s (setStat s q n v) := by
  have stored := (storeWord_near hu (heapPlaceOf n 7) v).stays
  unfold setStat
  generalize s.storeWord q (heapPlaceOf n 7) v = t at stored
  exact ⟨stored.cl, stored.dies⟩

theorem setStat_mem (v : Word) : (setStat s q n v).mem = s.mem.write (heapPlaceOf n 7) v.toNat 8 := by
  rw [← storeWord_mem hu]
  rfl

theorem setStat_relocs (v : Word) : (setStat s q n v).relocs = s.relocs.set n.val { s.relocs[n.val] with stat := v } n.isLt := by
  unfold setStat
  simp only [(storeWord_near hu (heapPlaceOf n 7) v).relocs]

theorem setEpoch_stays (e : Nat) : Stays s (setEpoch s q n e) := by
  have stored := (storeWord_near hu (heapPlaceOf n 1) (BitVec.ofNat 64 e)).stays
  unfold setEpoch
  generalize s.storeWord q (heapPlaceOf n 1) (BitVec.ofNat 64 e) = t at stored
  exact ⟨stored.cl, stored.dies⟩

theorem setEpoch_mem (e : Nat) : (setEpoch s q n e).mem = s.mem.write (heapPlaceOf n 1) (BitVec.ofNat 64 e).toNat 8 := by
  rw [← storeWord_mem hu]
  rfl

theorem setEpoch_relocs (e : Nat) :
    (setEpoch s q n e).relocs = s.relocs.set n.val { s.relocs[n.val] with epoch := BitVec.ofNat 2 e } n.isLt := by
  unfold setEpoch
  simp only [(storeWord_near hu (heapPlaceOf n 1) (BitVec.ofNat 64 e)).relocs]

end

/-- The two words of the descriptor that the hardware writes: EPOCH and STAT, in memory and in the engine. -/
theorem epochThenStat {s : State} {q : Requester} (hu : s.UntracedAt q.c.die) (n : Fin 16) (hm : Mem.wf s.mem = true) (e : Nat) (v : Word) :
    let t := setStat (setEpoch s q n e) q n v
    Stays s t ∧ t.relocs = s.relocs.set n.val { s.relocs[n.val] with epoch := BitVec.ofNat 2 e, stat := v } n.isLt ∧
      heapWord t n 7 = v ∧ heapWord t n 1 = BitVec.ofNat 64 e ∧
      ∀ x, ¬(Config.heapTable + 64 * n.val + 8 ≤ x ∧ x < Config.heapTable + 64 * n.val + 16) →
        ¬(Config.heapTable + 64 * n.val + 56 ≤ x ∧ x < Config.heapTable + 64 * n.val + 64) → t.mem.get x = s.mem.get x := by
  intro t
  have first := setEpoch_stays hu n e
  have untraced := first.untracedAt hu
  have mem : t.mem = (s.mem.write (heapPlaceOf n 1) (BitVec.ofNat 64 e).toNat 8).write (heapPlaceOf n 7) v.toNat 8 := by
    rw [← setEpoch_mem hu]
    exact setStat_mem untraced n v
  have wf : Mem.wf (s.mem.write (heapPlaceOf n 1) (BitVec.ofNat 64 e).toNat 8) = true := Mem.wf_write 8 hm _ _
  refine ⟨first.trans (setStat_stays untraced n v), ?_, ?_, ?_, fun x h1 h7 => ?_⟩
  · rw [setStat_relocs untraced, setEpoch_relocs hu, Vector.set_set]
    simp
  · rw [heapWord, mem]
    exact word_write _ wf _ v
  · rw [heapWord, mem]
    exact (word_write_other wf v (by unfold heapPlaceOf; omega)).trans (word_write _ hm _ _)
  · rw [mem, Mem.get_write_other 8 wf _ _ x (by unfold heapPlaceOf; omega), Mem.get_write_other 8 hm _ _ x (by unfold heapPlaceOf; omega)]

theorem relocs_set_self (s : State) (n : Fin 16) (x : Reloc) {t : State} (h : t.relocs = s.relocs.set n.val x n.isLt) : t.relocs[n.val] = x := by
  rw [h, getElem_set_fin, if_pos rfl]

theorem relocs_set_other (s : State) {n j : Fin 16} (hj : j ≠ n) (x : Reloc) {t : State} (h : t.relocs = s.relocs.set n.val x n.isLt) :
    t.relocs[j.val] = s.relocs[j.val] := by
  rw [h, getElem_set_fin, if_neg hj]

/-! ### HSTAT and RELOC -/

/-- A trap of a slot whose TVAL is no address that it translates. -/
theorem outcome_trap_untranslated {s : State} {c : BitVec 8} {v : Word} (a : Fin 9) (h : s.untranslated v = true) :
    outcome s (.error (.trap c v a)) = .next (takeTrap s c v a) := by
  unfold outcome
  simp only [h, if_true]

theorem readHeap_of_sound {s : State} (h : s.Sound) (n : Fin 16) : readHeap s n = .ok s := by
  have good : s.badAmong ((List.range 8).map (heapPlaceOf n)) = false := by
    unfold State.badAmong State.badAt
    simp [h.1]
  unfold readHeap
  simp only [good, Bool.false_eq_true, if_false, State.correctAll_of_no_soft h.2]

theorem heapOwnerCheck_of_disabled {s : State} {n : Fin 16} (h : heapEn s n = false) :
    heapOwnerCheck s n = .error (.trap 0x05 (BitVec.ofNat 64 n.val) 8) := by
  unfold heapOwnerCheck
  rw [h]
  rfl

theorem heapOwnerCheck_of_other {s : State} {n : Fin 16} (h : heapEn s n = true) (ho : heapOwner s n ≠ s.asn) (hs : s.sup = false) :
    heapOwnerCheck s n = privilege s := by
  unfold heapOwnerCheck
  simp [h, ho, hs]

theorem heapOwnerCheck_of_owner {s : State} {n : Fin 16} (h : heapEn s n = true) (ho : heapOwner s n = s.asn ∨ s.sup = true) :
    heapOwnerCheck s n = .ok () := by
  unfold heapOwnerCheck
  rcases ho with ho | ho <;> simp [h, ho]

/-- HSTAT posts STAT with EPOCH in place of the zero field. -/
theorem hstat_word (a b : Word) :
    let w := (a &&& ~~~(0xFFF3 : Word)) ||| BitVec.ofNat 64 (bits b 1 0)
    bits w 1 0 = bits b 1 0 ∧ bits w 3 2 = bits a 3 2 ∧ bits w 15 4 = 0 ∧ bits w 63 16 = bits a 63 16 := by
  have small : bits b 1 0 < 4 := bits_lt b 1 0
  have value : (BitVec.ofNat 64 (bits b 1 0)).toNat = bits b 1 0 := by
    rw [BitVec.toNat_ofNat]
    exact Nat.mod_eq_of_lt (by omega)
  generalize bits b 1 0 = e at *
  have parts : bits (BitVec.ofNat 64 e) 1 0 = e ∧ bits (BitVec.ofNat 64 e) 3 2 = 0 ∧ bits (BitVec.ofNat 64 e) 15 4 = 0 ∧
      bits (BitVec.ofNat 64 e) 63 16 = 0 := by
    unfold bits
    rw [value]
    norm_num
    omega
  obtain ⟨p1, p2, p3, p4⟩ := parts
  have m1 : bits (~~~(0xFFF3 : Word)) 1 0 = 0 := rfl
  have m2 : bits (~~~(0xFFF3 : Word)) 3 2 = 2 ^ (3 + 1 - 2) - 1 := rfl
  have m3 : bits (~~~(0xFFF3 : Word)) 15 4 = 0 := rfl
  have m4 : bits (~~~(0xFFF3 : Word)) 63 16 = 2 ^ (63 + 1 - 16) - 1 := rfl
  refine ⟨?_, ?_, ?_, ?_⟩
  · rw [bits_or, bits_and, m1, p1, Nat.and_zero, Nat.zero_or]
  · rw [bits_or, bits_and, m2, p2, bits_and_ones, Nat.or_zero]
  · rw [bits_or, bits_and, m3, p3, Nat.and_zero, Nat.zero_or]
  · rw [bits_or, bits_and, m4, p4, bits_and_ones, Nat.or_zero]

end Sys2Proof.Machine
end

section
/-!
SUPPORT. RELOC and HFLIP (R114 to R116).
-/

namespace Sys2Proof.Machine

/-- The engine works or waits (Table 05.8). -/
theorem engineBusy {x : Nat} (h : x = 1 ∨ x = 2) : (decide (x = 1) || decide (x = 2)) = true := by
  rcases h with rfl | rfl <;> rfl

theorem engineRests {x : Nat} (h1 : x ≠ 1) (h2 : x ≠ 2) : (decide (x = 1) || decide (x = 2)) = false := by
  rw [decide_eq_false h1, decide_eq_false h2]
  rfl

/-! ### RELOC -/

/-- The descriptor as RELOC writes it. -/
def relocTold (s : State) (n : Fin 16) (state : Nat) : State :=
  let st := heapStat s n
  setStat (setEpoch s s.seqRequester n (heapEpoch s n)) s.seqRequester n (statWord (statErr st) (bits st 55 36) (bits st 35 16) state)

section
variable {s : State} (hs : s.Sound)
include hs

theorem exec_reloc_of_error {e : Stop} (h : heapOwnerCheck s (Fin.ofNat 16 (s.rs s.sole).toNat) = .error e) : exec .reloc s = outcome s (.error e) := by
  change execReloc s = _
  unfold execReloc
  simp only [readHeap_of_sound hs, h, bind, Except.bind]

variable {n : Fin 16} (hn : n = Fin.ofNat 16 (s.rs s.sole).toNat) (ho : heapOwnerCheck s n = .ok ())
include hn ho

theorem exec_reloc_of_busy (h : bits (heapStat s n) 3 2 = 1 ∨ bits (heapStat s n) 3 2 = 2) :
    exec .reloc s = .next (takeTrap s 0x12 (BitVec.ofNat 64 n.val) 8) := by
  subst hn
  change execReloc s = _
  unfold execReloc
  simp only [readHeap_of_sound hs, ho, engineBusy h, if_true, bind, Except.bind]
  exact outcome_trap _ _ rfl

variable (h : bits (heapStat s n) 3 2 = 0 ∨ bits (heapStat s n) 3 2 = 3)
include h

/-- Where no entry is left, RELOC writes STAT and EPOCH alone. -/
theorem exec_reloc_of_none (h0 : bits (heapStat s n) 35 16 = 0) : exec .reloc s = .next (relocTold s n 0) := by
  have rest := engineRests (x := bits (heapStat s n) 3 2) (by omega) (by omega)
  rw [relocTold, h0]
  subst hn
  change execReloc s = _
  unfold execReloc
  simp only [readHeap_of_sound hs, ho, rest, h0, Bool.false_eq_true, if_false, if_true, bind, Except.bind]
  rfl

/-- Else it starts the engine. -/
theorem exec_reloc_of_left (h0 : bits (heapStat s n) 35 16 ≠ 0) :
    exec .reloc s = .next (setReloc (relocTold s n 1) n { (relocTold s n 1).relocs[n.val] with
      running := true, parked := false, die := s.cl.id.die, asn := s.asn, sup := s.sup, cur := none }) := by
  have rest := engineRests (x := bits (heapStat s n) 3 2) (by omega) (by omega)
  rw [setReloc, relocTold]
  subst hn
  change execReloc s = _
  unfold execReloc
  simp only [readHeap_of_sound hs, ho, rest, h0, Bool.false_eq_true, if_false, bind, Except.bind]
  rfl

end

/-- What RELOC leaves of the descriptor and the engine. -/
theorem relocTold_spec {s : State} (hm : s.memOk) (hu : s.Untraced) (n : Fin 16) {state : Nat} (hs : state < 4) :
    let st := heapStat s n
    let t := relocTold s n state
    let desc := Config.heapTable + 64 * n.val
    t.cl = s.cl ∧ (∀ x, ¬(desc + 8 ≤ x ∧ x < desc + 16) → ¬(desc + 56 ≤ x ∧ x < desc + 64) → t.mem.get x = s.mem.get x) ∧
      heapWord t n 7 = heapStat t n ∧ heapWord t n 1 = BitVec.ofNat 64 (heapEpoch s n) ∧
      bits (heapStat t n) 63 56 = bits st 63 56 ∧ bits (heapStat t n) 55 36 = bits st 55 36 ∧ bits (heapStat t n) 35 16 = bits st 35 16 ∧
      bits (heapStat t n) 3 2 = state ∧ t.relocs = s.relocs.set n.val { s.relocs[n.val] with stat := heapStat t n } n.isLt := by
  intro st t desc
  obtain ⟨stays, relocs, stat, epoch, frame⟩ := epochThenStat (q := s.seqRequester) hu n hm.1 (heapEpoch s n)
    (statWord (statErr st) (bits st 55 36) (bits st 35 16) state)
  obtain ⟨f1, f2, f3, f4⟩ := statWord_fields (bits_lt st 63 56) (bits_lt st 55 36) (bits_lt st 35 16) hs
  have engine := relocs_set_self s n _ relocs
  have word : heapStat t n = statWord (statErr st) (bits st 55 36) (bits st 35 16) state := congrArg Reloc.stat engine
  have same : BitVec.ofNat 2 (heapEpoch s n) = (s.relocs[n.val]).epoch := BitVec.ofNat_toNat 2 _ |>.trans (BitVec.setWidth_eq _)
  rw [word]
  refine ⟨stays.cl, frame, stat, epoch, f1, f2, f3, f4, ?_⟩
  rw [same] at relocs
  exact relocs

end Sys2Proof.Machine
end

section
/-!
SUPPORT. Flips (R115): the checks read memory and change nothing of it; the members are entered in the next buffer alone.
-/

namespace Sys2Proof.Machine

/-! ### The checks -/

theorem loadNow_kept {s s1 : State} {w : Who} {va : Word} {l : Loc} {n x : Nat} (ho : s.cl.bank.ops = []) (hu : s.Untraced)
    (h : loadNow s w va l n = .ok (s1, x)) : Kept s s1 := by
  unfold loadNow at h
  simp only [beforeSync_of_no_ops ho] at h
  split at h
  · cases h
  · cases h
    have corrected : Kept s (s.correctLoc l n) := by
      cases l with
      | mem pa => exact State.correct_kept s pa n
      | pool => exact .refl s
    exact corrected.trans (cohNow_kept (corrected.untraced hu) ..)

/-- A state whose running bank has no access under way, and whose die's coherence events are not traced. -/
def AtRest (s : State) : Prop := s.cl.bank.ops = [] ∧ s.Untraced

theorem AtRest.kept {s t : State} (h : AtRest s) (k : Kept s t) : AtRest t := ⟨by rw [k.bank]; exact h.1, k.untraced h.2⟩

theorem seqLoadNow_kept {s s1 : State} {u : Use} {va x : Word} (hs : AtRest s) (h : seqLoadNow s u va = .ok (s1, x)) : Kept s s1 := by
  unfold seqLoadNow at h
  obtain ⟨-, -, h⟩ := Eff.bind_eq_ok.mp h
  obtain ⟨-, -, h⟩ := Eff.bind_eq_ok.mp h
  obtain ⟨⟨s2, l⟩, hl, h⟩ := Eff.bind_eq_ok.mp h
  obtain ⟨⟨s3, y⟩, hr, h⟩ := Eff.bind_eq_ok.mp h
  cases h
  have found := locate_kept hs.2 hl
  have calm := hs.kept found
  exact found.trans (loadNow_kept calm.1 calm.2 hr)

theorem asMember_eq_ok {α : Type} {i : Nat} {e : Eff α} {x : α} (h : asMember i e = .ok x) : e = .ok x := by
  unfold asMember at h
  split at h
  · split at h
    · cases h
    · cases h
  · exact h

theorem Eff.ite_error_eq_ok {α : Type} {p : Prop} [Decidable p] {e : Stop} {y : Eff α} {r : α} :
    (if p then .error e else y) = .ok r ↔ ¬p ∧ y = .ok r := by
  by_cases hp : p <;> simp [hp]

theorem extentOk_kept {w : Who} {i k a : Nat} {s s1 : State} (hu : s.Untraced) (h : extentOk w i a k s = .ok s1) : Kept s s1 := by
  induction k generalizing a s with
  | zero =>
    cases h
    exact .refl _
  | succ k ih =>
    unfold extentOk at h
    split at h
    next s2 l found =>
      have first := locate_kept hu (asMember_eq_ok found)
      exact first.trans (ih (first.untraced hu) h)
    next => cases h

theorem readMember_kept {n : Fin 16} {set : Word} {i : Nat} {s s1 : State} {m : Member} (hs : AtRest s) (h : readMember n set i s = .ok (s1, m)) :
    Kept s s1 := by
  unfold readMember at h
  obtain ⟨⟨a, ref⟩, h1, h⟩ := Eff.bind_eq_ok.mp h
  obtain ⟨⟨b, new⟩, h2, h⟩ := Eff.bind_eq_ok.mp h
  have k1 := seqLoadNow_kept hs h1
  have k2 := k1.trans (seqLoadNow_kept (hs.kept k1) h2)
  obtain ⟨-, h⟩ := Eff.ite_error_eq_ok.mp h
  obtain ⟨⟨c, w0⟩, h3, h⟩ := Eff.bind_eq_ok.mp h
  obtain ⟨⟨d, w1⟩, h4, h⟩ := Eff.bind_eq_ok.mp h
  have k3 := k2.trans (seqLoadNow_kept (hs.kept k2) (asMember_eq_ok h3))
  have k4 := k3.trans (seqLoadNow_kept (hs.kept k3) (asMember_eq_ok h4))
  obtain ⟨-, h⟩ := Eff.ite_error_eq_ok.mp h
  cases h
  exact k4

theorem chkExtent_kept {n : Fin 16} {i : Nat} {m : Member} {s s1 : State} (hu : s.Untraced) (h : chkExtent n i m s = .ok s1) : Kept s s1 := by
  unfold chkExtent at h
  obtain ⟨-, h⟩ := Eff.ite_error_eq_ok.mp h
  exact extentOk_kept hu h

theorem readMembers_kept {n : Fin 16} {set : Word} {i k : Nat} {s : State} (hs : AtRest s) : Kept s (readMembers n set i k s).1 := by
  induction k generalizing i s with
  | zero => exact .refl s
  | succ k ih =>
    unfold readMembers
    split
    · exact ih hs
    next s1 m read =>
      have first := readMember_kept hs read
      split
      · exact first.trans (ih (hs.kept first))
      next s2 extent =>
        have second := first.trans (chkExtent_kept (hs.kept first).2 extent)
        exact second.trans (ih (hs.kept second))

/-- The checks of a flip change no byte of memory. -/
theorem flipCheck_kept {s s1 : State} {set : Word} {n : Fin 16} {ms : List Member} (sound : s.Sound) (hs : AtRest s)
    (h : flipCheck s set n = .ok (s1, ms)) : Kept s s1 := by
  unfold flipCheck at h
  obtain ⟨_, read, h⟩ := Eff.bind_eq_ok.mp h
  cases (readHeap_of_sound sound n).symm.trans read
  obtain ⟨-, -, h⟩ := Eff.bind_eq_ok.mp h
  obtain ⟨-, h⟩ := Eff.ite_error_eq_ok.mp h
  obtain ⟨-, h⟩ := Eff.ite_error_eq_ok.mp h
  obtain ⟨⟨s2, cnt⟩, read, h⟩ := Eff.bind_eq_ok.mp h
  have first := seqLoadNow_kept hs read
  obtain ⟨-, h⟩ := Eff.ite_error_eq_ok.mp h
  simp only at h
  split at h
  · cases h
  · cases h
    exact first.trans (readMembers_kept (hs.kept first))

/-! ### The next buffer -/

/-- From s to t the cluster and the dies stay, and memory has changed from lo to hi - 1 alone. -/
structure Within (lo hi : Nat) (s t : State) : Prop extends Stays s t where
  frame : ∀ x, ¬(lo ≤ x ∧ x < hi) → t.mem.get x = s.mem.get x
  wf : Mem.wf s.mem = true → Mem.wf t.mem = true

theorem Within.trans {lo hi : Nat} {s t u : State} (h : Within lo hi s t) (k : Within lo hi t u) : Within lo hi s u :=
  ⟨h.toStays.trans k.toStays, fun x hx => (k.frame x hx).trans (h.frame x hx), fun w => k.wf (h.wf w)⟩

theorem zeroBuffer_within {s : State} (hu : s.Untraced) (n : Fin 16) :
    let base := forwardBase s n ((heapEpoch s n + 1) % 4)
    Within base (base + 16 * 2 ^ heapTlog s n) s (zeroBuffer s n) := by
  intro base
  have owned := State.ownRun_kept (q := s.seqRequester) hu base (16 * 2 ^ heapTlog s n)
  have stays : Stays s (s.ownRun s.seqRequester base (16 * 2 ^ heapTlog s n)) := ⟨(State.ownRun_quiet ..).cl, owned.dies⟩
  have mem := owned.mem
  unfold zeroBuffer
  change Within base _ s (let t := s.ownRun s.seqRequester base (16 * 2 ^ heapTlog s n);
    { t with mem := Cells.clear t.mem base _, badWords := coverWords t.badWords base _ })
  generalize s.ownRun s.seqRequester base (16 * 2 ^ heapTlog s n) = t at stays mem
  refine ⟨⟨stays.cl, stays.dies⟩, fun x hx => ?_, fun wf => Mem.wf_clear (by rw [mem]; exact wf) _ _⟩
  rw [← mem]
  exact (Cells.get_clear ..).trans (if_neg (by simpa using hx))

theorem probes_lt {tlog x p : Nat} (h : p ∈ probes tlog x) : p < 2 ^ tlog := by
  obtain ⟨i, -, rfl⟩ := List.mem_map.mp h
  exact Nat.mod_lt _ (Nat.two_pow_pos _)

/-- The members are entered in the buffer alone; each is entered or skipped. -/
theorem enterMembers_within {h : Fin 16} {base tlog : Nat} {ms : List Member} {i made skipped made' skipped' : Nat} {s t : State} (hu : s.Untraced)
    (hm : Mem.wf s.mem = true) (he : enterMembers h base tlog i ms s made skipped = .ok (t, made', skipped')) :
    Within base (base + 16 * 2 ^ tlog) s t ∧ made' + skipped' = made + skipped + ms.length := by
  induction ms generalizing i made skipped s with
  | nil =>
    cases he
    exact ⟨⟨⟨rfl, fun _ => ⟨rfl, rfl⟩⟩, fun _ _ => rfl, id⟩, rfl⟩
  | cons m ms ih =>
    unfold enterMembers at he
    simp only at he
    rw [List.length_cons]
    split at he
    · obtain ⟨within, total⟩ := ih hu hm he
      exact ⟨within, by omega⟩
    · split at he
      · cases he
      next p found =>
        have slot := probes_lt (List.mem_of_find?_eq_some found)
        have near := storeWord_near (q := s.seqRequester) hu (base + 16 * p) (BitVec.ofNat 64 (m.old % 2 ^ 56 + 1))
        have mem := storeWord_mem (q := s.seqRequester) hu (base + 16 * p) (BitVec.ofNat 64 (m.old % 2 ^ 56 + 1))
        have stays := near.stays
        have first : Within base (base + 16 * 2 ^ tlog) s
            (setNew (s.storeWord s.seqRequester (base + 16 * p) (BitVec.ofNat 64 (m.old % 2 ^ 56 + 1))) h p m.new) := by
          unfold setNew
          generalize s.storeWord s.seqRequester (base + 16 * p) (BitVec.ofNat 64 (m.old % 2 ^ 56 + 1)) = u at stays mem
          refine ⟨⟨stays.cl, stays.dies⟩, fun x hx => ?_, fun wf => ?_⟩
          · change u.mem.get x = _
            rw [mem]
            exact Mem.get_write_other 8 hm _ _ x (by omega)
          · change Mem.wf u.mem = true
            rw [mem]
            exact Mem.wf_write 8 wf _ _
        have untraced : State.Untraced (setNew (s.storeWord s.seqRequester (base + 16 * p) (BitVec.ofNat 64 (m.old % 2 ^ 56 + 1))) h p m.new) := by
          have stayed := first.toStays.untracedAt hu
          rw [State.Untraced, first.cl]
          exact stayed
        obtain ⟨within, total⟩ := ih untraced (first.wf hm) he
        exact ⟨first.trans within, by omega⟩

/-- What a flip leaves (R115). -/
theorem flipEnter_spec {s t : State} {n : Fin 16} {ms : List Member} (hu : s.Untraced) (hm : Mem.wf s.mem = true) (hn : ms.length < 2 ^ 20)
    (h : flipEnter s n ms = .ok t) :
    let next := (heapEpoch s n + 1) % 4
    let buf := forwardBase s n next
    let desc := Config.heapTable + 64 * n.val
    t.cl = s.cl ∧ heapEpoch t n = next ∧ bits (heapWord t n 1) 1 0 = next ∧ heapWord t n 7 = heapStat t n ∧ bits (heapStat t n) 3 2 = 0 ∧
      bits (heapStat t n) 63 56 = 0 ∧ bits (heapStat t n) 55 36 + bits (heapStat t n) 35 16 = ms.length ∧
      ∀ x, ¬(buf ≤ x ∧ x < buf + 16 * 2 ^ heapTlog s n) → ¬(desc + 8 ≤ x ∧ x < desc + 16) → ¬(desc + 56 ≤ x ∧ x < desc + 64) →
        t.mem.get x = s.mem.get x := by
  intro next buf desc
  unfold flipEnter at h
  simp only at h
  split at h
  · cases h
  next u made skipped entered =>
    cases h
    have zero := zeroBuffer_within hu n
    have forgot : Within buf (buf + 16 * 2 ^ heapTlog s n) s (forgetTable (zeroBuffer s n) n) := by
      unfold forgetTable
      generalize zeroBuffer s n = z at zero
      exact ⟨⟨zero.cl, zero.dies⟩, zero.frame, zero.wf⟩
    have untraced : (forgetTable (zeroBuffer s n) n).Untraced := by
      have stayed := forgot.toStays.untracedAt hu
      rw [State.Untraced, forgot.cl]
      exact stayed
    obtain ⟨within, total⟩ := enterMembers_within untraced (forgot.wf hm) entered
    have all := forgot.trans within
    have small : next < 4 := Nat.mod_lt _ (by norm_num)
    obtain ⟨stays, relocs, stat, epoch, frame⟩ := epochThenStat (q := s.seqRequester) (all.toStays.untracedAt hu) n (all.wf hm) next
      (statWord 0 skipped made 0)
    obtain ⟨f1, f2, f3, f4⟩ := statWord_fields (err := 0) (skip := skipped) (left := made) (state := 0) (by norm_num) (by omega) (by omega) (by norm_num)
    have engine := relocs_set_self u n _ relocs
    have word := congrArg Reloc.stat engine
    refine ⟨stays.cl.trans all.cl, ?_, ?_, stat.trans word.symm, ?_, ?_, ?_, fun x hb h1 h7 => (frame x h1 h7).trans (all.frame x hb)⟩
    · rw [heapEpoch, engine]
      exact (BitVec.toNat_ofNat next 2).trans (Nat.mod_eq_of_lt small)
    · rw [epoch]
      exact (bits_ofNat_two small).1
    · rw [heapStat, word]
      exact f4
    · rw [heapStat, word]
      exact f1
    · rw [heapStat, word]
      change bits (statWord 0 skipped made 0) 55 36 + bits (statWord 0 skipped made 0) 35 16 = _
      rw [f2, f3]
      omega

end Sys2Proof.Machine
end

section
/-!
SUPPORT. HFLIP as a slot, and the steps of the relocation engine (R115, R116).
-/

namespace Sys2Proof.Machine

/-! ### HFLIP -/

section
variable {s : State} {set : Word} {n : Fin 16} (hs : s.Sound)
include hs

theorem flipCheck_of_error {e : Stop} (h : heapOwnerCheck s n = .error e) : flipCheck s set n = .error e := by
  unfold flipCheck
  simp only [readHeap_of_sound hs, h, bind, Except.bind]

variable (ho : heapOwnerCheck s n = .ok ()) (hd : storesDone s = true)
include ho hd

theorem flipCheck_of_busy (h : bits (heapStat s n) 3 2 = 1 ∨ bits (heapStat s n) 3 2 = 2) :
    flipCheck s set n = .error (.trap 0x12 (BitVec.ofNat 64 n.val) 8) := by
  unfold flipCheck
  simp only [readHeap_of_sound hs, ho, hd, engineBusy h, Bool.not_true, Bool.false_eq_true, if_false, if_true, bind, Except.bind]
  rfl

theorem flipCheck_of_count (h1 : bits (heapStat s n) 3 2 ≠ 1) (h2 : bits (heapStat s n) 3 2 ≠ 2) {s1 : State} {cnt : Word}
    (hr : seqLoadNow s {} set = .ok (s1, cnt)) (hc : cnt.toNat = 0 ∨ 2 ^ (heapTlog s n - 1) < cnt.toNat) :
    flipCheck s set n = .error (.trap 0x0C cnt 8) := by
  have out : (decide (cnt = 0) || decide (2 ^ (heapTlog s n - 1) < cnt.toNat)) = true := by
    rcases hc with hc | hc
    · rw [BitVec.eq_of_toNat_eq (y := 0) hc]
      rfl
    · rw [decide_eq_true hc, Bool.or_true]
  unfold flipCheck
  simp only [readHeap_of_sound hs, ho, hd, engineRests h1 h2, hr, Bool.not_true, Bool.false_eq_true, if_false, bind, Except.bind]
  exact if_pos out

end

section
variable {s0 s : State} {a b : Fin 32} {n : Fin 16} (hs : s = commitLate s0) (hp : s.opn.phase = 0) (hn : n = Fin.ofNat 16 (s.rs b).toNat)
include hs hp hn

theorem exec_hflip_of_error {e : Stop} (h : flipCheck s (s.rs a) n = .error e) : exec (.hflip a b) s0 = outcome s (.error e) := by
  subst hn hs
  change execHflip a b s0 = _
  unfold execHflip
  simp only [hp, h, Nat.zero_ne_one, if_false]

theorem exec_hflip_of_ok {s1 t : State} {ms : List Member} (h : flipCheck s (s.rs a) n = .ok (s1, ms)) (he : flipEnter s1 n ms = .ok t)
    (hb : rangeBusy t n = false) : exec (.hflip a b) s0 = .next t := by
  subst hn hs
  change execHflip a b s0 = _
  unfold execHflip
  simp only [hp, h, he, hb, Nat.zero_ne_one, if_false, Bool.false_eq_true]

end

/-! ### The engine's own state -/

/-- STAT becomes `v`, and the engine what `f` makes of it. -/
def engineTold (s : State) (q : Requester) (n : Fin 16) (v : Word) (f : Reloc → Reloc) : State :=
  setReloc (setStat s q n v) n (f (setStat s q n v).relocs[n.val])

theorem focus_parts (s : State) (c : ClusterId) : (s.focus c).mem = s.mem ∧ (s.focus c).relocs = s.relocs ∧ (s.focus c).badWords = s.badWords ∧
    (s.focus c).softWords = s.softWords ∧ (s.focus c).dies = s.dies := by
  unfold State.focus
  split <;> exact ⟨rfl, rfl, rfl, rfl, rfl⟩

theorem focus_id (s : State) (c : ClusterId) : (s.focus c).cl.id = c := by
  unfold State.focus
  split
  next h => exact h
  next => exact s.clusterAt_id c

section
variable {u : State} {n : Fin 16} (hs : u.Sound) (hr : (u.relocs[n.val]).running = true) (hp : (u.relocs[n.val]).parked = false)
include hs hr hp

theorem relocHere_of_cur {p : Nat} (hc : (u.relocs[n.val]).cur = some p) : relocHere n u = relocCopy n (forwardBase u n (heapEpoch u n)) p u := by
  have good (ws : List Nat) : u.badAmong ws = false := State.badAmong_of_sound hs.1 ws
  unfold relocHere
  simp only [hr, hp, hc, good, State.correctAll_of_no_soft hs.2, Bool.not_true, Bool.or_false, Bool.false_eq_true, if_false]

theorem relocHere_of_next {p : Nat} (hc : (u.relocs[n.val]).cur = none) (hn : nextEntry u n (forwardBase u n (heapEpoch u n)) = some p) :
    relocHere n u = setReloc (takeEntry u (relocRequester u n) (forwardBase u n (heapEpoch u n)) p) n
      { u.relocs[n.val] with cur := some p, raised := (u.relocs[n.val]).raised.filter fun x => x ≠ p } := by
  have good (ws : List Nat) : u.badAmong ws = false := State.badAmong_of_sound hs.1 ws
  unfold relocHere
  simp only [hr, hp, hc, hn, good, State.correctAll_of_no_soft hs.2, Bool.not_true, Bool.or_false, Bool.false_eq_true, if_false]
  rfl

theorem relocHere_of_none (hc : (u.relocs[n.val]).cur = none) (hn : nextEntry u n (forwardBase u n (heapEpoch u n)) = none) :
    relocHere n u = engineTold u (relocRequester u n) n
      (statWord (statErr (heapStat u n)) (bits (heapStat u n) 55 36) (bits (heapStat u n) 35 16) 0)
      fun x => { x with running := false, raised := [] } := by
  have good (ws : List Nat) : u.badAmong ws = false := State.badAmong_of_sound hs.1 ws
  unfold relocHere
  simp only [hr, hp, hc, hn, good, State.correctAll_of_no_soft hs.2, Bool.not_true, Bool.or_false, Bool.false_eq_true, if_false]
  rfl

end

/-- An entry is PENDING (Table 05.4). -/
def entryPends (u : State) (base p : Nat) : Bool := entryState (entryWord u base p 0) = 1

theorem nextEntry_eq {u : State} (hs : u.Sound) (n : Fin 16) (base : Nat) :
    nextEntry u n base = ((u.relocs[n.val]).raised.find? (entryPends u base)).or ((List.range (2 ^ heapTlog u n)).find? (entryPends u base)) := by
  have pend : (fun p => u.badAt (base + 16 * p) 8 || decide (entryState (entryWord u base p 0) = 1)) = entryPends u base := by
    funext p
    unfold State.badAt entryPends
    simp [hs.1]
  unfold nextEntry
  simp only [pend]
  cases (u.relocs[n.val]).raised.find? (entryPends u base) <;> rfl

/-! ### What its steps leave -/

section
variable {u : State} (hm : Mem.wf u.mem = true) {q : Requester} (hu : u.UntracedAt q.c.die) (n : Fin 16) (base p : Nat)
include hm hu

/-- An entry that is taken is COPYING, and memory is otherwise as it was. -/
theorem takeEntry_spec : let t := takeEntry u q base p
    t.cl = u.cl ∧ t.relocs = u.relocs ∧ entryState (entryWord t base p 0) = 2 ∧
      bits (entryWord t base p 0) 63 2 = bits (entryWord u base p 0) 63 2 ∧
      ∀ x, x < base + 16 * p ∨ base + 16 * p + 8 ≤ x → t.mem.get x = u.mem.get x := by
  intro t
  have home := State.homeLine_kept hu ((base + 16 * p) / 128)
  have word : entryWord (u.homeLine q ((base + 16 * p) / 128)) base p 0 = entryWord u base p 0 := by rw [entryWord, entryWord, home.mem]
  have mem : t.mem = u.mem.write (base + 16 * p) ((entryWord u base p 0 &&& ~~~(3 : Word)) ||| 2).toNat 8 := by
    rw [← word, ← home.mem]
    rfl
  have now : entryWord t base p 0 = (entryWord u base p 0 &&& ~~~(3 : Word)) ||| 2 := by
    rw [entryWord, mem]
    exact word_write _ hm _ _
  obtain ⟨low, high⟩ := bits_setState (entryWord u base p 0) (k := 2) (by norm_num)
  refine ⟨(State.homeLine_quiet ..).cl, home.relocs, ?_, ?_, fun x hx => ?_⟩
  · rw [now]
    exact low
  · rw [now]
    exact high
  · rw [mem]
    exact Mem.get_write_other 8 hm _ _ x hx

/-- STAT becomes `v`, and the descriptor is otherwise as it was. -/
theorem setStat_frame (v : Word) : ∀ x, x < Config.heapTable + 64 * n.val + 56 ∨ Config.heapTable + 64 * n.val + 64 ≤ x →
    (setStat u q n v).mem.get x = u.mem.get x := by
  intro x hx
  rw [setStat_mem hu]
  exact Mem.get_write_other 8 hm _ _ x (by unfold heapPlaceOf; omega)

theorem setStat_entry (v : Word) (hb : base + 16 * (p + 1) ≤ Config.heapTable) {k : Nat} (hk : k < 2) :
    entryWord (setStat u q n v) base p k = entryWord u base p k := by
  rw [entryWord, setStat_mem hu]
  exact word_write_other hm v (by unfold heapPlaceOf; omega)

/-- An entry with another STATE. -/
theorem setEntry_spec {st : Nat} (hst : st < 4) : let t := setEntry u q base p st
    Near u t ∧ Mem.wf t.mem = true ∧ entryState (entryWord t base p 0) = st ∧ bits (entryWord t base p 0) 63 2 = bits (entryWord u base p 0) 63 2 ∧
      entryWord t base p 1 = entryWord u base p 1 ∧ ∀ x, x < base + 16 * p ∨ base + 16 * p + 8 ≤ x → t.mem.get x = u.mem.get x := by
  intro t
  have mem : t.mem = u.mem.write (base + 16 * p) ((entryWord u base p 0 &&& ~~~(3 : Word)) ||| BitVec.ofNat 64 st).toNat 8 := storeWord_mem hu _ _
  have now : entryWord t base p 0 = (entryWord u base p 0 &&& ~~~(3 : Word)) ||| BitVec.ofNat 64 st := by
    rw [entryWord, mem]
    exact word_write _ hm _ _
  obtain ⟨low, high⟩ := bits_setState (entryWord u base p 0) hst
  refine ⟨storeWord_near hu _ _, ?_, ?_, ?_, ?_, fun x hx => ?_⟩
  · rw [mem]
    exact Mem.wf_write 8 hm _ _
  · rw [now]
    exact low
  · rw [now]
    exact high
  · rw [entryWord, mem]
    exact word_write_other hm _ (by omega)
  · rw [mem]
    exact Mem.get_write_other 8 hm _ _ x hx

end

theorem setStat_engine {u : State} {q : Requester} (hu : u.UntracedAt q.c.die) (n : Fin 16) (v : Word) :
    (setStat u q n v).relocs[n.val] = { u.relocs[n.val] with stat := v } := relocs_set_self u n _ (setStat_relocs hu n v)

theorem setReloc_engine (u : State) (n : Fin 16) (x : Reloc) : (setReloc u n x).relocs[n.val] = x := relocs_set_self u n x rfl

theorem setReloc_stat (u : State) (n : Fin 16) (x : Reloc) : heapStat (setReloc u n x) n = x.stat := congrArg Reloc.stat (setReloc_engine u n x)

theorem setReloc_epoch (u : State) (n : Fin 16) (x : Reloc) : heapEpoch (setReloc u n x) n = x.epoch.toNat :=
  congrArg (fun y : Reloc => y.epoch.toNat) (setReloc_engine u n x)

theorem engineTold_spec {s : State} {q : Requester} (hm : Mem.wf s.mem = true) (hu : s.UntracedAt q.c.die) (n : Fin 16) (v : Word) (f : Reloc → Reloc) :
    let t := engineTold s q n v f
    t.cl = s.cl ∧ t.relocs[n.val] = f { s.relocs[n.val] with stat := v } ∧
      ∀ x, x < Config.heapTable + 64 * n.val + 56 ∨ Config.heapTable + 64 * n.val + 64 ≤ x → t.mem.get x = s.mem.get x := by
  intro t
  have stays := setStat_stays hu n v
  have engine := setStat_engine hu n v
  have frame := setStat_frame hm hu n v
  have eq : t = setReloc (setStat s q n v) n (f { s.relocs[n.val] with stat := v }) := by
    change engineTold s q n v f = _
    rw [engineTold, engine]
  rw [eq]
  generalize setStat s q n v = u at stays frame
  exact ⟨stays.cl, setReloc_engine .., frame⟩

theorem engineTold_entry {s : State} {q : Requester} (hm : Mem.wf s.mem = true) (hu : s.UntracedAt q.c.die) (n : Fin 16) (v : Word) (f : Reloc → Reloc)
    {base p k : Nat} (hb : base + 16 * (p + 1) ≤ Config.heapTable) (hk : k < 2) :
    entryWord (engineTold s q n v f) base p k = entryWord s base p k := by
  have same := setStat_entry hm hu n base p v hb hk
  unfold engineTold
  generalize setStat s q n v = u at same
  exact same

end Sys2Proof.Machine
end

section
/-!
SUPPORT. The engine's copy of an object (R116): bytes of memory, and what else it leaves.
-/

namespace Sys2Proof.Machine

/-! ### Runs of cells -/

theorem Cells.get_append_right {w : Nat} {a b : Cells w} {k : Nat} (h : ∀ q ∈ a, q.1 ≠ k) : Cells.get (a ++ b) k = Cells.get b k := by
  induction a with
  | nil => rfl
  | cons x a ih =>
    obtain ⟨j, v⟩ := x
    rw [List.cons_append, Cells.get, if_neg (h (j, v) List.mem_cons_self)]
    exact ih fun q hq => h q (List.mem_cons_of_mem _ hq)

theorem Cells.get_append_left {w : Nat} {a b : Cells w} {k : Nat} (h : ∀ q ∈ b, q.1 ≠ k) : Cells.get (a ++ b) k = Cells.get a k := by
  induction a with
  | nil => exact Cells.get_eq_zero h
  | cons x a ih =>
    obtain ⟨j, v⟩ := x
    rw [List.cons_append, Cells.get, Cells.get, ih]

/-- A run of cells put in place of another. -/
theorem Cells.get_replace {w : Nat} (m new : Cells w) {lo hi : Nat} (hlh : lo ≤ hi) (hn : ∀ q ∈ new, lo ≤ q.1 ∧ q.1 < hi) (k : Nat) :
    Cells.get (Cells.replace m lo hi new) k = if lo ≤ k ∧ k < hi then Cells.get new k else Cells.get m k := by
  unfold Cells.replace
  have below : ∀ q ∈ m.filter fun p => decide (p.1 < lo), q.1 < lo := fun q hq => of_decide_eq_true (List.mem_filter.mp hq).2
  have above : ∀ q ∈ m.filter fun p => decide (hi ≤ p.1), hi ≤ q.1 := fun q hq => of_decide_eq_true (List.mem_filter.mp hq).2
  rcases Nat.lt_or_ge k lo with hk | hk
  · rw [if_neg (by omega), List.append_assoc, Cells.get_append_left, Cells.get_filter (fun j => decide (j < lo)), if_pos (decide_eq_true hk)]
    intro q hq
    rcases List.mem_append.mp hq with hq | hq
    · have := hn q hq
      omega
    · have := above q hq
      omega
  · rcases Nat.lt_or_ge k hi with hk' | hk'
    · rw [if_pos ⟨hk, hk'⟩, Cells.get_append_left, Cells.get_append_right]
      · intro q hq
        have := below q hq
        omega
      · intro q hq
        have := above q hq
        omega
    · rw [if_neg (by omega), Cells.get_append_right, Cells.get_filter (fun j => decide (hi ≤ j)), if_pos (decide_eq_true hk')]
      intro q hq
      rcases List.mem_append.mp hq with hq | hq
      · have := below q hq
        omega
      · have := hn q hq
        omega

/-- Cells from a on, moved to b. -/
theorem Cells.get_moved {w : Nat} {m : Cells w} {a : Nat} (h : ∀ q ∈ m, a ≤ q.1) (b i : Nat) :
    Cells.get (m.map fun c => (c.1 - a + b, c.2)) (b + i) = Cells.get m (a + i) := by
  induction m with
  | nil => rfl
  | cons x m ih =>
    obtain ⟨j, v⟩ := x
    have first : a ≤ j := h (j, v) List.mem_cons_self
    rw [List.map_cons, Cells.get, Cells.get, ih fun q hq => h q (List.mem_cons_of_mem _ hq)]
    exact if_congr (by omega) rfl rfl

theorem Cells.get_slice {w : Nat} (m : Cells w) (lo hi k : Nat) : Cells.get (Cells.slice m lo hi) k = if lo ≤ k ∧ k < hi then Cells.get m k else 0 := by
  rw [Cells.slice, Cells.get_filter (fun j => decide (lo ≤ j) && decide (j < hi))]
  exact if_congr (by simp) rfl rfl

theorem Cells.mem_slice {w : Nat} {m : Cells w} {lo hi : Nat} {q : Nat × BitVec w} (h : q ∈ Cells.slice m lo hi) : lo ≤ q.1 ∧ q.1 < hi := by
  have inside := (List.mem_filter.mp h).2
  simpa using inside

/-- The bytes of an object, numbered from 0, without its PINS. -/
def objectBytes (m : Mem) (pa len : Nat) : Mem :=
  ((Cells.slice m pa (pa + len)).map fun c => (c.1 - pa + 0, c.2)).filter fun c => !(8 ≤ c.1 && c.1 < 12)

/-- Memory once those bytes are put at pb. -/
def putObject (m bytes : Mem) (pb len : Nat) : Mem :=
  Cells.replace m pb (pb + len) ((Cells.slice bytes 0 (0 + len)).map fun c => (c.1 - 0 + pb, c.2))

theorem get_objectBytes (m : Mem) (pa len i : Nat) (hi : i < len) :
    Cells.get (objectBytes m pa len) i = if 8 ≤ i ∧ i < 12 then 0 else Mem.get m (pa + i) := by
  rw [objectBytes, Cells.get_filter (fun j => !(decide (8 ≤ j) && decide (j < 12)))]
  have moved := Cells.get_moved (fun q hq => (Cells.mem_slice hq).1) 0 i (m := Cells.slice m pa (pa + len)) (a := pa)
  rw [Nat.zero_add, Cells.get_slice, if_pos ⟨by omega, by omega⟩] at moved
  rw [moved]
  by_cases pins : 8 ≤ i ∧ i < 12
  · rw [if_pos pins, if_neg (by simp [pins])]
  · rw [if_neg pins, if_pos (by simp only [Bool.not_eq_true', Bool.and_eq_false_iff, decide_eq_false_iff_not]; omega)]
    rfl

/-- The object is copied, and no byte outside the new extent changes. -/
theorem get_putObject (m : Mem) (pa pb len : Nat) :
    (∀ i, i < len → Mem.get (putObject m (objectBytes m pa len) pb len) (pb + i) = if 8 ≤ i ∧ i < 12 then 0 else Mem.get m (pa + i)) ∧
      ∀ x, x < pb ∨ pb + len ≤ x → Mem.get (putObject m (objectBytes m pa len) pb len) x = Mem.get m x := by
  have inside : ∀ q ∈ (Cells.slice (objectBytes m pa len) 0 (0 + len)).map fun c => (c.1 - 0 + pb, c.2), pb ≤ q.1 ∧ q.1 < pb + len := by
    intro q hq
    obtain ⟨c, hc, rfl⟩ := List.mem_map.mp hq
    have := (Cells.mem_slice hc).2
    exact ⟨Nat.le_add_left .., by simp only; omega⟩
  refine ⟨fun i hi => ?_, fun x hx => ?_⟩
  · refine (Cells.get_replace _ _ (Nat.le_add_right ..) inside _).trans ?_
    rw [if_pos ⟨Nat.le_add_right .., by omega⟩, Cells.get_moved (fun _ _ => Nat.zero_le _), Cells.get_slice, if_pos ⟨Nat.zero_le _, by omega⟩, Nat.zero_add,
      get_objectBytes m pa len i hi]
  · exact (Cells.get_replace _ _ (Nat.le_add_right ..) inside _).trans (if_neg (by omega))

/-! ### Places of a block -/

theorem placeChunks_kept {w : Who} {u : Use} {va : Word} {l : List (Nat × Nat)} {s s1 : State} {ps : List (Nat × Nat × Nat)} (hu : s.Untraced)
    (h : placeChunks w u va l s = .ok (s1, ps)) : Kept s s1 := by
  induction l generalizing s ps with
  | nil =>
    cases h
    exact .refl _
  | cons c l ih =>
    unfold placeChunks at h
    simp only at h
    split at h
    · cases h
    next found =>
      cases h
      exact locate_kept hu found
    next s2 pa found =>
      have first := locate_kept hu found
      obtain ⟨-, h⟩ := Eff.ite_trap_eq_ok.mp h
      obtain ⟨-, h⟩ := Eff.ite_trap_eq_ok.mp h
      have read : Kept s (if u.write then s2 else (s2.correct pa c.2).readRun (.engine s2.cl.id w.asn) pa c.2) := by
        split
        · exact first
        · have corrected := first.trans (State.correct_kept s2 pa c.2)
          refine corrected.trans (State.readRun_kept ?_ pa c.2)
          have untraced := corrected.untraced hu
          rw [State.Untraced, (State.correct_quiet s2 pa c.2).cl] at untraced
          exact untraced
      split at h
      · cases h
      next rest =>
        cases h
        exact read.trans (ih (read.untraced hu) rest)

/-- One part that is reached with no walk. -/
theorem placeChunks_of_reaches {w : Who} {u : Use} {va : Word} {s : State} {n pa : Nat} (hs : s.Sound) (hu : s.Untraced)
    (hr : Reaches s w u va 8 (.mem pa)) (hm : pa + n ≤ Config.memTop) : ∃ t, placeChunks w u va [(0, n)] s = .ok (t, [(0, n, pa)]) ∧ Like s t := by
  have place : locate s w u (va + BitVec.ofNat 64 0) 8 = .ok (s, .mem pa) := by
    rw [show va + BitVec.ofNat 64 0 = va from BitVec.add_zero va]
    exact locate_of_reaches hr
  have good : s.badAt pa n = false := by
    unfold State.badAt
    rw [hs.1]
    rfl
  refine ⟨if u.write then s else (s.correct pa n).readRun (.engine s.cl.id w.asn) pa n, ?_, ?_⟩
  · unfold placeChunks
    simp only [place, good, Nat.not_lt.mpr hm, Bool.and_false, Bool.false_eq_true, if_false]
    rfl
  · split
    · exact .refl s
    · rw [State.correct_of_no_soft hs.2]
      exact ⟨State.readRun_kept (q := .engine s.cl.id w.asn) hu pa n, (State.readRun_quiet ..).cl⟩

/-- A block within one page of 64 KiB is one part. -/
theorem chunks_of_fits {va len fuel : Nat} (h0 : 0 < len) (hf : va % 65536 + len ≤ 65536) : chunks va 0 len (fuel + 1) = [(0, len)] := by
  have part : min (65536 - (va + 0) % 65536) len = len := by
    rw [Nat.add_zero]
    omega
  unfold chunks
  simp only [part, Nat.sub_self, if_neg (Nat.ne_of_gt h0)]
  cases fuel <;> rfl

/-! ### The copy -/

/-- The lines of the new extent become writable in the engine's die. -/
def ownParts (asn : BitVec 16) (qs : List (Nat × Nat × Nat)) (s : State) : State :=
  qs.foldl (fun t q => t.ownRun (.engine t.cl.id asn) q.2.2 q.2.1) s

theorem ownParts_like {asn : BitVec 16} (qs : List (Nat × Nat × Nat)) {s : State} (hu : s.Untraced) : Like s (ownParts asn qs s) := by
  induction qs generalizing s with
  | nil => exact .refl s
  | cons q qs ih =>
    have first : Like s (s.ownRun (.engine s.cl.id asn) q.2.2 q.2.1) :=
      ⟨State.ownRun_kept (q := .engine s.cl.id asn) hu q.2.2 q.2.1, (State.ownRun_quiet ..).cl⟩
    exact first.trans (ih (first.untraced hu))

theorem coverWords_parts (qs : List (Nat × Nat × Nat)) {bad : List Nat} (h : bad = []) : qs.foldl (fun b q => coverWords b q.2.2 q.2.1) bad = [] := by
  subst h
  induction qs with
  | nil => rfl
  | cons q qs ih => exact ih

/-- The new extent is written. -/
def withParts (s : State) (m : Mem) (qs : List (Nat × Nat × Nat)) : State :=
  { s with mem := m, badWords := qs.foldl (fun b q => coverWords b q.2.2 q.2.1) s.badWords }

theorem withParts_near (s : State) (m : Mem) (qs : List (Nat × Nat × Nat)) : Near s (withParts s m qs) :=
  ⟨⟨rfl, fun hb => coverWords_parts qs hb, id, fun _ => ⟨rfl, rfl⟩, id⟩, rfl⟩

/-- A copy changes memory, TLBs and the directory alone. -/
theorem copyObject_beside {s s1 : State} {w : Who} {old new : Nat} (hu : s.Untraced) (h : copyObject s w old new = .ok s1) : Beside s s1 := by
  unfold copyObject at h
  obtain ⟨⟨a, ps0⟩, h1, h⟩ := Eff.bind_eq_ok.mp h
  obtain ⟨⟨b, ps⟩, h2, h⟩ := Eff.bind_eq_ok.mp h
  obtain ⟨⟨c, qs⟩, h3, h⟩ := Eff.bind_eq_ok.mp h
  have k1 := placeChunks_kept hu h1
  have k2 := k1.trans (placeChunks_kept (k1.untraced hu) h2)
  have k3 := k2.trans (placeChunks_kept (k2.untraced hu) h3)
  have untraced := k3.untraced hu
  have written (m : Mem) : Beside s (ownParts w.asn qs (withParts c m qs)) :=
    have first := (withParts_near c m qs).toBeside
    (k3.toBeside.trans first).trans (ownParts_like qs (first.untraced untraced)).toBeside
  simp only [Except.ok.injEq] at h
  subst h
  exact written _

/-- An object of one page is copied to one page with PINS zero, and nothing else changes of the cluster or of memory (R116). -/
theorem copyObject_of_reaches {s : State} {w : Who} {old new pa pb : Nat} (hs : s.Sound) (hu : s.Untraced) (h0 : 0 < s.mem.read pa 4)
    (ho : old % 65536 + 128 * s.mem.read pa 4 ≤ 65536) (hn : new % 65536 + 128 * s.mem.read pa 4 ≤ 65536)
    (ha : pa + 128 * s.mem.read pa 4 ≤ Config.memTop) (hb : pb + 128 * s.mem.read pa 4 ≤ Config.memTop)
    (hr : Reaches s w { href := true } (BitVec.ofNat 64 old) 8 (.mem pa))
    (hw : Reaches s w { href := true, write := true } (BitVec.ofNat 64 new) 8 (.mem pb)) :
    ∃ t, copyObject s w old new = .ok t ∧ t.cl = s.cl ∧
      t.mem = putObject s.mem (objectBytes s.mem pa (128 * s.mem.read pa 4)) pb (128 * s.mem.read pa 4) := by
  obtain ⟨a, first, la⟩ := placeChunks_of_reaches (n := 8) hs hu hr (by omega)
  have sa : a.Sound := ⟨la.bad hs.1, la.soft hs.2⟩
  have va := sameView_of_kept la.toKept la.cl hs.1
  obtain ⟨b, second, lb⟩ := placeChunks_of_reaches (n := 128 * s.mem.read pa 4) sa (la.untraced hu) (va.reaches hr) ha
  have lb := la.trans lb
  have sb : b.Sound := ⟨lb.bad hs.1, lb.soft hs.2⟩
  have vb := sameView_of_kept lb.toKept lb.cl hs.1
  obtain ⟨c, third, lc⟩ := placeChunks_of_reaches (n := 128 * s.mem.read pa 4) sb (lb.untraced hu) (vb.reaches hw) hb
  have lc := lb.trans lc
  have header : chunks old 0 8 1 = [(0, 8)] := chunks_of_fits (by norm_num) (by omega)
  have from_ : chunks old 0 (128 * s.mem.read pa 4) (128 * s.mem.read pa 4 / 65536 + 2) = [(0, 128 * s.mem.read pa 4)] := chunks_of_fits (by omega) ho
  have dest : chunks new 0 (128 * s.mem.read pa 4) (128 * s.mem.read pa 4 / 65536 + 2) = [(0, 128 * s.mem.read pa 4)] := chunks_of_fits (by omega) hn
  have written := withParts_near c (putObject c.mem (objectBytes c.mem pa (128 * s.mem.read pa 4)) pb (128 * s.mem.read pa 4))
    [(0, 128 * s.mem.read pa 4, pb)]
  have owned := ownParts_like (asn := w.asn) [(0, 128 * s.mem.read pa 4, pb)] (written.untraced (lc.untraced hu))
  refine ⟨_, ?_, owned.cl.trans (written.cl.trans lc.cl), owned.mem.trans ?_⟩
  · unfold copyObject
    simp only [header, first, la.mem, List.foldl_cons, List.foldl_nil, from_, second, dest, third, bind, Except.bind, List.flatMap_cons, List.flatMap_nil,
      List.append_nil]
    rfl
  · rw [withParts, lc.mem]

end Sys2Proof.Machine
end

section
/-!
SUPPORT. The end of a copy (R116): the entry is FORWARDED, or the engine waits on a page, or it stops.
-/

namespace Sys2Proof.Machine

/-- An entry whose object has been copied. -/
def forwardEntry (s : State) (q : Requester) (base p new : Nat) : State :=
  setEntry (s.storeWord q (base + 16 * p + 8) (BitVec.ofNat 64 (new / 64 * 64))) q base p 3

theorem forwardEntry_spec {s : State} {q : Requester} (hm : Mem.wf s.mem = true) (hu : s.UntracedAt q.c.die) (base p new : Nat) :
    let t := forwardEntry s q base p new
    Near s t ∧ Mem.wf t.mem = true ∧ entryState (entryWord t base p 0) = 3 ∧
      bits (entryWord t base p 0) 63 2 = bits (entryWord s base p 0) 63 2 ∧ entryWord t base p 1 = BitVec.ofNat 64 (new / 64 * 64) ∧
      ∀ x, ¬(base + 16 * p ≤ x ∧ x < base + 16 * p + 16) → t.mem.get x = s.mem.get x := by
  intro t
  have near := storeWord_near hu (base + 16 * p + 8) (BitVec.ofNat 64 (new / 64 * 64))
  have mem := storeWord_mem hu (base + 16 * p + 8) (BitVec.ofNat 64 (new / 64 * 64))
  have wf : Mem.wf (s.storeWord q (base + 16 * p + 8) (BitVec.ofNat 64 (new / 64 * 64))).mem = true := by
    rw [mem]
    exact Mem.wf_write 8 hm _ _
  have first : entryWord (s.storeWord q (base + 16 * p + 8) (BitVec.ofNat 64 (new / 64 * 64))) base p 0 = entryWord s base p 0 := by
    rw [entryWord, mem]
    exact word_write_other hm _ (by omega)
  have second : entryWord (s.storeWord q (base + 16 * p + 8) (BitVec.ofNat 64 (new / 64 * 64))) base p 1 = BitVec.ofNat 64 (new / 64 * 64) := by
    rw [entryWord, mem]
    exact word_write _ hm _ _
  obtain ⟨set, wfSet, state, high, other, frame⟩ := setEntry_spec wf (near.stays.untracedAt hu) base p (st := 3) (by norm_num)
  refine ⟨near.trans set, wfSet, state, by rw [← first]; exact high, by rw [← second]; exact other, fun x hx => ?_⟩
  rw [← Mem.get_write_other 8 hm (base + 16 * p + 8) (BitVec.ofNat 64 (new / 64 * 64)).toNat x (by omega), ← mem]
  exact frame x (by omega)

/-- The TYPE and the CAUSE of the record of a page fault of the engine (Table 17.5). -/
theorem recWord0_fields (d : Fin 64) (asn : BitVec 16) :
    bits (recWord0 3 0x04 ⟨d, 0⟩ 0 8 0 asn) 63 56 = 3 ∧ bits (recWord0 3 0x04 ⟨d, 0⟩ 0 8 0 asn) 55 48 = 4 := by
  have die := d.isLt
  have space := asn.isLt
  have value : (recWord0 3 0x04 ⟨d, 0⟩ 0 8 0 asn).toNat = 3 * 2 ^ 56 + 4 * 2 ^ 48 + d.val * 2 ^ 42 + 8 * 2 ^ 32 + asn.toNat := by
    unfold recWord0
    rw [BitVec.toNat_ofNat]
    refine (Nat.mod_eq_of_lt ?_).trans ?_
    · norm_num
      omega
    · norm_num
      rfl
  unfold bits
  rw [value]
  norm_num
  omega

section
variable {u : State} {n : Fin 16} {r : Reloc} {base p old new : Nat} (hm : Mem.wf u.mem = true) (hu : u.Untraced) (hr : u.relocs[n.val] = r)
  (ho : bits (entryWord u base p 0) 55 6 * 64 = old) (hb : base + 16 * (p + 1) ≤ Config.heapTable)
include hu hr ho hb

/-- A copy that is done forwards the entry. -/
theorem relocCopy_of_ok (hn : ((r.news.find? fun y => y.1 = p).map Prod.snd).getD 0 = new) {s2 : State}
    (hc : copyObject u ⟨8, r.asn, r.sup⟩ old new = .ok s2) (hm2 : Mem.wf s2.mem = true) : let t := relocCopy n base p u
    let left := bits r.stat 35 16
    t.cl = s2.cl ∧ entryState (entryWord t base p 0) = 3 ∧ bits (entryWord t base p 0) 63 2 = bits (entryWord s2 base p 0) 63 2 ∧
      entryWord t base p 1 = BitVec.ofNat 64 (new / 64 * 64) ∧ bits (heapStat t n) 35 16 = left - 1 ∧
      bits (heapStat t n) 3 2 = (if left ≤ 1 then 0 else 1) ∧ (t.relocs[n.val]).cur = none ∧ (t.relocs[n.val]).running = decide (1 < left) ∧
      ∀ x, ¬(base + 16 * p ≤ x ∧ x < base + 16 * p + 16) →
        ¬(Config.heapTable + 64 * n.val + 56 ≤ x ∧ x < Config.heapTable + 64 * n.val + 64) → t.mem.get x = s2.mem.get x := by
  intro t left
  have copied := copyObject_beside hu hc
  have untraced : s2.UntracedAt (relocRequester u n).c.die := copied.untracedAt (d := u.cl.id.die) hu
  have small : left < 2 ^ 20 := bits_lt r.stat 35 16
  obtain ⟨near, wf, state, high, other, frame⟩ := forwardEntry_spec hm2 untraced base p new
  have eq : t = engineTold (forwardEntry s2 (relocRequester u n) base p new) (relocRequester u n) n
      (statWord (statErr r.stat) (bits r.stat 55 36) (left - 1) (if left ≤ 1 then 0 else 1))
      fun x => { x with cur := none, running := decide (1 < left) } := by
    subst hr ho hn
    change relocCopy n base p u = _
    unfold relocCopy
    simp only [hc]
    rfl
  obtain ⟨cl, engine, rest⟩ := engineTold_spec wf (near.stays.untracedAt untraced) n
    (statWord (statErr r.stat) (bits r.stat 55 36) (left - 1) (if left ≤ 1 then 0 else 1))
    fun x => { x with cur := none, running := decide (1 < left) }
  obtain ⟨-, -, f3, f4⟩ := statWord_fields (bits_lt r.stat 63 56) (bits_lt r.stat 55 36) (show left - 1 < 2 ^ 20 by omega)
    (show (if left ≤ 1 then 0 else 1) < 4 by split <;> norm_num)
  rw [eq]
  refine ⟨cl.trans near.cl, ?_, ?_, ?_, ?_, ?_, ?_, ?_, fun x h1 h2 => (rest x (by omega)).trans (frame x h1)⟩
  · rw [engineTold_entry wf (near.stays.untracedAt untraced) n _ _ hb (by norm_num)]
    exact state
  · rw [engineTold_entry wf (near.stays.untracedAt untraced) n _ _ hb (by norm_num)]
    exact high
  · rw [engineTold_entry wf (near.stays.untracedAt untraced) n _ _ hb (by norm_num)]
    exact other
  · rw [heapStat, engine]
    exact f3
  · rw [heapStat, engine]
    exact f4
  · rw [engine]
  · rw [engine]

include hm

/-- A copy that meets another fault stops the engine, and its entry pends again. -/
theorem relocCopy_of_fault (hn : ((r.news.find? fun y => y.1 = p).map Prod.snd).getD 0 = new) {c : BitVec 8} {v : Word} {g : Fin 9}
    (hc : copyObject u ⟨8, r.asn, r.sup⟩ old new = .error (.trap c v g)) (h4 : c ≠ 0x04) : let t := relocCopy n base p u
    t.cl = u.cl ∧ bits (heapStat t n) 55 16 = bits r.stat 55 16 ∧ entryState (entryWord t base p 0) = 1 ∧ bits (heapStat t n) 3 2 = 3 ∧
      bits (heapStat t n) 63 56 = c.toNat ∧ (t.relocs[n.val]).running = false ∧ (t.relocs[n.val]).cur = none := by
  intro t
  have untraced : u.UntracedAt (relocRequester u n).c.die := hu
  obtain ⟨near, wf, state, -⟩ := setEntry_spec hm untraced base p (st := 1) (by norm_num)
  have eq : t = engineTold (setEntry u (relocRequester u n) base p 1) (relocRequester u n) n
      (statWord c.toNat (bits r.stat 55 36) (bits r.stat 35 16) 3) fun x => { x with cur := none, running := false } := by
    subst hr ho hn
    change relocCopy n base p u = _
    unfold relocCopy
    simp only [hc, h4, if_false]
    rfl
  obtain ⟨cl, engine, -⟩ := engineTold_spec wf (near.stays.untracedAt untraced) n
    (statWord c.toNat (bits r.stat 55 36) (bits r.stat 35 16) 3) fun x => { x with cur := none, running := false }
  obtain ⟨f1, f2, f3, f4⟩ := statWord_fields c.isLt (bits_lt r.stat 55 36) (bits_lt r.stat 35 16) (show 3 < 4 by norm_num)
  rw [eq]
  refine ⟨cl.trans near.cl, ?_, ?_, ?_, ?_, ?_, ?_⟩
  · rw [heapStat, engine, (bits_counts _).1, (bits_counts r.stat).1]
    change bits (statWord _ _ _ _) 55 36 * _ + bits (statWord _ _ _ _) 35 16 = _
    rw [f2, f3]
  · rw [engineTold_entry wf (near.stays.untracedAt untraced) n _ _ hb (by norm_num)]
    exact state
  · rw [heapStat, engine]
    exact f4
  · rw [heapStat, engine]
    exact f1
  · rw [engine]
  · rw [engine]

omit hm hb in
/-- A page that is not present parks the engine, with a record of TYPE 3. -/
theorem relocCopy_of_absent (hn : ((r.news.find? fun y => y.1 = p).map Prod.snd).getD 0 = new) {v : Word} {g : Fin 9}
    (hc : copyObject u ⟨8, r.asn, r.sup⟩ old new = .error (.trap 0x04 v g)) : let t := relocCopy n base p u
    t.cl = u.cl ∧ bits (heapStat t n) 55 16 = bits r.stat 55 16 ∧ t.relocs[n.val] = { r with stat := heapStat t n, parked := true } ∧
      bits (heapStat t n) 3 2 = 2 ∧
      ∃ x : FaultRec, (t.die r.die).fq.held = (u.die r.die).fq.held ++ [x] ∧ x.type = 3 ∧ bits x.w0 55 48 = 4 ∧ x.va = v := by
  intro t
  have untraced : u.UntracedAt (relocRequester u n).c.die := hu
  let x : FaultRec := ⟨recWord0 3 0x04 ⟨r.die, 0⟩ 0 8 0 r.asn, v, BitVec.ofNat 64 n.val, 0, .heap n⟩
  let stat := statWord (statErr r.stat) (bits r.stat 55 36) (bits r.stat 35 16) 2
  have eq : t = setReloc ((setStat u (relocRequester u n) n stat).raise r.die x) n
      { ((setStat u (relocRequester u n) n stat).raise r.die x).relocs[n.val] with parked := true } := by
    subst hr ho hn
    change relocCopy n base p u = _
    unfold relocCopy
    simp only [hc, if_true]
    rfl
  have stays := setStat_stays untraced n stat
  have engine := setStat_engine untraced n stat
  rw [hr] at engine
  generalize setStat u (relocRequester u n) n stat = told at eq stays engine
  have now : t.relocs[n.val] = { r with stat := stat, parked := true } := by
    rw [eq, setReloc_engine]
    exact congrArg (fun y : Reloc => { y with parked := true }) engine
  obtain ⟨f1, f2, f3, f4⟩ := statWord_fields (err := statErr r.stat) (bits_lt r.stat 63 56) (bits_lt r.stat 55 36) (bits_lt r.stat 35 16)
    (show 2 < 4 by norm_num)
  have word : heapStat t n = statWord (statErr r.stat) (bits r.stat 55 36) (bits r.stat 35 16) 2 := congrArg Reloc.stat now
  rw [word]
  refine ⟨?_, ?_, now, f4, x, ?_, ?_, ?_, rfl⟩
  · rw [eq]
    exact stays.cl
  · rw [(bits_counts _).1, (bits_counts r.stat).1, f2, f3]
  · rw [eq, ← (stays.dies r.die).2]
    change ((told.setDie r.die _).die r.die).fq.held = _
    rw [State.die_setDie, if_pos rfl]
  · exact (recWord0_fields r.die r.asn).1
  · exact (recWord0_fields r.die r.asn).2

end

end Sys2Proof.Machine
end


section
/-!
SETTLED. O41: heaps are relocated (R95, R114 to R117).
-/

namespace Sys2Proof.Machine

/-! ### RELOC_ENTRY -/

theorem exec_relocEntry_eq {s : State} {n : Fin 16} (h : s.ev.a = n.val) :
    exec .relocEntry s = .next ((relocHere n (s.focus ⟨(s.relocs[n.val]).die, 0⟩)).focus s.cl.id) := by
  have same : Fin.ofNat 16 s.ev.a = n := by
    rw [h]
    exact Fin.ext (Nat.mod_eq_of_lt n.isLt)
  change Host.Outcome.next (relocEntry (Fin.ofNat 16 s.ev.a) s) = _
  rw [same]
  rfl

theorem focus_die (s : State) (c : ClusterId) (d : Fin 64) : (s.focus c).die d = s.die d := by
  obtain ⟨-, -, -, -, dies⟩ := focus_parts s c
  rw [State.die, dies]
  rfl

/-- The heaps as the engine sees them on its die. -/
theorem focus_heaps (s : State) (c : ClusterId) : heapWord (s.focus c) = heapWord s ∧ entryWord (s.focus c) = entryWord s ∧
    heapStat (s.focus c) = heapStat s ∧ heapEpoch (s.focus c) = heapEpoch s ∧ forwardBase (s.focus c) = forwardBase s ∧
    heapTlog (s.focus c) = heapTlog s := by
  obtain ⟨mem, relocs, -⟩ := focus_parts s c
  have word : heapWord (s.focus c) = heapWord s := by
    funext n k
    rw [heapWord, heapWord, mem]
  refine ⟨word, ?_, ?_, ?_, ?_, ?_⟩
  · funext base p k
    rw [entryWord, entryWord, mem]
  · funext n
    rw [heapStat, heapStat, relocs]
  · funext n
    rw [heapEpoch, heapEpoch, relocs]
  · funext n e
    rw [forwardBase, forwardBase, word]
  · funext n
    rw [heapTlog, heapTlog, word]

/-- The entry that comes next: a raised one, else the first that pends. -/
theorem find_first {pend : Nat → Bool} {p n : Nat} {raised : List Nat}
    (h : raised.find? pend = some p ∨ raised.find? pend = none ∧ p < n ∧ pend p = true ∧ ∀ j, j < p → pend j = false) :
    (raised.find? pend).or ((List.range n).find? pend) = some p := by
  rcases h with h | ⟨h, hp, hpend, first⟩
  · rw [h]
    rfl
  · rw [h]
    exact List.find?_range_eq_some.mpr ⟨hpend, List.mem_range.mpr hp, fun j hj => by rw [first j hj]; rfl⟩

theorem find_none {pend : Nat → Bool} {n : Nat} {raised : List Nat} (h : raised.find? pend = none) (ha : ∀ j, j < n → pend j = false) :
    (raised.find? pend).or ((List.range n).find? pend) = none := by
  rw [h]
  exact List.find?_eq_none.mpr fun j hj => by rw [ha j (List.mem_range.mp hj)]; exact Bool.false_ne_true

/-- What the engine's die knows of the heaps is what the issuing cluster's does. -/
theorem focus_engine {s : State} {n : Fin 16} {r : Reloc} (hs : s.Sound) (hr : s.relocs[n.val] = r) (hu : (s.dbg r.die 0).getLsbD 2 = false) :
    let u := s.focus ⟨r.die, 0⟩
    u.Sound ∧ u.Untraced ∧ u.relocs[n.val] = r := by
  obtain ⟨-, relocs, bad, soft, dies⟩ := focus_parts s ⟨r.die, 0⟩
  refine ⟨⟨bad.trans hs.1, soft.trans hs.2⟩, ?_, (congrArg (fun x : Vector Reloc 16 => x[n.val]) relocs).trans hr⟩
  rw [State.Untraced, focus_id, State.dbg, State.die, dies]
  exact hu

section
variable {s : State} {n : Fin 16} {p : Nat} {r : Reloc} (hm : s.memOk) (hs : s.Sound) (hev : s.ev.a = n.val) (hr : s.relocs[n.val] = r)
  (hu : (s.dbg r.die 0).getLsbD 2 = false) (hrun : r.running = true) (hpark : r.parked = false)
include hm hs hev hr hu hrun hpark

/-- The engine takes an entry. -/
theorem relocEntry_takes (hc : r.cur = none)
    (hn : (r.raised.find? (entryPends s (forwardBase s n (heapEpoch s n)))).or
      ((List.range (2 ^ heapTlog s n)).find? (entryPends s (forwardBase s n (heapEpoch s n)))) = some p) :
    let base := forwardBase s n (heapEpoch s n)
    ∃ t, exec .relocEntry s = .next (t.focus s.cl.id) ∧ t.cl = (s.focus ⟨r.die, 0⟩).cl ∧ entryState (entryWord t base p 0) = 2 ∧
      bits (entryWord t base p 0) 63 2 = bits (entryWord s base p 0) 63 2 ∧
      t.relocs = s.relocs.set n.val { r with cur := some p, raised := r.raised.filter fun x => x ≠ p } ∧
      ∀ x, x < base + 16 * p ∨ base + 16 * p + 8 ≤ x → t.mem.get x = s.mem.get x := by
  intro base
  obtain ⟨sound, untraced, engine⟩ := focus_engine hs hr hu
  obtain ⟨mem, relocs, -⟩ := focus_parts s ⟨r.die, 0⟩
  obtain ⟨-, entries, -, epoch, table, log⟩ := focus_heaps s ⟨r.die, 0⟩
  have runs := exec_relocEntry_eq hev
  rw [hr] at runs
  generalize s.focus ⟨r.die, 0⟩ = u at *
  have here : forwardBase u n (heapEpoch u n) = base := by rw [table, epoch]
  have pends : entryPends u base = entryPends s base := by
    funext j
    rw [entryPends, entryPends, entries]
  have next : nextEntry u n (forwardBase u n (heapEpoch u n)) = some p := by
    rw [nextEntry_eq sound, here, engine, log, pends]
    exact hn
  have step := relocHere_of_next sound (by rw [engine]; exact hrun) (by rw [engine]; exact hpark) (by rw [engine]; exact hc) next
  obtain ⟨cl, kept, state, high, frame⟩ := takeEntry_spec (q := relocRequester u n) (by rw [mem]; exact hm.1) untraced base p
  rw [here, engine] at step
  rw [entries] at high
  rw [step] at runs
  generalize takeEntry u (relocRequester u n) base p = x at *
  refine ⟨_, runs, cl, state, high, ?_, fun y hy => ?_⟩
  · rw [setReloc, kept, relocs]
  · exact (frame y hy).trans (congrArg (Mem.get · y) mem)

/-- Where no entry pends the engine ends. -/
theorem relocEntry_ends (hc : r.cur = none)
    (hn : (r.raised.find? (entryPends s (forwardBase s n (heapEpoch s n)))).or
      ((List.range (2 ^ heapTlog s n)).find? (entryPends s (forwardBase s n (heapEpoch s n)))) = none) :
    let desc := Config.heapTable + 64 * n.val
    ∃ t, exec .relocEntry s = .next (t.focus s.cl.id) ∧ t.cl = (s.focus ⟨r.die, 0⟩).cl ∧ (t.relocs[n.val]).running = false ∧
      bits (heapStat t n) 3 2 = 0 ∧ bits (heapStat t n) 63 16 = bits r.stat 63 16 ∧
      ∀ x, x < desc + 56 ∨ desc + 64 ≤ x → t.mem.get x = s.mem.get x := by
  intro desc
  obtain ⟨sound, untraced, engine⟩ := focus_engine hs hr hu
  obtain ⟨mem, -⟩ := focus_parts s ⟨r.die, 0⟩
  obtain ⟨-, entries, -, epoch, table, log⟩ := focus_heaps s ⟨r.die, 0⟩
  have runs := exec_relocEntry_eq hev
  rw [hr] at runs
  generalize s.focus ⟨r.die, 0⟩ = u at *
  have here : forwardBase u n (heapEpoch u n) = forwardBase s n (heapEpoch s n) := by rw [table, epoch]
  have pends : entryPends u = entryPends s := by
    funext b j
    rw [entryPends, entryPends, entries]
  have next : nextEntry u n (forwardBase u n (heapEpoch u n)) = none := by
    rw [nextEntry_eq sound, here, engine, log, pends]
    exact hn
  have step := relocHere_of_none sound (by rw [engine]; exact hrun) (by rw [engine]; exact hpark) (by rw [engine]; exact hc) next
  have stat : heapStat u n = r.stat := congrArg Reloc.stat engine
  rw [stat] at step
  obtain ⟨cl, told, frame⟩ := engineTold_spec (q := relocRequester u n) (by rw [mem]; exact hm.1) untraced n
    (statWord (statErr r.stat) (bits r.stat 55 36) (bits r.stat 35 16) 0) fun x => { x with running := false, raised := [] }
  obtain ⟨f1, f2, f3, f4⟩ := statWord_fields (err := statErr r.stat) (bits_lt r.stat 63 56) (bits_lt r.stat 55 36) (bits_lt r.stat 35 16)
    (show 0 < 4 by norm_num)
  rw [step] at runs
  refine ⟨_, runs, cl, by rw [told], ?_, ?_, fun x hx => (frame x hx).trans (congrArg (Mem.get · x) mem)⟩
  · rw [heapStat, told]
    exact f4
  · rw [heapStat, told, (bits_counts _).2, (bits_counts _).1, (bits_counts r.stat).2, (bits_counts r.stat).1]
    change bits (statWord _ _ _ _) 63 56 * _ + (bits (statWord _ _ _ _) 55 36 * _ + bits (statWord _ _ _ _) 35 16) = _
    rw [f1, f2, f3]
    rfl

omit hm in
/-- The engine copies the object of the entry that it has taken. -/
theorem relocEntry_copies (hc : r.cur = some p) :
    exec .relocEntry s = .next ((relocCopy n (forwardBase s n (heapEpoch s n)) p (s.focus ⟨r.die, 0⟩)).focus s.cl.id) := by
  obtain ⟨sound, -, engine⟩ := focus_engine hs hr hu
  obtain ⟨-, -, -, epoch, table, -⟩ := focus_heaps s ⟨r.die, 0⟩
  have runs := exec_relocEntry_eq hev
  rw [hr] at runs
  rw [runs, relocHere_of_cur sound (by rw [engine]; exact hrun) (by rw [engine]; exact hpark) (by rw [engine]; exact hc), table, epoch]

end

/-! ### HSTAT -/

theorem hstat_posts {s : State} (hs : s.Sound) (d b : Fin 32) : exec (.hstat d b) s =
    .next (s.postS 3 d ((heapWord s (Fin.ofNat 16 (s.rs b).toNat) 7 &&& ~~~(0xFFF3 : Word)) |||
      BitVec.ofNat 64 (bits (heapWord s (Fin.ofNat 16 (s.rs b).toNat) 1) 1 0))) := by
  change execHstat d b s = _
  unfold execHstat
  simp only [readHeap_of_sound hs, bind, Except.bind]
  rfl

/-! ### HFLIP -/

/-- The table that HFLIP addresses where its heap is disabled takes no translation. -/
theorem hflip_untranslated {s : State} {a b : Fin 32} {n : Fin 16} (he : heapEn s n = false) (slot : s.slot.map Slot.op = some (.hflip a b)) :
    s.untranslated (BitVec.ofNat 64 n.val) = true := by
  have small := n.isLt
  have value : (BitVec.ofNat 64 n.val).toNat = n.val := by
    rw [BitVec.toNat_ofNat]
    exact Nat.mod_eq_of_lt (by omega)
  have same : Fin.ofNat 16 n.val = n := Fin.ext (Nat.mod_eq_of_lt small)
  have off : (heapWord s n 0).getLsbD 0 = false := he
  unfold State.untranslated
  simp only [slot, value, same, off, decide_eq_true small, Bool.not_false, Bool.true_or, Bool.true_and]

/-- A flip reads the descriptor as it stood before its checks. -/
theorem flipEnter_of_kept {s s1 t : State} {n : Fin 16} {ms : List Member} (hu : s.Untraced) (hm : Mem.wf s.mem = true) (hn : ms.length < 2 ^ 20)
    (k : Kept s s1) (h : flipEnter s1 n ms = .ok t) :
    let next := (heapEpoch s n + 1) % 4
    let buf := forwardBase s n next
    let desc := Config.heapTable + 64 * n.val
    t.cl.bank = s.cl.bank ∧ heapEpoch t n = next ∧ bits (heapWord t n 1) 1 0 = next ∧ heapWord t n 7 = heapStat t n ∧ bits (heapStat t n) 3 2 = 0 ∧
      bits (heapStat t n) 63 56 = 0 ∧ bits (heapStat t n) 55 36 + bits (heapStat t n) 35 16 = ms.length ∧
      ∀ x, ¬(buf ≤ x ∧ x < buf + 16 * 2 ^ heapTlog s n) → ¬(desc + 8 ≤ x ∧ x < desc + 16) → ¬(desc + 56 ≤ x ∧ x < desc + 64) →
        t.mem.get x = s.mem.get x := by
  intro next buf desc
  have epoch : heapEpoch s1 n = heapEpoch s n := by rw [heapEpoch, heapEpoch, k.relocs]
  have word : heapWord s1 n = heapWord s n := by
    funext i
    rw [heapWord, heapWord, k.mem]
  obtain ⟨cl, rest⟩ := flipEnter_spec (k.untraced hu) (by rw [k.mem]; exact hm) hn h
  rw [epoch, forwardBase, heapTlog, word, k.mem] at rest
  exact ⟨by rw [cl]; exact k.bank, rest⟩

/-! ### The obligation -/

/-- Settles O41: the slots by the descriptor that they read and write, the engine step by step. -/
theorem heapsAreRelocated : Obligations.HeapsAreRelocated := by
  unfold Obligations.HeapsAreRelocated
  intro s hm hu hbad hsoft
  have hs : s.Sound := ⟨hbad, hsoft⟩
  refine ⟨?_, ?_, ?_, ?_, ?_⟩
  · intro d b n
    exact ⟨_, hstat_posts hs d b, hstat_word ..⟩
  · intro n st
    refine ⟨fun he slot => ?_, fun he ho hp => ?_, fun he ho => ⟨fun busy => ?_, fun rest => ?_⟩⟩
    · rw [exec_reloc_of_error hs (heapOwnerCheck_of_disabled he)]
      exact outcome_trap_untranslated 8 (by rw [State.untranslated, slot])
    · rw [exec_reloc_of_error hs (heapOwnerCheck_of_other he ho hp)]
      exact outcome_privilege s
    · exact exec_reloc_of_busy hs rfl (heapOwnerCheck_of_owner he ho) busy
    · have owner := heapOwnerCheck_of_owner he ho
      by_cases h0 : bits st 35 16 = 0
      · obtain ⟨cl, frame, stat, epoch, f1, f2, f3, f4, relocs⟩ := relocTold_spec hm hu n (state := 0) (by norm_num)
        refine ⟨_, exec_reloc_of_none hs rfl owner rest h0, cl, frame, stat, ?_, epoch, f1, f2, f3, ?_, fun h => absurd h0 h, fun j hj => ?_⟩
        · rw [heapEpoch, relocs_set_self s n _ relocs]
          rfl
        · rw [if_pos h0]
          exact f4
        · exact relocs_set_other s hj _ relocs
      · obtain ⟨cl, frame, stat, epoch, f1, f2, f3, f4, relocs⟩ := relocTold_spec hm hu n (state := 1) (by norm_num)
        have runs := exec_reloc_of_left hs rfl owner rest h0
        rw [relocs_set_self s n _ relocs] at runs
        generalize relocTold s n 1 = told at *
        refine ⟨_, runs, cl, frame, ?_, setReloc_epoch .., epoch, ?_, ?_, ?_, ?_, fun _ => ?_, fun j hj => ?_⟩
        · rw [setReloc_stat]
          exact stat
        · exact (congrArg (bits · 63 56) (setReloc_stat ..)).trans f1
        · exact (congrArg (bits · 55 36) (setReloc_stat ..)).trans f2
        · exact (congrArg (bits · 35 16) (setReloc_stat ..)).trans f3
        · rw [if_neg h0]
          exact (congrArg (bits · 3 2) (setReloc_stat ..)).trans f4
        · rw [setReloc_stat, setReloc_engine]
        · exact (relocs_set_other told hj _ rfl).trans (relocs_set_other s hj _ relocs)
  · intro s0 a b here phase n epoch buf desc
    refine ⟨fun he slot => ?_, fun he ho hp => ?_, fun he ho calm => ⟨fun busy => ?_, fun h1 h2 s1 cnt read out => ?_⟩,
      fun s1 ms t check enter free few idle _ => ?_⟩
    · rw [exec_hflip_of_error here phase rfl (flipCheck_of_error hs (heapOwnerCheck_of_disabled he))]
      exact outcome_trap_untranslated 8 (hflip_untranslated he slot)
    · rw [exec_hflip_of_error here phase rfl (flipCheck_of_error hs (heapOwnerCheck_of_other he ho hp))]
      exact outcome_privilege s
    · rw [exec_hflip_of_error here phase rfl (flipCheck_of_busy hs (heapOwnerCheck_of_owner he ho) calm busy)]
      exact outcome_trap _ _ rfl
    · rw [exec_hflip_of_error here phase rfl (flipCheck_of_count hs (heapOwnerCheck_of_owner he ho) calm h1 h2 read out)]
      exact outcome_trap _ _ rfl
    · exact ⟨exec_hflip_of_ok here phase rfl check enter free, flipEnter_of_kept hu hm.1 few (flipCheck_kept hs ⟨idle, hu⟩ check) enter⟩
  · intro n p hev r st base desc w pend old new u copied goes untraced running parked below
    refine ⟨fun cur next => ?_, fun cur none all => ?_, fun cur => ⟨fun s2 done memOk => ?_, fun c v g stop => ?_⟩⟩
    · exact relocEntry_takes hm hs hev rfl untraced running parked cur (find_first next)
    · exact relocEntry_ends hm hs hev rfl untraced running parked cur (find_none none all)
    · obtain ⟨sound, calm, engine⟩ := focus_engine (r := r) hs rfl untraced
      have taken : bits (entryWord u base p 0) 55 6 * 64 = old := by rw [(focus_heaps s _).2.1]
      exact ⟨_, relocEntry_copies hs hev rfl untraced running parked cur, relocCopy_of_ok calm engine taken below rfl done memOk.1⟩
    · obtain ⟨sound, calm, engine⟩ := focus_engine (r := r) hs rfl untraced
      have taken : bits (entryWord u base p 0) 55 6 * 64 = old := by rw [(focus_heaps s _).2.1]
      refine ⟨_, relocEntry_copies hs hev rfl untraced running parked cur, ?_⟩
      by_cases h4 : c = 0x04
      · subst h4
        obtain ⟨cl, counts, parks, state, x, record⟩ := relocCopy_of_absent calm engine taken rfl stop
        rw [focus_die] at record
        exact ⟨cl, counts, fun _ => ⟨parks, state, x, record⟩, fun h => absurd rfl h⟩
      · have wf : Mem.wf u.mem = true := by rw [(focus_parts s _).1]; exact hm.1
        obtain ⟨cl, counts, stops⟩ := relocCopy_of_fault wf calm engine taken below rfl stop h4
        exact ⟨cl, counts, fun h => absurd h h4, fun _ => stops⟩
  · intro w old new pa pb len h0 ho hn _ _ _ _ ha hb _ hr hw
    obtain ⟨t, copy, cl, mem⟩ := copyObject_of_reaches hs hu h0 ho hn ha hb hr hw
    obtain ⟨inside, outside⟩ := get_putObject s.mem pa pb (128 * len)
    rw [← mem] at inside outside
    exact ⟨t, copy, cl, inside, outside⟩

end Sys2Proof.Machine
end

section
/-!
SETTLED. O27: load-blocks and cache maintenance (R124 to R131). The last clause supposes no more of a run than the place of its first line and one
page for all of it; a translation that ends within the page lets the lines after it go unmaintained.
-/

namespace Sys2Proof.Machine

/-- A translation of the first 128 bytes alone. No walk enters one, since the leaves of a walk are whole pages (R82). -/
def lineLeaf : Leaf :=
  { base := 0, size := 128, pa := 0, asn := 0, global := false, sup := false, exec := false, write := false, cls := 0 }

/-- The device after reset, but for that translation in the TLB of the sequencer, and a copy of physical line 1, shared, in die 0. -/
def lineLeafState : State := { State.reset with cl := { State.reset.cl with tlb := [lineLeaf] }, lines := [(64, 1)] }

theorem lineLeafState_memOk : lineLeafState.memOk := ⟨rfl, rfl⟩

theorem lineLeafState_untraced : (lineLeafState.dbg lineLeafState.cl.id.die 0).getLsbD 2 = false := by decide +kernel

/-- Register 0 names line 0. -/
theorem lineLeafState_first : (lineLeafState.rs 0).toNat / 128 * 128 = 0 := rfl

theorem lineLeafState_locate_line0 :
    locate lineLeafState lineLeafState.seqWho { nopin := true } (BitVec.ofNat 64 0) 128 = .ok (lineLeafState, .mem 0) := rfl

/-- Line 1 is in no TLB, and its walk meets no entry. -/
theorem lineLeafState_locate_line1 :
    locate lineLeafState lineLeafState.seqWho { nopin := true } (BitVec.ofNat 64 128) 128 = .error (.trap 0x04 128 8) := rfl

/-- A run of both lines is found to be line 0 alone. -/
theorem lineLeafState_runLines : runLines lineLeafState.seqWho lineLeafState 0 2 = [0] := by
  simp only [runLines, lineLeafState_locate_line0, lineLeafState_locate_line1, Nat.zero_add, Nat.zero_div]

/-- The run lies in one page, whose check passes. -/
theorem lineLeafState_checkRun : checkRun lineLeafState.seqWho (runPages 0 2) lineLeafState = .ok lineLeafState := rfl

/-- Where no die holds a line, its maintenance does nothing. -/
theorem maintainLine_of_no_copies {s : State} {line : Nat} (h : s.copies line = []) (flush : Bool) : maintainLine flush s line = s := by
  rw [maintainLine, State.maintainCopies, h]
  rfl

theorem lineLeafState_copies_line0 : lineLeafState.copies 0 = [] := by decide +kernel

/-- CFLUSH of lines 0 and 1 changes nothing: line 0 has no copy, and line 1 is not acted on. -/
theorem lineLeafState_cflush : exec (.cflush 0 1) lineLeafState = .next lineLeafState := by
  change outcome lineLeafState (maintain lineLeafState 0 1 true) = _
  have kept : maintain lineLeafState 0 1 true = .ok lineLeafState := by
    unfold maintain
    simp only [lineLeafState_first, show (1 : Fin 64).val + 1 = 2 from rfl, lineLeafState_checkRun, lineLeafState_runLines, List.foldl_cons,
      List.foldl_nil, maintainLine_of_no_copies lineLeafState_copies_line0]
  rw [kept, outcome_ok]

theorem lineLeafState_lineAt_line1 : lineLeafState.lineAt 0 1 = 1 := by decide +kernel

/-- Refutes O27: the clause on CFLUSH asks for the place of the run's first line alone. Where the sequencer's TLB holds a translation that ends
after that line, the next line is not translated, and its copy outlives a CFLUSH of both. -/
theorem not_blocksAndCacheMaintenance : ¬ Obligations.BlocksAndCacheMaintenance := by
  unfold Obligations.BlocksAndCacheMaintenance
  intro h
  obtain ⟨-, -, -, -, runs⟩ := h lineLeafState 0 0 1 lineLeafState_memOk lineLeafState_untraced
  obtain ⟨⟨t, run, -, -, gone⟩, -⟩ := runs lineLeafState 0 (by decide +kernel) (by decide +kernel) lineLeafState_locate_line0 (by decide)
  have same : lineLeafState = t := Host.Outcome.next.inj (lineLeafState_cflush.symm.trans run)
  have absent : t.lineAt 0 1 = 0 := gone 1 0 le_rfl
  rw [← same, lineLeafState_lineAt_line1] at absent
  exact absurd absent one_ne_zero

end Sys2Proof.Machine
end

section
/-!
SUPPORT. Barrier words (R142 to R145): the word that a locator names, what a slot of the sequencer reads of it, and what BARINIT and BARADD leave
as their bundle commits.
-/

namespace Sys2Proof.Machine

/-! ### Locators (R143) -/

section
variable (s : State) (asn : BitVec 16) (sup : Bool) {n word : Nat} {core : Fin 8}

/-- The local form names a word of the current cluster. -/
theorem barrierLoc_local (hn : n = core.val * 2 ^ 19 + word) (hw : word < 2 ^ 19) :
    barrierLoc s asn sup n = if 8 * word < shareSize s.cl.part false then some (.pool s.cl.id core false (8 * word)) else none := by
  have form : n / 2 ^ 31 % 2 = 0 := by omega
  have zeros : n / 2 ^ 22 % 2 ^ 9 = 0 := by omega
  have place : n % 2 ^ 19 * 8 = 8 * word := by omega
  have owner : Fin.ofNat 8 (n / 2 ^ 19) = core := Fin.ext (show n / 2 ^ 19 % 8 = core.val by omega)
  unfold barrierLoc
  simp only [form, zeros, place, owner, if_true, decide_true, Bool.true_and, decide_eq_true_eq]

/-- The other form names a word of the cluster that its fields name, where that runs the same address space or the access is a supervisor's. -/
theorem barrierLoc_global (hn : n = core.val * 2 ^ 19 + word) (hw : word < 2 ^ 19) (c : ClusterId) :
    barrierLoc s asn sup (2 ^ 31 + c.die.val * 2 ^ 25 + c.cluster.val * 2 ^ 22 + n) =
      if 8 * word < shareSize (s.clusterAt c).part false ∧ (sup = true ∨ (s.clusterAt c).asn = asn) then some (.pool c core false (8 * word))
      else none := by
  generalize hm : 2 ^ 31 + c.die.val * 2 ^ 25 + c.cluster.val * 2 ^ 22 + n = m
  have form : m / 2 ^ 31 % 2 ≠ 0 := by omega
  have place : m % 2 ^ 19 * 8 = 8 * word := by omega
  have owner : Fin.ofNat 8 (m / 2 ^ 19) = core := Fin.ext (show m / 2 ^ 19 % 8 = core.val by omega)
  have die : Fin.ofNat 64 (m / 2 ^ 25) = c.die := Fin.ext (show m / 2 ^ 25 % 64 = c.die.val by omega)
  have cluster : Fin.ofNat 8 (m / 2 ^ 22) = c.cluster := Fin.ext (show m / 2 ^ 22 % 8 = c.cluster.val by omega)
  unfold barrierLoc
  simp only [form, place, owner, die, cluster, if_false, Bool.and_eq_true, Bool.or_eq_true, decide_eq_true_eq]

/-- Bits 30:22 of the local form are zero. -/
theorem barrierLoc_reserved {m : Nat} (lo : 2 ^ 22 ≤ m) (hi : m < 2 ^ 31) : barrierLoc s asn sup m = none := by
  have form : m / 2 ^ 31 % 2 = 0 := by omega
  have used : m / 2 ^ 22 % 2 ^ 9 ≠ 0 := by omega
  unfold barrierLoc
  simp only [form, used, if_true, decide_false, Bool.false_and, Bool.false_eq_true, if_false]

end

/-- A barrier stands in a pool. -/
theorem pool_of_barrierLoc {s : State} {asn : BitVec 16} {sup : Bool} {loc : Nat} {l : Loc} (h : barrierLoc s asn sup loc = some l) :
    ∃ c k off, l = .pool c k false off := by
  simp only [barrierLoc] at h
  split at h
  · exact ⟨_, _, _, (Option.some.inj (Option.ite_none_right_eq_some.mp h).2).symm⟩
  · exact ⟨_, _, _, (Option.some.inj (Option.ite_none_right_eq_some.mp h).2).symm⟩

theorem bits_low32 (x : Word) : bits x 31 0 = x.toNat % 2 ^ 32 := congrArg (· % 2 ^ 32) (Nat.div_one _)

section
variable {s : State} {x : Word}

theorem barOperand_of_some {l : Loc} (h : barrierLoc s s.asn s.sup (x.toNat % 2 ^ 32) = some l) : barOperand s x = .ok l := by
  unfold barOperand
  rw [bits_low32, h]

/-- A bad locator is a window fault. -/
theorem barOperand_of_none (h : barrierLoc s s.asn s.sup (x.toNat % 2 ^ 32) = none) :
    barOperand s x = .error (.trap 0x07 (BitVec.ofNat 64 (x.toNat % 2 ^ 32)) 8) := by
  unfold barOperand
  rw [bits_low32, h]
  rfl

end

/-! ### Fields of a barrier word (Table 07.6) -/

theorem getLsbD_eq_decide (w : Word) (i : Nat) : w.getLsbD i = decide (w.toNat / 2 ^ i % 2 = 1) := Nat.testBit_eq_decide_div_mod_eq

theorem bits_count (w : Word) : bits w 55 0 = w.toNat % 2 ^ 56 := congrArg (· % 2 ^ 56) (Nat.div_one _)

theorem State.readLoc_lt (s : State) (l : Loc) : s.readLoc l 8 < 2 ^ 64 := by
  cases l with
  | mem pa => exact Mem.read_lt 8 s.mem pa
  | pool c k acc off => exact Mem.read_lt 8 _ off

theorem toNat_readLoc (s : State) (l : Loc) : (BitVec.ofNat 64 (s.readLoc l 8)).toNat = s.readLoc l 8 := by
  rw [BitVec.toNat_ofNat]
  exact Nat.mod_eq_of_lt (s.readLoc_lt l)

theorem barErrSet_toNat (w : Word) : barErrSet w.toNat = w.getLsbD 62 := (getLsbD_eq_decide w 62).symm

/-- An armed barrier with no error is complete once its count is 0 (R142). -/
theorem barrierDone_toNat {w : Word} (h : w.getLsbD 62 = false) : barrierDone w.toNat = (w.getLsbD 63 && decide (bits w 55 0 = 0)) := by
  have noErr : w.toNat / 2 ^ 62 % 2 = 0 := by
    have odd := of_decide_eq_false ((getLsbD_eq_decide w 62).symm.trans h)
    omega
  simp only [barrierDone, getLsbD_eq_decide, bits_count, noErr, decide_true, Bool.and_true]

/-- A barrier word that is armed, from ERR, PHASE, SCOPE, bits 57:56 and CNT. -/
def armedWord (err phase : Bool) (scope rest cnt : Nat) : Nat :=
  2 ^ 63 + err.toNat * 2 ^ 62 + phase.toNat * 2 ^ 61 + scope * 2 ^ 58 + rest * 2 ^ 56 + cnt

theorem armedWord_fields (err phase : Bool) {scope rest cnt : Nat} (hs : scope < 8) (hr : rest < 4) (hc : cnt < 2 ^ 56) :
    let v : Word := BitVec.ofNat 64 (armedWord err phase scope rest cnt)
    v.toNat = armedWord err phase scope rest cnt ∧ v.getLsbD 63 = true ∧ v.getLsbD 62 = err ∧ v.getLsbD 61 = phase ∧ bits v 60 58 = scope ∧
      bits v 57 56 = rest ∧ bits v 55 0 = cnt := by
  intro v
  have he := err.toNat_lt
  have hp := phase.toNat_lt
  have value : v.toNat = armedWord err phase scope rest cnt := by
    rw [BitVec.toNat_ofNat, armedWord]
    omega
  have flag (b : Bool) {n : Nat} (h : n = b.toNat) : decide (n = 1) = b := by
    subst h
    cases b <;> rfl
  refine ⟨value, ?_, ?_, ?_, ?_, ?_, ?_⟩
  · rw [getLsbD_eq_decide, value, armedWord]
    exact flag true (by simp only [Bool.toNat_true]; omega)
  · rw [getLsbD_eq_decide, value, armedWord]
    exact flag err (by omega)
  · rw [getLsbD_eq_decide, value, armedWord]
    exact flag phase (by omega)
  all_goals
    rw [bits, value, armedWord]
    omega

/-! ### BARINIT and BARADD as their bundle commits (R145) -/

/-- BARINIT starts a fresh round where it clears CNT or the last round is complete; only then ERR is cleared and PHASE turns. -/
theorem barinitWord_eq (w : Word) (y : Nat) (scope : Fin 8) (z : Bool) :
    let fresh : Bool := z || (w.getLsbD 63 && bits w 55 0 = 0)
    barinitWord w.toNat y scope z =
      armedWord (!fresh && w.getLsbD 62) (fresh != w.getLsbD 61) scope.val (bits w 57 56) (((if z then 0 else bits w 55 0) + y) % 2 ^ 56) := by
  intro fresh
  have same : (z || (decide (w.toNat / 2 ^ 63 % 2 = 1) && decide (w.toNat % 2 ^ 56 = 0))) = fresh := by
    rw [← getLsbD_eq_decide, ← bits_count]
  have flag (n : Nat) : (decide (n % 2 = 1)).toNat = n % 2 := by
    rcases Nat.mod_two_eq_zero_or_one n with h | h <;> rw [h] <;> rfl
  have turned (n : Nat) : (!decide (n % 2 = 1)).toNat = 1 - n % 2 := by
    rcases Nat.mod_two_eq_zero_or_one n with h | h <;> rw [h] <;> rfl
  have rest : bits w 57 56 = w.toNat / 2 ^ 56 % 4 := rfl
  unfold barinitWord
  simp only [same]
  rw [armedWord, ← bits_count, getLsbD_eq_decide w 62, getLsbD_eq_decide w 61]
  cases fresh with
  | true =>
    simp only [if_true, Bool.not_true, Bool.false_and, Bool.toNat_false, Bool.true_bne, turned, rest]
  | false =>
    simp only [Bool.false_eq_true, if_false, Bool.not_false, Bool.true_and, Bool.false_bne, flag, rest]

/-- BARADD changes CNT alone, modulo 2^56 (R144). -/
theorem countWord_fields (w : Word) (n : Int) :
    let v : Word := BitVec.ofNat 64 (countWord w.toNat n)
    v.toNat = countWord w.toNat n ∧ bits v 63 56 = bits w 63 56 ∧ ((bits v 55 0 : Int) - (bits w 55 0 : Int) - n) % 2 ^ 56 = 0 := by
  intro v
  have top := w.isLt
  have value : v.toNat = countWord w.toNat n := by
    rw [BitVec.toNat_ofNat, countWord]
    omega
  refine ⟨value, ?_, ?_⟩
  · rw [bits, bits, value, countWord]
    omega
  · rw [bits_count, bits_count, value, countWord]
    omega

/-- A bundle whose one late write acts on a barrier word leaves the new word there, where nothing is outstanding. -/
theorem commitLate_barrier {s : State} {o : OpenBundle} {x : LateWrite} (ho : s.cl.opn = some o) (hl : o.late = [x]) (hops : s.cl.bank.ops = [])
    (ha : (∃ y scope z, x.act = .barinit y scope z) ∨ ∃ n, x.act = .baradd n) :
    commitLate s = (s.writeLoc x.loc (x.act.value (s.readLoc x.loc 8)) 8).modOpn fun o => { o with late := [] } := by
  have late : s.opn.late = [x] := by
    rw [State.opn, ho]
    exact hl
  unfold commitLate
  rw [late]
  change (performLate s x).modOpn _ = _
  unfold performLate
  obtain ⟨y, scope, z, act⟩ | ⟨n, act⟩ := ha <;>
    simp only [act, State.bank, hops, List.filter_nil, List.any_nil, Bool.false_eq_true, if_false, LateAct.size]

/-! ### What a slot of the sequencer reads (R298) -/

section
variable {s : State} (hs : ∀ o ∈ s.cl.bank.ops, o.agent ≠ 8)
include hs

/-- No operation of the sequencer comes before its access. -/
theorem beforeSync_of_none_own (l : Loc) (n : Nat) : beforeSync s 8 l n = s := by
  have waits : awaiting s 8 = false := by
    unfold awaiting
    exact List.any_eq_false.mpr fun o ho => by simp [hs o ho]
  have shares : (s.bank.ops.any fun o => o.agent = 8 && o.accs.any fun a => !a.done && a.loc.overlap a.size l n) = false :=
    List.any_eq_false.mpr fun o ho => by simp [hs o ho]
  unfold beforeSync
  rw [waits, shares]
  rfl

theorem barRead_of_some {x : Word} {l : Loc} (h : barrierLoc s s.asn s.sup (x.toNat % 2 ^ 32) = some l) :
    barRead s x = .ok (s, l, (BitVec.ofNat 64 ((ownView s 8).readLoc l 8)).toNat) := by
  obtain ⟨c, k, off, rfl⟩ := pool_of_barrierLoc h
  have load : loadNow s s.seqWho x (.pool c k false off) 8 = .ok (s, ownRead s 8 (.pool c k false off) 8) := by
    unfold loadNow
    simp only [show s.seqWho.agent = 8 from rfl, beforeSync_of_none_own hs]
    rfl
  unfold barRead
  rw [barOperand_of_some h]
  simp only [bind, Except.bind, load]
  rw [toNat_readLoc]
  rfl

end

/-! ### The trap of a set ERR (R138) -/

/-- The commands of the running bank that the courier knows. -/
def State.knownCmds (s : State) : List Command := s.cl.cmds.filter fun x => x.bank = s.bankNo && decide (s.cl.accepted ≤ x.seq + 256)

/-- The trap names the command, and its cause is a machine check where that of the command is. -/
def barTrap (s : State) (x : Option Command) : State :=
  takeTrap s (if x.map Command.cause = some 0x16 then 0x16 else 0x12) (BitVec.ofNat 64 ((x.map Command.id).getD 0)) 8 0

/-- The first trap for the barrier names the oldest known command that set ERR, and is noted. -/
theorem barErrTrap_first {s : State} {l : Loc} (h : ∀ p ∈ s.cl.barTold, p.1 = s.bankNo → p.2.1 ≠ l) :
    let x := s.knownCmds.find? fun x => x.onBar = some l
    barErrTrap s l = barTrap (s.modCl fun c => { c with barTold := c.barTold ++ [(s.bankNo, l, (x.map Command.id).getD 0)] }) x := by
  have untold : (s.cl.barTold.find? fun p => p.1 = s.bankNo && p.2.1 = l) = none :=
    List.find?_eq_none.mpr fun p hp => by simpa using h p hp
  unfold barErrTrap
  simp only [untold]
  rfl

/-- A later one names the same command again. -/
theorem barErrTrap_again {s : State} {l : Loc} {p : Fin 8 × Loc × Nat} (h : (s.cl.barTold.find? fun p => p.1 = s.bankNo && p.2.1 = l) = some p) :
    barErrTrap s l = barTrap s (s.knownCmds.find? fun x => x.id = p.2.2 && x.onBar = some l) := by
  unfold barErrTrap
  simp only [h]
  rfl

/-! ### The slots -/

section
variable {s : State} (a b : Fin 32) (scope : Fin 8) (z : Bool)

/-- A slot whose locator is bad traps. -/
theorem exec_of_bad_locator (h : barrierLoc s s.asn s.sup ((s.rs a).toNat % 2 ^ 32) = none) {i : Instr}
    (hi : (i = .barinit a b scope z ∧ scope.val < 5) ∨ i = .baradd a b ∨ i = .bartest a b) :
    exec i s = .next (takeTrap s 0x07 (BitVec.ofNat 64 ((s.rs a).toNat % 2 ^ 32)) 8) := by
  have operand := barOperand_of_none h
  rw [← outcome_trap (s := s) (BitVec.ofNat 64 ((s.rs a).toNat % 2 ^ 32)) 8 (c := 0x07) rfl]
  rcases hi with ⟨rfl, known⟩ | rfl | rfl
  · change execBarinit a b scope z s = _
    unfold execBarinit
    rw [if_neg (Nat.not_le.mpr known), operand]
    rfl
  · change execBaradd a b s = _
    unfold execBaradd
    rw [operand]
    rfl
  · change execBartest a b s = _
    unfold execBartest barRead
    rw [operand]
    rfl

theorem exec_barwait_of_bad_locator (h : barrierLoc s s.asn s.sup ((s.rs s.sole).toNat % 2 ^ 32) = none) :
    exec .barwait s = .next (takeTrap s 0x07 (BitVec.ofNat 64 ((s.rs s.sole).toNat % 2 ^ 32)) 8) := by
  rw [← outcome_trap (s := s) (BitVec.ofNat 64 ((s.rs s.sole).toNat % 2 ^ 32)) 8 (c := 0x07) rfl]
  change execBarwait s = _
  unfold execBarwait barRead
  rw [barOperand_of_none h]
  rfl

/-- A scope above 4 is illegal (R145). -/
theorem exec_barinit_of_scope (h : 5 ≤ scope.val) : exec (.barinit a b scope z) s = .next (takeTrap s 0x01 s.slotWord 8) := by
  rw [← outcome_illegal]
  change execBarinit a b scope z s = _
  unfold execBarinit
  rw [if_pos h]

variable {l : Loc} (hl : barrierLoc s s.asn s.sup ((s.rs a).toNat % 2 ^ 32) = some l)
include hl

/-- BARINIT of a count in range acts on the word as its bundle commits. -/
theorem exec_barinit (hs : scope.val < 5) (hc : (s.rs b).toNat < 2 ^ 56) :
    exec (.barinit a b scope z) s = .next (s.putLate 8 l (.barinit (s.rs b).toNat scope z)) := by
  change execBarinit a b scope z s = _
  unfold execBarinit
  rw [if_neg (Nat.not_le.mpr hs), barOperand_of_some hl]
  simp only [bind, Except.bind, if_neg (Nat.not_le.mpr hc), outcome_ok]

theorem exec_barinit_of_large (hs : scope.val < 5) (hc : 2 ^ 56 ≤ (s.rs b).toNat) :
    exec (.barinit a b scope z) s = .next (takeTrap s 0x12 (s.rs b) 8) := by
  rw [← outcome_trap (s := s) (s.rs b) 8 (c := 0x12) rfl]
  change execBarinit a b scope z s = _
  unfold execBarinit
  rw [if_neg (Nat.not_le.mpr hs), barOperand_of_some hl]
  simp only [bind, Except.bind, if_pos hc, seqTrap]

/-- So does BARADD. -/
theorem exec_baradd : exec (.baradd a b) s = .next (s.putLate 8 l (.baradd (s.rs b).toInt)) := by
  change execBaradd a b s = _
  unfold execBaradd
  rw [barOperand_of_some hl]
  rfl

end

section
variable {s : State} {l : Loc} {w : Word} (hs : ∀ o ∈ s.cl.bank.ops, o.agent ≠ 8) (hw : BitVec.ofNat 64 ((ownView s 8).readLoc l 8) = w)
include hs hw

/-- BARTEST posts whether the barrier is complete. -/
theorem exec_bartest (a b : Fin 32) (hl : barrierLoc s s.asn s.sup ((s.rs a).toNat % 2 ^ 32) = some l) (h : w.getLsbD 62 = false) :
    exec (.bartest a b) s = .next (s.postQ 0 b (w.getLsbD 63 && decide (bits w 55 0 = 0))) := by
  change execBartest a b s = _
  unfold execBartest
  rw [barRead_of_some hs hl, hw]
  simp only [barErrSet_toNat, h, Bool.false_eq_true, if_false, barrierDone_toNat h]

/-- BARWAIT holds until it is. -/
theorem exec_barwait (hl : barrierLoc s s.asn s.sup ((s.rs s.sole).toNat % 2 ^ 32) = some l) (h : w.getLsbD 62 = false) :
    exec .barwait s = .next (if w.getLsbD 63 && decide (bits w 55 0 = 0) then s else s.stall) := by
  change execBarwait s = _
  unfold execBarwait
  rw [barRead_of_some hs hl, hw]
  simp only [barErrSet_toNat, h, Bool.false_eq_true, if_false, barrierDone_toNat h]
  split <;> rfl

/-- A set ERR traps in both. -/
theorem exec_of_barErr (a b : Fin 32) {i : Instr} (h : w.getLsbD 62 = true)
    (hi : (i = .barwait ∧ barrierLoc s s.asn s.sup ((s.rs s.sole).toNat % 2 ^ 32) = some l) ∨
      (i = .bartest a b ∧ barrierLoc s s.asn s.sup ((s.rs a).toNat % 2 ^ 32) = some l)) :
    exec i s = .next (barErrTrap s l) := by
  rcases hi with ⟨rfl, hl⟩ | ⟨rfl, hl⟩
  · change execBarwait s = _
    unfold execBarwait
    rw [barRead_of_some hs hl, hw]
    simp only [barErrSet_toNat, h, if_true]
  · change execBartest a b s = _
    unfold execBartest
    rw [barRead_of_some hs hl, hw]
    simp only [barErrSet_toNat, h, if_true]

end

end Sys2Proof.Machine
end

section
/-!
SETTLED. O43: the barrier slots (R138, R142 to R145, R299).
-/

namespace Sys2Proof.Machine

/-- Settles O43: the slots by the word that the locator names, the commit by the fields of the word that it leaves. -/
theorem barrierSlots : Obligations.BarrierSlots := by
  unfold Obligations.BarrierSlots
  refine ⟨fun s a b scope z => ?_, fun s o x l ho hl hx hops => ?_⟩
  · intro loc bar puts
    refine ⟨fun n core word hn hw => ⟨fun inside => ?_, fun outside => ?_, fun c => ?_, fun m lo hi => ?_⟩, exec_barinit_of_scope a b scope z,
      fun bad i hi => exec_of_bad_locator a b scope z bad hi, exec_barwait_of_bad_locator,
      fun l hl => ⟨fun known => ⟨fun large => ?_, fun small => ?_⟩, ?_⟩, fun own l => ?_⟩
    · rw [barrierLoc_local s s.asn s.sup hn hw, if_pos inside]
    · rw [barrierLoc_local s s.asn s.sup hn hw, if_neg (Nat.not_lt.mpr outside)]
    · exact barrierLoc_global s s.asn s.sup hn hw c
    · exact barrierLoc_reserved s s.asn s.sup lo hi
    · exact exec_barinit_of_large a b scope z hl known large
    · exact exec_barinit a b scope z hl known small
    · exact exec_baradd a b hl
    · intro w known
      refine ⟨fun hl clear => exec_bartest own rfl a b hl clear, fun hl clear armed zero => ?_, fun hl clear open_ => ?_, fun i hi err => ?_⟩
      · rw [exec_barwait (w := w) own rfl hl clear, armed, zero]
        rfl
      · have waits : (w.getLsbD 63 && decide (bits w 55 0 = 0)) = false := by
          rcases open_ with unarmed | count
          · rw [unarmed, Bool.false_and]
          · rw [decide_eq_false count, Bool.and_false]
        rw [exec_barwait (w := w) own rfl hl clear, waits]
        rfl
      · have traps := exec_of_barErr own rfl a b err hi
        exact ⟨fun untold => traps.trans (congrArg _ (barErrTrap_first untold)), fun p told => traps.trans (congrArg _ (barErrTrap_again told))⟩
  · intro w leaves
    subst hx
    have value : w.toNat = s.readLoc x.loc 8 := toNat_readLoc s x.loc
    refine ⟨fun y scope z act => ?_, fun n act => ?_⟩
    · intro fresh
      have rest := bits_lt w 57 56
      obtain ⟨v, f1, f2, f3, f4, f5, f6⟩ := armedWord_fields (!fresh && w.getLsbD 62) (fresh != w.getLsbD 61) scope.isLt rest
        (Nat.mod_lt ((if z then 0 else bits w 55 0) + y) (Nat.two_pow_pos 56))
      refine ⟨_, f1, f2, f3, f4, f5, f6, ?_⟩
      change commitLate s = _
      rw [commitLate_barrier ho hl hops (.inl ⟨y, scope, z, act⟩), act, v, ← barinitWord_eq, value]
      rfl
    · obtain ⟨v, high, count⟩ := countWord_fields w n
      refine ⟨_, high, count, ?_⟩
      change commitLate s = _
      rw [commitLate_barrier ho hl hops (.inr ⟨n, act⟩), act, v, value]
      rfl

end Sys2Proof.Machine
end

section
/-!
SETTLED. O44: courier commands (R133 to R153). The clause on an ECAN of a SENDH that holds an arrival slot says what becomes of every command of the
cluster, in every state; a command whose record of a barrier names no doubleword's place loses that record where the ERR is set beside it.
-/

namespace Sys2Proof.Machine

/-- A parked SENDH of 32 bytes to cluster 0 of die 0, which holds an arrival slot there; its barrier is the first doubleword of core 0's
scratchpad. -/
def heldSend : Command :=
  { id := 1, bank := 0, send := true, tgt := 8, asn := 0, sup := false, state := .parked, reserved := true,
    block := [0x6000, 0x0120000000000000, 0x800F1, 0x8000, 0x0000000800000004, 0x0000000000000800] ++ List.replicate 10 0 }

theorem heldSend_valid : cmdInvalid heldSend.block true heldSend.tgt = none := by decide +kernel

/-- A command in error that has set the ERR of the doubleword 4 bytes further on. No locator names one there, since R143 counts doublewords. -/
def crossedCmd : Command :=
  { id := 2, bank := 0, send := false, tgt := 8, block := [], asn := 0, sup := false, state := .error, cause := 0x05, seq := 1,
    onBar := some (.pool ⟨0, 0⟩ 0 false 4) }

/-- The device after reset, but that the courier of cluster 0 of die 0 has accepted both, one granule of each pool is scratchpad, and the slots of the
open bundle of bank 0 read s1 = 1. -/
def crossedState : State :=
  { State.reset with cl := { State.reset.cl with
      part := 0x100, run := some 0, cmds := [heldSend, crossedCmd], nextCmd := 3, accepted := 2, arrSlots := 1,
      opn := some { OpenBundle.blank with snap := { seq := SeqFile.write {} (.s 1 1) } } } }

theorem crossedState_memOk : crossedState.memOk := ⟨rfl, rfl⟩

/-- ECAN of s1 finds the SENDH. -/
theorem crossedState_ecan : exec (.ecan 0 1) crossedState = .next (cancelCmd crossedState heldSend) := by
  have found : ((knownCmds crossedState).find? fun x => x.id = bits (crossedState.rs 1) 15 0 && cancellable x) = some heldSend := by decide +kernel
  change execEcan 0 1 crossedState = _
  unfold execEcan
  rw [found]
  rfl

/-- It sets the ERR of the SENDH's barrier; the doubleword 4 bytes further on keeps ERR = 0, so that the error recorded there is forgotten. -/
theorem crossedState_forgets : (cancelCmd crossedState heldSend).cl.cmds.map Command.onBar = [some (.pool ⟨0, 0⟩ 0 false 0), none] := by
  decide +kernel

/-- Refutes O44: an ECAN that cancels a SENDH with an arrival slot and a barrier need not leave the other commands as they are. Where one of them
records an error on a barrier at an address that overlaps the SENDH's barrier word, which no command of a run does, the record is gone. -/
theorem not_courierCommands : ¬ Obligations.CourierCommands := by
  unfold Obligations.CourierCommands
  intro h
  obtain ⟨-, -, -, -, cancels⟩ := h.1 crossedState 0 1 crossedState_memOk
  obtain ⟨frees, -⟩ :=
    cancels heldSend (.pool ⟨0, 0⟩ 0 false 0) (.head _) (by decide +kernel) (.inr rfl) (by decide +kernel) (by decide +kernel)
  obtain ⟨t, run, -, -, others⟩ := frees rfl rfl
  have same : cancelCmd crossedState heldSend = t := Host.Outcome.next.inj (crossedState_ecan.symm.trans run)
  rw [← same] at others
  have records := crossedState_forgets
  rw [others] at records
  exact absurd records (by decide +kernel)

end Sys2Proof.Machine
end

section
/-!
SETTLED. O36: gathers and scatters (R155, R167 to R171). The clause on AGTH does not suppose that no acquire of the core is outstanding; the porter reads
after every acquire of its core (R301), so that the slot performs such an operation first.
-/

namespace Sys2Proof.Machine

/-- A load with acquire that core 0 has issued from the first bytes of its scratchpad, and that is not performed yet. -/
def acquiring : MemOp :=
  { id := 0, agent := 0, cls := .load, acquire := true, dest := .coreA 2 8 false,
    accs := [{ va := 0x0100000000000000, loc := .pool ⟨0, 0⟩ 0 false 0, size := 8, kind := .load }] }

/-- The device after reset, but that bank 0 runs with the pool of the partition word of R171's example and that load outstanding, and that the slots
of its open bundle are those of core 0 alone and read a1 = the first address of the scratchpad. -/
def acquiringState : State :=
  { State.reset with cl := { State.reset.cl with
      part := 0x00271801, run := some 0, bank := { State.reset.cl.bank with ops := [acquiring] },
      opn := some { OpenBundle.blank with
        first := 1, sampled := { OpenBundle.blank.sampled with coreEn := 1 },
        snap := { cores := Vector.replicate 8 ((CoreFile.write {} (.a 1 0x0100000000000000))) } } } }

/-- The operations of the running bank in the next state. -/
def opsAfter : Host.Outcome State Fault Refusal → List MemOp
  | .next t => t.cl.bank.ops
  | .fault _ | .refused _ => []

theorem acquiringState_ready : ∀ k : Fin 8, acquiringState.enabled k = true →
    (acquiringState.ra k 1).toNat = 2 ^ 56 + 0 ∧ 0 < shareSize acquiringState.cl.part false ∧ 0 % 64 = 0 ∧
      ((acquiringState.cl.cores[k.val]).gathers.filter fun g => g.bank = acquiringState.bankNo).length < 32 := by decide +kernel

theorem acquiringState_fits : ∀ k : Fin 8, acquiringState.enabled k = true → ∀ e ∈ List.range ((0 : Fin 64).val + 1),
    0 + 64 * ((acquiringState.rv k 0).toNat / 2 ^ (16 * e) % 2 ^ 16) +
      (if (acquiringState.ra k 0).getLsbD 7 then 256 else if partRf acquiringState.cl.part = 1 then 128 else 256) ≤
      shareSize acquiringState.cl.part false := by decide +kernel

/-- AGTH performs the load before the porter reads. -/
theorem acquiringState_agth : opsAfter (exec (.agth 1 0 0 0) acquiringState) = [] := by decide +kernel

/-- Refutes O36: where a load with acquire of the core is outstanding, AGTH performs it before it enters the gather, and so does not leave the
operations of the bank as they are. -/
theorem not_gathersAndScatters : ¬ Obligations.GathersAndScatters := by
  unfold Obligations.GathersAndScatters
  intro h
  obtain ⟨enters, -⟩ := (h.2 acquiringState).1 0 1 0 0 (fun _ => 0) acquiringState_ready
  obtain ⟨t, run, same, -⟩ := enters acquiringState_fits
  have performed : t.cl.bank.ops = [] := by
    have none := acquiringState_agth
    rwa [run] at none
  have outstanding : t.cl.bank.ops = [acquiring] := by rw [same]; rfl
  exact List.cons_ne_nil _ _ (outstanding.symm.trans performed)

end Sys2Proof.Machine
end

section
/-!
SUPPORT. Slots on a core's own pool (R157, R158, R164 to R166): the places of their elements, what an agent of an open bundle sees of the pool (R35,
R299), and the elements that a load reads.
-/

namespace Sys2Proof.Machine

/-! ### Addresses of the own pool (R75, R76, R165) -/

/-- The address names byte `off` of a share of the own pool. -/
def Lies (part : BitVec 32) (va : Word) (acc : Bool) (off : Nat) : Prop :=
  va.toNat = 2 ^ 56 + (if acc then 2 ^ 52 else 0) + off ∧ off < shareSize part acc

theorem shareSize_lt (part : BitVec 32) (acc : Bool) : shareSize part acc < 2 ^ 22 := by
  have field (hi lo : Nat) (h : hi + 1 - lo = 6) : bits part hi lo < 2 ^ 6 := h ▸ bits_lt part hi lo
  have granules : (if acc then partAcc part else partSpad part) < 2 ^ 6 := by
    split
    · exact field 21 16 rfl
    · exact field 13 8 rfl
  unfold shareSize
  omega

/-- The fields of such an address (Table 04.1). -/
theorem Lies.fields {part : BitVec 32} {va : Word} {acc : Bool} {off : Nat} (h : Lies part va acc off) :
    bits va 63 57 = 0 ∧ isWindow va = true ∧ winKind va = acc.toNat ∧ bits va 51 40 = 0 ∧ bits va 39 22 = 0 ∧ bits va 21 0 = off := by
  obtain ⟨value, inside⟩ := h
  have size := shareSize_lt part acc
  rw [isWindow, getLsbD_eq_decide, decide_eq_true_iff, winKind]
  unfold bits
  rw [value]
  cases acc <;> norm_num <;> omega

/-- An address with such fields lies in the pool. -/
theorem lies_of_fields {part : BitVec 32} {va : Word} (form : bits va 63 57 = 0) (own : ownWindow va = true) (core : bits va 51 40 = 0)
    (zeros : bits va 39 22 = 0) (inside : bits va 21 0 < shareSize part (winKind va % 2 = 1)) :
    Lies part va (winKind va % 2 = 1) (bits va 21 0) := by
  refine ⟨?_, inside⟩
  rw [ownWindow, isWindow, getLsbD_eq_decide, Bool.and_eq_true, decide_eq_true_iff, decide_eq_true_iff] at own
  obtain ⟨window, kind⟩ := own
  unfold winKind at kind ⊢
  unfold bits at *
  simp only [decide_eq_true_eq]
  split <;> omega

section
variable (s : State) (k : Fin 8)

/-- The location of a window address of kind 0 or 1 (R76). -/
theorem windowLoc_own (w : Who) {va : Word} (h : ownWindow va = true) : windowLoc s w s.cl.id (some k) va =
    if bits va 39 22 = 0 ∧ bits va 51 40 = 0 ∧ bits va 21 0 < shareSize s.cl.part (winKind va % 2 = 1) then
      .ok (.pool s.cl.id k (winKind va % 2 = 1) (bits va 21 0)) else w.trap 0x07 va := by
  have kind : winKind va < 2 := of_decide_eq_true (Bool.and_eq_true_iff.mp h).2
  have here : s.clusterAt s.cl.id = s.cl := if_pos rfl
  unfold windowLoc
  simp only [kind, if_true, here, Bool.and_eq_true, decide_eq_true_eq, and_assoc]

theorem ownPlace_of_lies {ew : Nat} {va : Word} {acc : Bool} {off : Nat} (h : Lies s.cl.part va acc off) : ownPlace s k ew va =
    if va.toNat % (ew / 8) ≠ 0 then (coreWho s k).trap 0x08 va else .ok (.pool s.cl.id k acc off) := by
  obtain ⟨form, window, kind, core, zeros, place⟩ := h.fields
  have own : ownWindow va = true := by
    rw [ownWindow, window, kind]
    cases acc <;> rfl
  have share : decide (winKind va % 2 = 1) = acc := by
    rw [kind]
    cases acc <;> rfl
  unfold ownPlace
  simp only [form, own, windowLoc_own s k _ own, share, zeros, core, place, h.2, and_self, if_true, ne_eq, not_true, decide_false, Bool.not_true,
    Bool.or_false, Bool.false_eq_true, if_false]

theorem ownPlace_of_outside {ew : Nat} {va : Word} (h : ∀ acc off, ¬Lies s.cl.part va acc off) :
    ownPlace s k ew va = (coreWho s k).trap 0x07 va := by
  unfold ownPlace
  simp only [Bool.or_eq_true, decide_eq_true_eq, Bool.not_eq_true']
  split
  next => rfl
  next own =>
    obtain ⟨form, own⟩ := not_or.mp own
    rw [ne_eq, not_not] at form
    rw [Bool.not_eq_false] at own
    rw [windowLoc_own s k _ own, if_neg fun ⟨zeros, core, inside⟩ => h _ _ (lies_of_fields form own core zeros inside)]
    rfl

end

/-- The sizes of an element divide the bases of the shares, so that the offset is aligned where the address is. -/
theorem Lies.aligned_iff {part : BitVec 32} {va : Word} {acc : Bool} {off : Nat} (h : Lies part va acc off) (t : BitVec 16) :
    va.toNat % (vtEw t / 8) = off % (vtEw t / 8) := by
  rw [h.1, vtEw]
  split <;> split <;> omega

/-! ### What an agent of an open bundle sees of the pools (R35, R299) -/

/-- The clusters but for what a slot changes on its way through the cores: the cores' registers of the running bank, and the open bundle. -/
def Cluster.pools (c : Cluster) : Cluster := { c with opn := none, bank := { c.bank with cores := Vector.replicate 8 {} } }

/-- s and t have the same pools, and no write of an array of the current cluster is under way. -/
structure SamePools (s t : State) : Prop where
  cl : t.cl.pools = s.cl.pools
  others : t.others = s.others
  pend : ∀ k : Fin 8, (s.cl.cores[k.val]).pend = []

section
variable {s t : State} (h : SamePools s t)
include h

theorem SamePools.id : t.cl.id = s.cl.id := (congrArg (fun c : Cluster => c.id) h.cl :)
theorem SamePools.part : t.cl.part = s.cl.part := (congrArg (fun c : Cluster => c.part) h.cl :)
theorem SamePools.cores : t.cl.cores = s.cl.cores := (congrArg (fun c : Cluster => c.cores) h.cl :)
theorem SamePools.ops : t.cl.bank.ops = s.cl.bank.ops := (congrArg (fun c : Cluster => c.bank.ops) h.cl :)

theorem SamePools.anyErrs : t.anyErrs = s.anyErrs := by
  have told : t.cl.barTold = s.cl.barTold := (congrArg (fun c : Cluster => c.barTold) h.cl :)
  have cmds : t.cl.cmds = s.cl.cmds := (congrArg (fun c : Cluster => c.cmds) h.cl :)
  have shadows : t.cl.shadows = s.cl.shadows := (congrArg (fun c : Cluster => c.shadows) h.cl :)
  unfold State.anyErrs
  simp only [List.any_cons, told, cmds, shadows, h.others]

theorem SamePools.clusterAt (c : ClusterId) : (t.clusterAt c).pools = (s.clusterAt c).pools := by
  unfold State.clusterAt
  rw [h.id, h.others]
  split
  · exact h.cl
  · rfl

end

/-- The core as of now depends on no register of a core. -/
theorem Cluster.coreNow_of_pools {c d : Cluster} (h : d.pools = c.pools) (k : Fin 8) : d.coreNow k = c.coreNow k :=
  (congrArg (fun x : Cluster => x.coreNow k) h :)

theorem Cluster.setCore_pools {c d : Cluster} (h : d.pools = c.pools) (k : Fin 8) (x : PhysCore) : (d.setCore k x).pools = (c.setCore k x).pools :=
  (congrArg (fun y : Cluster => y.setCore k x) h :)

theorem Cluster.forgetErrs_pools {c d : Cluster} (h : d.pools = c.pools) (gone : Loc → Bool) : (d.forgetErrs gone).pools = (c.forgetErrs gone).pools :=
  (congrArg (fun y : Cluster => y.forgetErrs gone) h :)

/-- A core with nothing under way is as it stands. -/
theorem PhysCore.settle_of_no_pend {c : PhysCore} (h : c.pend = []) (t : Nat) : c.settle t = c := by
  obtain ⟨⟩ := c
  cases h
  rfl

theorem SamePools.readLoc {s t : State} (h : SamePools s t) (c : ClusterId) (k : Fin 8) (acc : Bool) (off n : Nat) :
    t.readLoc (.pool c k acc off) n = s.readLoc (.pool c k acc off) n := by
  unfold State.readLoc
  simp only [Cluster.coreNow_of_pools (h.clusterAt c)]

/-- The bytes of a share after a write to it. -/
def State.poolBytes (s : State) (c : ClusterId) (k : Fin 8) (acc : Bool) (off x n : Nat) : Mem :=
  (((s.clusterAt c).coreNow k).share acc).write off x n

/-- The cluster of a pool after the write. -/
def State.poolAfter (s : State) (c : ClusterId) (k : Fin 8) (acc : Bool) (off x n : Nat) : Cluster :=
  (s.clusterAt c).setCore k (((s.clusterAt c).coreNow k).setShare acc (s.poolBytes c k acc off x n))

theorem State.writeLoc_pool (s : State) (c : ClusterId) (k : Fin 8) (acc : Bool) (off x n : Nat) : s.writeLoc (.pool c k acc off) x n =
    let u := s.setCluster (s.poolAfter c k acc off x n)
    let gone := errClear (s.poolBytes c k acc off x n) c k off n
    if acc || !u.anyErrs then u else { u with cl := u.cl.forgetErrs gone, others := u.others.map (Cluster.forgetErrs gone) } := rfl

theorem SamePools.setCluster {s t : State} (h : SamePools s t) (c : ClusterId) (k : Fin 8) (acc : Bool) (off x n : Nat) :
    SamePools (s.setCluster (s.poolAfter c k acc off x n)) (t.setCluster (t.poolAfter c k acc off x n)) := by
  have now := Cluster.coreNow_of_pools (h.clusterAt c) k
  have bytes : t.poolBytes c k acc off x n = s.poolBytes c k acc off x n := by rw [State.poolBytes, State.poolBytes, now]
  have after : (t.poolAfter c k acc off x n).pools = (s.poolAfter c k acc off x n).pools := by
    rw [State.poolAfter, State.poolAfter, bytes, now]
    exact Cluster.setCore_pools (h.clusterAt c) k _
  have named (u : State) : (u.poolAfter c k acc off x n).id = c := u.clusterAt_id c
  unfold State.setCluster
  rw [named, named, h.id]
  by_cases own : s.cl.id = c
  · have here : s.clusterAt c = s.cl := if_pos own
    rw [if_pos own, if_pos own]
    refine ⟨after, h.others, fun j => ?_⟩
    change ((s.poolAfter c k acc off x n).cores[j.val]).pend = []
    rw [State.poolAfter, here, Cluster.setCore, getElem_set_fin]
    split
    · have kept (m : Mem) : ((s.cl.coreNow k).setShare acc m).pend = (s.cl.coreNow k).pend := by cases acc <;> rfl
      rw [kept, Cluster.coreNow, PhysCore.settle_of_no_pend (h.pend k)]
      exact h.pend k
    · exact h.pend j
  · have elsewhere : t.poolAfter c k acc off x n = s.poolAfter c k acc off x n := by
      have same : t.clusterAt c = s.clusterAt c := by
        unfold State.clusterAt
        rw [h.id, if_neg own, if_neg own, h.others]
      rw [State.poolAfter, State.poolAfter, State.poolBytes, State.poolBytes, same]
    rw [if_neg own, if_neg own, elsewhere]
    exact ⟨h.cl, congrArg (putCluster _) h.others, h.pend⟩

theorem SamePools.writeLoc {s t : State} (h : SamePools s t) (l : Loc) (x n : Nat) : SamePools (s.writeLoc l x n) (t.writeLoc l x n) := by
  cases l with
  | mem pa => exact ⟨h.cl, h.others, h.pend⟩
  | pool c k acc off =>
    have put := h.setCluster c k acc off x n
    have bytes : t.poolBytes c k acc off x n = s.poolBytes c k acc off x n := by
      rw [State.poolBytes, State.poolBytes, Cluster.coreNow_of_pools (h.clusterAt c) k]
    rw [State.writeLoc_pool, State.writeLoc_pool]
    simp only [put.anyErrs, bytes]
    split
    · exact put
    · exact ⟨Cluster.forgetErrs_pools put.cl _, congrArg (List.map _) put.others, put.pend⟩

/-- A write leaves the operations and the name of the current cluster as they are. -/
theorem State.writeLoc_ops (s : State) (l : Loc) (x n : Nat) : (s.writeLoc l x n).cl.bank.ops = s.cl.bank.ops ∧ (s.writeLoc l x n).cl.id = s.cl.id := by
  cases l with
  | mem pa => exact ⟨rfl, rfl⟩
  | pool c k acc off =>
    have put : (s.setCluster (s.poolAfter c k acc off x n)).cl.bank.ops = s.cl.bank.ops ∧
        (s.setCluster (s.poolAfter c k acc off x n)).cl.id = s.cl.id := by
      unfold State.setCluster
      split
      next own =>
        have here : s.clusterAt c = s.cl := if_pos (own.trans (s.clusterAt_id c))
        change (s.clusterAt c).bank.ops = _ ∧ (s.clusterAt c).id = _
        rw [here]
        exact ⟨rfl, rfl⟩
      next => exact ⟨rfl, rfl⟩
    rw [State.writeLoc_pool]
    simp only
    split
    · exact put
    · exact put

/-! #### Late writes of an agent with nothing outstanding -/

theorem filter_ops_eq_nil {l : List MemOp} {a : Fin 9} (h : ∀ o ∈ l, o.agent ≠ a) (p : MemOp → Bool) :
    (l.filter fun o => o.agent = a && p o) = [] := List.filter_eq_nil_iff.mpr fun o ho => by simp [h o ho]

section
variable {s : State} {x : LateWrite} (h : ∀ o ∈ s.cl.bank.ops, o.agent ≠ x.agent)
include h

theorem performLate_pool {c : ClusterId} {k : Fin 8} {acc : Bool} {off : Nat} (hl : x.loc = .pool c k acc off) :
    performLate s x = s.writeLoc x.loc (x.act.value (s.readLoc x.loc x.act.size)) x.act.size := by
  have none : (s.bank.ops.filter fun o => o.agent = x.agent && decide (o.id < x.id)) = [] := filter_ops_eq_nil h _
  unfold performLate
  simp only [none, hl, List.any_nil, Bool.false_eq_true, if_false]
  cases x.act <;> rfl

theorem performLate_mem {pa : Nat} (hl : x.loc = .mem pa) : (performLate s x).cl = s.cl ∧ (performLate s x).others = s.others := by
  have none : (s.bank.ops.filter fun o => o.agent = x.agent && decide (o.id < x.id)) = [] := filter_ops_eq_nil h _
  have quiet := State.homeLine_quiet s ⟨s.cl.id, x.agent, x.src⟩ (pa / 128)
  have written (u : State) (y n : Nat) : (u.writeLoc (.mem pa) y n).cl = u.cl ∧ (u.writeLoc (.mem pa) y n).others = u.others := ⟨rfl, rfl⟩
  unfold performLate
  simp only [none, hl, List.any_nil, Bool.false_eq_true, if_false]
  cases x.act with
  | swap old new =>
    simp only
    split
    · rw [(written ..).1, (written ..).2]
      exact ⟨quiet.cl, quiet.others⟩
    · exact ⟨quiet.cl, quiet.others⟩
  | put => exact written ..
  | barinit => exact written ..
  | baradd => exact written ..

theorem performLate_ops : (performLate s x).cl.bank.ops = s.cl.bank.ops ∧ (performLate s x).cl.id = s.cl.id := by
  cases hl : x.loc with
  | mem pa =>
    rw [(performLate_mem h hl).1]
    exact ⟨rfl, rfl⟩
  | pool c k acc off =>
    rw [performLate_pool h hl]
    exact s.writeLoc_ops ..

theorem SamePools.performLate {t : State} (hp : SamePools s t) : SamePools (performLate s x) (performLate t x) := by
  have ht : ∀ o ∈ t.cl.bank.ops, o.agent ≠ x.agent := hp.ops ▸ h
  cases hl : x.loc with
  | mem pa =>
    obtain ⟨cl, others⟩ := performLate_mem h hl
    obtain ⟨cl', others'⟩ := performLate_mem ht hl
    exact ⟨by rw [cl, cl', hp.cl], by rw [others, others', hp.others], by rw [cl]; exact hp.pend⟩
  | pool c k acc off =>
    rw [performLate_pool h hl, performLate_pool ht hl, hl, hp.readLoc]
    exact hp.writeLoc ..

end

/-- What an agent with nothing outstanding sees: the late writes of its own, done in turn. -/
theorem foldl_performLate {s t : State} {xs : List LateWrite} (hp : SamePools s t) (h : ∀ x ∈ xs, ∀ o ∈ s.cl.bank.ops, o.agent ≠ x.agent) :
    SamePools (xs.foldl Machine.performLate s) (xs.foldl Machine.performLate t) ∧
      (xs.foldl Machine.performLate s).cl.bank.ops = s.cl.bank.ops ∧ (xs.foldl Machine.performLate s).cl.id = s.cl.id := by
  induction xs generalizing s t with
  | nil => exact ⟨hp, rfl, rfl⟩
  | cons x xs ih =>
    have own := h x List.mem_cons_self
    obtain ⟨ops, id⟩ := performLate_ops own
    obtain ⟨pools, ops', id'⟩ := ih (hp.performLate own) fun y hy => ops ▸ h y (List.mem_cons_of_mem x hy)
    exact ⟨pools, ops'.trans ops, id'.trans id⟩

theorem own_late {s : State} {a : Fin 9} (h : ∀ o ∈ s.cl.bank.ops, o.agent ≠ a) :
    ∀ x ∈ s.opn.late.filter fun x => x.agent = a, ∀ o ∈ s.cl.bank.ops, o.agent ≠ x.agent := fun x hx o ho => by
  rw [of_decide_eq_true (List.mem_filter.mp hx).2]
  exact h o ho

theorem ownView_of_no_own {s : State} {a : Fin 9} (hp : ∀ k : Fin 8, (s.cl.cores[k.val]).pend = []) (h : ∀ o ∈ s.cl.bank.ops, o.agent ≠ a) :
    ownView s a = (s.opn.late.filter fun x => x.agent = a).foldl performLate s := by
  have own := own_late h
  obtain ⟨-, ops, -⟩ := foldl_performLate (t := s) ⟨rfl, rfl, hp⟩ own
  have none := filter_ops_eq_nil (ops ▸ h)
  unfold ownView
  simp only [Bool.and_assoc, State.bank, none, List.foldl_nil]

/-- The view depends on the pools, and on the late writes of the open bundle. -/
theorem SamePools.ownView {s t : State} {a : Fin 9} (hp : SamePools s t) (hl : t.opn.late = s.opn.late) (h : ∀ o ∈ s.cl.bank.ops, o.agent ≠ a) :
    SamePools (ownView s a) (ownView t a) ∧ (ownView s a).cl.id = s.cl.id := by
  have own := own_late h
  obtain ⟨pools, -, id⟩ := foldl_performLate hp own
  rw [ownView_of_no_own hp.pend h, ownView_of_no_own (hp.cores ▸ hp.pend) (hp.ops ▸ h), hl]
  exact ⟨pools, id⟩


/-! ### The checks of a slot (R164, R165) -/

theorem activeAddrs_eq (s : State) (k : Fin 8) (msel : Fin 4) (n : Nat) (addr : Nat → Word) :
    activeAddrs s k msel n addr = (activeList s k msel n).map fun e => (e, addr e) := by
  unfold activeAddrs activeList
  refine congrArg (List.map _) (List.filter_congr fun e he => ?_)
  rw [State.active, decide_eq_true (List.mem_range.mp he), Bool.true_and]

theorem vecFields_of_legal {s : State} {k : Fin 8} {width : Fin 4} {rs : List (Fin 16)} (hw : width.val ≠ 3)
    (hr : ∀ r ∈ rs, r.val % (s.vcfg k).group = 0) : vecFields s k width rs = .ok () := by
  have groups : rs.all (s.vcfg k).aligned = true := List.all_eq_true.mpr fun r hm => decide_eq_true (hr r hm)
  rw [vecFields, decide_eq_false hw, groups]
  rfl

theorem afterAcquire_of_no_own {s : State} {a : Fin 9} (h : ∀ o ∈ s.cl.bank.ops, o.agent ≠ a) : afterAcquire s a = s := by
  have waits : awaiting s a = false := List.any_eq_false.mpr fun o ho => by simp [h o ho]
  rw [afterAcquire, waits]
  rfl

section
variable {s : State} {k : Fin 8} {t : BitVec 16} {addr : Nat → Word} {acc : Nat → Bool} {off : Nat → Nat}

theorem ownPlaces_of_lies {es : List Nat} (h : ∀ e ∈ es, Lies s.cl.part (addr e) (acc e) (off e) ∧ off e % (vtEw t / 8) = 0) :
    ownPlaces s k (vtEw t) (es.map fun e => (e, addr e)) = .ok (es.map fun e => (e, .pool s.cl.id k (acc e) (off e))) := by
  induction es with
  | nil => rfl
  | cons e es ih =>
    obtain ⟨lies, aligned⟩ := h e List.mem_cons_self
    rw [List.map_cons, ownPlaces, ownPlace_of_lies s k lies, lies.aligned_iff, aligned, if_neg (not_not.mpr rfl),
      ih fun x hx => h x (List.mem_cons_of_mem e hx)]
    rfl

/-- The first element that fails decides the trap. -/
theorem ownPlaces_of_head {es : List Nat} {e : Nat} {ew : Nat} {x : Stop} (he : es.head? = some e) (h : ownPlace s k ew (addr e) = .error x) :
    ownPlaces s k ew (es.map fun e => (e, addr e)) = .error x := by
  obtain ⟨rest, rfl⟩ := List.head?_eq_some_iff.mp he
  rw [List.map_cons, ownPlaces, h]

end

/-! ### The elements of a load (R164) -/

/-- Elements read of the own pool are as the view has them: of the accumulator store too, where no write of it is under way. -/
theorem ownValues_of_view {u : State} {k : Fin 8} {n : Nat} {acc : Nat → Bool} {off : Nat → Nat} (hp : ∀ j : Fin 8, (u.cl.cores[j.val]).pend = [])
    (es : List Nat) (ctr : Nat) : (ownValues u k n (es.map fun e => (e, .pool u.cl.id k (acc e) (off e))) ctr).1 =
      es.map fun e => (e, ((u.cl.cores[k.val]).share (acc e)).read (off e) n) := by
  have here : u.clusterAt u.cl.id = u.cl := if_pos rfl
  have spad (o : Nat) : u.readLoc (.pool u.cl.id k false o) n = ((u.cl.cores[k.val]).share false).read o n := by
    unfold State.readLoc
    simp only [here, Cluster.coreNow, PhysCore.settle_of_no_pend (hp k)]
  have rows (o c : Nat) : (readAcc { u with freeCtr := c } k n [o]).1 = [((u.cl.cores[k.val]).share true).read o n] := by
    unfold readAcc PhysCore.accViews
    simp only [hp k]
    rfl
  induction es generalizing ctr with
  | nil => rfl
  | cons e es ih =>
    rw [List.map_cons, List.map_cons, ownValues]
    cases acc e with
    | false =>
      simp only [ih]
      rw [spad]
    | true =>
      simp only [ih]
      rw [rows]
      rfl

theorem lookupElem_map (val : Nat → Nat) (es : List Nat) (i : Nat) :
    lookupElem (es.map fun e => (e, val e)) i = if i ∈ es then some (val i) else none := by
  induction es with
  | nil => rfl
  | cons e es ih =>
    unfold lookupElem at ih ⊢
    rw [List.map_cons, List.find?_cons]
    by_cases h : e = i
    · subst h
      simp
    · simp only [decide_eq_false h, ih, List.mem_cons, Ne.symm h, false_or]

theorem VecCfg.policy_eq_kept (c : VecCfg) (ew n i : Nat) : c.policy ew n i = (kept c ew n i).1 := by
  unfold VecCfg.policy kept ones
  split <;> rfl

/-- The elements of a load's destination: those read, and the others by the policies. -/
def loadedElems (c : VecCfg) (n : Nat) (act : List Nat) (val : Nat → Nat) : List ElemWrite :=
  (List.range (1024 * c.group / c.ew)).map fun e => if e ∈ act then some (val e) else (kept c c.ew n e).1

theorem loadElems_eq (c : VecCfg) (n : Nat) (act : List Nat) (val : Nat → Nat) :
    loadElems c n (act.map fun e => (e, val e)) = if n = 0 then [] else loadedElems c n act val := by
  unfold loadElems loadedElems
  refine if_congr Iff.rfl rfl (List.map_congr_left fun e _ => ?_)
  rw [lookupElem_map, VecCfg.policy_eq_kept]
  by_cases read : e ∈ act
  · rw [if_pos read, if_pos read]
  · rw [if_neg read, if_neg read]

/-- The elements of a group fill its registers. -/
theorem group_registers (s : State) (k : Fin 8) (xs : List ElemWrite) (h : xs.length = 1024 * (s.vcfg k).group / (s.vcfg k).ew) :
    (xs.length * (s.vcfg k).ew + 1023) / 1024 = (s.vcfg k).group := by
  have ew : (s.vcfg k).ew = 32 ∨ (s.vcfg k).ew = 16 := by
    change vtEw _ = 32 ∨ vtEw _ = 16
    unfold vtEw
    split <;> simp
  rw [h]
  rcases ew with ew | ew <;> rw [ew] <;> omega

/-- The writes of a load to its destination. -/
def loadWrites (s : State) (k : Fin 8) (v : Fin 16) (n : Nat) (act : List Nat) (val : Nat → Nat) : List CoreWrite :=
  if n = 0 then [] else groupWrites v (s.vcfg k).ew (loadedElems (s.vcfg k) n act val) (s.vcfg k).group

theorem postElems_loadElems (t : State) (k : Fin 8) (lat : Nat) (v : Fin 16) (n : Nat) (act : List Nat) (val : Nat → Nat) :
    t.postElems k lat v (t.vcfg k).ew (loadElems (t.vcfg k) n (act.map fun e => (e, val e))) = t.postCoreList k lat (loadWrites t k v n act val) := by
  rw [loadElems_eq, loadWrites]
  split
  · rw [State.postElems, List.length_nil, Nat.zero_mul]
    rfl
  · rw [State.postElems, group_registers t k _ (by rw [loadedElems, List.length_map, List.length_range])]
    rfl


/-! ### Between two cores -/

/-- A state in which some cores have performed a slot on their pools: what they have posted, the freeze, and the late writes they have made. -/
def State.between (s : State) (freeze ctr : Nat) (cs : Vector CoreBank 8) (late : List LateWrite) (ps : Vector PhysCore 8) : State :=
  { s with freeCtr := ctr, cl := { s.cl with
      opn := some { s.opn with freeze := freeze, late := s.opn.late ++ late }, bank := { s.cl.bank with cores := cs }, cores := ps } }

theorem State.between_self {s : State} {o : OpenBundle} (ho : s.cl.opn = some o) :
    s.between s.opn.freeze s.freeCtr s.cl.bank.cores [] s.cl.cores = s := by
  have opn : some { s.opn with late := s.opn.late ++ [] } = s.cl.opn := by
    rw [List.append_nil, State.opn_of_some ho, ho]
  rw [State.between, opn]

theorem State.between_eq {s : State} {o : OpenBundle} (ho : s.cl.opn = some o) (freeze ctr : Nat) (cs : Vector CoreBank 8) (late : List LateWrite)
    (ps : Vector PhysCore 8) : s.between freeze ctr cs late ps = { s with freeCtr := ctr, cl := { s.cl with
      opn := s.cl.opn.map fun o => { o with freeze := freeze, late := o.late ++ late }, bank := { s.cl.bank with cores := cs }, cores := ps } } := by
  rw [State.between, State.opn_of_some ho, ho]
  rfl

/-- Where no bundle is open no core is enabled. -/
theorem State.enabled_of_no_bundle {s : State} (h : s.cl.opn = none) (k : Fin 8) : s.enabled k = false := by
  rw [State.enabled, State.opn, h]
  exact BitVec.getLsbD_zero

theorem eachCore_of_no_bundle {s : State} (h : s.cl.opn = none) (f : Fin 8 → State → Eff State) :
    eachCore f s = .ok s := by
  have none := coresFrom_of_disabled (f := f) (l := List.finRange 8) (s := s) (fun j _ => s.enabled_of_no_bundle h j) []
  rw [List.append_nil] at none
  exact none

/-! ### Loads -/

/-- A load in a core with nothing outstanding posts its writes, whatever the banks it meets. -/
theorem ownLoad_eq {t : State} {k : Fin 8} {v : Fin 16} {width msel : Fin 4} {extra : List (Fin 16)} {addr : Nat → Word} {act : List Nat}
    {ls : List (Nat × Loc)} {val : Nat → Nat} (lat : Nat) (conflicts : Bool) (fields : vecFields t k width (v :: extra) = .ok ())
    (places : ownPlaces t k (t.vcfg k).ew (activeAddrs t k msel ((t.vcfg k).count width) addr) = .ok ls)
    (idle : ∀ o ∈ t.cl.bank.ops, o.agent ≠ (coreWho t k).agent)
    (values : ∀ ctr, (ownValues (ownView t (coreWho t k).agent) k ((t.vcfg k).ew / 8) ls ctr).1 = act.map fun e => (e, val e)) :
    ∃ ctr, ownLoad t k v width msel lat conflicts extra addr =
      .ok (let u := { t.postCoreList k lat (loadWrites t k v ((t.vcfg k).count width) act val) with freeCtr := ctr }
        if conflicts then freezeFor u (bankLoad ls) else u) := by
  have storing : (t.bank.ops.any fun o => o.agent = (coreWho t k).agent && o.live && o.storing) = false :=
    List.any_eq_false.mpr fun o ho => by simp [idle o ho]
  refine ⟨(ownValues (ownView t (coreWho t k).agent) k ((t.vcfg k).ew / 8) ls t.freeCtr).2, ?_⟩
  unfold ownLoad
  simp only [fields, places, afterAcquire_of_no_own idle, storing, Bool.false_eq_true, if_false, bind, Except.bind]
  rw [values, postElems_loadElems]

section
variable {s : State} {k : Fin 8} {v : Fin 16} {width msel : Fin 4} {extra : List (Fin 16)} {addr : Nat → Word} {acc : Nat → Bool} {off : Nat → Nat}
  (legal : width.val ≠ 3 ∧ ∀ r ∈ v :: extra, r.val % (s.vcfg k).group = 0)
  (lies : ∀ e ∈ activeList s k msel ((s.vcfg k).count width), Lies s.cl.part (addr e) (acc e) (off e) ∧ off e % ((s.vcfg k).ew / 8) = 0)
  (idle : ∀ o ∈ s.cl.bank.ops, o.agent ≠ (coreWho s k).agent)
  (pend : ∀ j : Fin 8, (s.cl.cores[j.val]).pend = [])

/-- The value of an element as the core sees its pool. -/
def State.seen (s : State) (k : Fin 8) (acc : Nat → Bool) (off : Nat → Nat) (e : Nat) : Nat :=
  ((((ownView s (coreWho s k).agent).cl.cores[k.val]).share (acc e)).read (off e) ((s.vcfg k).ew / 8))

/-- The writes of the load in core k. -/
def State.loads (s : State) (v : Fin 16) (width msel : Fin 4) (acc : Fin 8 → Nat → Bool) (off : Fin 8 → Nat → Nat) (k : Fin 8) : List CoreWrite :=
  loadWrites s k v ((s.vcfg k).count width) (activeList s k msel ((s.vcfg k).count width)) (s.seen k (acc k) (off k))

include lies in
/-- The places of the elements, between two cores too. -/
theorem ownPlaces_between {t : State} (part : t.cl.part = s.cl.part) (cfg : t.vcfg k = s.vcfg k)
    (act : ∀ m, activeList t k msel m = activeList s k msel m) :
    ownPlaces t k (t.vcfg k).ew (activeAddrs t k msel ((t.vcfg k).count width) addr) =
      .ok ((activeList s k msel ((s.vcfg k).count width)).map fun e => (e, .pool t.cl.id k (acc e) (off e))) := by
  rw [cfg, activeAddrs_eq, act]
  exact ownPlaces_of_lies (t := (s.opn.regs.coreVl[k.val]).2) (part ▸ lies)

include legal lies idle pend

theorem ownLoad_between (lat : Nat) (conflicts : Bool) (f n : Nat) (cs : Vector CoreBank 8) :
    ∃ f' n', ownLoad (s.between f n cs [] s.cl.cores) k v width msel lat conflicts extra addr =
      .ok (s.between f' n' (cs.set k.val (s.postTimedList lat (fun _ =>
        loadWrites s k v ((s.vcfg k).count width) (activeList s k msel ((s.vcfg k).count width)) (s.seen k acc off)) k cs[k.val]) k.isLt) [] s.cl.cores) := by
  obtain ⟨t, ht⟩ : ∃ t, t = s.between f n cs [] s.cl.cores := ⟨_, rfl⟩
  have pools : SamePools s t := ht ▸ ⟨rfl, rfl, pend⟩
  have cfg : t.vcfg k = s.vcfg k := ht ▸ rfl
  have late : t.opn.late = s.opn.late := by rw [ht]; exact List.append_nil _
  obtain ⟨views, id⟩ := pools.ownView late idle
  have values (ctr : Nat) : (ownValues (ownView t (coreWho t k).agent) k ((t.vcfg k).ew / 8)
      ((activeList s k msel ((s.vcfg k).count width)).map fun e => (e, .pool t.cl.id k (acc e) (off e))) ctr).1 =
        (activeList s k msel ((s.vcfg k).count width)).map fun e => (e, s.seen k acc off e) := by
    have name : t.cl.id = (ownView t (coreWho s k).agent).cl.id := by rw [views.id, id, pools.id]
    change (ownValues (ownView t (coreWho s k).agent) k ((t.vcfg k).ew / 8) _ ctr).1 = _
    rw [name, ownValues_of_view (by rw [views.cores]; exact views.pend), views.cores, cfg]
    rfl
  obtain ⟨ctr, run⟩ := ownLoad_eq (t := t) (extra := extra) lat conflicts (vecFields_of_legal legal.1 (cfg.symm ▸ legal.2))
    (ownPlaces_between lies pools.part cfg fun m => ht ▸ rfl) (pools.ops ▸ idle) values
  have posts (ws : List CoreWrite) : { t.postCoreList k lat ws with freeCtr := ctr } =
      s.between f ctr (cs.set k.val (s.postTimedList lat (fun _ => ws) k cs[k.val]) k.isLt) [] s.cl.cores := by
    have list := State.postCoreList_withCores t cs k lat ws
    rw [show t.withCores cs = t from ht ▸ rfl] at list
    rw [list, ht]
    rfl
  rw [← ht, run]
  simp only [posts]
  rw [show loadWrites t k v = loadWrites s k v by unfold loadWrites; rw [cfg], cfg]
  cases conflicts with
  | false => exact ⟨f, ctr, rfl⟩
  | true => exact ⟨_, ctr, rfl⟩

end


/-- The active elements of a slot of the given width (R164). -/
def State.ownActive (s : State) (width msel : Fin 4) (k : Fin 8) : List Nat := activeList s k msel ((s.vcfg k).count width)

/-- Every active element lies in its core's own pool, aligned. -/
def InOwnPool (s : State) (width msel : Fin 4) (ea : Fin 8 → Nat → Word) (acc : Fin 8 → Nat → Bool) (off : Fin 8 → Nat → Nat) : Prop :=
  ∀ k, s.enabled k = true → ∀ e ∈ s.ownActive width msel k,
    Lies s.cl.part (ea k e) (acc k e) (off k e) ∧ off k e % ((s.vcfg k).ew / 8) = 0

/-- What the statement says of a load. -/
def OwnLoads (s : State) (v : Fin 16) (width msel : Fin 4) (i : Instr) (lat : Nat) (ea : Fin 8 → Nat → Word) : Prop :=
  ∀ acc off, InOwnPool s width msel ea acc off → ∃ t, exec i s = .next t ∧
    t = { s with
      freeCtr := t.freeCtr,
      cl := { s.cl with
        opn := s.cl.opn.map (fun o => { o with freeze := t.opn.freeze }), bank := { s.cl.bank with cores := t.cl.bank.cores } } } ∧
    ∀ k : Fin 8, t.cl.bank.cores[k.val] =
      if s.enabled k = true ∧ (s.vcfg k).count width ≠ 0 then
        { s.cl.bank.cores[k.val] with
          pend := (groupWrites v (s.vcfg k).ew
            (loadedElems (s.vcfg k) ((s.vcfg k).count width) (s.ownActive width msel k) (s.seen k (acc k) (off k))) (s.vcfg k).group).foldl
              (fun p x => Pending.insert (s.timed k lat x) p) (s.cl.bank.cores[k.val]).pend }
      else s.cl.bank.cores[k.val]

/-- The core of a load whose writes have been posted. -/
theorem postTimedList_loads (s : State) (lat : Nat) (v : Fin 16) (width msel : Fin 4) (acc : Fin 8 → Nat → Bool) (off : Fin 8 → Nat → Nat) (k : Fin 8)
    (c : CoreBank) : s.postTimedList lat (s.loads v width msel acc off) k c = if (s.vcfg k).count width ≠ 0 then
        { c with
          pend := (groupWrites v (s.vcfg k).ew
            (loadedElems (s.vcfg k) ((s.vcfg k).count width) (s.ownActive width msel k) (s.seen k (acc k) (off k))) (s.vcfg k).group).foldl
              (fun p x => Pending.insert (s.timed k lat x) p) c.pend }
      else c := by
  rw [State.postTimedList, State.loads, loadWrites, ite_not]
  split
  · rfl
  · rfl

section
variable {s : State} {v : Fin 16} {width msel : Fin 4} {rs : List (Fin 16)} (legal : VecLegal s width rs)
  (idle : ∀ o ∈ s.cl.bank.ops, ∀ k : Fin 8, s.enabled k = true → o.agent.val ≠ k.val) (pend : ∀ j : Fin 8, (s.cl.cores[j.val]).pend = [])
include legal idle pend

theorem ownLoads_of_exec {i : Instr} {lat : Nat} {conflicts : Bool} {extra : List (Fin 16)} {ea : Fin 8 → Nat → Word}
    (run : exec i s = outcome s (eachCore (fun k t => ownLoad t k v width msel lat conflicts extra (ea k)) s)) (regs : ∀ r ∈ v :: extra, r ∈ rs) :
    OwnLoads s v width msel i lat ea := by
  intro acc off lies
  cases ho : s.cl.opn with
  | none =>
    refine ⟨s, run.trans (congrArg (outcome s) (eachCore_of_no_bundle ho _)), ?_, fun k => ?_⟩
    · exact congrArg (fun p => { s with cl := { s.cl with opn := p } }) ho
    · rw [s.enabled_of_no_bundle ho, if_neg fun h => Bool.false_ne_true h.1]
  | some o =>
    let P (done : List (Fin 8)) (t : State) : Prop := ∃ f n,
      t = s.between f n (changeCores s.enabled (s.postTimedList lat (s.loads v width msel acc off)) done s.cl.bank.cores) [] s.cl.cores
    obtain ⟨t, cores, f, n, ht⟩ := eachCore_induction (s := s) (P := P) (f := fun k t => ownLoad t k v width msel lat conflicts extra (ea k))
      (fun {_ _} ⟨_, _, ht⟩ => ht ▸ rfl)
      (fun {done k _ _} _ he ⟨f, n, ht⟩ => ⟨f, n, by rw [changeCores_append, he]; exact ht⟩)
      (fun {done k _ t} _ he ⟨f, n, ht⟩ => by
        have here : ∀ r ∈ v :: extra, r.val % (s.vcfg k).group = 0 := fun r hr => legal.2 k he r (regs r hr)
        obtain ⟨f', n', load⟩ := ownLoad_between ⟨legal.1, here⟩ (lies k he) (fun o ho h => idle o ho k he (congrArg Fin.val h)) pend lat conflicts
          f n (changeCores s.enabled (s.postTimedList lat (s.loads v width msel acc off)) done s.cl.bank.cores)
        subst ht
        refine ⟨_, load, f', n', ?_⟩
        rw [changeCores_append, he]
        rfl) ⟨_, _, (State.between_self ho).symm⟩
    refine ⟨t, run.trans (congrArg (outcome s) cores), ?_, fun k => ?_⟩
    · subst ht
      rw [State.between, State.opn_of_some ho, List.append_nil]
      rfl
    · subst ht
      refine (changeCores_getElem _ _ (List.nodup_finRange 8) _ k).trans ?_
      rw [postTimedList_loads]
      by_cases he : s.enabled k = true
      · rw [if_pos ⟨List.mem_finRange k, he⟩]
        simp only [he, true_and]
      · rw [if_neg fun h => he h.2, if_neg fun h => he h.1]

end


/-! ### Stores -/

theorem Pending.mem_insert {α : Type} (p x : Pending α) : ∀ l : List (Pending α), x ∈ Pending.insert p l → x = p ∨ x ∈ l
  | [], h => .inl (List.mem_singleton.mp h)
  | y :: l, h => by
    rw [Pending.insert] at h
    split at h
    · exact List.mem_cons.mp h
    · rcases List.mem_cons.mp h with h | h
      · exact .inr (h ▸ List.mem_cons_self)
      · exact (Pending.mem_insert p x l h).imp_right (List.mem_cons_of_mem y)

/-- The writes under way in a core are stores of slots. -/
def PhysCore.RowsOnly (c : PhysCore) : Prop := ∀ p ∈ c.pend, ∀ off, p.eff.covers off = false

/-- A store of bytes to the accumulator store, at the end of the cycle. -/
def PhysCore.storeRows (s : State) (k : Fin 8) (off x n : Nat) (c : PhysCore) : PhysCore :=
  { c with pend := Pending.insert (s.timed k 1 (.rows off (leBytes x n))) c.pend }

theorem PhysCore.RowsOnly.storeRows {c : PhysCore} (h : c.RowsOnly) (s : State) (k : Fin 8) (off x n : Nat) : (c.storeRows s k off x n).RowsOnly := by
  intro p hp
  rcases Pending.mem_insert _ _ _ hp with rfl | hp
  · exact fun _ => rfl
  · exact h p hp

section
variable (s : State) (v : Fin 16) (acc : Nat → Bool) (off : Nat → Nat) (k : Fin 8)

/-- The core after the stores of some elements to the accumulator store. -/
def State.storedCore (es : List Nat) (c : PhysCore) : PhysCore :=
  (es.filter fun e => acc e).foldl (fun c e => c.storeRows s k (off e) (s.elem k v (s.vcfg k).ew e) ((s.vcfg k).ew / 8)) c

/-- The late writes of the stores of some elements to the scratchpad. -/
def State.storedLate (es : List Nat) : List LateWrite := (es.filter fun e => !acc e).map fun e =>
  ⟨s.cl.nextOp, (coreWho s k).agent, .pool s.cl.id k false (off e), .put (s.elem k v (s.vcfg k).ew e) ((s.vcfg k).ew / 8), s.opn.fence,
    s.sourceOf (coreWho s k).agent⟩

theorem ownPut_spad (f n : Nat) (cs : Vector CoreBank 8) (late : List LateWrite) (ps : Vector PhysCore 8) (c : ClusterId) (o x m : Nat) :
    ownPut k m (s.between f n cs late ps) (.pool c k false o) x = s.between f n cs
      (late ++ [⟨s.cl.nextOp, (coreWho s k).agent, .pool c k false o, .put x m, s.opn.fence, s.sourceOf (coreWho s k).agent⟩]) ps := by
  unfold State.between
  rw [← List.append_assoc]
  rfl

theorem ownPut_acc (f n : Nat) (cs : Vector CoreBank 8) (late : List LateWrite) {ps : Vector PhysCore 8} (h : (ps[k.val]).RowsOnly) (c : ClusterId)
    (o x m : Nat) : ownPut k m (s.between f n cs late ps) (.pool c k true o) x =
      s.between f n cs late (ps.set k.val ((ps[k.val]).storeRows s k o x m) k.isLt) := by
  have none (b : Pending ArrayWrite → Bool) : ((ps[k.val]).pend.filter fun p => b p && p.eff.covers o) = [] :=
    List.filter_eq_nil_iff.mpr fun p hp => by simp [h p hp]
  unfold ownPut
  simp only
  change (((ps[k.val]).pend.filter fun p => _ && p.eff.covers o).map Pending.due).foldl _ _ = _
  rw [none]
  rfl

theorem ownPut_between (f n : Nat) (cs : Vector CoreBank 8) (es : List Nat) (late : List LateWrite) (ps : Vector PhysCore 8)
    (h : (ps[k.val]).RowsOnly) : (es.map fun e => (e, Loc.pool s.cl.id k (acc e) (off e))).foldl
      (fun t p => ownPut k ((s.vcfg k).ew / 8) t p.2 (s.elem k v (s.vcfg k).ew p.1)) (s.between f n cs late ps) =
        s.between f n cs (late ++ s.storedLate v acc off k es) (ps.set k.val (s.storedCore v acc off k es ps[k.val]) k.isLt) := by
  induction es generalizing late ps with
  | nil =>
    rw [State.storedLate, State.storedCore]
    simp
  | cons e es ih =>
    rw [List.map_cons, List.foldl_cons]
    cases ha : acc e with
    | false =>
      rw [ownPut_spad, ih _ _ h, State.storedLate, State.storedLate, State.storedCore, State.storedCore]
      simp [ha]
    | true =>
      have rows := h.storeRows s k (off e) (s.elem k v (s.vcfg k).ew e) ((s.vcfg k).ew / 8)
      rw [ownPut_acc _ _ _ _ _ _ h, ih _ _ (by rwa [Vector.getElem_set_self]), State.storedLate, State.storedLate, State.storedCore, State.storedCore,
        Vector.set_set, Vector.getElem_set_self]
      simp [ha]

end

/-- A store in a core with nothing outstanding, whatever the banks it meets. -/
theorem ownStore_eq {t : State} {k : Fin 8} {v : Fin 16} {width msel : Fin 4} {extra : List (Fin 16)} {addr : Nat → Word} {ls : List (Nat × Loc)}
    (conflicts : Bool) (fields : vecFields t k width (v :: extra) = .ok ())
    (places : ownPlaces t k (t.vcfg k).ew (activeAddrs t k msel ((t.vcfg k).count width) addr) = .ok ls)
    (idle : ∀ o ∈ t.cl.bank.ops, o.agent ≠ (coreWho t k).agent) : ownStore t k v width msel conflicts extra addr =
      .ok (let u := ls.foldl (fun u p => ownPut k ((t.vcfg k).ew / 8) u p.2 (t.elem k v (t.vcfg k).ew p.1)) t
        if conflicts then freezeFor u (bankLoad ls) else u) := by
  unfold ownStore
  simp only [fields, places, afterAcquire_of_no_own idle, bind, Except.bind]

theorem ownStore_between {s : State} {k : Fin 8} {v : Fin 16} {width msel : Fin 4} {extra : List (Fin 16)} {addr : Nat → Word} {acc : Nat → Bool}
    {off : Nat → Nat} (fields : vecFields s k width (v :: extra) = .ok ())
    (lies : ∀ e ∈ s.ownActive width msel k, Lies s.cl.part (addr e) (acc e) (off e) ∧ off e % ((s.vcfg k).ew / 8) = 0)
    (idle : ∀ o ∈ s.cl.bank.ops, o.agent ≠ (coreWho s k).agent) (conflicts : Bool) (f n : Nat) (cs : Vector CoreBank 8) (late : List LateWrite)
    {ps : Vector PhysCore 8} (rows : (ps[k.val]).RowsOnly) :
    ∃ f', ownStore (s.between f n cs late ps) k v width msel conflicts extra addr =
      .ok (s.between f' n cs (late ++ s.storedLate v acc off k (s.ownActive width msel k))
        (ps.set k.val (s.storedCore v acc off k (s.ownActive width msel k) ps[k.val]) k.isLt)) := by
  have run := ownStore_eq (t := s.between f n cs late ps) (v := v) (extra := extra) conflicts fields
    (ownPlaces_between (t := s.between f n cs late ps) lies rfl rfl fun _ => rfl) idle
  refine (exists_congr fun f' => Eq.congr_left (run.trans (congrArg (fun u : State => Except.ok (if conflicts then freezeFor u _ else u))
    (ownPut_between s v acc off k f n cs (s.ownActive width msel k) late ps rows)))).mpr ?_
  cases conflicts with
  | false => exact ⟨f, rfl⟩
  | true => exact ⟨_, rfl⟩


/-- What the statement says of a store. -/
def OwnStores (s : State) (v : Fin 16) (width msel : Fin 4) (i : Instr) (ea : Fin 8 → Nat → Word) : Prop :=
  ∀ acc off, InOwnPool s width msel ea acc off → ∃ t, exec i s = .next t ∧
    t = { s with cl := { s.cl with
      opn := s.cl.opn.map (fun o => { o with
        freeze := t.opn.freeze,
        late := o.late ++ ((List.finRange 8).filter fun k => s.enabled k).flatMap fun k => s.storedLate v (acc k) (off k) k (s.ownActive width msel k) }),
      cores := t.cl.cores } } ∧
    ∀ k : Fin 8, t.cl.cores[k.val] =
      if s.enabled k then s.storedCore v (acc k) (off k) k (s.ownActive width msel k) s.cl.cores[k.val] else s.cl.cores[k.val]

/-- The state after the stores of the cores that are done. -/
def OwnStored (s : State) (v : Fin 16) (width msel : Fin 4) (acc : Fin 8 → Nat → Bool) (off : Fin 8 → Nat → Nat) (done : List (Fin 8)) (t : State) :
    Prop :=
  ∃ f ps, t = s.between f s.freeCtr s.cl.bank.cores
      ((done.filter fun k => s.enabled k).flatMap fun k => s.storedLate v (acc k) (off k) k (s.ownActive width msel k)) ps ∧
    ∀ j : Fin 8, ps[j.val] = if j ∈ done ∧ s.enabled j = true then
      s.storedCore v (acc j) (off j) j (s.ownActive width msel j) s.cl.cores[j.val] else s.cl.cores[j.val]

section
variable {s : State} {v : Fin 16} {width msel : Fin 4} {acc : Fin 8 → Nat → Bool} {off : Fin 8 → Nat → Nat} {done : List (Fin 8)} {t : State} {k : Fin 8}
  (h : OwnStored s v width msel acc off done t)
include h

theorem OwnStored.enabled_eq : t.enabled = s.enabled := by
  obtain ⟨_, _, rfl, _⟩ := h
  rfl

theorem OwnStored.skip (disabled : s.enabled k = false) : OwnStored s v width msel acc off (done ++ [k]) t := by
  obtain ⟨f, ps, ht, stored⟩ := h
  refine ⟨f, ps, by rw [List.filter_append, List.filter_cons_of_neg (by simp [disabled]), List.filter_nil, List.append_nil, ht], fun j => ?_⟩
  rw [stored j]
  refine if_congr ?_ rfl rfl
  rw [List.mem_append, List.mem_singleton, or_and_right, or_iff_left]
  rintro ⟨rfl, enabled⟩
  rw [disabled] at enabled
  cases enabled

/-- The store of the next core. -/
theorem OwnStored.step {conflicts : Bool} {extra : List (Fin 16)} {ea : Fin 8 → Nat → Word} (new : k ∉ done) (enabled : s.enabled k = true)
    (fields : vecFields s k width (v :: extra) = .ok ()) (lies : InOwnPool s width msel ea acc off)
    (idle : ∀ o ∈ s.cl.bank.ops, o.agent ≠ (coreWho s k).agent) (pend : (s.cl.cores[k.val]).pend = []) :
    ∃ u, ownStore t k v width msel conflicts extra (ea k) = .ok u ∧ OwnStored s v width msel acc off (done ++ [k]) u := by
  obtain ⟨f, ps, rfl, stored⟩ := h
  have untouched : ps[k.val] = s.cl.cores[k.val] := (stored k).trans (if_neg fun h => new h.1)
  have rows : (ps[k.val]).RowsOnly := fun p hp => by
    rw [untouched, pend] at hp
    cases hp
  obtain ⟨f', store⟩ := ownStore_between fields (lies k enabled) idle conflicts f s.freeCtr s.cl.bank.cores
    ((done.filter fun k => s.enabled k).flatMap fun k => s.storedLate v (acc k) (off k) k (s.ownActive width msel k)) rows
  refine ⟨_, store, f', ps.set k.val (s.storedCore v (acc k) (off k) k (s.ownActive width msel k) ps[k.val]) k.isLt, ?_, fun j => ?_⟩
  · rw [List.filter_append, List.flatMap_append, List.filter_cons_of_pos enabled, List.filter_nil, List.flatMap_singleton]
  · rw [getElem_set_fin, untouched, stored]
    by_cases hj : j = k
    · simp [hj, enabled]
    · simp [hj]

end

theorem ownStores_of_exec {s : State} {v : Fin 16} {width msel : Fin 4} {rs : List (Fin 16)} {i : Instr} {conflicts : Bool} {extra : List (Fin 16)}
    {ea : Fin 8 → Nat → Word} (legal : VecLegal s width rs)
    (idle : ∀ o ∈ s.cl.bank.ops, ∀ k : Fin 8, s.enabled k = true → o.agent.val ≠ k.val) (pend : ∀ j : Fin 8, (s.cl.cores[j.val]).pend = [])
    (run : exec i s = outcome s (eachCore (fun k t => ownStore t k v width msel conflicts extra (ea k)) s)) (regs : ∀ r ∈ v :: extra, r ∈ rs) :
    OwnStores s v width msel i ea := by
  intro acc off lies
  cases ho : s.cl.opn with
  | none =>
    refine ⟨s, run.trans (congrArg (outcome s) (eachCore_of_no_bundle ho _)), ?_, fun k => ?_⟩
    · exact congrArg (fun p => { s with cl := { s.cl with opn := p } }) ho
    · rw [s.enabled_of_no_bundle ho, if_neg Bool.false_ne_true]
  | some o =>
    obtain ⟨t, cores, f, ps, rfl, stored⟩ := eachCore_induction (P := OwnStored s v width msel acc off)
      (f := fun k t => ownStore t k v width msel conflicts extra (ea k)) (fun h => h.enabled_eq) (fun _ disabled h => h.skip disabled)
      (fun {_ k _ _} split enabled h => h.step (notMem_done split) enabled
        (vecFields_of_legal legal.1 fun r hr => legal.2 k enabled r (regs r hr)) lies
        (fun o ho h => idle o ho k enabled (congrArg Fin.val h)) (pend k))
      ⟨_, _, (State.between_self ho).symm, fun j => by simp⟩
    refine ⟨_, run.trans (congrArg (outcome s) cores), ?_, fun k => ?_⟩
    · rw [State.between, State.opn_of_some ho]
      rfl
    · refine (stored k).trans (if_congr ?_ rfl rfl)
      simp


/-! ### Traps (R164, R165) -/

/-- What the statement says of the traps of a slot. -/
def OwnTraps (s : State) (width msel : Fin 4) (i : Instr) (ea : Fin 8 → Nat → Word) : Prop :=
  ∀ (k : Fin 8) (e : Nat), OnlyCore s k → (s.ownActive width msel k).head? = some e →
    ((∀ acc off, ¬Lies s.cl.part (ea k e) acc off) → exec i s = .next (takeTrap s 0x07 (ea k e) ⟨k.val, by omega⟩)) ∧
    (∀ acc off, Lies s.cl.part (ea k e) acc off → off % ((s.vcfg k).ew / 8) ≠ 0 →
      exec i s = .next (takeTrap s 0x08 (ea k e) ⟨k.val, by omega⟩))

/-- A slot whose work in a core fails where the place of the first active element does. -/
theorem ownTraps_of_exec {s : State} {width msel : Fin 4} {i : Instr} {ea : Fin 8 → Nat → Word} {f : Fin 8 → State → Eff State}
    (run : exec i s = outcome s (eachCore f s))
    (fails : ∀ k x, s.enabled k = true →
      ownPlaces s k (s.vcfg k).ew (activeAddrs s k msel ((s.vcfg k).count width) (ea k)) = .error x → f k s = .error x) :
    OwnTraps s width msel i ea := by
  intro k e only first
  have trap {c : BitVec 8} (cause : [0x04, 0x05, 0x0B, 0x16].contains c.toNat = false)
      (place : ownPlace s k (s.vcfg k).ew (ea k e) = (coreWho s k).trap c (ea k e)) :
      exec i s = .next (takeTrap s c (ea k e) ⟨k.val, by omega⟩) := by
    have failed : f k s = .error (.trap c (ea k e) ⟨k.val, by omega⟩) := by
      refine fails k _ ((only k).trans (decide_eq_true rfl)) ?_
      rw [activeAddrs_eq]
      exact ownPlaces_of_head first place
    rw [run, eachCore_trap_of_onlyCore only failed, outcome_trap _ _ cause]
  refine ⟨fun outside => trap rfl (ownPlace_of_outside s k outside), fun acc off lies misaligned => trap rfl ?_⟩
  have same : (ea k e).toNat % ((s.vcfg k).ew / 8) = off % ((s.vcfg k).ew / 8) := lies.aligned_iff (s.opn.regs.coreVl[k.val]).2
  rw [ownPlace_of_lies s k lies, if_pos (same ▸ misaligned)]

theorem ownTraps_of_load {s : State} {v : Fin 16} {width msel : Fin 4} {rs : List (Fin 16)} (legal : VecLegal s width rs) {i : Instr} {lat : Nat}
    {conflicts : Bool} {extra : List (Fin 16)} {ea : Fin 8 → Nat → Word}
    (run : exec i s = outcome s (eachCore (fun k t => ownLoad t k v width msel lat conflicts extra (ea k)) s)) (regs : ∀ r ∈ v :: extra, r ∈ rs) :
    OwnTraps s width msel i ea := ownTraps_of_exec run fun k x enabled places => by
  have fields := vecFields_of_legal (k := k) legal.1 fun r hr => legal.2 k enabled r (regs r hr)
  unfold ownLoad
  simp only [fields, places, bind, Except.bind]

theorem ownTraps_of_store {s : State} {v : Fin 16} {width msel : Fin 4} {rs : List (Fin 16)} (legal : VecLegal s width rs) {i : Instr}
    {conflicts : Bool} {extra : List (Fin 16)} {ea : Fin 8 → Nat → Word}
    (run : exec i s = outcome s (eachCore (fun k t => ownStore t k v width msel conflicts extra (ea k)) s)) (regs : ∀ r ∈ v :: extra, r ∈ rs) :
    OwnTraps s width msel i ea := ownTraps_of_exec run fun k x enabled places => by
  have fields := vecFields_of_legal (k := k) legal.1 fun r hr => legal.2 k enabled r (regs r hr)
  unfold ownStore
  simp only [fields, places, bind, Except.bind]

/-! ### The bundle commits (R299) -/

section
variable {s : State} {k : Fin 8} (pend : (s.cl.cores[k.val]).pend = [])
include pend

/-- A write to the scratchpad of the current cluster changes its bytes, and no other core. -/
theorem State.writeLoc_spad (off x n : Nat) :
    (s.writeLoc (.pool s.cl.id k false off) x n).cl.cores =
      s.cl.cores.set k.val { s.cl.cores[k.val] with spad := Mem.write (s.cl.cores[k.val]).spad off x n } k.isLt ∧
    (s.writeLoc (.pool s.cl.id k false off) x n).mem = s.mem := by
  have here : s.clusterAt s.cl.id = s.cl := if_pos rfl
  have after : s.poolAfter s.cl.id k false off x n =
      s.cl.setCore k { s.cl.cores[k.val] with spad := Mem.write (s.cl.cores[k.val]).spad off x n } := by
    rw [State.poolAfter, State.poolBytes, here, Cluster.coreNow, PhysCore.settle_of_no_pend pend]
    rfl
  have put : s.setCluster (s.poolAfter s.cl.id k false off x n) = { s with cl := s.poolAfter s.cl.id k false off x n } := by
    rw [after]
    exact if_pos rfl
  rw [State.writeLoc_pool, put, after]
  simp only
  split
  · exact ⟨rfl, rfl⟩
  · exact ⟨rfl, rfl⟩

/-- The one late write of a bundle is there for its agent, and for all once the bundle commits. -/
theorem commitLate_spad {x : LateWrite} {off v n : Nat} (late : s.opn.late = [x]) (loc : x.loc = .pool s.cl.id k false off) (act : x.act = .put v n)
    (ops : s.cl.bank.ops = []) :
    (commitLate s).mem = s.mem ∧ (ownView s x.agent).cl.cores = (commitLate s).cl.cores ∧
    (commitLate s).cl.cores =
      s.cl.cores.set k.val { s.cl.cores[k.val] with spad := Mem.write (s.cl.cores[k.val]).spad off v n } k.isLt := by
  have idle : ∀ o ∈ s.cl.bank.ops, o.agent ≠ x.agent := fun o ho => by
    rw [ops] at ho
    cases ho
  have performed : performLate s x = s.writeLoc (.pool s.cl.id k false off) v n := by
    rw [performLate_pool idle loc, loc, act]
    rfl
  have commits : commitLate s = (performLate s x).modOpn fun o => { o with late := [] } := by
    rw [commitLate, late]
    rfl
  have view : ownView s x.agent = performLate s x := by
    have own : s.opn.late.filter (fun y => y.agent = x.agent) = [x] := by simp [late]
    have none : (performLate s x).cl.bank.ops = [] := (performLate_ops idle).1.trans ops
    rw [ownView, own, List.foldl_cons, List.foldl_nil, State.bank, none]
    rfl
  obtain ⟨cores, mem⟩ := State.writeLoc_spad pend off v n
  rw [commits, view, performed]
  exact ⟨mem, rfl, cores⟩

end

/-- The bytes of memory after a write. -/
theorem Mem.get_write_ite {m : Mem} (h : Mem.wf m = true) (a x n b : Nat) :
    Mem.get (Mem.write m a x n) b = if a ≤ b ∧ b < a + n then BitVec.ofNat 8 (x / 256 ^ (b - a)) else Mem.get m b := by
  split
  next inside =>
    have byte := Mem.get_write n h a x (b - a) (by omega)
    rwa [Nat.add_sub_of_le inside.1] at byte
  next outside => exact Mem.get_write_other n h a x b (by omega)

end Sys2Proof.Machine
end

section
/-!
SETTLED. O35: the scratchpad forms (R157, R158, R164 to R166, R299).
-/

namespace Sys2Proof.Machine

/-- Settles O35, core by core: each state between two cores has the pools of the first, so every core reads what it would read alone. -/
theorem scratchpadForms : Obligations.ScratchpadForms := by
  unfold Obligations.ScratchpadForms
  refine ⟨fun s v a vi width msel scale disp legal pend idle => ?_, fun s o x k off v n ho late loc act ops pend wf => ?_⟩
  · have one : ∀ r ∈ [v], r ∈ [v, vi] := fun r hr => List.mem_cons.mpr (.inl (List.mem_singleton.mp hr))
    have both : ∀ r ∈ [v, vi], r ∈ [v, vi] := fun _ => id
    exact ⟨ownLoads_of_exec legal idle pend rfl one, ownLoads_of_exec legal idle pend rfl one, ownLoads_of_exec legal idle pend rfl both,
      ownStores_of_exec legal idle pend rfl one, ownStores_of_exec legal idle pend rfl both,
      ownTraps_of_load legal rfl one, ownTraps_of_load legal rfl one, ownTraps_of_load legal rfl both,
      ownTraps_of_store legal rfl one, ownTraps_of_store legal rfl both⟩
  · obtain ⟨mem, view, cores⟩ := commitLate_spad pend (by rw [State.opn_of_some ho, late]) loc act ops
    have core (j : Fin 8) : (commitLate s).cl.cores[j.val] =
        if j = k then { s.cl.cores[k.val] with spad := Mem.write (s.cl.cores[k.val]).spad off v n } else s.cl.cores[j.val] := by
      rw [cores]
      exact getElem_set_fin ..
    refine ⟨view, mem, fun j hj => (core j).trans (if_neg hj), ?_, fun b => ?_⟩
    · rw [(core k).trans (if_pos rfl)]
    · rw [(core k).trans (if_pos rfl)]
      exact Mem.get_write_ite wf off v n b

end Sys2Proof.Machine
end

section
/-!
SUPPORT. Records of tasks and launches (R263, R264): what the hardware's own reads of main memory leave of the launches and of the fault queues,
traced or not, and the queues of a die.
-/

namespace Sys2Proof.Machine

/-! ### Launches and fault queues beside the reads of an engine -/

/-- From s to t no launch and no fault queue has changed. -/
structure SameRecords (s t : State) : Prop where
  launches : t.launches = s.launches
  faults : ∀ d, (t.die d).fq = (s.die d).fq

theorem SameRecords.of_dies {s t : State} (launches : t.launches = s.launches) (dies : t.dies = s.dies) : SameRecords s t :=
  ⟨launches, fun d => congrArg (fun x : Vector Die 64 => (x.get d).fq) dies⟩

theorem SameRecords.refl (s : State) : SameRecords s s := .of_dies rfl rfl

theorem SameRecords.trans {s t u : State} (h : SameRecords s t) (k : SameRecords t u) : SameRecords s u :=
  ⟨k.launches.trans h.launches, fun d => (k.faults d).trans (h.faults d)⟩

/-- What leaves them alone, after a change beside launches and dies. -/
theorem SameRecords.after {s t u : State} (k : SameRecords t u) (launches : t.launches = s.launches) (dies : t.dies = s.dies) : SameRecords s u :=
  (SameRecords.of_dies launches dies).trans k

theorem SameRecords.ite {s t u : State} {p : Prop} [Decidable p] (ht : SameRecords s t) (hu : SameRecords s u) :
    SameRecords s (if p then t else u) := by
  split
  · exact ht
  · exact hu

theorem SameRecords.foldl {α : Type} {f : State → α → State} (hf : ∀ s a, SameRecords s (f s a)) (l : List α) (s : State) :
    SameRecords s (l.foldl f s) := by
  induction l generalizing s with
  | nil => exact .refl s
  | cons a l ih => exact (hf s a).trans (ih _)

theorem State.setDie_sameRecords {s : State} {d : Fin 64} {x : Die} (h : x.fq = (s.die d).fq) : SameRecords s (s.setDie d x) := by
  refine ⟨rfl, fun e => ?_⟩
  rw [State.die_setDie]
  split
  next he => rw [he, h]
  next => rfl

/-! #### Trace records and corrections -/

theorem State.countRecord_sameRecords (s : State) (d : Fin 64) (kept : Bool) : SameRecords s (s.countRecord d kept) :=
  .ite (.of_dies rfl rfl) (.of_dies rfl rfl)

theorem State.traceWrite_sameRecords (s : State) (d : Fin 64) (ws : List Word) : SameRecords s (s.traceWrite d ws) :=
  .ite (s.countRecord_sameRecords d false) (.ite ((State.countRecord_sameRecords ..).after rfl rfl)
    ((State.countRecord_sameRecords ..).after rfl rfl))

theorem State.cohRecord_sameRecords (s : State) (q : Requester) (line event before after : Nat) :
    SameRecords s (s.cohRecord q line event before after) := .ite (State.traceWrite_sameRecords ..) (.refl s)

theorem State.correct_sameRecords (s : State) (pa n : Nat) : SameRecords s (s.correct pa n) := .ite (.refl s) (.of_dies rfl rfl)

/-! #### The directory -/

theorem State.evictLine_sameRecords (s : State) (d : Fin 64) (line : Nat) : SameRecords s (s.evictLine d line) :=
  .ite (.refl s) (.trans (.ite (.refl s) (State.cohRecord_sameRecords ..)) (.of_dies rfl rfl))

theorem State.evictBlock_sameRecords (s : State) (d : Fin 64) (b : Block) : SameRecords s (s.evictBlock d b) :=
  (SameRecords.foldl (fun t i => t.evictLine_sameRecords d (b.first + i)) _ s).trans (State.setDie_sameRecords rfl)

theorem State.trimSlice_sameRecords (s : State) (d : Fin 64) (line n : Nat) : SameRecords s (s.trimSlice d line n) := by
  have draw : SameRecords s { s with freeCtr := s.freeCtr + 1 } := .of_dies rfl rfl
  unfold State.trimSlice
  refine .ite (.refl s) (.ite (.refl s) ?_)
  simp only
  split
  · exact draw.trans (State.evictLine_sameRecords ..)
  · split
    · exact draw.trans (State.evictBlock_sameRecords ..)
    · exact draw

theorem State.enterLine_sameRecords (s : State) (d : Fin 64) (line st : Nat) : SameRecords s (s.enterLine d line st) :=
  .trans (.ite (.refl s) (State.trimSlice_sameRecords ..)) (.of_dies rfl rfl)

theorem State.otherLines_sameRecords (s : State) (d : Fin 64) (line : Nat) (f : Nat → Nat) : SameRecords s (s.otherLines d line f) := .of_dies rfl rfl

theorem State.readLine_sameRecords (s : State) (q : Requester) (line : Nat) : SameRecords s (s.readLine q line) :=
  .ite (.refl s) (((State.otherLines_sameRecords ..).trans (State.enterLine_sameRecords ..)).trans (State.cohRecord_sameRecords ..))

theorem State.readRun_sameRecords (s : State) (q : Requester) (pa n : Nat) : SameRecords s (s.readRun q pa n) :=
  .foldl (fun t l => t.readLine_sameRecords q l) _ s

/-! #### Walks and places -/

theorem readPte_sameRecords {s s1 : State} {w : Who} {va e : Word} {pa : Nat} (h : readPte s w va pa = .ok (s1, e)) : SameRecords s s1 := by
  unfold readPte at h
  simp only [Eff.ite_trap_eq_ok] at h
  obtain ⟨-, -, ⟨⟩⟩ := h
  exact (s.correct_sameRecords pa 8).trans (State.cohRecord_sameRecords ..)

theorem walkFrom_sameRecords {w : Who} {va : Word} {ls : List Nat} {table : Nat} {s s1 : State} {l : Leaf}
    (h : walkFrom w va ls table s = .ok (s1, l)) : SameRecords s s1 := by
  induction ls generalizing table s with
  | nil => cases h
  | cons lv rest ih =>
    unfold walkFrom at h
    obtain ⟨⟨s2, e⟩, hp, h⟩ := Eff.bind_eq_ok.mp h
    have entry := readPte_sameRecords hp
    simp only [Eff.ite_trap_eq_ok] at h
    obtain ⟨-, -, h⟩ := h
    split at h
    · obtain ⟨-, ⟨⟩⟩ := Eff.ite_trap_eq_ok.mp h
      exact entry
    · exact entry.trans (ih h)

theorem walk_sameRecords {s s1 : State} {w : Who} {va : Word} {l : Leaf} (h : walk s w va = .ok (s1, l)) : SameRecords s s1 := by
  unfold walk at h
  obtain ⟨⟨s2, e⟩, hp, h⟩ := Eff.bind_eq_ok.mp h
  simp only [Eff.ite_trap_eq_ok] at h
  obtain ⟨-, -, h⟩ := h
  exact (readPte_sameRecords hp).trans (walkFrom_sameRecords h)

theorem enginePlace_sameRecords {s s1 : State} {asn : BitVec 16} {va : Word} {n pa : Nat} {read write : Bool}
    (h : enginePlace s asn va n read write = .ok (s1, pa)) : SameRecords s s1 := by
  unfold enginePlace at h
  obtain ⟨-, -, h⟩ := Eff.bind_eq_ok.mp h
  obtain ⟨-, h⟩ := Eff.ite_trap_eq_ok.mp h
  obtain ⟨-, -, h⟩ := Eff.bind_eq_ok.mp h
  obtain ⟨⟨s2, l⟩, hw, h⟩ := Eff.bind_eq_ok.mp h
  obtain ⟨-, -, h⟩ := Eff.bind_eq_ok.mp h
  obtain ⟨pa', -, h⟩ := Eff.bind_eq_ok.mp h
  simp only [Eff.ite_trap_eq_ok] at h
  obtain ⟨-, -, ⟨⟩⟩ := h
  exact (walk_sameRecords hw).trans (.ite (State.correct_sameRecords ..) (.refl _))

/-- A read of an engine finds the launches and the fault queues as they are. -/
theorem engineLoc_sameRecords {s s1 : State} {asn : BitVec 16} {va : Word} {n pa : Nat}
    (h : engineLoc s asn va n true false = .ok (s1, pa)) : SameRecords s s1 := by
  unfold engineLoc at h
  obtain ⟨⟨s2, pa'⟩, hp, ⟨⟩⟩ := Eff.bind_eq_ok.mp h
  exact (enginePlace_sameRecords hp).trans (State.readRun_sameRecords ..)


/-! ### The record that a cluster takes (R263) -/

section
variable {s : State} {c : Cluster}

/-- The records of a level of a queue of the cluster's die. -/
def State.level (s : State) (c : Cluster) (q : Option (Fin 8)) (lv : Fin 4) : List QEntry := ((s.die c.id.die).queue q).levels[lv.val]

/-- The cluster may hold none of them. -/
def NoneOf (s : State) (c : Cluster) (q : Option (Fin 8)) (lv : Fin 4) : Prop := ∀ x ∈ s.level c q lv, mayHold s c x = false

/-- The record that it takes of a level. -/
def nextOfLevel (s : State) (c : Cluster) (lv : Fin 4) : Option (QEntry × Option (Fin 8) × Fin 4) :=
  [some c.id.cluster, none].findSome? fun q => ((s.level c q lv).find? (mayHold s c)).map fun e => (e, q, lv)

theorem nextRecord_eq (s : State) (c : Cluster) : nextRecord s c = [3, 2, 1, 0].findSome? (nextOfLevel s c) := rfl

theorem find?_mayHold_eq_none {q : Option (Fin 8)} {lv : Fin 4} : (s.level c q lv).find? (mayHold s c) = none ↔ NoneOf s c q lv := by
  rw [List.find?_eq_none, NoneOf]
  simp only [Bool.not_eq_true]

theorem nextOfLevel_eq_none {lv : Fin 4} : nextOfLevel s c lv = none ↔ NoneOf s c none lv ∧ NoneOf s c (some c.id.cluster) lv := by
  rw [nextOfLevel, List.findSome?_eq_none_iff]
  simp only [List.mem_cons, List.not_mem_nil, or_false, forall_eq_or_imp, forall_eq, Option.map_eq_none_iff, find?_mayHold_eq_none]
  exact and_comm

/-- The oldest record that the cluster may hold of the level, one of its own queue first. -/
structure OldestOf (s : State) (c : Cluster) (e : QEntry) (q : Option (Fin 8)) (lv : Fin 4) : Prop where
  may : mayHold s c e = true
  queue : q = none ∨ q = some c.id.cluster
  oldest : ∃ pre post, s.level c q lv = pre ++ e :: post ∧ ∀ x ∈ pre, mayHold s c x = false
  own : q = none → NoneOf s c (some c.id.cluster) lv

theorem oldestOf_of_nextOfLevel {e : QEntry} {q : Option (Fin 8)} {lv l : Fin 4} (h : nextOfLevel s c l = some (e, q, lv)) :
    lv = l ∧ OldestOf s c e q l := by
  have found {q' : Option (Fin 8)} (hf : ((s.level c q' l).find? (mayHold s c)).map (fun e => (e, q', l)) = some (e, q, lv))
      (queue : q' = none ∨ q' = some c.id.cluster) (own : q' = none → NoneOf s c (some c.id.cluster) l) : lv = l ∧ OldestOf s c e q l := by
    obtain ⟨x, hx, ⟨⟩⟩ := Option.map_eq_some_iff.mp hf
    obtain ⟨may, pre, post, split, before⟩ := List.find?_eq_some_iff_append.mp hx
    exact ⟨rfl, may, queue, ⟨pre, post, split, fun y hy => by simpa using before y hy⟩, own⟩
  rw [nextOfLevel, List.findSome?_cons] at h
  split at h
  next r hr => exact found (hr.trans h) (.inr rfl) nofun
  next hn =>
    rw [List.findSome?_cons] at h
    split at h
    next r hr => exact found (hr.trans h) (.inl rfl) fun _ => find?_mayHold_eq_none.mp (Option.map_eq_none_iff.mp hn)
    next => cases h

/-- The levels, from the highest. -/
theorem mem_levels (lv : Fin 4) : lv ∈ ([3, 2, 1, 0] : List (Fin 4)) := by
  revert lv
  decide

theorem nextRecord_eq_none (h : nextRecord s c = none) (lv : Fin 4) : NoneOf s c none lv ∧ NoneOf s c (some c.id.cluster) lv := by
  rw [nextRecord_eq, List.findSome?_eq_none_iff] at h
  exact nextOfLevel_eq_none.mp (h lv (mem_levels lv))

/-- It is of the highest level with one. -/
theorem nextRecord_eq_some {e : QEntry} {q : Option (Fin 8)} {lv : Fin 4} (h : nextRecord s c = some (e, q, lv)) :
    OldestOf s c e q lv ∧ ∀ lv' : Fin 4, lv < lv' → NoneOf s c none lv' ∧ NoneOf s c (some c.id.cluster) lv' := by
  rw [nextRecord_eq, List.findSome?_eq_some_iff] at h
  obtain ⟨higher, l, lower, levels, hl, before⟩ := h
  obtain ⟨rfl, oldest⟩ := oldestOf_of_nextOfLevel hl
  refine ⟨oldest, fun lv' above => nextOfLevel_eq_none.mp (before lv' ?_)⟩
  have falling : (higher ++ lv :: lower).Pairwise (· > ·) := levels ▸ by decide
  have here : lv' ∈ higher ++ lv :: lower := levels ▸ mem_levels lv'
  rcases List.mem_append.mp here with here | here
  · exact here
  · rcases List.mem_cons.mp here with rfl | here
    · exact absurd above (lt_irrefl _)
    · exact absurd above (lt_asymm ((List.pairwise_cons.mp (List.pairwise_append.mp falling).2.1).1 lv' here))

end

/-! ### A queue without the record -/

theorem Die.queue_setQueue (x : Die) (q : Option (Fin 8)) (y : Queue) : (x.setQueue q y).queue q = y := by
  cases q with
  | none => rfl
  | some k => exact Vector.getElem_set_self k.isLt

theorem State.level_dequeue (s : State) (c : Cluster) (q : Option (Fin 8)) (lv lv' : Fin 4) (e : QEntry) :
    (s.dequeue c.id.die q lv e).level c q lv' = if lv' = lv then (s.level c q lv).erase e else s.level c q lv' := by
  rw [State.level, State.dequeue, State.die_setDie, if_pos rfl, Die.queue_setQueue]
  exact getElem_set_fin ..

theorem State.dequeue_sameRecords (s : State) (d : Fin 64) (q : Option (Fin 8)) (lv : Fin 4) (e : QEntry) : SameRecords s (s.dequeue d q lv e) := by
  refine State.setDie_sameRecords ?_
  cases q with
  | none => rfl
  | some k => rfl

/-! ### Ageing (R261) -/

/-- The records of a level that have waited 2^20 cycles, as the next level takes them. -/
def agedOf (now : Nat) (l : List QEntry) : List QEntry := (l.filter fun e => e.since + 2 ^ 20 ≤ now).map fun e => { e with since := now }

/-- The others. -/
def youngOf (now : Nat) (l : List QEntry) : List QEntry := l.filter fun e => now < e.since + 2 ^ 20

theorem Queue.levels_ageLevel (now : Nat) (q : Queue) (lv : Fin 3) : (q.ageLevel now lv).levels =
    (q.levels.set lv.val (youngOf now q.levels[lv.val])).set (lv.val + 1) (q.levels[lv.val + 1] ++ agedOf now q.levels[lv.val]) := by
  have young (e : QEntry) : (!e.aged now) = decide (now < e.since + 2 ^ 20) := by
    rw [QEntry.aged, ← decide_not]
    exact decide_eq_decide.mpr Nat.not_le
  simp only [Queue.ageLevel, young]
  rfl

theorem Queue.levels_age (now : Nat) (q : Queue) :
    (q.age now).levels[3] = q.levels[3] ++ agedOf now q.levels[2] ∧ (q.age now).levels[2] = youngOf now q.levels[2] ++ agedOf now q.levels[1] ∧
    (q.age now).levels[1] = youngOf now q.levels[1] ++ agedOf now q.levels[0] ∧ (q.age now).levels[0] = youngOf now q.levels[0] := by
  have steps : q.age now = ((q.ageLevel now 2).ageLevel now 1).ageLevel now 0 := rfl
  simp [steps, Queue.levels_ageLevel]

/-- QUEUE_AGEING leaves every other die, and all but the dies, as it is. -/
theorem exec_queueAgeing (s : State) : ∃ t, exec .queueAgeing s = .next t ∧ t.cl = s.cl ∧ t.mem = s.mem ∧ (∀ d, d ≠ s.ev.c.die → t.die d = s.die d) ∧
    ∀ q, (t.die s.ev.c.die).queue q = ((s.die s.ev.c.die).queue q).age s.now := by
  refine ⟨_, rfl, rfl, rfl, fun d hd => (s.die_setDie ..).trans (if_neg hd), fun q => ?_⟩
  rw [State.die_setDie, if_pos rfl]
  cases q with
  | none => rfl
  | some k => exact Vector.getElem_map ..


/-! ### Banks (R264 to R266) -/

theorem SameTask.refl (b : Bank) : SameTask b b := by simp [SameTask]

/-- A bank that is free is no resident, and neither the running one. -/
theorem run_ne_of_freeBankFor {c : Cluster} {part : BitVec 32} {i : Fin 8} (h : freeBankFor c part = some i) : c.run ≠ some i := by
  unfold freeBankFor at h
  split at h
  · cases h
  · have free := List.find?_some h
    intro run
    simp [Cluster.residents, run] at free

section
variable {s : State} {i : Fin 8} (b : Bank) (h : s.cl.run ≠ some i)
include h

theorem State.setBankAt_of_ne : s.setBankAt i b = s.modCl fun c => { c with banks := c.banks.set i.val b i.isLt } := if_neg h

theorem State.bankAt_setBankAt (j : Fin 8) : (s.setBankAt i b).bankAt j = if j = i then b else s.bankAt j := by
  rw [State.setBankAt_of_ne b h]
  change (if s.cl.run = some j then s.cl.bank else (s.cl.banks.set i.val b i.isLt)[j.val]) = _
  rw [getElem_set_fin, State.bankAt]
  by_cases hj : j = i
  · subst hj
    rw [if_neg h, if_pos rfl, if_pos rfl]
  · rw [if_neg hj, if_neg hj]

end

/-! #### The switch point (R265) -/

/-- A bank as it starts to run: a term's basis is expanded again from now (R321). -/
def Bank.running (b : Bank) (now : Nat) : Bank :=
  { b with
    state := .running, byArrival := false,
    cores := b.cores.map fun (k : CoreBank) => { k with term := k.term.map fun x => { x with ready := now } } }

/-- What a switch point leaves: everything, or, where no bank runs, all but the bank that it selects. -/
theorem State.switchPoint_cases (s : State) : s.switchPoint = s ∨ ∃ j, s.cl.run = none ∧ s.switchPoint = s.modCl fun c =>
    { c with run := some j, bank := (c.banks[j.val]).running c.clock, banks := c.banks.set j.val {} j.isLt } := by
  unfold State.switchPoint
  split
  · exact .inl rfl
  next none =>
    split
    · exact .inl rfl
    next j _ => exact .inr ⟨j, by simpa using none, rfl⟩

theorem sameTask_running (b : Bank) (now : Nat) : SameTask b (b.running now) := by
  simp [SameTask, Bank.running]

/-- A bank is as it was, or it runs. -/
theorem State.bankAt_switchPoint (s : State) (i : Fin 8) :
    (s.switchPoint.bankAt i = s.bankAt i ∧ (s.cl.run ≠ some i → s.switchPoint.cl.run ≠ some i)) ∨
    (s.switchPoint.bankAt i = (s.bankAt i).running s.cl.clock ∧ s.switchPoint.cl.run = some i) := by
  obtain same | ⟨j, none, h⟩ := s.switchPoint_cases
  · rw [same]
    exact .inl ⟨rfl, id⟩
  · have old : s.bankAt i = s.cl.banks[i.val] := if_neg (by rw [none]; nofun)
    have new : s.switchPoint.bankAt i = if some j = some i then (s.cl.banks[j.val]).running s.cl.clock else (s.cl.banks.set j.val {} j.isLt)[i.val] := by
      rw [h]
      rfl
    have run : s.switchPoint.cl.run = some j := by
      rw [h]
      rfl
    rw [new, old, run]
    by_cases hj : j = i
    · subst hj
      exact .inr ⟨if_pos rfl, rfl⟩
    · rw [if_neg fun h => hj (Option.some.inj h), getElem_set_fin, if_neg (Ne.symm hj)]
      exact .inl ⟨rfl, fun _ h => hj (Option.some.inj h)⟩

theorem State.sameTask_switchPoint (s : State) (i : Fin 8) : SameTask (s.bankAt i) (s.switchPoint.bankAt i) := by
  obtain ⟨same, -⟩ | ⟨runs, -⟩ := s.bankAt_switchPoint i
  · rw [same]
    exact .refl _
  · rw [runs]
    exact sameTask_running ..

theorem State.term_switchPoint {s : State} {i k : Fin 8} (h : ((s.bankAt i).cores[k.val]).term = none) :
    ((s.switchPoint.bankAt i).cores[k.val]).term = none := by
  obtain ⟨same, -⟩ | ⟨runs, -⟩ := s.bankAt_switchPoint i
  · rw [same, h]
  · rw [runs]
    simp [Bank.running, h]

theorem State.readyOrRuns_switchPoint {s : State} {i : Fin 8} (h : (s.bankAt i).state = .ready) (hr : s.cl.run ≠ some i) :
    ReadyOrRuns s.switchPoint i := by
  unfold ReadyOrRuns
  obtain ⟨same, run⟩ | ⟨runs, run⟩ := s.bankAt_switchPoint i
  · rw [if_neg (run hr), same, h]
  · rw [if_pos run, runs]
    rfl

/-! #### The tenant (R156) -/

/-- Forgetting the errors of barriers changes what is known of commands and barriers. -/
theorem State.forgetClear_eq (s : State) : ∃ cmds told shadows others,
    s.forgetClear = { s with cl := { s.cl with cmds := cmds, barTold := told, shadows := shadows }, others := others } := by
  unfold State.forgetClear
  split
  · exact ⟨s.cl.cmds, s.cl.barTold, s.cl.shadows, s.others, rfl⟩
  · exact ⟨_, _, _, _, rfl⟩

/-- The pool has taken a partition word and an ASN. -/
structure PoolOf (s t : State) (part : BitVec 32) (asn : BitVec 16) : Prop where
  mem : t.mem = s.mem
  dies : t.dies = s.dies
  id : t.cl.id = s.cl.id
  partition : t.cl.part = part
  space : t.cl.asn = asn
  cores : ∀ k : Fin 8, t.cl.cores[k.val] = if s.cl.part = part ∧ s.cl.asn = asn then s.cl.cores[k.val] else
    { s.cl.cores[k.val] with spad := [], acc := [], bufA := [], bufB := [] }

/-- So it has, and every bank is as it was. -/
structure TenantOf (s t : State) (part : BitVec 32) (asn : BitVec 16) : Prop extends PoolOf s t part asn where
  tvb : t.defaultTvb = s.defaultTvb
  run : t.cl.run = s.cl.run
  bank : t.cl.bank = s.cl.bank
  banks : t.cl.banks = s.cl.banks

theorem State.tenantOf_tenant (s : State) (part : BitVec 32) (asn : BitVec 16) : TenantOf s (s.tenant part asn) part asn := by
  obtain ⟨cmds, told, shadows, others, h⟩ := (s.modCl fun c => c.tenant part asn).forgetClear_eq
  have taken : s.cl.tenant part asn = if s.cl.part = part ∧ s.cl.asn = asn then s.cl else
      { s.cl with part := part, asn := asn, cores := s.cl.cores.map fun (k : PhysCore) => { k with spad := [], acc := [], bufA := [], bufB := [] } } := by
    unfold Cluster.tenant
    simp only [Bool.and_eq_true, decide_eq_true_eq]
  rw [State.tenant, h, State.modCl, taken]
  split
  next same => exact ⟨⟨rfl, rfl, rfl, same.1, same.2, fun k => (if_pos same).symm⟩, rfl, rfl, rfl, rfl⟩
  next other => exact ⟨⟨rfl, rfl, rfl, rfl, rfl, fun k => (Vector.getElem_map ..).trans (if_neg other).symm⟩, rfl, rfl, rfl, rfl⟩

section
variable {s t : State} {part : BitVec 32} {asn : BitVec 16}

theorem PoolOf.setBankAt (h : PoolOf s t part asn) {i : Fin 8} (free : t.cl.run ≠ some i) (b : Bank) : PoolOf s (t.setBankAt i b) part asn := by
  rw [State.setBankAt_of_ne b free]
  exact ⟨h.mem, h.dies, h.id, h.partition, h.space, h.cores⟩

theorem PoolOf.switchPoint (h : PoolOf s t part asn) : PoolOf s t.switchPoint part asn := by
  obtain same | ⟨j, -, runs⟩ := t.switchPoint_cases
  · rwa [same]
  · rw [runs]
    exact ⟨h.mem, h.dies, h.id, h.partition, h.space, h.cores⟩

end

theorem TenantOf.bankAt {s t : State} {part : BitVec 32} {asn : BitVec 16} (h : TenantOf s t part asn) (j : Fin 8) : t.bankAt j = s.bankAt j := by
  rw [State.bankAt, State.bankAt, h.run, h.bank, h.banks]


/-! ### Records of TYPE 6 (R323, R330) -/

/-- The TYPE and the CAUSE of a record of a task (Table 17.5). -/
theorem recWord0_task (code : BitVec 8) (c : ClusterId) (i : Fin 8) {slot : Nat} (asn : BitVec 16) (h : slot < 8) :
    bits (recWord0 6 code c i.val 8 slot asn) 63 56 = 6 ∧ bits (recWord0 6 code c i.val 8 slot asn) 55 48 = code.toNat := by
  have value : (recWord0 6 code c i.val 8 slot asn).toNat = 6 * 2 ^ 56 + code.toNat * 2 ^ 48 + c.die.val * 2 ^ 42 + c.cluster.val * 2 ^ 39 +
      i.val * 2 ^ 36 + 8 * 2 ^ 32 + slot * 2 ^ 29 + asn.toNat := by
    unfold recWord0
    rw [BitVec.toNat_ofNat]
    refine (Nat.mod_eq_of_lt ?_).trans ?_
    · norm_num
      omega
    · norm_num
  unfold bits
  rw [value]
  norm_num
  omega

/-- A load that fails changes nothing but the fault queue of the cluster's die, which has one record more. -/
theorem raised_restoreFailed {s t : State} (h : SameRecords s t) (i : Fin 8) (e : QEntry) (x : SaveFail) (pc : Word) {slot : Nat} (hs : slot < 8) :
    Raised s (restoreFailed t i e x pc slot) t.cl.id.die 6 x.code e.addr := by
  obtain ⟨type, code⟩ := recWord0_task x.code t.cl.id i e.asn hs
  refine ⟨⟨recWord0 6 x.code t.cl.id i.val 8 slot e.asn, x.va, pc, e.addr, .bank t.cl.id e.addr⟩, ?_, type, code, rfl⟩
  rw [restoreFailed, State.raise, State.die_setDie, if_pos rfl, h.faults]

/-! ### RECORD_TAKE (R263, R264, R266) -/

section
variable {s : State} {e : QEntry} {i : Fin 8}

theorem loadRecord_of_trap {cause : BitVec 8} {v : Word} {a : Fin 9} (h : engineLoc s e.asn e.addr 64 true false = .error (.trap cause v a)) :
    loadRecord s i e =
      restoreFailed s i e ⟨if cause = 0x04 then 0x32 else if cause = 0x16 then 0x35 else 0x33, faultVa cause v⟩ 0 0 := by
  rw [loadRecord, h]
  rfl

variable {s1 : State} {pa : Nat} (h : engineLoc s e.asn e.addr 64 true false = .ok (s1, pa))
include h

theorem loadRecord_of_fresh (kind : recKind (s1.mem.words pa 8) = 0) : loadRecord s i e =
    ((s1.tenant e.part e.asn).setBankAt i (freshBank (s1.tenant e.part e.asn) e (s1.mem.words pa 8)
      (s1.header s1.cl.id.die (wordAt (s1.mem.words pa 8) 4) e.asn))).made.switchPoint := by
  simp only [loadRecord, h, kind, if_true]

theorem loadRecord_of_saved (kind : recKind (s1.mem.words pa 8) = 1) : loadRecord s i e = (s1.tenant e.part e.asn).setBankAt i
    { state := .restoring, trec := e.addr, lrec := wordAt (s1.mem.words pa 8) 4, tsw := BitVec.ofNat 64 (e.asn.toNat * 2 ^ 48) } := by
  simp only [loadRecord, h, kind, one_ne_zero, if_false, if_true]

theorem loadRecord_of_kind (kind : 1 < recKind (s1.mem.words pa 8)) :
    loadRecord s i e = restoreFailed s1 i e ⟨0x36, 0⟩ (recCode (s1.mem.words pa 8)) (recSlot (s1.mem.words pa 8)) := by
  simp only [loadRecord, h, if_neg (show ¬recKind (s1.mem.words pa 8) = 0 by omega), if_neg (show ¬recKind (s1.mem.words pa 8) = 1 by omega)]

end

/-- Nothing to take, or a cluster that is to be pre-empted. -/
theorem recordTake_of_none {s : State} (h : nextRecord s s.cl = none ∨ s.cl.preempt ≠ none) : recordTake s = s := by
  unfold recordTake
  split
  · rfl
  next stays =>
    rw [h.resolve_right (by simpa using stays)]

theorem recordTake_of_some {s : State} {e : QEntry} {q : Option (Fin 8)} {lv : Fin 4} {i : Fin 8} (stays : s.cl.preempt = none)
    (next : nextRecord s s.cl = some (e, q, lv)) (free : freeBankFor s.cl e.part = some i) :
    recordTake s = loadRecord (s.dequeue s.cl.id.die q lv e) i e := by
  unfold recordTake
  rw [stays, next]
  simp only [Option.isSome_none, Bool.false_eq_true, if_false, free]

theorem exec_recordTake {s t : State} (here : s.ev.c = s.cl.id) (h : recordTake s = t) (stays : t.cl.id = s.cl.id) :
    exec .recordTake s = .next t := by
  subst h
  exact congrArg _ ((congrArg (fun c => onCluster c recordTake s) here).trans (onCluster_self stays))

/-! #### A fresh start (Table 14.4) -/

section
variable {s t : State} {e : QEntry} {i : Fin 8} {ws h : List Word} (take : TenantOf s t e.part e.asn) (free : s.cl.run ≠ some i)

/-- The state once the bank has started. -/
def State.started (t : State) (i : Fin 8) (e : QEntry) (ws h : List Word) : State := (t.setBankAt i (freshBank t e ws h)).made.switchPoint

include take free

theorem bankAt_made_setBankAt (b : Bank) (j : Fin 8) : (t.setBankAt i b).made.bankAt j = if j = i then b else s.bankAt j := by
  change (t.setBankAt i b).bankAt j = _
  rw [State.bankAt_setBankAt b (take.run ▸ free), take.bankAt]

theorem started_fresh : SameTask (freshBank t e ws h) ((t.started i e ws h).bankAt i) ∧ ReadyOrRuns (t.started i e ws h) i ∧
    ∀ k : Fin 8, (((t.started i e ws h).bankAt i).cores[k.val]).term = none := by
  have bank : (t.setBankAt i (freshBank t e ws h)).made.bankAt i = freshBank t e ws h := (bankAt_made_setBankAt take free _ i).trans (if_pos rfl)
  have run : (t.setBankAt i (freshBank t e ws h)).made.cl.run ≠ some i := by
    rw [State.setBankAt_of_ne _ (take.run ▸ free)]
    exact take.run ▸ free
  refine ⟨?_, State.readyOrRuns_switchPoint (by rw [bank]; rfl) run, fun k => State.term_switchPoint ?_⟩
  · have same := State.sameTask_switchPoint (t.setBankAt i (freshBank t e ws h)).made i
    rwa [bank] at same
  · rw [bank]
    simp [freshBank]

theorem started_others {j : Fin 8} (hj : j ≠ i) : SameTask (s.bankAt j) ((t.started i e ws h).bankAt j) := by
  have same := State.sameTask_switchPoint (t.setBankAt i (freshBank t e ws h)).made j
  rwa [bankAt_made_setBankAt take free, if_neg hj] at same

theorem started_pool : PoolOf s (t.started i e ws h) e.part e.asn := by
  have pool := take.toPoolOf.setBankAt (take.run ▸ free) (freshBank t e ws h)
  have made : PoolOf s (t.setBankAt i (freshBank t e ws h)).made e.part e.asn := ⟨pool.mem, pool.dies, pool.id, pool.partition, pool.space, pool.cores⟩
  exact made.switchPoint

end


/-- A bank with the task of a fresh start has the values of Table 14.4. -/
theorem registers_of_fresh {t : State} {e : QEntry} {ws h : List Word} {b : Bank} (same : SameTask (freshBank t e ws h) b) :
    b.pc = recCode ws ∧ (∀ r : Fin 32, b.file.s[r.val] = if r = 1 then hdrArgs h else 0) ∧ b.file.q = 1 ∧
    b.file.h = Vector.replicate 16 0 ∧ b.lc = Vector.replicate 6 0 ∧ (∀ l : Fin 6, (b.loops[l.val]).active = false) ∧
    b.wid = wordAt ws 3 ∧ b.trec = e.addr ∧ b.frame = wordAt ws 1 ∧ b.tidx = wordAt ws 6 ∧ b.lrec = wordAt ws 4 ∧
    b.tsw.toNat = e.asn.toNat * 2 ^ 48 + (hdrSup h).toNat ∧ b.slen = BitVec.ofNat 17 (2 ^ hdrSlog h) ∧ b.coreEn = 0xFF ∧ b.skew = 0 ∧ b.vl = 0 ∧
    b.vtype = 0 ∧ b.gpos = 0 ∧ b.gseedA = 0 ∧ b.gseedB = 0 ∧ b.tvb = t.defaultTvb ∧ b.handles = Vector.replicate 64 none ∧
    ∀ k : Fin 8, (b.cores[k.val]).file = {} ∧ (b.cores[k.val]).stride = Vector.replicate 16 (Vector.replicate 6 0) ∧
      (b.cores[k.val]).fmt = hdrFmt h ∧ (b.cores[k.val]).pendFmt = [] := by
  obtain ⟨file, lc, loops, pc, tsw, wid, trec, frame, tidx, lrec, slen, coreEn, skew, vl, vtype, gpos, gseedA, gseedB, tvb, -, -, -, handles, -, cores⟩ :=
    same
  refine ⟨pc, fun r => ?_, by rw [file]; rfl, by rw [file]; rfl, lc, fun l => ?_, wid, trec, frame, tidx, lrec, ?_, slen, coreEn, skew, vl, vtype, gpos,
    gseedA, gseedB, tvb, handles, fun k => ?_⟩
  · rw [file]
    refine (getElem_set_fin (Vector.replicate 32 (0 : Word)) 1 r (hdrArgs h)).trans ?_
    rw [Vector.getElem_replicate]
  · rw [loops]
    simp [freshBank]
  · have space := e.asn.isLt
    rw [tsw]
    change (BitVec.ofNat 64 (e.asn.toNat * 2 ^ 48 + (if hdrSup h then 1 else 0))).toNat = _
    rw [BitVec.toNat_ofNat]
    cases hdrSup h
    · exact Nat.mod_eq_of_lt (by simp; omega)
    · exact Nat.mod_eq_of_lt (by simp; omega)
  · obtain ⟨regs, stride, -, fmt, pendFmt⟩ := cores k
    rw [regs, stride, fmt, pendFmt]
    simp [freshBank]

/-! ### The record as it is read (R264) -/

section
variable {s s2 : State} {e : QEntry} {q : Option (Fin 8)} {lv : Fin 4} {pa : Nat}
  (read : engineLoc (s.dequeue s.cl.id.die q lv e) e.asn e.addr 64 true false = .ok (s2, pa))
include read

theorem cl_of_read : s2.cl = s.cl := (congrArg (fun x : State => x.cl) (engineLoc_besideMemory read) :)

theorem defaultTvb_of_read : s2.defaultTvb = s.defaultTvb := (congrArg (fun x : State => x.defaultTvb) (engineLoc_besideMemory read) :)

theorem sameRecords_of_read : SameRecords s s2 := (s.dequeue_sameRecords ..).trans (engineLoc_sameRecords read)

theorem header_of_read (w : Word) : s2.header s2.cl.id.die w e.asn = s.header s.cl.id.die w e.asn := by
  rw [State.header, State.launchOf, (sameRecords_of_read read).launches, cl_of_read read]
  rfl

end

end Sys2Proof.Machine
end

section
/-!
SETTLED. O47: the taking of records, and their ageing (R156, R261, R263, R264, R266, R330).
-/

namespace Sys2Proof.Machine

section
variable {s s2 : State} {e : QEntry} {q : Option (Fin 8)} {lv : Fin 4} {i : Fin 8} {pa : Nat} (stays : s.cl.preempt = none) (here : s.ev.c = s.cl.id)
  (next : nextRecord s s.cl = some (e, q, lv)) (free : freeBankFor s.cl e.part = some i)
include stays here next free

/-- A record that cannot be read. -/
theorem take_of_trap {cause : BitVec 8} {v : Word} {a : Fin 9}
    (fails : engineLoc (s.dequeue s.cl.id.die q lv e) e.asn e.addr 64 true false = .error (.trap cause v a)) :
    ∃ t, exec .recordTake s = .next t ∧ t.mem = s.mem ∧ t.cl = s.cl ∧
      Raised s t s.cl.id.die 6 (if cause = 0x04 then 0x32 else if cause = 0x16 then 0x35 else 0x33) e.addr :=
  ⟨_, exec_recordTake here ((recordTake_of_some stays next free).trans (loadRecord_of_trap fails)) rfl, rfl, rfl,
    raised_restoreFailed (s.dequeue_sameRecords ..) i e _ 0 (by decide)⟩

variable (read : engineLoc (s.dequeue s.cl.id.die q lv e) e.asn e.addr 64 true false = .ok (s2, pa))
include read

/-- A record of a task that is to be restored. -/
theorem take_of_saved (kind : recKind (s2.mem.words pa 8) = 1) : ∃ t, exec .recordTake s = .next t ∧ t.mem = s2.mem ∧
    (t.bankAt i).state = .restoring ∧ (t.bankAt i).trec = e.addr ∧ t.cl.part = e.part ∧ t.cl.asn = e.asn := by
  have taken := State.tenantOf_tenant s2 e.part e.asn
  have idle : (s2.tenant e.part e.asn).cl.run ≠ some i := by
    rw [taken.run, cl_of_read read]
    exact run_ne_of_freeBankFor free
  have pool (b : Bank) := taken.toPoolOf.setBankAt idle b
  have bank (b : Bank) : ((s2.tenant e.part e.asn).setBankAt i b).bankAt i = b := (State.bankAt_setBankAt b idle i).trans (if_pos rfl)
  refine ⟨_, exec_recordTake here ((recordTake_of_some stays next free).trans (loadRecord_of_saved read kind)) ?_, (pool _).mem, ?_, ?_,
    (pool _).partition, (pool _).space⟩
  · rw [(pool _).id, cl_of_read read]
  · rw [bank]
  · rw [bank]

/-- A record of another kind. -/
theorem take_of_kind (kind : 1 < recKind (s2.mem.words pa 8)) :
    ∃ t, exec .recordTake s = .next t ∧ t.mem = s2.mem ∧ t.cl = s.cl ∧ Raised s t s.cl.id.die 6 0x36 e.addr := by
  have cl := cl_of_read read
  have raised := raised_restoreFailed (sameRecords_of_read read) i e ⟨0x36, 0⟩ (recCode (s2.mem.words pa 8)) (slot := recSlot (s2.mem.words pa 8))
    (bits_lt _ 60 58)
  rw [cl] at raised
  exact ⟨_, exec_recordTake here ((recordTake_of_some stays next free).trans (loadRecord_of_kind read kind)) (congrArg Cluster.id cl), rfl, cl, raised⟩

/-- A record of a task that starts afresh. -/
theorem take_of_fresh (kind : recKind (s2.mem.words pa 8) = 0) : ∃ t, exec .recordTake s = .next t ∧ PoolOf s2 t e.part e.asn ∧
    (∀ j, j ≠ i → SameTask (s.bankAt j) (t.bankAt j)) ∧ ReadyOrRuns t i ∧
    (∃ u : State, u.defaultTvb = s.defaultTvb ∧ SameTask (freshBank u e (s2.mem.words pa 8)
      (s.header s.cl.id.die (wordAt (s2.mem.words pa 8) 4) e.asn)) (t.bankAt i)) ∧
    ∀ k : Fin 8, ((t.bankAt i).cores[k.val]).term = none := by
  have cl := cl_of_read read
  have taken := State.tenantOf_tenant s2 e.part e.asn
  have idle : s2.cl.run ≠ some i := by
    rw [cl]
    exact run_ne_of_freeBankFor free
  have load := loadRecord_of_fresh (i := i) read kind
  rw [header_of_read read] at load
  obtain ⟨same, ready, terms⟩ := started_fresh (ws := s2.mem.words pa 8) (h := s.header s.cl.id.die (wordAt (s2.mem.words pa 8) 4) e.asn) taken idle
  have pool := started_pool (ws := s2.mem.words pa 8) (h := s.header s.cl.id.die (wordAt (s2.mem.words pa 8) 4) e.asn) taken idle
  refine ⟨_, exec_recordTake here ((recordTake_of_some stays next free).trans load) (pool.id.trans (congrArg Cluster.id cl)), pool, fun j hj => ?_, ready,
    ⟨_, taken.tvb.trans (defaultTvb_of_read read), same⟩, terms⟩
  have others := started_others (ws := s2.mem.words pa 8) (h := s.header s.cl.id.die (wordAt (s2.mem.words pa 8) 4) e.asn) taken idle hj
  rw [State.bankAt, cl] at others
  exact others

end

/-- Settles O47: the search level by level, the load by the kind of the record that is read, and the ageing queue by queue. -/
theorem recordsAreTaken : Obligations.RecordsAreTaken := by
  unfold Obligations.RecordsAreTaken
  intro s here
  refine ⟨fun e q lv next => ?_, fun none lv => nextRecord_eq_none none lv, fun none => exec_recordTake here (recordTake_of_none none) rfl,
    fun e q lv i stays next free => ⟨fun lv' => s.level_dequeue s.cl q lv lv' e, fun cause v a => take_of_trap stays here next free,
      fun s2 pa read => ⟨fun kind => ?_, take_of_saved stays here next free read, take_of_kind stays here next free read⟩⟩, ?_⟩
  · obtain ⟨⟨may, queue, oldest, own⟩, higher⟩ := nextRecord_eq_some next
    exact ⟨may, queue, oldest, own, higher⟩
  · obtain ⟨t, run, pool, others, ready, ⟨u, vector, same⟩, terms⟩ := take_of_fresh stays here next free read kind
    obtain ⟨pc, file, q1, h16, lc, loops, wid, trec, frame, tidx, lrec, tsw, slen, coreEn, skew, vl, vtype, gpos, gseedA, gseedB, tvb, handles, cores⟩ :=
      registers_of_fresh same
    refine ⟨t, run, pool.mem, pool.dies, pool.partition, pool.space, fun k => ?_, others, ready, pc, file, q1, h16, lc, loops, wid, trec, frame, tidx, lrec,
      tsw, slen, coreEn, skew, vl, vtype, gpos, gseedA, gseedB, tvb.trans vector, handles, fun k => ?_⟩
    · rw [pool.cores, cl_of_read read]
    · obtain ⟨regs, stride, fmt, pendFmt⟩ := cores k
      exact ⟨regs, stride, fmt, pendFmt, terms k⟩
  · obtain ⟨t, run, cl, mem, dies, queues⟩ := exec_queueAgeing s
    rw [here] at dies queues
    refine ⟨t, run, cl, mem, dies, fun q => ?_⟩
    rw [queues]
    exact Queue.levels_age ..

end Sys2Proof.Machine
end
